-- ==== Sys2Proof/Word.lean ====
section
/-! DEFINITION. Sys2Proof/Word.lean: the word types of the machine and their plainest arithmetic (R4, R5). -/

namespace Sys2Proof

/-- One byte of DRAM, host memory, a typed buffer or a vector register (R4). -/
abbrev Byte := BitVec 8

/-- A scalar register, a CSR and a text word are 64 bits wide (R58, R93). -/
abbrev Word := BitVec 64

/-- A tensor header register is 256 bits wide (R94). -/
abbrev Header := BitVec 256

/-- A vector register and a queue entry hold 512 bytes (R43, R131). -/
abbrev VReg := BitVec 4096

/-- A mask register holds 1,024 bits (R133). -/
abbrev Mask := BitVec 1024

/-- The flag values of f0–f63 (R97). -/
abbrev FlagVal := BitVec 32

end Sys2Proof
end

