-- ==== Sys2Proof/Machine/Bits.lean ====
section
/-! DEFINITION. Sys2Proof/Machine/Bits.lean: bit fields, sign extension, byte order and packing of fields, used by every
other definition file (R4). -/

namespace Sys2Proof.Machine

/-- Bits `lo + n - 1 : lo` of a number (R4: bit 0 is the least significant). -/
def bits (w lo n : Nat) : Nat := w / 2 ^ lo % 2 ^ n

/-- Bit `i` of a number. -/
def bit (w i : Nat) : Bool := w.testBit i

/-- A number with its bits `lo + n - 1 : lo` replaced by the low `n` bits of `v`. -/
def setBits (w lo n v : Nat) : Nat := w % 2 ^ lo + v % 2 ^ n * 2 ^ lo + w / 2 ^ (lo + n) * 2 ^ (lo + n)

/-- The signed value of an `n`-bit pattern. -/
def sgn (n w : Nat) : Int := if w % 2 ^ n < 2 ^ (n - 1) then (w % 2 ^ n : Nat) else (w % 2 ^ n : Nat) - (2 ^ n : Nat)

/-- The `n`-bit pattern of an integer, modulo `2 ^ n`. -/
def wrap (n : Nat) (v : Int) : Nat := (v % (2 ^ n : Nat)).toNat

/-- The value of a Bool as a bit. -/
def b2n (b : Bool) : Nat := if b then 1 else 0

/-- ⌈a ÷ b⌉ for `b > 0`. -/
def ceilDiv (a b : Nat) : Nat := (a + b - 1) / b

/-- `a` rounded up to a multiple of `b`. -/
def alignUp (a b : Nat) : Nat := ceilDiv a b * b

/-- The number a list of bytes holds, little-endian (R4). -/
def leNat : List Byte → Nat
  | [] => 0
  | b :: bs => b.toNat + 256 * leNat bs

/-- The low `n` bytes of a number, little-endian (R4). -/
def leBytes : Nat → Nat → List Byte
  | 0, _ => []
  | n + 1, w => BitVec.ofNat 8 w :: leBytes n (w / 256)

/-- Fields of the given widths laid side by side, the first at the top: the value they make. -/
def pack : List (Nat × Nat) → Nat
  | [] => 0
  | (n, v) :: r => v % 2 ^ n * 2 ^ (r.map Prod.fst).sum + pack r

/-- The fields of the given widths read from a word, the first at the top. -/
def unpack : List Nat → Nat → List Nat
  | [], _ => []
  | n :: r, w => w / 2 ^ r.sum % 2 ^ n :: unpack r w

/-- The numbers of the set bits among the first `n` bits, ascending. -/
def setBitsOf (n m : Nat) : List Nat := (List.range n).filter fun i => m.testBit i

/-- How many of the first `n` bits are set. -/
def popcount (n m : Nat) : Nat := (setBitsOf n m).length

/-- The number of bits a natural number needs: 0 for 0, else ⌊log₂ v⌋ + 1. -/
def bitLen (v : Nat) : Nat := if v = 0 then 0 else Nat.log2 v + 1

end Sys2Proof.Machine
end

