-- ==== Sys2Proof/Machine/Crypto.lean ====
section
/-! DEFINITION. Sys2Proof/Machine/Crypto.lean: SHAKE256 (FIPS 202) and verification of a pure Ed448 signature (RFC 8032,
empty context), which R346, R348, R350, R369 and R370 name. The two algorithms are taken from those published standards
(PRESUMED, assumption log 6). -/

namespace Sys2Proof.Machine

/-! ### Keccak-f[1600] and SHAKE256 -/

/-- The lane that step `n` of the walk of ρ reaches (FIPS 202, 3.2.2): from (1, 0), and from (x, y) to (y, 2x + 3y). -/
def rhoWalk : Nat → Nat × Nat
  | 0 => (1, 0)
  | n + 1 => let q := rhoWalk n; (q.2, (2 * q.1 + 3 * q.2) % 5)

/-- By how much ρ rotates lane (x, y): the triangular number of the step that reaches it; lane (0, 0) is not on the walk. -/
def rhoTurn (x y : Nat) : Nat :=
  match (List.range 24).find? fun n => rhoWalk n == (x, y) with
  | some n => (n + 1) * (n + 2) / 2 % 64
  | none => 0

/-- The register of the round constants after `n` steps (FIPS 202, 3.2.5): eight bits, shifted left, feedback 171H. -/
def iotaReg : Nat → Nat
  | 0 => 1
  | n + 1 => let r := 2 * iotaReg n; if r < 256 then r else r.xor 0x171

/-- The constant that ι adds in round `i`: bit 2^j − 1 is the register's low bit after 7·i + j steps, for j from 0 to 6. -/
def iotaConst (i : Nat) : Nat :=
  ((List.range 7).map fun j => iotaReg (7 * i + j) % 2 * 2 ^ (2 ^ j - 1)).sum

/-- Rotation of a 64-bit lane to the left. -/
def rotl64 (w n : Nat) : Nat := (w * 2 ^ n) % 2 ^ 64 + w / 2 ^ (64 - n)

/-- Lane `i` of a state of 25 lanes. -/
def lane (a : List Nat) (i : Nat) : Nat := a.getD i 0

/-- One round of Keccak-f[1600]. -/
def keccakRound (a : List Nat) (rc : Nat) : List Nat :=
  let c := (List.range 5).map fun x => (lane a x).xor ((lane a (x + 5)).xor ((lane a (x + 10)).xor ((lane a (x + 15)).xor (lane a (x + 20)))))
  let d := (List.range 5).map fun x => (lane c ((x + 4) % 5)).xor (rotl64 (lane c ((x + 1) % 5)) 1)
  let t := (List.range 25).map fun i => (lane a i).xor (lane d (i % 5))
  -- ρ and π: lane (x, y) goes to (y, 2x + 3y)
  let b := (List.range 25).map fun i =>
    let u := i % 5; let v := i / 5
    -- (x, y) with y = u and 2x + 3y = v, so x = v + u + ... in the field of five elements
    let y := u; let x := (3 * (v + 10 - 3 * u % 5)) % 5
    rotl64 (lane t (x + 5 * y)) (rhoTurn x y)
  let chi := (List.range 25).map fun i =>
    let x := i % 5; let y := i / 5
    (lane b i).xor (((lane b ((x + 1) % 5 + 5 * y)).xor (2 ^ 64 - 1)).land (lane b ((x + 2) % 5 + 5 * y)))
  match chi with
  | [] => []
  | l :: r => l.xor rc :: r

/-- The permutation. -/
def keccakF (a : List Nat) : List Nat := (List.range 24).foldl (fun (s : List Nat) i => keccakRound s (iotaConst i)) a

/-- A block of 136 bytes taken into the state. -/
def absorb (a : List Nat) (block : List Byte) : List Nat :=
  keccakF (a.zipIdx.map fun p => if p.2 < 17 then p.1.xor (leNat ((block.drop (8 * p.2)).take 8)) else p.1)

/-- The message padded for SHAKE (domain bits 1111, pad10*1) to a multiple of 136 bytes. -/
def shakePad (m : List Byte) : List Byte :=
  let q := 136 - m.length % 136
  if q = 1 then m ++ [0x9F] else m ++ [0x1F] ++ List.replicate (q - 2) 0 ++ [0x80]

def absorbAll : Nat → List Byte → List Nat → List Nat
  | 0, _, a => a
  | n + 1, m, a => absorbAll n (m.drop 136) (absorb a (m.take 136))

def squeeze : Nat → List Nat → List Byte
  | 0, _ => []
  | n + 1, a => (a.take 17).flatMap (leBytes 8) ++ squeeze n (keccakF a)

/-- SHAKE256 of a message, `n` bytes. -/
def shake256 (m : List Byte) (n : Nat) : List Byte :=
  let p := shakePad m
  (squeeze (n / 136 + 1) (absorbAll (p.length / 136) p (List.replicate 25 0))).take n

/-! ### Ed448 -/

/-- The field prime 2^448 − 2^224 − 1. -/
def edP : Nat := 2 ^ 448 - 2 ^ 224 - 1
/-- The group order. -/
def edL : Nat := 2 ^ 446 - 13818066809895115352007386748515426880336692474882178609894547503885
/-- The curve constant d = −39081. -/
def edD : Nat := edP - 39081

def fMul (a b : Nat) : Nat := a * b % edP
def fAdd (a b : Nat) : Nat := (a + b) % edP
def fSub (a b : Nat) : Nat := (a + edP - b % edP) % edP

/-- Power in the field; `n` bits of the exponent. -/
def fPow (a : Nat) : Nat → Nat → Nat
  | 0, _ => 1
  | n + 1, e =>
    let h := fPow a n (e / 2)
    let q := fMul h h
    if e % 2 = 1 then fMul q a else q

/-- A point in projective coordinates (X, Y, Z). -/
abbrev EdPoint := Nat × Nat × Nat

/-- Addition on x² + y² = 1 + d·x²·y² (complete). -/
def edAdd (p q : EdPoint) : EdPoint :=
  let a := fMul p.2.2 q.2.2
  let b := fMul a a
  let c := fMul p.1 q.1
  let d := fMul p.2.1 q.2.1
  let e := fMul edD (fMul c d)
  let f := fSub b e
  let g := fAdd b e
  let h := fMul (fAdd p.1 p.2.1) (fAdd q.1 q.2.1)
  (fMul a (fMul f (fSub (fSub h c) d)), fMul a (fMul g (fSub d c)), fMul f g)

/-- Multiple of a point; `n` bits of the scalar. -/
def edMul (p : EdPoint) : Nat → Nat → EdPoint
  | 0, _ => (0, 1, 1)
  | n + 1, k =>
    let h := edMul p n (k / 2)
    let q := edAdd h h
    if k % 2 = 1 then edAdd q p else q

/-- Two points are equal. -/
def edEq (p q : EdPoint) : Bool :=
  fMul p.1 q.2.2 = fMul q.1 p.2.2 && fMul p.2.1 q.2.2 = fMul q.2.1 p.2.2

/-- A point from its 57 bytes. -/
def edDecode (bs : List Byte) : Option EdPoint :=
  let w := leNat bs
  let y := w % 2 ^ 455
  let sign := w / 2 ^ 455 % 2
  if bs.length ≠ 57 || y ≥ edP then none
  else
    let u := fSub (fMul y y) 1
    let v := fSub (fMul edD (fMul y y)) 1
    let u3v := fMul (fMul u (fMul u u)) v
    let u5v3 := fMul (fMul u3v (fMul u u)) (fMul v v)
    let x := fMul u3v (fPow u5v3 448 ((edP - 3) / 4))
    if fMul v (fMul x x) ≠ u then none
    else if x = 0 && sign = 1 then none
    else some (if x % 2 = sign then x else edP - x, y, 1)

/-- The base point. -/
def edBase : EdPoint :=
  (224580040295924300187604334099896036246789641632564134246125461686950415467406032909029192869357953282578032075146446173674602635247710,
   298819210078481492676017930443930673437544040154080242095928241372331506189835876003536878655418784733982303233503462500531545062832660, 1)

/-- "SigEd448", the flag 0 of the pure form and the length 0 of the empty context. -/
def edDom : List Byte := [0x53, 0x69, 0x67, 0x45, 0x64, 0x34, 0x34, 0x38, 0, 0]

/-- Verification of a 114-byte signature of a message under a 57-byte key (RFC 8032, 5.2.7). -/
def ed448Verify (key msg sig : List Byte) : Bool :=
  let r := sig.take 57
  let s := leNat (sig.drop 57)
  match edDecode key, edDecode r with
  | some a, some rp =>
    if sig.length ≠ 114 || s ≥ edL then false
    else
      let k := leNat (shake256 (edDom ++ r ++ key ++ msg) 114) % edL
      edEq (edMul (edMul edBase 446 s) 3 4) (edMul (edAdd rp (edMul a 446 k)) 3 4)
  | _, _ => false

end Sys2Proof.Machine
end

