-- ==== Sys2Proof/Syntax.lean ====
section
/-! DEFINITION. Sys2Proof/Syntax.lean: the instruction words and machine events of spec/opcode_table.json, one constructor
of `Instr` per row (R71 to R74, R51, R103, R234, R274; the events of 95_what_each_step_holds.md).
Register numbers, codes and immediates stand in the term as their fields hold them (R58 to R70). -/

namespace Sys2Proof

/-- Scalar register number s0–s31 (R60). -/
abbrev SReg := Fin 32
/-- Header register number h0–h31 (R60). -/
abbrev HReg := Fin 32
/-- Vector specifier: 0–55 v0–v55, 56–63 q0–q7; also a 6-bit mask field (R60). -/
abbrev VSpec := Fin 64
/-- Flag number f0–f63 (R60). -/
abbrev FlagNo := Fin 64
/-- Queue number q0–q7 (R60). -/
abbrev QNo := Fin 8
/-- Walker number a0–a3 (R60). -/
abbrev WNo := Fin 4
/-- Scope: 0 CORE, 1 DIE, 2 PKG, 3 POD (R97). -/
abbrev Scope := Fin 4
/-- Core number 0–127 (R11). -/
abbrev CoreId := Fin 128
/-- Sequencer context 0–3 of a core (R11). -/
abbrev CtxId := Fin 4
/-- Copy channel 0–3 (R210). -/
abbrev ChNo := Fin 4
/-- Furrow number 0–15 (R239). -/
abbrev FurNo := Fin 16
/-- Partition number 0–15 (R93). -/
abbrev PartId := Fin 16
/-- Darud connection number (R323); 0 is never valid. -/
abbrev ConnId := Fin 4096

/-- The engines that own words and cursors (R21): CTL and the six engines, with their TAG values 0–6. -/
inductive Tag where
  | ctl | vec | mtx | aw | cpy | sae | fur
  deriving DecidableEq, Repr

/-- The fields of VREG (R63). -/
structure VOp where
  d : Fin 64
  a : Fin 64
  b : Fin 64
  c : Fin 64
  t : Fin 64
  k : Fin 16
  rm : Fin 16
  m : Fin 16
  deriving DecidableEq, Repr

/-- The fields of HCMD (R68) but for XOP. -/
structure HOp where
  hd : HReg
  ha : HReg
  hb : HReg
  ac : Fin 8
  fe : Bool
  flag : FlagNo
  ue : Bool
  fs : SReg
  deriving DecidableEq, Repr

/-- The fields of WALK (R69) but for XOP. -/
structure WOp where
  wk : WNo
  hdr : HReg
  qn : QNo
  ac : Fin 8
  fe : Bool
  flag : FlagNo
  sc : SReg
  cnt : Fin 8192
  deriving DecidableEq, Repr

/-- The fields of an SAE word (R74, R278): the HCMD fields, the type bits of OPC and the XOP fields. -/
structure SOp where
  h : HOp
  ty : Fin 8
  iq : QNo
  vq : QNo
  rq : QNo
  re : Bool
  deriving DecidableEq, Repr

/-- The shape of a Darud packet's data (R324 to R331). The 32-byte Darud header is not laid out by the spec: what it must
carry is kept as fields (log 7). `cnt` is the sender's operation count on the connection (R325). -/
structure Packet where
  seq : Nat
  cnt : Nat
  op : Nat
  fmt : Nat
  count : Nat
  size : Nat
  off : Nat
  last : Bool
  data : List Byte
  deriving DecidableEq, Repr

/-- A received Ethernet frame as R322 tests it: whether it is an Ethernet II frame with IPv6 without extension headers and
UDP, whether its checks hold, its destination UDP port, and what it carries to the unit that port selects. -/
inductive FrameBody where
  | darudData (conn : ConnId) (p : Packet)
  | darudAck (conn : ConnId) (seq : Nat)
  | darudNack (conn : ConnId) (seq : Nat) (late : Bool)
  | ptp (event : Bool) (time : Nat)
  | management (data : List Byte)
  | other
  deriving DecidableEq, Repr

/-- A frame at a port (R322). -/
structure Frame where
  ipv6Udp : Bool
  checksOk : Bool
  udpPort : Nat
  body : FrameBody
  deriving DecidableEq, Repr

/-- Who reads or writes a register of the management block or of the host functions (R335, R353, R365). -/
inductive Access where
  | ctl (core : CoreId) (ctx : CtxId)
  | pf0
  | vf (p : PartId)
  deriving DecidableEq, Repr

/-- A command of a host DMA queue (R340, R365): device-physical and host addresses, bytes, direction, and whether it transforms. The format
of the queues' own commands is not given; log 8. -/
structure HostCmd where
  conv : Bool := false
  toDevice : Bool
  dev : Nat
  host : Nat
  len : Nat
  prio : Nat
  deriving DecidableEq, Repr

/-- Every instruction word and every machine event of the opcode table, one constructor per row. -/
inductive Instr where
  -- fetch, loops and fork sets (R32 to R53)
  | cursorFetch (c : CoreId) (x : CtxId) (t : Tag)
  | loop (nc : Fin 4) (ts : SReg) (stages : Fin 8) (p : Bool)
  | loope (nc : Fin 4)
  | rdv
  | stg (s : Fin 8)
  | nop
  | join
  | fork (mask : BitVec 6) (off : BitVec 30)
  -- flags, phases, fences (R97 to R102)
  | setf (f : FlagNo) (a : SReg) (sc : Scope) (add : Bool)
  | waitf (f : FlagNo) (a : SReg) (sc : Scope) (cond : Fin 4) (gate : BitVec 6)
  | phaseRel (sc : Scope)
  | phaseAcq (sc : Scope)
  | phaseAcqrel (sc : Scope)
  | fence (src dst : BitVec 6)
  -- XCMD (R103)
  | tend
  | tspawn (d a : SReg)
  | fnew (d : SReg)
  | fatt (d a b : SReg)
  | fres (a b : SReg)
  | fget (d a : SReg)
  | ffree (a : SReg)
  | csubmit (d a : SReg)
  | cwatch (a b : SReg)
  | cunwatch (a : SReg)
  | cpoll (d a : SReg)
  | xcmdReply (c : CoreId) (x : CtxId)
  -- traps, events, context and translation (R104 to R107)
  | trap (code : BitVec 16)
  | eret
  | wfe (a : SReg)
  | wfeTimeout (c : CoreId) (x : CtxId)
  | csave (a : SReg) (ctx : CtxId)
  | cload (a : SReg) (ctx : CtxId)
  | hall
  | hone (a : SReg)
  | s1va (a b : SReg)
  | s1asid (b : SReg)
  | s1all
  | s2ipa (a b : SReg)
  | s2part (b : SReg)
  | preempt (a : SReg) (ctx : CtxId)
  | resume (ctx : CtxId)
  | requeue (ctx : CtxId)
  | abort (ctx : CtxId)
  | bopen (ctx : CtxId)
  | bclose (ctx : CtxId)
  | doorbell (a : SReg) (ctx : CtxId)
  -- integer arithmetic (R82 to R85)
  | add (d a b : SReg)
  | sub (d a b : SReg)
  | and (d a b : SReg)
  | or (d a b : SReg)
  | xor (d a b : SReg)
  | sll (d a b : SReg)
  | srl (d a b : SReg)
  | sra (d a b : SReg)
  | slt (d a b : SReg)
  | sltu (d a b : SReg)
  | min (d a b : SReg)
  | max (d a b : SReg)
  | minu (d a b : SReg)
  | maxu (d a b : SReg)
  | mul (d a b : SReg)
  | mulh (d a b : SReg)
  | mulhu (d a b : SReg)
  | div (d a b : SReg)
  | divu (d a b : SReg)
  | rem (d a b : SReg)
  | remu (d a b : SReg)
  | addi (d a : SReg) (imm : BitVec 30)
  | andi (d a : SReg) (imm : BitVec 30)
  | ori (d a : SReg) (imm : BitVec 30)
  | xori (d a : SReg) (imm : BitVec 30)
  | slli (d a : SReg) (imm : BitVec 30)
  | srli (d a : SReg) (imm : BitVec 30)
  | srai (d a : SReg) (imm : BitVec 30)
  | slti (d a : SReg) (imm : BitVec 30)
  | sltiu (d a : SReg) (imm : BitVec 30)
  | lil (d : SReg) (imm : BitVec 32)
  | lih (d : SReg) (imm : BitVec 32)
  -- loads and stores (R86 to R89)
  | ldI8 (d a : SReg) (imm : BitVec 30)
  | ldUi8 (d a : SReg) (imm : BitVec 30)
  | ldI16 (d a : SReg) (imm : BitVec 30)
  | ldUi16 (d a : SReg) (imm : BitVec 30)
  | ldI32 (d a : SReg) (imm : BitVec 30)
  | ldUi32 (d a : SReg) (imm : BitVec 30)
  | ldI64 (d a : SReg) (imm : BitVec 30)
  | stI8 (s a : SReg) (imm : BitVec 30)
  | stI16 (s a : SReg) (imm : BitVec 30)
  | stI32 (s a : SReg) (imm : BitVec 30)
  | stI64 (s a : SReg) (imm : BitVec 30)
  | ctlStorePerform (c : CoreId) (x : CtxId)
  | ctlLoadReturn (c : CoreId) (x : CtxId)
  -- branches, jumps, CSRs, headers (R90 to R95)
  | beq (a b : SReg) (off : BitVec 30)
  | bne (a b : SReg) (off : BitVec 30)
  | blt (a b : SReg) (off : BitVec 30)
  | bge (a b : SReg) (off : BitVec 30)
  | bltu (a b : SReg) (off : BitVec 30)
  | bgeu (a b : SReg) (off : BitVec 30)
  | jal (d : SReg) (off : BitVec 30)
  | jalr (d a : SReg) (imm : BitVec 30)
  | csrr (d : SReg) (csr : BitVec 30)
  | csrw (a : SReg) (csr : BitVec 30)
  | csrx (d a : SReg) (csr : BitVec 30)
  | hdrw (d : HReg) (field : Fin 32) (a : SReg)
  | hdrr (d : SReg) (a : HReg) (field : Fin 32)
  -- vector words (R138, R157, R165, R167, R169, R170)
  | vmov (v : VOp)
  | vsel (v : VOp)
  | vadd (v : VOp)
  | vsub (v : VOp)
  | vmul (v : VOp)
  | vmulh (v : VOp)
  | vfma (v : VOp)
  | vfms (v : VOp)
  | vfnma (v : VOp)
  | vmin (v : VOp)
  | vmax (v : VOp)
  | vabs (v : VOp)
  | vneg (v : VOp)
  | vand (v : VOp)
  | vor (v : VOp)
  | vxor (v : VOp)
  | vnot (v : VOp)
  | vsll (v : VOp)
  | vsrl (v : VOp)
  | vsra (v : VOp)
  | vcmpeq (v : VOp)
  | vcmpne (v : VOp)
  | vcmplt (v : VOp)
  | vcmple (v : VOp)
  | vcvt (v : VOp)
  | vcvte (v : VOp)
  | vcvtl (v : VOp)
  | vrand (v : VOp)
  | vexp (v : VOp)
  | vlog (v : VOp)
  | vrcp (v : VOp)
  | vrsqrt (v : VOp)
  | vtanh (v : VOp)
  | vgelu (v : VOp)
  | vdiv (v : VOp)
  | vsqrt (v : VOp)
  | vlvl (v : VOp)
  | vradd (v : VOp)
  | vrmin (v : VOp)
  | vrmax (v : VOp)
  | vscanadd (v : VOp)
  | vscanmax (v : VOp)
  | vperm (v : VOp)
  | vshuf (v : VOp)
  | vbcast (v : VOp)
  | vbcasts (v : VOp)
  | vrot (v : VOp)
  | vtopnm (v : VOp)
  | kand (v : VOp)
  | kor (v : VOp)
  | kxor (v : VOp)
  | kandn (v : VOp)
  | knot (v : VOp)
  | kmov (v : VOp)
  | vecResultComplete (c : CoreId)
  | sliResultComplete (c : CoreId)
  -- matrix words (R201 to R205)
  | mzero (h : HOp)
  | mma (h : HOp) (ovw : Bool)
  | mmat (h : HOp) (ovw : Bool)
  | mmas (h : HOp) (ovw dm : Bool)
  | mdrain (h : HOp) (rm : Fin 16)
  | mtxCommandComplete (c : CoreId)
  -- walker words (R185 to R189)
  | awcfg (w : WOp) (mode : Bool)
  | awgo (w : WOp)
  | awstop (w : WOp)
  | awgather (w : WOp) (iq : QNo)
  | awscat (w : WOp) (iq : QNo)
  | walkerEntry (c : CoreId) (w : WNo)
  -- copy words (R174, R215 to R220)
  | cpy (h : HOp) (delta : Fin 16) (gs : Fin 4) (pr : Bool) (ch : ChNo)
  | cpyc (h : HOp) (rm : Fin 16) (ch : ChNo)
  | cpym (h : HOp) (hx : HReg) (mop : Fin 4) (ovw : Bool) (ch : ChNo)
  | cpyd (h : HOp) (rm : Fin 16) (repl : Bool) (ch : ChNo)
  | cpyh (h : HOp) (ch : ChNo)
  | cwp (h : HOp) (trk : Bool) (ch : ChNo)
  | granulePerformed (c : CoreId) (ch : ChNo)
  | hostDmaResume (n : Fin 16)
  | copyComplete (c : CoreId) (ch : ChNo)
  -- scatter-accumulate words (R74, R279, R285)
  | sadd (o : SOp)
  | smin (o : SOp)
  | smax (o : SOp)
  | sor (o : SOp)
  | sand (o : SOp)
  | sxor (o : SOp)
  | sxch (o : SOp)
  | scas (o : SOp)
  | sflush (h : HOp)
  | saeWordComplete (c : CoreId)
  -- furrow words (R248)
  | fopen (h : HOp) (fn : FurNo) (ln : Fin 64)
  | fclose (h : HOp) (fn : FurNo) (sv : Bool)
  | ftbl (h : HOp) (tb : Fin 8)
  | ftblImageCheck (c : CoreId)
  | fpush (h : HOp) (fn : FurNo) (tb : Fin 8)
  | fpop (h : HOp) (fn : FurNo) (et : Bool)
  | fmark (h : HOp) (fn : FurNo) (mk : Fin 8)
  | fdrop (h : HOp) (fn : FurNo) (mk : Fin 8)
  | fsplitSplit (h : HOp) (fn cf : FurNo)
  | fsplitTake (h : HOp) (fn cf : FurNo)
  | fsplitImport (h : HOp) (cf : FurNo)
  | fsplitImportCheck (c : CoreId)
  | fjoin (h : HOp) (fn cf : FurNo)
  | fstat (h : HOp) (fn : FurNo) (clr : Bool)
  | furWordComplete (c : CoreId)
  | furrowChunkMove (c : CoreId) (fn : FurNo)
  -- stops and asynchronous conditions (R260 to R277, R362)
  | stopAccept (c : CoreId) (x : CtxId)
  | stopRecord (c : CoreId) (x : CtxId)
  | bracketForce (c : CoreId) (x : CtxId)
  | breakpointFire (b : Fin 16)
  | keyMismatch (c : CoreId) (x : CtxId)
  | uncorrectedSoftError (line : Nat)
  -- dispatcher (R309 to R317, R339)
  | dispatchSelect
  | drainingEnd (c : CoreId) (x : CtxId)
  | taskAge
  | sliceStart
  -- collectives and ports (R322 to R334)
  | watchedStart (c : CoreId) (x : CtxId)
  | collectiveOpComplete (p : PartId) (idx : Nat)
  | frameReceive (port : Fin 2) (f : Frame)
  | darudPacketReceive (n : ConnId) (p : Packet)
  | darudAckReceive (n : ConnId) (seq : Nat)
  | darudNackReceive (n : ConnId) (seq : Nat) (late : Bool)
  | backoffExpire (n : ConnId)
  | retransmitTimeout (n : ConnId)
  | ackTimer (n : ConnId)
  | bounceReplay (n : ConnId)
  | connectionInvalidate (n : ConnId)
  | gangStart
  | gstatReady
  | gstatAbort
  -- management registers and commands (R335 to R347)
  | cgrantWrite (c : CoreId) (x : CtxId) (v : Word)
  | pfloorWrite (p : PartId) (v : Word)
  | carbdWrite (v : Word)
  | carbpWrite (v : Word)
  | create
  | reset
  | resetFenceTimeout
  | checkpoint
  | replay
  | scrub
  | pcmdComplete
  -- disclosure (R355, R359, R361)
  | dselWrite (die : Fin 8) (i : Fin 16) (v : Word)
  | sampleTick
  | windowSummary
  -- host, boot and power (R365 to R371)
  | dbellWrite (p : PartId) (v : Word)
  | hqcfgWrite (q : Fin 64) (v : Word)
  | hostLinkError (q : Fin 64)
  | atsInvalidation (pasid : Nat) (addr : Nat)
  | bootwinWrite (v : Word)
  | areqGo
  | powerOnReset
  | thermalThrottle (on : Bool)
  | thermalShutdown
  | registerWrite (who : Access) (off : Nat) (v : Word)
  | linkBringUp (port : Fin 2) (full : Bool)
  | hostQueueCommand (q : Fin 64) (h : HostCmd)
  | powerStateD3hot
  deriving DecidableEq, Repr

end Sys2Proof
end

