-- ==== Sys2Proof/Machine/Legal.lean ====
section
/-! DEFINITION. Sys2Proof/Machine/Legal.lean: which terms of `Instr` are legal words: the checks of R75 with the subcode that
each one raises, from the field spaces and type sets that each instruction states. -/

namespace Sys2Proof.Machine

/-- Width in bits of the elements of a type code; 0 where R61 reserves the code or the code is `none` (R61, R131). -/
def typeWidth (t : Nat) : Nat :=
  if t = 0x01 || t = 0x09 || (0x18 ≤ t && t ≤ 0x1A) then 4
  else if t = 0x02 || t = 0x0A || (0x21 ≤ t && t ≤ 0x27) || (0x29 ≤ t && t ≤ 0x2F) || (0x31 ≤ t && t ≤ 0x37) then 8
  else if t = 0x03 || t = 0x0B || t = 0x11 || t = 0x12 || t = 0x14 then 16
  else if t = 0x04 || t = 0x0C || t = 0x10 || t = 0x13 then 32
  else if t = 0x05 then 64
  else 0

/-- R138's set X: every code of R61 except 0x00 and 0x05. -/
def isX (t : Nat) : Bool := typeWidth t ≠ 0 && t ≠ 0x05
/-- R138's set I. -/
def isI (t : Nat) : Bool := t = 0x02 || t = 0x03 || t = 0x04 || t = 0x0A || t = 0x0B || t = 0x0C
/-- R138's set F. -/
def isF (t : Nat) : Bool := t = 0x10 || t = 0x11 || t = 0x12
/-- R157's set L. -/
def isL (t : Nat) : Bool := t = 0x13 || t = 0x14
/-- Every integer code of R61 that a vector word accepts (R113). -/
def isInt (t : Nat) : Bool := isI t || t = 0x01 || t = 0x09
/-- The binary8 codes (R110, R111). -/
def isB8 (t : Nat) : Bool := (0x21 ≤ t && t ≤ 0x27) || (0x29 ≤ t && t ≤ 0x2F) || (0x31 ≤ t && t ≤ 0x37)
/-- The 4-bit formats (R112). -/
def isB4 (t : Nat) : Bool := 0x18 ≤ t && t ≤ 0x1A
/-- A mode of R62 that is not reserved. -/
def rmOk (m : Nat) : Bool := m ≤ 4 || (8 ≤ m && m ≤ 12)

/-- The element count of a vector register of type `t` (R131). -/
def elemCount (t : Nat) : Nat := 4096 / typeWidth t

/-- The CSR numbers that R93, R199, R214, R226, R281, R286, R330 and R358 assign. -/
def csrAssigned (n : Nat) : Bool :=
  n ≤ 4 || (0x10 ≤ n && n ≤ 0x1A) || n = 0x20 || (0x30 ≤ n && n ≤ 0x32) || (0x40 ≤ n && n ≤ 0x47) || (0x100 ≤ n && n ≤ 0x10F)

/-- The first subcode whose condition holds; the list stands in ascending order of subcode (R75: the lowest applies). -/
def firstBad : List (Nat × Bool) → Option Nat
  | [] => none
  | (n, b) :: r => if b then some n else firstBad r

/-- The register group of R134 for first register `r` and ratio `rho` is misaligned, or leaves v0–v55. -/
def badGroup (r rho : Nat) : Bool := rho > 1 && (r % rho ≠ 0 || r + rho > 56)

/-- R134 for a destination type `t` and a source type `u`: the group stands at D when widening, at A when narrowing. -/
def badGroups (v : VOp) (t u : Nat) : Bool :=
  let wt := typeWidth t; let wu := typeWidth u
  if wt = 0 || wu = 0 then false
  else if wt > wu then badGroup v.d.val (wt / wu)
  else badGroup v.a.val (wu / wt)

/-- A field that an instruction does not use holds something else than 0 (R3, R60). -/
def nz {n : Nat} (x : Fin n) : Bool := x.val ≠ 0

/-- Moves and logic on one or two sources: VMOV, VNOT (`two` = false), VAND, VOR, VXOR (R138). -/
def vLogic (two : Bool) (v : VOp) : Option Nat :=
  firstBad [(4, (!two && nz v.b) || nz v.c || nz v.rm || nz v.m), (6, !isX v.t.val)]

/-- VSEL (R138, R139): C is a 6-bit mask field. -/
def vSel (v : VOp) : Option Nat :=
  firstBad [(4, nz v.rm || nz v.m), (5, v.c.val > 15), (6, !isX v.t.val)]

/-- The level-crossing operand of R156: C must be 0 when MOD[1:0] = 0, and MOD[3:2] are reserved. -/
def lxBad4 (v : VOp) : Bool := (v.m.val % 4 = 0 && nz v.c) || v.m.val ≥ 4

/-- VADD, VSUB (`sat` = true) and VMUL (R138, R156, R157). A type that is none of I, F and L gives C and MOD no meaning, so they are
reserved (4); RM is then judged by its code alone (6). DEDUCED (assumption log 28). -/
def vAddLike (sat : Bool) (v : VOp) : Option Nat :=
  let t := v.t.val
  let r4 := if isI t then nz v.c || nz v.rm || (if sat then v.m.val ≥ 2 else nz v.m)
            else if isF t then nz v.c || nz v.m
            else if isL t then lxBad4 v
            else nz v.c || nz v.m
  firstBad [(4, r4), (5, isL t && v.m.val % 4 ≠ 0 && v.c.val > 15), (6, !(isI t || isF t || isL t) || !rmOk v.rm.val)]

/-- VMULH (R138). -/
def vMulh (v : VOp) : Option Nat := firstBad [(4, nz v.c || nz v.rm || nz v.m), (6, !isI v.t.val)]

/-- VFMA, VFMS, VFNMA (R138). -/
def vFused (v : VOp) : Option Nat :=
  firstBad [(4, nz v.m || (isI v.t.val && nz v.rm)), (6, !(isI v.t.val || isF v.t.val) || !rmOk v.rm.val)]

/-- VMIN, VMAX (R138, R157). -/
def vMinMax (v : VOp) : Option Nat :=
  firstBad [(4, nz v.c || nz v.rm || nz v.m), (6, !(isI v.t.val || isF v.t.val || isL v.t.val))]

/-- VABS, VNEG (R138, R157): SAT in MOD bit 0 for the I types only. -/
def vAbsNeg (v : VOp) : Option Nat :=
  let t := v.t.val
  firstBad [(4, nz v.b || nz v.c || nz v.rm || (if isI t then v.m.val ≥ 2 else nz v.m)),
            (6, !(isI t || isF t || isL t))]

/-- VSLL, VSRL, VSRA (R138, R141). -/
def vShift (v : VOp) : Option Nat :=
  let imm := v.m.val % 2 = 1
  firstBad [(4, nz v.rm || v.m.val ≥ 2 || (!imm && nz v.c) || (imm && nz v.b)), (6, !isI v.t.val),
            (7, imm && v.c.val ≥ typeWidth v.t.val)]

/-- The four compares (R138, R157): D is a 6-bit mask field. -/
def vCmp (v : VOp) : Option Nat :=
  firstBad [(4, nz v.c || nz v.rm || nz v.m), (5, v.d.val > 15), (6, !(isI v.t.val || isF v.t.val || isL v.t.val))]

/-- VCVT (R145, R157): C holds the source type; integer to integer takes RM 0 or 8 alone. -/
def vCvt (v : VOp) : Option Nat :=
  let t := v.t.val; let u := v.c.val
  firstBad [(4, nz v.b || nz v.m), (5, badGroups v t u),
            (6, !isX t || !isX u || !rmOk v.rm.val || (isInt t && isInt u && v.rm.val ≠ 0 && v.rm.val ≠ 8))]

/-- VCVTE, VCVTL, VLVL (R157): `tOk` and `uOk` are the accepted sets, `rounds` whether RM is a mode. -/
def vCvtL (tOk uOk : Nat → Bool) (rounds : Bool) (v : VOp) : Option Nat :=
  firstBad [(4, nz v.b || nz v.m || (!rounds && nz v.rm)), (5, badGroups v v.t.val v.c.val),
            (6, !tOk v.t.val || !uOk v.c.val || !rmOk v.rm.val)]

/-- VRAND (R138). -/
def vRand (v : VOp) : Option Nat :=
  let t := v.t.val
  firstBad [(4, nz v.a || nz v.b || nz v.c || nz v.rm || nz v.m), (6, !(t = 0x0A || t = 0x0B || t = 0x0C || t = 0x10))]

/-- VEXP, VLOG, VRSQRT, VTANH, VGELU, and VRCP, which also takes the L types with RM 0 (R138, R157). -/
def vSpecial (rcp : Bool) (v : VOp) : Option Nat :=
  firstBad [(4, nz v.b || nz v.c || nz v.m || (rcp && isL v.t.val && nz v.rm)),
            (6, !(isF v.t.val || (rcp && isL v.t.val)) || !rmOk v.rm.val)]

/-- VDIV and VSQRT (R157). -/
def vSliLx (two : Bool) (v : VOp) : Option Nat :=
  firstBad [(4, (!two && nz v.b) || lxBad4 v), (5, v.m.val % 4 ≠ 0 && v.c.val > 15), (6, !isL v.t.val || !rmOk v.rm.val)]

/-- VRADD (R157, R165). -/
def vRadd (v : VOp) : Option Nat :=
  let t := v.t.val
  firstBad [(4, nz v.b || nz v.c || (isI t && nz v.rm) || (if isI t then v.m.val ≥ 2 else nz v.m)),
            (6, !(isI t || isF t || isL t) || !rmOk v.rm.val)]

/-- VRMIN, VRMAX (R165). -/
def vRminmax (v : VOp) : Option Nat :=
  firstBad [(4, nz v.b || nz v.c || nz v.rm || nz v.m), (6, !(isI v.t.val || isF v.t.val))]

/-- VSCANADD: MOD bit 0 SAT for the I types, bit 1 EXCL (R165). -/
def vScanAdd (v : VOp) : Option Nat :=
  let t := v.t.val
  firstBad [(4, nz v.b || nz v.c || (isI t && nz v.rm) || v.m.val ≥ 4 || (isF t && v.m.val % 2 = 1)),
            (6, !(isI t || isF t) || !rmOk v.rm.val)]

/-- VSCANMAX (R165). -/
def vScanMax (v : VOp) : Option Nat :=
  firstBad [(4, nz v.b || nz v.c || nz v.rm || !(v.m.val = 0 || v.m.val = 2)), (6, !(isI v.t.val || isF v.t.val))]

/-- VPERM (R167). -/
def vPerm (v : VOp) : Option Nat :=
  firstBad [(4, nz v.c || nz v.rm || nz v.m), (6, !(typeWidth v.t.val = 16 || typeWidth v.t.val = 32))]

/-- VSHUF (R167, R172). -/
def vShuf (v : VOp) : Option Nat :=
  firstBad [(4, nz v.rm || nz v.m), (6, !isX v.t.val), (7, v.c.val ≥ 4)]

/-- The 10-bit index or amount of VBCAST and VROT: MOD holds bits 9:6, C bits 5:0 (R167). -/
def idx10 (v : VOp) : Nat := v.m.val * 64 + v.c.val

/-- VBCAST, VROT (R167, R172). -/
def vIdx (v : VOp) : Option Nat :=
  firstBad [(4, nz v.b || nz v.rm), (6, !isX v.t.val), (7, idx10 v ≥ elemCount v.t.val)]

/-- VBCASTS (R167, R172): A is a scalar. -/
def vBcasts (v : VOp) : Option Nat :=
  firstBad [(4, nz v.b || nz v.c || nz v.rm || nz v.m), (5, v.a.val > 31), (6, !isX v.t.val)]

/-- VTOPNM (R169): MOD bit 3 is M (4 or 8), bits 2:0 N; an L type has subcode 7. -/
def vTopnm (v : VOp) : Option Nat :=
  let t := v.t.val; let n := v.m.val % 8; let m := if v.m.val ≥ 8 then 8 else 4
  firstBad [(4, nz v.b || nz v.c || nz v.rm), (5, v.d.val > 15), (6, !(isI t || isF t || isB8 t || isB4 t || isL t)),
            (7, n = 0 || n ≥ m || isL t)]

/-- Mask logic (R170): T must be 0x00, and K, RM, MOD and C must be 0. -/
def kLogic (two : Bool) (v : VOp) : Option Nat :=
  firstBad [(4, nz v.k || nz v.rm || nz v.m || nz v.c || (!two && nz v.b)),
            (5, v.d.val > 15 || v.a.val > 15 || v.b.val > 15), (6, nz v.t)]

/-- FLAG must be 0 when FE = 0, and FS when UE = 0 (R68). -/
def hBad (h : HOp) : Bool := (!h.fe && nz h.flag) || (!h.ue && nz h.fs)

/-- Subcode 4 of an HCMD word: the listed header fields are unused, and UE and FS too where `noFut`. -/
def hLegal (h : HOp) (noFut : Bool) (unused : List HReg) (rest : List (Nat × Bool)) : Option Nat :=
  firstBad ((4, hBad h || (noFut && (h.ue || nz h.fs)) || unused.any nz) :: rest)

/-- The types each SAE operation accepts (R74): 0 .i32, 1 .ui32, 2 .f32, 3 .bf16, 4 .li32. -/
def saeLegal (maxTy : Nat) (reAllowed reNeeded : Bool) (o : SOp) : Option Nat :=
  firstBad [(3, o.ty.val > maxTy),
    (4, hBad o.h || o.h.ue || nz o.h.fs || nz o.h.ha || nz o.h.hb || (o.re && !reAllowed) || (!o.re && (reNeeded || nz o.rq))),
    (5, o.iq = o.vq || (o.re && (o.rq = o.iq || o.rq = o.vq)))]

/-- A shift immediate outside 0 to 63 (R83). -/
def shImmBad (imm : BitVec 30) : Option Nat := firstBad [(7, imm.toNat ≥ 64)]

/-- A CSR number outside 0 to 4,095 or not assigned (R92). -/
def csrBad (n : BitVec 30) : Option Nat := firstBad [(7, !csrAssigned n.toNat)]

/-- The lowest subcode of R75 that the term raises, `none` when it is legal. Conditions on bits that a term does not hold
(reserved bits, unassigned codes) are the decoder's. Machine events are no words; they are always legal terms. -/
def illegal : Instr → Option Nat
  | .cursorFetch _ _ _ => none
  | .loop _ _ _ _ => none
  | .loope _ => none
  | .rdv => none
  | .stg _ => none
  | .nop => none
  | .join => none
  | .fork _ _ => none
  | .setf _ _ _ _ => none
  -- COND 3 uses A as far as R98 says (only NZ does not): subcode 7 whatever A holds; DEDUCED (assumption log 28)
  | .waitf _ a _ cond _ => firstBad [(4, cond.val = 0 && nz a), (7, cond.val = 3)]
  | .phaseRel _ => none
  | .phaseAcq _ => none
  | .phaseAcqrel _ => none
  | .fence f t => firstBad [(7, f.toNat = 0 || t.toNat = 0)]
  | .tend => none
  | .tspawn _ _ => none
  | .fnew _ => none
  | .fatt _ _ _ => none
  | .fres _ _ => none
  | .fget _ _ => none
  | .ffree _ => none
  | .csubmit _ _ => none
  | .cwatch _ _ => none
  | .cunwatch _ => none
  | .cpoll _ _ => none
  | .xcmdReply _ _ => none
  | .trap _ => none
  | .eret => none
  | .wfe _ => none
  | .wfeTimeout _ _ => none
  | .csave _ _ => none
  | .cload _ _ => none
  | .hall => none
  | .hone _ => none
  | .s1va _ _ => none
  | .s1asid _ => none
  | .s1all => none
  | .s2ipa _ _ => none
  | .s2part _ => none
  | .preempt _ _ => none
  | .resume _ => none
  | .requeue _ => none
  | .abort _ => none
  | .bopen _ => none
  | .bclose _ => none
  | .doorbell _ _ => none
  | .add _ _ _ => none
  | .sub _ _ _ => none
  | .and _ _ _ => none
  | .or _ _ _ => none
  | .xor _ _ _ => none
  | .sll _ _ _ => none
  | .srl _ _ _ => none
  | .sra _ _ _ => none
  | .slt _ _ _ => none
  | .sltu _ _ _ => none
  | .min _ _ _ => none
  | .max _ _ _ => none
  | .minu _ _ _ => none
  | .maxu _ _ _ => none
  | .mul _ _ _ => none
  | .mulh _ _ _ => none
  | .mulhu _ _ _ => none
  | .div _ _ _ => none
  | .divu _ _ _ => none
  | .rem _ _ _ => none
  | .remu _ _ _ => none
  | .addi _ _ _ => none
  | .andi _ _ _ => none
  | .ori _ _ _ => none
  | .xori _ _ _ => none
  | .slli _ _ imm => shImmBad imm
  | .srli _ _ imm => shImmBad imm
  | .srai _ _ imm => shImmBad imm
  | .slti _ _ _ => none
  | .sltiu _ _ _ => none
  | .lil _ _ => none
  | .lih _ _ => none
  | .ldI8 _ _ _ => none
  | .ldUi8 _ _ _ => none
  | .ldI16 _ _ _ => none
  | .ldUi16 _ _ _ => none
  | .ldI32 _ _ _ => none
  | .ldUi32 _ _ _ => none
  | .ldI64 _ _ _ => none
  | .stI8 _ _ _ => none
  | .stI16 _ _ _ => none
  | .stI32 _ _ _ => none
  | .stI64 _ _ _ => none
  | .ctlStorePerform _ _ => none
  | .beq _ _ _ => none
  | .bne _ _ _ => none
  | .blt _ _ _ => none
  | .bge _ _ _ => none
  | .bltu _ _ _ => none
  | .bgeu _ _ _ => none
  | .jal _ _ => none
  | .jalr _ _ _ => none
  | .csrr _ n => csrBad n
  | .csrw _ n => csrBad n
  | .csrx _ _ n => csrBad n
  | .hdrw _ f _ => firstBad [(7, f.val ≥ 22)]
  | .hdrr _ _ f => firstBad [(7, f.val ≥ 22)]
  | .vmov v => vLogic false v
  | .vsel v => vSel v
  | .vadd v => vAddLike true v
  | .vsub v => vAddLike true v
  | .vmul v => vAddLike false v
  | .vmulh v => vMulh v
  | .vfma v => vFused v
  | .vfms v => vFused v
  | .vfnma v => vFused v
  | .vmin v => vMinMax v
  | .vmax v => vMinMax v
  | .vabs v => vAbsNeg v
  | .vneg v => vAbsNeg v
  | .vand v => vLogic true v
  | .vor v => vLogic true v
  | .vxor v => vLogic true v
  | .vnot v => vLogic false v
  | .vsll v => vShift v
  | .vsrl v => vShift v
  | .vsra v => vShift v
  | .vcmpeq v => vCmp v
  | .vcmpne v => vCmp v
  | .vcmplt v => vCmp v
  | .vcmple v => vCmp v
  | .vcvt v => vCvt v
  | .vcvte v => vCvtL isL isF true v
  | .vcvtl v => vCvtL isF isL true v
  | .vrand v => vRand v
  | .vexp v => vSpecial false v
  | .vlog v => vSpecial false v
  | .vrcp v => vSpecial true v
  | .vrsqrt v => vSpecial false v
  | .vtanh v => vSpecial false v
  | .vgelu v => vSpecial false v
  | .vdiv v => vSliLx true v
  | .vsqrt v => vSliLx false v
  | .vlvl v => vCvtL (fun t => t = 0x02 || t = 0x03 || t = 0x04) isL false v
  | .vradd v => vRadd v
  | .vrmin v => vRminmax v
  | .vrmax v => vRminmax v
  | .vscanadd v => vScanAdd v
  | .vscanmax v => vScanMax v
  | .vperm v => vPerm v
  | .vshuf v => vShuf v
  | .vbcast v => vIdx v
  | .vbcasts v => vBcasts v
  | .vrot v => vIdx v
  | .vtopnm v => vTopnm v
  | .kand v => kLogic true v
  | .kor v => kLogic true v
  | .kxor v => kLogic true v
  | .kandn v => kLogic true v
  | .knot v => kLogic false v
  | .kmov v => kLogic false v
  | .vecResultComplete _ => none
  | .sliResultComplete _ => none
  | .mzero h => hLegal h true [h.ha, h.hb] []
  | .mma h _ => hLegal h true [] []
  | .mmat h _ => hLegal h true [] []
  | .mmas h _ _ => hLegal h true [] []
  | .mdrain h rm => hLegal h true [h.hb] [(6, !rmOk rm.val)]
  | .mtxCommandComplete _ => none
  | .awcfg w _ => firstBad [(4, nz w.qn || nz w.ac || w.fe || nz w.flag || nz w.sc || nz w.cnt)]
  | .awgo w => firstBad [(4, nz w.hdr || (!w.fe && nz w.flag) || (nz w.sc && nz w.cnt)), (7, !nz w.sc && !nz w.cnt)]
  | .awstop w => firstBad [(4, nz w.hdr || nz w.qn || nz w.ac || nz w.sc || nz w.cnt || (!w.fe && nz w.flag))]
  | .awgather w iq =>
    firstBad [(4, nz w.hdr || (!w.fe && nz w.flag) || (nz w.sc && nz w.cnt)), (5, iq = w.qn), (7, !nz w.sc && !nz w.cnt)]
  | .awscat w iq =>
    firstBad [(4, nz w.hdr || (!w.fe && nz w.flag) || (nz w.sc && nz w.cnt)), (5, iq = w.qn), (7, !nz w.sc && !nz w.cnt)]
  | .walkerEntry _ _ => none
  | .cpy h delta gs pr _ =>
    hLegal h false [h.hb] [(4, !pr && (nz delta || nz gs)), (7, pr && (delta.val = 0 || delta.val ≥ 2 ^ (gs.val + 1)))]
  | .cpyc h rm _ => hLegal h false [h.hb] [(6, !rmOk rm.val)]
  | .cpym h _ mop _ _ => hLegal h false [] [(7, mop.val = 3)]
  | .cpyd h rm _ _ => hLegal h false [] [(6, !rmOk rm.val)]
  | .cpyh h _ => hLegal h false [h.hb] []
  | .cwp h _ _ => hLegal h true [h.hd, h.ha, h.hb] [(4, !h.fe || nz h.ac)]
  | .granulePerformed _ _ => none
  | .hostDmaResume _ => none
  | .copyComplete _ _ => none
  | .sadd o => saeLegal 4 false false o
  | .smin o => saeLegal 4 false false o
  | .smax o => saeLegal 4 false false o
  | .sor o => saeLegal 1 false false o
  | .sand o => saeLegal 1 false false o
  | .sxor o => saeLegal 1 false false o
  | .sxch o => saeLegal 4 true false o
  | .scas o => saeLegal 1 true true o
  | .sflush h => hLegal h true [h.hd, h.ha, h.hb] [(4, nz h.ac)]
  | .saeWordComplete _ => none
  | .fopen h _ _ => hLegal h true [h.hd, h.hb] []
  | .fclose h _ sv => hLegal h true [h.ha, h.hb] [(4, !sv && nz h.hd)]
  | .ftbl h _ => hLegal h true [h.hd, h.hb] []
  | .ftblImageCheck _ => none
  | .fpush h _ _ => hLegal h true [h.hd, h.hb] []
  | .fpop h _ _ => hLegal h true [h.ha, h.hb] []
  | .fmark h _ _ => hLegal h true [h.hd, h.ha, h.hb] []
  | .fdrop h _ _ => hLegal h true [h.hd, h.ha, h.hb] []
  | .fsplitSplit h _ _ => hLegal h true [h.hd, h.hb] []
  | .fsplitTake h _ _ => hLegal h true [h.hd, h.ha, h.hb] []
  | .fsplitImport h _ => hLegal h true [h.hd, h.hb] []
  | .fsplitImportCheck _ => none
  | .fjoin h _ _ => hLegal h true [h.hd, h.ha, h.hb] []
  | .fstat h _ _ => hLegal h true [h.ha, h.hb] []
  | .furWordComplete _ => none
  | .furrowChunkMove _ _ => none
  | .stopAccept _ _ => none
  | .stopRecord _ _ => none
  | .bracketForce _ _ => none
  | .breakpointFire _ => none
  | .keyMismatch _ _ => none
  | .uncorrectedSoftError _ => none
  | .dispatchSelect => none
  | .drainingEnd _ _ => none
  | .taskAge => none
  | .sliceStart => none
  | .watchedStart _ _ => none
  | .collectiveOpComplete _ _ => none
  | .frameReceive _ _ => none
  | .darudPacketReceive _ _ => none
  | .darudAckReceive _ _ => none
  | .darudNackReceive _ _ _ => none
  | .backoffExpire _ => none
  | .retransmitTimeout _ => none
  | .ackTimer _ => none
  | .bounceReplay _ => none
  | .connectionInvalidate _ => none
  | .gangStart => none
  | .gstatReady => none
  | .gstatAbort => none
  | .cgrantWrite _ _ _ => none
  | .pfloorWrite _ _ => none
  | .carbdWrite _ => none
  | .carbpWrite _ => none
  | .create => none
  | .reset => none
  | .resetFenceTimeout => none
  | .checkpoint => none
  | .replay => none
  | .scrub => none
  | .pcmdComplete => none
  | .dselWrite _ _ _ => none
  | .sampleTick => none
  | .windowSummary => none
  | .dbellWrite _ _ => none
  | .hqcfgWrite _ _ => none
  | .hostLinkError _ => none
  | .atsInvalidation _ _ => none
  | .bootwinWrite _ => none
  | .areqGo => none
  | .powerOnReset => none
  | .thermalThrottle _ => none
  | .thermalShutdown => none
  | .registerWrite _ _ _ => none
  | .ctlLoadReturn _ _ => none
  | .linkBringUp _ _ => none
  | .hostQueueCommand _ _ => none
  | .powerStateD3hot => none

end Sys2Proof.Machine
end

