-- ==== Sys2Proof/WellFormed.lean ====
section
/-! DEFINITION. Sys2Proof/WellFormed.lean: the terms of `Instr` that are legal words (R75). -/

namespace Sys2Proof

/-- A term is well formed when none of R75's checks on its fields fails. -/
def Instr.wf (i : Instr) : Bool := (Machine.illegal i).isNone

end Sys2Proof
end

