-- ==== Sys2Proof/Decode.lean ====
section
/-! DEFINITION. Sys2Proof/Decode.lean: the decoder of text words, total on any 64 bits, which rejects an illegal word with its
R75 subcode, and after it the encoder, written from the same tables (R58 to R74, R51, R97 to R107, R174, R201, R216 to
R220, R234, R248, R274, R278). -/

namespace Sys2Proof
open Sys2Proof.Machine

/-- What decoding answers: the instruction, or the lowest subcode of R75 that applies. -/
abbrev Decoded := Except Nat Instr

/-- A word some of whose reserved bits are set has subcode 4 (R3, R75). -/
def resv (z : Nat) (i : Instr) : Decoded := if z = 0 then .ok i else .error 4

/-- The five fields of SREG (R64): D, A, B, C and FX. -/
def sregWidths : List Nat := [5, 5, 5, 5, 22]

/-- SREG with D, A and B used (R82). -/
def decR3 (mk : SReg → SReg → SReg → Instr) (o : Nat) : Decoded :=
  match unpack [5, 5, 5, 27] o with
  | [d, a, b, z] => resv z (mk (Fin.ofNat 32 d) (Fin.ofNat 32 a) (Fin.ofNat 32 b))
  | _ => .error 3

/-- SIMM with D, A and IMM used (R65). -/
def decImm (mk : SReg → SReg → BitVec 30 → Instr) (o : Nat) : Decoded :=
  match unpack [5, 5, 2, 30] o with
  | [d, a, z, i] => resv z (mk (Fin.ofNat 32 d) (Fin.ofNat 32 a) (BitVec.ofNat 30 i))
  | _ => .error 3

/-- BRAN with A, B and OFF used (R67); it has the widths of SIMM. -/
def decBran (mk : SReg → SReg → BitVec 30 → Instr) (o : Nat) : Decoded := decImm mk o

/-- Words of the CTL class with every operand field reserved. -/
def decNone (i : Instr) (o : Nat) : Decoded := resv o i

/-- XCMD (R70, R103): an unassigned function or a DV that does not match is subcode 3, an unused operand not s0 subcode 4. -/
def decXcmd (o : Nat) : Decoded :=
  match unpack [7, 5, 5, 5, 1, 19] o with
  | [fn, a, b, d, dv, z] =>
    let ra : SReg := Fin.ofNat 32 a
    let rb : SReg := Fin.ofNat 32 b
    let rd : SReg := Fin.ofNat 32 d
    let go (reply : Nat) (bad : Nat) (i : Instr) : Decoded := if dv ≠ reply then .error 3 else resv (z + bad) i
    if fn = 0x01 then go 0 (d + a + b) .tend
    else if fn = 0x02 then go 1 (b) (.tspawn rd ra)
    else if fn = 0x08 then go 1 (a + b) (.fnew rd)
    else if fn = 0x09 then go 1 (0) (.fatt rd ra rb)
    else if fn = 0x0A then go 0 (d) (.fres ra rb)
    else if fn = 0x0B then go 1 (b) (.fget rd ra)
    else if fn = 0x0C then go 0 (d + b) (.ffree ra)
    else if fn = 0x20 then go 1 (b) (.csubmit rd ra)
    else if fn = 0x21 then go 0 (d) (.cwatch ra rb)
    else if fn = 0x22 then go 0 (d + b) (.cunwatch ra)
    else if fn = 0x23 then go 1 (b) (.cpoll rd ra)
    else .error 3
  | _ => .error 3

/-- TLBI (R234): kinds 7–15 have subcode 7; an operand the kind does not use must be s0. Of an unassigned kind nothing says that it
does not use A or B: they do not count as reserved. DEDUCED (assumption log 28). -/
def decTlbi (o : Nat) : Decoded :=
  match unpack [5, 5, 5, 5, 18, 4] o with
  | [d, a, b, c, fx, k] =>
    let ra : SReg := Fin.ofNat 32 a
    let rb : SReg := Fin.ofNat 32 b
    let z := d + c + fx
    if k = 0 then resv (z + a + b) .hall
    else if k = 1 then resv (z + b) (.hone ra)
    else if k = 2 then resv (z) (.s1va ra rb)
    else if k = 3 then resv (z + a) (.s1asid rb)
    else if k = 4 then resv (z + a + b) .s1all
    else if k = 5 then resv (z) (.s2ipa ra rb)
    else if k = 6 then resv (z + a) (.s2part rb)
    else if z = 0 then .error 7 else .error 4
  | _ => .error 3

/-- SCTL (R274): ops 7–15 have subcode 7; an operand the op does not use must be s0. Of an unassigned op nothing says that it does
not use A: it does not count as reserved. DEDUCED (assumption log 28). -/
def decSctl (o : Nat) : Decoded :=
  match unpack [5, 5, 5, 5, 16, 4, 2] o with
  | [d, a, b, c, fx, k, x] =>
    let ra : SReg := Fin.ofNat 32 a
    let cx : CtxId := Fin.ofNat 4 x
    let z := d + b + c + fx
    if k = 0 then resv (z) (.preempt ra cx)
    else if k = 1 then resv (z + a) (.resume cx)
    else if k = 2 then resv (z + a) (.requeue cx)
    else if k = 3 then resv (z + a) (.abort cx)
    else if k = 4 then resv (z + a) (.bopen cx)
    else if k = 5 then resv (z + a) (.bclose cx)
    else if k = 6 then resv (z) (.doorbell ra cx)
    else if z = 0 then .error 7 else .error 4
  | _ => .error 3

/-- PHASE (R101): KIND 0 has subcode 7. -/
def decPhase (o : Nat) : Decoded :=
  match unpack [26, 2, 2, 12] o with
  | [z, s, k, y] =>
    let sc : Scope := Fin.ofNat 4 s
    if k = 1 then resv (z + y) (.phaseRel sc)
    else if k = 2 then resv (z + y) (.phaseAcq sc)
    else if k = 3 then resv (z + y) (.phaseAcqrel sc)
    else if z + y = 0 then .error 7 else .error 4
  | _ => .error 3

/-- The CTL class (R71). -/
def decCtl (opc o : Nat) : Decoded :=
  match opc with
  | 0x01 => decNone .nop o
  | 0x02 => decNone .join o
  | 0x03 => match unpack [6, 6, 30] o with
    | [m, z, f] => resv z (.fork (BitVec.ofNat 6 m) (BitVec.ofNat 30 f))
    | _ => .error 3
  | 0x04 => match unpack [5, 5, 10, 6, 2, 1, 13] o with
    | [z, a, y, f, s, p, x] => resv (z + y + x) (.setf (Fin.ofNat 64 f) (Fin.ofNat 32 a) (Fin.ofNat 4 s) (p = 1))
    | _ => .error 3
  | 0x05 => match unpack [5, 5, 10, 6, 2, 2, 6, 6] o with
    | [z, a, y, f, s, c, g, x] =>
      resv (z + y + x) (.waitf (Fin.ofNat 64 f) (Fin.ofNat 32 a) (Fin.ofNat 4 s) (Fin.ofNat 4 c) (BitVec.ofNat 6 g))
    | _ => .error 3
  | 0x06 => decPhase o
  | 0x07 => match unpack [30, 6, 6] o with
    | [z, f, t] => resv z (.fence (BitVec.ofNat 6 f) (BitVec.ofNat 6 t))
    | _ => .error 3
  | 0x08 => decXcmd o
  | 0x09 => match unpack [26, 16] o with
    | [z, c] => resv z (.trap (BitVec.ofNat 16 c))
    | _ => .error 3
  | 0x0A => decNone .eret o
  | 0x0B => match unpack [5, 5, 32] o with
    | [z, a, y] => resv (z + y) (.wfe (Fin.ofNat 32 a))
    | _ => .error 3
  | 0x0C => match unpack [5, 5, 30, 2] o with
    | [z, a, y, x] => resv (z + y) (.csave (Fin.ofNat 32 a) (Fin.ofNat 4 x))
    | _ => .error 3
  | 0x0D => match unpack [5, 5, 30, 2] o with
    | [z, a, y, x] => resv (z + y) (.cload (Fin.ofNat 32 a) (Fin.ofNat 4 x))
    | _ => .error 3
  | 0x0E => decTlbi o
  | 0x0F => decSctl o
  | 0x10 => decR3 .add o
  | 0x11 => decR3 .sub o
  | 0x12 => decR3 .and o
  | 0x13 => decR3 .or o
  | 0x14 => decR3 .xor o
  | 0x15 => decR3 .sll o
  | 0x16 => decR3 .srl o
  | 0x17 => decR3 .sra o
  | 0x18 => decR3 .slt o
  | 0x19 => decR3 .sltu o
  | 0x1A => decR3 .min o
  | 0x1B => decR3 .max o
  | 0x1C => decR3 .minu o
  | 0x1D => decR3 .maxu o
  | 0x20 => decR3 .mul o
  | 0x21 => decR3 .mulh o
  | 0x22 => decR3 .mulhu o
  | 0x23 => decR3 .div o
  | 0x24 => decR3 .divu o
  | 0x25 => decR3 .rem o
  | 0x26 => decR3 .remu o
  | 0x30 => decImm .addi o
  | 0x32 => decImm .andi o
  | 0x33 => decImm .ori o
  | 0x34 => decImm .xori o
  | 0x35 => decImm .slli o
  | 0x36 => decImm .srli o
  | 0x37 => decImm .srai o
  | 0x38 => decImm .slti o
  | 0x39 => decImm .sltiu o
  | 0x40 => decImm .ldI8 o
  | 0x41 => decImm .ldUi8 o
  | 0x42 => decImm .ldI16 o
  | 0x43 => decImm .ldUi16 o
  | 0x44 => decImm .ldI32 o
  | 0x45 => decImm .ldUi32 o
  | 0x46 => decImm .ldI64 o
  | 0x48 => decImm .stI8 o
  | 0x4A => decImm .stI16 o
  | 0x4C => decImm .stI32 o
  | 0x4E => decImm .stI64 o
  | 0x57 => decImm .jalr o
  | 0x50 => decBran .beq o
  | 0x51 => decBran .bne o
  | 0x52 => decBran .blt o
  | 0x53 => decBran .bge o
  | 0x54 => decBran .bltu o
  | 0x55 => decBran .bgeu o
  | 0x3E => match unpack [5, 5, 32] o with
    | [d, z, i] => resv z (.lil (Fin.ofNat 32 d) (BitVec.ofNat 32 i))
    | _ => .error 3
  | 0x3F => match unpack [5, 5, 32] o with
    | [d, z, i] => resv z (.lih (Fin.ofNat 32 d) (BitVec.ofNat 32 i))
    | _ => .error 3
  | 0x56 => match unpack [5, 7, 30] o with
    | [d, z, f] => resv z (.jal (Fin.ofNat 32 d) (BitVec.ofNat 30 f))
    | _ => .error 3
  | 0x60 => match unpack [5, 7, 30] o with
    | [d, z, i] => resv z (.csrr (Fin.ofNat 32 d) (BitVec.ofNat 30 i))
    | _ => .error 3
  | 0x61 => match unpack [5, 5, 2, 30] o with
    | [z, a, y, i] => resv (z + y) (.csrw (Fin.ofNat 32 a) (BitVec.ofNat 30 i))
    | _ => .error 3
  | 0x62 => decImm .csrx o
  | 0x64 => match unpack [5, 5, 10, 17, 5] o with
    | [d, a, z, y, f] => resv (z + y) (.hdrw (Fin.ofNat 32 d) (Fin.ofNat 32 f) (Fin.ofNat 32 a))
    | _ => .error 3
  | 0x65 => match unpack [5, 5, 10, 17, 5] o with
    | [d, a, z, y, f] => resv (z + y) (.hdrr (Fin.ofNat 32 d) (Fin.ofNat 32 a) (Fin.ofNat 32 f))
    | _ => .error 3
  | _ => .error 3

/-- VREG (R63): every opcode of the VEC class uses it. -/
def decV (mk : VOp → Instr) (o : Nat) : Decoded :=
  match unpack [6, 6, 6, 6, 6, 4, 4, 4] o with
  | [d, a, b, c, t, k, rm, m] =>
    .ok (mk { d := Fin.ofNat 64 d, a := Fin.ofNat 64 a, b := Fin.ofNat 64 b, c := Fin.ofNat 64 c, t := Fin.ofNat 64 t,
              k := Fin.ofNat 16 k, rm := Fin.ofNat 16 rm, m := Fin.ofNat 16 m })
  | _ => .error 3

/-- The VEC class (R72). -/
def decVec (opc o : Nat) : Decoded :=
  match opc with
  | 0x01 => decV .vmov o
  | 0x02 => decV .vsel o
  | 0x08 => decV .vadd o
  | 0x09 => decV .vsub o
  | 0x0A => decV .vmul o
  | 0x0B => decV .vmulh o
  | 0x0C => decV .vfma o
  | 0x0D => decV .vfms o
  | 0x0E => decV .vfnma o
  | 0x10 => decV .vmin o
  | 0x11 => decV .vmax o
  | 0x12 => decV .vabs o
  | 0x13 => decV .vneg o
  | 0x18 => decV .vand o
  | 0x19 => decV .vor o
  | 0x1A => decV .vxor o
  | 0x1B => decV .vnot o
  | 0x1C => decV .vsll o
  | 0x1D => decV .vsrl o
  | 0x1E => decV .vsra o
  | 0x20 => decV .vcmpeq o
  | 0x21 => decV .vcmpne o
  | 0x22 => decV .vcmplt o
  | 0x23 => decV .vcmple o
  | 0x28 => decV .vcvt o
  | 0x29 => decV .vcvte o
  | 0x2A => decV .vcvtl o
  | 0x2C => decV .vrand o
  | 0x30 => decV .vexp o
  | 0x31 => decV .vlog o
  | 0x32 => decV .vrcp o
  | 0x33 => decV .vrsqrt o
  | 0x34 => decV .vtanh o
  | 0x35 => decV .vgelu o
  | 0x38 => decV .vdiv o
  | 0x39 => decV .vsqrt o
  | 0x3A => decV .vlvl o
  | 0x40 => decV .vradd o
  | 0x41 => decV .vrmin o
  | 0x42 => decV .vrmax o
  | 0x44 => decV .vscanadd o
  | 0x45 => decV .vscanmax o
  | 0x48 => decV .vperm o
  | 0x49 => decV .vshuf o
  | 0x4A => decV .vbcast o
  | 0x4B => decV .vbcasts o
  | 0x4C => decV .vrot o
  | 0x50 => decV .vtopnm o
  | 0x58 => decV .kand o
  | 0x59 => decV .kor o
  | 0x5A => decV .kxor o
  | 0x5B => decV .kandn o
  | 0x5C => decV .knot o
  | 0x5D => decV .kmov o
  | _ => .error 3

/-- HCMD (R68): the common fields, and the 11 XOP bits. -/
def decH (k : HOp → Nat → Decoded) (o : Nat) : Decoded :=
  match unpack [5, 5, 5, 3, 1, 6, 1, 5, 11] o with
  | [hd, ha, hb, ac, fe, fl, ue, fs, xop] =>
    k { hd := Fin.ofNat 32 hd, ha := Fin.ofNat 32 ha, hb := Fin.ofNat 32 hb, ac := Fin.ofNat 8 ac, fe := fe = 1,
        flag := Fin.ofNat 64 fl, ue := ue = 1, fs := Fin.ofNat 32 fs } xop
  | _ => .error 3

/-- The MTX class (R73, R201). -/
def decMtx (opc o : Nat) : Decoded :=
  match opc with
  | 0x01 => decH (fun h x => resv x (.mzero h)) o
  | 0x02 => decH (fun h x => match unpack [10, 1] x with
    | [z, v] => resv z (.mma h (v = 1))
    | _ => .error 3) o
  | 0x03 => decH (fun h x => match unpack [10, 1] x with
    | [z, v] => resv z (.mmat h (v = 1))
    | _ => .error 3) o
  | 0x04 => decH (fun h x => match unpack [9, 1, 1] x with
    | [z, dm, v] => resv z (.mmas h (v = 1) (dm = 1))
    | _ => .error 3) o
  | 0x05 => decH (fun h x => match unpack [7, 4] x with
    | [z, rm] => resv z (.mdrain h (Fin.ofNat 16 rm))
    | _ => .error 3) o
  | _ => .error 3

/-- WALK (R69): the common fields and the 4 XOP bits. -/
def decW (k : WOp → Nat → Decoded) (o : Nat) : Decoded :=
  match unpack [2, 5, 3, 3, 1, 6, 5, 13, 4] o with
  | [wk, hdr, qn, ac, fe, fl, sc, cnt, xop] =>
    k { wk := Fin.ofNat 4 wk, hdr := Fin.ofNat 32 hdr, qn := Fin.ofNat 8 qn, ac := Fin.ofNat 8 ac, fe := fe = 1,
        flag := Fin.ofNat 64 fl, sc := Fin.ofNat 32 sc, cnt := Fin.ofNat 8192 cnt } xop
  | _ => .error 3

/-- The AW class (R73, R185 to R189). -/
def decAw (opc o : Nat) : Decoded :=
  match opc with
  | 0x01 => decW (fun w x => match unpack [3, 1] x with
    | [z, m] => resv z (.awcfg w (m = 1))
    | _ => .error 3) o
  | 0x02 => decW (fun w x => resv x (.awgo w)) o
  | 0x03 => decW (fun w x => resv x (.awstop w)) o
  | 0x04 => decW (fun w x => match unpack [1, 3] x with
    | [z, q] => resv z (.awgather w (Fin.ofNat 8 q))
    | _ => .error 3) o
  | 0x05 => decW (fun w x => match unpack [1, 3] x with
    | [z, q] => resv z (.awscat w (Fin.ofNat 8 q))
    | _ => .error 3) o
  | _ => .error 3

/-- The CPY class (R73, R174, R216 to R220). -/
def decCpy (opc o : Nat) : Decoded :=
  match opc with
  | 0x01 => decH (fun h x => match unpack [1, 4, 2, 1, 1, 2] x with
    | [z, dl, gs, pr, y, ch] => resv (z + y) (.cpy h (Fin.ofNat 16 dl) (Fin.ofNat 4 gs) (pr = 1) (Fin.ofNat 4 ch))
    | _ => .error 3) o
  | 0x02 => decH (fun h x => match unpack [4, 4, 1, 2] x with
    | [z, rm, y, ch] => resv (z + y) (.cpyc h (Fin.ofNat 16 rm) (Fin.ofNat 4 ch))
    | _ => .error 3) o
  | 0x03 => decH (fun h x => match unpack [1, 5, 2, 1, 2] x with
    | [z, hx, mop, v, ch] => resv z (.cpym h (Fin.ofNat 32 hx) (Fin.ofNat 4 mop) (v = 1) (Fin.ofNat 4 ch))
    | _ => .error 3) o
  | 0x04 => decH (fun h x => match unpack [4, 4, 1, 2] x with
    | [z, rm, op, ch] => resv z (.cpyd h (Fin.ofNat 16 rm) (op = 1) (Fin.ofNat 4 ch))
    | _ => .error 3) o
  | 0x05 => decH (fun h x => match unpack [9, 2] x with
    | [z, ch] => resv z (.cpyh h (Fin.ofNat 4 ch))
    | _ => .error 3) o
  | 0x06 => decH (fun h x => match unpack [8, 1, 2] x with
    | [z, trk, ch] => resv z (.cwp h (trk = 1) (Fin.ofNat 4 ch))
    | _ => .error 3) o
  | _ => .error 3

/-- SAE words (R74, R278): the type bits stand in OPC bits 2:0. -/
def decS (mk : SOp → Instr) (ty o : Nat) : Decoded :=
  decH (fun h x => match unpack [3, 3, 3, 1, 1] x with
    | [iq, vq, rq, re, z] =>
      resv z (mk { h := h, ty := Fin.ofNat 8 ty, iq := Fin.ofNat 8 iq, vq := Fin.ofNat 8 vq, rq := Fin.ofNat 8 rq, re := re = 1 })
    | _ => .error 3) o

/-- The SAE class (R74): an operation with a type it does not accept is an unassigned opcode. -/
def decSae (opc o : Nat) : Decoded :=
  let ty := opc % 8
  match opc / 8 with
  | 1 => if ty ≤ 4 then decS .sadd ty o else .error 3
  | 2 => if ty ≤ 4 then decS .smin ty o else .error 3
  | 3 => if ty ≤ 4 then decS .smax ty o else .error 3
  | 4 => if ty ≤ 1 then decS .sor ty o else .error 3
  | 5 => if ty ≤ 1 then decS .sand ty o else .error 3
  | 6 => if ty ≤ 1 then decS .sxor ty o else .error 3
  | 7 => if ty ≤ 4 then decS .sxch ty o else .error 3
  | 8 => if ty ≤ 1 then decS .scas ty o else .error 3
  | 0x1F => if ty = 0 then decH (fun h x => resv x (.sflush h)) o else .error 3
  | _ => .error 3

/-- FSPLIT (R248, R255): MODE 3 has subcode 7, or 4 where a field that no FSPLIT names is set (HD, HB: R259); FN must be 0 in an import. -/
def decFsplit (h : HOp) (x : Nat) : Decoded :=
  match unpack [4, 2, 1, 4] x with
  | [fn, md, z, cf] =>
    if md = 0 then resv z (.fsplitSplit h (Fin.ofNat 16 fn) (Fin.ofNat 16 cf))
    else if md = 1 then resv z (.fsplitTake h (Fin.ofNat 16 fn) (Fin.ofNat 16 cf))
    else if md = 2 then resv (z + fn) (.fsplitImport h (Fin.ofNat 16 cf))
    else if z ≠ 0 || hBad h || h.ue || nz h.fs || nz h.hd || nz h.hb then .error 4 else .error 7
  | _ => .error 3

/-- The FUR class (R73, R237, R248). -/
def decFur (opc o : Nat) : Decoded :=
  match opc with
  | 0x01 => decH (fun h x => match unpack [4, 1, 6] x with
    | [fn, z, ln] => resv z (.fopen h (Fin.ofNat 16 fn) (Fin.ofNat 64 ln))
    | _ => .error 3) o
  | 0x02 => decH (fun h x => match unpack [4, 6, 1] x with
    | [fn, z, sv] => resv z (.fclose h (Fin.ofNat 16 fn) (sv = 1))
    | _ => .error 3) o
  | 0x03 => decH (fun h x => match unpack [4, 3, 4] x with
    | [z, tb, y] => resv (z + y) (.ftbl h (Fin.ofNat 8 tb))
    | _ => .error 3) o
  | 0x04 => decH (fun h x => match unpack [4, 3, 4] x with
    | [fn, tb, z] => resv z (.fpush h (Fin.ofNat 16 fn) (Fin.ofNat 8 tb))
    | _ => .error 3) o
  | 0x05 => decH (fun h x => match unpack [4, 6, 1] x with
    | [fn, z, et] => resv z (.fpop h (Fin.ofNat 16 fn) (et = 1))
    | _ => .error 3) o
  | 0x06 => decH (fun h x => match unpack [4, 4, 3] x with
    | [fn, z, mk] => resv z (.fmark h (Fin.ofNat 16 fn) (Fin.ofNat 8 mk))
    | _ => .error 3) o
  | 0x07 => decH (fun h x => match unpack [4, 4, 3] x with
    | [fn, z, mk] => resv z (.fdrop h (Fin.ofNat 16 fn) (Fin.ofNat 8 mk))
    | _ => .error 3) o
  | 0x08 => decH decFsplit o
  | 0x09 => decH (fun h x => match unpack [4, 3, 4] x with
    | [fn, z, cf] => resv z (.fjoin h (Fin.ofNat 16 fn) (Fin.ofNat 16 cf))
    | _ => .error 3) o
  | 0x0A => decH (fun h x => match unpack [4, 6, 1] x with
    | [fn, z, clr] => resv z (.fstat h (Fin.ofNat 16 fn) (clr = 1))
    | _ => .error 3) o
  | _ => .error 3

/-- The ALL class (R51): IDLE must be zero. -/
def decAll (idle opc o : Nat) : Decoded :=
  match opc with
  | 0x01 => match unpack [2, 5, 3, 1, 31] o with
    | [n, t, s, p, z] => resv (z + idle) (.loop (Fin.ofNat 4 n) (Fin.ofNat 32 t) (Fin.ofNat 8 s) (p = 1))
    | _ => .error 3
  | 0x02 => match unpack [2, 40] o with
    | [n, z] => resv (z + idle) (.loope (Fin.ofNat 4 n))
    | _ => .error 3
  | 0x03 => resv (o + idle) .rdv
  | 0x04 => match unpack [3, 39] o with
    | [s, z] => resv (z + idle) (.stg (Fin.ofNat 8 s))
    | _ => .error 3
  | _ => .error 3

/-- The class that a word belongs to (R21); `none` for TAG 7–14. -/
inductive WordClass where
  | eng (t : Tag)
  | all
  deriving DecidableEq, Repr

/-- The class of a TAG value (R21). -/
def classOf (tag : Nat) : Option WordClass :=
  match tag with
  | 0 => some (.eng .ctl) | 1 => some (.eng .vec) | 2 => some (.eng .mtx) | 3 => some (.eng .aw)
  | 4 => some (.eng .cpy) | 5 => some (.eng .sae) | 6 => some (.eng .fur) | 15 => some .all | _ => none

/-- TAG, IDLE, OPC and operands of a word (R58). -/
def wordTag (w : Word) : Nat := bits w.toNat 60 4
/-- IDLE of a word (R58). -/
def wordIdle (w : Word) : Nat := bits w.toNat 50 10
/-- OPC of a word (R58). -/
def wordOpc (w : Word) : Nat := bits w.toNat 42 8
/-- The operand field of a word (R58). -/
def wordOps (w : Word) : Nat := bits w.toNat 0 42

/-- The checks of R75 on a term that the bit layout admitted. -/
def legalOr (d : Decoded) : Decoded :=
  match d with
  | .error n => .error n
  | .ok i => match illegal i with
    | some n => .error n
    | none => .ok i

/-- Decodes a text word: its instruction, or the subcode of R75 with which the word is illegal whatever fork set is active
(subcodes 1, 3, 4, 5, 6 and 7). Total on all 2^64 words. -/
def decodeWord (w : Word) : Decoded :=
  match classOf (wordTag w) with
  | none => .error 1
  | some .all => legalOr (decAll (wordIdle w) (wordOpc w) (wordOps w))
  | some (.eng .ctl) => legalOr (decCtl (wordOpc w) (wordOps w))
  | some (.eng .vec) => legalOr (decVec (wordOpc w) (wordOps w))
  | some (.eng .mtx) => legalOr (decMtx (wordOpc w) (wordOps w))
  | some (.eng .aw) => legalOr (decAw (wordOpc w) (wordOps w))
  | some (.eng .cpy) => legalOr (decCpy (wordOpc w) (wordOps w))
  | some (.eng .sae) => legalOr (decSae (wordOpc w) (wordOps w))
  | some (.eng .fur) => legalOr (decFur (wordOpc w) (wordOps w))

/-- The host's reader: the instruction in the low 64 bits when nothing stands above them (R58, R59: a text word is 8 bytes,
little-endian, and the whole instruction). -/
def decodeTableWord (_nbits w : Nat) : Option Instr :=
  if w < 2 ^ 64 then (match decodeWord (BitVec.ofNat 64 w) with | .ok i => some i | .error _ => none) else none

/-- TAG value of an engine (R21). -/
def tagNum : Tag → Nat
  | .ctl => 0 | .vec => 1 | .mtx => 2 | .aw => 3 | .cpy => 4 | .sae => 5 | .fur => 6

/-- The layout of a VREG word. -/
def encV (v : VOp) : List (Nat × Nat) :=
  [(6, v.d.val), (6, v.a.val), (6, v.b.val), (6, v.c.val), (6, v.t.val), (4, v.k.val), (4, v.rm.val), (4, v.m.val)]

/-- The layout of an HCMD word with its XOP fields. -/
def encH (h : HOp) (xop : List (Nat × Nat)) : List (Nat × Nat) :=
  [(5, h.hd.val), (5, h.ha.val), (5, h.hb.val), (3, h.ac.val), (1, b2n h.fe), (6, h.flag.val), (1, b2n h.ue), (5, h.fs.val),
   (11, pack xop)]

/-- The layout of a WALK word with its XOP fields. -/
def encWk (w : WOp) (xop : List (Nat × Nat)) : List (Nat × Nat) :=
  [(2, w.wk.val), (5, w.hdr.val), (3, w.qn.val), (3, w.ac.val), (1, b2n w.fe), (6, w.flag.val), (5, w.sc.val), (13, w.cnt.val),
   (4, pack xop)]

/-- The XOP fields of an SAE word (R278). -/
def encS (o : SOp) : List (Nat × Nat) :=
  encH o.h [(3, o.iq.val), (3, o.vq.val), (3, o.rq.val), (1, b2n o.re), (1, 0)]

/-- The layout of a three-register CTL word. -/
def encR3 (d a b : SReg) : List (Nat × Nat) := [(5, d.val), (5, a.val), (5, b.val), (27, 0)]

/-- The layout of a SIMM or BRAN word. -/
def encImm (d a : SReg) (i : BitVec 30) : List (Nat × Nat) := [(5, d.val), (5, a.val), (2, 0), (30, i.toNat)]

/-- The layout of an XCMD word. -/
def encX (fn a b d dv : Nat) : List (Nat × Nat) := [(7, fn), (5, a), (5, b), (5, d), (1, dv), (19, 0)]

/-- The layout of a TLBI word. -/
def encT (a b k : Nat) : List (Nat × Nat) := [(5, 0), (5, a), (5, b), (5, 0), (18, 0), (4, k)]

/-- The layout of an SCTL word. -/
def encC (a k x : Nat) : List (Nat × Nat) := [(5, 0), (5, a), (5, 0), (5, 0), (16, 0), (4, k), (2, x)]

/-- TAG, OPC and operand fields of an instruction word; `none` for a machine event, which has no word. -/
def encodeParts : Instr → Option (Nat × Nat × List (Nat × Nat))
  | .loop n t s p => some (15, 0x01, [(2, n.val), (5, t.val), (3, s.val), (1, b2n p), (31, 0)])
  | .loope n => some (15, 0x02, [(2, n.val), (40, 0)])
  | .rdv => some (15, 0x03, [(42, 0)])
  | .stg s => some (15, 0x04, [(3, s.val), (39, 0)])
  | .nop => some (0, 0x01, [(42, 0)])
  | .join => some (0, 0x02, [(42, 0)])
  | .fork m f => some (0, 0x03, [(6, m.toNat), (6, 0), (30, f.toNat)])
  | .setf f a s p => some (0, 0x04, [(5, 0), (5, a.val), (10, 0), (6, f.val), (2, s.val), (1, b2n p), (13, 0)])
  | .waitf f a s c g => some (0, 0x05, [(5, 0), (5, a.val), (10, 0), (6, f.val), (2, s.val), (2, c.val), (6, g.toNat), (6, 0)])
  | .phaseRel s => some (0, 0x06, [(26, 0), (2, s.val), (2, 1), (12, 0)])
  | .phaseAcq s => some (0, 0x06, [(26, 0), (2, s.val), (2, 2), (12, 0)])
  | .phaseAcqrel s => some (0, 0x06, [(26, 0), (2, s.val), (2, 3), (12, 0)])
  | .fence f t => some (0, 0x07, [(30, 0), (6, f.toNat), (6, t.toNat)])
  | .tend => some (0, 0x08, encX 0x01 0 0 0 0)
  | .tspawn d a => some (0, 0x08, encX 0x02 a.val 0 d.val 1)
  | .fnew d => some (0, 0x08, encX 0x08 0 0 d.val 1)
  | .fatt d a b => some (0, 0x08, encX 0x09 a.val b.val d.val 1)
  | .fres a b => some (0, 0x08, encX 0x0A a.val b.val 0 0)
  | .fget d a => some (0, 0x08, encX 0x0B a.val 0 d.val 1)
  | .ffree a => some (0, 0x08, encX 0x0C a.val 0 0 0)
  | .csubmit d a => some (0, 0x08, encX 0x20 a.val 0 d.val 1)
  | .cwatch a b => some (0, 0x08, encX 0x21 a.val b.val 0 0)
  | .cunwatch a => some (0, 0x08, encX 0x22 a.val 0 0 0)
  | .cpoll d a => some (0, 0x08, encX 0x23 a.val 0 d.val 1)
  | .trap c => some (0, 0x09, [(26, 0), (16, c.toNat)])
  | .eret => some (0, 0x0A, [(42, 0)])
  | .wfe a => some (0, 0x0B, [(5, 0), (5, a.val), (32, 0)])
  | .csave a x => some (0, 0x0C, [(5, 0), (5, a.val), (30, 0), (2, x.val)])
  | .cload a x => some (0, 0x0D, [(5, 0), (5, a.val), (30, 0), (2, x.val)])
  | .hall => some (0, 0x0E, encT 0 0 0)
  | .hone a => some (0, 0x0E, encT a.val 0 1)
  | .s1va a b => some (0, 0x0E, encT a.val b.val 2)
  | .s1asid b => some (0, 0x0E, encT 0 b.val 3)
  | .s1all => some (0, 0x0E, encT 0 0 4)
  | .s2ipa a b => some (0, 0x0E, encT a.val b.val 5)
  | .s2part b => some (0, 0x0E, encT 0 b.val 6)
  | .preempt a x => some (0, 0x0F, encC a.val 0 x.val)
  | .resume x => some (0, 0x0F, encC 0 1 x.val)
  | .requeue x => some (0, 0x0F, encC 0 2 x.val)
  | .abort x => some (0, 0x0F, encC 0 3 x.val)
  | .bopen x => some (0, 0x0F, encC 0 4 x.val)
  | .bclose x => some (0, 0x0F, encC 0 5 x.val)
  | .doorbell a x => some (0, 0x0F, encC a.val 6 x.val)
  | .add d a b => some (0, 0x10, encR3 d a b)
  | .sub d a b => some (0, 0x11, encR3 d a b)
  | .and d a b => some (0, 0x12, encR3 d a b)
  | .or d a b => some (0, 0x13, encR3 d a b)
  | .xor d a b => some (0, 0x14, encR3 d a b)
  | .sll d a b => some (0, 0x15, encR3 d a b)
  | .srl d a b => some (0, 0x16, encR3 d a b)
  | .sra d a b => some (0, 0x17, encR3 d a b)
  | .slt d a b => some (0, 0x18, encR3 d a b)
  | .sltu d a b => some (0, 0x19, encR3 d a b)
  | .min d a b => some (0, 0x1A, encR3 d a b)
  | .max d a b => some (0, 0x1B, encR3 d a b)
  | .minu d a b => some (0, 0x1C, encR3 d a b)
  | .maxu d a b => some (0, 0x1D, encR3 d a b)
  | .mul d a b => some (0, 0x20, encR3 d a b)
  | .mulh d a b => some (0, 0x21, encR3 d a b)
  | .mulhu d a b => some (0, 0x22, encR3 d a b)
  | .div d a b => some (0, 0x23, encR3 d a b)
  | .divu d a b => some (0, 0x24, encR3 d a b)
  | .rem d a b => some (0, 0x25, encR3 d a b)
  | .remu d a b => some (0, 0x26, encR3 d a b)
  | .addi d a i => some (0, 0x30, encImm d a i)
  | .andi d a i => some (0, 0x32, encImm d a i)
  | .ori d a i => some (0, 0x33, encImm d a i)
  | .xori d a i => some (0, 0x34, encImm d a i)
  | .slli d a i => some (0, 0x35, encImm d a i)
  | .srli d a i => some (0, 0x36, encImm d a i)
  | .srai d a i => some (0, 0x37, encImm d a i)
  | .slti d a i => some (0, 0x38, encImm d a i)
  | .sltiu d a i => some (0, 0x39, encImm d a i)
  | .ldI8 d a i => some (0, 0x40, encImm d a i)
  | .ldUi8 d a i => some (0, 0x41, encImm d a i)
  | .ldI16 d a i => some (0, 0x42, encImm d a i)
  | .ldUi16 d a i => some (0, 0x43, encImm d a i)
  | .ldI32 d a i => some (0, 0x44, encImm d a i)
  | .ldUi32 d a i => some (0, 0x45, encImm d a i)
  | .ldI64 d a i => some (0, 0x46, encImm d a i)
  | .stI8 d a i => some (0, 0x48, encImm d a i)
  | .stI16 d a i => some (0, 0x4A, encImm d a i)
  | .stI32 d a i => some (0, 0x4C, encImm d a i)
  | .stI64 d a i => some (0, 0x4E, encImm d a i)
  | .jalr d a i => some (0, 0x57, encImm d a i)
  | .beq d a i => some (0, 0x50, encImm d a i)
  | .bne d a i => some (0, 0x51, encImm d a i)
  | .blt d a i => some (0, 0x52, encImm d a i)
  | .bge d a i => some (0, 0x53, encImm d a i)
  | .bltu d a i => some (0, 0x54, encImm d a i)
  | .bgeu d a i => some (0, 0x55, encImm d a i)
  | .lil d i => some (0, 0x3E, [(5, d.val), (5, 0), (32, i.toNat)])
  | .lih d i => some (0, 0x3F, [(5, d.val), (5, 0), (32, i.toNat)])
  | .jal d f => some (0, 0x56, [(5, d.val), (7, 0), (30, f.toNat)])
  | .csrr d n => some (0, 0x60, [(5, d.val), (7, 0), (30, n.toNat)])
  | .csrw a n => some (0, 0x61, [(5, 0), (5, a.val), (2, 0), (30, n.toNat)])
  | .csrx d a n => some (0, 0x62, encImm d a n)
  | .hdrw d f a => some (0, 0x64, [(5, d.val), (5, a.val), (10, 0), (17, 0), (5, f.val)])
  | .hdrr d a f => some (0, 0x65, [(5, d.val), (5, a.val), (10, 0), (17, 0), (5, f.val)])
  | .vmov v => some (1, 0x01, encV v)
  | .vsel v => some (1, 0x02, encV v)
  | .vadd v => some (1, 0x08, encV v)
  | .vsub v => some (1, 0x09, encV v)
  | .vmul v => some (1, 0x0A, encV v)
  | .vmulh v => some (1, 0x0B, encV v)
  | .vfma v => some (1, 0x0C, encV v)
  | .vfms v => some (1, 0x0D, encV v)
  | .vfnma v => some (1, 0x0E, encV v)
  | .vmin v => some (1, 0x10, encV v)
  | .vmax v => some (1, 0x11, encV v)
  | .vabs v => some (1, 0x12, encV v)
  | .vneg v => some (1, 0x13, encV v)
  | .vand v => some (1, 0x18, encV v)
  | .vor v => some (1, 0x19, encV v)
  | .vxor v => some (1, 0x1A, encV v)
  | .vnot v => some (1, 0x1B, encV v)
  | .vsll v => some (1, 0x1C, encV v)
  | .vsrl v => some (1, 0x1D, encV v)
  | .vsra v => some (1, 0x1E, encV v)
  | .vcmpeq v => some (1, 0x20, encV v)
  | .vcmpne v => some (1, 0x21, encV v)
  | .vcmplt v => some (1, 0x22, encV v)
  | .vcmple v => some (1, 0x23, encV v)
  | .vcvt v => some (1, 0x28, encV v)
  | .vcvte v => some (1, 0x29, encV v)
  | .vcvtl v => some (1, 0x2A, encV v)
  | .vrand v => some (1, 0x2C, encV v)
  | .vexp v => some (1, 0x30, encV v)
  | .vlog v => some (1, 0x31, encV v)
  | .vrcp v => some (1, 0x32, encV v)
  | .vrsqrt v => some (1, 0x33, encV v)
  | .vtanh v => some (1, 0x34, encV v)
  | .vgelu v => some (1, 0x35, encV v)
  | .vdiv v => some (1, 0x38, encV v)
  | .vsqrt v => some (1, 0x39, encV v)
  | .vlvl v => some (1, 0x3A, encV v)
  | .vradd v => some (1, 0x40, encV v)
  | .vrmin v => some (1, 0x41, encV v)
  | .vrmax v => some (1, 0x42, encV v)
  | .vscanadd v => some (1, 0x44, encV v)
  | .vscanmax v => some (1, 0x45, encV v)
  | .vperm v => some (1, 0x48, encV v)
  | .vshuf v => some (1, 0x49, encV v)
  | .vbcast v => some (1, 0x4A, encV v)
  | .vbcasts v => some (1, 0x4B, encV v)
  | .vrot v => some (1, 0x4C, encV v)
  | .vtopnm v => some (1, 0x50, encV v)
  | .kand v => some (1, 0x58, encV v)
  | .kor v => some (1, 0x59, encV v)
  | .kxor v => some (1, 0x5A, encV v)
  | .kandn v => some (1, 0x5B, encV v)
  | .knot v => some (1, 0x5C, encV v)
  | .kmov v => some (1, 0x5D, encV v)
  | .mzero h => some (2, 0x01, encH h [(11, 0)])
  | .mma h v => some (2, 0x02, encH h [(10, 0), (1, b2n v)])
  | .mmat h v => some (2, 0x03, encH h [(10, 0), (1, b2n v)])
  | .mmas h v dm => some (2, 0x04, encH h [(9, 0), (1, b2n dm), (1, b2n v)])
  | .mdrain h rm => some (2, 0x05, encH h [(7, 0), (4, rm.val)])
  | .awcfg w m => some (3, 0x01, encWk w [(3, 0), (1, b2n m)])
  | .awgo w => some (3, 0x02, encWk w [(4, 0)])
  | .awstop w => some (3, 0x03, encWk w [(4, 0)])
  | .awgather w q => some (3, 0x04, encWk w [(1, 0), (3, q.val)])
  | .awscat w q => some (3, 0x05, encWk w [(1, 0), (3, q.val)])
  | .cpy h dl gs pr ch => some (4, 0x01, encH h [(1, 0), (4, dl.val), (2, gs.val), (1, b2n pr), (1, 0), (2, ch.val)])
  | .cpyc h rm ch => some (4, 0x02, encH h [(4, 0), (4, rm.val), (1, 0), (2, ch.val)])
  | .cpym h hx mop v ch => some (4, 0x03, encH h [(1, 0), (5, hx.val), (2, mop.val), (1, b2n v), (2, ch.val)])
  | .cpyd h rm op ch => some (4, 0x04, encH h [(4, 0), (4, rm.val), (1, b2n op), (2, ch.val)])
  | .cpyh h ch => some (4, 0x05, encH h [(9, 0), (2, ch.val)])
  | .cwp h trk ch => some (4, 0x06, encH h [(8, 0), (1, b2n trk), (2, ch.val)])
  | .sadd o => some (5, 1 * 8 + o.ty.val, encS o)
  | .smin o => some (5, 2 * 8 + o.ty.val, encS o)
  | .smax o => some (5, 3 * 8 + o.ty.val, encS o)
  | .sor o => some (5, 4 * 8 + o.ty.val, encS o)
  | .sand o => some (5, 5 * 8 + o.ty.val, encS o)
  | .sxor o => some (5, 6 * 8 + o.ty.val, encS o)
  | .sxch o => some (5, 7 * 8 + o.ty.val, encS o)
  | .scas o => some (5, 8 * 8 + o.ty.val, encS o)
  | .sflush h => some (5, 0xF8, encH h [(11, 0)])
  | .fopen h fn ln => some (6, 0x01, encH h [(4, fn.val), (1, 0), (6, ln.val)])
  | .fclose h fn sv => some (6, 0x02, encH h [(4, fn.val), (6, 0), (1, b2n sv)])
  | .ftbl h tb => some (6, 0x03, encH h [(4, 0), (3, tb.val), (4, 0)])
  | .fpush h fn tb => some (6, 0x04, encH h [(4, fn.val), (3, tb.val), (4, 0)])
  | .fpop h fn et => some (6, 0x05, encH h [(4, fn.val), (6, 0), (1, b2n et)])
  | .fmark h fn mk => some (6, 0x06, encH h [(4, fn.val), (4, 0), (3, mk.val)])
  | .fdrop h fn mk => some (6, 0x07, encH h [(4, fn.val), (4, 0), (3, mk.val)])
  | .fsplitSplit h fn cf => some (6, 0x08, encH h [(4, fn.val), (2, 0), (1, 0), (4, cf.val)])
  | .fsplitTake h fn cf => some (6, 0x08, encH h [(4, fn.val), (2, 1), (1, 0), (4, cf.val)])
  | .fsplitImport h cf => some (6, 0x08, encH h [(4, 0), (2, 2), (1, 0), (4, cf.val)])
  | .fjoin h fn cf => some (6, 0x09, encH h [(4, fn.val), (3, 0), (4, cf.val)])
  | .fstat h fn clr => some (6, 0x0A, encH h [(4, fn.val), (6, 0), (1, b2n clr)])
  | .cursorFetch _ _ _ => none
  | .xcmdReply _ _ => none
  | .wfeTimeout _ _ => none
  | .ctlStorePerform _ _ => none
  | .vecResultComplete _ => none
  | .sliResultComplete _ => none
  | .mtxCommandComplete _ => none
  | .walkerEntry _ _ => none
  | .granulePerformed _ _ => none
  | .hostDmaResume _ => none
  | .copyComplete _ _ => none
  | .saeWordComplete _ => none
  | .ftblImageCheck _ => none
  | .fsplitImportCheck _ => none
  | .furWordComplete _ => none
  | .furrowChunkMove _ _ => none
  | .stopAccept _ _ => none
  | .stopRecord _ _ => none
  | .bracketForce _ _ => none
  | .breakpointFire _ => none
  | .keyMismatch _ _ => none
  | .uncorrectedSoftError _ => none
  | .dispatchSelect => none
  | .drainingEnd _ _ => none
  | .taskAge => none
  | .sliceStart => none
  | .watchedStart _ _ => none
  | .collectiveOpComplete _ _ => none
  | .frameReceive _ _ => none
  | .darudPacketReceive _ _ => none
  | .darudAckReceive _ _ => none
  | .darudNackReceive _ _ _ => none
  | .backoffExpire _ => none
  | .retransmitTimeout _ => none
  | .ackTimer _ => none
  | .bounceReplay _ => none
  | .connectionInvalidate _ => none
  | .gangStart => none
  | .gstatReady => none
  | .gstatAbort => none
  | .cgrantWrite _ _ _ => none
  | .pfloorWrite _ _ => none
  | .carbdWrite _ => none
  | .carbpWrite _ => none
  | .create => none
  | .reset => none
  | .resetFenceTimeout => none
  | .checkpoint => none
  | .replay => none
  | .scrub => none
  | .pcmdComplete => none
  | .dselWrite _ _ _ => none
  | .sampleTick => none
  | .windowSummary => none
  | .dbellWrite _ _ => none
  | .hqcfgWrite _ _ => none
  | .hostLinkError _ => none
  | .atsInvalidation _ _ => none
  | .bootwinWrite _ => none
  | .areqGo => none
  | .powerOnReset => none
  | .thermalThrottle _ => none
  | .thermalShutdown => none
  | .registerWrite _ _ _ => none
  | .ctlLoadReturn _ _ => none
  | .linkBringUp _ _ => none
  | .hostQueueCommand _ _ => none
  | .powerStateD3hot => none

/-- The text word of an instruction with an IDLE count (R58, R78); `none` for a machine event. -/
def encode (idle : Fin 1024) (i : Instr) : Option Word :=
  match encodeParts i with
  | none => none
  | some (tag, opc, fs) => some (BitVec.ofNat 64 (pack [(4, tag), (10, idle.val), (8, opc), (42, pack fs)]))

/-- The term is an instruction word, not a machine event. -/
def Instr.isWord (i : Instr) : Bool := (encodeParts i).isSome

/-- The class that owns an instruction word (R21); `none` for a machine event. -/
def Instr.owner (i : Instr) : Option WordClass := (encodeParts i).bind fun p => classOf p.1

end Sys2Proof
end

