-- ==== Sys2Proof/Config.lean ====
section
/-! DEFINITION. Sys2Proof/Config.lean: what is fixed for the part and never changes while it runs, and the FREE VALUES:
constants without a body, of which nothing can be proved (assumption log 5). -/

namespace Sys2Proof

/-- FREE VALUE of `w` bits: what the spec leaves open (undefined, R2; a choice among allowed outcomes, R292, R373). It is
applied to the counter `State.fresh`, which the step reads and advances, so each use is a new value. DESIGN CHOICE (log 5). -/
opaque Config.free (w : Nat) : Nat → BitVec w

/-- FREE VALUE: a latency the spec does not state (a load that misses, R80; the time at which a write is performed with
respect to another core, R292). Applied to the counter `State.fresh`. DESIGN CHOICE (log 5). -/
opaque Config.delay : Nat → Nat

/-- The public key digest fused in die 0 (R369): fixed by the part, not given. DESIGN CHOICE (log 6). -/
opaque Config.fusedKeyDigest : BitVec 256

/-- The fused anti-rollback counter (R369): fixed by the part, not given. DESIGN CHOICE (log 6). -/
opaque Config.fusedRollback : Nat

/-- The attestation signature (114 bytes) under the device identity key, which firmware derives from a fused secret
(R370): a function of the 64-byte digest that is signed; its value is not given. DESIGN CHOICE (log 6). -/
opaque Config.signAttestation : BitVec 512 → BitVec 912

/-- Whether DRAM training succeeds at boot (R369, BOOTST.ERR 4): fixed by the part, not given. DESIGN CHOICE (log 6). -/
opaque Config.dramTrains : Bool

end Sys2Proof
end

