-- ==== Sys2Proof/Machine/State.lean ====
section
/-! DEFINITION. Sys2Proof/Machine/State.lean: the state of the package as plain data, all of it (INVENTORY.md, State), the
reasons for which a step ends the run, and the state after reset. -/

namespace Sys2Proof.Machine

/-- Sparse byte memory in one canonical form: addresses strictly rising, no entry equal to `0`, which is what an unlisted
address reads as (assumption log 2). -/
abbrev Mem := List Host.Cell

/-- Sparse memory of 512-byte lines (typed buffers), in the same canonical form; an unlisted line reads as zeros. -/
abbrev Lines := List (Nat × VReg)

/-- Why a run may end in a fault. -/
inductive Fault where
  /-- `exec` was asked to run a term that is no legal word (R75); `step` never does: it takes the illegal-word trap instead.
  Raised by `exec` alone. Safe: no program reaches it. -/
  | illFormed
  deriving DecidableEq, Repr

/-- Why a run may be refused. -/
inductive Refusal where
  /-- The instruction has no meaning in the model yet; raised by its arm of `exec`. Safe. -/
  | notModelled (mnemonic : String)
  deriving DecidableEq, Repr

/-- An engine of a context: whose word `exec` runs (R32). -/
structure Agent where
  core : CoreId
  ctx : CtxId
  tag : Tag
  deriving DecidableEq, Repr

/-! ### Text, loops and cursors -/

/-- An open hardware loop of the walk (R48 to R53): counter, the LOOP word's offset and index, original and clamped N, S, I,
E, pass j, P, the stage to go back to, the value of sT, and I_next of a clamp. -/
structure Loop where
  nc : Nat
  pc : Nat
  idx : Nat
  origN : Nat
  n : Nat
  s : Nat
  i : Nat
  e : Nat
  j : Nat
  p : Bool
  stageOut : Nat
  sT : Word
  iNext : Nat
  clamped : Bool
  deriving DecidableEq, Repr

/-- The single sequential walk of the text (R41): offset and dynamic index of the next word, open loops (innermost first),
the current stage, the next sequence number of each tag (R32), and for a resumed walk the index below which the words of a
tag have run already (R264, R270), and the loop entries the cut recorded, which the walk enters again as they were. `rdv` says that the walk
of the fork set has passed an RDV, beyond which no engine cursor takes a word (R37). -/
structure Walk where
  pc : Nat
  idx : Nat
  loops : List Loop
  stage : Nat
  seqs : Vector Nat 7
  skip : Vector Nat 7
  owed : List Loop
  halted : Bool
  rdv : Bool
  deriving DecidableEq, Repr

/-- What the walk found at a dynamic index: the word's offset and bits, its class, the instruction or the R75 subcode, the
stage predicate, its sequence number, whether it has issued, and the passes and stages of the open loops there (R264). -/
structure SEntry where
  idx : Nat
  pc : Nat
  word : Word
  own : Option Tag
  all : Bool
  ins : Option Instr
  sub : Nat
  on : Bool
  seq : Nat
  issued : Bool
  loops : List Loop
  stage : Nat
  deriving DecidableEq, Repr

/-- A cursor (R32): the index it fetches next, last_issue, whether it runs (is a member or CTL), whether it stopped at RDV,
and the cycle before which it does not fetch. -/
structure Cursor where
  next : Nat
  lastIssue : Nat
  member : Bool
  stopped : Bool
  notBefore : Nat
  deriving DecidableEq, Repr

/-! ### Traps -/

/-- A recorded or pending trap (R262, R267, R269): TRAPCAUSE's fields, TRAPSEQ's fields and the four detail doublewords;
`park` marks a pre-emption with PARK (R274, R362). -/
structure TrapRec where
  async : Bool
  cause : Nat
  code : Nat
  tag : Nat
  seq : Nat
  level : Nat
  park : Bool
  det : Vector Word 4
  at_ : Nat := 0
  deriving DecidableEq, Repr

/-- A cursor's entry of a cut (R264); `took` says that the word at the cut is one of the cursor's own tag. -/
structure CutEntry where
  seq : Nat
  idx : Nat
  pc : Nat
  valid : Bool
  took : Bool
  loops : List Loop
  stage : Nat
  deriving DecidableEq, Repr

/-- A FENCE that has issued and is not complete (R102): its paths, its place in the text, the cycle of its issue, the number of the next
collective operation of the partition at that time, and the cycle in which the last of the writes before it was made, once it was. -/
structure OpenFence where
  src : BitVec 6
  dst : BitVec 6
  epoch : Nat
  idx : Nat
  at_ : Nat
  op : Nat
  made : Option Nat := none
  deriving DecidableEq, Repr

/-- A recorded cut (R263, R264): an entry per TAG 0–6, the fork set with its SLIP when one is active, the text handle, and the fences that
still hold words beyond it (R102). -/
structure Cut where
  ents : Vector CutEntry 7
  fork : Option (BitVec 6)
  slip : Nat
  text : Nat
  fences : List OpenFence := []
  deriving DecidableEq, Repr

/-- A trap bank of a level (R267). -/
structure Bank where
  pc : Word
  vec : Word
  scr : Word
  valid : Bool
  ovf : Bool
  tsel : Nat
  didx : Nat
  pl : Nat
  skip : Bool
  traps : List TrapRec
  cut : Option Cut
  deriving DecidableEq, Repr

/-! ### Memory units -/

/-- The unit that makes an access (R290); `chan` is the copy channel or 0. -/
structure UnitId where
  core : CoreId
  ctx : CtxId
  path : Nat
  chan : Nat
  deriving DecidableEq, Repr

/-- A DRAM or host write that has entered its byte's coherence order (R291): the byte it replaced, its unit and alias class,
the cycle at which the own core saw it, the number of its free delays towards the other cores, and the cycle from which
every core sees it once R295 applies, the units that returned it, with the class of the read (R291), and for a write of the host itself the
cycles and tags of the host's writes before it (R300: PCI Express order). Newest first in `State.hist`. -/
structure HistEntry where
  host : Bool
  addr : Nat
  old : Byte
  unit : UnitId
  cls : Nat
  at_ : Nat
  tag : Nat
  allAt : Option Nat
  seen : List (UnitId × Nat)
  ord : List (Nat × Nat)
  deriving DecidableEq, Repr

/-- A cached translation (R228): tags, page base addresses, the smaller page's size, key and permissions. -/
structure TlbEntry where
  part : Nat
  asid : Nat
  s1 : Bool
  va : Nat
  size : Nat
  gpa : Nat
  s1size : Nat
  s2size : Nat
  pa : Nat
  key : Nat
  rd : Bool
  wr : Bool
  x : Bool
  u : Bool
  deriving DecidableEq, Repr

/-- A cached handle entry (R225, R234). -/
structure HandleEntry where
  num : Nat
  raw : Nat
  deriving DecidableEq, Repr

/-- An issued, incomplete typed-buffer access of a context (R180, R181): its dynamic index and epoch, unit (R177: 0 CTL,
1–4 walkers, 5 MTX, 6–9 CPY channels, 10 SAE, 11 FUR, 12 the matrix command of a CPYM), alias class, and what it reads and
writes: a buffer with the set of its lines as the bits of a number, for WBUF the bytes of every slice. `id` names the access of a
control-core load or store; the others are known by their unit and index. -/
structure Access4 where
  id : Nat
  epoch : Nat
  idx : Nat
  unit : Nat
  cls : Nat
  rd : List (Nat × Nat)
  wr : List (Nat × Nat)
  deriving DecidableEq, Repr

/-- A control-core load in flight (R80): destination and its form, where it reads (`buf` 0 DRAM at a device-physical address, 1
ABUF, 2 CBUF at a byte address), the access's key, handle address and guest-virtual address, and its place in program order (the
cycle of its issue). An access that crosses a page has `more`: its bytes in the first page, and address and key of the rest (R86, R225). -/
structure PendLoad where
  due : Nat
  dst : SReg
  size : Nat
  signed : Bool
  buf : Nat
  addr : Nat
  key : Nat
  haddr : Nat
  va : Nat
  order : Nat
  acc : Nat
  more : Option (Nat × Nat × Nat) := none
  deriving DecidableEq, Repr

/-- A posted control-core store (R89), with the same fields and its bytes; `rel` says that it issued after a release (R300). -/
structure PendStore where
  due : Nat
  bytes : List Byte
  buf : Nat
  addr : Nat
  key : Nat
  haddr : Nat
  va : Nat
  order : Nat
  rel : Bool
  acc : Nat
  more : Option (Nat × Nat × Nat) := none
  deriving DecidableEq, Repr

/-- A reply on its way to a context (R80, R103). -/
structure PendReply where
  due : Nat
  dst : SReg
  val : Word
  deriving DecidableEq, Repr

/-- A flag update that takes effect at the end of cycle `at_` (R97, R99): order key 0–6 for the core's own engines, 7 for
arrivals; `setter` and `score` feed the wait log (R359). -/
structure FlagUpd where
  at_ : Nat
  key : Nat
  flag : FlagNo
  add : Bool
  val : FlagVal
  setter : Nat
  score : Nat
  ctx : CtxId
  deriving DecidableEq, Repr

/-- What governs a read (R292, R294): the cycle and scope of the governing acquire, and at place 8·p + u the cycle before which the context's own writes of path p belong to the floor of its path u, by
a FENCE (R102), an observed completion (R296) or a release that covers a ring record (R358). -/
structure Acq where
  at_ : Nat
  scope : Scope
  floors : Vector Nat 64
  deriving DecidableEq, Repr

/-- A point of the control cursor's text from which on an `Acq` governs: the fork set's epoch and the dynamic index. -/
structure AcqAt where
  epoch : Nat
  idx : Nat
  acq : Acq
  deriving DecidableEq, Repr

/-- What a TLBI removes (R234): handle entries alone (HALL, HONE), the stage-1 page of an address in an ASID of a partition, an ASID of a
partition, every entry of a partition (S1ALL, S2PART), or the stage-2 page of a guest-physical address. -/
inductive TlbiKind where
  | handles
  | s1va (part asid va : Nat)
  | s1asid (part asid : Nat)
  | part (part : Nat)
  | s2ipa (part gpa : Nat)
  deriving DecidableEq, Repr

/-- An effect that a bracket defers to BCLOSE (R277). -/
inductive Deferred where
  | cload (addr : Word) (ctx : CtxId)
  | preempt (a : Word) (ctx : CtxId)
  | resume (ctx : CtxId)
  | requeue (ctx : CtxId)
  | abort (ctx : CtxId)
  | doorbell (a : Word) (ctx : CtxId)
  deriving DecidableEq, Repr

/-- The states of a sequencer context (R271). -/
inductive Phase where
  | empty | running | stopping | handler | parked | stopped
  deriving DecidableEq, Repr

/-- The stop of a context that is being drained (R263): the cycle it was accepted, the synchronous traps raised, whether a
loop is being clamped (R53), whether a bracket was forced (R277), whether the context ran a handler, and the cuts that stand
at an issued word (a rolled-back FUR word or a copy that met a translation fault). -/
structure Stop where
  at_ : Nat
  traps : List TrapRec
  clamp : Bool
  forced : Bool
  fromHandler : Bool
  cuts : List (Nat × CutEntry)
  deriving DecidableEq, Repr

/-- What BOPEN snapshots (R277): scalar, header and loop registers, the CSRs, the trap banks, the vector and mask registers, the cut
of the BOPEN word; and the images that CSAVE has written inside the bracket. -/
structure Snap where
  s : Vector Word 32
  h : Vector Header 32
  n : Vector Nat 4
  evt : Bool
  slipwin : Nat
  vstat : Nat
  vrkey : Word
  vrctr : Word
  mstat : Nat
  cstat : Nat
  sstat : Nat
  saecfg : Nat
  clstat : Nat
  clidx : Nat
  obsring : Word
  obsEn : Bool
  obsLsz : Nat
  obsTail : Nat
  obsHead : Nat
  htbase : Nat
  s1root : Word
  s2root : Word
  cntsel : Vector Nat 8
  cnt : Vector Nat 8
  cntCode : Vector Bool 8
  cntWin : Vector (Vector Nat 3) 8
  vregs : Vector VReg 56
  kregs : Vector Mask 16
  bank : Vector Bank 3
  pl : Nat
  cut : Option Cut
  wfeto : Bool
  walk : Walk
  images : List Word
  deriving DecidableEq, Repr

/-- A sequencer context (R11, R32, R93, R267 and the CSRs of later chapters). `held` is the level of the bank whose cut a
PARKED or STOPPED context resumes from. `busy` lists registers (0–31 s0–s31) with the cycle from which the result that
a control-core word has left there can be read (R80); `loadAt` is the cycle of the last load return. A watch that a store has touched waits in
`pendWatch`: word, release store, descriptor, and the cycle from which the engine sees the store (R329). A TLBI is outstanding until cycle `tlbiUntil`, which is settled once the accesses of the partition that
issued before the cycle in `tlbiWait` have been performed (R234). `owedFur` is a FUR word of a fork set that JOIN has ended, which a stop
rolled back and which runs again at resumption (R246, R270). -/
structure Ctx where
  phase : Phase
  pl : Nat
  s : Vector Word 32
  h : Vector Header 32
  n : Vector Nat 4
  -- text
  text : Nat
  walk : Walk
  stream : List SEntry
  cursors : Vector Cursor 7
  fork : Option (BitVec 6)
  slip : Nat
  epoch : Nat
  -- CSRs
  evt : Bool
  slipwin : Nat
  vstat : Nat
  vrkey : Word
  vrctr : Word
  mstat : Nat
  cstat : Nat
  sstat : Nat
  saecfg : Nat
  clstat : Nat
  clidx : Nat
  obsring : Word
  obsEn : Bool
  obsLsz : Nat
  obsTail : Nat
  obsHead : Nat
  obsDrop : Nat
  wfeto : Bool
  released : Bool
  htbase : Nat
  s1root : Word
  s2root : Word
  cntsel : Vector Nat 8
  cnt : Vector Nat 8
  cntCode : Vector Bool 8
  cntWin : Vector (Vector Nat 3) 8
  dispatchAt : Nat
  -- traps and stops
  bank : Vector Bank 3
  held : Nat
  pending : List TrapRec
  stop : Option Stop
  bracket : Option Snap
  deferred : List Deferred
  bracketWait : Option Nat
  preempting : List CtxId
  -- memory
  loads : List PendLoad
  stores : List PendStore
  replies : List PendReply
  busy : List (Nat × Nat)
  loadAt : Nat
  fences : List OpenFence
  acqs : List AcqAt
  accesses : List Access4
  handles : List HandleEntry
  tlbiUntil : Nat
  tlbiWait : Option (Nat × Nat)
  tlbiKind : TlbiKind
  -- waits
  wfeFrom : Option Nat
  waitFrom : Option Nat
  -- task
  owedFur : Option SEntry
  task : Option Nat
  member : Nat
  draining : Bool
  prio : Nat
  watches : List (Nat × Nat × Nat)
  pendWatch : List (Nat × Nat × Nat × Nat)
  deriving DecidableEq, Repr

/-! ### Engines -/

/-- A queue slot (R43): its number, and the entry once it is complete. -/
structure Slot where
  id : Nat
  val : Option VReg
  deriving DecidableEq, Repr

/-- A vector result in flight (R45, R46, R132): completion cycle, destination (0–55 register, 56–63 slot of a queue, 64–79
mask; 80 nothing), what is written under the element mask (bit mask and value), a mask write (64 and up; 0 none), the VSTAT
bits it raises, whether the scoreboard covers it, and whether it is the first register of its word. -/
structure VPend where
  due : Nat
  sli : Bool
  dst : Nat
  slot : Nat
  wmask : VReg
  val : VReg
  kdst : Nat
  kmask : Mask
  kval : Mask
  flags : Nat
  first : Bool
  ctx : CtxId
  epoch : Nat
  idx : Nat
  deriving DecidableEq, Repr

/-- An entry that a walker has started (R191): a LOAD fills its slot, a STORE writes bits of lines (line, bits written, value). -/
structure WFly where
  due : Nat
  slot : Option Nat
  val : VReg
  writes : List (Nat × VReg × VReg)
  deriving DecidableEq, Repr

/-- A walker word in progress or waiting (R185 to R190): its kind (1 AWCFG, 2 AWGO, 3 AWSTOP, 4 AWGATHER, 5 AWSCAT), queues, entries still to
start, the cycle before which none starts, the next entry of the pattern, the entries it has started, and what its first entry took at
issue (R187): a slot, or popped entries. A waiting AWCFG holds the header and the mode that it latches. -/
structure WCmd where
  kind : Nat
  q : QNo
  iq : QNo
  count : Nat
  at_ : Nat
  pos : Nat
  fly : List WFly
  taken : Bool
  slot : Nat
  got : List VReg
  hdr : Header := 0
  mode : Bool := false
  fe : Bool
  flag : FlagNo
  epoch : Nat
  idx : Nat
  ctx : CtxId
  deriving DecidableEq, Repr

/-- A walker (R183): configured with a latched header, mode (true STORE), position, and its words, the oldest in progress. -/
structure Walker where
  conf : Bool
  hdr : Header
  store : Bool
  pos : Nat
  cmds : List WCmd
  deriving DecidableEq, Repr

/-- A matrix command that has issued and not completed (R206): its effect has been made at issue; what is left is its flags
and its completion update. Its array cycles are the `steps` cycles from `start` on. -/
structure MCmd where
  due : Nat
  start : Nat := 0
  flags : Nat
  steps : Nat
  fe : Bool
  flag : FlagNo
  epoch : Nat
  idx : Nat
  ctx : CtxId
  cpym : Option ChNo
  deriving DecidableEq, Repr

/-- A copy command of a channel (R210 to R221): the word's kind (1 CPY, 2 CPYC, 3 CPYM, 4 CPYD, 5 CPYH), the headers, formats (0 raw)
and register values taken at issue, RM, whether it transforms, granules done, the cycle before which nothing more is performed, its
phase (0 copying; 1 waits to enter its matrix command; 2 that command runs; 3 owes its completion), the flags it gathers, the host
DMA channel it holds and whether that is taken from it, and for a re-run the digest of its sources at the stop. -/
structure CCmd where
  kind : Nat
  hd : Header
  hs : Header
  hb : Header
  hx : Header
  fmtD : Nat
  fmtS : Nat
  raw : Nat
  rm : Nat
  transforming : Bool
  repl : Bool
  mop : Nat
  ovw : Bool
  cls : Nat
  fe : Bool
  flag : FlagNo
  ue : Bool
  fut : Word
  peer : Option (CoreId × CtxId)
  key : Word
  ctr : Word
  done : Nat
  due : Nat
  phase : Nat
  flags : Nat
  dma : Option (Fin 16)
  suspended : Bool
  redo : Option (List Byte)
  prio : Nat
  acq : Acq
  epoch : Nat
  ent : SEntry
  ctx : CtxId
  deriving DecidableEq, Repr

/-- A resolution that a complete copy owes the dispatcher until its writes are performed at PKG (R213): channel and context, partition,
future and value, and the cycle of the completion. -/
structure OwedRes where
  ch : ChNo
  ctx : CtxId
  part : Nat
  fut : Word
  val : Word
  at_ : Nat
  deriving DecidableEq, Repr

/-- A copy channel (R210, R212, R220): its write pointer, commands in issue order, and the flag that follows WP. -/
structure Channel where
  wp : Nat
  cmds : List CCmd
  track : Option FlagNo
  deriving DecidableEq, Repr

/-- An SAE word that has issued and not completed (R284 to R286). -/
structure ACmd where
  due : Nat
  flags : Nat
  flush : Bool
  reply : Option (QNo × Nat × VReg)
  fe : Bool
  flag : FlagNo
  epoch : Nat
  idx : Nat
  ctx : CtxId
  deriving DecidableEq, Repr

/-- A directory entry or descriptor of a furrow (R245). -/
structure DirEntry where
  spos : Nat
  count : Nat
  fmt : Nat
  bias : Nat
  ln : Nat
  tb : Nat
  child : Bool
  region : Word
  size : Nat
  deriving DecidableEq, Repr

/-- A furrow (R239): OPEN, LC, lanes, region and size, CHILD, PARENT, EMPTY, FULL; the stream as words already in the region
(`base`) and newer words on the die (newest first); the directory likewise. `since` is the cycle of its opening and
`loose` says that a reloaded table, a foreign write or a bad lane state has made every later pop undefined (R243, R244, R255). -/
structure Furrow where
  opened : Bool
  lc : Nat
  x : Vector (BitVec 32) 64
  base : Nat
  top : List (BitVec 16)
  dbase : Nat
  dtop : List DirEntry
  region : Word
  size : Nat
  child : Bool
  parent : Nat
  empty : Bool
  full : Bool
  since : Nat
  loose : Bool
  deriving DecidableEq, Repr

/-- A frequency-table slot (R240). -/
structure FTable where
  n : Nat
  f : Vector Nat 256
  valid : Bool
  deriving DecidableEq, Repr

/-- A mark (R254). -/
structure FMark where
  valid : Bool
  fn : Nat
  lc : Nat
  x : Vector (BitVec 32) 64
  sl : Nat
  dd : Nat
  deriving DecidableEq, Repr

/-- The FUR word in execution with its shadow (R246, R247): which word it is (0 other, 1 FTBL, 2 import, 3 FCLOSE with
the descriptor that it writes when it completes), the furrows, tables
and marks as they stood at issue, the ABUF bytes it may write (first byte and number), and its completion update. -/
structure FCmd where
  due : Nat
  kind : Nat
  ins : Option Instr
  hdr : Header
  hfmt : Nat
  cls : Nat
  acq : Acq
  shFur : Vector Furrow 16
  shTab : Vector FTable 8
  shMark : Vector FMark 8
  spoil : List (Nat × Nat)
  desc : List Byte
  fe : Bool
  flag : FlagNo
  epoch : Nat
  ent : SEntry
  ctx : CtxId
  deriving DecidableEq, Repr

/-- The part of a core that one context holds by CGRANT (R336). -/
structure Grant where
  v : Bool
  part : Nat
  eng : Nat
  abank : Nat
  cbank : Nat
  qmask : Nat
  wmask : Nat
  fmask : Nat
  deriving DecidableEq, Repr

/-- A core (R11). `bad` lists the typed-buffer lines (buffer, line) that hold an
uncorrected error (R14). `freed` counts the slots of each queue that return at the end of this cycle (R43). -/
structure Core where
  ctxs : Vector Ctx 4
  grants : Vector Grant 4
  rr : Nat
  ctlBusy : Nat
  abuf : Lines
  cbuf : Lines
  wbuf : Lines
  afmt : Vector Nat 16
  cfmt : Vector Nat 16
  wfmt : Vector Nat 16
  flags : Vector FlagVal 64
  setters : Vector (Nat × Nat) 64
  upds : List FlagUpd
  queues : Vector (List Slot) 8
  freed : Vector Nat 8
  nextSlot : Nat
  v : Vector VReg 56
  k : Vector Mask 16
  vpend : List VPend
  vacc : Vector Nat 8
  walkers : Vector Walker 4
  mtx : List MCmd
  mtxEnd : Nat
  chans : Vector Channel 4
  owedRes : List OwedRes
  sae : List ACmd
  furs : Vector Furrow 16
  tabs : Vector FTable 8
  marks : Vector FMark 8
  fcmd : Option FCmd
  tlb : List TlbEntry
  stlb : Vector (List TlbEntry) 6
  dcache : List Nat
  bad : List (Nat × Nat)
  keyFaults : List (CtxId × Vector Word 4)
  deriving DecidableEq, Repr

/-! ### Base-die units -/

/-- A task's state (R309). -/
inductive TPhase where
  | pending | ready | running | draining | done | failed
  deriving DecidableEq, Repr

/-- A submitted task or group (R306 to R316). -/
structure Task where
  part : Nat
  num : Nat
  phase : TPhase
  level : Nat
  since : Nat
  order : Nat
  text : Nat
  entry : Nat
  launch : Word
  nextDesc : Word
  prio : Nat
  need : Nat
  waits : Nat
  att : Nat
  count : Nat
  nops : Nat
  gdie : Nat
  gmask : Nat
  fut : Word
  ops : List (Nat × Nat)
  addr : Word
  requeues : Nat
  members : Nat
  drained : Nat
  issuer : Nat
  desc : List Byte
  deriving DecidableEq, Repr

/-- A future (R304, R305); `waiters` in attach order. -/
structure Future where
  part : Nat
  num : Nat
  state : Nat
  value : Word
  waiters : List Nat
  deriving DecidableEq, Repr

/-- Dispatcher registers and working state of a partition (R311, R313, R317). -/
structure DispPart where
  pool : Nat
  futmax : Nat
  quantum : Nat
  deficit : Vector Nat 4
  lastCore : Nat
  nextTask : Nat
  reports : List Word
  lost : Bool
  deriving DecidableEq, Repr

/-- The graph dispatcher (R306 to R318). -/
structure Disp where
  tasks : List Task
  futs : List Future
  parts : Vector DispPart 16
  lastServed : Vector Nat 4
  age : Nat
  nextOrder : Nat
  select : Bool
  deriving DecidableEq, Repr

/-- A connection-table entry and the transport state of the connection (R323, R324): its replay window with the operation that each
packet belongs to, the packets that wait in the receive queue, and its timers. -/
structure Conn where
  v : Bool
  pres : Bool
  rpl : Bool
  fail : Bool
  part : Nat
  port : Nat
  core : Nat
  ctx : Nat
  pconn : Nat
  pudp : Nat
  paddr : Nat
  win : Word
  wlen : Nat
  bo : Nat
  rto : Nat
  rmax : Nat
  txseq : Nat
  rxseq : Nat
  window : List (Nat × Packet)
  recvq : List Packet
  nacks : Nat
  rounds : Nat
  unacked : Nat
  ackDue : Option Nat
  backoff : Option (Nat × Nat)
  late : Bool
  rtoDue : Option Nat
  txops : Nat
  rxops : Nat
  deriving DecidableEq, Repr

/-- A collective operation (R319, R325 to R327): its descriptor, the context and task that started it, the watched word if one did,
the acquire that governs its reads, the tag of the first write after it began (R327), and its place in the schedule of R326: finished sends and receives, and bytes of the present ones. -/
structure ColOp where
  part : Nat
  idx : Nat
  op : Nat
  fmt : Nat
  count : Nat
  bucket : Word
  fe : Bool
  flag : FlagNo
  size : Nat
  rank : Nat
  prev : Nat
  nxt : Nat
  core : CoreId
  ctx : CtxId
  task : Option Nat
  watch : Option Nat
  state : Nat
  err : Nat
  done : Nat
  acq : Acq
  since : Nat
  sendPos : Nat
  sendOff : Nat
  recvPos : Nat
  recvOff : Nat
  txop : Nat
  rxop : Nat
  deriving DecidableEq, Repr

/-- The collective engine, the ports and the time unit (R322 to R334). `stamps` are the time unit's timestamps of event messages: whether
the message was transmitted, its port, and GTIME. -/
structure Col where
  conns : List (Nat × Conn)
  ops : List ColOp
  nextIdx : Vector Nat 16
  brbase : Nat
  brsize : Nat
  brhead : Nat
  brtail : Nat
  carbd : Nat
  carbp : Nat
  gtimeBase : Nat
  gstart : Nat
  ggrace : Nat
  gpart : Nat
  gabort : Bool
  glate : Bool
  gready : Bool
  gangDone : Bool
  dport : Nat
  mport : Nat
  dropped : Vector Nat 2
  linkUp : Vector Bool 2
  linkFull : Vector Bool 2
  out : List (Nat × FrameBody)
  stamps : List (Bool × Nat × Nat)
  mgmt : List (List Byte)
  tlb : List TlbEntry
  deriving DecidableEq, Repr

/-- One granularity rule of a policy (R349). -/
structure Rule where
  src : Nat
  rcpt : Nat
  gran : Nat
  wexp : Nat
  event : Nat
  deriving DecidableEq, Repr

/-- An observation ring of the hypervisor or the operator (R358). -/
structure Ring where
  base : Nat
  en : Bool
  lsz : Nat
  tail : Nat
  head : Nat
  drop : Nat
  deriving DecidableEq, Repr

/-- A sum of the current window (R359, R361): recipient, class (5 WAIT, 3 TRACE), the context it belongs to (4·core +
context; 512 for a whole partition), the flag, and three totals: count and CYC of a flag's waits, or the numbers of KIND 3,
4 and 5 events. -/
structure WSum where
  rcpt : Nat
  cls : Nat
  ctx : Nat
  flag : Nat
  a : Nat
  b : Nat
  c : Nat
  deriving DecidableEq, Repr

/-- A partition's registers of the management block, its policy and its window sums (R335 to R364). -/
structure Part where
  state : Nat
  key : Nat
  hcore : CoreId
  hctx : CtxId
  log : Bool
  budget : Nat
  floor : Nat
  spent : Nat
  tvec1 : Word
  tvec2 : Word
  logbase : Nat
  logsize : Nat
  loghead : Nat
  lastCkpt : Option Nat
  ckptNum : Nat
  replay : Option Nat
  replayHalt : Bool
  policy : Option (List Rule)
  digest : List Byte
  hring : Ring
  oring : Ring
  ppwr : Nat
  pwrWin : Vector Nat 3
  sums : List WSum
  deriving DecidableEq, Repr

/-- A host DMA channel held by a copy command or a host-queue command (R340). -/
structure DmaHold where
  part : Nat
  prio : Nat
  since : Nat
  core : Option (CoreId × ChNo)
  host : Option Nat
  deriving DecidableEq, Repr

/-- A host-queue command in progress (R340, R367). -/
structure HostRun where
  q : Nat
  cmd : HostCmd
  done : Nat
  due : Nat
  dma : Option (Fin 16)
  suspended : Bool
  num : Nat
  deriving DecidableEq, Repr

/-- The management unit (R335 to R347). -/
structure Mgmt where
  parts : Vector Part 16
  pcmd : Word
  busy : Bool
  gerr : Bool
  err : Nat
  causeCode : Nat
  detail : Nat
  running : Nat
  fence : Option Nat
  fenceArg : Nat
  slice : Nat
  sliceAt : Nat
  rtmo : Nat
  deriving DecidableEq, Repr

/-- A breakpoint (R362). -/
structure Bkpt where
  name : Word
  en : Bool
  hit : Bool
  part : Nat
  task : Nat
  deriving DecidableEq, Repr

/-- A die's counter (R355). -/
structure DieCnt where
  sel : Nat
  cnt : Nat
  win : Vector Nat 3
  deriving DecidableEq, Repr

/-- Observation state of the package (R355 to R364). -/
structure Obs where
  dcnt : Vector (Vector DieCnt 16) 8
  sampEn : Bool
  sampPart : Nat
  sampPer : Nat
  sampAt : Nat
  windowAt : Nat
  bkpt : Vector Bkpt 16
  deriving DecidableEq, Repr

/-- A host DMA queue's register (R367). -/
structure HQ where
  v : Bool
  part : Nat
  lerr : Bool
  pasid : Nat
  pend : Option Word
  deriving DecidableEq, Repr

/-- Host interface, boot and power (R365 to R371). -/
structure HostIf where
  hq : Vector HQ 64
  dma : Vector (Option DmaHold) 16
  runs : List HostRun
  nextRun : Nat
  msix : List (Nat × Nat)
  fwver : Nat
  booterr : Nat
  bootsrc : Bool
  stage : Nat
  bootwinBase : Nat
  bootwinBusy : Bool
  bootwinV : Bool
  bootlen : Nat
  fwdig : List Byte
  nonce : List Byte
  areqGo : Bool
  areqDone : Bool
  areqPart : Nat
  arep : List Byte
  tthr : Nat
  thr : Bool
  flash : List Byte
  halted0 : Bool
  power : Nat
  deriving DecidableEq, Repr

/-- What the outside does to the machine (INVENTORY, Host interface), with the cycle from which the step may take it. -/
inductive Input where
  | ev (i : Instr)
  | hostWrite (dev : Bool) (addr : Nat) (bytes : List Byte)
  | loaderSubmit (p : PartId) (core : CoreId) (ctx : CtxId) (desc : Word)
  | loaderRoots (core : CoreId) (ctx : CtxId) (htbase : Nat) (s1root s2root : Word)
  | loaderFuture (p : PartId)
  | notify (core : CoreId) (ctx : CtxId)
  | gtime (ns : Nat)
  | ptpSend (port : Fin 2) (event : Bool) (time : Nat)
  | fix (line : Nat)
  | corrected (die : Fin 8) (core : CoreId) (ctx : CtxId)
  deriving DecidableEq, Repr

/-- What a context image carries in the places whose inner layout the spec does not give (R275; assumption log 11): the held cut with
its loops and open fences, owed walker, copy and FUR words with their footprints and the epoch they count in, pending asynchronous traps, and
the counts of the last window boundary and of dropped records. The image holds its number. -/
structure Saved where
  cut : Option Cut
  walks : Vector (List WCmd) 4
  chans : Vector (List CCmd) 4
  accesses : List Access4
  epoch : Nat
  pending : List TrapRec
  owedFur : Option SEntry
  cntWin : Vector (Vector Nat 3) 8
  obsDrop : Nat
  deriving DecidableEq, Repr

/-- What a dispatcher image carries (R344) in the places whose inner layout the spec does not give (assumption log 15); the image holds
its number. -/
structure Ckpt where
  part : Nat
  num : Nat
  next : Nat
  tasks : List Task
  futs : List Future
  deficit : Vector Nat 4
  lastCore : Nat
  cycle : Nat
  deriving DecidableEq, Repr

/-- The whole package. The last five fields are the model's own (assumption log 4, 5): the slot of the poll, the agent whose
word runs, the counter of free values, the outside inputs still to come, and the cycle that is being run. So is `stamps`: for each place of
a furrow's directory the table that the entry pushed there last was coded with, by which a pop knows whether the slot holds another (R243). -/
structure State where
  cores : Vector Core 128
  mem : Mem
  keys : List (Nat × Nat)
  hostMem : Mem
  hist : List HistEntry
  bad : List Nat
  disp : Disp
  col : Col
  mg : Mgmt
  obs : Obs
  host : HostIf
  saved : List Saved
  stamps : List (Nat × FTable)
  ckpts : List Ckpt
  cycle : Nat
  turn : Nat
  cur : Agent
  fresh : Nat
  inputs : List (Nat × Input)
  deriving DecidableEq, Repr

/-! ### Reset -/

/-- The walk of a context that holds no text. -/
def Walk.reset : Walk :=
  { pc := 0, idx := 0, loops := [], stage := 0, seqs := Vector.replicate 7 0, skip := Vector.replicate 7 0, owed := [], halted := true, rdv := false }

def Cursor.reset : Cursor := { next := 0, lastIssue := 0, member := false, stopped := false, notBefore := 0 }

/-- A trap bank at its reset values (R267). -/
def Bank.reset : Bank :=
  { pc := 0, vec := 0, scr := 0, valid := false, ovf := false, tsel := 0, didx := 0, pl := 0, skip := false, traps := [],
    cut := none }

/-- An EMPTY context (R271) with its CSRs at their reset columns (R42, R93, R136, R146, R199, R214, R226, R281, R286, R330,
R358). -/
def Ctx.reset : Ctx :=
  { phase := .empty, pl := 0, s := Vector.replicate 32 0, h := Vector.replicate 32 0, n := Vector.replicate 4 0,
    text := 0, walk := Walk.reset, stream := [], cursors := Vector.replicate 7 Cursor.reset, fork := none, slip := 256,
    epoch := 0, evt := false, slipwin := 256, vstat := 0, vrkey := 0, vrctr := 0, mstat := 0, cstat := 0, sstat := 0,
    saecfg := 7, clstat := 0, clidx := 0, obsring := 0, obsEn := false, obsLsz := 12, obsTail := 0, obsHead := 0, obsDrop := 0,
    wfeto := false, released := false, htbase := 0, s1root := 0, s2root := 0, cntsel := Vector.replicate 8 0, cnt := Vector.replicate 8 0,
    cntCode := Vector.replicate 8 false, cntWin := Vector.replicate 8 (Vector.replicate 3 0), dispatchAt := 0, bank := Vector.replicate 3 Bank.reset,
    held := 0, pending := [], stop := none, bracket := none, deferred := [], bracketWait := none, preempting := [], loads := [],
    stores := [], replies := [], busy := [], loadAt := 0, fences := [], acqs := [], accesses := [], handles := [],
    tlbiUntil := 0, tlbiWait := none, tlbiKind := .handles, wfeFrom := none, waitFrom := none, owedFur := none, task := none, member := 0, draining := false, prio := 0, watches := [],
    pendWatch := [] }

def Walker.reset : Walker := { conf := false, hdr := 0, store := false, pos := 0, cmds := [] }
def Channel.reset : Channel := { wp := 0, cmds := [], track := none }
def Furrow.reset : Furrow :=
  { opened := false, lc := 1, x := Vector.replicate 64 0, base := 0, top := [], dbase := 0, dtop := [], region := 0, size := 0,
    child := false, parent := 0, empty := false, full := false, since := 0, loose := false }
def FTable.reset : FTable := { n := 0, f := Vector.replicate 256 0, valid := false }
def FMark.reset : FMark := { valid := false, fn := 0, lc := 1, x := Vector.replicate 64 0, sl := 0, dd := 0 }
def Grant.reset : Grant := { v := false, part := 0, eng := 0, abank := 0, cbank := 0, qmask := 0, wmask := 0, fmask := 0 }

/-- A core with nothing granted and every context EMPTY. -/
def Core.reset : Core :=
  { ctxs := Vector.replicate 4 Ctx.reset, grants := Vector.replicate 4 Grant.reset, rr := 0, ctlBusy := 0, abuf := [], cbuf := [],
    wbuf := [], afmt := Vector.replicate 16 0, cfmt := Vector.replicate 16 0, wfmt := Vector.replicate 16 0,
    flags := Vector.replicate 64 0, setters := Vector.replicate 64 (15, 0), upds := [], queues := Vector.replicate 8 [], freed := Vector.replicate 8 0,
    nextSlot := 0, v := Vector.replicate 56 0, k := Vector.replicate 16 0, vpend := [], vacc := Vector.replicate 8 0,
    walkers := Vector.replicate 4 Walker.reset, mtx := [], mtxEnd := 0, chans := Vector.replicate 4 Channel.reset, owedRes := [], sae := [],
    furs := Vector.replicate 16 Furrow.reset, tabs := Vector.replicate 8 FTable.reset, marks := Vector.replicate 8 FMark.reset,
    fcmd := none, tlb := [], stlb := Vector.replicate 6 [], dcache := [], bad := [], keyFaults := [] }

def DispPart.reset : DispPart :=
  { pool := 1024, futmax := 4096, quantum := 8, deficit := Vector.replicate 4 0, lastCore := 127, nextTask := 1, reports := [],
    lost := false }

def Disp.reset : Disp :=
  { tasks := [], futs := [], parts := Vector.replicate 16 DispPart.reset, lastServed := Vector.replicate 4 15, age := 20,
    nextOrder := 0, select := false }

/-- CARBD's reset: WHST 2, WSAE 2, WCOL 4, WMC 8; CARBP's: WMGT 1, WCOL 15 (R333); DPORT 0xD4A0 (R322). -/
def Col.reset : Col :=
  { conns := [], ops := [], nextIdx := Vector.replicate 16 1, brbase := 0, brsize := 0, brhead := 0, brtail := 0,
    carbd := 0x2248, carbp := 0x1F, gtimeBase := 0, gstart := 0, ggrace := 0, gpart := 0, gabort := false, glate := false,
    gready := false, gangDone := true, dport := 0xD4A0, mport := 0, dropped := Vector.replicate 2 0,
    linkUp := Vector.replicate 2 false, linkFull := Vector.replicate 2 true, out := [], stamps := [], mgmt := [], tlb := [] }

/-- A connection entry at its reset columns (R323). -/
def Conn.reset : Conn :=
  { v := false, pres := false, rpl := false, fail := false, part := 0, port := 0, core := 0, ctx := 0, pconn := 0, pudp := 0,
    paddr := 0, win := 0, wlen := 0, bo := 850, rto := 20, rmax := 8, txseq := 0, rxseq := 0, window := [], recvq := [],
    nacks := 0, rounds := 0, unacked := 0, ackDue := none, backoff := none, late := false, rtoDue := none, txops := 0, rxops := 0 }

def Ring.reset : Ring := { base := 0, en := false, lsz := 12, tail := 0, head := 0, drop := 0 }

def Part.reset : Part :=
  { state := 0, key := 0, hcore := 0, hctx := 0, log := false, budget := 0, floor := 0, spent := 0, tvec1 := 0, tvec2 := 0,
    logbase := 0, logsize := 0, loghead := 0, lastCkpt := none, ckptNum := 0, replay := none, replayHalt := false,
    policy := none, digest := [], hring := Ring.reset, oring := Ring.reset, ppwr := 0, pwrWin := Vector.replicate 3 0, sums := [] }

/-- SLICE 850,000 and RTMO 85,000 cycles (R339, R343). -/
def Mgmt.reset : Mgmt :=
  { parts := Vector.replicate 16 Part.reset, pcmd := 0, busy := false, gerr := false, err := 0, causeCode := 0, detail := 0,
    running := 0, fence := none, fenceArg := 0, slice := 850000, sliceAt := 0, rtmo := 85000 }

def Obs.reset : Obs :=
  { dcnt := Vector.replicate 8 (Vector.replicate 16 { sel := 0, cnt := 0, win := Vector.replicate 3 0 }), sampEn := false, sampPart := 0,
    sampPer := 0, sampAt := 0, windowAt := 0,
    bkpt := Vector.replicate 16 { name := 0, en := false, hit := false, part := 0, task := 0 } }

/-- TTHR 100 °C; the thresholds and BOOTST of R366, R369, R371. -/
def HostIf.reset : HostIf :=
  { hq := Vector.replicate 64 { v := false, part := 0, lerr := false, pasid := 0, pend := none },
    dma := Vector.replicate 16 none, runs := [], nextRun := 0, msix := [], fwver := 0, booterr := 0, bootsrc := false, stage := 0,
    bootwinBase := 0, bootwinBusy := false, bootwinV := false, bootlen := 0, fwdig := [], nonce := List.replicate 32 0,
    areqGo := false, areqDone := false, areqPart := 0, arep := [], tthr := 100, thr := false, flash := [],
    halted0 := false, power := 0 }

/-- Context 0 of core 0 right after power-on: it runs the boot ROM at PL 3, which the model runs as the event
`powerOnReset` (R369; assumption log 3). -/
def Ctx.boot : Ctx := { Ctx.reset with phase := .running, pl := 3 }

/-- The package right after reset (R369): every context EMPTY but context 0 of core 0, memory with nothing listed, and the
power-on event as the first input. -/
def State.reset : State :=
  { cores := (Vector.replicate 128 Core.reset).set 0 { Core.reset with ctxs := Core.reset.ctxs.set 0 Ctx.boot },
    mem := [], keys := [], hostMem := [], hist := [], bad := [], disp := Disp.reset, col := Col.reset, mg := Mgmt.reset,
    obs := Obs.reset, host := HostIf.reset, saved := [], stamps := [], ckpts := [], cycle := 0, turn := 0, cur := { core := 0, ctx := 0, tag := .ctl }, fresh := 0,
    inputs := [(0, .ev .powerOnReset)] }

end Sys2Proof.Machine
end

