-- ==== Sys2Proof/Machine/Access.lean ====
section
/-! DEFINITION. Sys2Proof/Machine/Access.lean: reading and writing the parts of `State`: cores, contexts, registers, flags,
queues, grants, counters, free values, and a context's stream of fetched words. -/

namespace Sys2Proof.Machine

/-- Element `i` of a vector, `d` past its end. -/
def vget {α : Type} {n : Nat} (v : Vector α n) (i : Nat) (d : α) : α := (v[i]?).getD d

/-- A vector with element `i` changed by `f`; unchanged past its end. -/
def vmod {α : Type} {n : Nat} (v : Vector α n) (i : Nat) (f : α → α) : Vector α n :=
  if h : i < n then v.set i (f v[i]) else v

/-! ### Cores and contexts -/

/-- Core `c`. -/
def State.core (s : State) (c : CoreId) : Core := s.cores[c]

/-- The state with core `c` changed. -/
def State.modCore (s : State) (c : CoreId) (f : Core → Core) : State := { s with cores := s.cores.set c (f (s.core c)) }

/-- Context `x` of a core. -/
def Core.ctx (k : Core) (x : CtxId) : Ctx := k.ctxs[x]

/-- A core with context `x` changed. -/
def Core.modCtx (k : Core) (x : CtxId) (f : Ctx → Ctx) : Core := { k with ctxs := k.ctxs.set x (f (k.ctx x)) }

/-- Context `x` of core `c`. -/
def State.ctx (s : State) (c : CoreId) (x : CtxId) : Ctx := (s.core c).ctx x

/-- The state with context `x` of core `c` changed. -/
def State.modCtx (s : State) (c : CoreId) (x : CtxId) (f : Ctx → Ctx) : State := s.modCore c fun k => k.modCtx x f

/-- The core of the agent whose word runs. -/
def State.myCore (s : State) : Core := s.core s.cur.core

/-- The context of the agent whose word runs. -/
def State.me (s : State) : Ctx := s.ctx s.cur.core s.cur.ctx

/-- The state with the running agent's core changed. -/
def State.modMyCore (s : State) (f : Core → Core) : State := s.modCore s.cur.core f

/-- The state with the running agent's context changed. -/
def State.modMe (s : State) (f : Ctx → Ctx) : State := s.modCtx s.cur.core s.cur.ctx f

/-! ### Scalar and header registers -/

/-- A scalar register; s0 reads zero (R60). -/
def Ctx.rdS (x : Ctx) (r : SReg) : Word := if r.val = 0 then 0 else x.s[r]

/-- A scalar register written; a write to s0 is discarded (R60). -/
def Ctx.wrS (x : Ctx) (r : SReg) (v : Word) : Ctx := if r.val = 0 then x else { x with s := x.s.set r v }

/-- Scalar register of the running context. -/
def State.rdS (s : State) (r : SReg) : Word := s.me.rdS r

/-- Scalar register of the running context written. -/
def State.wrS (s : State) (r : SReg) (v : Word) : State := s.modMe fun x => x.wrS r v

/-- Scalar register of the running context written by a word whose result can be read `n` cycles after its issue (R80). -/
def State.wrLate (s : State) (r : SReg) (v : Word) (n : Nat) : State :=
  s.modMe fun x => { x.wrS r v with busy := x.busy ++ [(r.val, s.cycle + n)] }

/-- Header register of the running context. -/
def State.rdH (s : State) (r : HReg) : Header := s.me.h[r]

/-- Header register of the running context written. -/
def State.wrH (s : State) (r : HReg) (v : Header) : State := s.modMe fun x => { x with h := x.h.set r v }

/-! ### Free values -/

/-- The state with the counter of free values advanced by `n`. -/
def State.skipFresh (s : State) (n : Nat) : State := { s with fresh := s.fresh + n }

/-- A free value of `w` bits (R2): the opaque constant applied to the counter. -/
def State.freeVal (s : State) (w : Nat) : BitVec w := Config.free w s.fresh

/-- A latency the spec does not state, at least `lo` cycles. -/
def State.freeDelay (s : State) (lo : Nat) : Nat := lo + Config.delay s.fresh

/-! ### Grants (R55, R336) -/

/-- The grant of a context. -/
def State.grant (s : State) (c : CoreId) (x : CtxId) : Grant := (s.core c).grants[x]

/-- The grant of the running context. -/
def State.myGrant (s : State) : Grant := s.grant s.cur.core s.cur.ctx

/-- The partition of a context, 0 where none is granted (R93). -/
def State.partOf (s : State) (c : CoreId) (x : CtxId) : Nat := (s.grant c x).part

/-- The partition of the running context. -/
def State.myPart (s : State) : Nat := s.myGrant.part

/-- Engine bit of a tag in ENG and NEED: VEC 0 … FUR 5 (R336, R306). -/
def engBit : Tag → Nat
  | .ctl => 6 | .vec => 0 | .mtx => 1 | .aw => 2 | .cpy => 3 | .sae => 4 | .fur => 5

/-- The engine tags in ascending TAG order. -/
def engTags : List Tag := [.vec, .mtx, .aw, .cpy, .sae, .fur]

/-- Every cursor's tag in ascending order. -/
def allTags : List Tag := [.ctl, .vec, .mtx, .aw, .cpy, .sae, .fur]

def Grant.hasEng (g : Grant) (t : Tag) : Bool := t = .ctl || (g.v && g.eng.testBit (engBit t))
def Grant.hasFlag (g : Grant) (f : Nat) : Bool := g.v && g.fmask.testBit (f / 8)
def Grant.hasQueue (g : Grant) (q : Nat) : Bool := g.v && g.qmask.testBit q
def Grant.hasWalker (g : Grant) (w : Nat) : Bool := g.v && g.wmask.testBit w
def Grant.hasABank (g : Grant) (b : Nat) : Bool := g.v && g.abank.testBit b
def Grant.hasCBank (g : Grant) (b : Nat) : Bool := g.v && g.cbank.testBit b

/-- The context of a core that holds engine `t`, if one does (R55). -/
def State.engCtx (s : State) (c : CoreId) (t : Tag) : Option CtxId :=
  (List.finRange 4).find? fun x => (s.grant c x).hasEng t && t ≠ .ctl

/-- The context of a core whose grant holds flag `f` (R55). -/
def State.flagCtx (s : State) (c : CoreId) (f : Nat) : Option CtxId :=
  (List.finRange 4).find? fun x => (s.grant c x).hasFlag f

/-! ### Flags (R97, R99) -/

/-- The value of a flag of the running core, as it stands at the start of the cycle. -/
def State.flag (s : State) (f : FlagNo) : FlagVal := s.myCore.flags[f]

/-- A flag update of this cycle, kept until the cycle ends (R99). -/
def State.pushFlag (s : State) (c : CoreId) (u : FlagUpd) : State := s.modCore c fun k => { k with upds := k.upds ++ [u] }

/-- The completion update of an engine's word: FLAG ← 1, as an update of that TAG (R99). -/
def State.complFlag (s : State) (c : CoreId) (x : CtxId) (tag : Nat) (fe : Bool) (f : FlagNo) : State :=
  if fe then s.pushFlag c { at_ := s.cycle, key := tag, flag := f, add := false, val := 1, setter := tag, score := 0, ctx := x } else s

/-- A flag's value after one update (R97). -/
def FlagUpd.apply (u : FlagUpd) (v : FlagVal) : FlagVal := if u.add then v + u.val else u.val

/-- One update applied to the core: the flag, its last setter, and CTXSTAT.EVT of the context that holds the flag (R106). -/
def Core.applyUpd (k : Core) (u : FlagUpd) : Core :=
  { k with
    flags := k.flags.set u.flag (u.apply k.flags[u.flag])
    setters := k.setters.set u.flag (u.setter, u.score)
    ctxs := k.ctxs.set u.ctx { k.ctx u.ctx with evt := true } }

/-- R99: the updates made in cycle `now` in sequence, first the core's own engines in ascending TAG order, then arrivals in
order. -/
def Core.applyUpds (k : Core) (now : Nat) : Core :=
  let due := k.upds.filter fun u => u.at_ ≤ now
  let own := (List.range 7).flatMap fun t => due.filter fun u => u.key = t
  let out := due.filter fun u => u.key ≥ 7
  { (own ++ out).foldl Core.applyUpd k with upds := k.upds.filter fun u => u.at_ > now }

/-! ### Queues (R43) -/

/-- Slots of a queue, oldest first. -/
def Core.queue (k : Core) (q : QNo) : List Slot := k.queues[q]

/-- The oldest entry of a queue, if it is complete. -/
def Core.qHead (k : Core) (q : QNo) : Option VReg := (k.queue q).head?.bind (·.val)

/-- A queue with its oldest slot popped: the slot returns at the end of the cycle (R43). -/
def Core.qPop (k : Core) (q : QNo) : Core :=
  { k with queues := k.queues.set q (k.queue q).tail, freed := k.freed.set q (k.freed[q] + 1) }

/-- The next slot of a queue reserved: the slot's number and the core. -/
def Core.qReserve (k : Core) (q : QNo) : Nat × Core :=
  (k.nextSlot, { k with nextSlot := k.nextSlot + 1, queues := k.queues.set q (k.queue q ++ [{ id := k.nextSlot, val := none }]) })

/-- A reserved slot filled (R43). -/
def Core.qFill (k : Core) (q : QNo) (id : Nat) (v : VReg) : Core :=
  { k with queues := k.queues.set q ((k.queue q).map fun e => if e.id = id then { e with val := some v } else e) }

/-- A slot is free (R40, R43): fewer than 16 are reserved; `popped` slots of the word itself count as free. -/
def Core.qRoom (k : Core) (q : QNo) (popped : Nat) : Bool := (k.queue q).length + k.freed[q] < 16 + popped

/-! ### Counters (R320, R354) -/

/-- Counts saturate at 0xFFFF_FFFF_FFFF_FFEF (R352). -/
def satCount (v : Nat) : Nat := Nat.min v 0xFFFFFFFFFFFFFFEF

/-- The counters of a context that count event `e`, advanced by `n` (R320, R354). -/
def Ctx.count (x : Ctx) (e n : Nat) : Ctx :=
  if n = 0 then x
  else { x with cnt := Vector.ofFn fun i : Fin 8 =>
           if (x.cntsel[i]).testBit 8 && x.cntsel[i] % 256 = e && !x.cntCode[i] then satCount (x.cnt[i] + n) else x.cnt[i] }

/-- Event `e` of context `x` of core `c` counted `n` times. -/
def State.count (s : State) (c : CoreId) (x : CtxId) (e n : Nat) : State := if n = 0 then s else s.modCtx c x fun k => k.count e n

/-! ### The stream of fetched words (R32, R40) -/

/-- The cursor of a tag. -/
def Ctx.cursor (x : Ctx) (t : Tag) : Cursor := x.cursors.get (Fin.ofNat 7 (tagNum t))

/-- A context with the cursor of a tag changed. -/
def Ctx.modCursor (x : Ctx) (t : Tag) (f : Cursor → Cursor) : Ctx :=
  { x with cursors := x.cursors.set (Fin.ofNat 7 (tagNum t)) (f (x.cursor t)) }

/-- The words in a cursor's engine queue: fetched, of its tag, not issued. A word whose stage predicate is off leaves the queue
in order, so the oldest one is a word that will issue (R32, R40). -/
def Ctx.waiting (x : Ctx) (t : Tag) : List SEntry :=
  (x.stream.filter fun e => e.own = some t && e.idx < (x.cursor t).next && !e.issued).dropWhile fun e => !e.on

/-- The word at the head of a cursor's engine queue (R40). -/
def Ctx.head (x : Ctx) (t : Tag) : Option SEntry := (x.waiting t).head?

/-- The head word of the running agent. -/
def State.headWord (s : State) : Option SEntry := s.me.head s.cur.tag

/-- Byte offset of the running word; without a fetched word, where the walk stands (R59). -/
def State.curPc (s : State) : Nat := match s.headWord with | some e => e.pc | none => s.me.walk.pc

/-- Dynamic text index of the running word (R41). -/
def State.curIdx (s : State) : Nat := match s.headWord with | some e => e.idx | none => s.me.walk.idx

/-- Sequence number of the running word (R32). -/
def State.curSeq (s : State) : Nat :=
  match s.headWord with | some e => e.seq | none => s.me.walk.seqs.get (Fin.ofNat 7 (tagNum s.cur.tag))

/-- The bits of the running word. -/
def State.curWord (s : State) : Word := match s.headWord with | some e => e.word | none => 0

/-- Every entry of the stream from `i` on is kept; words that every running cursor has passed and issued are dropped. -/
def Ctx.prune (x : Ctx) : Ctx :=
  let low := allTags.foldl (fun m t =>
    let c := x.cursor t
    if c.member then Nat.min m (Nat.min c.next (((x.waiting t).head?.map (·.idx)).getD c.next)) else m) x.walk.idx
  { x with stream := x.stream.dropWhile fun e => e.idx < low }

/-- The head word of a cursor issues (R40): it leaves the queue with the words switched off before it, and last_issue is the
cycle. -/
def Ctx.issue (x : Ctx) (t : Tag) (cycle : Nat) : Ctx :=
  let i := match x.head t with | some e => e.idx + 1 | none => 0
  let x1 := { x with stream := x.stream.map fun (e : SEntry) => if e.own = some t && e.idx < i then { e with issued := true } else e }
  ({ x1 with owedFur := if t = Tag.fur then none else x1.owedFur }.modCursor t fun c => { c with lastIssue := cycle }).prune

/-- The running word issues: what every word's meaning does first. CTL and VEC issues are counted (R354), and the control
core issues one word a cycle (R54). -/
def State.issued (s : State) : State :=
  let s1 := s.modMe fun x =>
    let x1 := x.issue s.cur.tag s.cycle
    if s.cur.tag = .ctl then x1.count 0x02 1 else if s.cur.tag = .vec then x1.count 0x03 1 else x1
  if s.cur.tag = .ctl then s1.modMyCore fun k => { k with ctlBusy := s.cycle + 1, rr := s.cur.ctx.val } else s1

/-- The control flow moves: the walk goes on at byte offset `pc` (R59, R90). -/
def State.jumpTo (s : State) (pc : Nat) : State :=
  s.modMe fun x => { x with walk := { x.walk with pc := pc, halted := false } }

/-- The partition's registers of the management block. -/
def State.part (s : State) (p : Nat) : Part := vget s.mg.parts p Part.reset

/-- The state with a partition's registers changed. -/
def State.modPart (s : State) (p : Nat) (f : Part → Part) : State := { s with mg := { s.mg with parts := vmod s.mg.parts p f } }

/-- GTIME in nanoseconds (R334): 850 cycles of the clock are 1 µs (R5), counted from where software set the time. -/
def State.gtime (s : State) : Nat := (s.col.gtimeBase + s.cycle * 20 / 17) % 2 ^ 64

/-- Software disciplines the time unit (R334): GTIME is `ns` now. The window boundaries after a time set back come again (R352). -/
def State.setGtime (s : State) (ns : Nat) : State :=
  { s with
    col := { s.col with gtimeBase := (ns + 2 ^ 64 - s.cycle * 20 / 17 % 2 ^ 64) % 2 ^ 64 }
    obs := { s.obs with windowAt := Nat.min s.obs.windowAt (ns % 2 ^ 64 / 1000) } }

/-- The management interrupt of PF0 (R365): MSI-X vector 0 of function 0. -/
def State.mgmtIrq (s : State) : State := { s with host := { s.host with msix := s.host.msix ++ [(0, 0)] } }

/-- DRAM's die: the die that owns a device-physical address (R10). -/
def dieOf (pa : Nat) : Nat := pa / 0x800000000 % 8

/-- The die of a core (R11). -/
def coreDie (c : CoreId) : Nat := c.val / 16

end Sys2Proof.Machine
end

