-- ==== Sys2Proof/Machine/Memory.lean ====
section
/-! DEFINITION. Sys2Proof/Machine/Memory.lean: bytes of DRAM and host memory with their coherence order and what a read may
return (R290 to R298), line keys (R230), and the lines of the typed buffers (R176). -/

namespace Sys2Proof.Machine

/-! ### Sparse memories in canonical form -/

/-- What a sparse memory holds at `a`; an unlisted place reads 0 (assumption log 2). -/
def sget {w : Nat} : List (Nat × BitVec w) → Nat → BitVec w
  | [], _ => 0
  | (k, v) :: r, a => if a = k then v else sget r a

/-- An entry put in its place by address. -/
def sput {w : Nat} : List (Nat × BitVec w) → Nat → BitVec w → List (Nat × BitVec w)
  | [], a, v => [(a, v)]
  | (k, u) :: r, a, v => if a < k then (a, v) :: (k, u) :: r else (k, u) :: sput r a v

/-- The sparse memory with `v` at `a`, in canonical form: no entry for `a` is left behind, and none is put for 0. -/
def sset {w : Nat} (m : List (Nat × BitVec w)) (a : Nat) (v : BitVec w) : List (Nat × BitVec w) :=
  let r := m.filter fun q => q.1 ≠ a
  if v = 0 then r else sput r a v

/-- The canonical form: addresses strictly rising, every one at least `lo`, no entry 0. -/
def swf {w : Nat} : Nat → List (Nat × BitVec w) → Bool
  | _, [] => true
  | lo, (k, v) :: r => lo ≤ k && v ≠ 0 && swf (k + 1) r

/-- A byte memory is in canonical form. -/
def Mem.wf (m : Mem) : Bool := swf 0 m

/-- A typed buffer is in canonical form. -/
def Lines.wf (m : Lines) : Bool := swf 0 m

/-- Bytes written from address `a` upward. -/
def ssetBytes (m : Mem) : Nat → List Byte → Mem
  | _, [] => m
  | a, b :: bs => ssetBytes (sset m a b) (a + 1) bs

/-! ### Keys and errors of DRAM lines -/

/-- The key identifier in a line's metadata (R14, R230): 0 where none was set. -/
def State.lineKey (s : State) (pa : Nat) : Nat := ((s.keys.find? fun p => p.1 = pa / 64).map (·.2)).getD 0

/-- The key identifier of a line set (R230, R338); key 0 is not listed, so that equal metadata are equal lists. -/
def State.setKey (s : State) (pa key : Nat) : State :=
  let rest := s.keys.filter fun p => p.1 ≠ pa / 64
  let lo := rest.filter fun p => p.1 < pa / 64
  let hi := rest.filter fun p => p.1 > pa / 64
  { s with keys := if key = 0 then rest else lo ++ (pa / 64, key) :: hi }

/-- A line holds an uncorrected error (R14). -/
def State.lineBad (s : State) (pa : Nat) : Bool := s.bad.contains (pa / 64)

/-! ### Performance with respect to the parties (R290 to R295) -/

/-- A unit of no context of this package's cores (R290, R18): the host's own accesses and its DMA queues, the base die's engines, and a
remote package's atomics. -/
def UnitId.outside (u : UnitId) : Bool := (u.path = 5 && 16 ≤ u.chan && u.chan < 2 ^ 20) || (u.path = 4 && 2 ^ 32 ≤ u.chan && u.chan ≠ 2 ^ 34)

/-- A remote package's unit: a party of POD alone (R18, R301). -/
def UnitId.remote (u : UnitId) : Bool := u.path = 4 && 2 ^ 32 ≤ u.chan && u.chan < 2 ^ 33

/-- Where a unit's accesses stand (R18): at its core, or (128) among the parties of the base die, where the collective engine works too. -/
def UnitId.seat (u : UnitId) : Nat := if u.outside || u.path = 4 then 128 else u.core.val

/-- The host's own writes to device memory: they are posted, and performed in PCI Express order (R300). -/
def UnitId.posted (u : UnitId) : Bool := u.path = 5 && u.chan = 80

/-- When a write reaches seat `p` of itself: by a free delay, and no earlier than the host's writes before it (R300). -/
def HistEntry.lands (e : HistEntry) (p : Nat) : Nat :=
  e.ord.foldl (fun m w => Nat.max m (w.1 + Config.delay (w.2 + p))) (e.at_ + Config.delay (e.tag + p))

/-- The cycle at which a write is performed with respect to seat `p`: at once at the writer's own core, later elsewhere by a
free delay, and at once for every core once R295 applies. What path 5 writes is performed late everywhere. -/
def HistEntry.arr (e : HistEntry) (p : Nat) : Nat :=
  if e.unit.seat = p && p < 128 && e.unit.path ≠ 5 then e.at_
  else match e.allAt with
    | some t => if p < 128 then Nat.min t (e.lands p) else e.lands p
    | none => e.lands p

/-- Core `o` is a core of scope `sc` of core `c` (R18). -/
def inScope (sc : Scope) (c o : CoreId) : Bool :=
  if sc.val = 0 then o = c else if sc.val = 1 then coreDie o = coreDie c else true

/-- The context or engine that made a write is a party of scope `sc` of core `c` (R18, R294). -/
def UnitId.partyOf (u : UnitId) (sc : Scope) (c : CoreId) : Bool :=
  if u.remote then sc.val = 3 else if u.outside then sc.val ≥ 2 else inScope sc c u.core

/-- Two alias classes exempt a pair (R298): both nonzero and different. -/
def clsApart (a b : Nat) : Bool := a ≠ 0 && b ≠ 0 && a ≠ b

/-- The acquire at PKG that a base-die unit makes now (R300). -/
def State.acqNow (s : State) : Acq := { at_ := s.cycle + 1, scope := 2, floors := Vector.replicate 64 0 }

/-- The acquire of a context's dispatch, or the one before every other. -/
def Acq.first : Acq := { at_ := 0, scope := 2, floors := Vector.replicate 64 0 }

/-- The governing acquire of a word of the present fork set at dynamic index `i` (R294): the latest one that stands earlier in
the text; acquires of earlier fork sets stand before every word of this one. -/
def Ctx.governing (k : Ctx) (i : Nat) : Acq :=
  match k.acqs.find? fun a => a.epoch < k.epoch || a.idx < i with
  | some a => a.acq
  | none => Acq.first

/-- The latest acquire of a context: it governs the control core's accesses. -/
def Ctx.acq (k : Ctx) : Acq := match k.acqs with | a :: _ => a.acq | [] => Acq.first

/-- A new governing acquire from index `i` on. -/
def Ctx.pushAcq (k : Ctx) (i : Nat) (q : Acq) : Ctx := { k with acqs := { epoch := k.epoch, idx := i, acq := q } :: k.acqs }

/-- A write that a read of unit `u` with governing acquire `q` must not miss (R292): one of its own unit that R291 orders
before it, one that its unit has returned already (R291), one in the acquire's snapshot (R294), or one of the own context that a FENCE
or an observed completion brings in. -/
def HistEntry.forced (e : HistEntry) (u : UnitId) (cls : Nat) (q : Acq) : Bool :=
  (e.unit = u && !clsApart e.cls cls) || (e.seen.any fun o => o.1 = u && !clsApart o.2 cls) ||
  (e.unit.partyOf q.scope u.core && e.arr u.seat < q.at_) ||
  (!e.unit.outside && e.unit.core = u.core && e.unit.ctx = u.ctx && e.at_ < vget q.floors (8 * e.unit.path + u.path) 0)

/-- A write of a byte. -/
def HistEntry.on (e : HistEntry) (host : Bool) (a : Nat) : Bool := e.host = host && e.addr = a

/-- The bytes of one write that a read meets whole or not at all: those of one store or one atomic update, a remote one too, within the
range of an `atomic` read (R87, R287, R331); else each byte for itself (R292). -/
def HistEntry.group (e : HistEntry) (hist : List HistEntry) (host atomic : Bool) (a n : Nat) : List HistEntry :=
  if atomic && (e.unit.path = 0 || e.unit.path = 2 || e.unit.remote) then
    hist.filter fun o => o.tag = e.tag && o.host = host && a ≤ o.addr && o.addr < a + n
  else [e]

/-- A control-core read meets a byte that its own context has stored: it returns that store unless its floor holds a later write (R292). -/
def ownStored (hist : List HistEntry) (host : Bool) (u : UnitId) (g : List HistEntry) : Bool :=
  u.path = 0 && g.any fun o => hist.any fun w => w.on host o.addr && w.unit = u

/-- A read may return a write, or one newer (R292): it is in the read's floor, or it is performed with respect to the reader and a free
value takes it up, where the reader is no control core that has stored there itself. -/
def State.takes (s : State) (host : Bool) (u : UnitId) (cls : Nat) (q : Acq) (atomic : Bool) (a n i : Nat) (e : HistEntry) : Bool :=
  let g := e.group s.hist host atomic a n
  let j := if g.length = 1 then i else 0
  (g.any fun o => o.forced u cls q) || (!ownStored s.hist host u g && (g.any fun o => o.arr u.seat ≤ s.cycle) &&
    Config.free 1 (s.fresh + j * s.hist.length + s.hist.findIdx fun o => o.tag = e.tag) = 1)

/-- One byte as a read finds it: the newest write of those it takes, else the oldest value. The write returned is marked. -/
def viewByte (takes : HistEntry → Bool) (mark : HistEntry → HistEntry) (host : Bool) (a : Nat) : List HistEntry → Byte → Byte × List HistEntry
  | [], v => (v, [])
  | e :: r, v =>
    if e.on host a then
      if takes e then (v, mark e :: r)
      else let p := viewByte takes mark host a r e.old; (p.1, e :: p.2)
    else let p := viewByte takes mark host a r v; (p.1, e :: p.2)

/-- The latest value of a DRAM byte in coherence order (R291). -/
def State.byte (s : State) (pa : Nat) : Byte := sget s.mem pa

/-- The latest value of a host byte. -/
def State.hostByte (s : State) (a : Nat) : Byte := sget s.hostMem a

/-- A write is performed with respect to every core from cycle `t` at the latest. -/
def HistEntry.settle (e : HistEntry) (t : Nat) : HistEntry :=
  { e with allAt := some (match e.allAt with | some n => Nat.min n t | none => t) }

/-- R295 applies when unit `u` returns the write: a DRAM write, read by a context on another core than the writer's; the host, the base
die and another package are on no core. -/
def HistEntry.spreads (e : HistEntry) (u : UnitId) : Bool := !e.host && !u.outside && (e.unit.outside || e.unit.core ≠ u.core)

/-- A write that unit `u` has returned: no later read of the unit goes back behind it (R291), and R295 applies. -/
def HistEntry.returnedTo (e : HistEntry) (u : UnitId) (cls now : Nat) : HistEntry :=
  let e1 := { e with seen := if (e.unit = u && !clsApart e.cls cls) || e.seen.contains (u, cls) then e.seen else (u, cls) :: e.seen }
  if e.spreads u then e1.settle now else e1

/-- Where R295 has settled a write of the host, the host's writes before it are settled too (R300). -/
def settlePosted (now : Nat) (hist : List HistEntry) : List HistEntry :=
  let top := hist.foldl (fun m e => if e.unit.posted && e.allAt = some now then Nat.max m (e.tag + 1) else m) 0
  if top = 0 then hist else hist.map fun e => if e.unit.posted && e.tag < top then e.settle now else e

/-- A read of `n` bytes at `a` by unit `u` (R292). `atomic` reads meet a store whole (R87), others byte by byte.
Where no unsettled write touches the bytes, the read is that of the memory itself. -/
def State.readMem (s : State) (host : Bool) (u : UnitId) (cls : Nat) (q : Acq) (atomic : Bool) (a n : Nat) :
    List Byte × State :=
  let m := if host then s.hostMem else s.mem
  if s.hist.any fun e => e.host = host && a ≤ e.addr && e.addr < a + n then
    let r := (List.range n).foldl (fun (t : List Byte × List HistEntry) i =>
      let p := viewByte (s.takes host u cls q atomic a n i) (fun e => e.returnedTo u cls s.cycle) host (a + i) t.2 (sget m (a + i))
      (t.1 ++ [p.1], p.2)) ([], s.hist)
    (r.1, { s with hist := settlePosted s.cycle r.2, fresh := s.fresh + n * s.hist.length })
  else ((List.range n).map fun i => sget m (a + i), s)

/-- The `n` DRAM bytes at `a` that stand latest in coherence order, as an atomic update by `u` reads them (R291, R287). -/
def State.readLatest (s : State) (u : UnitId) (cls a n : Nat) : List Byte × State :=
  let r := (List.range n).foldl (fun (t : List Byte × List HistEntry) i =>
    let p := viewByte (fun _ => true) (fun e => e.returnedTo u cls s.cycle) false (a + i) t.2 (s.byte (a + i))
    (t.1 ++ [p.1], p.2)) ([], s.hist)
  (r.1, { s with hist := settlePosted s.cycle r.2 })

/-- A write `e` of `v` placed beneath the unit's own writes of another class that it passes (R298): `some` with the list, or `none`
where it passes none and stands on top. `pass n` says whether it passes the `n`-th. -/
def insertBehind (pass : Nat → Bool) (e : HistEntry) (v : Byte) : Nat → List HistEntry → Option (List HistEntry)
  | _, [] => none
  | n, o :: r =>
    if o.on e.host e.addr then
      if o.unit = e.unit && clsApart o.cls e.cls && pass n then
        match insertBehind pass { e with old := o.old } v (n + 1) r with
        | some r1 => some (o :: r1)
        | none => some ({ o with old := v } :: { e with old := o.old } :: r)
      else none
    else (insertBehind pass e v n r).map (o :: ·)

/-- One byte's write enters the coherence order (R291). Where R298 lets it pass behind writes of its unit, the free value `pick`
decides how far; an atomic update stands on top of the write that it read (R287, R291). -/
def State.writeByte (s : State) (host : Bool) (u : UnitId) (cls tag pick a : Nat) (v : Byte) : State :=
  let m := if host then s.hostMem else s.mem
  let e : HistEntry :=
    { host := host, addr := a, old := sget m a, unit := u, cls := cls, at_ := s.cycle, tag := tag, allAt := none, seen := [],
      ord := if u.posted then (s.hist.filter fun o => o.unit = u && o.tag ≠ tag).map (fun o => (o.at_, o.tag)) else [] }
  match if u.path = 2 then none else insertBehind (fun n => Config.free 64 pick >>> (n % 64) &&& 1 = 1) e v 0 s.hist with
  | some h => { s with hist := h }
  | none =>
    if host then { s with hist := e :: s.hist, hostMem := sset s.hostMem a v }
    else { s with hist := e :: s.hist, mem := sset s.mem a v }

/-- Bytes written at `a` upward by unit `u`: each is performed at the own core now and elsewhere after its free delay. -/
def State.writeMem (s : State) (host : Bool) (u : UnitId) (cls a : Nat) (bs : List Byte) : State :=
  let tag := s.fresh
  let s1 := { s with fresh := s.fresh + 129 + bs.length }
  let s2 := (bs.zipIdx).foldl (fun (t : State) (p : Byte × Nat) => t.writeByte host u cls tag (tag + 129 + p.2) (a + p.2) p.1) s1
  if host then s2 else { s2 with bad := s2.bad.filter fun l => !(a ≤ l * 64 && l * 64 + 64 ≤ a + bs.length) }

/-- Every write that units of context `(c, x)` on the paths have made was performed with respect to every party of scope `sc`
before this cycle (R293): a release takes effect after them, so that of two acquiring releases one sees the other's writes. -/
def State.performed (s : State) (c : CoreId) (x : CtxId) (paths : List Nat) (sc : Scope) : Bool :=
  s.hist.all fun e => !(e.unit.core = c && e.unit.ctx = x && paths.contains e.unit.path && !e.unit.outside) ||
    (((List.finRange 128).all fun o => !inScope sc c o || e.arr o.val < s.cycle) && (sc.val < 2 || e.arr 128 < s.cycle))

/-- The same of the writes made up to cycle `t` alone. -/
def State.performedTo (s : State) (c : CoreId) (x : CtxId) (paths : List Nat) (sc : Scope) (t : Nat) : Bool :=
  ({ s with hist := s.hist.filter fun e => e.at_ ≤ t }).performed c x paths sc

/-- The writes that the host interface performed before `t` are performed with respect to every party (R300, delivery of a doorbell). -/
def State.settleHost (s : State) (t : Nat) : State :=
  { s with hist := s.hist.map fun e => if e.unit.path = 5 && e.unit.outside && e.at_ ≤ t then e.settle s.cycle else e }

/-- R298: a FENCE, a release or an acquire ignores alias classes. What units of context `(c, x)` on the paths have written so far is no
longer passed by their later accesses, whatever the classes. -/
def State.sealClasses (s : State) (c : CoreId) (x : CtxId) (paths : List Nat) : State :=
  { s with hist := s.hist.map fun e =>
      if e.unit.core = c && e.unit.ctx = x && !e.unit.outside && paths.contains e.unit.path then { e with cls := 0 } else e }

/-! ### Typed buffers -/

/-- Which typed buffer (R94's BUF codes): 1 ABUF, 2 CBUF, 3 WBUF. -/
def Core.buf (k : Core) (b : Nat) : Lines := if b = 1 then k.abuf else if b = 2 then k.cbuf else k.wbuf

/-- A line of a typed buffer. -/
def Core.line (k : Core) (b l : Nat) : VReg := sget (k.buf b) l

/-- A line of a typed buffer written. -/
def Core.setLine (k : Core) (b l : Nat) (v : VReg) : Core :=
  if b = 1 then { k with abuf := sset k.abuf l v }
  else if b = 2 then { k with cbuf := sset k.cbuf l v }
  else { k with wbuf := sset k.wbuf l v }

/-- `n` bits of a register or line from bit `lo`. -/
def sliceAt (v : VReg) (lo n : Nat) : Nat := v.toNat / 2 ^ lo % 2 ^ n

/-- A register or line with `n` bits from bit `lo` replaced. -/
def setSlice (v : VReg) (lo n x : Nat) : VReg := BitVec.ofNat 4096 (setBits v.toNat lo n x)

/-- Byte `i` of the buffer's byte space (line i ÷ 512). -/
def Core.bufByte (k : Core) (b i : Nat) : Byte := BitVec.ofNat 8 (sliceAt (k.line b (i / 512)) (i % 512 * 8) 8)

/-- Bytes of a typed buffer from byte address `i`. -/
def Core.bufBytes (k : Core) (b i n : Nat) : List Byte := (List.range n).map fun j => k.bufByte b (i + j)

/-- A byte of a typed buffer written. -/
def Core.setBufByte (k : Core) (b i : Nat) (v : Byte) : Core :=
  k.setLine b (i / 512) (setSlice (k.line b (i / 512)) (i % 512 * 8) 8 v.toNat)

/-- Bytes of a typed buffer written from byte address `i`. -/
def Core.setBufBytes (k : Core) (b : Nat) : Nat → List Byte → Core
  | _, [] => k
  | i, v :: r => (k.setBufByte b i v).setBufBytes b (i + 1) r

/-- An element of `w` bits at bit position `p` counted from bit 0 of line `l`, running on over the lines. -/
def Core.bufElem (k : Core) (b l p w : Nat) : Nat := sliceAt (k.line b (l + p / 4096)) (p % 4096) w

/-- An element of `w` bits written at bit position `p` from line `l`. -/
def Core.setBufElem (k : Core) (b l p w x : Nat) : Core :=
  k.setLine b (l + p / 4096) (setSlice (k.line b (l + p / 4096)) (p % 4096) w x)

/-- The register that holds the given elements of `w` bits (R4). -/
def packElems (w : Nat) (xs : List Nat) : VReg := BitVec.ofNat 4096 (xs.foldr (fun x acc => x % 2 ^ w + acc * 2 ^ w) 0)

/-- The `n` elements of `w` bits of a register (R131). -/
def elems (v : VReg) (w n : Nat) : List Nat := (List.range n).map fun i => sliceAt v (w * i) w

end Sys2Proof.Machine
end

