-- ==== Sys2Proof/Machine/Translate.lean ====
section
/-! DEFINITION. Sys2Proof/Machine/Translate.lean: the handle table, two-stage translation, TLBs, and accesses through them
(R225 to R235). -/

namespace Sys2Proof.Machine

/-- A failed translation (R231, R232): CLASS, REASON, LEVEL, WALK, WR, and the addresses of the detail block. CLASS 0 is no fault: the
walk must start anew after an invalidation in progress (R235). -/
structure XFault where
  cls : Nat
  reason : Nat
  level : Nat
  walk : Bool
  wr : Bool
  va : Nat
  gpa : Nat
  deriving DecidableEq, Repr

/-- The direction of an access: read, write, text fetch, or the SAE's read and write (R227, R283). -/
inductive Dir where
  | rd | wr | x | rw
  deriving DecidableEq, Repr

/-- The direction stores (WR of R232). -/
def Dir.isWr : Dir → Bool
  | .rd => false | .wr => true | .x => false | .rw => true

/-- Permission bits allow the direction (R227). -/
def Dir.ok (d : Dir) (rd wr x : Bool) : Bool :=
  match d with
  | .rd => rd | .wr => wr | .x => x | .rw => rd && wr

/-- A leaf found by a walk: page base in the output space, page size, permissions, key and its level. -/
structure Leaf where
  base : Nat
  size : Nat
  rd : Bool
  wr : Bool
  x : Bool
  u : Bool
  key : Nat
  level : Nat
  deriving DecidableEq, Repr

/-- A walk's answer: a leaf, a failing entry (reason and level), or a failure of the fetch of an entry itself. -/
inductive WalkRes where
  | leaf (l : Leaf)
  | bad (reason level : Nat)
  | fetch (f : XFault) (level : Nat)
  deriving DecidableEq, Repr

/-- Index of a walk level: level 0 bits 47:39 … level 3 bits 20:12 (R227). -/
def walkIndex (a level : Nat) : Nat := bits a (39 - 9 * level) 9

/-- Page size of a leaf at a level (R227). -/
def leafSize (level : Nat) (p64 : Bool) : Nat :=
  if level = 1 then 2 ^ 30 else if level = 2 then 2 ^ 21 else if p64 then 2 ^ 16 else 2 ^ 12

/-- An entry's reserved bits or form are wrong (R227, malformed); `s2` says the entry is a stage-2 one. -/
def malformed (s2 : Bool) (level e : Nat) : Bool :=
  let leaf := e.testBit 1
  let resv := bits e 52 6 ≠ 0 || bits e 8 4 ≠ 0 || e.testBit 6 || (!(s2 && leaf) && bits e 58 6 ≠ 0) || (s2 && e.testBit 2)
  let p64 := e.testBit 7
  if leaf then
    resv || level = 0 || (p64 && level ≠ 3) || (bits e 12 40 * 4096) % leafSize level p64 ≠ 0
  else resv || level = 3 || p64 || e.testBit 5 || e.testBit 4 || e.testBit 3 || e.testBit 2

/-- A doubleword of a table that a walk read: its device-physical address, the key of the access and the guest-physical address. -/
structure Touch where
  pa : Nat
  key : Nat
  gpa : Nat
  deriving DecidableEq, Repr

/-- A radix walk from `table` for address `a` over the levels still to go (R227); `fetch` reads an entry and says what it touched. -/
def radixWalk (s2 : Bool) (fetch : Nat → Nat → Except XFault Nat × List Touch) (a : Nat) : List Nat → Nat → WalkRes × List Touch
  | [], _ => (.bad 2 3, [])
  | level :: more, table =>
    let q := fetch level (table + 8 * walkIndex a level)
    match q.1 with
    | .error f => (.fetch f level, q.2)
    | .ok e =>
      if !e.testBit 0 then (.bad 0 level, q.2)
      else if malformed s2 level e then (.bad 2 level, q.2)
      else
        let addr := bits e 12 40 * 4096
        if addr ≥ (if s2 then 2 ^ 38 else 2 ^ 48) then (.bad 3 level, q.2)
        else if e.testBit 1 then
          (.leaf { base := addr, size := leafSize level (e.testBit 7), rd := e.testBit 3, wr := e.testBit 4, x := e.testBit 5,
                   u := e.testBit 2, key := if s2 then bits e 58 6 else 0, level := level }, q.2)
        else
          let d := radixWalk s2 fetch a more addr
          (d.1, q.2 ++ d.2)

/-- Eight bytes of DRAM as the walkers read them: the latest in coherence order. -/
def State.physDw (s : State) (pa : Nat) : Nat := leNat ((List.range 8).map fun i => s.byte (pa + i))

/-- A table doubleword as a walk gets it under key `key`: from a line of another key or a struck line it gets no data, a free value (R14,
R230). Stage-2 tables are read under key 0 (assumption log 9). -/
def State.tableDw (s : State) (pa key : Nat) : Nat :=
  if s.lineKey pa ≠ key || s.lineBad pa then (Config.free 64 (2 ^ 64 * (pa + 1) + s.fresh)).toNat else s.physDw pa

/-- The address of `a` inside a leaf's page. -/
def Leaf.at_ (l : Leaf) (a : Nat) : Nat := l.base + a % l.size

/-- Stage 2 of a guest-physical address for context `(c, x)` (R227, R230): the leaf, or how it failed. Without stage 2,
guest-physical is device-physical with key 0; an address of 2^38 or more does not exist and is an address-size failure
(assumption log 9). -/
def State.stage2 (s : State) (c : CoreId) (x : CtxId) (gpa : Nat) : WalkRes × List Touch :=
  let root := (s.ctx c x).s2root.toNat
  if !root.testBit 0 then
    if gpa ≥ 2 ^ 38 then (.bad 3 0, [])
    else (.leaf { base := 0, size := 2 ^ 38, rd := true, wr := true, x := true, u := true, key := 0, level := 0 }, [])
  else if gpa ≥ 2 ^ 48 then (.bad 3 0, [])
  else radixWalk true (fun _ a => (.ok (s.tableDw a 0), [{ pa := a, key := 0, gpa := gpa }])) gpa [0, 1, 2, 3] (bits root 12 26 * 4096)

/-- A guest-physical doubleword read through stage 2 for a table walk; a failure is a stage-2 fault of the fetch. -/
def State.guestDw (s : State) (c : CoreId) (x : CtxId) (va : Nat) (wr : Bool) (level gpa : Nat) : Except XFault Nat × List Touch :=
  let q := s.stage2 c x gpa
  match q.1 with
  | .leaf l => if l.rd then (.ok (s.tableDw (l.at_ gpa) l.key), q.2 ++ [{ pa := l.at_ gpa, key := l.key, gpa := gpa }])
               else (.error { cls := 2, reason := 1, level := level, walk := true, wr := wr, va := va, gpa := gpa }, q.2)
  | .bad r _ => (.error { cls := 2, reason := r, level := level, walk := true, wr := wr, va := va, gpa := gpa }, q.2)
  | .fetch f _ => (.error f, q.2)

/-- Stage 1 of a guest-virtual address (R226, R227). -/
def State.stage1 (s : State) (c : CoreId) (x : CtxId) (va : Nat) (wr : Bool) : WalkRes × List Touch :=
  let root := (s.ctx c x).s1root.toNat
  if va ≥ 2 ^ 48 then (.bad 3 0, [])
  else if !root.testBit 0 then
    (.leaf { base := 0, size := 2 ^ 48, rd := true, wr := true, x := true, u := true, key := 0, level := 0 }, [])
  else radixWalk false (fun l a => s.guestDw c x va wr l a) va [0, 1, 2, 3] (bits root 12 36 * 4096)

/-- What a full walk of both stages answers (R227, R231) once each has answered: the combined entry a TLB may hold, or the fault. -/
def State.walkOf (s : State) (c : CoreId) (x : CtxId) (va : Nat) (d : Dir) (r1 : WalkRes) (r2 : Nat → WalkRes) : Except XFault TlbEntry :=
  let k := s.ctx c x
  match r1 with
  | .fetch f _ => .error f
  | .bad r l => .error { cls := 1, reason := r, level := l, walk := false, wr := d.isWr, va := va, gpa := 0 }
  | .leaf l1 =>
    if !d.ok l1.rd l1.wr l1.x || (k.pl = 0 && !l1.u) then
      .error { cls := 1, reason := 1, level := l1.level, walk := false, wr := d.isWr, va := va, gpa := 0 }
    else
      let gpa := l1.at_ va
      match r2 gpa with
      | .fetch f _ => .error f
      | .bad r l => .error { cls := 2, reason := r, level := l, walk := false, wr := d.isWr, va := va, gpa := gpa }
      | .leaf l2 =>
        if !d.ok l2.rd l2.wr l2.x then
          .error { cls := 2, reason := 1, level := l2.level, walk := false, wr := d.isWr, va := va, gpa := gpa }
        else
          let size := Nat.min l1.size l2.size
          .ok { part := s.partOf c x, asid := bits k.s1root.toNat 48 16, s1 := k.s1root.toNat.testBit 0, va := va / size * size,
                size := size, gpa := gpa / size * size, s1size := l1.size, s2size := l2.size, pa := l2.at_ gpa / size * size,
                key := l2.key, rd := l1.rd && l2.rd, wr := l1.wr && l2.wr, x := l1.x && l2.x, u := l1.u }

/-- A full walk of both stages: its answer, and the table doublewords that it read. -/
def State.walk2 (s : State) (c : CoreId) (x : CtxId) (va : Nat) (d : Dir) : Except XFault TlbEntry × List Touch :=
  let q1 := s.stage1 c x va d.isWr
  (s.walkOf c x va d q1.1 fun gpa => (s.stage2 c x gpa).1,
   q1.2 ++ match q1.1 with | .leaf l => (s.stage2 c x (l.at_ va)).2 | _ => [])

/-! ### What the memory controller finds later (R14, R230) -/

/-- The detail block of R232; `skey`/`akey` stand in class 3 alone. -/
def xDetail (haddr : Nat) (f : XFault) (path skey akey : Nat) : Vector Word 4 :=
  #v[BitVec.ofNat 64 haddr, BitVec.ofNat 64 f.va, BitVec.ofNat 64 (if f.cls = 1 then 0 else f.gpa),
     BitVec.ofNat 64 (skey * 2 ^ 22 + akey * 2 ^ 16 + f.cls * 2 ^ 12 + f.reason * 2 ^ 8 + f.level * 2 ^ 6 + b2n f.walk * 2 ^ 5 +
       b2n f.wr * 2 ^ 4 + path)]

/-- Cause of a translation fault's class (R260). -/
def xCause (f : XFault) : Nat := if f.cls = 1 then 0x08 else 0x09

/-- PATH of an access (R232): the writer of ring records counts as CTL (assumption log 47). -/
def pathCode (path : Nat) : Nat := if path > 6 then 0 else path

/-- An asynchronous trap becomes pending in a context (R261). -/
def Ctx.pend (k : Ctx) (now cause code level : Nat) (det : Vector Word 4) : Ctx :=
  { k with pending := k.pending ++ [{ async := true, cause := cause, code := code, tag := 0, seq := 0, level := level, park := false, det := det, at_ := now }] }

/-- A key mismatch found by the memory controller: the access raises KEY_MISMATCH later (R230, R231, R232). -/
def State.keyFaultAt (s : State) (c : CoreId) (x : CtxId) (haddr va gpa pa akey path : Nat) (wr : Bool) : State :=
  let det := xDetail haddr { cls := 3, reason := 4, level := 0, walk := false, wr := wr, va := va, gpa := gpa } (pathCode path)
    (s.lineKey pa) akey
  s.modCore c fun k => { k with keyFaults := k.keyFaults ++ [(x, det)] }

/-- The uncorrected-soft-error trap of a context that consumed a struck line (R14, R269). -/
def State.softErr (s : State) (c : CoreId) (x : CtxId) (pa path : Nat) : State :=
  s.modCtx c x fun k => k.pend s.cycle 0x11 0 1 #v[BitVec.ofNat 64 (pa / 64 * 64), BitVec.ofNat 64 (pathCode path), 0, 0]

/-- A struck line (buffer, line) lies in a footprint of R180: the bits are lines of ABUF or CBUF, or bytes of every slice of WBUF. -/
def inFootprint (rd : List (Nat × Nat)) (p : Nat × Nat) : Bool :=
  rd.any fun q => q.1 = p.1 && (if p.1 = 3 then bits q.2 (p.2 % 256 * 512) 512 ≠ 0 else q.2.testBit p.2)

/-- A unit reads typed-buffer lines, given as a footprint; the trap of the first that holds an uncorrected error, where it is not pending
already (R14, R269). -/
def State.readStruck (s : State) (c : CoreId) (x : CtxId) (path : Nat) (rd : List (Nat × Nat)) : State :=
  match (s.core c).bad.find? (inFootprint rd) with
  | some p =>
    let det : Vector Word 4 := #v[BitVec.ofNat 64 (2 ^ 63 + p.2), BitVec.ofNat 64 (pathCode path), 0, 0]
    s.modCtx c x fun k => if k.pending.any fun r => r.cause = 0x11 && r.det = det then k else k.pend s.cycle 0x11 0 1 det
  | none => s

/-- A walk's reads of table doublewords as the memory controller sees them: a mismatch or a struck line is reported for the context. -/
def State.noteTouches (s : State) (c : CoreId) (x : CtxId) (haddr va path : Nat) (l : List Touch) : State :=
  l.foldl (fun (t : State) q =>
    if t.lineKey q.pa ≠ q.key then (t.keyFaultAt c x haddr va q.gpa q.pa q.key path false).skipFresh 1
    else if t.lineBad q.pa then (t.softErr c x q.pa path).skipFresh 1
    else t) s

/-! ### TLBs and translation -/

/-- Which TLB a unit uses (R228): none the control core's, `some i` a stream TLB: 0–3 the copy channels, 4 SAE, 5 FUR, 6 the one of
the package's collective engine. -/
abbrev TlbSel := Option (Fin 7)

/-- PATH of the accesses that go through a TLB (R232). -/
def tlbPath (t : TlbSel) (d : Dir) : Nat :=
  match t with
  | none => if d = .x then 6 else 0
  | some i => if i.val < 4 then 1 else i.val - 2

/-- The entries of a TLB. -/
def State.tlbOf (s : State) (c : CoreId) (t : TlbSel) : List TlbEntry :=
  match t with
  | none => (s.core c).tlb
  | some i => if i.val = 6 then s.col.tlb else vget (s.core c).stlb i.val []

/-- A TLB entry translates the address for the context (R226: tags PARTID and, for stage 1, ASID). -/
def TlbEntry.hits (e : TlbEntry) (part asid : Nat) (s1 : Bool) (va : Nat) : Bool :=
  e.part = part && e.s1 = s1 && (!s1 || e.asid = asid) && e.va ≤ va && va < e.va + e.size

/-- A new entry enters a TLB; beyond 64 or 32 entries the oldest leaves (R228; the choice is assumption log 10). -/
def State.tlbAdd (s : State) (c : CoreId) (t : TlbSel) (e : TlbEntry) : State :=
  match t with
  | none => s.modCore c fun k => { k with tlb := (e :: k.tlb).take 64 }
  | some i =>
    if i.val = 6 then { s with col := { s.col with tlb := (e :: s.col.tlb).take 32 } }
    else s.modCore c fun k => { k with stlb := vmod k.stlb i.val fun l => (e :: l).take 32 }

/-- An entry lies in what a TLBI removes (R234). -/
def TlbiKind.takes (k : TlbiKind) (e : TlbEntry) : Bool :=
  match k with
  | .handles => false
  | .s1va p asid va => e.part = p && e.s1 && e.asid = asid && va / Nat.max 1 e.s1size = e.va / Nat.max 1 e.s1size
  | .s1asid p asid => e.part = p && e.s1 && e.asid = asid
  | .part p => e.part = p
  | .s2ipa p gpa => e.part = p && gpa / Nat.max 1 e.s2size = e.gpa / Nat.max 1 e.s2size

/-- A TLBI of the context is outstanding (R234). -/
def Ctx.tlbiOpen (k : Ctx) (now : Nat) : Bool := k.tlbiWait.isSome || k.tlbiUntil > now

/-- Some outstanding TLBI of the package removes such an entry: a walk that would form it starts anew later (R235). -/
def State.retries (s : State) (e : TlbEntry) : Bool :=
  s.cores.toList.any fun k => k.ctxs.toList.any fun x => x.tlbiOpen s.cycle && x.tlbiKind.takes e

/-- Translation of a guest-virtual address for a unit of context `(c, x)` (R227, R228, R235): device-physical address and key. `haddr` is
the handle address of the access, for the reports of the walk's own reads. -/
def State.translate (s : State) (c : CoreId) (x : CtxId) (t : TlbSel) (haddr va : Nat) (d : Dir) :
    Except XFault (Nat × Nat) × State :=
  let k := s.ctx c x
  let s1 := k.s1root.toNat.testBit 0
  if !s1 && !k.s2root.toNat.testBit 0 then
    -- no stage is enabled: nothing is cached
    match (s.walk2 c x va d).1 with
    | .error f => (.error f, s)
    | .ok e => (.ok (e.pa + (va - e.va), e.key), s)
  else
    let hit := (s.tlbOf c t).find? fun e =>
      e.hits (s.partOf c x) (bits k.s1root.toNat 48 16) s1 va && d.ok e.rd e.wr e.x && (k.pl ≠ 0 || e.u)
    match hit with
    | some e => (.ok (e.pa + (va - e.va), e.key), s)
    | none =>
      let w := s.walk2 c x va d
      let s' := ((s.count c x 0x38 1).count c x 0x39 1).noteTouches c x haddr va (tlbPath t d) w.2
      match w.1 with
      | .error f => (.error f, s')
      | .ok e =>
        if s.retries e then (.error { cls := 0, reason := 0, level := 0, walk := false, wr := d.isWr, va := va, gpa := 0 }, s')
        else (.ok (e.pa + (va - e.va), e.key), s'.tlbAdd c t e)

/-! ### Handles -/

/-- A bound handle's entry (R225). -/
structure HInfo where
  len : Nat
  kind : Nat
  w : Bool
  rd : Bool
  tx : Bool
  hq : Nat
  base : Nat
  deriving DecidableEq, Repr

/-- What a handle is bound to (R225): a region, nothing (unbound, reserved KIND or bit set), or a failed entry fetch. -/
inductive HRes where
  | bound (h : HInfo)
  | unbound
  | fault (f : XFault)
  deriving DecidableEq, Repr

/-- The fields of a handle-table entry; `none` for a reserved KIND or a set reserved bit (R225). -/
def decodeHandle (e : Nat) : Option HInfo :=
  let kind := bits e 60 4
  if bits e 112 16 ≠ 0 || bits e 48 3 ≠ 0 || kind = 0 || kind > 4 || (kind ≠ 4 && bits e 51 6 ≠ 0) then none
  else some { len := bits e 64 48, kind := kind, w := e.testBit 59, rd := e.testBit 58, tx := e.testBit 57, hq := bits e 51 6,
              base := bits e 0 48 }

/-- The binding of handle `h` in context `(c, x)` (R225): from the handle cache, else from the table through stage 2, as part of an
access of a path. Handle 0 is never bound; 4094 and 4095 are no ordinary handles. -/
def State.handle (s : State) (c : CoreId) (x : CtxId) (h : Nat) (path : Nat := 0) (wr : Bool := false) : HRes × State :=
  if h = 0 || h ≥ 4094 then (.unbound, s)
  else
    let k := s.ctx c x
    match k.handles.find? fun e => e.num = h with
    | some e => ((match decodeHandle e.raw with | some i => .bound i | none => .unbound), s)
    | none =>
      let gpa := k.htbase + 16 * h
      let lo := s.guestDw c x (2 ^ 64 - 1) wr 0 gpa
      let hi := s.guestDw c x (2 ^ 64 - 1) wr 0 (gpa + 8)
      let s1 := s.noteTouches c x (h * 2 ^ 48) (2 ^ 64 - 1) path (lo.2 ++ hi.2)
      match lo.1, hi.1 with
      | .error f, _ => (.fault f, s1)
      | .ok _, .error f => (.fault f, s1)
      | .ok lo, .ok hi =>
        let raw := lo + 2 ^ 64 * hi
        ((match decodeHandle raw with | some i => .bound i | none => .unbound),
         s1.modCtx c x fun k => { k with handles := { num := h, raw := raw } :: k.handles })

/-- The first of some handle addresses whose handle-table fetch fails, with the failure (R231, CLASS 2). -/
def State.handleFault (s : State) (c : CoreId) (x : CtxId) (ws : List Nat) (path : Nat) (wr : Bool) : Option (Nat × XFault) :=
  ws.findSome? fun w => match (s.handle c x (w / 2 ^ 48 % 2 ^ 16) path wr).1 with | .fault f => some (w, f) | _ => none

/-- A handle names text: KIND 1 and TX = 1, and the offset lies within its bound (R225, R268). -/
def State.textHandleOk (s : State) (c : CoreId) (x : CtxId) (h off : Nat) : Bool :=
  match (s.handle c x h).1 with
  | .bound i => i.kind = 1 && i.tx && off < i.len
  | _ => false

/-! ### The traps of accesses that have left their unit -/

/-- The guest-physical address of an access that was translated to `pa`: by the cached entry that names it, else by stage 1. -/
def State.gpaOf (s : State) (c : CoreId) (x : CtxId) (va pa : Nat) : Nat :=
  let r := (s.ctx c x).s1root.toNat
  let es := (s.core c).tlb ++ (s.core c).stlb.toList.flatten ++ s.col.tlb
  match es.find? fun e => e.hits (s.partOf c x) (bits r 48 16) (r.testBit 0) va && e.pa + (va - e.va) = pa with
  | some e => e.gpa + (va - e.va)
  | none => match (s.stage1 c x va false).1 with | .leaf l => l.at_ va | _ => pa

/-- A key mismatch of an access to guest-virtual `va` (R230 to R232). -/
def State.keyFault (s : State) (c : CoreId) (x : CtxId) (haddr va pa akey path : Nat) (wr : Bool) : State :=
  s.keyFaultAt c x haddr va (s.gpaOf c x va pa) pa akey path wr

/-! ### Reads and writes through handles -/

/-- Free bytes for what no memory delivered (R2, R230). -/
def State.freeBytes (s : State) (n : Nat) : List Byte × State :=
  ((List.range n).map fun i => Config.free 8 (s.fresh + i), s.skipFresh n)

/-- Pieces of a byte range that cross no 4 KiB boundary: (offset, length). -/
def pieces : Nat → Nat → Nat → Nat → List (Nat × Nat)
  | 0, _, _, _ => []
  | fuel + 1, va, off, n =>
    if n = 0 then []
    else
      let m := Nat.min n (4096 - (va + off) % 4096)
      (off, m) :: pieces fuel va (off + m) (n - m)

/-- The first byte of a range whose line answers `bad`. -/
def firstBadByte (bad : Nat → Bool) (pa n : Nat) : Nat := pa + ((List.range n).find? fun i => bad (pa + i)).getD 0

/-- Every line of a range answers `ok`. -/
def linesAll (ok : Nat → Bool) (pa n : Nat) : Bool :=
  (List.range (n / 64 + 2)).all fun i => !(pa / 64 + i ≤ (pa + n - 1) / 64) || ok ((pa / 64 + i) * 64)

/-- The parts of a range that lie in one 64-byte line each: (offset, length). -/
def lineParts : Nat → Nat → Nat → Nat → List (Nat × Nat)
  | 0, _, _, _ => []
  | fuel + 1, pa, off, n =>
    if n = 0 then []
    else
      let m := Nat.min n (64 - (pa + off) % 64)
      (off, m) :: lineParts fuel pa (off + m) (n - m)

/-- Reads `n` bytes at a device-physical address under a key (R230): a line of another key delivers nothing, which is reported once, later;
a struck line raises the soft-error trap. -/
def State.readPhys (s : State) (u : UnitId) (cls : Nat) (q : Acq) (atomic : Bool) (haddr va pa key n : Nat) : List Byte × State :=
  let keyed (a : Nat) : Bool := decide (s.lineKey a = key)
  let sound (a : Nat) : Bool := !s.lineBad a
  if n = 0 then ([], s)
  else if linesAll keyed pa n && linesAll sound pa n then s.readMem false u cls q atomic pa n
  else
    let b := firstBadByte (fun a => !keyed a) pa n
    let s1 := if linesAll keyed pa n then s else s.keyFault u.core u.ctx (haddr + (b - pa)) (va + (b - pa)) b key u.path false
    let s2 := if linesAll (fun a => !keyed a || sound a) pa n then s1
      else s1.softErr u.core u.ctx (firstBadByte (fun a => keyed a && !sound a) pa n) u.path
    (lineParts (n / 64 + 2) pa 0 n).foldl (fun (acc : List Byte × State) p =>
      let r := if keyed (pa + p.1) && sound (pa + p.1) then acc.2.readMem false u cls q atomic (pa + p.1) p.2 else acc.2.freeBytes p.2
      (acc.1 ++ r.1, r.2)) ([], s2)

/-- Writes bytes at a device-physical address under a key (R230): into a line of another key nothing is written, which is reported once,
later. -/
def State.writePhys (s : State) (u : UnitId) (cls haddr va pa key : Nat) (bs : List Byte) : State :=
  let keyed (a : Nat) : Bool := decide (s.lineKey a = key)
  if bs.isEmpty then s
  else if linesAll keyed pa bs.length then s.writeMem false u cls pa bs
  else
    let b := firstBadByte (fun a => !keyed a) pa bs.length
    let s1 := s.keyFault u.core u.ctx (haddr + (b - pa)) (va + (b - pa)) b key u.path true
    (lineParts (bs.length / 64 + 2) pa 0 bs.length).foldl (fun (t : State) p =>
      if keyed (pa + p.1) then t.writeMem false u cls (pa + p.1) ((bs.drop p.1).take p.2) else t) s1

/-- Undefined bytes are stored at a device-physical address under a key (R2, R292): free values, in the lines of that key alone; nothing
is reported on that account. -/
def State.spoilPhys (s : State) (u : UnitId) (cls pa key n : Nat) : State :=
  (lineParts (n / 64 + 2) pa 0 n).foldl (fun (t : State) p =>
    if t.lineKey (pa + p.1) = key then
      let r := t.freeBytes p.2
      r.2.writeMem false u cls (pa + p.1) r.1
    else t) s

/-- Reads bytes at guest-virtual `va` for a unit: the bytes, or the fault of the first piece that does not translate. -/
def State.readVa (s : State) (u : UnitId) (t : TlbSel) (cls : Nat) (q : Acq) (atomic : Bool) (haddr va n : Nat) :
    Except XFault (List Byte) × State :=
  (pieces (n / 4096 + 2) va 0 n).foldl (fun (acc : Except XFault (List Byte) × State) p =>
    match acc.1 with
    | .error _ => acc
    | .ok bs =>
      match acc.2.translate u.core u.ctx t (haddr + p.1) (va + p.1) .rd with
      | (.error f, s1) => (.error f, s1)
      | (.ok (pa, key), s1) =>
        let r := s1.readPhys u cls q atomic (haddr + p.1) (va + p.1) pa key p.2
        (.ok (bs ++ r.1), r.2)) (.ok [], s)

/-- Every piece of a byte range translates for a direction; the first fault otherwise. -/
def State.probeVa (s : State) (u : UnitId) (t : TlbSel) (haddr va n : Nat) (d : Dir) : Option XFault × State :=
  (pieces (n / 4096 + 2) va 0 n).foldl (fun (acc : Option XFault × State) p =>
    match acc.1 with
    | some _ => acc
    | none => match acc.2.translate u.core u.ctx t (haddr + p.1) (va + p.1) d with
      | (.error f, s1) => (some f, s1)
      | (.ok _, s1) => (none, s1)) (none, s)

/-- Writes bytes at guest-virtual `va` for a unit. -/
def State.writeVa (s : State) (u : UnitId) (t : TlbSel) (cls haddr va : Nat) (bs : List Byte) : Option XFault × State :=
  (pieces (bs.length / 4096 + 2) va 0 bs.length).foldl (fun (acc : Option XFault × State) p =>
    match acc.1 with
    | some _ => acc
    | none => match acc.2.translate u.core u.ctx t (haddr + p.1) (va + p.1) .wr with
      | (.error f, s1) => (some f, s1)
      | (.ok (pa, key), s1) => (none, s1.writePhys u cls (haddr + p.1) (va + p.1) pa key ((bs.drop p.1).take p.2))) (none, s)

/-- Undefined bytes are stored at guest-virtual `va` by a unit, where the bytes translate for a write; a lookup leaves no trace (R2). -/
def State.spoilVa (s : State) (u : UnitId) (t : TlbSel) (cls haddr va n : Nat) : State :=
  (pieces (n / 4096 + 2) va 0 n).foldl (fun (acc : State) p =>
    match (acc.translate u.core u.ctx t (haddr + p.1) (va + p.1) .wr).1 with
    | .error _ => acc
    | .ok (pa, key) => acc.spoilPhys u cls pa key p.2) s

/-- The handle address of the byte that faulted in an access to `va` through handle address `haddr` (R232). -/
def XFault.haddr (f : XFault) (haddr va : Nat) : Nat := if f.va < va || f.va ≥ 2 ^ 63 then haddr else haddr + (f.va - va)

/-- A handle address split in handle and offset (R86). -/
def haddrH (w : Nat) : Nat := bits w 48 16
/-- The offset of a handle address. -/
def haddrO (w : Nat) : Nat := bits w 0 48

/-- A handle of DRAM that allows a direction and whose bound holds `n` bytes from the offset; its entry. -/
def State.dramHandle (s : State) (c : CoreId) (x : CtxId) (w n : Nat) (rd wr : Bool) : Option HInfo :=
  match (s.handle c x (haddrH w)).1 with
  | .bound i => if i.kind = 1 && (!rd || i.rd) && (!wr || i.w) && haddrO w + n ≤ i.len then some i else none
  | _ => none

/-- The text word at a byte offset of a context's text handle (R59, R227): the word, subcode 8, a translation fault, or no word, which
memory did not deliver (R14, R230) or whose walk starts anew (R235). -/
inductive TextRes where
  | word (w : Word)
  | outside
  | fault (f : XFault)
  | nothing (again : Bool)
  deriving DecidableEq, Repr

/-- Fetches the text word at offset `off` (R59). Text fetch stands outside the memory model (R290): it reads the latest bytes. -/
def State.fetchText (s : State) (c : CoreId) (x : CtxId) (off : Nat) : TextRes × State :=
  let k := s.ctx c x
  if off % 8 ≠ 0 then (.outside, s)
  else match s.handle c x k.text 6 with
    | (.fault f, s1) => (.fault f, s1)
    | (.unbound, s1) => (.outside, s1)
    | (.bound i, s1) =>
      if i.kind ≠ 1 || !i.tx || off + 8 > i.len then (.outside, s1)
      else match s1.translate c x none (k.text * 2 ^ 48 + off) (i.base + off) .x with
        | (.error f, s2) => if f.cls = 0 then (.nothing true, s2) else (.fault f, s2)
        | (.ok (pa, key), s2) =>
          if s2.lineKey pa ≠ key then (.nothing false, s2.keyFault c x (k.text * 2 ^ 48 + off) (i.base + off) pa key 6 false)
          else if s2.lineBad pa then (.nothing false, s2.softErr c x pa 6)
          else (.word (BitVec.ofNat 64 (s2.physDw pa)), s2)

end Sys2Proof.Machine
end

