-- ==== Sys2Proof/Machine/Disclose.lean ====
section
/-! DEFINITION. Sys2Proof/Machine/Disclose.lean: the blinkers of the disclosure policy (R351 to R353), queue entry names
(R276), and the records of the observation rings (R357 to R361). -/

namespace Sys2Proof.Machine

/-! ### Granularities -/

/-- The code of a withheld value (R352). -/
def codeWithheld : Nat := 0xFFFFFFFFFFFFFFF0
/-- The code of an unavailable value (R352). -/
def codeUnavail : Nat := 0xFFFFFFFFFFFFFFF1

/-- The rule that governs a value of class `cls` and event `e` for recipient `rc` (R351): its GRAN and WEXP. A partition that
is not ACTIVE has no policy. -/
def State.gran (s : State) (p cls rc e : Nat) : Nat × Nat :=
  let q := s.part p
  match (if q.state = 1 then q.policy else none) with
  | none => (0, 0)
  | some rs =>
    match rs.find? fun r => r.src = cls && r.rcpt = rc && r.event = e with
    | some r => (r.gran, r.wexp)
    | none => match rs.find? fun r => r.src = cls && r.rcpt = rc && r.event = 0 with
      | some r => (r.gran, r.wexp)
      | none => (0, 0)

/-- R352, R321: a numeric field under a granularity; `win` is the value at the last window boundary. -/
def blink (g win v : Nat) : Nat :=
  if g = 0 then codeWithheld
  else if v = codeUnavail then v
  else if g = 1 then b2n (v ≠ 0)
  else if g = 2 then (if v = 0 then 0 else 2 ^ Nat.log2 v)
  else if g = 3 then win
  else v

/-- GTIME in whole microseconds (R334, R352). -/
def State.micros (s : State) : Nat := s.gtime / 1000

/-- The start of the window of 2^w µs in which GTIME lies, as cycles ago (R352, R5). -/
def State.windowAge (s : State) (w : Nat) : Nat := (s.gtime - s.micros / 2 ^ w * 2 ^ w * 1000) * 17 / 20

/-- The name of a queue entry (R276). -/
def entryName (c : CoreId) (x : CtxId) (tag seq : Nat) : Nat := c.val * 2 ^ 57 + x.val * 2 ^ 55 + tag * 2 ^ 51 + seq % 2 ^ 32

/-! ### Rings (R358) -/

/-- Records a ring can hold. -/
def Ring.cap (r : Ring) : Nat := 2 ^ (r.lsz - 6)

/-- HEAD − TAIL equals the capacity. -/
def Ring.full (r : Ring) : Bool := (r.head + 2 ^ 29 - r.tail % 2 ^ 29) % 2 ^ 29 ≥ r.cap

/-- One record of eight doublewords appended through `wr`, or counted as dropped. -/
def ringOne (wr : State → Nat → List Byte → Option State) (dws : List Nat) (p : Ring × State) : Ring × State :=
  let r := p.1
  if r.full then ({ r with drop := r.drop + 1 }, p.2)
  else match wr p.2 (64 * (r.head % r.cap)) (dws.flatMap (leBytes 8)) with
    | none => ({ r with drop := r.drop + 1 }, p.2)
    | some s => ({ r with head := (r.head + 1) % 2 ^ 29 }, s)

/-- A record for a ring: where records were dropped and space has returned, a KIND 7 record with their number goes first. -/
def ringPut (wr : State → Nat → List Byte → Option State) (dws : List Nat) (gt : Nat) (p : Ring × State) : Ring × State :=
  let r := p.1
  if !r.en then p
  else if r.drop > 0 && !r.full then
    let d0 := setBits (dws.headD 0) 56 8 7
    let q := ringOne wr [d0, 0, gt, r.drop, 0, 0, 0, 0] ({ r with drop := 0 }, p.2)
    if q.1.drop > 0 then ({ q.1 with drop := r.drop + 1 }, q.2) else ringOne wr dws q
  else ringOne wr dws p

/-- The unit that writes a context's records; it is no unit of R290's table, its path has the number 7 here. -/
def recUnit (c : CoreId) (x : CtxId) : UnitId := { core := c, ctx := x, path := 7, chan := 0 }

/-- Writes a record into a ring in key-0 memory (R358): a line of another key takes nothing. -/
def physRing (base : Nat) (c : CoreId) (x : CtxId) (s : State) (off : Nat) (bs : List Byte) : Option State :=
  if s.lineKey (base + off) ≠ 0 then none else some (s.writeMem false (recUnit c x) 0 (base + off) bs)

/-- Writes a record through the tenant's OBSRING, which must be DRAM with W (R358). -/
def tenantRing (w : Nat) (c : CoreId) (x : CtxId) (s : State) (off : Nat) (bs : List Byte) : Option State :=
  match s.dramHandle c x (w + off) 64 false true with
  | none => none
  | some i =>
    match s.writeVa (recUnit c x) none 0 (w + off) (i.base + haddrO (w + off)) bs with
    | (none, s1) => some s1
    | (some _, _) => none

/-- The tenant's ring of a context as ring registers. -/
def Ctx.ring (k : Ctx) : Ring :=
  { base := k.obsring.toNat, en := k.obsEn, lsz := k.obsLsz, tail := k.obsTail, head := k.obsHead, drop := k.obsDrop }

/-- A record put into the ring of recipient `rc` (2 tenant, 1 hypervisor, 0 operator). -/
def State.putRecord (s : State) (c : CoreId) (x : CtxId) (p rc : Nat) (dws : List Nat) : State :=
  let gt := s.gtime
  if rc = 2 then
    let r := ringPut (tenantRing (s.ctx c x).obsring.toNat c x) dws gt ((s.ctx c x).ring, s)
    r.2.modCtx c x fun k => { k with obsHead := r.1.head, obsDrop := r.1.drop }
  else if rc = 1 then
    let r := ringPut (physRing (s.part p).hring.base c x) dws gt ((s.part p).hring, s)
    r.2.modPart p fun q => { q with hring := r.1 }
  else
    let r := ringPut (physRing (s.part p).oring.base c x) dws gt ((s.part p).oring, s)
    r.2.modPart p fun q => { q with oring := r.1 }

/-! ### Records (R357) -/

/-- A field of a record's payload: low bit, width, value, and whether it is identity (R352). -/
structure RecField where
  lo : Nat
  w : Nat
  v : Nat
  ident : Bool
  deriving DecidableEq, Repr

/-- A payload doubleword under a granularity (R352). -/
def payloadDw (g : Nat) (fs : List RecField) : Nat :=
  if g = 1 && fs.any (·.ident) then codeWithheld
  else fs.foldl (fun a (f : RecField) => setBits a f.lo f.w (if f.ident then f.v else blink g 0 f.v)) 0

/-- Doubleword 0 of a record. -/
def recordDw0 (kind p g : Nat) : Nat := kind * 2 ^ 56 + p % 16 * 2 ^ 52 + g * 2 ^ 48

/-- A record of KIND `kind` and class `cls` into each ring of partition `p` whose rule does not withhold it (R357). Under
window sum no record is written: `sum` goes into the window's totals instead (R359, R361). -/
def State.observe (s : State) (c : CoreId) (x : CtxId) (p cls kind name : Nat) (pay : List (List RecField)) (sum : WSum) : State :=
  [2, 1, 0].foldl (fun (t : State) rc =>
    let g := (t.gran p cls rc 0).1
    if g = 0 then t
    else if g = 3 then
      let key : WSum := { sum with rcpt := rc, cls := cls, ctx := if rc = 2 || cls = 5 then 4 * c.val + x.val else 512 }
      let same (w : WSum) : Bool := w.rcpt = key.rcpt && w.cls = key.cls && w.ctx = key.ctx && w.flag = key.flag
      t.modPart p fun q =>
        if q.sums.any same then
          { q with sums := q.sums.map fun w => if same w then { w with a := w.a + sum.a, b := w.b + sum.b, c := w.c + sum.c } else w }
        else { q with sums := q.sums ++ [key] }
    else
      let n := if g = 1 then codeWithheld else name
      let gt := if g = 1 then codeWithheld else t.gtime
      let body := (pay ++ List.replicate (5 - pay.length) []).map (payloadDw g)
      t.putRecord c x p rc ([recordDw0 kind p g, n, gt] ++ body)) s

def WSum.none : WSum := { rcpt := 0, cls := 0, ctx := 0, flag := 0, a := 0, b := 0, c := 0 }

/-- The KIND 2 record of a trap delivery or of a link error (R360, R367). -/
def State.faultRecord (s : State) (c : CoreId) (x : CtxId) (p name cause tag : Nat) (det : Vector Word 4) : State :=
  s.observe c x p 4 2 name
    ([[{ lo := 0, w := 8, v := cause, ident := true }, { lo := 8, w := 4, v := tag, ident := true }]] ++
      (det.toList.map fun d => [{ lo := 0, w := 64, v := d.toNat, ident := false }])) WSum.none

/-- The KIND 1 record of a WAITF (R359). -/
def State.waitRecord (s : State) (c : CoreId) (x : CtxId) (seq cyc flag setter score scope cond gate : Nat) : State :=
  s.observe c x (s.partOf c x) 5 1 (entryName c x 0 seq)
    [[{ lo := 0, w := 64, v := cyc, ident := false }],
     [{ lo := 58, w := 6, v := flag, ident := true }, { lo := 54, w := 4, v := setter, ident := true },
      { lo := 47, w := 7, v := score, ident := true }, { lo := 45, w := 2, v := scope, ident := true },
      { lo := 43, w := 2, v := cond, ident := true }, { lo := 37, w := 6, v := gate, ident := true }]]
    { WSum.none with flag := flag, a := 1, b := cyc }

/-- The KIND 3 record of a sampled cursor (R361). -/
def State.sampleRecord (s : State) (c : CoreId) (x : CtxId) (tag seq hold : Nat) : State :=
  s.observe c x (s.partOf c x) 3 3 (entryName c x tag seq) [[{ lo := 0, w := 64, v := hold, ident := true }]]
    { WSum.none with a := 1 }

/-- The KIND 4 (dispatch) or KIND 5 (exit) record of the dispatcher (R361). -/
def State.taskRecord (s : State) (c : CoreId) (x : CtxId) (p kind task : Nat) : State :=
  s.observe c x p 3 kind (entryName c x 0 0)
    [[{ lo := 0, w := 64, v := task, ident := true }],
     [{ lo := 0, w := 7, v := c.val, ident := true }, { lo := 7, w := 2, v := x.val, ident := true }]]
    (if kind = 4 then { WSum.none with b := 1 } else { WSum.none with c := 1 })

end Sys2Proof.Machine
end

