-- ==== Sys2Proof/Machine/Tasks.lean ====
section
/-! DEFINITION. Sys2Proof/Machine/Tasks.lean: the graph dispatcher's tables: reports, futures, the command log, submission,
and how a context returns to EMPTY (R302 to R317, R346). -/

namespace Sys2Proof.Machine

/-! ### Access to the tables -/

/-- Dispatcher registers of a partition. -/
def State.dp (s : State) (p : Nat) : DispPart := vget s.disp.parts p DispPart.reset

/-- The state with a partition's dispatcher registers changed. -/
def State.modDp (s : State) (p : Nat) (f : DispPart → DispPart) : State :=
  { s with disp := { s.disp with parts := vmod s.disp.parts p f } }

/-- A task by partition and number. -/
def State.task? (s : State) (p num : Nat) : Option Task := s.disp.tasks.find? fun t => t.part = p && t.num = num

/-- The state with a task changed. -/
def State.modTask (s : State) (p num : Nat) (f : Task → Task) : State :=
  { s with disp := { s.disp with tasks := s.disp.tasks.map fun t => if t.part = p && t.num = num then f t else t } }

/-- A live future by partition and number (R318). -/
def State.fut? (s : State) (p num : Nat) : Option Future := s.disp.futs.find? fun f => f.part = p && f.num = num

/-- The state with a future changed. -/
def State.modFut (s : State) (p num : Nat) (g : Future → Future) : State :=
  { s with disp := { s.disp with futs := s.disp.futs.map fun f => if f.part = p && f.num = num then g f else f } }

/-- The number of the task a context holds, 0 for none. -/
def State.taskNum (s : State) (c : CoreId) (x : CtxId) : Nat := ((s.ctx c x).task).getD 0

/-! ### Reports (R317) -/

/-- A dispatcher report made pending in a context; bit 63 marks lost reports. -/
def State.pendReport (s : State) (c : CoreId) (x : CtxId) (w : Word) : State :=
  s.modCtx c x fun k => k.pend s.cycle 0x15 0 1 #v[w, 0, 0, 0]

/-- The next report delivered after a loss carries bit 63; the mark is spent. -/
def State.lossMark (s : State) (p code : Nat) : Word × State :=
  (BitVec.ofNat 64 (b2n ((s.dp p).lost || code.testBit 63) * 2 ^ 63 + code % 2 ^ 63), s.modDp p fun d => { d with lost := false })

/-- A report for the partition's home context: pending there when it runs a task that is not DRAINING and nothing is held;
otherwise held, at most sixteen. -/
def State.homeReport (s : State) (p code : Nat) : State :=
  let q := s.part p
  let k := s.ctx q.hcore q.hctx
  if k.phase ≠ .empty && !k.draining && s.partOf q.hcore q.hctx = p && (s.dp p).reports.isEmpty then
    let r := s.lossMark p code
    r.2.pendReport q.hcore q.hctx r.1
  else if (s.dp p).reports.length < 16 then s.modDp p fun d => { d with reports := d.reports ++ [BitVec.ofNat 64 code] }
  else s.modDp p fun d => { d with lost := true }

/-- A report: to the context that caused it, or to the home context (R317). -/
def State.report (s : State) (p code : Nat) (dest : Option (CoreId × CtxId)) : State :=
  match dest with
  | some (c, x) =>
    let k := s.ctx c x
    if k.phase ≠ .empty && !k.draining then s.pendReport c x (BitVec.ofNat 64 code) else s.homeReport p code
  | none => s.homeReport p code

/-- The oldest held report becomes pending in the home context (R317: at dispatch into it, and at the ERET of a report's
handler). -/
def State.heldReport (s : State) (c : CoreId) (x : CtxId) : State :=
  let p := s.partOf c x
  let q := s.part p
  if q.hcore = c && q.hctx = x then
    match (s.dp p).reports with
    | [] => s
    | r :: rest =>
      let m := (s.modDp p fun d => { d with reports := rest }).lossMark p r.toNat
      m.2.pendReport c x m.1
  else s

/-! ### The command log (R346) -/

/-- One 128-byte entry appended to the log of a logging partition: KIND, ISSUER, TASK, ARG, DIGEST and the descriptor. -/
def State.logAppend (s : State) (p kind issuer task : Nat) (arg : Word) (digest desc : List Byte) : State :=
  let q := s.part p
  if !q.log then s
  else if q.lastCkpt = some q.loghead then
    { (s.modPart p fun q => { q with log := false }) with mg := { (s.modPart p fun q => { q with log := false }).mg with err := 4 } }
  else
    let pad (n : Nat) (b : List Byte) := (b ++ List.replicate n 0).take n
    let bytes := leBytes 8 (kind * 2 ^ 56 + issuer % 2 ^ 24 * 2 ^ 32 + task % 2 ^ 32) ++ leBytes 8 arg.toNat ++ pad 16 digest ++
      pad 64 desc ++ List.replicate 32 0
    let at_ := (q.logbase + q.loghead) % 2 ^ 38
    let s1 := if s.lineKey at_ = 0 && s.lineKey (at_ + 64) = 0 then s.writeMem false (recUnit q.hcore q.hctx) 0 at_ bytes else s
    s1.modPart p fun q => { q with
      loghead := if q.logsize = 0 then 0 else (q.loghead + 128) % q.logsize
      lastCkpt := if kind = 1 then some q.loghead else q.lastCkpt }

/-! ### Replay (R347) -/

/-- One entry of a command log. -/
structure LogEntry where
  kind : Nat
  issuer : Nat
  task : Nat
  arg : Word
  digest : List Byte
  desc : List Byte
  deriving DecidableEq, Repr

/-- The entry at an offset of a partition's log. -/
def State.logEntry (s : State) (p off : Nat) : LogEntry :=
  let bs := (List.range 96).map fun i => s.byte (((s.part p).logbase + off + i) % 2 ^ 38)
  let d0 := leNat (bs.take 8)
  { kind := bits d0 56 8, issuer := bits d0 32 24, task := bits d0 0 32, arg := BitVec.ofNat 64 (leNat ((bs.drop 8).take 8)),
    digest := (bs.drop 16).take 16, desc := (bs.drop 32).take 64 }

/-- The offset after an entry; the log wraps. -/
def Part.logNext (q : Part) (off : Nat) : Nat := if q.logsize = 0 then 0 else (off + 128) % q.logsize

/-- Offsets of the entries from `off` to LOGHEAD. -/
def Part.logFrom (q : Part) : Nat → Nat → List Nat
  | 0, _ => []
  | n + 1, off => if off = q.loghead then [] else off :: q.logFrom n (q.logNext off)

/-- Replay halts (R347): ERR 3 with its CAUSE and the task number. -/
def State.replayStop (s : State) (p cause task : Nat) : State :=
  let s1 := s.modPart p fun q => { q with replay := none, replayHalt := true }
  { s1 with mg := { s1.mg with err := 3, causeCode := cause, detail := task, running := if s1.mg.running = 0 then 0 else 3 } }

/-- The entries that replay has still to apply, in order. -/
def State.replayRest (s : State) (p : Nat) : List LogEntry :=
  match (s.part p).replay with
  | some pos => ((s.part p).logFrom ((s.part p).logsize / 128) pos).map (s.logEntry p)
  | none => []

/-- A replayed operation of task `issuer` takes effect in its entry's place, so it waits while an entry of another issuer stands
before its own. -/
def State.opWaits (s : State) (p issuer : Nat) : Bool :=
  match s.replayRest p with
  | [] => false
  | e :: rest => e.issuer ≠ issuer && rest.any fun f => f.issuer = issuer

/-- The next entry has been applied. -/
def State.replayPast (s : State) (p : Nat) : State :=
  s.modPart p fun q => match q.replay with
    | some pos => { q with replay := if q.logNext pos = q.loghead then none else some (q.logNext pos) }
    | none => q

/-- An operation of a partition enters its log (R346), or under replay is compared with the log's next entry (R347): `false` when
replay halts there, and then the operation has no effect. -/
def State.dispLog (s : State) (p kind issuer task : Nat) (arg : Word) (digest desc : List Byte) : Bool × State :=
  match (s.part p).replay with
  | none => (true, if (s.part p).replayHalt then s else s.logAppend p kind issuer task arg digest desc)
  | some _ =>
    match s.replayRest p with
    | [] => (false, s.replayStop p 2 issuer)
    | e :: _ =>
      if e.kind = 8 then (false, s.replayStop p 3 issuer)
      else if e.kind ≠ kind || e.issuer ≠ issuer || e.arg ≠ arg || (kind = 2 && e.desc ≠ desc) ||
          ((kind = 3 || kind = 4) && e.task ≠ task) then (false, s.replayStop p 2 issuer)
      else if kind = 7 && e.digest ≠ digest then (false, s.replayStop p 1 issuer)
      else (true, s.replayPast p)

/-! ### Tasks and futures -/

/-- A task returns to or enters READY at a level, as the newest task there (R309, R312). -/
def State.makeReady (s : State) (p num level : Nat) : State :=
  let s1 := s.modTask p num fun t => { t with phase := .ready, level := level, since := s.cycle, order := s.disp.nextOrder }
  { s1 with disp := { s1.disp with nextOrder := s1.disp.nextOrder + 1, select := true } }

/-- A continuation's count goes down by one; at 0 it enters the ready pool (R305). -/
def State.countDown (s : State) (p num : Nat) : State :=
  match s.task? p num with
  | none => s
  | some t =>
    if t.phase ≠ .pending then s
    else
      let s1 := s.modTask p num fun t => { t with count := t.count - 1 }
      if t.count ≤ 1 then s1.makeReady p num t.prio else s1

/-- A resolution (R305): the waiters count down in attach order; a second resolution is FUT_TWICE. No resolution sets EVT: when the
dispatcher directs a future notification to a context (R106) the spec does not say, and the model takes it as an input (assumption log 51). -/
def State.resolve (s : State) (p num : Nat) (v : Word) (dest : Option (CoreId × CtxId)) : State :=
  match s.fut? p num with
  | none => s.report p 2 dest
  | some f =>
    if f.state = 2 then s.report p 1 dest
    else
      let s1 := s.modFut p num fun f => { f with state := 2, value := v, waiters := [] }
      f.waiters.foldl (fun (t : State) w => t.countDown p w) s1

/-- A future's state word, doubleword 0 (R304). -/
def Future.dw0 (f : Future) : Nat :=
  f.state % 4 * 2 ^ 62 + f.part % 16 * 2 ^ 56 + f.waiters.length % 2 ^ 16 * 2 ^ 40 + f.waiters.headD 0 % 2 ^ 32

/-- A future handle is well formed for a partition (R302, R318). -/
def futOk (p : Nat) (w : Word) : Bool := bits w.toNat 36 28 = 0 && bits w.toNat 32 4 = p

/-- The number a future handle names. -/
def futNum (w : Word) : Nat := bits w.toNat 0 32

/-- Doubleword `i` of a byte image. -/
def imgDw (bs : List Byte) (i : Nat) : Nat := leNat ((bs.drop (8 * i)).take 8)

/-- Declared operand `i` of a descriptor: its 24 bits (R306). -/
def descOp (bs : List Byte) (i : Nat) : Nat := leNat ((bs.drop (40 + 3 * i)).take 3)

/-- The cores a descriptor's task may be pinned to: GMASK's positions on GDIE; none means any core (R306). -/
def gcores (gdie gmask : Nat) : List Nat :=
  if gmask = 0 then [] else (setBitsOf 16 gmask).map fun i => 16 * gdie + i

/-- A context of core `c` belongs to partition `p` and its grant holds every engine in NEED (R308, R310). -/
def State.ctxSuits (s : State) (c : CoreId) (x : CtxId) (p need : Nat) : Bool :=
  let g := s.grant c x
  g.v && g.part = p && need &&& g.eng = need

/-- The checks of R308 that depend on the descriptor and on the tables, for a submitter in context `(c, x)`. -/
def State.descOk (s : State) (c : CoreId) (x : CtxId) (p : Nat) (bs : List Byte) (byFatt : Bool) : Bool :=
  let d0 := imgDw bs 0; let launch := imgDw bs 1; let d3 := imgDw bs 3; let fut := imgDw bs 4
  let nops := bits d3 44 4; let waits := bits d3 48 4; let need := bits d3 52 6
  let ops := (List.range 8).map (descOp bs)
  let cores := gcores (bits d3 41 3) (bits d3 25 16)
  let onCore (i : Fin 128) : Bool := (cores.isEmpty || cores.contains i.val) &&
    (List.finRange 4).any fun y => s.ctxSuits i y p need
  let opOk (o : Nat) : Bool := match (s.handle c x (bits o 0 12)).1 with
    | .bound i => i.kind = 1 && bits o 12 2 ≠ 0 && (!(bits o 12 1 = 1) || i.rd) && (!(bits o 13 1 = 1) || i.w)
    | _ => false
  bits d3 0 25 = 0 && ops.all (fun o => bits o 14 10 = 0) && bits d0 0 3 = 0 &&
  (match (s.handle c x (bits d0 48 16)).1 with | .bound i => i.kind = 1 && i.tx | _ => false) && bits d3 60 4 = p && nops ≤ 8 && (ops.take nops).all opOk &&
  (List.finRange 128).any onCore &&
  (fut = 0 || (futOk p (BitVec.ofNat 64 fut) && (s.fut? p (fut % 2 ^ 32)).isSome)) &&
  (launch = 0 || (s.dramHandle c x launch 256 true false).isSome) &&
  (if byFatt then 1 ≤ waits && waits ≤ 8 else waits = 0)

/-- Tasks that count against the pool (R313). -/
def State.poolUse (s : State) (p : Nat) : Nat :=
  (s.disp.tasks.filter fun t => t.part = p && (t.phase = .pending || t.phase = .ready || t.phase = .running || t.phase = .draining)).length

/-- The accepted task of a descriptor. -/
def taskOf (p num : Nat) (bs : List Byte) (addr : Word) (issuer : Nat) (byFatt : Bool) : Task :=
  let d0 := imgDw bs 0; let d3 := imgDw bs 3
  { part := p, num := num, phase := .pending, level := bits d3 58 2, since := 0, order := 0, text := bits d0 48 16,
    entry := bits d0 0 48, launch := BitVec.ofNat 64 (imgDw bs 1), nextDesc := BitVec.ofNat 64 (imgDw bs 2), prio := bits d3 58 2,
    need := bits d3 52 6, waits := bits d3 48 4, att := 0, count := if byFatt then bits d3 48 4 else 0, nops := bits d3 44 4,
    gdie := bits d3 41 3, gmask := bits d3 25 16, fut := BitVec.ofNat 64 (imgDw bs 4),
    ops := (List.range (bits d3 44 4)).map fun i => (bits (descOp bs i) 0 12, bits (descOp bs i) 12 2), addr := addr,
    requeues := 0, members := Nat.max 1 (popcount 16 (bits d3 25 16)), drained := 0, issuer := issuer, desc := bs }

/-- The unit of the control core's accesses. -/
def ctlUnit (c : CoreId) (x : CtxId) : UnitId := { core := c, ctx := x, path := 0, chan := 0 }

/-- The 64-byte descriptor at a handle address, as the dispatcher reads it on the CTL path (R306); `none` when the address is
not 64-byte aligned, not readable DRAM, or does not translate. -/
def State.readImage (s : State) (c : CoreId) (x : CtxId) (addr : Word) (n align : Nat) : Option (List Byte) × State :=
  if addr.toNat % align ≠ 0 then (none, s)
  else match s.dramHandle c x addr.toNat n true false with
    | none => (none, s)
    | some i =>
      match s.readVa (ctlUnit c x) none 0 s.acqNow true addr.toNat (i.base + haddrO addr.toNat) n with
      | (.ok bs, s1) => (some bs, s1)
      | (.error _, s1) => (none, s1)

/-- Submission of a descriptor image (R308, R346): the new task's number; 0 when refused, with report 5 unless the pool is
full. A submission that is ready enters the ready pool. -/
def State.submitImage (s : State) (c : CoreId) (x : CtxId) (p : Nat) (bs : List Byte) (addr : Word) (byFatt : Bool) (issuer : Nat)
    (dest : Option (CoreId × CtxId)) : Nat × State :=
  if !s.descOk c x p bs byFatt then (0, s.report p 5 dest)
  else if s.poolUse p ≥ (s.dp p).pool then (0, s)
  else
    let num := (s.dp p).nextTask
    let t := taskOf p num bs addr issuer byFatt
    match s.dispLog p 2 issuer num 0 [] bs with
    | (false, s1) => (0, s1)
    | (true, s0) =>
      let s1 := s0.modDp p fun d => { d with nextTask := d.nextTask + 1 }
      let s2 := { s1 with disp := { s1.disp with tasks := s1.disp.tasks ++ [t] } }
      (num, if byFatt then s2 else s2.makeReady p num t.prio)

/-- Submission through a descriptor's handle address. -/
def State.submit (s : State) (c : CoreId) (x : CtxId) (p : Nat) (addr : Word) (byFatt : Bool) (issuer : Nat)
    (dest : Option (CoreId × CtxId)) : Nat × State :=
  match s.readImage c x addr 64 64 with
  | (none, s1) => (0, s1.report p 5 dest)
  | (some bs, s1) => s1.submitImage c x p bs addr byFatt issuer dest

/-! ### A context returns to EMPTY -/

/-- What the engines of a context still had in flight is discarded (R315, R316). -/
def Core.dropWork (k : Core) (x : CtxId) : Core :=
  { k with
    vpend := k.vpend.filter fun (v : VPend) => v.ctx ≠ x
    mtx := k.mtx.filter fun (m : MCmd) => m.ctx ≠ x
    sae := k.sae.filter fun (a : ACmd) => a.ctx ≠ x
    upds := k.upds.filter fun (u : FlagUpd) => !(u.ctx = x && u.key < 7)
    fcmd := match k.fcmd with | some f => if f.ctx = x then none else some f | none => none
    walkers := k.walkers.map fun (w : Walker) => { w with cmds := w.cmds.filter fun (m : WCmd) => m.ctx ≠ x }
    chans := k.chans.map fun (c : Channel) => { c with cmds := c.cmds.filter fun (m : CCmd) => m.ctx ≠ x }
    keyFaults := k.keyFaults.filter fun p => p.1 ≠ x }

/-- Host DMA channels that copy commands of a context hold are freed (R340). -/
def State.freeDma (s : State) (c : CoreId) (x : CtxId) : State :=
  let mine (ch : ChNo) : Bool := (((s.core c).chans[ch]).cmds).any fun m => m.ctx = x
  { s with host := { s.host with dma := s.host.dma.map fun d => match d with
      | some h => (match h.core with | some (c', ch) => if c' = c && mine ch then none else some h | none => some h)
      | none => none } }

/-- A context becomes EMPTY (R271, R315): nothing of it runs, its watches go (R328), its undelivered reports wait for the home
context (R317), doorbells stay pending (R261, R368), and the dispatcher selects again (R311). -/
def State.emptyCtx (s : State) (c : CoreId) (x : CtxId) : State :=
  let p := s.partOf c x
  let k := s.ctx c x
  let reports := k.pending.filter fun r => r.cause = 0x15
  let s1 := (s.freeDma c x).modCore c fun k => k.dropWork x
  let s2 := s1.modCore c fun k => { k with ctxs := k.ctxs.map fun (y : Ctx) => { y with preempting := y.preempting.filter (· ≠ x) } }
  let s3 := s2.modCtx c x fun k => { k with
    phase := .empty, stream := [], fork := none, stop := none, bracket := none, deferred := [], bracketWait := none,
    preempting := [], pending := k.pending.filter fun (r : TrapRec) => r.cause = 0x13, loads := [], stores := [], replies := [], accesses := [], watches := [], pendWatch := [],
    busy := [], fences := [], waitFrom := none, wfeFrom := none, owedFur := none, task := none, draining := false, held := 0, walk := Walk.reset }
  let s4 := { s3 with
    col := { s3.col with ops := s3.col.ops.map fun (o : ColOp) => if o.core = c && o.ctx = x then { o with task := none } else o }
    disp := { s3.disp with select := true } }
  let words := reports.map fun r => r.det.toList.headD 0
  let q := s.part p
  if q.hcore = c && q.hctx = x then
    -- they arrived before every report that is held now
    s4.modDp p fun d => { d with reports := (words ++ d.reports).take 16, lost := d.lost || (words ++ d.reports).length > 16 }
  else words.foldl (fun (t : State) w => t.homeReport p w.toNat) s4

/-- A task becomes FAILED: report 6 goes to the home context (R308, R316). -/
def State.failTask (s : State) (p num : Nat) : State :=
  (s.modTask p num fun t => { t with phase := .failed }).homeReport p 6

/-- The contexts that hold a member of a task. -/
def State.membersOf (s : State) (p num : Nat) : List (CoreId × CtxId) :=
  (List.finRange 128).flatMap fun c => (List.finRange 4).filterMap fun x =>
    if s.partOf c x = p && (s.ctx c x).task = some num && (s.ctx c x).phase ≠ .empty then some (c, x) else none

/-- SCTL REQUEUE, a translation fault at PL 0 or a soft error (R233, R316): the whole task, with every member, returns to READY
from its entry; the sixteenth request makes it FAILED. -/
def State.requeueCtx (s : State) (c : CoreId) (x : CtxId) : State :=
  let p := s.partOf c x
  match (s.ctx c x).task with
  | none => s.emptyCtx c x
  | some num =>
    let s1 := ((s.membersOf p num).foldl (fun (t : State) m => t.emptyCtx m.1 m.2) s).emptyCtx c x
    match s1.task? p num with
    | none => s1
    | some t =>
      if t.requeues ≥ 15 then s1.failTask p num
      else (s1.modTask p num fun t => { t with requeues := t.requeues + 1, drained := 0 }).makeReady p num t.prio

/-- SCTL ABORT (R274, R309): the task is FAILED and the context EMPTY. The other members of a group are discarded with it. -/
def State.abortCtx (s : State) (c : CoreId) (x : CtxId) : State :=
  let p := s.partOf c x
  match (s.ctx c x).task with
  | none => s.emptyCtx c x
  | some num =>
    (((s.membersOf p num).foldl (fun (t : State) m => t.emptyCtx m.1 m.2) s).emptyCtx c x).failTask p num

end Sys2Proof.Machine
end

