-- ==== Sys2Proof/Machine/Ops.lean ====
section
/-! DEFINITION. Sys2Proof/Machine/Ops.lean: the shared operations of every meaning: raising a trap (R75 to R77, R260 to R262),
accepting and recording a stop with its cut (R263 to R266), delivering a trap (R261, R267, R268), the return (R270), and the
checks that many words share. -/

namespace Sys2Proof.Machine

/-! ### Where a cursor stands -/

/-- The entry of the stream at a dynamic index. -/
def Ctx.entryAt (k : Ctx) (i : Nat) : Option SEntry := k.stream.find? fun e => e.idx = i

/-- The next sequence number a tag takes at or after index `i`. -/
def Ctx.seqAt (k : Ctx) (t : Tag) (i : Nat) : Nat :=
  match k.stream.find? fun e => e.own = some t && i ≤ e.idx && !e.issued with
  | some e => e.seq
  | none => k.walk.seqs.get (Fin.ofNat 7 (tagNum t))

/-- The cut at a stream entry. -/
def SEntry.cut (e : SEntry) (t : Tag) (seq : Nat) : CutEntry :=
  { seq := seq, idx := e.idx, pc := e.pc, valid := true, took := e.own = some t, loops := e.loops, stage := e.stage }

/-- The cut of a cursor (R263, R264): the oldest unissued word in its queue, else the word it fetches next; after a completed
clamp (R53) the LOOP word with the saved loop state; for an engine outside the fork set its next number alone. -/
def Ctx.cutOf (k : Ctx) (t : Tag) (clamped : Bool) (fixed : List (Nat × CutEntry)) : CutEntry :=
  match fixed.find? fun p => p.1 = tagNum t with
  | some p => p.2
  | none =>
    let c := k.cursor t
    if !c.member || (k.fork.isNone && t ≠ .ctl) then
      { seq := match k.owedFur with
          | some e => if t = .fur then e.seq else k.walk.seqs.get (Fin.ofNat 7 (tagNum t))
          | none => k.walk.seqs.get (Fin.ofNat 7 (tagNum t))
        idx := 0, pc := 0, valid := false, took := false, loops := [], stage := 0 }
    else match k.head t with
    | some e => e.cut t e.seq
    | none =>
      if clamped && !c.stopped then
        match k.walk.loops with
        | l :: _ => { seq := k.walk.seqs.get (Fin.ofNat 7 (tagNum t)), idx := k.walk.idx, pc := l.pc, valid := true, took := false,
                      loops := k.walk.loops, stage := l.stageOut }
        | [] => { seq := k.seqAt t c.next, idx := c.next, pc := k.walk.pc, valid := true, took := false, loops := [], stage := 0 }
      else match k.entryAt c.next with
        | some e => e.cut t (k.seqAt t c.next)
        | none => { seq := k.seqAt t c.next, idx := c.next, pc := k.walk.pc, valid := true, took := false, loops := k.walk.loops,
                    stage := k.walk.stage }

/-- The cut of a whole context (R264). -/
def Ctx.theCut (k : Ctx) (st : Stop) : Cut :=
  { ents := Vector.ofFn fun i : Fin 7 =>
      k.cutOf (allTags.getD i.val .ctl) (st.clamp && st.traps.isEmpty) st.cuts
    fork := k.fork, slip := k.slip, text := k.text, fences := k.fences }

/-! ### Accepting a stop (R263) -/

/-- The copy words of a context that a translation fault of the word with index `i` cuts off: that word and the later ones. -/
def CCmd.cutOff (m : CCmd) (x : CtxId) (epoch i : Nat) : Bool := m.ctx = x && m.epoch = epoch && i ≤ m.ent.idx

/-- Bytes of ABUF, as spans (first byte, number), become undefined: free values from number `fresh` on. -/
def Core.freeSpans (k : Core) (fresh : Nat) (l : List (Nat × Nat)) : Core :=
  (l.foldl (fun (a : Core × Nat) p =>
    (a.1.setBufBytes 1 p.1 ((List.range p.2).map fun i => Config.free 8 (a.2 + i)), a.2 + p.2)) (k, fresh)).1

/-- How many bytes spans cover. -/
def spanBytes (l : List (Nat × Nat)) : Nat := l.foldl (fun n p => n + p.2) 0

/-- A FUR word in execution is rolled back (R238, R246): the coder's shadow comes back, FULL and a failed slot's VALID excepted
by their own rules, and the bytes it could write are free values. -/
def Core.rollFur (k : Core) (f : FCmd) (fresh : Nat) : Core :=
  { k with furs := f.shFur, tabs := f.shTab, marks := f.shMark, fcmd := none }.freeSpans fresh f.spoil

/-- The FUR word of a context in execution. -/
def State.furOf (s : State) (c : CoreId) (x : CtxId) : Option FCmd :=
  match (s.core c).fcmd with
  | some f => if f.ctx = x then some f else none
  | none => none

/-- A FUR word in execution is rolled back for a stop: the coder, the word's range-checker entry; and where its fork set has ended, the word
itself stays owed (R246, R270). -/
def State.rollFurOf (s : State) (c : CoreId) (x : CtxId) (f : FCmd) : State :=
  ((s.modCore c fun k => k.rollFur f s.fresh).skipFresh (spanBytes f.spoil)).modCtx c x fun k => { k with
    accesses := k.accesses.filter fun a => !(a.unit = 11 && a.epoch = f.epoch && a.idx = f.ent.idx)
    owedFur := if f.epoch = k.epoch && k.fork.isSome then k.owedFur else some { f.ent with issued := false } }

/-- The cut of a FUR word that is rolled back: its own number; it is fetched again where its fork set is active. -/
def Ctx.furCut (k : Ctx) (f : FCmd) : Nat × CutEntry :=
  (6, { f.ent.cut .fur f.ent.seq with valid := f.epoch = k.epoch && k.fork.isSome })

/-- A stop of a context is accepted in this cycle (R263): it goes to STOPPING; a FUR word in execution is rolled back and cut at its own
number, unless clamped passes are still to run (R53), in which it completes; a held WAITF or WFE leaves no trace (R98). -/
def State.beginStop (s : State) (c : CoreId) (x : CtxId) (traps : List TrapRec) (clamp forced : Bool) (cuts : List (Nat × CutEntry)) :
    State :=
  let k := s.ctx c x
  let rolled : Option FCmd := if clamp then none else s.furOf c x
  let furCut := match rolled with
    | some f => [k.furCut f]
    | none => []
  let s1 := match rolled with
    | some f => s.rollFurOf c x f
    | none => s
  s1.modCtx c x fun k => { k with
    phase := .stopping, waitFrom := none, wfeFrom := none
    stop := some { at_ := s.cycle, traps := traps, clamp := clamp, forced := forced, fromHandler := k.phase = .handler,
                   cuts := cuts ++ furCut } }

/-- A loop as it was before the clamp of R53. -/
def Loop.unclamp (l : Loop) : Loop :=
  if l.clamped then { l with n := l.origN, e := if l.origN > l.i then l.origN + l.s - 2 else l.i, iNext := 0, clamped := false } else l

/-- A context whose loops are no longer clamped: a synchronous trap was raised in the cycle of the stop (R263). -/
def Ctx.unclamp (k : Ctx) : Ctx :=
  { k with walk := { k.walk with loops := k.walk.loops.map Loop.unclamp }
           stream := k.stream.map fun (e : SEntry) => { e with loops := e.loops.map Loop.unclamp } }

/-- A synchronous trap of a word of cursor `t` (R76, R261 to R263): the stop is accepted with it, or it joins the stop that is
being drained, whose members then stop at once. A context that no longer runs raises nothing. -/
def State.raiseAt (s : State) (c : CoreId) (x : CtxId) (r : TrapRec) (cuts : List (Nat × CutEntry)) : State :=
  let k := s.ctx c x
  let r := { r with at_ := s.cycle }
  match k.stop with
  | some st =>
    let rolled : Option FCmd := if st.clamp then s.furOf c x else none
    let furCut := match rolled with
      | some f => [k.furCut f]
      | none => []
    let s1 := match rolled with
      | some f => s.rollFurOf c x f
      | none => s
    s1.modCtx c x fun k =>
      { (if st.clamp && st.at_ = s.cycle then k.unclamp else k) with
        stop := some { st with traps := st.traps ++ [r], clamp := false, cuts := cuts ++ furCut ++ st.cuts } }
  | none => if k.phase = .running || k.phase = .handler then s.beginStop c x [r] false false cuts else s

/-- The running word raises a synchronous trap and takes no effect (R76); `sub` is its detail. -/
def State.raise (s : State) (cause code level : Nat) (det : Vector Word 4) : State :=
  s.raiseAt s.cur.core s.cur.ctx
    { async := false, cause := cause, code := code, tag := tagNum s.cur.tag, seq := s.curSeq, level := level, park := false,
      det := det } []

/-- The operand-range trap of the running word (R77, R269). -/
def State.trapRange (s : State) : State := s.raise 0x02 0 1 #v[BitVec.ofNat 64 s.curIdx, s.curWord, 0, 0]

/-- The divide trap of the running word (R84). -/
def State.trapDivide (s : State) : State := s.raise 0x03 0 1 #v[BitVec.ofNat 64 s.curIdx, s.curWord, 0, 0]

/-- The FUR_EMPTY trap of the running word (R253, R255). -/
def State.trapFurEmpty (s : State) (fn : Nat) : State :=
  s.raise 0x04 0 1 #v[BitVec.ofNat 64 s.curIdx, s.curWord, BitVec.ofNat 64 fn, 0]

/-- The translation trap of the running word (R231, R232); where the walk starts anew (R235) the word waits. -/
def State.trapXlate (s : State) (haddr : Nat) (f : XFault) (path : Nat) : State :=
  if f.cls = 0 then s else s.raise (xCause f) 0 f.cls (xDetail haddr f path 0 0)

/-- The trap of a word that may not issue because of one of its handles (R77, R231): the translation trap of a handle-table fetch that
fails, else the operand-range trap. -/
def State.trapHandles (s : State) (ws : List Nat) (path : Nat) (wr : Bool) : State :=
  match s.handleFault s.cur.core s.cur.ctx ws path wr with
  | some q => s.trapXlate q.1 q.2 path
  | none => s.trapRange

/-! ### Recording a stop (R263 to R266) -/

/-- A started plain copy stands inside a 4 KiB chunk, or a command has finished its granules and owes its completion (R221). -/
def CCmd.busy (m : CCmd) : Bool := (m.phase = 0 && m.done % 64 ≠ 0 && !m.transforming) || m.phase ≠ 0

/-- Every cursor of a clamped loop has left its last pass (R53). -/
def Ctx.clampDone (k : Ctx) : Bool :=
  k.walk.halted && allTags.all fun t =>
    let c := k.cursor t
    !c.member || ((c.stopped || c.next ≥ k.walk.idx) && (k.head t).isNone)

/-- Every SCTL PREEMPT of context `x` has had its target's stop accepted (R374). -/
def Core.preemptsTaken (q : Core) (x : CtxId) : Bool :=
  (q.ctx x).preempting.all fun y => (q.ctx y).phase = .stopping || (q.ctx y).phase = .empty

/-- Everything the context has issued before its cut is complete (R47, R263, R374). -/
def State.drained (s : State) (c : CoreId) (x : CtxId) (st : Stop) : Bool :=
  let q := s.core c
  let k := q.ctx x
  k.loads.isEmpty && k.replies.isEmpty && k.stores.isEmpty && !k.tlbiOpen s.cycle &&
  q.preemptsTaken x && (q.vpend.all fun v => v.ctx ≠ x) && (q.mtx.all fun m => m.ctx ≠ x) && (q.sae.all fun a => a.ctx ≠ x) &&
  (match q.fcmd with | some f => f.ctx ≠ x | none => true) &&
  (q.walkers.toList.all fun w => w.cmds.all fun m => m.ctx ≠ x || m.fly.isEmpty) &&
  (q.chans.toList.all fun ch => ch.cmds.all fun m => m.ctx ≠ x || !m.busy) &&
  (!(st.clamp && st.traps.isEmpty) || k.clampDone)

/-- R262's order among pending asynchronous traps. -/
def asyncRank (cause : Nat) : Nat :=
  if cause = 0x11 then 0 else if cause = 0x0A then 1 else if cause = 0x10 then 2 else if cause = 0x15 then 3 else 4

/-- The pending asynchronous trap that is delivered next at privilege level `pl`: the first in R262's order, the oldest of its
kind, among those whose level lies above `pl` (R261). -/
def Ctx.nextAsync (k : Ctx) : Option TrapRec :=
  let ok := k.pending.filter fun r => r.level > k.pl
  (List.range 5).foldl (fun (a : Option TrapRec) n => match a with
    | some r => some r
    | none => ok.find? fun r => asyncRank r.cause = n) none

/-- A pending trap that an open bracket defers (R277): a level-2 pre-emption, while BCLOSE has not issued. `d` says whether the
context's stops are deferred. -/
def deferredTrap (d : Bool) (r : TrapRec) : Bool := d && r.cause = 0x10 && r.level = 2

/-- Whether an open bracket of this core defers pre-emptions of context `x`: its own, or one that names it (R277). -/
def Core.defers (q : Core) (x : CtxId) : Bool :=
  (q.ctx x).bracket.isSome || (List.finRange 4).any fun y =>
    (q.ctx y).bracket.isSome && (q.ctx y).deferred.any fun d => match d with
      | .cload _ z => z = x | .preempt _ z => z = x | .resume z => z = x | .requeue z => z = x | .abort z => z = x
      | .doorbell _ z => z = x

/-- The asynchronous trap for which a stop would be accepted now (R263). -/
def State.deliverable (s : State) (c : CoreId) (x : CtxId) : Option TrapRec :=
  let q := s.core c
  let k := q.ctx x
  ({ k with pending := k.pending.filter fun r => !deferredTrap (q.defers x) r }).nextAsync

/-! ### Delivery (R261, R267, R268) -/

/-- A trap bank of a level (R267). -/
def Ctx.bankAt (k : Ctx) (l : Nat) : Bank := vget k.bank (l - 1) Bank.reset

/-- A context with the bank of a level changed. -/
def Ctx.modBank (k : Ctx) (l : Nat) (f : Bank → Bank) : Ctx := { k with bank := vmod k.bank (l - 1) f }

/-- TRAPVEC of a level names text (R268). -/
def State.vecOk (s : State) (c : CoreId) (x : CtxId) (l : Nat) : Bool :=
  let v := ((s.ctx c x).bankAt l).vec.toNat
  s.textHandleOk c x (bits v 48 16) (bits v 0 48)

/-- The bank that holds a delivered or parked trap (R262, R267). -/
def Bank.take (b : Bank) (k : Ctx) (cut : Cut) (traps : List TrapRec) : Bank :=
  let e := cut.ents[0]
  { b with pc := BitVec.ofNat 64 (cut.text * 2 ^ 48 + e.pc % 2 ^ 48), valid := true, ovf := traps.length > 8, tsel := 0, didx := 0,
           pl := k.pl, skip := false, traps := traps.take 8, cut := some cut }

/-- The control cursor of a handler or of a dispatched task stands alone at a text offset: nothing fetched, no loop, no fork
set (R261, R313). The CTL numbering goes on from `seqs`. -/
def Ctx.enterText (k : Ctx) (text pc cycle : Nat) (seqs : Vector Nat 7) : Ctx :=
  { k with
    text := text, stream := [], fork := none, epoch := k.epoch + 1, fences := []
    walk := { pc := pc, idx := 0, loops := [], stage := 0, seqs := seqs, skip := Vector.replicate 7 0, owed := [], halted := false, rdv := false }
    cursors := (Vector.replicate 7 Cursor.reset).set 0 { Cursor.reset with member := true, lastIssue := cycle, notBefore := cycle + 1 } }

/-- Sequence numbers as a cut records them. -/
def Cut.seqs (q : Cut) : Vector Nat 7 := q.ents.map (·.seq)

/-- The stop is over: nothing is being drained. -/
def Ctx.endStop (k : Ctx) : Ctx := { k with stop := none, stream := [], fork := none, fences := [] }

/-- The firmware context: context 0 of core 0 (R268). -/
def isFirmware (c : CoreId) (x : CtxId) : Bool := c = 0 && x = 0

/-- The context parks with its cut in the bank of level `l` (R268, R274, R362). -/
def State.parkAt (s : State) (c : CoreId) (x : CtxId) (l : Nat) (cut : Cut) (traps : List TrapRec) : State :=
  s.modCtx c x fun k => { (k.endStop.modBank l fun b => b.take k cut traps) with phase := .parked, held := l }

/-- Delivery of a record at level `l` (R261, R268): the bank is written and the handler entered; an invalid vector passes the
trap up; at level 3 only the firmware context has a handler. `n` levels remain above `l`. -/
def State.deliverAt (s : State) (c : CoreId) (x : CtxId) (cut : Cut) (traps : List TrapRec) : Nat → Nat → State
  | 0, _ => s
  | n + 1, l =>
    let enter (s : State) : State := s.modCtx c x fun k =>
      let v := (k.bankAt l).vec.toNat
      let k1 := (k.endStop.modBank l fun b => b.take k cut traps)
      ({ k1 with phase := .handler, pl := l }).enterText (bits v 48 16) (bits v 0 48) s.cycle cut.seqs
    if l < 3 then (if s.vecOk c x l then enter s else s.deliverAt c x cut traps n (l + 1))
    else if !isFirmware c x then (s.parkAt c x 3 cut traps).mgmtIrq
    else if s.vecOk c x 3 then enter s
    else
      -- the control core of core 0 halts (R268)
      let s1 := s.modCtx c x fun k => { (k.endStop.modBank 3 fun b => b.take k cut traps) with pl := 3, phase := .stopping }
      { s1.mgmtIrq with host := { s1.mgmtIrq.host with booterr := 5, halted0 := true } }

/-- The fault record and the count of one trap delivery (R354, R360): of the first trap of the record. -/
def State.recordTrap (s : State) (c : CoreId) (x : CtxId) (traps : List TrapRec) : State :=
  match traps with
  | [] => s
  | r :: _ =>
    let name := if r.async then 0 else entryName c x r.tag r.seq
    (s.count c x 0x40 1).faultRecord c x (s.partOf c x) name r.cause r.tag r.det

/-- A doorbell's delivery is an acquire at PKG that takes in the host's writes made before the doorbell was raised (R300). -/
def State.acquireFor (s : State) (c : CoreId) (x : CtxId) (r : Option TrapRec) : State :=
  match r with
  | some t => if t.cause = 0x13 then (s.modCtx c x fun k => k.pushAcq 0 { k.acq with at_ := s.cycle + 1, scope := 2 }).settleHost t.at_ else s
  | none => s

/-- The context of the core whose SCTL PREEMPT is recorded with a stop of context `x` learns it (R106, R374): the requester word names it.
A stop recorded for another cause tells nobody. -/
def Core.tellRequesters (q : Core) (x : CtxId) (cand : Option TrapRec) : Core :=
  match cand with
  | some r =>
    let w := (r.det.toList.headD 0).toNat
    if r.cause = 0x10 && w < 2 ^ 62 then
      q.modCtx (Fin.ofNat 4 (w % 4)) fun k => { k with evt := true, preempting := k.preempting.erase x }
    else q
  | none => q

/-- The bracket is rolled back (R277): every deferred effect is dropped, and registers, CSRs and the held cut are those of the
snapshot. -/
def Ctx.rollBracket (k : Ctx) : Ctx :=
  match k.bracket with
  | none => k
  | some b =>
    { k with
      s := b.s, h := b.h, n := b.n, evt := k.evt || b.evt, slipwin := b.slipwin, vstat := b.vstat, vrkey := b.vrkey, vrctr := b.vrctr,
      mstat := b.mstat, cstat := b.cstat, sstat := b.sstat, saecfg := b.saecfg, clstat := b.clstat, clidx := b.clidx, obsring := b.obsring,
      obsEn := b.obsEn, obsLsz := b.obsLsz, obsTail := b.obsTail, obsHead := b.obsHead, htbase := b.htbase, s1root := b.s1root,
      s2root := b.s2root, cntsel := b.cntsel, cnt := b.cnt, cntCode := b.cntCode, cntWin := b.cntWin, bank := b.bank, wfeto := b.wfeto
      bracket := none, deferred := [], bracketWait := none }

/-- The bracket of a context rolled back: its registers, and the vector and mask registers where its grant holds the vector engine. -/
def State.rollBracket (s : State) (c : CoreId) (x : CtxId) : State :=
  let s1 := match (s.ctx c x).bracket with
    | some b => if (s.grant c x).hasEng .vec then s.modCore c fun q => { q with v := b.vregs, k := b.kregs } else s
    | none => s
  s1.modCtx c x Ctx.rollBracket

/-- The loops of a resumed cursor: a completed clamp stands at its LOOP word with the original N and I = I_next (R53). -/
def CutEntry.reentry (e : CutEntry) : Option Loop :=
  match e.loops with
  | l :: _ => if l.clamped && l.pc = e.pc then
      some { l with n := l.origN, i := l.iNext, j := l.iNext, e := if l.origN > l.iNext then l.origN + l.s - 2 else l.iNext, clamped := false }
    else none
  | [] => none

/-- Cursors resume from a cut (R270, R47): each at its own index, the walk at the least of them; `skip` names the cursor that
goes past its trapping word. -/
def Ctx.resumeCut (k : Ctx) (q : Cut) (skip : Option Tag) (redirect : Option Nat) (cycle : Nat) : Ctx :=
  let ent (t : Tag) : CutEntry := q.ents.get (Fin.ofNat 7 (tagNum t))
  let mem := allTags.filter fun t => (ent t).valid
  let past (t : Tag) : Nat := if skip = some t then 1 else 0
  let low := mem.foldl (fun (m : CutEntry) t => if (ent t).idx < m.idx then ent t else m) (ent .ctl)
  let re := low.reentry
  let seqs := Vector.ofFn fun i : Fin 7 =>
    let t := allTags.getD i.val .ctl
    if skip = some t && (ent t).took then (ent t).seq + 1 else (ent t).seq
  -- a FUR word of an ended fork set stands in its queue before the control cursor's next word (R246)
  let owed : Option SEntry := if q.fork.isNone && skip ≠ some .fur then k.owedFur else none
  let extra := (if re.isSome then 1 else 0) + b2n owed.isSome
  let own := (ent .ctl).loops.map fun l => match (ent .ctl).reentry with | some r => (if r.nc = l.nc then (l.nc, r.i) else (l.nc, l.j)) | none => (l.nc, l.j)
  { k with
    n := own.foldl (fun (n : Vector Nat 4) p => vmod n p.1 fun _ => p.2) k.n
    text := q.text, fork := q.fork, slip := q.slip, epoch := k.epoch + 1
    fences := q.fences.map fun (f : OpenFence) => { f with epoch := k.epoch + 1, idx := f.idx + extra }
    owedFur := if skip = some .fur then none else k.owedFur
    stream := match owed with | some e => [{ e with idx := low.idx, loops := [], on := true }] | none => []
    walk :=
      { pc := match redirect with
          | some p => p
          | none => (if re.isSome then low.pc + 8 else low.pc)
        idx := low.idx + extra
        loops := match re with | some l => [l] | none => low.loops
        stage := if re.isSome then 0 else low.stage
        seqs := seqs
        skip := Vector.ofFn fun i : Fin 7 =>
          let t := allTags.getD i.val .ctl
          if (ent t).valid then (ent t).idx + extra + past t else 0
        owed := mem.flatMap fun t => (ent t).loops
        halted := false, rdv := false }
    cursors := Vector.ofFn fun i : Fin 7 =>
      let t := allTags.getD i.val .ctl
      if t = .fur && owed.isSome then { next := low.idx + 1, lastIssue := cycle - 1, member := true, stopped := true, notBefore := cycle + 1 }
      else { next := (ent t).idx + extra + past t, lastIssue := cycle - 1, member := (ent t).valid, stopped := false, notBefore := cycle + 1 } }

/-- A trap placed in a record: by the cycle in which it was raised, and within a cycle by TAG (R262). -/
def addTrap : List TrapRec → TrapRec → List TrapRec
  | [], r => [r]
  | a :: l, r => if r.at_ < a.at_ || (r.at_ = a.at_ && r.tag < a.tag) then r :: a :: l else a :: addTrap l r

/-- The stop is recorded (R263 to R268): the cut is taken, the first deliverable asynchronous trap joins the synchronous ones,
and the trap is delivered, passed up, or parks the context. -/
def State.recordStop (s : State) (c : CoreId) (x : CtxId) : State :=
  match (s.ctx c x).stop with
  | none => s
  | some st =>
    let q := s.core c
    let k := s.ctx c x
    let cut := match k.bracket with
      | some b => if st.forced then b.cut.getD (k.theCut st) else k.theCut st
      | none => k.theCut st
    let cand := if st.forced then k.nextAsync
      else ({ k with pending := k.pending.filter fun r => !deferredTrap (q.defers x) r }).nextAsync
    let traps := (st.traps ++ cand.toList).foldl addTrap []
    let s0 := if st.forced then s.rollBracket c x else s
    let s1 := (s0.modCore c fun q => q.tellRequesters x cand).modCtx c x fun k =>
      { k with pending := match cand with | some r => k.pending.erase r | none => k.pending }
    let s2 := (s1.acquireFor c x cand).recordTrap c x traps
    -- a synchronous trap lies above the privilege level (R261); a superior level governs (R262)
    let syncLvl := st.traps.foldl (fun m r => Nat.max m r.level) 0
    let lvl := Nat.max (if st.traps.isEmpty then 0 else Nat.min 3 (Nat.max syncLvl (k.pl + 1))) (match cand with | some r => r.level | none => 0)
    if traps.isEmpty then
      -- nothing is left to deliver: the context goes on from its cut
      s2.modCtx c x fun k =>
        ({ k.endStop with phase := if st.fromHandler then .handler else .running }).resumeCut cut none none s.cycle
    else if (match cand with | some r => r.park | none => false) then s2.parkAt c x (Nat.max 1 lvl) cut traps
    else s2.deliverAt c x cut traps 3 (Nat.max 1 lvl)

/-! ### The return (R270) -/

/-- A context resumes from the cut in the bank of level `l` (R270; also SCTL RESUME, R274): PL, the cursors, TRAPPC or SKIP,
and VALID. A context that comes back into a handler is in HANDLER (R271). -/
def Ctx.return_ (k : Ctx) (l cycle : Nat) : Ctx :=
  let b := k.bankAt l
  match b.cut with
  | none => k
  | some q =>
    let t0 := b.traps.head?
    let skip : Option Tag := match t0 with
      | some r => if b.skip && !r.async then allTags[r.tag]? else none
      | none => none
    let redirect := if q.fork.isNone && skip ≠ some .ctl then some b.pc.toNat else none
    let q' : Cut := match redirect with
      | some w => { q with text := bits w 48 16 }
      | none => q
    -- an unchanged TRAPPC names the cut itself
    let moved := redirect.bind fun w => if bits w 0 48 = q.ents[0].pc then none else some (bits w 0 48)
    let k1 := (k.resumeCut q' skip moved cycle).modBank l fun b => { b with valid := false, cut := none }
    { k1 with pl := b.pl, held := 0, phase := if b.pl > 0 && (k.bankAt b.pl).valid then .handler else .running }

/-- A cut whose task is run again from its entry instead of being resumed: a translation trap at PL 0, or an uncorrected soft
error (R233, R316). -/
def Bank.requeues (b : Bank) : Bool :=
  b.traps.any fun r => r.cause = 0x11 || (b.pl = 0 && (r.cause = 0x08 || r.cause = 0x09 || r.cause = 0x0A))

/-- The return of context `(c, x)` from the bank of level `l`, with what the dispatcher does at it (R233, R316, R317). -/
def State.returnFrom (s : State) (c : CoreId) (x : CtxId) (l : Nat) : State :=
  let b := (s.ctx c x).bankAt l
  let report := b.traps.any fun r => r.cause = 0x15
  if b.requeues && (s.ctx c x).task.isSome then s.requeueCtx c x
  else
    let s1 := s.modCtx c x fun k => k.return_ l s.cycle
    if report then s1.heldReport c x else s1

/-! ### Shared checks of words -/

/-- A word that finds its own hold in force does nothing yet (R40). -/
def State.hold (s : State) : Host.Outcome State Fault Refusal := .next s

/-- A fork set of the running context is active (R36). -/
def State.inFork (s : State) : Bool := s.me.fork.isSome

end Sys2Proof.Machine
end

