-- ==== Sys2Proof/Machine/Fetch.lean ====
section
/-! DEFINITION. Sys2Proof/Machine/Fetch.lean: the shared text and its cursors: CURSOR_FETCH (R32, R33, R41, R75, R76) and the
ALL words LOOP, LOOPE, RDV and STG, on which a cursor acts at fetch (R37, R48 to R53). -/

namespace Sys2Proof.Machine

/-! ### The walk (R41) -/

/-- The stage predicate of the words that stand at the walk's place (R48, R49): that of the innermost open loop. -/
def Walk.on (w : Walk) : Bool :=
  match w.loops with
  | [] => true
  | l :: _ => l.i + w.stage ≤ l.j && l.j - w.stage < l.n

/-- The walk past the word at its place: offset, index, and the sequence number of the word's tag when `took` (R32). -/
def Walk.past (w : Walk) (t : Option Tag) : Walk :=
  { w with
    pc := w.pc + 8, idx := w.idx + 1
    seqs := match t with
      | some t => w.seqs.set (Fin.ofNat 7 (tagNum t)) ((w.seqs.get (Fin.ofNat 7 (tagNum t)) + 1) % 2 ^ 32)
      | none => w.seqs }

/-- The index below which a tag's words ran before the cut from which the walk was resumed. -/
def Walk.skipOf (w : Walk) (t : Tag) : Nat := w.skip.get (Fin.ofNat 7 (tagNum t))

/-- The class of a word: the engine that owns it, ALL, or a reserved TAG (R21, R33). -/
def wordOwn (w : Word) : Option Tag := match classOf (wordTag w) with | some (.eng t) => some t | _ => none
/-- The word is an ALL word. -/
def wordAll (w : Word) : Bool := match classOf (wordTag w) with | some .all => true | _ => false

/-- The stream entry of a word that is not an ALL word, at the walk's place (R32, R33, R75). -/
def Ctx.entryOf (k : Ctx) (w : Word) : SEntry :=
  let own := wordOwn w
  let d := decodeWord w
  let ran := match own with | some t => k.walk.idx < k.walk.skipOf t | none => false
  { idx := k.walk.idx, pc := k.walk.pc, word := w, own := own, all := false,
    ins := match d with | .ok i => some i | .error _ => none
    sub := match d with | .ok _ => 0 | .error n => n
    on := k.walk.on, seq := match own with | some t => k.walk.seqs.get (Fin.ofNat 7 (tagNum t)) | none => 0
    issued := ran, loops := k.walk.loops, stage := k.walk.stage }

/-- A cursor takes words of its tag at the walk's place: it is a member, and no RDV stands before, at which it stops (R32, R33, R37). -/
def Ctx.takes (k : Ctx) (t : Tag) : Bool := (k.cursor t).member && (t = .ctl || !k.walk.rdv)

/-- The word at the walk's place enters the stream. A word that fails its check takes no number (R75, R76), nor does one that
ran before the cut, nor one that its cursor never takes (R32). -/
def Ctx.gen (k : Ctx) (w : Word) : Ctx :=
  let e := k.entryOf w
  { k with stream := k.stream ++ [e], walk := k.walk.past (match e.own with
      | some t => if e.sub = 0 && !e.issued && k.takes t then some t else none
      | none => none) }

/-- The ALL word at the walk's place enters the stream and the walk goes on as `f` says. -/
def Ctx.genAll (k : Ctx) (i : Instr) (sub : Nat) (f : Walk → Walk) : Ctx :=
  let e : SEntry := { idx := k.walk.idx, pc := k.walk.pc, word := (encode 0 i).getD 0, own := none, all := true, ins := some i,
                      sub := sub, on := true, seq := 0, issued := true, loops := k.walk.loops, stage := k.walk.stage }
  { k with stream := k.stream ++ [e], walk := f k.walk }

/-! ### What an ALL word does to the walk (R37, R48 to R53) -/

/-- The loop that a LOOP word at the walk's place opens (R48, R49): the entry a cut recorded there, else a new one. `v` is the
value of sT. A nested LOOP whose predicate is off runs as with N = 0. -/
def Walk.opened (w : Walk) (nc st : Nat) (p : Bool) (v : Word) : Loop :=
  match w.owed.find? fun l => l.idx = w.idx && l.nc = nc with
  | some l => { l with j := l.i }
  | none =>
    let n := if w.on then v.toNat % 2 ^ 32 else 0
    { nc := nc, pc := w.pc, idx := w.idx, origN := n, n := n, s := st, i := 0, e := if n > 0 then n + st - 2 else 0, j := 0, p := p,
      stageOut := w.stage, sT := v, iNext := 0, clamped := false }

/-- The next pass of a loop, or its end (R50, R53): back to the word after LOOP, out with the stage of the LOOP word, or, after
the clamped passes, to a stop there or a new entry with I = I_next and the original N. -/
def Walk.loopEnd (w : Walk) (l : Loop) (rest : List Loop) (stopping : Bool) : Walk :=
  let w1 := w.past none
  if l.j < l.e then { w1 with pc := l.pc + 8, loops := { l with j := l.j + 1 } :: rest, stage := 0 }
  else if l.clamped && l.iNext < l.origN then
    if stopping then { w1 with halted := true }
    else
      let l1 := { l with n := l.origN, i := l.iNext, j := l.iNext, clamped := false,
                         e := if l.origN > l.iNext then l.origN + l.s - 2 else l.iNext }
      { w1 with pc := l.pc + 8, loops := l1 :: rest, stage := 0 }
  -- every iteration had started: the loop ends normally (R53)
  else { w1 with loops := rest, stage := l.stageOut, halted := l.clamped && stopping }

/-- The clamp of R53 is draining in the context. -/
def Ctx.clamping (k : Ctx) : Bool := match k.stop with | some st => st.clamp && st.traps.isEmpty | none => false

/-- The subcode with which an ALL word traps at the walk's place, 0 where it does not: 9 an RDV out of place (R75), 10 a misused
LOOP, LOOPE or STG, which raises the operand-range trap (R52). -/
def Ctx.allSub (k : Ctx) (i : Instr) : Nat :=
  let ls := k.walk.loops
  match i with
  | .rdv => if k.fork.isNone || !ls.isEmpty then 9 else 0
  | .loop nc _ _ p => if ls.any (fun l => l.nc = nc.val) || ls.length ≥ 4 || (p && !ls.isEmpty) then 10 else 0
  | .loope nc => (match ls with | l :: _ => if l.nc ≠ nc.val then 10 else 0 | [] => 10)
  | .stg st => (match ls with | l :: _ => if st.val ≥ l.s then 10 else 0 | [] => 10)
  | _ => 1

/-- The walk past an ALL word at its place (R48 to R50). -/
def Ctx.allWalk (k : Ctx) (i : Instr) (w : Walk) : Walk :=
  match i with
  | .loop nc ts st p => { w.past none with loops := w.opened nc.val (st.val + 1) p (k.s.get ts) :: w.loops, stage := 0 }
  | .loope _ => (match w.loops with | l :: rest => w.loopEnd l rest k.clamping | [] => w.past none)
  | .stg st => { w.past none with stage := st.val }
  | .rdv => { w.past none with rdv := k.fork.isSome }
  | _ => w.past none

/-- A walk resumed short of a cursor goes over an ALL word that the cursor has passed already (R264, R270). -/
def Ctx.walkAll (k : Ctx) (i : Instr) : Ctx :=
  let n := k.allSub i
  k.genAll i n fun w => if n = 0 then k.allWalk i w else w.past none

/-! ### How far a cursor may go -/

/-- A cursor's position (R41): the oldest unissued word of its queue, else the word it fetches next. -/
def Ctx.position (k : Ctx) (t : Tag) : Nat := match k.head t with | some e => e.idx | none => (k.cursor t).next

/-- The least position among the members that have not stopped at an RDV (R41). -/
def Ctx.pmin (k : Ctx) : Nat :=
  let ps := (allTags.filter fun t => (k.cursor t).member && !(k.cursor t).stopped).map k.position
  ps.foldl Nat.min (ps.headD 0)

/-- Engine `t` is a member of the active fork set (R36). -/
def Ctx.isMember (k : Ctx) (t : Tag) : Bool :=
  match k.fork with
  | some m => t = .ctl || (m.toNat.testBit (engBit t) && t ≠ .ctl)
  | none => t = .ctl

/-- The cursor may fetch a further word: room in its queue, the slip bound (R32, R41); the control cursor also never fetches past
an unissued word of its own outside a fork set, nor past an unissued JOIN inside one. -/
def Ctx.mayFetch (k : Ctx) (t : Tag) : Bool :=
  let c := k.cursor t
  let w := k.waiting t
  c.member && !c.stopped && w.length < 32 &&
  (match k.fork with
   | some _ => c.next ≤ k.pmin + k.slip && (t ≠ .ctl || w.all fun e => e.ins ≠ some .join)
   | none => w.isEmpty)

/-- The tag of the running agent. -/
def State.myTag (s : State) : Tag := s.cur.tag

/-- A synchronous trap at fetch, of the cursor that reaches the word (R75, R76, R52). -/
def State.raiseFetch (s : State) (cause sub : Nat) (idx : Nat) (w : Word) : State :=
  let t := s.cur.tag
  s.raiseAt s.cur.core s.cur.ctx
    { async := false, cause := cause, code := 0, tag := tagNum t, seq := s.me.seqAt t idx, level := 1, park := false,
      det := if cause = 1 then #v[BitVec.ofNat 64 sub, BitVec.ofNat 64 idx, w, 0] else #v[BitVec.ofNat 64 idx, w, 0, 0] } []

/-- The subcode with which the running cursor traps on a fetched entry, if it does: its own words' checks, and for the control
cursor reserved tags (1) and engines outside the fork set (2) (R33, R75). -/
def Ctx.entryTrap (k : Ctx) (t : Tag) (e : SEntry) : Option Nat :=
  match e.own with
  | none => if e.all then (if e.sub = 0 then none else some e.sub) else if t = .ctl then some 1 else none
  | some o =>
    if o = t then (if e.sub = 0 then none else some e.sub)
    else if t = .ctl && !k.isMember o then some 2 else none

/-- The cursor of the running agent goes past the entry at its place. -/
def Ctx.passEntry (k : Ctx) (t : Tag) : Ctx := k.modCursor t fun c => { c with next := c.next + 1 }

/-- One word examined by the running cursor: `none` ends the fetch of this cycle (R32). Where a word lies outside the text (subcode 8) no
word was fetched, and the word doubleword of the trap record is 0 (DESIGN CHOICE, assumption log 16). -/
def State.fetchOne (s : State) : Option State × State :=
  let c := s.cur.core; let x := s.cur.ctx; let t := s.cur.tag
  let k := s.me
  let i := (k.cursor t).next
  if !k.mayFetch t then (none, s)
  else
    let take (s : State) (e : SEntry) : Option State × State :=
      match s.me.entryTrap t e with
      | some sub =>
        -- the trap waits until the earlier words of the cursor have issued
        if (s.me.waiting t).isEmpty then (none, s.raiseFetch (if sub = 10 then 2 else 1) sub e.idx e.word) else (none, s)
      | none => if e.all then (none, s) else (some (s.modMe fun k => k.passEntry t), s)
    match k.entryAt i with
    | some e => take s e
    | none =>
      if k.walk.halted || k.walk.idx > i then (none, s)
      else match s.fetchText c x k.walk.pc with
      | (.outside, s1) => (none, if (k.waiting t).isEmpty then s1.raiseFetch 1 8 i 0 else s1)
      | (.nothing again, s1) => (none, if again then s1 else s1.modMe fun k => { k with walk := { k.walk with halted := true } })
      | (.fault f, s1) =>
        (none, if (k.waiting t).isEmpty then
            s1.raiseAt c x { async := false, cause := xCause f, code := 0, tag := tagNum t, seq := k.seqAt t i, level := f.cls,
                             park := false, det := xDetail (k.text * 2 ^ 48 + k.walk.pc) f 6 0 0 } []
          else s1)
      | (.word w, s1) =>
        if wordAll w then
          match decodeWord w with
          | .ok ins =>
            -- an ALL word is a step of its own
            if k.walk.idx < i then (some (s1.modMe fun k => k.walkAll ins), s1) else (none, s1)
          | .error n =>
            if k.walk.idx < i then (some (s1.modMe fun k => k.genAll .rdv n fun v => v.past none), s1)
            else (none, if (k.waiting t).isEmpty then s1.raiseFetch 1 n i w else s1)
        else
          let s2 := s1.modMe fun k => k.gen w
          if k.walk.idx < i then (some s2, s2) else match s2.me.entryAt i with
            | some e => take s2 e
            | none => (none, s2)

/-- Up to `n` words examined (R32). -/
def State.fetchN : Nat → State → State
  | 0, s => s
  | n + 1, s => match s.fetchOne with
    | (some s1, _) => s1.fetchN n
    | (none, s1) => s1

/-- The cursor has used its fetch of this cycle. -/
def State.fetched (s : State) : State :=
  s.modMe fun k => k.modCursor s.cur.tag fun c => { c with notBefore := s.cycle + 1 }

/-- CURSOR_FETCH (R32): the cursor examines up to 8 words; outside a fork set the control cursor takes one at a time. -/
def execCursorFetch (c : CoreId) (x : CtxId) (t : Tag) (s : State) : Host.Outcome State Fault Refusal :=
  let s0 := { s with cur := { core := c, ctx := x, tag := t } }
  .next ((s0.fetchN 8).fetched)

/-! ### ALL words -/

/-- The running cursor reaches an ALL word: on a word another cursor walked before, it passes as `old` says; on a new word
`act` acts for the walk, or the word traps (R52). -/
def State.reachAll (s : State) (i : Instr) (old : SEntry → Ctx → Ctx) (act : State → State) : Host.Outcome State Fault Refusal :=
  let t := s.cur.tag
  let k := s.me
  match k.entryAt (k.cursor t).next with
  | some e =>
    .next ((match k.entryTrap t e with
      | some sub => if (k.waiting t).isEmpty then s.raiseFetch (if sub = 10 then 2 else 1) sub e.idx e.word else s
      | none => s.modMe (old e)).fetched)
  | none => if (encode 0 i).isSome then .next (act s).fetched else .fault .illFormed

/-- The operand-range or illegal-word trap of a misused ALL word, once the cursor's earlier words have issued. -/
def State.badAll (s : State) (i : Instr) (cause sub : Nat) : State :=
  if (s.me.waiting s.cur.tag).isEmpty then s.raiseFetch cause sub s.me.walk.idx ((encode 0 i).getD 0) else s

/-- The control cursor's pass index as the loop counter shows it (R48). -/
def Ctx.showPass (k : Ctx) (t : Tag) (nc : Fin 4) (j : Nat) : Ctx := if t = .ctl then { k with n := k.n.set nc j } else k

/-- The running cursor is the first to reach the ALL word `i`: it traps, or acts on the walk and the cursor goes on as `f` says. -/
def State.firstAll (s : State) (i : Instr) (f : Ctx → Ctx) : State :=
  let n := s.me.allSub i
  if n ≠ 0 then s.badAll i (if n = 10 then 2 else 1) n
  else s.modMe fun k => f (k.genAll i 0 (k.allWalk i))

/-- LOOP (R48, R49, R52): opens a loop. -/
def execLoop (nc : Fin 4) (ts : SReg) (stages : Fin 8) (p : Bool) (s : State) : Host.Outcome State Fault Refusal :=
  let i := Instr.loop nc ts stages p
  let t := s.cur.tag
  s.reachAll i (fun _ k => (k.showPass t nc 0).passEntry t) fun s =>
    s.firstAll i fun k => (k.showPass t nc (match k.walk.loops with | l :: _ => l.j | [] => 0)).passEntry t

/-- LOOPE (R50, R52). -/
def execLoope (nc : Fin 4) (s : State) : Host.Outcome State Fault Refusal :=
  let i := Instr.loope nc
  let t := s.cur.tag
  let pass (ls : List Loop) (k : Ctx) : Ctx := match ls with
    | l :: _ => if l.j < l.e then k.showPass t nc (l.j + 1)
      else if l.clamped && l.iNext < l.origN && !k.clamping then k.showPass t nc l.iNext else k
    | [] => k
  s.reachAll i (fun e k => (pass e.loops k).passEntry t) fun s =>
    let ls := s.me.walk.loops
    s.firstAll i fun k => (pass ls k).passEntry t

/-- RDV (R37): an engine cursor stops there, the control cursor passes it; without a fork set or inside a loop it traps (R75). -/
def execRdv (s : State) : Host.Outcome State Fault Refusal :=
  let t := s.cur.tag
  let act (k : Ctx) : Ctx := if t = .ctl then k.passEntry t else k.modCursor t fun c => { c with stopped := true }
  s.reachAll .rdv (fun _ k => act k) fun s => s.firstAll .rdv act

/-- STG (R49, R52): sets the stage of the words that follow in the loop body. -/
def execStg (st : Fin 8) (s : State) : Host.Outcome State Fault Refusal :=
  let i := Instr.stg st
  let t := s.cur.tag
  s.reachAll i (fun _ k => k.passEntry t) fun s => s.firstAll i fun k => k.passEntry t

/-! ### FORK, JOIN, NOP (R36 to R39, R96) -/

/-- The engines of a fork mask, bit 0 VEC to bit 5 FUR (R36, R67). -/
def maskTags (m : BitVec 6) : List Tag := engTags.filter fun t => m.toNat.testBit (engBit t)

/-- FORK at issue (R36): every member starts at the entry with its first cycle t_F + 4. -/
def Ctx.forkAt (k : Ctx) (m : BitVec 6) (pc cycle : Nat) : Ctx :=
  { k with
    fork := some m, slip := k.slipwin, stream := [], epoch := k.epoch + 1, acqs := k.acqs.take 1
    walk := { k.walk with pc := pc, idx := 0, loops := [], stage := 0, skip := Vector.replicate 7 0, owed := [], halted := false, rdv := false }
    cursors := Vector.ofFn fun i : Fin 7 =>
      let t := allTags.getD i.val .ctl
      { next := 0, lastIssue := cycle + 3, member := t = .ctl || (maskTags m).contains t, stopped := false, notBefore := cycle + 1 } }

/-- FORK (R36, R39, R271): misuse raises the operand-range trap; it waits while a FUR word of the last fork set is owed (R238). -/
def execFork (mask : BitVec 6) (off : BitVec 30) (s : State) : Host.Outcome State Fault Refusal :=
  let k := s.me
  let pc : Int := s.curPc + 8 * off.toInt
  if s.inFork || mask.toNat = 0 || (maskTags mask).any (fun t => !s.myGrant.hasEng t) || !k.walk.loops.isEmpty ||
      k.phase = .handler then .next s.trapRange
  else if k.owedFur.isSome then s.hold
  else
    let pc0 := wrap 64 pc
    .next (s.issued.modMe fun k => k.forkAt mask pc0 s.cycle)

/-- JOIN may not issue yet: an engine cursor of the fork set has not stopped at an RDV, or has unissued words (R38). -/
def Ctx.joinHeld (k : Ctx) : Bool :=
  k.fork.isSome && engTags.any fun t => k.isMember t && (!(k.cursor t).stopped || (k.head t).isSome)

/-- The fork set ends: the control cursor goes on alone after its JOIN (R38). -/
def Ctx.endFork (k : Ctx) (e : Option SEntry) : Ctx :=
  { k with
    fork := none, stream := []
    walk := match e with
      | some e => { k.walk with pc := e.pc + 8, idx := e.idx + 1, loops := e.loops, stage := e.stage, halted := false, rdv := false,
                                seqs := k.walk.seqs.set 0 ((e.seq + 1) % 2 ^ 32) }
      | none => k.walk
    cursors := Vector.ofFn fun i : Fin 7 =>
      let c := k.cursors[i]
      if i.val = 0 then { c with next := match e with | some e => e.idx + 1 | none => c.next } else Cursor.reset }

/-- JOIN (R38): holds until every engine cursor has stopped at RDV and issued its words; completes at once without a fork set. -/
def execJoin (s : State) : Host.Outcome State Fault Refusal :=
  if s.me.joinHeld then s.hold
  else if s.inFork then
    let e := s.headWord
    .next (s.issued.modMe fun k => k.endFork e)
  else .next s.issued

/-- NOP (R96). -/
def execNop (s : State) : Host.Outcome State Fault Refusal := .next s.issued

end Sys2Proof.Machine
end

