-- ==== Sys2Proof/Machine/Arith.lean ====
section
/-! DEFINITION. Sys2Proof/Machine/Arith.lean: the control core's integer arithmetic (R82 to R85). -/

namespace Sys2Proof.Machine

/-! ### Shared shapes -/

/-- `OP sD, sA, sB` (R82): the operands are read, then sD is written. -/
def State.alu2 (s : State) (f : Word → Word → Word) (d a b : SReg) : Host.Outcome State Fault Refusal :=
  .next (s.issued.wrS d (f (s.rdS a) (s.rdS b)))

/-- `OP sD, sA, imm` (R83): sB is replaced by sext(IMM). -/
def State.aluImm (s : State) (f : Word → Word → Word) (d a : SReg) (imm : BitVec 30) : Host.Outcome State Fault Refusal :=
  .next (s.issued.wrS d (f (s.rdS a) (imm.signExtend 64)))

/-- A multiplication (R80, R82): its result is there three cycles later. -/
def State.aluMul (s : State) (f : Word → Word → Word) (d a b : SReg) : Host.Outcome State Fault Refusal :=
  .next (s.issued.wrLate d (f (s.rdS a) (s.rdS b)) 3)

/-- The latency of a division (R80): the significant bits of a signed dividend are those of its magnitude (DEDUCED, assumption log 52). -/
def divCycles (signed : Bool) (a : Word) : Nat :=
  Nat.min 38 (6 + ceilDiv (bitLen (if signed then a.toInt.natAbs else a.toNat)) 2)

/-- A division (R84): a zero divisor raises the divide trap and leaves sD unchanged. -/
def State.aluDiv (s : State) (signed : Bool) (f : Word → Word → Word) (d a b : SReg) : Host.Outcome State Fault Refusal :=
  if s.rdS b = 0 then .next s.trapDivide else .next (s.issued.wrLate d (f (s.rdS a) (s.rdS b)) (divCycles signed (s.rdS a)))

/-- A shift by an immediate (R83): one outside 0 to 63 is no legal word. -/
def State.aluShift (s : State) (f : Word → Word → Word) (d a : SReg) (imm : BitVec 30) : Host.Outcome State Fault Refusal :=
  if imm.toNat ≥ 64 then .fault .illFormed else s.aluImm f d a imm

/-! ### Results -/

/-- The result of ADD (R82). -/
def aluAdd (a b : Word) : Word := a + b

/-- The result of SUB (R82). -/
def aluSub (a b : Word) : Word := a - b

/-- The result of AND (R82). -/
def aluAnd (a b : Word) : Word := a &&& b

/-- The result of OR (R82). -/
def aluOr (a b : Word) : Word := a ||| b

/-- The result of XOR (R82). -/
def aluXor (a b : Word) : Word := a ^^^ b

/-- The result of SLL (R82): the amount is sB[5:0]. -/
def aluSll (a b : Word) : Word := a <<< (b.toNat % 64)

/-- The result of SRL (R82). -/
def aluSrl (a b : Word) : Word := a >>> (b.toNat % 64)

/-- The result of SRA (R82). -/
def aluSra (a b : Word) : Word := a.sshiftRight (b.toNat % 64)

/-- The result of SLT (R82): signed. -/
def aluSlt (a b : Word) : Word := if a.slt b then 1 else 0

/-- The result of SLTU (R82): unsigned. -/
def aluSltu (a b : Word) : Word := if a.ult b then 1 else 0

/-- The result of MIN (R82): signed. -/
def aluMin (a b : Word) : Word := if a.slt b then a else b

/-- The result of MAX (R82): signed. -/
def aluMax (a b : Word) : Word := if a.slt b then b else a

/-- The result of MINU (R82). -/
def aluMinu (a b : Word) : Word := if a.ult b then a else b

/-- The result of MAXU (R82). -/
def aluMaxu (a b : Word) : Word := if a.ult b then b else a

/-- The result of MUL (R82): the low 64 bits. -/
def aluMul (a b : Word) : Word := a * b

/-- The result of MULH (R82): the high 64 bits of the signed product. -/
def aluMulh (a b : Word) : Word := BitVec.ofInt 64 ((a.toInt * b.toInt) / 2 ^ 64)

/-- The result of MULHU (R82): the high 64 bits of the unsigned product. -/
def aluMulhu (a b : Word) : Word := BitVec.ofNat 64 (a.toNat * b.toNat / 2 ^ 64)

/-- The result of DIV (R82, R84): the quotient rounded toward zero; −2^63 by −1 gives −2^63. -/
def aluDiv (a b : Word) : Word := a.sdiv b

/-- The result of DIVU (R82, R84). -/
def aluDivu (a b : Word) : Word := a / b

/-- The result of REM (R82, R84): the remainder takes the sign of sA. -/
def aluRem (a b : Word) : Word := a.srem b

/-- The result of REMU (R82, R84). -/
def aluRemu (a b : Word) : Word := a % b

/-! ### Meanings -/

/-- ADD (R82). -/
def execAdd (d a b : SReg) (s : State) : Host.Outcome State Fault Refusal := s.alu2 aluAdd d a b

/-- SUB (R82). -/
def execSub (d a b : SReg) (s : State) : Host.Outcome State Fault Refusal := s.alu2 aluSub d a b

/-- AND (R82). -/
def execAnd (d a b : SReg) (s : State) : Host.Outcome State Fault Refusal := s.alu2 aluAnd d a b

/-- OR (R82). -/
def execOr (d a b : SReg) (s : State) : Host.Outcome State Fault Refusal := s.alu2 aluOr d a b

/-- XOR (R82). -/
def execXor (d a b : SReg) (s : State) : Host.Outcome State Fault Refusal := s.alu2 aluXor d a b

/-- SLL (R82): the amount is sB[5:0]. -/
def execSll (d a b : SReg) (s : State) : Host.Outcome State Fault Refusal := s.alu2 aluSll d a b

/-- SRL (R82). -/
def execSrl (d a b : SReg) (s : State) : Host.Outcome State Fault Refusal := s.alu2 aluSrl d a b

/-- SRA (R82). -/
def execSra (d a b : SReg) (s : State) : Host.Outcome State Fault Refusal := s.alu2 aluSra d a b

/-- SLT (R82): signed. -/
def execSlt (d a b : SReg) (s : State) : Host.Outcome State Fault Refusal := s.alu2 aluSlt d a b

/-- SLTU (R82): unsigned. -/
def execSltu (d a b : SReg) (s : State) : Host.Outcome State Fault Refusal := s.alu2 aluSltu d a b

/-- MIN (R82): signed. -/
def execMin (d a b : SReg) (s : State) : Host.Outcome State Fault Refusal := s.alu2 aluMin d a b

/-- MAX (R82): signed. -/
def execMax (d a b : SReg) (s : State) : Host.Outcome State Fault Refusal := s.alu2 aluMax d a b

/-- MINU (R82). -/
def execMinu (d a b : SReg) (s : State) : Host.Outcome State Fault Refusal := s.alu2 aluMinu d a b

/-- MAXU (R82). -/
def execMaxu (d a b : SReg) (s : State) : Host.Outcome State Fault Refusal := s.alu2 aluMaxu d a b

/-- MUL (R82): the low 64 bits. -/
def execMul (d a b : SReg) (s : State) : Host.Outcome State Fault Refusal := s.aluMul aluMul d a b

/-- MULH (R82): the high 64 bits of the signed product. -/
def execMulh (d a b : SReg) (s : State) : Host.Outcome State Fault Refusal := s.aluMul aluMulh d a b

/-- MULHU (R82): the high 64 bits of the unsigned product. -/
def execMulhu (d a b : SReg) (s : State) : Host.Outcome State Fault Refusal := s.aluMul aluMulhu d a b

/-- DIV (R82, R84): the quotient rounded toward zero; −2^63 by −1 gives −2^63. -/
def execDiv (d a b : SReg) (s : State) : Host.Outcome State Fault Refusal := s.aluDiv true aluDiv d a b

/-- DIVU (R82, R84). -/
def execDivu (d a b : SReg) (s : State) : Host.Outcome State Fault Refusal := s.aluDiv false aluDivu d a b

/-- REM (R82, R84): the remainder takes the sign of sA. -/
def execRem (d a b : SReg) (s : State) : Host.Outcome State Fault Refusal := s.aluDiv true aluRem d a b

/-- REMU (R82, R84). -/
def execRemu (d a b : SReg) (s : State) : Host.Outcome State Fault Refusal := s.aluDiv false aluRemu d a b

/-- ADDI (R83). -/
def execAddi (d a : SReg) (imm : BitVec 30) (s : State) : Host.Outcome State Fault Refusal := s.aluImm aluAdd d a imm

/-- ANDI (R83). -/
def execAndi (d a : SReg) (imm : BitVec 30) (s : State) : Host.Outcome State Fault Refusal := s.aluImm aluAnd d a imm

/-- ORI (R83). -/
def execOri (d a : SReg) (imm : BitVec 30) (s : State) : Host.Outcome State Fault Refusal := s.aluImm aluOr d a imm

/-- XORI (R83). -/
def execXori (d a : SReg) (imm : BitVec 30) (s : State) : Host.Outcome State Fault Refusal := s.aluImm aluXor d a imm

/-- SLLI (R83). -/
def execSlli (d a : SReg) (imm : BitVec 30) (s : State) : Host.Outcome State Fault Refusal := s.aluShift aluSll d a imm

/-- SRLI (R83). -/
def execSrli (d a : SReg) (imm : BitVec 30) (s : State) : Host.Outcome State Fault Refusal := s.aluShift aluSrl d a imm

/-- SRAI (R83). -/
def execSrai (d a : SReg) (imm : BitVec 30) (s : State) : Host.Outcome State Fault Refusal := s.aluShift aluSra d a imm

/-- SLTI (R83). -/
def execSlti (d a : SReg) (imm : BitVec 30) (s : State) : Host.Outcome State Fault Refusal := s.aluImm aluSlt d a imm

/-- SLTIU (R83). -/
def execSltiu (d a : SReg) (imm : BitVec 30) (s : State) : Host.Outcome State Fault Refusal := s.aluImm aluSltu d a imm

/-- LIL (R85): sD ← sext(IMM32). -/
def execLil (d : SReg) (imm : BitVec 32) (s : State) : Host.Outcome State Fault Refusal := .next (s.issued.wrS d (imm.signExtend 64))

/-- The value LIH writes (R85): IMM32 above sD's own low half. -/
def lihValue (imm : BitVec 32) (v : Word) : Word := BitVec.ofNat 64 (imm.toNat * 2 ^ 32 + v.toNat % 2 ^ 32)

/-- LIH (R85): sD[63:32] ← IMM32. -/
def execLih (d : SReg) (imm : BitVec 32) (s : State) : Host.Outcome State Fault Refusal :=
  .next (s.issued.wrS d (lihValue imm (s.rdS d)))

end Sys2Proof.Machine
end

