-- ==== Sys2Proof/Machine/Branch.lean ====
section
/-! DEFINITION. Sys2Proof/Machine/Branch.lean: branches and jumps of the control core (R34, R90, R91). -/

namespace Sys2Proof.Machine

/-- A branch or JAL target (R59, R90): PC + 8·sext(OFF). -/
def branchTarget (pc : Nat) (off : BitVec 30) : Nat := wrap 64 (pc + 8 * off.toInt)

/-- A control transfer is taken: the walk goes on at `pc`, and the target word issues two cycles later than its IDLE asks for (R80). -/
def State.takeJump (s : State) (pc : Nat) : State :=
  (s.jumpTo pc).modMe fun k => k.modCursor .ctl fun c => { c with lastIssue := s.cycle + 2, notBefore := s.cycle + 1 }

/-- A conditional branch (R90): not taken it only issues; taken it moves the PC, or traps while a fork set is active (R34). -/
def State.branch (s : State) (taken : Bool) (off : BitVec 30) : Host.Outcome State Fault Refusal :=
  if !taken then .next s.issued
  else if s.inFork then .next s.trapRange
  else .next (s.issued.takeJump (branchTarget s.curPc off))

/-- BEQ: taken when sA = sB (R90). -/
def execBeq (a b : SReg) (off : BitVec 30) (s : State) : Host.Outcome State Fault Refusal := s.branch (s.rdS a = s.rdS b) off

/-- BNE: taken when sA ≠ sB (R90). -/
def execBne (a b : SReg) (off : BitVec 30) (s : State) : Host.Outcome State Fault Refusal := s.branch (s.rdS a ≠ s.rdS b) off

/-- BLT: taken when sA < sB, signed (R90). -/
def execBlt (a b : SReg) (off : BitVec 30) (s : State) : Host.Outcome State Fault Refusal := s.branch ((s.rdS a).slt (s.rdS b)) off

/-- BGE: taken when sA ≥ sB, signed (R90). -/
def execBge (a b : SReg) (off : BitVec 30) (s : State) : Host.Outcome State Fault Refusal := s.branch (!(s.rdS a).slt (s.rdS b)) off

/-- BLTU: taken when sA < sB, unsigned (R90). -/
def execBltu (a b : SReg) (off : BitVec 30) (s : State) : Host.Outcome State Fault Refusal := s.branch ((s.rdS a).ult (s.rdS b)) off

/-- BGEU: taken when sA ≥ sB, unsigned (R90). -/
def execBgeu (a b : SReg) (off : BitVec 30) (s : State) : Host.Outcome State Fault Refusal := s.branch (!(s.rdS a).ult (s.rdS b)) off

/-- JAL (R91): sD ← PC + 8, then PC ← PC + 8·sext(OFF); it traps while a fork set is active (R34). -/
def execJal (d : SReg) (off : BitVec 30) (s : State) : Host.Outcome State Fault Refusal :=
  if s.inFork then .next s.trapRange
  else .next ((s.issued.wrS d (BitVec.ofNat 64 (s.curPc + 8))).takeJump (branchTarget s.curPc off))

/-- JALR (R91): t ← sA + sext(IMM), then sD ← PC + 8, then PC ← t. -/
def execJalr (d a : SReg) (imm : BitVec 30) (s : State) : Host.Outcome State Fault Refusal :=
  if s.inFork then .next s.trapRange
  else .next ((s.issued.wrS d (BitVec.ofNat 64 (s.curPc + 8))).takeJump (s.rdS a + imm.signExtend 64).toNat)

end Sys2Proof.Machine
end

