-- ==== Sys2Proof/Machine/Grants.lean ====
section
/-! DEFINITION. Sys2Proof/Machine/Grants.lean: the grants of a core and the reset of the items that pass with them (R55, R126,
R127, R268, R336). -/

namespace Sys2Proof.Machine

/-- The fields of CGRANT (R336). -/
def grantOf (v : Nat) : Grant :=
  { v := v.testBit 63, part := bits v 59 4, eng := bits v 52 6, abank := bits v 36 16, cbank := bits v 20 16, qmask := bits v 12 8,
    wmask := bits v 8 4, fmask := bits v 0 8 }

/-- CGRANT's word (R336). -/
def Grant.word (g : Grant) : Nat :=
  b2n g.v * 2 ^ 63 + g.part % 16 * 2 ^ 59 + g.eng % 64 * 2 ^ 52 + g.abank % 2 ^ 16 * 2 ^ 36 + g.cbank % 2 ^ 16 * 2 ^ 20 +
    g.qmask % 256 * 2 ^ 12 + g.wmask % 16 * 2 ^ 8 + g.fmask % 256

/-- The items a valid grant holds, as one mask: engines, ABUF and CBUF banks, queues, walkers, flag blocks. -/
def Grant.items (g : Grant) : Nat := if g.v then g.word % 2 ^ 58 else 0

/-- The lines of a typed buffer without those of the banks in a mask (512 lines a bank, R126). -/
def clearBanks (m : Lines) (mask : Nat) : Lines := m.filter fun p => !mask.testBit (p.1 / 512)

/-- A vector with the elements whose bit is set in a mask replaced. -/
def setMasked {α : Type} {n : Nat} (v : Vector α n) (mask : Nat) (a : α) : Vector α n :=
  Vector.ofFn fun i => if mask.testBit i.val then a else v[i]

/-- The items of a mask return to their values at dispatch: engine state, zero-filled banks with their format registers 0, empty
queues, unconfigured walkers, flags 0; WBUF passes with the MTX engine (R336). -/
def Core.resetItems (k : Core) (items : Nat) : Core :=
  let eng := bits items 52 6
  let ab := bits items 36 16
  let cb := bits items 20 16
  let fl := (setBitsOf 64 (2 ^ 64 - 1)).foldl (fun a f => if (bits items 0 8).testBit (f / 8) then a + 2 ^ f else a) 0
  { k with
    v := if eng.testBit 0 then Vector.replicate 56 0 else k.v
    k := if eng.testBit 0 then Vector.replicate 16 0 else k.k
    vpend := if eng.testBit 0 then [] else k.vpend
    vacc := if eng.testBit 0 then Vector.replicate 8 0 else k.vacc
    mtx := if eng.testBit 1 then [] else k.mtx
    mtxEnd := if eng.testBit 1 then 0 else k.mtxEnd
    wbuf := if eng.testBit 1 then [] else k.wbuf
    wfmt := if eng.testBit 1 then Vector.replicate 16 0 else k.wfmt
    chans := if eng.testBit 3 then Vector.replicate 4 Channel.reset else k.chans
    sae := if eng.testBit 4 then [] else k.sae
    furs := if eng.testBit 5 then Vector.replicate 16 Furrow.reset else k.furs
    tabs := if eng.testBit 5 then Vector.replicate 8 FTable.reset else k.tabs
    marks := if eng.testBit 5 then Vector.replicate 8 FMark.reset else k.marks
    fcmd := if eng.testBit 5 then none else k.fcmd
    abuf := clearBanks k.abuf ab
    afmt := setMasked k.afmt ab 0
    cbuf := clearBanks k.cbuf cb
    cfmt := setMasked k.cfmt cb 0
    queues := setMasked k.queues (bits items 12 8) []
    walkers := setMasked k.walkers (bits items 8 4) Walker.reset
    flags := setMasked k.flags fl 0
    setters := setMasked k.setters fl (15, 0)
    owedRes := if eng.testBit 3 then [] else k.owedRes
    bad := k.bad.filter fun p => !((p.1 = 1 && ab.testBit (p.2 / 512)) || (p.1 = 2 && cb.testBit (p.2 / 512)) || (p.1 = 3 && eng.testBit 1)) }

/-- Banks 1 and 2 of a context take their reset values when its grant is made or reset (R268). -/
def Ctx.resetBanks (k : Ctx) : Ctx := { k with bank := (k.bank.set 0 Bank.reset).set 1 Bank.reset }

/-- A write of CGRANT (R336): ignored with GERR where it would share an item or a partition number, change the grant of a context
that is not EMPTY, or take an item from one; otherwise the items gained are reset first. -/
def State.cgrantWrite (s : State) (c : CoreId) (x : CtxId) (v : Nat) : State :=
  let g := grantOf v
  let old := s.grant c x
  let others := (List.finRange 4).filter (· ≠ x)
  let k := s.core c
  let clash := others.any fun y =>
    let h := s.grant c y
    g.items &&& h.items ≠ 0 || (g.v && h.v && g.part = h.part) ||
      ((if g.v then g.word % 2 ^ 58 else 0) &&& (h.word % 2 ^ 58) ≠ 0 && (k.ctx y).phase ≠ .empty)
  if clash || (g ≠ old && (k.ctx x).phase ≠ .empty) then { s with mg := { s.mg with gerr := true } }
  else if g = old then s
  else
    let gained := if g.part = old.part then g.items - (g.items &&& old.items) else g.items
    let s1 := s.modCore c fun k => ((k.resetItems gained).modCtx x fun q => q.resetBanks)
    let s2 := s1.modCore c fun k => { k with grants := k.grants.set x g }
    { s2 with disp := { s2.disp with select := true } }

end Sys2Proof.Machine
end

