-- ==== Sys2Proof/Machine/ColBase.lean ====
section
/-! DEFINITION. Sys2Proof/Machine/ColBase.lean: the connection table and the end of a collective operation (R323, R327, R330). -/

namespace Sys2Proof.Machine

/-- A connection entry (R323). -/
def State.conn (s : State) (n : Nat) : Conn := ((s.col.conns.find? fun p => p.1 = n).map (·.2)).getD Conn.reset

/-- A connection entry changed; entry 0 does not exist. -/
def State.modConn (s : State) (n : Nat) (f : Conn → Conn) : State :=
  if n = 0 || n > 4095 then s
  else
    let rest := s.col.conns.filter fun p => p.1 ≠ n
    { s with col := { s.col with conns := (rest.filter fun p => p.1 < n) ++ (n, f (s.conn n)) :: rest.filter fun p => p.1 > n } }

/-- The operation names connection `n` (R325). -/
def ColOp.uses (o : ColOp) (n : Nat) : Bool :=
  (o.nxt = n && o.op ≠ 5) || (o.prev = n && (o.op = 1 || o.op = 2 || o.op = 3 || o.op = 5))

/-- An operation changed. -/
def State.modOp (s : State) (p idx : Nat) (f : ColOp → ColOp) : State :=
  { s with col := { s.col with ops := s.col.ops.map fun (o : ColOp) => if o.part = p && o.idx = idx then f o else o } }

/-- The task that started the operation still holds its context (R315, R328); for a context that runs no task, the context itself. -/
def State.opHeld (s : State) (o : ColOp) : Bool :=
  (s.ctx o.core o.ctx).task = o.task && (s.ctx o.core o.ctx).phase ≠ .empty && s.partOf o.core o.ctx = o.part

/-- Bytes of an element of an operation's bucket: 8 for an entry of a remote atomic (R331). -/
def opBytes (op fmt : Nat) : Nat := if op ≥ 6 then 8 else typeWidth fmt / 8

/-- The next operation index of a partition. -/
def State.nextOpIdx (s : State) (p : Nat) : Nat := vget s.col.nextIdx p 1

/-- The unit that makes an operation's accesses. -/
def ColOp.unit (o : ColOp) : UnitId := { core := o.core, ctx := o.ctx, path := 4, chan := o.idx }

/-- The bucket's guest-virtual address, while the context still belongs to the operation's partition. -/
def State.bucketVa (s : State) (o : ColOp) : Option Nat :=
  match (s.handle o.core o.ctx (haddrH o.bucket.toNat)).1 with
  | .bound i => if i.kind = 1 && s.partOf o.core o.ctx = o.part then some (i.base + haddrO o.bucket.toNat) else none
  | _ => none

/-- Where `n` bytes of the bucket stand from an offset on: device-physical pieces with their keys. -/
def State.bucketPieces (s : State) (o : ColOp) (off n : Nat) : List (Nat × Nat × Nat) :=
  match s.bucketVa o with
  | none => []
  | some va => (pieces (n / 4096 + 2) (va + off) 0 n).filterMap fun p =>
      match (s.translate o.core o.ctx (some 6) (o.bucket.toNat + off + p.1) (va + off + p.1) .rd).1 with
      | .ok q => some (q.1, q.2, p.2)
      | .error _ => none

/-- Bytes of the bucket become undefined (R326, R327): free values, as if the engine stored them (R2). -/
def State.bucketSpoil (s : State) (o : ColOp) (off n : Nat) : State :=
  (s.bucketPieces o off n).foldl (fun (t : State) p => t.spoilPhys o.unit 0 p.1 p.2.1 p.2.2) s

/-- An operation ends (R327, R330): with ERR 0 and FE its flag is set from outside the core, with ERR 2 to 5 CLSTAT.FAIL and EVT
are set, while the starting task still holds the context, and the bucket is undefined. -/
def State.endOp (s : State) (o : ColOp) (err : Nat) : State :=
  if o.state = 3 then s
  else
    let s0 := if err = 0 then s else s.bucketSpoil o 0 (o.count * opBytes o.op o.fmt)
    let s1 := s0.modOp o.part o.idx fun o => { o with state := 3, err := err }
    if !s.opHeld o then s1
    else if err = 0 then
      if o.fe then s1.pushFlag o.core { at_ := s.cycle, key := 7, flag := o.flag, add := false, val := 1, setter := 9, score := 0, ctx := o.ctx } else s1
    else s1.modCtx o.core o.ctx fun k => { k with clstat := k.clstat ||| 4, evt := true }

/-- V is cleared (R323): the replay window and queued packets go, and every operation that uses the connection fails with ERR 2. -/
def State.clearConn (s : State) (n err : Nat) : State :=
  let s1 := (s.col.ops.filter fun o => o.state ≠ 3 && o.uses n).foldl (fun (t : State) o => t.endOp o err) s
  s1.modConn n fun k => { k with v := false, window := [], recvq := [], nacks := 0, rounds := 0, unacked := 0, ackDue := none,
                                 backoff := none, rtoDue := none }

/-- A connection fails (R324): FAIL is set and its operations end with ERR 2. -/
def State.failConn (s : State) (n : Nat) : State :=
  let s1 := (s.col.ops.filter fun o => o.state ≠ 3 && o.uses n).foldl (fun (t : State) o => t.endOp o 2) s
  s1.modConn n fun k => { k with fail := true, window := [], backoff := none, rtoDue := none }

end Sys2Proof.Machine
end

