-- ==== Sys2Proof/Machine/Csr.lean ====
section
/-! DEFINITION. Sys2Proof/Machine/Csr.lean: the control and status registers (R42, R92, R93, R106, R136, R146, R199, R214,
R226, R267, R281, R286, R320, R330, R358) and the tensor header fields (R94, R95). -/

namespace Sys2Proof.Machine

/-! ### Reads -/

/-- The event codes that a context's counters count (R354); 0 counts nothing. -/
def cntListed (e : Nat) : Bool :=
  e ≤ 7 || (0x10 ≤ e && e ≤ 0x12) || e = 0x18 || e = 0x19 || e = 0x20 || e = 0x21 || (0x28 ≤ e && e ≤ 0x2A) || e = 0x30 || e = 0x31 ||
  e = 0x38 || e = 0x39 || e = 0x3A || e = 0x40

/-- CNTn as recipient `rc` reads it (R320, R352 to R354). -/
def State.cntRead (s : State) (c : CoreId) (x : CtxId) (n rc : Nat) : Nat :=
  let k := s.ctx c x
  let e := vget k.cntsel n 0 % 256
  let g := s.gran (s.partOf c x) 1 rc e
  let v := if vget k.cntCode n false then vget k.cnt n 0 else if cntListed e then vget k.cnt n 0 else codeUnavail
  if vget k.cntCode n false then (if g.1 = 0 then codeWithheld else v)
  else blink g.1 (vget (vget k.cntWin n (Vector.replicate 3 0)) rc 0) v

/-- TRAPCAUSE's word of a recorded trap (R267). -/
def TrapRec.causeWord (r : TrapRec) : Nat := b2n r.async * 2 ^ 63 + r.code % 2 ^ 16 * 2 ^ 16 + r.tag % 16 * 2 ^ 8 + r.cause % 2 ^ 8

/-- TRAPSEQ's TAG and SEQ of a recorded trap: the cursor's cut while one is held. -/
def Bank.seqWord (b : Bank) (r : TrapRec) : Nat :=
  let q := match b.cut with | some c => (c.ents.get (Fin.ofNat 7 r.tag)).seq | none => r.seq
  r.tag % 16 * 2 ^ 32 + q % 2 ^ 32

/-- A register of a trap bank (R267), by its place 0 to 7 from 0x040. -/
def Ctx.bankRead (k : Ctx) (l i : Nat) : Nat :=
  let b := k.bankAt l
  let t := b.traps[b.tsel]?
  match i with
  | 0 => (match t with | some r => r.causeWord | none => 0)
  | 1 => b.pc.toNat
  | 2 => (match t with | some r => (vget r.det b.didx 0).toNat | none => 0)
  | 3 => b.vec.toNat
  | 4 => b.scr.toNat
  | 5 => b2n b.valid * 2 ^ 63 + b2n k.bracket.isSome * 2 ^ 62 + b2n b.ovf * 2 ^ 61 + b.traps.length % 32 * 2 ^ 56 + b.tsel % 8 * 4 + b.didx % 4
  | 6 => b.pl % 4
  | _ => b2n b.skip * 2 ^ 63 + (match t with | some r => b.seqWord r | none => 0)

/-- OBSCTL's word (R358). -/
def Ctx.obsctl (k : Ctx) : Nat := b2n k.obsEn * 2 ^ 63 + k.obsLsz % 32 * 2 ^ 58 + k.obsTail % 2 ^ 29 * 2 ^ 29 + k.obsHead % 2 ^ 29

/-- Least PL to read a CSR, and to write it; `none` for a register that is RO (R92, R93, R226, R267). TRAPCAUSE and TRAPDET
have RO fields only, so they are RO registers (DEDUCED, assumption log 12). -/
def csrLevels (n : Nat) : Nat × Option Nat :=
  if n ≤ 3 || n = 0x20 || (0x108 ≤ n && n ≤ 0x10F) then (0, none)
  else if n = 0x40 || n = 0x42 then (1, none)
  else if (0x40 ≤ n && n ≤ 0x47) || n = 0x30 || n = 0x31 then (1, some 1)
  else if n = 0x32 then (1, some 2)
  else (0, some 0)

/-- The value of a CSR of the running context. -/
def State.csrValue (s : State) (n : Nat) : Nat :=
  let k := s.me
  if n = 0 then (s.cycle - k.dispatchAt) % 2 ^ 64
  else if n = 1 then s.cur.core.val
  else if n = 2 then s.cur.ctx.val
  else if n = 3 then s.myPart
  else if n = 4 then b2n k.evt * 2 ^ 8 + b2n k.fork.isSome * 2 ^ 7 + k.pl % 4
  else if n = 0x10 then k.slipwin
  else if n = 0x11 then k.vstat
  else if n = 0x12 then k.vrkey.toNat
  else if n = 0x13 then k.vrctr.toNat
  else if n = 0x14 then k.mstat
  else if n = 0x15 then k.cstat
  else if n = 0x16 then k.sstat
  else if n = 0x17 then k.saecfg
  else if n = 0x18 then k.clidx % 2 ^ 32 * 2 ^ 32 + k.clstat
  else if n = 0x19 then k.obsring.toNat
  else if n = 0x1A then k.obsctl
  else if n = 0x20 then b2n k.wfeto
  else if n = 0x30 then k.htbase
  else if n = 0x31 then k.s1root.toNat
  else if n = 0x32 then k.s2root.toNat
  else if 0x40 ≤ n && n ≤ 0x47 then k.bankRead k.pl (n - 0x40)
  else if 0x100 ≤ n && n ≤ 0x107 then vget k.cntsel (n - 0x100) 0
  else s.cntRead s.cur.core s.cur.ctx (n - 0x108) 2

/-- Reading a CSR: `none` below its level (R79, R92). -/
def State.csrRead (s : State) (n : Nat) : Option Word :=
  if s.me.pl < (csrLevels n).1 then none else some (BitVec.ofNat 64 (s.csrValue n))

/-! ### Writes -/

/-- SLIPWIN as it stores a write (R42). -/
def slipStore (v : Nat) : Nat := let w := v % 2 ^ 13; if w = 0 then 1 else Nat.min w 4096

/-- OBSCTL.LSZ as it stores a write (R358). -/
def lszStore (v : Nat) : Nat := if 12 ≤ v && v ≤ 30 then v else 12

/-- A register of the trap bank of the current level written (R267): `none` raises the operand-range trap. -/
def Ctx.bankWrite (k : Ctx) (i v : Nat) : Option Ctx :=
  let put (f : Bank → Bank) : Option Ctx := some (k.modBank k.pl f)
  match i with
  | 1 => if v % 8 ≠ 0 then none else put fun b => { b with pc := BitVec.ofNat 64 v }
  | 3 => if v % 8 ≠ 0 then none else put fun b => { b with vec := BitVec.ofNat 64 v }
  | 4 => put fun b => { b with scr := BitVec.ofNat 64 v }
  | 5 => put fun b => { b with tsel := bits v 2 3, didx := bits v 0 2 }
  | 6 => if bits v 0 2 > k.pl then none else put fun b => { b with pl := bits v 0 2 }
  | 7 => put fun b => { b with skip := v.testBit 63 }
  | _ => none

/-- A CSR of a context takes a value: bits of RO fields are not stored; CTXSTAT.EVT clears where the value holds a 1. -/
def Ctx.csrStore (k : Ctx) (n v : Nat) : Option Ctx :=
  if n = 4 then some (if v.testBit 8 then { k with evt := false } else k)
  else if n = 0x10 then some { k with slipwin := slipStore v }
  else if n = 0x11 then some { k with vstat := v &&& 0xDF }
  else if n = 0x12 then some { k with vrkey := BitVec.ofNat 64 v }
  else if n = 0x13 then some { k with vrctr := BitVec.ofNat 64 v }
  else if n = 0x14 then some { k with mstat := v % 16 }
  else if n = 0x15 then some { k with cstat := v % 32 }
  else if n = 0x16 then some { k with sstat := v % 16 }
  else if n = 0x17 then some { k with saecfg := v % 8 }
  else if n = 0x18 then some { k with clstat := v &&& 6 }
  else if n = 0x19 then some { k with obsring := BitVec.ofNat 64 v }
  else if n = 0x1A then some { k with obsEn := v.testBit 63, obsLsz := lszStore (bits v 58 5), obsTail := bits v 29 29 }
  else if n = 0x30 then some { k with htbase := bits v 16 32 * 2 ^ 16 }
  else if n = 0x31 then some { k with s1root := BitVec.ofNat 64 (bits v 12 52 * 2 ^ 12 + v % 2) }
  else if n = 0x32 then some { k with s2root := BitVec.ofNat 64 (bits v 12 26 * 2 ^ 12 + v % 2) }
  else if 0x40 ≤ n && n ≤ 0x47 then k.bankWrite (n - 0x40) v
  else if 0x100 ≤ n && n ≤ 0x107 then
    some { k with cntsel := vmod k.cntsel (n - 0x100) fun _ => v % 2 ^ 9, cnt := vmod k.cnt (n - 0x100) fun _ => 0,
                  cntCode := vmod k.cntCode (n - 0x100) fun _ => false,
                  cntWin := vmod k.cntWin (n - 0x100) fun _ => Vector.replicate 3 0 }
  else none

/-- Writing a CSR of the running context: `none` for an RO register, below its level, or where the register refuses the value. -/
def State.csrWrite (s : State) (n : Nat) (v : Word) : Option Ctx :=
  match (csrLevels n).2 with
  | none => none
  | some l => if s.me.pl < l then none else s.me.csrStore n v.toNat

/-- CSRR (R92). -/
def execCsrr (d : SReg) (csr : BitVec 30) (s : State) : Host.Outcome State Fault Refusal :=
  if !csrAssigned csr.toNat then .fault .illFormed
  else match s.csrRead csr.toNat with
    | none => .next s.trapRange
    | some v => .next (s.issued.wrLate d v 2)

/-- CSRW (R92). -/
def execCsrw (a : SReg) (csr : BitVec 30) (s : State) : Host.Outcome State Fault Refusal :=
  if !csrAssigned csr.toNat then .fault .illFormed
  else
    let t := s.issued
    match s.csrWrite csr.toNat (s.rdS a), t.csrWrite csr.toNat (s.rdS a) with
    | some _, some k => .next (t.modMe fun _ => k)
    | _, _ => .next s.trapRange

/-- CSRX (R92): the old value is read, the new one written and sD takes the old one, as one step. -/
def execCsrx (d a : SReg) (csr : BitVec 30) (s : State) : Host.Outcome State Fault Refusal :=
  if !csrAssigned csr.toNat then .fault .illFormed
  else
    let t := s.issued
    match s.csrRead csr.toNat, s.csrWrite csr.toNat (s.rdS a), t.csrWrite csr.toNat (s.rdS a) with
    | some v, some _, some k => .next ((t.modMe fun _ => k).wrLate d v 2)
    | _, _, _ => .next s.trapRange

/-! ### Header fields (R94, R95) -/

/-- Low bit and width of a header field, by its code. -/
def hdrField (f : Nat) : Nat × Nat :=
  match f with
  | 0 => (0, 64) | 1 => (48, 16) | 2 => (0, 48) | 3 => (0, 17) | 4 => (64, 16) | 5 => (80, 16) | 6 => (96, 16) | 7 => (112, 16)
  | 8 => (128, 32) | 9 => (160, 32) | 10 => (192, 6) | 11 => (198, 3) | 12 => (201, 1) | 13 => (202, 8) | 14 => (210, 1)
  | 15 => (211, 2) | 16 => (213, 13) | 17 => (232, 24) | 18 => (0, 64) | 19 => (64, 64) | 20 => (128, 64) | _ => (192, 64)

/-- A value fits a header field: BIAS as a signed value, every other as an unsigned one (R95). -/
def hdrFits (f : Nat) (v : Word) : Bool :=
  if f = 13 then -128 ≤ v.toInt && v.toInt ≤ 127 else v.toNat < 2 ^ (hdrField f).2

/-- A header with a field replaced. -/
def hdrPut (h : Header) (f : Nat) (v : Word) : Header :=
  BitVec.ofNat 256 (setBits h.toNat (hdrField f).1 (hdrField f).2 v.toNat)

/-- A field read: BIAS sign-extended, every other zero-extended (R95). -/
def hdrGet (h : Header) (f : Nat) : Word :=
  let v := bits h.toNat (hdrField f).1 (hdrField f).2
  if f = 13 then BitVec.ofInt 64 (sgn 8 v) else BitVec.ofNat 64 v

/-- HDRW (R95). -/
def execHdrw (d : HReg) (field : Fin 32) (a : SReg) (s : State) : Host.Outcome State Fault Refusal :=
  if field.val ≥ 22 then .fault .illFormed
  else if !hdrFits field.val (s.rdS a) then .next s.trapRange
  else .next (s.issued.wrH d (hdrPut (s.rdH d) field.val (s.rdS a)))

/-- HDRR (R95). -/
def execHdrr (d : SReg) (a : HReg) (field : Fin 32) (s : State) : Host.Outcome State Fault Refusal :=
  if field.val ≥ 22 then .fault .illFormed
  else .next (s.issued.wrLate d (hdrGet (s.rdH a) field.val) 2)

end Sys2Proof.Machine
end

