-- ==== Sys2Proof/Machine/Regs.lean ====
section
/-! DEFINITION. Sys2Proof/Machine/Regs.lean: the management block behind handle 4094 and PF0's BAR, and the registers of the host
functions (R313, R322, R323, R332 to R341, R355, R356, R358, R359, R361, R362, R364 to R371). -/

namespace Sys2Proof.Machine

/-! ### Reads -/

/-- A field of a register's word. -/
def fld (v lo w : Nat) : Nat := v % 2 ^ w * 2 ^ lo

/-- PENT's word (R337). -/
def Part.pent (q : Part) : Nat :=
  fld q.state 62 2 + fld q.key 56 6 + fld q.hcore.val 49 7 + fld q.hctx.val 47 2 + fld (b2n q.log) 43 1 + fld q.budget 16 16

/-- EXH of a partition (R339). -/
def Part.exh (q : Part) : Bool := q.budget ≠ 0 && q.spent ≥ q.budget

/-- Doubleword `i` of a connection entry (R323). -/
def Conn.dw (k : Conn) (i : Nat) : Nat :=
  match i with
  | 0 => fld (b2n k.v) 63 1 + fld (b2n k.pres) 62 1 + fld (b2n k.rpl) 61 1 + fld (b2n k.fail) 60 1 + fld k.part 56 4 + fld k.port 55 1 +
         fld k.core 48 7 + fld k.ctx 46 2 + fld k.pconn 16 16 + fld k.pudp 0 16
  | 1 => k.paddr % 2 ^ 64
  | 2 => k.paddr / 2 ^ 64 % 2 ^ 64
  | 3 => k.win.toNat
  | 4 => k.wlen % 2 ^ 64
  | 5 => fld k.bo 48 16 + fld k.rto 32 16 + fld k.rmax 24 8
  | 6 => fld k.txseq 24 24 + fld k.rxseq 0 24
  | _ => 0

/-- WPEND of a context as recipient `rc` reads it (R359). -/
def State.wpend (s : State) (c : CoreId) (x : CtxId) (rc : Nat) : Nat :=
  let k := s.ctx c x
  let g := s.gran (s.partOf c x) 5 rc 0
  if g.1 = 0 then codeWithheld
  else match k.waitFrom, (k.head .ctl).bind (·.ins) with
    | some t, some (.waitf f _ _ cond gate) =>
      let cyc := s.cycle - t
      let win := let age := s.windowAge g.2; if cyc ≤ age then 0 else cyc - age
      fld f.val 58 6 + fld cond.val 56 2 + fld gate.toNat 50 6 + 2 ^ 49 + blink g.1 win cyc % 2 ^ 49
    | _, _ => 0

/-- BKPT's control doubleword (R362). -/
def Bkpt.ctl (b : Bkpt) : Nat := fld (b2n b.en) 63 1 + fld (b2n b.hit) 62 1 + fld b.part 58 4 + fld b.task 0 32

/-- DSEL's EVENT is one that dies count (R355). -/
def dcntListed (e : Nat) : Bool := 0x80 ≤ e && e ≤ 0x85

/-- A counter of a die. -/
def State.dieCnt (s : State) (d i : Nat) : DieCnt :=
  vget (vget s.obs.dcnt d (Vector.replicate 16 { sel := 0, cnt := 0, win := Vector.replicate 3 0 })) i { sel := 0, cnt := 0, win := Vector.replicate 3 0 }

/-- A counter of a die changed. -/
def State.modDie (s : State) (d i : Nat) (f : DieCnt → DieCnt) : State :=
  { s with obs := { s.obs with dcnt := vmod s.obs.dcnt d fun r => vmod r i f } }

/-- What a die's counter has counted up to now. Corrected soft errors are counted as they come; the other events depend on the caches and the
fabric, so what was counted since it was looked at last is a free value (assumption log 5). -/
def State.dieCounts (s : State) (d i : Nat) : State :=
  let q := s.dieCnt d i
  let e := q.sel % 256
  if q.sel.testBit 15 && dcntListed e && e ≠ 0x84 then
    (s.skipFresh 1).modDie d i fun (q : DieCnt) => { q with cnt := satCount (q.cnt + (s.freeVal 64).toNat) }
  else s

/-- DCNT of a die's counter as recipient `rc` reads it (R352, R353, R355). With ALL the exact sum appears only when every ACTIVE
partition's policy gives exact. -/
def State.dcntRead (s : State) (d i rc : Nat) : Nat × State :=
  let s1 := s.dieCounts d i
  let q := s1.dieCnt d i
  let e := q.sel % 256
  let v := if dcntListed e then q.cnt else codeUnavail
  if q.sel.testBit 14 then
    let all := (List.range 16).all fun p => (s.part p).state ≠ 1 || (s.gran p 2 rc e).1 = 4
    (if all then v else codeWithheld, s1)
  else (blink (s.gran (bits q.sel 8 4) 2 rc e).1 (vget q.win rc 0) v, s1)

/-- The energy attributed to a partition up to now: what was since it was looked at last is a free value (assumption log 5). -/
def State.powerCounts (s : State) (p : Nat) : State :=
  (s.skipFresh 1).modPart p fun q => { q with ppwr := satCount (q.ppwr + (s.freeVal 32).toNat) }

/-- PPWR (R364). -/
def State.ppwrRead (s : State) (p rc : Nat) : Nat × State :=
  let s1 := s.powerCounts p
  (blink (s.gran p 7 rc 0).1 (vget (s.part p).pwrWin rc 0) (s1.part p).ppwr, s1)

/-- A ring's four registers (R356, R358): base, then EN and LSZ, HEAD, and TAIL, each at its place in OBSCTL. -/
def Ring.dw (r : Ring) (i : Nat) : Nat :=
  match i with
  | 0 => r.base | 1 => fld (b2n r.en) 63 1 + fld r.lsz 58 5 | 2 => fld r.head 0 29 | _ => fld r.tail 29 29

/-- PCMDST's word (R338). -/
def Mgmt.pcmdst (m : Mgmt) : Nat :=
  fld (b2n m.busy) 63 1 + fld (b2n m.gerr) 62 1 + fld m.err 48 8 + fld m.causeCode 32 16 + fld m.detail 0 32

/-- Place `i` of a table of `n` registers of `w` bytes from `base`, if the offset lies in it. -/
def slotOf (off base w n : Nat) : Option Nat := if base ≤ off && off < base + w * n then some ((off - base) / w) else none

/-- A register of the management block (R335, R356) as recipient `rc` reads it (1 hypervisor, 0 operator). An offset that no table
names reads 0 (DEDUCED, assumption log 13). -/
def State.blockRead (s : State) (off rc : Nat) : Nat × State :=
  let pure (v : Nat) : Nat × State := (v, s)
  if let some p := slotOf off 0x0000 8 16 then pure (s.part p).pent
  else if let some p := slotOf off 0x0080 8 16 then pure (s.part p).floor
  else if off = 0x0100 then pure s.mg.pcmd.toNat
  else if off = 0x0108 then pure s.mg.pcmdst
  else if off = 0x0110 then pure s.mg.slice
  else if off = 0x0118 then pure s.mg.rtmo
  else if let some p := slotOf off 0x0200 8 16 then pure (fld (b2n (s.part p).exh) 32 1 + fld (s.part p).spent 0 32)
  else if let some p := slotOf off 0x0300 16 16 then
    pure (if off % 16 = 0 then (s.part p).tvec1.toNat else (s.part p).tvec2.toNat)
  else if let some p := slotOf off 0x0400 32 16 then
    pure (match (off % 32) / 8 with | 0 => (s.part p).logbase | 1 => (s.part p).logsize | 2 => (s.part p).loghead | _ => 0)
  else if let some i := slotOf off 0x1000 8 512 then pure (s.grant (Fin.ofNat 128 (i / 4)) (Fin.ofNat 4 i)).word
  else if let some p := slotOf off 0x2000 8 16 then
    pure (fld (s.dp p).pool 32 16 + fld (s.dp p).futmax 16 16 + fld (s.dp p).quantum 0 8)
  else if off = 0x2080 then pure s.disp.age
  else if off = 0x3000 then pure s.col.carbd
  else if off = 0x3008 then pure s.col.carbp
  else if off = 0x3010 then pure s.gtime
  else if off = 0x3018 then pure s.col.gstart
  else if off = 0x3020 then pure s.col.ggrace
  else if off = 0x3028 then pure s.col.gpart
  else if off = 0x3030 then pure (fld (b2n s.col.gabort) 2 1 + fld (b2n s.col.glate) 1 1 + fld (b2n s.col.gready) 0 1)
  else if off = 0x3040 then pure s.col.brbase
  else if off = 0x3048 then pure s.col.brsize
  else if off = 0x3050 then pure s.col.brhead
  else if off = 0x3058 then pure s.col.brtail
  else if off = 0x3060 then pure s.col.dport
  else if off = 0x3068 then pure s.col.mport
  else if let some p := slotOf off 0x5000 64 16 then
    pure (if off % 64 < 32 then (s.part p).hring.dw (off % 32 / 8) else (s.part p).oring.dw (off % 32 / 8))
  else if let some i := slotOf off 0x6000 8 512 then pure (s.wpend (Fin.ofNat 128 (i / 4)) (Fin.ofNat 4 i) rc)
  else if let some i := slotOf off 0x7000 16 128 then
    if off % 16 = 0 then pure (vget (vget s.obs.dcnt (i / 16) (Vector.replicate 16 { sel := 0, cnt := 0, win := Vector.replicate 3 0 }))
        (i % 16) { sel := 0, cnt := 0, win := Vector.replicate 3 0 }).sel
    else s.dcntRead (i / 16) (i % 16) rc
  else if let some b := slotOf off 0x8000 16 16 then
    let k := vget s.obs.bkpt b { name := 0, en := false, hit := false, part := 0, task := 0 }
    pure (if off % 16 = 0 then k.name.toNat else k.ctl)
  else if let some p := slotOf off 0x9000 8 16 then s.ppwrRead p rc
  else if off = 0x9100 then pure (fld (b2n s.obs.sampEn) 63 1 + fld s.obs.sampPart 56 4 + fld s.obs.sampPer 0 6)
  else if let some i := slotOf off 0xA000 8 4096 then
    pure (s.cntRead (Fin.ofNat 128 (i / 32)) (Fin.ofNat 4 (i / 8)) (i % 8) rc)
  else if let some i := slotOf off 0x40000 8 32768 then pure (if i < 8 then 0 else (s.conn (i / 8)).dw (i % 8))
  else pure 0

/-! ### Writes -/

/-- The bits of a word that lie outside the listed fields (low bit, width). -/
def outside (v : Nat) (fs : List (Nat × Nat)) : Bool :=
  (setBitsOf 64 v).any fun i => !fs.any fun f => f.1 ≤ i && i < f.1 + f.2

/-- The reserved bits of a register of the block are clear in a value written (R335); an offset with no register is all reserved. -/
def blockFields (off : Nat) : List (Nat × Nat) :=
  if off < 0x80 then [(62, 2), (56, 6), (49, 7), (47, 2), (43, 1), (16, 16)]
  else if off < 0x100 then [(0, 32)]
  else if off = 0x100 then [(0, 64)]
  else if off = 0x108 then [(63, 1), (62, 1), (48, 8), (32, 16), (0, 32)]
  else if off = 0x110 || off = 0x118 then [(0, 32)]
  else if 0x200 ≤ off && off < 0x280 then [(0, 33)]
  else if 0x300 ≤ off && off < 0x400 then [(3, 61)]
  else if 0x400 ≤ off && off < 0x600 then (if off % 32 = 24 then [] else [(0, 64)])
  else if 0x1000 ≤ off && off < 0x2000 then [(59, 5), (0, 58)]
  else if 0x2000 ≤ off && off < 0x2080 then [(32, 16), (16, 16), (0, 8)]
  else if off = 0x2080 then [(0, 6)]
  else if off = 0x3000 then [(0, 16)]
  else if off = 0x3008 then [(0, 8)]
  else if off = 0x3010 || off = 0x3018 || off = 0x3020 then [(0, 64)]
  else if off = 0x3028 then [(0, 16)]
  else if off = 0x3030 then [(0, 3)]
  else if 0x3040 ≤ off && off < 0x3060 then [(0, 64)]
  else if off = 0x3060 || off = 0x3068 then [(0, 16)]
  else if 0x5000 ≤ off && off < 0x5400 then
    (match off % 32 / 8 with | 0 => [(12, 26)] | 1 => [(63, 1), (58, 5)] | 2 => [(0, 29)] | _ => [(29, 29)])
  else if 0x6000 ≤ off && off < 0x7000 then [(0, 64)]
  else if 0x7000 ≤ off && off < 0x7800 then (if off % 16 = 0 then [(14, 2), (8, 4), (0, 8)] else [(0, 64)])
  else if 0x8000 ≤ off && off < 0x8100 then (if off % 16 = 0 then [(51, 13), (0, 32)] else [(58, 6), (0, 32)])
  else if 0x9000 ≤ off && off < 0x9080 then [(0, 64)]
  else if off = 0x9100 then [(63, 1), (56, 4), (0, 6)]
  else if 0xA000 ≤ off && off < 0x12000 then [(0, 64)]
  else if 0x40040 ≤ off && off < 0x80000 then
    (match off % 64 / 8 with
     | 0 => [(46, 18), (0, 32)] | 5 => [(24, 40)] | 6 => [(0, 48)] | 7 => [] | _ => [(0, 64)])
  else []

/-- The class shares: the floors of class `k` (field at bit 8·k) over all partitions, with partition `p` taking `v` (R341). -/
def State.floorSum (s : State) (k p v : Nat) : Nat :=
  ((List.range 16).map fun i => bits (if i = p then v else (s.part i).floor) (8 * k) 8).sum

/-- A class's share S_k = 16·W_k; field order from low bits: MC, COL, SAE, HST in both registers (R333, R341). -/
def classShare (carbd k : Nat) : Nat := 16 * bits carbd (4 * k) 4

/-- PFLOOR written (R341): ignored with GERR when the floors of some class would exceed its share. -/
def State.pfloorWrite (s : State) (p v : Nat) : State :=
  if (List.range 4).any fun k => s.floorSum k p v > classShare s.col.carbd k then { s with mg := { s.mg with gerr := true } }
  else s.modPart p fun q => { q with floor := v % 2 ^ 32 }

/-- CARBD written (R333, R341): GERR where the floors would exceed a share, whatever else is wrong with the value. -/
def State.carbdWrite (s : State) (v : Nat) : State :=
  if (List.range 4).any fun k => s.floorSum k 16 0 > classShare v k then { s with mg := { s.mg with gerr := true } }
  else if ((List.range 4).map fun k => bits v (4 * k) 4).sum > 16 then s
  else { s with col := { s.col with carbd := v % 2 ^ 16 } }

/-- CARBP written (R333). -/
def State.carbpWrite (s : State) (v : Nat) : State :=
  if bits v 0 4 + bits v 4 4 > 16 then s else { s with col := { s.col with carbp := v % 256 } }

/-- DSEL written (R355): DCNT is cleared. -/
def State.dselWrite (s : State) (d i v : Nat) : State :=
  { s with obs := { s.obs with dcnt := vmod s.obs.dcnt d fun r => vmod r i fun _ =>
      { sel := v &&& 0xCFFF, cnt := 0, win := Vector.replicate 3 0 } } }

/-- READY written 1 (R334): the hypervisor has restored; LATE clears. -/
def State.gReady (s : State) : State := { s with col := { s.col with gready := true, glate := false } }

/-- ABORT written 1 (R334): every operation of a GPART partition ends with ERR 4 and those partitions' connections are cleared. -/
def State.gAbort (s : State) : State :=
  let mine (p : Nat) : Bool := s.col.gpart.testBit p
  let s1 := (s.col.ops.filter fun o => o.state ≠ 3 && mine o.part).foldl (fun (t : State) o => t.endOp o 4) s
  (s.col.conns.filter fun p => p.2.v && mine p.2.part).foldl (fun (t : State) p => t.clearConn p.1 4) s1

/-- A write of a connection's doubleword (R323): clearing V discards its packets and fails its operations; RPL with PRES starts the
replay of its bounce entries; FAIL is W1C. -/
def State.connWrite (s : State) (n i v : Nat) : State :=
  match i with
  | 0 =>
    let old := s.conn n
    let s1 := if old.v && !v.testBit 63 then s.clearConn n 2 else s
    s1.modConn n fun k => { k with
      v := v.testBit 63, pres := v.testBit 62, rpl := k.rpl || (v.testBit 61 && v.testBit 62),
      fail := k.fail && !v.testBit 60, part := bits v 56 4, port := bits v 55 1, core := bits v 48 7, ctx := bits v 46 2,
      pconn := bits v 16 16, pudp := bits v 0 16 }
  | 1 => s.modConn n fun k => { k with paddr := k.paddr / 2 ^ 64 * 2 ^ 64 + v }
  | 2 => s.modConn n fun k => { k with paddr := k.paddr % 2 ^ 64 + v * 2 ^ 64 }
  | 3 => s.modConn n fun k => { k with win := BitVec.ofNat 64 v }
  | 4 => s.modConn n fun k => { k with wlen := v }
  | 5 => s.modConn n fun k => { k with bo := bits v 48 16, rto := bits v 32 16, rmax := bits v 24 8 }
  | _ => s

/-- A ring register written (R358). -/
def Ring.put (r : Ring) (i v : Nat) : Ring :=
  match i with
  | 0 => { r with base := bits v 12 26 * 2 ^ 12 }
  | 1 => { r with en := v.testBit 63, lsz := lszStore (bits v 58 5) }
  | 2 => r
  | _ => { r with tail := bits v 29 29 }

/-- A store to PCMD (R338): ignored while a command runs, else it starts one. -/
def State.pcmdWrite (s : State) (v : Nat) : State :=
  if s.mg.busy then s
  else { s with mg := { s.mg with pcmd := BitVec.ofNat 64 v, busy := true, err := 0, causeCode := 0, detail := 0, running := 1 } }

/-- DAGE as it stores a write (R313). -/
def ageStore (v : Nat) : Nat := let a := v % 64; if a = 0 || (10 ≤ a && a ≤ 30) then a else 30

/-- GSTAT written (R334): READY is stored, a 1 in ABORT aborts. -/
def State.gstatWrite (s : State) (v : Nat) : State :=
  let s1 := if v.testBit 0 then s.gReady else { s with col := { s.col with gready := false } }
  if v.testBit 2 then s1.gAbort else s1

/-- A register of the management block written, its reserved bits aside (R335). Fields that are RO are not stored. -/
def State.blockWrite (s : State) (off v : Nat) : State :=
  if let some p := slotOf off 0x0000 8 16 then
    { s with disp := { s.disp with select := true } }.modPart p fun q => { q with
      key := if q.state = 0 then bits v 56 6 else q.key, hcore := Fin.ofNat 128 (bits v 49 7), hctx := Fin.ofNat 4 (bits v 47 2),
      log := v.testBit 43, budget := bits v 16 16 }
  else if let some p := slotOf off 0x0080 8 16 then s.pfloorWrite p v
  else if off = 0x0100 then s.pcmdWrite v
  else if off = 0x0108 then (if v.testBit 62 then { s with mg := { s.mg with gerr := false } } else s)
  else if off = 0x0110 then { s with mg := { s.mg with slice := v % 2 ^ 32 } }
  else if off = 0x0118 then { s with mg := { s.mg with rtmo := v % 2 ^ 32 } }
  else if let some p := slotOf off 0x0300 16 16 then
    s.modPart p fun q => if off % 16 = 0 then { q with tvec1 := BitVec.ofNat 64 v } else { q with tvec2 := BitVec.ofNat 64 v }
  else if let some p := slotOf off 0x0400 32 16 then
    s.modPart p fun q => match (off % 32) / 8 with
      | 0 => { q with logbase := bits v 7 31 * 2 ^ 7 } | 1 => { q with logsize := v } | 2 => { q with loghead := v } | _ => q
  else if let some i := slotOf off 0x1000 8 512 then s.cgrantWrite (Fin.ofNat 128 (i / 4)) (Fin.ofNat 4 i) v
  else if let some p := slotOf off 0x2000 8 16 then
    s.modDp p fun d => { d with pool := bits v 32 16, futmax := bits v 16 16, quantum := if v % 256 = 0 then 1 else v % 256 }
  else if off = 0x2080 then { s with disp := { s.disp with age := ageStore v } }
  else if off = 0x3000 then s.carbdWrite v
  else if off = 0x3008 then s.carbpWrite v
  else if off = 0x3018 then { s with col := { s.col with gstart := v, gangDone := false } }
  else if off = 0x3020 then { s with col := { s.col with ggrace := v } }
  else if off = 0x3028 then { s with col := { s.col with gpart := v % 2 ^ 16 } }
  else if off = 0x3030 then s.gstatWrite v
  else if off = 0x3040 then { s with col := { s.col with brbase := bits v 12 26 * 2 ^ 12 } }
  else if off = 0x3048 then { s with col := { s.col with brsize := v } }
  else if off = 0x3058 then { s with col := { s.col with brtail := v } }
  else if off = 0x3060 then { s with col := { s.col with dport := v % 2 ^ 16 } }
  else if off = 0x3068 then { s with col := { s.col with mport := v % 2 ^ 16 } }
  else if let some p := slotOf off 0x5000 64 16 then
    s.modPart p fun q => if off % 64 < 32 then { q with hring := q.hring.put (off % 32 / 8) v } else { q with oring := q.oring.put (off % 32 / 8) v }
  else if let some i := slotOf off 0x7000 16 128 then (if off % 16 = 0 then s.dselWrite (i / 16) (i % 16) v else s)
  else if let some b := slotOf off 0x8000 16 16 then
    { s with obs := { s.obs with bkpt := vmod s.obs.bkpt b fun k =>
        if off % 16 = 0 then { k with name := BitVec.ofNat 64 v }
        else { k with en := v.testBit 63, hit := k.hit && !v.testBit 62, part := bits v 58 4, task := bits v 0 32 } } }
  else if off = 0x9100 then
    let per := bits v 0 6
    { s with obs := { s.obs with sampEn := v.testBit 63, sampPart := bits v 56 4,
                                 sampPer := if 10 ≤ per && per ≤ 30 then per else 30, sampAt := s.cycle } }
  else if let some i := slotOf off 0x40000 8 32768 then (if i < 8 then s else s.connWrite (i / 8) (i % 8) v)
  else s

/-! ### The host's functions (R365 to R368) -/

/-- BOOTST's word (R369). -/
def HostIf.bootst (h : HostIf) : Nat := fld h.fwver 32 32 + fld h.booterr 4 4 + fld (b2n h.bootsrc) 3 1 + fld h.stage 0 3

/-- HQCFG's word (R367). -/
def HQ.word (q : HQ) : Nat := fld (b2n q.v) 63 1 + fld q.part 59 4 + fld (b2n q.lerr) 58 1 + fld q.pasid 20 20

/-- A host DMA queue. -/
def State.hq (s : State) (q : Nat) : HQ := vget s.host.hq q { v := false, part := 0, lerr := false, pasid := 0, pend := none }

/-- Eight bytes of a byte image from offset `i`. -/
def imgAt (bs : List Byte) (i : Nat) : Nat := leNat ((bs ++ List.replicate 8 0).drop i |>.take 8)

/-- A doubleword of PF0's BAR0 (R365, R366). After both images failed PF0 answers only BOOTST (R369). -/
def State.pf0Read (s : State) (off : Nat) : Nat × State :=
  let h := s.host
  if h.halted0 && h.stage = 0 && off ≠ 0x80000 then (0, s)
  else if off < 0x80000 then s.blockRead off 0
  else if off = 0x80000 then (h.bootst, s)
  else if off = 0x80008 then (fld (h.bootwinBase / 4096) 12 52 + fld (b2n h.bootwinBusy) 1 1 + fld (b2n h.bootwinV) 0 1, s)
  else if off = 0x80010 then (h.bootlen, s)
  else if 0x80040 ≤ off && off < 0x80080 then (imgAt h.fwdig (off - 0x80040), s)
  else if 0x80080 ≤ off && off < 0x800A0 then (imgAt h.nonce (off - 0x80080), s)
  else if off = 0x800A0 then (fld (b2n h.areqGo) 63 1 + fld (b2n h.areqDone) 62 1 + fld h.areqPart 0 4, s)
  else if 0x80100 ≤ off && off < 0x80240 then (imgAt h.arep (off - 0x80100), s)
  else if off = 0x80280 then
    -- PWR and TMAX are measurements: free values (assumption log 5)
    (fld (s.freeVal 24).toNat 40 24 + fld (Config.free 8 (s.fresh + 1)).toNat 32 8 + fld h.tthr 24 8 + fld 115 16 8 + fld (b2n h.thr) 0 1,
     s.skipFresh 2)
  else if let some q := slotOf off 0x90000 64 64 then (if off % 64 = 0 then (s.hq q).word else 0, s)
  else (0, s)

/-- HQCFG written (R367): it takes effect after a command of the queue in progress. LERR is W1C. -/
def State.hqcfgWrite (s : State) (q v : Nat) : State :=
  let put (k : HQ) : HQ := { k with v := v.testBit 63, part := bits v 59 4, lerr := k.lerr && !v.testBit 58, pasid := bits v 20 20, pend := none }
  let busy := (s.host.runs.any fun r => r.q = q) ||
    (List.finRange 128).any fun c => (s.core c).chans.toList.any fun ch => ch.cmds.any fun m => m.kind = 5 &&
      (match ((s.handle c m.ctx (bits m.hd.toNat 48 16)).1, (s.handle c m.ctx (bits m.hs.toNat 48 16)).1) with
       | (.bound a, .bound b) => (a.kind = 4 && a.hq = q) || (b.kind = 4 && b.hq = q)
       | _ => false)
  { s with host := { s.host with hq := vmod s.host.hq q fun k => if busy then { k with pend := some (BitVec.ofNat 64 v) } else put k } }

/-- BOOTWIN written (R366): BASE and V; BUSY is RO. -/
def State.bootwinWrite (s : State) (v : Nat) : State :=
  { s with host := { s.host with bootwinBase := v / 4096 * 4096, bootwinV := v.testBit 0 } }

/-- AREQ's doubleword 4 written (R366, R370): PART, and GO unless one is pending. -/
def State.areqWrite (s : State) (v : Nat) : State :=
  if s.host.areqGo then s
  else { s with host := { s.host with areqPart := v % 16, areqGo := v.testBit 63, areqDone := s.host.areqDone && !v.testBit 63 } }

/-- A doorbell of VF p + 1 (R368): dropped when the target is no context of the partition or a reserved bit is set. -/
def State.dbellWrite (s : State) (p v : Nat) : State :=
  let c : CoreId := Fin.ofNat 128 (bits v 9 7)
  let x : CtxId := Fin.ofNat 4 (bits v 7 2)
  if outside v [(48, 16), (7, 9)] || !(s.grant c x).v || s.partOf c x ≠ p then s
  else s.modCtx c x fun k =>
    { (k.pend s.cycle 0x13 (bits v 48 16) 1 #v[BitVec.ofNat 64 (2 ^ 62 + p % 16 * 4), 0, 0, 0]) with evt := true }

/-- A value with the bits outside the listed fields cleared. -/
def maskFields (v : Nat) (fs : List (Nat × Nat)) : Nat :=
  (setBitsOf 64 v).foldl (fun a i => if fs.any fun f => f.1 ≤ i && i < f.1 + f.2 then a + 2 ^ i else a) 0

/-- A doubleword of PF0's BAR0 written; a reserved bit takes nothing (R3). -/
def State.pf0Write (s : State) (off v : Nat) : State :=
  if s.host.halted0 && s.host.stage = 0 then s
  else if off < 0x80000 then s.blockWrite off (maskFields v (blockFields off))
  else if off = 0x80008 then s.bootwinWrite v
  else if off = 0x80010 then
    let n := v % 2 ^ 32
    { s with host := { s.host with bootlen := if n % 64 = 0 && n ≤ 2 ^ 26 then n else s.host.bootlen } }
  else if 0x80080 ≤ off && off < 0x800A0 then
    let i := off - 0x80080
    let b := s.host.nonce
    { s with host := { s.host with nonce := (b.take i ++ leBytes 8 v ++ b.drop (i + 8)).take 32 } }
  else if off = 0x800A0 then s.areqWrite v
  else if off = 0x80280 then
    { s with host := { s.host with tthr := let t := bits v 24 8; if 70 ≤ t && t ≤ 105 then t else s.host.tthr } }
  else if let some q := slotOf off 0x90000 64 64 then (if off % 64 = 0 then s.hqcfgWrite q v else s)
  else s

/-- A doubleword of a VF's BAR0 written: only DBELL takes writes (R365, R367). A partition in FENCING or RESETTING answers with a
Completer Abort (R343). -/
def State.vfWrite (s : State) (p off v : Nat) : State :=
  if (s.part p).state ≥ 2 then s else if off = 0 then s.dbellWrite p v else s

/-- A doubleword of a VF's BAR0 read: the mirror of HQCFG for queues of the partition (R367); none where the request is answered with a
Completer Abort (R343). -/
def State.vfRead (s : State) (p off : Nat) : Option Nat :=
  if (s.part p).state ≥ 2 then none
  else match slotOf off 0x1000 64 64 with
    | some q => some (if off % 64 = 0 && (s.hq q).part = p then (s.hq q).word else 0)
    | none => some 0

end Sys2Proof.Machine
end

