-- ==== Sys2Proof/Machine/Flags.lean ====
section
/-! DEFINITION. Sys2Proof/Machine/Flags.lean: flag conditions and updates, and what a release and an acquire wait for and do
(R97 to R102, R293, R294, R296). -/

namespace Sys2Proof.Machine

/-- The condition of a WAITF on a flag's value (R98): 0 NZ, 1 GE, 2 EQ. -/
def condMet (cond : Nat) (f cmp : FlagVal) : Bool :=
  if cond = 0 then f ≠ 0 else if cond = 1 then cmp ≤ f else f = cmp

/-- An engine command of the running context that stands earlier in the text than index `i` of the present fork set. -/
def Ctx.isEarlier (k : Ctx) (i epoch idx : Nat) : Bool := epoch < k.epoch || idx < i

/-- Every word of every cursor that stands earlier than index `i` has issued (R97). -/
def Ctx.allIssued (k : Ctx) (i : Nat) : Bool :=
  allTags.all fun t =>
    !(k.cursor t).member || t = .ctl || ((k.cursor t).stopped && (k.head t).isNone) || i ≤ k.position t

/-- A dynamic place of the text stands before another (R41). -/
def textBefore (epoch idx epoch' idx' : Nat) : Bool := epoch < epoch' || (epoch = epoch' && idx < idx')

/-- An SAE word's target stands in a typed buffer: the range checker follows it (R287). -/
def Ctx.onDie (k : Ctx) (epoch idx : Nat) : Bool := k.accesses.any fun a => a.unit = 10 && a.epoch = epoch && a.idx = idx && !a.wr.isEmpty

/-- Every engine command of context `x` that stands before a place of the text and writes DRAM or host memory through one of the paths
(1 and 5 CPY, 2 SAE, 3 FUR) is complete; what only reads there is not waited for (R293). -/
def Core.pathsDone (q : Core) (x : CtxId) (epoch idx : Nat) (paths : List Nat) : Bool :=
  let k := q.ctx x
  (!(paths.contains 1 || paths.contains 5) || q.chans.toList.all fun ch => ch.cmds.all fun m =>
    m.ctx ≠ x || bits m.hd.toNat (hdrField 11).1 (hdrField 11).2 ≠ 0 || (!paths.contains 1 && m.kind ≠ 5) || !textBefore m.epoch m.ent.idx epoch idx) &&
  (!paths.contains 2 || q.sae.all fun m => m.ctx ≠ x || k.onDie m.epoch m.idx || !textBefore m.epoch m.idx epoch idx) &&
  (!paths.contains 3 || match q.fcmd with | some f => f.ctx ≠ x || !textBefore f.epoch f.ent.idx epoch idx | none => true)

/-- Every operation below a number that the collective engine performs for the context has ended (R102). -/
def State.colDone (s : State) (c : CoreId) (x : CtxId) (below : Nat) : Bool :=
  s.col.ops.all fun o => !(o.core = c && o.ctx = x && o.state ≠ 3 && o.idx < below)

/-- Every operation of the context has been performed at its remote target: it has ended, and its packets are acknowledged (R301). -/
def State.colAway (s : State) (c : CoreId) (x : CtxId) : Bool :=
  s.col.ops.all fun o => !(o.core = c && o.ctx = x) || (o.state = 3 && !((s.conn o.nxt).window.any fun w => w.1 = o.idx))

/-- A release at a scope may take effect for the running word (R97, R293, R301). -/
def State.releaseReady (s : State) (sc : Scope) : Bool :=
  let c := s.cur.core; let x := s.cur.ctx; let i := s.curIdx
  let q := s.myCore; let k := s.me
  k.allIssued i && k.stores.isEmpty && q.pathsDone x k.epoch i [1, 2, 3] && s.performed c x [0, 1, 2, 3, 4, 5, 7] sc &&
  (sc.val ≠ 0 || ((k.accesses.all fun a => a.wr.isEmpty || !k.isEarlier i a.epoch a.idx) &&
    (q.walkers.toList.all fun w => w.cmds.all fun m => m.ctx ≠ x || !k.isEarlier i m.epoch m.idx) &&
    (q.mtx.all fun m => m.ctx ≠ x || !k.isEarlier i m.epoch m.idx))) &&
  (sc.val ≠ 3 || s.colAway c x)

/-- What a release leaves (R300, R358): later stores are release stores, and the context's ring records are visible to it. -/
def Ctx.releasedAt (k : Ctx) (i cycle : Nat) : Ctx :=
  { k.pushAcq i { k.acq with floors := vmod k.acq.floors (8 * 7) fun _ => cycle + 1 } with released := true }

/-- An acquire at a scope for the running word (R294). -/
def Ctx.acquireAt (k : Ctx) (i cycle : Nat) (sc : Scope) : Ctx := k.pushAcq i { k.acq with at_ := cycle, scope := sc }

/-- The paths of a completion update's engine (R296), for a setter of the wait log; a copy may have written host memory too. -/
def setterPaths (setter : Nat) : List Nat :=
  if setter = 4 then [1, 5] else if setter = 5 then [2] else if setter = 6 then [3] else if setter = 9 then [4] else []

/-- The paths of the engines of a mask (bit 3 CPY with its host accesses, 4 SAE, 5 FUR), with CTL's. -/
def gatePaths (gate : BitVec 6) : List Nat :=
  0 :: ([(3, 1), (3, 5), (4, 2), (5, 3)].filter fun (p : Nat × Nat) => gate.toNat.testBit p.1).map (·.2)

/-- Floors from each of some paths to each of others, up to now. -/
def Acq.raise (q : Acq) (src dst : List Nat) (now : Nat) : Acq :=
  { q with floors := src.foldl (fun (v : Vector Nat 64) a => dst.foldl (fun v b => vmod v (8 * a + b) fun _ => now) v) q.floors }

/-- The path numbers of a path mask (R102): bit 0 CTL … bit 5 HST. -/
def maskPaths (m : BitVec 6) : List Nat := setBitsOf 6 m.toNat

/-- A release, for alias classes: what the context has written stands in order for its later accesses (R298). -/
def State.seal (s : State) : State := s.sealClasses s.cur.core s.cur.ctx [0, 1, 2, 3, 4, 5, 6, 7]

/-! ### Fences (R102) -/

/-- Every word of a FROM path's engine that stands before the fence has issued. -/
def Ctx.fenceIssued (k : Ctx) (f : OpenFence) : Bool :=
  let past (t : Tag) (p : Nat) : Bool := !(maskPaths f.src).contains p || f.epoch < k.epoch || !(k.cursor t).member ||
    ((k.cursor t).stopped && (k.head t).isNone) || f.idx ≤ k.position t
  past .cpy 1 && past .cpy 5 && past .sae 2 && past .fur 3

/-- Every write of a FROM path that stands before the fence has been made. -/
def State.fenceMade (s : State) (c : CoreId) (x : CtxId) (f : OpenFence) : Bool :=
  let k := s.ctx c x
  k.fenceIssued f && (s.core c).pathsDone x f.epoch f.idx (maskPaths f.src) &&
  (!(maskPaths f.src).contains 0 || k.stores.all fun p => p.order > f.at_) &&
  (!(maskPaths f.src).contains 4 || s.colDone c x f.op)

/-- Those writes are performed with respect to the TO paths: at the core, and for COL at the base die too. -/
def State.fencePerformed (s : State) (c : CoreId) (x : CtxId) (f : OpenFence) (t : Nat) : Bool :=
  s.hist.all fun e => !(e.unit.core = c && e.unit.ctx = x && !e.unit.outside && (maskPaths f.src).contains e.unit.path && e.at_ ≤ t) ||
    (e.arr c.val ≤ s.cycle && (!(maskPaths f.dst).contains 4 || e.arr 128 ≤ s.cycle))

/-- What a complete FENCE does for the later reads of the TO paths (R292): from its place on their floors hold the FROM paths' writes made
up to `t`. -/
def Ctx.fenceOver (k : Ctx) (f : OpenFence) (t : Nat) : Ctx :=
  let up (q : Acq) : Acq := q.raise (maskPaths f.src) (maskPaths f.dst) (t + 1)
  let later := k.acqs.takeWhile fun a => textBefore f.epoch f.idx a.epoch a.idx
  let rest := k.acqs.drop later.length
  { k with
    fences := k.fences.erase f
    acqs := later.map (fun (a : AcqAt) => { a with acq := up a.acq }) ++
      { epoch := f.epoch, idx := f.idx, acq := up (match rest with | a :: _ => a.acq | [] => Acq.first) } :: rest }

/-- One open fence at the end of a cycle: its writes have been made, or it is complete. -/
def State.fenceStep (s : State) (c : CoreId) (x : CtxId) (f : OpenFence) : State :=
  match f.made with
  | none =>
    if s.fenceMade c x f then
      s.modCtx c x fun k => { k with fences := k.fences.map fun (g : OpenFence) => if g = f then { g with made := some s.cycle } else g }
    else s
  | some t =>
    if s.fencePerformed c x f t then (s.modCtx c x fun k => k.fenceOver f t).sealClasses c x (maskPaths f.src) else s

/-- The open fences of a context at the end of a cycle (R102). -/
def State.fenceTick (s : State) (c : CoreId) (x : CtxId) : State :=
  (s.ctx c x).fences.foldl (fun (t : State) f => t.fenceStep c x f) s

/-- A fence that is not complete and names a path stands before index `i` (R102). -/
def Ctx.fenced (k : Ctx) (i : Nat) (p : BitVec 6 → Bool) : Bool := k.fences.any fun f => p f.dst && textBefore f.epoch f.idx k.epoch i

end Sys2Proof.Machine
end

