-- ==== Sys2Proof/Machine/Reals.lean ====
section
/-! DEFINITION. Sys2Proof/Machine/Reals.lean: enclosures of the real functions that the special functions (R149) and the
level-index arithmetic (R154) round: fixed-point intervals whose bounds are proved nowhere here but are wide enough for every
truncation made. A result whose digits an enclosure does not fix is computed again with more digits. -/

namespace Sys2Proof.Machine

/-- An interval `[lo, hi]` in units of `2 ^ (-p)`; `p` stands with the functions. -/
structure Iv where
  lo : Int
  hi : Int
  deriving DecidableEq, Repr

namespace Iv

def add (a b : Iv) : Iv := { lo := a.lo + b.lo, hi := a.hi + b.hi }
def neg (a : Iv) : Iv := { lo := -a.hi, hi := -a.lo }
def point (v : Int) : Iv := { lo := v, hi := v }
/-- An integer multiple. -/
def scale (k : Int) (a : Iv) : Iv := if k ≥ 0 then { lo := k * a.lo, hi := k * a.hi } else { lo := k * a.hi, hi := k * a.lo }
/-- The product of two intervals of numbers that are not negative. -/
def mulPos (p : Nat) (a b : Iv) : Iv := { lo := a.lo * b.lo / 2 ^ p, hi := a.hi * b.hi / 2 ^ p + 1 }
/-- The quotient of two intervals of positive numbers. -/
def divPos (p : Nat) (a b : Iv) : Iv := { lo := a.lo * 2 ^ p / b.hi, hi := a.hi * 2 ^ p / (if b.lo ≤ 0 then 1 else b.lo) + 1 }
/-- The exact half, rounded outwards. -/
def half (a : Iv) : Iv := { lo := a.lo / 2, hi := -(-a.hi / 2) }

end Iv

/-- Σ tᵏ⁺¹-terms of artanh: `pw` is t^(2k+1), `t2` is t², both in units of 2^(-p). -/
def atanhTail (p t2 : Nat) : Nat → Nat → Nat → Nat
  | 0, _, _ => 0
  | n + 1, k, pw => if pw = 0 then 0 else pw / (2 * k + 1) + atanhTail p t2 n (k + 1) (pw * t2 / 2 ^ p)

/-- artanh t for `0 ≤ t ≤ 1/3`, with an error of at most `4 p` units. -/
def atanhIv (p t : Nat) : Iv :=
  let v : Int := atanhTail p (t * t / 2 ^ p) (p / 3 + 8) 0 t
  { lo := v, hi := v + 4 * p + 16 }

/-- ln 2 = 2 artanh (1/3). -/
def lnTwo (p : Nat) : Iv := (atanhIv p (2 ^ p / 3)).scale 2

/-- The position of the leading bit. -/
def topBit (m : Nat) : Nat := bitLen m - 1

/-- ln (m · 2^e) for `m > 0`. -/
def lnDy (p m : Nat) (e : Int) : Iv :=
  let k := topBit m
  let mant := if k ≤ p then m * 2 ^ (p - k) else m / 2 ^ (k - p)
  let whole : Int := k + e
  if mant = 2 ^ p && whole = 0 && m = 2 ^ k then Iv.point 0
  else
    let t := (mant - 2 ^ p) * 2 ^ p / (mant + 2 ^ p)
    let a := (atanhIv p t).scale 2
    let b : Iv := if mant = 2 ^ p && m = 2 ^ k then Iv.point 0 else { a with hi := a.hi + 16 }
    ((lnTwo p).scale whole).add b

/-- ln of an interval of positive numbers. -/
def lnIv (p : Nat) (a : Iv) : Iv :=
  { lo := (lnDy p (if a.lo ≤ 0 then 1 else a.lo.toNat) (-(p : Int))).lo, hi := (lnDy p (if a.hi ≤ 0 then 1 else a.hi.toNat) (-(p : Int))).hi }

/-- The terms of the exponential series. -/
def expTail (p r : Nat) : Nat → Nat → Nat → Nat
  | 0, _, _ => 0
  | n + 1, k, term => if term = 0 then 0 else term + expTail p r n (k + 1) (term * r / 2 ^ p / (k + 1))

/-- exp of one point x · 2^(-p), with `|x|` of at most a few thousand. -/
def expPoint (p : Nat) (x : Int) : Iv :=
  let l2 := lnTwo p
  let k := x / l2.lo - 1
  let r := (Iv.point x).add (l2.scale (-k))
  let lo : Int := expTail p r.lo.toNat (p + 16) 0 (2 ^ p)
  let hi : Int := (expTail p r.hi.toNat (p + 16) 0 (2 ^ p) : Int) + 4 * p + 64
  if k ≥ 0 then { lo := lo * 2 ^ k.toNat, hi := hi * 2 ^ k.toNat }
  else { lo := lo / 2 ^ (-k).toNat, hi := hi / 2 ^ (-k).toNat + 1 }

/-- exp of an interval; a point 0 gives exactly 1. -/
def expIv (p : Nat) (a : Iv) : Iv :=
  if a.lo = 0 && a.hi = 0 then Iv.point (2 ^ p)
  else { lo := (expPoint p a.lo).lo, hi := (expPoint p a.hi).hi }

/-- The integer square root, bit by bit from bit `n`. -/
def isqrtFrom (v : Nat) : Nat → Nat → Nat
  | 0, r => r
  | n + 1, r => let c := r + 2 ^ n; isqrtFrom v n (if c * c ≤ v then c else r)

/-- ⌊√v⌋. -/
def isqrt (v : Nat) : Nat := isqrtFrom v (bitLen v / 2 + 1) 0

/-- arctan (1/n) by its alternating series. -/
def atanInv (p n : Nat) : Nat → Nat → Nat → Int
  | 0, _, _ => 0
  | f + 1, k, pw => if pw = 0 then 0 else (pw / (2 * k + 1) : Nat) - atanInv p n f (k + 1) (pw / (n * n))

/-- π by Machin's formula. -/
def piIv (p : Nat) : Iv :=
  let v := 16 * atanInv p 5 (p + 8) 0 (2 ^ p / 5) - 4 * atanInv p 239 (p + 8) 0 (2 ^ p / 239)
  { lo := v - 32 * p - 64, hi := v + 32 * p + 64 }

/-- √ of an interval of positive numbers. -/
def sqrtIv (p : Nat) (a : Iv) : Iv := { lo := isqrt (a.lo.toNat * 2 ^ p), hi := isqrt (a.hi.toNat * 2 ^ p) + 1 }

/-- A nonnegative dyadic number as an interval. -/
def dyIv (p m : Nat) (e : Int) : Iv :=
  let k := e + p
  if k ≥ 0 then Iv.point (m * 2 ^ k.toNat)
  else
    let v := m / 2 ^ (-k).toNat
    { lo := v, hi := if m % 2 ^ (-k).toNat = 0 then v else v + 1 }

/-- The terms of Φ(x) − ½ = φ(x) · (x + x³/3 + x⁵/15 + …), from the term `t` on. -/
def phiTail (p x2 : Nat) : Nat → Nat → Nat → Nat
  | 0, _, _ => 0
  | n + 1, k, t => if t = 0 then 0 else t + phiTail p x2 n (k + 1) (t * x2 / 2 ^ p / (2 * k + 3))

/-- Φ(x) − ½ for `0 ≤ x < 32`. -/
def gaussIv (p m : Nat) (e : Int) : Iv :=
  let x := dyIv p m e
  let x2 := dyIv p (m * m) (2 * e)
  let fuel := 4 * p + 4096
  let s : Iv := { lo := phiTail p x2.lo.toNat fuel 0 x.lo.toNat,
                  hi := (phiTail p x2.hi.toNat fuel 0 x.hi.toNat : Int) * (2 ^ (p - 20) + 1) / 2 ^ (p - 20) + 8 * p + 8192 }
  -- each of at most `fuel` terms is cut by two units, or by a fraction 2^(1-p) of itself
  let d := expIv p (x2.half.neg)
  let c := sqrtIv p ((piIv p).scale 2)
  ((s.mulPos p d).divPos p c)

/-- A positive real as it is rounded: in `[n, n + 1) · 2^e`, above `n · 2^e` exactly when `sticky`. -/
structure Mag where
  n : Nat
  e : Int
  sticky : Bool
  deriving DecidableEq, Repr

/-- The digits of an interval of positive numbers, when its bounds agree on 66 of them. -/
def Iv.pin (p : Nat) (a : Iv) : Option Mag :=
  if a.lo ≤ 0 then none
  else if a.lo = a.hi then some { n := a.lo.toNat, e := -(p : Int), sticky := false }
  else
    let b := bitLen a.lo.toNat - 66
    if bitLen a.lo.toNat < 66 then none
    else if a.lo.toNat / 2 ^ b = a.hi.toNat / 2 ^ b then some { n := a.lo.toNat / 2 ^ b, e := (b : Int) - p, sticky := true }
    else none

/-- The precisions that are tried, in bits. -/
def precisions : List Nat := [128, 256, 512, 1024, 2048]

/-- The first precision whose enclosure fixes the digits. -/
def refine {α : Type} (f : Nat → Option α) : Option α := precisions.findSome? f

/-- A magnitude above, and one below, every number of every format. -/
def Mag.huge : Mag := { n := 1, e := 2 ^ 20, sticky := true }
def Mag.tiny : Mag := { n := 1, e := -(2 ^ 20), sticky := true }

/-- Compares m · 2^e with 2^k. -/
def dyLe (k : Int) (m : Nat) (e : Int) : Bool := m ≠ 0 && (topBit m : Int) + e ≥ k

/-- e^(±m · 2^e). -/
def expMag (neg : Bool) (m : Nat) (e : Int) : Option Mag :=
  if m = 0 then some { n := 1, e := 0, sticky := false }
  else if dyLe 9 m e then some (if neg then Mag.tiny else Mag.huge)
  else refine fun p => (expIv p (if neg then (dyIv p m e).neg else dyIv p m e)).pin p

/-- ln (m · 2^e) for a number other than 1: sign and magnitude. -/
def lnMag (m : Nat) (e : Int) : Option (Bool × Mag) :=
  refine fun p =>
    let a := lnDy p m e
    if a.lo > 0 then (a.pin p).map fun g => (false, g) else if a.hi < 0 then (a.neg.pin p).map fun g => (true, g) else none

/-- tanh of a positive number. -/
def tanhMag (m : Nat) (e : Int) : Option Mag :=
  if dyLe 9 m e then some { n := 2 ^ 80 - 1, e := -80, sticky := true }
  else refine fun p =>
    let d := expIv p ((dyIv p m e).scale (-2))
    (({ lo := 2 ^ p - d.hi, hi := 2 ^ p - d.lo } : Iv).divPos p { lo := 2 ^ p + d.lo, hi := 2 ^ p + d.hi }).pin p

/-- |x · Φ(x)| for x = ±m · 2^e. -/
def geluMag (neg : Bool) (m : Nat) (e : Int) : Option Mag :=
  if dyLe 5 m e then
    some (if neg then Mag.tiny else { n := m * 2 ^ 80 - 1, e := e - 80, sticky := true })
  else refine fun p =>
    let g := gaussIv p m e
    let x := dyIv p m e
    let half : Int := 2 ^ (p - 1)
    let f : Iv := if neg then { lo := half - g.hi, hi := half - g.lo } else { lo := half + g.lo, hi := half + g.hi }
    if f.lo ≤ 0 then none else (x.mulPos p f).pin p

/-- 1 ÷ (m · 2^e). -/
def rcpMag (m : Nat) (e : Int) : Mag :=
  let k := 2 * bitLen m + 80
  { n := 2 ^ k / m, e := -(k : Int) - e, sticky := 2 ^ k % m ≠ 0 }

/-- 1 ÷ √(m · 2^e). -/
def rsqrtMag (m : Nat) (e : Int) : Mag :=
  -- an even exponent first: x = m' · 4^h
  let odd := e % 2 ≠ 0
  let m1 := if odd then 2 * m else m
  let h : Int := (if odd then e - 1 else e) / 2
  let k := 2 * (bitLen m1 + 80)
  let q := 2 ^ (2 * k) / m1
  let r := isqrt q
  { n := r, e := -(k : Int) - h, sticky := r * r ≠ q || 2 ^ (2 * k) % m1 ≠ 0 }

end Sys2Proof.Machine
end

