-- ==== Sys2Proof/Machine/Formats.lean ====
section
/-! DEFINITION. Sys2Proof/Machine/Formats.lean: the IEEE, binary8, binary4 and integer formats, rounding, overflow, flags and
conversions (R108 to R113, R117 to R119, R121 to R123), and the random bits of R146. -/

namespace Sys2Proof.Machine

/-! ### Values -/

/-- The value of a code: NaN, an infinity, or ±m · 2^e with the sign of a zero kept. -/
inductive Num where
  | nan
  | inf (neg : Bool)
  | fin (neg : Bool) (m : Nat) (e : Int)
  deriving DecidableEq, Repr

/-- The status bits of R136: NX 1, UF 2, OF 4, NV 8, DZ 16, DNX 64, UPX 128. -/
def flagNX : Nat := 1
def flagUF : Nat := 2
def flagOF : Nat := 4
def flagNV : Nat := 8
def flagDZ : Nat := 16
def flagDNX : Nat := 64
def flagUPX : Nat := 128

/-- A binary format (R108, R110 to R112): width, trailing bits, bias, whether it has a sign bit, infinities and two zeros, its NaN
and the code of its largest finite magnitude. -/
structure Fmt where
  width : Nat
  t : Nat
  bias : Int
  signed : Bool
  hasInf : Bool
  ieee : Bool
  nan : Nat
  top : Nat
  deriving DecidableEq, Repr

/-- The binary format of a type code; .f32 for every other code. -/
def fmtOf (c : Nat) : Fmt :=
  if c = 0x11 then { width := 16, t := 10, bias := 15, signed := true, hasInf := true, ieee := true, nan := 0x7E00, top := 0x7BFF }
  else if c = 0x12 then { width := 16, t := 7, bias := 127, signed := true, hasInf := true, ieee := true, nan := 0x7FC0, top := 0x7F7F }
  else if isB4 c then
    let p := c - 0x17
    { width := 4, t := p - 1, bias := 2 ^ (3 - p), signed := true, hasInf := false, ieee := false, nan := 0x8, top := 7 }
  else if isB8 c then
    let p := c % 8
    if c < 0x28 then { width := 8, t := p - 1, bias := 2 ^ (7 - p), signed := true, hasInf := true, ieee := false, nan := 0x80, top := 0x7E }
    else if c < 0x30 then { width := 8, t := p - 1, bias := 2 ^ (7 - p), signed := true, hasInf := false, ieee := false, nan := 0x80, top := 0x7F }
    else { width := 8, t := p - 1, bias := 2 ^ (8 - p), signed := false, hasInf := false, ieee := false, nan := 0xFF, top := 0xFE }
  else { width := 32, t := 23, bias := 127, signed := true, hasInf := true, ieee := true, nan := 0x7FC00000, top := 0x7F7FFFFF }

/-- Integer codes of R113. -/
def isIntCode (c : Nat) : Bool := (1 ≤ c && c ≤ 5) || (9 ≤ c && c ≤ 0xC)
/-- Signed integer codes. -/
def isSigned (c : Nat) : Bool := 1 ≤ c && c ≤ 5

/-- The integer value of a code (R113). -/
def intVal (c v : Nat) : Int := if isSigned c then sgn (typeWidth c) v else ((v % 2 ^ typeWidth c : Nat) : Int)
/-- The least and the greatest value of an integer type. -/
def intLo (c : Nat) : Int := if isSigned c then -(2 ^ (typeWidth c - 1) : Nat) else 0
def intHi (c : Nat) : Int := if isSigned c then (2 ^ (typeWidth c - 1) : Nat) - 1 else (2 ^ typeWidth c : Nat) - 1
/-- A value clamped to a type. -/
def intClamp (c : Nat) (v : Int) : Int := if v < intLo c then intLo c else if v > intHi c then intHi c else v

/-- The code has a subnormal magnitude (R108, R110): what DAZ and FTZ act on (R127). -/
def isSubnormal (c v : Nat) : Bool :=
  if isIntCode c || isL c then false
  else
    let f := fmtOf c
    let mag := if f.signed then v % 2 ^ (f.width - 1) else v % 2 ^ f.width
    0 < mag && mag < 2 ^ f.t

/-- The value of a code of any format but the level-index ones (R108 to R113). -/
def decodeNum (c v : Nat) : Num :=
  if isIntCode c then
    let x := intVal c v
    .fin (x < 0) x.natAbs 0
  else
    let f := fmtOf c
    let w := v % 2 ^ f.width
    let neg := f.signed && w.testBit (f.width - 1)
    let mag := if f.signed then w % 2 ^ (f.width - 1) else w
    if !f.ieee && w = f.nan then .nan
    else if mag > f.top then (if f.ieee && mag ≠ f.top + 1 then .nan else .inf neg)
    else
      let ex := mag / 2 ^ f.t
      let frac := mag % 2 ^ f.t
      if ex = 0 then .fin neg frac (1 - f.bias - f.t) else .fin neg (frac + 2 ^ f.t) ((ex : Int) - f.bias - f.t)

/-! ### Rounding (R117, R119) -/

/-- m · 2^e, or a value just above it, rounded to a multiple of 2^q: the multiple, and whether that is inexact. `par` is 1 where an
even multiple stands for an odd code; `u` holds the element's 16 random bits. -/
def roundAt (mode : Nat) (neg : Bool) (u par : Nat) (g : Mag) (q : Int) : Nat × Bool :=
  let sh := q - g.e
  if sh ≤ 0 then
    let k := g.n * 2 ^ (-sh).toNat
    if !g.sticky then (k, false)
    else if mode % 8 = 2 then (if neg then k else k + 1, true)
    else if mode % 8 = 3 then (if neg then k + 1 else k, true)
    else (k, true)
  else
    let d := sh.toNat
    let k := g.n / 2 ^ d
    let rem := g.n % 2 ^ d
    if rem = 0 && !g.sticky then (k, false)
    else
      let half := 2 ^ (d - 1)
      let up : Bool :=
        match mode % 8 with
        | 0 => rem > half || (rem = half && (g.sticky || (k + par) % 2 = 1))
        | 1 => false
        | 2 => !neg
        | 3 => neg
        | _ =>
          if d ≤ 16 && !g.sticky then rem + u % 2 ^ d ≥ 2 ^ d
          else decide ((if d ≥ 16 then rem / 2 ^ (d - 16) else rem * 2 ^ (16 - d)) + u % 2 ^ 16 ≥ 2 ^ 16)
      (cond up (k + 1) k, true)

/-- A magnitude rounded into a binary format (R117, R118, R121): its code and flags. `ftz` replaces a subnormal result (R127). -/
def encodeMag (c mode u : Nat) (ftz neg : Bool) (g : Mag) : Nat × Nat :=
  let f := fmtOf c
  let sat := mode ≥ 8
  let sign := if neg && f.signed then 2 ^ (f.width - 1) else 0
  let zeroCode := if f.ieee then sign else 0
  if g.n = 0 && !g.sticky then (zeroCode, 0)
  else if !f.signed && neg then (if sat then (0, flagNX) else (f.nan, flagNV))
  else
    let emin : Int := 1 - f.bias - f.t
    let lead := (topBit g.n : Int) + g.e
    let q := if lead - f.t < emin then emin else lead - f.t
    -- with no trailing field an even multiple may stand for an odd code
    let par (q : Int) : Nat := if f.t = 0 then (q - emin).toNat % 2 else 0
    let r := roundAt mode neg u (par q) g q
    let carry := r.1 ≥ 2 ^ (f.t + 1)
    let k := if carry then r.1 / 2 else r.1
    let q1 := if carry then q + 1 else q
    let mag := (q1 - emin).toNat * 2 ^ f.t + k
    if mag > f.top then
      let m := mode % 8
      let toInf := f.hasInf && !sat && (m = 0 || m = 4 || (m = 2 && !neg) || (m = 3 && neg))
      (sign + (if toInf then f.top + 1 else f.top), flagOF + flagNX)
    else
      let nx := if r.2 then flagNX else 0
      -- tiny after rounding with an unbounded exponent (R108)
      let v := roundAt mode neg u (par (lead - f.t)) g (lead - f.t)
      let tiny := r.2 && lead < emin + f.t && !(v.1 = 2 ^ (f.t + 1) && lead + 1 = emin + f.t)
      let fl := nx + (if tiny then flagUF else 0)
      if ftz && 0 < mag && mag < 2 ^ f.t then (zeroCode, fl ||| (flagUF + flagNX))
      else (if mag = 0 then zeroCode else sign + mag, fl)

/-- A value delivered as an infinity into a binary format (R118): ±M where the format or the mode holds none. -/
def encodeInf (c mode : Nat) (neg : Bool) : Nat × Nat :=
  let f := fmtOf c
  let sign := if neg && f.signed then 2 ^ (f.width - 1) else 0
  if !f.signed && neg then (if mode ≥ 8 then (0, flagNX) else (f.nan, flagNV))
  else if f.hasInf && mode < 8 then (sign + f.top + 1, 0)
  else (sign + f.top, flagOF + flagNX)

/-- A magnitude rounded to an integer type (R123): clamped with NV outside its range, where the code differs from the value (R121's NX;
assumption log 50). -/
def roundInt (c mode u : Nat) (neg : Bool) (g : Mag) : Nat × Nat :=
  let r := roundAt mode neg u 0 g 0
  let v : Int := if neg then -(r.1 : Int) else r.1
  if v < intLo c || v > intHi c then (wrap (typeWidth c) (intClamp c v), flagNV + flagNX)
  else (wrap (typeWidth c) v, if r.2 then flagNX else 0)

/-- An exact dyadic magnitude. -/
def Mag.dy (m : Nat) (e : Int) : Mag := { n := m, e := e, sticky := false }

/-- The value of any code but a level-index one rounded into a format that is no level-index one (R118, R122, R123). -/
def encodeNum (c mode u : Nat) (ftz : Bool) (x : Num) : Nat × Nat :=
  if isIntCode c then
    match x with
    | .fin neg m e => roundInt c mode u neg (Mag.dy m e)
    | .inf _ => (0, flagNV + flagNX)
    | .nan => (0, flagNV)
  else match x with
  | .nan => ((fmtOf c).nan, 0)
  | .inf neg => encodeInf c mode neg
  | .fin neg m e => encodeMag c mode u ftz neg (Mag.dy m e)

/-- Integer to integer (R123): the low bits, or clamped in a saturating mode. -/
def convInt (t f mode v : Nat) : Nat × Nat :=
  let x := intVal f v
  if mode ≥ 8 && (x < intLo t || x > intHi t) then (wrap (typeWidth t) (intClamp t x), flagNX) else (wrap (typeWidth t) x, 0)

/-- Conversion from type `f` to type `t`, neither of them level-index (R122, R123, R145). A saturating mode delivers no infinity, and
FTZ no subnormal, into the source's own format either (R118, R127). -/
def convert (t f mode u : Nat) (ftz : Bool) (v : Nat) : Nat × Nat :=
  if isIntCode t && isIntCode f then convInt t f mode v
  else encodeNum t mode u ftz (decodeNum f v)

/-- A code read from a bank with DAZ (R127): a subnormal is the zero of its sign, or the one zero of its format. -/
def dazCode (daz : Bool) (c v : Nat) : Nat :=
  if daz && isSubnormal c v then
    (if (fmtOf c).ieee && v.testBit ((fmtOf c).width - 1) then 2 ^ ((fmtOf c).width - 1) else 0)
  else v

/-! ### Arithmetic on values (R142) -/

def Num.isNan : Num → Bool | .nan => true | _ => false

/-- The value negated. -/
def Num.neg : Num → Num
  | .nan => .nan
  | .inf s => .inf (!s)
  | .fin s m e => .fin (!s) m e

/-- An exact sum, with the sign of a zero and whether it is an invalid operation (R142). The significand is held at the smaller
exponent of the addends that are not zero, which fixes D under sr (R119). -/
def Num.add (mode : Nat) (a b : Num) : Num × Nat :=
  match a, b with
  | .nan, _ => (.nan, 0)
  | _, .nan => (.nan, 0)
  | .inf s, .inf t => if s = t then (.inf s, 0) else (.nan, flagNV)
  | .inf s, _ => (.inf s, 0)
  | _, .inf t => (.inf t, 0)
  | .fin s m e, .fin t n d =>
    if m = 0 && n = 0 then (if s = t then .fin s 0 0 else .fin (mode % 8 = 3) 0 0, 0)
    else
      let lo := if m = 0 then d else if n = 0 then e else if e ≤ d then e else d
      let x : Int := (if m = 0 then 0 else (m * 2 ^ (e - lo).toNat : Nat)) * (if s then -1 else 1)
      let y : Int := (if n = 0 then 0 else (n * 2 ^ (d - lo).toNat : Nat)) * (if t then -1 else 1)
      let v := x + y
      if v = 0 then (.fin (mode % 8 = 3) 0 0, 0) else (.fin (v < 0) v.natAbs lo, 0)

/-- An exact product. -/
def Num.mul (a b : Num) : Num × Nat :=
  match a, b with
  | .nan, _ => (.nan, 0)
  | _, .nan => (.nan, 0)
  | .inf s, .inf t => (.inf (s != t), 0)
  | .inf s, .fin t n _ => if n = 0 then (.nan, flagNV) else (.inf (s != t), 0)
  | .fin s m _, .inf t => if m = 0 then (.nan, flagNV) else (.inf (s != t), 0)
  | .fin s m e, .fin t n d => (.fin (s != t) (m * n) (e + d), 0)

/-- ±(a × b) + c before its one rounding: 0 × ∞ is invalid even when the addend is NaN (R142). -/
def Num.fma (mode : Nat) (a b c : Num) (negProd : Bool) : Num × Nat :=
  let p := a.mul b
  if p.2 ≠ 0 then (.nan, p.2)
  else (if negProd then p.1.neg else p.1).add mode c

/-- The order of finite values and infinities: −1, 0 or 1. -/
def Num.cmp (a b : Num) : Int :=
  let key (x : Num) : Int := match x with | .inf s => if s then -2 else 2 | .fin s m _ => if m = 0 then 0 else if s then -1 else 1 | .nan => 0
  match a, b with
  | .fin s m e, .fin _ n d =>
    if key a ≠ key b then (if key a < key b then -1 else 1)
    else if m = 0 then 0
    else
      let lo := if e ≤ d then e else d
      let x := m * 2 ^ (e - lo).toNat
      let y := n * 2 ^ (d - lo).toNat
      if x = y then 0 else if (x < y) != s then -1 else 1
  | _, _ => if key a = key b then 0 else if key a < key b then -1 else 1

/-! ### Random bits (R146, R147) -/

/-- One round of Philox on (x0, x1, x2, x3) under (k0, k1). -/
def philoxRound (x : Nat × Nat × Nat × Nat) (k0 k1 : Nat) : Nat × Nat × Nat × Nat :=
  let p := 0xD2511F53 * x.1
  let q := 0xCD9E8D57 * x.2.2.1
  ((q / 2 ^ 32) ^^^ x.2.1 ^^^ k0, q % 2 ^ 32, (p / 2 ^ 32) ^^^ x.2.2.2 ^^^ k1, p % 2 ^ 32)

/-- The rounds from the key (k0, k1) on. -/
def philoxRounds : Nat → Nat × Nat × Nat × Nat → Nat → Nat → Nat × Nat × Nat × Nat
  | 0, x, _, _ => x
  | n + 1, x, k0, k1 => philoxRounds n (philoxRound x k0 k1) ((k0 + 0x9E3779B9) % 2 ^ 32) ((k1 + 0xBB67AE85) % 2 ^ 32)

/-- Block j of stream σ for VRKEY and VRCTR (R146). -/
def philox (key ctr j sigma : Nat) : Nat :=
  let x := philoxRounds 10 (ctr % 2 ^ 32, ctr / 2 ^ 32 % 2 ^ 32, j % 2 ^ 32, sigma) (key % 2 ^ 32) (key / 2 ^ 32 % 2 ^ 32)
  x.1 + x.2.1 * 2 ^ 32 + x.2.2.1 * 2 ^ 64 + x.2.2.2 * 2 ^ 96

/-- The 16 bits that element `i` draws for stochastic rounding (R147). -/
def drawU (key ctr i : Nat) : Nat := philox key ctr (i / 8) 0 / 2 ^ (16 * (i % 8)) % 2 ^ 16

/-- A mode is stochastic. -/
def isSr (mode : Nat) : Bool := mode % 8 = 4

/-! ### Special functions (R149) -/

/-- VEXP 0, VLOG 1, VRCP 2, VRSQRT 3, VTANH 4, VGELU 5 of a code of an F type, rounded once. `free` is delivered where no
precision tried fixes the rounding. -/
def special (fn c mode u free v : Nat) : Nat × Nat :=
  let x := decodeNum c v
  let out (neg : Bool) (g : Option Mag) (fl : Nat) : Nat × Nat := match g with
    | some g => let r := encodeMag c mode u false neg g; (r.1, r.2 ||| fl)
    | none => (free % 2 ^ typeWidth c, fl)
  let nanR (fl : Nat) : Nat × Nat := ((fmtOf c).nan, fl)
  let infR (neg : Bool) (fl : Nat) : Nat × Nat := let r := encodeInf c mode neg; (r.1, r.2 ||| fl)
  let zeroR (neg : Bool) : Nat × Nat := encodeNum c mode u false (.fin neg 0 0)
  let oneR (neg : Bool) : Nat × Nat := encodeNum c mode u false (.fin neg 1 0)
  match x with
  | .nan => nanR 0
  | .inf s =>
    match fn with
    | 0 => if s then zeroR false else infR false 0
    | 1 => if s then nanR flagNV else infR false 0
    | 2 => zeroR s
    | 3 => if s then nanR flagNV else zeroR false
    | 4 => oneR s
    | _ => if s then zeroR true else infR false 0
  | .fin s m e =>
    if m = 0 then
      match fn with
      | 0 => oneR false
      | 1 => infR true flagDZ
      | 2 => infR s flagDZ
      | 3 => infR s flagDZ
      | _ => zeroR s
    else
      match fn with
      | 0 => out false (expMag s m e) 0
      | 1 =>
        if s then nanR flagNV
        else if (decodeNum c v).cmp (.fin false 1 0) = 0 then zeroR false
        else match lnMag m e with
          | some (neg, g) => out neg (some g) 0
          | none => out false none 0
      | 2 => out s (some (rcpMag m e)) 0
      | 3 => if s then nanR flagNV else out false (some (rsqrtMag m e)) 0
      | 4 => out s (tanhMag m e) 0
      | _ => out s (geluMag s m e) 0

end Sys2Proof.Machine
end

