-- ==== Sys2Proof/Machine/Li.lean ====
section
/-! DEFINITION. Sys2Proof/Machine/Li.lean: symmetric level-index numbers: codes, order, the exact index of sums, products and
roots, sliround, and the conversions to and from the other formats (R114 to R116, R120, R154 to R164). -/

namespace Sys2Proof.Machine

/-! ### Codes (R114, R115) -/

/-- A level-index code's value: NaN, a zero, or ±φ(z)^(±1) with the index z in units of 2^(-27). -/
inductive Li where
  | nan
  | zer (neg : Bool)
  | val (neg r : Bool) (z : Nat)
  deriving DecidableEq, Repr

/-- One in units of the index. -/
def liOne : Nat := 2 ^ 27

/-- Fraction bits F of a level-index type. -/
def liF (t : Nat) : Nat := if t = 0x14 then 11 else 27

/-- A code read (R114, R115): a non-canonical unit is the unit. -/
def decodeLi (t v : Nat) : Li :=
  let f := liF t
  let neg := v.testBit (f + 4)
  let r := v.testBit (f + 3)
  let m := v % 2 ^ (f + 3)
  if m = 0 then .zer neg
  else if m < 2 ^ f then .nan
  else .val neg (r && m ≠ 2 ^ f) (m * 2 ^ (27 - f))

/-- The canonical NaN, and the code of the largest magnitude. -/
def liNan (t : Nat) : Nat := 2 ^ liF t - 1
def liTop (t : Nat) (neg : Bool) : Nat := b2n neg * 2 ^ (liF t + 4) + 2 ^ (liF t + 3) - 1

/-- The code with index `k` in units of 2^(-F): clamped (R120), and the unit in its canonical form. -/
def liCode (t : Nat) (neg r : Bool) (k : Nat) : Nat :=
  let f := liF t
  let m := if k ≥ 2 ^ (f + 3) then 2 ^ (f + 3) - 1 else k
  b2n neg * 2 ^ (f + 4) + b2n (r && m ≠ 2 ^ f) * 2 ^ (f + 3) + m

/-- The level field of a value (R156): 0 for zeros and NaNs. -/
def Li.level : Li → Nat
  | .val _ _ z => z / liOne
  | _ => 0

/-- The code of a value of the type itself, in canonical form. -/
def Li.code (t : Nat) : Li → Nat
  | .nan => liNan t
  | .zer neg => b2n neg * 2 ^ (liF t + 4)
  | .val neg r z => liCode t neg r (z / 2 ^ (27 - liF t))

/-- The order of values (R116), with −0 and +0 equal. -/
def Li.key : Li → Int
  | .val neg r z =>
    let k : Int := if r then 2 ^ 31 - (z : Int) + liOne else 2 ^ 31 + (z : Int) - liOne
    if neg then -k else k
  | _ => 0

/-! ### Exact indexes -/

/-- φ of a number with level `n` and fraction `f` (units of 2^(-27)); `none` above about e^cap. -/
def phiIv (cap p f : Nat) : Nat → Option Iv
  | 0 => some (dyIv p f (-27))
  | n + 1 => match phiIv cap p f n with
    | some a => if a.hi > cap * 2 ^ p then none else some (expIv p a)
    | none => none

/-- φ(z) for an index or a logarithm's index z ≥ 0; `none` above about 2^64. -/
def phiOf (p z : Nat) : Option Iv := phiIv 45 p (z % liOne) (z / liOne)

/-- ψ of an interval of positive numbers: y below 1, else 1 + ψ(ln y). -/
def psiIv (p : Nat) : Nat → Iv → Iv
  | 0, a => a
  | n + 1, a =>
    let one : Int := 2 ^ p
    if a.hi < one then a
    else
      let l := psiIv p n (lnIv p a)
      if a.lo ≥ one then { lo := l.lo + one, hi := l.hi + one } else { lo := a.lo, hi := l.hi + one }

/-- What a level-index result is rounded from: a sign, the form, and its exact index as an interval in units of 2^(-p). -/
structure LiRes where
  neg : Bool
  r : Bool
  p : Nat
  z : Iv
  deriving DecidableEq, Repr

/-- An exact code value as a result. -/
def LiRes.exact (neg r : Bool) (z : Nat) : LiRes := { neg := neg, r := r, p := 128, z := Iv.point (z * 2 ^ 101) }

/-- The result whose logarithm of the magnitude is `y`. Where the sign of a small `y` is not fixed, either form has an index from 1 up to
1 + |y|, which is enough where the W stage makes it 1 (the unit has one code). -/
def ofLn (p : Nat) (neg : Bool) (y : Iv) : Option LiRes :=
  let one : Int := 2 ^ p
  let idx (a : Iv) : Iv := let i := psiIv p 9 a; { lo := i.lo + one, hi := i.hi + one }
  if y.lo ≥ 0 then some { neg := neg, r := false, p := p, z := idx y }
  else if y.hi ≤ 0 then some { neg := neg, r := true, p := p, z := idx y.neg }
  else if y.hi < one && -y.lo < one then some { neg := neg, r := false, p := p, z := { lo := one, hi := one + max y.hi (-y.lo) } }
  else none

/-- An index that is `z` but for far less than the W stage of sliround sees. -/
def nearIndex (p : Nat) (neg r : Bool) (z : Nat) : LiRes :=
  let c : Int := z * 2 ^ (p - 27)
  { neg := neg, r := r, p := p, z := { lo := c - 2 ^ (p - 60), hi := c + 2 ^ (p - 60) } }

/-- One addend: its form, index and how often it enters, with sign. -/
structure Addend where
  r : Bool
  z : Nat
  n : Int
  deriving DecidableEq, Repr

/-- The order of addends by magnitude. -/
def Addend.key (a : Addend) : Int := if a.r then -(a.z : Int) else a.z

/-- An addend joins the list: equal magnitudes are counted together, so that they cancel exactly. -/
def addTerm (neg r : Bool) (z : Nat) : List Addend → List Addend
  | [] => [{ r := r, z := z, n := if neg then -1 else 1 }]
  | a :: rest => if a.r = r && a.z = z then { a with n := a.n + (if neg then -1 else 1) } :: rest else a :: addTerm neg r z rest

/-- ln of an addend's magnitude; `none` where it is beyond the numeric range, or the addend is a number below 1 of index z < 1. -/
def Addend.ln (p : Nat) (a : Addend) : Option Iv :=
  if a.z < liOne then none
  else (phiOf p (a.z - liOne)).map fun v => if a.r then v.neg else v

/-- The exact sum of addends relative to the largest of them. An addend whose own logarithm or the largest's is beyond the numeric range
is less than 2^(-p) of the largest: two different such logarithms lie at least e^45 · 2^(-27) apart. -/
def sumAt (p : Nat) (big : Addend) (rest : List Addend) : Option LiRes :=
  let lnP := big.ln p
  let ratio (q : Addend) : Iv := match lnP, q.ln p with
    | some a, some b =>
      let d := b.add a.neg
      if d.hi < -((p : Int) * 2 ^ p) then { lo := 0, hi := 1 } else expIv p d
    | _, _ => { lo := 0, hi := if q.z < liOne then 2 ^ (p - 62) else 1 }
  let s := rest.foldl (fun (acc : Iv) q => acc.add ((ratio q).scale q.n)) (Iv.point (big.n * 2 ^ p))
  if s.lo ≤ 0 && s.hi ≥ 0 then none
  else
    let neg : Bool := s.hi < 0
    let m := if neg then s.neg else s
    match lnP with
    | some a => ofLn p neg (a.add (lnIv p m))
    | none => some (nearIndex p neg big.r big.z)

/-- An exact sum: `none` inside when it is exactly zero; outside when no precision fixes its sign or form. -/
def liSum (terms : List Addend) (ok : LiRes → Bool) : Option (Option LiRes) :=
  match terms.filter fun a => a.n ≠ 0 with
  | [] => some none
  | a :: rest =>
    let big := rest.foldl (fun (b : Addend) c => if c.key > b.key then c else b) a
    let others := (a :: rest).filter fun c => c ≠ big
    if others.isEmpty && big.n.natAbs = 1 && big.z ≥ liOne then some (some (LiRes.exact (big.n < 0) big.r big.z))
    else (refine fun p => match sumAt p big others with
      | some x => if ok x then some x else none
      | none => none).map some

/-! ### sliround (R154, R120) -/

/-- A value in units of 2^(-p) to a multiple of 2^(-w), ties to even. -/
def toW (p w : Nat) (v : Int) : Int :=
  let d := 2 ^ (p - w)
  let k := v / d
  let rem := v - k * d
  if 2 * rem > d || (2 * rem = d && k % 2 = 1) then k + 1 else k

/-- An index with `nb` bits below 2^(-F) rounded (R120): the index in units of 2^(-F). -/
def roundIdx (mode u nb : Nat) (neg r : Bool) (v : Nat) : Nat :=
  let k := v / 2 ^ nb
  let g := v % 2 ^ nb
  let half := 2 ^ (nb - 1)
  let up : Bool := match mode % 8 with
    | 0 => decide (g > half) || (decide (g = half) && decide (k % 2 = 1))
    | 1 => r
    | 2 => neg == r
    | 3 => neg != r
    | _ => decide (g + u % 2 ^ nb ≥ 2 ^ nb)
  if g = 0 then k else cond up (k + 1) k

/-- The W stage, when the interval fixes it. -/
def LiRes.atW (x : LiRes) (t : Nat) : Option Nat :=
  let w := liF t + 14
  if toW x.p w x.z.lo = toW x.p w x.z.hi then some (toW x.p w x.z.lo).toNat else none

/-- The interval fixes the W stage of type `t`. -/
def LiRes.fixed (t : Nat) (x : LiRes) : Bool := (x.atW t).isSome

/-- sliround of a result that is neither NaN nor zero; `free` where nothing fixes it. -/
def sliround (t mode u free : Nat) (x : LiRes) : Nat :=
  match x.atW t with
  | some v => liCode t x.neg x.r (roundIdx mode u 14 x.neg x.r v)
  | none => free % 2 ^ (liF t + 5)

/-- The result is exactly the value of a code (R155's exemption). -/
def LiRes.is (x : LiRes) (o : Li) : Bool :=
  match o with
  | .val neg r z => x.z.lo = x.z.hi && x.z.lo = (z : Int) * 2 ^ (x.p - 27) && x.neg = neg && (x.r = r || z = liOne)
  | _ => false

/-- NX of the arithmetic words (R155). -/
def LiRes.nx (x : LiRes) (ops : List Li) : Nat :=
  if (x.z.lo = x.z.hi && x.z.lo = 2 ^ x.p) || ops.any x.is then 0 else flagNX

/-! ### The instructions -/

/-- The flags UPX and DNX for a result's level against its operands' levels (R156, R31). -/
def crossing (res : Nat) (hi lo : Nat) : Nat := if res > hi then flagUPX else if res < lo then flagDNX else 0

/-- A rounded arithmetic result with its NX. -/
def liDeliver (t mode u free : Nat) (x : Option LiRes) (ops : List Li) : Nat × Nat :=
  match x with
  | some r => (sliround t mode u free r, r.nx ops)
  | none => (free % 2 ^ (liF t + 5), 0)

/-- The zero that an exact zero sum gives (R158, R164). -/
def sumZero (t mode : Nat) (allNeg : Bool) : Nat := Li.code t (.zer (allNeg || mode % 8 = 3))

/-- A value negated. -/
def Li.neg : Li → Li
  | .nan => .nan
  | .zer s => .zer (!s)
  | .val s r z => .val (!s) r z

/-- The sum, or with `sb` the difference, of two codes (R158). A difference from zero is −vb, which is the value of neither operand,
so it raises NX (R155). -/
def liAdd (t mode u free : Nat) (sb : Bool) (a b0 : Li) : Nat × Nat :=
  let b := if sb then b0.neg else b0
  match a, b with
  | .nan, _ => (liNan t, 0)
  | _, .nan => (liNan t, 0)
  | .zer s, .zer v => (sumZero t mode (s && v), 0)
  | .zer _, .val n r z => (sliround t mode u free (LiRes.exact n r z), if sb && z ≠ liOne then flagNX else 0)
  | .val n r z, .zer _ => (sliround t mode u free (LiRes.exact n r z), 0)
  | .val n r z, .val n2 r2 z2 =>
    match liSum (addTerm n r z (addTerm n2 r2 z2 [])) (LiRes.fixed t) with
    | some none => (sumZero t mode false, 0)
    | some (some x) => liDeliver t mode u free (some x) [a, b0]
    | none => liDeliver t mode u free none []

/-- The exact product of two magnitudes (R158): e^(±φ(z − 1) ± φ(z2 − 1)). -/
def liProd (t : Nat) (neg r r2 : Bool) (z z2 : Nat) : Option LiRes :=
  let a := z - liOne
  let b := z2 - liOne
  if a = 0 then some (LiRes.exact neg r2 z2)
  else if b = 0 then some (LiRes.exact neg r z)
  else if a = b && r ≠ r2 then some (LiRes.exact neg false liOne)
  else refine fun p =>
    let x := match phiOf p a, phiOf p b with
      | some v, some w => ofLn p neg ((if r then v.neg else v).add (if r2 then w.neg else w))
      | _, _ =>
        match liSum (addTerm r false a (addTerm r2 false b [])) (fun _ => true) with
        | some (some y) =>
          -- y is the logarithm: its index is one less than the product's
          some { neg := neg, r := y.neg, p := y.p, z := { lo := y.z.lo + 2 ^ y.p, hi := y.z.hi + 2 ^ y.p } }
        | _ => none
    match x with
    | some y => if y.fixed t then some y else none
    | none => none

/-- The product (`div` false) or quotient of two codes (R158). -/
def liMul (t mode u free : Nat) (dv : Bool) (a b : Li) : Nat × Nat :=
  match a, b with
  | .nan, _ => (liNan t, 0)
  | _, .nan => (liNan t, 0)
  | .zer s, .zer v => if dv then (liNan t, flagNV) else (Li.code t (.zer (s != v)), 0)
  | .zer s, .val v _ _ => (Li.code t (.zer (s != v)), 0)
  | .val s _ _, .zer v => if dv then (liTop t (s != v), flagDZ) else (Li.code t (.zer (s != v)), 0)
  | .val s r z, .val v r2 z2 => liDeliver t mode u free (liProd t (s != v) r (r2 != dv) z z2) [a, b]

/-- The square root (R159). -/
def liSqrt (t mode u free : Nat) (a : Li) : Nat × Nat :=
  match a with
  | .nan => (liNan t, 0)
  | .zer s => (Li.code t (.zer s), 0)
  | .val true _ _ => (liNan t, flagNV)
  | .val false r z =>
    let y := z - liOne
    let x : Option LiRes :=
      if y = 0 then some (LiRes.exact false false liOne)
      else refine fun p =>
        let x := match phiOf p y with
          | some v => ofLn p false ((if r then v.neg else v).half)
          | none => match phiOf p (y - liOne) with
            | some v => (ofLn p false (v.add (lnTwo p).neg)).map fun (w : LiRes) =>
                { w with r := r, z := { lo := w.z.lo + 2 ^ p, hi := w.z.hi + 2 ^ p } }
            | none => some (nearIndex p false r z)
        match x with
        | some w => if w.fixed t then some w else none
        | none => none
    liDeliver t mode u free x [a]

/-- The reciprocal (R159). -/
def liRcp (t : Nat) (a : Li) : Nat × Nat :=
  match a with
  | .nan => (liNan t, 0)
  | .zer s => (liTop t s, flagDZ)
  | .val s r z => (Li.code t (.val s (!r) z), 0)

/-- VMIN and VMAX on level-index codes (R160). -/
def liPick (t : Nat) (mx : Bool) (a b : Li) : Nat :=
  let k (x : Li) : Int := match x with | .zer s => if s then -1 else 0 | y => 2 * y.key
  match a, b with
  | .nan, y => y.code t
  | x, .nan => x.code t
  | x, y => if (k x ≤ k y) != mx then x.code t else y.code t

/-- The exact sum of all elements, rounded once (R164): code and flags, UPX and DNX by R31. -/
def liReduce (t mode u free : Nat) (xs : List Li) : Nat × Nat :=
  if xs.any fun x => x = .nan then (liNan t, 0)
  else
    let terms := xs.foldl (fun (acc : List Addend) x => match x with | .val n r z => addTerm n r z acc | _ => acc) []
    let hi := xs.foldl (fun m x => Nat.max m x.level) 0
    let lo := xs.foldl (fun m x => Nat.min m x.level) 8
    let r := match liSum terms (LiRes.fixed t) with
      | some none => (sumZero t mode (xs.all fun x => x = Li.zer true), 0)
      | some (some x) => liDeliver t mode u free (some x) xs
      | none => liDeliver t mode u free none []
    (r.1, r.2 ||| crossing (decodeLi t r.1).level hi lo)

/-! ### Conversions (R161, R162) -/

/-- The magnitude of a code's value, as it is rounded into another format. -/
def liMag (r : Bool) (z : Nat) : Option Mag :=
  if z = liOne then some { n := 2 ^ 64, e := -64, sticky := false }
  else refine fun p => match phiOf p (z - liOne) with
    | some v => if v.lo > 500 * 2 ^ p then some (if r then Mag.tiny else Mag.huge) else (expIv p (if r then v.neg else v)).pin p
    | none => some (if r then Mag.tiny else Mag.huge)

/-- |ln| of a code's value: φ(z − 1). -/
def liLnMag (z : Nat) : Option Mag :=
  let y := z - liOne
  if y < liOne then some { n := y * 2 ^ 64, e := -91, sticky := false }
  else refine fun p => match phiIv 100 p (y % liOne) (y / liOne) with
    | some v => v.pin p
    | none => some Mag.huge

/-- A magnitude rounded into a format that is no level-index one. -/
def encodeAny (c mode u : Nat) (ftz neg : Bool) (g : Mag) : Nat × Nat :=
  if isIntCode c then roundInt c mode u neg g else encodeMag c mode u ftz neg g

/-- sliround of an exact dyadic value (R161). -/
def numToLi (t mode u free : Nat) (x : Num) : Nat × Nat :=
  match x with
  | .nan => (liNan t, 0)
  | .inf s => (liTop t s, flagNV + flagNX)
  | .fin s m e =>
    if m = 0 then (Li.code t (.zer s), 0)
    else match refine fun p => match ofLn p s (lnDy p m e) with
        | some y => if y.fixed t then some y else none
        | none => none with
      | some y => (sliround t mode u free y, if y.z.lo = y.z.hi && y.z.lo = 2 ^ y.p then 0 else flagNX)
      | none => (free % 2 ^ (liF t + 5), flagNX)

/-- A level-index code converted into a format that is no level-index one (R122, R161). -/
def liToNum (c mode u free : Nat) (ftz : Bool) (x : Li) : Nat × Nat :=
  match x with
  | .nan => encodeNum c mode u ftz .nan
  | .zer s => encodeNum c mode u ftz (.fin s 0 0)
  | .val s r z => match liMag r z with
    | some g => encodeAny c mode u ftz s g
    | none => (free % 2 ^ typeWidth c, flagNX)

/-- A code's value stored in a level-index type (R120): .li16 rounds the 27-bit index with D = 16. -/
def liStore (t mode u : Nat) (x : Li) : Nat × Nat :=
  match x with
  | .val s r z =>
    if t = 0x14 then (liCode t s r (roundIdx mode u 16 s r z), if z % 2 ^ 16 = 0 then 0 else flagNX) else (x.code t, 0)
  | _ => (x.code t, 0)

/-- Between level-index types (R145, R161). -/
def liToLi (t f mode u v : Nat) : Nat × Nat := liStore t mode u (decodeLi f v)

/-- Conversion between any two types (R122, R123, R145, R161). -/
def convertAny (t f mode u free : Nat) (ftz : Bool) (v : Nat) : Nat × Nat :=
  if isL t then (if isL f then liToLi t f mode u v else numToLi t mode u free (decodeNum f v))
  else if isL f then liToNum t mode u free ftz (decodeLi f v)
  else convert t f mode u ftz v

/-- VCVTE (R162): e^x has the index 1 + ψ(|x|). -/
def liExp (t mode u free : Nat) (x : Num) : Nat × Nat :=
  match x with
  | .nan => (liNan t, 0)
  | .inf s => if s then (0, 0) else (liTop t false, flagNV + flagNX)
  | .fin s m e =>
    if m = 0 then (Li.code t (.val false false liOne), 0)
    else
      let fits : Bool := (Num.fin false m e).cmp (.fin false 1 0) = 0 ||
        ((Num.fin false m e).cmp (.fin false 1 0) < 0 && (e + liF t ≥ 0 || m % 2 ^ (-(e + liF t)).toNat = 0))
      match refine fun p =>
          let y := if (Num.fin false m e).cmp (.fin false 1 0) < 0 then dyIv p m e
            else let l := psiIv p 9 (lnDy p m e); { lo := l.lo + 2 ^ p, hi := l.hi + 2 ^ p }
          let w : LiRes := { neg := false, r := s, p := p, z := { lo := y.lo + 2 ^ p, hi := y.hi + 2 ^ p } }
          if w.fixed t then some w else none with
      | some w => (sliround t mode u free w, if fits then 0 else flagNX)
      | none => (free % 2 ^ (liF t + 5), flagNX)

/-- VCVTL (R162): ln of a code's value. -/
def liLog (c mode u free : Nat) (x : Li) : Nat × Nat :=
  match x with
  | .nan => encodeNum c mode u false .nan
  | .zer _ => let r := encodeInf c mode true; (r.1, r.2 ||| flagDZ)
  | .val true _ _ => ((fmtOf c).nan, flagNV)
  | .val false r z =>
    if z = liOne then encodeNum c mode u false (.fin false 0 0)
    else match liLnMag z with
      | some g => encodeMag c mode u false r g
      | none => (free % 2 ^ typeWidth c, flagNX)

/-- VLVL (R163). -/
def liLevel (c : Nat) (x : Li) : Nat :=
  match x with
  | .nan => wrap (typeWidth c) (intLo c)
  | .zer _ => 0
  | .val _ r z => wrap (typeWidth c) (if r then -((z / liOne : Nat) : Int) else ((z / liOne : Nat) : Int))

end Sys2Proof.Machine
end

