-- ==== Sys2Proof/Machine/LoadStore.lean ====
section
/-! DEFINITION. Sys2Proof/Machine/LoadStore.lean: the control core's loads and stores (R86 to R89, R128, R335) and their completion
events. -/

namespace Sys2Proof.Machine

/-! ### The access (R86) -/

/-- The offset of an access: sA[47:0] + sext(IMM), exact. -/
def accessOff (a : Word) (imm : BitVec 30) : Int := (haddrO a.toNat : Int) + imm.toInt

/-- What a control-core access reaches (R86, R128, R225, R335). In DRAM an access that crosses a page has its bytes in the first page, and
address and key of the rest. -/
inductive Target where
  | trap
  | xlate (f : XFault)
  | fmtBlock (off : Nat)
  | mgmt (off : Nat)
  | dram (pa key va : Nat) (more : Option (Nat × Nat × Nat))
  | buf (b byte : Nat)
  deriving DecidableEq, Repr

/-- The register of the format block at an offset: buffer (1 ABUF, 2 CBUF, 3 WBUF) and bank (R128). -/
def fmtSlot (off : Nat) : Nat × Nat := (off / 0x80 + 1, off % 0x80 / 8)

/-- A format bank lies in the context's grant; WBUF's banks belong to the holder of the MTX engine (R126). -/
def Grant.hasBank (g : Grant) (b bank : Nat) : Bool :=
  if b = 1 then g.hasABank bank else if b = 2 then g.hasCBank bank else g.hasEng .mtx

/-- A control-core access to `size` bytes of DRAM at guest-virtual `va`, translated page by page (R86, R225: a BASE need not be aligned). -/
def State.dramTarget (s : State) (haddr va size : Nat) (d : Dir) : Target × State :=
  let n := 4096 - va % 4096
  match s.translate s.cur.core s.cur.ctx none haddr va d with
  | (.error f, s1) => (.xlate f, s1)
  | (.ok (pa, key), s1) =>
    if size ≤ n then (.dram pa key va none, s1)
    else match s1.translate s.cur.core s.cur.ctx none (haddr + n) (va + n) d with
      | (.error f, s2) => (.xlate f, s2)
      | (.ok (pa2, key2), s2) => (.dram pa key va (some (n, pa2, key2)), s2)

/-- The handle address of an access with IMM (R232). -/
def accessHaddr (a : Word) (imm : BitVec 30) : Nat := haddrH a.toNat * 2 ^ 48 + (accessOff a imm).toNat

/-- The handle address of the first byte of an access that faulted. -/
def XFault.accessAt (f : XFault) (s : State) (a : Word) (imm : BitVec 30) : Nat :=
  match (s.handle s.cur.core s.cur.ctx (haddrH a.toNat)).1 with
  | .bound i => f.haddr (accessHaddr a imm) (i.base + (accessOff a imm).toNat)
  | _ => haddrH a.toNat * 2 ^ 48

/-- Where an access of `size` bytes through handle address `a` with IMM lands for the running context, and the state after the
lookups (handle cache, TLB). -/
def State.target (s : State) (a : Word) (imm : BitVec 30) (size : Nat) (wr : Bool) : Target × State :=
  let h := haddrH a.toNat
  let off := accessOff a imm
  if off < 0 then (.trap, s)
  else
    let o := off.toNat
    if o % size ≠ 0 || h ≥ 4096 then (.trap, s)
    else if h = 4095 then (if size ≠ 8 || o + 8 > 384 || !s.myGrant.hasBank (fmtSlot o).1 (fmtSlot o).2 then .trap else .fmtBlock o, s)
    else if h = 4094 then (if s.me.pl < 2 || size ≠ 8 || o + 8 > 0x80000 then .trap else .mgmt o, s)
    else match s.handle s.cur.core s.cur.ctx h 0 wr with
      | (.fault f, s1) => (.xlate f, s1)
      | (.unbound, s1) => (.trap, s1)
      | (.bound i, s1) =>
        if o + size > i.len || (wr && !i.w) || (!wr && !i.rd) then (.trap, s1)
        else if i.kind = 1 then s1.dramTarget (accessHaddr a imm) (i.base + o) size (if wr then .wr else .rd)
        else if i.kind = 2 || i.kind = 3 then
          let b := i.kind - 1
          let byte := i.base % 2 ^ 13 * 512 + o
          if byte / 512 ≥ 8192 || !s1.myGrant.hasBank b (byte / 512 / 512) then (.trap, s1) else (.buf b byte, s1)
        else (.trap, s1)

/-- The value a load writes (R87). -/
def loadValue (size : Nat) (signed : Bool) (v : Nat) : Word :=
  if signed then BitVec.ofInt 64 (sgn (8 * size) v) else BitVec.ofNat 64 (v % 2 ^ (8 * size))

/-- The format register of a bank (R127). -/
def Core.fmtReg (k : Core) (b bank : Nat) : Nat :=
  if b = 1 then vget k.afmt bank 0 else if b = 2 then vget k.cfmt bank 0 else vget k.wfmt bank 0

/-- A format register written. -/
def Core.setFmtReg (k : Core) (b bank v : Nat) : Core :=
  if b = 1 then { k with afmt := vmod k.afmt bank fun _ => v }
  else if b = 2 then { k with cfmt := vmod k.cfmt bank fun _ => v }
  else { k with wfmt := vmod k.wfmt bank fun _ => v }

/-- The operand formats of WBUF (R127, R193): binary8, binary4, .i8, .ui8, .i4, .ui4, .bf16 and .f16. -/
def wbufFmt (t : Nat) : Bool := isB8 t || isB4 t || t = 0x02 || t = 0x0A || t = 0x01 || t = 0x09 || t = 0x11 || t = 0x12

/-- A store to a format register is accepted (R127, R128): no reserved bit, no reserved RM, an FMT the buffer takes. -/
def fmtRegOk (b v : Nat) : Bool :=
  let f := v % 64
  !outside v [(14, 2), (8, 4), (0, 6)] && rmOk (bits v 8 4) &&
  (f = 0 || (if b = 1 then typeWidth f ≠ 0 && f ≠ 0x05 else if b = 2 then f = 0x10 || f = 0x04 else wbufFmt f))

/-- The line of a DRAM access is in the 64 KiB data cache (R80): its presence decides the latency alone. -/
def Core.dHit (k : Core) (pa : Nat) : Bool := k.dcache.contains (pa / 64)

/-- A line enters the data cache; the oldest of 1,024 leaves (assumption log 10). -/
def Core.dFill (k : Core) (pa : Nat) : Core := if k.dHit pa then k else { k with dcache := (pa / 64 :: k.dcache).take 1024 }

/-- The parts of an access (R86): offset within it, address, number of bytes. -/
def accessParts (addr size : Nat) (more : Option (Nat × Nat × Nat)) : List (Nat × Nat × Nat) :=
  match more with
  | none => [(0, addr, size)]
  | some m => [(0, addr, m.1), (m.1, m.2.1, size - m.1)]

/-- The key of a part of an access. -/
def partKey (key : Nat) (more : Option (Nat × Nat × Nat)) (off : Nat) : Nat :=
  if off = 0 then key else match more with | some m => m.2.2 | none => key

/-- The byte that a posted store writes at an address, if it does. -/
def PendStore.byteAt (st : PendStore) (buf a : Nat) : Option Byte :=
  if st.buf ≠ buf then none
  else (accessParts st.addr st.bytes.length st.more).findSome? fun p =>
    if p.2.1 ≤ a && a < p.2.1 + p.2.2 then st.bytes[p.1 + (a - p.2.1)]? else none

/-- Posted stores of a context laid over the bytes a load finds at `addr` (R89): those issued before it, in order. -/
def overlay (stores : List PendStore) (order buf addr : Nat) (bs : List Byte) : List Byte :=
  stores.foldl (fun (acc : List Byte) (st : PendStore) =>
    if st.order < order then acc.zipIdx.map fun p => (st.byteAt buf (addr + p.2)).getD p.1 else acc) bs

/-- A load of DRAM reads (R87, R89, R292) as the control core's unit of context `(c, x)`, page by page. -/
def State.loadDram (s : State) (c : CoreId) (x : CtxId) (l : PendLoad) : Word × State :=
  let r := (accessParts l.addr l.size l.more).foldl (fun (acc : List Byte × State) p =>
    let q := acc.2.readPhys (ctlUnit c x) 0 (s.ctx c x).acq true (l.haddr + p.1) (l.va + p.1) p.2.1
      (partKey l.key l.more p.1) p.2.2
    (acc.1 ++ overlay (s.ctx c x).stores l.order 0 p.2.1 q.1, q.2)) ([], s)
  (loadValue l.size l.signed (leNat r.1), r.2)

/-- A load of a typed buffer reads its raw bytes (R88). -/
def State.loadBuf (s : State) (c : CoreId) (x : CtxId) (l : PendLoad) : Word :=
  loadValue l.size l.signed (leNat (overlay (s.ctx c x).stores l.order l.buf l.addr ((s.core c).bufBytes l.buf l.addr l.size)))

/-- The footprint of a control-core access to a typed buffer enters the range checker (R180). -/
def Ctx.ctlAccess (k : Ctx) (id idx buf line : Nat) (wr : Bool) : Ctx :=
  { k with accesses := k.accesses ++ [{ id := id, epoch := k.epoch, idx := idx, unit := 0, cls := 0,
                                        rd := if wr then [] else [(buf, 2 ^ line)], wr := if wr then [(buf, 2 ^ line)] else [] }] }

/-- When a load returns (R80): four cycles after its issue where the data cache holds its lines, else by a latency of at least that. -/
def State.loadDue (s : State) (pa size : Nat) (more : Option (Nat × Nat × Nat)) : Nat :=
  if (accessParts pa size more).all fun p => s.myCore.dHit p.2.1 && s.myCore.dHit (p.2.1 + p.2.2 - 1) then s.cycle + 4
  else s.freeDelay (s.cycle + 4)

/-- A load (R80, R86 to R89): sD is written when it returns. An access to a register of a block follows the stores before it (R335). -/
def State.load (s : State) (size : Nat) (signed : Bool) (d a : SReg) (imm : BitVec 30) : Host.Outcome State Fault Refusal :=
  let addr := s.rdS a
  match s.target addr imm size false with
  | (.trap, _) => .next s.trapRange
  | (.xlate f, _) => .next (s.trapXlate (f.accessAt s addr imm) f 0)
  | (.fmtBlock o, t) =>
    if !s.me.stores.isEmpty then s.hold
    else .next (t.issued.wrS d (BitVec.ofNat 64 (s.myCore.fmtReg (fmtSlot o).1 (fmtSlot o).2)))
  | (.mgmt o, t) =>
    if !s.me.stores.isEmpty then s.hold
    else
      let r := t.issued.blockRead o 1
      .next (r.2.wrS d (BitVec.ofNat 64 r.1))
  | (.dram pa key va more, t) =>
    let l : PendLoad := { due := t.loadDue pa size more, dst := d, size := size, signed := signed, buf := 0, addr := pa, key := key,
                          haddr := accessHaddr addr imm, va := va, order := s.cycle, acc := 0, more := more }
    .next ((t.issued.skipFresh 1).modMe fun k => { k with loads := k.loads ++ [l] })
  | (.buf b byte, t) =>
    let id := t.fresh
    let l : PendLoad := { due := t.freeDelay (s.cycle + 4), dst := d, size := size, signed := signed, buf := b, addr := byte, key := 0,
                          haddr := addr.toNat, va := 0, order := s.cycle, acc := id }
    .next ((t.issued.skipFresh 1).modMe fun k => { (k.ctlAccess id s.curIdx b (byte / 512) false) with loads := k.loads ++ [l] })

/-- A store (R86 to R89): it is posted, and performed later; a store to a register of a block follows the loads and stores before it and acts
before the next word issues (R335). -/
def State.store (s : State) (size : Nat) (d a : SReg) (imm : BitVec 30) : Host.Outcome State Fault Refusal :=
  let addr := s.rdS a
  let v := (s.rdS d).toNat
  match s.target addr imm size true with
  | (.trap, _) => .next s.trapRange
  | (.xlate f, _) => .next (s.trapXlate (f.accessAt s addr imm) f 0)
  | (.fmtBlock o, t) =>
    if !fmtRegOk (fmtSlot o).1 v then .next s.trapRange
    else if !(s.me.stores.isEmpty && s.me.loads.isEmpty) then s.hold
    else .next (t.issued.modMyCore fun k => k.setFmtReg (fmtSlot o).1 (fmtSlot o).2 v)
  | (.mgmt o, t) =>
    if outside v (blockFields o) then .next s.trapRange
    else if !(s.me.stores.isEmpty && s.me.loads.isEmpty) then s.hold
    else .next (t.issued.blockWrite o v)
  | (.dram pa key va more, t) =>
    let st : PendStore := { due := t.freeDelay (s.cycle + 1), bytes := leBytes size v, buf := 0, addr := pa, key := key,
                            haddr := accessHaddr addr imm, va := va, order := s.cycle, rel := s.me.released, acc := 0, more := more }
    .next ((t.issued.skipFresh 1).modMe fun k => { k with stores := k.stores ++ [st] })
  | (.buf b byte, t) =>
    let id := t.fresh
    let st : PendStore := { due := t.freeDelay (s.cycle + 1), bytes := leBytes size v, buf := b, addr := byte, key := 0,
                            haddr := addr.toNat, va := 0, order := s.cycle, rel := false, acc := id }
    .next ((t.issued.skipFresh 1).modMe fun k => { (k.ctlAccess id s.curIdx b (byte / 512) true) with stores := k.stores ++ [st] })

/-! ### Meanings -/

/-- LD.i8 (R87). -/
def execLdI8 (d a : SReg) (imm : BitVec 30) (s : State) : Host.Outcome State Fault Refusal := s.load 1 true d a imm
/-- LD.ui8 (R87). -/
def execLdUi8 (d a : SReg) (imm : BitVec 30) (s : State) : Host.Outcome State Fault Refusal := s.load 1 false d a imm
/-- LD.i16 (R87). -/
def execLdI16 (d a : SReg) (imm : BitVec 30) (s : State) : Host.Outcome State Fault Refusal := s.load 2 true d a imm
/-- LD.ui16 (R87). -/
def execLdUi16 (d a : SReg) (imm : BitVec 30) (s : State) : Host.Outcome State Fault Refusal := s.load 2 false d a imm
/-- LD.i32 (R87). -/
def execLdI32 (d a : SReg) (imm : BitVec 30) (s : State) : Host.Outcome State Fault Refusal := s.load 4 true d a imm
/-- LD.ui32 (R87). -/
def execLdUi32 (d a : SReg) (imm : BitVec 30) (s : State) : Host.Outcome State Fault Refusal := s.load 4 false d a imm
/-- LD.i64 (R87). -/
def execLdI64 (d a : SReg) (imm : BitVec 30) (s : State) : Host.Outcome State Fault Refusal := s.load 8 true d a imm
/-- ST.i8 (R87): sS stands in the D field. -/
def execStI8 (r a : SReg) (imm : BitVec 30) (s : State) : Host.Outcome State Fault Refusal := s.store 1 r a imm
/-- ST.i16 (R87). -/
def execStI16 (r a : SReg) (imm : BitVec 30) (s : State) : Host.Outcome State Fault Refusal := s.store 2 r a imm
/-- ST.i32 (R87). -/
def execStI32 (r a : SReg) (imm : BitVec 30) (s : State) : Host.Outcome State Fault Refusal := s.store 4 r a imm
/-- ST.i64 (R87). -/
def execStI64 (r a : SReg) (imm : BitVec 30) (s : State) : Host.Outcome State Fault Refusal := s.store 8 r a imm

/-! ### Completion -/

/-- A write of path 0 is performed with respect to the collective engine: from when every one of the newest writes of a tag is. -/
def State.engineSees (s : State) (tag : Nat) : Nat :=
  (s.hist.filter fun e => tag ≤ e.tag).foldl (fun m e => Nat.max m (e.arr 128)) s.cycle

/-- A watched word that the nonzero ones of some bytes written at `addr` touch starts its watch (R329): it waits for WATCHED_START, until cycle
`due`. -/
def Ctx.touchWatch (k : Ctx) (addr : Nat) (bs : List (Option Byte)) (rel : Bool) (due : Nat) : Ctx :=
  let hit (w : Nat × Nat × Nat) : Bool :=
    bs.zipIdx.any fun p => w.1 ≤ addr + p.2 && addr + p.2 < w.1 + 8 && match p.1 with | some v => v ≠ 0 | none => false
  { k with pendWatch := k.pendWatch ++ ((k.watches.filter hit).map fun w => (w.1, b2n rel, w.2.2, due)) }

/-- Every watch of the package sees a DRAM store, once it has been performed with respect to the engine; bytes in lines of another key are
not written (R230). -/
def State.touchWatches (s : State) (tag addr key : Nat) (bs : List Byte) (rel : Bool) : State :=
  let ws := bs.zipIdx.map fun p => if s.lineKey (addr + p.2) = key then some p.1 else none
  let due := s.engineSees tag
  { s with cores := s.cores.map fun k =>
      if k.ctxs.toList.any fun x => !x.watches.isEmpty then { k with ctxs := k.ctxs.map fun (x : Ctx) => x.touchWatch addr ws rel due } else k }

/-- An access of the range checker is complete (R180). -/
def Ctx.endAccess (k : Ctx) (id : Nat) : Ctx := { k with accesses := k.accesses.filter fun a => a.id ≠ id }

/-- A posted store of DRAM is performed, page by page. -/
def State.storeDram (s : State) (c : CoreId) (x : CtxId) (st : PendStore) : State :=
  (accessParts st.addr st.bytes.length st.more).foldl (fun (t : State) p =>
    let key := partKey st.key st.more p.1
    let bs := (st.bytes.drop p.1).take p.2.2
    (t.writePhys (ctlUnit c x) 0 (st.haddr + p.1) (st.va + p.1) p.2.1 key bs).touchWatches t.fresh p.2.1 key bs st.rel) s

/-- CTL_STORE_PERFORM (R89): the oldest posted store of the context is performed. -/
def execCtlStorePerform (c : CoreId) (x : CtxId) (s : State) : Host.Outcome State Fault Refusal :=
  match (s.ctx c x).stores with
  | [] => .next s
  | st :: rest =>
    let s1 := s.modCtx c x fun k => { k with stores := rest }
    if st.buf = 0 then .next (s1.storeDram c x st)
    else .next ((s1.modCore c fun k => k.setBufBytes st.buf st.addr st.bytes).modCtx c x fun k => k.endAccess st.acc)

/-- CTL_LOAD_RETURN (R80, R89): the oldest load of the context that is due returns its value. -/
def execCtlLoadReturn (c : CoreId) (x : CtxId) (s : State) : Host.Outcome State Fault Refusal :=
  match (s.ctx c x).loads with
  | [] => .next s
  | l :: rest =>
    let s1 := s.modCtx c x fun k => { k with loads := rest, loadAt := s.cycle }
    if l.buf = 0 then
      let r := s1.loadDram c x l
      .next ((r.2.modCore c fun k => (accessParts l.addr l.size l.more).foldl (fun k p => k.dFill p.2.1) k).modCtx c x fun k => k.wrS l.dst r.1)
    else .next ((s1.readStruck c x 0 [(l.buf, 2 ^ (l.addr / 512))]).modCtx c x fun k => (k.endAccess l.acc).wrS l.dst (s1.loadBuf c x l))

end Sys2Proof.Machine
end

