-- ==== Sys2Proof/Machine/Hdr.lean ====
section
/-! DEFINITION. Sys2Proof/Machine/Hdr.lean: tensors as their headers describe them (R94), the format in which a tensor resolves
(R126, R129), grants and footprints (R55, R180), block scales (R125), biases (R124), and the holds of the range checker (R181). -/

namespace Sys2Proof.Machine

/-- A tensor (R94): buffer, resolved format (0 raw) and element width, sizes, strides (dense ones computed), first line or offset,
handle, bias, block-scale plane, TR, SPS and the S1 field as it stands. -/
structure Tensor where
  buf : Nat
  fmt : Nat
  w : Nat
  d0 : Nat
  d1 : Nat
  d2 : Nat
  d3 : Nat
  s1 : Nat
  s2 : Nat
  s3 : Nat
  base : Nat
  handle : Nat
  bias : Int
  bse : Bool
  bsl : Nat
  tr : Bool
  sps : Nat
  s1f : Nat
  deriving DecidableEq, Repr

/-- A header field by its code (R95). -/
def hf (h : Header) (f : Nat) : Nat := bits h.toNat (hdrField f).1 (hdrField f).2

/-- A size of dimension 1 to 3: 0 counts as 1 (R94). -/
def hdim (h : Header) (f : Nat) : Nat := Nat.max 1 (hf h f)

/-- Lines of a format bank, or bytes of one in WBUF (R126). -/
def bankUnit (buf : Nat) : Nat := if buf = 3 then 8192 else 512

/-- The format of the bank where the tensor starts, else the header's (R129); `none` for an inconsistent header (R94), and for .i64, which no
engine's tensor has (R113). -/
def Core.headFmt (k : Core) (h : Header) : Option Nat :=
  let buf := hf h 11
  if buf > 3 || bits h.toNat 226 6 ≠ 0 || hf h 15 = 3 || (buf ≠ 0 && bits h.toNat 17 47 ≠ 0) then none
  else
    let bank := hf h 3 / bankUnit buf
    if buf ≠ 0 && bank ≥ 16 then none
    else
      let bf := if buf = 0 then 0 else k.fmtReg buf bank % 64
      let f := if bf ≠ 0 then bf else hf h 10
      if (bf ≠ 0 && hf h 10 ≠ 0 && bf ≠ hf h 10) || (f ≠ 0 && typeWidth f = 0) || f = 0x05 then none else some f

/-- Bytes of a row. -/
def Tensor.rowBytes (t : Tensor) : Nat := ceilDiv (t.d0 * t.w) 8

/-- Rows of the tensor: P of R184. -/
def Tensor.rows (t : Tensor) : Nat := t.d1 * t.d2 * t.d3

/-- Elements of the tensor. -/
def Tensor.size (t : Tensor) : Nat := t.d0 * t.rows

/-- The first line or byte of row `e` (R184). -/
def Tensor.row (t : Tensor) (e : Nat) : Nat :=
  t.base + e % t.d1 * t.s1 + e / t.d1 % t.d2 * t.s2 + e / (t.d1 * t.d2) * t.s3

/-- The greatest first line or byte of a row. -/
def Tensor.lastRow (t : Tensor) : Nat := t.base + (t.d1 - 1) * t.s1 + (t.d2 - 1) * t.s2 + (t.d3 - 1) * t.s3

/-- A set of places repeated `d` times at stride `s`, sets being the bits of numbers. -/
def spread (m d s : Nat) : Nat := (List.range d).foldl (fun a i => a ||| m * 2 ^ (i * s)) 0

/-- Lines that `n` bytes take. -/
def linesOf (n : Nat) : Nat := ceilDiv n 512

/-- The lines the tensor covers in ABUF or CBUF, or its bytes in every slice of WBUF (R180). -/
def Tensor.mask (t : Tensor) : Nat :=
  if t.d0 = 0 || t.buf = 0 then 0
  else if t.buf = 3 then (2 ^ t.rowBytes - 1) * 2 ^ t.base
  else spread (spread (spread ((2 ^ linesOf t.rowBytes - 1) * 2 ^ t.base) t.d1 t.s1) t.d2 t.s2) t.d3 t.s3

/-- The banks that a set of lines or bytes touches. -/
def banksOf (buf mask : Nat) : List Nat := (List.range 16).filter fun b => bits mask (bankUnit buf * b) (bankUnit buf) ≠ 0

/-- The tensor fits its buffer. -/
def Tensor.fits (t : Tensor) : Bool :=
  t.d0 = 0 || t.buf = 0 || (if t.buf = 3 then t.base + t.rowBytes ≤ 131072 else t.lastRow + linesOf t.rowBytes ≤ 8192)

/-- The tensor a header describes in format `f` with elements `w` bits wide: sizes, and strides with the dense ones computed (R94). -/
def tensorAs (h : Header) (f w : Nat) : Tensor :=
  let buf := hf h 11
  let rb := ceilDiv (hf h 4 * w) 8
  let s1 := if hf h 8 ≠ 0 then hf h 8 else if buf = 0 then rb else if buf = 3 then 0 else linesOf rb
  let s2 := if hf h 9 ≠ 0 then hf h 9 else s1 * hdim h 5
  let s3 := if hf h 17 ≠ 0 then hf h 17 else s2 * hdim h 6
  { buf := buf, fmt := f, w := w, d0 := hf h 4, d1 := hdim h 5, d2 := hdim h 6, d3 := hdim h 7, s1 := s1, s2 := s2, s3 := s3,
    base := if buf = 0 then hf h 2 else hf h 3, handle := hf h 1, bias := sgn 8 (hf h 13), bse := hf h 14 = 1, bsl := hf h 16,
    tr := hf h 12 = 1, sps := hf h 15, s1f := hf h 8 }

/-- The element width of a format, raw elements being `raw` bits wide. -/
def widthOr (f raw : Nat) : Nat := if f = 0 then raw else typeWidth f

/-- The tensor of a header (R94, R129), with raw elements `raw` bits wide; `none` raises the operand-range trap: an inconsistent
header, banks of different formats, a tensor past its buffer, a level-index format with BIAS or BSE (R124), a WBUF layout that R194
does not allow. -/
def Core.tensor (k : Core) (h : Header) (raw : Nat) : Option Tensor :=
  match k.headFmt h with
  | none => none
  | some f =>
    let t := tensorAs h f (widthOr f raw)
    if (isL f && (t.bias ≠ 0 || t.bse)) || !t.fits ||
        (t.buf = 3 && (hf h 8 ≠ 0 || hf h 9 ≠ 0 || hf h 17 ≠ 0 || t.d1 > 128 || t.d2 ≠ 1 || t.d3 ≠ 1 || t.base % 64 ≠ 0)) then none
    else if t.buf ≠ 0 && (banksOf t.buf t.mask).any fun b =>
        k.fmtReg t.buf b % 64 ≠ k.fmtReg t.buf (t.base / bankUnit t.buf) % 64 then none
    else some t

/-- A set of lines or bytes of a buffer lies in the grant (R55, R126). -/
def Grant.covers (g : Grant) (buf mask : Nat) : Bool := (banksOf buf mask).all fun b => g.hasBank buf b

/-- The header conditions of TR = 1 (R179). -/
def Tensor.trOk (t : Tensor) : Bool := t.buf = 1 && (t.w = 8 || t.w = 16) && t.s1f ≤ 1 && t.d1 % 16 = 0

/-- FLAG of a word with FE lies in the grant (R55). -/
def Grant.flagOk (g : Grant) (fe : Bool) (f : FlagNo) : Bool := !fe || g.hasFlag f.val

/-- The ABUF lines of the block-scale plane (R125). -/
def Tensor.planeMask (t : Tensor) : Nat := if t.bse && t.d0 ≠ 0 then (2 ^ linesOf (t.size / 32) - 1) * 2 ^ t.bsl else 0

/-- The tensor may carry the block-scale plane it names (R125). -/
def Tensor.planeOk (t : Tensor) (g : Grant) : Bool :=
  !t.bse || ((isB8 t.fmt || isB4 t.fmt || t.fmt = 0x01 || t.fmt = 0x02 || t.fmt = 0x09 || t.fmt = 0x0A) && t.d0 % 32 = 0 &&
    t.bsl + linesOf (t.size / 32) ≤ 8192 && g.covers 1 t.planeMask)

/-- The block scale of element `i0` of row `r` (R125); `none` for an all-zero block. -/
def Core.blockScale (k : Core) (t : Tensor) (r i0 : Nat) : Option Int :=
  if !t.bse then some 0
  else
    let v := (k.bufByte 1 (t.bsl * 512 + r * (t.d0 / 32) + i0 / 32)).toNat
    if v = 128 then none else some (sgn 8 v)

/-- The bit position, from bit 0 of the buffer, of element `i0` of row `r`; in WBUF row r lies in slice r (R194). -/
def Tensor.bitAt (t : Tensor) (r i0 : Nat) : Nat :=
  if t.buf = 3 then (r * 131072 + t.base) * 8 + i0 * t.w else t.row r * 4096 + i0 * t.w

/-- The bank of a typed buffer that holds a bit position. -/
def bankAt (buf p : Nat) : Nat := if buf = 3 then p / 8 % 131072 / 8192 else p / 4096 / 512

/-- The code of an element as an engine reads it for its value: with the DAZ of its bank (R130). -/
def Core.codeAt (k : Core) (t : Tensor) (r i0 : Nat) : Nat :=
  let p := t.bitAt r i0
  dazCode ((k.fmtReg t.buf (bankAt t.buf p)).testBit 14) t.fmt (k.bufElem t.buf 0 p t.w)

/-- FTZ of the bank that holds an element (R127). -/
def Core.ftzAt (k : Core) (t : Tensor) (r i0 : Nat) : Bool :=
  t.buf ≠ 0 && (k.fmtReg t.buf (bankAt t.buf (t.bitAt r i0))).testBit 15

/-- An element's code written. -/
def Core.putAt (k : Core) (t : Tensor) (r i0 x : Nat) : Core := k.setBufElem t.buf 0 (t.bitAt r i0) t.w x

/-- A DRAM header's handle is bound with KIND 1, allows the direction, and its bound holds the tensor (R94, R211). -/
def State.dramOk (s : State) (c : CoreId) (x : CtxId) (t : Tensor) (wr : Bool) : Bool :=
  match (s.handle c x t.handle).1 with
  | .bound i => i.kind = 1 && (if wr then i.w else i.rd) && (t.d0 = 0 || t.lastRow + t.rowBytes ≤ i.len)
  | _ => false

/-! ### Values (R124) -/

/-- A value scaled by a power of two. -/
def Num.shift (x : Num) (k : Int) : Num := match x with | .fin s m e => .fin s m (e + k) | y => y

/-- A code of type `f` scaled by 2^sh and stored in type `t` (R122 to R124). -/
def storeScaled (t f mode u free : Nat) (ftz : Bool) (sh : Int) (v : Nat) : Nat × Nat :=
  if sh = 0 then convertAny t f mode u free ftz v
  else if isL t then numToLi t mode u free ((decodeNum f v).shift sh)
  else if isL f then
    match decodeLi f v with
    | .val s r z => match liMag r z with
      | some g => encodeAny t mode u ftz s { g with e := g.e + sh }
      | none => (free % 2 ^ typeWidth t, flagNX)
    | _ => liToNum t mode u free ftz (decodeLi f v)
  else encodeNum t mode u ftz ((decodeNum f v).shift sh)

/-! ### The range checker (R180, R181) -/

/-- Two footprints share a place that one of them writes (R181). -/
def Access4.clashes (a b : Access4) : Bool :=
  let meet (p q : List (Nat × Nat)) : Bool := p.any fun x => q.any fun y => x.1 = y.1 && x.2 &&& y.2 ≠ 0
  meet a.wr b.rd || meet a.wr b.wr || meet a.rd b.wr

/-- A footprint that names no place. -/
def Access4.isEmpty (a : Access4) : Bool := (a.rd ++ a.wr).all fun p => p.2 = 0

/-- The access of a word that issues enters the range checker. -/
def Ctx.enterAccess (k : Ctx) (a : Access4) : Ctx := if a.isEmpty then k else { k with accesses := k.accesses ++ [a] }

/-- The access of a unit's word is complete. -/
def Ctx.leaveAccess (k : Ctx) (unit epoch idx : Nat) : Ctx :=
  { k with accesses := k.accesses.filter fun a => !(a.unit = unit && a.epoch = epoch && a.idx = idx) }

/-- The footprint of the running word. -/
def State.footprint (s : State) (unit cls : Nat) (rd wr : List (Nat × Nat)) : Access4 :=
  { id := 0, epoch := s.me.epoch, idx := s.curIdx, unit := unit, cls := cls, rd := rd, wr := wr }

end Sys2Proof.Machine
end

