-- ==== Sys2Proof/Machine/Matrix.lean ====
section
/-! DEFINITION. Sys2Proof/Machine/Matrix.lean: the matrix engine (R193 to R209). A command's effect is made when it issues: nothing
that the range checker orders can see the difference, and what R182 calls raced may find either value. -/

namespace Sys2Proof.Machine

/-! ### Plans (R193, R194, R200, R203) -/

/-- A row-step command: kind (0 MMA, 1 MMAT, 2 MMAS), operands, depth, rows, columns, OVW, DM. -/
structure MPlan where
  kind : Nat
  a : Tensor
  b : Tensor
  c : Tensor
  depth : Nat
  rows : Nat
  cols : Nat
  ovw : Bool
  dm : Bool
  deriving DecidableEq, Repr

/-- Group size, kept values and index bits of an SPS code (R200). -/
def sparseOf (sps : Nat) : Nat × Nat × Nat := if sps = 1 then (4, 2, 2) else (8, 4, 3)

/-- Values that a column of B holds (R200). -/
def storedVals (sps : Nat) (dm : Bool) (depth : Nat) : Nat := let g := sparseOf sps; if dm then depth else depth * g.2.1 / g.1

/-- MO of R200: the metadata's place after LINE. -/
def metaOff (sps : Nat) (dm : Bool) (depth w : Nat) : Nat := alignUp (ceilDiv (storedVals sps dm depth * w) 8) 64

/-- The bytes of every slice that B takes (R194). -/
def MPlan.bMask (p : MPlan) : Nat :=
  let n := if p.kind ≠ 2 then ceilDiv (p.depth * p.b.w) 8
    else
      let g := sparseOf p.b.sps
      metaOff p.b.sps p.dm p.depth p.b.w + ceilDiv (p.depth / g.1 * g.2.1 * g.2.2) 8
  (2 ^ n - 1) * 2 ^ p.b.base

/-- B's tensor: in the sparse form its layout is that of the stored values, its D0 stays K. -/
def Core.bTensor (k : Core) (kind : Nat) (dm : Bool) (h : Header) : Option Tensor :=
  if kind ≠ 2 then k.tensor h 8
  else
    let depth := hf h 4
    let h1 := hdrPut h 4 (BitVec.ofNat 64 (storedVals (hf h 15) dm depth))
    (k.tensor h1 8).map fun t => { t with d0 := depth }

/-- A command whose operand is empty accesses nothing (R94, R194). -/
def MPlan.empty (p : MPlan) : Bool := p.a.d0 = 0 || p.b.d0 = 0 || p.c.d0 = 0

/-- K-steps of the command. -/
def MPlan.steps (p : MPlan) : Nat := ceilDiv p.depth (1536 / Nat.max 1 p.a.w)

/-- The checks of R203, R204, R207, R209 on three headers: the plan, or the operand-range trap. -/
def Core.mPlan (k : Core) (g : Grant) (kind : Nat) (ovw dm : Bool) (hc ha hb : Header) : Option MPlan :=
  match k.tensor hc 8, k.tensor ha 8, k.bTensor kind dm hb with
  | some c, some a, some b =>
    let p : MPlan := { kind := kind, a := a, b := b, c := c, depth := if kind = 1 then a.d1 else a.d0, rows := c.d1, cols := b.d1,
                       ovw := ovw, dm := dm }
    let shape := p.empty ||
      (b.d0 = p.depth && c.d0 = p.cols && (if kind = 1 then a.d0 = p.rows else a.d1 = p.rows) && p.rows * p.steps ≤ 8192 &&
        (kind ≠ 2 || p.depth % (sparseOf b.sps).1 = 0))
    let int := isIntCode a.fmt
    let ok := a.buf = 1 && b.buf = 3 && c.buf = 2 && a.d2 = 1 && a.d3 = 1 && c.d2 = 1 && c.d3 = 1 && p.cols ≤ 128 &&
      !b.tr && !c.tr && a.sps = 0 && c.sps = 0 && !c.bse && (if kind = 2 then b.sps = 1 || b.sps = 2 else b.sps = 0) &&
      (if kind = 1 then a.tr && a.trOk && !a.bse else !a.tr) &&
      wbufFmt a.fmt && wbufFmt b.fmt && a.w = b.w && isIntCode b.fmt = int && c.fmt = (if int then 0x04 else 0x10) &&
      g.hasEng .mtx && g.covers 1 a.mask && g.covers 2 c.mask && a.planeOk g && b.planeOk g && shape &&
      (p.empty || (p.bMask < 2 ^ 131072 && (banksOf 3 p.bMask).all fun i => k.fmtReg 3 i % 64 = k.fmtReg 3 (b.base / 8192) % 64))
    if ok then some p else none
  | _, _, _ => none

/-! ### The value of a product (R195 to R198, R200) -/

/-- `w` bits of a typed buffer from bit `p` of it, running on over the end of a line. -/
def Core.bufBits (k : Core) (b p w : Nat) : Nat :=
  let n := 4096 - p % 4096
  if w ≤ n then k.bufElem b 0 p w else k.bufElem b 0 p n + k.bufElem b 0 (p + n) (w - n) * 2 ^ n

/-- The pairs (k, code of B) of column `n` that take part, in order of k's group (R200). -/
def Core.bPairs (k : Core) (p : MPlan) (n : Nat) : List (Nat × Nat) :=
  let code (i : Nat) : Nat := k.codeAt p.b n i
  if p.kind ≠ 2 then (List.range p.depth).map fun i => (i, code i)
  else
    let g := sparseOf p.b.sps
    let mbit := (n * 131072 + p.b.base + metaOff p.b.sps p.dm p.depth p.b.w) * 8
    let index (gr t : Nat) : Nat := k.bufBits 3 (mbit + gr * (g.2.1 * g.2.2) + t * g.2.2) g.2.2
    (List.range (p.depth / g.1)).flatMap fun gr =>
      let is := (List.range g.2.1).map (index gr)
      if p.dm then ((List.range g.1).filter is.contains).map fun i => (gr * g.1 + i, code (gr * g.1 + i))
      else is.zipIdx.map fun q => (gr * g.1 + q.1, code (gr * g.2.1 + q.2))

/-- The code of A's element (m, k), its DAZ applied (R194). -/
def Core.aCode (k : Core) (p : MPlan) (m i : Nat) : Nat := if p.kind = 1 then k.codeAt p.a i m else k.codeAt p.a m i

/-- The products of row `m` and column `n` that are formed (R195): k, both codes, and the exponent of the shift. -/
def Core.products (k : Core) (p : MPlan) (m n : Nat) : List (Nat × Nat × Nat × Int) :=
  (k.bPairs p n).filterMap fun q =>
    match (if p.kind = 1 then some 0 else k.blockScale p.a m q.1), k.blockScale p.b n q.1 with
    | some x, some y => some (q.1, k.aCode p m q.1, q.2, p.a.bias + x + p.b.bias + y - p.c.bias)
    | _, _ => none

/-- ⌊log2⌋ of a magnitude m · 2^e. -/
def magTop (m : Nat) (e : Int) : Int := (topBit m : Int) + e

/-- The group sum g of the products of one K-step (R196, R197), with NV or NX. -/
def groupSum (ps : List (Num × Num × Int)) : Num × Nat :=
  if ps.any fun p => p.1.isNan || p.2.1.isNan then (.nan, 0)
  else
    let rs := ps.map fun p => ((p.1.mul p.2.1).1.shift p.2.2, (p.1.mul p.2.1).2)
    let pos := rs.any fun r => r.1 = .inf false
    let neg := rs.any fun r => r.1 = .inf true
    if (rs.any fun r => r.2 ≠ 0) || (pos && neg) then (.nan, flagNV)
    else if pos || neg then (.inf neg, 0)
    else
      let fs := rs.filterMap fun r => match r.1 with | .fin s m e => if m = 0 then none else some (s, m, e) | _ => none
      match fs with
      | [] => (.fin (!ps.isEmpty && rs.all fun r => match r.1 with | .fin s _ _ => s | _ => false) 0 0, 0)
      | f :: rest =>
        let emax := rest.foldl (fun a r => max a (magTop r.2.1 r.2.2)) (magTop f.2.1 f.2.2)
        let q := emax - 40
        let part (r : Bool × Nat × Int) : Int × Bool :=
          let m := if r.2.2 ≥ q then r.2.1 * 2 ^ (r.2.2 - q).toNat else r.2.1 / 2 ^ (q - r.2.2).toNat
          (if r.1 then -(m : Int) else m, r.2.2 < q && r.2.1 % 2 ^ (q - r.2.2).toNat ≠ 0)
        let xs := fs.map part
        let sum := xs.foldl (fun a x => a + x.1) 0
        (.fin (sum < 0) sum.natAbs q, if xs.any (·.2) then flagNX else 0)

/-- One K-step of a float accumulator (R196): the new code and the flags. -/
def accStep (ftz : Bool) (acc : Nat) (ps : List (Num × Num × Int)) : Nat × Nat :=
  let g := groupSum ps
  let r := encodeNum 0x10 0 0 ftz g.1
  let x := (decodeNum 0x10 acc).add 0 (decodeNum 0x10 r.1)
  let y := encodeNum 0x10 0 0 ftz x.1
  (y.1, g.2 ||| r.2 ||| x.2 ||| y.2)

/-- The new code of C's element (m, n), and its flags (R196, R198). -/
def Core.mElem (k : Core) (p : MPlan) (m n : Nat) : Nat × Nat :=
  let ps := k.products p m n
  if isIntCode p.a.fmt then
    let one (q : Nat × Nat × Nat × Int) : Int :=
      let v := intVal p.a.fmt q.2.1 * intVal p.b.fmt q.2.2.1
      if q.2.2.2 ≥ 0 then v * 2 ^ q.2.2.2.toNat else v / 2 ^ (-q.2.2.2).toNat
    let c : Int := if p.ovw then 0 else k.bufElem 2 0 (p.c.bitAt m n) 32
    (wrap 32 (ps.foldl (fun a q => a + one q) c), 0)
  else
    let d := 1536 / p.a.w
    let c := if p.ovw then 0 else k.codeAt p.c m n
    (List.range p.steps).foldl (fun (a : Nat × Nat) st =>
      let grp := (ps.filter fun q => q.1 / d = st).map fun q => (decodeNum p.a.fmt q.2.1, decodeNum p.b.fmt q.2.2.1, q.2.2.2)
      let r := accStep (k.ftzAt p.c m n) a.1 grp
      (r.1, a.2 ||| r.2)) (c, 0)

/-- The places (m, n) of a C tile. -/
def tilePlaces (rows cols : Nat) : List (Nat × Nat) := (List.range rows).flatMap fun m => (List.range cols).map fun n => (m, n)

/-- The effect of a row-step command: the core and the flags (R203, R204). -/
def Core.runMma (k : Core) (p : MPlan) : Core × Nat :=
  if p.empty then (k, 0)
  else (tilePlaces p.rows p.cols).foldl (fun (a : Core × Nat) q =>
    let r := k.mElem p q.1 q.2
    (a.1.putAt p.c q.1 q.2 r.1, a.2 ||| r.2)) (k, 0)

/-! ### MZERO and MDRAIN (R202, R205) -/

/-- The checks of R202. -/
def Core.zPlan (k : Core) (g : Grant) (h : Header) : Option Tensor :=
  match k.tensor h 8 with
  | some c => if c.buf = 2 && !c.tr && c.sps = 0 && !c.bse && (c.fmt = 0x10 || c.fmt = 0x04) && c.d0 ≤ 128 && c.d2 = 1 && c.d3 = 1 &&
      g.covers 2 c.mask then some c else none
  | none => none

/-- MZERO's effect. -/
def Core.runZero (k : Core) (c : Tensor) : Core := (tilePlaces c.d1 c.d0).foldl (fun q p => q.putAt c p.1 p.2 0) k

/-- The checks of R205: source and destination; with an empty header the command accesses nothing (R194). -/
def Core.dPlan (k : Core) (g : Grant) (hd hc : Header) : Option (Tensor × Tensor) :=
  match k.tensor hd 8, k.tensor hc 8 with
  | some d, some c =>
    if c.buf = 2 && !c.tr && c.sps = 0 && !c.bse && (c.fmt = 0x10 || c.fmt = 0x04) && d.buf = 1 && !d.tr && d.sps = 0 && d.fmt ≠ 0 &&
        d.fmt ≠ 0x05 && (d.d0 = 0 || c.d0 = 0 || (d.d0 = c.d0 && d.d1 = c.d1)) && c.d0 ≤ 128 && c.d2 = 1 && c.d3 = 1 && d.d2 = 1 && d.d3 = 1 &&
        g.covers 2 c.mask && g.covers 1 d.mask && d.planeOk g then some (d, c) else none
  | _, _ => none

/-- Rows that an MDRAIN moves: none where an operand is empty (R94, R194). -/
def drainRows (d c : Tensor) : Nat := if d.d0 = 0 || c.d0 = 0 then 0 else c.d1

/-- MDRAIN's effect: row m draws from counter value ctr + m (R205). -/
def Core.runDrain (k : Core) (d c : Tensor) (rm key ctr fresh : Nat) : Core × Nat :=
  (tilePlaces (drainRows d c) c.d0).foldl (fun (a : Core × Nat) p =>
    match k.blockScale d p.1 p.2 with
    | none => a
    | some sc =>
      let u := if isSr rm then drawU key (ctr + p.1) p.2 else 0
      let r := storeScaled d.fmt c.fmt rm u (Config.free 64 (fresh + p.1 * 128 + p.2)).toNat (k.ftzAt d p.1 p.2) (c.bias - (d.bias + sc))
        (k.codeAt c p.1 p.2)
      (a.1.putAt d p.1 p.2 r.1, a.2 ||| r.2)) (k, 0)

/-! ### Issue and completion (R206) -/

/-- The engine accepts a further command: at most two are incomplete. -/
def Core.mtxRoom (k : Core) : Bool := k.mtx.length < 2

/-- The latest completion of a command in flight. -/
def Core.mtxLast (k : Core) : Nat := k.mtx.foldl (fun a m => Nat.max a m.due) 0

/-- When a row-step command issued at `t` starts its array cycles. -/
def Core.mtxStart (k : Core) (t kind : Nat) : Nat := Nat.max (t + 8 + (if kind = 1 then 16 else 0)) (k.mtxEnd + 1)

/-- A row-step command enters the engine in cycle `t`: its effect, and its place in flight. `x` fills the rest. -/
def Core.enterMma (k : Core) (p : MPlan) (t : Nat) (x : MCmd) : Core :=
  let r := k.runMma p
  let start := k.mtxStart t p.kind
  let n := if p.empty then 0 else p.rows * p.steps
  { r.1 with
    mtx := r.1.mtx ++ [{ x with due := Nat.max k.mtxLast (start + n + 6), start := start, flags := r.2, steps := n }]
    mtxEnd := if n = 0 then k.mtxEnd else start + n - 1 }

/-- The record of an MTX word in flight. -/
def State.mCmd (s : State) (h : HOp) : MCmd :=
  { due := 0, flags := 0, steps := 0, fe := h.fe, flag := h.flag, epoch := s.me.epoch, idx := s.curIdx, ctx := s.cur.ctx, cpym := none }

/-- The footprint of a row-step command (R208). -/
def MPlan.reads (p : MPlan) : List (Nat × Nat) :=
  if p.empty then [] else
    [(1, p.a.mask), (3, p.bMask), (1, p.a.planeMask), (1, p.b.planeMask)] ++ (if p.ovw then [] else [(2, p.c.mask)])
def MPlan.writes (p : MPlan) : List (Nat × Nat) := if p.empty then [] else [(2, p.c.mask)]

/-- A row-step word (R203, R204). -/
def State.mmaWord (s : State) (kind : Nat) (ovw dm : Bool) (h : HOp) : Host.Outcome State Fault Refusal :=
  if !s.myCore.mtxRoom then s.hold
  else if !s.myGrant.flagOk h.fe h.flag then .next s.trapRange
  else match s.myCore.mPlan s.myGrant kind ovw dm (s.rdH h.hd) (s.rdH h.ha) (s.rdH h.hb) with
    | none => .next s.trapRange
    | some p =>
      let x := s.mCmd h
      let fp := s.footprint 5 h.ac.val p.reads p.writes
      .next (((s.issued.modMe fun k => k.enterAccess fp).modMyCore fun k => k.enterMma p s.cycle x).readStruck s.cur.core s.cur.ctx 0 p.reads)

/-- MMA (R203). -/
def execMma (h : HOp) (ovw : Bool) (s : State) : Host.Outcome State Fault Refusal := s.mmaWord 0 ovw false h

/-- MMAT (R203). -/
def execMmat (h : HOp) (ovw : Bool) (s : State) : Host.Outcome State Fault Refusal := s.mmaWord 1 ovw false h

/-- MMAS (R204). -/
def execMmas (h : HOp) (ovw dm : Bool) (s : State) : Host.Outcome State Fault Refusal := s.mmaWord 2 ovw dm h

/-- When MZERO or MDRAIN of `rows` lines, issued at `t`, completes: `lead` cycles and one a line, after the array cycles before. -/
def Core.mtxPort (k : Core) (t lead rows : Nat) : Nat := Nat.max k.mtxLast (Nat.max t (k.mtxEnd + 1) + lead + rows)

/-- MZERO (R202). -/
def execMzero (h : HOp) (s : State) : Host.Outcome State Fault Refusal :=
  if !s.myCore.mtxRoom then s.hold
  else if !s.myGrant.flagOk h.fe h.flag then .next s.trapRange
  else match s.myCore.zPlan s.myGrant (s.rdH h.hd) with
    | none => .next s.trapRange
    | some c =>
      let x := s.mCmd h
      let fp := s.footprint 5 h.ac.val [] [(2, c.mask)]
      .next ((s.issued.modMe fun k => k.enterAccess fp).modMyCore fun k =>
        { k.runZero c with mtx := k.mtx ++ [{ x with due := k.mtxPort s.cycle 2 c.d1 }] })

/-- MDRAIN (R205). -/
def execMdrain (h : HOp) (rm : Fin 16) (s : State) : Host.Outcome State Fault Refusal :=
  if !s.myCore.mtxRoom then s.hold
  else if !s.myGrant.flagOk h.fe h.flag then .next s.trapRange
  else match s.myCore.dPlan s.myGrant (s.rdH h.hd) (s.rdH h.ha) with
    | none => .next s.trapRange
    | some (d, c) =>
      let x := s.mCmd h
      let rows := drainRows d c
      let fp := if rows = 0 then s.footprint 5 h.ac.val [] [] else s.footprint 5 h.ac.val [(2, c.mask), (1, d.planeMask)] [(1, d.mask)]
      let key := s.me.vrkey.toNat
      let ctr := s.me.vrctr.toNat
      let s1 := s.issued.modMe fun k =>
        { k.enterAccess fp with vrctr := if isSr rm.val then k.vrctr + BitVec.ofNat 64 rows else k.vrctr }
      .next (((s1.modMyCore fun k =>
        let r := k.runDrain d c rm.val key ctr s.fresh
        { r.1 with mtx := k.mtx ++ [{ x with due := k.mtxPort s.cycle 6 rows, flags := r.2 }] }).skipFresh (c.d1 * 128)).readStruck
          s.cur.core s.cur.ctx 0 fp.rd)

/-- A command completes (R199, R206, R217): its flags, its completion update, its footprint, its counter; the follow-on command of a
CPYM is reported to its channel. -/
def State.mtxDone (s : State) (c : CoreId) (m : MCmd) : State :=
  let s1 := s.modCtx c m.ctx fun k =>
    ({ k with mstat := k.mstat ||| (m.flags &&& 15) }.leaveAccess (if m.cpym.isSome then 12 else 5) m.epoch m.idx)
  let s2 := (s1.complFlag c m.ctx 2 m.fe m.flag).count c m.ctx 0x21 1
  match m.cpym with
  | none => s2
  | some ch => s2.modCore c fun q => { q with chans := vmod q.chans ch.val fun (h : Channel) =>
      { h with cmds := h.cmds.map fun (o : CCmd) => if o.epoch = m.epoch && o.ent.idx = m.idx then { o with phase := 3 } else o } }

/-- MTX_COMMAND_COMPLETE (R206): the commands of a core that are due, in issue order. -/
def execMtxCommandComplete (c : CoreId) (s : State) : Host.Outcome State Fault Refusal :=
  let due := (s.core c).mtx.filter fun m => m.due ≤ s.cycle
  let s1 := s.modCore c fun k => { k with mtx := k.mtx.filter fun (m : MCmd) => m.due > s.cycle }
  .next (due.foldl (fun (t : State) m => t.mtxDone c m) s1)

end Sys2Proof.Machine
end

