-- ==== Sys2Proof/Machine/Copy.lean ====
section
/-! DEFINITION. Sys2Proof/Machine/Copy.lean: the copy engine (R174, R175, R210 to R224) and the host DMA channels that its host copies
take (R340). -/

namespace Sys2Proof.Machine

/-! ### Runs of elements -/

/-- `n` elements from element `j` of a tensor with rows of `d0`, as runs (row, first element, count). -/
def runsFrom (d0 : Nat) : Nat → Nat → Nat → List (Nat × Nat × Nat)
  | 0, _, _ => []
  | fuel + 1, j, n =>
    if n = 0 || d0 = 0 then []
    else
      let m := Nat.min n (d0 - j % d0)
      (j / d0, j % d0, m) :: runsFrom d0 fuel (j + m) (n - m)

/-- The unit of a copy channel. -/
def cpyUnit (c : CoreId) (x : CtxId) (ch : ChNo) : UnitId := { core := c, ctx := x, path := 1, chan := ch.val }

/-- The unit of a copy's host side: the context's accesses through host DMA queue `q`, on the HST path (R290; assumption log 47). -/
def hstUnit (c : CoreId) (x : CtxId) (q : Nat) : UnitId := { core := c, ctx := x, path := 5, chan := 2 ^ 20 + q }

/-- Where a host address of a PASID stands in the model's host memory; addresses without a PASID stand below (assumption log 14). -/
def hostKey (pasid a : Nat) : Nat := (pasid + 1) * 2 ^ 64 + a

/-- 64-byte lines that `n` bytes at `a` touch. -/
def lineSpan (a n : Nat) : Nat := if n = 0 then 0 else (a + n - 1) / 64 - a / 64 + 1

/-- The offset in its handle of element `i0` of row `r`, and its bit in that byte. -/
def Tensor.byteAt (t : Tensor) (r i0 : Nat) : Nat × Nat := (t.row r + i0 * t.w / 8, i0 * t.w % 8)

/-- A run read as one number, its first element lowest: from a typed buffer of core `kc`, from DRAM or from the host. -/
def State.getRun (s : State) (kc c : CoreId) (x : CtxId) (ch : ChNo) (cls : Nat) (q : Acq) (t : Tensor) (r i0 n : Nat) :
    Except XFault Nat × State :=
  if t.buf ≠ 0 then
    let k := s.core kc
    (.ok (((List.range n).map fun i => k.bufElem t.buf 0 (t.bitAt r (i0 + i)) t.w).foldr (fun v a => v + a * 2 ^ t.w) 0), s)
  else
    let b := t.byteAt r i0
    let nb := ceilDiv (b.2 + n * t.w) 8
    let take (bs : List Byte) : Nat := leNat bs / 2 ^ b.2 % 2 ^ (n * t.w)
    match s.handle c x t.handle 1 with
    | (.fault f, s1) => (.error f, s1)
    | (.unbound, s1) => let r := s1.freeBytes nb; (.ok (take r.1), r.2)
    | (.bound i, s1) =>
      if i.kind = 4 then
        let r := s1.readMem true (hstUnit c x i.hq) cls q false (hostKey (s1.hq i.hq).pasid (i.base + b.1)) nb
        (.ok (take r.1), r.2)
      else match s1.readVa (cpyUnit c x ch) (some (Fin.ofNat 7 ch.val)) cls q false (t.handle * 2 ^ 48 + b.1) (i.base + b.1) nb with
        | (.error f, s2) => (.error f, s2)
        | (.ok bs, s2) => (.ok (take bs), s2.count c x 0x11 (lineSpan (i.base + b.1) nb))

/-- Bits of DRAM written from bit `lo` of the byte at `va`; bits beside them keep their values. -/
def State.putDram (s : State) (u : UnitId) (sel : TlbSel) (cls haddr va lo n v : Nat) : Option XFault × State :=
  let nb := ceilDiv (lo + n) 8
  if lo = 0 && n % 8 = 0 then s.writeVa u sel cls haddr va (leBytes nb v)
  else match s.probeVa u sel haddr va nb .wr with
    | (some f, s1) => (some f, s1)
    | (none, s1) =>
      let old := (List.range nb).map fun i => match (s1.translate u.core u.ctx sel (haddr + i) (va + i) .wr).1 with | .ok p => s1.byte p.1 | .error _ => 0
      s1.writeVa u sel cls haddr va (leBytes nb (setBits (leNat old) lo n v))

/-- A run written. -/
def State.putRun (s : State) (kc c : CoreId) (x : CtxId) (ch : ChNo) (cls : Nat) (t : Tensor) (r i0 n v : Nat) : Option XFault × State :=
  if t.buf ≠ 0 then
    (none, s.modCore kc fun k => (List.range n).foldl (fun (k : Core) i => k.putAt t r (i0 + i) (v / 2 ^ (t.w * i) % 2 ^ t.w)) k)
  else
    let b := t.byteAt r i0
    match s.handle c x t.handle 1 true with
    | (.fault f, s1) => (some f, s1)
    | (.unbound, s1) => (none, s1)
    | (.bound i, s1) =>
      if i.kind = 4 then
        let a := hostKey (s1.hq i.hq).pasid (i.base + b.1)
        let nb := ceilDiv (b.2 + n * t.w) 8
        let old := (List.range nb).map fun j => s1.hostByte (a + j)
        (none, s1.writeMem true (hstUnit c x i.hq) cls a (leBytes nb (setBits (leNat old) b.2 (n * t.w) v)))
      else match s1.putDram (cpyUnit c x ch) (some (Fin.ofNat 7 ch.val)) cls (t.handle * 2 ^ 48 + b.1) (i.base + b.1) b.2 (n * t.w) v with
        | (some f, s2) => (some f, s2)
        | (none, s2) => (none, s2.count c x 0x12 (lineSpan (i.base + b.1) (ceilDiv (b.2 + n * t.w) 8)))

/-! ### A command's tensors -/

/-- Destination and source of a command. -/
def CCmd.dst (m : CCmd) : Tensor := tensorAs m.hd m.fmtD (widthOr m.fmtD m.raw)
def CCmd.src (m : CCmd) : Tensor := tensorAs m.hs m.fmtS (widthOr m.fmtS m.raw)

/-- The delta list of a CPYD: entries of 8 bytes (R218). -/
def CCmd.lst (m : CCmd) : Tensor := tensorAs m.hb 0 64

/-- Elements of the command; none when a tensor is empty (R94). -/
def CCmd.elements (m : CCmd) : Nat := if m.src.d0 = 0 then 0 else m.dst.size

/-- Granules of the command (R212). -/
def CCmd.granules (m : CCmd) : Nat := ceilDiv (m.elements * m.dst.w) 512

/-- The core and context where the destination's typed buffer and the completion flag stand. -/
def CCmd.dstCore (m : CCmd) (c : CoreId) : CoreId := match m.peer with | some p => p.1 | none => c

/-- The runs of granule `g`. -/
def CCmd.granuleRuns (m : CCmd) (g : Nat) : List (Nat × Nat × Nat) :=
  let per := 512 / Nat.max 1 m.dst.w
  let n := Nat.min per (m.elements - g * per)
  runsFrom m.dst.d0 (n + 1) (g * per) n

/-- The ABUF or CBUF lines that a run touches. -/
def Tensor.runLines (t : Tensor) (p : Nat × Nat × Nat) : Nat :=
  let a := t.bitAt p.1 p.2.1 / 4096
  (2 ^ ((t.bitAt p.1 (p.2.1 + p.2.2) + 4095) / 4096 - a) - 1) * 2 ^ a

/-- What a command reads in the core's typed buffers when it moves runs: lines of its source, and where it transforms the block planes. -/
def CCmd.bufReads (m : CCmd) (runs : List (Nat × Nat × Nat)) : List (Nat × Nat) :=
  (if m.src.buf = 0 then [] else [(m.src.buf, runs.foldl (fun a p => a ||| m.src.runLines p) 0)]) ++
  (if m.transforming then [(1, m.src.planeMask), (1, m.dst.planeMask)] else [])

/-! ### Moving (R212, R215) -/

/-- Runs moved with their codes unchanged; the first fault ends them. -/
def State.moveRuns (s : State) (c : CoreId) (ch : ChNo) (m : CCmd) : List (Nat × Nat × Nat) → Option XFault × State
  | [] => (none, s)
  | (r, i0, n) :: rest =>
    match s.getRun c c m.ctx ch m.cls m.acq m.src r i0 n with
    | (.error f, s1) => (some f, s1)
    | (.ok v, s1) =>
      match s1.putRun (m.dstCore c) c m.ctx ch m.cls m.dst r i0 n v with
      | (some f, s2) => (some f, s2)
      | (none, s2) => s2.moveRuns c ch m rest

/-! ### Transforming (R216, R218) -/

/-- A value rounded into a type, level-index ones included. -/
def storeNum (t mode u free : Nat) (ftz : Bool) (x : Num) : Nat × Nat :=
  if isL t then numToLi t mode u free x else encodeNum t mode u ftz x

/-- The exact sum of a level-index value ±e^±φ and a dyadic ±m · 2^e, to `p` bits: sign and magnitude. -/
def liPlusIv (p : Nat) (s r : Bool) (z : Nat) (t : Bool) (m : Nat) (e : Int) : Option (Bool × Iv) :=
  match phiOf p (z - liOne) with
  | none => none
  | some l =>
    if l.lo > 500 * 2 ^ p then none
    else
      let v := expIv p (if r then l.neg else l)
      let d := dyIv p m e
      let a := (if s then v.neg else v).add (if t then d.neg else d)
      if a.lo > 0 then some (false, a) else if a.hi < 0 then some (true, a.neg) else none

/-- A level-index value and a number added exactly and rounded once into type `t`, scaled by 2^sh (R218). Where no precision tried
fixes the rounding the result is a free value. -/
def storeLiPlus (t mode u free : Nat) (ftz : Bool) (sh : Int) (x : Li) (d : Num) : Nat × Nat :=
  let open_ : Nat × Nat := (free % 2 ^ typeWidth t, flagNX)
  match x, d with
  | .nan, _ => storeNum t mode u free ftz .nan
  | _, .nan => storeNum t mode u free ftz .nan
  | _, .inf s => storeNum t mode u free ftz (.inf s)
  | .zer s, y => let r := (Num.fin s 0 0).add mode y; storeNum t mode u free ftz (r.1.shift sh)
  | .val s r z, .fin ds m e =>
    if z = liOne then storeNum t mode u free ftz (((Num.fin s 1 0).add mode (.fin ds m e)).1.shift sh)
    else if isL t then
      if m = 0 then liStore t mode u x
      else match refine fun p => match liPlusIv p s r z ds m e with
          | some (neg, a) => (match ofLn p neg (lnIv p a) with | some y => if y.fixed t then some y else none | none => none)
          | none => none with
        | some y => (sliround t mode u free y, flagNX)
        | none =>
          -- one of the two is too far from the other to be told apart
          if r then let q := numToLi t mode u free (.fin ds m e); (q.1, q.2 ||| flagNX)
          else (sliround t mode u free (nearIndex 128 s r z), flagNX)
    else if m = 0 then
      match liMag r z with
      | some g => encodeAny t mode u ftz s { g with e := g.e + sh }
      | none => open_
    else match refine fun p => match liPlusIv p s r z ds m e with
        | some (neg, a) => (a.pin p).map fun g => (neg, g)
        | none => none with
      | some (neg, g) => encodeAny t mode u ftz neg { g with e := g.e + sh }
      | none =>
        -- one of the two is too far from the other to be told apart: a hair beside the larger one
        if r then
          let g : Mag := { n := if s = ds then m * 2 ^ 3000 else m * 2 ^ 3000 - 1, e := e - 3000 + sh, sticky := true }
          encodeAny t mode u ftz ds g
        else encodeAny t mode u ftz s Mag.huge

/-- The code of source element `j`, read for its value; `none` in an all-zero block (R125), which is not fetched. -/
def State.srcCode (s : State) (c : CoreId) (ch : ChNo) (m : CCmd) (r i0 : Nat) : Except XFault (Option (Nat × Int)) × State :=
  match (s.core c).blockScale m.src r i0 with
  | none => (.ok none, s)
  | some sc =>
    if m.src.buf ≠ 0 then (.ok (some ((s.core c).codeAt m.src r i0, m.src.bias + sc)), s)
    else match s.getRun c c m.ctx ch m.cls m.acq m.src r i0 1 with
      | (.error f, s1) => (.error f, s1)
      | (.ok v, s1) => (.ok (some (v, m.src.bias + sc)), s1)

/-- The delta of a list entry for element `j` (R218): entries in ascending order of index count, others set DX. -/
def deltaScan (e : Nat) : Int → List Nat → List (Nat × Nat) × Bool
  | _, [] => ([], false)
  | prev, x :: rest =>
    let j : Nat := x % 2 ^ 32
    if (j : Int) ≤ prev || j ≥ e then let r := deltaScan e prev rest; (r.1, true)
    else let r := deltaScan e (j : Int) rest; ((j, x / 2 ^ 32 % 2 ^ 32) :: r.1, r.2)

/-- The mode of an element: the word's, or that of the destination's bank (16; R130), rne for DRAM. -/
def Core.modeAt (k : Core) (m : CCmd) (r i0 : Nat) : Nat :=
  if m.rm < 16 then m.rm
  else if m.dst.buf = 0 then 0 else bits (k.fmtReg m.dst.buf (bankAt m.dst.buf (m.dst.bitAt r i0))) 8 4

/-- One element of a transforming command: its code and flags, or nothing where the destination's block is all-zero. -/
def State.transformOne (s : State) (c : CoreId) (ch : ChNo) (m : CCmd) (deltas : List (Nat × Nat)) (j : Nat) : Option XFault × State × Nat :=
  let d := m.dst
  let r := j / d.d0
  let i0 := j % d.d0
  let k := s.core c
  match k.blockScale d r i0 with
  | none => (none, s, 0)
  | some dsc =>
    match s.srcCode c ch m r i0 with
    | (.error f, s1) => (some f, s1, 0)
    | (.ok src, s0) =>
      let s1 := s0.skipFresh 1
      let mode := k.modeAt m r i0
      let u := if isSr mode then drawU m.key.toNat (m.ctr.toNat + j / 256) (j % 256) else 0
      let free := (s0.freeVal 64).toNat
      let ftz := k.ftzAt d r i0
      let down : Int := -(d.bias + dsc)
      let out : Nat × Nat :=
        match (if m.kind = 4 then deltas.find? fun p => p.1 = j else none), src with
        | some p, some (v, up) =>
          let dl := decodeNum 0x10 p.2
          if m.repl then storeNum d.fmt mode u free ftz (dl.shift down)
          else if isL m.fmtS then storeLiPlus d.fmt mode u free ftz down (decodeLi m.fmtS v) dl
          else
            let sum := ((decodeNum m.fmtS v).shift up).add mode dl
            let e := storeNum d.fmt mode u free ftz (sum.1.shift down)
            (e.1, e.2 ||| sum.2)
        | some p, none =>
          let dl := decodeNum 0x10 p.2
          if m.repl then storeNum d.fmt mode u free ftz (dl.shift down)
          else storeNum d.fmt mode u free ftz (((Num.fin false 0 0).add mode dl).1.shift down)
        | none, some (v, up) => storeScaled d.fmt m.fmtS mode u free ftz (up + down) v
        | none, none => storeNum d.fmt mode u free ftz (.fin false 0 0)
      match s1.putRun (m.dstCore c) c m.ctx ch m.cls d r i0 1 out.1 with
      | (some f, s2) => (some f, s2, out.2)
      | (none, s2) => (none, s2, out.2)

/-- The entries of a CPYD's list. -/
def State.readDeltas (s : State) (c : CoreId) (ch : ChNo) (m : CCmd) : Except XFault (List Nat) × State :=
  if m.kind ≠ 4 || m.lst.d0 = 0 then (.ok [], s)
  else match s.getRun c c m.ctx ch m.cls m.acq m.lst 0 0 m.lst.d0 with
    | (.error f, s1) => (.error f, s1)
    | (.ok v, s1) => (.ok ((List.range m.lst.d0).map fun i => v / 2 ^ (64 * i) % 2 ^ 64), s1)

/-- A transforming command run whole: the flags, or the first fault. -/
def State.transform (s : State) (c : CoreId) (ch : ChNo) (m : CCmd) : Option XFault × State × Nat :=
  match s.readDeltas c ch m with
  | (.error f, s1) => (some f, s1, 0)
  | (.ok es, s1) =>
    let dl := deltaScan m.elements (-1) es
    (List.range m.elements).foldl (fun (a : Option XFault × State × Nat) j =>
      match a.1 with
      | some _ => a
      | none =>
        let r := a.2.1.transformOne c ch m dl.1 j
        (r.1, r.2.1, a.2.2 ||| r.2.2)) (none, s1, if dl.2 then 16 else 0)

/-- `n` bits from bit `lo` of the byte at `va` become undefined, inside that byte (R2). -/
def State.spoilEdge (s : State) (u : UnitId) (sel : TlbSel) (cls haddr va lo n : Nat) : State :=
  match (s.translate u.core u.ctx sel haddr va .wr).1 with
  | .error _ => s
  | .ok (pa, key) =>
    if s.lineKey pa = key then
      let f := s.freeBytes 1
      f.2.writeMem false u cls pa [BitVec.ofNat 8 (setBits (s.byte pa).toNat lo n (f.1.headD 0).toNat)]
    else s

/-- `n` bits of DRAM from bit `lo` of the byte at `va` become undefined; the bits beside them keep their values. -/
def State.spoilBits (s : State) (u : UnitId) (sel : TlbSel) (cls haddr va lo n : Nat) : State :=
  if n = 0 then s
  else if lo + n ≤ 8 then s.spoilEdge u sel cls haddr va lo n
  else
    let a := if lo = 0 then 0 else 1
    let s1 := if lo = 0 then s else s.spoilEdge u sel cls haddr va lo (8 - lo)
    let s2 := s1.spoilVa u sel cls (haddr + a) (va + a) ((lo + n) / 8 - a)
    if (lo + n) % 8 = 0 then s2
    else s2.spoilEdge u sel cls (haddr + (lo + n) / 8) (va + (lo + n) / 8) 0 ((lo + n) % 8)

/-- The parts of a run that an undefined destination covers: not the blocks that a transforming command does not write (R125). -/
def Core.spoiled (k : Core) (m : CCmd) (p : Nat × Nat × Nat) : List (Nat × Nat × Nat) :=
  if m.transforming && m.dst.bse then
    ((List.range p.2.2).filter fun i => (k.blockScale m.dst p.1 (p.2.1 + i)).isSome).map fun i => (p.1, p.2.1 + i, 1)
  else [p]

/-- A run of the destination becomes undefined (R2). Nothing is reported or counted on that account. -/
def State.spoilRun (s : State) (c : CoreId) (ch : ChNo) (m : CCmd) (p : Nat × Nat × Nat) : State :=
  let t := m.dst
  let b := t.byteAt p.1 p.2.1
  let free : State := ((s.putRun (m.dstCore c) c m.ctx ch m.cls t p.1 p.2.1 p.2.2 (s.freeVal (p.2.2 * t.w)).toNat).2).skipFresh 1
  if t.buf ≠ 0 then free
  else match (s.handle c m.ctx t.handle).1 with
    | .bound i =>
      if i.kind = 4 then free
      else s.spoilBits (cpyUnit c m.ctx ch) (some (Fin.ofNat 7 ch.val)) m.cls (t.handle * 2 ^ 48 + b.1) (i.base + b.1) b.2 (p.2.2 * t.w)
    | _ => s

/-- The granules from `g` on take free values (R2): what the spec calls undefined of a copy that broke off. -/
def State.scramble (s : State) (c : CoreId) (ch : ChNo) (m : CCmd) (g : Nat) : State :=
  (((List.range (m.granules - g)).flatMap fun i => m.granuleRuns (g + i)).flatMap ((s.core c).spoiled m)).foldl
    (fun (t : State) p => t.spoilRun c ch m p) s

/-- What a re-run of a transforming command must find unchanged (R221): source or base, and list, as they stand. -/
def State.sourceDigest (s : State) (c : CoreId) (ch : ChNo) (m : CCmd) : List Byte :=
  let run (t : Tensor) (e : Nat) : List Byte := (runsFrom t.d0 (t.rows + 1) 0 e).flatMap fun p =>
    match (s.getRun c c m.ctx ch m.cls s.acqNow t p.1 p.2.1 p.2.2).1 with
    | .ok v => leBytes (ceilDiv (p.2.2 * t.w) 8) v
    | .error _ => [0]
  shake256 (run m.src m.elements ++ (if m.kind = 4 then run m.lst m.lst.d0 else [])) 32

/-! ### Host DMA channels (R340) -/

/-- The partition is exhausted (R339). -/
def State.exh (s : State) (p : Nat) : Bool := (s.part p).exh

/-- One unit of a partition's budget spent. -/
def State.spend (s : State) (p n : Nat) : State := s.modPart p fun q => { q with spent := Nat.min (q.spent + n) (2 ^ 32 - 1) }

/-- The head command of a channel. -/
def Core.copyHead (k : Core) (ch : ChNo) : Option CCmd := (k.chans[ch]).cmds.head?

/-- The head command of a channel changed. -/
def Core.modHead (k : Core) (ch : ChNo) (f : CCmd → CCmd) : Core :=
  { k with chans := vmod k.chans ch.val fun (h : Channel) => { h with cmds := match h.cmds with | m :: r => f m :: r | [] => [] } }

/-- Every channel of the package, with its head command. -/
def State.hostHeads (s : State) : List (CoreId × ChNo × CCmd) :=
  (List.finRange 128).flatMap fun c => (List.finRange 4).filterMap fun ch =>
    match (s.core c).copyHead ch with
    | some m => if m.kind = 5 && m.phase = 0 then some (c, ch, m) else none
    | none => none

/-- A command that waits for a host DMA channel: where it stands, its partition and PRIO, whether it is suspended, and whether it may go
on as soon as it has a channel. -/
structure DmaWait where
  ref : Sum (CoreId × ChNo) Nat
  part : Nat
  prio : Nat
  suspended : Bool
  able : Bool
  deriving DecidableEq, Repr

/-- The context lets its copies go on: it runs, runs out a clamped loop, or drains a stop with a chunk begun (R221). -/
def Ctx.copiesRun (k : Ctx) (m : CCmd) : Bool :=
  k.phase = .running || (k.phase = .stopping && ((k.clamping && !k.clampDone) || m.busy))

/-- The commands that wait for a host DMA channel. -/
def State.dmaWaiting (s : State) : List DmaWait :=
  (s.hostHeads.filterMap fun p => if p.2.2.dma.isNone then
    some { ref := .inl (p.1, p.2.1), part := s.partOf p.1 p.2.2.ctx, prio := p.2.2.prio, suspended := p.2.2.suspended
           able := (s.ctx p.1 p.2.2.ctx).copiesRun p.2.2 && p.2.2.due ≤ s.cycle } else none) ++
  (s.host.runs.filterMap fun r => if r.dma.isNone then
    some { ref := .inr r.num, part := (s.hq r.q).part, prio := r.cmd.prio, suspended := r.suspended, able := true } else none)

/-- A waiting command goes ahead of nothing that it may not pass: a suspended one where its partition is not exhausted, a new one where no
suspended command of its partition waits (R340). -/
def State.mayTake (s : State) (w : DmaWait) : Bool :=
  w.able && (if w.suspended then !s.exh w.part else !(s.dmaWaiting.any fun v => v.part = w.part && v.suspended))

/-- The waiting commands for which the arbiter takes a channel of holder `h` (R340). -/
def State.takers (s : State) (h : DmaHold) : List DmaWait :=
  s.dmaWaiting.filter fun w => s.mayTake w && s.exh h.part && !s.exh w.part && w.part ≠ h.part && w.prio ≥ h.prio

/-- The lowest free host DMA channel. -/
def State.dmaFree (s : State) : Option (Fin 16) := (List.finRange 16).find? fun n => (s.host.dma[n]).isNone

/-- A new command of partition `p` may start on a free channel: no suspended command of its partition waits ahead of it. -/
def State.dmaOpen (s : State) (p : Nat) : Bool :=
  s.dmaFree.isSome && !(s.dmaWaiting.any fun w => w.part = p && w.suspended)

/-- A channel held or freed. -/
def State.setDma (s : State) (n : Fin 16) (h : Option DmaHold) : State := { s with host := { s.host with dma := s.host.dma.set n h } }

/-- A host-queue command changed. -/
def State.modRun (s : State) (i : Nat) (f : HostRun → HostRun) : State :=
  { s with host := { s.host with runs := s.host.runs.map fun (r : HostRun) => if r.num = i then f r else r } }

/-- The command that holds channel `n` is to be suspended at its next chunk boundary, or is so no longer. -/
def State.suspendHolder (s : State) (n : Fin 16) (b : Bool) : State :=
  match s.host.dma[n] with
  | none => s
  | some h =>
    match h.core, h.host with
    | some (c, ch), _ => s.modCore c fun k => k.modHead ch fun m => { m with suspended := b }
    | none, some i => s.modRun i fun r => { r with suspended := b }
    | none, none => s

/-- Channel `n` goes to a waiting command. -/
def State.giveDma (s : State) (n : Fin 16) (w : DmaWait) : State :=
  match w.ref with
  | .inl (c, ch) =>
    (s.setDma n (some { part := w.part, prio := w.prio, since := s.cycle, core := some (c, ch), host := none })).modCore c fun k =>
      k.modHead ch fun m => { m with dma := some n, suspended := false }
  | .inr i =>
    (s.setDma n (some { part := w.part, prio := w.prio, since := s.cycle, core := none, host := some i })).modRun i fun r =>
      { r with dma := some n, suspended := false }

/-- The command that holds a channel is suspended already. -/
def State.holderSuspended (s : State) (h : DmaHold) : Bool :=
  match h.core, h.host with
  | some (c, ch), _ => (match (s.core c).copyHead ch with | some m => m.suspended | none => false)
  | none, some i => s.host.runs.any fun r => r.num = i && r.suspended
  | none, none => false

/-- The arbiter's check at a chunk boundary (R340): with every channel held, one of an exhausted partition is taken for a waiting
command of a partition that is not, of no lower PRIO; one channel for each command that waits. -/
def State.dmaArbiter (s : State) : State :=
  if s.dmaFree.isSome then s
  else
    let marked := ((List.finRange 16).filter fun n => match s.host.dma[n] with | some h => s.holderSuspended h | none => false).length
    let cand := (List.finRange 16).filterMap fun n => match s.host.dma[n] with
      | some h => if !s.holderSuspended h && (s.takers h).length > marked then some (n, h) else none
      | none => none
    match cand with
    | [] => s
    | p :: rest =>
      let best := rest.foldl (fun (a : Fin 16 × DmaHold) b => if b.2.prio < a.2.prio || (b.2.prio = a.2.prio && b.2.since > a.2.since) then b else a) p
      s.suspendHolder best.1 true

/-- A command that holds channel `n` and is to be suspended stands at a chunk boundary: its channel goes to the command for which it is
taken, and a transforming host-queue command starts from its first element again; it keeps the channel where nothing waits for it any more. -/
def State.dmaRelease (s : State) (n : Fin 16) (h : DmaHold) : State :=
  match s.takers h with
  | [] => s.suspendHolder n false
  | w :: _ =>
    let s1 := match h.core, h.host with
      | some (c, ch), _ => s.modCore c fun k => k.modHead ch fun m => { m with dma := none }
      | none, some i => s.modRun i fun r => { r with dma := none, done := if r.cmd.conv then 0 else r.done }
      | none, none => s
    s1.giveDma n w

/-- The end of a chunk: a unit is spent, the arbiter checks, and the holder leaves if its channel is taken. -/
def State.chunkEnd (s : State) (p : Nat) (n : Fin 16) (atEnd : Bool) : State :=
  let s1 := (s.spend p 1).dmaArbiter
  if atEnd then s1
  else match s1.host.dma[n] with
    | some h => if s1.holderSuspended h then s1.dmaRelease n h else s1
    | none => s1

/-- HQCFG's pending write takes effect once no command of the queue is in progress (R367). -/
def State.hqSettle (s : State) (q : Nat) : State := match (s.hq q).pend with | some v => s.hqcfgWrite q v.toNat | none => s

/-! ### Granules (R212, R220, R221) -/

/-- The channel's write pointer advances by `n`, and a tracking flag follows it (R220). -/
def State.advanceWp (s : State) (c : CoreId) (ch : ChNo) (x : CtxId) (n : Nat) : State :=
  let wp := ((s.core c).chans[ch]).wp + n
  let s1 := (s.modCore c fun k => { k with chans := vmod k.chans ch.val fun (h : Channel) => { h with wp := wp % 2 ^ 64 } }).count c x 0x10 n
  match ((s.core c).chans[ch]).track with
  | some f => s1.pushFlag c { at_ := s.cycle, key := 4, flag := f, add := false, val := BitVec.ofNat 32 wp, setter := 4, score := 0, ctx := x }
  | none => s1

/-- A translation fault of a copy (R221, R231): what it had not performed is undefined; it and the context's later copies are cut
off, and the trap is raised at the word. -/
def State.copyFault (s : State) (c : CoreId) (ch : ChNo) (m : CCmd) (f : XFault) (haddr : Nat) : State :=
  let s1 := s.scramble c ch m m.done
  let freed := (List.finRange 4).foldl (fun (t : State) h => ((t.core c).chans[h]).cmds.foldl (fun (t : State) o =>
    if o.cutOff m.ctx m.epoch m.ent.idx then (match o.dma with | some n => t.setDma n none | none => t) else t) t) s1
  let s2 := freed.modCore c fun k => { k with chans := k.chans.map fun (h : Channel) =>
    { h with cmds := h.cmds.filter fun (o : CCmd) => !o.cutOff m.ctx m.epoch m.ent.idx } }
  let s3 := s2.modCtx c m.ctx fun k => { k with accesses := k.accesses.filter fun a =>
    !(6 ≤ a.unit && a.unit ≤ 9 && a.epoch = m.epoch && m.ent.idx ≤ a.idx) && !(a.unit = 12 && a.epoch = m.epoch && m.ent.idx ≤ a.idx) }
  s3.raiseAt c m.ctx
    { async := false, cause := xCause f, code := 0, tag := 4, seq := m.ent.seq, level := f.cls, park := false, det := xDetail haddr f 1 0 0 }
    [(4, m.ent.cut .cpy m.ent.seq)]

/-- The handle address that a fault of the command names. -/
def State.faultAddr (s : State) (c : CoreId) (m : CCmd) (f : XFault) : Nat :=
  let at_ (t : Tensor) : Option Nat := match (s.handle c m.ctx t.handle).1 with
    | .bound i => if t.buf = 0 && i.kind = 1 && i.base ≤ f.va && f.va < i.base + i.len then some (t.handle * 2 ^ 48 + (f.va - i.base)) else none
    | _ => none
  let cs := if f.wr then [m.dst] else if m.kind = 4 then [m.src, m.lst] else [m.src]
  let failed := cs.find? fun t => t.buf = 0 && match (s.handle c m.ctx t.handle).1 with | .fault _ => true | _ => false
  (cs.findSome? at_).getD ((failed.getD (cs.headD m.dst)).handle * 2 ^ 48)

/-- A command gives its host DMA channel up. -/
def State.leaveDma (s : State) (m : CCmd) : State := match m.dma with | some n => s.setDma n none | none => s

/-! ### Completion (R213, R217) -/

/-- The completion updates of a command, in order (R213): it leaves its channel, its flags go to CSTAT, FLAG is set, a transforming command
advances WP (R212), and the resolution is owed. The flag of a peer delivery is set even where the peer's context has ended since, and its
bytes were written (DESIGN CHOICE, assumption log 54). -/
def State.copyFinish (s : State) (c : CoreId) (ch : ChNo) (m : CCmd) : State :=
  let s1 := (s.leaveDma m).modCore c fun k => { k with chans := vmod k.chans ch.val fun (h : Channel) => { h with cmds := h.cmds.tail } }
  let s2 := s1.modCtx c m.ctx fun k => { k with cstat := k.cstat ||| (m.flags &&& 31) }.leaveAccess (6 + ch.val) m.epoch m.ent.idx
  let s3 := match m.peer with
    | none => s2.complFlag c m.ctx 4 m.fe m.flag
    | some p =>
      if m.fe then s2.pushFlag p.1 { at_ := s.cycle, key := 7, flag := m.flag, add := false, val := 1, setter := 8, score := c.val, ctx := p.2 } else s2
  let s4 := if m.transforming then s3.advanceWp c ch m.ctx m.granules else s3
  let s5 := if m.ue then s4.modCore c fun k => { k with owedRes := k.owedRes ++
      [{ ch := ch, ctx := m.ctx, part := s.partOf c m.ctx, fut := m.fut, val := BitVec.ofNat 64 (ceilDiv (m.elements * m.dst.w) 8), at_ := s.cycle }] }
    else s4
  let hqs := [m.dst, m.src].filterMap fun t => match (s.handle c m.ctx t.handle).1 with | .bound i => if i.kind = 4 && t.buf = 0 then some i.hq else none | _ => none
  if m.kind = 5 then hqs.foldl (fun (t : State) q => t.hqSettle q) s5 else s5

/-- The copying of a command is finished: a CPYM goes on with its matrix command, every other is complete. -/
def State.copyOver (s : State) (c : CoreId) (ch : ChNo) (m : CCmd) (flags : Nat) : State :=
  if m.kind = 3 then s.modCore c fun k => k.modHead ch fun o => { o with phase := 1, due := s.cycle + 1, flags := o.flags ||| flags }
  else s.copyFinish c ch { m with flags := m.flags ||| flags }

/-- The next granule of channel `ch` is due. -/
def State.granuleDue (s : State) (c : CoreId) (ch : ChNo) : Bool :=
  match (s.core c).copyHead ch with
  | none => false
  | some m => m.phase = 0 && m.due ≤ s.cycle && (s.ctx c m.ctx).copiesRun m &&
      (m.kind ≠ 5 || m.dma.isSome || (!m.suspended && s.dmaOpen (s.partOf c m.ctx)))

/-- A host copy starts on a free channel. -/
def State.dmaStart (s : State) (c : CoreId) (ch : ChNo) (m : CCmd) : State × CCmd :=
  if m.kind ≠ 5 || m.dma.isSome then (s, m)
  else match s.dmaFree with
    | none => (s, m)
    | some n =>
      let h : DmaHold := { part := s.partOf c m.ctx, prio := m.prio, since := s.cycle, core := some (c, ch), host := none }
      ((s.setDma n (some h)).modCore c fun k => k.modHead ch fun o => { o with dma := some n }, { m with dma := some n })

/-- GRANULE_PERFORMED (R212): one granule of the channel's oldest command, or the whole of a transforming one. -/
def execGranulePerformed (c : CoreId) (ch : ChNo) (s : State) : Host.Outcome State Fault Refusal :=
  match (s.core c).copyHead ch with
  | none => .next s
  | some m0 =>
    if m0.phase ≠ 0 then .next s
    else
      let st := s.dmaStart c ch m0
      let m := st.2
      let n := m.granules
      let again (f : XFault) (r : State) : State :=
        if f.cls = 0 then st.1.modCore c fun k => k.modHead ch fun o => { o with due := s.cycle + 1 }
        else r.copyFault c ch m f (r.faultAddr c m f)
      if n = 0 then .next (st.1.copyOver c ch m 0)
      else if m.transforming then
        match (st.1.readStruck c m.ctx 1 (m.bufReads (runsFrom m.src.d0 (m.src.rows + 1) 0 m.elements))).transform c ch m with
        | (some f, s1, _) => .next (again f s1)
        | (none, s1, fl) =>
          let changed : Bool := match m.redo with | some d => decide (s1.sourceDigest c ch m ≠ d) | none => false
          let s2 := if changed then s1.scramble c ch m 0 else s1
          .next (s2.copyOver c ch m fl)
      else
        match (st.1.readStruck c m.ctx 1 (m.bufReads (m.granuleRuns m.done))).moveRuns c ch m (m.granuleRuns m.done) with
        | (some f, s1) => .next (again f s1)
        | (none, s1) =>
          let d := m.done + 1
          let due := s1.freeDelay s.cycle
          let s2 := (s1.skipFresh 1).modCore c fun k => k.modHead ch fun o => { o with done := d, due := due }
          let atEnd : Bool := d = n
          let s3 := match m.dma with
            | some q => if atEnd || d % 64 = 0 then s2.chunkEnd (s.partOf c m.ctx) q atEnd else s2
            | none => s2
          .next ((if atEnd then s3.copyOver c ch m 0 else s3).advanceWp c ch m.ctx 1)

/-- The suspended command that takes the next free channel (R340). -/
def State.resumable (s : State) : Option DmaWait := s.dmaWaiting.find? fun w => w.suspended && s.mayTake w

/-- HOST_DMA_RESUME (R340): a suspended command takes channel `n` and continues, a plain copy at its next chunk. -/
def execHostDmaResume (n : Fin 16) (s : State) : Host.Outcome State Fault Refusal :=
  if (s.host.dma[n]).isSome then .next s
  else match s.resumable with
    | none => .next s
    | some w => .next (s.giveDma n w)

/-- A resolution that channel `ch` owes the dispatcher, and whose writes are performed at PKG (R213, R300). -/
def State.resolutionDue (s : State) (c : CoreId) (ch : ChNo) : Option OwedRes :=
  (s.core c).owedRes.find? fun o => o.ch = ch && s.performedTo c o.ctx [1, 5] 2 o.at_

/-- A command of channel `ch` owes a step of its completion that is due. -/
def State.copyDue (s : State) (c : CoreId) (ch : ChNo) : Bool :=
  (s.resolutionDue c ch).isSome || match (s.core c).copyHead ch with
    | none => false
    | some m => m.due ≤ s.cycle && ((m.phase = 1 && (s.core c).mtxRoom) || m.phase = 3)

/-- The matrix plan of a CPYM (R217). -/
def Core.cpymPlan (k : Core) (g : Grant) (mop : Nat) (ovw : Bool) (hd hc hx : Header) : Option MPlan :=
  if hf hd 11 = 1 then k.mPlan g mop ovw false hc hd hx
  else if hf hd 11 = 3 then k.mPlan g mop ovw false hc hx hd
  else none

/-- COPY_COMPLETE (R213, R217): the dispatcher receives a resolution that a complete command owes, or the oldest command of a channel enters
its matrix command, or completes. -/
def execCopyComplete (c : CoreId) (ch : ChNo) (s : State) : Host.Outcome State Fault Refusal :=
  match s.resolutionDue c ch, (s.core c).copyHead ch with
  | some o, _ => .next ((s.modCore c fun k => { k with owedRes := k.owedRes.erase o }).resolve o.part (futNum o.fut) o.val (some (c, o.ctx)))
  | none, none => .next s
  | none, some m =>
    if m.phase = 3 then .next (s.copyFinish c ch m)
    else if m.phase = 1 && (s.core c).mtxRoom then
      match (s.core c).cpymPlan (s.grant c m.ctx) m.mop m.ovw m.hd m.hb m.hx with
      | none => .next (s.modCore c fun k => k.modHead ch fun o => { o with phase := 3 })
      | some p =>
        let x : MCmd := { due := 0, flags := 0, steps := 0, fe := false, flag := 0, epoch := m.epoch, idx := m.ent.idx, ctx := m.ctx, cpym := some ch }
        .next (s.modCore c fun k => (k.enterMma p s.cycle x).modHead ch fun o => { o with phase := 2 })
    else .next s

/-! ### Words -/

/-- The channel accepts a further command (R210). -/
def State.cpyRoom (s : State) (ch : ChNo) : Bool := ((s.myCore.chans[ch]).cmds).length < 4

/-- The peer of a delivery (R174): the same partition's context on the core at position p′, running the issuer's task. A member that has
exited (DRAINING, R309) runs it no longer; one that is stopped or in a handler still does (DESIGN CHOICE, assumption log 54). -/
def State.peerOf (s : State) (delta gs : Nat) : Option (CoreId × CtxId) :=
  let c := s.cur.core.val
  let g := 2 ^ (gs + 1)
  let p := c % 16
  let c' : CoreId := Fin.ofNat 128 (c / 16 * 16 + (p - p % g + (p % g + delta) % g))
  ((List.finRange 4).find? fun y => (s.grant c' y).v && s.partOf c' y = s.myPart && (s.ctx c' y).task = s.me.task &&
    s.me.task.isSome && (s.ctx c' y).phase ≠ .empty && !(s.ctx c' y).draining).map fun y => (c', y)

/-- A header names a host window (R219, R229): KIND 4, in service for the issuer's partition, allowing the direction, and its bound
holds the tensor. -/
def State.hostOk (s : State) (t : Tensor) (wr : Bool) : Bool :=
  match (s.handle s.cur.core s.cur.ctx t.handle).1 with
  | .bound i => t.buf = 0 && i.kind = 4 && (if wr then i.w else i.rd) && (t.d0 = 0 || t.lastRow + t.rowBytes ≤ i.len) &&
      (s.hq i.hq).v && (s.hq i.hq).part = s.myPart
  | _ => false

/-- The handle of a DRAM header is a host window. -/
def State.namesHost (s : State) (t : Tensor) : Bool :=
  t.buf = 0 && match (s.handle s.cur.core s.cur.ctx t.handle).1 with | .bound i => i.kind = 4 | _ => false

/-- One side of a copy lies where the issuer may reach it (R55, R94, R211). -/
def State.sideOk (s : State) (t : Tensor) (wr : Bool) : Bool :=
  if t.buf = 0 then s.dramOk s.cur.core s.cur.ctx t wr
  else s.myGrant.covers t.buf t.mask && (t.buf ≠ 3 || s.myGrant.hasEng .mtx)

/-- What a copy word found at issue: destination, source, the width of raw elements, whether it transforms, the peer. -/
structure CPlan where
  d : Tensor
  s : Tensor
  raw : Nat
  tr : Bool
  peer : Option (CoreId × CtxId)
  deriving DecidableEq, Repr

/-- The checks of R211, R215 to R219 that every kind shares: `none` raises the operand-range trap. `peer` is a delivery's peer. -/
def State.cpyPlan (s : State) (kind : Nat) (hd hs : Header) (peer : Option (CoreId × CtxId)) : Option CPlan :=
  let k := s.myCore
  let kd := match peer with | some p => s.core p.1 | none => k
  match k.headFmt hs, kd.headFmt hd with
  | some fs, some fd =>
    let raw := if fs ≠ 0 then typeWidth fs else if fd ≠ 0 then typeWidth fd else 8
    match k.tensor hs raw, kd.tensor hd raw with
    | some a, some d =>
      let conv : Bool := fs ≠ 0 && fd ≠ 0 && fs ≠ fd
      let tr := kind = 2 || kind = 4 || conv
      let shape := a.d0 = 0 || d.d0 = 0 || (a.d0 = d.d0 && a.d1 = d.d1 && a.d2 = d.d2 && a.d3 = d.d3)
      let places : Bool := match peer with
        | some p => a.buf = 1 && d.buf = 1 && s.sideOk a false && (s.grant p.1 p.2).covers 1 d.mask
        | none =>
          if kind = 5 then (s.namesHost a != s.namesHost d) && (if s.namesHost a then s.hostOk a false else s.sideOk a false) &&
            (if s.namesHost d then s.hostOk d true else s.sideOk d true)
          else s.sideOk a false && s.sideOk d true
      let fmts := (!(kind = 2 || kind = 4) || (fs ≠ 0 && fd ≠ 0)) && (!(kind = 5 || peer.isSome) || !conv)
      let planes := !tr || (a.planeOk s.myGrant && d.planeOk s.myGrant)
      if shape && places && fmts && planes && a.buf ≠ 3 && !a.tr && !d.tr && a.sps = 0 && d.sps = 0 then
        some { d := d, s := a, raw := raw, tr := tr, peer := peer }
      else none
    | _, _ => none
  | _, _ => none

/-- The trap of a copy word whose operands do not allow it (R77, R221, R231): where the handle-table entry of a DRAM header cannot be fetched,
the translation trap of that fetch; the sources first, then the destination. -/
def State.trapCopy (s : State) (hd : Header) (srcs : List Header) : State :=
  let ws (h : Header) : List Nat := if hf h 11 = 0 then [hf h 1 * 2 ^ 48] else []
  match s.handleFault s.cur.core s.cur.ctx (srcs.flatMap ws) 1 false with
  | some q => s.trapXlate q.1 q.2 1
  | none => s.trapHandles (ws hd) 1 true

/-- The completion's flag and future may be named (R55, R302): a delivery's flag is the peer's. -/
def State.cpyDone (s : State) (h : HOp) (peer : Option (CoreId × CtxId)) : Bool :=
  (match peer with | some p => (s.grant p.1 p.2).flagOk h.fe h.flag | none => s.myGrant.flagOk h.fe h.flag) &&
  (!h.ue || futOk s.myPart (s.rdS h.fs))

/-- The footprint of a copy (R223). -/
def State.cpyPrint (s : State) (ch : ChNo) (cls : Nat) (p : CPlan) : Access4 :=
  s.footprint (6 + ch.val) cls
    ((if p.s.buf = 0 then [] else [(p.s.buf, p.s.mask)]) ++ (if p.tr then [(1, p.s.planeMask), (1, p.d.planeMask)] else []))
    (if p.d.buf = 0 || p.peer.isSome || p.s.d0 = 0 then [] else [(p.d.buf, p.d.mask)])

/-- Some bank of the destination rounds stochastically (R130, R216). -/
def Core.banksDraw (k : Core) (d : Tensor) : Bool := d.buf ≠ 0 && (banksOf d.buf d.mask).any fun b => isSr (bits (k.fmtReg d.buf b) 8 4)

/-- A copy word issues (R211 to R216): it joins its channel. `rm` 16 takes the mode of the destination's bank. -/
def State.cpyGo (s : State) (kind : Nat) (h : HOp) (ch : ChNo) (rm : Nat) (repl : Bool) (mop : Nat) (ovw : Bool) (hx : HReg) (p : CPlan)
    (more : Ctx → Ctx) : Host.Outcome State Fault Refusal :=
  match s.headWord with
  | none => .next s.issued
  | some e =>
    let draws := p.tr && (if rm < 16 then isSr rm else s.myCore.banksDraw p.d)
    let m : CCmd :=
      { kind := kind, hd := s.rdH h.hd, hs := s.rdH h.ha, hb := s.rdH h.hb, hx := s.rdH hx, fmtD := p.d.fmt, fmtS := p.s.fmt, raw := p.raw,
        rm := rm, transforming := p.tr, repl := repl, mop := mop, ovw := ovw, cls := h.ac.val, fe := h.fe, flag := h.flag, ue := h.ue,
        fut := s.rdS h.fs, peer := p.peer, key := s.me.vrkey, ctr := s.me.vrctr, done := 0, due := s.freeDelay (s.cycle + 1), phase := 0,
        flags := 0, dma := none, suspended := false, redo := none, prio := s.me.prio, acq := s.me.governing e.idx, epoch := s.me.epoch,
        ent := e, ctx := s.cur.ctx }
    let fp := s.cpyPrint ch h.ac.val p
    let s1 := s.issued.modMe fun k =>
      more { k.enterAccess fp with vrctr := if draws then k.vrctr + BitVec.ofNat 64 (ceilDiv m.elements 256) else k.vrctr }
    .next ((s1.modMyCore fun k => { k with chans := vmod k.chans ch.val fun (c : Channel) => { c with cmds := c.cmds ++ [m] } }).skipFresh 1)

/-- CPY (R174, R215). -/
def execCpy (h : HOp) (delta : Fin 16) (gs : Fin 4) (pr : Bool) (ch : ChNo) (s : State) : Host.Outcome State Fault Refusal :=
  if !s.cpyRoom ch then s.hold
  else
    let peer := if pr then s.peerOf delta.val gs.val else none
    if (pr && peer.isNone) || !s.cpyDone h peer then .next s.trapRange
    else match s.cpyPlan 1 (s.rdH h.hd) (s.rdH h.ha) peer with
      | none => .next (s.trapCopy (s.rdH h.hd) [s.rdH h.ha])
      | some p => s.cpyGo 1 h ch 16 false 0 false 0 p id

/-- CPYC (R216). -/
def execCpyc (h : HOp) (rm : Fin 16) (ch : ChNo) (s : State) : Host.Outcome State Fault Refusal :=
  if !s.cpyRoom ch then s.hold
  else if !s.cpyDone h none then .next s.trapRange
  else match s.cpyPlan 2 (s.rdH h.hd) (s.rdH h.ha) none with
    | none => .next (s.trapCopy (s.rdH h.hd) [s.rdH h.ha])
    | some p => s.cpyGo 2 h ch rm.val false 0 false 0 p id

/-- CPYM (R217): the copy, and its matrix command as a unit of its own. -/
def execCpym (h : HOp) (hx : HReg) (mop : Fin 4) (ovw : Bool) (ch : ChNo) (s : State) : Host.Outcome State Fault Refusal :=
  if !s.cpyRoom ch then s.hold
  else if !s.cpyDone h none || !s.myGrant.hasEng .mtx then .next s.trapRange
  else match s.cpyPlan 3 (s.rdH h.hd) (s.rdH h.ha) none, s.myCore.cpymPlan s.myGrant mop.val ovw (s.rdH h.hd) (s.rdH h.hb) (s.rdH hx) with
    | some p, some mp =>
      let fp := s.footprint 12 h.ac.val mp.reads mp.writes
      s.cpyGo 3 h ch 16 false mop.val ovw hx p fun k => k.enterAccess fp
    | _, _ => .next (s.trapCopy (s.rdH h.hd) [s.rdH h.ha])

/-- The delta list's header (R218): DRAM, FMT 0, one row of 8-byte entries. -/
def State.listOk (s : State) (h : Header) : Bool :=
  match s.myCore.tensor h 64 with
  | some t => t.buf = 0 && t.fmt = 0 && t.d1 = 1 && t.d2 = 1 && t.d3 = 1 && !t.tr && t.sps = 0 && t.planeOk s.myGrant && s.dramOk s.cur.core s.cur.ctx t false
  | none => false

/-- CPYD (R218). -/
def execCpyd (h : HOp) (rm : Fin 16) (repl : Bool) (ch : ChNo) (s : State) : Host.Outcome State Fault Refusal :=
  if !s.cpyRoom ch then s.hold
  else if !s.cpyDone h none then .next s.trapRange
  else match (if s.listOk (s.rdH h.hb) then s.cpyPlan 4 (s.rdH h.hd) (s.rdH h.ha) none else none) with
    | none => .next (s.trapCopy (s.rdH h.hd) [s.rdH h.ha, s.rdH h.hb])
    | some p => s.cpyGo 4 h ch rm.val repl 0 false 0 p id

/-- CPYH (R219). -/
def execCpyh (h : HOp) (ch : ChNo) (s : State) : Host.Outcome State Fault Refusal :=
  if !s.cpyRoom ch then s.hold
  else if !s.cpyDone h none then .next s.trapRange
  else match s.cpyPlan 5 (s.rdH h.hd) (s.rdH h.ha) none with
    | none => .next (s.trapCopy (s.rdH h.hd) [s.rdH h.ha])
    | some p => s.cpyGo 5 h ch 16 false 0 false 0 p id

/-- CWP (R220). -/
def execCwp (h : HOp) (trk : Bool) (ch : ChNo) (s : State) : Host.Outcome State Fault Refusal :=
  if !h.fe then .fault .illFormed
  else if !s.myGrant.hasFlag h.flag.val then .next s.trapRange
  else
    let wp := (s.myCore.chans[ch]).wp
    .next ((s.issued.modMyCore fun k => { k with chans := vmod k.chans ch.val fun (c : Channel) =>
        { c with track := if trk then some h.flag else none } }).pushFlag s.cur.core
      { at_ := s.cycle, key := 4, flag := h.flag, add := false, val := BitVec.ofNat 32 wp, setter := 4, score := 0, ctx := s.cur.ctx })

/-! ### Stops (R221) -/

/-- The stop of a context is recorded: a transforming command that has started discards its progress, and its destination is
undefined until its re-run completes. -/
def State.parkCopies (s : State) (c : CoreId) (x : CtxId) : State :=
  (List.finRange 4).foldl (fun (t : State) ch =>
    match (t.core c).copyHead ch with
    | some m =>
      if m.ctx = x && m.transforming && m.phase = 0 && m.elements ≠ 0 then
        let d := match m.redo with | some d => d | none => t.sourceDigest c ch m
        (t.scramble c ch m 0).modCore c fun k => k.modHead ch fun o => { o with redo := some d }
      else t
    | none => t) s

end Sys2Proof.Machine
end

