-- ==== Sys2Proof/Machine/Operands.lean ====
section
/-! DEFINITION. Sys2Proof/Machine/Operands.lean: the operands of vector words: registers, queues, masks and groups (R24, R43, R45,
R131 to R134, R153), and how a vector word issues and completes (R135, R136, R146, R147, R152). -/

namespace Sys2Proof.Machine

/-- What a vector word names and how long it takes: vector sources in order, masks read besides K, destination specifiers, mask
destination, element count, widths of source and destination elements, the group ratio on the source side, latency, unit and its
acceptance interval, for an SLI word the type whose levels set the latency and whether the sources hold it (R152), and the element
mask's number. -/
structure VWord where
  srcs : List (Fin 64)
  masks : List Nat
  dsts : List (Fin 64)
  kd : Option Nat
  n : Nat
  sw : Nat
  w : Nat
  rho : Nat
  lat : Nat
  unit : Nat
  every : Nat
  sli : Option (Bool × Nat)
  draws : Bool
  kn : Nat
  deriving DecidableEq, Repr

/-- What a result is computed with: random bits and free values by element, and the masks read. -/
structure VEnv where
  u : Nat → Nat
  free : Nat → Nat
  ms : List Mask

/-- How a word's flags are raised (R133): by element, or combined for a reduction or scan. -/
inductive FlagRule where
  | element | combined | none
  deriving DecidableEq, Repr

/-! ### Shapes of words -/

/-- A word of type T on sources of its own width, in the simple unit. -/
def vShape (v : VOp) (srcs : List (Fin 64)) (lat : Nat) : VWord :=
  { srcs := srcs, masks := [], dsts := [v.d], kd := none, n := elemCount v.t.val, sw := typeWidth v.t.val, w := typeWidth v.t.val,
    rho := 1, lat := lat + (if isSr v.rm.val then 8 else 0), unit := 0, every := 1, sli := none, draws := isSr v.rm.val, kn := v.k.val }

/-- The SLI form of a word: its latency comes from the levels (R152), and the unit accepts every 4 cycles. -/
def VWord.asSli (w : VWord) (src : Bool) (t : Nat) : VWord := { w with sli := some (src, t), unit := 1, every := 4 }

/-- A word whose level-index form is an SLI word. -/
def vShapeL (v : VOp) (srcs : List (Fin 64)) (latI latF : Nat) : VWord :=
  if isL v.t.val then (vShape v srcs 0).asSli true v.t.val
  else vShape v srcs (if isF v.t.val then latF else latI)

/-- The level-crossing mask of an SLI word (R156): MOD[1:0] names it. -/
def VWord.withLx (w : VWord) (v : VOp) : VWord :=
  if isL v.t.val && v.m.val % 4 ≠ 0 then { w with kd := some v.c.val } else w

/-- A word that writes a mask instead of a vector. -/
def VWord.toMask (w : VWord) (v : VOp) : VWord := { w with dsts := [], kd := some v.d.val }

/-- The consecutive specifiers of a group (R134). -/
def group (r : Fin 64) (rho : Nat) : List (Fin 64) := (List.range rho).map fun i => Fin.ofNat 64 (r.val + i)

/-- A conversion from type C to type T (R134). One of a type into itself rounds nothing; in sr or srs it draws random bits all the same, as its
RM names a mode that draws (DESIGN CHOICE, assumption log 53: R146 speaks of a word that rounds). -/
def vCvtShape (v : VOp) : VWord :=
  let sw := typeWidth v.c.val
  let w := typeWidth v.t.val
  let narrow := if w = 0 then 1 else sw / w
  let widen := if sw = 0 then 1 else w / sw
  let base : VWord := { vShape v [v.a] 4 with
    srcs := if narrow > 1 then group v.a narrow else [v.a]
    dsts := if widen > 1 then group v.d widen else [v.d]
    n := 4096 / Nat.max 1 (Nat.min w sw), sw := sw, w := w, rho := Nat.max 1 narrow }
  if isL v.c.val then base.asSli true v.c.val
  else if isL v.t.val then base.asSli false v.t.val
  else if isIntCode v.c.val && isIntCode v.t.val then { base with draws := false }
  else base

/-- A special function (R135). -/
def vSpecialShape (v : VOp) (lat : Nat) : VWord :=
  if isL v.t.val then (vShape v [v.a] 0).asSli true v.t.val
  else
    let narrow := v.t.val ≠ 0x10
    { vShape v [v.a] (if narrow then lat + 1 else lat) with unit := 3, every := if narrow then 2 else 1 }

/-- A reduction (R171). Its I and F rows are taken as one accepting unit: an integer reduction that directly follows a float one is held for
the cycle that the float one's row asks for (DESIGN CHOICE, assumption log 53: R171 does not say which rows share a unit). -/
def vReduceShape (v : VOp) : VWord :=
  if isL v.t.val then (vShape v [v.a] 0).asSli true v.t.val
  else if isF v.t.val then { vShape v [v.a] (if v.t.val = 0x10 then 12 else 14) with unit := 5, every := 2 }
  else { vShape v [v.a] 6 with unit := 5 }

/-- A scan (R171). -/
def vScanShape (v : VOp) : VWord :=
  { vShape v [v.a] (if isF v.t.val then (if v.t.val = 0x10 then 20 else 24) else 8) with unit := 6, every := 4 }

/-- A mask-logic word (R170). -/
def kShape (v : VOp) (two : Bool) : VWord :=
  { srcs := [], masks := if two then [v.a.val, v.b.val] else [v.a.val], dsts := [], kd := some v.d.val, n := 1024, sw := 1, w := 1,
    rho := 1, lat := 1, unit := 0, every := 1, sli := none, draws := false, kn := v.k.val }

/-! ### The words -/

/-- The shape of every vector word; `none` for every other instruction. -/
def vecWord : Instr → Option VWord
  | .vmov v => some (vShape v [v.a] 2)
  | .vsel v => some { vShape v [v.a, v.b] 2 with masks := [v.c.val] }
  | .vadd v => some ((vShapeL v [v.a, v.b] 2 4).withLx v)
  | .vsub v => some ((vShapeL v [v.a, v.b] 2 4).withLx v)
  | .vmul v => some ((vShapeL v [v.a, v.b] 5 5).withLx v)
  | .vmulh v => some (vShape v [v.a, v.b] 5)
  | .vfma v => some (vShape v [v.a, v.b, v.c] 5)
  | .vfms v => some (vShape v [v.a, v.b, v.c] 5)
  | .vfnma v => some (vShape v [v.a, v.b, v.c] 5)
  | .vmin v => some (vShapeL v [v.a, v.b] 2 4)
  | .vmax v => some (vShapeL v [v.a, v.b] 2 4)
  | .vabs v => some (vShapeL v [v.a] 2 2)
  | .vneg v => some (vShapeL v [v.a] 2 2)
  | .vand v => some (vShape v [v.a, v.b] 2)
  | .vor v => some (vShape v [v.a, v.b] 2)
  | .vxor v => some (vShape v [v.a, v.b] 2)
  | .vnot v => some (vShape v [v.a] 2)
  | .vsll v => some (vShape v (if v.m.val % 2 = 1 then [v.a] else [v.a, v.b]) 2)
  | .vsrl v => some (vShape v (if v.m.val % 2 = 1 then [v.a] else [v.a, v.b]) 2)
  | .vsra v => some (vShape v (if v.m.val % 2 = 1 then [v.a] else [v.a, v.b]) 2)
  | .vcmpeq v => some ((vShapeL v [v.a, v.b] 2 4).toMask v)
  | .vcmpne v => some ((vShapeL v [v.a, v.b] 2 4).toMask v)
  | .vcmplt v => some ((vShapeL v [v.a, v.b] 2 4).toMask v)
  | .vcmple v => some ((vShapeL v [v.a, v.b] 2 4).toMask v)
  | .vcvt v => some (vCvtShape v)
  | .vcvte v => some (vCvtShape v)
  | .vcvtl v => some (vCvtShape v)
  | .vrand v => some { vShape v [] 12 with unit := 2, every := 2, draws := true }
  | .vexp v => some (vSpecialShape v 10)
  | .vlog v => some (vSpecialShape v 10)
  | .vrcp v => some (vSpecialShape v 10)
  | .vrsqrt v => some (vSpecialShape v 10)
  | .vtanh v => some (vSpecialShape v 14)
  | .vgelu v => some (vSpecialShape v 14)
  | .vdiv v => some ((vShapeL v [v.a, v.b] 0 0).withLx v)
  | .vsqrt v => some ((vShapeL v [v.a] 0 0).withLx v)
  | .vlvl v => some (vCvtShape v)
  | .vradd v => some (vReduceShape v)
  | .vrmin v => some (vReduceShape v)
  | .vrmax v => some (vReduceShape v)
  | .vscanadd v => some (vScanShape v)
  | .vscanmax v => some (vScanShape v)
  | .vperm v => some (vShape v [v.a, v.b] 3)
  | .vshuf v => some (vShape v [v.a, v.b] 3)
  | .vbcast v => some (vShape v [v.a] 3)
  | .vbcasts v => some (vShape v [] 3)
  | .vrot v => some (vShape v [v.a] 3)
  | .vtopnm v => some ((vShape v [v.a] 4).toMask v)
  | .kand v => some (kShape v true)
  | .kor v => some (kShape v true)
  | .kxor v => some (kShape v true)
  | .kandn v => some (kShape v true)
  | .knot v => some (kShape v false)
  | .kmov v => some (kShape v false)
  | _ => none

/-! ### Queues of a word -/

/-- The queue a specifier names, if it names one (R60). -/
def specQ (r : Fin 64) : Option QNo := if r.val ≥ 56 then some (Fin.ofNat 8 (r.val - 56)) else none

/-- Queues that a word pops, in order, and queues that it pushes. -/
def VWord.pops (w : VWord) : List QNo := w.srcs.filterMap specQ
def VWord.pushes (w : VWord) : List QNo := w.dsts.filterMap specQ

/-- The core holds a complete entry for every pop, and a free slot for every push once the word's own pops are counted as free
(R40, R132). -/
def Core.queuesReady (k : Core) (pops pushes : List QNo) : Bool :=
  (pops.all fun q => ((k.queue q).take (pops.count q)).length = pops.count q && ((k.queue q).take (pops.count q)).all fun e => e.val.isSome) &&
  pushes.all fun q => k.qRoom q (pops.count q)

/-- The command pops its queue `q`: a STORE does, a LOAD pushes it. -/
def WCmd.stores (m : WCmd) (store : Bool) : Bool := m.kind = 5 || (m.kind = 2 && store)

/-- The queues a walker command pops and the queue it pushes, if any, for each entry (R187). -/
def WCmd.pops (m : WCmd) (store : Bool) : List QNo :=
  (if m.kind = 2 then [] else [m.iq]) ++ (if m.stores store then [m.q] else [])
def WCmd.pushes (m : WCmd) (store : Bool) : List QNo := if m.stores store then [] else [m.q]

/-- A walker word of context `x` that stands before place `(epoch, idx)` of its text still owes entries on a queue in the same direction: they
count at its own text index, before those of later words (R24, R187). -/
def Core.owes (k : Core) (x : CtxId) (epoch idx : Nat) (pops pushes : List QNo) : Bool :=
  k.walkers.toList.any fun w => w.cmds.any fun o => o.ctx = x && o.count > 0 && (o.epoch < epoch || (o.epoch = epoch && o.idx < idx)) &&
    (((o.pops w.store).any fun q => pops.contains q) || ((o.pushes w.store).any fun q => pushes.contains q))

/-- The queues are ready for the running word: no earlier walker word owes entries there, and entries and slots are there (R40, R187). -/
def State.queuesFor (s : State) (pops pushes : List QNo) : Bool :=
  s.myCore.queuesReady pops pushes && !s.myCore.owes s.cur.ctx s.me.epoch s.curIdx pops pushes

/-- Every queue named lies in the grant (R55). -/
def Grant.hasQueues (g : Grant) (qs : List QNo) : Bool := qs.all fun q => g.hasQueue q.val

/-! ### Reading -/

/-- A fixed-latency result of this register is still in flight (R45). -/
def Core.inFlight (k : Core) (dst : Nat) : Bool := k.vpend.any fun p => !p.sli && p.dst = dst

/-- A fixed-latency result of this mask is still in flight. -/
def Core.maskInFlight (k : Core) (i : Nat) : Bool := k.vpend.any fun p => !p.sli && p.kdst = 64 + i

/-- An SLI result of a register or mask is in flight (R153). -/
def Core.scored (k : Core) (w : VWord) : Bool :=
  k.vpend.any fun p => p.sli && ((w.srcs ++ w.dsts).any (fun r => r.val < 56 && p.dst = r.val) ||
    (p.kdst ≥ 64 && (p.kdst = 64 + w.kn || (w.masks ++ w.kd.toList).any fun m => p.kdst = 64 + m)))

/-- A vector source read: a register, or the popped head of a queue. In the latency window of a fixed-latency result the value is
a free one (R45). -/
def State.readV (s : State) (r : Fin 64) : VReg × State :=
  match specQ r with
  | some q => ((s.myCore.qHead q).getD 0, s.modMyCore fun k => k.qPop q)
  | none =>
    if s.myCore.inFlight r.val then (s.freeVal 4096, s.skipFresh 1) else (vget s.myCore.v r.val 0, s)

/-- Sources read in order. -/
def State.readVs (s : State) : List (Fin 64) → List VReg × State
  | [] => ([], s)
  | r :: rest =>
    let a := s.readV r
    let b := a.2.readVs rest
    (a.1 :: b.1, b.2)

/-- A mask read; k0 is all ones (R133). -/
def State.readK (s : State) (i : Nat) : Mask :=
  if i = 0 then BitVec.allOnes 1024
  else if s.myCore.maskInFlight i then Config.free 1024 (s.fresh + 4096 + i) else vget s.myCore.k i 0

/-- The element lists of the sources (R134 for a source group). -/
def VWord.lists (w : VWord) (rs : List VReg) : List (List Nat) :=
  if w.rho > 1 then [(List.range w.n).map fun i => sliceAt (rs.getD (i % w.rho) 0) (w.sw * (i / w.rho)) w.sw]
  else rs.map fun r => elems r w.sw w.n

/-! ### Issue -/

/-- The results of a masked word as they go to destination register `j` of `rho`: the bits written and their values. A queue entry
is written whole, with zeros where the mask is off (R133). -/
def packDst (w : VWord) (mask : Mask) (queue : Bool) (j rho : Nat) (out : List (Nat × Nat)) : VReg × VReg :=
  let lanes := (List.range (w.n / rho)).map fun l => (mask.getLsbD (l * rho + j), (out.getD (l * rho + j) (0, 0)).1)
  let ones := 2 ^ w.w - 1
  let val := packElems w.w (lanes.map fun p => if p.1 then p.2 else 0)
  if queue then (BitVec.allOnes 4096, val) else (packElems w.w (lanes.map fun p => if p.1 then ones else 0), val)

/-- The flags a word raises (R133). -/
def raised (rule : FlagRule) (mask : Mask) (n : Nat) (out : List (Nat × Nat)) : Nat :=
  match rule with
  | .none => 0
  | .element => out.zipIdx.foldl (fun a p => if mask.getLsbD p.2 then a ||| p.1.2 else a) 0
  | .combined => if (List.range n).any fun i => mask.getLsbD i then out.foldl (fun a p => a ||| p.2) 0 else 0

/-- The bits of a mask destination (R144, R156): elements below n where K is on, and zeros from n up. -/
def maskWrite (mask : Mask) (n : Nat) (bitsOf : Nat → Bool) : Mask × Mask :=
  let low := (List.range n).foldl (fun a i => if mask.getLsbD i then a + 2 ^ i else a) 0
  let val := (List.range n).foldl (fun a i => if mask.getLsbD i && bitsOf i then a + 2 ^ i else a) 0
  (BitVec.ofNat 1024 (low + (2 ^ 1024 - 2 ^ n)), BitVec.ofNat 1024 val)

/-- A destination slot reserved where it is a queue: slot number and core. -/
def Core.reserveDst (k : Core) (r : Fin 64) : Nat × Core :=
  match specQ r with
  | some q => k.qReserve q
  | none => (0, k)

/-- Two results in flight for one register leave it undefined (R45): both are free values. -/
def Core.clash (k : Core) (p : VPend) (free : VReg) : Core × VPend :=
  if p.dst < 56 && k.inFlight p.dst then
    ({ k with vpend := k.vpend.map fun (q : VPend) =>
        if !q.sli && q.dst = p.dst then { q with val := free, wmask := BitVec.allOnes 4096 } else q },
     { p with val := free, wmask := BitVec.allOnes 4096 })
  else (k, p)

/-- The same for a mask, all of whose bits are free then. -/
def Core.clashMask (k : Core) (p : VPend) (free : Mask) : Core × VPend :=
  if p.kdst ≥ 64 && k.maskInFlight (p.kdst - 64) then
    ({ k with vpend := k.vpend.map fun (q : VPend) =>
        if !q.sli && q.kdst = p.kdst then { q with kval := free, kmask := BitVec.allOnes 1024 } else q },
     { p with kval := free, kmask := BitVec.allOnes 1024 })
  else (k, p)

/-- A result enters flight. -/
def State.addPend (s : State) (p : VPend) : State :=
  (s.modMyCore fun k =>
    let a := k.clash p (s.freeVal 4096)
    let b := a.1.clashMask a.2 (s.freeVal 1024)
    { b.1 with vpend := b.1.vpend ++ [b.2] }).skipFresh 1

/-- The latency of a word with these element lists and results (R135, R152). -/
def VWord.latency (w : VWord) (xs : List (List Nat)) (out : List (Nat × Nat)) (rm : Nat) : Nat :=
  match w.sli with
  | none => w.lat
  | some (src, t) =>
    let lv := if src then (xs.flatten.map fun c => (decodeLi t c).level) else out.map fun o => (decodeLi t o.1).level
    4 + 3 * lv.foldl Nat.max 0 + (if isSr rm then 8 else 0)

/-- A vector word issues (R132, R133): sources are read and popped, slots reserved, random bits drawn, and the result goes into
flight. `kbit` gives the bits of a mask destination from an element's result. -/
def State.vecRun (s : State) (v : VOp) (w : VWord) (rule : FlagRule) (kbit : Nat × Nat → Bool)
    (f : VEnv → List (List Nat) → List (Nat × Nat)) : Host.Outcome State Fault Refusal :=
  if !s.myGrant.hasQueues (w.pops ++ w.pushes) then .next s.trapRange
  else if !s.queuesFor w.pops w.pushes then s.hold
  else
    let idx := s.curIdx
    let mask := s.readK v.k.val
    let ms := w.masks.map s.readK
    let rd := s.issued.readVs w.srcs
    let t0 := rd.2
    let key := s.me.vrkey.toNat
    let ctr := s.me.vrctr.toNat
    let t1 := if w.draws then t0.modMe fun k => { k with vrctr := k.vrctr + 1 } else t0
    let base := t1.fresh
    let env : VEnv := { u := fun i => if w.draws then drawU key ctr i else 0, free := fun i => (Config.free 64 (base + i)).toNat, ms := ms }
    let xs := w.lists rd.1
    let out := f env xs
    let due := s.cycle + w.latency xs out v.rm.val
    let flags := raised rule mask w.n out
    let kw := maskWrite mask w.n fun i => kbit (out.getD i (0, 0))
    let kd := match w.kd with | some m => if m = 0 then 0 else 64 + m | none => 0
    let blank : VPend := { due := due, sli := w.sli.isSome, dst := 80, slot := 0, wmask := 0, val := 0, kdst := kd, kmask := kw.1, kval := kw.2,
                           flags := flags, first := true, ctx := s.cur.ctx, epoch := s.me.epoch, idx := idx }
    let t2 := (t1.skipFresh 8192).modMyCore fun k => { k with vacc := vmod k.vacc w.unit fun _ => if w.every = 1 then 0 else s.cycle + w.every }
    let rho := w.dsts.length
    .next (if w.dsts.isEmpty then t2.addPend blank
      else (w.dsts.zipIdx).foldl (fun (t : State) d =>
        let r := t.myCore.reserveDst d.1
        let pk := packDst w mask (specQ d.1).isSome d.2 rho out
        (t.modMyCore fun _ => r.2).addPend { blank with
          dst := d.1.val, slot := r.1, wmask := pk.1, val := pk.2, kdst := if d.2 = 0 then kd else 0, flags := if d.2 = 0 then flags else 0, first := d.2 = 0 }) t2)

/-! ### Completion (R43, R45, R136) -/

/-- One result in flight completes. -/
def State.landV (s : State) (c : CoreId) (p : VPend) : State :=
  let s1 := s.modCore c fun k =>
    let k1 := if p.dst < 56 then { k with v := vmod k.v p.dst fun o => (o &&& ~~~p.wmask) ||| (p.val &&& p.wmask) }
      else if p.dst < 64 then k.qFill (Fin.ofNat 8 (p.dst - 56)) p.slot p.val else k
    if p.kdst > 64 then { k1 with k := vmod k1.k (p.kdst - 64) fun o => (o &&& ~~~p.kmask) ||| (p.kval &&& p.kmask) } else k1
  (s1.modCtx c p.ctx fun x => { x with vstat := x.vstat ||| p.flags }).count c p.ctx 0x04 (b2n (p.sli && p.first))

/-- Every result of a kind that is due completes. -/
def State.landAll (s : State) (c : CoreId) (sli : Bool) : State :=
  let due := (s.core c).vpend.filter fun p => p.sli = sli && p.due ≤ s.cycle
  let s1 := s.modCore c fun k => { k with vpend := k.vpend.filter fun (p : VPend) => !(p.sli = sli && p.due ≤ s.cycle) }
  due.foldl (fun (t : State) p => t.landV c p) s1

/-- VEC_RESULT_COMPLETE (R45, R135): the fixed-latency results of a core that are due. -/
def execVecResultComplete (c : CoreId) (s : State) : Host.Outcome State Fault Refusal := .next (s.landAll c false)

/-- SLI_RESULT_COMPLETE (R46, R152): the SLI results of a core that are due. -/
def execSliResultComplete (c : CoreId) (s : State) : Host.Outcome State Fault Refusal := .next (s.landAll c true)

end Sys2Proof.Machine
end

