-- ==== Sys2Proof/Machine/Vec.lean ====
section
/-! DEFINITION. Sys2Proof/Machine/Vec.lean: the meanings of the vector words: moves, arithmetic, compares, conversions, special
functions, level-index words, reductions, permutes and mask logic (R138 to R149, R157 to R170). -/

namespace Sys2Proof.Machine

/-! ### Element loops -/

/-- A function of one source, of two, of three, by element. -/
def map1 (f : Nat → Nat → Nat × Nat) (xs : List (List Nat)) : List (Nat × Nat) := (xs.getD 0 []).zipIdx.map fun p => f p.2 p.1
def map2 (f : Nat → Nat → Nat → Nat × Nat) (xs : List (List Nat)) : List (Nat × Nat) :=
  ((xs.getD 0 []).zip (xs.getD 1 [])).zipIdx.map fun p => f p.2 p.1.1 p.1.2
def map3 (f : Nat → Nat → Nat → Nat → Nat × Nat) (xs : List (List Nat)) : List (Nat × Nat) :=
  ((xs.getD 0 []).zip ((xs.getD 1 []).zip (xs.getD 2 []))).zipIdx.map fun p => f p.2 p.1.1 p.1.2.1 p.1.2.2

/-- No mask destination. -/
def noBit (_ : Nat × Nat) : Bool := false
/-- The mask bit of a compare. -/
def bitOf (p : Nat × Nat) : Bool := p.1 = 1
/-- The level-crossing mask's bit (R156): MOD 1 UPX, 2 DNX, 3 either. -/
def lxBit (v : VOp) (p : Nat × Nat) : Bool := (v.m.val % 2 = 1 && p.2 &&& flagUPX ≠ 0) || (v.m.val / 2 % 2 = 1 && p.2 &&& flagDNX ≠ 0)

/-- A level-index result with its level crossings (R156). -/
def crossed (t : Nat) (ops : List Li) (r : Nat × Nat) : Nat × Nat :=
  if (ops.any fun o => o = Li.nan) || decodeLi t r.1 = .nan then r
  else (r.1, r.2 ||| crossing (decodeLi t r.1).level (ops.foldl (fun m o => Nat.max m o.level) 0) (ops.foldl (fun m o => Nat.min m o.level) 8))

/-- An exact value rounded into an F type with the flags of its operation. -/
def rounded (t mode u : Nat) (r : Num × Nat) : Nat × Nat := let e := encodeNum t mode u false r.1; (e.1, e.2 ||| r.2)

/-- An integer result (R140). -/
def intOut (t : Nat) (sat : Bool) (x : Int) : Nat × Nat := (wrap (typeWidth t) (if sat then intClamp t x else x), 0)

/-- SAT of an integer word. -/
def vSat (v : VOp) : Bool := v.m.val % 2 = 1

/-! ### Arithmetic (R140, R142, R158) -/

/-- VADD and VSUB of one element. -/
def addElem (v : VOp) (sb : Bool) (env : VEnv) (i a b : Nat) : Nat × Nat :=
  let t := v.t.val; let rm := v.rm.val
  if isL t then crossed t [decodeLi t a, decodeLi t b] (liAdd t rm (env.u i) (env.free i) sb (decodeLi t a) (decodeLi t b))
  else if isF t then rounded t rm (env.u i) ((decodeNum t a).add rm (if sb then (decodeNum t b).neg else decodeNum t b))
  else intOut t (vSat v) (if sb then intVal t a - intVal t b else intVal t a + intVal t b)

/-- VMUL of one element. -/
def mulElem (v : VOp) (env : VEnv) (i a b : Nat) : Nat × Nat :=
  let t := v.t.val; let rm := v.rm.val
  if isL t then crossed t [decodeLi t a, decodeLi t b] (liMul t rm (env.u i) (env.free i) false (decodeLi t a) (decodeLi t b))
  else if isF t then rounded t rm (env.u i) ((decodeNum t a).mul (decodeNum t b))
  else intOut t false (intVal t a * intVal t b)

/-- VFMA, VFMS and VFNMA of one element (R142: one rounding): ±(a × b) ± c. -/
def fmaElem (v : VOp) (negC negP : Bool) (env : VEnv) (i a b c : Nat) : Nat × Nat :=
  let t := v.t.val; let rm := v.rm.val
  if isF t then
    let z := decodeNum t c
    rounded t rm (env.u i) (Num.fma rm (decodeNum t a) (decodeNum t b) (if negC then z.neg else z) negP)
  else
    let p := intVal t a * intVal t b
    let z := intVal t c
    intOut t false ((if negP then -p else p) + (if negC then -z else z))

/-- VMIN and VMAX of one element (R143, R160). -/
def pickElem (t : Nat) (mx : Bool) (a b : Nat) : Nat :=
  if isL t then liPick t mx (decodeLi t a) (decodeLi t b)
  else if isF t then
    let x := decodeNum t a; let y := decodeNum t b
    if x.isNan then (if y.isNan then (fmtOf t).nan else b)
    else if y.isNan then a
    else
      let c := x.cmp y
      -- −0 lies below +0
      let c := if c = 0 then (if a = b then 0 else if a.testBit ((fmtOf t).width - 1) then -1 else 1) else c
      if mx then (if c ≥ 0 then a else b) else (if c ≤ 0 then a else b)
  else
    let x := intVal t a; let y := intVal t b
    if mx then (if x ≥ y then a else b) else (if x ≤ y then a else b)

/-- VABS and VNEG of one element (R140, R143, R159). -/
def signElem (v : VOp) (ng : Bool) (a : Nat) : Nat × Nat :=
  let t := v.t.val
  if isL t then
    (match decodeLi t a with
     | .val s r z => (Li.val (ng && !s) r z).code t
     | .zer s => (Li.zer (ng && !s)).code t
     | .nan => liNan t, 0)
  else if isF t then
    let f := fmtOf t
    if (decodeNum t a).isNan then (f.nan, 0)
    else (if ng then a ^^^ 2 ^ (f.width - 1) else a % 2 ^ (f.width - 1), 0)
  else if ng then intOut t (vSat v) (-(intVal t a))
  else if isSigned t then intOut t (vSat v) (intVal t a).natAbs
  else (a, 0)

/-- The shifts of one element (R141): 0 left, 1 right, 2 arithmetic. -/
def shiftElem (kind w a n : Nat) : Nat :=
  if kind = 0 then (if n ≥ w then 0 else a * 2 ^ n % 2 ^ w)
  else if kind = 1 then a / 2 ^ n
  else wrap w (sgn w a / (2 ^ Nat.min n (w - 1) : Nat))

/-- A compare of one element (R144, R160): 0 EQ, 1 NE, 2 LT, 3 LE. -/
def cmpElem (t op a b : Nat) : Nat × Nat :=
  let ord : Option Int :=
    if isL t then (match decodeLi t a, decodeLi t b with
      | .nan, _ => none | _, .nan => none | x, y => some (x.key - y.key))
    else if isF t then
      (if (decodeNum t a).isNan || (decodeNum t b).isNan then none else some ((decodeNum t a).cmp (decodeNum t b)))
    else some (intVal t a - intVal t b)
  (b2n (match ord with
    | none => op = 1
    | some d => match op with | 0 => d = 0 | 1 => d ≠ 0 | 2 => d < 0 | _ => d ≤ 0), 0)

/-- The amount that a shift word applies to element `i`. -/
def shiftRun (kind : Nat) (v : VOp) (xs : List (List Nat)) : List (Nat × Nat) :=
  if v.m.val % 2 = 1 then map1 (fun _ a => (shiftElem kind (typeWidth v.t.val) a v.c.val, 0)) xs
  else map2 (fun _ a b => (shiftElem kind (typeWidth v.t.val) a b, 0)) xs

/-! ### Reductions and scans (R164 to R166) -/

/-- The fixed addition tree; `off` is the element index from which the level draws (R166). -/
def treeSum (add : Nat → Nat → Nat → Nat × Nat) : Nat → Nat → Nat → List Nat → Nat × Nat
  | 0, _, fl, xs => (xs.headD 0, fl)
  | n + 1, off, fl, xs =>
    if xs.length ≤ 1 then (xs.headD 0, fl)
    else
      let ys := (List.range (xs.length / 2)).map fun j => add (off + j) (xs.getD (2 * j) 0) (xs.getD (2 * j + 1) 0)
      treeSum add n (off + ys.length) (ys.foldl (fun a y => a ||| y.2) fl) (ys.map (·.1))

/-- The prefixes of a list under an operation that takes the step's index. -/
def scanFrom (f : Nat → Nat → Nat → Nat × Nat) : Nat → Nat → List Nat → List (Nat × Nat)
  | _, _, [] => []
  | i, acc, x :: rest => let r := f i acc x; r :: scanFrom f (i + 1) r.1 rest

/-- Exact prefix sums. -/
def sumsFrom : Int → List Int → List Int
  | _, [] => []
  | acc, x :: rest => (acc + x) :: sumsFrom (acc + x) rest

/-- An exclusive scan starts with `z` and drops the last prefix. -/
def exclude (excl : Bool) (z : Nat) (xs : List (Nat × Nat)) : List (Nat × Nat) :=
  if excl then
    -- the flags of the dropped step are still raised
    let fl := xs.foldl (fun a p => a ||| p.2) 0
    ((z, fl) :: xs).take xs.length
  else xs

/-- VRADD (R31, R164, R166). -/
def raddAll (v : VOp) (env : VEnv) (xs : List (List Nat)) : List (Nat × Nat) :=
  let t := v.t.val; let rm := v.rm.val
  let a := xs.getD 0 []
  let r : Nat × Nat :=
    if isL t then liReduce t rm (env.u 0) (env.free 0) (a.map (decodeLi t))
    else if isF t then treeSum (fun i x y => rounded t rm (env.u i) ((decodeNum t x).add rm (decodeNum t y))) 10 0 0 a
    else intOut t (vSat v) ((a.map (intVal t)).foldl (· + ·) 0)
  a.map fun _ => r

/-- VRMIN and VRMAX. -/
def rpickAll (t : Nat) (mx : Bool) (xs : List (List Nat)) : List (Nat × Nat) :=
  match xs.getD 0 [] with
  | [] => []
  | x :: rest => let r := rest.foldl (pickElem t mx) x; (x :: rest).map fun _ => (if isF t && (decodeNum t r).isNan then (fmtOf t).nan else r, 0)

/-- The first element of a scan (R166): its code, a NaN as the canonical one (R109). -/
def scanHead (t x : Nat) : Nat := if isF t && (decodeNum t x).isNan then (fmtOf t).nan else x

/-- VSCANADD. -/
def scanAddAll (v : VOp) (env : VEnv) (xs : List (List Nat)) : List (Nat × Nat) :=
  let t := v.t.val; let rm := v.rm.val
  let excl := v.m.val / 2 % 2 = 1
  match xs.getD 0 [] with
  | [] => []
  | x :: rest =>
    if isF t then
      exclude excl 0 ((scanHead t x, 0) :: scanFrom (fun i p y => rounded t rm (env.u i) ((decodeNum t p).add rm (decodeNum t y))) 1 x rest)
    else exclude excl 0 ((sumsFrom 0 ((x :: rest).map (intVal t))).map (intOut t (vSat v)))

/-- VSCANMAX. -/
def scanMaxAll (v : VOp) (xs : List (List Nat)) : List (Nat × Nat) :=
  let t := v.t.val
  let low := if isF t then (encodeInf t 0 true).1 else wrap (typeWidth t) (intLo t)
  match xs.getD 0 [] with
  | [] => []
  | x :: rest => exclude (v.m.val / 2 % 2 = 1) low ((scanHead t x, 0) :: scanFrom (fun _ p y => (pickElem t true p y, 0)) 1 x rest)

/-! ### Permutes and selection (R168, R169) -/

/-- Element `i` of a list. -/
def at0 (xs : List Nat) (i : Nat) : Nat := xs.getD i 0

/-- VSHUF (R168). -/
def shufAll (pat n : Nat) (xs : List (List Nat)) : List (Nat × Nat) :=
  let a := xs.getD 0 []; let b := xs.getD 1 []
  let h := n / 2
  (List.range n).map fun i =>
    (match pat with
     | 0 => if i % 2 = 0 then at0 a (i / 2) else at0 b (i / 2)
     | 1 => if i % 2 = 0 then at0 a (h + i / 2) else at0 b (h + i / 2)
     | 2 => if i < h then at0 a (2 * i) else at0 b (2 * (i - h))
     | _ => if i < h then at0 a (2 * i + 1) else at0 b (2 * (i - h) + 1), 0)

/-- Magnitude `a` ranks above magnitude `b` (R169): NaN above every number. -/
def magAbove (t a b : Nat) : Bool :=
  let mag (v : Nat) : Num := match decodeNum t v with | .fin _ m e => .fin false m e | .inf _ => .inf false | .nan => .nan
  match mag a, mag b with
  | .nan, .nan => false
  | .nan, _ => true
  | _, .nan => false
  | x, y => x.cmp y > 0

/-- VTOPNM (R169). -/
def topAll (t nSel m : Nat) (xs : List (List Nat)) : List (Nat × Nat) :=
  let a := xs.getD 0 []
  (List.range a.length).map fun i =>
    let g := i / m * m
    let before := (List.range m).filter fun j =>
      magAbove t (at0 a (g + j)) (at0 a i) || (g + j < i && !magAbove t (at0 a i) (at0 a (g + j)))
    (b2n (before.length < nSel), 0)

/-- VRAND (R148): element `i` of the σ = 1 stream. -/
def randElem (t key ctr i : Nat) : Nat :=
  let w := typeWidth t
  let x := philox key ctr (w * i / 128) 1 / 2 ^ (w * i % 128) % 2 ^ w
  if t = 0x10 then (encodeNum t 0 0 false (.fin false (x / 256) (-24))).1 else x

/-- Mask logic on all 1,024 bits (R170). -/
def maskAll (m : Mask) : List (Nat × Nat) := (List.range 1024).map fun i => (b2n (m.getLsbD i), 0)
/-- Mask source `i`. -/
def VEnv.m (env : VEnv) (i : Nat) : Mask := env.ms.getD i 0

/-! ### Meanings -/

/-- VMOV (R139). -/
def execVmov (v : VOp) (s : State) : Host.Outcome State Fault Refusal :=
  if (illegal (.vmov v)).isSome then .fault .illFormed
  else match vecWord (.vmov v) with
    | some w => s.vecRun v w .none noBit fun _ xs => map1 (fun _ a => (a, 0)) xs
    | none => .fault .illFormed

/-- VSEL (R139). -/
def execVsel (v : VOp) (s : State) : Host.Outcome State Fault Refusal :=
  if (illegal (.vsel v)).isSome then .fault .illFormed
  else match vecWord (.vsel v) with
    | some w => s.vecRun v w .none noBit fun env xs => map2 (fun i a b => (if (env.m 0).getLsbD i then a else b, 0)) xs
    | none => .fault .illFormed

/-- VADD (R140, R142, R158). -/
def execVadd (v : VOp) (s : State) : Host.Outcome State Fault Refusal :=
  if (illegal (.vadd v)).isSome then .fault .illFormed
  else match vecWord (.vadd v) with
    | some w => s.vecRun v w .element (lxBit v) fun env xs => map2 (addElem v false env) xs
    | none => .fault .illFormed

/-- VSUB (R140, R142, R158). -/
def execVsub (v : VOp) (s : State) : Host.Outcome State Fault Refusal :=
  if (illegal (.vsub v)).isSome then .fault .illFormed
  else match vecWord (.vsub v) with
    | some w => s.vecRun v w .element (lxBit v) fun env xs => map2 (addElem v true env) xs
    | none => .fault .illFormed

/-- VMUL (R140, R142, R158). -/
def execVmul (v : VOp) (s : State) : Host.Outcome State Fault Refusal :=
  if (illegal (.vmul v)).isSome then .fault .illFormed
  else match vecWord (.vmul v) with
    | some w => s.vecRun v w .element (lxBit v) fun env xs => map2 (mulElem v env) xs
    | none => .fault .illFormed

/-- VMULH (R140): the high w bits of the exact product. -/
def execVmulh (v : VOp) (s : State) : Host.Outcome State Fault Refusal :=
  if (illegal (.vmulh v)).isSome then .fault .illFormed
  else match vecWord (.vmulh v) with
    | some w => s.vecRun v w .none noBit fun _ xs => map2 (fun _ a b => (wrap (typeWidth v.t.val) (intVal v.t.val a * intVal v.t.val b / (2 ^ typeWidth v.t.val : Nat)), 0)) xs
    | none => .fault .illFormed

/-- VFMA (R140, R142). -/
def execVfma (v : VOp) (s : State) : Host.Outcome State Fault Refusal :=
  if (illegal (.vfma v)).isSome then .fault .illFormed
  else match vecWord (.vfma v) with
    | some w => s.vecRun v w .element noBit fun env xs => map3 (fmaElem v false false env) xs
    | none => .fault .illFormed

/-- VFMS (R140, R142). -/
def execVfms (v : VOp) (s : State) : Host.Outcome State Fault Refusal :=
  if (illegal (.vfms v)).isSome then .fault .illFormed
  else match vecWord (.vfms v) with
    | some w => s.vecRun v w .element noBit fun env xs => map3 (fmaElem v true false env) xs
    | none => .fault .illFormed

/-- VFNMA (R140, R142). -/
def execVfnma (v : VOp) (s : State) : Host.Outcome State Fault Refusal :=
  if (illegal (.vfnma v)).isSome then .fault .illFormed
  else match vecWord (.vfnma v) with
    | some w => s.vecRun v w .element noBit fun env xs => map3 (fmaElem v false true env) xs
    | none => .fault .illFormed

/-- VMIN (R140, R143, R160). -/
def execVmin (v : VOp) (s : State) : Host.Outcome State Fault Refusal :=
  if (illegal (.vmin v)).isSome then .fault .illFormed
  else match vecWord (.vmin v) with
    | some w => s.vecRun v w .none noBit fun _ xs => map2 (fun _ a b => (pickElem v.t.val false a b, 0)) xs
    | none => .fault .illFormed

/-- VMAX (R140, R143, R160). -/
def execVmax (v : VOp) (s : State) : Host.Outcome State Fault Refusal :=
  if (illegal (.vmax v)).isSome then .fault .illFormed
  else match vecWord (.vmax v) with
    | some w => s.vecRun v w .none noBit fun _ xs => map2 (fun _ a b => (pickElem v.t.val true a b, 0)) xs
    | none => .fault .illFormed

/-- VABS (R140, R143, R159). -/
def execVabs (v : VOp) (s : State) : Host.Outcome State Fault Refusal :=
  if (illegal (.vabs v)).isSome then .fault .illFormed
  else match vecWord (.vabs v) with
    | some w => s.vecRun v w .none noBit fun _ xs => map1 (fun _ a => signElem v false a) xs
    | none => .fault .illFormed

/-- VNEG (R140, R143, R159). -/
def execVneg (v : VOp) (s : State) : Host.Outcome State Fault Refusal :=
  if (illegal (.vneg v)).isSome then .fault .illFormed
  else match vecWord (.vneg v) with
    | some w => s.vecRun v w .none noBit fun _ xs => map1 (fun _ a => signElem v true a) xs
    | none => .fault .illFormed

/-- VAND (R141). -/
def execVand (v : VOp) (s : State) : Host.Outcome State Fault Refusal :=
  if (illegal (.vand v)).isSome then .fault .illFormed
  else match vecWord (.vand v) with
    | some w => s.vecRun v w .none noBit fun _ xs => map2 (fun _ a b => (a &&& b, 0)) xs
    | none => .fault .illFormed

/-- VOR (R141). -/
def execVor (v : VOp) (s : State) : Host.Outcome State Fault Refusal :=
  if (illegal (.vor v)).isSome then .fault .illFormed
  else match vecWord (.vor v) with
    | some w => s.vecRun v w .none noBit fun _ xs => map2 (fun _ a b => (a ||| b, 0)) xs
    | none => .fault .illFormed

/-- VXOR (R141). -/
def execVxor (v : VOp) (s : State) : Host.Outcome State Fault Refusal :=
  if (illegal (.vxor v)).isSome then .fault .illFormed
  else match vecWord (.vxor v) with
    | some w => s.vecRun v w .none noBit fun _ xs => map2 (fun _ a b => (a ^^^ b, 0)) xs
    | none => .fault .illFormed

/-- VNOT (R141). -/
def execVnot (v : VOp) (s : State) : Host.Outcome State Fault Refusal :=
  if (illegal (.vnot v)).isSome then .fault .illFormed
  else match vecWord (.vnot v) with
    | some w => s.vecRun v w .none noBit fun _ xs => map1 (fun _ a => (2 ^ typeWidth v.t.val - 1 - a, 0)) xs
    | none => .fault .illFormed

/-- VSLL (R141). -/
def execVsll (v : VOp) (s : State) : Host.Outcome State Fault Refusal :=
  if (illegal (.vsll v)).isSome then .fault .illFormed
  else match vecWord (.vsll v) with
    | some w => s.vecRun v w .none noBit fun _ xs => shiftRun 0 v xs
    | none => .fault .illFormed

/-- VSRL (R141). -/
def execVsrl (v : VOp) (s : State) : Host.Outcome State Fault Refusal :=
  if (illegal (.vsrl v)).isSome then .fault .illFormed
  else match vecWord (.vsrl v) with
    | some w => s.vecRun v w .none noBit fun _ xs => shiftRun 1 v xs
    | none => .fault .illFormed

/-- VSRA (R141). -/
def execVsra (v : VOp) (s : State) : Host.Outcome State Fault Refusal :=
  if (illegal (.vsra v)).isSome then .fault .illFormed
  else match vecWord (.vsra v) with
    | some w => s.vecRun v w .none noBit fun _ xs => shiftRun 2 v xs
    | none => .fault .illFormed

/-- VCMPEQ (R144, R160). -/
def execVcmpeq (v : VOp) (s : State) : Host.Outcome State Fault Refusal :=
  if (illegal (.vcmpeq v)).isSome then .fault .illFormed
  else match vecWord (.vcmpeq v) with
    | some w => s.vecRun v w .none bitOf fun _ xs => map2 (fun _ a b => cmpElem v.t.val 0 a b) xs
    | none => .fault .illFormed

/-- VCMPNE (R144, R160). -/
def execVcmpne (v : VOp) (s : State) : Host.Outcome State Fault Refusal :=
  if (illegal (.vcmpne v)).isSome then .fault .illFormed
  else match vecWord (.vcmpne v) with
    | some w => s.vecRun v w .none bitOf fun _ xs => map2 (fun _ a b => cmpElem v.t.val 1 a b) xs
    | none => .fault .illFormed

/-- VCMPLT (R144, R160). -/
def execVcmplt (v : VOp) (s : State) : Host.Outcome State Fault Refusal :=
  if (illegal (.vcmplt v)).isSome then .fault .illFormed
  else match vecWord (.vcmplt v) with
    | some w => s.vecRun v w .none bitOf fun _ xs => map2 (fun _ a b => cmpElem v.t.val 2 a b) xs
    | none => .fault .illFormed

/-- VCMPLE (R144, R160). -/
def execVcmple (v : VOp) (s : State) : Host.Outcome State Fault Refusal :=
  if (illegal (.vcmple v)).isSome then .fault .illFormed
  else match vecWord (.vcmple v) with
    | some w => s.vecRun v w .none bitOf fun _ xs => map2 (fun _ a b => cmpElem v.t.val 3 a b) xs
    | none => .fault .illFormed

/-- VCVT (R145, R161): between level-index types the level crossings count as for one operand (R156). -/
def execVcvt (v : VOp) (s : State) : Host.Outcome State Fault Refusal :=
  if (illegal (.vcvt v)).isSome then .fault .illFormed
  else match vecWord (.vcvt v) with
    | some w => s.vecRun v w .element noBit fun env xs => map1 (fun i a =>
        let r := convertAny v.t.val v.c.val v.rm.val (env.u i) (env.free i) false a
        if isL v.t.val && isL v.c.val then crossed v.t.val [decodeLi v.c.val a] r else r) xs
    | none => .fault .illFormed

/-- VCVTE (R162). -/
def execVcvte (v : VOp) (s : State) : Host.Outcome State Fault Refusal :=
  if (illegal (.vcvte v)).isSome then .fault .illFormed
  else match vecWord (.vcvte v) with
    | some w => s.vecRun v w .element noBit fun env xs => map1 (fun i a => liExp v.t.val v.rm.val (env.u i) (env.free i) (decodeNum v.c.val a)) xs
    | none => .fault .illFormed

/-- VCVTL (R162). -/
def execVcvtl (v : VOp) (s : State) : Host.Outcome State Fault Refusal :=
  if (illegal (.vcvtl v)).isSome then .fault .illFormed
  else match vecWord (.vcvtl v) with
    | some w => s.vecRun v w .element noBit fun env xs => map1 (fun i a => liLog v.t.val v.rm.val (env.u i) (env.free i) (decodeLi v.c.val a)) xs
    | none => .fault .illFormed

/-- VRAND (R148). -/
def execVrand (v : VOp) (s : State) : Host.Outcome State Fault Refusal :=
  if (illegal (.vrand v)).isSome then .fault .illFormed
  else match vecWord (.vrand v) with
    | some w => s.vecRun v w .none noBit fun _ _ => (List.range (elemCount v.t.val)).map fun i => (randElem v.t.val s.me.vrkey.toNat s.me.vrctr.toNat i, 0)
    | none => .fault .illFormed

/-- VEXP (R149). -/
def execVexp (v : VOp) (s : State) : Host.Outcome State Fault Refusal :=
  if (illegal (.vexp v)).isSome then .fault .illFormed
  else match vecWord (.vexp v) with
    | some w => s.vecRun v w .element noBit fun env xs => map1 (fun i a => special 0 v.t.val v.rm.val (env.u i) (env.free i) a) xs
    | none => .fault .illFormed

/-- VLOG (R149). -/
def execVlog (v : VOp) (s : State) : Host.Outcome State Fault Refusal :=
  if (illegal (.vlog v)).isSome then .fault .illFormed
  else match vecWord (.vlog v) with
    | some w => s.vecRun v w .element noBit fun env xs => map1 (fun i a => special 1 v.t.val v.rm.val (env.u i) (env.free i) a) xs
    | none => .fault .illFormed

/-- VRSQRT (R149). -/
def execVrsqrt (v : VOp) (s : State) : Host.Outcome State Fault Refusal :=
  if (illegal (.vrsqrt v)).isSome then .fault .illFormed
  else match vecWord (.vrsqrt v) with
    | some w => s.vecRun v w .element noBit fun env xs => map1 (fun i a => special 3 v.t.val v.rm.val (env.u i) (env.free i) a) xs
    | none => .fault .illFormed

/-- VTANH (R149). -/
def execVtanh (v : VOp) (s : State) : Host.Outcome State Fault Refusal :=
  if (illegal (.vtanh v)).isSome then .fault .illFormed
  else match vecWord (.vtanh v) with
    | some w => s.vecRun v w .element noBit fun env xs => map1 (fun i a => special 4 v.t.val v.rm.val (env.u i) (env.free i) a) xs
    | none => .fault .illFormed

/-- VGELU (R149). -/
def execVgelu (v : VOp) (s : State) : Host.Outcome State Fault Refusal :=
  if (illegal (.vgelu v)).isSome then .fault .illFormed
  else match vecWord (.vgelu v) with
    | some w => s.vecRun v w .element noBit fun env xs => map1 (fun i a => special 5 v.t.val v.rm.val (env.u i) (env.free i) a) xs
    | none => .fault .illFormed

/-- VRCP (R149, R159). -/
def execVrcp (v : VOp) (s : State) : Host.Outcome State Fault Refusal :=
  if (illegal (.vrcp v)).isSome then .fault .illFormed
  else match vecWord (.vrcp v) with
    | some w => s.vecRun v w .element noBit fun env xs => map1 (fun i a =>
        if isL v.t.val then liRcp v.t.val (decodeLi v.t.val a) else special 2 v.t.val v.rm.val (env.u i) (env.free i) a) xs
    | none => .fault .illFormed

/-- VDIV (R158). -/
def execVdiv (v : VOp) (s : State) : Host.Outcome State Fault Refusal :=
  if (illegal (.vdiv v)).isSome then .fault .illFormed
  else match vecWord (.vdiv v) with
    | some w => s.vecRun v w .element (lxBit v) fun env xs => map2 (fun i a b =>
        let t := v.t.val
        crossed t [decodeLi t a, decodeLi t b] (liMul t v.rm.val (env.u i) (env.free i) true (decodeLi t a) (decodeLi t b))) xs
    | none => .fault .illFormed

/-- VSQRT (R159). -/
def execVsqrt (v : VOp) (s : State) : Host.Outcome State Fault Refusal :=
  if (illegal (.vsqrt v)).isSome then .fault .illFormed
  else match vecWord (.vsqrt v) with
    | some w => s.vecRun v w .element (lxBit v) fun env xs => map1 (fun i a =>
        let t := v.t.val
        crossed t [decodeLi t a] (liSqrt t v.rm.val (env.u i) (env.free i) (decodeLi t a))) xs
    | none => .fault .illFormed

/-- VLVL (R163). -/
def execVlvl (v : VOp) (s : State) : Host.Outcome State Fault Refusal :=
  if (illegal (.vlvl v)).isSome then .fault .illFormed
  else match vecWord (.vlvl v) with
    | some w => s.vecRun v w .none noBit fun _ xs => map1 (fun _ a => (liLevel v.t.val (decodeLi v.c.val a), 0)) xs
    | none => .fault .illFormed

/-- VRADD (R31, R164 to R166). -/
def execVradd (v : VOp) (s : State) : Host.Outcome State Fault Refusal :=
  if (illegal (.vradd v)).isSome then .fault .illFormed
  else match vecWord (.vradd v) with
    | some w => s.vecRun v w .combined noBit fun env xs => raddAll v env xs
    | none => .fault .illFormed

/-- VRMIN (R166). -/
def execVrmin (v : VOp) (s : State) : Host.Outcome State Fault Refusal :=
  if (illegal (.vrmin v)).isSome then .fault .illFormed
  else match vecWord (.vrmin v) with
    | some w => s.vecRun v w .none noBit fun _ xs => rpickAll v.t.val false xs
    | none => .fault .illFormed

/-- VRMAX (R166). -/
def execVrmax (v : VOp) (s : State) : Host.Outcome State Fault Refusal :=
  if (illegal (.vrmax v)).isSome then .fault .illFormed
  else match vecWord (.vrmax v) with
    | some w => s.vecRun v w .none noBit fun _ xs => rpickAll v.t.val true xs
    | none => .fault .illFormed

/-- VSCANADD (R166). -/
def execVscanadd (v : VOp) (s : State) : Host.Outcome State Fault Refusal :=
  if (illegal (.vscanadd v)).isSome then .fault .illFormed
  else match vecWord (.vscanadd v) with
    | some w => s.vecRun v w .combined noBit fun env xs => scanAddAll v env xs
    | none => .fault .illFormed

/-- VSCANMAX (R166). -/
def execVscanmax (v : VOp) (s : State) : Host.Outcome State Fault Refusal :=
  if (illegal (.vscanmax v)).isSome then .fault .illFormed
  else match vecWord (.vscanmax v) with
    | some w => s.vecRun v w .none noBit fun _ xs => scanMaxAll v xs
    | none => .fault .illFormed

/-- VPERM (R168). -/
def execVperm (v : VOp) (s : State) : Host.Outcome State Fault Refusal :=
  if (illegal (.vperm v)).isSome then .fault .illFormed
  else match vecWord (.vperm v) with
    | some w => s.vecRun v w .none noBit fun _ xs => map1 (fun _ b => (at0 (xs.getD 0 []) (b % elemCount v.t.val), 0)) (xs.drop 1)
    | none => .fault .illFormed

/-- VSHUF (R168). -/
def execVshuf (v : VOp) (s : State) : Host.Outcome State Fault Refusal :=
  if (illegal (.vshuf v)).isSome then .fault .illFormed
  else match vecWord (.vshuf v) with
    | some w => s.vecRun v w .none noBit fun _ xs => shufAll v.c.val (elemCount v.t.val) xs
    | none => .fault .illFormed

/-- VBCAST (R168). -/
def execVbcast (v : VOp) (s : State) : Host.Outcome State Fault Refusal :=
  if (illegal (.vbcast v)).isSome then .fault .illFormed
  else match vecWord (.vbcast v) with
    | some w => s.vecRun v w .none noBit fun _ xs => map1 (fun _ _ => (at0 (xs.getD 0 []) (idx10 v), 0)) xs
    | none => .fault .illFormed

/-- VBCASTS (R168): the low w bits of a scalar register. -/
def execVbcasts (v : VOp) (s : State) : Host.Outcome State Fault Refusal :=
  if (illegal (.vbcasts v)).isSome then .fault .illFormed
  else match vecWord (.vbcasts v) with
    | some w => s.vecRun v w .none noBit fun _ _ => (List.range (elemCount v.t.val)).map fun _ => ((s.rdS (Fin.ofNat 32 v.a.val)).toNat % 2 ^ typeWidth v.t.val, 0)
    | none => .fault .illFormed

/-- VROT (R168). -/
def execVrot (v : VOp) (s : State) : Host.Outcome State Fault Refusal :=
  if (illegal (.vrot v)).isSome then .fault .illFormed
  else match vecWord (.vrot v) with
    | some w => s.vecRun v w .none noBit fun _ xs => (List.range (elemCount v.t.val)).map fun i => (at0 (xs.getD 0 []) ((i + idx10 v) % elemCount v.t.val), 0)
    | none => .fault .illFormed

/-- VTOPNM (R169). -/
def execVtopnm (v : VOp) (s : State) : Host.Outcome State Fault Refusal :=
  if (illegal (.vtopnm v)).isSome then .fault .illFormed
  else match vecWord (.vtopnm v) with
    | some w => s.vecRun v w .none bitOf fun _ xs => topAll v.t.val (v.m.val % 8) (if v.m.val ≥ 8 then 8 else 4) xs
    | none => .fault .illFormed

/-- KAND (R170). -/
def execKand (v : VOp) (s : State) : Host.Outcome State Fault Refusal :=
  if (illegal (.kand v)).isSome then .fault .illFormed
  else match vecWord (.kand v) with
    | some w => s.vecRun v w .none bitOf fun env _ => maskAll (env.m 0 &&& env.m 1)
    | none => .fault .illFormed

/-- KOR (R170). -/
def execKor (v : VOp) (s : State) : Host.Outcome State Fault Refusal :=
  if (illegal (.kor v)).isSome then .fault .illFormed
  else match vecWord (.kor v) with
    | some w => s.vecRun v w .none bitOf fun env _ => maskAll (env.m 0 ||| env.m 1)
    | none => .fault .illFormed

/-- KXOR (R170). -/
def execKxor (v : VOp) (s : State) : Host.Outcome State Fault Refusal :=
  if (illegal (.kxor v)).isSome then .fault .illFormed
  else match vecWord (.kxor v) with
    | some w => s.vecRun v w .none bitOf fun env _ => maskAll (env.m 0 ^^^ env.m 1)
    | none => .fault .illFormed

/-- KANDN (R170). -/
def execKandn (v : VOp) (s : State) : Host.Outcome State Fault Refusal :=
  if (illegal (.kandn v)).isSome then .fault .illFormed
  else match vecWord (.kandn v) with
    | some w => s.vecRun v w .none bitOf fun env _ => maskAll (env.m 0 &&& ~~~(env.m 1))
    | none => .fault .illFormed

/-- KNOT (R170). -/
def execKnot (v : VOp) (s : State) : Host.Outcome State Fault Refusal :=
  if (illegal (.knot v)).isSome then .fault .illFormed
  else match vecWord (.knot v) with
    | some w => s.vecRun v w .none bitOf fun env _ => maskAll (~~~(env.m 0))
    | none => .fault .illFormed

/-- KMOV (R170). -/
def execKmov (v : VOp) (s : State) : Host.Outcome State Fault Refusal :=
  if (illegal (.kmov v)).isSome then .fault .illFormed
  else match vecWord (.kmov v) with
    | some w => s.vecRun v w .none bitOf fun env _ => maskAll (env.m 0)
    | none => .fault .illFormed

end Sys2Proof.Machine
end

