-- ==== Sys2Proof/Machine/Sae.lean ====
section
/-! DEFINITION. Sys2Proof/Machine/Sae.lean: the scatter-accumulate engine (R278 to R289). A word's updates are made when it issues: what
the range checker orders cannot see the difference, and what is raced or comes from other cores may find either order. -/

namespace Sys2Proof.Machine

/-! ### Operations (R279) -/

/-- The element type of an SAE word: .i32, .ui32, .f32, .bf16, .li32 (R74). -/
def saeType (ty : Nat) : Nat := [0x04, 0x0C, 0x10, 0x12, 0x13].getD ty 0x04

/-- Bit by bit (R279). -/
def saeBits (op a b : Nat) : Nat := if op = 4 then a ||| b else if op = 5 then a &&& b else a ^^^ b

/-- The value an operation stores for a pair whose target holds `o`, and its flags (R279): 1 SADD, 2 SMIN, 3 SMAX, 4 SOR, 5 SAND, 6 SXOR,
7 SXCH, 8 SCAS. What SMIN, SMAX, SXCH or SCAS delivers is no result that FTZ flushes (DESIGN CHOICE, assumption log 55: R127 speaks of a
subnormal result, and R279 gives these operations no flag). -/
def saeOp (op t free : Nat) (ftz : Bool) (o v cmp : Nat) : Nat × Nat :=
  if op = 1 then
    if isL t then let r := liAdd t 0 0 free false (decodeLi t o) (decodeLi t v); (r.1, r.2 % 2)
    else if isF t then let x := (decodeNum t o).add 0 (decodeNum t v); let e := encodeNum t 0 0 ftz x.1; (e.1, e.2 ||| x.2)
    else ((o + v) % 2 ^ 32, 0)
  else if op = 2 then (pickElem t false o v, 0)
  else if op = 3 then (pickElem t true o v, 0)
  else if op = 7 then (v, 0)
  else if op = 8 then (if o = cmp then v else o, 0)
  else (saeBits op o v, 0)

/-- The values of a window that aim at one element, merged (R280): for level-index SADD their exact sum rounded once, else step by step. -/
def saeMerge (op t free : Nat) (vs : List Nat) : Nat × Nat :=
  match vs with
  | [] => (0, 0)
  | [v] => (v, 0)
  | v :: rest =>
    if op = 1 && isL t then let r := liReduce t 0 0 free (vs.map (decodeLi t)); (r.1, r.2 % 2)
    else rest.foldl (fun (a : Nat × Nat) w => let r := saeOp op t free false a.1 w 0; (r.1, a.2 ||| r.2)) (v, 0)

/-- One update: the element's number and its values, with the position of the first. -/
structure SaeUpd where
  el : Nat
  pos : Nat
  vals : List Nat
  deriving DecidableEq, Repr

/-- A pair joins the update of its element, or starts one. -/
def addPair (us : List SaeUpd) (k el v : Nat) : List SaeUpd :=
  if us.any fun u => u.el = el then us.map fun (u : SaeUpd) => if u.el = el then { u with vals := u.vals ++ [v] } else u
  else us ++ [{ el := el, pos := k, vals := [v] }]

/-- The updates of a word in order (R280): window by window, by first position; SXCH and SCAS take each pair for itself. -/
def saeUpdates (op win size : Nat) (idx vals : List Nat) : List SaeUpd :=
  let pairs := ((idx.zip vals).zipIdx.map fun p => (p.2, p.1.1, p.1.2)).filter fun p => p.2.1 < size
  if op ≥ 7 then pairs.map fun p => { el := p.2.1, pos := p.1, vals := [p.2.2] }
  else (List.range (128 / win)).flatMap fun u =>
    (pairs.filter fun p => p.1 / win = u).foldl (fun us p => addPair us p.1 p.2.1 p.2.2) []

/-! ### Targets (R283) -/

/-- The checks of R283 on the target's header. -/
def State.saeTarget (s : State) (t : Nat) (h : Header) : Option Tensor :=
  match s.myCore.tensor h 8 with
  | none => none
  | some d =>
    let fmtOk := if isIntCode t then d.fmt = 0x04 || d.fmt = 0x0C else d.fmt = t
    let place := if d.buf = 0 then s.dramOk s.cur.core s.cur.ctx d true && s.dramOk s.cur.core s.cur.ctx d false && hf h 2 % (d.w / 8) = 0
      else d.buf ≠ 3 && s.myGrant.covers d.buf d.mask
    let cbuf := d.buf ≠ 2 || d.fmt = 0x04 || d.fmt = 0x0C || d.fmt = 0x10
    if fmtOk && place && cbuf && !d.tr && d.sps = 0 && !d.bse && d.bias = 0 then some d else none

/-- The unit of the SAE. -/
def saeUnit (c : CoreId) (x : CtxId) : UnitId := { core := c, ctx := x, path := 2, chan := 0 }

/-- Where an element of a DRAM target stands: device-physical pieces with their keys, for a range already translated. -/
def State.saePlaces (s : State) (va n : Nat) : List (Nat × Nat × Nat) :=
  (pieces 3 va 0 n).filterMap fun p => match (s.translate s.cur.core s.cur.ctx (some 4) 0 (va + p.1) .wr).1 with
    | .ok q => some (q.1, q.2, p.2)
    | .error _ => none

/-- A piece lies in a line of another key, or in one with an uncorrected error. -/
def State.pieceBadKey (s : State) (p : Nat × Nat × Nat) : Bool :=
  s.lineKey p.1 ≠ p.2.1 || s.lineKey (p.1 + p.2.2 - 1) ≠ p.2.1
def State.pieceStruck (s : State) (p : Nat × Nat × Nat) : Bool := s.lineBad p.1 || s.lineBad (p.1 + p.2.2 - 1)

/-- One indivisible update of element `el` of the target (R287): the value it held, or nothing where a key mismatch or a soft error
left it unchanged (R288), and the flags; `cls` is the word's alias class. -/
def State.saeApply (s : State) (cls : Nat) (d : Tensor) (base op t v cmp el : Nat) : Option Nat × State × Nat :=
  let r := el / d.d0
  let i0 := el % d.d0
  let free := (s.freeVal 64).toNat
  let s0 := s.skipFresh 1
  if d.buf ≠ 0 then
    let k := s.myCore
    let line := d.bitAt r i0 / 4096
    if k.bad.contains (d.buf, line) then (none, s0.readStruck s.cur.core s.cur.ctx 2 [(d.buf, 2 ^ line)], 0)
    else
    let o := k.codeAt d r i0
    let n := saeOp op t free (k.ftzAt d r i0) o v cmp
    (some o, s0.modMyCore fun k => k.putAt d r i0 n.1, n.2)
  else
    let off := (d.byteAt r i0).1
    let haddr := d.handle * 2 ^ 48 + off
    let ps := s.saePlaces (base + off) (d.w / 8)
    match ps.find? s.pieceBadKey with
    | some p =>
      let b := firstBadByte (fun a => decide (s.lineKey a ≠ p.2.1)) p.1 p.2.2
      (none, s0.keyFault s.cur.core s.cur.ctx haddr (base + off + (b - p.1)) b p.2.1 2 true, 0)
    | none =>
      match ps.find? s.pieceStruck with
      | some p => (none, s0.softErr s.cur.core s.cur.ctx (firstBadByte s.lineBad p.1 p.2.2) 2, 0)
      | none =>
        let u := saeUnit s.cur.core s.cur.ctx
        -- it reads the write that stands immediately before it in the coherence order (R291, R295)
        let got := ps.foldl (fun (a : List Byte × State) p => (a.1 ++ (a.2.readLatest u cls p.1 p.2.2).1, (a.2.readLatest u cls p.1 p.2.2).2)) ([], s0)
        let o := leNat got.1
        let s1 := got.2
        let n := saeOp op t free false o v cmp
        let put := ps.foldl (fun (a : List Byte × State) p => (a.1.drop p.2.2, a.2.writeMem false u cls p.1 (a.1.take p.2.2)))
          (leBytes (d.w / 8) n.1, s1)
        (some o, put.2, n.2)

/-- Every page that a DRAM word names translates for a write before any pair is applied (R288): the first fault, with its handle
address. -/
def State.saeProbe (s : State) (d : Tensor) (base : Nat) (us : List SaeUpd) : Option (Nat × XFault) × State :=
  us.foldl (fun (a : Option (Nat × XFault) × State) u =>
    match a.1 with
    | some _ => a
    | none =>
      let off := (d.byteAt (u.el / d.d0) (u.el % d.d0)).1
      let haddr := d.handle * 2 ^ 48 + off
      match a.2.probeVa (saeUnit s.cur.core s.cur.ctx) (some 4) haddr (base + off) (d.w / 8) .rw with
      | (some f, s1) => (some (f.haddr haddr (base + off), f), s1)
      | (none, s1) => (none, s1)) (none, s)

/-- The updates of a word applied in order: the state, the flags, and the replies by position (R284). -/
def State.saeRun (s : State) (cls : Nat) (d : Tensor) (base op t : Nat) (cmps : List Nat) : List SaeUpd → State × Nat × List (Nat × Nat)
  | [] => (s, 0, [])
  | u :: rest =>
    let g := saeMerge op t (s.freeVal 64).toNat u.vals
    let s1 := s.skipFresh 1
    let r := s1.saeApply cls d base op t g.1 (cmps.getD u.pos 0) u.el
    let old := match r.1 with | some o => o | none => (r.2.1.freeVal d.w).toNat
    let z := (r.2.1.skipFresh 1).saeRun cls d base op t cmps rest
    (z.1, g.2 ||| r.2.2 ||| z.2.1, (u.pos, old) :: z.2.2)

/-! ### Words -/

/-- The SAE accepts a further word (R285, R286). -/
def Core.saeRoom (k : Core) (x : CtxId) : Bool := k.sae.length < 2 && k.sae.all fun m => !(m.flush && m.ctx = x)

/-- What a word pops: indices, values and for SCAS the compare values (R278, R284). -/
def SOp.pops (op : Nat) (o : SOp) : List QNo := [o.iq, o.vq] ++ (if op = 8 then [o.rq] else [])

/-- The queue conditions of a word (R40, R43, R284). -/
def State.saeQueues (s : State) (op : Nat) (o : SOp) : Bool :=
  s.queuesFor (SOp.pops op o) (if o.re then [o.rq] else [])

/-- FLAG and the queues of a word lie in the grant (R55). -/
def State.saeGrant (s : State) (op : Nat) (o : SOp) : Bool :=
  s.myGrant.flagOk o.h.fe o.h.flag && s.myGrant.hasQueues ((SOp.pops op o) ++ (if o.re then [o.rq] else []))

/-- The words' own record in flight. -/
def State.aCmd (s : State) (h : HOp) : ACmd :=
  { due := s.cycle + 1, flags := 0, flush := false, reply := none, fe := h.fe, flag := h.flag, epoch := s.me.epoch, idx := s.curIdx,
    ctx := s.cur.ctx }

/-- The footprint of a word (R180, R287): every line of a typed-buffer target, read and written. -/
def State.saePrint (s : State) (cls : Nat) (d : Tensor) : Access4 :=
  s.footprint 10 cls (if d.buf = 0 then [] else [(d.buf, d.mask)]) (if d.buf = 0 then [] else [(d.buf, d.mask)])

/-- Lines of the target that updates touch. -/
def Tensor.linesHit (d : Tensor) (us : List SaeUpd) : Nat :=
  (us.map fun u => d.bitAt (u.el / d.d0) (u.el % d.d0) / 4096).eraseDups.length

/-- The word takes its entries, reserves its reply slot and joins the words in flight; `rs` are the replies (R284). -/
def Core.saeEnter (k : Core) (op : Nat) (o : SOp) (w : Nat) (m : ACmd) (rs : List (Nat × Nat)) : Core :=
  let k1 := (SOp.pops op o).foldl (fun (c : Core) q => c.qPop q) k
  if o.re then
    let r := k1.qReserve o.rq
    let img := rs.foldl (fun d p => setSlice d (p.1 * w) w p.2) 0
    { r.2 with sae := k.sae ++ [{ m with reply := some (o.rq, r.1, img) }] }
  else { k1 with sae := k.sae ++ [m] }

/-- A word issues (R278 to R284, R288). -/
def State.saeWord (s : State) (op : Nat) (o : SOp) : Host.Outcome State Fault Refusal :=
  if o.ty.val > 4 then .fault .illFormed
  else if !s.saeGrant op o then .next s.trapRange
  else if !s.myCore.saeRoom s.cur.ctx || !s.saeQueues op o then s.hold
  else
    let t := saeType o.ty.val
    let w := typeWidth t
    match s.saeTarget t (s.rdH o.h.hd) with
      | none =>
        let h := s.rdH o.h.hd
        .next (if hf h 11 = 0 then s.trapHandles [hf h 1 * 2 ^ 48] 2 true else s.trapRange)
      | some d =>
        let head (q : QNo) : VReg := (s.myCore.qHead q).getD 0
        let cmps := if op = 8 then elems (head o.rq) w 128 else []
        let us := saeUpdates op (2 ^ (s.me.saecfg % 8)) d.size (elems (head o.iq) 32 128) (elems (head o.vq) w 128)
        let base := match (s.handle s.cur.core s.cur.ctx d.handle).1 with | .bound i => i.base | _ => 0
        match (if d.buf = 0 then s.saeProbe d base us else (none, s)) with
        | (some (h, f), _) => .next (s.trapXlate h f 2)
        | (none, s0) =>
          let fp := s.saePrint o.h.ac.val d
          let r := s0.saeRun o.h.ac.val d base op t cmps us
          let m0 := s.aCmd o.h
          let m : ACmd := { m0 with flags := r.2.1 % 16,
                                    due := if d.buf = 0 then s.freeDelay (s.cycle + 9) else s.cycle + 8 + d.linesHit us }
          let merged := (us.map fun u => u.vals.length - 1).sum
          let s1 := ((r.1.skipFresh 1).count s.cur.core s.cur.ctx 0x18 us.length).count s.cur.core s.cur.ctx 0x19 merged
          .next ((s1.issued.modMe fun k => k.enterAccess fp).modMyCore fun k => k.saeEnter op o w m r.2.2)

/-- SADD (R279, R280). -/
def execSadd (o : SOp) (s : State) : Host.Outcome State Fault Refusal := s.saeWord 1 o
/-- SMIN (R278, R279). -/
def execSmin (o : SOp) (s : State) : Host.Outcome State Fault Refusal := s.saeWord 2 o
/-- SMAX (R278, R279). -/
def execSmax (o : SOp) (s : State) : Host.Outcome State Fault Refusal := s.saeWord 3 o
/-- SOR (R279). -/
def execSor (o : SOp) (s : State) : Host.Outcome State Fault Refusal := s.saeWord 4 o
/-- SAND (R279). -/
def execSand (o : SOp) (s : State) : Host.Outcome State Fault Refusal := s.saeWord 5 o
/-- SXOR (R279). -/
def execSxor (o : SOp) (s : State) : Host.Outcome State Fault Refusal := s.saeWord 6 o
/-- SXCH (R279, R284). -/
def execSxch (o : SOp) (s : State) : Host.Outcome State Fault Refusal := s.saeWord 7 o
/-- SCAS (R279, R284). -/
def execScas (o : SOp) (s : State) : Host.Outcome State Fault Refusal := s.saeWord 8 o

/-- SFLUSH (R285). -/
def execSflush (h : HOp) (s : State) : Host.Outcome State Fault Refusal :=
  if !s.myCore.saeRoom s.cur.ctx then s.hold
  else if !s.myGrant.flagOk h.fe h.flag then .next s.trapRange
  else
    let m := { s.aCmd h with flush := true }
    .next (s.issued.modMyCore fun k => { k with sae := k.sae ++ [m] })

/-! ### Completion (R286) -/

/-- A word of core `k` may complete: it is due, and an SFLUSH has nothing of its context before it. -/
def saeReady (now : Nat) : List ACmd → List ACmd → Option ACmd
  | _, [] => none
  | seen, m :: rest =>
    if m.due ≤ now && !(m.flush && seen.any fun o => o.ctx = m.ctx) then some m else saeReady now (seen ++ [m]) rest

/-- The word that completes next. -/
def State.saeDue (s : State) (c : CoreId) : Option ACmd := saeReady s.cycle [] (s.core c).sae

/-- SAE_WORD_COMPLETE (R278, R284, R286): the reply entry, SSTAT and the completion update. -/
def execSaeWordComplete (c : CoreId) (s : State) : Host.Outcome State Fault Refusal :=
  match s.saeDue c with
  | none => .next s
  | some m =>
    let s1 := s.modCore c fun k =>
      let k1 := { k with sae := k.sae.erase m }
      match m.reply with | some (q, id, v) => k1.qFill q id v | none => k1
    let s2 := s1.modCtx c m.ctx fun k => { k with sstat := k.sstat ||| m.flags }.leaveAccess 10 m.epoch m.idx
    .next (s2.complFlag c m.ctx 5 m.fe m.flag)

end Sys2Proof.Machine
end

