-- ==== Sys2Proof/Machine/Xcmd.lean ====
section
/-! DEFINITION. Sys2Proof/Machine/Xcmd.lean: the dispatcher functions of XCMD and the arrival of replies (R103, R305, R308, R315,
R317, R318). -/

namespace Sys2Proof.Machine

/-- XCMD's release at PKG of the control core's earlier writes is done (R103); under replay the operation's turn has come. -/
def State.xcmdReady (s : State) : Bool :=
  s.me.stores.isEmpty && s.performed s.cur.core s.cur.ctx [0] 2 &&
  !s.opWaits s.myPart (s.taskNum s.cur.core s.cur.ctx)

/-- A reply on its way to sD (R80, R103): it arrives after a free delay. -/
def State.reply (s : State) (d : SReg) (v : Word) : State :=
  (s.modMe fun k => { k with replies := k.replies ++ [{ due := s.freeDelay (s.cycle + 1), dst := d, val := v }] }).skipFresh 1

/-- The issuing task's number. -/
def State.myTask (s : State) : Nat := s.taskNum s.cur.core s.cur.ctx

/-- A report to the issuing context. -/
def State.reportMe (s : State) (code : Nat) : State := s.report s.myPart code (some (s.cur.core, s.cur.ctx))

/-- TEND (R315): the control cursor stops and the task drains. -/
def execTend (s : State) : Host.Outcome State Fault Refusal :=
  if s.inFork then .next s.trapRange
  else if !s.xcmdReady then s.hold
  else
    let s1 := s.issued.modMe fun k => { k with draining := true }
    .next (match s.me.task with
      | some n => s1.modTask s.myPart n fun t => { t with phase := .draining }
      | none => s1)

/-- TSPAWN (R308): the reply is the new task's number, 0 when refused. -/
def execTspawn (d a : SReg) (s : State) : Host.Outcome State Fault Refusal :=
  if !s.xcmdReady then s.hold
  else
    let r := s.issued.submit s.cur.core s.cur.ctx s.myPart (s.rdS a) false s.myTask (some (s.cur.core, s.cur.ctx))
    .next (r.2.reply d (BitVec.ofNat 64 r.1))

/-- The lowest free future number of a partition. -/
def State.freeFut (s : State) (p : Nat) : Nat :=
  let used := (s.disp.futs.filter fun f => f.part = p).map (·.num)
  ((List.range (used.length + 1)).find? fun i => !used.contains (i + 1)).getD used.length + 1

/-- A future handle (R302). -/
def futHandle (p num : Nat) : Word := BitVec.ofNat 64 (p % 16 * 2 ^ 32 + num % 2 ^ 32)

/-- A new EMPTY future of a partition, for an issuing task or (0) the loader (R302, R318): its handle, or 0 where FUTMAX are live. -/
def State.newFut (s : State) (p issuer : Nat) : Word × State :=
  if (s.disp.futs.filter fun f => f.part = p).length ≥ (s.dp p).futmax then (0, s)
  else
    let n := s.freeFut p
    match s.dispLog p 5 issuer 0 (futHandle p n) [] [] with
    | (false, s1) => (0, s1)
    | (true, s1) =>
      let f : Future := { part := p, num := n, state := 0, value := 0, waiters := [] }
      (futHandle p n, { s1 with disp := { s1.disp with futs := s1.disp.futs ++ [f] } })

/-- FNEW (R318). -/
def execFnew (d : SReg) (s : State) : Host.Outcome State Fault Refusal :=
  if !s.xcmdReady then s.hold
  else
    let r := s.issued.newFut s.myPart s.myTask
    .next (r.2.reply d r.1)

/-- The continuation that a descriptor address names, while it is PENDING (R318). -/
def State.pendingAt (s : State) (p : Nat) (addr : Word) : Option Task :=
  s.disp.tasks.find? fun t => t.part = p && t.phase = .pending && t.addr = addr

/-- An attachment of an accepted continuation (R305): the reply and the state. -/
def State.attach (s : State) (p fnum num : Nat) : Word × State :=
  match s.fut? p fnum with
  | none => (BitVec.allOnes 64, s)
  | some f =>
    let s1 := s.modTask p num fun t => { t with att := t.att + 1 }
    if f.state = 2 then (1, s1.countDown p num)
    else (0, s1.modFut p fnum fun f => { f with state := 1, waiters := f.waiters ++ [num] })

/-- FATT (R305, R308, R318): the first one that names a descriptor submits it. -/
def execFatt (d a b : SReg) (s : State) : Host.Outcome State Fault Refusal :=
  let p := s.myPart
  let w := s.rdS a
  if !futOk p w then .next s.trapRange
  else if !s.xcmdReady then s.hold
  else
    let t := s.issued
    let here := some (s.cur.core, s.cur.ctx)
    if (t.fut? p (futNum w)).isNone then .next ((t.reportMe 2).reply d (BitVec.allOnes 64))
    else
      let go (t : State) (num : Nat) : State :=
        match t.dispLog p 3 s.myTask num w [] [] with
        | (false, t1) => t1.reply d (BitVec.allOnes 64)
        | (true, t1) =>
          let r := t1.attach p (futNum w) num
          r.2.reply d r.1
      match t.pendingAt p (s.rdS b) with
      | some k => if k.att ≥ k.waits then .next ((t.reportMe 4).reply d (BitVec.allOnes 64)) else .next (go t k.num)
      | none =>
        -- a full pool refuses without a report, and the reply is 0 (R308)
        if t.poolUse p ≥ (t.dp p).pool then .next (t.reply d 0)
        else
          let r := t.submit s.cur.core s.cur.ctx p (s.rdS b) true s.myTask here
          if r.1 = 0 then .next (r.2.reply d (BitVec.allOnes 64)) else .next (go r.2 r.1)

/-- FRES (R305, R318). -/
def execFres (a b : SReg) (s : State) : Host.Outcome State Fault Refusal :=
  let p := s.myPart
  let w := s.rdS a
  if !futOk p w then .next s.trapRange
  else if !s.xcmdReady then s.hold
  else
    match s.issued.dispLog p 4 s.myTask (futNum w) (s.rdS b) [] [] with
    | (false, t) => .next t
    | (true, t) => .next (t.resolve p (futNum w) (s.rdS b) (some (s.cur.core, s.cur.ctx)))

/-- FGET (R304, R318). -/
def execFget (d a : SReg) (s : State) : Host.Outcome State Fault Refusal :=
  let p := s.myPart
  let w := s.rdS a
  if !futOk p w then .next s.trapRange
  else if !s.xcmdReady then s.hold
  else
    let t := s.issued
    match t.fut? p (futNum w) with
    | some f => .next (t.reply d (BitVec.ofNat 64 f.dw0))
    | none => .next ((t.reportMe 2).reply d (BitVec.allOnes 64))

/-- FFREE (R318). -/
def execFfree (a : SReg) (s : State) : Host.Outcome State Fault Refusal :=
  let p := s.myPart
  let w := s.rdS a
  if !futOk p w then .next s.trapRange
  else if !s.xcmdReady then s.hold
  else
    let t := s.issued
    match t.fut? p (futNum w) with
    | none => .next (t.reportMe 2)
    | some f =>
      if !f.waiters.isEmpty then .next (t.reportMe 3)
      else
        match t.dispLog p 6 s.myTask 0 w [] [] with
        | (false, t1) => .next t1
        | (true, t1) =>
          .next { t1 with disp := { t1.disp with futs := t1.disp.futs.filter fun f => !(f.part = p && f.num = futNum w) } }

/-- XCMD_REPLY (R80, R103, R106): the oldest reply of the context arrives. -/
def execXcmdReply (c : CoreId) (x : CtxId) (s : State) : Host.Outcome State Fault Refusal :=
  match (s.ctx c x).replies with
  | [] => .next s
  | r :: rest => .next (s.modCtx c x fun k => { ({ k with replies := rest }).wrS r.dst r.val with evt := true })

end Sys2Proof.Machine
end

