-- ==== Sys2Proof/Machine/Collective.lean ====
section
/-! DEFINITION. Sys2Proof/Machine/Collective.lean: the collective engine: Darud transport (R324), operations (R325 to R327), the functions
that start them (R328 to R330), remote atomics (R331), bounce rings (R332), gang slices and the ports (R322, R334). The shape of a
Darud packet is the model's (assumption log 7). -/

namespace Sys2Proof.Machine

/-! ### Sending (R324) -/

/-- Sequence number `a` stands before `b`; numbers are 24 bits wide and wrap. -/
def seqBelow (a b : Nat) : Bool := let d := (b + 2 ^ 24 - a % 2 ^ 24) % 2 ^ 24; 0 < d && d ≤ 2 ^ 23

/-- A frame that leaves through the connection's port, whether or not its link has been brought up (DESIGN CHOICE, assumption log 1). -/
def State.emit (s : State) (n : Nat) (b : FrameBody) : State :=
  { s with col := { s.col with out := s.col.out ++ [((s.conn n).port, b)] } }

/-- Microseconds in cycles (R5). -/
def usCycles (n : Nat) : Nat := n * 850

/-- The peer's connection number as a packet carries it. -/
def Conn.peer (k : Conn) : ConnId := Fin.ofNat 4096 k.pconn

/-- Nothing leaves for a fenced partition and nothing of it is applied (R343). -/
def State.partOpen (s : State) (p : Nat) : Bool := (s.part p).state < 2

/-- A connection that carries packets. -/
def Conn.live (k : Conn) : Bool := k.v && !k.fail

/-- A new packet is sent; the replay window keeps it for the operation `op`. -/
def State.sendPacket (s : State) (n op : Nat) (p : Packet) : State :=
  let k := s.conn n
  let q := { p with seq := k.txseq }
  (s.emit n (.darudData k.peer q)).modConn n fun k => { k with
    window := k.window ++ [(op, q)], txseq := (k.txseq + 1) % 2 ^ 24, rtoDue := some (k.rtoDue.getD (s.cycle + usCycles k.rto)) }

/-- A packet and every later one of the window is sent again, or after RMAX rounds without progress the connection fails. -/
def State.resend (s : State) (n seq : Nat) (late : Bool) : State :=
  let k := s.conn n
  if !late && k.rounds ≥ k.rmax then s.failConn n
  else
    let s1 := (k.window.filter fun w => !seqBelow w.2.seq seq).foldl (fun (t : State) w => t.emit n (.darudData k.peer w.2)) s
    s1.modConn n fun k => { k with backoff := none, late := false, rounds := if late then k.rounds else k.rounds + 1,
                                   rtoDue := some (s.cycle + usCycles k.rto) }

/-! ### Acknowledging (R324) -/

/-- The number up to which the receiver acknowledges: not past a remote atomic that waits to be applied (R327). -/
def Conn.ackable (k : Conn) : Nat := match k.recvq.find? fun p => p.op ≥ 6 && p.op ≠ 12 with | some p => p.seq | none => k.rxseq

/-- A cumulative acknowledgement is sent. -/
def State.ackNow (s : State) (n : Nat) : State :=
  let k := s.conn n
  let left := (k.rxseq + 2 ^ 24 - k.ackable) % 2 ^ 24
  (s.emit n (.darudAck k.peer k.ackable)).modConn n fun k => { k with unacked := left, ackDue := if left = 0 then none else some (s.cycle + usCycles 1) }

/-- One more packet has been accepted. -/
def State.noteAccepted (s : State) (n : Nat) : State :=
  let s1 := s.modConn n fun k => { k with rxseq := (k.rxseq + 1) % 2 ^ 24, unacked := k.unacked + 1, ackDue := some (k.ackDue.getD (s.cycle + usCycles 1)) }
  if (s1.conn n).unacked ≥ 16 then s1.ackNow n else s1

/-- A negative acknowledgement that names RXSEQ. -/
def State.nack (s : State) (n : Nat) (late : Bool) : State := s.emit n (.darudNack (s.conn n).peer (s.conn n).rxseq late)

/-! ### Descriptors (R319, R325) -/

/-- Operations that receive (R325). -/
def opReceives (op : Nat) : Bool := op = 1 || op = 2 || op = 3 || op = 5

/-- Rings. -/
def opRings (op : Nat) : Bool := 1 ≤ op && op ≤ 3

/-- OP with its formats (R325). -/
def opFmtOk (op fmt : Nat) : Bool :=
  if op = 1 || op = 4 || op = 5 then [8, 16, 32].contains (typeWidth fmt)
  else if op = 2 || op = 3 then fmt = 0x10 || fmt = 0x12
  else if 6 ≤ op && op ≤ 8 then fmt = 0x04 || fmt = 0x0C || fmt = 0x10 || fmt = 0x13
  else if 9 ≤ op && op ≤ 11 then fmt = 0x04 || fmt = 0x0C
  else false

/-- The operation of a descriptor image for context `(c, x)`, queued. -/
def colOpOf (c : CoreId) (x : CtxId) (p idx : Nat) (task watch : Option Nat) (acq : Acq) (bs : List Byte) : ColOp :=
  let d0 := imgDw bs 0; let d2 := imgDw bs 2
  { part := p, idx := idx, op := bits d0 60 4, fmt := bits d0 48 6, count := bits d0 0 32, bucket := BitVec.ofNat 64 (imgDw bs 1),
    fe := d2.testBit 54, flag := Fin.ofNat 64 (bits d2 48 6), size := bits d2 40 8, rank := bits d2 32 8, prev := bits d2 16 16,
    nxt := bits d2 0 16, core := c, ctx := x, task := task, watch := watch, state := 1, err := 0, done := 0, acq := acq, since := 0,
    sendPos := 0, sendOff := 0, recvPos := 0, recvOff := 0, txop := 0, rxop := 0 }

/-- A connection that an operation of partition `p` may name. -/
def State.connOk (s : State) (p n : Nat) : Bool := 1 ≤ n && n ≤ 4095 && (s.conn n).live && (s.conn n).part = p

/-- The bucket lies inside its handle's bound, with the rights the operation needs. -/
def State.bucketOk (s : State) (o : ColOp) : Bool :=
  (s.dramHandle o.core o.ctx o.bucket.toNat (o.count * opBytes o.op o.fmt) (o.op ≠ 5) (opReceives o.op)).isSome

/-- The checks of R319 and R325. -/
def State.descAccept (s : State) (o : ColOp) (bs : List Byte) : Bool :=
  let d0 := imgDw bs 0; let d2 := imgDw bs 2
  bits d0 54 6 = 0 && bits d0 32 16 = 0 && bits d2 55 9 = 0 && imgDw bs 3 = 0 && opFmtOk o.op o.fmt && o.count ≠ 0 &&
  (if opRings o.op then 2 ≤ o.size && o.size ≤ 64 && o.rank < o.size else o.size = 0 && o.rank = 0) &&
  (if opReceives o.op then s.connOk o.part o.prev else o.prev = 0) && (if o.op = 5 then o.nxt = 0 else s.connOk o.part o.nxt) && s.bucketOk o

/-- Operations of the package that are queued or running. -/
def State.opsOpen (s : State) : Nat := (s.col.ops.filter fun (o : ColOp) => o.state ≠ 3).length

/-- An accepted operation enters the table; status words of the 256 operations before it stay (R327). -/
def State.queueOp (s : State) (o : ColOp) : State :=
  { s with col := { s.col with
      nextIdx := vmod s.col.nextIdx o.part fun i => i + 1
      ops := (s.col.ops.filter fun (q : ColOp) => q.state ≠ 3 || q.part ≠ o.part || q.idx + 256 ≥ o.idx) ++ [o] } }

/-! ### The schedule (R326) -/

/-- The elements of chunk `c`: first and number. -/
def ColOp.chunk (o : ColOp) (c : Nat) : Nat × Nat :=
  let a := c * o.count / o.size
  (a, (c + 1) * o.count / o.size - a)

/-- How many sends and receives an operation makes. -/
def ColOp.sends (o : ColOp) : Nat := if o.op = 2 then 2 * (o.size - 1) else if opRings o.op then o.size - 1 else if o.op = 5 then 0 else 1
def ColOp.recvs (o : ColOp) : Nat := if o.op = 2 then 2 * (o.size - 1) else if opRings o.op then o.size - 1 else if o.op = 5 then 1 else 0

/-- The elements of send `k`. -/
def ColOp.sendAt (o : ColOp) (k : Nat) : Nat × Nat :=
  if !opRings o.op then (0, o.count)
  else if o.op = 2 && k ≥ o.size - 1 then o.chunk ((o.rank + 1 + 2 * o.size - (k - (o.size - 1))) % o.size)
  else o.chunk ((o.rank + 2 * o.size - k) % o.size)

/-- The elements of receive `k`, and whether they are added to the bucket. -/
def ColOp.recvAt (o : ColOp) (k : Nat) : (Nat × Nat) × Bool :=
  if !opRings o.op then ((0, o.count), false)
  else if o.op = 2 && k ≥ o.size - 1 then (o.chunk ((o.rank + 2 * o.size - (k - (o.size - 1))) % o.size), false)
  else (o.chunk ((o.rank + 2 * o.size - k - 1) % o.size), o.op ≠ 1)

/-! ### The bucket -/

/-- A translation of a local access through handle address `haddr` failed (R231): the trap of the starting context while its task holds it,
and ERR 2. -/
def State.colFault (s : State) (o : ColOp) (haddr : Nat) (f : XFault) : State :=
  let k := s.ctx o.core o.ctx
  let s1 := s.endOp o 2
  if s.opHeld o then
    s1.raiseAt o.core o.ctx { async := false, cause := xCause f, code := 0, tag := 0, seq := k.seqAt .ctl (k.cursor .ctl).next, level := f.cls,
                              park := false, det := xDetail haddr f 4 0 0 } []
  else s1

/-- What an access to the bucket answers: a value, an operation that has ended with a fault, or a walk that starts anew (R235). -/
inductive ColRes (α : Type) where
  | ok (v : α)
  | ended
  | again
  deriving DecidableEq, Repr

/-- An access to the bucket failed. -/
def State.bucketFail {α : Type} (s s1 : State) (o : ColOp) (off va : Nat) (f : XFault) : ColRes α × State :=
  if f.cls = 0 then (.again, s) else (.ended, s1.colFault o (f.haddr (o.bucket.toNat + off) (va + off)) f)

/-- Bytes of the bucket from an offset; free where its handle is no longer bound. -/
def State.bucketRead (s : State) (o : ColOp) (off n : Nat) : ColRes (List Byte) × State :=
  match s.bucketVa o with
  | none => let f := s.freeBytes n; (.ok f.1, f.2)
  | some va => match s.readVa o.unit (some 6) 0 o.acq false (o.bucket.toNat + off) (va + off) n with
    | (.ok bs, s1) => (.ok bs, s1)
    | (.error f, s1) => s.bucketFail s1 o off va f

/-- Bytes written into the bucket at an offset. -/
def State.bucketWrite (s : State) (o : ColOp) (off : Nat) (bs : List Byte) : ColRes Unit × State :=
  match s.bucketVa o with
  | none => (.ok (), s)
  | some va => match s.writeVa o.unit (some 6) 0 (o.bucket.toNat + off) (va + off) bs with
    | (none, s1) => (.ok (), s1)
    | (some f, s1) => s.bucketFail s1 o off va f

/-! ### Running the operations -/

/-- A send of the operation may go on: what the schedule puts before it has been received. -/
def State.maySend (s : State) (o : ColOp) : Bool :=
  o.state = 2 && s.partOpen o.part && o.sendPos < o.sends && (!opRings o.op || o.recvPos ≥ o.sendPos) && (s.conn o.nxt).live && (s.conn o.nxt).window.length < 512

/-- The next packet of an operation's present send (R322: at most 4,096 bytes). -/
def State.sendSome (s : State) (o : ColOp) : State :=
  let w := opBytes o.op o.fmt
  let e := o.sendAt o.sendPos
  let total := e.2 * w
  let n := Nat.min 4096 (total - o.sendOff)
  let stepDone (off : Nat) (q : ColOp) : ColOp :=
    if off ≥ total then { q with sendPos := q.sendPos + 1, sendOff := 0 } else { q with sendOff := off }
  if n = 0 then s.modOp o.part o.idx (stepDone total)
  else match s.bucketRead o (e.1 * w + o.sendOff) n with
    | (.again, _) => s
    | (.ended, s1) => s1
    | (.ok bs, s1) =>
      let p : Packet := { seq := 0, cnt := o.txop, op := o.op, fmt := o.fmt, count := o.count, size := o.size, off := e.1 * w + o.sendOff,
                          last := o.sendOff + n ≥ total && o.sendPos + 1 = o.sends, data := bs }
      (s1.sendPacket o.nxt o.idx p).modOp o.part o.idx fun q =>
        { stepDone (o.sendOff + n) q with done := if opRings o.op then q.done else q.done + n / w }

/-- The received elements with what stands in the bucket (R326): y + bucket[q], rounded. -/
def addChunk (fmt w free : Nat) (ys bs : List Byte) : List Byte :=
  (List.range (ys.length / w)).flatMap fun i =>
    leBytes w (saeOp 1 fmt free false (leNat ((ys.drop (w * i)).take w)) (leNat ((bs.drop (w * i)).take w)) 0).1

/-- A packet whose operation differs from the one it meets (R325). -/
def ColOp.mismatches (o : ColOp) (p : Packet) : Bool :=
  if o.op = 5 then p.op ≠ 4 || p.fmt ≠ o.fmt else p.op ≠ o.op || p.fmt ≠ o.fmt || p.count ≠ o.count || p.size ≠ o.size

/-- The operation at the other end of a packet is told that it did not match (R325): a packet of the model's own kind 12, which names the
sender's count of operations (assumption log 7). -/
def State.tellMismatch (s : State) (n : Nat) (p : Packet) : State :=
  s.sendPacket n 0 { seq := 0, cnt := p.cnt, op := 12, fmt := 0, count := 0, size := 0, off := 0, last := true, data := [] }

/-- The packet does not go with what the operation receives now. -/
def ColOp.refuses (o : ColOp) (p : Packet) : Bool :=
  o.mismatches p || (opRings o.op && p.data.length > (o.recvAt o.recvPos).1.2 * opBytes o.op o.fmt - o.recvOff)

/-- The data of a matched packet is taken into the bucket; `none` where the packet has to wait for a walk (R235). -/
def State.takePacket (s : State) (n : Nat) (o : ColOp) (p : Packet) : Option State :=
  let w := opBytes o.op o.fmt
  let e := o.recvAt o.recvPos
  let total := e.1.2 * w
  let ys := p.data.take (total - o.recvOff)
  let off := e.1.1 * w + o.recvOff
  if o.refuses p then some ((s.endOp o 5).tellMismatch n p)
  else
    let r : ColRes (List Byte) × State :=
      if e.2 then match s.bucketRead o off ys.length with
        | (.ok bs, s1) => (.ok (addChunk o.fmt w (s1.freeVal 64).toNat ys bs), s1.skipFresh 1)
        | q => q
      else (.ok ys, s)
    match r with
    | (.again, _) => none
    | (.ended, s1) => some s1
    | (.ok vs, s1) =>
      match s1.bucketWrite o off vs with
      | (.again, _) => none
      | (.ended, s2) => some s2
      | (.ok _, s2) =>
        let at_ := o.recvOff + ys.length
        let o' : ColOp := { o with done := o.done + ys.length / w, recvOff := if at_ ≥ total then 0 else at_,
                                   recvPos := if at_ ≥ total then o.recvPos + 1 else o.recvPos }
        let s3 := s2.modOp o.part o.idx fun q => { q with done := o'.done, recvOff := o'.recvOff, recvPos := o'.recvPos }
        some (if o.op = 5 && p.count ≠ o.count && (at_ ≥ total || p.last) then s3.endOp o' 3 else s3)

/-- The other end has reported that operation number `cnt` of connection `n` did not match: it ends with ERR 5 (R325), and one whose packets
were all acknowledged before has ERR 5 from now on, its flag apart (DEDUCED, assumption log 57). -/
def State.takeMismatch (s : State) (n cnt : Nat) : State :=
  match s.col.ops.find? fun (o : ColOp) => o.nxt = n && o.txop = cnt && o.part = (s.conn n).part && o.op ≠ 5 && o.state ≥ 2 && o.err = 0 with
  | none => s
  | some o => if o.state = 2 then s.endOp o 5 else (s.modOp o.part o.idx fun q => { q with state := 2 }).endOp { o with state := 2 } 5

/-- Receives of chunks without elements bring no packet. -/
def ColOp.emptyRecv (o : ColOp) : Bool := o.state = 2 && opRings o.op && o.recvPos < o.recvs && o.sendPos ≥ o.recvPos && (o.recvAt o.recvPos).1.2 = 0

/-! ### Remote atomics (R331) -/

/-- Where bytes at a guest-virtual address of the target stand: device-physical pieces with their keys. -/
def State.colPlaces (s : State) (c : CoreId) (x : CtxId) (haddr va n : Nat) : Except XFault (List (Nat × Nat × Nat)) × State :=
  (pieces 3 va 0 n).foldl (fun (a : Except XFault (List (Nat × Nat × Nat)) × State) p => match a.1 with
    | .error _ => a
    | .ok l => match a.2.translate c x (some 6) (haddr + p.1) (va + p.1) .rw with
      | (.ok q, s1) => (.ok (l ++ [(q.1, q.2, p.2)]), s1)
      | (.error f, s1) => (.error f, s1)) (.ok [], s)

/-- The pieces of the element that entry index `x` of connection `n` names. -/
def State.remotePlaces (s : State) (n x : Nat) : Except XFault (List (Nat × Nat × Nat)) × State :=
  let k := s.conn n
  let c : CoreId := Fin.ofNat 128 k.core
  let y : CtxId := Fin.ofNat 4 k.ctx
  match s.dramHandle c y (k.win.toNat + 4 * x) 4 true true with
  | none => (.error { cls := 1, reason := 0, level := 0, walk := false, wr := true, va := 0, gpa := 0 }, s)
  | some i => s.colPlaces c y (k.win.toNat + 4 * x) (i.base + haddrO k.win.toNat + 4 * x) 4

/-- One entry (x, v) of a remote atomic; `false` when the target does not translate or has another key. -/
def State.remoteUpdate (s : State) (n : Nat) (p : Packet) (x v : Nat) : Bool × State :=
  let k := s.conn n
  let c : CoreId := Fin.ofNat 128 k.core
  let y : CtxId := Fin.ofNat 4 k.ctx
  if 4 * x ≥ k.wlen then (true, s)
  else match s.remotePlaces n x with
    | (.error _, s1) => (false, s1)
    | (.ok ps, s1) =>
      if ps.any s1.pieceBadKey then (false, s1)
      else match ps.find? s1.pieceStruck with
        | some b => (true, s1.softErr c y (firstBadByte s1.lineBad b.1 b.2.2) 4)
        | none =>
          let u : UnitId := { core := c, ctx := y, path := 4, chan := 2 ^ 32 + n }
          let got := ps.foldl (fun (a : List Byte × State) b => (a.1 ++ (a.2.readLatest u 0 b.1 b.2.2).1, (a.2.readLatest u 0 b.1 b.2.2).2)) ([], s1)
          let o := leNat got.1
          let s2 := got.2
          let r := saeOp (p.op - 5) p.fmt (s2.freeVal 64).toNat false o v 0
          let put := ps.foldl (fun (a : List Byte × State) b => (a.1.drop b.2.2, a.2.writeMem false u 0 b.1 (a.1.take b.2.2)))
            (leBytes 4 r.1, s2.skipFresh 1)
          (true, put.2)

/-- An entry of a remote atomic waits for a walk that starts anew (R235). -/
def State.remoteWaits (s : State) (n : Nat) (p : Packet) : Bool :=
  (List.range (p.data.length / 8)).any fun i =>
    let x := imgDw p.data i % 2 ^ 32
    4 * x < (s.conn n).wlen && match (s.remotePlaces n x).1 with | .error f => f.cls = 0 | .ok _ => false

/-- REMOTE_ATOMIC_APPLY: the entries of a packet in bucket order; a failure fails the connection. -/
def State.remoteApply (s : State) (n : Nat) (p : Packet) : State :=
  let r := (List.range (p.data.length / 8)).foldl (fun (a : Bool × State) i =>
    if !a.1 then a
    else
      let e := imgDw p.data i
      a.2.remoteUpdate n p (e % 2 ^ 32) (e / 2 ^ 32)) (true, s)
  if r.1 then r.2 else r.2.failConn n

/-! ### One action of the engine, and all that is possible now -/

/-- The running operation that a packet of connection `n` meets. -/
def State.opFor (s : State) (n : Nat) (p : Packet) : Option ColOp :=
  s.col.ops.find? fun (o : ColOp) => o.state = 2 && opReceives o.op && o.prev = n && o.rxop = p.cnt && o.part = (s.conn n).part

/-- The first packet of a connection's receive queue can be dealt with now. -/
def State.canDeliver (s : State) (n : Nat) (k : Conn) : Bool :=
  k.live && s.partOpen k.part && match k.recvq with
    | [] => false
    | p :: _ =>
      if p.op ≥ 6 then true
      else match s.opFor n p with
        | some o => if o.mismatches p then k.window.length < 512 else !opRings o.op || (o.sendPos ≥ o.recvPos && o.recvPos < o.recvs)
        | none => p.cnt < k.rxops

/-- The packet at the head of a receive queue is delivered, applied or, where its operation has ended, dropped; its slot returns. It stays
where a walk of its access starts anew (R235). -/
def State.deliver (s : State) (n : Nat) : State :=
  match (s.conn n).recvq with
  | [] => s
  | p :: rest =>
    let s1 := s.modConn n fun k => { k with recvq := rest }
    if p.op = 12 then s1.takeMismatch n p.cnt
    else if p.op ≥ 6 then (if s1.remoteWaits n p then s else s1.remoteApply n p)
    else match s1.opFor n p with
      | some o => (s1.takePacket n o p).getD s
      | none => s1

/-- A queued operation whose turn has come: operations of one watch run one after another (R329). -/
def State.startable (s : State) : Option ColOp :=
  s.col.ops.find? fun (o : ColOp) => o.state = 1 && s.partOpen o.part && !(s.col.ops.any fun (q : ColOp) =>
    o.watch.isSome && q.watch = o.watch && q.core = o.core && q.ctx = o.ctx && q.part = o.part && q.state ≠ 3 && q.idx < o.idx)

/-- An operation begins: it takes its place among those that send and receive on its connections (R325), and its bucket belongs to it
(R327). -/
def State.beginOp (s : State) (o : ColOp) : State :=
  let tx := (s.conn o.nxt).txops
  let rx := (s.conn o.prev).rxops
  let s1 := if o.op ≠ 5 && o.op < 6 then s.modConn o.nxt fun k => { k with txops := k.txops + 1 } else s
  let s2 := if opReceives o.op then s1.modConn o.prev fun k => { k with rxops := k.rxops + 1 } else s1
  s2.modOp o.part o.idx fun q => { q with state := 2, since := s.fresh, txop := tx, rxop := rx }

/-- One action: an operation begins, a packet is delivered, an empty receive is passed, or a packet is sent. -/
def State.colAct (s : State) : Option State :=
  match s.startable with
  | some o => some (s.beginOp o)
  | none => match s.col.conns.find? fun k => s.canDeliver k.1 k.2 with
    | some k => some (s.deliver k.1)
    | none => match s.col.ops.find? ColOp.emptyRecv with
      | some o => some (s.modOp o.part o.idx fun q => { q with recvPos := q.recvPos + 1 })
      | none => (s.col.ops.find? s.maySend).map s.sendSome

/-- Actions while one is possible. -/
def State.colLoop : Nat → State → State
  | 0, s => s
  | n + 1, s => match s.colAct with | some t => State.colLoop n t | none => s

/-- Everything the engine can do now: each connection holds at most 512 packets to send and 64 received, each operation makes at most
252 sends and receives. -/
def State.colRun (s : State) : State := State.colLoop (600 * s.col.conns.length + 260 * s.col.ops.length) s

/-! ### Bounce rings (R332) -/

/-- The bytes of a ring entry: the header of R332, with the packet's own fields in its free doublewords, and the payload. -/
def bounceEntry (n : Nat) (p : Packet) : List Byte :=
  ([n % 2 ^ 16 + p.seq % 2 ^ 24 * 2 ^ 24, p.data.length, 0, p.op + p.fmt * 2 ^ 8 + p.size * 2 ^ 16 + b2n p.last * 2 ^ 32, p.cnt, p.count, p.off, 0].flatMap
    (leBytes 8)) ++ p.data ++ List.replicate (alignUp p.data.length 64 - p.data.length) 0

/-- The unit of the engine's own accesses to key-0 memory. -/
def engUnit : UnitId := { core := 0, ctx := 0, path := 4, chan := 2 ^ 33 }

/-- Where a byte of the ring stands; BRHEAD and BRTAIL count bytes. -/
def State.ringAt (s : State) (pos : Nat) : Nat := (s.col.brbase + pos % Nat.max 1 s.col.brsize) % 2 ^ 38

/-- BOUNCE_RING_WRITE: `none` when the ring is full. -/
def State.bounce (s : State) (n : Nat) (p : Packet) : Option State :=
  let e := bounceEntry n p
  let used := (s.col.brhead + 2 ^ 64 - s.col.brtail % 2 ^ 64) % 2 ^ 64
  if used + e.length > s.col.brsize then none
  else
    let s1 := (List.range (e.length / 64)).foldl (fun (t : State) i =>
      let a := t.ringAt (t.col.brhead + 64 * i)
      if t.lineKey a = 0 then t.writeMem false engUnit 0 a ((e.drop (64 * i)).take 64) else t) s
    some { s1 with col := { s1.col with brhead := (s1.col.brhead + e.length) % 2 ^ 64 } }

/-- A doubleword of the ring. -/
def State.ringDw (s : State) (pos i : Nat) : Nat := leNat ((List.range 8).map fun j => s.byte (s.ringAt (pos + 8 * i) + j))

/-- The oldest unconsumed entry of a connection from a place of the ring on. -/
def State.bounceFind (s : State) (n : Nat) : Nat → Nat → Option Nat
  | 0, _ => none
  | fuel + 1, pos =>
    if pos ≥ s.col.brhead then none
    else if bits (s.ringDw pos 0) 0 16 = n && !(s.ringDw pos 2).testBit 0 then some pos
    else s.bounceFind n fuel (pos + 64 + alignUp (s.ringDw pos 1) 64)

/-- The entry that the replay of connection `n` delivers next. -/
def State.bounceNext (s : State) (n : Nat) : Option Nat := s.bounceFind n (s.col.brsize / 64 + 1) s.col.brtail

/-- The packet of a ring entry. -/
def State.bouncePacket (s : State) (pos : Nat) : Packet :=
  let d3 := s.ringDw pos 3
  let len := Nat.min 4096 (s.ringDw pos 1)
  { seq := bits (s.ringDw pos 0) 24 24, cnt := s.ringDw pos 4, op := bits d3 0 8, fmt := bits d3 8 8, count := s.ringDw pos 5, size := bits d3 16 16,
    off := s.ringDw pos 6, last := d3.testBit 32, data := (List.range len).map fun i => s.byte (s.ringAt (pos + 64 + i)) }

/-- BOUNCE_REPLAY is due: an entry is left and the receive queue has room for it, or none is left. -/
def State.replayDue (s : State) (n : Nat) : Bool :=
  let k := s.conn n
  k.live && s.partOpen k.part && k.pres && k.rpl && ((s.bounceNext n).isNone || k.recvq.length < 64)

/-- BOUNCE_REPLAY: the next entry goes through the normal receive path and is marked CONSUMED; after the last one the replay ends. -/
def execBounceReplay (n : ConnId) (s : State) : Host.Outcome State Fault Refusal :=
  if !s.replayDue n.val then .next s
  else match s.bounceNext n.val with
    | none => .next (s.modConn n.val fun k => { k with rpl := false })
    | some pos =>
      let p := s.bouncePacket pos
      let s1 := s.writeMem false engUnit 0 (s.ringAt (pos + 16)) [BitVec.ofNat 8 1]
      .next (s1.modConn n.val fun k => { k with recvq := k.recvq ++ [p] }).colRun

/-! ### Arrivals (R322, R324, R332, R334, R343) -/

/-- LATE holds for a connection's partition (R334). -/
def State.lateFor (s : State) (k : Conn) : Bool := s.col.glate && s.col.gpart.testBit k.part

/-- DARUD_PACKET_RECEIVE (R324). -/
def execDarudPacketReceive (n : ConnId) (p : Packet) (s : State) : Host.Outcome State Fault Refusal :=
  let k := s.conn n.val
  if n.val = 0 || !k.live || !s.partOpen k.part then .next s
  else if s.lateFor k then .next (s.nack n.val true)
  else if seqBelow p.seq k.rxseq then .next (s.ackNow n.val)
  else if p.seq ≠ k.rxseq then .next s
  else if !k.pres then
    match s.bounce n.val p with
    | none => .next (s.nack n.val false)
    | some s1 => .next (s1.noteAccepted n.val)
  else if k.rpl || k.recvq.length ≥ 64 then .next (s.nack n.val false)
  else .next ((s.modConn n.val fun k => { k with recvq := k.recvq ++ [p] }).noteAccepted n.val).colRun

/-- DARUD_ACK_RECEIVE: cumulative, every packet before the number. -/
def execDarudAckReceive (n : ConnId) (seq : Nat) (s : State) : Host.Outcome State Fault Refusal :=
  let k := s.conn n.val
  let left := k.window.dropWhile fun w => seqBelow w.2.seq seq
  if !k.live || left.length = k.window.length then .next s
  else .next ((s.modConn n.val fun k => { k with
    window := left, nacks := 0, rounds := 0, rtoDue := if left.isEmpty then none else some (s.cycle + usCycles k.rto)
    backoff := match k.backoff with | some b => if seqBelow b.2 seq then none else some b | none => none }).colRun)

/-- DARUD_NACK_RECEIVE: the sender backs off, longer with every NACK that brings no progress. -/
def execDarudNackReceive (n : ConnId) (seq : Nat) (late : Bool) (s : State) : Host.Outcome State Fault Refusal :=
  let k := s.conn n.val
  if !k.live || !(k.window.any fun w => w.2.seq = seq) then .next s
  else .next (s.modConn n.val fun k => { k with backoff := some (s.cycle + k.bo * 2 ^ Nat.min 6 k.nacks, seq), late := late, nacks := k.nacks + 1 })

/-- A back-off is over. -/
def State.backoffDue (s : State) (n : Nat) : Bool :=
  (s.conn n).live && s.partOpen (s.conn n).part && match (s.conn n).backoff with | some b => b.1 ≤ s.cycle | none => false

/-- BACKOFF_EXPIRE. -/
def execBackoffExpire (n : ConnId) (s : State) : Host.Outcome State Fault Refusal :=
  match (s.conn n.val).backoff with
  | some b => if s.backoffDue n.val then .next (s.resend n.val b.2 (s.conn n.val).late) else .next s
  | none => .next s

/-- RTO has passed without progress. -/
def State.rtoDue (s : State) (n : Nat) : Bool :=
  (s.conn n).live && s.partOpen (s.conn n).part && !(s.conn n).window.isEmpty && match (s.conn n).rtoDue with | some t => t ≤ s.cycle | none => false

/-- RETRANSMIT_TIMEOUT: from the oldest packet. -/
def execRetransmitTimeout (n : ConnId) (s : State) : Host.Outcome State Fault Refusal :=
  match (s.conn n.val).window with
  | w :: _ => if s.rtoDue n.val then .next (s.resend n.val w.2.seq false) else .next s
  | [] => .next s

/-- An acknowledgement is owed. -/
def State.ackDue (s : State) (n : Nat) : Bool :=
  (s.conn n).live && s.partOpen (s.conn n).part && match (s.conn n).ackDue with | some t => t ≤ s.cycle | none => false

/-- ACK_TIMER. -/
def execAckTimer (n : ConnId) (s : State) : Host.Outcome State Fault Refusal := if s.ackDue n.val then .next (s.ackNow n.val) else .next s

/-- CONNECTION_INVALIDATE (R323): V is cleared. -/
def execConnectionInvalidate (n : ConnId) (s : State) : Host.Outcome State Fault Refusal := .next (s.clearConn n.val 2)

/-- The bytes a Darud frame's packet carries. -/
def FrameBody.payload : FrameBody → Nat
  | .darudData _ p => p.data.length
  | _ => 0

/-- A frame is dropped and counted. -/
def State.dropFrame (s : State) (port : Fin 2) : State := { s with col := { s.col with dropped := vmod s.col.dropped port.val fun n => n + 1 } }

/-- What a frame for DPORT brings becomes an event of the engine. -/
def State.darudEvent (s : State) (i : Instr) : State := { s with inputs := (s.cycle, .ev i) :: s.inputs }

/-- FRAME_RECEIVE (R322, R334): checked, dropped, or routed by its UDP port. -/
def execFrameReceive (port : Fin 2) (f : Frame) (s : State) : Host.Outcome State Fault Refusal :=
  let mine (n : ConnId) : Bool := (s.conn n.val).port = port.val
  if !f.ipv6Udp || !f.checksOk || FrameBody.payload f.body > 4096 then .next (s.dropFrame port)
  else if f.udpPort = s.col.dport then
    match f.body with
    | .darudData n p => .next (if mine n then s.darudEvent (.darudPacketReceive n p) else s.dropFrame port)
    | .darudAck n q => .next (if mine n then s.darudEvent (.darudAckReceive n q) else s.dropFrame port)
    | .darudNack n q l => .next (if mine n then s.darudEvent (.darudNackReceive n q l) else s.dropFrame port)
    | _ => .next (s.dropFrame port)
  else if f.udpPort = 319 || f.udpPort = 320 then
    match f.body with
    | .ptp true _ => .next { s with col := { s.col with stamps := s.col.stamps ++ [(false, port.val, s.gtime)] } }
    | .ptp false _ => .next s
    | _ => .next (s.dropFrame port)
  else if f.udpPort = s.col.mport && s.host.stage = 4 then
    match f.body with
    | .management d => .next { s with col := { s.col with mgmt := s.col.mgmt ++ [d] } }
    | _ => .next (s.dropFrame port)
  else .next (s.dropFrame port)

/-- LINK_BRING_UP (R15, R322): at 800 or 400 Gbit/s. -/
def execLinkBringUp (port : Fin 2) (full : Bool) (s : State) : Host.Outcome State Fault Refusal :=
  .next { s with col := { s.col with linkUp := s.col.linkUp.set port true, linkFull := s.col.linkFull.set port full } }

/-! ### Starting and ending operations (R327 to R330) -/

/-- CSUBMIT (R328): the reply is the operation's index, 0 when refused. -/
def execCsubmit (d a : SReg) (s : State) : Host.Outcome State Fault Refusal :=
  let c := s.cur.core; let x := s.cur.ctx; let p := s.myPart
  let w := (s.rdS a).toNat
  match s.dramHandle c x w 32 true false with
  | none => if s.xcmdReady then .next (s.trapHandles [w] 0 false) else s.hold
  | some i =>
    if !s.xcmdReady then s.hold
    else match s.readVa (ctlUnit c x) none 0 s.acqNow true w (i.base + haddrO w) 32 with
      | (.error f, _) => .next (s.trapXlate (f.haddr w (i.base + haddrO w)) f 0)
      | (.ok bs, t0) =>
        let t := t0.issued
        let o := colOpOf c x p (t.nextOpIdx p) s.me.task none { t.acqNow with floors := s.me.acq.floors } bs
        if !t.descAccept o bs || t.opsOpen ≥ 256 then .next (t.reply d 0)
        else match t.dispLog p 8 s.myTask s.myTask 0 [] [] with
          | (false, t1) => .next (t1.reply d 0)
          | (true, t1) => .next ((t1.queueOp o).colRun.reply d (BitVec.ofNat 64 o.idx))

/-- The device-physical address of a watched word: an 8-byte aligned word that may be read and written. -/
def State.watchWord (s : State) (w : Nat) : Option (Except XFault Nat) :=
  match s.dramHandle s.cur.core s.cur.ctx w 8 true true with
  | none => none
  | some i =>
    if w % 8 ≠ 0 then none
    else match (s.translate s.cur.core s.cur.ctx none w (i.base + haddrO w) .rd).1 with
      | .ok q => some (.ok q.1)
      | .error f => some (.error f)

/-- CWATCH (R328): at most 32 watches; the same word again takes the new descriptor. -/
def execCwatch (a b : SReg) (s : State) : Host.Outcome State Fault Refusal :=
  let w := (s.rdS a).toNat
  let desc := (s.rdS b).toNat
  if !s.xcmdReady then s.hold
  else if (s.dramHandle s.cur.core s.cur.ctx desc 32 true false).isNone then .next (s.trapHandles [desc, w] 0 false)
  else match s.watchWord w with
    | none => .next (s.trapHandles [w] 0 false)
    | some (.error f) => .next (s.trapXlate w f 0)
    | some (.ok pa) =>
      if s.me.watches.any fun q => q.1 = pa then
        .next (s.issued.modMe fun k => { k with watches := k.watches.map fun q => if q.1 = pa then (pa, w, desc) else q })
      else if s.me.watches.length ≥ 32 then .next s.trapRange
      else .next (s.issued.modMe fun k => { k with watches := k.watches ++ [(pa, w, desc)] })

/-- CUNWATCH (R328): an unwatched word is no error. -/
def execCunwatch (a : SReg) (s : State) : Host.Outcome State Fault Refusal :=
  let w := (s.rdS a).toNat
  if !s.xcmdReady then s.hold
  else match s.watchWord w with
    | none => .next (s.trapHandles [w] 0 false)
    | some (.error f) => .next (s.trapXlate w f 0)
    | some (.ok pa) => .next (s.issued.modMe fun k => { k with watches := k.watches.filter fun q => q.1 ≠ pa && q.2.1 ≠ w })

/-- A status word (R327). -/
def ColOp.status (o : ColOp) : Nat := o.state * 2 ^ 62 + o.err * 2 ^ 58 + o.done % 2 ^ 32

/-- CPOLL (R327, R328): 0 for an unknown or retired index. -/
def execCpoll (d a : SReg) (s : State) : Host.Outcome State Fault Refusal :=
  if !s.xcmdReady then s.hold
  else
    let p := s.myPart
    let i := (s.rdS a).toNat
    let v := match s.col.ops.find? fun (o : ColOp) => o.part = p && o.idx = i && i + 256 ≥ s.nextOpIdx p - 1 with
      | some o => o.status
      | none => 0
    .next (s.issued.reply d (BitVec.ofNat 64 v))

/-- A watched start was refused (R329, R330). -/
def Ctx.colRefused (k : Ctx) : Ctx := { k with clstat := k.clstat ||| 2, evt := true }

/-- WATCHED_START (R329): once the store is performed with respect to the engine, it reads the descriptor, after an acquire at POD where the
store was a release store (R300). In a partition that is fenced nothing starts (R343). -/
def execWatchedStart (c : CoreId) (x : CtxId) (s : State) : Host.Outcome State Fault Refusal :=
  match (s.ctx c x).pendWatch.find? fun q => q.2.2.2 ≤ s.cycle with
  | none => .next s
  | some q =>
    let s0 := s.modCtx c x fun k => { k with pendWatch := k.pendWatch.erase q }
    let p := s0.partOf c x
    let desc := q.2.2.1
    let floors := (s.ctx c x).acq.floors
    let acq : Acq := if q.2.1 = 1 then { s0.acqNow with scope := 3, floors := floors } else { Acq.first with floors := floors }
    let u : UnitId := { core := c, ctx := x, path := 4, chan := 2 ^ 34 }
    if !s.partOpen p then .next s0
    else match s0.dramHandle c x desc 32 true false with
    | none => .next (s0.modCtx c x Ctx.colRefused)
    | some i => match s0.readVa u (some 6) 0 acq false desc (i.base + haddrO desc) 32 with
      | (.error f, s1) =>
        .next (if f.cls = 0 then s0.modCtx c x fun k => { k with pendWatch := (q.1, q.2.1, desc, s.cycle + 1) :: k.pendWatch }
               else s1.modCtx c x Ctx.colRefused)
      | (.ok bs, s1) =>
        let o := colOpOf c x p (s1.nextOpIdx p) (s1.ctx c x).task (some q.1) acq bs
        if !s1.descAccept o bs || s1.opsOpen ≥ 256 then .next (s1.modCtx c x Ctx.colRefused)
        else match s1.dispLog p 8 (s1.taskNum c x) (s1.taskNum c x) 0 [] [] with
          | (false, s2) => .next s2
          | (true, s2) => .next ((s2.queueOp o).modCtx c x fun k => { k with clidx := o.idx }).colRun

/-- An operation has made every send and receive, its writes are performed with respect to the issuer's core, and its packets are
acknowledged (R327). -/
def State.opFinished (s : State) (o : ColOp) : Bool :=
  o.state = 2 && o.sendPos ≥ o.sends && o.recvPos ≥ o.recvs &&
  (opReceives o.op || !((s.conn o.nxt).window.any fun w => w.1 = o.idx)) &&
  (s.hist.all fun e => e.unit ≠ o.unit || e.arr o.core.val ≤ s.cycle)

/-- Another party has written into the bucket since the operation began (R327); every write takes a tag above those before it. -/
def State.bucketForeign (s : State) (o : ColOp) : Bool :=
  let n := o.count * opBytes o.op o.fmt
  let others := s.hist.filter fun (e : HistEntry) => !e.host && o.since ≤ e.tag && e.unit ≠ o.unit
  !others.isEmpty && (s.bucketPieces o 0 n).any fun p => others.any fun e => p.1 ≤ e.addr && e.addr < p.1 + p.2.2

/-- What of the bucket a completed operation leaves undefined: all of it where another party wrote there (R327), and after OP 3 every
chunk but (rank + 1) mod SIZE (R326). -/
def State.bucketEnd (s : State) (o : ColOp) : State :=
  let w := opBytes o.op o.fmt
  if s.bucketForeign o then s.bucketSpoil o 0 (o.count * w)
  else if o.op = 3 then
    let e := o.chunk ((o.rank + 1) % o.size)
    (s.bucketSpoil o 0 (e.1 * w)).bucketSpoil o ((e.1 + e.2) * w) ((o.count - (e.1 + e.2)) * w)
  else s

/-- COLLECTIVE_OP_COMPLETE (R327, R330). -/
def execCollectiveOpComplete (p : PartId) (idx : Nat) (s : State) : Host.Outcome State Fault Refusal :=
  match s.col.ops.find? fun (o : ColOp) => o.part = p.val && o.idx = idx with
  | none => .next s
  | some o =>
    if !s.opFinished o then .next s
    else .next (((s.bucketEnd o).modOp p.val idx fun o => { o with done := o.count }).endOp o 0).colRun

/-! ### Gang slices (R334) -/

/-- GTIME has reached GSTART. -/
def State.gangDue (s : State) : Bool := !s.col.gangDone && s.col.gstart ≤ s.gtime

/-- GANG_START: LATE where READY is still 0. -/
def execGangStart (s : State) : Host.Outcome State Fault Refusal :=
  .next { s with col := { s.col with gangDone := true, glate := s.col.glate || !s.col.gready } }

/-- GSTAT_READY: READY written 1. -/
def execGstatReady (s : State) : Host.Outcome State Fault Refusal := .next s.gReady

/-- GSTAT_ABORT: ABORT written 1. -/
def execGstatAbort (s : State) : Host.Outcome State Fault Refusal := .next s.gAbort

end Sys2Proof.Machine
end

