-- ==== Sys2Proof/Machine/Fur.lean ====
section
/-! DEFINITION. Sys2Proof/Machine/Fur.lean: the furrow coder (R236 to R259). A word's effect is made when it issues, under the shadow of
R246, which a stop or a fault before its completion brings back. -/

namespace Sys2Proof.Machine

/-! ### Furrows (R239, R242) -/

/-- SL and DD. -/
def Furrow.sl (f : Furrow) : Nat := f.base + f.top.length
def Furrow.dd (f : Furrow) : Nat := f.dbase + f.dtop.length

/-- The furrow would be full with this many stream words and entries (R244). -/
def Furrow.overflows (f : Furrow) (words entries : Nat) : Bool := 2 * words + 32 * entries > f.size

/-- append(v) (R242). -/
def Furrow.append (f : Furrow) (v : Nat) : Furrow := { f with top := BitVec.ofNat 16 v :: f.top }

/-- A lane state. -/
def Furrow.lane (f : Furrow) (j : Nat) : Nat := (vget f.x j 0).toNat

/-- A lane state set. -/
def Furrow.setLane (f : Furrow) (j v : Nat) : Furrow := { f with x := vmod f.x j fun _ => BitVec.ofNat 32 v }

/-- Some lane stands outside [2^16, 2^32) (R255). -/
def Furrow.badLane (f : Furrow) : Bool := (List.range f.lc).any fun j => f.lane j < 2 ^ 16

/-- The cumulative value c of a symbol (R240). -/
def FTable.cum (t : FTable) (s : Nat) : Nat := ((t.f.toList).take s).sum

/-- The frequency of a symbol. -/
def FTable.freq (t : FTable) (s : Nat) : Nat := vget t.f s 0

/-- The symbol of a slot value: symbol, its cumulative value (R243). -/
def findSym (slot : Nat) : List Nat → Nat → Nat → Nat × Nat
  | [], s, c => (s, c)
  | f :: r, s, c => if slot < c + f then (s, c) else findSym slot r (s + 1) (c + f)

/-- The stream words a symbol emits (R242): at most `fuel`. -/
def renorm (lim : Nat) : Nat → Nat → Furrow → Nat × Furrow
  | 0, x, f => (x, f)
  | n + 1, x, f => if x ≥ lim then renorm lim n (x / 2 ^ 16) (f.append (x % 2 ^ 16)) else (x, f)

/-- One symbol coded into lane `j` (R242); `none` when f_s = 0. -/
def Furrow.pushSym (f : Furrow) (t : FTable) (j s : Nat) : Option Furrow :=
  let fs := t.freq s
  if fs = 0 then none
  else
    let r := renorm (2 ^ (32 - t.n) * fs) 2 (f.lane j) f
    some (r.2.setLane j (r.1 / fs * 2 ^ t.n + r.1 % fs + t.cum s))

/-- The bypass block appended (R242). -/
def Furrow.appendByp (f : Furrow) (byp : List Nat) : Furrow :=
  (List.range (ceilDiv byp.length 2)).foldl (fun (f : Furrow) k => f.append (byp.getD (2 * k) 0 + 256 * byp.getD (2 * k + 1) 0)) f

/-- The symbol and the bypass byte of a code (R241). -/
def symOf (w v : Nat) : Nat := if w = 16 then v / 256 % 256 else v % 2 ^ w
def bypOf (v : Nat) : Nat := v % 256

/-- A tile coded (R242): `none` when a symbol has frequency 0. -/
def Furrow.pushTile (f : Furrow) (t : FTable) (w : Nat) (codes : List Nat) : Option Furrow :=
  let r := (codes.zipIdx.reverse).foldl (fun (a : Option Furrow) p => a.bind fun f => f.pushSym t (p.2 % f.lc) (symOf w p.1)) (some f)
  r.map fun f => if w = 16 then f.appendByp (codes.map bypOf) else f

/-- The lane flush (R251). -/
def Furrow.flush (f : Furrow) : Furrow :=
  (List.range f.lc).foldl (fun (g : Furrow) j => (g.append (f.lane j % 2 ^ 16)).append (f.lane j / 2 ^ 16)) f

/-- A directory entry pushed. -/
def Furrow.pushEntry (f : Furrow) (e : DirEntry) : Furrow := { f with dtop := e :: f.dtop }

/-- A directory entry as 32 bytes (R245). -/
def DirEntry.bytes (e : DirEntry) : List Byte :=
  leBytes 8 (pack [(32, e.spos), (32, e.count)]) ++
    leBytes 8 (pack [(6, e.fmt), (8, e.bias), (6, e.ln), (3, e.tb), (1, b2n e.child), (40, 0)]) ++ leBytes 8 e.region.toNat ++ leBytes 8 e.size

/-- A directory entry read from its bytes. -/
def dirEntryOf (bs : List Byte) : DirEntry :=
  let a := imgDw bs 0; let b := imgDw bs 1
  { spos := bits a 32 32, count := bits a 0 32, fmt := bits b 58 6, bias := bits b 50 8, ln := bits b 44 6, tb := bits b 41 3,
    child := bits b 40 1 = 1, region := BitVec.ofNat 64 (imgDw bs 2), size := imgDw bs 3 }

/-- A furrow opened with `lc` lanes on a region, empty (R250). -/
def Furrow.fresh (lc : Nat) (region : Word) (size cycle : Nat) (child : Bool) (parent : Nat) : Furrow :=
  { Furrow.reset with opened := true, lc := lc, x := Vector.replicate 64 0x10000, region := region, size := size, child := child,
                      parent := parent, since := cycle }

/-! ### The region (R244) -/

/-- The unit of the coder. -/
def furUnit (c : CoreId) (x : CtxId) : UnitId := { core := c, ctx := x, path := 3, chan := 0 }

/-- Guest-virtual address of a handle address, where the handle is bound. -/
def State.furVa (s : State) (c : CoreId) (x : CtxId) (haddr : Nat) (wr : Bool := false) : Except XFault (Option Nat) × State :=
  match s.handle c x (haddrH haddr) 3 wr with
  | (.fault f, s1) => (.error f, s1)
  | (.unbound, s1) => (.ok none, s1)
  | (.bound i, s1) => (.ok (some (i.base + haddrO haddr)), s1)

/-- What a read or a write of the coder answers: a translation fault with its handle address, or a value. -/
abbrev FurRes (α : Type) := Except (Nat × XFault) α

/-- Bytes read on the FUR path at a handle address. -/
def State.furRead (s : State) (c : CoreId) (x : CtxId) (cls : Nat) (q : Acq) (haddr n : Nat) : FurRes (List Byte) × State :=
  match s.furVa c x haddr with
  | (.error f, s1) => (.error (haddr, f), s1)
  | (.ok none, s1) => let r := s1.freeBytes n; (.ok r.1, r.2)
  | (.ok (some va), s1) => match s1.readVa (furUnit c x) (some 5) cls q false haddr va n with
    | (.error f, s2) => (.error (f.haddr haddr va, f), s2)
    | (.ok bs, s2) => (.ok bs, s2)

/-- Bytes written on the FUR path at a handle address. -/
def State.furWrite (s : State) (c : CoreId) (x : CtxId) (cls haddr : Nat) (bs : List Byte) : Option (Nat × XFault) × State :=
  match s.furVa c x haddr true with
  | (.error f, s1) => (some (haddr, f), s1)
  | (.ok none, s1) => (none, s1)
  | (.ok (some va), s1) => match s1.writeVa (furUnit c x) (some 5) cls haddr va bs with
    | (some f, s2) => (some (f.haddr haddr va, f), s2)
    | (none, s2) => (none, s2)

/-- take() (R243): the newest stream word, from the die or read back from the region. -/
def State.furTake (s : State) (c : CoreId) (x : CtxId) (cls : Nat) (q : Acq) (f : Furrow) : FurRes Nat × State × Furrow :=
  match f.top with
  | v :: r => (.ok v.toNat, s, { f with top := r })
  | [] =>
    if f.base = 0 then (.ok 0, s, f)
    else match s.furRead c x cls q (f.region.toNat + 2 * (f.base - 1)) 2 with
      | (.error e, s1) => (.error e, s1, f)
      | (.ok bs, s1) => (.ok (leNat bs), s1, { f with base := f.base - 1 })

/-- The top directory entry, brought onto the die if it stands in the region. -/
def State.furTop (s : State) (c : CoreId) (x : CtxId) (cls : Nat) (q : Acq) (f : Furrow) : FurRes (Option DirEntry) × State × Furrow :=
  match f.dtop with
  | e :: _ => (.ok (some e), s, f)
  | [] =>
    if f.dbase = 0 then (.ok none, s, f)
    else match s.furRead c x cls q (f.region.toNat + f.size - 32 * f.dbase) 32 with
      | (.error e, s1) => (.error e, s1, f)
      | (.ok bs, s1) => let e := dirEntryOf bs; (.ok (some e), s1, { f with dbase := f.dbase - 1, dtop := [e] })

/-- The `n` oldest stream words on the die written to the region. -/
def State.furSpill (s : State) (c : CoreId) (x : CtxId) (cls n : Nat) (f : Furrow) : Option (Nat × XFault) × State × Furrow :=
  let ws := (f.top.drop (f.top.length - n)).reverse
  match s.furWrite c x cls (f.region.toNat + 2 * f.base) (ws.flatMap fun w => leBytes 2 w.toNat) with
  | (some e, s1) => (some e, s1, f)
  | (none, s1) => (none, s1.count c x 0x2A ws.length, { f with top := f.top.take (f.top.length - n), base := f.base + ws.length })

/-- The oldest directory entry on the die written to the region. -/
def State.furSpillDir (s : State) (c : CoreId) (x : CtxId) (cls : Nat) (f : Furrow) : Option (Nat × XFault) × State × Furrow :=
  match f.dtop.getLast? with
  | none => (none, s, f)
  | some e =>
    match s.furWrite c x cls (f.region.toNat + f.size - 32 * (f.dbase + 1)) e.bytes with
    | (some q, s1) => (some q, s1, f)
    | (none, s1) => (none, s1, { f with dtop := f.dtop.dropLast, dbase := f.dbase + 1 })

/-- Every entry on the die written to the region, oldest first. -/
def State.furSpillDirs (c : CoreId) (x : CtxId) (cls : Nat) : Nat → State → Furrow → Option (Nat × XFault) × State × Furrow
  | 0, s, f => (none, s, f)
  | n + 1, s, f =>
    match s.furSpillDir c x cls f with
    | (some e, s1, g) => (some e, s1, g)
    | (none, s1, g) => State.furSpillDirs c x cls n s1 g

/-- The whole stream and directory performed to the region (R244). -/
def State.furPerform (s : State) (c : CoreId) (x : CtxId) (cls : Nat) (f : Furrow) : Option (Nat × XFault) × State × Furrow :=
  match s.furSpill c x cls f.top.length f with
  | (some e, s1, g) => (some e, s1, g)
  | (none, s1, g) => State.furSpillDirs c x cls g.dtop.length s1 g

/-- A unit has written into the furrow's region since the cycle it holds; the context's own FUR counts where `own` says so. -/
def State.furWritten (s : State) (c : CoreId) (x : CtxId) (f : Furrow) (own : Bool) : Bool :=
  let others := s.hist.filter fun e => !e.host && f.since ≤ e.at_ && (own || e.unit ≠ furUnit c x)
  !others.isEmpty && match (s.furVa c x f.region.toNat).1 with
    | .ok (some v) => (List.range (f.size / 64 + 1)).any fun i =>
        64 * i < f.size && match (s.translate c x (some 5) 0 (v + 64 * i) .rd).1 with
          | .ok p => others.any fun e => p.1 ≤ e.addr && e.addr < p.1 + Nat.min 64 (f.size - 64 * i)
          | .error _ => false
    | _ => false

/-- Another unit has written into the furrow's region since it was opened (R244). -/
def State.furForeign (s : State) (c : CoreId) (x : CtxId) (f : Furrow) : Bool := s.furWritten c x f false

/-- A furrow of a core. -/
def Core.fur (k : Core) (fn : FurNo) : Furrow := k.furs[fn]
def Core.setFur (k : Core) (fn : FurNo) (f : Furrow) : Core := { k with furs := k.furs.set fn f }

/-- The region of furrow `g` shares bytes with the `n` bytes at a handle address. -/
def State.furMeets (s : State) (c : CoreId) (x : CtxId) (haddr n : Nat) (g : Furrow) : Bool :=
  let va (a : Nat) : Option Nat := match (s.furVa c x a).1 with | .ok v => v | .error _ => none
  match va haddr, va g.region.toNat with
  | some a, some b => decide (a < b + g.size) && decide (b < a + n)
  | _, _ => false

/-- The word wrote into `n` bytes at a handle address: the later pops of every other open furrow whose region they meet are undefined
(R244), and stay so if the word is rolled back. -/
def State.furHit (s : State) (c : CoreId) (x : CtxId) (fn : FurNo) (haddr n : Nat) : State :=
  let hit (v : Vector Furrow 16) : Vector Furrow 16 := Vector.ofFn fun i : Fin 16 =>
    let g := v[i]
    if i ≠ fn && g.opened && s.furMeets c x haddr n g then { g with loose := true } else g
  s.modCore c fun k => { k with furs := hit k.furs, fcmd := k.fcmd.map fun (m : FCmd) => { m with shFur := hit m.shFur } }

/-! ### Headers -/

/-- A run of elements of a tensor read as codes: ABUF directly, DRAM on the FUR path; an all-zero block reads as zeros (R125). -/
def State.furRow (s : State) (c : CoreId) (x : CtxId) (cls : Nat) (q : Acq) (t : Tensor) (p : Nat × Nat × Nat) : FurRes (List Nat) × State :=
  let keep (i v : Nat) : Nat := if t.bse && ((s.core c).blockScale t p.1 (p.2.1 + i)).isNone then 0 else v
  let codes (v : Nat) : List Nat := (List.range p.2.2).map fun i => keep i (v / 2 ^ (t.w * i) % 2 ^ t.w)
  if t.buf ≠ 0 then (.ok ((List.range p.2.2).map fun i => keep i ((s.core c).bufElem t.buf 0 (t.bitAt p.1 (p.2.1 + i)) t.w)), s)
  else
    let b := t.byteAt p.1 p.2.1
    match s.furRead c x cls q (t.handle * 2 ^ 48 + b.1) (ceilDiv (b.2 + p.2.2 * t.w) 8) with
    | (.error e, s1) => (.error e, s1)
    | (.ok bs, s1) => (.ok (codes (leNat bs / 2 ^ b.2)), s1)

/-- The runs of a header that hold the first `n` bytes of its byte image, in the order of R241 (R249). -/
def Tensor.headRuns (t : Tensor) (n : Nat) : List (Nat × Nat × Nat) := let m := ceilDiv (n * 8) t.w; runsFrom t.d0 (m + 1) 0 m

/-- The first 32 bytes of the transposed entry 0 of a TR = 1 header (R179), codes unchanged (R241; assumption log 56). -/
def Core.trHead (k : Core) (t : Tensor) : Nat :=
  let xs := (List.range 16).map fun i => k.bufElem 1 0 ((t.base + i) * 4096) 16
  if t.w = 16 then xs.foldr (fun v a => v + a * 2 ^ 16) 0
  else (xs.map (· % 256) ++ xs.map (· / 256)).foldr (fun v a => v + a * 2 ^ 8) 0

/-- The first `n` bytes of a header's byte image (R249). -/
def State.furImage (s : State) (c : CoreId) (x : CtxId) (cls : Nat) (q : Acq) (t : Tensor) (n : Nat) : FurRes (List Byte) × State :=
  let s0 := s.readStruck c x 3 (if t.buf = 0 then [] else [(1, (t.headRuns n).foldl (fun a p => a ||| t.runLines p) 0)])
  if t.tr then (.ok (leBytes n ((s.core c).trHead t)), s0)
  else
    let r := (t.headRuns n).foldl (fun (a : FurRes (List Nat) × State) p =>
      match a.1 with
      | .error _ => a
      | .ok l => match a.2.furRow c x cls q t p with
        | (.error e, s1) => (.error e, s1)
        | (.ok m, s1) => (.ok (l ++ m), s1)) (.ok [], s0)
    match r with
    | (.error e, s1) => (.error e, s1)
    | (.ok l, s1) => (.ok (leBytes n (l.foldr (fun v a => v + a * 2 ^ t.w) 0)), s1)

/-- Bytes of a header's byte image. -/
def Tensor.imageBytes (t : Tensor) : Nat := t.size * t.w / 8

/-- The ABUF lines, and the byte spans of ABUF, that hold the first `n` bytes of a header's byte image. -/
def Tensor.headLines (t : Tensor) (n : Nat) : Nat := (t.headRuns n).foldl (fun a p => a ||| t.runLines p) 0
def Tensor.headSpans (t : Tensor) (n : Nat) : List (Nat × Nat) :=
  (t.headRuns n).map fun p => let b := t.bitAt p.1 p.2.1; (b / 8, ceilDiv (b % 8 + p.2.2 * t.w) 8)

/-- A code of an image written in ABUF; not in an all-zero block (R125). -/
def Core.putImageAt (k : Core) (t : Tensor) (r i0 v : Nat) : Core :=
  if t.bse && (k.blockScale t r i0).isNone then k else k.putAt t r i0 v

/-- Bytes written into the head of a header's byte image, in a typed buffer or DRAM (R249, R251). -/
def State.furPutImage (s : State) (c : CoreId) (x : CtxId) (cls : Nat) (t : Tensor) (bs : List Byte) : Option (Nat × XFault) × State :=
  let runs := if t.bse then (t.headRuns bs.length).flatMap fun p => (List.range p.2.2).map fun i => (p.1, p.2.1 + i, 1) else t.headRuns bs.length
  runs.foldl (fun (a : (Option (Nat × XFault) × State) × Nat) p =>
    let v := a.2 % 2 ^ (t.w * p.2.2)
    let rest := a.2 / 2 ^ (t.w * p.2.2)
    match a.1 with
    | (some e, s1) => ((some e, s1), rest)
    | (none, s1) =>
      if t.buf ≠ 0 then
        ((none, s1.modCore c fun k => (List.range p.2.2).foldl (fun (k : Core) i => k.putImageAt t p.1 (p.2.1 + i) (v / 2 ^ (t.w * i) % 2 ^ t.w)) k), rest)
      else if t.bse && ((s1.core c).blockScale t p.1 p.2.1).isNone then ((none, s1), rest)
      else
        let b := t.byteAt p.1 p.2.1
        let haddr := t.handle * 2 ^ 48 + b.1
        match s1.furVa c x haddr true with
        | (.error f, s2) => ((some (haddr, f), s2), rest)
        | (.ok none, s2) => ((none, s2), rest)
        | (.ok (some va), s2) => match s2.putDram (furUnit c x) (some 5) cls haddr va b.2 (p.2.2 * t.w) v with
          | (some f, s3) => ((some (f.haddr haddr va, f), s3), rest)
          | (none, s3) => ((none, s3), rest)) ((none, s), leNat bs) |>.1

/-- The checks that tile headers share (R252, R253): ABUF, TR, SPS and BSE 0, lines in the grant. -/
def State.furTile (s : State) (h : Header) : Option Tensor :=
  match s.myCore.tensor h 8 with
  | some t => if t.buf = 1 && !t.tr && t.sps = 0 && !t.bse && s.myGrant.covers 1 t.mask then some t else none
  | none => none

/-- A DRAM or ABUF header of a byte image (R249, R251, R255), transposed only to be read (R179), with a plane it may carry (R125). -/
def State.furPlace (s : State) (h : Header) (wr : Bool) : Option Tensor :=
  match s.myCore.tensor h 8 with
  | some t =>
    if (t.tr && (wr || !t.trOk)) || !t.planeOk s.myGrant then none
    else if t.buf = 0 then (if s.dramOk s.cur.core s.cur.ctx t wr then some t else none)
    else if t.buf = 1 && s.myGrant.covers 1 t.mask then some t else none
  | none => none

/-- A spill region may be used (R244): its handle is bound to DRAM, allows reads and writes, and its bound holds the region. -/
def State.regionOk (s : State) (c : CoreId) (x : CtxId) (region : Word) (size : Nat) : Bool :=
  match (s.handle c x (haddrH region.toNat) 3).1 with
  | .bound i => i.kind = 1 && i.w && i.rd && haddrO region.toNat + size ≤ i.len
  | _ => false

/-- The spill region of a header (R244): handle address and size. -/
def State.furRegion (s : State) (h : Header) : Option (Word × Nat) :=
  match s.myCore.headFmt h with
  | none => none
  | some f =>
    let z := hdim h 4 * hdim h 5 * hdim h 6 * hdim h 7
    let off := hf h 2
    let r := BitVec.ofNat 64 (hf h 1 * 2 ^ 48 + off)
    if hf h 11 = 0 && (f = 0 || f = 0x0A) && (tensorAs h f 8).planeOk s.myGrant && hf h 8 = 0 && hf h 9 = 0 && hf h 17 = 0 && off % 64 = 0 && hf h 4 % 64 = 0 && 128 ≤ z &&
        z ≤ 2 ^ 32 - 64 then
      (if s.regionOk s.cur.core s.cur.ctx r z then some (r, z) else none)
    else none

/-- The trap of a FUR word whose header `h` does not allow it: where it names DRAM and its handle cannot be fetched, that fetch's (R231). -/
def State.trapHead (s : State) (h : Header) (wr : Bool) : State :=
  if hf h 11 = 0 then s.trapHandles [hf h 1 * 2 ^ 48] 3 wr else s.trapRange

/-! ### Issue, traps and the shadow (R246, R247) -/

/-- Marks that name a furrow become invalid where `p` says so. -/
def Core.dropMarks (k : Core) (fn : FurNo) (p : FMark → Bool) : Core :=
  { k with marks := k.marks.map fun (m : FMark) => if m.valid && m.fn = fn.val && p m then { m with valid := false } else m }

/-- The word issues with its record and shadow; `f` makes its effect. -/
def State.furGo (s : State) (h : HOp) (cycles kind : Nat) (ins : Option Instr) (hdr : Header) (hfmt : Nat) (fp : Access4) (spoil : List (Nat × Nat))
    (f : State → State) : Host.Outcome State Fault Refusal :=
  match s.headWord with
  | none => .next s.issued
  | some e =>
    let k := s.myCore
    let m : FCmd := { due := s.cycle + cycles, kind := kind, ins := ins, hdr := hdr, hfmt := hfmt, cls := h.ac.val,
                      acq := s.me.governing e.idx, shFur := k.furs, shTab := k.tabs, shMark := k.marks, spoil := spoil, desc := [], fe := h.fe,
                      flag := h.flag, epoch := s.me.epoch, ent := e, ctx := s.cur.ctx }
    .next ((f (s.issued.modMe fun k => k.enterAccess fp)).modMyCore fun k => { k with fcmd := some m })

/-- The destination bytes of a word that broke off are free values (R246). -/
def State.furScramble (s : State) (c : CoreId) (l : List (Nat × Nat)) : State :=
  (s.modCore c fun k => k.freeSpans s.fresh l).skipFresh (spanBytes l)

/-- The spans of whole lines (R246: the lines of a pop). -/
def lineSpans (mask : Nat) : List (Nat × Nat) := (setBitsOf 8192 mask).map fun l => (l * 512, 512)

/-- A translation fault strikes the word while it runs: nothing of it stands but its undefined destination (R246); a walk that starts anew
(R235) leaves the word waiting. -/
def State.furXlate (s : State) (l : List (Nat × Nat)) (e : Nat × XFault) : State :=
  if e.2.cls = 0 then s else (s.furScramble s.cur.core l).trapXlate e.1 e.2 3

/-- The word would make furrow `fn` full: FULL stays set (R246). -/
def State.furFull (s : State) (fn : FurNo) : State := (s.modMyCore fun k => k.setFur fn { k.fur fn with full := true }).trapRange

/-- The coder is free, and FLAG lies in the grant. -/
def State.furFree (s : State) : Bool := s.myCore.fcmd.isNone
def State.furFlag (s : State) (h : HOp) : Bool := s.myGrant.flagOk h.fe h.flag

/-- The footprint of a FUR word (R258). -/
def State.furPrint (s : State) (h : HOp) (rd wr : List (Nat × Nat)) : Access4 := s.footprint 11 h.ac.val rd wr

/-- The present governing acquire of the running word. -/
def State.furAcq (s : State) : Acq := s.me.governing s.curIdx

/-! ### FOPEN, FCLOSE, FTBL (R249 to R251) -/

/-- FOPEN (R250). -/
def execFopen (h : HOp) (fn : FurNo) (ln : Fin 64) (s : State) : Host.Outcome State Fault Refusal :=
  if !s.furFree then s.hold
  else match s.furRegion (s.rdH h.ha) with
    | none => .next (s.trapHead (s.rdH h.ha) true)
    | some (r, z) =>
      if (s.myCore.fur fn).opened || !s.furFlag h then .next s.trapRange
      else s.furGo h 4 0 none 0 0 (s.furPrint h [] []) [] fun s => s.modMyCore fun k =>
        (k.setFur fn (Furrow.fresh (ln.val + 1) r z s.cycle false 0)).dropMarks fn fun _ => true

/-- Some open furrow is a child of `fn`. -/
def Core.hasChild (k : Core) (fn : FurNo) : Bool := k.furs.toList.any fun f => f.opened && f.child && f.parent = fn.val

/-- The descriptor of a furrow after its flush (R245, R251). -/
def Furrow.descriptor (f : Furrow) : DirEntry :=
  { spos := f.sl, count := f.dd, fmt := 0, bias := 0, ln := f.lc - 1, tb := 0, child := true, region := f.region, size := f.size }

/-- FCLOSE (R251). -/
def execFclose (h : HOp) (fn : FurNo) (sv : Bool) (s : State) : Host.Outcome State Fault Refusal :=
  if !s.furFree then s.hold
  else
    let f := s.myCore.fur fn
    if !f.opened || s.myCore.hasChild fn || !s.furFlag h then .next s.trapRange
    else
      let close (k : Core) : Core := (k.setFur fn { k.fur fn with opened := false }).dropMarks fn fun _ => true
      if !sv then s.furGo h 4 0 none 0 0 (s.furPrint h [] []) [] fun s => s.modMyCore close
      else match s.furPlace (s.rdH h.hd) true with
        | none => .next (s.trapHead (s.rdH h.hd) true)
        | some t =>
          let g := f.flush
          let lines := if t.buf = 0 then [] else t.headSpans 32
          if t.imageBytes < 32 then .next s.trapRange
          else if g.overflows g.sl g.dd then .next (s.furFull fn)
          else match s.furPerform s.cur.core s.cur.ctx h.ac.val g with
            | (some e, s1, _) => .next (s1.furXlate lines e)
            | (none, s1, g) =>
              -- until the word completes its destination is undefined (R246)
              let r := s1.freeBytes 32
              match r.2.furPutImage s.cur.core s.cur.ctx h.ac.val t r.1 with
              | (some e, s2) => .next (s2.furXlate lines e)
              | (none, s2) =>
                let fp := s.furPrint h [] (if t.buf = 0 then [] else [(1, t.headLines 32)])
                match (s2.furHit s.cur.core s.cur.ctx fn f.region.toNat f.size).furGo h (6 + f.lc) 3 (some (.fclose h fn sv)) (s.rdH h.hd) t.fmt fp lines fun s => s.modMyCore close with
                | .next s3 => .next (s3.modMyCore fun k => { k with fcmd := k.fcmd.map fun m => { m with desc := g.descriptor.bytes } })
                | o => o

/-- FTBL (R249): the image is read after the word issues. -/
def execFtbl (h : HOp) (tb : Fin 8) (s : State) : Host.Outcome State Fault Refusal :=
  if !s.furFree then s.hold
  else match s.furPlace (s.rdH h.ha) false with
    | none => .next (s.trapHead (s.rdH h.ha) false)
    | some t =>
      if t.tr || t.sps ≠ 0 || t.bse || t.imageBytes ≠ 528 || !s.furFlag h then .next s.trapRange
      else
        let fp := s.furPrint h (if t.buf = 0 then [] else [(1, t.mask)]) []
        s.furGo h 4 1 (some (.ftbl h tb)) (s.rdH h.ha) t.fmt fp [] id

/-- The table of an image, where its checks hold (R236, R249). -/
def tableOf (bs : List Byte) : Option FTable :=
  let at_ (i : Nat) : Nat := leNat ((bs.drop i).take 2)
  let n := at_ 512
  let f : Vector Nat 256 := Vector.ofFn fun i : Fin 256 => at_ (2 * i.val)
  if 4 ≤ n && n ≤ 12 && f.toList.sum = 2 ^ n && (bs.drop 514).all fun b => b = 0 then some { n := n, f := f, valid := true } else none

/-! ### FPUSH and FPOP (R252, R253) -/

/-- Where entry `d` of a furrow's directory stands: the device-physical address of its place in the region, or where that does not
translate its handle address in the partition. -/
def State.entryKey (s : State) (f : Furrow) (d : Nat) : Nat :=
  let a := f.region.toNat + f.size - 32 * (d + 1)
  let h := 2 ^ 64 * (1 + s.myPart) + a
  match (s.furVa s.cur.core s.cur.ctx a).1 with
  | .ok (some v) => (match (s.translate s.cur.core s.cur.ctx (some 5) a v .rd).1 with | .ok p => p.1 | .error _ => h)
  | _ => h

/-- The table that the entry in a place was coded with, as a fact of the model (R243; assumption log 24). -/
def State.stamp (s : State) (k : Nat) : Option FTable := (s.stamps.find? fun p => p.1 = k).map (·.2)
def State.setStamp (s : State) (k : Nat) (t : FTable) : State := { s with stamps := (k, t) :: s.stamps.filter fun p => p.1 ≠ k }

/-- FPUSH (R242, R252). -/
def execFpush (h : HOp) (fn : FurNo) (tb : Fin 8) (s : State) : Host.Outcome State Fault Refusal :=
  if !s.furFree then s.hold
  else
    let f := s.myCore.fur fn
    let tab := s.myCore.tabs[tb]
    match s.furTile (s.rdH h.ha) with
    | none => .next s.trapRange
    | some t =>
      if !f.opened || !tab.valid || t.fmt = 0 || t.w > 16 || !s.furFlag h then .next s.trapRange
      else
        let fp := s.furPrint h [(1, t.mask)] []
        let key := s.entryKey f f.dd
        let s := s.readStruck s.cur.core s.cur.ctx 3 [(1, t.mask)]
        if t.d0 = 0 then s.furGo h 6 0 none 0 0 fp [] id
        else
          let codes := (List.range t.rows).flatMap fun r => (List.range t.d0).map fun i => s.myCore.bufElem 1 0 (t.bitAt r i) t.w
          match f.pushTile tab t.w codes with
          | none => .next s.trapRange
          | some g0 =>
            let g := g0.pushEntry { spos := g0.sl, count := t.size, fmt := t.fmt, bias := hf (s.rdH h.ha) 13, ln := f.lc - 1, tb := tb.val,
                                    child := false, region := 0, size := 0 }
            if g.overflows g.sl g.dd then .next (s.furFull fn)
            else
              let byp := if t.w = 16 then 2 * ceilDiv t.size 2 else 0
              s.furGo h (6 + ceilDiv t.size f.lc + ceilDiv byp 64) 0 none (s.rdH h.ha) t.fmt fp [] fun s =>
                (s.modMyCore fun k => k.setFur fn g).setStamp key tab

/-- The words of a bypass block taken, last first (R243): the bytes in order. -/
def State.furByp (s : State) (c : CoreId) (x : CtxId) (cls : Nat) (q : Acq) : Nat → Furrow → List Nat → FurRes (List Nat) × State × Furrow
  | 0, f, l => (.ok l, s, f)
  | n + 1, f, l =>
    match s.furTake c x cls q f with
    | (.error e, s1, g) => (.error e, s1, g)
    | (.ok v, s1, g) => s1.furByp c x cls q n g (v % 256 :: v / 256 :: l)

/-- A lane refilled while it lies below 2^16 (R243): at most `fuel` words. -/
def State.furRefill (s : State) (c : CoreId) (x : CtxId) (cls : Nat) (q : Acq) : Nat → Nat → Furrow → FurRes Nat × State × Furrow
  | 0, v, f => (.ok v, s, f)
  | n + 1, v, f =>
    if v ≥ 2 ^ 16 then (.ok v, s, f)
    else match s.furTake c x cls q f with
      | (.error e, s1, g) => (.error e, s1, g)
      | (.ok w, s1, g) => s1.furRefill c x cls q n (v * 2 ^ 16 + w) g

/-- The symbols `i` to `i + n − 1` of a tile decoded (R243). -/
def State.furSyms (s : State) (c : CoreId) (x : CtxId) (cls : Nat) (q : Acq) (t : FTable) : Nat → Nat → Furrow → List Nat →
    FurRes (List Nat) × State × Furrow
  | 0, _, f, l => (.ok l.reverse, s, f)
  | n + 1, i, f, l =>
    let j := i % f.lc
    let v := f.lane j
    let slot := v % 2 ^ t.n
    let p := findSym slot t.f.toList 0 0
    match s.furRefill c x cls q 2 (t.freq p.1 * (v / 2 ^ t.n) + slot - p.2) f with
    | (.error e, s1, g) => (.error e, s1, g)
    | (.ok w, s1, g) => s1.furSyms c x cls q t n (i + 1) (g.setLane j w) (p.1 :: l)

/-- A tile decoded (R243): its codes. -/
def State.furPopTile (s : State) (c : CoreId) (x : CtxId) (cls : Nat) (q : Acq) (t : FTable) (w cnt : Nat) (f : Furrow) :
    FurRes (List Nat) × State × Furrow :=
  match s.furByp c x cls q (if w = 16 then ceilDiv cnt 2 else 0) f [] with
  | (.error e, s1, g) => (.error e, s1, g)
  | (.ok byp, s1, g) => match s1.furSyms c x cls q t cnt 0 g [] with
    | (.error e, s2, g) => (.error e, s2, g)
    | (.ok ss, s2, g) =>
      (.ok (ss.zipIdx.map fun p => if w = 16 then p.1 * 256 + byp.getD p.2 0 else if w = 4 then p.1 % 16 else p.1), s2, g)

/-- The top entry removed. -/
def Furrow.popEntry (f : Furrow) : Furrow := { f with dtop := f.dtop.tail }

/-- A furrow whose lane states and SL are undefined (R243): free values. -/
def Furrow.lost (f : Furrow) (fresh : Nat) : Furrow :=
  { f with base := (Config.free 32 fresh).toNat, top := [], loose := true
           x := Vector.ofFn fun i : Fin 64 => Config.free 32 (fresh + 1 + i.val) }

/-- The pop's entry is gone: the furrow stored, and the marks that it falls below (R254). -/
def Core.putPopped (k : Core) (fn : FurNo) (f : Furrow) : Core := (k.setFur fn f).dropMarks fn fun m => f.dd < m.dd

/-- FPOP (R243, R253). -/
def execFpop (h : HOp) (fn : FurNo) (et : Bool) (s : State) : Host.Outcome State Fault Refusal :=
  if !s.furFree then s.hold
  else
    let f := s.myCore.fur fn
    match s.furTile (s.rdH h.hd) with
    | none => .next s.trapRange
    | some t =>
      let fp := s.furPrint h [] [(1, t.mask)]
      let c := s.cur.core; let x := s.cur.ctx; let cls := h.ac.val; let q := s.furAcq
      if !f.opened || t.fmt = 0 || t.w > 16 || !s.furFlag h then .next s.trapRange
      else if f.dd = 0 then
        let mark (s : State) : State := s.modMyCore fun k => k.setFur fn { k.fur fn with empty := true }
        if et then .next ((mark s).trapFurEmpty fn.val) else s.furGo h 6 0 none 0 0 fp [] mark
      else if t.d0 = 0 then s.furGo h 6 0 none 0 0 fp [] id
      else match s.furTop c x cls q f with
        | (.error e, s1, _) => .next (s1.furXlate [] e)
        | (.ok none, _, _) => .next s.trapRange
        | (.ok (some e), s1, f1) =>
          let tab := s.myCore.tabs[Fin.ofNat 8 e.tb]
          if e.child || t.fmt ≠ e.fmt || hf (s.rdH h.hd) 13 ≠ e.bias || t.size ≠ e.count || !tab.valid then .next s.trapRange
          else
            let lines := lineSpans t.mask
            let byp := if t.w = 16 then 2 * ceilDiv t.size 2 else 0
            let cycles := 6 + ceilDiv t.size f.lc + ceilDiv byp 64
            let put (codes : List Nat) (k : Core) : Core := codes.zipIdx.foldl (fun (k : Core) p => k.putAt t (p.2 / t.d0) (p.2 % t.d0) p.1) k
            let other : Bool := match s.stamp (s.entryKey f (f.dd - 1)) with | some u => decide (u ≠ tab) | none => false
            if f.loose || other || s.furForeign c x f then
              let codes := (List.range t.size).map fun i => (Config.free t.w (s.fresh + 65 + i)).toNat
              let g := f1.popEntry.lost s.fresh
              (s1.skipFresh (65 + t.size)).furGo h cycles 0 none (s.rdH h.hd) t.fmt fp lines fun s => s.modMyCore fun k => put codes (k.putPopped fn g)
            else match s1.furPopTile c x cls q tab t.w t.size f1 with
              | (.error e, s2, _) => .next (s2.furXlate lines e)
              | (.ok codes, s2, g) =>
                s2.furGo h cycles 0 none (s.rdH h.hd) t.fmt fp lines fun s => s.modMyCore fun k => put codes (k.putPopped fn g.popEntry)

/-! ### Marks (R254) -/

/-- FMARK. -/
def execFmark (h : HOp) (fn : FurNo) (mk : Fin 8) (s : State) : Host.Outcome State Fault Refusal :=
  if !s.furFree then s.hold
  else
    let f := s.myCore.fur fn
    if !f.opened || !s.furFlag h then .next s.trapRange
    else s.furGo h 4 0 none 0 0 (s.furPrint h [] []) [] fun s => s.modMyCore fun k =>
      { k with marks := k.marks.set mk { valid := true, fn := fn.val, lc := f.lc, x := f.x, sl := f.sl, dd := f.dd } }

/-- A stack whose newest part stands on the die cut to a smaller depth. -/
def cutStack {α : Type} (base : Nat) (top : List α) (depth : Nat) : Nat × List α :=
  if depth ≥ base then (base, top.drop (base + top.length - depth)) else (depth, [])

/-- A furrow brought back to a mark. -/
def Furrow.dropTo (f : Furrow) (m : FMark) : Furrow :=
  let a := if m.sl > f.sl then (m.sl, []) else cutStack f.base f.top m.sl
  let d := cutStack f.dbase f.dtop m.dd
  { f with x := m.x, base := a.1, top := a.2, dbase := d.1, dtop := d.2 }

/-- FDROP. -/
def execFdrop (h : HOp) (fn : FurNo) (mk : Fin 8) (s : State) : Host.Outcome State Fault Refusal :=
  if !s.furFree then s.hold
  else
    let f := s.myCore.fur fn
    let m := s.myCore.marks[mk]
    if !f.opened || !m.valid || m.fn ≠ fn.val || !s.furFlag h then .next s.trapRange
    else s.furGo h 4 0 none 0 0 (s.furPrint h [] []) [] fun s => s.modMyCore fun k => k.putPopped fn (f.dropTo m)

/-! ### Children (R255, R256) -/

/-- FSPLIT split. -/
def execFsplitSplit (h : HOp) (fn cf : FurNo) (s : State) : Host.Outcome State Fault Refusal :=
  if !s.furFree then s.hold
  else match s.furRegion (s.rdH h.ha) with
    | none => .next (s.trapHead (s.rdH h.ha) true)
    | some (r, z) =>
      let p := s.myCore.fur fn
      if cf = fn || !p.opened || (s.myCore.fur cf).opened || !s.furFlag h then .next s.trapRange
      else s.furGo h 4 0 none 0 0 (s.furPrint h [] []) [] fun s => s.modMyCore fun k =>
        (k.setFur cf (Furrow.fresh p.lc r z s.cycle true fn.val)).dropMarks cf fun _ => true

/-- The lanes of a child read from its stream, from the last lane down (R255). -/
def State.furLanes (s : State) (c : CoreId) (x : CtxId) (cls : Nat) (q : Acq) : Nat → Furrow → FurRes Unit × State × Furrow
  | 0, f => (.ok (), s, f)
  | j + 1, f =>
    match s.furTake c x cls q f with
    | (.error e, s1, g) => (.error e, s1, g)
    | (.ok a, s1, g) => match s1.furTake c x cls q g with
      | (.error e, s2, g) => (.error e, s2, g)
      | (.ok b, s2, g) => s2.furLanes c x cls q j (g.setLane j (a * 2 ^ 16 + b))

/-- The furrow that a KIND 1 entry or descriptor names, opened (R255); nothing where its region may not be used (R244; assumption log 56). -/
def State.furAdopt (s : State) (c : CoreId) (x : CtxId) (cls : Nat) (q : Acq) (e : DirEntry) (child : Bool) (parent : Nat) :
    FurRes (Option Furrow) × State :=
  let f := { Furrow.fresh (e.ln + 1) e.region e.size s.cycle child parent with base := e.spos, dbase := e.count }
  match s.furVa c x e.region.toNat with
  | (.error g, s1) => (.error (e.region.toNat, g), s1)
  | (.ok _, s1) =>
    if !s1.regionOk c x e.region e.size then (.ok none, s1)
    else match s1.furLanes c x cls q f.lc f with
      | (.error e, s2, _) => (.error e, s2)
      | (.ok _, s2, g) => (.ok (some { g with loose := g.badLane }), s2)

/-- FSPLIT take. -/
def execFsplitTake (h : HOp) (fn cf : FurNo) (s : State) : Host.Outcome State Fault Refusal :=
  if !s.furFree then s.hold
  else
    let p := s.myCore.fur fn
    let c := s.cur.core; let x := s.cur.ctx; let cls := h.ac.val; let q := s.furAcq
    if cf = fn || !p.opened || (s.myCore.fur cf).opened || !s.furFlag h then .next s.trapRange
    else if p.dd = 0 then .next ((s.modMyCore fun k => k.setFur fn { k.fur fn with empty := true }).trapFurEmpty fn.val)
    else match s.furTop c x cls q p with
      | (.error e, s1, _) => .next (s1.furXlate [] e)
      | (.ok none, _, _) => .next s.trapRange
      | (.ok (some e), s1, p1) =>
        if !e.child then .next s.trapRange
        else match s1.furAdopt c x cls q e true fn.val with
          | (.error e, s2) => .next (s2.furXlate [] e)
          | (.ok none, _) => .next s.trapRange
          | (.ok (some f), s2) =>
            s2.furGo h (6 + f.lc) 0 none 0 0 (s.furPrint h [] []) [] fun s => s.modMyCore fun k =>
              ((k.putPopped fn p1.popEntry).setFur cf f).dropMarks cf fun _ => true

/-- FSPLIT import: the descriptor is read after the word issues. -/
def execFsplitImport (h : HOp) (cf : FurNo) (s : State) : Host.Outcome State Fault Refusal :=
  if !s.furFree then s.hold
  else match s.furPlace (s.rdH h.ha) false with
    | none => .next (s.trapHead (s.rdH h.ha) false)
    | some t =>
      if t.imageBytes < 32 || (s.myCore.fur cf).opened || !s.furFlag h then .next s.trapRange
      else
        let fp := s.furPrint h (if t.buf = 0 then [] else [(1, t.mask)]) []
        s.furGo h 6 2 (some (.fsplitImport h cf)) (s.rdH h.ha) t.fmt fp [] id

/-- FJOIN (R256). -/
def execFjoin (h : HOp) (fn cf : FurNo) (s : State) : Host.Outcome State Fault Refusal :=
  if !s.furFree then s.hold
  else
    let p := s.myCore.fur fn
    let f := s.myCore.fur cf
    if cf = fn || !p.opened || !f.opened || !f.child || f.parent ≠ fn.val || !s.furFlag h then .next s.trapRange
    else
      let g := f.flush
      if g.overflows g.sl g.dd then .next (s.furFull cf)
      else if p.overflows p.sl (p.dd + 1) then .next (s.furFull fn)
      else match s.furPerform s.cur.core s.cur.ctx h.ac.val g with
        | (some e, s1, _) => .next (s1.furXlate [] e)
        | (none, s1, _) =>
          (s1.furHit s.cur.core s.cur.ctx cf f.region.toNat f.size).furGo h (6 + f.lc) 0 none 0 0 (s.furPrint h [] []) [] fun s => s.modMyCore fun k =>
            ((k.setFur fn ((k.fur fn).pushEntry g.descriptor)).setFur cf
              { k.fur cf with opened := false }).dropMarks cf fun _ => true

/-- The record of FSTAT (R257): 64 bytes. -/
def Core.furRecord (k : Core) (fn : FurNo) (f : Furrow) (top : Option DirEntry) : List Byte :=
  let marks := (k.marks.toList.zipIdx.map fun p => if p.1.valid && p.1.fn = fn.val then 2 ^ p.2 else 0).sum
  leBytes 8 (pack [(32, f.sl), (32, f.dd)]) ++
    leBytes 8 (pack [(32, f.size), (18, 0), (6, f.lc - 1), (4, f.parent), (1, b2n f.full), (1, b2n f.child), (1, b2n f.empty), (1, b2n f.opened)]) ++
    leBytes 8 f.region.toNat ++ (match top with | some e => e.bytes | none => leBytes 32 0) ++ leBytes 8 marks

/-- FSTAT (R257). -/
def execFstat (h : HOp) (fn : FurNo) (clr : Bool) (s : State) : Host.Outcome State Fault Refusal :=
  if !s.furFree then s.hold
  else match s.myCore.tensor (s.rdH h.hd) 8 with
    | none => .next s.trapRange
    | some t =>
      if t.buf ≠ 1 || t.tr || !t.planeOk s.myGrant || !s.myGrant.covers 1 (t.mask ||| 2 ^ t.base) || t.base ≥ 8192 || !s.furFlag h then .next s.trapRange
      else
        let f := s.myCore.fur fn
        match s.furTop s.cur.core s.cur.ctx h.ac.val s.furAcq f with
        | (.error e, s1, _) => .next (s1.furXlate [(t.base * 512, 64)] e)
        | (.ok top, s1, f1) =>
          let bs := s.myCore.furRecord fn f top
          let fp := s.furPrint h [] (if t.d0 = 0 then [] else [(1, 2 ^ t.base)])
          s1.furGo h 4 0 none 0 0 fp (if t.d0 = 0 then [] else [(t.base * 512, 64)]) fun s => s.modMyCore fun k =>
            let k1 := k.setFur fn (if clr then { f1 with empty := false, full := false } else f1)
            if t.d0 = 0 then k1 else k1.setBufBytes 1 (t.base * 512) bs

/-! ### Events -/

/-- A trap that the word in execution raises after its issue (R246): what it shadowed comes back, `keep` of it excepted, and the cut stands
at its number. -/
def State.furTrap (s : State) (c : CoreId) (f : FCmd) (r : TrapRec) (keep : Core → Core) : State :=
  let k := s.ctx c f.ctx
  ((s.rollFurOf c f.ctx f).modCore c keep).raiseAt c f.ctx r [k.furCut f]

/-- The trap record of a FUR word: operand-range, or a translation fault. -/
def FCmd.rangeRec (f : FCmd) : TrapRec :=
  { async := false, cause := 2, code := 0, tag := 6, seq := f.ent.seq, level := 1, park := false,
    det := #v[BitVec.ofNat 64 f.ent.idx, f.ent.word, 0, 0] }
def FCmd.xlateRec (f : FCmd) (e : Nat × XFault) : TrapRec :=
  { async := false, cause := xCause e.2, code := 0, tag := 6, seq := f.ent.seq, level := e.2.cls, park := false, det := xDetail e.1 e.2 3 0 0 }

/-- A translation fault of the word in execution; a walk that starts anew (R235) is tried again in the next cycle. -/
def State.furFault (s : State) (c : CoreId) (f : FCmd) (e : Nat × XFault) : State :=
  if e.2.cls = 0 then s.modCore c fun k => { k with fcmd := some { f with due := s.cycle + 1 } } else s.furTrap c f (f.xlateRec e) id

/-- FTBL_IMAGE_CHECK (R249): the image has arrived. -/
def execFtblImageCheck (c : CoreId) (s : State) : Host.Outcome State Fault Refusal :=
  match (s.core c).fcmd with
  | none => .next s
  | some f =>
    match f.ins with
    | some (.ftbl _ tb) =>
      let t := tensorAs f.hdr f.hfmt (widthOr f.hfmt 8)
      match s.furImage c f.ctx f.cls f.acq t 528 with
      | (.error e, s1) => .next (s1.furFault c f e)
      | (.ok bs, s1) => match tableOf bs with
        | none => .next (s1.furTrap c f f.rangeRec fun k => { k with tabs := vmod k.tabs tb.val fun t => { t with valid := false } })
        | some u => .next (s1.modCore c fun k => { k with tabs := k.tabs.set tb u, fcmd := some { f with kind := 0 } })
    | _ => .next s

/-- FSPLIT_IMPORT_CHECK (R255): the descriptor has arrived. -/
def execFsplitImportCheck (c : CoreId) (s : State) : Host.Outcome State Fault Refusal :=
  match (s.core c).fcmd with
  | none => .next s
  | some f =>
    match f.ins with
    | some (.fsplitImport _ cf) =>
      let t := tensorAs f.hdr f.hfmt (widthOr f.hfmt 8)
      match s.furImage c f.ctx f.cls f.acq t 32 with
      | (.error e, s1) => .next (s1.furFault c f e)
      | (.ok bs, s1) =>
        let e := dirEntryOf bs
        if !e.child || imgDw bs 1 % 2 ^ 40 ≠ 0 then .next (s1.furTrap c f f.rangeRec id)
        else match s1.furAdopt c f.ctx f.cls f.acq e false 0 with
          | (.error e, s2) => .next (s2.furFault c f e)
          | (.ok none, s2) => .next (s2.furTrap c f f.rangeRec id)
          | (.ok (some g), s2) => .next (s2.modCore c fun k =>
              { ((k.setFur cf g).dropMarks cf fun _ => true) with fcmd := some { f with kind := 0, due := Nat.max f.due (s.cycle + g.lc) } })
    | _ => .next s

/-- A furrow holds more on the die than stays there (R244). -/
def Furrow.crowded (f : Furrow) : Bool := f.opened && (f.top.length > 256 || f.dtop.length > 8)

/-- FURROW_CHUNK_MOVE (R244): a 64-byte chunk of the oldest stream words on the die, or the oldest entry there, goes to the region. -/
def execFurrowChunkMove (c : CoreId) (fn : FurNo) (s : State) : Host.Outcome State Fault Refusal :=
  match (s.core c).fcmd with
  | none => .next s
  | some m =>
    let f := (s.core c).fur fn
    if !f.crowded then .next s
    else match (if f.top.length > 256 then s.furSpill c m.ctx m.cls 32 f else s.furSpillDir c m.ctx m.cls f) with
      | (some e, s1, _) => .next (s1.furFault c m e)
      | (none, s1, g) => .next ((s1.furHit c m.ctx fn f.region.toNat f.size).modCore c fun k => k.setFur fn g)

/-- The symbols that a FUR word pushed (event 0x28) or popped (0x29), counted when it completes (R354). -/
def FCmd.symbols (f : FCmd) : Nat × Nat :=
  let n := (tensorAs f.hdr f.hfmt (widthOr f.hfmt 8)).size
  match f.ent.ins with
  | some (.fpush _ _ _) => (0x28, n)
  | some (.fpop _ _ _) => (0x29, n)
  | _ => (0, 0)

/-- FUR_WORD_COMPLETE (R247): the descriptor of an FCLOSE, and the word's completion update. -/
def execFurWordComplete (c : CoreId) (s : State) : Host.Outcome State Fault Refusal :=
  match (s.core c).fcmd with
  | none => .next s
  | some f =>
    let t := tensorAs f.hdr f.hfmt (widthOr f.hfmt 8)
    let put := if f.kind = 3 then s.furPutImage c f.ctx f.cls t f.desc else (none, s)
    match put with
    | (some e, s1) => .next (s1.furFault c f e)
    | (none, s1) =>
      let s := match f.ins with
        | some (.fclose _ fn _) => if f.kind = 3 && t.buf = 0 then s1.furHit c f.ctx fn (t.handle * 2 ^ 48 + t.base) (t.lastRow + t.rowBytes - t.base) else s1
        | _ => s1
      .next ((((s.modCore c fun k => { k with fcmd := none }).modCtx c f.ctx fun k => k.leaveAccess 11 f.epoch f.ent.idx).count
        c f.ctx f.symbols.1 f.symbols.2).complFlag c f.ctx 6 f.fe f.flag)

/-- The event of the coder of core `c` that is due. -/
def State.furDue (s : State) (c : CoreId) : Option Instr :=
  match (s.core c).fcmd with
  | none => none
  | some f =>
    if f.due > s.cycle then none
    else if f.kind = 1 then some (.ftblImageCheck c)
    else if f.kind = 2 then some (.fsplitImportCheck c)
    else match (List.finRange 16).find? fun i => ((s.core c).fur i).crowded with
      | some i => some (.furrowChunkMove c i)
      | none => some (.furWordComplete c)

end Sys2Proof.Machine
end

