-- ==== Sys2Proof/Machine/Walk.lean ====
section
/-! DEFINITION. Sys2Proof/Machine/Walk.lean: the address walkers (R178, R179, R183 to R192). -/

namespace Sys2Proof.Machine

/-! ### Patterns and entries (R179, R184, R188) -/

/-- The checks of R185 on a walker's header. -/
def Tensor.walkOk (t : Tensor) (g : Grant) (store : Bool) : Bool :=
  (t.buf = 1 || t.buf = 2) && t.sps = 0 && t.rowBytes ≤ 512 && t.fmt ≠ 0 && g.covers t.buf t.mask && (!t.tr || (!store && t.trOk))

/-- A row of bytes read from a line with DAZ (R130): elements of the rows's bytes, zeros above. -/
def Core.rowEntry (k : Core) (t : Tensor) (line : Nat) : VReg :=
  let n := t.rowBytes * 8 / t.w
  let daz := (k.fmtReg t.buf (line / 512)).testBit 14
  packElems t.w ((elems (k.line t.buf line) t.w n).map (dazCode daz t.fmt))

/-- The transposed entry of block row `row0` at phase `j` (R179) for rows from line `first`. -/
def Core.trEntry (k : Core) (t : Tensor) (first row0 j : Nat) : VReg :=
  let words := ceilDiv (t.d0 * t.w) 16
  let word (g i : Nat) : Nat :=
    let c := 16 * g + j
    let l := first + row0 + i
    if c < words then
      let daz := (k.fmtReg 1 (l / 512)).testBit 14
      let x := sliceAt (k.line 1 l) (16 * c) 16
      if t.w = 16 then dazCode daz t.fmt x else dazCode daz t.fmt (x % 256) + 256 * dazCode daz t.fmt (x / 256)
    else 0
  let gs := (List.range 16).flatMap fun g =>
    let xs := (List.range 16).map (word g)
    if t.w = 16 then xs else (xs.map (· % 256)) ++ xs.map (· / 256)
  packElems t.w gs

/-- The entry a LOAD walker delivers for pattern entry `e` (R184). -/
def Core.loadEntry (k : Core) (t : Tensor) (e : Nat) : VReg :=
  if t.d0 = 0 then 0
  else if t.tr then
    k.trEntry t (t.base + e / t.d1 % t.d2 * t.s2 + e / (t.d1 * t.d2) * t.s3) (16 * (e / 16 % (t.d1 / 16))) (e % 16)
  else k.rowEntry t (t.row e)

/-- The lines that entry `e` of the pattern touches (R180). -/
def Tensor.entryLines (t : Tensor) (e : Nat) : Nat :=
  if t.d0 = 0 then 0
  else if t.tr then (2 ^ 16 - 1) * 2 ^ (t.base + e / t.d1 % t.d2 * t.s2 + e / (t.d1 * t.d2) * t.s3 + 16 * (e / 16 % (t.d1 / 16)))
  else 2 ^ t.row e

/-- The words (bank, line, word index) of a buffer that an element of `w` bits at bit `p` of line `l` needs (R178). -/
def wordsAt (buf l p w : Nat) : List (Nat × Nat × Nat) :=
  if buf = 1 then ((List.range (Nat.max 1 (w / 16))).map fun i => p / 16 + i).map fun x => (16 * (x / 16) + (x % 16 + l % 16) % 16, l, x)
  else [(p / 32, l, p / 32)]

/-- Port cycles of a gather or scatter entry (R188): the most distinct words that one bank must deliver. -/
def portCycles (ws : List (Nat × Nat × Nat)) : Nat :=
  let d := ws.eraseDups
  (List.range 256).foldl (fun m b => Nat.max m (d.filter fun x => x.1 = b).length) 1

/-- The indices of an index entry that lie in the pattern (R188): element number, row and place in the row. -/
def Tensor.targets (t : Tensor) (idx : VReg) : List (Nat × Nat × Nat) :=
  (elems idx 32 128).zipIdx.filterMap fun p => if p.1 < t.d0 * t.rows then some (p.2, p.1 / t.d0, p.1 % t.d0) else none

/-- The port cycles of an index entry. -/
def Tensor.idxCycles (t : Tensor) (idx : VReg) : Nat :=
  portCycles ((t.targets idx).flatMap fun p => wordsAt t.buf (t.row p.2.1) (p.2.2 * t.w) t.w)

/-- The entry that AWGATHER delivers (R188). -/
def Core.gatherEntry (k : Core) (t : Tensor) (idx : VReg) : VReg :=
  (t.targets idx).foldl (fun d p => setSlice d (p.1 * t.w) t.w (k.codeAt t p.2.1 p.2.2)) 0

/-- What AWSCAT writes (R188): line, bits and values, in element order. -/
def Tensor.scatterWrites (t : Tensor) (idx d : VReg) : List (Nat × VReg × VReg) :=
  (t.targets idx).map fun p =>
    let lo := p.2.2 * t.w
    (t.row p.2.1, setSlice 0 lo t.w (2 ^ t.w - 1), setSlice 0 lo t.w (sliceAt d (p.1 * t.w) t.w))

/-! ### Commands -/

/-- A walker. -/
def Core.walker (k : Core) (w : WNo) : Walker := k.walkers[w]

/-- The core with a walker changed. -/
def Core.modWalker (k : Core) (w : WNo) (f : Walker → Walker) : Core := { k with walkers := k.walkers.set w (f (k.walker w)) }

/-- An earlier walker word of the context still owes entries on a queue of the command in the same direction. -/
def Core.owedBefore (k : Core) (m : WCmd) (store : Bool) : Bool := k.owes m.ctx m.epoch m.idx (m.pops store) (m.pushes store)

/-- The queue part of a command's next entry: what it pops, and the slot it reserves (R187). -/
def Core.takeEntry (k : Core) (m : WCmd) (store : Bool) : WCmd × Core :=
  let got := (m.pops store).map fun q => (k.qHead q).getD 0
  let k1 := (m.pops store).foldl (fun (c : Core) q => c.qPop q) k
  match m.pushes store with
  | q :: _ => let r := k1.qReserve q; ({ m with taken := true, got := got, slot := r.1 }, r.2)
  | [] => ({ m with taken := true, got := got }, k1)

/-- A taken entry is started in cycle `now` (R191): the command with the entry in flight, and how many port cycles it takes. -/
def Core.startEntry (k : Core) (t : Tensor) (m : WCmd) (store : Bool) (now : Nat) : WCmd × Nat :=
  let idx := m.got.getD 0 0
  let dat := if m.kind = 2 then m.got.getD 0 0 else m.got.getD 1 0
  let cost := if m.kind = 2 then 1 else t.idxCycles idx
  let fly : WFly :=
    if m.stores store then
      { due := now + cost + 1, slot := none, val := 0,
        writes := if m.kind = 2 then
            (if t.d0 = 0 then [] else [(t.row m.pos, setSlice 0 0 (t.rowBytes * 8) (2 ^ (t.rowBytes * 8) - 1), dat)])
          else t.scatterWrites idx dat }
    else { due := now + cost + 5, slot := some m.slot, val := if m.kind = 2 then k.loadEntry t m.pos else k.gatherEntry t idx, writes := [] }
  ({ m with count := m.count - 1, pos := if m.kind = 2 then m.pos + 1 else m.pos, fly := m.fly ++ [fly], taken := false, got := [] }, cost)

/-- The latched pattern, resolved with the format registers as they stand. -/
def Core.pattern (k : Core) (w : Walker) : Tensor :=
  (k.tensor w.hdr 8).getD
    { buf := 1, fmt := 0, w := 8, d0 := 0, d1 := 1, d2 := 1, d3 := 1, s1 := 0, s2 := 0, s3 := 0, base := 0, handle := 0, bias := 0,
      bse := false, bsl := 0, tr := false, sps := 0, s1f := 0 }

/-- The queues are ready for the command's next entry (R40, R187). -/
def Core.entryReady (k : Core) (m : WCmd) (store : Bool) : Bool :=
  m.taken || (!k.owedBefore m store && k.queuesReady (m.pops store) (m.pushes store))

/-- The oldest command of walker `w` that still owes entries starts its next one, if its queues are ready. -/
def Core.walkOne (k : Core) (w : WNo) (now : Nat) : Core :=
  let wk := k.walker w
  match wk.cmds.find? fun m => m.count > 0 with
  | none => k
  | some m =>
    if m.at_ > now || !k.entryReady m wk.store then k
    else
      let r := if m.taken then (m, k) else k.takeEntry m wk.store
      let p := r.2.startEntry (r.2.pattern wk) r.1 wk.store now
      r.2.modWalker w fun wk => { wk with cmds := wk.cmds.map fun (o : WCmd) =>
        let n := if o.epoch = m.epoch && o.idx = m.idx then p.1 else o
        { n with at_ := now + p.2 } }

/-- The context of the entry that walker `w` would start now, and the footprint of what it reads. -/
def Core.nextRead (k : Core) (w : WNo) (now : Nat) : Option (CtxId × List (Nat × Nat)) :=
  let wk := k.walker w
  match wk.cmds.find? fun m => m.count > 0 with
  | none => none
  | some m =>
    if m.at_ > now || !k.entryReady m wk.store then none
    else
      let t := k.pattern wk
      let got := if m.taken then m.got else (k.takeEntry m wk.store).1.got
      some (m.ctx, if m.stores wk.store then [] else
        [(t.buf, if m.kind = 2 then t.entryLines m.pos else (t.targets (got.getD 0 0)).foldl (fun a p => a ||| 2 ^ t.row p.2.1) 0)])

/-- Walker `w` starts its next entry, if its queues are ready; a struck line that it reads is reported (R14, R187). -/
def State.walkStart (s : State) (c : CoreId) (w : WNo) : State :=
  let s1 := s.modCore c fun k => k.walkOne w s.cycle
  match (s.core c).nextRead w s.cycle with
  | some p => s1.readStruck c p.1 0 p.2
  | none => s1

/-! ### Words -/

/-- The count of a walker word: CNT, or the low 32 bits of a register (R69). -/
def State.walkCount (s : State) (o : WOp) : Nat := if o.sc.val ≠ 0 then (s.rdS o.sc).toNat % 2 ^ 32 else o.cnt.val

/-- The command of an AWGO, AWGATHER or AWSCAT word. -/
def State.walkCmd (s : State) (kind : Nat) (o : WOp) (iq : QNo) : WCmd :=
  { kind := kind, q := o.qn, iq := iq, count := s.walkCount o, at_ := s.cycle, pos := (s.myCore.walker o.wk).pos, fly := [],
    taken := false, slot := 0, got := [], fe := o.fe, flag := o.flag, epoch := s.me.epoch, idx := s.curIdx, ctx := s.cur.ctx }

/-- The walker accepts a further word, and the queues are ready for its first entry (R40, R187). -/
def State.walkReady (s : State) (kind : Nat) (o : WOp) (iq : QNo) : Bool :=
  let k := s.myCore
  let w := k.walker o.wk
  let m := s.walkCmd kind o iq
  w.cmds.length < 2 && !k.owedBefore m w.store && k.queuesReady (m.pops w.store) (m.pushes w.store)

/-- The operand checks of AWGO, AWGATHER and AWSCAT (R186, R188, R192). -/
def State.walkLegal (s : State) (kind : Nat) (o : WOp) (iq : QNo) : Bool :=
  let g := s.myGrant
  let w := s.myCore.walker o.wk
  let n := s.walkCount o
  g.hasWalker o.wk.val && g.flagOk o.fe o.flag && w.conf && n ≥ 1 && g.hasQueue o.qn.val && (kind = 2 || g.hasQueue iq.val) &&
  match s.myCore.tensor w.hdr 8 with
  | none => false
  | some t => t.walkOk g w.store &&
      (if kind = 2 then w.pos + n ≤ t.rows else !t.tr && (t.w = 8 || t.w = 16 || t.w = 32) && (w.store = (kind = 5 : Bool)))

/-- The footprint of a walker word (R180). -/
def State.walkPrint (s : State) (kind : Nat) (o : WOp) : Access4 :=
  let w := s.myCore.walker o.wk
  let t := s.myCore.pattern w
  let m := if kind = 2 then (List.range (s.walkCount o)).foldl (fun a i => a ||| t.entryLines (w.pos + i)) 0 else t.mask
  s.footprint (1 + o.wk.val) o.ac.val (if w.store then [] else [(t.buf, m)]) (if w.store then [(t.buf, m)] else [])

/-- An AWGO, AWGATHER or AWSCAT word issues (R186 to R188): the position moves, the first entry is taken and, where the walker is
idle, started. -/
def State.walkGo (s : State) (kind : Nat) (o : WOp) (iq : QNo) : Host.Outcome State Fault Refusal :=
  if !s.walkLegal kind o iq then .next s.trapRange
  else if !s.walkReady kind o iq then s.hold
  else
    let m := s.walkCmd kind o iq
    let fp := s.walkPrint kind o
    let idle : Bool := (s.myCore.walker o.wk).cmds.all fun c => c.count = 0
    let s1 := (s.issued.modMe fun k => k.enterAccess fp).modMyCore fun k =>
      let r := k.takeEntry m (k.walker o.wk).store
      r.2.modWalker o.wk fun w => { w with cmds := w.cmds ++ [r.1], pos := if kind = 2 then (w.pos + m.count) % 2 ^ 32 else w.pos }
    .next (if idle then s1.walkStart s.cur.core o.wk else s1)

/-- A waiting word that moves no entries. -/
def State.walkWait (s : State) (kind : Nat) (o : WOp) (hdr : Header) (mode : Bool) : WCmd :=
  { kind := kind, q := 0, iq := 0, count := 0, at_ := s.cycle, pos := 0, fly := [], taken := false, slot := 0, got := [], hdr := hdr, mode := mode,
    fe := o.fe, flag := o.flag, epoch := s.me.epoch, idx := s.curIdx, ctx := s.cur.ctx }

/-- What a waiting AWCFG or AWSTOP does to its walker (R185, R189). -/
def Walker.settle (w : Walker) (m : WCmd) : Walker :=
  if m.kind = 1 then { w with conf := true, hdr := m.hdr, store := m.mode, pos := 0 } else { w with conf := false, pos := 0 }

/-- AWCFG (R185): the header is checked and latched with position 0, once the walker's words have completed (R187). -/
def execAwcfg (o : WOp) (mode : Bool) (s : State) : Host.Outcome State Fault Refusal :=
  let cmds := (s.myCore.walker o.wk).cmds
  let h := s.rdH o.hdr
  if cmds.length ≥ 2 then s.hold
  else
    let ok := s.myGrant.hasWalker o.wk.val && match s.myCore.tensor h 8 with | some t => t.walkOk s.myGrant mode | none => false
    if !ok then .next s.trapRange
    else
      let m := s.walkWait 1 o h mode
      .next (s.issued.modMyCore fun k => k.modWalker o.wk fun w => if cmds.isEmpty then w.settle m else { w with cmds := w.cmds ++ [m] })

/-- AWGO (R186). -/
def execAwgo (o : WOp) (s : State) : Host.Outcome State Fault Refusal := s.walkGo 2 o 0

/-- AWGATHER (R188). -/
def execAwgather (o : WOp) (iq : QNo) (s : State) : Host.Outcome State Fault Refusal := s.walkGo 4 o iq

/-- AWSCAT (R188). -/
def execAwscat (o : WOp) (iq : QNo) (s : State) : Host.Outcome State Fault Refusal := s.walkGo 5 o iq

/-- AWSTOP (R189): leaves the walker unconfigured, once the walker's earlier words have completed (R187). -/
def execAwstop (o : WOp) (s : State) : Host.Outcome State Fault Refusal :=
  let cmds := (s.myCore.walker o.wk).cmds
  if cmds.length ≥ 2 then s.hold
  else if !(s.myGrant.hasWalker o.wk.val && s.myGrant.flagOk o.fe o.flag) then .next s.trapRange
  else
    let m := s.walkWait 3 o 0 false
    if cmds.isEmpty then .next ((s.issued.modMyCore fun k => k.modWalker o.wk fun w => w.settle m).complFlag s.cur.core s.cur.ctx 3 o.fe o.flag)
    else .next (s.issued.modMyCore fun k => k.modWalker o.wk fun w => { w with cmds := w.cmds ++ [m] })

/-! ### The event WALKER_ENTRY (R186 to R191) -/

/-- The walkers of a context start entries: while it runs, or runs out a clamped loop; not after a stop, in a handler or parked
(R190). -/
def Ctx.walkersRun (k : Ctx) : Bool := k.phase = .running || (k.phase = .stopping && k.clamping && !k.clampDone)

/-- An entry of walker `w` is due to complete. -/
def Walker.landing (w : Walker) (now : Nat) : Bool := w.cmds.any fun m => m.fly.any fun f => f.due ≤ now

/-- WALKER_ENTRY is due among the engine's completions. -/
def State.walkerLands (s : State) (c : CoreId) (w : WNo) : Bool := ((s.core c).walker w).landing s.cycle

/-- WALKER_ENTRY is due among the reservations of TAG 3 (R43): the next entry can start. -/
def State.walkerStarts (s : State) (c : CoreId) (w : WNo) : Bool :=
  let k := s.core c
  let wk := k.walker w
  match wk.cmds.find? fun m => m.count > 0 with
  | some m => m.at_ ≤ s.cycle && (k.ctx m.ctx).walkersRun && k.entryReady m wk.store
  | none => false

/-- Bits of a line written. -/
def Core.blendLine (k : Core) (b l : Nat) (mask v : VReg) : Core := k.setLine b l ((k.line b l &&& ~~~mask) ||| (v &&& mask))

/-- One entry in flight completes: its slot is filled or its line is written. -/
def Core.landEntry (k : Core) (buf : Nat) (m : WCmd) (f : WFly) : Core :=
  match f.slot with
  | some n => k.qFill m.q n f.val
  | none => f.writes.foldl (fun (c : Core) p => c.blendLine buf p.1 p.2.1 p.2.2) k

/-- A word with entries owes nothing more. -/
def WCmd.over_ (m : WCmd) : Bool := m.count = 0 && m.fly.isEmpty

/-- The words of a walker that are complete, in order (R185, R187, R189): a waiting AWCFG or AWSTOP is once no word stands before it. -/
def doneCmds : List WCmd → Bool → List WCmd
  | [], _ => []
  | m :: r, clear =>
    let now : Bool := m.over_ && (clear || (m.kind ≠ 1 && m.kind ≠ 3))
    if now then m :: doneCmds r clear else doneCmds r false

/-- The entries of walker `w` that are due complete, and the words that owe nothing more make their updates (R186, R189). -/
def State.landWalker (s : State) (c : CoreId) (w : WNo) : State :=
  let wk := (s.core c).walker w
  let buf := ((s.core c).pattern wk).buf
  let s1 := s.modCore c fun k => wk.cmds.foldl (fun (q : Core) m =>
    (m.fly.filter fun f => f.due ≤ s.cycle).foldl (fun (q : Core) f => q.landEntry buf m f) q) k
  let cmds := wk.cmds.map fun (m : WCmd) => { m with fly := m.fly.filter fun f => f.due > s.cycle }
  let done_ := doneCmds cmds true
  let s2 := s1.modCore c fun k => k.modWalker w fun wk =>
    done_.foldl (fun (v : Walker) m => if m.kind = 1 || m.kind = 3 then v.settle m else v) { wk with cmds := cmds.filter fun m => !done_.contains m }
  done_.foldl (fun (t : State) m =>
    if m.kind = 1 then t else (t.complFlag c m.ctx 3 m.fe m.flag).modCtx c m.ctx fun k => k.leaveAccess (1 + w.val) m.epoch m.idx) s2

/-- WALKER_ENTRY (R187): the next entry of walker `w` completes or starts. -/
def execWalkerEntry (c : CoreId) (w : WNo) (s : State) : Host.Outcome State Fault Refusal :=
  if s.walkerLands c w then .next (s.landWalker c w) else .next (s.walkStart c w)

end Sys2Proof.Machine
end

