-- ==== Sys2Proof/Machine/Image.lean ====
section
/-! DEFINITION. Sys2Proof/Machine/Image.lean: the context image (R275) with CSAVE and CLOAD (R272, R273). The inner layout of the areas
that R275 names without fields is the model's (assumption log 11). -/

namespace Sys2Proof.Machine

/-! ### Bytes -/

/-- Doublewords as bytes. -/
def dws (xs : List Nat) : List Byte := xs.flatMap (leBytes 8)

/-- Bytes brought to length `n`. -/
def fill (n : Nat) (bs : List Byte) : List Byte := (bs ++ List.replicate (n - bs.length) 0).take n

/-- `n` bytes of an image from an offset, as a number. -/
def imgN (bs : List Byte) (off n : Nat) : Nat := leNat ((bs.drop off).take n)

/-- Doubleword `i` of an area of an image. -/
def imgD (bs : List Byte) (off i : Nat) : Nat := imgN bs (off + 8 * i) 8

/-! ### Writing an image (R275) -/

/-- A cursor's entry of the cut: sequence number and index, offset, stage, whether it is a member, which loops are open, passes by loop
counter. -/
def CutEntry.bytes (e : CutEntry) : List Byte :=
  let pass (n : Nat) : Nat := match e.loops.find? fun l => l.nc = n with | some l => l.j % 2 ^ 32 | none => 0
  let open_ (n : Nat) : Nat := b2n (e.loops.any fun l => l.nc = n) * 2 ^ (53 + n)
  dws [e.seq % 2 ^ 32 * 2 ^ 32 + e.idx % 2 ^ 32, e.pc % 2 ^ 48 + e.stage % 8 * 2 ^ 48 + b2n e.valid * 2 ^ 51 + b2n e.took * 2 ^ 52 +
         open_ 0 + open_ 1 + open_ 2 + open_ 3,
       pass 0 + pass 1 * 2 ^ 32, pass 2 + pass 3 * 2 ^ 32]

/-- A loop's record. -/
def Loop.bytes (l : Loop) : List Byte :=
  fill 64 (dws [1 + l.nc * 2 + b2n l.p * 8 + l.s * 16 + l.stageOut * 256 + b2n l.clamped * 2 ^ 16, l.n % 2 ^ 32 + l.origN % 2 ^ 32 * 2 ^ 32,
                l.i % 2 ^ 32 + l.e % 2 ^ 32 * 2 ^ 32, l.sT.toNat, l.pc % 2 ^ 48, l.iNext % 2 ^ 32 + l.idx % 2 ^ 32 * 2 ^ 32])

/-- The loop of a record. -/
def loopOf (bs : List Byte) (off : Nat) : Loop :=
  let a := imgD bs off 0
  { nc := bits a 1 2, p := a.testBit 3, s := bits a 4 4, stageOut := bits a 8 8, clamped := a.testBit 16, n := imgD bs off 1 % 2 ^ 32,
    origN := imgD bs off 1 / 2 ^ 32, i := imgD bs off 2 % 2 ^ 32, e := imgD bs off 2 / 2 ^ 32, sT := BitVec.ofNat 64 (imgD bs off 3),
    pc := imgD bs off 4 % 2 ^ 48, iNext := imgD bs off 5 % 2 ^ 32, idx := imgD bs off 5 / 2 ^ 32, j := 0 }

/-- A recorded trap (R275): TRAPCAUSE, TRAPSEQ, its details. -/
def TrapRec.bytes (b : Bank) (r : TrapRec) : List Byte :=
  dws [r.causeWord, b.seqWord r, 0, 0] ++ r.det.toList.flatMap fun w => leBytes 8 w.toNat

/-- A walker (R183). -/
def Walker.bytes (w : Walker) : List Byte := fill 64 (leBytes 32 w.hdr.toNat ++ dws [b2n w.conf + b2n w.store * 2 + w.pos % 2 ^ 32 * 2 ^ 32])

/-- Lane states. -/
def laneBytes (x : Vector (BitVec 32) 64) : List Byte := x.toList.flatMap fun v => leBytes 4 v.toNat

/-- A furrow (R239), its stream and directory wholly in the region. -/
def Furrow.bytes (f : Furrow) : List Byte :=
  fill 64 (dws [b2n f.opened + f.lc % 128 * 2 + b2n f.child * 256 + f.parent % 16 * 512 + b2n f.empty * 2 ^ 13 + b2n f.full * 2 ^ 14 +
                  b2n f.loose * 2 ^ 15, f.sl % 2 ^ 32 * 2 ^ 32 + f.dd % 2 ^ 32, f.region.toNat, f.size, f.since]) ++ laneBytes f.x

/-- A table slot: the image of R236 and VALID. -/
def FTable.bytes (t : FTable) : List Byte :=
  fill 528 ((t.f.toList.flatMap fun v => leBytes 2 v) ++ leBytes 2 t.n) ++ fill 16 (dws [b2n t.valid])

/-- A mark. -/
def FMark.bytes (m : FMark) : List Byte :=
  fill 64 (dws [b2n m.valid + m.fn % 16 * 2 + m.lc % 128 * 32, m.sl % 2 ^ 32 * 2 ^ 32 + m.dd % 2 ^ 32]) ++ laneBytes m.x

/-- A queue's count, and the places that a walker entry still owes. -/
def queueWord (q : List Slot) : Nat :=
  q.length % 32 + ((q.zipIdx.map fun p => if p.1.val.isNone then 2 ^ (p.2 + 8) else 0).sum)

/-- A queue's entries. -/
def queueBytes (q : List Slot) : List Byte := fill 8192 (q.flatMap fun e => leBytes 512 (e.val.getD 0).toNat)

/-- The bank whose cut an image of a context holds: that of the current level for a self-save, else the held one. -/
def Ctx.imageBank (k : Ctx) (self : Bool) : Bank := k.bankAt (if self then k.pl else Nat.max 1 k.held)

/-- The migration exporter withholds the counter fields from an image that the running context writes (R363): of a context of another partition or
of a lower level, unless MIGR passes them exactly to the hypervisor. -/
def State.counterHidden (s : State) (c : CoreId) (t : CtxId) : Bool :=
  (s.partOf c t ≠ s.myPart || (s.ctx c t).pl < s.me.pl) && (s.gran (s.partOf c t) 6 1 0).1 ≠ 4

/-- The image of context `t` of core `c` (R275) with number `tok`; `self` is the address register of a self-save (R272). The registers of the
area of trap bank 1 that describe a held cut are those of the bank that holds it (DEDUCED, assumption log 11: R273 resumes at the image's
TRAPPL); TRAPVEC and TRAPSCR are bank 1's. -/
def State.image (s : State) (c : CoreId) (t : CtxId) (self : Option SReg) (tok : Nat) : List Byte :=
  let q := s.core c
  let g := s.grant c t
  let k := q.ctx t
  let b := k.imageBank self.isSome
  let cutE (i : Nat) : List Byte := match b.cut with | some u => (u.ents.get (Fin.ofNat 7 i)).bytes | none => List.replicate 32 0
  let loops : List Loop := match b.cut with | some u => u.ents.toList.flatMap fun e => e.loops | none => []
  let loopR (n : Nat) : List Byte := match loops.find? fun l => l.nc = n with | some l => l.bytes | none => List.replicate 64 0
  let sreg (i : Fin 32) : Word := if self = some i && i.val ≠ 0 then (k.bankAt k.pl).scr else k.rdS i
  let mine (ok : Bool) (bs : List Byte) : List Byte := if ok then bs else bs.map fun _ => 0
  let cause := (k.pending.map fun r => r.cause).eraseDups
  let r0 := b.traps.head?
  let k1 := k.bankAt 1
  let hidden : Bool := s.counterHidden c t
  let fur (f : Furrow) : List Byte := Furrow.bytes { f with loose := f.loose || s.furForeign c t f, since := s.cycle + 1 }
  fill 64 (dws [0x47484E3800000001, 0x1C000, g.part % 16 + c.val * 16 + t.val * 2 ^ 11 + b2n b.cut.isSome * 2 ^ 16]) ++
  dws [k.pl, k.slipwin, k.vstat, k.vrkey.toNat, k.vrctr.toNat, k.mstat, k.cstat, b2n k.wfeto] ++
  dws (if hidden then List.replicate 16 codeWithheld else k.cntsel.toList ++ (List.range 8).map fun i =>
    if cntListed (vget k.cntsel i 0 % 256) then vget k.cnt i 0 else codeUnavail) ++
  (List.finRange 32).flatMap (fun i => leBytes 8 (sreg i).toNat) ++
  k.h.toList.flatMap (fun h => leBytes 32 h.toNat) ++
  (List.range 64).flatMap (fun f => mine (g.hasFlag f) (leBytes 4 (vget q.flags f 0).toNat)) ++
  (List.range 7).flatMap cutE ++
  dws [(match b.cut with | some u => (match u.fork with | some m => 1 + m.toNat * 2 | none => 0) + u.slip % 2 ^ 13 * 2 ^ 16 | none => 0),
       (cause.map fun e => 2 ^ e).sum,
       (match b.cut with | some u => u.text % 2 ^ 16 | none => 0) + k.prio % 4 * 2 ^ 16 + k.member % 16 * 2 ^ 18 + k.task.getD 0 % 2 ^ 32 * 2 ^ 32,
       tok] ++
  (List.range 4).flatMap loopR ++
  dws [(match r0 with | some r => r.causeWord | none => 0), b.pc.toNat, (match r0 with | some r => (vget r.det 0 0).toNat | none => 0), k1.vec.toNat,
       k1.scr.toNat, b2n b.cut.isSome * 2 ^ 63 + b2n k.bracket.isSome * 2 ^ 62 + b2n b.ovf * 2 ^ 61 + b.traps.length % 32 * 2 ^ 56 +
         b.tsel % 8 * 4 + b.didx % 4, b.pl,
       b2n b.skip * 2 ^ 63 + (match r0 with | some r => b.seqWord r | none => 0)] ++
  fill 192 (dws [k.sstat, k.saecfg, k.clidx % 2 ^ 32 * 2 ^ 32 + k.clstat, k.obsring.toNat, k.obsctl]) ++
  (List.finRange 4).flatMap (fun w => mine (g.hasWalker w.val) (q.walker w).bytes) ++
  (List.finRange 4).flatMap (fun ch => mine (g.hasEng .cpy) (fill 256 (dws [(q.chans[ch]).wp, (q.chans[ch]).cmds.length,
    (match (q.chans[ch]).track with | some f => 1 + f.val * 2 | none => 0)]))) ++
  (List.range 16).flatMap (fun i => mine (g.hasABank i) (leBytes 8 (vget q.afmt i 0))) ++
  (List.range 16).flatMap (fun i => mine (g.hasCBank i) (leBytes 8 (vget q.cfmt i 0))) ++
  (List.range 16).flatMap (fun i => mine (g.hasEng .mtx) (leBytes 8 (vget q.wfmt i 0))) ++
  fill 128 (dws [g.word]) ++
  mine (g.hasEng .fur) (q.furs.toList.flatMap fur ++ q.tabs.toList.flatMap FTable.bytes ++ q.marks.toList.flatMap FMark.bytes) ++
  mine (g.hasEng .vec) (q.k.toList.flatMap (fun v => leBytes 128 v.toNat) ++ q.v.toList.flatMap fun v => leBytes 512 v.toNat) ++
  (List.finRange 8).flatMap (fun n => mine (g.hasQueue n.val) (leBytes 8 (queueWord (q.queue n)))) ++
  fill 512 (b.traps.flatMap (TrapRec.bytes b)) ++
  List.replicate 1472 0 ++
  (List.finRange 8).flatMap fun n => mine (g.hasQueue n.val) (queueBytes (q.queue n))

/-- The place of a slot in its queue. -/
def Core.slotPlace (k : Core) (q : QNo) (id : Nat) : Nat := ((k.queue q).findIdx? fun e => e.id = id).getD 0

/-- What the image of a context carries beside its bytes: slots stand in it by their places, and no host DMA channel is held. -/
def State.savedOf (s : State) (c : CoreId) (t : CtxId) (self : Bool) : Saved :=
  let q := s.core c
  let k := q.ctx t
  { cut := (k.imageBank self).cut
    walks := q.walkers.map fun (w : Walker) => (w.cmds.filter fun (m : WCmd) => m.ctx = t).map fun (m : WCmd) => { m with slot := q.slotPlace m.q m.slot }
    chans := q.chans.map fun (h : Channel) => (h.cmds.filter fun (m : CCmd) => m.ctx = t).map fun (m : CCmd) =>
      { m with suspended := m.suspended || m.dma.isSome, dma := none }
    accesses := k.accesses, epoch := k.epoch, pending := k.pending, owedFur := k.owedFur, cntWin := k.cntWin, obsDrop := k.obsDrop }

/-! ### Reading an image -/

/-- Places that R275 reserves. -/
def imageReserved : List (Nat × Nat) := [(0x18, 40), (0x968, 152), (0x1088, 120), (0xBA40, 1472)]

/-- TRAPCAUSE and TRAPSEQ hold nothing in their reserved bits (R267). -/
def trapWordsClean (cause seq : Nat) : Bool := bits cause 32 31 = 0 && bits cause 12 4 = 0 && bits seq 36 27 = 0

/-- No reserved field of an image is set, those of the registers that it holds included (R127, R267, R273, R330). The withheld code in the place of
a CNTSEL, which CSAVE writes there (R363), is no reserved field (DESIGN CHOICE, assumption log 11). -/
def imageClean (bs : List Byte) : Bool :=
  imageReserved.all (fun p => imgN bs p.1 p.2 = 0) &&
  bits (imgD bs 0 2) 13 3 = 0 && imgD bs 0 2 / 2 ^ 17 = 0 && imgD bs 0x40 0 < 4 && imgD bs 0x40 1 < 2 ^ 13 && imgD bs 0x40 2 &&& 0xDF = imgD bs 0x40 2 &&
  imgD bs 0x40 5 < 16 && imgD bs 0x40 6 < 32 && imgD bs 0x40 7 < 2 && ((List.range 8).all fun i => imgD bs 0x80 i < 2 ^ 9 || imgD bs 0x80 i = codeWithheld) &&
  imgD bs 0x940 0 < 16 && imgD bs 0x940 1 < 8 && bits (imgD bs 0x940 2) 3 29 = 0 && imgD bs 0x940 2 % 2 = 0 && imgD bs 0x900 6 < 4 &&
  trapWordsClean (imgD bs 0x900 0) (imgD bs 0x900 7) && bits (imgD bs 0x900 5) 5 51 = 0 &&
  ((List.range 16).all fun i => fmtRegOk 1 (imgD bs 0xF00 i) && fmtRegOk 2 (imgD bs 0xF80 i) && fmtRegOk 3 (imgD bs 0x1000 i)) &&
  ((List.range 8).all fun i => imgN bs (0xB840 + 64 * i + 16) 16 = 0 && trapWordsClean (imgD bs (0xB840 + 64 * i) 0) (imgD bs (0xB840 + 64 * i) 1) &&
    imgD bs 0xB800 i % 32 ≤ 16 && bits (imgD bs 0xB800 i) 5 3 = 0 && imgD bs 0xB800 i < 2 ^ 24)

/-- The image may be installed in context `t` (R273). -/
def State.imageOk (s : State) (c : CoreId) (t : CtxId) (bs : List Byte) : Bool :=
  let g := s.grant c t
  imgD bs 0 0 = 0x47484E3800000001 && imgD bs 0 2 % 16 = g.part && imgD bs 0x1080 0 = g.word && imageClean bs

/-- A recorded trap from its 64 bytes. -/
def trapOf (bs : List Byte) (off : Nat) : TrapRec :=
  let w := imgD bs off 0
  { async := w.testBit 63, cause := w % 256, code := bits w 16 16, tag := bits w 8 4, seq := imgD bs off 1 % 2 ^ 32, level := 1, park := false,
    det := Vector.ofFn fun i : Fin 4 => BitVec.ofNat 64 (imgD bs off (4 + i.val)) }

/-- Open loops, innermost first: an inner loop's LOOP stands later in the text. -/
def putLoop (l : Loop) : List Loop → List Loop
  | [] => [l]
  | a :: r => if a.idx ≤ l.idx then l :: a :: r else a :: putLoop l r

/-- A cut entry: position, passes and open loops from the bytes. A loop's record is the image's; where the record is that of another entry of
the same counter's loop, it is the one that was saved. -/
def cutEntryOf (bs : List Byte) (old : Option CutEntry) (i : Nat) : CutEntry :=
  let off := 0x700 + 32 * i
  let a := imgD bs off 0
  let b := imgD bs off 1
  let pass (n : Nat) : Nat := imgD bs off (2 + n / 2) / 2 ^ (32 * (n % 2)) % 2 ^ 32
  let rec_ (n : Nat) : Loop :=
    let r := loopOf bs (0x800 + 64 * n)
    match old.bind fun e => e.loops.find? fun l => l.nc = n && l.idx ≠ r.idx with | some l => l | none => r
  { seq := a / 2 ^ 32 % 2 ^ 32, idx := a % 2 ^ 32, pc := b % 2 ^ 48, valid := b.testBit 51, took := b.testBit 52
    loops := (List.range 4).foldl (fun ls n => if b.testBit (53 + n) then putLoop { rec_ n with nc := n, j := pass n } ls else ls) []
    stage := bits b 48 3 }

/-- The cut of an image. -/
def cutOfImage (bs : List Byte) (old : Option Cut) : Cut :=
  let f := imgD bs 0x7E0 0
  { ents := Vector.ofFn fun i : Fin 7 => cutEntryOf bs (old.map fun u => u.ents.get i) i.val
    fork := if f.testBit 0 then some (BitVec.ofNat 6 (bits f 1 6)) else none
    slip := bits f 16 13, text := imgD bs 0x7E0 2 % 2 ^ 16, fences := match old with | some u => u.fences | none => [] }

/-- The bank that an image's cut makes, over the vector and scratch registers of the bank it goes to. -/
def bankOfImage (bs : List Byte) (b : Bank) (old : Option Cut) : Bank :=
  let rec_ := imgD bs 0x900 5
  let held : Bool := (imgD bs 0 2).testBit 16
  { b with
    pc := BitVec.ofNat 64 (imgD bs 0x900 1), valid := held, ovf := rec_.testBit 61, tsel := bits rec_ 2 3, didx := bits rec_ 0 2, pl := imgD bs 0x900 6 % 4
    skip := (imgD bs 0x900 7).testBit 63, traps := (List.range (Nat.min 8 (bits rec_ 56 5))).map fun i => trapOf bs (0xB840 + 64 * i)
    cut := if held then some (cutOfImage bs old) else none }

/-- Lane states from bytes. -/
def lanesAt (bs : List Byte) (off : Nat) : Vector (BitVec 32) 64 := Vector.ofFn fun i : Fin 64 => BitVec.ofNat 32 (imgN bs (off + 4 * i.val) 4)

/-- A furrow from its 320 bytes. -/
def furrowOf (bs : List Byte) (off : Nat) : Furrow :=
  let a := imgD bs off 0
  { opened := a.testBit 0, lc := bits a 1 7, x := lanesAt bs (off + 64), base := imgD bs off 1 / 2 ^ 32, top := [], dbase := imgD bs off 1 % 2 ^ 32,
    dtop := [], region := BitVec.ofNat 64 (imgD bs off 2), size := imgD bs off 3, child := a.testBit 8, parent := bits a 9 4,
    empty := a.testBit 13, full := a.testBit 14, since := imgD bs off 4, loose := a.testBit 15 }

/-- A table slot from its 544 bytes. -/
def fTableOf (bs : List Byte) (off : Nat) : FTable :=
  { n := imgN bs (off + 512) 2, f := Vector.ofFn fun i : Fin 256 => imgN bs (off + 2 * i.val) 2, valid := (imgN bs (off + 528) 8).testBit 0 }

/-- A mark from its 320 bytes. -/
def fMarkOf (bs : List Byte) (off : Nat) : FMark :=
  let a := imgD bs off 0
  { valid := a.testBit 0, fn := bits a 1 4, lc := bits a 5 7, x := lanesAt bs (off + 64), sl := imgD bs off 1 / 2 ^ 32, dd := imgD bs off 1 % 2 ^ 32 }

/-- A vector of a core with the elements of the grant taken from an image. -/
def takeIf {α : Type} {n : Nat} (ok : Nat → Bool) (v : Vector α n) (f : Nat → α) : Vector α n :=
  Vector.ofFn fun i => if ok i.val then f i.val else v[i]

/-- A core with what an image holds of its engines, for the grant of context `t`. `d` moves the saved epochs past those of the context. -/
def Core.loadImage (q : Core) (g : Grant) (t : CtxId) (bs : List Byte) (sv : Option Saved) (d : Nat) : Core :=
  let entry (n i : Nat) : VReg := BitVec.ofNat 4096 (imgN bs (0xC000 + 8192 * n + 512 * i) 512)
  let queue (n : Nat) : List Slot :=
    let w := imgD bs 0xB800 n
    (List.range (w % 32)).map fun i => { id := q.nextSlot + 16 * n + i, val := if w.testBit (i + 8) then none else some (entry n i) }
  let wcmds (n : Nat) : List WCmd := match sv with
    | some v => (vget v.walks n []).map fun m => { m with ctx := t, epoch := m.epoch + d, slot := q.nextSlot + 16 * m.q.val + m.slot }
    | none => []
  let ccmds (n : Nat) : List CCmd := match sv with
    | some v => (vget v.chans n []).map fun m => { m with ctx := t, epoch := m.epoch + d }
    | none => []
  let walker (n : Nat) : Walker :=
    let w := imgD bs (0xA00 + 64 * n) 4
    { conf := w.testBit 0, hdr := BitVec.ofNat 256 (imgN bs (0xA00 + 64 * n) 32), store := w.testBit 1, pos := w / 2 ^ 32, cmds := wcmds n }
  let chan (n : Nat) : Channel :=
    let a := imgD bs (0xB00 + 256 * n) 2
    { wp := imgD bs (0xB00 + 256 * n) 0, cmds := ccmds n, track := if a.testBit 0 then some (Fin.ofNat 64 (bits a 1 6)) else none }
  { q with
    flags := takeIf g.hasFlag q.flags fun f => BitVec.ofNat 32 (imgN bs (0x600 + 4 * f) 4)
    setters := takeIf g.hasFlag q.setters fun _ => (15, 0)
    walkers := takeIf g.hasWalker q.walkers walker
    chans := takeIf (fun _ => g.hasEng .cpy) q.chans chan
    afmt := takeIf g.hasABank q.afmt fun i => imgD bs 0xF00 i
    cfmt := takeIf g.hasCBank q.cfmt fun i => imgD bs 0xF80 i
    wfmt := takeIf (fun _ => g.hasEng .mtx) q.wfmt fun i => imgD bs 0x1000 i
    furs := takeIf (fun _ => g.hasEng .fur) q.furs fun i => furrowOf bs (0x1100 + 320 * i)
    tabs := takeIf (fun _ => g.hasEng .fur) q.tabs fun i => fTableOf bs (0x2500 + 544 * i)
    marks := takeIf (fun _ => g.hasEng .fur) q.marks fun i => fMarkOf bs (0x3600 + 320 * i)
    k := takeIf (fun _ => g.hasEng .vec) q.k fun i => BitVec.ofNat 1024 (imgN bs (0x4000 + 128 * i) 128)
    v := takeIf (fun _ => g.hasEng .vec) q.v fun i => BitVec.ofNat 4096 (imgN bs (0x4800 + 512 * i) 512)
    queues := takeIf g.hasQueue q.queues queue
    nextSlot := q.nextSlot + 128 }

/-- A context with the registers of an image; the cut goes to bank `l` (R273). Its handle table, translation roots and other banks
stay, as they are no part of the image. -/
def Ctx.loadImage (k : Ctx) (bs : List Byte) (sv : Option Saved) (self : Bool) (d cycle : Nat) : Ctx :=
  let l := if self then k.pl else 1
  let causes := imgD bs 0x7E0 1
  let fs := imgD bs 0x7E0 2
  let ob := imgD bs 0x940 4
  let k1 := k.modBank 1 fun b => { b with vec := BitVec.ofNat 64 (imgD bs 0x900 3), scr := BitVec.ofNat 64 (imgD bs 0x900 4) }
  let k2 := k1.modBank l fun b => bankOfImage bs b (sv.bind (·.cut))
  { k2 with
    phase := if self then k.phase else .stopped
    pl := if self then k.pl else imgD bs 0x40 0 % 4
    held := if self then k.held else 1
    s := Vector.ofFn fun i : Fin 32 => BitVec.ofNat 64 (imgD bs 0x100 i.val)
    h := Vector.ofFn fun i : Fin 32 => BitVec.ofNat 256 (imgN bs (0x200 + 32 * i.val) 32)
    slipwin := slipStore (imgD bs 0x40 1), vstat := imgD bs 0x40 2, vrkey := BitVec.ofNat 64 (imgD bs 0x40 3),
    vrctr := BitVec.ofNat 64 (imgD bs 0x40 4), mstat := imgD bs 0x40 5, cstat := imgD bs 0x40 6, wfeto := imgD bs 0x40 7 = 1
    cntsel := Vector.ofFn fun i : Fin 8 => if imgD bs 0x80 i.val = codeWithheld then 0 else imgD bs 0x80 i.val
    cnt := Vector.ofFn fun i : Fin 8 => imgD bs 0x80 (8 + i.val)
    cntCode := Vector.ofFn fun i : Fin 8 => imgD bs 0x80 (8 + i.val) ≥ codeWithheld
    cntWin := match sv with | some v => v.cntWin | none => Vector.ofFn fun i : Fin 8 => Vector.replicate 3 (imgD bs 0x80 (8 + i.val))
    sstat := imgD bs 0x940 0, saecfg := imgD bs 0x940 1, clstat := imgD bs 0x940 2 &&& 6, clidx := imgD bs 0x940 2 / 2 ^ 32
    obsring := BitVec.ofNat 64 (imgD bs 0x940 3), obsEn := ob.testBit 63, obsLsz := lszStore (bits ob 58 5), obsTail := bits ob 29 29,
    obsHead := ob % 2 ^ 29, obsDrop := (match sv with | some v => v.obsDrop | none => 0)
    epoch := k.epoch + (match sv with | some v => v.epoch + 1 | none => 1)
    accesses := match sv with | some v => v.accesses.map fun a => { a with epoch := a.epoch + d } | none => []
    pending := match sv with | some v => v.pending.filter fun r => causes.testBit r.cause | none => []
    task := if fs / 2 ^ 32 = 0 then none else some (fs / 2 ^ 32), member := bits fs 18 4, prio := bits fs 16 2
    owedFur := match sv with | some v => v.owedFur | none => none
    fences := [], draining := false, acqs := [], watches := [], pendWatch := []
    dispatchAt := if self then k.dispatchAt else cycle
    walk := if self then k.walk else { k.walk with halted := true }, stream := if self then k.stream else []
    fork := none, stop := none, loads := if self then k.loads else [], stores := if self then k.stores else [] }

/-- The furrows of a context that an image has brought (R244): a region written since the image was saved makes every later pop undefined;
from now on the context's own unit writes there. -/
def State.furReopen (s : State) (c : CoreId) (t : CtxId) : State :=
  if !(s.grant c t).hasEng .fur then s
  else s.modCore c fun q => { q with furs := q.furs.map fun (f : Furrow) =>
    if f.opened then { f with loose := f.loose || s.furWritten c t f true, since := s.cycle } else f }

/-- An image installed in context `t` (R273). -/
def State.install (s : State) (c : CoreId) (t : CtxId) (bs : List Byte) (self : Bool) : State :=
  let sv := match imgD bs 0x7E0 3 with | 0 => none | n + 1 => s.saved[n]?
  let d := (s.ctx c t).epoch + 1
  let g := s.grant c t
  ((s.freeDma c t).modCore c fun q => ((q.dropWork t).loadImage g t bs sv d).modCtx t fun k => k.loadImage bs sv self d s.cycle).furReopen c t

/-! ### CSAVE and CLOAD (R272, R273) -/

/-- The issuer may act on another context (R272). -/
def State.mayAct (s : State) (t : CtxId) : Bool :=
  let k := s.ctx s.cur.core t
  s.me.pl ≥ 2 || (s.partOf s.cur.core t = s.myPart && (s.grant s.cur.core t).v && (k.phase = .empty || k.pl < s.me.pl))

/-- A system instruction may issue: no fork set, PL 1 or above (R107). -/
def State.sysOk (s : State) : Bool := !s.inFork && s.me.pl ≥ 1

/-- An earlier PREEMPT of the issuer that names context `t` has not been recorded (R374). -/
def State.awaits (s : State) (t : CtxId) : Bool := s.me.preempting.contains t

/-- An image's handle address: aligned, in a handle that allows the direction and holds it. -/
def State.imageHandle (s : State) (a : Word) (wr : Bool) : Option HInfo :=
  if a.toNat % 64 ≠ 0 then none else s.dramHandle s.cur.core s.cur.ctx a.toNat 0x1C000 (!wr) wr

/-- The context may be saved: PARKED or STOPPED, or the issuer in HANDLER. -/
def State.savable (s : State) (t : CtxId) : Bool :=
  if t = s.cur.ctx then s.me.phase = .handler
  else s.mayAct t && ((s.ctx s.cur.core t).phase = .parked || (s.ctx s.cur.core t).phase = .stopped)

/-- The furrows of a context performed to their regions (R244, R272). -/
def State.furFlushAll (s : State) (c : CoreId) (t : CtxId) : Option (Nat × XFault) × State :=
  if !(s.grant c t).hasEng .fur then (none, s)
  else (s.core c).furs.toList.foldl (fun (a : Option (Nat × XFault) × State) f =>
    match a.1 with
    | some _ => a
    | none => if !f.opened then a else let r := a.2.furPerform c t 0 f; (r.1, r.2.1)) (none, s)

/-- CSAVE (R272). -/
def execCsave (a : SReg) (ctx : CtxId) (s : State) : Host.Outcome State Fault Refusal :=
  let c := s.cur.core
  let w := s.rdS a
  if s.awaits ctx || !s.me.stores.isEmpty then s.hold
  else if !s.sysOk || !s.savable ctx then .next s.trapRange
  else match s.imageHandle w true with
    | none => .next (if w.toNat % 64 = 0 then s.trapHandles [w.toNat] 0 true else s.trapRange)
    | some i =>
      let va := i.base + haddrO w.toNat
      let u := ctlUnit c s.cur.ctx
      match s.probeVa u none w.toNat va 0x1C000 .wr with
      | (some f, _) => .next (s.trapXlate (f.haddr w.toNat va) f 0)
      | (none, s1) =>
        match s1.furFlushAll c ctx with
        | (some e, _) => .next (s.trapXlate e.1 e.2 3)
        | (none, s2) =>
          let self : Option SReg := if ctx = s.cur.ctx then some a else none
          let img := s2.image c ctx self (s2.saved.length + 1)
          let s3 := { s2 with saved := s2.saved ++ [s2.savedOf c ctx self.isSome] }
          .next (((s3.writeVa u none 0 w.toNat va img).2).issued.modMe fun k =>
            { k with bracket := k.bracket.map fun b => { b with images := b.images ++ [w] } })

/-- The context may take an image: EMPTY, PARKED or STOPPED, or the issuer in HANDLER. -/
def State.loadable (s : State) (t : CtxId) : Bool :=
  if t = s.cur.ctx then s.me.phase = .handler
  else s.mayAct t && ((s.ctx s.cur.core t).phase = .empty || (s.ctx s.cur.core t).phase = .parked || (s.ctx s.cur.core t).phase = .stopped)

/-- The image at a handle address read on the CTL path: a translation fault with the handle address that met it, nothing where the image is
refused, or its bytes. -/
def State.readContext (s : State) (w : Word) (t : CtxId) : Except (Nat × XFault) (Option (List Byte)) × State :=
  if !s.loadable t || w.toNat % 64 ≠ 0 then (.ok none, s)
  else match s.imageHandle w false with
  | none => (match s.handleFault s.cur.core s.cur.ctx [w.toNat] 0 false with | some e => .error e | none => .ok none, s)
  | some i =>
    let va := i.base + haddrO w.toNat
    match s.readVa (ctlUnit s.cur.core s.cur.ctx) none 0 (s.me.governing s.curIdx) false w.toNat va 0x1C000 with
    | (.error f, s1) => (.error (f.haddr w.toNat va, f), s1)
    | (.ok bs, s1) => (.ok (if s1.imageOk s.cur.core t bs then some bs else none), s1)

/-- A CLOAD's effect; nothing where it is refused. -/
def State.cloadNow (s : State) (w : Word) (t : CtxId) : State :=
  match s.readContext w t with
  | (.ok (some bs), s1) => s1.install s.cur.core t bs (t = s.cur.ctx)
  | _ => s

end Sys2Proof.Machine
end

