-- ==== Sys2Proof/Machine/Stops.lean ====
section
/-! DEFINITION. Sys2Proof/Machine/Stops.lean: the events of a stop and the asynchronous conditions (R14, R53, R230, R231, R263 to R268,
R277, R362). -/

namespace Sys2Proof.Machine

/-! ### Accepting (R53, R263) -/

/-- The preemptible loop that the walk stands in: only an outermost loop is one (R48). -/
def Ctx.preemptible (k : Ctx) : Bool := match k.walk.loops.getLast? with | some l => l.p && !k.walk.halted | none => false

/-- LOOP_CLAMP (R53): J is the pass the foremost cursor has entered. -/
def Loop.clamp (l : Loop) : Loop :=
  let nxt := Nat.min l.n (l.j + 1)
  { l with n := nxt, e := Nat.max l.i (nxt + l.s - 2), iNext := nxt, clamped := true }

/-- The walk with its outermost loop clamped. -/
def Walk.clampOuter (w : Walk) : Walk :=
  match w.loops.reverse with
  | l :: r => { w with loops := (l.clamp :: r).reverse }
  | [] => w

/-- A stop is accepted for an asynchronous trap, a breakpoint or a forced bracket (R263). -/
def State.acceptStop (s : State) (c : CoreId) (x : CtxId) (forced : Bool) : State :=
  let clamp := (s.ctx c x).preemptible
  (s.beginStop c x [] clamp forced []).modCtx c x fun k => if clamp then { k with walk := k.walk.clampOuter } else k

/-- A stop point at which a stop would be accepted. -/
def State.acceptDue (s : State) (c : CoreId) (x : CtxId) : Bool :=
  let k := s.ctx c x
  (k.phase = .running || k.phase = .handler) && k.stop.isNone && (s.deliverable c x).isSome

/-- STOP_ACCEPT (R263). -/
def execStopAccept (c : CoreId) (x : CtxId) (s : State) : Host.Outcome State Fault Refusal :=
  if s.acceptDue c x then .next (s.acceptStop c x false) else .next s

/-- The stop of a context can be recorded: its acceptance is past, and every drain has ended. -/
def State.recordDue (s : State) (c : CoreId) (x : CtxId) : Bool :=
  match (s.ctx c x).stop with
  | some st => st.at_ < s.cycle && s.drained c x st
  | none => false

/-- STOP_RECORD (R221, R263 to R268). -/
def execStopRecord (c : CoreId) (x : CtxId) (s : State) : Host.Outcome State Fault Refusal :=
  if s.recordDue c x then .next ((s.parkCopies c x).recordStop c x) else .next s

/-! ### Brackets (R277) -/

/-- A deferred pre-emption waits for the bracket of context `x`: for its own or for one that the bracket names. -/
def Core.bracketHolds (q : Core) (x : CtxId) : Bool :=
  (q.ctx x).bracket.isSome && (List.finRange 4).any fun y =>
    (y = x || (q.ctx x).deferred.any fun d => match d with
      | .cload _ z | .preempt _ z | .resume z | .requeue z | .abort z | .doorbell _ z => z = y) &&
    ((q.ctx y).phase = .running || (q.ctx y).phase = .handler) && (q.ctx y).pending.any fun r => r.cause = 0x10 && r.level = 2 && r.level > (q.ctx y).pl

/-- BRACKET_FORCE is due: 17,000 cycles after the deferred pre-emption could have been accepted, at a stop point of the owner that is not in a
handler of a higher level than the bracket's (R261). -/
def State.forceDue (s : State) (c : CoreId) (x : CtxId) : Bool :=
  let k := s.ctx c x
  (match k.bracket with | some b => b.pl = k.pl | none => false) && (k.phase = .running || k.phase = .handler) && k.stop.isNone &&
    match k.bracketWait with | some t => t + 17000 ≤ s.cycle | none => false

/-- The images that the bracket has written are undefined (R277). -/
def State.spoilImages (s : State) (c : CoreId) (x : CtxId) (ws : List Word) : State :=
  ws.foldl (fun (t : State) w => match (t.handle c x (haddrH w.toNat)).1 with
    | .bound i => t.spoilVa (ctlUnit c x) none 0 w.toNat (i.base + haddrO w.toNat) 0x1C000
    | _ => t) s

/-- BRACKET_FORCE (R277): the owner's stop is forced; recorded, it goes back to its BOPEN word, and takes its own pre-emption where that
waited (State.recordStop). -/
def execBracketForce (c : CoreId) (x : CtxId) (s : State) : Host.Outcome State Fault Refusal :=
  match (s.ctx c x).bracket with
  | none => .next s
  | some b =>
    if s.forceDue c x then .next ((s.spoilImages c x b.images).acceptStop c x true) else .next s

/-! ### Breakpoints (R276, R362) -/

/-- The fields of a queue entry name: core, context, TAG, SEQ. -/
def nameParts (w : Word) : CoreId × CtxId × Nat × Nat :=
  (Fin.ofNat 128 (bits w.toNat 57 7), Fin.ofNat 4 (bits w.toNat 55 2), bits w.toNat 51 4, bits w.toNat 0 32)

/-- A word with sequence number `q` stands at the head of a tag's engine queue, its predicate on or off. -/
def Ctx.atHead (k : Ctx) (t : Tag) (q : Nat) : Bool :=
  let ws := k.stream.filter fun e => e.own = some t && e.idx < (k.cursor t).next && !e.issued
  (ws.takeWhile fun e => !e.on).any (fun e => e.seq = q) || (match k.head t with | some e => e.seq = q | none => false)

/-- Breakpoint `b` finds its word. -/
def State.breaks (s : State) (b : Bkpt) : Bool :=
  b.en && match nameParts b.name with
    | (c, x, t, q) => match allTags[t]? with
      | none => false
      | some tag =>
        let k := s.ctx c x
        s.partOf c x = b.part && (k.phase = .running || k.phase = .handler) && k.stop.isNone && k.task.isSome &&
          (b.task = 0 || k.task = some b.task) && k.atHead tag q

/-- BREAKPOINT_FIRE (R362): a pre-emption with PARK accepted in this cycle. -/
def execBreakpointFire (b : Fin 16) (s : State) : Host.Outcome State Fault Refusal :=
  let p := s.obs.bkpt[b]
  if !s.breaks p then .next s
  else
    let n := nameParts p.name
    let r : TrapRec := { async := true, cause := 0x10, code := 0, tag := 0, seq := 0, level := Nat.max 2 ((s.ctx n.1 n.2.1).pl + 1), park := true,
                         det := #v[BitVec.ofNat 64 (2 ^ 63 + b.val), 0, 0, 0], at_ := s.cycle }
    let s1 := { s with obs := { s.obs with bkpt := s.obs.bkpt.set b { p with hit := true } } }
    .next ((s1.modCtx n.1 n.2.1 fun k => { k with pending := k.pending ++ [r] }).acceptStop n.1 n.2.1 false)

/-! ### Key mismatches and soft errors (R14, R230, R231) -/

/-- KEY_MISMATCH (R230, R231): the memory controller's finding becomes a pending trap of the context that made the access. -/
def execKeyMismatch (c : CoreId) (x : CtxId) (s : State) : Host.Outcome State Fault Refusal :=
  match (s.core c).keyFaults.find? fun p => p.1 = x with
  | none => .next s
  | some p => .next ((s.modCore c fun k => { k with keyFaults := k.keyFaults.erase p }).modCtx c x fun k => k.pend s.cycle 0x0A 0 2 p.2)

/-- UNCORRECTED_SOFT_ERROR (R14, R269): a DRAM line is struck, and each later read of it raises the trap; or, with bit 63 of the number
set, a typed-buffer line (bits 17:16 the buffer, 15:0 the line) of the core in bits 62:56 is. -/
def execUncorrectedSoftError (line : Nat) (s : State) : Host.Outcome State Fault Refusal :=
  if line.testBit 63 then
    let c : CoreId := Fin.ofNat 128 (bits line 56 7)
    let p := (bits line 16 2, bits line 0 16)
    .next (s.modCore c fun k => { k with bad := if k.bad.contains p then k.bad else p :: k.bad })
  else .next { s with bad := if s.bad.contains line then s.bad else line :: s.bad }

end Sys2Proof.Machine
end

