-- ==== Sys2Proof/Machine/Dispatcher.lean ====
section
/-! DEFINITION. Sys2Proof/Machine/Dispatcher.lean: the events of the graph dispatcher: selection and dispatch (R173, R307, R308, R310,
R311, R313, R314), the end of DRAINING (R315, R346), aging (R312) and the start of a slice (R339). -/

namespace Sys2Proof.Machine

/-! ### Choosing (R310, R311) -/

/-- What a task costs: 1 and a unit for each engine of NEED, for each member (R311). -/
def Task.cost (t : Task) : Nat := (1 + popcount 6 t.need) * t.members

/-- The dispatcher may dispatch tasks of a partition: ACTIVE, not exhausted, no halted replay, no CHECKPOINT in progress (R337, R339,
R344, R347). -/
def State.mayDispatch (s : State) (p : Nat) : Bool :=
  let op := bits s.mg.pcmd.toNat 60 4
  (s.part p).state = 1 && !s.exh p && !(s.part p).replayHalt &&
    !(s.mg.busy && s.mg.running = 2 && op = 3 && bits s.mg.pcmd.toNat 56 4 = p)

/-- The eligible context of a core with the lowest CTXID (R310); the contexts of core 0 accept tasks from STAGE 4 on (R369). -/
def State.spotOn (s : State) (c : CoreId) (p need : Nat) : Option CtxId :=
  (List.finRange 4).find? fun x => (s.ctx c x).phase = .empty && s.ctxSuits c x p need && (c.val ≠ 0 || s.host.stage = 4)

/-- Where a task would go: for a group a context on every listed core, else the lowest core after the one last chosen (R173, R311). -/
def State.spots (s : State) (t : Task) : Option (List (CoreId × CtxId)) :=
  if t.gmask = 0 then
    let order : List CoreId := (List.range 128).map fun i => Fin.ofNat 128 ((s.dp t.part).lastCore + 1 + i)
    (order.findSome? fun c => (s.spotOn c t.part t.need).map fun x => (c, x)).map fun q => [q]
  else
    (gcores t.gdie t.gmask).foldr (fun n (a : Option (List (CoreId × CtxId))) => match a with
      | none => none
      | some l => (s.spotOn (Fin.ofNat 128 n) t.part t.need).map fun x => (Fin.ofNat 128 n, x) :: l) (some [])

/-- The oldest READY task of a partition at a level that has an eligible context. -/
def State.nextAt (s : State) (p level : Nat) : Option (Task × List (CoreId × CtxId)) :=
  if !s.mayDispatch p then none
  else
    let ts := s.disp.tasks.filterMap fun (t : Task) =>
      if t.part = p && t.phase = .ready && t.level = level then (s.spots t).map fun l => (t, l) else none
    ts.foldl (fun (a : Option (Task × List (CoreId × CtxId))) q => match a with
      | some b => if q.1.order < b.1.order then some q else some b
      | none => some q) none

/-! ### Dispatch (R307, R308, R313, R314) -/

/-- The launch block as the dispatcher reads it in a context: `some []` without one, `none` when the task cannot start. -/
def State.launchBlock (s : State) (c : CoreId) (x : CtxId) (t : Task) : Option (List Byte) × State :=
  if t.launch = 0 then (some [], s)
  else
    let n := (s.core c).keyFaults.length
    let refused (r : State) : Bool := (r.core c).keyFaults.length ≠ n
    let undo (r : State) : State := r.modCore c fun k => { k with keyFaults := k.keyFaults.take n }
    match s.readImage c x t.launch 256 1 with
    | (none, s1) => (none, s1)
    | (some bs, s1) =>
      if refused s1 then (none, undo s1)
      else if !(imgDw bs 0).testBit 32 then (some bs, s1)
      else match s1.readImage c x t.launch 1280 1 with
        | (none, s2) => (none, s2)
        | (some bs2, s2) => if refused s2 then (none, undo s2) else (some bs2, s2)

/-- The engine state of a grant at dispatch (R314): registers zero, flags 0, queues empty, walkers unconfigured, write pointers 0,
furrows closed, slots and marks not VALID; typed buffers and format registers stay. -/
def Core.dispatchItems (k : Core) (g : Grant) : Core :=
  let fl := (List.range 64).foldl (fun a f => if g.hasFlag f then a + 2 ^ f else a) 0
  { k with
    v := if g.hasEng .vec then Vector.replicate 56 0 else k.v
    k := if g.hasEng .vec then Vector.replicate 16 0 else k.k
    flags := setMasked k.flags fl 0
    setters := setMasked k.setters fl (15, 0)
    queues := setMasked k.queues (if g.v then g.qmask else 0) []
    walkers := setMasked k.walkers (if g.v then g.wmask else 0) Walker.reset
    chans := if g.hasEng .cpy then Vector.replicate 4 Channel.reset else k.chans
    furs := if g.hasEng .fur then Vector.replicate 16 Furrow.reset else k.furs
    tabs := if g.hasEng .fur then Vector.replicate 8 FTable.reset else k.tabs
    marks := if g.hasEng .fur then Vector.replicate 8 FMark.reset else k.marks }

/-- The dispatched context (R314). What the loader or the hypervisor writes into it before, its handle table and translation roots
(R225, R226), stays. -/
def Ctx.launch (k : Ctx) (t : Task) (i : Nat) (bs : List Byte) (tvec1 tvec2 : Word) (cycle : Nat) : Ctx :=
  let d0 := imgDw bs 0
  let b1 := k.bankAt 1
  let k1 : Ctx := { Ctx.reset with
    phase := .running
    s := Vector.ofFn fun r : Fin 32 => if r.val ≠ 0 && d0.testBit r.val then BitVec.ofNat 64 (imgDw bs r.val) else 0
    h := Vector.ofFn fun r : Fin 32 => if d0.testBit 32 then BitVec.ofNat 256 (leNat ((bs.drop (256 + 32 * r.val)).take 32)) else 0
    slipwin := if d0.testBit 33 then slipStore (bits d0 48 13) else 256
    htbase := k.htbase, s1root := k.s1root, s2root := k.s2root, handles := k.handles, dispatchAt := cycle
    bank := (k.bank.set 0 { Bank.reset with vec := tvec1, scr := b1.scr }).set 1 { k.bankAt 2 with vec := tvec2 }
    pending := k.pending, epoch := k.epoch, task := some t.num, member := i, prio := t.prio }
  let q : Acq := { at_ := cycle + 1, scope := 2, floors := Vector.replicate 64 0 }
  { (k1.enterText t.text t.entry cycle (Vector.replicate 7 0)) with acqs := [{ epoch := k.epoch, idx := 0, acq := q }] }

/-- One member of a task starts in its context. -/
def State.startMember (s : State) (c : CoreId) (x : CtxId) (t : Task) (i : Nat) (bs : List Byte) : State :=
  let q := s.part t.part
  let s1 := s.modCore c fun k => (k.dispatchItems (s.grant c x)).modCtx x fun k => k.launch t i bs q.tvec1 q.tvec2 s.cycle
  (s1.taskRecord c x t.part 4 t.num).heldReport c x

/-- TASK_DISPATCH (R313): every member starts in this step, or none: then the task is FAILED with report 6 (R308). -/
def State.dispatchTask (s : State) (t : Task) (at_ : List (CoreId × CtxId)) : State :=
  let blocks := at_.foldl (fun (a : List (Option (List Byte)) × State) q =>
    let r := a.2.launchBlock q.1 q.2 t
    (a.1 ++ [r.1], r.2)) ([], s)
  let s1 := (blocks.2.spend t.part t.cost).modDp t.part fun d => { d with lastCore := match at_.getLast? with | some q => q.1.val | none => d.lastCore }
  if blocks.1.any Option.isNone then s1.failTask t.part t.num
  else
    let s2 := s1.modTask t.part t.num fun t => { t with phase := .running, drained := 0 }
    ((at_.zip blocks.1).zipIdx).foldl (fun (r : State) m => r.startMember m.1.1.1 m.1.1.2 t m.2 (m.1.2.getD [])) s2

/-- A partition's deficit at a level. -/
def State.deficit (s : State) (p level : Nat) : Nat := vget (s.dp p).deficit level 0

/-- A partition's deficit at a level set. -/
def State.setDeficit (s : State) (p level v : Nat) : State := s.modDp p fun d => { d with deficit := vmod d.deficit level fun _ => v }

/-- The tasks that a visited partition has dispatched at a level while its deficit holds (R311). -/
def State.serve : Nat → Nat → Nat → State → State
  | 0, _, _, s => s
  | n + 1, p, level, s =>
    match s.nextAt p level with
    | none => s
    | some (t, l) =>
      if t.cost > s.deficit p level then s
      else State.serve n p level ((s.dispatchTask t l).setDeficit p level (s.deficit p level - t.cost))

/-- One visit of a partition (R311). -/
def State.visit (s : State) (p level : Nat) : State :=
  let s1 := { s with disp := { s.disp with lastServed := vmod s.disp.lastServed level fun _ => p } }
  let s2 := State.serve (s.disp.tasks.length + 1) p level (s1.setDeficit p level (s.deficit p level + (s.dp p).quantum))
  if s2.disp.tasks.any fun (t : Task) => t.part = p && t.phase = .ready && t.level = level then s2 else s2.setDeficit p level 0

/-- One round at the highest level that can be served; `none` when no READY task has an eligible context. -/
def State.selectRound (s : State) : Option State :=
  match [3, 2, 1, 0].find? fun l => (List.range 16).any fun p => (s.nextAt p l).isSome with
  | none => none
  | some l =>
    let start := vget s.disp.lastServed l 15 + 1
    let ps := ((List.range 16).map fun i => (start + i) % 16).filter fun p => (s.nextAt p l).isSome
    some (ps.foldl (fun (t : State) p => t.visit p l) s)

/-- The selection's rounds: each adds at least one unit to a deficit, and no task costs more than 112. -/
def State.selectAll : Nat → State → State
  | 0, s => s
  | n + 1, s => match s.selectRound with | none => s | some t => State.selectAll n t

/-- DISPATCH_SELECT (R311). -/
def execDispatchSelect (s : State) : Host.Outcome State Fault Refusal :=
  let t := State.selectAll (113 * (s.disp.tasks.length + 1)) s
  .next { t with disp := { t.disp with select := false } }

/-! ### The end of DRAINING (R315, R346) -/

/-- Every word the task issued has completed, and its writes are performed at PKG. -/
def State.drainDue (s : State) (c : CoreId) (x : CtxId) : Bool :=
  let q := s.core c
  let k := q.ctx x
  k.draining && k.phase = .running && k.stop.isNone && k.loads.isEmpty && k.replies.isEmpty && k.stores.isEmpty && k.busy.isEmpty && !k.tlbiOpen s.cycle &&
  k.owedFur.isNone && q.preemptsTaken x && (q.owedRes.all fun o => o.ctx ≠ x) && (q.vpend.all fun v => v.ctx ≠ x) && (q.mtx.all fun m => m.ctx ≠ x) && (q.sae.all fun a => a.ctx ≠ x) &&
  (match q.fcmd with | some f => f.ctx ≠ x | none => true) && (q.walkers.toList.all fun w => w.cmds.all fun m => m.ctx ≠ x) &&
  (q.chans.toList.all fun ch => ch.cmds.all fun m => m.ctx ≠ x) && s.performed c x [0, 1, 2, 3, 4, 5, 7] 2 &&
  !s.opWaits (s.partOf c x) (s.taskNum c x)

/-- The message of DIGEST (R346): for each out operand its bound length and the region's bytes. -/
def State.digestMessage (s : State) (c : CoreId) (x : CtxId) (t : Task) : List Byte × State :=
  (t.ops.filter fun o => o.2 ≥ 2).foldl (fun (a : List Byte × State) o =>
    match a.2.handle c x o.1 with
    | (.bound i, s1) =>
      match s1.readVa (ctlUnit c x) none 0 s1.acqNow true (o.1 * 2 ^ 48) i.base i.len with
      | (.ok bs, s2) => (a.1 ++ leBytes 8 i.len ++ bs, s2)
      | (.error _, s2) => let f := s2.freeBytes i.len; (a.1 ++ leBytes 8 i.len ++ f.1, f.2)
    | (_, s1) => (a.1 ++ leBytes 8 0, s1)) ([], s)

/-- The digest of a finished task, made where the partition logs or is replayed. -/
def State.doneDigest (s : State) (c : CoreId) (x : CtxId) (t : Task) : List Byte × State :=
  if (s.part t.part).log || (s.part t.part).replay.isSome then
    let m := s.digestMessage c x t
    (shake256 m.1 16, m.2)
  else ([], s)

/-- DRAINING_END (R315): the context becomes EMPTY; when the last member has ended the task is DONE, FUT is resolved with 0 and NEXT is
submitted. -/
def execDrainingEnd (c : CoreId) (x : CtxId) (s : State) : Host.Outcome State Fault Refusal :=
  if !s.drainDue c x then .next s
  else
    let p := s.partOf c x
    match (s.ctx c x).task.bind (s.task? p) with
    | none => .next (s.emptyCtx c x)
    | some t =>
      let s0 := s.taskRecord c x p 5 t.num
      if t.drained + 1 < t.members then .next ((s0.modTask p t.num fun t => { t with drained := t.drained + 1 }).emptyCtx c x)
      else
        let d := s0.doneDigest c x t
        match d.2.dispLog p 7 t.num t.num 0 d.1 [] with
        | (false, s1) => .next ((s1.modTask p t.num fun t => { t with phase := .done }).emptyCtx c x)
        | (true, s1) =>
          let s2 := (s1.modTask p t.num fun t => { t with phase := .done, drained := t.members }).emptyCtx c x
          let s3 := if t.fut = 0 then s2 else s2.resolve p (futNum t.fut) 0 none
          .next (if t.nextDesc = 0 then s3 else (s3.submit c x p t.nextDesc false t.num none).2)

/-! ### Aging and slices -/

/-- A READY task whose wait at its level is over (R312). -/
def State.agedTask (s : State) : Option Task :=
  if s.disp.age = 0 then none
  else s.disp.tasks.find? fun (t : Task) => t.phase = .ready && t.level < 3 && t.since + 2 ^ s.disp.age ≤ s.cycle

/-- TASK_AGE (R312). -/
def execTaskAge (s : State) : Host.Outcome State Fault Refusal :=
  match s.agedTask with
  | some t => .next (s.makeReady t.part t.num (t.level + 1))
  | none => .next s

/-- A slice is over (R339). -/
def State.sliceDue (s : State) : Bool := s.mg.sliceAt + Nat.max 1 s.mg.slice ≤ s.cycle

/-- SLICE_START (R339): every PSPENT is 0. -/
def execSliceStart (s : State) : Host.Outcome State Fault Refusal :=
  .next { s with
    mg := { s.mg with parts := s.mg.parts.map fun (q : Part) => { q with spent := 0 }, sliceAt := s.cycle }
    disp := { s.disp with select := true } }

end Sys2Proof.Machine
end

