-- ==== Sys2Proof/Machine/Sync.lean ====
section
/-! DEFINITION. Sys2Proof/Machine/Sync.lean: SETF, WAITF, PHASE, FENCE, WFE and its timeout (R97 to R102, R106). -/

namespace Sys2Proof.Machine

/-- SETF (R97): a release, then the update in the next cycle. -/
def execSetf (f : FlagNo) (a : SReg) (sc : Scope) (add : Bool) (s : State) : Host.Outcome State Fault Refusal :=
  if !s.releaseReady sc then s.hold
  else if !s.myGrant.hasFlag f.val then .next s.trapRange
  else
    let v := (s.rdS a).setWidth 32
    let i := s.curIdx
    .next ((s.issued.modMe fun k => k.releasedAt i s.cycle).seal.pushFlag s.cur.core
      { at_ := s.cycle + 1, key := 0, flag := f, add := add, val := v, setter := 0, score := 0, ctx := s.cur.ctx })

/-- An acquire issues after every earlier load of the context has returned its value (R294). -/
def State.loadsBack (s : State) : Bool := s.me.loads.isEmpty && s.me.loadAt < s.cycle

/-- The condition and the acquire's own wait of a WAITF (R98, R294). -/
def State.waitfReady (s : State) (f : FlagNo) (a : SReg) (cond : Fin 4) : Bool :=
  condMet cond.val (s.flag f) ((s.rdS a).setWidth 32) && s.loadsBack

/-- Cycles that the running control word has stood at the head of its queue (R359). -/
def State.waited (s : State) : Nat := match s.me.waitFrom with | some t => s.cycle - t | none => 0

/-- WAITF (R98, R296): waits for the flag, acquires, and writes the wait log. -/
def execWaitf (f : FlagNo) (a : SReg) (sc : Scope) (cond : Fin 4) (gate : BitVec 6) (s : State) :
    Host.Outcome State Fault Refusal :=
  if (cond.val = 0 && a.val ≠ 0) || cond.val = 3 then .fault .illFormed
  else if !s.myGrant.hasFlag f.val then .next s.trapRange
  else if !s.waitfReady f a cond then s.hold
  else
    let i := s.curIdx
    let w := s.waited
    let set := vget s.myCore.setters f.val (15, 0)
    let s1 := s.issued.modMe fun k =>
      let k1 := k.acquireAt i s.cycle sc
      let k2 := match setterPaths set.1 with
        | [] => k1
        | ps => k1.pushAcq i (k1.acq.raise ps (gatePaths gate) (s.cycle + 1))
      { k2 with waitFrom := none }
    .next ((s1.seal.count s.cur.core s.cur.ctx 0x30 1).waitRecord s.cur.core s.cur.ctx s.curSeq w f.val set.1 set.2 sc.val cond.val gate.toNat)

/-- PHASE REL (R101). -/
def execPhaseRel (sc : Scope) (s : State) : Host.Outcome State Fault Refusal :=
  if !s.releaseReady sc then s.hold
  else
    let i := s.curIdx
    .next (s.issued.modMe fun k => k.releasedAt i s.cycle).seal

/-- PHASE ACQ (R101). -/
def execPhaseAcq (sc : Scope) (s : State) : Host.Outcome State Fault Refusal :=
  if !s.loadsBack then s.hold
  else
    let i := s.curIdx
    .next (s.issued.modMe fun k => k.acquireAt i s.cycle sc).seal

/-- PHASE ACQREL (R101): the release first. -/
def execPhaseAcqrel (sc : Scope) (s : State) : Host.Outcome State Fault Refusal :=
  if !(s.releaseReady sc && s.loadsBack) then s.hold
  else
    let i := s.curIdx
    .next (s.issued.modMe fun k => (k.releasedAt i s.cycle).acquireAt i s.cycle sc).seal

/-- FENCE (R102): issues at once and stays open until the FROM paths' earlier writes are performed for the TO paths, whose later words wait
for that. -/
def execFence (src dst : BitVec 6) (s : State) : Host.Outcome State Fault Refusal :=
  if src = 0 || dst = 0 then .fault .illFormed
  else
    let f : OpenFence := { src := src, dst := dst, epoch := s.me.epoch, idx := s.curIdx, at_ := s.cycle, op := s.nextOpIdx s.myPart }
    .next (s.issued.modMe fun k => { k with fences := k.fences ++ [f] })

/-- WFE (R106): issues while EVT is set, clears it, and WFETO shows that no timeout ended the wait. -/
def execWfe (_a : SReg) (s : State) : Host.Outcome State Fault Refusal :=
  if !s.me.evt then s.hold
  else .next (s.issued.modMe fun k => { k with evt := false, wfeto := false, wfeFrom := none })

/-- The timeout of the WFE at the head of the control queue has passed (R106). -/
def State.wfeExpired (s : State) (c : CoreId) (x : CtxId) : Bool :=
  let k := s.ctx c x
  match k.wfeFrom, (k.head .ctl).bind (·.ins) with
  | some t, some (.wfe a) => !k.evt && k.rdS a ≠ 0 && t + (k.rdS a).toNat ≤ s.cycle
  | _, _ => false

/-- WFE_TIMEOUT (R106): the held WFE issues with WFETO = 1. -/
def execWfeTimeout (c : CoreId) (x : CtxId) (s : State) : Host.Outcome State Fault Refusal :=
  let s0 := { s with cur := { core := c, ctx := x, tag := .ctl } }
  .next (s0.issued.modMe fun k => { k with evt := false, wfeto := true, wfeFrom := none })

end Sys2Proof.Machine
end

