-- ==== Sys2Proof/Machine/System.lean ====
section
/-! DEFINITION. Sys2Proof/Machine/System.lean: TRAP, ERET (R104, R105, R270), CLOAD, SCTL and its brackets (R273, R274, R277, R374), and
TLBI (R234). -/

namespace Sys2Proof.Machine

/-! ### TRAP and ERET -/

/-- TRAP (R104): at PL 3, and inside a bracket (R277), the operand-range trap instead. -/
def execTrap (code : BitVec 16) (s : State) : Host.Outcome State Fault Refusal :=
  if s.me.pl ≥ 3 || s.me.bracket.isSome then .next s.trapRange
  else .next (s.raise 0x05 code.toNat (s.me.pl + 1) #v[BitVec.ofNat 64 s.curIdx, 0, 0, 0])

/-- ERET (R105, R270, R277). -/
def execEret (s : State) : Host.Outcome State Fault Refusal :=
  let k := s.me
  if k.pl = 0 || s.inFork || k.bracket.isSome || !(k.bankAt k.pl).valid then .next s.trapRange
  else .next (s.issued.returnFrom s.cur.core s.cur.ctx k.pl)

/-! ### TLBI (R234) -/

/-- A TLBI may issue at its least PL. -/
def State.tlbiOk (s : State) (pl : Nat) : Bool := !s.inFork && s.me.pl ≥ pl

/-- The entries that a TLBI names leave every TLB of the package, that of the collective engine too. The word stays outstanding until what they
translated for partition `p` is performed. -/
def State.tlbi (s : State) (p : Nat) (kind : TlbiKind) : State :=
  let keep (l : List TlbEntry) : List TlbEntry := l.filter fun e => !kind.takes e
  let s1 := { s with
    cores := s.cores.map fun (k : Core) =>
      if k.tlb.isEmpty && k.stlb.toList.all List.isEmpty then k else { k with tlb := keep k.tlb, stlb := k.stlb.map keep }
    col := { s.col with tlb := keep s.col.tlb } }
  s1.issued.modMe fun k => { k with tlbiKind := kind, tlbiWait := some (p, s.cycle) }

/-- Every access of partition `p` that issued up to cycle `t` has been performed at its own unit. -/
def State.accessesOver (s : State) (p t : Nat) : Bool :=
  (List.finRange 128).all fun c => (List.finRange 4).all fun x =>
    s.partOf c x ≠ p || ((s.ctx c x).stores.all fun a => a.order > t) && (s.ctx c x).loads.all fun a => a.order > t

/-- The cycle from which every write made for partition `p` so far is performed with respect to every core. -/
def State.settledAt (s : State) (p : Nat) : Nat :=
  s.hist.foldl (fun m e =>
    if s.partOf e.unit.core e.unit.ctx = p then (List.finRange 129).foldl (fun m o => Nat.max m (e.arr o.val)) m else m) (s.cycle + 1)

/-- An outstanding TLBI of a context at the end of a cycle (R234). -/
def State.tlbiTick (s : State) (c : CoreId) (x : CtxId) : State :=
  match (s.ctx c x).tlbiWait with
  | some w => if s.accessesOver w.1 w.2 then s.modCtx c x fun k => { k with tlbiWait := none, tlbiUntil := s.settledAt w.1 } else s
  | none => s

/-- TLBI HALL. -/
def execHall (s : State) : Host.Outcome State Fault Refusal :=
  if !s.tlbiOk 1 then .next s.trapRange
  else .next ((s.tlbi s.myPart .handles).modMe fun k => { k with handles := [] })

/-- TLBI HONE. -/
def execHone (a : SReg) (s : State) : Host.Outcome State Fault Refusal :=
  if !s.tlbiOk 1 then .next s.trapRange
  else
    let h := bits (s.rdS a).toNat 0 12
    .next ((s.tlbi s.myPart .handles).modMe fun k => { k with handles := k.handles.filter fun (e : HandleEntry) => e.num ≠ h })

/-- TLBI S1VA. -/
def execS1va (a b : SReg) (s : State) : Host.Outcome State Fault Refusal :=
  if !s.tlbiOk 1 then .next s.trapRange
  else .next (s.tlbi s.myPart (.s1va s.myPart (bits (s.rdS b).toNat 0 16) (bits (s.rdS a).toNat 0 48)))

/-- TLBI S1ASID. -/
def execS1asid (b : SReg) (s : State) : Host.Outcome State Fault Refusal :=
  if !s.tlbiOk 1 then .next s.trapRange
  else .next (s.tlbi s.myPart (.s1asid s.myPart (bits (s.rdS b).toNat 0 16)))

/-- TLBI S1ALL. -/
def execS1all (s : State) : Host.Outcome State Fault Refusal :=
  if !s.tlbiOk 1 then .next s.trapRange
  else .next (s.tlbi s.myPart (.part s.myPart))

/-- TLBI S2IPA: a partition above 15 traps. -/
def execS2ipa (a b : SReg) (s : State) : Host.Outcome State Fault Refusal :=
  let p := (s.rdS b).toNat
  if !s.tlbiOk 2 || p > 15 then .next s.trapRange
  else .next (s.tlbi p (.s2ipa p (bits (s.rdS a).toNat 0 48)))

/-- TLBI S2PART: a partition above 15 traps. -/
def execS2part (b : SReg) (s : State) : Host.Outcome State Fault Refusal :=
  let p := (s.rdS b).toNat
  if !s.tlbiOk 2 || p > 15 then .next s.trapRange
  else .next (s.tlbi p (.part p))

/-! ### What SCTL does to another context (R274) -/

/-- The requester word (R269). -/
def State.requester (s : State) : Word := BitVec.ofNat 64 (s.cur.core.val * 2 ^ 6 + s.myPart % 16 * 4 + s.cur.ctx.val)

/-- Whether an effect may take place now (R272, R274). -/
def State.effectOk (s : State) : Deferred → Bool
  | .cload w t => match (s.readContext w t).1 with | .ok (some _) => true | _ => false
  | .preempt _ t => t ≠ s.cur.ctx && s.mayAct t && (s.ctx s.cur.core t).phase = .running
  | .resume t =>
    let k := s.ctx s.cur.core t
    t ≠ s.cur.ctx && s.mayAct t && (k.phase = .parked || k.phase = .stopped) && (k.bankAt (Nat.max 1 k.held)).cut.isSome
  | .requeue t | .abort t =>
    let k := s.ctx s.cur.core t
    if t = s.cur.ctx then k.phase = .handler else s.mayAct t && (k.phase = .parked || k.phase = .stopped)
  | .doorbell _ t => t ≠ s.cur.ctx && s.mayAct t

/-- The effect; nothing where it may not take place. -/
def State.effect (s : State) (d : Deferred) : State :=
  let c := s.cur.core
  if !s.effectOk d then s
  else match d with
    | .cload w t => s.cloadNow w t
    | .preempt a t =>
      let r : TrapRec := { async := true, cause := 0x10, code := 0, tag := 0, seq := 0, level := s.me.pl, park := a.toNat.testBit 0,
                           det := #v[s.requester, 0, 0, 0], at_ := s.cycle }
      (s.modCtx c t fun k => { k with pending := k.pending ++ [r] }).modMe fun k => { k with preempting := k.preempting ++ [t] }
    | .resume t => s.returnFrom c t (Nat.max 1 (s.ctx c t).held)
    | .requeue t => s.requeueCtx c t
    | .abort t => s.abortCtx c t
    | .doorbell a t => s.modCtx c t fun k => k.pend s.cycle 0x13 (bits a.toNat 0 16) 1 #v[s.requester, 0, 0, 0]

/-- The context an effect acts on. -/
def Deferred.target : Deferred → CtxId
  | .cload _ t | .preempt _ t | .resume t | .requeue t | .abort t | .doorbell _ t => t

/-- The state as the effects deferred so far will leave it. -/
def State.afterDeferred (s : State) : State := s.me.deferred.foldl (fun (t : State) d => t.effect d) s

/-- A CLOAD or SCTL word with an effect: at once, or inside a bracket at BCLOSE (R277); what it does to its own context by REQUEUE or ABORT
is never deferred. -/
def State.sysWord (s : State) (d : Deferred) (selfNow : Bool) : Host.Outcome State Fault Refusal :=
  if s.awaits d.target || !s.me.stores.isEmpty then s.hold
  else if !s.sysOk then .next s.trapRange
  else if s.me.bracket.isSome && !(selfNow && d.target = s.cur.ctx) then
    if !s.afterDeferred.effectOk d then .next s.trapRange
    else .next (s.issued.modMe fun k => { k with deferred := k.deferred ++ [d] })
  else if !s.effectOk d then .next s.trapRange
  else .next ((s.issued).effect d)

/-- CLOAD (R273): a translation fault of the image is the word's. -/
def execCload (a : SReg) (ctx : CtxId) (s : State) : Host.Outcome State Fault Refusal :=
  let w := s.rdS a
  if s.awaits ctx || !s.me.stores.isEmpty then s.hold
  else if !s.sysOk then .next s.trapRange
  else match (s.readContext w ctx).1 with
    | .error e => .next (s.trapXlate e.1 e.2 0)
    | .ok img =>
      if s.me.bracket.isSome then s.sysWord (.cload w ctx) false
      else match img with
        | none => .next s.trapRange
        | some bs => .next (s.issued.install s.cur.core ctx bs (ctx = s.cur.ctx))

/-- SCTL PREEMPT (R274, R374). -/
def execPreempt (a : SReg) (ctx : CtxId) (s : State) : Host.Outcome State Fault Refusal := s.sysWord (.preempt (s.rdS a) ctx) false
/-- SCTL RESUME. -/
def execResume (ctx : CtxId) (s : State) : Host.Outcome State Fault Refusal := s.sysWord (.resume ctx) false
/-- SCTL REQUEUE. -/
def execRequeue (ctx : CtxId) (s : State) : Host.Outcome State Fault Refusal := s.sysWord (.requeue ctx) true
/-- SCTL ABORT. -/
def execAbort (ctx : CtxId) (s : State) : Host.Outcome State Fault Refusal := s.sysWord (.abort ctx) true
/-- SCTL DOORBELL. -/
def execDoorbell (a : SReg) (ctx : CtxId) (s : State) : Host.Outcome State Fault Refusal := s.sysWord (.doorbell (s.rdS a) ctx) false

/-- SCTL BOPEN (R277): the snapshot, with the cut at the BOPEN word itself. -/
def execBopen (ctx : CtxId) (s : State) : Host.Outcome State Fault Refusal :=
  let k := s.me
  if !s.sysOk || ctx ≠ s.cur.ctx || k.bracket.isSome then .next s.trapRange
  else
    let st : Stop := { at_ := s.cycle, traps := [], clamp := false, forced := false, fromHandler := false, cuts := [] }
    let b : Snap :=
      { s := k.s, h := k.h, n := k.n, evt := k.evt, slipwin := k.slipwin, vstat := k.vstat, vrkey := k.vrkey, vrctr := k.vrctr, mstat := k.mstat,
        cstat := k.cstat, sstat := k.sstat, saecfg := k.saecfg, clstat := k.clstat, clidx := k.clidx, obsring := k.obsring, obsEn := k.obsEn,
        obsLsz := k.obsLsz, obsTail := k.obsTail, obsHead := k.obsHead, htbase := k.htbase, s1root := k.s1root, s2root := k.s2root,
        cntsel := k.cntsel, cnt := k.cnt, cntCode := k.cntCode, cntWin := k.cntWin, vregs := s.myCore.v, kregs := s.myCore.k, bank := k.bank,
        pl := k.pl, cut := some (k.theCut st), wfeto := k.wfeto, walk := k.walk, images := [] }
    .next (s.issued.modMe fun k => { k with bracket := some b, deferred := [], bracketWait := none })

/-- SCTL BCLOSE (R277): the deferred effects in text order; none once the bracket's stop has been forced. -/
def execBclose (ctx : CtxId) (s : State) : Host.Outcome State Fault Refusal :=
  if !s.sysOk || ctx ≠ s.cur.ctx || s.me.bracket.isNone then .next s.trapRange
  else if (match s.me.stop with | some st => st.forced | none => false) then .next s.issued
  else
    let ds := s.me.deferred
    let s1 := s.issued.modMe fun k => { k with bracket := none, deferred := [], bracketWait := none }
    .next (ds.foldl (fun (t : State) d => t.effect d) s1)

end Sys2Proof.Machine
end

