-- ==== Sys2Proof/Machine/Holds.lean ====
section
/-! DEFINITION. Sys2Proof/Machine/Holds.lean: the holds that keep a word at the head of its queue (R35, R40, R45, R98, R101, R102, R137,
R181, R182, R199, R214, R286), each with its code of R361, and SAMPLE_TICK. -/

namespace Sys2Proof.Machine

/-! ### What a word reads and writes (R35) -/

/-- Scalar and header registers that a word reads and writes, as numbers 0–31 for s0–s31 and 32–63 for h0–h31. -/
structure Uses where
  rd : List Nat
  wr : List Nat
  deriving DecidableEq, Repr

def sNo (r : SReg) : Nat := r.val
def hNo (r : HReg) : Nat := 32 + r.val

/-- A word that reads registers, and one that also writes a scalar register. -/
def usesR (rs : List Nat) : Uses := { rd := rs, wr := [] }
def usesW (d : SReg) (rs : List Nat) : Uses := { rd := rs, wr := [sNo d] }

/-- The scalar register of a word's future, where it has one (R68). -/
def futReg (h : HOp) : List Nat := if h.ue then [sNo h.fs] else []

/-- The registers of every word; events have none. -/
def usesOf : Instr → Uses
  | .setf _ a _ _ | .waitf _ a _ _ _ | .wfe a | .csave a _ | .cload a _ | .hone a | .preempt a _ | .doorbell a _ | .csrw a _ => usesR [sNo a]
  | .fres a b | .cwatch a b | .s1va a b | .s2ipa a b => usesR [sNo a, sNo b]
  | .ffree a | .cunwatch a => usesR [sNo a]
  | .s1asid b | .s2part b => usesR [sNo b]
  | .fnew d => usesW d []
  | .tspawn d a | .fget d a | .csubmit d a | .cpoll d a => usesW d [sNo a]
  | .fatt d a b => usesW d [sNo a, sNo b]
  | .add d a b | .sub d a b | .and d a b | .or d a b | .xor d a b | .sll d a b | .srl d a b | .sra d a b | .slt d a b | .sltu d a b
  | .min d a b | .max d a b | .minu d a b | .maxu d a b | .mul d a b | .mulh d a b | .mulhu d a b | .div d a b | .divu d a b | .rem d a b
  | .remu d a b => usesW d [sNo a, sNo b]
  | .addi d a _ | .andi d a _ | .ori d a _ | .xori d a _ | .slli d a _ | .srli d a _ | .srai d a _ | .slti d a _ | .sltiu d a _
  | .ldI8 d a _ | .ldUi8 d a _ | .ldI16 d a _ | .ldUi16 d a _ | .ldI32 d a _ | .ldUi32 d a _ | .ldI64 d a _ | .jalr d a _
  | .csrx d a _ => usesW d [sNo a]
  | .lil d _ | .jal d _ | .csrr d _ => usesW d []
  | .lih d _ => usesW d [sNo d]
  | .stI8 r a _ | .stI16 r a _ | .stI32 r a _ | .stI64 r a _ => usesR [sNo r, sNo a]
  | .beq a b _ | .bne a b _ | .blt a b _ | .bge a b _ | .bltu a b _ | .bgeu a b _ => usesR [sNo a, sNo b]
  | .hdrw d _ a => { rd := [hNo d, sNo a], wr := [hNo d] }
  | .hdrr d a _ => usesW d [hNo a]
  | .vbcasts v => usesR [v.a.val % 32]
  | .awcfg w _ => usesR [hNo w.hdr]
  | .awgo w | .awgather w _ | .awscat w _ => usesR [sNo w.sc]
  | .mzero h => usesR [hNo h.hd]
  | .mma h _ | .mmat h _ | .mmas h _ _ => usesR [hNo h.hd, hNo h.ha, hNo h.hb]
  | .mdrain h _ => usesR [hNo h.hd, hNo h.ha]
  | .cpy h _ _ _ _ | .cpyc h _ _ | .cpyh h _ => usesR (futReg h ++ [hNo h.hd, hNo h.ha])
  | .cpym h hx _ _ _ => usesR (futReg h ++ [hNo h.hd, hNo h.ha, hNo h.hb, hNo hx])
  | .cpyd h _ _ _ => usesR (futReg h ++ [hNo h.hd, hNo h.ha, hNo h.hb])
  | .sadd o | .smin o | .smax o | .sor o | .sand o | .sxor o | .sxch o | .scas o => usesR [hNo o.h.hd]
  | .fopen h _ _ | .ftbl h _ | .fpush h _ _ | .fsplitSplit h _ _ | .fsplitImport h _ => usesR [hNo h.ha]
  | .fclose h _ sv => usesR (if sv then [hNo h.hd] else [])
  | .fpop h _ _ | .fstat h _ _ => usesR [hNo h.hd]
  | _ => usesR []

/-- The CSRs that a control-core word writes (R92), and one that it accesses at all. -/
def csrWritten : Instr → Option Nat
  | .csrw _ c | .csrx _ _ c => some c.toNat
  | _ => none
def csrTouched : Instr → Option Nat
  | .csrr _ c | .csrw _ c | .csrx _ _ c => some c.toNat
  | _ => none

/-- A vector word draws random bits (R137). -/
def vecDraws (i : Instr) : Bool := match vecWord i with | some w => w.draws | none => false

/-- A vector word raises flags of VSTAT, and so writes it (R137): additions, products, conversions of one type into another, special
functions, quotients and roots, float and level-index reductions and scans. -/
def vecRaises : Instr → Bool
  | .vadd v | .vsub v | .vmul v | .vfma v | .vfms v | .vfnma v | .vradd v | .vscanadd v => !isIntCode v.t.val
  | .vcvt v => v.t ≠ v.c
  | .vcvte _ | .vcvtl _ | .vexp _ | .vlog _ | .vrcp _ | .vrsqrt _ | .vtanh _ | .vgelu _ | .vdiv _ | .vsqrt _ => true
  | _ => false

/-! ### Words that stand earlier in the text -/

/-- The words of the stream that stand earlier than index `i` and have still to issue: those of a stopped cursor only where the cursor
had fetched them (R37). -/
def Ctx.owing (k : Ctx) (i : Nat) (p : Tag → SEntry → Bool) : Bool :=
  k.stream.any fun e => e.idx < i && !e.issued && e.on && match e.own with
    | some t => (k.cursor t).member && !((k.cursor t).stopped && e.idx ≥ (k.cursor t).next) && p t e
    | none => false

/-- An instruction of an entry satisfies `p`. -/
def SEntry.does (e : SEntry) (p : Instr → Bool) : Bool := match e.ins with | some i => p i | none => false

/-- A control-core result is still on its way to scalar register `r` (R80): `busy` holds those that cannot be read in this cycle. -/
def Ctx.awaited (k : Ctx) (r : Nat) : Bool :=
  r ≠ 0 && (k.loads.any (fun l => l.dst.val = r) || (k.replies.any fun l => l.dst.val = r) || k.busy.any fun b => b.1 = r)

/-- A register that the control core has still to write before index `i`. -/
def Ctx.unset (k : Ctx) (i r : Nat) : Bool :=
  r ≠ 0 && (k.awaited r || k.owing i fun t e => t = .ctl && e.does fun j => (usesOf j).wr.contains r)

/-- The random draws of an engine word outside the vector engine (R146, R205, R216). -/
def State.otherDraws (s : State) : Instr → Bool
  | .mdrain _ rm | .cpyc _ rm _ | .cpyd _ rm _ _ => isSr rm.val
  | .cpy h _ _ _ _ | .cpym h _ _ _ _ => match s.myCore.tensor (s.rdH h.hd) 8 with | some t => s.myCore.banksDraw t | none => false
  | _ => false

/-- A word draws random bits. -/
def State.draws (s : State) (i : Instr) : Bool := vecDraws i || s.otherDraws i

/-- The word is an SAE word with pairs, which reads SAECFG (R281). -/
def saePairs : Instr → Bool
  | .sadd _ | .smin _ | .smax _ | .sor _ | .sand _ | .sxor _ | .sxch _ | .scas _ => true
  | _ => false

/-- The word is a CPYM, whose matrix command counts for MSTAT as an MTX word at its text index (R199, R217). -/
def isCpym : Instr → Bool
  | .cpym _ _ _ _ _ => true
  | _ => false

/-- The translation CSRs HTBASE, S1ROOT and S2ROOT (R226), and the engines whose words use them. -/
def rootCsr (n : Nat) : Bool := 0x30 ≤ n && n ≤ 0x32
def translates (t : Tag) : Bool := t = .cpy || t = .sae || t = .fur

/-- The register holds of R35 on a word at index `i` of tag `t`, CSRs included (R92, R137, R199, R214, R217, R226, R281, R286). -/
def State.regHeld (s : State) (t : Tag) (i : Nat) (j : Instr) : Bool :=
  let k := s.me
  let u := usesOf j
  let ctlWrote (p : Nat → Bool) : Bool := k.owing i fun o e => o = .ctl && e.does fun x => (csrWritten x).any p
  let ctlWrites (n : Nat) : Bool := ctlWrote fun m => m = n
  let open_ (o : Tag) : Bool := k.owing i fun v _ => v = o
  if t = .ctl then
    ((u.rd ++ u.wr).any k.awaited) ||
    (u.wr.any fun r => r ≠ 0 && k.owing i fun o e => o ≠ .ctl && e.does fun x => (usesOf x).rd.contains r) ||
    (match csrTouched j with
     | some 0x11 => open_ .vec || s.myCore.vpend.any fun p => p.ctx = s.cur.ctx && k.isEarlier i p.epoch p.idx
     | some 0x12 => (csrWritten j).isSome && k.owing i fun o e => o ≠ .ctl && e.does s.draws
     | some 0x13 => k.owing i fun o e => o ≠ .ctl && e.does s.draws
     | some 0x14 => open_ .mtx || (k.owing i fun o e => o = .cpy && e.does isCpym) ||
       (s.myCore.mtx.any fun m => m.ctx = s.cur.ctx && k.isEarlier i m.epoch m.idx) ||
       s.myCore.chans.toList.any fun c => c.cmds.any fun m => m.ctx = s.cur.ctx && m.kind = 3 && m.phase ≠ 3 && k.isEarlier i m.epoch m.ent.idx
     | some 0x15 => open_ .cpy || s.myCore.chans.toList.any fun c => c.cmds.any fun m => m.ctx = s.cur.ctx && k.isEarlier i m.epoch m.ent.idx
     | some 0x16 => open_ .sae || s.myCore.sae.any fun m => m.ctx = s.cur.ctx && k.isEarlier i m.epoch m.idx
     | some 0x17 => k.owing i fun o e => o = .sae && e.does saePairs
     | some n => rootCsr n && (csrWritten j).isSome && k.owing i fun o _ => translates o
     | none => false) ||
    (match j with
     | .csave _ _ | .cload _ _ | .bopen _ => !k.loads.isEmpty || !k.replies.isEmpty
     | _ => false)
  else
    u.rd.any (k.unset i) || (vecRaises j && ctlWrites 0x11) || (translates t && ctlWrote rootCsr) || (s.draws j && (ctlWrites 0x12 || ctlWrites 0x13)) ||
      (saePairs j && ctlWrites 0x17)

/-! ### Flag waits and fences (R98, R101, R102) -/

/-- An earlier WAITF or PHASE gates words of engine `t` (R98, R101). -/
def gates (t : Tag) : Instr → Bool
  | .waitf _ _ _ _ g => g.toNat.testBit (engBit t)
  | .phaseAcq _ | .phaseAcqrel _ => true
  | _ => false

/-- A control-core load, and a word that submits to the collective engine. -/
def isLoad (j : Instr) : Bool :=
  match j with
  | .ldI8 _ _ _ | .ldUi8 _ _ _ | .ldI16 _ _ _ | .ldUi16 _ _ _ | .ldI32 _ _ _ | .ldUi32 _ _ _ | .ldI64 _ _ _ => true
  | _ => false
def isCpyh : Instr → Bool | .cpyh _ _ => true | _ => false
def isCsubmit : Instr → Bool | .csubmit _ _ => true | _ => false

/-- A word of tag `t` uses one of the paths of a mask: an engine's own path, HST for a CPYH, CTL for a load of the control core, COL for
what it submits (R102). -/
def onPaths (t : Tag) (j : Instr) (d : BitVec 6) : Bool :=
  match t with
  | .ctl => (d.toNat.testBit 0 && isLoad j) || (d.toNat.testBit 4 && isCsubmit j)
  | .cpy => d.toNat.testBit 1 || (d.toNat.testBit 5 && isCpyh j)
  | .sae => d.toNat.testBit 2
  | .fur => d.toNat.testBit 3
  | _ => false

/-- A FENCE has a path of a word among its TO paths (R102). -/
def fences (t : Tag) (j : Instr) : Instr → Bool
  | .fence _ d => onPaths t j d
  | _ => false

/-! ### Queues and inputs (R40) -/

/-- The hold of a word on its queues: 1 an entry to pop is missing, 2 a slot to push is, 0 nothing. A queue outside the grant, on which the word
traps once it issues, holds nothing (R77); entries that an earlier walker word owes stand before it (R187). -/
def State.queueCode (s : State) (pops pushes : List QNo) : Nat :=
  let k := s.myCore
  let own (l : List QNo) : List QNo := l.filter fun q => s.myGrant.hasQueue q.val
  let owed := k.owes s.cur.ctx s.me.epoch s.curIdx
  if !k.queuesReady (own pops) [] || owed (own pops) [] then 1
  else if !k.queuesReady (own pops) (own pushes) || owed [] (own pushes) then 2 else 0

/-- The SAE operation number of a word (R279). -/
def saeWordOf : Instr → Option (Nat × SOp)
  | .sadd o => some (1, o) | .smin o => some (2, o) | .smax o => some (3, o) | .sor o => some (4, o) | .sand o => some (5, o)
  | .sxor o => some (6, o) | .sxch o => some (7, o) | .scas o => some (8, o)
  | _ => none

/-- The walker word's kind and index queue. -/
def walkWordOf : Instr → Option (Nat × WOp × QNo)
  | .awgo o => some (2, o, 0) | .awgather o q => some (4, o, q) | .awscat o q => some (5, o, q)
  | _ => none

/-- The queue holds of a word. -/
def State.queueHeld (s : State) (j : Instr) : Nat :=
  match vecWord j with
  | some w => s.queueCode w.pops w.pushes
  | none => match saeWordOf j with
    | some (op, o) => s.queueCode (SOp.pops op o) (if o.re then [o.rq] else [])
    | none => match walkWordOf j with
      | some (kind, o, iq) =>
        let st := (s.myCore.walker o.wk).store
        let m := s.walkCmd kind o iq
        s.queueCode (m.pops st) (m.pushes st)
      | none => 0

/-- The channel of a copy word that needs room there. -/
def copyChannel : Instr → Option ChNo
  | .cpy _ _ _ _ c | .cpyc _ _ c | .cpym _ _ _ _ c | .cpyd _ _ _ c | .cpyh _ c => some c
  | _ => none

/-- The engine's own input is full (R40, R135, R152, R186, R206, R210, R246, R286). -/
def State.inputFull (s : State) (t : Tag) (j : Instr) : Bool :=
  let k := s.myCore
  match t with
  | .ctl => false
  | .vec => match vecWord j with | some w => vget k.vacc w.unit 0 > s.cycle | none => false
  | .mtx => !k.mtxRoom
  | .aw => match j with
    | .awcfg o _ | .awstop o => (k.walker o.wk).cmds.length ≥ 2
    | _ => match walkWordOf j with | some (_, o, _) => (k.walker o.wk).cmds.length ≥ 2 | none => false
  | .cpy => match copyChannel j with | some c => !s.cpyRoom c | none => false
  | .sae => !k.saeRoom s.cur.ctx
  | .fur => !s.furFree

/-! ### The range checker (R180 to R182, R208, R223, R258, R287) -/

/-- A control-core load or store: size, base register and IMM, and whether it stores. -/
def ctlAccessOf : Instr → Option (Nat × SReg × BitVec 30 × Bool)
  | .ldI8 _ a i | .ldUi8 _ a i => some (1, a, i, false)
  | .ldI16 _ a i | .ldUi16 _ a i => some (2, a, i, false)
  | .ldI32 _ a i | .ldUi32 _ a i => some (4, a, i, false)
  | .ldI64 _ a i => some (8, a, i, false)
  | .stI8 _ a i => some (1, a, i, true)
  | .stI16 _ a i => some (2, a, i, true)
  | .stI32 _ a i => some (4, a, i, true)
  | .stI64 _ a i => some (8, a, i, true)
  | _ => none

/-- The footprint of a control-core access (R88, R128): a line, or every byte of a bank. -/
def State.ctlPrint (s : State) (size : Nat) (a : SReg) (imm : BitVec 30) (wr : Bool) : List (Nat × Nat) :=
  match (s.target (s.rdS a) imm size wr).1 with
  | .buf b byte => [(b, 2 ^ (byte / 512))]
  | .fmtBlock o =>
    let p := fmtSlot o
    [(p.1, (2 ^ bankUnit p.1 - 1) * 2 ^ (bankUnit p.1 * p.2))]
  | _ => []

/-- The headers of an engine word that name its tensors. -/
def headersOf (j : Instr) : List HReg := (usesOf j).rd.filterMap fun n => if n ≥ 32 then some (Fin.ofNat 32 (n - 32)) else none

/-- A word at index `i` may access a typed buffer: a walker's does; others where one of their headers, or the address of a load or store,
is not settled yet or names one, or has a scale plane in ABUF (R180). -/
def State.mayTouch (s : State) (i : Nat) (j : Instr) : Bool :=
  match ctlAccessOf j with
  | some (size, a, imm, wr) => s.me.unset i a.val || !(s.ctlPrint size a imm wr).isEmpty
  | none => match j with
    | .awgo _ | .awgather _ _ | .awscat _ _ => true
    | .awcfg _ _ => false
    | _ => (headersOf j).any fun h => s.me.unset i (hNo h) || hf (s.rdH h) 11 ≠ 0 || hf (s.rdH h) 14 ≠ 0

/-- The footprints with which the word would issue; none where it would trap instead. -/
def State.prints (s : State) (j : Instr) : List Access4 :=
  let k := s.myCore
  let g := s.myGrant
  let fur (h : HOp) (rd wr : List (Nat × Nat)) : List Access4 := [s.footprint 11 h.ac.val rd wr]
  let line (t : Option Tensor) : List (Nat × Nat) := match t with | some t => if t.buf = 0 then [] else [(t.buf, t.mask)] | none => []
  let head (t : Option Tensor) (n : Nat) : List (Nat × Nat) := match t with | some t => if t.buf = 0 then [] else [(t.buf, t.headLines n)] | none => []
  let mma (h : HOp) (p : Option MPlan) : List Access4 := match p with | some p => [s.footprint 5 h.ac.val p.reads p.writes] | none => []
  let copy (h : HOp) (ch : ChNo) (p : Option CPlan) : List Access4 := match p with | some p => [s.cpyPrint ch h.ac.val p] | none => []
  match ctlAccessOf j with
  | some (size, a, imm, wr) => let m := s.ctlPrint size a imm wr; [s.footprint 0 0 (if wr then [] else m) (if wr then m else [])]
  | none => match walkWordOf j with
  | some (kind, o, iq) => if s.walkLegal kind o iq then [s.walkPrint kind o] else []
  | none => match saeWordOf j with
  | some (_, o) => match s.saeTarget (saeType o.ty.val) (s.rdH o.h.hd) with | some d => [s.saePrint o.h.ac.val d] | none => []
  | none => match j with
  | .mzero h => match k.zPlan g (s.rdH h.hd) with | some c => [s.footprint 5 h.ac.val [] [(2, c.mask)]] | none => []
  | .mma h o => mma h (k.mPlan g 0 o false (s.rdH h.hd) (s.rdH h.ha) (s.rdH h.hb))
  | .mmat h o => mma h (k.mPlan g 1 o false (s.rdH h.hd) (s.rdH h.ha) (s.rdH h.hb))
  | .mmas h o dm => mma h (k.mPlan g 2 o dm (s.rdH h.hd) (s.rdH h.ha) (s.rdH h.hb))
  | .mdrain h _ => match k.dPlan g (s.rdH h.hd) (s.rdH h.ha) with
    | some (d, c) => [s.footprint 5 h.ac.val [(2, c.mask), (1, d.planeMask)] [(1, d.mask)]]
    | none => []
  | .cpy h delta gs pr ch => copy h ch (s.cpyPlan 1 (s.rdH h.hd) (s.rdH h.ha) (if pr then s.peerOf delta.val gs.val else none))
  | .cpyc h _ ch => copy h ch (s.cpyPlan 2 (s.rdH h.hd) (s.rdH h.ha) none)
  | .cpyd h _ _ ch => copy h ch (s.cpyPlan 4 (s.rdH h.hd) (s.rdH h.ha) none)
  | .cpyh h ch => copy h ch (s.cpyPlan 5 (s.rdH h.hd) (s.rdH h.ha) none)
  | .cpym h hx mop ovw ch =>
    copy h ch (s.cpyPlan 3 (s.rdH h.hd) (s.rdH h.ha) none) ++
      (match k.cpymPlan g mop.val ovw (s.rdH h.hd) (s.rdH h.hb) (s.rdH hx) with
       | some mp => [s.footprint 12 h.ac.val mp.reads mp.writes]
       | none => [])
  | .fclose h _ sv => if sv then fur h [] (head (s.furPlace (s.rdH h.hd) true) 32) else []
  | .ftbl h _ | .fsplitImport h _ => fur h (line (s.furPlace (s.rdH h.ha) false)) []
  | .fpush h _ _ => fur h (line (s.furTile (s.rdH h.ha))) []
  | .fpop h _ _ => fur h [] (line (s.furTile (s.rdH h.hd)))
  | .fstat h _ _ => match k.tensor (s.rdH h.hd) 8 with
    | some t => fur h [] (if t.buf = 1 && t.d0 ≠ 0 then [(1, 2 ^ t.base)] else [])
    | none => []
  | _ => []

/-- The range checker holds the word (R181, R182): a cursor whose words could conflict owes an earlier one, an earlier access that
conflicts is incomplete, or 64 are being tracked. -/
def State.rangeHeld (s : State) (t : Tag) (i : Nat) (j : Instr) : Bool :=
  let k := s.me
  s.mayTouch i j && (
    (k.owing i fun u e => u ≠ t && u ≠ .vec && e.does fun x => s.mayTouch e.idx x) ||
    (s.prints j).any fun a => !a.isEmpty && (k.accesses.length ≥ 64 ||
      k.accesses.any fun x => k.isEarlier i x.epoch x.idx && x.unit ≠ a.unit && !clsApart x.cls a.cls && x.clashes a))

/-! ### The control core's own waits -/

/-- A dispatcher or collective function waits for its release (R103). -/
def State.xcmdHeld (s : State) : Instr → Bool
  | .tend => !s.inFork && !s.xcmdReady
  | .fatt _ _ _ | .fres _ _ | .fget _ _ | .ffree _ | .tspawn _ _ | .fnew _ | .csubmit _ _ | .cwatch _ _ | .cunwatch _ | .cpoll _ _ => !s.xcmdReady
  | _ => false

/-- The context that a CSAVE, CLOAD or SCTL word names (R374). -/
def sysTarget : Instr → Option CtxId
  | .csave _ c | .cload _ c | .preempt _ c | .resume c | .requeue c | .abort c | .doorbell _ c => some c
  | _ => none

/-- A load or store of a register of a block, which follows the accesses before it in the text (R128, R335). -/
def State.blockWaits (s : State) (j : Instr) : Bool :=
  match ctlAccessOf j with
  | some (_, a, _, wr) => haddrH (s.rdS a).toNat ≥ 4094 && haddrH (s.rdS a).toNat < 4096 && !(s.me.stores.isEmpty && (!wr || s.me.loads.isEmpty))
  | none => false

/-- A control-core word waits for a release (R97, R101), an acquire's loads (R294), the fork set's end (R38), a FUR word owed from an earlier one
(R246), a fence (R102), an event (R106), a release of its own (R103), a stop (R374) or a TLBI (R234). -/
def State.ctlWaits (s : State) (j : Instr) : Bool :=
  s.me.tlbiOpen s.cycle || s.xcmdHeld j || s.blockWaits j || s.me.fenced s.curIdx (onPaths .ctl j) ||
  (match sysTarget j with | some c => s.awaits c || !s.me.stores.isEmpty | none => false) ||
  match j with
  | .setf _ _ sc _ | .phaseRel sc => !s.releaseReady sc
  | .phaseAcqrel sc => !(s.releaseReady sc && s.loadsBack)
  | .phaseAcq _ => !s.loadsBack
  | .waitf _ _ _ _ _ => !s.loadsBack
  | .fork _ _ => s.me.owedFur.isSome
  | .join => s.me.joinHeld
  | .wfe _ => !s.me.evt && !s.wfeExpired s.cur.core s.cur.ctx
  | _ => false

/-- A WAITF whose flag does not meet its condition (R98); one outside the grant traps instead. -/
def State.flagHeld (s : State) : Instr → Bool
  | .waitf f a _ cond _ => s.myGrant.hasFlag f.val && !condMet cond.val (s.flag f) ((s.rdS a).setWidth 32)
  | _ => false

/-! ### The hold of a word -/

/-- What holds the running agent's head word, by R361's codes: 0 nothing, 1 and 2 a queue, 3 a flag wait, 4 the engine's input, 5 the range
checker, 6 an SLI result, 7 a register; 16 another wait of the control core, which R361 gives no code. -/
def State.holdCode (s : State) (j : Instr) : Nat :=
  let t := s.cur.tag
  let i := s.curIdx
  let k := s.me
  let gated : Bool := t ≠ .ctl && k.fork.isSome && k.owing i fun o e => o = .ctl && e.does (gates t)
  if gated || s.flagHeld j then 3
  else if s.regHeld t i j then 7
  else if s.inputFull t j then 4
  else if (t ≠ .ctl && ((k.owing i fun o e => o = .ctl && e.does (fences t j)) || k.fenced i (onPaths t j))) || s.rangeHeld t i j then 5
  else if (match vecWord j with | some w => s.myCore.scored w | none => false) then 6
  else if s.queueHeld j ≠ 0 then s.queueHeld j
  else if t = .ctl && s.ctlWaits j then 16
  else 0

/-- The running agent's head word `i` is held in this cycle (R40). -/
def State.held (s : State) (i : Instr) : Bool := s.holdCode i ≠ 0

/-! ### Samples (R361) -/

/-- The sequence number of a cursor's oldest unissued word and its hold as R361 codes it: 8 held by the slip bound, 9 stopped at RDV, 10
with an empty engine queue. A wait without a code is a free value. -/
def State.sampleOf (s : State) (c : CoreId) (x : CtxId) (t : Tag) : Nat × Nat :=
  let k := s.ctx c x
  let cu := k.cursor t
  match k.head t with
  | some e =>
    let code := match e.ins with | some i => ({ s with cur := { core := c, ctx := x, tag := t } }).holdCode i | none => 0
    (e.seq, if code = 16 then (s.freeVal 64).toNat else code)
  | none => (k.seqAt t cu.next, if cu.stopped then 9 else if k.fork.isSome && cu.next > k.pmin + k.slip then 8 else 10)

/-- Cycles between two samples. -/
def Obs.period (o : Obs) : Nat := 2 ^ o.sampPer

/-- Samples are due (R361). -/
def State.sampleDue (s : State) : Bool := s.obs.sampEn && s.obs.sampAt + s.obs.period ≤ s.cycle

/-- SAMPLE_TICK (R361): a KIND 3 record for each member cursor of each RUNNING context of PART. -/
def execSampleTick (s : State) : Host.Outcome State Fault Refusal :=
  if !s.sampleDue then .next s
  else
    let one (u : State) (c : CoreId) (x : CtxId) : State := allTags.foldl (fun (u : State) t =>
      if ((s.ctx c x).cursor t).member then
        let r := ({ s with fresh := u.fresh }).sampleOf c x t
        (u.sampleRecord c x (tagNum t) r.1 r.2).skipFresh 1
      else u) u
    let all := (List.finRange 128).foldl (fun (u : State) c => (List.finRange 4).foldl (fun (u : State) x =>
      if (s.ctx c x).phase = .running && (s.grant c x).v && s.partOf c x = s.obs.sampPart then one u c x else u) u) s
    .next { all with obs := { all.obs with sampAt := s.obs.sampAt + s.obs.period } }

end Sys2Proof.Machine
end

