-- ==== Sys2Proof/Machine/Partition.lean ====
section
/-! DEFINITION. Sys2Proof/Machine/Partition.lean: the partition commands of PCMD (R338, R343, R344, R347), acceptance of a policy (R348 to
R350), the register writes with rows of their own, and the end of a disclosure window (R352, R359, R361). -/

namespace Sys2Proof.Machine

/-! ### Commands (R338) -/

/-- PCMD's fields. -/
def State.cmdOp (s : State) : Nat := bits s.mg.pcmd.toNat 60 4
def State.cmdPart (s : State) : Nat := bits s.mg.pcmd.toNat 56 4
def State.cmdArg (s : State) : Nat := bits s.mg.pcmd.toNat 0 56

/-- The command `op` waits to start. -/
def State.cmdStarts (s : State) (op : Nat) : Bool := s.mg.busy && s.mg.running = 1 && s.cmdOp = op

/-- The command `op` is in progress. -/
def State.cmdRuns (s : State) (op : Nat) : Bool := s.mg.busy && s.mg.running = 2 && s.cmdOp = op

/-- The command has done its work, with an ERR; PCMD_COMPLETE follows. -/
def State.cmdOver (s : State) (err : Nat) : State := { s with mg := { s.mg with running := 3, err := err } }

/-- The command goes on. -/
def State.cmdBegin (s : State) : State := { s with mg := { s.mg with running := 2 } }

/-- PCMD_COMPLETE (R338): BUSY is cleared and the management interrupt raised; a reserved OP is a bad argument. -/
def execPcmdComplete (s : State) : Host.Outcome State Fault Refusal :=
  let atEnd (s : State) : State := { s with mg := { s.mg with busy := false, running := 0 } }.mgmtIrq
  if s.mg.busy && s.mg.running = 3 then .next (atEnd s)
  else if s.mg.busy && s.mg.running = 1 && !(1 ≤ s.cmdOp && s.cmdOp ≤ 5) then .next (atEnd (s.cmdOver 4))
  else .next s

/-- The package's DRAM holds the `n` bytes at a device-physical address (R10). -/
def inDram (pa n : Nat) : Bool := pa + n ≤ 2 ^ 38

/-- Bytes at a device-physical address of key-0 memory as the base die reads them; free values where a line has another key. -/
def State.physBytes (s : State) (pa n : Nat) : List Byte × State :=
  if (List.range (n / 64 + 2)).any fun i => pa / 64 + i ≤ (pa + n - 1) / 64 && s.lineKey ((pa / 64 + i) * 64) ≠ 0 then s.freeBytes n
  else s.readMem false engUnit 0 s.acqNow true pa n

/-! ### Policies (R348 to R350) -/

/-- GRAN values that a source accepts (R353). -/
def granAccepted (src : Nat) : List Nat :=
  match src with
  | 1 | 2 => [0, 1, 2, 3, 4] | 3 => [0, 3, 4] | 4 => [0, 1, 4] | 5 => [0, 2, 3, 4] | 6 => [0, 4] | 7 => [0, 2, 3, 4] | _ => []

/-- A rule's word (R349). -/
def ruleOf (w : Nat) : Rule := { src := bits w 60 4, rcpt := bits w 58 2, gran := bits w 55 3, wexp := bits w 50 5, event := bits w 42 8 }

/-- A rule sets no reserved field and asks for what its source gives (R349, R350). -/
def ruleOk (w : Nat) : Bool :=
  let r := ruleOf w
  (granAccepted r.src).contains r.gran && r.rcpt ≠ 3 && (r.wexp = 0 || (r.gran = 3 && r.wexp ≤ 20)) && (r.event = 0 || r.src ≤ 2) && bits w 0 42 = 0

/-- The rules of a policy image. -/
def policyRules (bs : List Byte) : List Nat := (List.range (imgDw bs 0 % 256)).map fun i => imgDw bs (8 + i)

/-- Two rules share SRC, RCPT and EVENT. -/
def rulesClash : List Rule → Bool
  | [] => false
  | r :: rest => (rest.any fun q => q.src = r.src && q.rcpt = r.rcpt && q.event = r.event) || rulesClash rest

/-- The digest that the policy's signature signs. -/
def policyDigest (bs : List Byte) : List Byte := shake256 (bs.take 0x180) 64

/-- CREATE accepts a policy (R350). -/
def policyOk (p : Nat) (bs : List Byte) : Bool :=
  let d0 := imgDw bs 0
  let n := d0 % 256
  let key := (bs.drop 0x140).take 57
  bits d0 32 32 = 0x53545631 && bits d0 16 16 = 1 && bits d0 12 4 = 0 && bits d0 8 4 = p && n ≤ 32 && imgDw bs 1 = 0 && imgDw bs 6 = 0 && imgDw bs 7 = 0 &&
  ((List.range 32).all fun i => i < n || imgDw bs (8 + i) = 0) && (policyRules bs).all ruleOk && !rulesClash ((policyRules bs).map ruleOf) &&
  ((bs.drop 0x179).take 7).all (· = 0) && ((bs.drop 0x1F2).take 14).all (· = 0) &&
  (bs.drop 0x10).take 32 = shake256 key 32 && ed448Verify key (policyDigest bs) ((bs.drop 0x180).take 114)

/-- An ACTIVE partition whose policy asks for windows. -/
def windowed (q : Part) : Bool := q.state = 1 && match q.policy with | some rs => rs.any fun r => r.gran = 3 | none => false

/-- CREATE (R338, R350). -/
def execCreate (s : State) : Host.Outcome State Fault Refusal :=
  let p := s.cmdPart
  let q := s.part p
  if !s.cmdStarts 1 then .next s
  else if q.state ≠ 0 then .next (s.cmdOver 1)
  else if q.key = 0 || !(s.grant q.hcore q.hctx).v || s.partOf q.hcore q.hctx ≠ p || s.cmdArg % 64 ≠ 0 || !inDram s.cmdArg 512 then .next (s.cmdOver 4)
  else
    let r := s.physBytes s.cmdArg 512
    if !policyOk p r.1 then .next (r.2.cmdOver 2)
    else
      let s1 := r.2.modPart p fun q => { q with
        state := 1, policy := some ((policyRules r.1).map ruleOf), digest := policyDigest r.1, ppwr := 0, pwrWin := Vector.replicate 3 0, sums := [] }
      let waits : Bool := s.mg.parts.toList.any windowed
      .next ({ s1 with
        disp := { s1.disp with select := true }
        -- the windows of a package without one began before now
        obs := { s1.obs with windowAt := if waits then s1.obs.windowAt else s.micros } }.cmdOver 0)

/-! ### RESET (R343) -/

/-- The contexts that CGRANT gives to a partition. -/
def State.contextsOf (s : State) (p : Nat) : List (CoreId × CtxId) :=
  (List.finRange 128).flatMap fun c => (List.finRange 4).filterMap fun x =>
    if (s.grant c x).v && s.partOf c x = p then some (c, x) else none

/-- The fence of a context: its stop is accepted, no handler runs and no cut is kept; nothing new leaves its units, and a transforming
copy is abandoned. Accesses that have left are still answered. -/
def State.fenceCtx (s : State) (c : CoreId) (x : CtxId) : State :=
  if (s.ctx c x).phase = .empty then s
  else
    let s1 := (s.freeDma c x).modCore c fun k => { k.dropWork x with owedRes := k.owedRes.filter fun o => o.ctx ≠ x }
    s1.modCtx c x fun k => { k with
      phase := .stopping, fences := [], owedFur := none, stop := none, stream := [], fork := none, bracket := none, deferred := [], bracketWait := none, preempting := [],
      pending := [], waitFrom := none, wfeFrom := none, draining := false, walk := Walk.reset, pendWatch := [] }

/-- The host's own queues of a partition send nothing more. -/
def State.fenceHost (s : State) (p : Nat) : State :=
  let mine (i : Nat) : Bool := s.host.runs.any fun r => r.num = i && (s.hq r.q).part = p
  { s with host := { s.host with
      dma := s.host.dma.map fun d => match d with
        | some h => (match h.host with | some i => if mine i then none else some h | none => some h)
        | none => none
      runs := s.host.runs.filter fun r => (s.hq r.q).part ≠ p } }

/-- Every outstanding request of a partition has been answered. -/
def State.fenceQuiet (s : State) (p : Nat) : Bool :=
  (s.contextsOf p).all fun q => (s.ctx q.1 q.2).loads.isEmpty && (s.ctx q.1 q.2).stores.isEmpty

/-- The answers that a unit of the partition would still receive are discarded; whether memory took a store that was still on its way is
open (R2). -/
def State.discardAnswers (s : State) (c : CoreId) (x : CtxId) : State :=
  let s1 := (s.ctx c x).stores.foldl (fun (t : State) st =>
    let t1 := t.skipFresh 1
    if st.buf = 0 && (t.freeVal 1).toNat = 1 then t1.writePhys (ctlUnit c x) 0 st.haddr st.va st.addr st.key st.bytes else t1) s
  s1.modCtx c x fun k => { k with loads := [], stores := [], replies := [] }

/-- A context of the partition after RESETTING: EMPTY, with the granted items reset. Its handle table and translation roots, which the
loader and the hypervisor write, and bank 3 stay. -/
def State.clearCtx (s : State) (c : CoreId) (x : CtxId) : State :=
  let s1 := s.emptyCtx c x
  s1.modCore c fun k => (k.resetItems (s.grant c x).items).modCtx x fun k =>
    { Ctx.reset with bank := Ctx.reset.bank.set 2 k.bank[2], htbase := k.htbase, s1root := k.s1root, s2root := k.s2root, epoch := k.epoch }

/-- RESETTING (R343). -/
def State.clearPart (s : State) (p : Nat) : State :=
  let s0 := { s with disp := { s.disp with
    tasks := s.disp.tasks.filter fun (t : Task) => t.part ≠ p, futs := s.disp.futs.filter fun (f : Future) => f.part ≠ p } }
  let s1 := (s0.contextsOf p).foldl (fun (t : State) q => (t.discardAnswers q.1 q.2).clearCtx q.1 q.2) s0
  let keep (l : List TlbEntry) : List TlbEntry := l.filter fun e => e.part ≠ p
  let s2 := { s1 with
    cores := s1.cores.map fun (k : Core) =>
      if k.tlb.isEmpty && k.stlb.toList.all List.isEmpty then k else { k with tlb := keep k.tlb, stlb := k.stlb.map keep }
    col := { s1.col with tlb := keep s1.col.tlb } }
  let s3 := (s2.col.conns.filter fun q => q.2.v && q.2.part = p).foldl (fun (t : State) q => t.clearConn q.1 2) s2
  let s4 := s3.modDp p fun d => { d with reports := [], lost := false }
  s4.modPart p fun q => { q with state := 0, policy := none, digest := [], spent := 0, replay := none, replayHalt := false, sums := [] }

/-- RESET (R343): FENCING, then, once every request is answered, RESETTING, then FREE. -/
def execReset (s : State) : Host.Outcome State Fault Refusal :=
  let p := s.cmdPart
  if s.cmdStarts 2 then
    if (s.part p).state ≥ 2 then .next (s.cmdOver 1)
    else
      let s1 := ((s.contextsOf p).foldl (fun (t : State) q => t.fenceCtx q.1 q.2) s).fenceHost p
      let s2 := s1.modPart p fun q => { q with state := 2 }
      .next ({ s2 with mg := { s2.mg with fence := some s.cycle, fenceArg := p } }.cmdBegin)
  else if s.cmdRuns 2 && (s.part p).state = 2 && s.fenceQuiet p then .next (s.modPart p fun q => { q with state := 3 })
  else if s.cmdRuns 2 && (s.part p).state = 3 then
    let s1 := s.clearPart p
    .next ({ s1 with mg := { s1.mg with fence := none } }.cmdOver 0)
  else .next s

/-- RTMO cycles have passed since the fence. -/
def State.fenceOver (s : State) : Bool :=
  s.cmdRuns 2 && (s.part s.cmdPart).state = 2 && match s.mg.fence with | some t => t + s.mg.rtmo ≤ s.cycle | none => false

/-- RESET_FENCE_TIMEOUT (R343): the completer of last resort answers the rest with errors, which the units discard. -/
def execResetFenceTimeout (s : State) : Host.Outcome State Fault Refusal :=
  let p := s.cmdPart
  if !s.fenceOver then .next s
  else .next (((s.contextsOf p).foldl (fun (t : State) q => t.discardAnswers q.1 q.2) s).modPart p fun q => { q with state := 3 })

/-! ### CHECKPOINT (R344) -/

/-- A partition has a task that holds a context. -/
def State.partBusy (s : State) (p : Nat) : Bool := s.disp.tasks.any fun (t : Task) => t.part = p && (t.phase = .running || t.phase = .draining)

/-- The size of a partition's dispatcher image (R344). -/
def State.dispSize (s : State) (p : Nat) : Nat := 64 + 16 * (s.dp p).futmax + 96 * (s.dp p).pool

/-- A future's 16 bytes, at the place of its number: its state word, or the reserved STATE where none is live. -/
def futBytes (f : Option Future) : List Byte :=
  match f with
  | some f => dws [f.dw0, f.value.toNat]
  | none => dws [3 * 2 ^ 62, 0]

/-- A task's 96 bytes: its descriptor, then number, count, level, phase, attachments and requeues, its descriptor's address, and the age of a
READY task or the numbers of the futures that a PENDING one waits for. -/
def State.taskBytes (s : State) (t : Task) : List Byte :=
  let ready : Bool := t.phase = .ready
  let waits := (s.disp.futs.filter fun f => f.part = t.part).flatMap fun (f : Future) => List.replicate (f.waiters.count t.num) f.num
  fill 64 t.desc ++
  dws [t.num % 2 ^ 32 + t.count % 16 * 2 ^ 32 + t.level % 4 * 2 ^ 36 + b2n ready * 2 ^ 38 + t.att % 16 * 2 ^ 39 + t.requeues % 16 * 2 ^ 43, t.addr.toNat] ++
  fill 16 (if ready then dws [s.cycle - t.since] else waits.flatMap (leBytes 2))

/-- Tasks in the order in which they entered the ready pool. -/
def putTask (t : Task) : List Task → List Task
  | [] => [t]
  | a :: r => if t.order < a.order then t :: a :: r else a :: putTask t r

/-- The bytes of a dispatcher image (R344): a header with the next task number, the checkpoint's number, the number of tasks, the last core,
the deficits and the number of what is saved beside it, the futures, and the PENDING and READY tasks. -/
def State.dispImage (s : State) (p num tok : Nat) : List Byte :=
  let d := s.dp p
  let ts := (s.disp.tasks.filter fun (t : Task) => t.part = p && (t.phase = .pending || t.phase = .ready)).foldr putTask []
  fill 64 (dws ([d.nextTask % 2 ^ 32 + num % 2 ^ 32 * 2 ^ 32, ts.length % 2 ^ 32 + d.lastCore % 2 ^ 32 * 2 ^ 32, 0, tok] ++ d.deficit.toList)) ++
  fill (16 * d.futmax) ((List.range d.futmax).flatMap fun i => futBytes (s.fut? p (i + 1))) ++
  fill (96 * d.pool) (ts.flatMap s.taskBytes)

/-- The task of 96 bytes of a dispatcher image, and the futures that it waits for. -/
def imageTask (p now : Nat) (bs : List Byte) : Task × List Nat :=
  let a := imgDw bs 8
  let ready := a.testBit 38
  let t := taskOf p (a % 2 ^ 32) (bs.take 64) (BitVec.ofNat 64 (imgDw bs 9)) 0 false
  ({ t with phase := if ready then .ready else .pending, level := bits a 36 2, count := bits a 32 4, att := bits a 39 4, requeues := bits a 43 4
            since := if ready then now - imgDw bs 10 else 0 },
   if ready then [] else ((List.range 8).map fun i => leNat ((bs.drop (80 + 2 * i)).take 2)).filter (· ≠ 0))

/-- The order of a future's waiters as the package that wrote the image has it, where it is known; else that of the tasks in the image
(DESIGN CHOICE, assumption log 15: R344 names no place for it). -/
def waitersOf (old : Option Ckpt) (n : Nat) (ws : List Nat) : List Nat :=
  match old.bind fun c => c.futs.find? fun f => f.num = n with
  | some f => if f.waiters.length = ws.length && f.waiters.all fun w => f.waiters.count w = ws.count w then f.waiters else ws
  | none => ws

/-- What a dispatcher image holds. -/
def State.readCkpt (s : State) (p : Nat) (bs : List Byte) : Ckpt :=
  let d := s.dp p
  let num := imgDw bs 0 / 2 ^ 32
  let old := match imgDw bs 3 with | 0 => none | n + 1 => (s.ckpts[n]?).bind fun c => if c.num = num then some c else none
  let ts := (List.range (Nat.min d.pool (imgDw bs 1 % 2 ^ 32))).map fun i => imageTask p s.cycle ((bs.drop (64 + 16 * d.futmax + 96 * i)).take 96)
  { part := p, num := num, next := imgDw bs 0 % 2 ^ 32, lastCore := imgDw bs 1 / 2 ^ 32, cycle := s.cycle
    deficit := Vector.ofFn fun l : Fin 4 => imgDw bs (4 + l.val)
    tasks := ts.zipIdx.map fun q => { q.1.1 with order := q.2 }
    futs := (List.range d.futmax).filterMap fun i =>
      let a := imgDw bs (8 + 2 * i)
      if a / 2 ^ 62 = 3 then none
      else some { part := p, num := i + 1, state := a / 2 ^ 62, value := BitVec.ofNat 64 (imgDw bs (9 + 2 * i))
                  waiters := waitersOf old (i + 1) (ts.flatMap fun t => List.replicate (t.2.count (i + 1)) t.1.num) } }

/-- Bytes written to key-0 memory by the base die. -/
def State.physPut (s : State) (pa : Nat) (bs : List Byte) : State :=
  (List.range (ceilDiv bs.length 64)).foldl (fun (t : State) i =>
    if t.lineKey (pa + 64 * i) = 0 then t.writeMem false engUnit 0 (pa + 64 * i) ((bs.drop (64 * i)).take 64) else t) s

/-- CHECKPOINT (R344): it stops dispatch, waits for the partition's tasks, writes the image and the CKPT entry, and dispatch resumes. -/
def execCheckpoint (s : State) : Host.Outcome State Fault Refusal :=
  let p := s.cmdPart
  if s.cmdStarts 3 then .next (if (s.part p).state ≠ 1 then s.cmdOver 1 else if inDram s.cmdArg (s.dispSize p) then s.cmdBegin else s.cmdOver 4)
  else if s.cmdRuns 3 && !s.partBusy p then
    let q := s.part p
    let d := s.dp p
    let img := s.dispImage p (q.ckptNum + 1) (s.ckpts.length + 1)
    let c : Ckpt := { part := p, num := q.ckptNum + 1, next := d.nextTask, deficit := d.deficit, lastCore := d.lastCore, cycle := s.cycle
                      tasks := s.disp.tasks.filter fun (t : Task) => t.part = p && (t.phase = .pending || t.phase = .ready)
                      futs := s.disp.futs.filter fun (f : Future) => f.part = p }
    let s1 := { s.physPut s.cmdArg img with ckpts := s.ckpts ++ [c] }.modPart p fun q => { q with ckptNum := q.ckptNum + 1 }
    let s2 := s1.logAppend p 1 0 0 (BitVec.ofNat 64 c.num) [] []
    .next ({ s2 with disp := { s2.disp with select := true } }.cmdOver s2.mg.err)
  else .next s

/-! ### REPLAY (R347) -/

/-- The offset of the entry after the CKPT entry with number `n`. -/
def State.afterCkpt (s : State) (p n : Nat) : Option Nat :=
  ((List.range ((s.part p).logsize / 128)).map (· * 128)).findSome? fun off =>
    let e := s.logEntry p off
    if e.kind = 1 && e.arg.toNat = n then some ((s.part p).logNext off) else none

/-- The dispatcher's tables as an image holds them. -/
def State.restoreDisp (s : State) (p : Nat) (c : Ckpt) : State :=
  let ts := c.tasks.map fun (t : Task) => { t with order := s.disp.nextOrder + t.order }
  let fs := c.futs
  ({ s with disp := { s.disp with
      tasks := (s.disp.tasks.filter fun (t : Task) => t.part ≠ p) ++ ts, futs := (s.disp.futs.filter fun (f : Future) => f.part ≠ p) ++ fs
      nextOrder := (ts.map fun (t : Task) => t.order + 1).foldl Nat.max s.disp.nextOrder, select := true } }).modDp p fun d =>
    { d with nextTask := c.next, deficit := c.deficit, lastCore := c.lastCore }

/-- The entry that replay has to apply next, when it is its own to apply: of the host or loader, a CKPT entry, or a COL entry. -/
def State.replayOwn (s : State) (p : Nat) : Option LogEntry :=
  match s.replayRest p with
  | e :: _ => if e.issuer = 0 || e.kind = 1 || e.kind = 8 then some e else none
  | [] => none

/-- An entry of the host or loader applied: a submission, an attachment, a resolution, a new or freed future. A submission that the
destination refuses is an inequality. -/
def State.replayApply (s : State) (p : Nat) (e : LogEntry) : State :=
  let q := s.part p
  let s1 := s.replayPast p
  let num := futNum e.arg
  match e.kind with
  | 2 =>
    let r := s.submitImage q.hcore q.hctx p e.desc 0 (bits (imgDw e.desc 3) 48 4 ≠ 0) 0 none
    if r.1 = 0 then r.2.replayStop p 2 0 else r.2
  | 3 => (s1.attach p num e.task).2
  | 4 => s1.resolve p e.task e.arg none
  | 5 =>
    if (s1.fut? p num).isSome then s1
    else { s1 with disp := { s1.disp with futs := s1.disp.futs ++ [{ part := p, num := num, state := 0, value := 0, waiters := [] }] } }
  | 6 => { s1 with disp := { s1.disp with futs := s1.disp.futs.filter fun f => !(f.part = p && f.num = num) } }
  | _ => s1

/-- REPLAY (R347). -/
def execReplay (s : State) : Host.Outcome State Fault Refusal :=
  let p := s.cmdPart
  if s.cmdStarts 4 then
    if (s.part p).state ≠ 1 then .next (s.cmdOver 1)
    else if !inDram s.cmdArg (s.dispSize p) then .next (s.cmdOver 4)
    else
      let r := s.physBytes s.cmdArg (s.dispSize p)
      let c := s.readCkpt p r.1
      match s.afterCkpt p c.num with
      | none => .next (r.2.cmdOver 4)
      | some off => .next ((r.2.restoreDisp p c).modPart p fun q => { q with replay := if off = q.loghead then none else some off }).cmdBegin
  else if s.cmdRuns 4 then
    if (s.part p).replay.isNone then .next (s.cmdOver 0)
    else match s.replayOwn p with
      | none => .next s
      | some e => if e.kind = 8 then .next (s.replayStop p 3 e.issuer) else .next (s.replayApply p e)
  else .next s

/-! ### SCRUB (R14, R230, R338) -/

/-- Every line of a range takes a key and zeros; the bytes' older values are gone for every party (the scrub is performed at once). -/
def State.scrubRange (s : State) (base n key : Nat) : State :=
  let inside (a : Nat) : Bool := base ≤ a && a < base + n
  let rest := s.keys.filter fun k => !inside (k.1 * 64)
  let mine := if key = 0 then [] else (List.range (n / 64)).map fun i => (base / 64 + i, key)
  { s with
    mem := s.mem.filter fun q => !inside q.1
    hist := s.hist.filter fun e => e.host || !inside e.addr
    bad := s.bad.filter fun l => !inside (l * 64)
    keys := (rest.filter fun k => k.1 * 64 < base) ++ mine ++ rest.filter fun k => k.1 * 64 ≥ base + n }

/-- SCRUB (R338). -/
def execScrub (s : State) : Host.Outcome State Fault Refusal :=
  let a := s.cmdArg
  if !s.cmdStarts 5 then .next s
  else if bits a 0 12 ≠ 0 || !inDram (bits a 12 26 * 4096) ((bits a 38 12 + 1) * 4096) then .next (s.cmdOver 4)
  else .next ((s.scrubRange (bits a 12 26 * 4096) ((bits a 38 12 + 1) * 4096) (bits a 50 6)).cmdOver 0)

/-! ### Register writes with rows of their own (R333, R336, R341, R355) -/

/-- CGRANT_WRITE (R336). -/
def execCgrantWrite (c : CoreId) (x : CtxId) (v : Word) (s : State) : Host.Outcome State Fault Refusal := .next (s.cgrantWrite c x v.toNat)
/-- PFLOOR_WRITE (R341). -/
def execPfloorWrite (p : PartId) (v : Word) (s : State) : Host.Outcome State Fault Refusal := .next (s.pfloorWrite p.val v.toNat)
/-- CARBD_WRITE (R333, R341). -/
def execCarbdWrite (v : Word) (s : State) : Host.Outcome State Fault Refusal := .next (s.carbdWrite v.toNat)
/-- CARBP_WRITE (R333). -/
def execCarbpWrite (v : Word) (s : State) : Host.Outcome State Fault Refusal := .next (s.carbpWrite v.toNat)
/-- DSEL_WRITE (R355). -/
def execDselWrite (die : Fin 8) (i : Fin 16) (v : Word) (s : State) : Host.Outcome State Fault Refusal := .next (s.dselWrite die.val i.val v.toNat)

/-- REGISTER_WRITE (R335, R353, R365): through handle 4094 at PL 2 with the reserved bits clear, else the operand-range trap; or through
the BAR of PF0 or of a VF. -/
def execRegisterWrite (who : Access) (off : Nat) (v : Word) (s : State) : Host.Outcome State Fault Refusal :=
  match who with
  | .ctl c x =>
    if (s.ctx c x).pl < 2 || off % 8 ≠ 0 || outside v.toNat (blockFields off) then .next { s with cur := { core := c, ctx := x, tag := .ctl } }.trapRange
    else .next (s.blockWrite off v.toNat)
  | .pf0 => .next (s.pf0Write off v.toNat)
  | .vf p => .next (s.vfWrite p.val off v.toNat)

/-! ### Windows (R352, R359, R361) -/

/-- A boundary of the windows of 2^w µs lies after microsecond `m0` and no later than `m` (R352): one lies there, unless GTIME was set forward. -/
def windowEnds (m0 m w : Nat) : Bool := m0 / 2 ^ w < m / 2 ^ w

/-- The values of a context's counters at the boundary of a window, for the recipients whose rule asks for it. -/
def State.snapCounters (s : State) (m0 m : Nat) (c : CoreId) (x : CtxId) : State :=
  let p := s.partOf c x
  let due (rc e : Nat) : Bool := let g := s.gran p 1 rc e; g.1 = 3 && windowEnds m0 m g.2
  let win (k : Ctx) (n : Fin 8) : Vector Nat 3 :=
    let e := vget k.cntsel n.val 0 % 256
    Vector.ofFn fun rc : Fin 3 => if due rc.val e then (if cntListed e then vget k.cnt n.val 0 else codeUnavail) else (k.cntWin[n])[rc]
  s.modCtx c x fun k => { k with cntWin := Vector.ofFn (win k) }

/-- A window of TRACE or WAIT ends for recipient `rc` (R359, R361): its sums become KIND 6 records. A window that saw no trace event
still has its record. -/
def State.windowRecords (s : State) (p cls rc m : Nat) : State :=
  let mine := (s.part p).sums.filter fun w => w.rcpt = rc && w.cls = cls
  let all : List WSum := if cls = 3 then
      (if rc = 2 then (s.contextsOf p).map (fun q => { WSum.none with rcpt := rc, cls := cls, ctx := 4 * q.1.val + q.2.val })
       else [{ WSum.none with rcpt := rc, cls := cls, ctx := 512 }]).map fun z => (mine.find? fun w => w.ctx = z.ctx).getD z
    else mine
  let s1 := s.modPart p fun q => { q with sums := q.sums.filter fun w => !(w.rcpt = rc && w.cls = cls) }
  all.foldl (fun (t : State) w =>
    let q := t.part p
    let at_ : CoreId × CtxId := if w.ctx = 512 then (q.hcore, q.hctx) else (Fin.ofNat 128 (w.ctx / 4), Fin.ofNat 4 w.ctx)
    let body := if cls = 3 then [3, w.a, w.b, w.c, 0] else [5, w.a, w.b, w.flag, 0]
    t.putRecord at_.1 at_.2 p rc ([recordDw0 6 p 3, 0, m * 1000] ++ body)) s1

/-- A die's counter at the end of a window: what it has counted by then, for the recipients whose rule asks for it. -/
def State.snapDie (s : State) (due : Nat → Nat → Bool) (p d i : Nat) : State :=
  let sel := (s.dieCnt d i).sel
  if bits sel 8 4 ≠ p || !(List.range 3).any fun rc => due rc (sel % 256) then s
  else (s.dieCounts d i).modDie d i fun (q : DieCnt) => { q with win := Vector.ofFn fun rc : Fin 3 => if due rc.val (sel % 256) then q.cnt else q.win[rc] }

/-- What ends after microsecond `m0` and by `m` in an ACTIVE partition. -/
def State.windowPart (s : State) (m0 m p : Nat) : State :=
  let due (t : State) (cls rc e : Nat) : Bool := let g := t.gran p cls rc e; g.1 = 3 && windowEnds m0 m g.2
  let last (t : State) (cls rc : Nat) : Nat := let w := (t.gran p cls rc 0).2; m / 2 ^ w * 2 ^ w
  let s1 := (s.contextsOf p).foldl (fun (t : State) q => t.snapCounters m0 m q.1 q.2) s
  let s2 := (List.range 8).foldl (fun (t : State) d => (List.range 16).foldl (fun (t : State) i => t.snapDie (due s1 2) p d i) t) s1
  let s3 := if (List.range 3).any fun rc => due s2 7 rc 0 then
      (s2.powerCounts p).modPart p fun q => { q with pwrWin := Vector.ofFn fun rc : Fin 3 => if due s2 7 rc.val 0 then q.ppwr else q.pwrWin[rc] }
    else s2
  [2, 1, 0].foldl (fun (t : State) rc =>
    let t1 := if due t 5 rc 0 then t.windowRecords p 5 rc (last t 5 rc) else t
    if due t1 3 rc 0 then t1.windowRecords p 3 rc (last t1 3 rc) else t1) s3

/-- A microsecond of GTIME has begun since the last one that was seen, and some policy asks for windows. -/
def State.windowDue (s : State) : Bool :=
  s.obs.windowAt < s.micros && s.mg.parts.toList.any windowed

/-- WINDOW_SUMMARY (R352, R359, R361): the windows that end at this microsecond. -/
def execWindowSummary (s : State) : Host.Outcome State Fault Refusal :=
  let m := s.micros
  let s1 := { s with obs := { s.obs with windowAt := m } }
  .next ((List.range 16).foldl (fun (t : State) p => if (t.part p).state = 1 then t.windowPart s.obs.windowAt m p else t) s1)

end Sys2Proof.Machine
end

