-- ==== Sys2Proof/Machine/HostLink.lean ====
section
/-! DEFINITION. Sys2Proof/Machine/HostLink.lean: the host's registers, queues and errors (R340, R365 to R368), boot (R369), attestation
(R370), power and heat (R371), and what the outside does between steps. -/

namespace Sys2Proof.Machine

/-! ### Host DMA queues (R340, R365, R367) -/

/-- The unit of a host queue's accesses. -/
def hostUnit (q : Nat) : UnitId := { core := 0, ctx := 0, path := 5, chan := 16 + q }

/-- HOST_QUEUE_COMMAND (R340): the command waits for a host DMA channel, or holds one from now on. A queue out of service, or of a
partition that is not ACTIVE, starts nothing. -/
def execHostQueueCommand (q : Fin 64) (h : HostCmd) (s : State) : Host.Outcome State Fault Refusal :=
  let k := s.hq q.val
  if !k.v || (s.part k.part).state ≠ 1 then .next s
  else
    let n := s.host.nextRun
    let r : HostRun := { q := q.val, cmd := h, done := 0, due := s.cycle, dma := none, suspended := false, num := n }
    let s1 := { s with host := { s.host with runs := s.host.runs ++ [r], nextRun := n + 1 } }
    .next (match if s.dmaOpen k.part then s.dmaFree else none with
      | some c => s1.giveDma c { ref := .inr n, part := k.part, prio := h.prio, suspended := false, able := true }
      | none => s1.dmaArbiter)

/-- Up to 4 KiB of a host command moved between host memory and DRAM under the partition's key. What a transforming command makes of them the
spec does not state: free values (DESIGN CHOICE, assumption log 8). A place beyond the package's DRAM (R10) holds nothing and takes nothing. -/
def State.hostChunk (s : State) (r : HostRun) : State :=
  let k := s.hq r.q
  let key := (s.part k.part).key
  let n := Nat.min 4096 (r.cmd.len - r.done)
  let dev := r.cmd.dev + r.done
  let host := hostKey k.pasid (r.cmd.host + r.done)
  let keyed : Bool := inDram dev n && linesAll (fun a => s.lineKey a = key) dev n
  if n = 0 then s
  else
    let b := if r.cmd.toDevice then s.readMem true (hostUnit r.q) 0 s.acqNow false host n
      else if keyed then s.readMem false (hostUnit r.q) 0 s.acqNow false dev n else s.freeBytes n
    let b1 := if r.cmd.conv then b.2.freeBytes n else b
    if !r.cmd.toDevice then b1.2.writeMem true (hostUnit r.q) 0 host b1.1
    else if keyed then b1.2.writeMem false (hostUnit r.q) 0 dev b1.1 else b1.2

/-- One chunk of a host command that holds a channel: a unit is spent, the arbiter checks, and after the last chunk the channel is
free and a waiting HQCFG write takes effect. -/
def State.hostStep (s : State) (r : HostRun) : State :=
  match r.dma with
  | none => s
  | some n =>
    let p := (s.hq r.q).part
    let d := Nat.min r.cmd.len (r.done + 4096)
    let atEnd : Bool := d ≥ r.cmd.len
    let s1 := s.hostChunk r
    let due := s1.freeDelay (s.cycle + 1)
    let s2 := s1.skipFresh 1
    let left : List HostRun := if atEnd then s2.host.runs.filter fun (o : HostRun) => o.num ≠ r.num
      else s2.host.runs.map fun (o : HostRun) => if o.num = r.num then { o with done := d, due := due } else o
    let s3 := { s2 with host := { s2.host with runs := left } }
    let s4 := s3.chunkEnd p n atEnd
    if atEnd then (s4.setDma n none).hqSettle r.q else s4

/-- Host commands that are due move a chunk, and a new one that waits takes a free channel that is open to it. -/
def State.hostRunsTick (s : State) : State :=
  s.host.runs.foldl (fun (t : State) r =>
    match t.host.runs.find? fun o => o.num = r.num with
    | none => t
    | some o =>
      if o.dma.isSome then (if o.due ≤ t.cycle then t.hostStep o else t)
      else
        let w : DmaWait := { ref := .inr o.num, part := (t.hq o.q).part, prio := o.cmd.prio, suspended := false, able := true }
        if o.suspended || !t.mayTake w then t
        else match t.dmaFree with
          | none => t
          | some n => t.giveDma n w) s

/-- A copy command has a host window on a queue. -/
def State.copyOnQueue (s : State) (c : CoreId) (m : CCmd) (q : Nat) : Bool :=
  [m.dst, m.src].any fun t => t.buf = 0 && match (s.handle c m.ctx t.handle).1 with | .bound i => i.kind = 4 && i.hq = q | _ => false

/-- HOST_LINK_ERROR (R219, R367): the queue's command in progress ends, what it had not written is undefined, LERR is set, vector 1 of the
partition's VF is raised, and a fault record with CAUSE 0 and PATH HST is written. -/
def execHostLinkError (q : Fin 64) (s : State) : Host.Outcome State Fault Refusal :=
  let p := (s.hq q.val).part
  let det : Vector Word 4 := #v[0, 0, 0, 5]
  let note (s : State) (c : CoreId) (x : CtxId) : State :=
    let s1 := { s with host := { s.host with hq := s.host.hq.set q { s.host.hq[q] with lerr := true }, msix := s.host.msix ++ [(p + 1, 1)] } }
    s1.faultRecord c x p 0 0 0 det
  match s.hostHeads.find? fun h => s.copyOnQueue h.1 h.2.2 q.val with
  | some h => .next (note ((s.scramble h.1 h.2.1 h.2.2 h.2.2.done).copyOver h.1 h.2.1 h.2.2 0) h.1 h.2.2.ctx)
  | none => match s.host.runs.find? fun r => r.q = q.val with
    | none => .next s
    | some r =>
      let n := r.cmd.len - r.done
      let s1 := if r.cmd.toDevice then
          (if inDram (r.cmd.dev + r.done) n then s.spoilPhys (hostUnit r.q) 0 (r.cmd.dev + r.done) (s.part p).key n else s)
        else
          let f := s.freeBytes n
          f.2.writeMem true (hostUnit r.q) 0 (hostKey (s.hq r.q).pasid (r.cmd.host + r.done)) f.1
      let s2 := match r.dma with | some n => s1.setDma n none | none => s1
      let s3 := { s2 with host := { s2.host with runs := s2.host.runs.filter fun (o : HostRun) => o.num ≠ r.num } }
      .next (note (s3.hqSettle r.q) (s.part p).hcore (s.part p).hctx)

/-- ATS_INVALIDATION (R365): it completes once every host access of the page has been performed. -/
def execAtsInvalidation (pasid : Nat) (addr : Nat) (s : State) : Host.Outcome State Fault Refusal :=
  let page := hostKey pasid addr / 4096
  .next { s with hist := s.hist.map fun e =>
    if e.host && e.addr / 4096 = page then { e with allAt := some (match e.allAt with | some t => Nat.min t s.cycle | none => s.cycle) } else e }

/-- DBELL_WRITE (R368). -/
def execDbellWrite (p : PartId) (v : Word) (s : State) : Host.Outcome State Fault Refusal := .next (s.vfWrite p.val 0 v.toNat)
/-- HQCFG_WRITE (R367). -/
def execHqcfgWrite (q : Fin 64) (v : Word) (s : State) : Host.Outcome State Fault Refusal := .next (s.hqcfgWrite q.val v.toNat)

/-! ### Boot (R369) -/

/-- A firmware image's bytes: body, then the model's 192-byte trailer (assumption log 6): the 57-byte key and 7 zeros, the 114-byte
signature and 6 zeros, and the version. -/
structure FwImage where
  digest : List Byte
  key : List Byte
  sig : List Byte
  ver : Nat
  body : List Byte
  deriving DecidableEq, Repr

/-- The parts of an image; the digest covers the body and the version. -/
def fwImage (bs : List Byte) : FwImage :=
  let n := bs.length - 192
  let t := bs.drop n
  { digest := shake256 (bs.take n ++ t.drop 184) 64, key := t.take 57, sig := (t.drop 64).take 114, ver := leNat (t.drop 184) % 2 ^ 32, body := bs.take n }

/-- What the ROM finds wrong with an image: 0 nothing, 1 signature, 2 rollback, 3 no image. -/
def fwCheck (bs : List Byte) : Nat :=
  if bs.length < 192 then 3
  else
    let f := fwImage bs
    if BitVec.ofNat 256 (leNat (shake256 f.key 32)) ≠ Config.fusedKeyDigest || !ed448Verify f.key f.digest f.sig then 1
    else if f.ver < Config.fusedRollback then 2 else 0

/-- The ROM enters an image: FWDIG and FWVER, the image at device-physical 0, DRAM scrubbed under key 0, and context 0 of core 0 at its
entry with a level-3 vector (assumption log 3). What firmware does up to STAGE 4 is taken as done, where DRAM training succeeds. -/
def State.enterFirmware (s : State) (bs : List Byte) (src : Bool) : State :=
  let f := fwImage bs
  let s1 := { s with mem := ssetBytes [] 0 f.body, keys := [], hist := [], bad := [], host := { s.host with
    fwver := f.ver, booterr := if Config.dramTrains then 0 else 4, bootsrc := src, stage := if Config.dramTrains then 4 else 2, fwdig := f.digest } }
  (s1.modCtx 0 0 fun _ => { ({ Ctx.reset with phase := .running, pl := 3 }).enterText 1 0 s.cycle (Vector.replicate 7 0) with
    bank := Ctx.reset.bank.set 2 { Bank.reset with vec := BitVec.ofNat 64 (2 ^ 48 + 8) } })

/-- The ROM waits for an image from the host. -/
def State.romWaits (s : State) : Bool := s.host.stage = 0 && s.host.booterr ≠ 0 && !s.host.halted0

/-- The ROM reads the host's image when BOOTWIN.V is set: it enters it, or core 0 halts (R366, R369). -/
def State.romPoll (s : State) : State :=
  if !(s.romWaits && s.host.bootwinV) then s
  else
    let bs := (List.range s.host.bootlen).map fun i => s.hostByte (s.host.bootwinBase + i)
    let s1 := { s with host := { s.host with bootwinV := false } }
    let e := fwCheck bs
    if e = 0 then s1.enterFirmware bs true
    else { s1 with host := { s1.host with booterr := e, bootsrc := true, halted0 := true } }

/-- BOOTWIN_WRITE (R366, R369). -/
def execBootwinWrite (v : Word) (s : State) : Host.Outcome State Fault Refusal := .next (s.bootwinWrite v.toNat).romPoll

/-- The package at power-on: everything as after reset but for what lies outside it or is the model's own. -/
def State.powerOn (s : State) : State :=
  { State.reset with hostMem := s.hostMem, host := { HostIf.reset with flash := s.host.flash }, cycle := s.cycle, turn := s.turn, cur := s.cur,
                     fresh := s.fresh, inputs := s.inputs }

/-- The boot ROM tries the flash; where that image fails it waits for the host's (R369). -/
def State.romBoot (s : State) : State :=
  let s1 := s.powerOn
  let e := fwCheck s1.host.flash
  if e = 0 then s1.enterFirmware s1.host.flash false else { s1 with host := { s1.host with booterr := e } }

/-- POWER_ON_RESET (R369). -/
def execPowerOnReset (s : State) : Host.Outcome State Fault Refusal := .next s.romBoot

/-! ### Attestation (R370) -/

/-- The report without its signature. -/
def State.reportBody (s : State) : List Byte :=
  let q := s.part s.host.areqPart
  fill 64 s.host.fwdig ++ leBytes 8 (s.host.fwver % 2 ^ 32) ++ leBytes 8 (s.host.areqPart % 16 + q.key % 64 * 2 ^ 8) ++ fill 32 s.host.nonce ++
  fill 64 (if q.state = 1 then q.digest else [])

/-- AREQ_GO (R370): the report appears in AREP, GO reads 0 and DONE 1. -/
def execAreqGo (s : State) : Host.Outcome State Fault Refusal :=
  if !s.host.areqGo then .next s
  else
    let b := s.reportBody
    let sig := leBytes 114 (Config.signAttestation (BitVec.ofNat 512 (leNat (shake256 b 64)))).toNat
    .next { s with host := { s.host with areqGo := false, areqDone := true, arep := fill 320 (b ++ sig) } }

/-! ### Power and heat (R371) -/

/-- THERMAL_THROTTLE (R371): throttling begins or ends; timing changes and results do not. -/
def execThermalThrottle (on : Bool) (s : State) : Host.Outcome State Fault Refusal := .next { s with host := { s.host with thr := on } }

/-- THERMAL_SHUTDOWN (R371): firmware resets the package. -/
def execThermalShutdown (s : State) : Host.Outcome State Fault Refusal := .next s.romBoot

/-- POWER_STATE_D3HOT (R371): into D3hot when every partition is FREE, or out of it. -/
def execPowerStateD3hot (s : State) : Host.Outcome State Fault Refusal :=
  if s.host.power = 3 then .next { s with host := { s.host with power := 0 } }
  else if s.mg.parts.toList.all fun q => q.state = 0 then .next { s with host := { s.host with power := 3 } }
  else .next s

/-! ### What the outside does between steps -/

/-- A repaired line: of DRAM, or with bit 63 set a typed-buffer line, numbered as UNCORRECTED_SOFT_ERROR numbers it. -/
def State.fixLine (s : State) (line : Nat) : State :=
  if line.testBit 63 then
    s.modCore (Fin.ofNat 128 (bits line 56 7)) fun k => { k with bad := k.bad.filter fun p => p ≠ (bits line 16 2, bits line 0 16) }
  else { s with bad := s.bad.filter (· ≠ line) }

/-- Software sends a PTP message on a port; an event message is timestamped (R334). -/
def State.sendPtp (s : State) (port : Fin 2) (event : Bool) (time : Nat) : State :=
  { s with col := { s.col with
      out := s.col.out ++ [(port.val, .ptp event time)]
      stamps := if event then s.col.stamps ++ [(true, port.val, s.gtime)] else s.col.stamps } }

/-- An input that is no event: a posted write of the host to its own memory or to DRAM, what the loader submits and the futures it makes
before a program runs (R302, R308; nothing in a partition that is being reset, R343), the handle table and translation roots it writes
(R225, R226), a future notification that the dispatcher directs to a context (R106, assumption log 51), the disciplining of GTIME and a PTP
message of software (R334), a repaired line, or a corrected soft error in a context's data, which is counted (R14, R354, R355). -/
def State.takeInput (s : State) : Input → State
  | .ev _ => s
  | .hostWrite dev addr bytes => if dev && !inDram addr bytes.length then s else s.writeMem (!dev) (hostUnit 64) 0 addr bytes
  | .loaderSubmit p c x desc => if s.partOpen p.val then (s.submit c x p.val desc false 0 none).2 else s
  | .loaderRoots c x ht s1 s2 => s.modCtx c x fun k => { k with htbase := ht, s1root := s1, s2root := s2, handles := [] }
  | .loaderFuture p => if s.partOpen p.val then (s.newFut p.val 0).2 else s
  | .notify c x => if (s.ctx c x).phase = .empty then s else s.modCtx c x fun k => { k with evt := true }
  | .gtime ns => s.setGtime ns
  | .ptpSend port event time => s.sendPtp port event time
  | .fix line => s.fixLine line
  | .corrected d c x =>
    let p := s.partOf c x
    let hit (q : DieCnt) : Bool := q.sel.testBit 15 && q.sel % 256 = 0x84 && (q.sel.testBit 14 || bits q.sel 8 4 = p) && (s.part p).state = 1
    let s1 := s.count c x 0x3A 1
    let up (r : Vector DieCnt 16) : Vector DieCnt 16 := r.map fun (q : DieCnt) => if hit q then { q with cnt := satCount (q.cnt + 1) } else q
    { s1 with obs := { s1.obs with dcnt := vmod s1.obs.dcnt d.val up } }

end Sys2Proof.Machine
end

