-- ==== Sys2Proof/Machine/Dispatch.lean ====
section
/-! DEFINITION. Sys2Proof/Machine/Dispatch.lean: the meaning of every instruction and event, one arm each. -/
namespace Sys2Proof.Machine

def exec (i : Instr) (s : State) : Host.Outcome State Fault Refusal :=
  match i with
  | .cursorFetch c x t => Sys2Proof.Machine.execCursorFetch c x t s
  | .loop nc ts stages p => Sys2Proof.Machine.execLoop nc ts stages p s
  | .loope nc => Sys2Proof.Machine.execLoope nc s
  | .rdv => Sys2Proof.Machine.execRdv s
  | .stg r => Sys2Proof.Machine.execStg r s
  | .nop => Sys2Proof.Machine.execNop s
  | .join => Sys2Proof.Machine.execJoin s
  | .fork mask off => Sys2Proof.Machine.execFork mask off s
  | .setf f a sc add => Sys2Proof.Machine.execSetf f a sc add s
  | .waitf f a sc cond gate => Sys2Proof.Machine.execWaitf f a sc cond gate s
  | .phaseRel sc => Sys2Proof.Machine.execPhaseRel sc s
  | .phaseAcq sc => Sys2Proof.Machine.execPhaseAcq sc s
  | .phaseAcqrel sc => Sys2Proof.Machine.execPhaseAcqrel sc s
  | .fence src dst => Sys2Proof.Machine.execFence src dst s
  | .tend => Sys2Proof.Machine.execTend s
  | .tspawn d a => Sys2Proof.Machine.execTspawn d a s
  | .fnew d => Sys2Proof.Machine.execFnew d s
  | .fatt d a b => Sys2Proof.Machine.execFatt d a b s
  | .fres a b => Sys2Proof.Machine.execFres a b s
  | .fget d a => Sys2Proof.Machine.execFget d a s
  | .ffree a => Sys2Proof.Machine.execFfree a s
  | .csubmit d a => Sys2Proof.Machine.execCsubmit d a s
  | .cwatch a b => Sys2Proof.Machine.execCwatch a b s
  | .cunwatch a => Sys2Proof.Machine.execCunwatch a s
  | .cpoll d a => Sys2Proof.Machine.execCpoll d a s
  | .xcmdReply c x => Sys2Proof.Machine.execXcmdReply c x s
  | .trap code => Sys2Proof.Machine.execTrap code s
  | .eret => Sys2Proof.Machine.execEret s
  | .wfe a => Sys2Proof.Machine.execWfe a s
  | .wfeTimeout c x => Sys2Proof.Machine.execWfeTimeout c x s
  | .csave a ctx => Sys2Proof.Machine.execCsave a ctx s
  | .cload a ctx => Sys2Proof.Machine.execCload a ctx s
  | .hall => Sys2Proof.Machine.execHall s
  | .hone a => Sys2Proof.Machine.execHone a s
  | .s1va a b => Sys2Proof.Machine.execS1va a b s
  | .s1asid b => Sys2Proof.Machine.execS1asid b s
  | .s1all => Sys2Proof.Machine.execS1all s
  | .s2ipa a b => Sys2Proof.Machine.execS2ipa a b s
  | .s2part b => Sys2Proof.Machine.execS2part b s
  | .preempt a ctx => Sys2Proof.Machine.execPreempt a ctx s
  | .resume ctx => Sys2Proof.Machine.execResume ctx s
  | .requeue ctx => Sys2Proof.Machine.execRequeue ctx s
  | .abort ctx => Sys2Proof.Machine.execAbort ctx s
  | .bopen ctx => Sys2Proof.Machine.execBopen ctx s
  | .bclose ctx => Sys2Proof.Machine.execBclose ctx s
  | .doorbell a ctx => Sys2Proof.Machine.execDoorbell a ctx s
  | .add d a b => Sys2Proof.Machine.execAdd d a b s
  | .sub d a b => Sys2Proof.Machine.execSub d a b s
  | .and d a b => Sys2Proof.Machine.execAnd d a b s
  | .or d a b => Sys2Proof.Machine.execOr d a b s
  | .xor d a b => Sys2Proof.Machine.execXor d a b s
  | .sll d a b => Sys2Proof.Machine.execSll d a b s
  | .srl d a b => Sys2Proof.Machine.execSrl d a b s
  | .sra d a b => Sys2Proof.Machine.execSra d a b s
  | .slt d a b => Sys2Proof.Machine.execSlt d a b s
  | .sltu d a b => Sys2Proof.Machine.execSltu d a b s
  | .min d a b => Sys2Proof.Machine.execMin d a b s
  | .max d a b => Sys2Proof.Machine.execMax d a b s
  | .minu d a b => Sys2Proof.Machine.execMinu d a b s
  | .maxu d a b => Sys2Proof.Machine.execMaxu d a b s
  | .mul d a b => Sys2Proof.Machine.execMul d a b s
  | .mulh d a b => Sys2Proof.Machine.execMulh d a b s
  | .mulhu d a b => Sys2Proof.Machine.execMulhu d a b s
  | .div d a b => Sys2Proof.Machine.execDiv d a b s
  | .divu d a b => Sys2Proof.Machine.execDivu d a b s
  | .rem d a b => Sys2Proof.Machine.execRem d a b s
  | .remu d a b => Sys2Proof.Machine.execRemu d a b s
  | .addi d a imm => Sys2Proof.Machine.execAddi d a imm s
  | .andi d a imm => Sys2Proof.Machine.execAndi d a imm s
  | .ori d a imm => Sys2Proof.Machine.execOri d a imm s
  | .xori d a imm => Sys2Proof.Machine.execXori d a imm s
  | .slli d a imm => Sys2Proof.Machine.execSlli d a imm s
  | .srli d a imm => Sys2Proof.Machine.execSrli d a imm s
  | .srai d a imm => Sys2Proof.Machine.execSrai d a imm s
  | .slti d a imm => Sys2Proof.Machine.execSlti d a imm s
  | .sltiu d a imm => Sys2Proof.Machine.execSltiu d a imm s
  | .lil d imm => Sys2Proof.Machine.execLil d imm s
  | .lih d imm => Sys2Proof.Machine.execLih d imm s
  | .ldI8 d a imm => Sys2Proof.Machine.execLdI8 d a imm s
  | .ldUi8 d a imm => Sys2Proof.Machine.execLdUi8 d a imm s
  | .ldI16 d a imm => Sys2Proof.Machine.execLdI16 d a imm s
  | .ldUi16 d a imm => Sys2Proof.Machine.execLdUi16 d a imm s
  | .ldI32 d a imm => Sys2Proof.Machine.execLdI32 d a imm s
  | .ldUi32 d a imm => Sys2Proof.Machine.execLdUi32 d a imm s
  | .ldI64 d a imm => Sys2Proof.Machine.execLdI64 d a imm s
  | .stI8 r a imm => Sys2Proof.Machine.execStI8 r a imm s
  | .stI16 r a imm => Sys2Proof.Machine.execStI16 r a imm s
  | .stI32 r a imm => Sys2Proof.Machine.execStI32 r a imm s
  | .stI64 r a imm => Sys2Proof.Machine.execStI64 r a imm s
  | .ctlStorePerform c x => Sys2Proof.Machine.execCtlStorePerform c x s
  | .ctlLoadReturn c x => Sys2Proof.Machine.execCtlLoadReturn c x s
  | .beq a b off => Sys2Proof.Machine.execBeq a b off s
  | .bne a b off => Sys2Proof.Machine.execBne a b off s
  | .blt a b off => Sys2Proof.Machine.execBlt a b off s
  | .bge a b off => Sys2Proof.Machine.execBge a b off s
  | .bltu a b off => Sys2Proof.Machine.execBltu a b off s
  | .bgeu a b off => Sys2Proof.Machine.execBgeu a b off s
  | .jal d off => Sys2Proof.Machine.execJal d off s
  | .jalr d a imm => Sys2Proof.Machine.execJalr d a imm s
  | .csrr d csr => Sys2Proof.Machine.execCsrr d csr s
  | .csrw a csr => Sys2Proof.Machine.execCsrw a csr s
  | .csrx d a csr => Sys2Proof.Machine.execCsrx d a csr s
  | .hdrw d field a => Sys2Proof.Machine.execHdrw d field a s
  | .hdrr d a field => Sys2Proof.Machine.execHdrr d a field s
  | .vmov v => Sys2Proof.Machine.execVmov v s
  | .vsel v => Sys2Proof.Machine.execVsel v s
  | .vadd v => Sys2Proof.Machine.execVadd v s
  | .vsub v => Sys2Proof.Machine.execVsub v s
  | .vmul v => Sys2Proof.Machine.execVmul v s
  | .vmulh v => Sys2Proof.Machine.execVmulh v s
  | .vfma v => Sys2Proof.Machine.execVfma v s
  | .vfms v => Sys2Proof.Machine.execVfms v s
  | .vfnma v => Sys2Proof.Machine.execVfnma v s
  | .vmin v => Sys2Proof.Machine.execVmin v s
  | .vmax v => Sys2Proof.Machine.execVmax v s
  | .vabs v => Sys2Proof.Machine.execVabs v s
  | .vneg v => Sys2Proof.Machine.execVneg v s
  | .vand v => Sys2Proof.Machine.execVand v s
  | .vor v => Sys2Proof.Machine.execVor v s
  | .vxor v => Sys2Proof.Machine.execVxor v s
  | .vnot v => Sys2Proof.Machine.execVnot v s
  | .vsll v => Sys2Proof.Machine.execVsll v s
  | .vsrl v => Sys2Proof.Machine.execVsrl v s
  | .vsra v => Sys2Proof.Machine.execVsra v s
  | .vcmpeq v => Sys2Proof.Machine.execVcmpeq v s
  | .vcmpne v => Sys2Proof.Machine.execVcmpne v s
  | .vcmplt v => Sys2Proof.Machine.execVcmplt v s
  | .vcmple v => Sys2Proof.Machine.execVcmple v s
  | .vcvt v => Sys2Proof.Machine.execVcvt v s
  | .vcvte v => Sys2Proof.Machine.execVcvte v s
  | .vcvtl v => Sys2Proof.Machine.execVcvtl v s
  | .vrand v => Sys2Proof.Machine.execVrand v s
  | .vexp v => Sys2Proof.Machine.execVexp v s
  | .vlog v => Sys2Proof.Machine.execVlog v s
  | .vrcp v => Sys2Proof.Machine.execVrcp v s
  | .vrsqrt v => Sys2Proof.Machine.execVrsqrt v s
  | .vtanh v => Sys2Proof.Machine.execVtanh v s
  | .vgelu v => Sys2Proof.Machine.execVgelu v s
  | .vdiv v => Sys2Proof.Machine.execVdiv v s
  | .vsqrt v => Sys2Proof.Machine.execVsqrt v s
  | .vlvl v => Sys2Proof.Machine.execVlvl v s
  | .vradd v => Sys2Proof.Machine.execVradd v s
  | .vrmin v => Sys2Proof.Machine.execVrmin v s
  | .vrmax v => Sys2Proof.Machine.execVrmax v s
  | .vscanadd v => Sys2Proof.Machine.execVscanadd v s
  | .vscanmax v => Sys2Proof.Machine.execVscanmax v s
  | .vperm v => Sys2Proof.Machine.execVperm v s
  | .vshuf v => Sys2Proof.Machine.execVshuf v s
  | .vbcast v => Sys2Proof.Machine.execVbcast v s
  | .vbcasts v => Sys2Proof.Machine.execVbcasts v s
  | .vrot v => Sys2Proof.Machine.execVrot v s
  | .vtopnm v => Sys2Proof.Machine.execVtopnm v s
  | .kand v => Sys2Proof.Machine.execKand v s
  | .kor v => Sys2Proof.Machine.execKor v s
  | .kxor v => Sys2Proof.Machine.execKxor v s
  | .kandn v => Sys2Proof.Machine.execKandn v s
  | .knot v => Sys2Proof.Machine.execKnot v s
  | .kmov v => Sys2Proof.Machine.execKmov v s
  | .vecResultComplete c => Sys2Proof.Machine.execVecResultComplete c s
  | .sliResultComplete c => Sys2Proof.Machine.execSliResultComplete c s
  | .mzero h => Sys2Proof.Machine.execMzero h s
  | .mma h ovw => Sys2Proof.Machine.execMma h ovw s
  | .mmat h ovw => Sys2Proof.Machine.execMmat h ovw s
  | .mmas h ovw dm => Sys2Proof.Machine.execMmas h ovw dm s
  | .mdrain h rm => Sys2Proof.Machine.execMdrain h rm s
  | .mtxCommandComplete c => Sys2Proof.Machine.execMtxCommandComplete c s
  | .awcfg w mode => Sys2Proof.Machine.execAwcfg w mode s
  | .awgo w => Sys2Proof.Machine.execAwgo w s
  | .awstop w => Sys2Proof.Machine.execAwstop w s
  | .awgather w iq => Sys2Proof.Machine.execAwgather w iq s
  | .awscat w iq => Sys2Proof.Machine.execAwscat w iq s
  | .walkerEntry c w => Sys2Proof.Machine.execWalkerEntry c w s
  | .cpy h delta gs pr ch => Sys2Proof.Machine.execCpy h delta gs pr ch s
  | .cpyc h rm ch => Sys2Proof.Machine.execCpyc h rm ch s
  | .cpym h hx mop ovw ch => Sys2Proof.Machine.execCpym h hx mop ovw ch s
  | .cpyd h rm repl ch => Sys2Proof.Machine.execCpyd h rm repl ch s
  | .cpyh h ch => Sys2Proof.Machine.execCpyh h ch s
  | .cwp h trk ch => Sys2Proof.Machine.execCwp h trk ch s
  | .granulePerformed c ch => Sys2Proof.Machine.execGranulePerformed c ch s
  | .hostDmaResume n => Sys2Proof.Machine.execHostDmaResume n s
  | .copyComplete c ch => Sys2Proof.Machine.execCopyComplete c ch s
  | .sadd o => Sys2Proof.Machine.execSadd o s
  | .smin o => Sys2Proof.Machine.execSmin o s
  | .smax o => Sys2Proof.Machine.execSmax o s
  | .sor o => Sys2Proof.Machine.execSor o s
  | .sand o => Sys2Proof.Machine.execSand o s
  | .sxor o => Sys2Proof.Machine.execSxor o s
  | .sxch o => Sys2Proof.Machine.execSxch o s
  | .scas o => Sys2Proof.Machine.execScas o s
  | .sflush h => Sys2Proof.Machine.execSflush h s
  | .saeWordComplete c => Sys2Proof.Machine.execSaeWordComplete c s
  | .fopen h fn ln => Sys2Proof.Machine.execFopen h fn ln s
  | .fclose h fn sv => Sys2Proof.Machine.execFclose h fn sv s
  | .ftbl h tb => Sys2Proof.Machine.execFtbl h tb s
  | .ftblImageCheck c => Sys2Proof.Machine.execFtblImageCheck c s
  | .fpush h fn tb => Sys2Proof.Machine.execFpush h fn tb s
  | .fpop h fn et => Sys2Proof.Machine.execFpop h fn et s
  | .fmark h fn mk => Sys2Proof.Machine.execFmark h fn mk s
  | .fdrop h fn mk => Sys2Proof.Machine.execFdrop h fn mk s
  | .fsplitSplit h fn cf => Sys2Proof.Machine.execFsplitSplit h fn cf s
  | .fsplitTake h fn cf => Sys2Proof.Machine.execFsplitTake h fn cf s
  | .fsplitImport h cf => Sys2Proof.Machine.execFsplitImport h cf s
  | .fsplitImportCheck c => Sys2Proof.Machine.execFsplitImportCheck c s
  | .fjoin h fn cf => Sys2Proof.Machine.execFjoin h fn cf s
  | .fstat h fn clr => Sys2Proof.Machine.execFstat h fn clr s
  | .furWordComplete c => Sys2Proof.Machine.execFurWordComplete c s
  | .furrowChunkMove c fn => Sys2Proof.Machine.execFurrowChunkMove c fn s
  | .stopAccept c x => Sys2Proof.Machine.execStopAccept c x s
  | .stopRecord c x => Sys2Proof.Machine.execStopRecord c x s
  | .bracketForce c x => Sys2Proof.Machine.execBracketForce c x s
  | .breakpointFire b => Sys2Proof.Machine.execBreakpointFire b s
  | .keyMismatch c x => Sys2Proof.Machine.execKeyMismatch c x s
  | .uncorrectedSoftError line => Sys2Proof.Machine.execUncorrectedSoftError line s
  | .dispatchSelect => Sys2Proof.Machine.execDispatchSelect s
  | .drainingEnd c x => Sys2Proof.Machine.execDrainingEnd c x s
  | .taskAge => Sys2Proof.Machine.execTaskAge s
  | .sliceStart => Sys2Proof.Machine.execSliceStart s
  | .watchedStart c x => Sys2Proof.Machine.execWatchedStart c x s
  | .collectiveOpComplete p idx => Sys2Proof.Machine.execCollectiveOpComplete p idx s
  | .frameReceive port f => Sys2Proof.Machine.execFrameReceive port f s
  | .darudPacketReceive n p => Sys2Proof.Machine.execDarudPacketReceive n p s
  | .darudAckReceive n seq => Sys2Proof.Machine.execDarudAckReceive n seq s
  | .darudNackReceive n seq late => Sys2Proof.Machine.execDarudNackReceive n seq late s
  | .backoffExpire n => Sys2Proof.Machine.execBackoffExpire n s
  | .retransmitTimeout n => Sys2Proof.Machine.execRetransmitTimeout n s
  | .ackTimer n => Sys2Proof.Machine.execAckTimer n s
  | .bounceReplay n => Sys2Proof.Machine.execBounceReplay n s
  | .connectionInvalidate n => Sys2Proof.Machine.execConnectionInvalidate n s
  | .gangStart => Sys2Proof.Machine.execGangStart s
  | .gstatReady => Sys2Proof.Machine.execGstatReady s
  | .gstatAbort => Sys2Proof.Machine.execGstatAbort s
  | .cgrantWrite c x v => Sys2Proof.Machine.execCgrantWrite c x v s
  | .pfloorWrite p v => Sys2Proof.Machine.execPfloorWrite p v s
  | .carbdWrite v => Sys2Proof.Machine.execCarbdWrite v s
  | .carbpWrite v => Sys2Proof.Machine.execCarbpWrite v s
  | .create => Sys2Proof.Machine.execCreate s
  | .reset => Sys2Proof.Machine.execReset s
  | .resetFenceTimeout => Sys2Proof.Machine.execResetFenceTimeout s
  | .checkpoint => Sys2Proof.Machine.execCheckpoint s
  | .replay => Sys2Proof.Machine.execReplay s
  | .scrub => Sys2Proof.Machine.execScrub s
  | .pcmdComplete => Sys2Proof.Machine.execPcmdComplete s
  | .dselWrite die n v => Sys2Proof.Machine.execDselWrite die n v s
  | .sampleTick => Sys2Proof.Machine.execSampleTick s
  | .windowSummary => Sys2Proof.Machine.execWindowSummary s
  | .dbellWrite p v => Sys2Proof.Machine.execDbellWrite p v s
  | .hqcfgWrite q v => Sys2Proof.Machine.execHqcfgWrite q v s
  | .hostLinkError q => Sys2Proof.Machine.execHostLinkError q s
  | .atsInvalidation pasid addr => Sys2Proof.Machine.execAtsInvalidation pasid addr s
  | .bootwinWrite v => Sys2Proof.Machine.execBootwinWrite v s
  | .areqGo => Sys2Proof.Machine.execAreqGo s
  | .powerOnReset => Sys2Proof.Machine.execPowerOnReset s
  | .thermalThrottle on => Sys2Proof.Machine.execThermalThrottle on s
  | .thermalShutdown => Sys2Proof.Machine.execThermalShutdown s
  | .registerWrite who off v => Sys2Proof.Machine.execRegisterWrite who off v s
  | .linkBringUp port full => Sys2Proof.Machine.execLinkBringUp port full s
  | .hostQueueCommand q h => Sys2Proof.Machine.execHostQueueCommand q h s
  | .powerStateD3hot => Sys2Proof.Machine.execPowerStateD3hot s

end Sys2Proof.Machine
end

