-- ==== Sys2Proof/Machine/Events.lean ====
section
/-! DEFINITION. Sys2Proof/Machine/Events.lean: which event of the machine is due, and what the end of a cycle does (assumption log 4). -/

namespace Sys2Proof.Machine

/-! ### Contexts that may act -/

/-- The context's cursors may act: RUNNING or HANDLER with a grant (R336; firmware runs without one), or draining a clamp; nothing runs in
D3hot (R371). -/
def State.runs (s : State) (c : CoreId) (x : CtxId) : Bool :=
  let k := s.ctx c x
  (k.phase = .running || k.phase = .handler ||
    (k.phase = .stopping && k.clamping && match k.stop with | some st => st.at_ < s.cycle | none => false)) && ((s.grant c x).v || isFirmware c x) && s.host.power ≠ 3

/-- A context whose stop was accepted in this very cycle: its cursors may still raise a trap in it (R262, R263), and do nothing else. -/
def State.probing (s : State) (c : CoreId) (x : CtxId) : Bool :=
  let k := s.ctx c x
  k.phase = .stopping && match k.stop with | some st => st.at_ = s.cycle | none => false

/-- The control core of core 0 has halted (R268). -/
def State.ctlHalted (s : State) (c : CoreId) (t : Tag) : Bool := c = 0 && t = .ctl && s.host.halted0

/-- A cursor's head word is past its IDLE (R40). -/
def State.idlePast (s : State) (c : CoreId) (x : CtxId) (t : Tag) (e : SEntry) : Bool :=
  ((s.ctx c x).cursor t).lastIssue + 1 + wordIdle e.word ≤ s.cycle

/-! ### Events of a core -/

/-- The event of a copy channel that is due: a completion before further granules. -/
def State.channelDue (s : State) (c : CoreId) (ch : ChNo) : Option Instr :=
  if s.copyDue c ch then some (.copyComplete c ch) else if s.granuleDue c ch then some (.granulePerformed c ch) else none

/-- The event of the engines of core `c` that is due. -/
def State.coreEvent (s : State) (c : CoreId) : Option Instr :=
  let k := s.core c
  match k.keyFaults with
  | p :: _ => some (.keyMismatch c p.1)
  | [] =>
    if k.vpend.any fun p => !p.sli && p.due ≤ s.cycle then some (.vecResultComplete c)
    else if k.vpend.any fun p => p.sli && p.due ≤ s.cycle then some (.sliResultComplete c)
    else if k.mtx.any fun m => m.due ≤ s.cycle then some (.mtxCommandComplete c)
    else match (List.finRange 4).find? fun w => s.walkerLands c w with
      | some w => some (.walkerEntry c w)
      | none => match (List.finRange 4).findSome? fun ch => s.channelDue c ch with
        | some i => some i
        | none => if (s.saeDue c).isSome then some (.saeWordComplete c) else s.furDue c

/-- The oldest posted store may be performed: its time has come, and every earlier load of the context has returned (R297). -/
def Ctx.storeDue (k : Ctx) (now : Nat) : Bool := k.stores.head?.any fun st => st.due ≤ now && k.loads.all fun l => l.order > st.order

/-- The event of context `x` of core `c` that is due. -/
def State.ctxEvent (s : State) (c : CoreId) (x : CtxId) : Option Instr :=
  let k := s.ctx c x
  if k.loads.head?.any fun l => l.due ≤ s.cycle then some (.ctlLoadReturn c x)
  else if k.storeDue s.cycle then some (.ctlStorePerform c x)
  else if k.replies.head?.any fun l => l.due ≤ s.cycle then some (.xcmdReply c x)
  else if k.pendWatch.any fun q => q.2.2.2 ≤ s.cycle then some (.watchedStart c x)
  else if s.recordDue c x then some (.stopRecord c x)
  else if s.forceDue c x then some (.bracketForce c x)
  else if s.acceptDue c x then some (.stopAccept c x)
  else if s.drainDue c x then some (.drainingEnd c x)
  else none

/-! ### Events of the base die and of the outside -/

/-- The oldest input that is due. -/
def State.inputDue (s : State) : Option (Nat × Input) := s.inputs.find? fun p => p.1 ≤ s.cycle

/-- The step of the management command in progress that is due (R338). -/
def State.pcmdDue (s : State) : Option Instr :=
  if !s.mg.busy then none
  else if s.mg.running = 3 || (s.mg.running = 1 && !(1 ≤ s.cmdOp && s.cmdOp ≤ 5)) then some .pcmdComplete
  else if s.cmdStarts 1 then some .create
  else if s.cmdStarts 2 || (s.cmdRuns 2 && ((s.part s.cmdPart).state = 3 || ((s.part s.cmdPart).state = 2 && s.fenceQuiet s.cmdPart))) then some .reset
  else if s.fenceOver then some .resetFenceTimeout
  else if s.cmdStarts 3 || (s.cmdRuns 3 && !s.partBusy s.cmdPart) then some .checkpoint
  else if s.cmdStarts 4 || (s.cmdRuns 4 && ((s.part s.cmdPart).replay.isNone || (s.replayOwn s.cmdPart).isSome)) then some .replay
  else if s.cmdStarts 5 then some .scrub
  else none

/-- The timer of a connection that is due (R324, R332). -/
def State.connDue (s : State) (n : Nat) : Option Instr :=
  let i : ConnId := Fin.ofNat 4096 n
  if s.backoffDue n then some (.backoffExpire i)
  else if s.rtoDue n then some (.retransmitTimeout i)
  else if s.ackDue n then some (.ackTimer i)
  else if s.replayDue n then some (.bounceReplay i)
  else none

/-- The event of the collective engine that is due. -/
def State.colDue (s : State) : Option Instr :=
  match s.col.conns.findSome? fun p => s.connDue p.1 with
  | some i => some i
  | none => (s.col.ops.find? fun (o : ColOp) => o.state = 2 && s.opFinished o).map fun o => .collectiveOpComplete (Fin.ofNat 16 o.part) o.idx

/-- The dispatcher's event that is due. -/
def State.dispDue (s : State) : Option Instr :=
  if s.agedTask.isSome then some .taskAge else if s.disp.select then some .dispatchSelect else none

/-- The event of the base die that is due, in one order: management, timers, breakpoints, collectives, host DMA, dispatcher. -/
def State.dieEvent (s : State) : Option Instr :=
  if s.host.areqGo then some .areqGo
  else match s.pcmdDue with
    | some i => some i
    | none =>
      if s.sliceDue then some .sliceStart
      else if s.gangDue then some .gangStart
      else if s.windowDue then some .windowSummary
      else if s.sampleDue then some .sampleTick
      else match (List.finRange 16).find? fun b => s.breaks s.obs.bkpt[b] with
        | some b => some (.breakpointFire b)
        | none => match s.colDue with
          | some i => some i
          | none => match s.dmaFree with
            | some n => if s.resumable.isSome then some (.hostDmaResume n) else s.dispDue
            | none => s.dispDue

/-- The event of the base die, or of the outside, that is due, with the state in which it runs: an input that is taken is gone. An attestation
comes before any input, so that its report names the nonce and partition that AREQ held when GO was written (R370). -/
def State.globalEvent (s : State) : Option (Instr × State) :=
  match (if s.host.areqGo then none else s.inputDue) with
  | some (t, .ev i) => some (i, { s with inputs := s.inputs.erase (t, .ev i) })
  | _ => s.dieEvent.map fun i => (i, s)

/-! ### The end of a cycle -/

/-- A context counts event `e` (R320). -/
def Ctx.wants (k : Ctx) (e : Nat) : Bool := k.cntsel.toList.any fun v => v.testBit 8 && v % 256 = e

/-- What holds the head word of a cursor that is past its IDLE, by R361's codes; 0 where nothing does. -/
def State.cursorHold (s : State) (c : CoreId) (x : CtxId) (t : Tag) : Nat :=
  match (s.ctx c x).head t with
  | some e => if s.idlePast c x t e then (match e.ins with | some i => ({ s with cur := { core := c, ctx := x, tag := t } }).holdCode i | none => 0) else 0
  | none => 0

/-- The member cursors of a context that a hold of code `h` stops in this cycle. -/
def State.heldBy (s : State) (c : CoreId) (x : CtxId) (h : Nat) : Nat :=
  (allTags.filter fun t => ((s.ctx c x).cursor t).member && s.cursorHold c x t = h).length

/-- The context's control cursor has a word at its head that is past its IDLE and satisfies `p`. -/
def State.ctlStands (s : State) (c : CoreId) (x : CtxId) (p : Instr → Bool) : Bool :=
  match (s.ctx c x).head .ctl with
  | some e => s.idlePast c x .ctl e && e.does p
  | none => false

def isWaitf : Instr → Bool | .waitf _ _ _ _ _ => true | _ => false
def isWfe : Instr → Bool | .wfe _ => true | _ => false

/-- The control cursor's word waits for a register or for a TLBI, so a wait of its own has not begun (R35, R234). -/
def State.ctlNotYet (s : State) (c : CoreId) (x : CtxId) : Bool :=
  (s.ctx c x).tlbiOpen s.cycle || match (s.ctx c x).head .ctl with
    | some e => (match e.ins with | some i => ({ s with cur := { core := c, ctx := x, tag := .ctl } }).regHeld .ctl e.idx i | none => false)
    | none => false

/-- A wait that begins in this cycle (R106, R277, R359). -/
def State.noteWaits (s : State) (c : CoreId) (x : CtxId) : State :=
  let k := s.ctx c x
  let w : Bool := s.runs c x && k.waitFrom.isNone && s.ctlStands c x isWaitf
  let e : Bool := s.runs c x && k.wfeFrom.isNone && s.ctlStands c x isWfe && !s.ctlNotYet c x
  let b : Bool := k.bracketWait.isNone && (s.core c).bracketHolds x
  if w || e || b then s.modCtx c x fun k =>
    { k with waitFrom := if w then some s.cycle else k.waitFrom
             wfeFrom := if e then some s.cycle else k.wfeFrom
             bracketWait := if b then some s.cycle else k.bracketWait }
  else s

/-- The cycle counts of a context (R354): RUNNING, cursors held on queues and by the range checker, array cycles of its matrix commands (R320),
and flag waits. -/
def State.countCycle (s : State) (c : CoreId) (x : CtxId) : State :=
  let k := s.ctx c x
  let held (e h : Nat) (t : State) : State := if k.wants e then t.count c x e (s.heldBy c x h) else t
  let s1 := if k.wants 1 && k.phase = .running then s.count c x 1 1 else s
  let s2 := held 7 5 (held 6 2 (held 5 1 s1))
  let array : Bool := k.wants 0x20 && (s.core c).mtx.any fun m => m.ctx = x && m.start ≤ s.cycle && s.cycle < m.start + m.steps
  let s2 := if array then s2.count c x 0x20 1 else s2
  if k.wants 0x31 && k.waitFrom.isSome && s.ctlStands c x isWaitf then s2.count c x 0x31 1 else s2

/-- The results of the control core that can be read from the next cycle on leave the list of those awaited (R80). -/
def State.busyTick (s : State) (c : CoreId) (x : CtxId) : State :=
  if (s.ctx c x).busy.isEmpty then s
  else s.modCtx c x fun k => { k with busy := k.busy.filter fun b => b.2 > s.cycle + 1 }

/-- The end of a cycle for one context. -/
def State.endCtx (s : State) (c : CoreId) (x : CtxId) : State :=
  let s1 := s.tlbiTick c x
  if (s.ctx c x).phase = .empty then s1 else (((s1.noteWaits c x).countCycle c x).fenceTick c x).busyTick c x

/-- The end of a cycle for one core: slots popped in it return (R43), and its flag updates take effect (R99). -/
def State.endCore (s : State) (c : CoreId) : State :=
  let s1 := (List.finRange 4).foldl (fun (t : State) x => t.endCtx c x) s
  let k := s1.core c
  if k.upds.isEmpty && k.freed.toList.all (fun n => n = 0) then s1
  else s1.modCore c fun k => ({ k with freed := Vector.replicate 8 0 }).applyUpds s.cycle

/-- The oldest input that is due, where it is no event, is taken. -/
def State.takeDue (s : State) : State :=
  match s.inputDue with
  | some (_, .ev _) => s
  | some p => ({ s with inputs := s.inputs.erase p }).takeInput p.2
  | none => s

/-- The end of a cycle: waits and counts of the contexts, flag updates (R99), what the outside did, what the host queues and the collective
engine move, and the next cycle begins. -/
def State.tick (s : State) : State :=
  let s1 := ((List.finRange 128).foldl (fun (t : State) c => t.endCore c) s).takeDue
  { s1.romPoll.hostRunsTick.colRun with cycle := s.cycle + 1, turn := 0 }

end Sys2Proof.Machine
end

