-- ==== Sys2Proof/Machine/Poll.lean ====
section
/-! DEFINITION. Sys2Proof/Machine/Poll.lean: what the next step of the machine is: within a cycle (R5) the events and cursors
are polled in one fixed order, and the first that is ready acts. The order is the model's (assumption log 4): the spec leaves
the order of independent events within a cycle open, but for R43, R77 and R99, which the order keeps. -/

namespace Sys2Proof.Machine

/-! ### Cursors -/

/-- What a cursor does at fetch in this cycle: the ALL word it reaches, or CURSOR_FETCH (R32, R48); nothing when it may not
fetch, or when a LOOP's count is still to be written (R35). -/
def State.fetchAct (s : State) (c : CoreId) (x : CtxId) (t : Tag) : Option Instr :=
  let k := s.ctx c x
  let cu := k.cursor t
  if s.ctlHalted c t || !(s.runs c x || s.probing c x) || cu.notBefore > s.cycle || (k.draining && k.phase = .running && t = .ctl) || !k.mayFetch t then none
  else
    match k.entryAt cu.next with
    | some e => if e.all && e.sub = 0 then e.ins else some (.cursorFetch c x t)
    | none =>
      if k.walk.halted || k.walk.idx > cu.next then none
      else if k.walk.idx < cu.next then
        -- only a cursor resumed past the word that stands next may make the walk (R270)
        if (allTags.any fun u => (k.cursor u).member && !(k.cursor u).stopped && (k.cursor u).next ≤ k.walk.idx) then none
        else some (.cursorFetch c x t)
      else match (s.fetchText c x k.walk.pc).1 with
        | .word w =>
          if wordAll w then
            match decodeWord w with
            | .ok (.loop nc ts st p) =>
              if k.unset k.walk.idx ts.val then none else some (.loop nc ts st p)
            | .ok i => some i
            | .error _ => some (.cursorFetch c x t)
          else some (.cursorFetch c x t)
        | _ => some (.cursorFetch c x t)

/-- The head word of an agent that may issue in this cycle (R40): its IDLE has passed and nothing holds it; a WFE whose wait is over without an
event issues by its timeout (R106). -/
def State.issueAct (s : State) (a : Agent) : Option Instr :=
  let k := s.ctx a.core a.ctx
  if s.ctlHalted a.core a.tag || !(s.runs a.core a.ctx || s.probing a.core a.ctx) || (k.draining && k.phase = .running && a.tag = .ctl) then none
  else match k.head a.tag with
    | none => none
    | some e =>
      if !s.idlePast a.core a.ctx a.tag e then none
      else match e.ins with
        | none => none
        | some i =>
          if ({ s with cur := a }).held i then none
          else if isWfe i && !k.evt then some (.wfeTimeout a.core a.ctx) else some i

/-! ### The slots of a cycle -/

/-- Slots of a core: 0 engine completions, 1–4 events of its contexts, 5–32 fetches, 33 the control core's issue, then in ascending TAG order
the engines' issues, the walkers' next entries before the AW word (R43). -/
def coreSlots : Nat := 44

/-- The slot in which an engine issues. -/
def engSlot (t : Tag) : Nat := match t with | .vec => 34 | .mtx => 35 | .aw => 40 | .cpy => 41 | .sae => 42 | .fur => 43 | .ctl => 33

/-- What slot `n` of core `c` has ready: the instruction and the agent that runs it. -/
def State.slotAct (s : State) (c : CoreId) (n : Nat) : Option (Instr × Agent) :=
  if n = 0 then (s.coreEvent c).map fun i => (i, s.cur)
  else if n ≤ 4 then (s.ctxEvent c (Fin.ofNat 4 (n - 1))).map fun i => (i, s.cur)
  else if n ≤ 32 then
    let x : CtxId := Fin.ofNat 4 ((n - 5) / 7)
    let t := allTags.getD ((n - 5) % 7) .ctl
    (s.fetchAct c x t).map fun i => (i, { core := c, ctx := x, tag := t })
  else if n = 33 then
    if (s.core c).ctlBusy > s.cycle then none
    else
      let order : List CtxId := (List.range 4).map fun i => Fin.ofNat 4 ((s.core c).rr + 1 + i)
      order.findSome? fun x => (s.issueAct { core := c, ctx := x, tag := .ctl }).map fun i => (i, { core := c, ctx := x, tag := .ctl })
  else if 36 ≤ n && n ≤ 39 then
    let w : WNo := Fin.ofNat 4 (n - 36)
    if s.walkerStarts c w then some (.walkerEntry c w, s.cur) else none
  else
    let t := engTags.getD (if n < 36 then n - 34 else n - 38) .vec
    match s.engCtx c t with
    | none => none
    | some x => (s.issueAct { core := c, ctx := x, tag := t }).map fun i => (i, { core := c, ctx := x, tag := t })

/-- Nothing of a core can act: every context is EMPTY, PARKED or STOPPED, and nothing is in flight. -/
def Core.quiet (k : Core) : Bool :=
  (k.ctxs.toList.all fun x => x.phase = .empty && x.loads.isEmpty && x.stores.isEmpty && x.replies.isEmpty && x.pending.isEmpty) &&
  k.vpend.isEmpty && k.owedRes.isEmpty && k.mtx.isEmpty && k.sae.isEmpty && k.fcmd.isNone && k.keyFaults.isEmpty && k.upds.isEmpty &&
  (k.chans.toList.all fun c => c.cmds.isEmpty) && (k.walkers.toList.all fun w => w.cmds.isEmpty)

/-- The first ready slot of core `c` from slot `n` on. -/
def State.coreAct (s : State) (c : CoreId) (n : Nat) : Option (Nat × Instr × Agent) :=
  if (s.core c).quiet then none
  else ((List.range coreSlots).drop n).findSome? fun m => (s.slotAct c m).map fun p => (m, p.1, p.2)

/-- What the next step is: an instruction or event with the state in which it runs, or the end of the cycle. -/
inductive Poll where
  | act (i : Instr) (s : State)
  | tick (s : State)
  deriving DecidableEq, Repr

/-- `turn` 0 is the place of the base die's events; 1 + 44·c + n is slot n of core c. A slot of events is polled until nothing of
it is due; every other slot acts once a cycle. -/
def State.poll (s : State) : Poll :=
  match (if s.turn = 0 then s.globalEvent else none) with
  | some (i, t) => .act i t
  | none =>
    let from_ := s.turn - 1
    match ((List.finRange 128).drop (from_ / coreSlots)).findSome? fun c =>
        (s.coreAct c (if c.val = from_ / coreSlots then from_ % coreSlots else 0)).map fun p => (c, p) with
    | some (c, m, i, a) => .act i { s with cur := a, turn := 1 + coreSlots * c.val + (if m ≤ 4 then m else m + 1) }
    | none => .tick s.tick

/-! ### Traps of other cursors in the cycle of a stop (R262) -/

/-- The traps that the stop of the running context has gathered. -/
def State.trapCount (s : State) : Nat := match s.me.stop with | some st => st.traps.length | none => 0

/-- A word polled in a context that stopped in this cycle only adds the trap it raises; without one it has no effect. -/
def State.settle (s : State) (r : State) : State :=
  if s.probing s.cur.core s.cur.ctx && r.trapCount = s.trapCount then s else r

/-! ### An instruction placed where the next step takes it -/

/-- The bit position of a word in `withFetchWord` (R58): one 64-bit word. -/
def placedEntry (w : Word) : SEntry :=
  { idx := 0, pc := 0, word := w, own := wordOwn w, all := wordAll w,
    ins := match decodeWord w with | .ok i => some i | .error _ => none
    sub := match decodeWord w with | .ok _ => 0 | .error n => n
    on := true, seq := 0, issued := false, loops := [], stage := 0 }

/-- Context 0 of core 0 RUNNING with the word at the head of its cursor's queue, and the poll at the slot that issues it (or, for
an ALL word, that acts on it). An engine's word needs that engine granted and in the fork set; RDV needs a fork set, LOOPE and STG
an open loop. The word stands in memory at device-physical 0, where the context's text handle begins. -/
def State.place (s : State) (w : Word) : State :=
  let e := placedEntry w
  let t := (wordOwn w).getD .ctl
  let i := e.ins
  let fork : Option (BitVec 6) := if t ≠ .ctl then some (BitVec.ofNat 6 (2 ^ engBit t)) else if i = some .rdv then some 1 else none
  let lp : List Loop := match i with
    | some (.loope nc) => [{ nc := nc.val, pc := 0, idx := 0, origN := 1, n := 1, s := 1, i := 0, e := 0, j := 0, p := false, stageOut := 0,
                             sT := 1, iNext := 0, clamped := false }]
    | some (.stg _) => [{ nc := 0, pc := 0, idx := 0, origN := 1, n := 1, s := 8, i := 0, e := 7, j := 0, p := false, stageOut := 0, sT := 1,
                          iNext := 0, clamped := false }]
    | _ => []
  let slot := if e.all then 5 else engSlot t
  let k := s.ctx 0 0
  let k1 : Ctx := { k with
    phase := .running, fork := fork, draining := false, text := 1
    handles := [{ num := 1, raw := 2 ^ 64 * 4096 + 2 ^ 60 + 2 ^ 57 }]
    stream := [if e.all then { e with issued := true } else e]
    walk := { pc := 8, idx := 1, loops := lp, stage := 0, seqs := k.walk.seqs, skip := Vector.replicate 7 0, owed := [], halted := false, rdv := false }
    cursors := Vector.ofFn fun j : Fin 7 =>
      let u := allTags.getD j.val .ctl
      { next := if u = t && !e.all then 1 else 0, lastIssue := 0, member := u = .ctl || (t ≠ .ctl && u = t), stopped := false, notBefore := 0 } }
  let k2 := if e.all then { k1 with stream := [], walk := { k1.walk with pc := 0, idx := 0 } } else k1
  let g : Grant := { s.grant 0 0 with v := true, eng := if t = .ctl then (s.grant 0 0).eng else 2 ^ engBit t }
  let s1 := (s.modCore 0 fun q => { q with grants := if t = .ctl then q.grants else q.grants.set 0 g, ctlBusy := 0 }).modCtx 0 0 fun _ => k2
  { s1 with mem := ssetBytes s.mem 0 (leBytes 8 w.toNat), cycle := s.cycle + 1 + wordIdle w, turn := 1 + slot
            cur := { core := 0, ctx := 0, tag := t } }

end Sys2Proof.Machine
end

