-- ==== Sys2Proof/Machine/Step.lean ====
section
/-! DEFINITION. Sys2Proof/Machine/Step.lean: one step of the machine, and an instruction placed where the next step takes it. -/

namespace Sys2Proof.Machine

/-- One step: the first ready word or event of the cycle's poll runs; when nothing is ready the cycle ends. -/
def step (s : State) : Host.Outcome State Fault Refusal :=
  match s.poll with
  | .tick t => .next t
  | .act i t =>
    match exec i t with
    | .next r => .next (t.settle r)
    | .fault f => .fault f
    | .refused r => .refused r

/-- The state with the 64-bit word `w` where the next step takes its instruction from. -/
def State.withFetchWord (s : State) (_nbits w : Nat) : State := s.place (BitVec.ofNat 64 w)

end Sys2Proof.Machine
end

