-- ==== Sys2Proof/Safety.lean ====
section
/-! DEFINITION. Sys2Proof/Safety.lean: what counts as a safe state: the forms that every step keeps. -/

namespace Sys2Proof.Machine

/-- Both byte memories. -/
def State.mems (s : State) : Mem × Mem := (s.mem, s.hostMem)

/-- Two byte memories stand in their canonical form (assumption log 2). -/
structure MemsOk (p : Mem × Mem) : Prop where
  dram : p.1.wf = true
  host : p.2.wf = true

/-- DRAM and host memory stand in their canonical form. -/
def State.memOk (s : State) : Prop := MemsOk s.mems

/-- The three typed buffers of a core. -/
def Core.bufs (k : Core) : Lines × Lines × Lines := (k.abuf, k.cbuf, k.wbuf)

/-- The typed buffers of a core stand in their canonical form. -/
def Core.bufOk (k : Core) : Prop := k.abuf.wf = true ∧ k.cbuf.wf = true ∧ k.wbuf.wf = true

/-- Every typed buffer stands in its canonical form. -/
def State.bufOk (s : State) : Prop := ∀ c : CoreId, (s.core c).bufOk

/-- The privilege level of every context is one of 0 to 3 (R79). -/
def State.plOk (s : State) : Prop := ∀ (c : CoreId) (x : CtxId), (s.ctx c x).pl ≤ 3

/-! ### What a word leaves as it was -/

/-- A context with its fetched words, cursors, counters and an owed FUR word put back as in `k0`. -/
def Ctx.unissue (k k0 : Ctx) : Ctx := { k with stream := k0.stream, cursors := k0.cursors, cnt := k0.cnt, owedFur := k0.owedFur }

/-- `t` with what the issue of a word moves put back as in `s` (R32, R40, R54, R354): the fetched words, cursors and counters of the
running context, and the issue slot of its control core. -/
def State.unissue (t s : State) : State :=
  (t.modMe fun k => k.unissue s.me).modMyCore fun k => { k with rr := s.myCore.rr, ctlBusy := s.myCore.ctlBusy }

/-- `t` is `s` after a word that writes scalar register `d` (R60: s0 takes nothing) and nothing else. -/
structure RegWrite (s t : State) (d : SReg) (v : Word) : Prop where
  value : t.rdS d = if d.val = 0 then 0 else v
  others : ∀ r, r ≠ d → t.rdS r = s.rdS r
  headers : ∀ r, t.rdH r = s.rdH r
  bytes : ∀ a, t.byte a = s.byte a ∧ t.hostByte a = s.hostByte a
  rest : (t.unissue s).modMe (fun k => { k with s := s.me.s, busy := s.me.busy }) = s

/-- The running context runs and is not stopping: a synchronous trap of its word is accepted (R263). -/
abbrev State.live (s : State) : Prop := (s.me.phase = .running ∨ s.me.phase = .handler) ∧ s.me.stop = none

/-- `t` is `s` after the running word has raised a synchronous trap instead of its effect (R76, R260 to R263): the context stops with the
trap recorded, the word has not issued, and no register and no byte of memory has changed. -/
structure Trapped (s t : State) (cause code level : Nat) (det : Vector Word 4) : Prop where
  stopping : t.me.phase = .stopping
  record : ∃ st r, t.me.stop = some st ∧ st.traps = [r] ∧ r.async = false ∧ r.cause = cause ∧ r.code = code ∧ r.level = level ∧
    r.tag = tagNum s.cur.tag ∧ r.seq = s.curSeq ∧ r.det = det
  unissued : t.me.stream = s.me.stream ∧ t.me.cursors = s.me.cursors
  regs : ∀ r, t.rdS r = s.rdS r
  headers : ∀ r, t.rdH r = s.rdH r
  bytes : ∀ a, t.byte a = s.byte a ∧ t.hostByte a = s.hostByte a

/-- The detail of the operand-range and divide traps (R269): the word's dynamic index and its bits. -/
def State.wordDetail (s : State) : Vector Word 4 := #v[BitVec.ofNat 64 s.curIdx, s.curWord, 0, 0]

/-- `n` DRAM bytes from `pa` that a read under `key` finds as they stand: lines of that key, none struck, no write to them that some
core may not yet see (R230, R14, R292). -/
abbrev State.plainBytes (s : State) (pa key n : Nat) : Prop :=
  n ≠ 0 ∧ (∀ i, i < n → s.lineKey (pa + i) = key ∧ s.lineBad (pa + i) = false) ∧
    ∀ e ∈ s.hist, e.host = false → ¬(pa ≤ e.addr ∧ e.addr < pa + n)

end Sys2Proof.Machine
end

