-- ==== Sys2Proof/Certificates/Slice0/Obligations.lean ====
section
/-! DEFINITION. Sys2Proof/Certificates/Slice0/Obligations.lean: the statements. Each formalises what a rule of spec/ says a word, an event
or the machine does; OBLIGATIONS.json names the rules. -/

namespace Sys2Proof.Machine

/-! ### What several statements say -/

/-- `op sD, sA, sB` completes in every state: it writes `f sA sB` to sD, and nothing else changes. -/
def Writes3 (op : SReg → SReg → SReg → Instr) (f : Word → Word → Word) : Prop :=
  ∀ (s : State) (d a b : SReg), ∃ t, exec (op d a b) s = .next t ∧ RegWrite s t d (f (s.rdS a) (s.rdS b))

/-- `op sD, sA, imm` completes in every state: it writes `f sA sext(IMM)` to sD, and nothing else changes. -/
def WritesImm (op : SReg → SReg → BitVec 30 → Instr) (f : Word → Word → Word) : Prop :=
  ∀ (s : State) (d a : SReg) (imm : BitVec 30), ∃ t, exec (op d a imm) s = .next t ∧
    RegWrite s t d (f (s.rdS a) (BitVec.ofInt 64 imm.toInt))

/-- `t` is `s` after its word has issued with the effect `f` on its own context, and nothing else. -/
def Issued (s t : State) (f : Ctx → Ctx) : Prop :=
  t.unissue s = s.modMe f ∧ (∀ a, t.byte a = s.byte a ∧ t.hostByte a = s.hostByte a)

/-- A control transfer to byte offset `pc` (R59, R90): the walk of the text goes on there. -/
def Ctx.goTo (k : Ctx) (pc : Nat) : Ctx := { k with walk := { k.walk with pc := pc, halted := false } }

/-- A control register of the running context after a write of `v`, by its number (R42, R93, R136, R146, R199, R214, R281, R286,
R330); `none` for the others. -/
def csrHolds (k : Ctx) (n : Nat) : Option Nat :=
  if n = 0x10 then some k.slipwin else if n = 0x11 then some k.vstat else if n = 0x12 then some k.vrkey.toNat
  else if n = 0x13 then some k.vrctr.toNat else if n = 0x14 then some k.mstat else if n = 0x15 then some k.cstat
  else if n = 0x16 then some k.sstat else if n = 0x17 then some k.saecfg else if n = 0x19 then some k.obsring.toNat
  else none

/-- The value such a register keeps of `v`: its writable bits. -/
def csrKeeps (n v : Nat) : Nat :=
  if n = 0x10 then (if v % 2 ^ 13 = 0 then 1 else Min.min (v % 2 ^ 13) 4096) else if n = 0x11 then v &&& 0xDF
  else if n = 0x12 ∨ n = 0x13 ∨ n = 0x19 then v else if n = 0x14 ∨ n = 0x16 then v % 16 else if n = 0x15 then v % 32 else v % 8

/-- The load forms of R87 with their sizes and whether they sign-extend. -/
def loadForms (d a : SReg) (imm : BitVec 30) : List (Instr × Nat × Bool) :=
  [(.ldI8 d a imm, 1, true), (.ldUi8 d a imm, 1, false), (.ldI16 d a imm, 2, true), (.ldUi16 d a imm, 2, false),
   (.ldI32 d a imm, 4, true), (.ldUi32 d a imm, 4, false), (.ldI64 d a imm, 8, true)]

/-- The store forms of R87 with their sizes; sS stands in the D field. -/
def storeForms (r a : SReg) (imm : BitVec 30) : List (Instr × Nat) :=
  [(.stI8 r a imm, 1), (.stI16 r a imm, 2), (.stI32 r a imm, 4), (.stI64 r a imm, 8)]

/-- What a load of `n` bytes writes (R87): the little-endian value, sign- or zero-extended. -/
def extended (n : Nat) (signed : Bool) (v : Nat) : Word :=
  if signed && 2 ^ (8 * n - 1) ≤ v then BitVec.ofInt 64 ((v : Int) - (2 ^ (8 * n) : Nat)) else BitVec.ofNat 64 v

/-- Nothing that software can read has changed but what a list of conclusions names: scalar and header registers and bytes. -/
def SameData (s t : State) : Prop :=
  (∀ r, t.rdS r = s.rdS r) ∧ (∀ r, t.rdH r = s.rdH r) ∧ ∀ a, t.byte a = s.byte a ∧ t.hostByte a = s.hostByte a

/-- The condition of a WAITF as R98 words it: 0 NZ, 1 GE (unsigned), 2 EQ. -/
def waitMet (cond : Fin 4) (f v : FlagVal) : Prop :=
  (cond = 0 ∧ f ≠ 0) ∨ (cond = 1 ∧ v.toNat ≤ f.toNat) ∨ (cond = 2 ∧ f = v)

/-- `t` is `s` after its word has issued, but for the context's acquires and its release mark, and for alias classes of writes made before it,
which the word closes (R298). -/
def OrdersOnly (s t : State) : Prop :=
  ({ t with hist := s.hist }.unissue s).modMe (fun k => { k with acqs := s.me.acqs, released := s.me.released }) = s ∧
    (∃ f : HistEntry → Nat, t.hist = s.hist.map fun e => { e with cls := f e }) ∧ SameData s t

/-- The bytes that stand in DRAM at the parts of an access. -/
def State.partBytes (s : State) (addr size : Nat) (more : Option (Nat × Nat × Nat)) : List Byte :=
  (accessParts addr size more).flatMap fun p => (List.range p.2.2).map fun i => s.byte (p.2.1 + i)

/-- Every part of an access is read as it stands. -/
def State.plainParts (s : State) (addr key size : Nat) (more : Option (Nat × Nat × Nat)) : Prop :=
  ∀ p ∈ accessParts addr size more, s.plainBytes p.2.1 (partKey key more p.1) p.2.2

/-- The running word of the control cursor: its entry stands at the head of the queue. -/
def State.atHead (s : State) (e : SEntry) : Prop := s.me.head s.cur.tag = some e

/-- A reply with value `v` for register `d` is on its way to the running context, and arrives in a later cycle (R80, R103). -/
def Replies (s t : State) (d : SReg) (v : Word) : Prop :=
  ∃ r, t.me.replies = s.me.replies ++ [r] ∧ r.dst = d ∧ r.val = v ∧ s.cycle + 1 ≤ r.due

/-- What software can read of context `x` of core `c`, and all of memory, is as before. -/
def SameRegs (s t : State) (c : CoreId) (x : CtxId) : Prop :=
  (t.ctx c x).s = (s.ctx c x).s ∧ (t.ctx c x).h = (s.ctx c x).h ∧ ∀ a, t.byte a = s.byte a ∧ t.hostByte a = s.hostByte a

/-- The entries that `gone` names have left every TLB of the package, the collective engine's too, the others have stayed, and the word stays
outstanding until the accesses made under them are performed for partition `p`. -/
structure Flushed (s t : State) (p : Nat) (gone : TlbEntry → Bool) : Prop where
  tlb : ∀ c, (t.core c).tlb = (s.core c).tlb.filter fun e => !gone e
  stlb : ∀ c (i : Fin 6), (t.core c).stlb[i] = (s.core c).stlb[i].filter fun e => !gone e
  col : t.col.tlb = s.col.tlb.filter fun e => !gone e
  later : t.me.tlbiWait = some (p, s.cycle)
  data : SameData s t

/-- A CSAVE, CLOAD or SCTL word of the running context that names context `x` acts at once (R107, R374): no earlier PREEMPT of `x` is
open, its stores are performed, no fork set is active, its level is 1 or above and no bracket is open. -/
structure State.sctlReady (s : State) (x : CtxId) : Prop where
  told : s.me.preempting.contains x = false
  stored : s.me.stores = []
  alone : s.me.fork = none
  level : 1 ≤ s.me.pl
  free : s.me.bracket = none

/-- The task of context `x` of core `c` has become a task that `p` holds of; nothing is said where it has none. -/
def TaskBecomes (s t : State) (c : CoreId) (x : CtxId) (p : Task → Task → Prop) : Prop :=
  ∀ n tk, (s.ctx c x).task = some n → s.task? (s.partOf c x) n = some tk → ∃ tk', t.task? (s.partOf c x) n = some tk' ∧ p tk tk'

/-- The vector words with the operand fields `v`. -/
def vecIns (v : VOp) : List Instr :=
  [.vmov v, .vsel v, .vadd v, .vsub v, .vmul v, .vmulh v, .vfma v, .vfms v, .vfnma v, .vmin v, .vmax v, .vabs v, .vneg v, .vand v, .vor v, .vxor v,
   .vnot v, .vsll v, .vsrl v, .vsra v, .vcmpeq v, .vcmpne v, .vcmplt v, .vcmple v, .vcvt v, .vcvte v, .vcvtl v, .vrand v, .vexp v, .vlog v, .vrcp v,
   .vrsqrt v, .vtanh v, .vgelu v, .vdiv v, .vsqrt v, .vlvl v, .vradd v, .vrmin v, .vrmax v, .vscanadd v, .vscanmax v, .vperm v, .vshuf v, .vbcast v,
   .vbcasts v, .vrot v, .vtopnm v, .kand v, .kor v, .kxor v, .kandn v, .knot v, .kmov v]

/-- Element `e` of vector register `r` in elements of `w` bits (R131). -/
def State.elem (s : State) (w : Nat) (r : Fin 64) (e : Nat) : Nat := sliceAt (vget s.myCore.v r.val 0) (w * e) w

/-- Mask register `m` as a word reads it: k0 is all ones (R133). -/
def State.maskOf (s : State) (m : Nat) : Mask := if m = 0 then BitVec.allOnes 1024 else vget s.myCore.k m 0

/-- The operands of a vector word are registers of which no result is in flight, and its mask destination has none in flight. -/
structure State.vecQuiet (s : State) (v : VOp) (w : VWord) : Prop where
  srcs : ∀ r ∈ w.srcs, r.val < 56 ∧ s.myCore.inFlight r.val = false
  masks : ∀ m ∈ v.k.val :: w.masks, s.myCore.maskInFlight m = false
  dsts : ∀ r ∈ w.dsts, r.val < 56 ∧ s.myCore.inFlight r.val = false
  kd : ∀ m, w.kd = some m → s.myCore.maskInFlight m = false

/-- A legal word on quiet registers puts one result in flight for register D: element `e` has the value `val` where the mask is on and stays
where it is off (R133). `val` reads elements by register and number, and masks by number. -/
def VecWrites (i : Instr) (v : VOp) (val : (Fin 64 → Nat → Nat) → (Nat → Mask) → Nat → Nat) : Prop :=
  ∀ (s : State) (w : VWord), illegal i = none → vecWord i = some w → s.vecQuiet v w →
    ∃ t p, exec i s = .next t ∧ t.myCore.vpend = s.myCore.vpend ++ [p] ∧ p.dst = v.d.val ∧ p.ctx = s.cur.ctx ∧ s.cycle < p.due ∧ ∀ e, e < w.n →
      ((s.maskOf v.k.val).getLsbD e = true → sliceAt p.val (w.w * e) w.w = val (s.elem w.w) s.maskOf e ∧
        sliceAt p.wmask (w.w * e) w.w = 2 ^ w.w - 1) ∧
      ((s.maskOf v.k.val).getLsbD e = false → sliceAt p.wmask (w.w * e) w.w = 0)

/-- The same for a word that writes mask D: bit `e` takes `bit` where the mask is on, stays where it is off, and is 0 from the number of
elements up (R144). -/
def MaskWrites (i : Instr) (v : VOp) (bit : (Fin 64 → Nat → Nat) → (Nat → Mask) → Nat → Bool) : Prop :=
  ∀ (s : State) (w : VWord), illegal i = none → vecWord i = some w → s.vecQuiet v w →
    ∃ t p, exec i s = .next t ∧ t.myCore.vpend = s.myCore.vpend ++ [p] ∧ p.kdst = (if v.d.val = 0 then 0 else 64 + v.d.val) ∧ s.cycle < p.due ∧
      ∀ e, e < 1024 → p.kmask.getLsbD e = (decide (w.n ≤ e) || (s.maskOf v.k.val).getLsbD e) ∧
        p.kval.getLsbD e = (decide (e < w.n) && (s.maskOf v.k.val).getLsbD e && bit (s.elem w.sw) s.maskOf e)

/-- A legal word on quiet registers completes: it puts one result in flight for each of its `k` destinations, where element `l` of destination `j`
is result `l·k + j` where the mask is on and stays where it is off (R133, R134), and the first carries the flags that the rule raises. `out` gives
a result and its flags from the word's draws, from one free value for each element, which it takes up only where the spec states no value, and from
the elements of its sources. -/
def VecResults (i : Instr) (v : VOp) (rule : FlagRule) (out : State → VEnv → (Nat → Nat → Nat) → Nat → Nat × Nat) : Prop :=
  ∀ (s : State) (w : VWord), illegal i = none → vecWord i = some w → s.vecQuiet v w → w.dsts ≠ [] →
    ∃ t ps free, exec i s = .next t ∧ SameData s t ∧ t.myCore.vpend = s.myCore.vpend ++ ps ∧ ps.map (·.dst) = w.dsts.map (·.val) ∧
      (∀ p ∈ ps, s.cycle < p.due ∧ p.ctx = s.cur.ctx) ∧
      let x (j e : Nat) : Nat := ((w.lists (w.srcs.map fun r => vget s.myCore.v r.val 0)).getD j []).getD e 0
      let env : VEnv := { u := fun e => if w.draws then drawU s.me.vrkey.toNat s.me.vrctr.toNat e else 0, free := free, ms := [] }
      let on (e : Nat) : Bool := (s.maskOf v.k.val).getLsbD e
      (ps.map (·.flags)).headD 0 = raised rule (s.maskOf v.k.val) w.n ((List.range w.n).map fun e => out s env x e) ∧
      ∀ j p l, ps[j]? = some p → l < w.n / ps.length →
        (on (l * ps.length + j) = true → sliceAt p.val (w.w * l) w.w = (out s env x (l * ps.length + j)).1 % 2 ^ w.w ∧
          sliceAt p.wmask (w.w * l) w.w = 2 ^ w.w - 1) ∧
        (on (l * ps.length + j) = false → sliceAt p.wmask (w.w * l) w.w = 0)

/-- A pattern of `w` bits as the two's complement of a value. -/
def pat (w : Nat) (x : Int) : Nat := (x % (2 ^ w : Nat)).toNat

/-- The typed buffers of the running core are as before. -/
def SameBuffers (s t : State) : Prop := t.myCore.abuf = s.myCore.abuf ∧ t.myCore.cbuf = s.myCore.cbuf ∧ t.myCore.wbuf = s.myCore.wbuf

/-- The typed buffers of core `c` are as before. -/
def SameBuffersOf (s t : State) (c : CoreId) : Prop :=
  (t.core c).abuf = (s.core c).abuf ∧ (t.core c).cbuf = (s.core c).cbuf ∧ (t.core c).wbuf = (s.core c).wbuf

/-- The completion update of a word with FE is on its way to its flag, and none without (R97, R99). -/
def FlagDue (s t : State) (c : CoreId) (key : Nat) (fe : Bool) (f : FlagNo) : Prop :=
  (fe = false → (t.core c).upds = (s.core c).upds) ∧
  (fe = true → ∃ u, (t.core c).upds = (s.core c).upds ++ [u] ∧ u.flag = f ∧ u.add = false ∧ u.val = 1 ∧ u.key = key ∧ u.at_ = s.cycle)

/-- The FUR words that name header operands `h`, furrows `fn` and `cf`, table `tb` and mark `mk`. -/
def furWords (h : HOp) (fn cf : FurNo) (ln : Fin 64) (tb mk : Fin 8) : List Instr :=
  [.fopen h fn ln, .fclose h fn false, .fclose h fn true, .ftbl h tb, .fpush h fn tb, .fpop h fn false, .fpop h fn true, .fmark h fn mk, .fdrop h fn mk,
   .fsplitSplit h fn cf, .fsplitTake h fn cf, .fsplitImport h cf, .fjoin h fn cf, .fstat h fn false, .fstat h fn true]

/-- A FUR word is in execution for `n` cycles, with the furrows `sh` and the tables and marks as they stood as its shadow (R246, R247), and no
register has changed. -/
def FurRunsAs (s t : State) (h : HOp) (n : Nat) (sh : Vector Furrow 16) : Prop :=
  (∃ m, t.myCore.fcmd = some m ∧ m.due = s.cycle + n ∧ m.fe = h.fe ∧ m.flag = h.flag ∧ m.ctx = s.cur.ctx ∧ m.shFur = sh ∧
    m.shTab = s.myCore.tabs ∧ m.shMark = s.myCore.marks) ∧ (∀ r, t.rdS r = s.rdS r) ∧ ∀ r, t.rdH r = s.rdH r

/-- The same with the furrows as they stood before the word. -/
def FurRuns (s t : State) (h : HOp) (n : Nat) : Prop := FurRunsAs s t h n s.myCore.furs

/-- Furrow `f` has just been opened on a region, empty (R250). -/
structure NewFurrow (f : Furrow) (lc : Nat) (region : Word) (size : Nat) (child : Bool) : Prop where
  opened : f.opened = true
  lanes : f.lc = lc ∧ ∀ j, j < 64 → f.lane j = 2 ^ 16
  stream : f.sl = 0 ∧ f.dd = 0
  place : f.region = region ∧ f.size = size
  bits : f.child = child ∧ f.empty = false ∧ f.full = false

/-- Every furrow but those listed is as before. -/
def OtherFurrows (s t : State) (fs : List FurNo) : Prop := ∀ f, f ∉ fs → t.myCore.fur f = s.myCore.fur f

/-- From `s` to `t` no furrow of core `c` outside the list changed, but that an open one whose region shares bytes with the `n` at handle address `a`
has its later pops undefined (R244). `s1` is the state in which the region's handle is looked up. -/
def OtherFurrowsHit (s s1 t : State) (c : CoreId) (x : CtxId) (fs : List FurNo) (a n : Nat) : Prop :=
  ∀ f, f ∉ fs → (t.core c).fur f =
    if ((s.core c).fur f).opened = true ∧ s1.furMeets c x a n ((s.core c).fur f) = true then { (s.core c).fur f with loose := true } else (s.core c).fur f

/-- No mark names the furrow. -/
def Unmarked (t : State) (fn : FurNo) : Prop := ∀ i : Fin 8, (t.myCore.marks[i]).valid = true → (t.myCore.marks[i]).fn ≠ fn.val

/-- A frequency table that R236 accepts. -/
def FTable.legal (t : FTable) : Prop := 4 ≤ t.n ∧ t.n ≤ 12 ∧ t.f.toList.sum = 2 ^ t.n

/-- The engine's command `op` in PCMD has ended with ERR `e` (R338); PCMD_COMPLETE is left. -/
def Ended (t : State) (e : Nat) : Prop := t.mg.running = 3 ∧ t.mg.err = e

end Sys2Proof.Machine

open Sys2Proof Sys2Proof.Machine

/-! ### Encoding (R58 to R75) -/

/-- Every well-formed instruction word decodes to itself, at every operand value and IDLE count the encoding admits (an ALL word has IDLE 0,
R51). -/
def Obligations.EncodedWordsDecode : Prop :=
  ∀ (i : Instr) (idle : Fin 1024) (w : Word), i.wf = true → (i.owner = some .all → idle = 0) → encode idle i = some w →
    decodeWord w = .ok i ∧ wordIdle w = idle.val

/-- Every word that decodes is the word of its instruction, which is well formed: no bit of it is ignored. -/
def Obligations.DecodedWordsEncode : Prop :=
  ∀ (w : Word) (i : Instr), decodeWord w = .ok i → i.wf = true ∧ encode (Fin.ofNat 1024 (wordIdle w)) i = some w

/-- Words written out bit by bit from the encoding tables, one of every class: ADDI s3, s4, −5 with IDLE 2; TEND; VADD.f32 v1, v2, v3; MMA h1,
h2, h3 with flag f9 and OVW; AWGO a3 to q5, 100 entries; CPY h1, h2 on channel 3; SADD.i32 h1 by q2 and q3; FOPEN h1, furrow 7 with 32 lanes;
LOOP 1 by s7 with two stages. A reserved TAG value is no legal word, whatever its other bits (subcode 1). -/
def Obligations.SpecWordsDecode : Prop :=
  (decodeWord 0x0008C0643FFFFFFB#64 = .ok (.addi 3 4 (BitVec.ofInt 30 (-5))) ∧
   decodeWord 0x0000200800000000#64 = .ok .tend ∧
   decodeWord 0x1000201083010000#64 = .ok (.vadd ⟨1, 2, 3, 0, 0x10, 0, 0, 0⟩) ∧
   decodeWord 0x2000082218920001#64 = .ok (.mma ⟨1, 2, 3, 0, true, 9, false, 0⟩ true) ∧
   decodeWord 0x30000B0500000640#64 = .ok (.awgo ⟨3, 0, 5, 0, false, 0, 0, 100⟩) ∧
   decodeWord 0x4000042200000003#64 = .ok (.cpy ⟨1, 2, 0, 0, false, 0, false, 0⟩ 0 0 false 3) ∧
   decodeWord 0x5000202000000260#64 = .ok (.sadd ⟨⟨1, 0, 0, 0, false, 0, false, 0⟩, 0, 2, 3, 0, false⟩) ∧
   decodeWord 0x600004010000039F#64 = .ok (.fopen ⟨0, 1, 0, 0, false, 0, false, 0⟩ 7 31) ∧
   decodeWord 0xF000053900000000#64 = .ok (.loop 1 7 1 false)) ∧
  (∀ w : Word, 7 ≤ wordTag w → wordTag w ≤ 14 → decodeWord w = .error 1)

/-! ### The control core (R34, R82 to R95) -/

/-- ADD, SUB, AND, OR, XOR and their immediate forms: results modulo 2^64, and every other register, byte and flag as before. SLL, SRL, SRA by
sB[5:0], and SLLI, SRLI, SRAI by an immediate from 0 to 63: multiplication by a power of two, and division rounded down of the unsigned or signed
value. SLT, SLTU and their immediate forms; MIN, MAX (signed) and MINU, MAXU (unsigned). MUL: the low 64 bits; MULH and MULHU: the high 64 bits
of the signed and unsigned product. LIL writes the sign-extended immediate; LIH replaces the upper half and keeps the lower. s0 reads as zero in
every state, and a write to it is discarded. -/
def Obligations.ScalarResults : Prop :=
  (Writes3 .add (fun a b => BitVec.ofNat 64 (a.toNat + b.toNat)) ∧
   Writes3 .sub (fun a b => BitVec.ofInt 64 (a.toInt - b.toInt)) ∧
   Writes3 .and (fun a b => a &&& b) ∧ Writes3 .or (fun a b => a ||| b) ∧ Writes3 .xor (fun a b => a ^^^ b) ∧
   WritesImm .addi (fun a b => BitVec.ofNat 64 (a.toNat + b.toNat)) ∧
   WritesImm .andi (fun a b => a &&& b) ∧ WritesImm .ori (fun a b => a ||| b) ∧ WritesImm .xori (fun a b => a ^^^ b)) ∧
  (Writes3 .sll (fun a b => BitVec.ofNat 64 (a.toNat * 2 ^ (b.toNat % 64))) ∧
   Writes3 .srl (fun a b => BitVec.ofNat 64 (a.toNat / 2 ^ (b.toNat % 64))) ∧
   Writes3 .sra (fun a b => BitVec.ofInt 64 (a.toInt / (2 ^ (b.toNat % 64) : Nat))) ∧
   ∀ (s : State) (d a : SReg) (imm : BitVec 30), imm.toNat < 64 →
     (∃ t, exec (.slli d a imm) s = .next t ∧ RegWrite s t d (BitVec.ofNat 64 ((s.rdS a).toNat * 2 ^ imm.toNat))) ∧
     (∃ t, exec (.srli d a imm) s = .next t ∧ RegWrite s t d (BitVec.ofNat 64 ((s.rdS a).toNat / 2 ^ imm.toNat))) ∧
     (∃ t, exec (.srai d a imm) s = .next t ∧ RegWrite s t d (BitVec.ofInt 64 ((s.rdS a).toInt / (2 ^ imm.toNat : Nat))))) ∧
  (Writes3 .slt (fun a b => if a.toInt < b.toInt then 1 else 0) ∧ Writes3 .sltu (fun a b => if a.toNat < b.toNat then 1 else 0) ∧
   WritesImm .slti (fun a b => if a.toInt < b.toInt then 1 else 0) ∧ WritesImm .sltiu (fun a b => if a.toNat < b.toNat then 1 else 0) ∧
   Writes3 .min (fun a b => BitVec.ofInt 64 (Min.min a.toInt b.toInt)) ∧ Writes3 .max (fun a b => BitVec.ofInt 64 (Max.max a.toInt b.toInt)) ∧
   Writes3 .minu (fun a b => BitVec.ofNat 64 (Min.min a.toNat b.toNat)) ∧ Writes3 .maxu (fun a b => BitVec.ofNat 64 (Max.max a.toNat b.toNat))) ∧
  (Writes3 .mul (fun a b => BitVec.ofInt 64 (a.toInt * b.toInt)) ∧
   Writes3 .mulh (fun a b => BitVec.ofInt 64 (a.toInt * b.toInt / 2 ^ 64)) ∧
   Writes3 .mulhu (fun a b => BitVec.ofNat 64 (a.toNat * b.toNat / 2 ^ 64))) ∧
  (∀ (s : State) (d : SReg) (imm : BitVec 32),
     (∃ t, exec (.lil d imm) s = .next t ∧ RegWrite s t d (BitVec.ofInt 64 imm.toInt)) ∧
     (∃ t, exec (.lih d imm) s = .next t ∧ RegWrite s t d (BitVec.ofNat 64 (imm.toNat * 2 ^ 32 + (s.rdS d).toNat % 2 ^ 32)))) ∧
  (∀ (s : State) (v : Word), s.rdS 0 = 0 ∧ s.wrS 0 v = s ∧ ∀ r : SReg, r ≠ 0 → (s.wrS r v).rdS r = v)

/-- DIV, DIVU, REM, REMU with a nonzero divisor: the quotient rounds toward zero, the remainder has the sign of sA, and the most negative number
by −1 gives itself and 0. A zero divisor raises the divide trap, cause 0x03: the word does not issue, and sD keeps its value. -/
def Obligations.DivideResultsAndTraps : Prop :=
  (∀ (s : State) (d a b : SReg), s.rdS b ≠ 0 →
     (∃ t, exec (.div d a b) s = .next t ∧ RegWrite s t d (BitVec.ofInt 64 ((s.rdS a).toInt.tdiv (s.rdS b).toInt))) ∧
     (∃ t, exec (.divu d a b) s = .next t ∧ RegWrite s t d (BitVec.ofNat 64 ((s.rdS a).toNat / (s.rdS b).toNat))) ∧
     (∃ t, exec (.rem d a b) s = .next t ∧ RegWrite s t d (BitVec.ofInt 64 ((s.rdS a).toInt.tmod (s.rdS b).toInt))) ∧
     (∃ t, exec (.remu d a b) s = .next t ∧ RegWrite s t d (BitVec.ofNat 64 ((s.rdS a).toNat % (s.rdS b).toNat)))) ∧
  (∀ (s : State) (d a b : SReg), s.rdS b = 0 → s.live →
     ∀ i ∈ [Instr.div d a b, .divu d a b, .rem d a b, .remu d a b], ∃ t, exec i s = .next t ∧ Trapped s t 0x03 0 1 s.wordDetail)

/-- A conditional branch that is not taken only issues; one that is taken outside a fork set moves the PC by 8·sext(OFF); neither writes a
register or a byte. JAL and JALR outside a fork set: sD takes PC + 8, and the PC the target, which JALR reads from sA before it writes sD. While
a fork set is active a taken branch, a JAL and a JALR raise the operand-range trap before the program counter changes. -/
def Obligations.BranchesAndJumps : Prop :=
  (∀ (s : State) (a b : SReg) (off : BitVec 30),
     let x := s.rdS a
     let y := s.rdS b
     ∀ p ∈ [(Instr.beq a b off, decide (x = y)), (.bne a b off, decide (x ≠ y)), (.blt a b off, decide (x.toInt < y.toInt)),
         (.bge a b off, decide (x.toInt ≥ y.toInt)), (.bltu a b off, decide (x.toNat < y.toNat)), (.bgeu a b off, decide (x.toNat ≥ y.toNat))],
       (p.2 = false → ∃ t, exec p.1 s = .next t ∧ Issued s t id) ∧
       (p.2 = true → s.me.fork = none → ∃ t, exec p.1 s = .next t ∧
         Issued s t fun k => k.goTo (((s.curPc : Int) + 8 * off.toInt) % 2 ^ 64).toNat)) ∧
  (∀ (s : State) (d a : SReg) (imm : BitVec 30), s.me.fork = none →
     (∃ t, exec (.jal d imm) s = .next t ∧
       Issued s t fun k => (k.wrS d (BitVec.ofNat 64 (s.curPc + 8))).goTo (((s.curPc : Int) + 8 * imm.toInt) % 2 ^ 64).toNat) ∧
     (∃ t, exec (.jalr d a imm) s = .next t ∧
       Issued s t fun k => (k.wrS d (BitVec.ofNat 64 (s.curPc + 8))).goTo (s.rdS a + BitVec.ofInt 64 imm.toInt).toNat)) ∧
  (∀ (s : State) (a b : SReg) (off : BitVec 30), s.me.fork.isSome = true → s.live →
     (∀ i ∈ [Instr.jal a off, .jalr a b off], ∃ t, exec i s = .next t ∧ Trapped s t 0x02 0 1 s.wordDetail) ∧
     (s.rdS a = s.rdS b → ∀ i ∈ [Instr.beq a b off, .bge a b off, .bgeu a b off], ∃ t, exec i s = .next t ∧ Trapped s t 0x02 0 1 s.wordDetail) ∧
     ((s.rdS a).toInt < (s.rdS b).toInt → ∀ i ∈ [Instr.bne a b off, .blt a b off], ∃ t, exec i s = .next t ∧ Trapped s t 0x02 0 1 s.wordDetail) ∧
     ((s.rdS a).toNat < (s.rdS b).toNat → ∃ t, exec (.bltu a b off) s = .next t ∧ Trapped s t 0x02 0 1 s.wordDetail))

/-- CSRR of an assigned register at or above its level writes its value to sD and nothing else: COREID, CTXID, PARTID, CTXSTAT (EVT in bit 8, FA
in bit 7, PL in bits 1:0) and the rest. -/
def Obligations.CsrReads : Prop :=
  ∀ (s : State) (d : SReg) (csr : BitVec 30), csrAssigned csr.toNat = true → (csrLevels csr.toNat).1 ≤ s.me.pl →
    ∃ t v, exec (.csrr d csr) s = .next t ∧ RegWrite s t d v ∧
      (csr = 1 → v.toNat = s.cur.core.val) ∧ (csr = 2 → v.toNat = s.cur.ctx.val) ∧ (csr = 3 → v = BitVec.ofNat 64 s.myPart) ∧
      (csr = 4 → v = BitVec.ofNat 64 (b2n s.me.evt * 256 + b2n s.me.fork.isSome * 128 + s.me.pl % 4)) ∧
      (csr = 0x12 → v = s.me.vrkey) ∧ (csr = 0x13 → v = s.me.vrctr) ∧ (csr = 0x19 → v = s.me.obsring) ∧ (csr = 0x20 → v = BitVec.ofNat 64 (b2n s.me.wfeto)) ∧
      (csr = 0x41 → v = (s.me.bankAt s.me.pl).pc) ∧ (csr = 0x43 → v = (s.me.bankAt s.me.pl).vec) ∧ (csr = 0x44 → v = (s.me.bankAt s.me.pl).scr)

/-- CSRW and CSRX of a writable register of level 0: the register keeps the writable bits of sA, CSRX gives sD the value before, no other scalar
register, header or byte changes. CTXSTAT.EVT clears where CSRW's operand holds a 1 in bit 8, and stays otherwise; nothing else of the context
changes. -/
def Obligations.CsrWrites : Prop :=
  (∀ (s : State) (d a : SReg) (csr : BitVec 30) (old : Nat), csrHolds s.me csr.toNat = some old →
     (∃ t, exec (.csrw a csr) s = .next t ∧ csrHolds t.me csr.toNat = some (csrKeeps csr.toNat (s.rdS a).toNat) ∧ (∀ r, t.rdS r = s.rdS r) ∧
       (∀ r, t.rdH r = s.rdH r) ∧ ∀ x, t.byte x = s.byte x) ∧
     (∃ t, exec (.csrx d a csr) s = .next t ∧ csrHolds t.me csr.toNat = some (csrKeeps csr.toNat (s.rdS a).toNat) ∧
       t.rdS d = (if d.val = 0 then 0 else BitVec.ofNat 64 old) ∧ (∀ r, r ≠ d → t.rdS r = s.rdS r) ∧ (∀ r, t.rdH r = s.rdH r) ∧
       ∀ x, t.byte x = s.byte x)) ∧
  (∀ (s : State) (a : SReg), ∃ t, exec (.csrw a 4) s = .next t ∧
     Issued s t fun k => { k with evt := k.evt && !(s.rdS a).toNat.testBit 8 })

/-- A read below a register's level, a write below it and a write to an RO register raise the operand-range trap. -/
def Obligations.CsrProtection : Prop :=
  ∀ (s : State) (d a : SReg) (csr : BitVec 30), csrAssigned csr.toNat = true → s.live →
    (s.me.pl < (csrLevels csr.toNat).1 → ∃ t, exec (.csrr d csr) s = .next t ∧ Trapped s t 0x02 0 1 s.wordDetail) ∧
    (((csrLevels csr.toNat).2 = none ∨ ∃ l, (csrLevels csr.toNat).2 = some l ∧ s.me.pl < l) →
      (∃ t, exec (.csrw a csr) s = .next t ∧ Trapped s t 0x02 0 1 s.wordDetail) ∧
      ∃ t, exec (.csrx d a csr) s = .next t ∧ Trapped s t 0x02 0 1 s.wordDetail) ∧
    (csr.toNat ≤ 3 ∨ csr = 0x20 ∨ (0x108 ≤ csr.toNat ∧ csr.toNat ≤ 0x10F) → (csrLevels csr.toNat).2 = none) ∧
    (0x40 ≤ csr.toNat ∧ csr.toNat ≤ 0x47 → (csrLevels csr.toNat).1 = 1)

/-- HDRW puts a value that fits into the field's bits and leaves the header's other bits, every other header, every scalar register and every
byte; HDRR reads the field, BIAS with its sign; a field read back is the value written. -/
def Obligations.HeaderFields : Prop :=
  ∀ (s : State) (d h : HReg) (r a : SReg) (f : Fin 32), f.val < 22 →
    (hdrFits f.val (s.rdS a) = true → ∃ t, exec (.hdrw d f a) s = .next t ∧ hdrGet (t.rdH d) f.val = s.rdS a ∧
      (∀ i, i < 256 → (i < (hdrField f.val).1 ∨ (hdrField f.val).1 + (hdrField f.val).2 ≤ i) → (t.rdH d).getLsbD i = (s.rdH d).getLsbD i) ∧
      Issued s t fun k => { k with h := k.h.set d (t.rdH d) }) ∧
    (∃ t, exec (.hdrr r h f) s = .next t ∧ RegWrite s t r (hdrGet (s.rdH h) f.val)) ∧
    (hdrFits f.val (s.rdS a) = false → s.live → ∃ t, exec (.hdrw d f a) s = .next t ∧ Trapped s t 0x02 0 1 s.wordDetail)

/-! ### Loads and stores of the control core (R81, R86 to R89, R128) -/

/-- An access with a negative or misaligned offset, through handle 0 or one above 4095, beyond the handle's bound or against its permissions
raises the operand-range trap, and leaves registers and memory unchanged. -/
def Obligations.AccessChecksTrap : Prop :=
  ∀ (s : State) (d a : SReg) (imm : BitVec 30), s.live →
    let h := haddrH (s.rdS a).toNat
    let off := (haddrO (s.rdS a).toNat : Int) + imm.toInt
    ∀ p ∈ (loadForms d a imm).map (fun p => (p.1, p.2.1, false)) ++ (storeForms d a imm).map (fun p => (p.1, p.2, true)),
      (off < 0 ∨ off % (p.2.1 : Int) ≠ 0 ∨ h = 0 ∨ 4096 ≤ h ∨
        (h < 4094 ∧ ∃ i u, s.handle s.cur.core s.cur.ctx h = (.bound i, u) ∧
          ((i.len : Int) < off + p.2.1 ∨ (p.2.2 = true ∧ i.w = false) ∨ (p.2.2 = false ∧ i.rd = false)))) →
      ∃ t, exec p.1 s = .next t ∧ Trapped s t 0x02 0 1 s.wordDetail

/-- A load of DRAM, and a load of a typed buffer, issues and is in flight with its destination, place and size; no register and no byte changes yet.
Its value comes in the fourth cycle at the earliest, and in the fourth where the data cache holds every line of it. Which lines the data cache
holds is the model's choice (assumption log 10). -/
def Obligations.LoadsWriteOrPend : Prop :=
  ∀ (s u : State) (d a : SReg) (imm : BitVec 30), ∀ p ∈ loadForms d a imm,
    (∀ pa key va more, s.target (s.rdS a) imm p.2.1 false = (.dram pa key va more, u) →
      ∃ t l, exec p.1 s = .next t ∧ t.me.loads = u.me.loads ++ [l] ∧ l.dst = d ∧ l.size = p.2.1 ∧ l.signed = p.2.2 ∧ l.buf = 0 ∧ l.addr = pa ∧
        l.key = key ∧ l.more = more ∧ l.order = s.cycle ∧ s.cycle + 4 ≤ l.due ∧ SameData s t ∧
        ((∀ q ∈ accessParts pa p.2.1 more, u.myCore.dHit q.2.1 = true ∧ u.myCore.dHit (q.2.1 + q.2.2 - 1) = true) → l.due = s.cycle + 4)) ∧
    (∀ b byte, s.target (s.rdS a) imm p.2.1 false = (.buf b byte, u) →
      ∃ t l, exec p.1 s = .next t ∧ t.me.loads = u.me.loads ++ [l] ∧ l.dst = d ∧ l.size = p.2.1 ∧ l.signed = p.2.2 ∧ l.buf = b ∧ l.addr = byte ∧
        l.order = s.cycle ∧ s.cycle + 4 ≤ l.due ∧ SameData s t)

/-- CTL_LOAD_RETURN: the oldest load in flight writes its value to its register, DRAM's bytes or the raw bytes of the typed buffer, and leaves
flight; every other register and every byte is as before. The bytes of a load that crosses a page stand in two places. A load returns the bytes of
the own context's earlier posted store to the same place, performed or not (R89). -/
def Obligations.LoadReturnWrites : Prop :=
  (∀ (s : State) (c : CoreId) (x : CtxId) (l : PendLoad) (rest : List PendLoad), (s.ctx c x).loads = l :: rest → (s.ctx c x).stores = [] →
     let v := leNat (if l.buf = 0 then s.partBytes l.addr l.size l.more else (s.core c).bufBytes l.buf l.addr l.size)
     (l.buf = 0 → s.plainParts l.addr l.key l.size l.more) → l.size ∈ [1, 2, 4, 8] →
       ∃ t, exec (.ctlLoadReturn c x) s = .next t ∧ (t.ctx c x).loads = rest ∧ (t.ctx c x).loadAt = s.cycle ∧
         (t.ctx c x).rdS l.dst = (if l.dst.val = 0 then 0 else extended l.size l.signed v) ∧
         (∀ r, r ≠ l.dst → (t.ctx c x).rdS r = (s.ctx c x).rdS r) ∧ (t.ctx c x).h = (s.ctx c x).h ∧ ∀ a, t.byte a = s.byte a) ∧
  (∀ (s : State) (c : CoreId) (x : CtxId) (l : PendLoad) (rest : List PendLoad) (st : PendStore), (s.ctx c x).loads = l :: rest →
     (s.ctx c x).stores = [st] → st.buf = l.buf → st.addr = l.addr → st.bytes.length = l.size → st.order < l.order → l.size ∈ [1, 2, 4, 8] → l.dst.val ≠ 0 →
     l.more = none → st.more = none → (l.buf = 0 → s.plainBytes l.addr l.key l.size) →
       ∃ t, exec (.ctlLoadReturn c x) s = .next t ∧ (t.ctx c x).rdS l.dst = extended l.size l.signed (leNat st.bytes))

/-- A store issues as a posted store of the low bytes of sS, little-endian, to the place its address names; no register and no byte changes yet.
CTL_STORE_PERFORM: the oldest posted store of a context writes its bytes at its address and nowhere else; a byte in a line of another key is not
written (R230); a store to a typed buffer writes no byte of DRAM. -/
def Obligations.StoresPostAndPerform : Prop :=
  (∀ (s u : State) (r a : SReg) (imm : BitVec 30), ∀ p ∈ storeForms r a imm,
     (∀ pa key va more, s.target (s.rdS a) imm p.2 true = (.dram pa key va more, u) →
       ∃ t st, exec p.1 s = .next t ∧ t.me.stores = u.me.stores ++ [st] ∧ st.buf = 0 ∧ st.addr = pa ∧ st.key = key ∧ st.more = more ∧
         st.order = s.cycle ∧ st.bytes.length = p.2 ∧ leNat st.bytes = (s.rdS r).toNat % 2 ^ (8 * p.2) ∧ SameData s t) ∧
     (∀ b byte, s.target (s.rdS a) imm p.2 true = (.buf b byte, u) →
       ∃ t st, exec p.1 s = .next t ∧ t.me.stores = u.me.stores ++ [st] ∧ st.buf = b ∧ st.addr = byte ∧
         st.bytes.length = p.2 ∧ leNat st.bytes = (s.rdS r).toNat % 2 ^ (8 * p.2) ∧ SameData s t)) ∧
  (∀ (s : State) (c : CoreId) (x : CtxId) (st : PendStore) (rest : List PendStore), (s.ctx c x).stores = st :: rest → st.bytes ≠ [] →
     ∃ t, exec (.ctlStorePerform c x) s = .next t ∧ (t.ctx c x).stores = rest ∧ (∀ r, (t.ctx c x).rdS r = (s.ctx c x).rdS r) ∧
       (∀ a, (∀ p ∈ accessParts st.addr st.bytes.length st.more, ¬(st.buf = 0 ∧ p.2.1 ≤ a ∧ a < p.2.1 + p.2.2)) → t.byte a = s.byte a) ∧
       (∀ a, t.hostByte a = s.hostByte a) ∧
       (st.buf = 0 → st.more = none → ∀ i, i < st.bytes.length → t.byte (st.addr + i) =
         if s.lineKey (st.addr + i) = st.key then st.bytes.getD i 0 else s.byte (st.addr + i)))

/-- The format block (handle 4095): a load reads a format register of a granted bank; a store of an allowed value writes it, and one with a
reserved bit or code traps (R127, R128). A load waits for the stores before it, and a store for the loads and stores before it. -/
def Obligations.FormatBlockAccess : Prop :=
  ∀ (s u : State) (d a : SReg) (imm : BitVec 30) (o : Nat),
    (s.target (s.rdS a) imm 8 false = (.fmtBlock o, u) →
      (s.me.stores = [] → ∃ t, exec (.ldI64 d a imm) s = .next t ∧
        RegWrite s t d (BitVec.ofNat 64 (s.myCore.fmtReg (o / 0x80 + 1) (o % 0x80 / 8)))) ∧
      (s.me.stores ≠ [] → exec (.ldI64 d a imm) s = .next s)) ∧
    (s.target (s.rdS a) imm 8 true = (.fmtBlock o, u) → fmtRegOk (o / 0x80 + 1) (s.rdS d).toNat = true →
      (s.me.stores = [] → s.me.loads = [] →
        ∃ t, exec (.stI64 d a imm) s = .next t ∧ t.myCore.fmtReg (o / 0x80 + 1) (o % 0x80 / 8) = (s.rdS d).toNat ∧ SameData s t) ∧
      (s.me.stores ≠ [] ∨ s.me.loads ≠ [] → exec (.stI64 d a imm) s = .next s)) ∧
    (s.target (s.rdS a) imm 8 true = (.fmtBlock o, u) → fmtRegOk (o / 0x80 + 1) (s.rdS d).toNat = false → s.live →
      ∃ t, exec (.stI64 d a imm) s = .next t ∧ Trapped s t 0x02 0 1 s.wordDetail)

/-! ### Flags, phases and events (R97 to R106, R293, R294) -/

/-- SETF holds until its release is complete; then it leaves an update of its flag for the next cycle, SET or ADD of sA[31:0], and later stores
are release stores; a flag outside the grant traps. Two updates of one flag in one cycle are applied in ascending order of the engine's TAG,
whatever order they were made in; SET replaces the value and ADD adds modulo 2^32; the other flags keep theirs. -/
def Obligations.SetfReleases : Prop :=
  (∀ (s : State) (f : FlagNo) (a : SReg) (sc : Scope) (add : Bool),
     (s.releaseReady sc = false → exec (.setf f a sc add) s = .next s) ∧
     (s.releaseReady sc = true → s.myGrant.hasFlag f.val = true → ∃ t u, exec (.setf f a sc add) s = .next t ∧ t.myCore.upds = s.myCore.upds ++ [u] ∧
       u.flag = f ∧ u.add = add ∧ u.val.toNat = (s.rdS a).toNat % 2 ^ 32 ∧ u.at_ = s.cycle + 1 ∧ u.key = 0 ∧ t.myCore.flags = s.myCore.flags ∧
       t.me.released = true ∧ SameData s t) ∧
     (s.releaseReady sc = true → s.myGrant.hasFlag f.val = false → s.live → ∃ t, exec (.setf f a sc add) s = .next t ∧
       Trapped s t 0x02 0 1 s.wordDetail)) ∧
  (∀ (k : Core) (u w : FlagUpd) (now : Nat), u.flag = w.flag → u.key < w.key → w.key ≤ 6 → u.at_ ≤ now → w.at_ ≤ now →
     (k.upds = [u, w] ∨ k.upds = [w, u]) →
     let one (x : FlagUpd) (v : FlagVal) : FlagVal := if x.add then BitVec.ofNat 32 (v.toNat + x.val.toNat) else x.val
     (k.applyUpds now).flags[u.flag] = one w (one u k.flags[u.flag]) ∧ (k.applyUpds now).upds = [] ∧
       ∀ f : FlagNo, f ≠ u.flag → (k.applyUpds now).flags[f] = k.flags[f])

/-- WAITF issues exactly when its condition holds for the flag's value and every earlier load of the context has returned in a cycle before; it then
acquires at its scope and changes no flag and no register; otherwise it holds. -/
def Obligations.WaitfAcquires : Prop :=
  ∀ (s : State) (f : FlagNo) (a : SReg) (sc : Scope) (cond : Fin 4) (gate : BitVec 6), (cond = 0 → a.val = 0) → cond ≠ 3 →
    s.myGrant.hasFlag f.val = true →
    let met := waitMet cond (s.flag f) ((s.rdS a).setWidth 32) ∧ s.me.loads = [] ∧ s.me.loadAt < s.cycle
    (¬met → exec (.waitf f a sc cond gate) s = .next s) ∧
    (met → ∃ t q, exec (.waitf f a sc cond gate) s = .next t ∧ t.me.acqs.head? = some q ∧ q.idx = s.curIdx ∧ q.epoch = s.me.epoch ∧
      q.acq.at_ = s.cycle ∧ q.acq.scope = sc ∧ t.myCore.flags = s.myCore.flags ∧ (∀ r, t.rdS r = s.rdS r) ∧ (∀ r, t.rdH r = s.rdH r) ∧
      ((s.part s.myPart).policy = none → SameData s t))

/-- PHASE REL, ACQ and ACQREL: a release holds until the context's earlier writes are performed for its scope, an acquire until the earlier loads
have returned; the acquire governs the later accesses at its scope from this cycle; nothing else changes. FENCE issues at once and stays open. An
open fence whose FROM paths' writes have been made is complete when they are performed for its TO paths, and not before: from its place on every
access of a TO path then sees what a FROM path wrote, and only those pairs are raised: it is no acquire at any scope. While it is open, a later load
of the control core waits where CTL is among its TO paths (R102). -/
def Obligations.PhasesAndFences : Prop :=
  (∀ (s : State) (sc : Scope),
     let back := s.me.loads = [] ∧ s.me.loadAt < s.cycle
     (s.releaseReady sc = false → exec (.phaseRel sc) s = .next s ∧ exec (.phaseAcqrel sc) s = .next s) ∧
     (¬back → exec (.phaseAcq sc) s = .next s ∧ exec (.phaseAcqrel sc) s = .next s) ∧
     (s.releaseReady sc = true → ∃ t, exec (.phaseRel sc) s = .next t ∧ t.me.released = true ∧ OrdersOnly s t) ∧
     (back → ∃ t q, exec (.phaseAcq sc) s = .next t ∧ t.me.acqs.head? = some q ∧ q.idx = s.curIdx ∧ q.acq.at_ = s.cycle ∧ q.acq.scope = sc ∧
       OrdersOnly s t) ∧
     (s.releaseReady sc = true → back → ∃ t q, exec (.phaseAcqrel sc) s = .next t ∧ t.me.released = true ∧ t.me.acqs.head? = some q ∧
       q.idx = s.curIdx ∧ q.acq.at_ = s.cycle ∧ q.acq.scope = sc ∧ OrdersOnly s t)) ∧
  (∀ (s : State) (src dst : BitVec 6), src ≠ 0 → dst ≠ 0 → ∃ t f, exec (.fence src dst) s = .next t ∧
     Issued s t (fun k => { k with fences := k.fences ++ [f] }) ∧ f.src = src ∧ f.dst = dst ∧ f.epoch = s.me.epoch ∧ f.idx = s.curIdx ∧ f.at_ = s.cycle ∧
     f.made = none) ∧
  (∀ (s : State) (c : CoreId) (x : CtxId) (f : OpenFence) (n : Nat), f ∈ (s.ctx c x).fences → f.made = some n →
     (s.fencePerformed c x f n = false → s.fenceStep c x f = s) ∧
     (s.fencePerformed c x f n = true → (∀ a ∈ (s.ctx c x).acqs, textBefore f.epoch f.idx a.epoch a.idx = false) →
       let t := s.fenceStep c x f
       let old : Acq := match (s.ctx c x).acqs with | a :: _ => a.acq | [] => Acq.first
       (t.ctx c x).fences = (s.ctx c x).fences.erase f ∧ ∃ q, (t.ctx c x).acqs = q :: (s.ctx c x).acqs ∧ q.epoch = f.epoch ∧ q.idx = f.idx ∧
         q.acq.at_ = old.at_ ∧ q.acq.scope = old.scope ∧ ∀ p v : Fin 6, vget q.acq.floors (8 * p.val + v.val) 0 =
           if f.src.getLsbD p.val && f.dst.getLsbD v.val then n + 1 else vget old.floors (8 * p.val + v.val) 0)) ∧
  (∀ (s : State) (f : OpenFence) (d a : SReg) (imm : BitVec 30), s.cur.tag = .ctl → f ∈ s.me.fences → f.dst.getLsbD 0 = true →
     textBefore f.epoch f.idx s.me.epoch s.curIdx = true → ∀ p ∈ loadForms d a imm, s.held p.1 = true)

/-- WFE issues while EVT is set, clears it and leaves WFETO 0; without an event it holds; WFE_TIMEOUT issues it with WFETO 1. -/
def Obligations.WaitForEvent : Prop :=
  ∀ (s : State) (a : SReg) (c : CoreId) (x : CtxId),
    (s.me.evt = false → exec (.wfe a) s = .next s) ∧
    (s.me.evt = true → ∃ t, exec (.wfe a) s = .next t ∧ Issued s t fun k => { k with evt := false, wfeto := false, wfeFrom := none }) ∧
    (let s0 := { s with cur := { core := c, ctx := x, tag := .ctl } }
     ∃ t, exec (.wfeTimeout c x) s = .next t ∧ Issued s0 t fun k => { k with evt := false, wfeto := true, wfeFrom := none })

/-! ### Cursors, loops and fork sets (R32 to R59) -/

/-- The word at the walk's place is fetched, decoded and enters the control cursor's queue with its offset, outside a fork set and a loop; the
walk goes on 8 bytes later. -/
def Obligations.FetchDecodesTheWord : Prop :=
  ∀ (s u : State) (c : CoreId) (x : CtxId) (w : Word) (i : Instr),
    let k := s.ctx c x
    k.fork = none → k.walk.loops = [] → k.walk.halted = false → k.stream = [] → (k.cursor .ctl).member = true → (k.cursor .ctl).stopped = false →
    (k.cursor .ctl).next = k.walk.idx → k.walk.skip[0] ≤ k.walk.idx →
    ({ s with cur := { core := c, ctx := x, tag := .ctl } }).fetchText c x k.walk.pc = (.word w, u) → wordOwn w = some .ctl → decodeWord w = .ok i →
      ∃ t e, exec (.cursorFetch c x .ctl) s = .next t ∧ (t.ctx c x).head .ctl = some e ∧ e.ins = some i ∧ e.word = w ∧ e.pc = k.walk.pc ∧
        e.idx = k.walk.idx ∧ e.seq = k.walk.seqs[0] ∧ (t.ctx c x).walk.pc = k.walk.pc + 8 ∧ (t.ctx c x).walk.idx = k.walk.idx + 1 ∧
        (t.ctx c x).s = k.s ∧ ∀ a, t.byte a = s.byte a

/-- LOOP at the walk's place opens a loop over the words that follow, with N from sT[31:0], S stages, pass 0 and its counter 0; a loop counter
already open, a fifth loop or a pipelined inner loop traps instead. LOOPE of the innermost loop goes back to the word after LOOP with the next
pass while passes remain, and out of the loop with the stage of the LOOP word after the last one. -/
def Obligations.LoopPasses : Prop :=
  (∀ (s : State) (nc : Fin 4) (ts : SReg) (st : Fin 8) (p : Bool),
     s.me.entryAt (s.me.cursor s.cur.tag).next = none → s.me.walk.owed = [] → s.me.walk.on = true →
     ((∀ l ∈ s.me.walk.loops, l.nc ≠ nc.val) → s.me.walk.loops.length < 4 → (p = true → s.me.walk.loops = []) →
       ∃ t l, exec (.loop nc ts st p) s = .next t ∧ t.me.walk.loops = l :: s.me.walk.loops ∧ l.nc = nc.val ∧ l.n = (s.me.s.get ts).toNat % 2 ^ 32 ∧
         l.s = st.val + 1 ∧ l.i = 0 ∧ l.j = 0 ∧ l.p = p ∧ l.e = (if l.n > 0 then l.n + l.s - 2 else 0) ∧ t.me.walk.pc = s.me.walk.pc + 8 ∧
         t.me.walk.stage = 0 ∧ (s.cur.tag = .ctl → t.me.n[nc] = 0) ∧ SameData s t) ∧
     ((∃ l ∈ s.me.walk.loops, l.nc = nc.val) → s.me.waiting s.cur.tag = [] → s.live → ∃ t st' r, exec (.loop nc ts st p) s = .next t ∧
       t.me.stop = some st' ∧ st'.traps = [r] ∧ r.cause = 0x02 ∧ SameData s t)) ∧
  (∀ (s : State) (nc : Fin 4) (l : Loop) (rest : List Loop),
     s.me.entryAt (s.me.cursor s.cur.tag).next = none → s.me.walk.loops = l :: rest → l.nc = nc.val → l.clamped = false →
     (l.j < l.e → ∃ t, exec (.loope nc) s = .next t ∧ t.me.walk.loops = { l with j := l.j + 1 } :: rest ∧ t.me.walk.pc = l.pc + 8 ∧
       t.me.walk.stage = 0 ∧ (s.cur.tag = .ctl → t.me.n[nc] = l.j + 1) ∧ SameData s t) ∧
     (¬l.j < l.e → ∃ t, exec (.loope nc) s = .next t ∧ t.me.walk.loops = rest ∧ t.me.walk.pc = s.me.walk.pc + 8 ∧ t.me.walk.stage = l.stageOut ∧
       t.me.n = s.me.n ∧ SameData s t))

/-- RDV in a fork set stops an engine's cursor there and lets the control cursor pass; STG sets the stage of the words that follow it. -/
def Obligations.RendezvousAndStages : Prop :=
  ∀ (s : State), s.me.entryAt (s.me.cursor s.cur.tag).next = none →
    (s.me.fork.isSome = true → s.me.walk.loops = [] → ∃ t, exec .rdv s = .next t ∧ (s.cur.tag ≠ .ctl → (t.me.cursor s.cur.tag).stopped = true) ∧
      (s.cur.tag = .ctl → (t.me.cursor .ctl).next = (s.me.cursor .ctl).next + 1 ∧ (t.me.cursor .ctl).stopped = (s.me.cursor .ctl).stopped) ∧
      t.me.walk.pc = s.me.walk.pc + 8 ∧ SameData s t) ∧
    ∀ (st : Fin 8) (l : Loop) (rest : List Loop), s.me.walk.loops = l :: rest → st.val < l.s →
      ∃ t, exec (.stg st) s = .next t ∧ t.me.walk.stage = st.val ∧ t.me.walk.loops = l :: rest ∧ t.me.walk.pc = s.me.walk.pc + 8 ∧ SameData s t

/-- FORK starts a cursor of every named engine, and the control cursor, at its target with index 0; the control cursor's context is then in a
fork set with the slip of SLIPWIN; it holds while a FUR word of an ended set is still owed. A zero mask, an engine outside the grant, an open
loop, an active fork set and a handler trap. JOIN outside a fork set, and NOP, only issue; JOIN in a fork set holds while a member cursor has not
stopped at RDV or has words left, and else ends the set: the control cursor alone goes on after it. -/
def Obligations.ForkAndJoin : Prop :=
  (∀ (s : State) (m : BitVec 6) (off : BitVec 30),
     let bad := s.me.fork.isSome = true ∨ m = 0 ∨ (∃ t ∈ engTags, m.getLsbD (engBit t) = true ∧ s.myGrant.hasEng t = false) ∨ s.me.walk.loops ≠ [] ∨
       s.me.phase = .handler
     (¬bad → s.me.owedFur.isSome = true → exec (.fork m off) s = .next s) ∧
     (¬bad → s.me.owedFur = none → ∃ t, exec (.fork m off) s = .next t ∧ t.me.fork = some m ∧ t.me.slip = s.me.slipwin ∧ t.me.walk.idx = 0 ∧ t.me.stream = [] ∧
       t.me.walk.pc = (((s.curPc : Int) + 8 * off.toInt) % 2 ^ 64).toNat ∧ (t.me.cursor .ctl).member = true ∧
       (∀ g ∈ engTags, (t.me.cursor g).member = m.getLsbD (engBit g)) ∧ (∀ g ∈ allTags, (t.me.cursor g).next = 0 ∧ (t.me.cursor g).stopped = false) ∧
       SameData s t) ∧
     (bad → s.live → ∃ t, exec (.fork m off) s = .next t ∧ Trapped s t 0x02 0 1 s.wordDetail)) ∧
  (∀ (s : State), (∃ t, exec .nop s = .next t ∧ Issued s t id) ∧
     (s.me.fork = none → ∃ t, exec .join s = .next t ∧ Issued s t id) ∧
     (s.me.fork.isSome = true → s.me.joinHeld = true → exec .join s = .next s) ∧
     (∀ e, s.me.fork.isSome = true → s.me.joinHeld = false → s.headWord = some e → ∃ t, exec .join s = .next t ∧ t.me.fork = none ∧ t.me.walk.pc = e.pc + 8 ∧
       (t.me.cursor .ctl).next = e.idx + 1 ∧ (∀ g ∈ engTags, (t.me.cursor g).member = false) ∧ SameData s t))

/-- A step at the issue slot of a cursor runs the instruction decoded from the word at the head of that cursor's queue, when its IDLE has passed and
nothing holds it: the outcome is exec's, at the same state with that cursor running and the poll past its slot. A WFE whose wait is over without an
event runs as its timeout. The order of the slots is the model's choice. When nothing of the cycle is left to do, a step ends it: the next cycle
begins at the first slot. The order of the events within a cycle is the model's choice (assumption log 4). -/
def Obligations.StepRunsTheHeadWord : Prop :=
  (∀ (s : State) (c : CoreId) (x : CtxId) (t : Tag) (e : SEntry) (i : Instr),
     let s1 := { s with cur := { core := c, ctx := x, tag := t }, turn := 1 + 44 * c.val + (engSlot t + 1) }
     let j := if isWfe i && !(s.ctx c x).evt then Instr.wfeTimeout c x else i
     s.turn = 1 + 44 * c.val + engSlot t → (s.core c).quiet = false → s.runs c x = true → (s.ctx c x).phase ≠ .stopping → s.ctlHalted c t = false →
     ((s.ctx c x).draining = true → t ≠ .ctl) →
     (if t = .ctl then (s.core c).ctlBusy ≤ s.cycle ∧ x = Fin.ofNat 4 ((s.core c).rr + 1) else s.engCtx c t = some x) →
     (s.ctx c x).head t = some e → e.ins = some i → s.idlePast c x t e = true → ({ s with cur := s1.cur }).held i = false →
       s.poll = .act j s1 ∧ (∀ r, exec j s1 = .next r → step s = .next r) ∧ (∀ f, exec j s1 = .fault f → step s = .fault f)) ∧
  (∀ (s t : State), s.poll = .tick t → step s = .next t ∧ t.cycle = s.cycle + 1 ∧ t.turn = 0)

/-! ### Task and collective words (R103, R304 to R328) -/

/-- An XCMD word holds until the control core's earlier writes are performed for the package. A malformed future handle, or one of another
partition, raises the operand-range trap. XCMD_REPLY: the oldest reply of a context writes its register and sets EVT; every other register and
every byte stays. -/
def Obligations.XcmdWaits : Prop :=
  (∀ (s : State) (d a b : SReg), s.xcmdReady = false →
     (∀ i ∈ [Instr.tspawn d a, .fnew d, .csubmit d a, .cwatch a b, .cunwatch a, .cpoll d a], exec i s = .next s) ∧
     (s.me.fork = none → exec .tend s = .next s) ∧
     (futOk s.myPart (s.rdS a) = true → ∀ i ∈ [Instr.fatt d a b, .fres a b, .fget d a, .ffree a], exec i s = .next s)) ∧
  (∀ (s : State) (d a b : SReg), (bits (s.rdS a).toNat 36 28 ≠ 0 ∨ bits (s.rdS a).toNat 32 4 ≠ s.myPart) → s.live →
     ∀ i ∈ [Instr.fatt d a b, .fres a b, .fget d a, .ffree a], ∃ t, exec i s = .next t ∧ Trapped s t 0x02 0 1 s.wordDetail) ∧
  (∀ (s : State) (c : CoreId) (x : CtxId) (r : PendReply) (rest : List PendReply), (s.ctx c x).replies = r :: rest →
     ∃ t, exec (.xcmdReply c x) s = .next t ∧
       t = s.modCtx c x (fun k => { k with s := if r.dst.val = 0 then k.s else k.s.set r.dst r.val, replies := rest, evt := true }) ∧
       (t.ctx c x).rdS r.dst = (if r.dst.val = 0 then 0 else r.val) ∧ ∀ a, t.byte a = s.byte a)

/-- TEND outside a fork set stops the control cursor and makes its task DRAINING; in a fork set it traps. TSPAWN of an acceptable descriptor
makes a READY task with the partition's next number, which is the reply; a descriptor that cannot be read or does not pass its checks makes none,
and the reply is 0. -/
def Obligations.TasksSpawnAndEnd : Prop :=
  (∀ (s : State),
     (s.me.fork = none → s.xcmdReady = true → ∃ t, exec .tend s = .next t ∧ t.me.draining = true ∧ SameData s t ∧
       ∀ n tk, s.me.task = some n → s.task? s.myPart n = some tk → t.task? s.myPart n = some { tk with phase := .draining }) ∧
     (s.me.fork.isSome = true → s.live → ∃ t, exec .tend s = .next t ∧ Trapped s t 0x02 0 1 s.wordDetail)) ∧
  (∀ (s u : State) (d a : SReg), s.xcmdReady = true →
     (∀ bs, s.issued.readImage s.cur.core s.cur.ctx (s.rdS a) 64 64 = (some bs, u) → u.descOk s.cur.core s.cur.ctx s.myPart bs false = true →
       u.poolUse s.myPart < (u.dp s.myPart).pool → (u.part s.myPart).replay = none → s.myPart < 16 →
       ∃ t tk, exec (.tspawn d a) s = .next t ∧ Replies s t d (BitVec.ofNat 64 (u.dp s.myPart).nextTask) ∧ tk ∈ t.disp.tasks ∧ tk.part = s.myPart ∧
         tk.num = (u.dp s.myPart).nextTask ∧ tk.phase = .ready ∧ tk.desc = bs ∧ (t.dp s.myPart).nextTask = (u.dp s.myPart).nextTask + 1) ∧
     ((s.issued.readImage s.cur.core s.cur.ctx (s.rdS a) 64 64 = (none, u) ∨
       ∃ bs, s.issued.readImage s.cur.core s.cur.ctx (s.rdS a) 64 64 = (some bs, u) ∧ u.descOk s.cur.core s.cur.ctx s.myPart bs false = false) →
       ∃ t, exec (.tspawn d a) s = .next t ∧ Replies s t d 0 ∧ t.disp.tasks = u.disp.tasks))

/-- FNEW replies the handle of a new EMPTY future, numbered from 1 and not in use; past the partition's limit it replies 0. FGET replies a
future's state word, and all ones for a handle that names none; FFREE removes a future without waiters and keeps one with waiters. -/
def Obligations.FuturesAllocateAndRead : Prop :=
  (∀ (s : State) (d : SReg), s.xcmdReady = true →
     let used := (s.disp.futs.filter fun f => f.part = s.myPart).length
     (used < (s.dp s.myPart).futmax → (s.part s.myPart).replay = none → ∃ t n, exec (.fnew d) s = .next t ∧ 1 ≤ n ∧
       Replies s t d (BitVec.ofNat 64 (s.myPart % 16 * 2 ^ 32 + n % 2 ^ 32)) ∧ s.fut? s.myPart n = none ∧
       t.fut? s.myPart n = some { part := s.myPart, num := n, state := 0, value := 0, waiters := [] }) ∧
     ((s.dp s.myPart).futmax ≤ used → ∃ t, exec (.fnew d) s = .next t ∧ Replies s t d 0 ∧ t.disp = s.disp)) ∧
  (∀ (s : State) (d a : SReg), s.xcmdReady = true → futOk s.myPart (s.rdS a) = true →
     let n := (s.rdS a).toNat % 2 ^ 32
     (∀ f, s.fut? s.myPart n = some f → ∃ t, exec (.fget d a) s = .next t ∧ t.disp = s.disp ∧
       Replies s t d (BitVec.ofNat 64 (f.state % 4 * 2 ^ 62 + f.part % 16 * 2 ^ 56 + f.waiters.length % 2 ^ 16 * 2 ^ 40 + f.waiters.headD 0 % 2 ^ 32))) ∧
     (s.fut? s.myPart n = none → ∃ t, exec (.fget d a) s = .next t ∧ Replies s t d (BitVec.allOnes 64)) ∧
     (∀ f, s.fut? s.myPart n = some f → f.waiters = [] → (s.part s.myPart).replay = none → ∃ t, exec (.ffree a) s = .next t ∧ t.fut? s.myPart n = none) ∧
     (∀ f, s.fut? s.myPart n = some f → f.waiters ≠ [] → ∃ t, exec (.ffree a) s = .next t ∧ t.disp.futs = s.disp.futs))

/-- FRES resolves an unresolved future: state 2 with sB's value and no waiters, and a PENDING waiter whose count was 1 becomes READY; a future
that is resolved keeps its value. FATT of an accepted continuation: to an unresolved future it replies 0 and puts the task at the end of the
waiters; to a resolved one it replies 1 and counts the task down. -/
def Obligations.FuturesResolve : Prop :=
  (∀ (s : State) (a b : SReg) (f : Future), s.xcmdReady = true → futOk s.myPart (s.rdS a) = true → (s.part s.myPart).replay = none →
     let n := (s.rdS a).toNat % 2 ^ 32
     s.fut? s.myPart n = some f →
     (f.state ≠ 2 → ∃ t, exec (.fres a b) s = .next t ∧ t.fut? s.myPart n = some { f with state := 2, value := s.rdS b, waiters := [] } ∧
       ∀ w tk, f.waiters = [w] → s.task? s.myPart w = some tk → tk.phase = .pending → tk.count = 1 →
         ∃ tk', t.task? s.myPart w = some tk' ∧ tk'.phase = .ready ∧ tk'.count = 0) ∧
     (f.state = 2 → ∃ t, exec (.fres a b) s = .next t ∧ t.fut? s.myPart n = some f)) ∧
  (∀ (s : State) (d a b : SReg) (f : Future) (tk : Task), s.xcmdReady = true → futOk s.myPart (s.rdS a) = true → (s.part s.myPart).replay = none →
     let n := (s.rdS a).toNat % 2 ^ 32
     s.fut? s.myPart n = some f → s.pendingAt s.myPart (s.rdS b) = some tk → tk.att < tk.waits →
     (f.state ≠ 2 → ∃ t, exec (.fatt d a b) s = .next t ∧ Replies s t d 0 ∧
       t.fut? s.myPart n = some { f with state := 1, waiters := f.waiters ++ [tk.num] }) ∧
     (f.state = 2 → ∃ t, exec (.fatt d a b) s = .next t ∧ Replies s t d 1 ∧ t.fut? s.myPart n = some f))

/-- CSUBMIT replies the new operation's index, 0 when its descriptor is refused; CPOLL replies the status word of a known operation and 0 for an
unknown one; CWATCH adds a watch and CUNWATCH removes it. The engine's readings are the model's (assumption log 42). -/
def Obligations.CollectiveWords : Prop :=
  ∀ (s : State) (d a b : SReg), s.xcmdReady = true →
    (∀ i bs u, s.dramHandle s.cur.core s.cur.ctx (s.rdS a).toNat 32 true false = some i →
      s.readVa (ctlUnit s.cur.core s.cur.ctx) none 0 s.acqNow true (s.rdS a).toNat (i.base + haddrO (s.rdS a).toNat) 32 = (.ok bs, u) →
      let o := colOpOf s.cur.core s.cur.ctx s.myPart (u.issued.nextOpIdx s.myPart) s.me.task none { u.issued.acqNow with floors := s.me.acq.floors } bs
      (u.issued.descAccept o bs = true → u.issued.opsOpen < 256 → (u.part s.myPart).replay = none →
        ∃ t, exec (.csubmit d a) s = .next t ∧ Replies s t d (BitVec.ofNat 64 o.idx)) ∧
      (u.issued.descAccept o bs = false → ∃ t, exec (.csubmit d a) s = .next t ∧ Replies s t d 0 ∧ t.col = u.col)) ∧
    (∃ t v, exec (.cpoll d a) s = .next t ∧ Replies s t d v ∧ t.col = s.col ∧
      ((∀ o ∈ s.col.ops, ¬(o.part = s.myPart ∧ o.idx = (s.rdS a).toNat)) → v = 0) ∧
      ∀ o ∈ s.col.ops, (∀ o' ∈ s.col.ops, o'.part = s.myPart → o'.idx = (s.rdS a).toNat → o' = o) → o.part = s.myPart → o.idx = (s.rdS a).toNat →
        s.nextOpIdx s.myPart - 1 ≤ o.idx + 256 → v = BitVec.ofNat 64 (o.state * 2 ^ 62 + o.err * 2 ^ 58 + o.done % 2 ^ 32)) ∧
    (∀ pa, (s.dramHandle s.cur.core s.cur.ctx (s.rdS b).toNat 32 true false).isSome = true → s.watchWord (s.rdS a).toNat = some (.ok pa) →
      (∀ q ∈ s.me.watches, q.1 ≠ pa) → s.me.watches.length < 32 →
      ∃ t, exec (.cwatch a b) s = .next t ∧ Issued s t fun k => { k with watches := k.watches ++ [(pa, (s.rdS a).toNat, (s.rdS b).toNat)] }) ∧
    (∀ pa, s.watchWord (s.rdS a).toNat = some (.ok pa) → ∃ t, exec (.cunwatch a) s = .next t ∧ (∀ q ∈ t.me.watches, q ∈ s.me.watches ∧ q.1 ≠ pa) ∧
      (∀ q ∈ s.me.watches, q.1 ≠ pa → q.2.1 ≠ (s.rdS a).toNat → q ∈ t.me.watches) ∧ SameData s t)

/-! ### Traps and the control of contexts (R104 to R107, R234, R260 to R277) -/

/-- TRAP raises cause 0x05 with its CODE at the level above the present one; at PL 3, and inside a bracket, the operand-range trap. -/
def Obligations.TrapWordTraps : Prop :=
  ∀ (s : State) (code : BitVec 16), s.live →
    (s.me.pl < 3 → s.me.bracket = none → ∃ t, exec (.trap code) s = .next t ∧
      Trapped s t 0x05 code.toNat (s.me.pl + 1) #v[BitVec.ofNat 64 s.curIdx, 0, 0, 0]) ∧
    (3 ≤ s.me.pl ∨ s.me.bracket.isSome = true → ∃ t, exec (.trap code) s = .next t ∧ Trapped s t 0x02 0 1 s.wordDetail)

/-- ERET takes the level and the cut from the bank of the present level: the control cursor resumes at TRAPPC, or with SKIP one word past the
word that trapped; VALID is cleared, and registers and memory stay. Without a valid bank, at level 0, in a fork set and in a bracket it traps. -/
def Obligations.EretReturns : Prop :=
  ∀ (s : State),
    let l := s.me.pl
    let b := s.me.bankAt l
    let bad := l = 0 ∨ s.me.fork.isSome = true ∨ s.me.bracket.isSome = true ∨ b.valid = false
    (bad → s.live → ∃ t, exec .eret s = .next t ∧ Trapped s t 0x02 0 1 s.wordDetail) ∧
    (∀ q, ¬bad → b.cut = some q → (∀ r ∈ b.traps, r.cause ≠ 0x15) → (b.requeues = false ∨ s.me.task = none) → q.fork = none →
      (∀ i : Fin 7, i.val ≠ 0 → (q.ents.get i).valid = false) → q.ents[0].valid = true → q.ents[0].loops = [] →
      (b.skip = false → ∃ t, exec .eret s = .next t ∧ t.me.pl = b.pl ∧ (t.me.bankAt l).valid = false ∧ t.me.fork = none ∧
        t.me.walk.pc = bits b.pc.toNat 0 48 ∧ t.me.text = bits b.pc.toNat 48 16 ∧ (t.me.cursor .ctl).next = q.ents[0].idx ∧
        (t.me.cursor .ctl).member = true ∧ SameData s t) ∧
      (∀ r rest, b.skip = true → b.traps = r :: rest → r.async = false → r.tag = 0 → ∃ t, exec .eret s = .next t ∧ t.me.pl = b.pl ∧
        t.me.walk.pc = q.ents[0].pc ∧ (t.me.cursor .ctl).next = q.ents[0].idx + 1 ∧ SameData s t))

/-- STOP_ACCEPT: a running context with a deliverable asynchronous trap goes to STOPPING without a trap recorded yet; an outermost preemptible loop
is clamped to the passes that have begun. Registers and memory stay. STOP_RECORD of a drained stop takes the cut and either enters the handler of
the trap's level, which must lie above the present one, at that level's TRAPVEC, with the cut, the level and TRAPPC in its bank; or, for a
pre-emption with PARK, parks the context. The clamp of the loop and the record's order are the model's readings (assumption logs 17 and 22). -/
def Obligations.StopsAreTaken : Prop :=
  (∀ (s : State) (c : CoreId) (x : CtxId), s.acceptDue c x = true →
     ∃ t st, exec (.stopAccept c x) s = .next t ∧ (t.ctx c x).phase = .stopping ∧ (t.ctx c x).stop = some st ∧ st.traps = [] ∧ st.at_ = s.cycle ∧
       (st.fromHandler = true ↔ (s.ctx c x).phase = .handler) ∧ SameRegs s t c x ∧
       ((s.ctx c x).walk.loops = [] → (t.ctx c x).walk = (s.ctx c x).walk) ∧
       ∀ ls l, (s.ctx c x).walk.loops = ls ++ [l] → l.p = true → (s.ctx c x).walk.halted = false →
         ∃ l', (t.ctx c x).walk.loops = ls ++ [l'] ∧ l'.n = Nat.min l.n (l.j + 1) ∧ l'.e = Nat.max l.i (l'.n + l.s - 2) ∧ l'.clamped = true) ∧
  (∀ (s : State) (c : CoreId) (x : CtxId) (st : Stop), s.recordDue c x = true → (s.ctx c x).stop = some st → st.forced = false →
     (∀ y, (s.ctx c y).bracket = none) → (∀ ch m, (s.core c).copyHead ch = some m → m.ctx ≠ x) → (s.part (s.partOf c x)).policy = none →
     let k := s.ctx c x
     let cut := k.theCut st
     (∀ r, st.traps = [r] → r.async = false → k.pending = [] →
       let l := Nat.min 3 (Nat.max r.level (k.pl + 1))
       l < 3 → s.vecOk c x l = true →
       ∃ t, exec (.stopRecord c x) s = .next t ∧ (t.ctx c x).phase = .handler ∧ (t.ctx c x).pl = l ∧ (t.ctx c x).stop = none ∧
         ((t.ctx c x).bankAt l).valid = true ∧ ((t.ctx c x).bankAt l).pl = k.pl ∧ ((t.ctx c x).bankAt l).traps = [r] ∧
         ((t.ctx c x).bankAt l).cut = some cut ∧ ((t.ctx c x).bankAt l).pc = BitVec.ofNat 64 (k.text * 2 ^ 48 + cut.ents[0].pc % 2 ^ 48) ∧
         (t.ctx c x).walk.pc = bits (k.bankAt l).vec.toNat 0 48 ∧ (t.ctx c x).text = bits (k.bankAt l).vec.toNat 48 16 ∧ SameRegs s t c x) ∧
     (∀ r, st.traps = [] → k.pending = [r] → r.cause = 0x10 → r.park = true → k.pl < r.level → r.level ≤ 3 →
       ∃ t, exec (.stopRecord c x) s = .next t ∧ (t.ctx c x).phase = .parked ∧ (t.ctx c x).held = r.level ∧ (t.ctx c x).pending = [] ∧
         (t.ctx c x).stop = none ∧ ((t.ctx c x).bankAt r.level).cut = some cut ∧ SameRegs s t c x))

/-- PREEMPT makes a trap pending in a running context; RESUME lets a parked or stopped one go on from its cut; REQUEUE returns its task to READY and
ABORT makes it FAILED, the context EMPTY; DOORBELL makes a doorbell pending. Readings of SCTL are in assumption logs 24 and 39. -/
def Obligations.ContextsAreControlled : Prop :=
  ∀ (s : State) (a : SReg) (x : CtxId), s.sctlReady x → x ≠ s.cur.ctx → s.mayAct x = true →
    let c := s.cur.core
    let k := s.ctx c x
    (k.phase = .running → ∃ t r, exec (.preempt a x) s = .next t ∧ (t.ctx c x).pending = k.pending ++ [r] ∧ r.async = true ∧ r.cause = 0x10 ∧
      r.level = s.me.pl ∧ r.park = (s.rdS a).getLsbD 0 ∧ t.me.preempting = s.me.preempting ++ [x] ∧ SameData s t) ∧
    (∃ t r, exec (.doorbell a x) s = .next t ∧ (t.ctx c x).pending = k.pending ++ [r] ∧ r.async = true ∧ r.cause = 0x13 ∧
      r.code = (s.rdS a).toNat % 2 ^ 16 ∧ r.level = 1 ∧ SameData s t) ∧
    (k.phase = .parked ∨ k.phase = .stopped →
      (let b := k.bankAt (Nat.max 1 k.held)
       b.cut.isSome = true → k.held ≤ 3 → (∀ r ∈ b.traps, r.cause ≠ 0x15) → (b.requeues = false ∨ k.task = none) →
        ∃ t, exec (.resume x) s = .next t ∧ (t.ctx c x).pl = b.pl ∧ ((t.ctx c x).phase = .running ∨ (t.ctx c x).phase = .handler) ∧
          ((t.ctx c x).bankAt (Nat.max 1 k.held)).valid = false ∧ (t.ctx c x).s = k.s ∧ (t.ctx c x).h = k.h ∧ SameData s t) ∧
      (∃ t, exec (.requeue x) s = .next t ∧ (t.ctx c x).phase = .empty ∧ (t.ctx c x).task = none ∧ TaskBecomes s t c x fun tk tk' =>
        tk.requeues < 15 → tk'.phase = .ready ∧ tk'.requeues = tk.requeues + 1 ∧ tk'.level = tk.prio) ∧
      (∃ t, exec (.abort x) s = .next t ∧ (t.ctx c x).phase = .empty ∧ (t.ctx c x).task = none ∧ TaskBecomes s t c x fun _ tk' => tk'.phase = .failed))

/-- BOPEN keeps a copy of scalar, header, vector and mask registers, of the CSRs and of the trap banks; inside the bracket a word that acts on another
context is kept back; BCLOSE ends the bracket and takes the effects in order, but none once the bracket's stop has been forced. -/
def Obligations.BracketsDefer : Prop :=
  ∀ (s : State) (a : SReg) (x : CtxId), s.me.fork = none → 1 ≤ s.me.pl →
    (s.me.bracket = none → ∃ t b, exec (.bopen s.cur.ctx) s = .next t ∧ t.me.bracket = some b ∧ t.me.deferred = [] ∧ b.s = s.me.s ∧ b.h = s.me.h ∧
      b.slipwin = s.me.slipwin ∧ b.vstat = s.me.vstat ∧ b.vrkey = s.me.vrkey ∧ b.vrctr = s.me.vrctr ∧ b.mstat = s.me.mstat ∧ b.cstat = s.me.cstat ∧
      b.sstat = s.me.sstat ∧ b.saecfg = s.me.saecfg ∧ b.clstat = s.me.clstat ∧ b.htbase = s.me.htbase ∧ b.s1root = s.me.s1root ∧
      b.cntsel = s.me.cntsel ∧ b.bank = s.me.bank ∧ b.vregs = s.myCore.v ∧ b.kregs = s.myCore.k ∧ SameData s t) ∧
    (∀ b, s.me.bracket = some b → x ≠ s.cur.ctx → s.me.preempting.contains x = false → s.me.stores = [] →
      ∀ p ∈ [(Instr.preempt a x, Deferred.preempt (s.rdS a) x), (.resume x, .resume x), (.requeue x, .requeue x), (.abort x, .abort x),
          (.doorbell a x, .doorbell (s.rdS a) x)],
        s.afterDeferred.effectOk p.2 = true → ∃ t, exec p.1 s = .next t ∧ Issued s t fun k => { k with deferred := k.deferred ++ [p.2] }) ∧
    (s.me.bracket.isSome = true → s.me.deferred = [] → (∀ st, s.me.stop = some st → st.forced = false) → ∃ t, exec (.bclose s.cur.ctx) s = .next t ∧
      Issued s t fun k => { k with bracket := none, deferred := [], bracketWait := none }) ∧
    (∀ st, s.me.bracket.isSome = true → s.me.stop = some st → st.forced = true → ∃ t, exec (.bclose s.cur.ctx) s = .next t ∧ Issued s t fun k => k) ∧
    (∀ w, s.me.bracket.isSome = true → s.me.deferred = [.doorbell w x] → (∀ st, s.me.stop = some st → st.forced = false) → x ≠ s.cur.ctx →
      s.mayAct x = true → ∃ t r, exec (.bclose s.cur.ctx) s = .next t ∧ t.me.bracket = none ∧
        (t.ctx s.cur.core x).pending = (s.ctx s.cur.core x).pending ++ [r] ∧ r.cause = 0x13 ∧ r.code = w.toNat % 2 ^ 16)

/-- CSAVE writes the context's image to memory through the CTL path, beginning with its magic number, the scalar registers at 0x100, and the
withheld code in every counter field where MIGR does not pass them exactly (R363); CLOAD of an accepted image installs its registers, level and
task in the context, which is then STOPPED, and leaves memory. Places that R275 names without a layout are the model's choice (assumption log
11). -/
def Obligations.ImagesAreSavedAndLoaded : Prop :=
  ∀ (s : State) (a : SReg) (x : CtxId), s.sctlReady x → x ≠ s.cur.ctx →
    let c := s.cur.core
    let w := s.rdS a
    (∀ i s1 s2, s.savable x = true → s.imageHandle w true = some i →
      s.probeVa (ctlUnit c s.cur.ctx) none w.toNat (i.base + haddrO w.toNat) 0x1C000 .wr = (none, s1) → s1.furFlushAll c x = (none, s2) →
      ∃ t img, exec (.csave a x) s = .next t ∧ img.length = 0x1C000 ∧ imgD img 0 0 = 0x47484E3800000001 ∧
        (∀ r : SReg, imgD img 0x100 r.val = ((s.ctx c x).rdS r).toNat) ∧ imgD img 0x40 0 = (s.ctx c x).pl % 2 ^ 64 ∧
        (s.counterHidden c x = true → ∀ n : Fin 16, imgD img 0x80 n.val = codeWithheld) ∧
        (∀ b, t.byte b = ((({ s2 with saved := s2.saved ++ [s2.savedOf c x false] }).writeVa (ctlUnit c s.cur.ctx) none 0 w.toNat
          (i.base + haddrO w.toNat) img).2).byte b) ∧
        (∀ r, t.rdS r = s.rdS r) ∧ ∀ r, t.rdH r = s.rdH r) ∧
    (∀ bs u, s.readContext w x = (.ok (some bs), u) → ∃ t, exec (.cload a x) s = .next t ∧ (t.ctx c x).phase = .stopped ∧
      (∀ r : SReg, (t.ctx c x).s[r] = BitVec.ofNat 64 (imgD bs 0x100 r.val)) ∧
      (∀ r : HReg, (t.ctx c x).h[r] = BitVec.ofNat 256 (imgN bs (0x200 + 32 * r.val) 32)) ∧ (t.ctx c x).pl = imgD bs 0x40 0 % 4 ∧
      (t.ctx c x).vrkey = BitVec.ofNat 64 (imgD bs 0x40 3) ∧
      (t.ctx c x).task = (if imgD bs 0x7E0 2 / 2 ^ 32 = 0 then none else some (imgD bs 0x7E0 2 / 2 ^ 32)) ∧ SameData s t)

/-- TLBI drops the translations its form names, in every TLB of the package, and the handle forms the cached handle entries; every other entry
stays. Below its least level a TLBI traps. -/
def Obligations.TranslationsAreInvalidated : Prop :=
  ∀ (s : State) (a b : SReg), s.me.fork = none →
    let p := s.myPart
    let va := (s.rdS a).toNat % 2 ^ 48
    let asid := (s.rdS b).toNat % 2 ^ 16
    let q := (s.rdS b).toNat
    (1 ≤ s.me.pl →
      (∃ t, exec .hall s = .next t ∧ Flushed s t p (fun _ => false) ∧ t.me.handles = []) ∧
      (∃ t, exec (.hone a) s = .next t ∧ Flushed s t p (fun _ => false) ∧ t.me.handles = s.me.handles.filter fun e => e.num ≠ (s.rdS a).toNat % 2 ^ 12) ∧
      (∃ t, exec (.s1va a b) s = .next t ∧ (Flushed s t p fun e => e.part = p && e.s1 && e.asid = asid && va / Nat.max 1 e.s1size = e.va / Nat.max 1 e.s1size) ∧
        t.me.handles = s.me.handles) ∧
      (∃ t, exec (.s1asid b) s = .next t ∧ (Flushed s t p fun e => e.part = p && e.s1 && e.asid = asid) ∧ t.me.handles = s.me.handles) ∧
      ∃ t, exec .s1all s = .next t ∧ (Flushed s t p fun e => e.part = p) ∧ t.me.handles = s.me.handles) ∧
    (2 ≤ s.me.pl → q ≤ 15 →
      (∃ t, exec (.s2ipa a b) s = .next t ∧ (Flushed s t q fun e => e.part = q && va / Nat.max 1 e.s2size = e.gpa / Nat.max 1 e.s2size) ∧
        t.me.handles = s.me.handles) ∧
      ∃ t, exec (.s2part b) s = .next t ∧ (Flushed s t q fun e => e.part = q) ∧ t.me.handles = s.me.handles) ∧
    (s.me.pl < 1 → s.live → ∀ i ∈ [Instr.hall, .hone a, .s1va a b, .s1asid b, .s1all], ∃ t, exec i s = .next t ∧ Trapped s t 0x02 0 1 s.wordDetail) ∧
    (s.me.pl < 2 ∨ 15 < q → s.live → ∀ i ∈ [Instr.s2ipa a b, .s2part b], ∃ t, exec i s = .next t ∧ Trapped s t 0x02 0 1 s.wordDetail)

/-- A key mismatch becomes a pending trap of level 2, cause 0x0A; an uncorrected soft error marks its line, of DRAM or of a typed buffer, and the
unit that reads a marked typed-buffer line makes cause 0x11 pending in its context once; a breakpoint stops the context it names with a pre-emption
that parks; a bracket that is forced stops its context, and the record of that stop gives the registers of its BOPEN back and drops the effects kept
back. Soft errors as inputs, the breakpoint as a pre-emption and the forced bracket are the model's readings (assumption logs 18, 19, 20 and 25). -/
def Obligations.AsynchronousCauses : Prop :=
  ∀ (s : State) (c : CoreId) (x : CtxId),
    (∀ p, (s.core c).keyFaults.find? (fun p => p.1 = x) = some p → ∃ t r, exec (.keyMismatch c x) s = .next t ∧
      (t.ctx c x).pending = (s.ctx c x).pending ++ [r] ∧ r.async = true ∧ r.cause = 0x0A ∧ r.level = 2 ∧ r.det = p.2 ∧
      (t.core c).keyFaults = (s.core c).keyFaults.erase p ∧ SameRegs s t c x) ∧
    (∀ l : Nat, l.testBit 63 = false → ∃ t, exec (.uncorrectedSoftError l) s = .next t ∧ l ∈ t.bad ∧ (∀ m, m ∈ t.bad ↔ m = l ∨ m ∈ s.bad) ∧
      SameRegs s t c x) ∧
    (∀ (buf : Fin 4) (l : Fin 65536), ∃ t, exec (.uncorrectedSoftError (2 ^ 63 + c.val * 2 ^ 56 + buf.val * 2 ^ 16 + l.val)) s = .next t ∧
      (∀ m, m ∈ (t.core c).bad ↔ m = (buf.val, l.val) ∨ m ∈ (s.core c).bad) ∧ t.bad = s.bad ∧ SameRegs s t c x) ∧
    (∀ path rd, let t := s.readStruck c x path rd
      ((∀ m ∈ (s.core c).bad, inFootprint rd m = false) → t = s) ∧
      ∀ m, (s.core c).bad.find? (inFootprint rd) = some m → (∀ r ∈ (s.ctx c x).pending, r.cause ≠ 0x11) → ∃ r, (t.ctx c x).pending = (s.ctx c x).pending ++ [r] ∧
        r.async = true ∧ r.cause = 0x11 ∧ r.level = 1 ∧ r.det[0] = BitVec.ofNat 64 (2 ^ 63 + m.2) ∧ SameRegs s t c x) ∧
    (∀ b : Fin 16, s.breaks s.obs.bkpt[b] = true →
      let n := nameParts s.obs.bkpt[b].name
      ∃ t r, exec (.breakpointFire b) s = .next t ∧ t.obs.bkpt[b].hit = true ∧ (t.ctx n.1 n.2.1).phase = .stopping ∧
        (t.ctx n.1 n.2.1).pending = (s.ctx n.1 n.2.1).pending ++ [r] ∧ r.cause = 0x10 ∧ r.park = true ∧ SameRegs s t n.1 n.2.1) ∧
    (∀ b, (s.ctx c x).bracket = some b → b.images = [] → s.forceDue c x = true → ∃ t st, exec (.bracketForce c x) s = .next t ∧
      (t.ctx c x).phase = .stopping ∧ (t.ctx c x).stop = some st ∧ st.forced = true ∧ st.traps = [] ∧ (t.ctx c x).bracket = some b ∧ SameRegs s t c x) ∧
    (∀ b st, (s.ctx c x).bracket = some b → b.cut.isSome = true → s.recordDue c x = true → (s.ctx c x).stop = some st → st.forced = true →
      st.traps = [] → (s.ctx c x).pending = [] → (∀ ch m, (s.core c).copyHead ch = some m → m.ctx ≠ x) → (s.part (s.partOf c x)).policy = none →
      ∃ t, exec (.stopRecord c x) s = .next t ∧ (t.ctx c x).bracket = none ∧ (t.ctx c x).deferred = [] ∧ (t.ctx c x).stop = none ∧
        (t.ctx c x).s = b.s ∧ (t.ctx c x).h = b.h ∧
        (t.ctx c x).vstat = b.vstat ∧ (t.ctx c x).vrkey = b.vrkey ∧ (t.ctx c x).vrctr = b.vrctr ∧ (t.ctx c x).slipwin = b.slipwin ∧
        (t.ctx c x).mstat = b.mstat ∧ (t.ctx c x).cstat = b.cstat ∧ (t.ctx c x).sstat = b.sstat ∧ (t.ctx c x).saecfg = b.saecfg ∧
        (t.ctx c x).htbase = b.htbase ∧ (t.ctx c x).s1root = b.s1root ∧ (t.ctx c x).bank = b.bank ∧
        (t.core c).v = (if (s.grant c x).hasEng .vec then b.vregs else (s.core c).v) ∧
        (t.core c).k = (if (s.grant c x).hasEng .vec then b.kregs else (s.core c).k) ∧ ∀ m, t.byte m = s.byte m)

/-! ### The vector engine (R131 to R172) -/

/-- Every legal vector word traps where it names a queue outside the grant, holds until each entry it pops is complete and each it pushes has a
slot, and then issues: it pops and reserves, its results go into flight, a word that draws advances VRCTR; registers, masks, flags, typed
buffers, VSTAT and memory stay until the results complete. Of every type the word accepts: conversions, VRAND, the special functions, level-index
quotients, roots and levels, VBCASTS, the smaller and the larger, reductions and scans complete with their element functions' values and flags; so
do sums, differences, products, fused products and signs. -/
def Obligations.VectorWordsIssue : Prop :=
  (∀ (s : State) (v : VOp) (i : Instr) (w : VWord), i ∈ vecIns v → illegal i = none → vecWord i = some w →
    let ok := s.myGrant.hasQueues (w.pops ++ w.pushes)
    (ok = false → s.live → ∃ t, exec i s = .next t ∧ Trapped s t 0x02 0 1 s.wordDetail) ∧
    (ok = true → s.queuesFor w.pops w.pushes = false → exec i s = .next s) ∧
    (ok = true → s.queuesFor w.pops w.pushes = true → ∃ t, exec i s = .next t ∧ SameData s t ∧ t.myCore.v = s.myCore.v ∧
      t.myCore.k = s.myCore.k ∧ t.myCore.flags = s.myCore.flags ∧ t.myCore.abuf = s.myCore.abuf ∧ t.myCore.cbuf = s.myCore.cbuf ∧
      t.myCore.wbuf = s.myCore.wbuf ∧ t.me.vstat = s.me.vstat ∧ t.me.vrkey = s.me.vrkey ∧
      t.me.vrctr = (if w.draws then s.me.vrctr + 1 else s.me.vrctr) ∧ t.myCore.vpend.length = s.myCore.vpend.length + Nat.max 1 w.dsts.length ∧
      ∀ q : QNo, (t.myCore.queue q).length = (s.myCore.queue q).length - w.pops.count q + w.pushes.count q)) ∧
  ∀ v : VOp,
    let t := v.t.val
    let rm := v.rm.val
    let fn (k : Nat) : State → VEnv → (Nat → Nat → Nat) → Nat → Nat × Nat := fun _ env x e => special k t rm (env.u e) (env.free e) (x 0 e)
    let all (x : Nat → Nat → Nat) : List Nat := (List.range (elemCount t)).map (x 0)
    let pick (mx : Bool) (l : List Nat) : Nat := l.tail.foldl (pickElem t mx) (l.headD 0)
    let canon (a : Nat) : Nat := if isF t && (decodeNum t a).isNan then (fmtOf t).nan else a
    let least : Nat := if isF t then (encodeInf t 0 true).1 else pat (typeWidth t) (intLo t)
    let upto (x : Nat → Nat → Nat) (e : Nat) : Nat := if e = 0 then canon (x 0 0) else pick true ((all x).take (e + 1))
    VecResults (.vcvt v) v .element (fun _ env x e =>
      let r := convertAny t v.c.val rm (env.u e) (env.free e) false (x 0 e)
      if isL t && isL v.c.val then crossed t [decodeLi v.c.val (x 0 e)] r else r) ∧
    VecResults (.vcvte v) v .element (fun _ env x e => liExp t rm (env.u e) (env.free e) (decodeNum v.c.val (x 0 e))) ∧
    VecResults (.vcvtl v) v .element (fun _ env x e => liLog t rm (env.u e) (env.free e) (decodeLi v.c.val (x 0 e))) ∧
    VecResults (.vrand v) v .none (fun s _ _ e => (randElem t s.me.vrkey.toNat s.me.vrctr.toNat e, 0)) ∧
    VecResults (.vexp v) v .element (fn 0) ∧ VecResults (.vlog v) v .element (fn 1) ∧
    VecResults (.vrcp v) v .element (fun s env x e => if isL t then liRcp t (decodeLi t (x 0 e)) else fn 2 s env x e) ∧
    VecResults (.vrsqrt v) v .element (fn 3) ∧ VecResults (.vtanh v) v .element (fn 4) ∧ VecResults (.vgelu v) v .element (fn 5) ∧
    VecResults (.vdiv v) v .element (fun _ env x e =>
      crossed t [decodeLi t (x 0 e), decodeLi t (x 1 e)] (liMul t rm (env.u e) (env.free e) true (decodeLi t (x 0 e)) (decodeLi t (x 1 e)))) ∧
    VecResults (.vsqrt v) v .element (fun _ env x e => crossed t [decodeLi t (x 0 e)] (liSqrt t rm (env.u e) (env.free e) (decodeLi t (x 0 e)))) ∧
    VecResults (.vlvl v) v .none (fun _ _ x e => (liLevel t (decodeLi v.c.val (x 0 e)), 0)) ∧
    VecResults (.vbcasts v) v .none (fun s _ _ _ => ((s.rdS (Fin.ofNat 32 v.a.val)).toNat, 0)) ∧
    VecResults (.vadd v) v .element (fun _ env x e => addElem v false env e (x 0 e) (x 1 e)) ∧
    VecResults (.vsub v) v .element (fun _ env x e => addElem v true env e (x 0 e) (x 1 e)) ∧
    VecResults (.vmul v) v .element (fun _ env x e => mulElem v env e (x 0 e) (x 1 e)) ∧
    VecResults (.vfma v) v .element (fun _ env x e => fmaElem v false false env e (x 0 e) (x 1 e) (x 2 e)) ∧
    VecResults (.vfms v) v .element (fun _ env x e => fmaElem v true false env e (x 0 e) (x 1 e) (x 2 e)) ∧
    VecResults (.vfnma v) v .element (fun _ env x e => fmaElem v false true env e (x 0 e) (x 1 e) (x 2 e)) ∧
    VecResults (.vmin v) v .none (fun _ _ x e => (pickElem t false (x 0 e) (x 1 e), 0)) ∧
    VecResults (.vmax v) v .none (fun _ _ x e => (pickElem t true (x 0 e) (x 1 e), 0)) ∧
    VecResults (.vabs v) v .none (fun _ _ x e => signElem v false (x 0 e)) ∧ VecResults (.vneg v) v .none (fun _ _ x e => signElem v true (x 0 e)) ∧
    VecResults (.vradd v) v .combined (fun _ env x e => (raddAll v env [all x]).getD e (0, 0)) ∧
    VecResults (.vscanadd v) v .combined (fun _ env x e => (scanAddAll v env [all x]).getD e (0, 0)) ∧
    VecResults (.vrmin v) v .none (fun _ _ x _ => (canon (pick false (all x)), 0)) ∧
    VecResults (.vrmax v) v .none (fun _ _ x _ => (canon (pick true (all x)), 0)) ∧
    VecResults (.vscanmax v) v .none (fun _ _ x e => (if v.m.val / 2 % 2 = 1 then (if e = 0 then least else upto x (e - 1)) else upto x e, 0))

/-- Moves, selection, logic, shifts and permutes of any type: VMOV, VSEL, VAND, VOR, VXOR, VNOT, VSLL, VSRL, VSRA, VPERM, VBCAST, VROT. -/
def Obligations.VectorMovesAndLogic : Prop :=
  ∀ v : VOp,
    let w := typeWidth v.t.val
    let n := elemCount v.t.val
    let amount (el : Fin 64 → Nat → Nat) (e : Nat) : Nat := if v.m.val % 2 = 1 then v.c.val else el v.b e
    VecWrites (.vmov v) v (fun el _ e => el v.a e) ∧
    VecWrites (.vsel v) v (fun el ms e => if (ms v.c.val).getLsbD e then el v.a e else el v.b e) ∧
    VecWrites (.vand v) v (fun el _ e => el v.a e &&& el v.b e) ∧ VecWrites (.vor v) v (fun el _ e => el v.a e ||| el v.b e) ∧
    VecWrites (.vxor v) v (fun el _ e => el v.a e ^^^ el v.b e) ∧ VecWrites (.vnot v) v (fun el _ e => 2 ^ w - 1 - el v.a e) ∧
    VecWrites (.vsll v) v (fun el _ e => el v.a e * 2 ^ amount el e % 2 ^ w) ∧ VecWrites (.vsrl v) v (fun el _ e => el v.a e / 2 ^ amount el e) ∧
    VecWrites (.vsra v) v (fun el _ e => pat w ((BitVec.ofNat w (el v.a e)).toInt / (2 ^ Nat.min (amount el e) (w - 1) : Nat))) ∧
    VecWrites (.vperm v) v (fun el _ e => el v.a (el v.b e % n)) ∧ VecWrites (.vbcast v) v (fun el _ _ => el v.a (v.m.val * 64 + v.c.val)) ∧
    VecWrites (.vrot v) v (fun el _ e => el v.a ((e + (v.m.val * 64 + v.c.val)) % n)) ∧
    VecWrites (.vshuf v) v (fun el _ e => match v.c.val with
      | 0 => if e % 2 = 0 then el v.a (e / 2) else el v.b (e / 2)
      | 1 => if e % 2 = 0 then el v.a (n / 2 + e / 2) else el v.b (n / 2 + e / 2)
      | 2 => if e < n / 2 then el v.a (2 * e) else el v.b (2 * (e - n / 2))
      | _ => if e < n / 2 then el v.a (2 * e + 1) else el v.b (2 * (e - n / 2) + 1))

/-- The integer types: sums, differences, products, fused products, absolute values and negations modulo 2^w, with SAT clamped; the high half of
a product; the smaller and the larger by value; a reduction sums every element into each element, and a scan the elements up to its own. -/
def Obligations.VectorIntegerArithmetic : Prop :=
  ∀ v : VOp, isI v.t.val = true →
    let t := v.t.val
    let w := typeWidth t
    let x (el : Fin 64 → Nat → Nat) (r : Fin 64) (e : Nat) : Int := intVal t (el r e)
    let out (y : Int) : Nat := pat w (if v.m.val % 2 = 1 then intClamp t y else y)
    let upto (el : Fin 64 → Nat → Nat) (n : Nat) : Int := ((List.range n).map fun j => x el v.a j).sum
    VecWrites (.vadd v) v (fun el _ e => out (x el v.a e + x el v.b e)) ∧ VecWrites (.vsub v) v (fun el _ e => out (x el v.a e - x el v.b e)) ∧
    VecWrites (.vmul v) v (fun el _ e => pat w (x el v.a e * x el v.b e)) ∧
    VecWrites (.vmulh v) v (fun el _ e => pat w (x el v.a e * x el v.b e / (2 ^ w : Nat))) ∧
    VecWrites (.vfma v) v (fun el _ e => pat w (x el v.a e * x el v.b e + x el v.c e)) ∧
    VecWrites (.vfms v) v (fun el _ e => pat w (x el v.a e * x el v.b e - x el v.c e)) ∧
    VecWrites (.vfnma v) v (fun el _ e => pat w (x el v.c e - x el v.a e * x el v.b e)) ∧
    VecWrites (.vmin v) v (fun el _ e => if x el v.a e ≤ x el v.b e then el v.a e else el v.b e) ∧
    VecWrites (.vmax v) v (fun el _ e => if x el v.b e ≤ x el v.a e then el v.a e else el v.b e) ∧
    VecWrites (.vabs v) v (fun el _ e => out (if x el v.a e < 0 then -(x el v.a e) else x el v.a e)) ∧
    VecWrites (.vneg v) v (fun el _ e => out (-(x el v.a e))) ∧ VecWrites (.vradd v) v (fun el _ _ => out (upto el (elemCount t))) ∧
    VecWrites (.vscanadd v) v (fun el _ e => if v.m.val / 2 % 2 = 1 then (if e = 0 then 0 else out (upto el e)) else out (upto el (e + 1)))

/-- Compares write a mask bit per element, of the integer types by value, and of the others by the order of their values, to which a NaN is
unordered; VTOPNM sets the bits of the N elements of largest magnitude in each group of M; mask logic works on all 1,024 bits. -/
def Obligations.VectorMasks : Prop :=
  ∀ v : VOp,
    let compares (k : Nat) : (Fin 64 → Nat → Nat) → (Nat → Mask) → Nat → Bool := fun el _ e => decide ((cmpElem v.t.val k (el v.a e) (el v.b e)).1 = 1)
    (isI v.t.val = true →
      let x (el : Fin 64 → Nat → Nat) (r : Fin 64) (e : Nat) : Int := intVal v.t.val (el r e)
      MaskWrites (.vcmpeq v) v (fun el _ e => decide (x el v.a e = x el v.b e)) ∧ MaskWrites (.vcmpne v) v (fun el _ e => decide (x el v.a e ≠ x el v.b e)) ∧
      MaskWrites (.vcmplt v) v (fun el _ e => decide (x el v.a e < x el v.b e)) ∧ MaskWrites (.vcmple v) v (fun el _ e => decide (x el v.a e ≤ x el v.b e))) ∧
    MaskWrites (.vcmpeq v) v (compares 0) ∧ MaskWrites (.vcmpne v) v (compares 1) ∧ MaskWrites (.vcmplt v) v (compares 2) ∧
    MaskWrites (.vcmple v) v (compares 3) ∧
    (let m := if 8 ≤ v.m.val then 8 else 4
     MaskWrites (.vtopnm v) v fun el _ e =>
      let above (j k : Nat) : Bool := magAbove v.t.val (el v.a j) (el v.a k)
      decide (((List.range m).filter fun j => above (e / m * m + j) e || (decide (e / m * m + j < e) && !above e (e / m * m + j))).length < v.m.val % 8)) ∧
    MaskWrites (.kand v) v (fun _ ms e => (ms v.a.val).getLsbD e && (ms v.b.val).getLsbD e) ∧
    MaskWrites (.kor v) v (fun _ ms e => (ms v.a.val).getLsbD e || (ms v.b.val).getLsbD e) ∧
    MaskWrites (.kxor v) v (fun _ ms e => (ms v.a.val).getLsbD e ^^ (ms v.b.val).getLsbD e) ∧
    MaskWrites (.kandn v) v (fun _ ms e => (ms v.a.val).getLsbD e && !(ms v.b.val).getLsbD e) ∧
    MaskWrites (.knot v) v (fun _ ms e => !(ms v.a.val).getLsbD e) ∧ MaskWrites (.kmov v) v (fun _ ms e => (ms v.a.val).getLsbD e)

/-- A result that is due writes its register under its element mask, its mask register or its queue slot, and raises its VSTAT bits in its own
context; every other register and every byte stays. One result at a time: which of two clashing results lands is free (assumption log 31). -/
def Obligations.VectorResultsLand : Prop :=
  ∀ (s : State) (c : CoreId) (p : VPend), (s.core c).vpend = [p] → p.due ≤ s.cycle →
    ∃ t, exec (if p.sli then .sliResultComplete c else .vecResultComplete c) s = .next t ∧ (t.core c).vpend = [] ∧
      (t.ctx c p.ctx).vstat = (s.ctx c p.ctx).vstat ||| p.flags ∧
      (∀ r : Fin 56, (t.core c).v[r] = if r.val = p.dst then ((s.core c).v[r] &&& ~~~p.wmask) ||| (p.val &&& p.wmask) else (s.core c).v[r]) ∧
      (∀ m : Fin 16, (t.core c).k[m] = if 64 + m.val = p.kdst ∧ m.val ≠ 0 then ((s.core c).k[m] &&& ~~~p.kmask) ||| (p.kval &&& p.kmask)
        else (s.core c).k[m]) ∧
      (∀ q : QNo, (t.core c).queue q = if p.dst = 56 + q.val then ((s.core c).queue q).map fun e => if e.id = p.slot then { e with val := some p.val } else e
        else (s.core c).queue q) ∧
      ∀ x, SameRegs s t c x

/-! ### The matrix engine and the walkers (R183 to R209) -/

/-- MMA, MMAT and MMAS hold while two commands are in flight, trap where a check of R203, R204, R207 or R209 fails, and else enter flight: every
element of C takes the sum of its K-steps over the operands as they stood, and neither A nor B nor memory changes. An element of an integer MMA
without block scales and with BIASes that cancel is C + Σ A(m, k)·B(k, n) modulo 2^32, without C under OVW. -/
def Obligations.MatrixProducts : Prop :=
  (∀ (s : State) (h : HOp) (ovw dm : Bool),
     ∀ q ∈ [(Instr.mma h ovw, 0, false), (.mmat h ovw, 1, false), (.mmas h ovw dm, 2, dm)],
       (s.myCore.mtxRoom = false → exec q.1 s = .next s) ∧
       (s.myCore.mtxRoom = true → s.myGrant.flagOk h.fe h.flag = true →
         (s.myCore.mPlan s.myGrant q.2.1 ovw q.2.2 (s.rdH h.hd) (s.rdH h.ha) (s.rdH h.hb) = none → s.live →
           ∃ t, exec q.1 s = .next t ∧ Trapped s t 0x02 0 1 s.wordDetail) ∧
         ∀ p, s.myCore.mPlan s.myGrant q.2.1 ovw q.2.2 (s.rdH h.hd) (s.rdH h.ha) (s.rdH h.hb) = some p →
           ∃ t m, exec q.1 s = .next t ∧ t.myCore.mtx = s.myCore.mtx ++ [m] ∧ m.fe = h.fe ∧ m.flag = h.flag ∧ m.idx = s.curIdx ∧ m.ctx = s.cur.ctx ∧
             s.cycle < m.due ∧ SameData s t ∧ t.myCore.abuf = s.myCore.abuf ∧ t.myCore.wbuf = s.myCore.wbuf ∧
             (p.empty = true → t.myCore.cbuf = s.myCore.cbuf) ∧
             (p.empty = false → ∀ i j, i < p.rows → j < p.cols → t.myCore.bufElem 2 0 (p.c.bitAt i j) 32 = (s.myCore.mElem p i j).1))) ∧
  (∀ (k : Core) (p : MPlan) (i j : Nat), p.kind = 0 → isIntCode p.a.fmt = true → p.a.bse = false → p.b.bse = false → p.a.bias + p.b.bias = p.c.bias →
     k.mElem p i j = (pat 32 ((if p.ovw then 0 else (k.bufElem 2 0 (p.c.bitAt i j) 32 : Int)) +
       ((List.range p.depth).map fun d => intVal p.a.fmt (k.codeAt p.a i d) * intVal p.b.fmt (k.codeAt p.b j d)).sum), 0))

/-- MZERO writes zero to every element of its tile; MDRAIN writes ABUF lines of its destination alone and draws a counter value per row under sr;
a command that is due leaves flight, raises its MSTAT bits and makes its completion update. -/
def Obligations.MatrixZeroDrainComplete : Prop :=
  ∀ (s : State) (h : HOp) (rm : Fin 16) (c : CoreId),
    (∀ z, s.myCore.mtxRoom = true → s.myGrant.flagOk h.fe h.flag = true → s.myCore.zPlan s.myGrant (s.rdH h.hd) = some z →
      ∃ t m, exec (.mzero h) s = .next t ∧ t.myCore.mtx = s.myCore.mtx ++ [m] ∧ m.fe = h.fe ∧ m.flag = h.flag ∧ s.cycle < m.due ∧ SameData s t ∧
        t.myCore.abuf = s.myCore.abuf ∧ t.myCore.wbuf = s.myCore.wbuf ∧ ∀ i j, i < z.d1 → j < z.d0 → t.myCore.bufElem 2 0 (z.bitAt i j) z.w = 0) ∧
    (∀ d z, s.myCore.mtxRoom = true → s.myGrant.flagOk h.fe h.flag = true → s.myCore.dPlan s.myGrant (s.rdH h.hd) (s.rdH h.ha) = some (d, z) →
      ∃ t m, exec (.mdrain h rm) s = .next t ∧ t.myCore.mtx = s.myCore.mtx ++ [m] ∧ m.fe = h.fe ∧ m.flag = h.flag ∧ s.cycle < m.due ∧ SameData s t ∧
        t.myCore.cbuf = s.myCore.cbuf ∧ t.myCore.wbuf = s.myCore.wbuf ∧ (∀ l, d.mask.testBit l = false → t.myCore.line 1 l = s.myCore.line 1 l) ∧
        t.me.vrctr = if isSr rm.val then s.me.vrctr + BitVec.ofNat 64 z.d1 else s.me.vrctr) ∧
    (∀ m, (s.core c).mtx = [m] → m.due ≤ s.cycle → m.cpym = none → ∃ t, exec (.mtxCommandComplete c) s = .next t ∧ (t.core c).mtx = [] ∧
      (t.ctx c m.ctx).mstat = (s.ctx c m.ctx).mstat ||| (m.flags &&& 15) ∧ FlagDue s t c 2 m.fe m.flag ∧ ∀ x, SameRegs s t c x)

/-- AWCFG latches a header that passes R185 with position 0 and AWSTOP leaves the walker unconfigured, both once the walker's earlier words have
completed: while one is in progress they wait in it, and while two are there they hold; AWGO, AWGATHER and AWSCAT of a legal word with room join
their walker, and AWGO moves the position by its count; they hold while the walker is busy, and trap where a check fails. WALKER_ENTRY: the entry of
a LOAD that is due fills its queue slot; the entry of a STORE writes the bits of its lines alone; a command that owes nothing more makes its
completion update, and a waiting AWCFG or AWSTOP then acts. A walker whose queues are ready starts the next entry of its oldest command. The
walkers' readings are the model's (assumption log 36). -/
def Obligations.WalkerWordsAndEntries : Prop :=
  (∀ (s : State) (o : WOp) (mode : Bool) (iq : QNo),
     let w := s.myCore.walker o.wk
     let others (t : State) : Prop := ∀ v, v ≠ o.wk → t.myCore.walker v = s.myCore.walker v
     (2 ≤ w.cmds.length → exec (.awcfg o mode) s = .next s ∧ exec (.awstop o) s = .next s) ∧
     (∀ t0, w.cmds.length < 2 → s.myGrant.hasWalker o.wk.val = true → s.myCore.tensor (s.rdH o.hdr) 8 = some t0 → t0.walkOk s.myGrant mode = true →
       ∃ t, exec (.awcfg o mode) s = .next t ∧ SameData s t ∧ SameBuffers s t ∧ others t ∧
         (w.cmds = [] → t.myCore.walker o.wk = { conf := true, hdr := s.rdH o.hdr, store := mode, pos := 0, cmds := [] }) ∧
         (w.cmds ≠ [] → ∃ m, t.myCore.walker o.wk = { w with cmds := w.cmds ++ [m] } ∧ m.kind = 1 ∧ m.hdr = s.rdH o.hdr ∧ m.mode = mode ∧ m.count = 0)) ∧
     (∀ q ∈ [(Instr.awgo o, 2, (0 : QNo)), (.awgather o iq, 4, iq), (.awscat o iq, 5, iq)],
       (s.walkLegal q.2.1 o q.2.2 = false → s.live → ∃ t, exec q.1 s = .next t ∧ Trapped s t 0x02 0 1 s.wordDetail) ∧
       (s.walkLegal q.2.1 o q.2.2 = true → s.walkReady q.2.1 o q.2.2 = false → exec q.1 s = .next s) ∧
       (s.walkLegal q.2.1 o q.2.2 = true → s.walkReady q.2.1 o q.2.2 = true → ∃ t, exec q.1 s = .next t ∧ SameData s t ∧ SameBuffers s t ∧
         (t.myCore.walker o.wk).cmds.length = w.cmds.length + 1 ∧ (t.myCore.walker o.wk).hdr = w.hdr ∧
         (t.myCore.walker o.wk).pos = if q.2.1 = 2 then (w.pos + s.walkCount o) % 2 ^ 32 else w.pos)) ∧
     (w.cmds.length < 2 → s.myGrant.hasWalker o.wk.val = true → s.myGrant.flagOk o.fe o.flag = true → ∃ t, exec (.awstop o) s = .next t ∧ SameData s t ∧
       SameBuffers s t ∧ others t ∧ (w.cmds = [] → t.myCore.walker o.wk = { w with conf := false, pos := 0 } ∧ FlagDue s t s.cur.core 3 o.fe o.flag) ∧
       (w.cmds ≠ [] → ∃ m, t.myCore.walker o.wk = { w with cmds := w.cmds ++ [m] } ∧ m.kind = 3 ∧ m.fe = o.fe ∧ m.flag = o.flag ∧ m.count = 0))) ∧
  (∀ (s : State) (c : CoreId) (w : WNo) (m : WCmd) (f : WFly) (rest : List WCmd), ((s.core c).walker w).cmds = m :: rest →
     m.kind ≠ 1 → m.kind ≠ 3 → rest.length ≤ 1 →
     (m.fly = [f] → f.due ≤ s.cycle → m.count = 0 → (∀ a ∈ rest, a.kind = 1 ∧ a.count = 0 ∧ a.fly = []) → ∃ t, exec (.walkerEntry c w) s = .next t ∧
       ((t.core c).walker w).cmds = [] ∧ FlagDue s t c 3 m.fe m.flag ∧ (∀ x, SameRegs s t c x) ∧
       (rest = [] → ((t.core c).walker w).hdr = ((s.core c).walker w).hdr ∧ ((t.core c).walker w).conf = ((s.core c).walker w).conf) ∧
       (∀ a, rest = [a] → ((t.core c).walker w).conf = true ∧ ((t.core c).walker w).hdr = a.hdr ∧ ((t.core c).walker w).store = a.mode ∧
         ((t.core c).walker w).pos = 0) ∧
       (∀ n, f.slot = some n → SameBuffersOf s t c ∧
         (t.core c).queue m.q = ((s.core c).queue m.q).map fun e => if e.id = n then { e with val := some f.val } else e) ∧
       (∀ b l mask v, f.slot = none → ((s.core c).pattern ((s.core c).walker w)).buf = b → b = 1 ∨ b = 2 → f.writes = [(l, mask, v)] → l < 8192 →
         (t.core c).line b l = ((s.core c).line b l &&& ~~~mask) ||| (v &&& mask) ∧ ∀ l', l' ≠ l → (t.core c).line b l' = (s.core c).line b l')) ∧
     (rest = [] → m.fly = [] → 0 < m.count → m.at_ ≤ s.cycle → (s.core c).entryReady m ((s.core c).walker w).store = true →
       ∃ t m', exec (.walkerEntry c w) s = .next t ∧ ((t.core c).walker w).cmds = [m'] ∧ m'.count = m.count - 1 ∧ m'.fly.length = 1 ∧ s.cycle < m'.at_ ∧
         SameBuffersOf s t c ∧ ∀ x, SameRegs s t c x))

/-! ### The copy channels and the scatter and atomic engine (R210 to R224, R278 to R289) -/

/-- A copy word with room on its channel and a plan that passes R211 and R215 to R219 joins the channel's commands with the headers and register
values of its issue; without room it holds, without a plan it traps; nothing has been copied yet. CWP leaves an update of its flag with the low 32
bits of WP. The copy engine's readings are the model's (assumption log 35). -/
def Obligations.CopyWordsIssue : Prop :=
  ∀ (s : State) (h : HOp) (rm : Fin 16) (repl ovw trk : Bool) (mop : Fin 4) (hx : HReg) (ch : ChNo) (e : SEntry),
    let cmds := (s.myCore.chans[ch]).cmds
    let all := [(Instr.cpy h 0 0 false ch, 1), (.cpyc h rm ch, 2), (.cpym h hx mop ovw ch, 3), (.cpyd h rm repl ch, 4), (.cpyh h ch, 5)]
    (s.cpyRoom ch = false → ∀ q ∈ all, exec q.1 s = .next s) ∧
    (s.cpyRoom ch = true → s.cpyDone h none = false → s.live → ∀ q ∈ all, ∃ t, exec q.1 s = .next t ∧ Trapped s t 0x02 0 1 s.wordDetail) ∧
    (s.cpyRoom ch = true → s.cpyDone h none = true → s.headWord = some e → ∀ q ∈ all, ∀ p, s.cpyPlan q.2 (s.rdH h.hd) (s.rdH h.ha) none = some p →
      (q.2 = 3 → s.myGrant.hasEng .mtx = true ∧ (s.myCore.cpymPlan s.myGrant mop.val ovw (s.rdH h.hd) (s.rdH h.hb) (s.rdH hx)).isSome = true) →
      (q.2 = 4 → s.listOk (s.rdH h.hb) = true) →
      ∃ t m, exec q.1 s = .next t ∧ (t.myCore.chans[ch]).cmds = cmds ++ [m] ∧ m.kind = q.2 ∧ m.hd = s.rdH h.hd ∧ m.hs = s.rdH h.ha ∧ m.fmtD = p.d.fmt ∧
        m.fmtS = p.s.fmt ∧ m.done = 0 ∧ m.phase = 0 ∧ m.transforming = p.tr ∧ m.fe = h.fe ∧ m.flag = h.flag ∧ m.ue = h.ue ∧ s.cycle < m.due ∧
        SameData s t ∧ SameBuffers s t) ∧
    (∀ (delta : Fin 16) (gs : Fin 4) pc p, s.cpyRoom ch = true → s.peerOf delta.val gs.val = some pc → s.cpyDone h (some pc) = true →
      s.headWord = some e → s.cpyPlan 1 (s.rdH h.hd) (s.rdH h.ha) (some pc) = some p →
      ∃ t m, exec (.cpy h delta gs true ch) s = .next t ∧ (t.myCore.chans[ch]).cmds = cmds ++ [m] ∧ m.peer = p.peer ∧ SameData s t) ∧
    (h.fe = true → s.myGrant.hasFlag h.flag.val = true → ∃ t u, exec (.cwp h trk ch) s = .next t ∧ t.myCore.upds = s.myCore.upds ++ [u] ∧
      u.flag = h.flag ∧ u.add = false ∧ u.val = BitVec.ofNat 32 (s.myCore.chans[ch]).wp ∧ u.key = 4 ∧
      (t.myCore.chans[ch]).track = (if trk then some h.flag else none) ∧ (t.myCore.chans[ch]).cmds = cmds ∧ SameData s t ∧ SameBuffers s t)

/-- GRANULE_PERFORMED of a plain copy performs one granule, its runs moved in order, and advances WP, a flag that follows it, and the command; of a
transforming copy the whole command. The last granule completes the copy in its cycle: the command leaves its channel, raises its CSTAT bits, makes
its flag update and owes its future's resolution, which the dispatcher receives once the copy's writes are performed; a CPYM enters its matrix
command first. COPY_COMPLETE does what a CPYM owes, and the resolution. A suspended host copy takes a free host DMA channel. The copy engine's
readings are the model's (assumption log 35). -/
def Obligations.CopiesPerform : Prop :=
  ∀ (s : State) (c : CoreId) (ch : ChNo) (m : CCmd) (rest : List CCmd), ((s.core c).chans[ch]).cmds = m :: rest →
    let wp := ((s.core c).chans[ch]).wp
    let track := ((s.core c).chans[ch]).track
    let regs (u t : State) : Prop := ∀ x, (t.ctx c x).s = (u.ctx c x).s ∧ (t.ctx c x).h = (u.ctx c x).h
    (∀ u, m.phase = 0 → m.kind ≠ 5 → m.dma = none → m.transforming = false → 0 < m.granules → m.done < m.granules →
      (s.readStruck c m.ctx 1 (m.bufReads (m.granuleRuns m.done))).moveRuns c ch m (m.granuleRuns m.done) = (none, u) →
      (u.core c).chans = (s.core c).chans →
      ∃ t, exec (.granulePerformed c ch) s = .next t ∧ ((t.core c).chans[ch]).wp = (wp + 1) % 2 ^ 64 ∧ regs u t ∧
        (∀ a, t.byte a = u.byte a ∧ t.hostByte a = u.hostByte a) ∧
        (∀ f, track = some f → ∃ v ∈ (t.core c).upds, v.flag = f ∧ v.add = false ∧ v.val = BitVec.ofNat 32 (wp + 1)) ∧
        (m.done + 1 < m.granules → ∃ m', ((t.core c).chans[ch]).cmds = m' :: rest ∧ m'.done = m.done + 1 ∧ m'.phase = 0) ∧
        (m.done + 1 = m.granules → m.kind = 3 → ∃ m', ((t.core c).chans[ch]).cmds = m' :: rest ∧ m'.done = m.done + 1 ∧ m'.phase = 1) ∧
        (m.done + 1 = m.granules → m.kind ≠ 3 → m.peer = none → ((t.core c).chans[ch]).cmds = rest ∧
          (t.ctx c m.ctx).cstat = (u.ctx c m.ctx).cstat ||| (m.flags &&& 31) ∧ (track = none → FlagDue u t c 4 m.fe m.flag) ∧
          (m.ue = true → ∃ o, (t.core c).owedRes = (u.core c).owedRes ++ [o] ∧ o.ch = ch ∧ o.fut = m.fut ∧ o.ctx = m.ctx))) ∧
    (∀ u fl, m.phase = 0 → m.kind ≠ 5 → m.kind ≠ 3 → m.peer = none → m.transforming = true → m.redo = none → 0 < m.granules →
      (s.readStruck c m.ctx 1 (m.bufReads (runsFrom m.src.d0 (m.src.rows + 1) 0 m.elements))).transform c ch m = (none, u, fl) →
      (u.core c).chans = (s.core c).chans →
      ∃ t, exec (.granulePerformed c ch) s = .next t ∧ ((t.core c).chans[ch]).cmds = rest ∧ ((t.core c).chans[ch]).wp = (wp + m.granules) % 2 ^ 64 ∧
        (t.ctx c m.ctx).cstat = (u.ctx c m.ctx).cstat ||| ((m.flags ||| fl) &&& 31) ∧ (track = none → FlagDue u t c 4 m.fe m.flag) ∧ regs u t ∧
        ∀ a, t.byte a = u.byte a ∧ t.hostByte a = u.hostByte a) ∧
    (s.resolutionDue c ch = none → m.phase = 3 → m.peer = none → m.kind ≠ 5 → m.transforming = false → ∃ t, exec (.copyComplete c ch) s = .next t ∧
      ((t.core c).chans[ch]).cmds = rest ∧ (t.ctx c m.ctx).cstat = (s.ctx c m.ctx).cstat ||| (m.flags &&& 31) ∧ FlagDue s t c 4 m.fe m.flag ∧
      ∀ x, SameRegs s t c x) ∧
    (∀ p, s.resolutionDue c ch = none → m.phase = 1 → (s.core c).mtxRoom = true →
      (s.core c).cpymPlan (s.grant c m.ctx) m.mop m.ovw m.hd m.hb m.hx = some p →
      ∃ t m' q, exec (.copyComplete c ch) s = .next t ∧ ((t.core c).chans[ch]).cmds = m' :: rest ∧ m'.phase = 2 ∧ (t.core c).mtx = (s.core c).mtx ++ [q] ∧
        q.cpym = some ch ∧ ∀ x, SameRegs s t c x) ∧
    (∀ o f, s.resolutionDue c ch = some o → s.fut? o.part (futNum o.fut) = some f → f.state ≠ 2 → f.waiters = [] →
      ∃ t f', exec (.copyComplete c ch) s = .next t ∧ (t.core c).owedRes = (s.core c).owedRes.erase o ∧ t.fut? o.part (futNum o.fut) = some f' ∧
        f'.state = 2 ∧ f'.value = o.val ∧ ((t.core c).chans[ch]).cmds = m :: rest ∧ ∀ x, SameRegs s t c x) ∧
    (∀ (n : Fin 16) (w : DmaWait), s.host.dma[n] = none → s.resumable = some w → w.ref = .inl (c, ch) → ∃ t h m', exec (.hostDmaResume n) s = .next t ∧
      t.host.dma[n] = some h ∧ h.core = some (c, ch) ∧ h.part = w.part ∧ ((t.core c).chans[ch]).cmds = m' :: rest ∧ m'.dma = some n ∧
      m'.suspended = false ∧ m'.done = m.done)

/-- An SAE word with its queues ready and a target that passes R283 pops its entries and joins the words in flight; on a typed-buffer target a
single pair updates its element by the operation: sum modulo 2^32, smaller, larger, or, and, exclusive or, exchange, compare and swap of the 32-bit
integers. Without room or queues it holds; a target that fails traps. SFLUSH joins the words in flight; an SAE word that may complete leaves flight,
fills its reply slot, raises its SSTAT bits and makes its flag update; an SFLUSH waits for the words of its context before it. The engine's readings
are the model's (assumption log 37). -/
def Obligations.ScatterIssuesAndCompletes : Prop :=
  (∀ (s : State) (o : SOp), o.ty.val ≤ 4 →
     let t0 := saeType o.ty.val
     let us (op : Nat) := fun d : Tensor => saeUpdates op (2 ^ (s.me.saecfg % 8)) d.size (elems ((s.myCore.qHead o.iq).getD 0) 32 128)
       (elems ((s.myCore.qHead o.vq).getD 0) (typeWidth t0) 128)
     let cmp (n : Nat) : Nat := sliceAt ((s.myCore.qHead o.rq).getD 0) (32 * n) 32
     ∀ q ∈ [(Instr.sadd o, 1, fun (x v _ : Nat) => (x + v) % 2 ^ 32), (.smin o, 2, fun x v _ => if intVal t0 x ≤ intVal t0 v then x else v),
         (.smax o, 3, fun x v _ => if intVal t0 v ≤ intVal t0 x then x else v), (.sor o, 4, fun x v _ => x ||| v), (.sand o, 5, fun x v _ => x &&& v),
         (.sxor o, 6, fun x v _ => x ^^^ v), (.sxch o, 7, fun _ v _ => v), (.scas o, 8, fun x v c => if x = c then v else x)],
       (s.saeGrant q.2.1 o = false → s.live → ∃ t, exec q.1 s = .next t ∧ Trapped s t 0x02 0 1 s.wordDetail) ∧
       (s.saeGrant q.2.1 o = true → s.myCore.saeRoom s.cur.ctx = false ∨ s.saeQueues q.2.1 o = false → exec q.1 s = .next s) ∧
       (s.saeGrant q.2.1 o = true → s.myCore.saeRoom s.cur.ctx = true → s.saeQueues q.2.1 o = true →
         (s.saeTarget t0 (s.rdH o.h.hd) = none → s.live → ∃ t, exec q.1 s = .next t ∧ Trapped s t 0x02 0 1 s.wordDetail) ∧
         (∀ d, s.saeTarget t0 (s.rdH o.h.hd) = some d → d.buf ≠ 0 → ∃ t m, exec q.1 s = .next t ∧ t.myCore.sae = s.myCore.sae ++ [m] ∧ m.fe = o.h.fe ∧
           m.flag = o.h.flag ∧ m.flush = false ∧ s.cycle < m.due ∧ m.reply.isSome = o.re ∧ SameData s t ∧
           (us q.2.1 d = [] → SameBuffers s t) ∧
           (∀ u v, us q.2.1 d = [u] → u.vals = [v] → o.ty.val ≤ 1 → (d.buf, d.bitAt (u.el / d.d0) (u.el % d.d0) / 4096) ∉ s.myCore.bad →
             t.myCore.bufElem d.buf 0 (d.bitAt (u.el / d.d0) (u.el % d.d0)) 32 =
               q.2.2 (s.myCore.bufElem d.buf 0 (d.bitAt (u.el / d.d0) (u.el % d.d0)) 32) v (cmp u.pos))) ∧
         (∀ d b s0, s.saeTarget t0 (s.rdH o.h.hd) = some d → d.buf = 0 →
           b = (match (s.handle s.cur.core s.cur.ctx d.handle).1 with | .bound i => i.base | _ => 0) → s.saeProbe d b (us q.2.1 d) = (none, s0) →
           ∃ t m, exec q.1 s = .next t ∧ t.myCore.sae = s.myCore.sae ++ [m] ∧ m.fe = o.h.fe ∧ s.cycle < m.due ∧ (∀ r, t.rdS r = s.rdS r) ∧
             (∀ r, t.rdH r = s.rdH r) ∧ ∀ a, t.hostByte a = s.hostByte a))) ∧
  (∀ (s : State) (h : HOp) (c : CoreId),
     (s.myCore.saeRoom s.cur.ctx = false → exec (.sflush h) s = .next s) ∧
     (s.myCore.saeRoom s.cur.ctx = true → s.myGrant.flagOk h.fe h.flag = true → ∃ t m, exec (.sflush h) s = .next t ∧
       t.myCore.sae = s.myCore.sae ++ [m] ∧ m.flush = true ∧ m.fe = h.fe ∧ m.flag = h.flag ∧ SameData s t ∧ SameBuffers s t) ∧
     (∀ m, (s.core c).sae = [m] → m.due ≤ s.cycle → ∃ t, exec (.saeWordComplete c) s = .next t ∧ (t.core c).sae = [] ∧
       (t.ctx c m.ctx).sstat = (s.ctx c m.ctx).sstat ||| m.flags ∧ FlagDue s t c 5 m.fe m.flag ∧ (∀ x, SameRegs s t c x) ∧
       ∀ q n v, m.reply = some (q, n, v) → (t.core c).queue q = ((s.core c).queue q).map fun e => if e.id = n then { e with val := some v } else e) ∧
     (∀ a m, (s.core c).sae = [a, m] → s.cycle < a.due → m.flush = true → a.ctx = m.ctx → exec (.saeWordComplete c) s = .next s))

/-! ### The furrow engine (R236 to R259) -/

/-- Every FUR word holds while one is in execution; FOPEN, FCLOSE, FMARK, FDROP, FSPLIT and FJOIN then act on their furrows and marks alone. -/
def Obligations.FurrowsOpenAndClose : Prop :=
  ∀ (s : State) (h : HOp) (fn cf : FurNo) (ln : Fin 64) (tb mk : Fin 8),
    let f := s.myCore.fur fn
    (s.furFree = false → ∀ i ∈ furWords h fn cf ln tb mk, exec i s = .next s) ∧
    (s.furFree = true → s.furFlag h = true → ∀ e, s.headWord = some e →
      (∀ r z, s.furRegion (s.rdH h.ha) = some (r, z) → f.opened = false → ∃ t, exec (.fopen h fn ln) s = .next t ∧ FurRuns s t h 4 ∧ SameBuffers s t ∧
        NewFurrow (t.myCore.fur fn) (ln.val + 1) r z false ∧ OtherFurrows s t [fn] ∧ Unmarked t fn) ∧
      (f.opened = true → s.myCore.hasChild fn = false →
        (∃ t, exec (.fclose h fn false) s = .next t ∧ FurRuns s t h 4 ∧ SameBuffers s t ∧ t.myCore.fur fn = { f with opened := false } ∧
          OtherFurrows s t [fn] ∧ Unmarked t fn) ∧
        ∀ d s1 g s2, s.furPlace (s.rdH h.hd) true = some d → 32 ≤ d.imageBytes → f.flush.overflows f.flush.sl f.flush.dd = false →
          s.furPerform s.cur.core s.cur.ctx h.ac.val f.flush = (none, s1, g) →
          (s1.freeBytes 32).2.furPutImage s.cur.core s.cur.ctx h.ac.val d (s1.freeBytes 32).1 = (none, s2) →
          ∃ t m, exec (.fclose h fn true) s = .next t ∧ FurRunsAs s t h (6 + f.lc)
            (s2.furHit s.cur.core s.cur.ctx fn f.region.toNat f.size).myCore.furs ∧ t.myCore.fcmd = some m ∧ m.kind = 3 ∧ m.desc = g.descriptor.bytes ∧
            (t.myCore.fur fn).opened = false ∧ OtherFurrowsHit s s2 t s.cur.core s.cur.ctx [fn] f.region.toNat f.size ∧ Unmarked t fn) ∧
      (f.opened = true → ∃ t, exec (.fmark h fn mk) s = .next t ∧ FurRuns s t h 4 ∧ SameBuffers s t ∧ t.myCore.furs = s.myCore.furs ∧
        t.myCore.marks[mk] = { valid := true, fn := fn.val, lc := f.lc, x := f.x, sl := f.sl, dd := f.dd } ∧
        ∀ j : Fin 8, j ≠ mk → t.myCore.marks[j] = s.myCore.marks[j]) ∧
      (∀ m, f.opened = true → s.myCore.marks[mk] = m → m.valid = true → m.fn = fn.val → m.dd ≤ f.dd → ∃ t, exec (.fdrop h fn mk) s = .next t ∧
        FurRuns s t h 4 ∧ SameBuffers s t ∧ (t.myCore.fur fn).x = m.x ∧ (t.myCore.fur fn).sl = m.sl ∧ (t.myCore.fur fn).dd = m.dd ∧
        OtherFurrows s t [fn] ∧ ∀ j : Fin 8, (s.myCore.marks[j]).fn = fn.val → m.dd < (s.myCore.marks[j]).dd → (t.myCore.marks[j]).valid = false) ∧
      (∀ r z, s.furRegion (s.rdH h.ha) = some (r, z) → cf ≠ fn → f.opened = true → (s.myCore.fur cf).opened = false →
        ∃ t, exec (.fsplitSplit h fn cf) s = .next t ∧ FurRuns s t h 4 ∧ SameBuffers s t ∧ NewFurrow (t.myCore.fur cf) f.lc r z true ∧
          (t.myCore.fur cf).parent = fn.val ∧ OtherFurrows s t [cf] ∧ Unmarked t cf) ∧
      (∀ d s1 p1 s2 g, cf ≠ fn → f.opened = true → (s.myCore.fur cf).opened = false → f.dd ≠ 0 →
        s.furTop s.cur.core s.cur.ctx h.ac.val s.furAcq f = (.ok (some d), s1, p1) → d.child = true →
        s1.furAdopt s.cur.core s.cur.ctx h.ac.val s.furAcq d true fn.val = (.ok (some g), s2) →
        ∃ t, exec (.fsplitTake h fn cf) s = .next t ∧ FurRuns s t h (6 + g.lc) ∧ t.myCore.fur fn = p1.popEntry ∧
          (t.myCore.fur cf).opened = true ∧ (t.myCore.fur cf).child = true ∧ (t.myCore.fur cf).parent = fn.val ∧ (t.myCore.fur cf).region = d.region ∧
          (t.myCore.fur cf).size = d.size ∧ (t.myCore.fur cf).x = g.x ∧ OtherFurrows s t [fn, cf] ∧ Unmarked t cf) ∧
      (∀ s1 g, cf ≠ fn → f.opened = true → (s.myCore.fur cf).opened = true → (s.myCore.fur cf).child = true → (s.myCore.fur cf).parent = fn.val →
        let k := (s.myCore.fur cf).flush
        k.overflows k.sl k.dd = false → f.overflows f.sl (f.dd + 1) = false → s.furPerform s.cur.core s.cur.ctx h.ac.val k = (none, s1, g) →
        ∃ t, exec (.fjoin h fn cf) s = .next t ∧ FurRunsAs s t h (6 + (s.myCore.fur cf).lc)
          (s1.furHit s.cur.core s.cur.ctx cf (s.myCore.fur cf).region.toNat (s.myCore.fur cf).size).myCore.furs ∧ (t.myCore.fur cf).opened = false ∧
          (t.myCore.fur fn).dtop = k.descriptor :: f.dtop ∧ (t.myCore.fur fn).x = f.x ∧ (t.myCore.fur fn).sl = f.sl ∧
          OtherFurrowsHit s s1 t s.cur.core s.cur.ctx [fn, cf] (s.myCore.fur cf).region.toNat (s.myCore.fur cf).size ∧ Unmarked t cf)) ∧
    (s.furFree = true → s.live → f.opened = false →
      ∀ i ∈ [Instr.fclose h fn false, .fmark h fn mk, .fdrop h fn mk, .fsplitTake h fn cf, .fjoin h fn cf], ∃ t, exec i s = .next t ∧
        Trapped s t 0x02 0 1 s.wordDetail)

/-- FPUSH codes a tile of ABUF into its furrow and pushes a directory entry; FPOP decodes the newest entry into a tile; with an empty directory it
sets EMPTY, and with ET raises FUR_EMPTY; a push that would fill the region sets FULL and traps. FTBL and FSPLIT import read their images after they
issue. FSTAT writes its 64-byte record; a header with D0 = 0 gets nothing. The coder's readings are the model's (assumption log 38). -/
def Obligations.FurrowTiles : Prop :=
  ∀ (s : State) (h : HOp) (fn cf : FurNo) (tb : Fin 8) (et clr : Bool) (e : SEntry), s.furFree = true → s.furFlag h = true → s.headWord = some e →
    let f := s.myCore.fur fn
    (∀ d g, s.furTile (s.rdH h.ha) = some d → f.opened = true → (s.myCore.tabs[tb]).valid = true → d.fmt ≠ 0 → d.w ≤ 16 →
      (d.d0 = 0 → ∃ t, exec (.fpush h fn tb) s = .next t ∧ FurRuns s t h 6 ∧ t.myCore.furs = s.myCore.furs ∧ SameBuffers s t) ∧
      let codes := (List.range d.rows).flatMap fun r => (List.range d.d0).map fun i => s.myCore.bufElem 1 0 (d.bitAt r i) d.w
      (d.d0 ≠ 0 → f.pushTile s.myCore.tabs[tb] d.w codes = some g →
        (g.overflows g.sl (g.dd + 1) = false → ∃ t, exec (.fpush h fn tb) s = .next t ∧
          FurRuns s t h (6 + ceilDiv d.size f.lc + ceilDiv (if d.w = 16 then 2 * ceilDiv d.size 2 else 0) 64) ∧ SameBuffers s t ∧
          (t.myCore.fur fn).x = g.x ∧ (t.myCore.fur fn).top = g.top ∧ OtherFurrows s t [fn] ∧
          ∃ q, (t.myCore.fur fn).dtop = q :: g.dtop ∧ q.spos = g.sl ∧ q.count = d.size ∧ q.fmt = d.fmt ∧
            q.bias = hf (s.rdH h.ha) 13 ∧ q.ln = f.lc - 1 ∧ q.tb = tb.val ∧ q.child = false) ∧
        (g.overflows g.sl (g.dd + 1) = true → s.live → ∃ t, exec (.fpush h fn tb) s = .next t ∧ (t.myCore.fur fn).full = true ∧
          Trapped s t 0x02 0 1 s.wordDetail))) ∧
    (∀ d, s.furTile (s.rdH h.hd) = some d → f.opened = true → d.fmt ≠ 0 → d.w ≤ 16 →
      (f.dd = 0 → (∃ t, exec (.fpop h fn false) s = .next t ∧ FurRuns s t h 6 ∧ t.myCore.fur fn = { f with empty := true } ∧ SameBuffers s t) ∧
        (s.live → ∃ t, exec (.fpop h fn true) s = .next t ∧ (t.myCore.fur fn).empty = true ∧
          Trapped s t 0x04 0 1 #v[BitVec.ofNat 64 s.curIdx, s.curWord, BitVec.ofNat 64 fn.val, 0])) ∧
      (f.dd ≠ 0 → d.d0 = 0 → ∃ t, exec (.fpop h fn et) s = .next t ∧ FurRuns s t h 6 ∧ t.myCore.furs = s.myCore.furs ∧ SameBuffers s t) ∧
      (∀ q s1 f1 codes s2 g, f.dd ≠ 0 → d.d0 ≠ 0 →  s.furTop s.cur.core s.cur.ctx h.ac.val s.furAcq f = (.ok (some q), s1, f1) → q.child = false →
        d.fmt = q.fmt → hf (s.rdH h.hd) 13 = q.bias → d.size = q.count → f.loose = false →
        let tab := s.myCore.tabs[Fin.ofNat 8 q.tb]
        tab.valid = true → (∀ u, s.stamp (s.entryKey f (f.dd - 1)) = some u → u = tab) → s.furForeign s.cur.core s.cur.ctx f = false →
        s1.furPopTile s.cur.core s.cur.ctx h.ac.val s.furAcq tab d.w d.size f1 = (.ok codes, s2, g) →
        ∃ t, exec (.fpop h fn et) s = .next t ∧ FurRuns s t h (6 + ceilDiv d.size f.lc + ceilDiv (if d.w = 16 then 2 * ceilDiv d.size 2 else 0) 64) ∧
          t.myCore.fur fn = { g with dtop := g.dtop.tail } ∧ OtherFurrows s t [fn] ∧ t.myCore.cbuf = s.myCore.cbuf ∧
          (∀ l, d.mask.testBit l = false → t.myCore.line 1 l = s.myCore.line 1 l) ∧
          (d.rows = 1 → d.d0 * d.w ≤ 4096 → ∀ i, i < d.d0 → t.myCore.bufElem 1 0 (d.bitAt 0 i) d.w = codes.getD i 0 % 2 ^ d.w))) ∧
    (∀ d, s.furPlace (s.rdH h.ha) false = some d →
      (d.tr = false → d.sps = 0 → d.bse = false → d.imageBytes = 528 → ∃ t m, exec (.ftbl h tb) s = .next t ∧ FurRuns s t h 4 ∧ t.myCore.fcmd = some m ∧
        m.kind = 1 ∧ t.myCore.tabs = s.myCore.tabs ∧ SameBuffers s t) ∧
      (32 ≤ d.imageBytes → (s.myCore.fur cf).opened = false → ∃ t m, exec (.fsplitImport h cf) s = .next t ∧ FurRuns s t h 6 ∧
        t.myCore.fcmd = some m ∧ m.kind = 2 ∧ t.myCore.furs = s.myCore.furs ∧ SameBuffers s t)) ∧
    (∀ d top s1 f1, s.myCore.tensor (s.rdH h.hd) 8 = some d → d.buf = 1 → d.tr = false → d.planeOk s.myGrant = true →
      s.myGrant.covers 1 (d.mask ||| 2 ^ d.base) = true → d.base < 8192 → s.furTop s.cur.core s.cur.ctx h.ac.val s.furAcq f = (.ok top, s1, f1) →
      (d.d0 = 0 → ∃ t, exec (.fstat h fn clr) s = .next t ∧ FurRuns s t h 4 ∧ SameBuffers s t) ∧
      (d.d0 ≠ 0 → ∃ t, exec (.fstat h fn clr) s = .next t ∧ FurRuns s t h 4 ∧
        imgDw (t.myCore.bufBytes 1 (d.base * 512) 64) 0 = f.sl % 2 ^ 32 * 2 ^ 32 + f.dd % 2 ^ 32 ∧
        imgDw (t.myCore.bufBytes 1 (d.base * 512) 64) 1 = f.size % 2 ^ 32 * 2 ^ 32 + (f.lc - 1) % 64 * 2 ^ 8 + f.parent % 16 * 2 ^ 4 + b2n f.full * 2 ^ 3 +
          b2n f.child * 2 ^ 2 + b2n f.empty * 2 + b2n f.opened ∧
        imgDw (t.myCore.bufBytes 1 (d.base * 512) 64) 2 = f.region.toNat ∧ (∀ l, l ≠ d.base → t.myCore.line 1 l = s.myCore.line 1 l) ∧
        (clr = true → (t.myCore.fur fn).empty = false ∧ (t.myCore.fur fn).full = false) ∧ OtherFurrows s t [fn]))

/-- What FPUSH codes, FPOP decodes: from any lane states in [2^16, 2^32), with any accepted table and codes of 4, 8 or 16 bits whose symbols have
a frequency, decoding the coded tile gives its codes back and leaves the furrow as it was before the push. -/
def Obligations.FurrowRoundTrip : Prop :=
  ∀ (f g : Furrow) (tab : FTable) (w : Nat) (codes : List Nat) (s : State) (c : CoreId) (x : CtxId) (cls : Nat) (q : Acq),
    tab.legal → 1 ≤ f.lc → f.lc ≤ 64 → (∀ j, j < f.lc → 2 ^ 16 ≤ f.lane j) → w ∈ [4, 8, 16] → (∀ v ∈ codes, v < 2 ^ w) →
    f.pushTile tab w codes = some g → s.furPopTile c x cls q tab w codes.length g = (.ok codes, s, f) ∧ ∀ j, j < f.lc → 2 ^ 16 ≤ g.lane j

/-- FUR_WORD_COMPLETE ends the word and makes its flag update; the image checks of FTBL and FSPLIT import take the table or the descriptor, or trap;
FURROW_CHUNK_MOVE spills the 32 oldest stream words on the die; a stop before the word completes brings its shadow back, and owes the word itself
where its fork set has ended; while a clamped loop runs out the word goes on. The coder's readings are the model's (assumption log 38). -/
def Obligations.FurrowEvents : Prop :=
  ∀ (s : State) (c : CoreId) (m : FCmd), (s.core c).fcmd = some m →
    (m.kind ≠ 3 → ∃ t, exec (.furWordComplete c) s = .next t ∧ (t.core c).fcmd = none ∧ FlagDue s t c 6 m.fe m.flag ∧ (t.core c).furs = (s.core c).furs ∧
      SameBuffersOf s t c ∧ ∀ x, SameRegs s t c x) ∧
    (∀ s1, m.kind = 3 → s.furPutImage c m.ctx m.cls (tensorAs m.hdr m.hfmt (widthOr m.hfmt 8)) m.desc = (none, s1) →
      ∃ t, exec (.furWordComplete c) s = .next t ∧ (t.core c).fcmd = none ∧ FlagDue s t c 6 m.fe m.flag ∧ SameBuffersOf s1 t c ∧
        ∀ a, t.byte a = s1.byte a) ∧
    (∀ h tb bs s1, m.ins = some (.ftbl h tb) → s.furImage c m.ctx m.cls m.acq (tensorAs m.hdr m.hfmt (widthOr m.hfmt 8)) 528 = (.ok bs, s1) →
      let n := leNat ((bs.drop 512).take 2)
      let at_ (i : Nat) : Nat := leNat ((bs.drop (2 * i)).take 2)
      let ok := 4 ≤ n ∧ n ≤ 12 ∧ ((List.range 256).map at_).sum = 2 ^ n ∧ ∀ b ∈ bs.drop 514, b = 0
      (ok → ∃ t, exec (.ftblImageCheck c) s = .next t ∧ ((t.core c).tabs[tb]).valid = true ∧ ((t.core c).tabs[tb]).n = n ∧
        (∀ i : Fin 256, ((t.core c).tabs[tb]).f[i] = at_ i.val) ∧ ∀ x, SameRegs s1 t c x) ∧
      (¬ok → (s.ctx c m.ctx).phase = .running → (s.ctx c m.ctx).stop = none → ∃ t st r,
        exec (.ftblImageCheck c) s = .next t ∧ ((t.core c).tabs[tb]).valid = false ∧ (t.core c).fcmd = none ∧ (t.ctx c m.ctx).stop = some st ∧ st.traps = [r] ∧
        r.cause = 0x02 ∧ r.tag = 6 ∧ r.seq = m.ent.seq)) ∧
    (∀ h cf bs s1 g s2, m.ins = some (.fsplitImport h cf) → s.furImage c m.ctx m.cls m.acq (tensorAs m.hdr m.hfmt (widthOr m.hfmt 8)) 32 = (.ok bs, s1) →
      (dirEntryOf bs).child = true → imgDw bs 1 % 2 ^ 40 = 0 → s1.furAdopt c m.ctx m.cls m.acq (dirEntryOf bs) false 0 = (.ok (some g), s2) →
      ∃ t, exec (.fsplitImportCheck c) s = .next t ∧ (t.core c).fur cf = g ∧ g.opened = true ∧ g.child = false ∧ g.region = (dirEntryOf bs).region ∧
        g.size = (dirEntryOf bs).size ∧ g.lc = (dirEntryOf bs).ln + 1) ∧
    (∀ fn s1 g, ((s.core c).fur fn).crowded = true → 256 < ((s.core c).fur fn).top.length →
      s.furSpill c m.ctx m.cls 32 ((s.core c).fur fn) = (none, s1, g) → ∃ t, exec (.furrowChunkMove c fn) s = .next t ∧ (t.core c).fur fn = g ∧
        g.sl = ((s.core c).fur fn).sl ∧ g.base = ((s.core c).fur fn).base + 32 ∧ OtherFurrowsHit s s1 t c m.ctx [fn] ((s.core c).fur fn).region.toNat ((s.core c).fur fn).size ∧
        ∀ a, t.byte a = s1.byte a) ∧
    (∀ traps forced cuts, let t := s.beginStop c m.ctx traps false forced cuts
      (t.core c).fcmd = none ∧ (t.core c).furs = m.shFur ∧ (t.core c).tabs = m.shTab ∧ (t.core c).marks = m.shMark ∧
      ((s.ctx c m.ctx).fork = none → ∃ e, (t.ctx c m.ctx).owedFur = some e ∧ e.ins = m.ent.ins ∧ e.seq = m.ent.seq ∧ e.issued = false)) ∧
    (∀ traps forced cuts, let t := s.beginStop c m.ctx traps true forced cuts
      (t.core c).fcmd = some m ∧ (t.core c).furs = (s.core c).furs ∧ (t.core c).tabs = (s.core c).tabs ∧ (t.core c).marks = (s.core c).marks)

/-! ### The dispatcher, the collective engine, partitions and the host (R309 to R371) -/

/-- DISPATCH_SELECT starts the READY task in an eligible context: the task is RUNNING, and its context runs its entry at PL 0 with registers 0 and
the partition's trap vectors, the granted flags 0 and queues empty; without an eligible context nothing starts. A context that has drained becomes
EMPTY, and with the last member the task is DONE and its future resolved with 0. A task that has waited long enough rises a level; a slice begins
with nothing spent. The dispatcher's readings are the model's (assumption log 41). -/
def Obligations.DispatcherEvents : Prop :=
  ∀ (s : State) (c : CoreId) (x : CtxId),
    ((∀ p l, s.nextAt p l = none) → exec .dispatchSelect s = .next { s with disp := { s.disp with select := false } }) ∧
    (∀ tk, s.disp.tasks = [tk] → tk.phase = .ready → tk.part < 16 → tk.level < 4 → s.mayDispatch tk.part = true → s.spots tk = some [(c, x)] →
      tk.launch = 0 → tk.cost ≤ (s.dp tk.part).quantum →
      ∃ t tk', exec .dispatchSelect s = .next t ∧ t.disp.tasks = [tk'] ∧ tk'.phase = .running ∧ tk'.num = tk.num ∧ t.disp.select = false ∧
        (t.ctx c x).phase = .running ∧ (t.ctx c x).pl = 0 ∧ (t.ctx c x).text = tk.text ∧ (t.ctx c x).walk.pc = tk.entry ∧ (t.ctx c x).task = some tk.num ∧
        (∀ r : Fin 32, (t.ctx c x).s[r] = 0 ∧ (t.ctx c x).h[r] = 0) ∧ ((t.ctx c x).bankAt 1).vec = (s.part tk.part).tvec1 ∧
        ((t.ctx c x).bankAt 2).vec = (s.part tk.part).tvec2 ∧ (t.part tk.part).spent = Nat.min ((s.part tk.part).spent + tk.cost) (2 ^ 32 - 1) ∧
        (∀ f : FlagNo, (s.grant c x).hasFlag f.val = true → (t.core c).flags[f] = 0) ∧
        ∀ q : QNo, (s.grant c x).hasQueue q.val = true → (t.core c).queue q = []) ∧
    (s.drainDue c x = false → exec (.drainingEnd c x) s = .next s) ∧
    (∀ n tk, s.drainDue c x = true → (s.ctx c x).task = some n → s.task? (s.partOf c x) n = some tk → (s.part (s.partOf c x)).replay = none →
      (tk.drained + 1 < tk.members → ∃ t tk', exec (.drainingEnd c x) s = .next t ∧ (t.ctx c x).phase = .empty ∧ t.task? (s.partOf c x) n = some tk' ∧
        tk'.phase = tk.phase ∧ tk'.drained = tk.drained + 1) ∧
      (tk.members ≤ tk.drained + 1 → tk.nextDesc = 0 → ∃ t tk', exec (.drainingEnd c x) s = .next t ∧ (t.ctx c x).phase = .empty ∧
        (t.ctx c x).task = none ∧ t.disp.select = true ∧ t.task? (s.partOf c x) n = some tk' ∧ tk'.phase = .done ∧
        ∀ f, tk.fut ≠ 0 → s.fut? (s.partOf c x) (tk.fut.toNat % 2 ^ 32) = some f → f.state ≠ 2 → f.waiters = [] →
          ∃ f', t.fut? (s.partOf c x) (tk.fut.toNat % 2 ^ 32) = some f' ∧ f'.state = 2 ∧ f'.value = 0)) ∧
    (∀ tk, s.agedTask = some tk → ∃ t, exec .taskAge s = .next t ∧ t.disp.nextOrder = s.disp.nextOrder + 1 ∧ t.disp.select = true ∧
      t.disp.tasks = s.disp.tasks.map fun u => if u.part = tk.part ∧ u.num = tk.num then
        { u with phase := .ready, level := tk.level + 1, since := s.cycle, order := s.disp.nextOrder } else u) ∧
    (∃ t, exec .sliceStart s = .next t ∧ (∀ p, p < 16 → t.part p = { s.part p with spent := 0 }) ∧ t.mg.sliceAt = s.cycle ∧ t.disp.select = true)

/-- Darud transport: the packet in sequence is queued and advances RXSEQ, an earlier one is acknowledged again, a later one is dropped; without PRES
it goes to the bounce ring or is refused with a NACK. An ACK frees the window up to its number, a NACK sets a back-off that grows, BACKOFF_EXPIRE
and RETRANSMIT_TIMEOUT send the window again from their packet or fail the connection after RMAX rounds, ACK_TIMER acknowledges, BOUNCE_REPLAY
delivers the next entry, and CONNECTION_INVALIDATE clears V, drops what is queued and ends the operations that use the connection with ERR 2. The
shape of a packet and of a bounce entry, and the readings of the transport, are the model's choice (assumption logs 7 and 42). -/
def Obligations.TransportEvents : Prop :=
  ∀ (s : State) (n : ConnId) (p : Packet) (seq : Nat), n.val ≠ 0 →
    let k := s.conn n.val
    let from_ (q : Nat) : List (Nat × FrameBody) := (k.window.filter fun w => !seqBelow w.2.seq q).map fun w => (k.port, .darudData k.peer w.2)
    (k.live = true → (s.part k.part).state < 2 → s.lateFor k = false →
      (p.seq = k.rxseq → k.pres = true → k.rpl = false → k.recvq.length < 64 → ∃ u : State, exec (.darudPacketReceive n p) s = .next u.colRun ∧
        (u.conn n.val).recvq = k.recvq ++ [p] ∧ (u.conn n.val).rxseq = (k.rxseq + 1) % 2 ^ 24) ∧
      (p.seq = k.rxseq → k.pres = true → (k.rpl = true ∨ 64 ≤ k.recvq.length) → ∃ t, exec (.darudPacketReceive n p) s = .next t ∧
        t.col.out = s.col.out ++ [(k.port, .darudNack k.peer k.rxseq false)] ∧ t.col.conns = s.col.conns) ∧
      (∀ u, p.seq = k.rxseq → k.pres = false → s.bounce n.val p = some u → ∃ t, exec (.darudPacketReceive n p) s = .next t ∧
        t.col.brhead = (s.col.brhead + 64 + alignUp p.data.length 64) % 2 ^ 64 ∧ (t.conn n.val).rxseq = (k.rxseq + 1) % 2 ^ 24 ∧ (t.conn n.val).recvq = k.recvq) ∧
      (seqBelow p.seq k.rxseq = true → ∃ t, exec (.darudPacketReceive n p) s = .next t ∧
        t.col.out = s.col.out ++ [(k.port, .darudAck k.peer k.ackable)] ∧ (t.conn n.val).recvq = k.recvq ∧ (t.conn n.val).rxseq = k.rxseq) ∧
      (p.seq ≠ k.rxseq → seqBelow p.seq k.rxseq = false → exec (.darudPacketReceive n p) s = .next s)) ∧
    (k.live = true → (s.part k.part).state < 2 → s.lateFor k = true → ∃ t, exec (.darudPacketReceive n p) s = .next t ∧
      t.col.out = s.col.out ++ [(k.port, .darudNack k.peer k.rxseq true)] ∧ t.col.conns = s.col.conns) ∧
    (∀ a b, k.live = true → k.window = a ++ b → a ≠ [] → (∀ w ∈ a, seqBelow w.2.seq seq = true) → (∀ w ∈ b, seqBelow w.2.seq seq = false) →
      ∃ u : State, exec (.darudAckReceive n seq) s = .next u.colRun ∧ (u.conn n.val).window = b ∧ (u.conn n.val).rounds = 0 ∧ (u.conn n.val).nacks = 0) ∧
    (∀ late, k.live = true → (∃ w ∈ k.window, w.2.seq = seq) → ∃ t, exec (.darudNackReceive n seq late) s = .next t ∧
      t.conn n.val = { k with backoff := some (s.cycle + k.bo * 2 ^ Nat.min 6 k.nacks, seq), late := late, nacks := k.nacks + 1 } ∧ t.col.out = s.col.out) ∧
    (∀ b, s.backoffDue n.val = true → k.backoff = some b →
      (k.late = true ∨ k.rounds < k.rmax → ∃ t, exec (.backoffExpire n) s = .next t ∧ t.col.out = s.col.out ++ from_ b.2 ∧
        (t.conn n.val).backoff = none ∧ (t.conn n.val).window = k.window ∧ (t.conn n.val).rounds = (if k.late then k.rounds else k.rounds + 1)) ∧
      (k.late = false → k.rmax ≤ k.rounds → ∃ t, exec (.backoffExpire n) s = .next t ∧ (t.conn n.val).fail = true ∧ (t.conn n.val).window = [])) ∧
    (∀ w rest, s.rtoDue n.val = true → k.window = w :: rest →
      (k.rounds < k.rmax → ∃ t, exec (.retransmitTimeout n) s = .next t ∧ t.col.out = s.col.out ++ from_ w.2.seq ∧ (t.conn n.val).window = k.window ∧
        (t.conn n.val).rounds = k.rounds + 1) ∧
      (k.rmax ≤ k.rounds → ∃ t, exec (.retransmitTimeout n) s = .next t ∧ (t.conn n.val).fail = true ∧ (t.conn n.val).window = [])) ∧
    (s.ackDue n.val = true → ∃ t, exec (.ackTimer n) s = .next t ∧ t.col.out = s.col.out ++ [(k.port, .darudAck k.peer k.ackable)] ∧
      (t.conn n.val).unacked = (k.rxseq + 2 ^ 24 - k.ackable) % 2 ^ 24) ∧
    (s.replayDue n.val = true →
      (s.bounceNext n.val = none → ∃ t, exec (.bounceReplay n) s = .next t ∧ (t.conn n.val).rpl = false ∧ (t.conn n.val).recvq = k.recvq) ∧
      ∀ pos, s.bounceNext n.val = some pos → ∃ u : State, exec (.bounceReplay n) s = .next u.colRun ∧ (u.conn n.val).recvq = k.recvq ++ [s.bouncePacket pos] ∧
        u.byte (s.ringAt (pos + 16)) = 1) ∧
    (∃ t, exec (.connectionInvalidate n) s = .next t ∧ (t.conn n.val).v = false ∧ (t.conn n.val).window = [] ∧ (t.conn n.val).recvq = [] ∧
      ∀ o ∈ s.col.ops, o.state ≠ 3 → o.uses n.val = true → ∃ o' ∈ t.col.ops, o'.part = o.part ∧ o'.idx = o.idx ∧ o'.state = 3 ∧ o'.err = 2)

/-- FRAME_RECEIVE drops and counts a frame that fails its checks and routes the others by their port; WATCHED_START queues the operation of an
accepted descriptor and refuses another; COLLECTIVE_OP_COMPLETE ends an operation with ERR 0 and its flag update, changes no memory unless another
party wrote into the bucket or OP is 3, and in the former case changes only the bucket; the gang events set READY, LATE
and ABORT; a link comes up. In the ring schedule, what a rank receives is what the rank before it sends in the same step, and the chunks make up the
bucket. Frames as inputs and the readings of the engine are the model's choice (assumption logs 42 and 48). -/
def Obligations.CollectiveEvents : Prop :=
  ∀ (s : State) (port : Fin 2) (f : Frame),
    (f.ipv6Udp = false ∨ f.checksOk = false ∨ 4096 < FrameBody.payload f.body → ∃ t, exec (.frameReceive port f) s = .next t ∧
      vget t.col.dropped port.val 0 = vget s.col.dropped port.val 0 + 1 ∧ t.inputs = s.inputs ∧ t.col.conns = s.col.conns) ∧
    (∀ n p, f.ipv6Udp = true → f.checksOk = true → f.udpPort = s.col.dport → f.body = .darudData n p → p.data.length ≤ 4096 → (s.conn n.val).port = port.val →
      exec (.frameReceive port f) s = .next { s with inputs := (s.cycle, .ev (.darudPacketReceive n p)) :: s.inputs }) ∧
    (∀ d, f.ipv6Udp = true → f.checksOk = true → f.udpPort ≠ s.col.dport → f.udpPort ≠ 319 → f.udpPort ≠ 320 → f.udpPort = s.col.mport → s.host.stage = 4 →
      f.body = .management d → ∃ t, exec (.frameReceive port f) s = .next t ∧ t.col.mgmt = s.col.mgmt ++ [d] ∧ t.col.dropped = s.col.dropped) ∧
    (∀ (c : CoreId) (x : CtxId) q, (s.ctx c x).pendWatch.find? (fun q => q.2.2.2 ≤ s.cycle) = some q →
      let left := (s.ctx c x).pendWatch.erase q
      let desc := q.2.2.1
      let s0 := s.modCtx c x fun k => { k with pendWatch := left }
      let floors := (s.ctx c x).acq.floors
      let acq : Acq := if q.2.1 = 1 then { s0.acqNow with scope := 3, floors := floors } else { Acq.first with floors := floors }
      (s.partOpen (s.partOf c x) = false → exec (.watchedStart c x) s = .next s0) ∧
      (s.partOpen (s.partOf c x) = true → s0.dramHandle c x desc 32 true false = none → ∃ t, exec (.watchedStart c x) s = .next t ∧
        (t.ctx c x).clstat = (s.ctx c x).clstat ||| 2 ∧ (t.ctx c x).evt = true ∧ (t.ctx c x).pendWatch = left ∧ t.col = s.col) ∧
      ∀ i bs s1, s.partOpen (s.partOf c x) = true → s0.dramHandle c x desc 32 true false = some i →
        s0.readVa { core := c, ctx := x, path := 4, chan := 2 ^ 34 } (some 6) 0 acq false desc (i.base + haddrO desc) 32 = (.ok bs, s1) →
        let o := colOpOf c x (s.partOf c x) (s1.nextOpIdx (s.partOf c x)) (s1.ctx c x).task (some q.1) acq bs
        (s1.descAccept o bs = false → ∃ t, exec (.watchedStart c x) s = .next t ∧ (t.ctx c x).clstat = (s1.ctx c x).clstat ||| 2 ∧ (t.ctx c x).evt = true ∧
          t.col = s1.col) ∧
        (s1.descAccept o bs = true → s1.opsOpen < 256 → (s1.part (s.partOf c x)).replay = none → ∃ u : State, exec (.watchedStart c x) s = .next u.colRun ∧
          o ∈ u.col.ops ∧ o.state = 1 ∧ (u.ctx c x).clidx = o.idx)) ∧
    (∀ (p : PartId) (idx : Nat) o, s.col.ops.find? (fun o => o.part = p.val && o.idx = idx) = some o → s.opFinished o = true →
      ∃ (u : State) (o' : ColOp), exec (.collectiveOpComplete p idx) s = .next u.colRun ∧ o' ∈ u.col.ops ∧ o'.part = p.val ∧ o'.idx = idx ∧ o'.state = 3 ∧ o'.err = 0 ∧
        o'.done = o'.count ∧ (s.opHeld o = true → o.fe = true → ∃ v, (u.core o.core).upds = (s.core o.core).upds ++ [v] ∧ v.flag = o.flag ∧ v.key = 7 ∧
          v.add = false ∧ v.val = 1) ∧ (s.bucketForeign o = false → o.op ≠ 3 → u.mem = s.mem) ∧
        (s.bucketForeign o = true → ∀ a, (∀ b ∈ s.bucketPieces o 0 (o.count * opBytes o.op o.fmt), ¬(b.1 ≤ a ∧ a < b.1 + b.2.2)) → u.byte a = s.byte a)) ∧
    (∃ t, exec .gangStart s = .next t ∧ t.col = { s.col with gangDone := true, glate := s.col.glate || !s.col.gready }) ∧
    (∃ t, exec .gstatReady s = .next t ∧ t.col = { s.col with gready := true, glate := false }) ∧
    (∃ t, exec .gstatAbort s = .next t ∧ (∀ o ∈ s.col.ops, o.state ≠ 3 → s.col.gpart.testBit o.part = true → ∃ o' ∈ t.col.ops, o'.part = o.part ∧ o'.idx = o.idx ∧
      o'.state = 3 ∧ o'.err = 4) ∧
      ∀ n : ConnId, n.val ≠ 0 → (s.conn n.val).v = true → s.col.gpart.testBit (s.conn n.val).part = true → (t.conn n.val).v = false) ∧
    (∀ full, ∃ t, exec (.linkBringUp port full) s = .next t ∧ t.col.linkUp[port] = true ∧ t.col.linkFull[port] = full ∧ t.col.conns = s.col.conns) ∧
    (∀ (a b : ColOp) (k : Nat), 1 ≤ a.op → a.op ≤ 3 → b.op = a.op → b.size = a.size → b.count = a.count → 2 ≤ a.size → a.rank < a.size →
      b.rank = (a.rank + 1) % a.size → k < a.sends → (b.recvAt k).1 = a.sendAt k) ∧
    (∀ (o : ColOp) (c : Nat), 0 < o.size → (o.chunk c).1 + (o.chunk c).2 = (o.chunk (c + 1)).1 ∧ (o.chunk 0).1 = 0 ∧ (o.chunk o.size).1 = o.count)

/-- The management commands, each by its PCMD: CREATE of a FREE partition with an accepted policy makes it ACTIVE, with ERR 1, 2 or 4 it stays as it
was; RESET fences its contexts, waits for their answers or its timeout, and clears its tasks, futures, translations and contexts; CHECKPOINT keeps
the partition's tasks and futures; REPLAY restores them and follows the log; SCRUB gives a range of lines its key and zeros; PCMD_COMPLETE clears
BUSY and raises the management interrupt, with ERR 4 for a reserved OP. The layout of a dispatcher image and the readings of the commands are the
model's choice (assumption logs 15 and 43). -/
def Obligations.PartitionCommands : Prop :=
  ∀ (s : State),
    let p := s.cmdPart
    let q := s.part p
    (s.cmdStarts 1 = true →
      (q.state ≠ 0 → ∃ t, exec .create s = .next t ∧ Ended t 1 ∧ t.part p = q) ∧
      (q.state = 0 → (q.key = 0 ∨ (s.grant q.hcore q.hctx).v = false ∨ s.partOf q.hcore q.hctx ≠ p ∨ s.cmdArg % 64 ≠ 0 ∨
          2 ^ 38 < s.cmdArg + 512) →
        ∃ t, exec .create s = .next t ∧ Ended t 4 ∧ t.part p = q) ∧
      (q.state = 0 → q.key ≠ 0 → (s.grant q.hcore q.hctx).v = true → s.partOf q.hcore q.hctx = p → s.cmdArg % 64 = 0 →
        s.cmdArg + 512 ≤ 2 ^ 38 → ∀ bs u, s.physBytes s.cmdArg 512 = (bs, u) →
        ∃ t, exec .create s = .next t ∧ if policyOk p bs then Ended t 0 ∧ (t.part p).state = 1 ∧ (t.part p).key = q.key ∧ (t.part p).ppwr = 0 ∧
          (t.part p).policy = some ((policyRules bs).map ruleOf) ∧ t.disp.select = true
        else Ended t 2 ∧ (t.part p).state = 0)) ∧
    (s.cmdStarts 2 = true →
      (2 ≤ q.state → ∃ t, exec .reset s = .next t ∧ Ended t 1) ∧
      (q.state < 2 → ∃ t, exec .reset s = .next t ∧ (t.part p).state = 2 ∧ t.mg.running = 2 ∧ t.mg.fence = some s.cycle ∧
        ∀ c x, (c, x) ∈ s.contextsOf p → (s.ctx c x).phase ≠ .empty → (t.ctx c x).phase = .stopping ∧ (t.ctx c x).pending = [] ∧
          (t.ctx c x).loads = (s.ctx c x).loads ∧ (t.ctx c x).stores = (s.ctx c x).stores)) ∧
    (s.cmdStarts 2 = false → s.cmdRuns 2 = true → q.state = 2 →
      (s.fenceQuiet p = true → ∃ t, exec .reset s = .next t ∧ t.part p = { q with state := 3 }) ∧
      (s.fenceQuiet p = false → exec .reset s = .next s) ∧
      (s.fenceOver = true → ∃ t, exec .resetFenceTimeout s = .next t ∧ (t.part p).state = 3 ∧ ∀ c x, (c, x) ∈ s.contextsOf p →
        (t.ctx c x).loads = [] ∧ (t.ctx c x).stores = [] ∧ (t.ctx c x).replies = [])) ∧
    (s.cmdStarts 2 = false → s.cmdRuns 2 = true → q.state = 3 → ∃ t, exec .reset s = .next t ∧ Ended t 0 ∧ (t.part p).state = 0 ∧ (t.part p).policy = none ∧
      (t.part p).key = q.key ∧ (∀ tk ∈ t.disp.tasks, tk.part ≠ p) ∧ (∀ f ∈ t.disp.futs, f.part ≠ p) ∧ (∀ c, ∀ e ∈ (t.core c).tlb, e.part ≠ p) ∧
      ∀ c x, (c, x) ∈ s.contextsOf p → (t.ctx c x).phase = .empty ∧ (t.ctx c x).pl = 0 ∧ ∀ r : Fin 32, (t.ctx c x).s[r] = 0 ∧ (t.ctx c x).h[r] = 0) ∧
    (s.cmdStarts 3 = true →
      (q.state = 1 → s.cmdArg + s.dispSize p ≤ 2 ^ 38 → ∃ t, exec .checkpoint s = .next t ∧ t.mg.running = 2 ∧ t.ckpts = s.ckpts) ∧
      (q.state = 1 → 2 ^ 38 < s.cmdArg + s.dispSize p → ∃ t, exec .checkpoint s = .next t ∧ Ended t 4) ∧
      (q.state ≠ 1 → ∃ t, exec .checkpoint s = .next t ∧ Ended t 1)) ∧
    (s.cmdStarts 3 = false → s.cmdRuns 3 = true → s.partBusy p = false → ∃ t k, exec .checkpoint s = .next t ∧ t.mg.running = 3 ∧
      t.ckpts = s.ckpts ++ [k] ∧ k.part = p ∧ k.num = q.ckptNum + 1 ∧ k.next = (s.dp p).nextTask ∧
      (∀ tk, tk ∈ k.tasks ↔ tk ∈ s.disp.tasks ∧ tk.part = p ∧ (tk.phase = .pending ∨ tk.phase = .ready)) ∧ (∀ f, f ∈ k.futs ↔ f ∈ s.disp.futs ∧ f.part = p) ∧
      (t.part p).ckptNum = q.ckptNum + 1 ∧ t.disp.tasks = s.disp.tasks) ∧
    (s.cmdStarts 4 = true → (q.state ≠ 1 → ∃ t, exec .replay s = .next t ∧ Ended t 1) ∧
      (q.state = 1 → 2 ^ 38 < s.cmdArg + s.dispSize p → ∃ t, exec .replay s = .next t ∧ Ended t 4) ∧
      ∀ bs u k off, q.state = 1 → s.cmdArg + s.dispSize p ≤ 2 ^ 38 → s.physBytes s.cmdArg (s.dispSize p) = (bs, u) → s.readCkpt p bs = k →
        s.afterCkpt p k.num = some off → k.num = imgDw bs 0 / 2 ^ 32 ∧ k.next = imgDw bs 0 % 2 ^ 32 ∧
        (∀ f ∈ k.futs, 1 ≤ f.num ∧ f.num ≤ (s.dp p).futmax ∧ f.state = imgDw bs (6 + 2 * f.num) / 2 ^ 62 ∧ f.state ≠ 3 ∧
          f.value = BitVec.ofNat 64 (imgDw bs (7 + 2 * f.num))) ∧
        ∃ t, exec .replay s = .next t ∧ t.mg.running = 2 ∧ (t.part p).replay = (if off = q.loghead then none else some off) ∧
          (t.dp p).nextTask = k.next ∧ (t.disp.futs.filter fun f => f.part = p) = (k.futs.map fun f => { f with part := p }) ∧
          (t.disp.tasks.filter fun tk => tk.part = p).map (·.num) = k.tasks.map (·.num)) ∧
    (s.cmdStarts 4 = false → s.cmdRuns 4 = true → q.replay = none → ∃ t, exec .replay s = .next t ∧ Ended t 0) ∧
    (s.cmdStarts 5 = true →
      let base := s.cmdArg / 2 ^ 12 % 2 ^ 26 * 4096
      let n := (s.cmdArg / 2 ^ 38 % 2 ^ 12 + 1) * 4096
      (s.cmdArg % 2 ^ 12 ≠ 0 ∨ 2 ^ 38 < base + n → ∃ t, exec .scrub s = .next t ∧ Ended t 4 ∧ (∀ a, t.byte a = s.byte a ∧ t.lineKey a = s.lineKey a)) ∧
      (s.cmdArg % 2 ^ 12 = 0 → base + n ≤ 2 ^ 38 →
        ∃ t, exec .scrub s = .next t ∧ Ended t 0 ∧ ∀ a, (base ≤ a ∧ a < base + n → t.byte a = 0 ∧ t.lineKey a = s.cmdArg / 2 ^ 50 % 2 ^ 6 ∧ t.lineBad a = false) ∧
          (¬(base ≤ a ∧ a < base + n) → t.byte a = s.byte a ∧ t.lineKey a = s.lineKey a))) ∧
    (s.mg.busy = true → (s.mg.running = 3 ∨ (s.mg.running = 1 ∧ (s.cmdOp = 0 ∨ 5 < s.cmdOp))) → ∃ t, exec .pcmdComplete s = .next t ∧ t.mg.busy = false ∧
      t.mg.running = 0 ∧ t.host.msix = s.host.msix ++ [(0, 0)] ∧ t.mg.err = if s.mg.running = 3 then s.mg.err else 4)

/-- Writes of the registers: CGRANT takes effect, with what the context gains reset, unless it shares an item or touches a context that is not
EMPTY, which sets GERR; PFLOOR and CARBD keep each class's floors within its share, else GERR; CARBP above 16 is ignored; DSEL clears its counter; a
control core below PL 2, or one that sets a reserved bit, traps. The readings of the registers are the model's (assumption log 43). -/
def Obligations.RegisterWrites : Prop :=
  ∀ (s : State) (c : CoreId) (x : CtxId) (p : PartId) (v : Word),
    let g := grantOf v.toNat
    let old := s.grant c x
    let share (k : Nat) : Nat := 16 * (s.col.carbd / 2 ^ (4 * k) % 16)
    let floors (k : Nat) (f : Nat → Nat) : Nat := ((List.range 16).map fun i => f i / 2 ^ (8 * k) % 256).sum
    (g ≠ old → (s.ctx c x).phase = .empty → (∀ y, y ≠ x → g.items &&& (s.grant c y).items = 0 ∧ ¬(g.v = true ∧ (s.grant c y).v = true ∧ g.part = (s.grant c y).part) ∧
        ((s.ctx c y).phase = .empty ∨ g.word % 2 ^ 58 &&& (s.grant c y).word % 2 ^ 58 = 0)) →
      ∃ t, exec (.cgrantWrite c x v) s = .next t ∧ t.grant c x = g ∧ (∀ y, y ≠ x → t.grant c y = s.grant c y) ∧ t.mg.gerr = s.mg.gerr ∧
        (∀ f : FlagNo, g.hasFlag f.val = true → (old.hasFlag f.val = false ∨ g.part ≠ old.part) → (t.core c).flags[f] = 0) ∧
        ((t.ctx c x).bankAt 1) = Bank.reset ∧ ((t.ctx c x).bankAt 2) = Bank.reset) ∧
    ((g ≠ old ∧ (s.ctx c x).phase ≠ .empty) ∨ (∃ y, y ≠ x ∧ g.items &&& (s.grant c y).items ≠ 0) → ∃ t, exec (.cgrantWrite c x v) s = .next t ∧
      t.mg.gerr = true ∧ t.cores = s.cores) ∧
    ((∀ k, k < 4 → floors k (fun i => if i = p.val then v.toNat else (s.part i).floor) ≤ share k) → ∃ t, exec (.pfloorWrite p v) s = .next t ∧
      t.part p.val = { s.part p.val with floor := v.toNat % 2 ^ 32 }) ∧
    (∀ k, k < 4 → share k < floors k (fun i => if i = p.val then v.toNat else (s.part i).floor) → ∃ t, exec (.pfloorWrite p v) s = .next t ∧
      t.mg.gerr = true ∧ t.part p.val = s.part p.val) ∧
    (let sum := ((List.range 4).map fun k => v.toNat / 2 ^ (4 * k) % 16).sum
     (16 < sum → (∀ k, k < 4 → floors k (fun i => (s.part i).floor) ≤ 16 * (v.toNat / 2 ^ (4 * k) % 16)) → exec (.carbdWrite v) s = .next s) ∧
     (sum ≤ 16 → (∀ k, k < 4 → floors k (fun i => (s.part i).floor) ≤ 16 * (v.toNat / 2 ^ (4 * k) % 16)) → ∃ t, exec (.carbdWrite v) s = .next t ∧
       t.col.carbd = v.toNat % 2 ^ 16) ∧
     (∀ k, k < 4 → 16 * (v.toNat / 2 ^ (4 * k) % 16) < floors k (fun i => (s.part i).floor) → ∃ t, exec (.carbdWrite v) s = .next t ∧
       t.mg.gerr = true ∧ t.col.carbd = s.col.carbd)) ∧
    (16 < v.toNat % 16 + v.toNat / 16 % 16 → exec (.carbpWrite v) s = .next s) ∧
    (v.toNat % 16 + v.toNat / 16 % 16 ≤ 16 → ∃ t, exec (.carbpWrite v) s = .next t ∧ t.col.carbp = v.toNat % 256) ∧
    (∀ (die : Fin 8) (i : Fin 16), ∃ t, exec (.dselWrite die i v) s = .next t ∧ (t.obs.dcnt[die])[i].sel = v.toNat &&& 0xCFFF ∧ (t.obs.dcnt[die])[i].cnt = 0 ∧
      ∀ j : Fin 16, j ≠ i → (t.obs.dcnt[die])[j] = (s.obs.dcnt[die])[j]) ∧
    (let s' := { s with cur := { core := c, ctx := x, tag := .ctl } }
     ∀ off : Nat, ((s.ctx c x).pl < 2 ∨ off % 8 ≠ 0 ∨ (off = 0x110 ∧ 2 ^ 32 ≤ v.toNat)) → s'.live →
       ∃ t, exec (.registerWrite (.ctl c x) off v) s = .next t ∧ Trapped s' t 0x02 0 1 s'.wordDetail) ∧
    (∀ who ∈ [Access.ctl c x, .pf0], (who = .ctl c x → 2 ≤ (s.ctx c x).pl) → s.host.halted0 = false → v.toNat < 2 ^ 32 →
      (∃ t, exec (.registerWrite who 0x110 v) s = .next t ∧ t.mg.slice = v.toNat ∧ t.cores = s.cores) ∧
      (∃ t, exec (.registerWrite who 0x118 v) s = .next t ∧ t.mg.rtmo = v.toNat ∧ t.cores = s.cores) ∧
      (s.mg.busy = false → ∃ t, exec (.registerWrite who 0x100 v) s = .next t ∧ t.mg.pcmd = v ∧ t.mg.busy = true ∧ t.mg.err = 0 ∧ t.mg.running = 1) ∧
      (s.mg.busy = true → ∃ t, exec (.registerWrite who 0x100 v) s = .next t ∧ t = s))

/-- DBELL makes a doorbell pending in the context it names, where that is a context of the VF's partition, and is dropped otherwise; HQCFG and
BOOTWIN take their fields; a host-queue command of a queue in service joins the commands in progress; a link error ends one, sets LERR and raises
vector 1 of the VF; an ATS invalidation performs every host access of its page; AREQ makes the report; power and heat change their fields; samples
and windows move their time on, and a window keeps the counters that its policy asks for. The format of a host-queue command and the readings of the
interface are the model's choice (assumption logs 8, 44 and 48). -/
def Obligations.HostEvents : Prop :=
  ∀ (s : State) (p : PartId) (c : CoreId) (x : CtxId) (v : Word) (q : Fin 64),
    ((s.part p.val).state < 2 → c.val = v.toNat / 2 ^ 9 % 128 → x.val = v.toNat / 2 ^ 7 % 4 →
      (v.toNat % 2 ^ 7 = 0 → v.toNat / 2 ^ 16 % 2 ^ 32 = 0 → (s.grant c x).v = true → s.partOf c x = p.val → ∃ t r, exec (.dbellWrite p v) s = .next t ∧
        (t.ctx c x).pending = (s.ctx c x).pending ++ [r] ∧ r.async = true ∧ r.cause = 0x13 ∧ r.code = v.toNat / 2 ^ 48 ∧ r.level = 1 ∧ (t.ctx c x).evt = true ∧
        SameRegs s t c x) ∧
      (v.toNat % 2 ^ 7 ≠ 0 ∨ v.toNat / 2 ^ 16 % 2 ^ 32 ≠ 0 ∨ (s.grant c x).v = false ∨ s.partOf c x ≠ p.val → exec (.dbellWrite p v) s = .next s)) ∧
    (s.host.runs = [] → (∀ (c : CoreId) (ch : ChNo), ∀ m ∈ ((s.core c).chans[ch]).cmds, m.kind ≠ 5) → ∃ t, exec (.hqcfgWrite q v) s = .next t ∧
      t.host.hq[q].v = v.getLsbD 63 ∧ t.host.hq[q].part = v.toNat / 2 ^ 59 % 16 ∧ t.host.hq[q].pasid = v.toNat / 2 ^ 20 % 2 ^ 20 ∧
      t.host.hq[q].lerr = (s.host.hq[q].lerr && !v.getLsbD 58) ∧ ∀ r : Fin 64, r ≠ q → t.host.hq[r] = s.host.hq[r]) ∧
    (s.romWaits = false → ∃ t, exec (.bootwinWrite v) s = .next t ∧ t.host.bootwinBase = v.toNat / 4096 * 4096 ∧ t.host.bootwinV = v.getLsbD 0 ∧
      t.cores = s.cores) ∧
    (∀ h : HostCmd, ((s.hq q.val).v = false ∨ (s.part (s.hq q.val).part).state ≠ 1 → exec (.hostQueueCommand q h) s = .next s) ∧
      ((s.hq q.val).v = true → (s.part (s.hq q.val).part).state = 1 → ∃ t r, exec (.hostQueueCommand q h) s = .next t ∧ r ∈ t.host.runs ∧ r.q = q.val ∧ r.cmd = h ∧
        r.done = 0 ∧ t.host.nextRun = s.host.nextRun + 1)) ∧
    (∀ r, s.hostHeads.find? (fun h => s.copyOnQueue h.1 h.2.2 q.val) = none → s.host.runs.find? (fun r => r.q = q.val) = some r →
      ∃ t, exec (.hostLinkError q) s = .next t ∧ t.host.hq[q].lerr = true ∧ (∀ o ∈ t.host.runs, o.num ≠ r.num) ∧
        t.host.msix = s.host.msix ++ [((s.hq q.val).part + 1, 1)]) ∧
    (∀ pasid addr, ∃ t, exec (.atsInvalidation pasid addr) s = .next t ∧ (∀ e ∈ t.hist, e.host = true → e.addr / 4096 = hostKey pasid addr / 4096 →
      ∃ n, e.allAt = some n ∧ n ≤ s.cycle) ∧ t.mem = s.mem ∧ t.hostMem = s.hostMem ∧ t.cores = s.cores) ∧
    (s.host.areqGo = true → s.host.fwdig.length = 64 → s.host.nonce.length = 32 → ∃ t, exec .areqGo s = .next t ∧ t.host.areqGo = false ∧ t.host.areqDone = true ∧
      t.host.arep.length = 320 ∧ t.host.arep.take 64 = s.host.fwdig ∧ (t.host.arep.drop 80).take 32 = s.host.nonce) ∧
    (∀ on, ∃ t, exec (.thermalThrottle on) s = .next t ∧ t = { s with host := { s.host with thr := on } }) ∧
    (s.host.power = 3 → ∃ t, exec .powerStateD3hot s = .next t ∧ t.host.power = 0 ∧ t.cores = s.cores) ∧
    (s.host.power ≠ 3 → (∀ n : PartId, s.mg.parts[n].state = 0) → ∃ t, exec .powerStateD3hot s = .next t ∧ t.host.power = 3 ∧ t.cores = s.cores) ∧
    (s.sampleDue = true → ∃ t, exec .sampleTick s = .next t ∧ t.obs.sampAt = s.obs.sampAt + 2 ^ s.obs.sampPer ∧ ∀ c x, (t.ctx c x).s = (s.ctx c x).s) ∧
    (∃ t, exec .windowSummary s = .next t ∧ t.obs.windowAt = s.micros ∧ ∀ (n : Fin 8) (rc : Fin 3) (w : Nat), (s.grant c x).v = true → s.partOf c x = p.val →
      (s.part p.val).state = 1 → (∀ r : PartId, r ≠ p → (s.part r.val).state ≠ 1) → s.gran p.val 1 rc.val (vget (s.ctx c x).cntsel n.val 0 % 256) = (3, w) →
      s.obs.windowAt / 2 ^ w < s.micros / 2 ^ w → cntListed (vget (s.ctx c x).cntsel n.val 0 % 256) = true → ((t.ctx c x).cntWin[n])[rc] = vget (s.ctx c x).cnt n.val 0)

/-! ### Reset and the invariant -/

/-- POWER_ON_RESET, and a thermal shutdown, run the boot ROM: an accepted flash image stands at device-physical 0, and context 0 of core 0 runs its
entry at PL 3 with FWVER and FWDIG set; with another image BOOTST names the error and nothing runs the flash. Right after reset every context is
EMPTY but context 0 of core 0, every partition FREE, nothing granted, and the registers hold the values the spec gives for reset. Values the spec
does not give for reset, and the firmware image, are the model's choice (assumption logs 1, 3 and 6). -/
def Obligations.ResetAndBoot : Prop :=
  State.reset.memOk ∧
  (State.reset.host.stage = 0 ∧ State.reset.mg.slice = 850000 ∧ State.reset.mg.rtmo = 85000 ∧ State.reset.disp.age = 20 ∧ State.reset.col.dport = 0xD4A0 ∧
    State.reset.host.tthr = 100 ∧ State.reset.col.carbp = 0x1F) ∧
  (∀ (c : CoreId) (x : CtxId), (State.reset.ctx c x).phase = (if c = 0 ∧ x = 0 then .running else .empty) ∧ (State.reset.grant c x).v = false ∧
    (State.reset.ctx c x).slipwin = 256 ∧ (State.reset.ctx c x).saecfg = 7 ∧ (State.reset.ctx c x).obsLsz = 12 ∧
    (State.reset.ctx c x).pl = if c = 0 ∧ x = 0 then 3 else 0) ∧
  (∀ p : PartId, (State.reset.part p.val).state = 0) ∧ (∀ (c : CoreId) (f : FlagNo), (State.reset.core c).flags[f] = 0) ∧
  ∀ s : State, exec .thermalShutdown s = exec .powerOnReset s ∧ ∃ t, exec .powerOnReset s = .next t ∧
    if fwCheck s.host.flash = 0 then (t.ctx 0 0).phase = .running ∧ (t.ctx 0 0).pl = 3 ∧ (t.ctx 0 0).walk.pc = 0 ∧
      (∀ i, i + 192 < s.host.flash.length → t.byte i = s.host.flash.getD i 0) ∧ t.host.fwver = leNat (s.host.flash.drop (s.host.flash.length - 8)) % 2 ^ 32 ∧
      t.host.bootsrc = false
    else t.host.booterr = fwCheck s.host.flash ∧ t.host.stage = 0 ∧ t.mem = [] ∧ ∀ (c : CoreId) (x : CtxId), ¬(c = 0 ∧ x = 0) → (t.ctx c x).phase = .empty

/-- Every step keeps both byte memories in their canonical form, from every state that has it: addresses rising, and no entry that equals what an
unlisted address reads as (assumption log 2). -/
def Obligations.EveryStepKeepsMemOk : Prop := ∀ s t : State, s.memOk → step s = .next t → t.memOk
end

