-- ==== Sys2Proof/Laws/CanonOps.lean ====
section
/-! SUPPORT. Sys2Proof/Laws/CanonOps.lean: the byte memories keep their canonical form (`MemsOk`) through memories, translation, records, tasks, traps: an operation
that writes no memory leaves `mems` as it is (`_mems`), one that writes keeps the form (`_ok`), and so does what a meaning answers
(`_out`). -/

set_option Elab.async false

set_option linter.unusedSimpArgs false

namespace Sys2Proof.Machine

/-! ### State -/

@[simp] theorem mems_mk (a : Vector Core 128) (m : Mem) (k : List (Nat × Nat)) (hm : Mem) (h : List HistEntry) (b : List Nat) (d : Disp) (co : Col) (mg : Mgmt)
  (o : Obs) (ho : HostIf) (sv : List Saved) (st : List (Nat × FTable)) (ck : List Ckpt) (cy tu : Nat) (cu : Agent) (fr : Nat) (inp : List (Nat × Input)) :
  (State.mk a m k hm h b d co mg o ho sv st ck cy tu cu fr inp).mems = (m, hm) := rfl

@[simp] theorem mems_fold (s : State) : (s.mem, s.hostMem) = s.mems := rfl

theorem swf_mono {w : Nat} {a b : Nat} (h : a ≤ b) (m : List (Nat × BitVec w)) (hm : swf b m = true) : swf a m = true := by
  cases m with
  | nil => rfl
  | cons p r =>
    simp only [swf, Bool.and_eq_true, decide_eq_true_eq] at hm ⊢
    exact ⟨⟨Nat.le_trans h hm.1.1, hm.1.2⟩, hm.2⟩

theorem swf_filter {w : Nat} (m : List (Nat × BitVec w)) (p : Nat × BitVec w → Bool) (lo : Nat) (hm : swf lo m = true) : swf lo (m.filter p) = true := by
  induction m generalizing lo with
  | nil => rfl
  | cons q r ih =>
    simp only [swf, Bool.and_eq_true, decide_eq_true_eq] at hm
    rw [List.filter_cons]
    split
    · simp only [swf, Bool.and_eq_true, decide_eq_true_eq]; exact ⟨hm.1, ih _ hm.2⟩
    · exact swf_mono (by omega) _ (ih _ hm.2)

theorem swf_sput {w : Nat} (m : List (Nat × BitVec w)) (lo a : Nat) (v : BitVec w) (hm : swf lo m = true) (hlo : lo ≤ a) (hv : v ≠ 0)
    (ha : ∀ q ∈ m, q.1 ≠ a) : swf lo (sput m a v) = true := by
  induction m generalizing lo with
  | nil => simp only [sput, swf, Bool.and_eq_true, decide_eq_true_eq]; exact ⟨⟨hlo, hv⟩, trivial⟩
  | cons p r ih =>
    simp only [swf, Bool.and_eq_true, decide_eq_true_eq] at hm
    simp only [sput]
    have hp := ha p (List.mem_cons_self ..)
    split
    · simp only [swf, Bool.and_eq_true, decide_eq_true_eq]
      exact ⟨⟨hlo, hv⟩, ⟨by omega, hm.1.2⟩, hm.2⟩
    · simp only [swf, Bool.and_eq_true, decide_eq_true_eq]
      exact ⟨hm.1, ih _ hm.2 (by omega) fun q hq => ha q (List.mem_cons_of_mem _ hq)⟩

theorem swf_sset {w : Nat} (m : List (Nat × BitVec w)) (lo a : Nat) (v : BitVec w) (hm : swf lo m = true) (hlo : lo ≤ a) :
    swf lo (sset m a v) = true := by
  simp only [sset]
  split
  · exact swf_filter _ _ _ hm
  · exact swf_sput _ _ _ _ (swf_filter _ _ _ hm) hlo ‹_› fun q hq => by simpa using (List.mem_filter.1 hq).2

theorem sget_filter {w : Nat} (m : List (Nat × BitVec w)) (p : Nat → Bool) (a : Nat) :
    sget (m.filter fun q => p q.1) a = if p a then sget m a else 0 := by
  induction m with
  | nil => simp [sget]
  | cons q r ih =>
    rw [List.filter_cons]
    by_cases h : a = q.1
    · subst h
      by_cases hp : p q.1 = true
      · simp [sget, hp]
      · simp [hp, ih]
    · by_cases hp : p q.1 = true
      · simp only [hp, if_true, sget, h, if_false, ih]
      · simp [sget, h, hp, ih]

theorem sget_sput {w : Nat} (m : List (Nat × BitVec w)) (a b : Nat) (v : BitVec w) (ha : ∀ q ∈ m, q.1 ≠ a) :
    sget (sput m a v) b = if b = a then v else sget m b := by
  induction m with
  | nil => simp [sput, sget]
  | cons q r ih =>
    have hq := ha q (List.mem_cons_self ..)
    have hr := ih fun x hx => ha x (List.mem_cons_of_mem _ hx)
    simp only [sput]
    split
    · simp [sget]
    · simp only [sget, hr]
      by_cases h : b = q.1
      · subst h; simp [hq]
      · simp [h]

/-- Read after write, in any sparse memory. -/
theorem sget_sset {w : Nat} (m : List (Nat × BitVec w)) (a b : Nat) (v : BitVec w) : sget (sset m a v) b = if b = a then v else sget m b := by
  have hf : sget (m.filter fun q => q.1 ≠ a) b = if b = a then 0 else sget m b := by
    have := sget_filter m (fun k => decide (k ≠ a)) b
    rw [this]; by_cases h : b = a <;> simp [h]
  simp only [sset]
  split
  · rw [hf]; by_cases h : b = a <;> simp [h, *]
  · rw [sget_sput _ _ _ _ fun q hq => by simpa using (List.mem_filter.1 hq).2, hf]
    by_cases h : b = a <;> simp [h]

theorem sset_wf (m : Mem) (a : Nat) (v : Byte) (hm : m.wf = true) : Mem.wf (sset m a v) = true := swf_sset m 0 a v hm (Nat.zero_le _)

theorem ssetBytes_wf (m : Mem) (a : Nat) (bs : List Byte) (hm : m.wf = true) : (ssetBytes m a bs).wf = true := by
  induction bs generalizing m a with
  | nil => exact hm
  | cons b bs ih => exact ih _ _ (sset_wf _ _ _ hm)

theorem foldl_ind {α β : Type} (P : β → Prop) (f : β → α → β) (h : ∀ b a, P b → P (f b a)) (l : List α) (b : β) (hb : P b) : P (l.foldl f b) := by
  induction l generalizing b with
  | nil => exact hb
  | cons a l ih => exact ih _ (h _ _ hb)

theorem foldl_mems {α : Type} (f : State → α → State) (h : ∀ s a, (f s a).mems = s.mems) (l : List α) (s : State) : (l.foldl f s).mems = s.mems := by
  induction l generalizing s with
  | nil => rfl
  | cons a l ih => simp [ih, h]

theorem foldl_ok {α : Type} (f : State → α → State) (h : ∀ s a, MemsOk s.mems → MemsOk (f s a).mems) (l : List α) (s : State) (hs : MemsOk s.mems) :
    MemsOk (l.foldl f s).mems := by
  induction l generalizing s with
  | nil => exact hs
  | cons a l ih => exact ih _ (h _ _ hs)

theorem foldl_ok2 {α β : Type} (f : β × State → α → β × State) (h : ∀ p a, MemsOk p.2.mems → MemsOk (f p a).2.mems) (l : List α) (p : β × State)
    (hp : MemsOk p.2.mems) : MemsOk (l.foldl f p).2.mems := foldl_ind (fun (p : β × State) => MemsOk p.2.mems) f h l p hp

theorem foldl_ok3 {α β γ : Type} (f : β × State × γ → α → β × State × γ) (h : ∀ p a, MemsOk p.2.1.mems → MemsOk (f p a).2.1.mems) (l : List α)
    (p : β × State × γ) (hp : MemsOk p.2.1.mems) : MemsOk (l.foldl f p).2.1.mems :=
  foldl_ind (fun (p : β × State × γ) => MemsOk p.2.1.mems) f h l p hp

theorem foldl_ok1 {α γ : Type} (f : State × γ → α → State × γ) (h : ∀ p a, MemsOk p.1.mems → MemsOk (f p a).1.mems) (l : List α)
    (p : State × γ) (hp : MemsOk p.1.mems) : MemsOk (l.foldl f p).1.mems := foldl_ind (fun (p : State × γ) => MemsOk p.1.mems) f h l p hp

theorem foldl_eq2 {α β : Type} (f : β × State → α → β × State) (h : ∀ p a, (f p a).2.mems = p.2.mems) (l : List α) (p : β × State) :
    (l.foldl f p).2.mems = p.2.mems :=
  foldl_ind (fun (r : β × State) => r.2.mems = p.2.mems) f (fun b a hb => (h b a).trans hb) l p rfl

theorem ite_ok {c : Prop} [Decidable c] {a b : State} (ha : MemsOk a.mems) (hb : MemsOk b.mems) : MemsOk (if c then a else b).mems := by
  split <;> assumption

theorem ite_ok2 {α : Type} {c : Prop} [Decidable c] {a b : α × State} (ha : MemsOk a.2.mems) (hb : MemsOk b.2.mems) : MemsOk (if c then a else b).2.mems := by
  split <;> assumption

theorem ite_mems {c : Prop} [Decidable c] {a b : State} {m : Mem × Mem} (ha : a.mems = m) (hb : b.mems = m) : (if c then a else b).mems = m := by
  split <;> assumption

theorem ite_mems2 {α : Type} {c : Prop} [Decidable c] {a b : α × State} {m : Mem × Mem} (ha : a.2.mems = m) (hb : b.2.mems = m) :
    (if c then a else b).2.mems = m := by
  split <;> assumption

/-- What a meaning answers keeps the canonical form. -/
def OutOk (o : Host.Outcome State Fault Refusal) : Prop := ∀ t, o = .next t → MemsOk t.mems

@[simp] theorem out_next (t : State) : OutOk (.next t) ↔ MemsOk t.mems := by simp [OutOk]

@[simp] theorem out_fault (f : Fault) : OutOk (.fault f) := by simp [OutOk]

@[simp] theorem out_refused (f : Refusal) : OutOk (.refused f) := by simp [OutOk]

theorem out_ite {c : Prop} [Decidable c] {a b : Host.Outcome State Fault Refusal} (ha : OutOk a) (hb : OutOk b) : OutOk (if c then a else b) := by
  split <;> assumption

/-! ### Access -/

@[simp] theorem State.modCore_mems (s : State) (c : CoreId) (f : Core → Core) : (State.modCore s c f).mems = s.mems := by
  rfl

@[simp] theorem State.modCtx_mems (s : State) (c : CoreId) (x : CtxId) (f : Ctx → Ctx) : (State.modCtx s c x f).mems = s.mems := by
  rfl

@[simp] theorem State.modMyCore_mems (s : State) (f : Core → Core) : (State.modMyCore s f).mems = s.mems := by
  rfl

@[simp] theorem State.modMe_mems (s : State) (f : Ctx → Ctx) : (State.modMe s f).mems = s.mems := by
  rfl

@[simp] theorem State.wrS_mems (s : State) (r : SReg) (v : Word) : (State.wrS s r v).mems = s.mems := by
  rfl

@[simp] theorem State.wrH_mems (s : State) (r : HReg) (v : Header) : (State.wrH s r v).mems = s.mems := by
  rfl

@[simp] theorem State.skipFresh_mems (s : State) (n : Nat) : (State.skipFresh s n).mems = s.mems := by
  rfl

@[simp] theorem State.pushFlag_mems (s : State) (c : CoreId) (u : FlagUpd) : (State.pushFlag s c u).mems = s.mems := by
  rfl

@[simp] theorem State.complFlag_mems (s : State) (c : CoreId) (x : CtxId) (tag : Nat) (fe : Bool) (f : FlagNo) : (State.complFlag s c x tag fe f).mems = s.mems := by
  simp only [State.complFlag]; (repeat' split) <;> (simp_all [foldl_mems]; done)

@[simp] theorem State.count_mems (s : State) (c : CoreId) (x : CtxId) (e n : Nat) : (State.count s c x e n).mems = s.mems := by
  simp only [State.count]; (repeat' split) <;> (simp_all [foldl_mems]; done)

@[simp] theorem State.issued_mems (s : State) : (State.issued s).mems = s.mems := by
  simp only [State.issued]; (repeat' split) <;> (simp_all [foldl_mems]; done)

@[simp] theorem State.jumpTo_mems (s : State) (pc : Nat) : (State.jumpTo s pc).mems = s.mems := by
  rfl

@[simp] theorem State.modPart_mems (s : State) (p : Nat) (f : Part → Part) : (State.modPart s p f).mems = s.mems := by
  rfl

@[simp] theorem State.mgmtIrq_mems (s : State) : (State.mgmtIrq s).mems = s.mems := by
  rfl

/-! ### Memory -/

@[simp] theorem State.setKey_mems (s : State) (pa key : Nat) : (State.setKey s pa key).mems = s.mems := by
  rfl

@[simp] theorem State.readMem_mems (s : State) (host : Bool) (u : UnitId) (cls : Nat) (q : Acq) (atomic : Bool) (a n : Nat) : (State.readMem s host u cls q atomic a n).2.mems = s.mems := by
  simp only [State.readMem]; split <;> rfl

@[simp] theorem State.readLatest_mems (s : State) (u : UnitId) (cls a n : Nat) : (s.readLatest u cls a n).2.mems = s.mems := rfl

@[simp] theorem State.sealClasses_mems (s : State) (c : CoreId) (x : CtxId) (l : List Nat) : (s.sealClasses c x l).mems = s.mems := rfl

@[simp] theorem State.writeByte_ok (s : State) (host : Bool) (u : UnitId) (cls tag pick a : Nat) (v : Byte) (hok : MemsOk s.mems) :
    MemsOk (s.writeByte host u cls tag pick a v).mems := by
  unfold State.writeByte
  extract_lets m e
  split
  · exact hok
  · refine ite_ok ?_ ?_
    · exact ⟨hok.dram, sset_wf _ _ _ hok.host⟩
    · exact ⟨sset_wf _ _ _ hok.dram, hok.host⟩

@[simp] theorem State.writeMem_ok (s : State) (host : Bool) (u : UnitId) (cls a : Nat) (bs : List Byte) (hok : MemsOk s.mems) :
    MemsOk (s.writeMem host u cls a bs).mems := by
  unfold State.writeMem
  extract_lets tag s1 s2
  have h2 : MemsOk s2.mems := foldl_ok _ (fun t p h => State.writeByte_ok _ _ _ _ _ _ _ _ h) _ _ hok
  exact ite_ok h2 h2

@[simp] theorem State.settleHost_mems (s : State) (t : Nat) : (State.settleHost s t).mems = s.mems := by
  rfl

/-! ### Translate -/

@[simp] theorem State.keyFaultAt_mems (s : State) (c : CoreId) (x : CtxId) (haddr va gpa pa akey path : Nat) (wr : Bool) :
    (s.keyFaultAt c x haddr va gpa pa akey path wr).mems = s.mems := rfl

@[simp] theorem State.keyFault_mems (s : State) (c : CoreId) (x : CtxId) (haddr va pa akey path : Nat) (wr : Bool) :
    (s.keyFault c x haddr va pa akey path wr).mems = s.mems := rfl

@[simp] theorem State.softErr_mems (s : State) (c : CoreId) (x : CtxId) (pa path : Nat) : (s.softErr c x pa path).mems = s.mems := rfl

@[simp] theorem State.readStruck_mems (s : State) (c : CoreId) (x : CtxId) (path : Nat) (rd : List (Nat × Nat)) :
    (s.readStruck c x path rd).mems = s.mems := by
  simp only [State.readStruck]; split <;> simp

@[simp] theorem State.noteTouches_mems (s : State) (c : CoreId) (x : CtxId) (haddr va path : Nat) (l : List Touch) :
    (s.noteTouches c x haddr va path l).mems = s.mems := by
  unfold State.noteTouches
  refine foldl_mems _ (fun t q => ?_) _ _
  split
  · rfl
  · split <;> rfl

@[simp] theorem State.tlbAdd_mems (s : State) (c : CoreId) (t : TlbSel) (e : TlbEntry) : (s.tlbAdd c t e).mems = s.mems := by
  simp only [State.tlbAdd]; split
  · rfl
  · split <;> rfl

@[simp] theorem State.translate_mems (s : State) (c : CoreId) (x : CtxId) (t : TlbSel) (haddr va : Nat) (d : Dir) :
    (s.translate c x t haddr va d).2.mems = s.mems := by
  simp only [State.translate]; (repeat' split) <;> (simp_all [foldl_mems]; done)

@[simp] theorem State.handle_mems (s : State) (c : CoreId) (x : CtxId) (h path : Nat) (wr : Bool) : (s.handle c x h path wr).2.mems = s.mems := by
  simp only [State.handle]; (repeat' split) <;> (simp_all [foldl_mems]; done)

@[simp] theorem State.freeBytes_mems (s : State) (n : Nat) : (State.freeBytes s n).2.mems = s.mems := by
  rfl

theorem fold2_mems {α β : Type} (f : β × State → α → β × State) (h : ∀ p a, (f p a).2.mems = p.2.mems) (l : List α) (p : β × State) (m : Mem × Mem)
    (hp : p.2.mems = m) : (l.foldl f p).2.mems = m := (foldl_eq2 f h l p).trans hp

@[simp] theorem State.readPhys_mems (s : State) (u : UnitId) (cls : Nat) (q : Acq) (atomic : Bool) (haddr va pa key n : Nat) :
    (State.readPhys s u cls q atomic haddr va pa key n).2.mems = s.mems := by
  unfold State.readPhys
  extract_lets keyed sound b s1 s2
  have h1 : s1.mems = s.mems := ite_mems rfl rfl
  have h2 : s2.mems = s.mems := ite_mems h1 h1
  split
  · rfl
  · split
    · simp
    · refine fold2_mems _ (fun p a => ?_) _ _ _ h2
      dsimp only
      split <;> simp

@[simp] theorem State.writePhys_ok (s : State) (u : UnitId) (cls haddr va pa key : Nat) (bs : List Byte) (hok : MemsOk s.mems) :
    MemsOk (State.writePhys s u cls haddr va pa key bs).mems := by
  unfold State.writePhys
  extract_lets keyed b s1
  refine ite_ok hok (ite_ok (by simp [hok]) (foldl_ok _ (fun t p h => ?_) _ _ hok))
  exact ite_ok (by simp [h]) h

@[simp] theorem State.spoilPhys_ok (s : State) (u : UnitId) (cls pa key n : Nat) (hok : MemsOk s.mems) :
    MemsOk (s.spoilPhys u cls pa key n).mems :=
  foldl_ok _ (fun t p h => ite_ok (State.writeMem_ok _ _ _ _ _ _ (by simpa using h)) h) _ _ hok

@[simp] theorem State.readVa_mems (s : State) (u : UnitId) (t : TlbSel) (cls : Nat) (q : Acq) (atomic : Bool) (haddr va n : Nat) :
    (s.readVa u t cls q atomic haddr va n).2.mems = s.mems := by
  refine foldl_ind (fun (p : _ × State) => p.2.mems = s.mems) _ ?_ _ _ rfl
  intro p a h
  try dsimp only
  (repeat' split) <;> (try simp only [Prod.ext_iff] at *) <;> (repeat cases ‹_ ∧ _›) <;> (try subst_vars) <;> simp_all

@[simp] theorem State.probeVa_mems (s : State) (u : UnitId) (t : TlbSel) (haddr va n : Nat) (d : Dir) : (s.probeVa u t haddr va n d).2.mems = s.mems := by
  refine foldl_ind (fun (p : _ × State) => p.2.mems = s.mems) _ ?_ _ _ rfl
  intro p a h
  try dsimp only
  (repeat' split) <;> (try simp only [Prod.ext_iff] at *) <;> (repeat cases ‹_ ∧ _›) <;> (try subst_vars) <;> simp_all

@[simp] theorem State.writeVa_ok (s : State) (u : UnitId) (t : TlbSel) (cls haddr va : Nat) (bs : List Byte) (hok : MemsOk s.mems) :
    MemsOk (s.writeVa u t cls haddr va bs).2.mems := by
  refine foldl_ind (fun (p : _ × State) => MemsOk p.2.mems) _ ?_ _ _ hok
  intro p a h
  try dsimp only
  (repeat' split) <;> (try simp only [Prod.ext_iff] at *) <;> (repeat cases ‹_ ∧ _›) <;> (try subst_vars) <;> simp_all

@[simp] theorem State.fetchText_mems (s : State) (c : CoreId) (x : CtxId) (off : Nat) : (State.fetchText s c x off).2.mems = s.mems := by
  simp only [State.fetchText]; (repeat' split) <;> (try simp only [Prod.ext_iff] at *) <;> (repeat cases ‹_ ∧ _›) <;> (try subst_vars) <;> (simp_all [foldl_mems]; done)

/-! ### Disclose -/

theorem ringOne_ok (wr : State → Nat → List Byte → Option State) (hw : ∀ s o b t, MemsOk s.mems → wr s o b = some t → MemsOk t.mems)
    (dws : List Nat) (p : Ring × State) (hok : MemsOk p.2.mems) : MemsOk (ringOne wr dws p).2.mems := by
  simp only [ringOne]
  repeat' split
  · exact hok
  · exact hok
  · exact hw _ _ _ _ hok ‹_›

theorem ringPut_ok (wr : State → Nat → List Byte → Option State) (hw : ∀ s o b t, MemsOk s.mems → wr s o b = some t → MemsOk t.mems)
    (dws : List Nat) (gt : Nat) (p : Ring × State) (hok : MemsOk p.2.mems) : MemsOk (ringPut wr dws gt p).2.mems := by
  simp only [ringPut]
  repeat' split
  all_goals first | exact hok | (repeat' (first | exact hok | apply ringOne_ok _ hw))

theorem physRing_ok (base : Nat) (c : CoreId) (x : CtxId) (s : State) (o : Nat) (b : List Byte) (t : State) (hok : MemsOk s.mems)
    (h : physRing base c x s o b = some t) : MemsOk t.mems := by
  simp only [physRing] at h
  split at h
  · cases h
  · cases h; exact State.writeMem_ok _ _ _ _ _ _ hok

theorem tenantRing_ok (w : Nat) (c : CoreId) (x : CtxId) (s : State) (o : Nat) (b : List Byte) (t : State) (hok : MemsOk s.mems)
    (h : tenantRing w c x s o b = some t) : MemsOk t.mems := by
  simp only [tenantRing] at h
  split at h
  · cases h
  · split at h
    · cases h
      have := State.writeVa_ok s (recUnit c x) none 0 (w + o) (‹HInfo›.base + haddrO (w + o)) b hok
      simp_all
    · cases h

@[simp] theorem State.putRecord_ok (s : State) (c : CoreId) (x : CtxId) (p rc : Nat) (dws : List Nat) (hok : MemsOk s.mems) :
    MemsOk (s.putRecord c x p rc dws).mems := by
  simp only [State.putRecord]
  repeat' split
  · simp only [State.modCtx_mems]; exact ringPut_ok _ (tenantRing_ok _ c x) _ _ _ hok
  · simp only [State.modPart_mems]; exact ringPut_ok _ (physRing_ok _ c x) _ _ _ hok
  · simp only [State.modPart_mems]; exact ringPut_ok _ (physRing_ok _ c x) _ _ _ hok

@[simp] theorem State.observe_ok (s : State) (c : CoreId) (x : CtxId) (p cls kind name : Nat) (pay : List (List RecField)) (sum : WSum)
    (hok : MemsOk s.mems) : MemsOk (s.observe c x p cls kind name pay sum).mems := by
  refine foldl_ind (fun (t : State) => MemsOk t.mems) _ ?_ _ _ hok
  intro t rc h
  try dsimp only
  split
  · exact h
  · split
    · simpa using h
    · exact State.putRecord_ok _ _ _ _ _ _ h

@[simp] theorem State.faultRecord_ok (s : State) (c : CoreId) (x : CtxId) (p name cause tag : Nat) (det : Vector Word 4) (hok : MemsOk s.mems) : MemsOk (State.faultRecord s c x p name cause tag det).mems := by
  simp [State.faultRecord, foldl_mems, *]

@[simp] theorem State.waitRecord_ok (s : State) (c : CoreId) (x : CtxId) (seq cyc flag setter score scope cond gate : Nat) (hok : MemsOk s.mems) : MemsOk (State.waitRecord s c x seq cyc flag setter score scope cond gate).mems := by
  simp [State.waitRecord, foldl_mems, *]

@[simp] theorem State.sampleRecord_ok (s : State) (c : CoreId) (x : CtxId) (tag seq hold : Nat) (hok : MemsOk s.mems) : MemsOk (State.sampleRecord s c x tag seq hold).mems := by
  simp [State.sampleRecord, foldl_mems, *]

@[simp] theorem State.taskRecord_ok (s : State) (c : CoreId) (x : CtxId) (p kind task : Nat) (hok : MemsOk s.mems) : MemsOk (State.taskRecord s c x p kind task).mems := by
  simp [State.taskRecord, foldl_mems, *]

/-! ### Tasks -/

@[simp] theorem State.modDp_mems (s : State) (p : Nat) (f : DispPart → DispPart) : (State.modDp s p f).mems = s.mems := by
  rfl

@[simp] theorem State.modTask_mems (s : State) (p num : Nat) (f : Task → Task) : (State.modTask s p num f).mems = s.mems := by
  rfl

@[simp] theorem State.modFut_mems (s : State) (p num : Nat) (g : Future → Future) : (State.modFut s p num g).mems = s.mems := by
  rfl

@[simp] theorem State.pendReport_mems (s : State) (c : CoreId) (x : CtxId) (w : Word) : (State.pendReport s c x w).mems = s.mems := by
  rfl

@[simp] theorem State.lossMark_mems (s : State) (p code : Nat) : (State.lossMark s p code).2.mems = s.mems := by
  rfl

@[simp] theorem State.homeReport_mems (s : State) (p code : Nat) : (State.homeReport s p code).mems = s.mems := by
  simp only [State.homeReport]; (repeat' split) <;> (simp_all [foldl_mems]; done)

@[simp] theorem State.report_mems (s : State) (p code : Nat) (dest : Option (CoreId × CtxId)) : (State.report s p code dest).mems = s.mems := by
  simp only [State.report]; (repeat' split) <;> (simp_all [foldl_mems]; done)

@[simp] theorem State.heldReport_mems (s : State) (c : CoreId) (x : CtxId) : (State.heldReport s c x).mems = s.mems := by
  simp only [State.heldReport]; (repeat' split) <;> (simp_all [foldl_mems]; done)

@[simp] theorem State.logAppend_ok (s : State) (p kind issuer task : Nat) (arg : Word) (digest desc : List Byte) (hok : MemsOk s.mems) : MemsOk (State.logAppend s p kind issuer task arg digest desc).mems := by
  simp only [State.logAppend]; (repeat' split) <;> (simp_all [foldl_mems]; done)

@[simp] theorem State.replayStop_mems (s : State) (p cause task : Nat) : (State.replayStop s p cause task).mems = s.mems := by
  rfl

@[simp] theorem State.replayPast_mems (s : State) (p : Nat) : (State.replayPast s p).mems = s.mems := by
  rfl

@[simp] theorem State.dispLog_ok (s : State) (p kind issuer task : Nat) (arg : Word) (digest desc : List Byte) (hok : MemsOk s.mems) : MemsOk (State.dispLog s p kind issuer task arg digest desc).2.mems := by
  simp only [State.dispLog]; (repeat' split) <;> (simp_all [foldl_mems]; done)

@[simp] theorem State.makeReady_mems (s : State) (p num level : Nat) : (State.makeReady s p num level).mems = s.mems := by
  rfl

@[simp] theorem State.countDown_mems (s : State) (p num : Nat) : (State.countDown s p num).mems = s.mems := by
  simp only [State.countDown]; (repeat' split) <;> (simp_all [foldl_mems]; done)

@[simp] theorem State.resolve_mems (s : State) (p num : Nat) (v : Word) (dest : Option (CoreId × CtxId)) : (State.resolve s p num v dest).mems = s.mems := by
  simp only [State.resolve]; (repeat' split) <;> (simp_all [foldl_mems]; done)

@[simp] theorem State.readImage_mems (s : State) (c : CoreId) (x : CtxId) (addr : Word) (n align : Nat) : (State.readImage s c x addr n align).2.mems = s.mems := by
  simp only [State.readImage]; (repeat' split) <;> (try simp only [Prod.ext_iff] at *) <;> (repeat cases ‹_ ∧ _›) <;> (try subst_vars) <;> (simp_all [foldl_mems]; done)

@[simp] theorem State.submitImage_ok (s : State) (c : CoreId) (x : CtxId) (p : Nat) (bs : List Byte) (addr : Word) (byFatt : Bool) (issuer : Nat) (dest : Option (CoreId × CtxId)) (hok : MemsOk s.mems) : MemsOk (State.submitImage s c x p bs addr byFatt issuer dest).2.mems := by
  simp only [State.submitImage]; (repeat' split) <;> (try simp only [Prod.ext_iff] at *) <;> (repeat cases ‹_ ∧ _›) <;> (try subst_vars) <;> (simp_all [foldl_mems]; done)

@[simp] theorem State.submit_ok (s : State) (c : CoreId) (x : CtxId) (p : Nat) (addr : Word) (byFatt : Bool) (issuer : Nat) (dest : Option (CoreId × CtxId)) (hok : MemsOk s.mems) : MemsOk (State.submit s c x p addr byFatt issuer dest).2.mems := by
  simp only [State.submit]; (repeat' split) <;> (try simp only [Prod.ext_iff] at *) <;> (repeat cases ‹_ ∧ _›) <;> (try subst_vars) <;> (simp_all [foldl_mems]; done)

@[simp] theorem State.freeDma_mems (s : State) (c : CoreId) (x : CtxId) : (State.freeDma s c x).mems = s.mems := by
  rfl

@[simp] theorem State.emptyCtx_ok (s : State) (c : CoreId) (x : CtxId) (hok : MemsOk s.mems) : MemsOk (State.emptyCtx s c x).mems := by
  unfold State.emptyCtx
  dsimp only
  split
  · exact hok
  · rw [foldl_mems _ (fun t w => by simp)]; exact hok

@[simp] theorem State.failTask_mems (s : State) (p num : Nat) : (State.failTask s p num).mems = s.mems := by
  simp [State.failTask, foldl_mems, *]

theorem foldEmpty_ok (l : List (CoreId × CtxId)) (s : State) (hok : MemsOk s.mems) :
    MemsOk (l.foldl (fun (t : State) m => t.emptyCtx m.1 m.2) s).mems := foldl_ok _ (fun s a h => by simp [h]) _ _ hok

@[simp] theorem State.requeueCtx_ok (s : State) (c : CoreId) (x : CtxId) (hok : MemsOk s.mems) : MemsOk (s.requeueCtx c x).mems := by
  simp only [State.requeueCtx]
  (repeat' split) <;> simp [hok, foldEmpty_ok]

@[simp] theorem State.abortCtx_ok (s : State) (c : CoreId) (x : CtxId) (hok : MemsOk s.mems) : MemsOk (s.abortCtx c x).mems := by
  simp only [State.abortCtx]
  (repeat' split) <;> simp [hok, foldEmpty_ok]

/-! ### Ops -/

@[simp] theorem State.rollFurOf_mems (s : State) (c : CoreId) (x : CtxId) (f : FCmd) : (s.rollFurOf c x f).mems = s.mems := rfl

@[simp] theorem State.beginStop_mems (s : State) (c : CoreId) (x : CtxId) (traps : List TrapRec) (clamp forced : Bool) (cuts : List (Nat × CutEntry)) : (State.beginStop s c x traps clamp forced cuts).mems = s.mems := by
  simp only [State.beginStop]; (repeat' split) <;> (simp_all [foldl_mems]; done)

@[simp] theorem State.raiseAt_mems (s : State) (c : CoreId) (x : CtxId) (r : TrapRec) (cuts : List (Nat × CutEntry)) : (State.raiseAt s c x r cuts).mems = s.mems := by
  simp only [State.raiseAt]; (repeat' split) <;> (simp_all [foldl_mems]; done)

@[simp] theorem State.raise_mems (s : State) (cause code level : Nat) (det : Vector Word 4) : (State.raise s cause code level det).mems = s.mems := by
  simp [State.raise, foldl_mems, *]

@[simp] theorem State.trapRange_mems (s : State) : (State.trapRange s).mems = s.mems := by
  simp [State.trapRange, foldl_mems, *]

@[simp] theorem State.trapDivide_mems (s : State) : (State.trapDivide s).mems = s.mems := by
  simp [State.trapDivide, foldl_mems, *]

@[simp] theorem State.trapFurEmpty_mems (s : State) (fn : Nat) : (State.trapFurEmpty s fn).mems = s.mems := by
  simp [State.trapFurEmpty, foldl_mems, *]

@[simp] theorem State.trapXlate_mems (s : State) (haddr : Nat) (f : XFault) (path : Nat) : (State.trapXlate s haddr f path).mems = s.mems := by
  unfold State.trapXlate; split <;> simp

@[simp] theorem State.trapHandles_mems (s : State) (ws : List Nat) (path : Nat) (wr : Bool) : (s.trapHandles ws path wr).mems = s.mems := by
  unfold State.trapHandles; split <;> simp

@[simp] theorem State.parkAt_mems (s : State) (c : CoreId) (x : CtxId) (l : Nat) (cut : Cut) (traps : List TrapRec) : (State.parkAt s c x l cut traps).mems = s.mems := by
  rfl

@[simp] theorem State.deliverAt_ok (s : State) (c : CoreId) (x : CtxId) (cut : Cut) (traps : List TrapRec) (n l : Nat) (hok : MemsOk s.mems) :
    MemsOk (s.deliverAt c x cut traps n l).mems := by
  induction n generalizing l with
  | zero => exact hok
  | succ n ih =>
    simp only [State.deliverAt]
    split
    · split
      · simpa using hok
      · exact ih _
    · split
      · simpa using hok
      · split
        · simpa using hok
        · simpa using hok

@[simp] theorem State.recordTrap_ok (s : State) (c : CoreId) (x : CtxId) (traps : List TrapRec) (hok : MemsOk s.mems) : MemsOk (State.recordTrap s c x traps).mems := by
  simp only [State.recordTrap]; (repeat' split) <;> (simp_all [foldl_mems]; done)

@[simp] theorem State.acquireFor_mems (s : State) (c : CoreId) (x : CtxId) (r : Option TrapRec) : (State.acquireFor s c x r).mems = s.mems := by
  simp only [State.acquireFor]; (repeat' split) <;> (simp_all [foldl_mems]; done)

@[simp] theorem State.rollBracket_mems (s : State) (c : CoreId) (x : CtxId) : (s.rollBracket c x).mems = s.mems := by
  simp only [State.rollBracket]; (repeat' split) <;> simp

@[simp] theorem State.recordStop_ok (s : State) (c : CoreId) (x : CtxId) (hok : MemsOk s.mems) : MemsOk (s.recordStop c x).mems := by
  unfold State.recordStop
  split
  · exact hok
  · extract_lets q k cut cand traps s0 s1 s2 syncLvl lvl
    have h0 : MemsOk s0.mems := ite_ok (by simpa using hok) hok
    have h2 : MemsOk s2.mems := by simp [s2, s1, h0]
    revert h2; generalize s2 = u; intro h2
    refine ite_ok (by simpa using h2) (ite_ok (by simpa using h2) (State.deliverAt_ok _ _ _ _ _ _ _ h2))

@[simp] theorem State.returnFrom_ok (s : State) (c : CoreId) (x : CtxId) (l : Nat) (hok : MemsOk s.mems) : MemsOk (State.returnFrom s c x l).mems := by
  simp only [State.returnFrom]; (repeat' split) <;> (simp_all [foldl_mems]; done)

@[simp] theorem State.hold_out (s : State) (hok : MemsOk s.mems) : OutOk (State.hold s) := by
  simp [State.hold, hok]

end Sys2Proof.Machine
end

