-- ==== Sys2Proof/Laws/CanonScalar.lean ====
section
/-! SUPPORT. Sys2Proof/Laws/CanonScalar.lean: the byte memories keep their canonical form (`MemsOk`) through the control core's words: an operation
that writes no memory leaves `mems` as it is (`_mems`), one that writes keeps the form (`_ok`), and so does what a meaning answers
(`_out`). -/

set_option Elab.async false

set_option linter.unusedSimpArgs false

namespace Sys2Proof.Machine

/-! ### Fetch -/

@[simp] theorem State.raiseFetch_mems (s : State) (cause sub : Nat) (idx : Nat) (w : Word) : (State.raiseFetch s cause sub idx w).mems = s.mems := by
  simp [State.raiseFetch, foldl_mems, *]

theorem State.fetchOne_mems (s : State) : (∀ t, s.fetchOne.1 = some t → t.mems = s.mems) ∧ s.fetchOne.2.mems = s.mems := by
  unfold State.fetchOne
  extract_lets c x t k i take
  have htake : ∀ (u : State) (e : SEntry), (∀ v, (take u e).1 = some v → v.mems = u.mems) ∧ (take u e).2.mems = u.mems := by
    intro u e
    simp only [take]
    split
    · split
      · exact ⟨fun _ h => (by cases h), by simp⟩
      · exact ⟨fun _ h => (by cases h), rfl⟩
    · split
      · exact ⟨fun _ h => (by cases h), rfl⟩
      · exact ⟨fun v h => (by cases h; simp), rfl⟩
  have none_ok : ∀ u : State, u.mems = s.mems → (∀ v, ((none, u) : Option State × State).1 = some v → v.mems = s.mems) ∧
      ((none, u) : Option State × State).2.mems = s.mems := fun u hu => ⟨fun _ h => (by cases h), hu⟩
  split
  · exact none_ok _ rfl
  · split
    · exact htake _ _
    · split
      · exact none_ok _ rfl
      · have hf := State.fetchText_mems s c x k.walk.pc
        split
        · rename_i s1 h; rw [h] at hf
          refine none_ok _ ?_
          split
          · simpa using hf
          · exact hf
        · rename_i again s1 h; rw [h] at hf
          refine none_ok _ ?_
          split
          · exact hf
          · simpa using hf
        · rename_i f s1 h; rw [h] at hf
          refine none_ok _ ?_
          split
          · simpa using hf
          · exact hf
        · rename_i w s1 h; rw [h] at hf
          have hf1 : s1.mems = s.mems := hf
          split
          · split
            · split
              · exact ⟨fun v h => (by cases h; simpa using hf1), hf1⟩
              · exact none_ok _ hf1
            · split
              · exact ⟨fun v h => (by cases h; simpa using hf1), hf1⟩
              · refine none_ok _ ?_
                split
                · simpa using hf1
                · exact hf1
          · extract_lets s2
            split
            · exact ⟨fun v h => (by cases h; simpa [s2] using hf1), by simpa [s2] using hf1⟩
            · split
              · rename_i e _
                have := htake (s1.modMe fun k => k.gen w) e
                simp only [State.modMe_mems, hf1] at this
                exact this
              · exact none_ok _ (by simpa [s2] using hf1)

@[simp] theorem State.fetchN_mems (n : Nat) (s : State) : (State.fetchN n s).mems = s.mems := by
  induction n generalizing s with
  | zero => rfl
  | succ n ih =>
    have h1 := State.fetchOne_mems s
    simp only [State.fetchN]
    split
    · rename_i s1 _ h; rw [h] at h1; rw [ih]; exact h1.1 _ rfl
    · rename_i h; rw [h] at h1; exact h1.2

@[simp] theorem State.fetched_mems (s : State) : (State.fetched s).mems = s.mems := by
  rfl

@[simp] theorem execCursorFetch_out (c : CoreId) (x : CtxId) (t : Tag) (s : State) (hok : MemsOk s.mems) : OutOk (execCursorFetch c x t s) := by
  simp only [execCursorFetch, out_next, State.fetched_mems, State.fetchN_mems]
  exact hok

theorem State.reachAll_out (s : State) (i : Instr) (old : SEntry → Ctx → Ctx) (act : State → State) (ha : MemsOk (act s).mems) (hok : MemsOk s.mems) :
    OutOk (s.reachAll i old act) := by
  unfold State.reachAll
  extract_lets t k
  split
  · simp only [out_next, State.fetched_mems]
    split
    · exact ite_ok (by simpa using hok) hok
    · simpa using hok
  · refine out_ite ?_ ?_ <;> simp [ha]

@[simp] theorem State.badAll_mems (s : State) (i : Instr) (cause sub : Nat) : (State.badAll s i cause sub).mems = s.mems := by
  simp only [State.badAll]; (repeat' split) <;> (simp_all [foldl_mems]; done)

@[simp] theorem State.firstAll_mems (s : State) (i : Instr) (f : Ctx → Ctx) : (State.firstAll s i f).mems = s.mems := by
  simp only [State.firstAll]; (repeat' split) <;> (simp_all [foldl_mems]; done)

@[simp] theorem execLoop_out (nc : Fin 4) (ts : SReg) (st : Fin 8) (p : Bool) (s : State) (hok : MemsOk s.mems) : OutOk (execLoop nc ts st p s) := by
  unfold execLoop
  exact State.reachAll_out _ _ _ _ (by rw [State.firstAll_mems]; exact hok) hok

@[simp] theorem execLoope_out (nc : Fin 4) (s : State) (hok : MemsOk s.mems) : OutOk (execLoope nc s) := by
  unfold execLoope
  exact State.reachAll_out _ _ _ _ (by rw [State.firstAll_mems]; exact hok) hok

@[simp] theorem execRdv_out  (s : State) (hok : MemsOk s.mems) : OutOk (execRdv  s) := by
  unfold execRdv
  exact State.reachAll_out _ _ _ _ (by rw [State.firstAll_mems]; exact hok) hok

@[simp] theorem execStg_out (st : Fin 8) (s : State) (hok : MemsOk s.mems) : OutOk (execStg st s) := by
  unfold execStg
  exact State.reachAll_out _ _ _ _ (by rw [State.firstAll_mems]; exact hok) hok

@[simp] theorem execFork_out (mask : BitVec 6) (off : BitVec 30) (s : State) (hok : MemsOk s.mems) : OutOk (execFork mask off s) := by
  simp only [execFork]; (repeat' split) <;> (simp_all; done)

@[simp] theorem execJoin_out (s : State) (hok : MemsOk s.mems) : OutOk (execJoin s) := by
  simp only [execJoin]; (repeat' split) <;> (simp_all; done)

@[simp] theorem execNop_out (s : State) (hok : MemsOk s.mems) : OutOk (execNop s) := by
  simp [execNop, hok]

/-! ### Arith -/

@[simp] theorem State.alu2_out (s : State) (f : Word → Word → Word) (d a b : SReg) (hok : MemsOk s.mems) : OutOk (State.alu2 s f d a b) := by
  simp [State.alu2, hok]

@[simp] theorem State.aluImm_out (s : State) (f : Word → Word → Word) (d a : SReg) (imm : BitVec 30) (hok : MemsOk s.mems) : OutOk (State.aluImm s f d a imm) := by
  simp [State.aluImm, hok]

@[simp] theorem State.wrLate_mems (s : State) (r : SReg) (v : Word) (n : Nat) : (s.wrLate r v n).mems = s.mems := rfl

@[simp] theorem State.aluMul_out (s : State) (f : Word → Word → Word) (d a b : SReg) (hok : MemsOk s.mems) : OutOk (s.aluMul f d a b) := by
  simp [State.aluMul, hok]

@[simp] theorem State.aluDiv_out (s : State) (sg : Bool) (f : Word → Word → Word) (d a b : SReg) (hok : MemsOk s.mems) : OutOk (s.aluDiv sg f d a b) := by
  simp only [State.aluDiv]; (repeat' split) <;> (simp_all; done)

@[simp] theorem State.aluShift_out (s : State) (f : Word → Word → Word) (d a : SReg) (imm : BitVec 30) (hok : MemsOk s.mems) : OutOk (State.aluShift s f d a imm) := by
  simp only [State.aluShift]; (repeat' split) <;> (simp_all; done)

@[simp] theorem execAdd_out (d a b : SReg) (s : State) (hok : MemsOk s.mems) : OutOk (execAdd d a b s) := by
  simp [execAdd, hok]

@[simp] theorem execSub_out (d a b : SReg) (s : State) (hok : MemsOk s.mems) : OutOk (execSub d a b s) := by
  simp [execSub, hok]

@[simp] theorem execAnd_out (d a b : SReg) (s : State) (hok : MemsOk s.mems) : OutOk (execAnd d a b s) := by
  simp [execAnd, hok]

@[simp] theorem execOr_out (d a b : SReg) (s : State) (hok : MemsOk s.mems) : OutOk (execOr d a b s) := by
  simp [execOr, hok]

@[simp] theorem execXor_out (d a b : SReg) (s : State) (hok : MemsOk s.mems) : OutOk (execXor d a b s) := by
  simp [execXor, hok]

@[simp] theorem execSll_out (d a b : SReg) (s : State) (hok : MemsOk s.mems) : OutOk (execSll d a b s) := by
  simp [execSll, hok]

@[simp] theorem execSrl_out (d a b : SReg) (s : State) (hok : MemsOk s.mems) : OutOk (execSrl d a b s) := by
  simp [execSrl, hok]

@[simp] theorem execSra_out (d a b : SReg) (s : State) (hok : MemsOk s.mems) : OutOk (execSra d a b s) := by
  simp [execSra, hok]

@[simp] theorem execSlt_out (d a b : SReg) (s : State) (hok : MemsOk s.mems) : OutOk (execSlt d a b s) := by
  simp [execSlt, hok]

@[simp] theorem execSltu_out (d a b : SReg) (s : State) (hok : MemsOk s.mems) : OutOk (execSltu d a b s) := by
  simp [execSltu, hok]

@[simp] theorem execMin_out (d a b : SReg) (s : State) (hok : MemsOk s.mems) : OutOk (execMin d a b s) := by
  simp [execMin, hok]

@[simp] theorem execMax_out (d a b : SReg) (s : State) (hok : MemsOk s.mems) : OutOk (execMax d a b s) := by
  simp [execMax, hok]

@[simp] theorem execMinu_out (d a b : SReg) (s : State) (hok : MemsOk s.mems) : OutOk (execMinu d a b s) := by
  simp [execMinu, hok]

@[simp] theorem execMaxu_out (d a b : SReg) (s : State) (hok : MemsOk s.mems) : OutOk (execMaxu d a b s) := by
  simp [execMaxu, hok]

@[simp] theorem execMul_out (d a b : SReg) (s : State) (hok : MemsOk s.mems) : OutOk (execMul d a b s) := by
  simp [execMul, hok]

@[simp] theorem execMulh_out (d a b : SReg) (s : State) (hok : MemsOk s.mems) : OutOk (execMulh d a b s) := by
  simp [execMulh, hok]

@[simp] theorem execMulhu_out (d a b : SReg) (s : State) (hok : MemsOk s.mems) : OutOk (execMulhu d a b s) := by
  simp [execMulhu, hok]

@[simp] theorem execDiv_out (d a b : SReg) (s : State) (hok : MemsOk s.mems) : OutOk (execDiv d a b s) := by
  simp [execDiv, hok]

@[simp] theorem execDivu_out (d a b : SReg) (s : State) (hok : MemsOk s.mems) : OutOk (execDivu d a b s) := by
  simp [execDivu, hok]

@[simp] theorem execRem_out (d a b : SReg) (s : State) (hok : MemsOk s.mems) : OutOk (execRem d a b s) := by
  simp [execRem, hok]

@[simp] theorem execRemu_out (d a b : SReg) (s : State) (hok : MemsOk s.mems) : OutOk (execRemu d a b s) := by
  simp [execRemu, hok]

@[simp] theorem execAddi_out (d a : SReg) (imm : BitVec 30) (s : State) (hok : MemsOk s.mems) : OutOk (execAddi d a imm s) := by
  simp [execAddi, hok]

@[simp] theorem execAndi_out (d a : SReg) (imm : BitVec 30) (s : State) (hok : MemsOk s.mems) : OutOk (execAndi d a imm s) := by
  simp [execAndi, hok]

@[simp] theorem execOri_out (d a : SReg) (imm : BitVec 30) (s : State) (hok : MemsOk s.mems) : OutOk (execOri d a imm s) := by
  simp [execOri, hok]

@[simp] theorem execXori_out (d a : SReg) (imm : BitVec 30) (s : State) (hok : MemsOk s.mems) : OutOk (execXori d a imm s) := by
  simp [execXori, hok]

@[simp] theorem execSlli_out (d a : SReg) (imm : BitVec 30) (s : State) (hok : MemsOk s.mems) : OutOk (execSlli d a imm s) := by
  simp [execSlli, hok]

@[simp] theorem execSrli_out (d a : SReg) (imm : BitVec 30) (s : State) (hok : MemsOk s.mems) : OutOk (execSrli d a imm s) := by
  simp [execSrli, hok]

@[simp] theorem execSrai_out (d a : SReg) (imm : BitVec 30) (s : State) (hok : MemsOk s.mems) : OutOk (execSrai d a imm s) := by
  simp [execSrai, hok]

@[simp] theorem execSlti_out (d a : SReg) (imm : BitVec 30) (s : State) (hok : MemsOk s.mems) : OutOk (execSlti d a imm s) := by
  simp [execSlti, hok]

@[simp] theorem execSltiu_out (d a : SReg) (imm : BitVec 30) (s : State) (hok : MemsOk s.mems) : OutOk (execSltiu d a imm s) := by
  simp [execSltiu, hok]

@[simp] theorem execLil_out (d : SReg) (imm : BitVec 32) (s : State) (hok : MemsOk s.mems) : OutOk (execLil d imm s) := by
  simp [execLil, hok]

@[simp] theorem execLih_out (d : SReg) (imm : BitVec 32) (s : State) (hok : MemsOk s.mems) : OutOk (execLih d imm s) := by
  simp [execLih, hok]

/-! ### Branch -/

@[simp] theorem State.takeJump_mems (s : State) (pc : Nat) : (State.takeJump s pc).mems = s.mems := by
  rfl

@[simp] theorem State.branch_out (s : State) (taken : Bool) (off : BitVec 30) (hok : MemsOk s.mems) : OutOk (State.branch s taken off) := by
  simp only [State.branch]; (repeat' split) <;> (simp_all; done)

@[simp] theorem execBeq_out (a b : SReg) (off : BitVec 30) (s : State) (hok : MemsOk s.mems) : OutOk (execBeq a b off s) := by
  simp [execBeq, hok]

@[simp] theorem execBne_out (a b : SReg) (off : BitVec 30) (s : State) (hok : MemsOk s.mems) : OutOk (execBne a b off s) := by
  simp [execBne, hok]

@[simp] theorem execBlt_out (a b : SReg) (off : BitVec 30) (s : State) (hok : MemsOk s.mems) : OutOk (execBlt a b off s) := by
  simp [execBlt, hok]

@[simp] theorem execBge_out (a b : SReg) (off : BitVec 30) (s : State) (hok : MemsOk s.mems) : OutOk (execBge a b off s) := by
  simp [execBge, hok]

@[simp] theorem execBltu_out (a b : SReg) (off : BitVec 30) (s : State) (hok : MemsOk s.mems) : OutOk (execBltu a b off s) := by
  simp [execBltu, hok]

@[simp] theorem execBgeu_out (a b : SReg) (off : BitVec 30) (s : State) (hok : MemsOk s.mems) : OutOk (execBgeu a b off s) := by
  simp [execBgeu, hok]

@[simp] theorem execJal_out (d : SReg) (off : BitVec 30) (s : State) (hok : MemsOk s.mems) : OutOk (execJal d off s) := by
  simp only [execJal]; (repeat' split) <;> (simp_all; done)

@[simp] theorem execJalr_out (d a : SReg) (imm : BitVec 30) (s : State) (hok : MemsOk s.mems) : OutOk (execJalr d a imm s) := by
  simp only [execJalr]; (repeat' split) <;> (simp_all; done)

/-! ### Grants -/

@[simp] theorem State.cgrantWrite_mems (s : State) (c : CoreId) (x : CtxId) (v : Nat) : (State.cgrantWrite s c x v).mems = s.mems := by
  simp only [State.cgrantWrite]; (repeat' split) <;> (simp_all [foldl_mems]; done)

/-! ### ColBase -/

@[simp] theorem State.modConn_mems (s : State) (n : Nat) (f : Conn → Conn) : (State.modConn s n f).mems = s.mems := by
  simp only [State.modConn]; (repeat' split) <;> (simp_all [foldl_mems]; done)

@[simp] theorem State.modOp_mems (s : State) (p idx : Nat) (f : ColOp → ColOp) : (State.modOp s p idx f).mems = s.mems := by
  rfl

@[simp] theorem State.bucketSpoil_ok (s : State) (o : ColOp) (off n : Nat) (hok : MemsOk s.mems) : MemsOk (s.bucketSpoil o off n).mems := by
  unfold State.bucketSpoil
  exact foldl_ok _ (fun t p h => State.spoilPhys_ok _ _ _ _ _ _ h) _ _ hok

@[simp] theorem State.endOp_ok (s : State) (o : ColOp) (err : Nat) (hok : MemsOk s.mems) : MemsOk (s.endOp o err).mems := by
  simp only [State.endOp]; (repeat' split) <;> (simp_all [foldl_mems]; done)

@[simp] theorem State.clearConn_ok (s : State) (n err : Nat) (hok : MemsOk s.mems) : MemsOk (s.clearConn n err).mems := by
  simp only [State.clearConn, State.modConn_mems]
  exact foldl_ok _ (fun t o h => State.endOp_ok t o err h) _ _ hok

@[simp] theorem State.failConn_ok (s : State) (n : Nat) (hok : MemsOk s.mems) : MemsOk (s.failConn n).mems := by
  simp only [State.failConn, State.modConn_mems]
  exact foldl_ok _ (fun t o h => State.endOp_ok t o 2 h) _ _ hok

/-! ### Csr -/

@[simp] theorem execCsrr_out (d : SReg) (csr : BitVec 30) (s : State) (hok : MemsOk s.mems) : OutOk (execCsrr d csr s) := by
  simp only [execCsrr]; (repeat' split) <;> (simp_all; done)

@[simp] theorem execCsrw_out (a : SReg) (csr : BitVec 30) (s : State) (hok : MemsOk s.mems) : OutOk (execCsrw a csr s) := by
  simp only [execCsrw]; (repeat' split) <;> (simp_all; done)

@[simp] theorem execCsrx_out (d a : SReg) (csr : BitVec 30) (s : State) (hok : MemsOk s.mems) : OutOk (execCsrx d a csr s) := by
  simp only [execCsrx]; (repeat' split) <;> (simp_all; done)

@[simp] theorem execHdrw_out (d : HReg) (field : Fin 32) (a : SReg) (s : State) (hok : MemsOk s.mems) : OutOk (execHdrw d field a s) := by
  simp only [execHdrw]; (repeat' split) <;> (simp_all; done)

@[simp] theorem execHdrr_out (d : SReg) (a : HReg) (field : Fin 32) (s : State) (hok : MemsOk s.mems) : OutOk (execHdrr d a field s) := by
  simp only [execHdrr]; (repeat' split) <;> (simp_all; done)

/-! ### Regs -/

@[simp] theorem State.modDie_mems (s : State) (d i : Nat) (f : DieCnt → DieCnt) : (s.modDie d i f).mems = s.mems := rfl

@[simp] theorem State.dieCounts_mems (s : State) (d i : Nat) : (s.dieCounts d i).mems = s.mems := by
  simp only [State.dieCounts]; split <;> simp

@[simp] theorem State.powerCounts_mems (s : State) (p : Nat) : (s.powerCounts p).mems = s.mems := by
  simp [State.powerCounts]

@[simp] theorem State.dcntRead_mems (s : State) (d i rc : Nat) : (State.dcntRead s d i rc).2.mems = s.mems := by
  simp only [State.dcntRead]; (repeat' split) <;> (simp_all [foldl_mems]; done)

@[simp] theorem State.ppwrRead_mems (s : State) (p rc : Nat) : (State.ppwrRead s p rc).2.mems = s.mems := by
  rfl

@[simp] theorem State.blockRead_mems (s : State) (off rc : Nat) : (s.blockRead off rc).2.mems = s.mems := by
  unfold State.blockRead
  repeat' (first | with_reducible rfl | (with_reducible refine ite_mems2 ?_ ?_) | (simp; done) | (dsimp only; done) | (extract_lets _) | split)

@[simp] theorem State.pfloorWrite_mems (s : State) (p v : Nat) : (s.pfloorWrite p v).mems = s.mems := by
  unfold State.pfloorWrite
  split <;> simp

@[simp] theorem State.carbdWrite_mems (s : State) (v : Nat) : (State.carbdWrite s v).mems = s.mems := by
  simp only [State.carbdWrite]; (repeat' split) <;> (simp_all [foldl_mems]; done)

@[simp] theorem State.carbpWrite_mems (s : State) (v : Nat) : (State.carbpWrite s v).mems = s.mems := by
  simp only [State.carbpWrite]; (repeat' split) <;> (simp_all [foldl_mems]; done)

@[simp] theorem State.dselWrite_mems (s : State) (d i v : Nat) : (State.dselWrite s d i v).mems = s.mems := by
  rfl

@[simp] theorem State.gReady_mems (s : State) : (State.gReady s).mems = s.mems := by
  rfl

@[simp] theorem State.gAbort_ok (s : State) (hok : MemsOk s.mems) : MemsOk s.gAbort.mems := by
  unfold State.gAbort
  exact foldl_ok _ (fun t p h => State.clearConn_ok t p.1 4 h) _ _ (foldl_ok _ (fun t o h => State.endOp_ok t o 4 h) _ _ hok)

@[simp] theorem State.gstatWrite_ok (s : State) (v : Nat) (hok : MemsOk s.mems) : MemsOk (s.gstatWrite v).mems := by
  simp only [State.gstatWrite]
  refine ite_ok (State.gAbort_ok _ ?_) ?_ <;> (split <;> simpa using hok)

@[simp] theorem State.connWrite_ok (s : State) (n i v : Nat) (hok : MemsOk s.mems) : MemsOk (s.connWrite n i v).mems := by
  simp only [State.connWrite]; (repeat' split) <;> (simp_all [foldl_mems]; done)

@[simp] theorem State.pcmdWrite_mems (s : State) (v : Nat) : (State.pcmdWrite s v).mems = s.mems := by
  simp only [State.pcmdWrite]; (repeat' split) <;> (simp_all [foldl_mems]; done)

@[simp] theorem State.blockWrite_ok (s : State) (off v : Nat) (hok : MemsOk s.mems) : MemsOk (s.blockWrite off v).mems := by
  unfold State.blockWrite
  repeat' (first | with_reducible exact hok | (with_reducible refine ite_ok ?_ ?_) | (with_reducible refine State.gstatWrite_ok _ _ ?_) | (with_reducible refine State.connWrite_ok _ _ _ _ ?_) | (simp [hok]; done) | (with_reducible dsimp only; done) | dsimp only | split)

@[simp] theorem State.pf0Read_mems (s : State) (off : Nat) : (s.pf0Read off).2.mems = s.mems := by
  unfold State.pf0Read
  extract_lets h
  repeat' (first | with_reducible rfl | (with_reducible refine ite_mems2 ?_ ?_) | (simp; done) | (dsimp only; done) | (extract_lets _) | split)

@[simp] theorem State.hqcfgWrite_mems (s : State) (q v : Nat) : (State.hqcfgWrite s q v).mems = s.mems := by
  rfl

@[simp] theorem State.bootwinWrite_mems (s : State) (v : Nat) : (State.bootwinWrite s v).mems = s.mems := by
  rfl

@[simp] theorem State.areqWrite_mems (s : State) (v : Nat) : (State.areqWrite s v).mems = s.mems := by
  simp only [State.areqWrite]; (repeat' split) <;> (simp_all [foldl_mems]; done)

@[simp] theorem State.dbellWrite_mems (s : State) (p v : Nat) : (State.dbellWrite s p v).mems = s.mems := by
  simp only [State.dbellWrite]; (repeat' split) <;> (simp_all [foldl_mems]; done)

theorem setHost_ok (s : State) (h : HostIf) (hok : MemsOk s.mems) : MemsOk ({ s with host := h }).mems := hok

@[simp] theorem State.pf0Write_ok (s : State) (off v : Nat) (hok : MemsOk s.mems) : MemsOk (s.pf0Write off v).mems := by
  unfold State.pf0Write
  refine ite_ok hok (ite_ok (State.blockWrite_ok _ _ _ hok) (ite_ok (by rw [State.bootwinWrite_mems]; exact hok) (ite_ok ?a (ite_ok ?b
    (ite_ok (by rw [State.areqWrite_mems]; exact hok) (ite_ok ?c ?_))))))
  · exact setHost_ok _ _ hok
  · exact setHost_ok _ _ hok
  · exact setHost_ok _ _ hok
  split
  · exact ite_ok (by rw [State.hqcfgWrite_mems]; exact hok) hok
  · exact hok

@[simp] theorem State.vfWrite_mems (s : State) (p off v : Nat) : (State.vfWrite s p off v).mems = s.mems := by
  simp only [State.vfWrite]; (repeat' split) <;> (simp_all [foldl_mems]; done)

/-! ### LoadStore -/

theorem snd_mems {α : Type} {p : α × State} {a : α} {t : State} {m : Mem × Mem} (h : p = (a, t)) (hp : p.2.mems = m) : t.mems = m := by
  rw [h] at hp; exact hp

@[simp] theorem State.dramTarget_mems (s : State) (haddr va size : Nat) (d : Dir) : (s.dramTarget haddr va size d).2.mems = s.mems := by
  unfold State.dramTarget
  extract_lets n
  split
  · exact snd_mems ‹_› (State.translate_mems ..)
  · have h1 := snd_mems ‹_› (State.translate_mems ..)
    split
    · exact h1
    · split
      · exact (snd_mems ‹_› (State.translate_mems ..)).trans h1
      · exact (snd_mems ‹_› (State.translate_mems ..)).trans h1

@[simp] theorem State.target_mems (s : State) (a : Word) (imm : BitVec 30) (size : Nat) (wr : Bool) : (s.target a imm size wr).2.mems = s.mems := by
  unfold State.target
  extract_lets h off o
  split
  · rfl
  · split
    · rfl
    · split
      · rfl
      · split
        · rfl
        · split
          · exact snd_mems ‹_› (State.handle_mems ..)
          · exact snd_mems ‹_› (State.handle_mems ..)
          · have h1 := snd_mems ‹_› (State.handle_mems ..)
            split
            · exact h1
            · split
              · simpa using h1
              · split
                · dsimp only
                  split <;> exact h1
                · exact h1

@[simp] theorem State.loadDram_mems (s : State) (c : CoreId) (x : CtxId) (l : PendLoad) : (s.loadDram c x l).2.mems = s.mems := by
  unfold State.loadDram
  exact foldl_ind (fun (r : List Byte × State) => r.2.mems = s.mems) _ (fun r p h => by simpa using h) _ _ rfl

@[simp] theorem State.load_out (s : State) (size : Nat) (signed : Bool) (d a : SReg) (imm : BitVec 30) (hok : MemsOk s.mems) :
    OutOk (s.load size signed d a imm) := by
  unfold State.load
  extract_lets addr
  have ht := State.target_mems s addr imm size false
  split <;> (try have h1 := snd_mems ‹_› ht)
  · simpa using hok
  · simpa using hok
  · refine out_ite (by simpa [State.hold] using hok) ?_
    simpa [h1] using hok
  · refine out_ite (by simpa [State.hold] using hok) ?_
    simpa [h1] using hok
  · simpa [h1] using hok
  · simpa [h1] using hok

@[simp] theorem State.store_out (s : State) (size : Nat) (d a : SReg) (imm : BitVec 30) (hok : MemsOk s.mems) : OutOk (s.store size d a imm) := by
  unfold State.store
  extract_lets addr v
  have ht := State.target_mems s addr imm size true
  split <;> (try have h1 := snd_mems ‹_› ht)
  · simpa using hok
  · simpa using hok
  · refine out_ite (by simpa using hok) (out_ite (by simpa [State.hold] using hok) ?_)
    simpa [h1] using hok
  · refine out_ite (by simpa using hok) (out_ite (by simpa [State.hold] using hok) ?_)
    exact (out_next _).2 (State.blockWrite_ok _ _ _ (by simpa [h1] using hok))
  · simpa [h1] using hok
  · simpa [h1] using hok

@[simp] theorem execLdI8_out (d a : SReg) (imm : BitVec 30) (s : State) (hok : MemsOk s.mems) : OutOk (execLdI8 d a imm s) := by
  simp [execLdI8, hok]

@[simp] theorem execLdUi8_out (d a : SReg) (imm : BitVec 30) (s : State) (hok : MemsOk s.mems) : OutOk (execLdUi8 d a imm s) := by
  simp [execLdUi8, hok]

@[simp] theorem execLdI16_out (d a : SReg) (imm : BitVec 30) (s : State) (hok : MemsOk s.mems) : OutOk (execLdI16 d a imm s) := by
  simp [execLdI16, hok]

@[simp] theorem execLdUi16_out (d a : SReg) (imm : BitVec 30) (s : State) (hok : MemsOk s.mems) : OutOk (execLdUi16 d a imm s) := by
  simp [execLdUi16, hok]

@[simp] theorem execLdI32_out (d a : SReg) (imm : BitVec 30) (s : State) (hok : MemsOk s.mems) : OutOk (execLdI32 d a imm s) := by
  simp [execLdI32, hok]

@[simp] theorem execLdUi32_out (d a : SReg) (imm : BitVec 30) (s : State) (hok : MemsOk s.mems) : OutOk (execLdUi32 d a imm s) := by
  simp [execLdUi32, hok]

@[simp] theorem execLdI64_out (d a : SReg) (imm : BitVec 30) (s : State) (hok : MemsOk s.mems) : OutOk (execLdI64 d a imm s) := by
  simp [execLdI64, hok]

@[simp] theorem execStI8_out (r a : SReg) (imm : BitVec 30) (s : State) (hok : MemsOk s.mems) : OutOk (execStI8 r a imm s) := by
  simp [execStI8, hok]

@[simp] theorem execStI16_out (r a : SReg) (imm : BitVec 30) (s : State) (hok : MemsOk s.mems) : OutOk (execStI16 r a imm s) := by
  simp [execStI16, hok]

@[simp] theorem execStI32_out (r a : SReg) (imm : BitVec 30) (s : State) (hok : MemsOk s.mems) : OutOk (execStI32 r a imm s) := by
  simp [execStI32, hok]

@[simp] theorem execStI64_out (r a : SReg) (imm : BitVec 30) (s : State) (hok : MemsOk s.mems) : OutOk (execStI64 r a imm s) := by
  simp [execStI64, hok]

@[simp] theorem State.touchWatches_mems (s : State) (tag addr key : Nat) (bs : List Byte) (rel : Bool) :
    (s.touchWatches tag addr key bs rel).mems = s.mems := rfl

@[simp] theorem State.storeDram_ok (s : State) (c : CoreId) (x : CtxId) (st : PendStore) (hok : MemsOk s.mems) : MemsOk (s.storeDram c x st).mems := by
  unfold State.storeDram
  refine foldl_ok _ (fun t p h => ?_) _ _ hok
  rw [State.touchWatches_mems]
  exact State.writePhys_ok _ _ _ _ _ _ _ _ h

@[simp] theorem execCtlStorePerform_out (c : CoreId) (x : CtxId) (s : State) (hok : MemsOk s.mems) : OutOk (execCtlStorePerform c x s) := by
  unfold execCtlStorePerform
  split
  · exact (out_next _).2 hok
  · extract_lets s1
    exact out_ite ((out_next _).2 (State.storeDram_ok _ _ _ _ hok)) ((out_next _).2 hok)

@[simp] theorem execCtlLoadReturn_out (c : CoreId) (x : CtxId) (s : State) (hok : MemsOk s.mems) : OutOk (execCtlLoadReturn c x s) := by
  unfold execCtlLoadReturn
  split
  · exact (out_next _).2 hok
  · extract_lets s1
    refine out_ite ?_ ?_
    · rw [out_next, State.modCtx_mems, State.modCore_mems, State.loadDram_mems]
      exact hok
    · simpa [s1] using hok

end Sys2Proof.Machine
end

