-- ==== Sys2Proof/Laws/CanonEngines.lean ====
section
/-! SUPPORT. Sys2Proof/Laws/CanonEngines.lean: the byte memories keep their canonical form (`MemsOk`) through matrix, copy, vector and scatter-accumulate words: an operation
that writes no memory leaves `mems` as it is (`_mems`), one that writes keeps the form (`_ok`), and so does what a meaning answers
(`_out`). -/

set_option Elab.async false

set_option linter.unusedSimpArgs false

namespace Sys2Proof.Machine

/-! ### Matrix -/

@[simp] theorem State.mmaWord_out (s : State) (kind : Nat) (ovw dm : Bool) (h : HOp) (hok : MemsOk s.mems) : OutOk (State.mmaWord s kind ovw dm h) := by
  simp only [State.mmaWord]; (repeat' split) <;> (simp_all; done)

@[simp] theorem execMma_out (h : HOp) (ovw : Bool) (s : State) (hok : MemsOk s.mems) : OutOk (execMma h ovw s) := by
  simp [execMma, hok]

@[simp] theorem execMmat_out (h : HOp) (ovw : Bool) (s : State) (hok : MemsOk s.mems) : OutOk (execMmat h ovw s) := by
  simp [execMmat, hok]

@[simp] theorem execMmas_out (h : HOp) (ovw dm : Bool) (s : State) (hok : MemsOk s.mems) : OutOk (execMmas h ovw dm s) := by
  simp [execMmas, hok]

@[simp] theorem execMzero_out (h : HOp) (s : State) (hok : MemsOk s.mems) : OutOk (execMzero h s) := by
  simp only [execMzero]; (repeat' split) <;> (simp_all; done)

@[simp] theorem execMdrain_out (h : HOp) (rm : Fin 16) (s : State) (hok : MemsOk s.mems) : OutOk (execMdrain h rm s) := by
  simp only [execMdrain]; (repeat' split) <;> (simp_all; done)

@[simp] theorem State.mtxDone_mems (s : State) (c : CoreId) (m : MCmd) : (State.mtxDone s c m).mems = s.mems := by
  simp only [State.mtxDone]; (repeat' split) <;> (simp_all [foldl_mems]; done)

@[simp] theorem execMtxCommandComplete_out (c : CoreId) (s : State) (hok : MemsOk s.mems) : OutOk (execMtxCommandComplete c s) := by
  simp only [execMtxCommandComplete]; (repeat' split) <;> (try simp only [Prod.ext_iff] at *) <;> (repeat cases ‹_ ∧ _›) <;> (try subst_vars) <;> (try simp only [*, out_next, mems_mk, mems_fold, State.modCtx_mems, State.modCore_mems, State.modPart_mems]) <;> (repeat' (first | with_reducible assumption | with_reducible refine out_ite ?_ ?_ | with_reducible refine ite_ok ?_ ?_ | (with_reducible refine foldl_ok _ (fun _ _ _ => ?_) _ _ ?_) | (simp_all; done) | split))

/-! ### Copy -/

@[simp] theorem State.getRun_mems (s : State) (kc c : CoreId) (x : CtxId) (ch : ChNo) (cls : Nat) (q : Acq) (t : Tensor) (r i0 n : Nat) : (State.getRun s kc c x ch cls q t r i0 n).2.mems = s.mems := by
  simp only [State.getRun]; (repeat' split) <;> (try simp only [Prod.ext_iff] at *) <;> (repeat cases ‹_ ∧ _›) <;> (try subst_vars) <;> (simp_all [foldl_mems]; done)

@[simp] theorem State.putDram_ok (s : State) (u : UnitId) (sel : TlbSel) (cls haddr va lo n v : Nat) (hok : MemsOk s.mems) : MemsOk (State.putDram s u sel cls haddr va lo n v).2.mems := by
  simp only [State.putDram]; (repeat' split) <;> (try simp only [Prod.ext_iff] at *) <;> (repeat cases ‹_ ∧ _›) <;> (try subst_vars) <;> (simp_all [foldl_mems]; done)

@[simp] theorem State.putRun_ok (s : State) (kc c : CoreId) (x : CtxId) (ch : ChNo) (cls : Nat) (t : Tensor) (r i0 n v : Nat) (hok : MemsOk s.mems) : MemsOk (State.putRun s kc c x ch cls t r i0 n v).2.mems := by
  simp only [State.putRun]; (repeat' split) <;> (try simp only [Prod.ext_iff] at *) <;> (repeat cases ‹_ ∧ _›) <;> (try subst_vars) <;> (simp_all [foldl_mems]; done)

@[simp] theorem State.moveRuns_ok (c : CoreId) (ch : ChNo) (m : CCmd) (l : List (Nat × Nat × Nat)) (s : State) (hok : MemsOk s.mems) :
    MemsOk (s.moveRuns c ch m l).2.mems := by
  induction l generalizing s with
  | nil => exact hok
  | cons a rest ih =>
    obtain ⟨r, i0, n⟩ := a
    have hg := State.getRun_mems s c c m.ctx ch m.cls m.acq m.src r i0 n
    simp only [State.moveRuns]
    split
    · rename_i h; rw [h] at hg; rw [hg]; exact hok
    · rename_i s1 h; rw [h] at hg
      have hp := State.putRun_ok s1 (m.dstCore c) c m.ctx ch m.cls m.dst r i0 n ‹Nat› (by rw [hg]; exact hok)
      split
      · rename_i h2; rw [h2] at hp; exact hp
      · rename_i h2; rw [h2] at hp; exact ih _ hp

@[simp] theorem State.srcCode_mems (s : State) (c : CoreId) (ch : ChNo) (m : CCmd) (r i0 : Nat) : (State.srcCode s c ch m r i0).2.mems = s.mems := by
  simp only [State.srcCode]; (repeat' split) <;> (try simp only [Prod.ext_iff] at *) <;> (repeat cases ‹_ ∧ _›) <;> (try subst_vars) <;> (simp_all [foldl_mems]; done)

@[simp] theorem State.transformOne_ok (s : State) (c : CoreId) (ch : ChNo) (m : CCmd) (deltas : List (Nat × Nat)) (j : Nat) (hok : MemsOk s.mems) : MemsOk (State.transformOne s c ch m deltas j).2.1.mems := by
  simp only [State.transformOne]; (repeat' split) <;> (try simp only [Prod.ext_iff] at *) <;> (repeat cases ‹_ ∧ _›) <;> (try subst_vars) <;> (simp_all [foldl_mems]; done)

@[simp] theorem State.readDeltas_mems (s : State) (c : CoreId) (ch : ChNo) (m : CCmd) : (State.readDeltas s c ch m).2.mems = s.mems := by
  simp only [State.readDeltas]; (repeat' split) <;> (try simp only [Prod.ext_iff] at *) <;> (repeat cases ‹_ ∧ _›) <;> (try subst_vars) <;> (simp_all [foldl_mems]; done)

@[simp] theorem State.transform_ok (s : State) (c : CoreId) (ch : ChNo) (m : CCmd) (hok : MemsOk s.mems) :
    MemsOk (s.transform c ch m).2.1.mems := by
  have hr := State.readDeltas_mems s c ch m
  unfold State.transform
  split
  · rename_i h; rw [h] at hr; rw [hr]; exact hok
  · rename_i h; rw [h] at hr
    refine foldl_ok3 _ ?_ _ _ (by rw [hr]; exact hok)
    intro p a hp
    split
    · exact hp
    · exact State.transformOne_ok _ _ _ _ _ _ hp

@[simp] theorem State.spoilEdge_ok (s : State) (u : UnitId) (sel : TlbSel) (cls haddr va lo n : Nat) (hok : MemsOk s.mems) :
    MemsOk (s.spoilEdge u sel cls haddr va lo n).mems := by
  unfold State.spoilEdge
  split
  · exact hok
  · exact ite_ok (State.writeMem_ok _ _ _ _ _ _ (by simpa using hok)) hok

@[simp] theorem State.spoilVa_ok (s : State) (u : UnitId) (t : TlbSel) (cls haddr va n : Nat) (hok : MemsOk s.mems) :
    MemsOk (s.spoilVa u t cls haddr va n).mems := by
  unfold State.spoilVa
  refine foldl_ok _ (fun t p h => ?_) _ _ hok
  split
  · exact h
  · exact State.spoilPhys_ok _ _ _ _ _ _ h

@[simp] theorem State.spoilBits_ok (s : State) (u : UnitId) (sel : TlbSel) (cls haddr va lo n : Nat) (hok : MemsOk s.mems) :
    MemsOk (s.spoilBits u sel cls haddr va lo n).mems := by
  unfold State.spoilBits
  extract_lets a s1 s2
  have h1 : MemsOk s1.mems := ite_ok hok (State.spoilEdge_ok _ _ _ _ _ _ _ _ hok)
  have h2 : MemsOk s2.mems := State.spoilVa_ok _ _ _ _ _ _ _ h1
  exact ite_ok hok (ite_ok (State.spoilEdge_ok _ _ _ _ _ _ _ _ hok) (ite_ok h2 (State.spoilEdge_ok _ _ _ _ _ _ _ _ h2)))

@[simp] theorem State.spoilRun_ok (s : State) (c : CoreId) (ch : ChNo) (m : CCmd) (p : Nat × Nat × Nat) (hok : MemsOk s.mems) :
    MemsOk (s.spoilRun c ch m p).mems := by
  unfold State.spoilRun
  extract_lets t b free
  have h1 : MemsOk free.mems := by
    simp only [free, State.skipFresh_mems]
    exact State.putRun_ok _ _ _ _ _ _ _ _ _ _ _ hok
  refine ite_ok h1 ?_
  split
  · exact ite_ok h1 (State.spoilBits_ok _ _ _ _ _ _ _ _ hok)
  · exact hok

@[simp] theorem State.scramble_ok (s : State) (c : CoreId) (ch : ChNo) (m : CCmd) (g : Nat) (hok : MemsOk s.mems) :
    MemsOk (s.scramble c ch m g).mems := by
  unfold State.scramble
  exact foldl_ok _ (fun t p h => State.spoilRun_ok _ _ _ _ _ h) _ _ hok

@[simp] theorem State.spend_mems (s : State) (p n : Nat) : (State.spend s p n).mems = s.mems := by
  rfl

@[simp] theorem State.setDma_mems (s : State) (n : Fin 16) (h : Option DmaHold) : (State.setDma s n h).mems = s.mems := by
  rfl

@[simp] theorem State.modRun_mems (s : State) (i : Nat) (f : HostRun → HostRun) : (s.modRun i f).mems = s.mems := rfl

@[simp] theorem State.giveDma_mems (s : State) (n : Fin 16) (w : DmaWait) : (s.giveDma n w).mems = s.mems := by
  unfold State.giveDma; split <;> simp

@[simp] theorem State.leaveDma_mems (s : State) (m : CCmd) : (s.leaveDma m).mems = s.mems := by
  unfold State.leaveDma; split <;> simp

@[simp] theorem State.suspendHolder_mems (s : State) (n : Fin 16) (b : Bool) : (s.suspendHolder n b).mems = s.mems := by
  simp only [State.suspendHolder]; (repeat' split) <;> simp

@[simp] theorem State.dmaArbiter_mems (s : State) : (State.dmaArbiter s).mems = s.mems := by
  simp only [State.dmaArbiter]; (repeat' split) <;> simp

@[simp] theorem State.dmaRelease_mems (s : State) (n : Fin 16) (h : DmaHold) : (s.dmaRelease n h).mems = s.mems := by
  simp only [State.dmaRelease]; (repeat' split) <;> simp

@[simp] theorem State.chunkEnd_mems (s : State) (p : Nat) (n : Fin 16) (atEnd : Bool) : (State.chunkEnd s p n atEnd).mems = s.mems := by
  simp only [State.chunkEnd]; (repeat' split) <;> simp

@[simp] theorem State.hqSettle_mems (s : State) (q : Nat) : (State.hqSettle s q).mems = s.mems := by
  simp only [State.hqSettle]; (repeat' split) <;> (simp_all [foldl_mems]; done)

@[simp] theorem State.advanceWp_mems (s : State) (c : CoreId) (ch : ChNo) (x : CtxId) (n : Nat) : (State.advanceWp s c ch x n).mems = s.mems := by
  simp only [State.advanceWp]; (repeat' split) <;> (simp_all [foldl_mems]; done)

theorem setDmaAll_mems (l : List CCmd) (g : CCmd → Bool) (s : State) : (l.foldl (fun (t : State) o =>
    if g o then (match o.dma with | some n => t.setDma n none | none => t) else t) s).mems = s.mems := by
  refine foldl_mems _ ?_ _ _
  intro t o
  split
  · split <;> simp
  · rfl

@[simp] theorem State.copyFault_ok (s : State) (c : CoreId) (ch : ChNo) (m : CCmd) (f : XFault) (haddr : Nat) (hok : MemsOk s.mems) :
    MemsOk (s.copyFault c ch m f haddr).mems := by
  unfold State.copyFault
  extract_lets s1 freed s2 s3
  have h1 : MemsOk s1.mems := State.scramble_ok _ _ _ _ _ hok
  have h2 : freed.mems = s1.mems := foldl_mems _ (fun t h => setDmaAll_mems _ _ t) _ _
  rw [State.raiseAt_mems]
  simp only [s3, s2, State.modCtx_mems, State.modCore_mems]
  rw [h2]; exact h1

@[simp] theorem State.copyFinish_mems (s : State) (c : CoreId) (ch : ChNo) (m : CCmd) : (s.copyFinish c ch m).mems = s.mems := by
  unfold State.copyFinish
  extract_lets s1 s2 s3 s4 s5 hqs
  have h2 : s2.mems = s.mems := by simp [s2, s1]
  have h3 : s3.mems = s.mems := by
    simp only [s3]
    split
    · simpa using h2
    · exact ite_mems (by simpa using h2) h2
  have h4 : s4.mems = s.mems := ite_mems (by simpa using h3) h3
  have h5 : s5.mems = s.mems := ite_mems (by simpa using h4) h4
  exact ite_mems ((foldl_mems _ (fun t q => State.hqSettle_mems t q) _ _).trans h5) h5

@[simp] theorem State.copyOver_mems (s : State) (c : CoreId) (ch : ChNo) (m : CCmd) (flags : Nat) : (State.copyOver s c ch m flags).mems = s.mems := by
  simp only [State.copyOver]; split <;> simp

@[simp] theorem State.dmaStart_mems (s : State) (c : CoreId) (ch : ChNo) (m : CCmd) : (State.dmaStart s c ch m).1.mems = s.mems := by
  simp only [State.dmaStart]; (repeat' split) <;> (simp_all [foldl_mems]; done)

theorem snd_ok {α : Type} {p : α × State} {a : α} {t : State} (h : p = (a, t)) (hp : MemsOk p.2.mems) : MemsOk t.mems := by rw [h] at hp; exact hp

theorem mid_ok {α γ : Type} {p : α × State × γ} {a : α} {t : State} {b : γ} (h : p = (a, t, b)) (hp : MemsOk p.2.1.mems) : MemsOk t.mems := by
  rw [h] at hp; exact hp

@[simp] theorem execGranulePerformed_out (c : CoreId) (ch : ChNo) (s : State) (hok : MemsOk s.mems) : OutOk (execGranulePerformed c ch s) := by
  unfold execGranulePerformed
  split
  · exact (out_next _).2 hok
  · rename_i m0 _
    refine out_ite ((out_next _).2 hok) ?_
    extract_lets st m n again
    have hst : MemsOk st.1.mems := by simpa [st] using hok
    have hag : ∀ f r, MemsOk r.mems → MemsOk (again f r).mems := fun f r hr =>
      ite_ok (by simpa using hst) (State.copyFault_ok _ _ _ _ _ _ hr)
    refine out_ite (by simpa using hst) (out_ite ?_ ?_)
    · split
      · exact (out_next _).2 (hag _ _ (mid_ok ‹_› (State.transform_ok _ _ _ _ (by simpa using hst))))
      · have h1 := mid_ok ‹_› (State.transform_ok _ _ _ _ (by simpa using hst))
        rw [out_next, State.copyOver_mems]
        exact ite_ok (State.scramble_ok _ _ _ _ _ h1) h1
    · split
      · exact (out_next _).2 (hag _ _ (snd_ok ‹_› (State.moveRuns_ok _ _ _ _ _ (by simpa using hst))))
      · have h1 := snd_ok ‹_› (State.moveRuns_ok _ _ _ _ _ (by simpa using hst))
        rw [out_next, State.advanceWp_mems]
        refine ite_ok ?_ ?_ <;> (try rw [State.copyOver_mems]) <;> (split <;> (try exact ite_ok (by simpa using h1) h1)) <;> exact h1

@[simp] theorem execHostDmaResume_out (n : Fin 16) (s : State) (hok : MemsOk s.mems) : OutOk (execHostDmaResume n s) := by
  simp only [execHostDmaResume]; (repeat' split) <;> (simp_all; done)

@[simp] theorem execCopyComplete_out (c : CoreId) (ch : ChNo) (s : State) (hok : MemsOk s.mems) : OutOk (execCopyComplete c ch s) := by
  simp only [execCopyComplete]; (repeat' split) <;> (simp_all; done)

@[simp] theorem State.trapCopy_mems (s : State) (hd : Header) (srcs : List Header) : (s.trapCopy hd srcs).mems = s.mems := by
  simp only [State.trapCopy]; split <;> simp

@[simp] theorem State.cpyGo_out (s : State) (kind : Nat) (h : HOp) (ch : ChNo) (rm : Nat) (repl : Bool) (mop : Nat) (ovw : Bool) (hx : HReg) (p : CPlan) (more : Ctx → Ctx) (hok : MemsOk s.mems) : OutOk (State.cpyGo s kind h ch rm repl mop ovw hx p more) := by
  simp only [State.cpyGo]; (repeat' split) <;> (simp_all; done)

@[simp] theorem execCpy_out (h : HOp) (delta : Fin 16) (gs : Fin 4) (pr : Bool) (ch : ChNo) (s : State) (hok : MemsOk s.mems) : OutOk (execCpy h delta gs pr ch s) := by
  simp only [execCpy]; (repeat' split) <;> (simp_all; done)

@[simp] theorem execCpyc_out (h : HOp) (rm : Fin 16) (ch : ChNo) (s : State) (hok : MemsOk s.mems) : OutOk (execCpyc h rm ch s) := by
  simp only [execCpyc]; (repeat' split) <;> (simp_all; done)

@[simp] theorem execCpym_out (h : HOp) (hx : HReg) (mop : Fin 4) (ovw : Bool) (ch : ChNo) (s : State) (hok : MemsOk s.mems) : OutOk (execCpym h hx mop ovw ch s) := by
  simp only [execCpym]; (repeat' split) <;> (simp_all; done)

@[simp] theorem execCpyd_out (h : HOp) (rm : Fin 16) (repl : Bool) (ch : ChNo) (s : State) (hok : MemsOk s.mems) : OutOk (execCpyd h rm repl ch s) := by
  simp only [execCpyd]; (repeat' split) <;> (simp_all; done)

@[simp] theorem execCpyh_out (h : HOp) (ch : ChNo) (s : State) (hok : MemsOk s.mems) : OutOk (execCpyh h ch s) := by
  simp only [execCpyh]; (repeat' split) <;> (simp_all; done)

@[simp] theorem execCwp_out (h : HOp) (trk : Bool) (ch : ChNo) (s : State) (hok : MemsOk s.mems) : OutOk (execCwp h trk ch s) := by
  simp only [execCwp]; (repeat' split) <;> (simp_all; done)

@[simp] theorem State.parkCopies_ok (s : State) (c : CoreId) (x : CtxId) (hok : MemsOk s.mems) : MemsOk (s.parkCopies c x).mems := by
  refine foldl_ok _ ?_ _ _ hok
  intro t ch h
  split
  · refine ite_ok ?_ h
    rw [State.modCore_mems]; exact State.scramble_ok _ _ _ _ _ h
  · exact h

/-! ### Operands -/

@[simp] theorem State.readV_mems (s : State) (r : Fin 64) : (State.readV s r).2.mems = s.mems := by
  simp only [State.readV]; (repeat' split) <;> (simp_all [foldl_mems]; done)

@[simp] theorem State.readVs_mems (l : List (Fin 64)) (s : State) : (s.readVs l).2.mems = s.mems := by
  induction l generalizing s with
  | nil => rfl
  | cons a r ih => simp [State.readVs, ih]

@[simp] theorem State.addPend_mems (s : State) (p : VPend) : (State.addPend s p).mems = s.mems := by
  rfl

@[simp] theorem State.vecRun_out (s : State) (v : VOp) (w : VWord) (rule : FlagRule) (kbit : Nat × Nat → Bool)
    (f : VEnv → List (List Nat) → List (Nat × Nat)) (hok : MemsOk s.mems) : OutOk (s.vecRun v w rule kbit f) := by
  unfold State.vecRun
  extract_lets idx mask ms rd t0 key ctr t1 base env xs out due flags kw kd blank t2 rho
  have h0 : MemsOk t0.mems := by simpa [t0, rd] using hok
  have h1 : MemsOk t1.mems := by
    simp only [t1]
    exact ite_ok (by rw [State.modMe_mems]; exact h0) h0
  have h2 : MemsOk t2.mems := by simpa [t2] using h1
  refine out_ite (by simpa using hok) (out_ite (by simpa [State.hold] using hok) ?_)
  rw [out_next]
  refine ite_ok (by rw [State.addPend_mems]; exact h2) ?_
  refine foldl_ok _ (fun t d h => ?_) _ _ h2
  rw [State.addPend_mems, State.modMyCore_mems]; exact h

@[simp] theorem State.landV_mems (s : State) (c : CoreId) (p : VPend) : (State.landV s c p).mems = s.mems := by
  simp [State.landV, foldl_mems, *]

@[simp] theorem State.landAll_mems (s : State) (c : CoreId) (sli : Bool) : (State.landAll s c sli).mems = s.mems := by
  simp [State.landAll, foldl_mems, *]

@[simp] theorem execVecResultComplete_out (c : CoreId) (s : State) (hok : MemsOk s.mems) : OutOk (execVecResultComplete c s) := by
  simp [execVecResultComplete, hok]

@[simp] theorem execSliResultComplete_out (c : CoreId) (s : State) (hok : MemsOk s.mems) : OutOk (execSliResultComplete c s) := by
  simp [execSliResultComplete, hok]

/-! ### Vec -/

@[simp] theorem execVmov_out (v : VOp) (s : State) (hok : MemsOk s.mems) : OutOk (execVmov v s) := by
  simp only [execVmov]; (repeat' split) <;> (simp_all; done)

@[simp] theorem execVsel_out (v : VOp) (s : State) (hok : MemsOk s.mems) : OutOk (execVsel v s) := by
  simp only [execVsel]; (repeat' split) <;> (simp_all; done)

@[simp] theorem execVadd_out (v : VOp) (s : State) (hok : MemsOk s.mems) : OutOk (execVadd v s) := by
  simp only [execVadd]; (repeat' split) <;> (simp_all; done)

@[simp] theorem execVsub_out (v : VOp) (s : State) (hok : MemsOk s.mems) : OutOk (execVsub v s) := by
  simp only [execVsub]; (repeat' split) <;> (simp_all; done)

@[simp] theorem execVmul_out (v : VOp) (s : State) (hok : MemsOk s.mems) : OutOk (execVmul v s) := by
  simp only [execVmul]; (repeat' split) <;> (simp_all; done)

@[simp] theorem execVmulh_out (v : VOp) (s : State) (hok : MemsOk s.mems) : OutOk (execVmulh v s) := by
  simp only [execVmulh]; (repeat' split) <;> (simp_all; done)

@[simp] theorem execVfma_out (v : VOp) (s : State) (hok : MemsOk s.mems) : OutOk (execVfma v s) := by
  simp only [execVfma]; (repeat' split) <;> (simp_all; done)

@[simp] theorem execVfms_out (v : VOp) (s : State) (hok : MemsOk s.mems) : OutOk (execVfms v s) := by
  simp only [execVfms]; (repeat' split) <;> (simp_all; done)

@[simp] theorem execVfnma_out (v : VOp) (s : State) (hok : MemsOk s.mems) : OutOk (execVfnma v s) := by
  simp only [execVfnma]; (repeat' split) <;> (simp_all; done)

@[simp] theorem execVmin_out (v : VOp) (s : State) (hok : MemsOk s.mems) : OutOk (execVmin v s) := by
  simp only [execVmin]; (repeat' split) <;> (simp_all; done)

@[simp] theorem execVmax_out (v : VOp) (s : State) (hok : MemsOk s.mems) : OutOk (execVmax v s) := by
  simp only [execVmax]; (repeat' split) <;> (simp_all; done)

@[simp] theorem execVabs_out (v : VOp) (s : State) (hok : MemsOk s.mems) : OutOk (execVabs v s) := by
  simp only [execVabs]; (repeat' split) <;> (simp_all; done)

@[simp] theorem execVneg_out (v : VOp) (s : State) (hok : MemsOk s.mems) : OutOk (execVneg v s) := by
  simp only [execVneg]; (repeat' split) <;> (simp_all; done)

@[simp] theorem execVand_out (v : VOp) (s : State) (hok : MemsOk s.mems) : OutOk (execVand v s) := by
  simp only [execVand]; (repeat' split) <;> (simp_all; done)

@[simp] theorem execVor_out (v : VOp) (s : State) (hok : MemsOk s.mems) : OutOk (execVor v s) := by
  simp only [execVor]; (repeat' split) <;> (simp_all; done)

@[simp] theorem execVxor_out (v : VOp) (s : State) (hok : MemsOk s.mems) : OutOk (execVxor v s) := by
  simp only [execVxor]; (repeat' split) <;> (simp_all; done)

@[simp] theorem execVnot_out (v : VOp) (s : State) (hok : MemsOk s.mems) : OutOk (execVnot v s) := by
  simp only [execVnot]; (repeat' split) <;> (simp_all; done)

@[simp] theorem execVsll_out (v : VOp) (s : State) (hok : MemsOk s.mems) : OutOk (execVsll v s) := by
  simp only [execVsll]; (repeat' split) <;> (simp_all; done)

@[simp] theorem execVsrl_out (v : VOp) (s : State) (hok : MemsOk s.mems) : OutOk (execVsrl v s) := by
  simp only [execVsrl]; (repeat' split) <;> (simp_all; done)

@[simp] theorem execVsra_out (v : VOp) (s : State) (hok : MemsOk s.mems) : OutOk (execVsra v s) := by
  simp only [execVsra]; (repeat' split) <;> (simp_all; done)

@[simp] theorem execVcmpeq_out (v : VOp) (s : State) (hok : MemsOk s.mems) : OutOk (execVcmpeq v s) := by
  simp only [execVcmpeq]; (repeat' split) <;> (simp_all; done)

@[simp] theorem execVcmpne_out (v : VOp) (s : State) (hok : MemsOk s.mems) : OutOk (execVcmpne v s) := by
  simp only [execVcmpne]; (repeat' split) <;> (simp_all; done)

@[simp] theorem execVcmplt_out (v : VOp) (s : State) (hok : MemsOk s.mems) : OutOk (execVcmplt v s) := by
  simp only [execVcmplt]; (repeat' split) <;> (simp_all; done)

@[simp] theorem execVcmple_out (v : VOp) (s : State) (hok : MemsOk s.mems) : OutOk (execVcmple v s) := by
  simp only [execVcmple]; (repeat' split) <;> (simp_all; done)

@[simp] theorem execVcvt_out (v : VOp) (s : State) (hok : MemsOk s.mems) : OutOk (execVcvt v s) := by
  simp only [execVcvt]; (repeat' split) <;> (simp_all; done)

@[simp] theorem execVcvte_out (v : VOp) (s : State) (hok : MemsOk s.mems) : OutOk (execVcvte v s) := by
  simp only [execVcvte]; (repeat' split) <;> (simp_all; done)

@[simp] theorem execVcvtl_out (v : VOp) (s : State) (hok : MemsOk s.mems) : OutOk (execVcvtl v s) := by
  simp only [execVcvtl]; (repeat' split) <;> (simp_all; done)

@[simp] theorem execVrand_out (v : VOp) (s : State) (hok : MemsOk s.mems) : OutOk (execVrand v s) := by
  simp only [execVrand]; (repeat' split) <;> (simp_all; done)

@[simp] theorem execVexp_out (v : VOp) (s : State) (hok : MemsOk s.mems) : OutOk (execVexp v s) := by
  simp only [execVexp]; (repeat' split) <;> (simp_all; done)

@[simp] theorem execVlog_out (v : VOp) (s : State) (hok : MemsOk s.mems) : OutOk (execVlog v s) := by
  simp only [execVlog]; (repeat' split) <;> (simp_all; done)

@[simp] theorem execVrsqrt_out (v : VOp) (s : State) (hok : MemsOk s.mems) : OutOk (execVrsqrt v s) := by
  simp only [execVrsqrt]; (repeat' split) <;> (simp_all; done)

@[simp] theorem execVtanh_out (v : VOp) (s : State) (hok : MemsOk s.mems) : OutOk (execVtanh v s) := by
  simp only [execVtanh]; (repeat' split) <;> (simp_all; done)

@[simp] theorem execVgelu_out (v : VOp) (s : State) (hok : MemsOk s.mems) : OutOk (execVgelu v s) := by
  simp only [execVgelu]; (repeat' split) <;> (simp_all; done)

@[simp] theorem execVrcp_out (v : VOp) (s : State) (hok : MemsOk s.mems) : OutOk (execVrcp v s) := by
  simp only [execVrcp]; (repeat' split) <;> (simp_all; done)

@[simp] theorem execVdiv_out (v : VOp) (s : State) (hok : MemsOk s.mems) : OutOk (execVdiv v s) := by
  simp only [execVdiv]; (repeat' split) <;> (simp_all; done)

@[simp] theorem execVsqrt_out (v : VOp) (s : State) (hok : MemsOk s.mems) : OutOk (execVsqrt v s) := by
  simp only [execVsqrt]; (repeat' split) <;> (simp_all; done)

@[simp] theorem execVlvl_out (v : VOp) (s : State) (hok : MemsOk s.mems) : OutOk (execVlvl v s) := by
  simp only [execVlvl]; (repeat' split) <;> (simp_all; done)

@[simp] theorem execVradd_out (v : VOp) (s : State) (hok : MemsOk s.mems) : OutOk (execVradd v s) := by
  simp only [execVradd]; (repeat' split) <;> (simp_all; done)

@[simp] theorem execVrmin_out (v : VOp) (s : State) (hok : MemsOk s.mems) : OutOk (execVrmin v s) := by
  simp only [execVrmin]; (repeat' split) <;> (simp_all; done)

@[simp] theorem execVrmax_out (v : VOp) (s : State) (hok : MemsOk s.mems) : OutOk (execVrmax v s) := by
  simp only [execVrmax]; (repeat' split) <;> (simp_all; done)

@[simp] theorem execVscanadd_out (v : VOp) (s : State) (hok : MemsOk s.mems) : OutOk (execVscanadd v s) := by
  simp only [execVscanadd]; (repeat' split) <;> (simp_all; done)

@[simp] theorem execVscanmax_out (v : VOp) (s : State) (hok : MemsOk s.mems) : OutOk (execVscanmax v s) := by
  simp only [execVscanmax]; (repeat' split) <;> (simp_all; done)

@[simp] theorem execVperm_out (v : VOp) (s : State) (hok : MemsOk s.mems) : OutOk (execVperm v s) := by
  simp only [execVperm]; (repeat' split) <;> (simp_all; done)

@[simp] theorem execVshuf_out (v : VOp) (s : State) (hok : MemsOk s.mems) : OutOk (execVshuf v s) := by
  simp only [execVshuf]; (repeat' split) <;> (simp_all; done)

@[simp] theorem execVbcast_out (v : VOp) (s : State) (hok : MemsOk s.mems) : OutOk (execVbcast v s) := by
  simp only [execVbcast]; (repeat' split) <;> (simp_all; done)

@[simp] theorem execVbcasts_out (v : VOp) (s : State) (hok : MemsOk s.mems) : OutOk (execVbcasts v s) := by
  simp only [execVbcasts]; (repeat' split) <;> (simp_all; done)

@[simp] theorem execVrot_out (v : VOp) (s : State) (hok : MemsOk s.mems) : OutOk (execVrot v s) := by
  simp only [execVrot]; (repeat' split) <;> (simp_all; done)

@[simp] theorem execVtopnm_out (v : VOp) (s : State) (hok : MemsOk s.mems) : OutOk (execVtopnm v s) := by
  simp only [execVtopnm]; (repeat' split) <;> (simp_all; done)

@[simp] theorem execKand_out (v : VOp) (s : State) (hok : MemsOk s.mems) : OutOk (execKand v s) := by
  simp only [execKand]; (repeat' split) <;> (simp_all; done)

@[simp] theorem execKor_out (v : VOp) (s : State) (hok : MemsOk s.mems) : OutOk (execKor v s) := by
  simp only [execKor]; (repeat' split) <;> (simp_all; done)

@[simp] theorem execKxor_out (v : VOp) (s : State) (hok : MemsOk s.mems) : OutOk (execKxor v s) := by
  simp only [execKxor]; (repeat' split) <;> (simp_all; done)

@[simp] theorem execKandn_out (v : VOp) (s : State) (hok : MemsOk s.mems) : OutOk (execKandn v s) := by
  simp only [execKandn]; (repeat' split) <;> (simp_all; done)

@[simp] theorem execKnot_out (v : VOp) (s : State) (hok : MemsOk s.mems) : OutOk (execKnot v s) := by
  simp only [execKnot]; (repeat' split) <;> (simp_all; done)

@[simp] theorem execKmov_out (v : VOp) (s : State) (hok : MemsOk s.mems) : OutOk (execKmov v s) := by
  simp only [execKmov]; (repeat' split) <;> (simp_all; done)

/-! ### Sae -/

@[simp] theorem State.saeApply_ok (s : State) (cls : Nat) (d : Tensor) (base op t v cmp el : Nat) (hok : MemsOk s.mems) :
    MemsOk (s.saeApply cls d base op t v cmp el).2.1.mems := by
  unfold State.saeApply
  extract_lets r i0 free s0 k line o n off haddr ps u got o2 s1 n2 put
  have h0 : MemsOk s0.mems := by simpa [s0] using hok
  split
  · split
    · simpa using h0
    · simpa using h0
  · split
    · simpa using h0
    · split
      · simpa using h0
      · refine foldl_ok2 _ (fun p a hp => State.writeMem_ok _ _ _ _ _ _ hp) _ _ ?_
        exact foldl_ok2 _ (fun t a h => by simpa using h) _ _ h0

@[simp] theorem State.saeProbe_mems (s : State) (d : Tensor) (base : Nat) (us : List SaeUpd) : (s.saeProbe d base us).2.mems = s.mems := by
  refine foldl_eq2 _ ?_ _ _
  intro p a
  dsimp only
  (repeat' split) <;> (try simp only [Prod.ext_iff] at *) <;> (repeat cases ‹_ ∧ _›) <;> (try subst_vars) <;> simp_all

@[simp] theorem State.saeRun_ok (cls : Nat) (d : Tensor) (base op t : Nat) (cmps : List Nat) (l : List SaeUpd) (s : State) (hok : MemsOk s.mems) :
    MemsOk (s.saeRun cls d base op t cmps l).1.mems := by
  induction l generalizing s with
  | nil => exact hok
  | cons u rest ih =>
    simp only [State.saeRun]
    exact ih _ (by simpa using State.saeApply_ok _ _ _ _ _ _ _ _ _ (by simpa using hok))

@[simp] theorem State.saeWord_out (s : State) (op : Nat) (o : SOp) (hok : MemsOk s.mems) : OutOk (State.saeWord s op o) := by
  simp only [State.saeWord]; (repeat' split) <;> (try simp only [Prod.ext_iff] at *) <;> (repeat cases ‹_ ∧ _›) <;> (try subst_vars) <;> (simp_all; done)

@[simp] theorem execSadd_out (o : SOp) (s : State) (hok : MemsOk s.mems) : OutOk (execSadd o s) := by
  simp [execSadd, hok]

@[simp] theorem execSmin_out (o : SOp) (s : State) (hok : MemsOk s.mems) : OutOk (execSmin o s) := by
  simp [execSmin, hok]

@[simp] theorem execSmax_out (o : SOp) (s : State) (hok : MemsOk s.mems) : OutOk (execSmax o s) := by
  simp [execSmax, hok]

@[simp] theorem execSor_out (o : SOp) (s : State) (hok : MemsOk s.mems) : OutOk (execSor o s) := by
  simp [execSor, hok]

@[simp] theorem execSand_out (o : SOp) (s : State) (hok : MemsOk s.mems) : OutOk (execSand o s) := by
  simp [execSand, hok]

@[simp] theorem execSxor_out (o : SOp) (s : State) (hok : MemsOk s.mems) : OutOk (execSxor o s) := by
  simp [execSxor, hok]

@[simp] theorem execSxch_out (o : SOp) (s : State) (hok : MemsOk s.mems) : OutOk (execSxch o s) := by
  simp [execSxch, hok]

@[simp] theorem execScas_out (o : SOp) (s : State) (hok : MemsOk s.mems) : OutOk (execScas o s) := by
  simp [execScas, hok]

@[simp] theorem execSflush_out (h : HOp) (s : State) (hok : MemsOk s.mems) : OutOk (execSflush h s) := by
  simp only [execSflush]; (repeat' split) <;> (simp_all; done)

@[simp] theorem execSaeWordComplete_out (c : CoreId) (s : State) (hok : MemsOk s.mems) : OutOk (execSaeWordComplete c s) := by
  simp only [execSaeWordComplete]; (repeat' split) <;> (simp_all; done)

end Sys2Proof.Machine
end

