-- ==== Sys2Proof/Laws/CanonUnits.lean ====
section
/-! SUPPORT. Sys2Proof/Laws/CanonUnits.lean: the byte memories keep their canonical form (`MemsOk`) through XCMD, collectives, furrows and walkers: an operation
that writes no memory leaves `mems` as it is (`_mems`), one that writes keeps the form (`_ok`), and so does what a meaning answers
(`_out`). -/

set_option Elab.async false

set_option linter.unusedSimpArgs false

namespace Sys2Proof.Machine

/-! ### Xcmd -/

@[simp] theorem State.reply_mems (s : State) (d : SReg) (v : Word) : (State.reply s d v).mems = s.mems := by
  rfl

@[simp] theorem State.reportMe_mems (s : State) (code : Nat) : (State.reportMe s code).mems = s.mems := by
  simp [State.reportMe, foldl_mems, *]

@[simp] theorem execTend_out (s : State) (hok : MemsOk s.mems) : OutOk (execTend s) := by
  simp only [execTend]; (repeat' split) <;> (simp_all; done)

@[simp] theorem execTspawn_out (d a : SReg) (s : State) (hok : MemsOk s.mems) : OutOk (execTspawn d a s) := by
  simp only [execTspawn]; (repeat' split) <;> (simp_all; done)

@[simp] theorem State.newFut_ok (s : State) (p issuer : Nat) (hok : MemsOk s.mems) : MemsOk (s.newFut p issuer).2.mems := by
  unfold State.newFut
  refine ite_ok2 hok ?_
  extract_lets n
  split
  · exact snd_ok ‹_› (State.dispLog_ok _ _ _ _ _ _ _ _ hok)
  · rename_i s1 h
    have h1 : MemsOk s1.mems := snd_ok h (State.dispLog_ok _ _ _ _ _ _ _ _ hok)
    exact h1

@[simp] theorem execFnew_out (d : SReg) (s : State) (hok : MemsOk s.mems) : OutOk (execFnew d s) := by
  unfold execFnew
  exact out_ite (by simpa [State.hold] using hok) (by simp [hok])

@[simp] theorem State.attach_mems (s : State) (p fnum num : Nat) : (State.attach s p fnum num).2.mems = s.mems := by
  simp only [State.attach]; (repeat' split) <;> (simp_all [foldl_mems]; done)

@[simp] theorem execFatt_out (d a b : SReg) (s : State) (hok : MemsOk s.mems) : OutOk (execFatt d a b s) := by
  simp only [execFatt]; (repeat' split) <;> (try simp only [Prod.ext_iff] at *) <;> (repeat cases ‹_ ∧ _›) <;> (try subst_vars) <;> (simp_all; done)

@[simp] theorem execFres_out (a b : SReg) (s : State) (hok : MemsOk s.mems) : OutOk (execFres a b s) := by
  simp only [execFres]; (repeat' split) <;> (try simp only [Prod.ext_iff] at *) <;> (repeat cases ‹_ ∧ _›) <;> (try subst_vars) <;> (simp_all; done)

@[simp] theorem execFget_out (d a : SReg) (s : State) (hok : MemsOk s.mems) : OutOk (execFget d a s) := by
  simp only [execFget]; (repeat' split) <;> (simp_all; done)

@[simp] theorem execFfree_out (a : SReg) (s : State) (hok : MemsOk s.mems) : OutOk (execFfree a s) := by
  simp only [execFfree]; (repeat' split) <;> (try simp only [Prod.ext_iff] at *) <;> (repeat cases ‹_ ∧ _›) <;> (try subst_vars) <;> (simp_all; done)

@[simp] theorem execXcmdReply_out (c : CoreId) (x : CtxId) (s : State) (hok : MemsOk s.mems) : OutOk (execXcmdReply c x s) := by
  simp only [execXcmdReply]; (repeat' split) <;> (simp_all; done)

/-! ### Collective -/

@[simp] theorem State.emit_mems (s : State) (n : Nat) (b : FrameBody) : (State.emit s n b).mems = s.mems := by
  rfl

@[simp] theorem State.sendPacket_mems (s : State) (n op : Nat) (p : Packet) : (State.sendPacket s n op p).mems = s.mems := by
  simp [State.sendPacket, foldl_mems, *]

@[simp] theorem State.resend_ok (s : State) (n seq : Nat) (late : Bool) (hok : MemsOk s.mems) : MemsOk (State.resend s n seq late).mems := by
  simp only [State.resend]; (repeat' split) <;> (simp_all [foldl_mems]; done)

@[simp] theorem State.ackNow_mems (s : State) (n : Nat) : (State.ackNow s n).mems = s.mems := by
  simp [State.ackNow, foldl_mems, *]

@[simp] theorem State.noteAccepted_mems (s : State) (n : Nat) : (State.noteAccepted s n).mems = s.mems := by
  simp only [State.noteAccepted]; (repeat' split) <;> (simp_all [foldl_mems]; done)

@[simp] theorem State.nack_mems (s : State) (n : Nat) (late : Bool) : (State.nack s n late).mems = s.mems := by
  rfl

@[simp] theorem State.queueOp_mems (s : State) (o : ColOp) : (State.queueOp s o).mems = s.mems := by
  rfl

@[simp] theorem State.colFault_ok (s : State) (o : ColOp) (haddr : Nat) (f : XFault) (hok : MemsOk s.mems) : MemsOk (s.colFault o haddr f).mems := by
  have h := State.endOp_ok s o 2 hok
  simp only [State.colFault]
  split <;> simpa using h

theorem State.bucketFail_ok {α : Type} (s s1 : State) (o : ColOp) (off va : Nat) (f : XFault) (hok : MemsOk s.mems) (h1 : MemsOk s1.mems) :
    MemsOk (s.bucketFail s1 o off va f : ColRes α × State).2.mems := ite_ok2 hok (State.colFault_ok _ _ _ _ h1)

@[simp] theorem State.bucketRead_ok (s : State) (o : ColOp) (off n : Nat) (hok : MemsOk s.mems) : MemsOk (s.bucketRead o off n).2.mems := by
  unfold State.bucketRead
  split
  · simpa using hok
  · rename_i va _
    have h := State.readVa_mems s o.unit (some 6) 0 o.acq false (o.bucket.toNat + off) (va + off) n
    split
    · rename_i e; rw [e] at h; simpa [h] using hok
    · rename_i e; rw [e] at h; exact State.bucketFail_ok _ _ _ _ _ _ hok (by rw [h]; exact hok)

@[simp] theorem State.bucketWrite_ok (s : State) (o : ColOp) (off : Nat) (bs : List Byte) (hok : MemsOk s.mems) : MemsOk (s.bucketWrite o off bs).2.mems := by
  unfold State.bucketWrite
  split
  · exact hok
  · rename_i va _
    have h := State.writeVa_ok s o.unit (some 6) 0 (o.bucket.toNat + off) (va + off) bs hok
    split
    · exact snd_ok ‹_› h
    · exact State.bucketFail_ok _ _ _ _ _ _ hok (snd_ok ‹_› h)

@[simp] theorem State.sendSome_ok (s : State) (o : ColOp) (hok : MemsOk s.mems) : MemsOk (s.sendSome o).mems := by
  unfold State.sendSome
  extract_lets w e total n stepDone
  refine ite_ok (by simpa using hok) ?_
  have h := State.bucketRead_ok s o (e.1 * w + o.sendOff) n hok
  split
  · exact hok
  · exact snd_ok ‹_› h
  · simpa using snd_ok ‹_› h

@[simp] theorem State.tellMismatch_mems (s : State) (n : Nat) (p : Packet) : (s.tellMismatch n p).mems = s.mems := by
  simp [State.tellMismatch]

theorem State.takePacket_ok (s : State) (n : Nat) (o : ColOp) (p : Packet) (t : State) (hok : MemsOk s.mems) (ht : s.takePacket n o p = some t) :
    MemsOk t.mems := by
  unfold State.takePacket at ht
  extract_lets w e total ys off r at ht
  split at ht
  · cases ht; simpa using State.endOp_ok _ _ _ hok
  · have hr : MemsOk r.2.mems := by
      simp only [r]
      split
      · have hb := State.bucketRead_ok s o off ys.length hok
        split
        · rename_i h; rw [h] at hb; simpa using hb
        · exact hb
      · exact hok
    revert ht hr
    generalize r = u
    intro ht hr
    split at ht
    · cases ht
    · cases ht; exact hr
    · rename_i vs s1
      have hw := State.bucketWrite_ok s1 o off vs hr
      split at ht
      · cases ht
      · cases ht; exact snd_ok ‹_› hw
      · have h2 := snd_ok ‹_› hw
        cases ht
        exact ite_ok (State.endOp_ok _ _ _ (by simpa using h2)) (by simpa using h2)

@[simp] theorem State.takeMismatch_ok (s : State) (n cnt : Nat) (hok : MemsOk s.mems) : MemsOk (s.takeMismatch n cnt).mems := by
  unfold State.takeMismatch
  split
  · exact hok
  · exact ite_ok (State.endOp_ok _ _ _ hok) (State.endOp_ok _ _ _ (by simpa using hok))

@[simp] theorem State.colPlaces_mems (s : State) (c : CoreId) (x : CtxId) (haddr va n : Nat) : (s.colPlaces c x haddr va n).2.mems = s.mems := by
  refine foldl_eq2 _ ?_ _ _
  intro p a
  (repeat' split) <;> (try simp only [Prod.ext_iff] at *) <;> (repeat cases ‹_ ∧ _›) <;> (try subst_vars) <;> simp_all

@[simp] theorem State.remotePlaces_mems (s : State) (n x : Nat) : (s.remotePlaces n x).2.mems = s.mems := by
  unfold State.remotePlaces
  extract_lets k c y
  split
  · rfl
  · simp

@[simp] theorem State.remoteUpdate_ok (s : State) (n : Nat) (p : Packet) (x v : Nat) (hok : MemsOk s.mems) :
    MemsOk (s.remoteUpdate n p x v).2.mems := by
  unfold State.remoteUpdate
  extract_lets k c y
  refine ite_ok2 hok ?_
  have hc := State.remotePlaces_mems s n x
  split
  · rename_i h; rw [h] at hc; rw [hc]; exact hok
  · rename_i ps s1 h; rw [h] at hc
    have h1 : MemsOk s1.mems := by rw [hc]; exact hok
    refine ite_ok2 h1 ?_
    split
    · simpa using h1
    · refine foldl_ok2 _ (fun p a hp => State.writeMem_ok _ _ _ _ _ _ hp) _ _ ?_
      rw [State.skipFresh_mems]
      exact foldl_ok2 _ (fun t a h => by simpa using h) _ _ h1

@[simp] theorem State.remoteApply_ok (s : State) (n : Nat) (p : Packet) (hok : MemsOk s.mems) : MemsOk (s.remoteApply n p).mems := by
  unfold State.remoteApply
  extract_lets r
  have hr : MemsOk r.2.mems := by
    refine foldl_ok2 _ ?_ _ _ hok
    intro q a hq
    refine ite_ok2 hq ?_
    exact State.remoteUpdate_ok _ _ _ _ _ hq
  refine ite_ok hr ?_
  exact State.failConn_ok _ _ hr

@[simp] theorem State.deliver_ok (s : State) (n : Nat) (hok : MemsOk s.mems) : MemsOk (s.deliver n).mems := by
  unfold State.deliver
  split
  · exact hok
  · extract_lets s1
    have h1 : MemsOk s1.mems := by simpa [s1] using hok
    refine ite_ok (State.takeMismatch_ok _ _ _ h1) (ite_ok (ite_ok hok (State.remoteApply_ok _ _ _ h1)) ?_)
    split
    · rename_i o _
      cases h : s1.takePacket n o ‹Packet› with
      | none => exact hok
      | some t => exact State.takePacket_ok _ _ _ _ _ h1 h
    · exact h1

@[simp] theorem State.beginOp_mems (s : State) (o : ColOp) : (State.beginOp s o).mems = s.mems := by
  simp only [State.beginOp]; (repeat' split) <;> (simp_all [foldl_mems]; done)

theorem State.colAct_ok (s t : State) (hok : MemsOk s.mems) (h : s.colAct = some t) : MemsOk t.mems := by
  unfold State.colAct at h
  split at h
  · cases h; simp [hok]
  · split at h
    · cases h; simp [hok]
    · split at h
      · cases h; simp [hok]
      · rw [Option.map_eq_some_iff] at h
        obtain ⟨o, _, rfl⟩ := h
        simp [hok]

@[simp] theorem State.colLoop_ok (n : Nat) (s : State) (hok : MemsOk s.mems) : MemsOk (State.colLoop n s).mems := by
  induction n generalizing s with
  | zero => exact hok
  | succ n ih =>
    simp only [State.colLoop]
    split
    · exact ih _ (State.colAct_ok _ _ hok ‹_›)
    · exact hok

@[simp] theorem State.colRun_ok (s : State) (hok : MemsOk s.mems) : MemsOk s.colRun.mems := State.colLoop_ok _ _ hok

theorem State.bounce_ok (s : State) (n : Nat) (p : Packet) (t : State) (hok : MemsOk s.mems) (h : s.bounce n p = some t) : MemsOk t.mems := by
  simp only [State.bounce] at h
  split at h
  · cases h
  · cases h
    simp only [mems_mk, mems_fold]
    refine foldl_ok _ ?_ _ _ hok
    intro t i ht
    exact ite_ok (State.writeMem_ok _ _ _ _ _ _ ht) ht

@[simp] theorem execBounceReplay_out (n : ConnId) (s : State) (hok : MemsOk s.mems) : OutOk (execBounceReplay n s) := by
  simp only [execBounceReplay]; (repeat' split) <;> (simp_all; done)

@[simp] theorem execDarudPacketReceive_out (n : ConnId) (p : Packet) (s : State) (hok : MemsOk s.mems) : OutOk (execDarudPacketReceive n p s) := by
  unfold execDarudPacketReceive
  extract_lets k
  refine out_ite (by simpa using hok) (out_ite (by simpa using hok) (out_ite (by simpa using hok) (out_ite (by simpa using hok)
    (out_ite ?_ (out_ite (by simpa using hok) ?_)))))
  · split
    · simpa using hok
    · rw [out_next, State.noteAccepted_mems]; exact State.bounce_ok _ _ _ _ hok ‹_›
  · rw [out_next]; exact State.colRun_ok _ (by simpa using hok)

@[simp] theorem execDarudAckReceive_out (n : ConnId) (seq : Nat) (s : State) (hok : MemsOk s.mems) : OutOk (execDarudAckReceive n seq s) := by
  simp only [execDarudAckReceive]; (repeat' split) <;> (simp_all; done)

@[simp] theorem execDarudNackReceive_out (n : ConnId) (seq : Nat) (late : Bool) (s : State) (hok : MemsOk s.mems) : OutOk (execDarudNackReceive n seq late s) := by
  simp only [execDarudNackReceive]; (repeat' split) <;> (simp_all; done)

@[simp] theorem execBackoffExpire_out (n : ConnId) (s : State) (hok : MemsOk s.mems) : OutOk (execBackoffExpire n s) := by
  simp only [execBackoffExpire]; (repeat' split) <;> (simp_all; done)

@[simp] theorem execRetransmitTimeout_out (n : ConnId) (s : State) (hok : MemsOk s.mems) : OutOk (execRetransmitTimeout n s) := by
  simp only [execRetransmitTimeout]; (repeat' split) <;> (simp_all; done)

@[simp] theorem execAckTimer_out (n : ConnId) (s : State) (hok : MemsOk s.mems) : OutOk (execAckTimer n s) := by
  simp only [execAckTimer]; (repeat' split) <;> (simp_all; done)

@[simp] theorem execConnectionInvalidate_out (n : ConnId) (s : State) (hok : MemsOk s.mems) : OutOk (execConnectionInvalidate n s) := by
  simp [execConnectionInvalidate, hok]

@[simp] theorem State.dropFrame_mems (s : State) (port : Fin 2) : (State.dropFrame s port).mems = s.mems := by
  rfl

@[simp] theorem State.darudEvent_mems (s : State) (i : Instr) : (State.darudEvent s i).mems = s.mems := by
  rfl

@[simp] theorem execFrameReceive_out (port : Fin 2) (f : Frame) (s : State) (hok : MemsOk s.mems) : OutOk (execFrameReceive port f s) := by
  simp only [execFrameReceive]; (repeat' split) <;> (simp_all; done)

@[simp] theorem execLinkBringUp_out (port : Fin 2) (full : Bool) (s : State) (hok : MemsOk s.mems) : OutOk (execLinkBringUp port full s) := by
  simp [execLinkBringUp, hok]

@[simp] theorem execCsubmit_out (d a : SReg) (s : State) (hok : MemsOk s.mems) : OutOk (execCsubmit d a s) := by
  simp only [execCsubmit]; (repeat' split) <;> (try simp only [Prod.ext_iff] at *) <;> (repeat cases ‹_ ∧ _›) <;> (try subst_vars) <;> (simp_all; done)

@[simp] theorem execCwatch_out (a b : SReg) (s : State) (hok : MemsOk s.mems) : OutOk (execCwatch a b s) := by
  simp only [execCwatch]; (repeat' split) <;> (simp_all; done)

@[simp] theorem execCunwatch_out (a : SReg) (s : State) (hok : MemsOk s.mems) : OutOk (execCunwatch a s) := by
  simp only [execCunwatch]; (repeat' split) <;> (simp_all; done)

@[simp] theorem execCpoll_out (d a : SReg) (s : State) (hok : MemsOk s.mems) : OutOk (execCpoll d a s) := by
  simp only [execCpoll]; (repeat' split) <;> (simp_all; done)

@[simp] theorem execWatchedStart_out (c : CoreId) (x : CtxId) (s : State) (hok : MemsOk s.mems) : OutOk (execWatchedStart c x s) := by
  unfold execWatchedStart
  split
  · exact (out_next _).2 hok
  · extract_lets s0 p desc floors
    have h0 : MemsOk s0.mems := by simpa [s0] using hok
    refine out_ite ((out_next _).2 h0) ?_
    split
    · simpa using h0
    · split
      · rename_i h; have hr := snd_mems h (State.readVa_mems ..)
        exact (out_next _).2 (ite_ok (by simpa using h0) (by simpa [hr] using h0))
      · rename_i bs s1 h; have hr := snd_mems h (State.readVa_mems ..)
        have h1 : MemsOk s1.mems := by rw [hr]; exact h0
        extract_lets o
        refine out_ite (by simpa using h1) ?_
        split
        · exact (out_next _).2 (snd_ok ‹_› (State.dispLog_ok _ _ _ _ _ _ _ _ h1))
        · exact (out_next _).2 (State.colRun_ok _ (by simpa using snd_ok ‹_› (State.dispLog_ok _ _ _ _ _ _ _ _ h1)))

@[simp] theorem State.bucketEnd_ok (s : State) (o : ColOp) (hok : MemsOk s.mems) : MemsOk (s.bucketEnd o).mems := by
  unfold State.bucketEnd
  extract_lets w e
  exact ite_ok (State.bucketSpoil_ok _ _ _ _ hok) (ite_ok (State.bucketSpoil_ok _ _ _ _ (State.bucketSpoil_ok _ _ _ _ hok)) hok)

@[simp] theorem execCollectiveOpComplete_out (p : PartId) (idx : Nat) (s : State) (hok : MemsOk s.mems) : OutOk (execCollectiveOpComplete p idx s) := by
  unfold execCollectiveOpComplete
  split
  · rw [out_next]; exact hok
  · refine out_ite (by rw [out_next]; exact hok) ?_
    rw [out_next]
    exact State.colRun_ok _ (State.endOp_ok _ _ _ (by simpa using State.bucketEnd_ok _ _ hok))

@[simp] theorem execGangStart_out (s : State) (hok : MemsOk s.mems) : OutOk (execGangStart s) := by
  simp [execGangStart, hok]

@[simp] theorem execGstatReady_out (s : State) (hok : MemsOk s.mems) : OutOk (execGstatReady s) := by
  simp [execGstatReady, hok]

@[simp] theorem execGstatAbort_out (s : State) (hok : MemsOk s.mems) : OutOk (execGstatAbort s) := by
  simp [execGstatAbort, hok]

/-! ### Fur -/

@[simp] theorem State.furVa_mems (s : State) (c : CoreId) (x : CtxId) (haddr : Nat) (wr : Bool) : (State.furVa s c x haddr wr).2.mems = s.mems := by
  simp only [State.furVa]; (repeat' split) <;> (try simp only [Prod.ext_iff] at *) <;> (repeat cases ‹_ ∧ _›) <;> (try subst_vars) <;> (simp_all [foldl_mems]; done)

@[simp] theorem State.furRead_mems (s : State) (c : CoreId) (x : CtxId) (cls : Nat) (q : Acq) (haddr n : Nat) : (State.furRead s c x cls q haddr n).2.mems = s.mems := by
  simp only [State.furRead]; (repeat' split) <;> (try simp only [Prod.ext_iff] at *) <;> (repeat cases ‹_ ∧ _›) <;> (try subst_vars) <;> (simp_all [foldl_mems]; done)

@[simp] theorem State.furWrite_ok (s : State) (c : CoreId) (x : CtxId) (cls haddr : Nat) (bs : List Byte) (hok : MemsOk s.mems) : MemsOk (State.furWrite s c x cls haddr bs).2.mems := by
  simp only [State.furWrite]; (repeat' split) <;> (try simp only [Prod.ext_iff] at *) <;> (repeat cases ‹_ ∧ _›) <;> (try subst_vars) <;> (simp_all [foldl_mems]; done)

@[simp] theorem State.furTake_mems (s : State) (c : CoreId) (x : CtxId) (cls : Nat) (q : Acq) (f : Furrow) : (State.furTake s c x cls q f).2.1.mems = s.mems := by
  simp only [State.furTake]; (repeat' split) <;> (try simp only [Prod.ext_iff] at *) <;> (repeat cases ‹_ ∧ _›) <;> (try subst_vars) <;> (simp_all [foldl_mems]; done)

@[simp] theorem State.furTop_mems (s : State) (c : CoreId) (x : CtxId) (cls : Nat) (q : Acq) (f : Furrow) : (State.furTop s c x cls q f).2.1.mems = s.mems := by
  simp only [State.furTop]; (repeat' split) <;> (try simp only [Prod.ext_iff] at *) <;> (repeat cases ‹_ ∧ _›) <;> (try subst_vars) <;> (simp_all [foldl_mems]; done)

@[simp] theorem State.furHit_mems (s : State) (c : CoreId) (x : CtxId) (fn : FurNo) (a n : Nat) : (s.furHit c x fn a n).mems = s.mems := by
  simp only [State.furHit, State.modCore_mems]

@[simp] theorem State.furSpill_ok (s : State) (c : CoreId) (x : CtxId) (cls n : Nat) (f : Furrow) (hok : MemsOk s.mems) : MemsOk (State.furSpill s c x cls n f).2.1.mems := by
  simp only [State.furSpill]; (repeat' split) <;> (try simp only [Prod.ext_iff] at *) <;> (repeat cases ‹_ ∧ _›) <;> (try subst_vars) <;> (simp_all [foldl_mems]; done)

@[simp] theorem State.furSpillDir_ok (s : State) (c : CoreId) (x : CtxId) (cls : Nat) (f : Furrow) (hok : MemsOk s.mems) : MemsOk (State.furSpillDir s c x cls f).2.1.mems := by
  simp only [State.furSpillDir]; (repeat' split) <;> (try simp only [Prod.ext_iff] at *) <;> (repeat cases ‹_ ∧ _›) <;> (try subst_vars) <;> (simp_all [foldl_mems]; done)

@[simp] theorem State.furSpillDirs_ok (c : CoreId) (x : CtxId) (cls n : Nat) (s : State) (f : Furrow) (hok : MemsOk s.mems) :
    MemsOk (State.furSpillDirs c x cls n s f).2.1.mems := by
  induction n generalizing s f with
  | zero => exact hok
  | succ n ih =>
    have h1 := State.furSpillDir_ok s c x cls f hok
    simp only [State.furSpillDirs]
    split
    · rename_i h; rw [h] at h1; exact h1
    · rename_i h; rw [h] at h1; exact ih _ _ h1

@[simp] theorem State.furPerform_ok (s : State) (c : CoreId) (x : CtxId) (cls : Nat) (f : Furrow) (hok : MemsOk s.mems) :
    MemsOk (s.furPerform c x cls f).2.1.mems := by
  have h1 := State.furSpill_ok s c x cls f.top.length f hok
  simp only [State.furPerform]
  split
  · rename_i h; rw [h] at h1; exact h1
  · rename_i h; rw [h] at h1; exact State.furSpillDirs_ok _ _ _ _ _ _ h1

@[simp] theorem State.furRow_mems (s : State) (c : CoreId) (x : CtxId) (cls : Nat) (q : Acq) (t : Tensor) (p : Nat × Nat × Nat) :
    (s.furRow c x cls q t p).2.mems = s.mems := by
  unfold State.furRow
  extract_lets keep codes b
  refine ite_mems2 rfl ?_
  have h1 := State.furRead_mems s c x cls q (t.handle * 2 ^ 48 + b.1) (ceilDiv (b.2 + p.2.2 * t.w) 8)
  split
  · rename_i h; rw [h] at h1; exact h1
  · rename_i h; rw [h] at h1; exact h1

@[simp] theorem State.furImage_mems (s : State) (c : CoreId) (x : CtxId) (cls : Nat) (q : Acq) (t : Tensor) (n : Nat) :
    (s.furImage c x cls q t n).2.mems = s.mems := by
  unfold State.furImage
  extract_lets s0 r
  have h0 : s0.mems = s.mems := by simp [s0]
  have hr : r.2.mems = s.mems := by
    refine fold2_mems _ (fun p a => ?_) _ _ _ h0
    split
    · rfl
    · have := State.furRow_mems p.2 c x cls q t a
      split <;> (rename_i h; rw [h] at this; exact this)
  refine ite_mems2 h0 ?_
  revert hr
  generalize r = u
  intro hr
  obtain ⟨_ | _, _⟩ := u <;> exact hr

theorem State.furImage_ok (s : State) (c : CoreId) (x : CtxId) (cls : Nat) (q : Acq) (t : Tensor) (n : Nat) (hok : MemsOk s.mems) :
    MemsOk (s.furImage c x cls q t n).2.mems := by simpa using hok

@[simp] theorem State.furPutImage_ok (s : State) (c : CoreId) (x : CtxId) (cls : Nat) (t : Tensor) (bs : List Byte) (hok : MemsOk s.mems) :
    MemsOk (s.furPutImage c x cls t bs).2.mems := by
  unfold State.furPutImage
  extract_lets runs
  refine foldl_ind (fun (p : (Option (Nat × XFault) × State) × Nat) => MemsOk p.1.2.mems) _ ?_ _ _ hok
  intro p a hp
  extract_lets v rest b haddr
  split
  · rename_i h; rw [h] at hp; exact hp
  · rename_i s1 h; rw [h] at hp
    by_cases hb : t.buf ≠ 0
    · rw [if_pos hb]; simpa using hp
    · rw [if_neg hb]
      split
      · exact hp
      · have hf := State.furVa_mems s1 c x haddr true
        split
        · rename_i h2; rw [h2] at hf; rw [hf]; exact hp
        · rename_i h2; rw [h2] at hf; rw [hf]; exact hp
        · rename_i va s2 h2; rw [h2] at hf
          have hq := State.putDram_ok s2 (furUnit c x) (some 5) cls haddr va b.2 (a.2.2 * t.w) v (by rw [hf]; exact hp)
          split
          · rename_i h3; rw [h3] at hq; exact hq
          · rename_i h3; rw [h3] at hq; exact hq

@[simp] theorem State.setStamp_mems (s : State) (k : Nat) (t : FTable) : (s.setStamp k t).mems = s.mems := rfl

@[simp] theorem State.trapHead_mems (s : State) (h : Header) (wr : Bool) : (s.trapHead h wr).mems = s.mems := by
  unfold State.trapHead; split <;> simp

@[simp] theorem State.furFault_mems (s : State) (c : CoreId) (f : FCmd) (e : Nat × XFault) : (s.furFault c f e).mems = s.mems := by
  unfold State.furFault; split <;> simp [State.furTrap]

@[simp] theorem State.furGo_out (s : State) (h : HOp) (cycles kind : Nat) (ins : Option Instr) (hdr : Header) (hfmt : Nat) (fp : Access4) (lines : List (Nat × Nat))
    (f : State → State) (hf : ∀ t, MemsOk t.mems → MemsOk (f t).mems) (hok : MemsOk s.mems) : OutOk (s.furGo h cycles kind ins hdr hfmt fp lines f) := by
  unfold State.furGo
  split
  · simpa using hok
  · simpa using hf _ (by simpa using hok)

@[simp] theorem State.furScramble_mems (s : State) (c : CoreId) (l : List (Nat × Nat)) : (s.furScramble c l).mems = s.mems := by
  rfl

@[simp] theorem State.furXlate_mems (s : State) (l : List (Nat × Nat)) (e : Nat × XFault) : (s.furXlate l e).mems = s.mems := by
  unfold State.furXlate; split <;> simp

@[simp] theorem State.furFull_mems (s : State) (fn : FurNo) : (State.furFull s fn).mems = s.mems := by
  simp [State.furFull, foldl_mems, *]

@[simp] theorem execFopen_out (h : HOp) (fn : FurNo) (ln : Fin 64) (s : State) (hok : MemsOk s.mems) : OutOk (execFopen h fn ln s) := by
  simp only [execFopen]; (repeat' split) <;> (simp_all; done)

@[simp] theorem execFclose_out (h : HOp) (fn : FurNo) (sv : Bool) (s : State) (hok : MemsOk s.mems) : OutOk (execFclose h fn sv s) := by
  unfold execFclose
  extract_lets f close
  refine out_ite (by simpa [State.hold] using hok) (out_ite (by simpa using hok) (out_ite ?_ ?_))
  · exact State.furGo_out _ _ _ _ _ _ _ _ _ _ (fun t ht => by rw [State.modMyCore_mems]; exact ht) hok
  · split
    · simpa using hok
    · rename_i t ht
      refine out_ite (by simp [hok]) (out_ite (by simp [hok]) ?_)
      split
      · rename_i s1 g1 h2
        have h1 : MemsOk s1.mems := (congrArg (fun (r : _ × State × _) => r.2.1.mems) h2) ▸ State.furPerform_ok _ _ _ _ _ hok
        simpa using h1
      · rename_i s1 g1 h2
        have h1 : MemsOk s1.mems := (congrArg (fun (r : _ × State × _) => r.2.1.mems) h2) ▸ State.furPerform_ok _ _ _ _ _ hok
        extract_lets
        split
        · rename_i s2 h4
          have h3 : MemsOk s2.mems := (congrArg (fun (r : _ × State) => r.2.mems) h4) ▸
            State.furPutImage_ok _ _ _ _ _ _ (by rw [State.freeBytes_mems]; exact h1)
          simpa using h3
        · rename_i s2 h4
          have h3 : MemsOk s2.mems := (congrArg (fun (r : _ × State) => r.2.mems) h4) ▸
            State.furPutImage_ok _ _ _ _ _ _ (by rw [State.freeBytes_mems]; exact h1)
          split
          · rename_i s3 h6
            rw [out_next, State.modMyCore_mems]
            exact State.furGo_out (s2.furHit s.cur.core s.cur.ctx fn f.region.toNat f.size) _ _ _ _ _ _ _ _ _ (fun t ht => by rw [State.modMyCore_mems]; exact ht) (by rw [State.furHit_mems]; exact h3) _ h6
          · exact State.furGo_out _ _ _ _ _ _ _ _ _ _ (fun t ht => by rw [State.modMyCore_mems]; exact ht) h3

@[simp] theorem execFtbl_out (h : HOp) (tb : Fin 8) (s : State) (hok : MemsOk s.mems) : OutOk (execFtbl h tb s) := by
  simp only [execFtbl]; (repeat' split) <;> (simp_all; done)

@[simp] theorem execFpush_out (h : HOp) (fn : FurNo) (tb : Fin 8) (s : State) (hok : MemsOk s.mems) : OutOk (execFpush h fn tb s) := by
  simp only [execFpush]; (repeat' split) <;> (simp_all; done)

@[simp] theorem State.furByp_mems (c : CoreId) (x : CtxId) (cls : Nat) (q : Acq) (n : Nat) (s : State) (f : Furrow) (l : List Nat) :
    (s.furByp c x cls q n f l).2.1.mems = s.mems := by
  induction n generalizing s f l with
  | zero => rfl
  | succ n ih =>
    have h1 := State.furTake_mems s c x cls q f
    simp only [State.furByp]
    split
    · rename_i h; rw [h] at h1; exact h1
    · rename_i h; rw [h] at h1; rw [ih]; exact h1

@[simp] theorem State.furRefill_mems (c : CoreId) (x : CtxId) (cls : Nat) (q : Acq) (n v : Nat) (s : State) (f : Furrow) :
    (s.furRefill c x cls q n v f).2.1.mems = s.mems := by
  induction n generalizing s f v with
  | zero => rfl
  | succ n ih =>
    have h1 := State.furTake_mems s c x cls q f
    simp only [State.furRefill]
    split
    · rfl
    · split
      · rename_i h; rw [h] at h1; exact h1
      · rename_i h; rw [h] at h1; rw [ih]; exact h1

@[simp] theorem State.furSyms_mems (c : CoreId) (x : CtxId) (cls : Nat) (q : Acq) (t : FTable) (n i : Nat) (s : State) (f : Furrow) (l : List Nat) :
    (s.furSyms c x cls q t n i f l).2.1.mems = s.mems := by
  induction n generalizing s f i l with
  | zero => rfl
  | succ n ih =>
    simp only [State.furSyms]
    have h1 := State.furRefill_mems c x cls q 2 (t.freq (findSym (f.lane (i % f.lc) % 2 ^ t.n) t.f.toList 0 0).1 * (f.lane (i % f.lc) / 2 ^ t.n) +
      f.lane (i % f.lc) % 2 ^ t.n - (findSym (f.lane (i % f.lc) % 2 ^ t.n) t.f.toList 0 0).2) s f
    split
    · rename_i h; rw [h] at h1; exact h1
    · rename_i h; rw [h] at h1; rw [ih]; exact h1

@[simp] theorem State.furPopTile_mems (s : State) (c : CoreId) (x : CtxId) (cls : Nat) (q : Acq) (t : FTable) (w cnt : Nat) (f : Furrow) :
    (s.furPopTile c x cls q t w cnt f).2.1.mems = s.mems := by
  have h1 := State.furByp_mems c x cls q (if w = 16 then ceilDiv cnt 2 else 0) s f []
  simp only [State.furPopTile]
  split
  · rename_i h; rw [h] at h1; exact h1
  · rename_i s1 g h; rw [h] at h1
    have h2 := State.furSyms_mems c x cls q t cnt 0 s1 g []
    split
    · rename_i h; rw [h] at h2; exact h2.trans h1
    · rename_i h; rw [h] at h2; exact h2.trans h1

@[simp] theorem execFpop_out (h : HOp) (fn : FurNo) (et : Bool) (s : State) (hok : MemsOk s.mems) : OutOk (execFpop h fn et s) := by
  simp only [execFpop]; (repeat' split) <;> (try simp only [Prod.ext_iff] at *) <;> (repeat cases ‹_ ∧ _›) <;> (try subst_vars) <;> (simp_all; done)

@[simp] theorem execFmark_out (h : HOp) (fn : FurNo) (mk : Fin 8) (s : State) (hok : MemsOk s.mems) : OutOk (execFmark h fn mk s) := by
  simp only [execFmark]; (repeat' split) <;> (simp_all; done)

@[simp] theorem execFdrop_out (h : HOp) (fn : FurNo) (mk : Fin 8) (s : State) (hok : MemsOk s.mems) : OutOk (execFdrop h fn mk s) := by
  simp only [execFdrop]; (repeat' split) <;> (simp_all; done)

@[simp] theorem execFsplitSplit_out (h : HOp) (fn cf : FurNo) (s : State) (hok : MemsOk s.mems) : OutOk (execFsplitSplit h fn cf s) := by
  simp only [execFsplitSplit]; (repeat' split) <;> (simp_all; done)

@[simp] theorem State.furLanes_mems (c : CoreId) (x : CtxId) (cls : Nat) (q : Acq) (n : Nat) (s : State) (f : Furrow) :
    (s.furLanes c x cls q n f).2.1.mems = s.mems := by
  induction n generalizing s f with
  | zero => rfl
  | succ n ih =>
    have h1 := State.furTake_mems s c x cls q f
    simp only [State.furLanes]
    split
    · rename_i h; rw [h] at h1; exact h1
    · rename_i s1 g h; rw [h] at h1
      have h2 := State.furTake_mems s1 c x cls q g
      split
      · rename_i h; rw [h] at h2; exact h2.trans h1
      · rename_i h; rw [h] at h2; rw [ih]; exact h2.trans h1

@[simp] theorem State.furAdopt_mems (s : State) (c : CoreId) (x : CtxId) (cls : Nat) (q : Acq) (e : DirEntry) (child : Bool) (parent : Nat) :
    (s.furAdopt c x cls q e child parent).2.mems = s.mems := by
  unfold State.furAdopt
  extract_lets d f
  have h1 := State.furVa_mems s c x e.region.toNat false
  split
  · exact snd_mems ‹_› h1
  · rename_i s1 h
    have h2 := snd_mems h h1
    refine ite_mems2 h2 ?_
    have h3 := State.furLanes_mems c x cls q f.lc s1 f
    split
    · rename_i h; rw [h] at h3; exact h3.trans h2
    · rename_i h; rw [h] at h3; exact h3.trans h2

@[simp] theorem execFsplitTake_out (h : HOp) (fn cf : FurNo) (s : State) (hok : MemsOk s.mems) : OutOk (execFsplitTake h fn cf s) := by
  simp only [execFsplitTake]; (repeat' split) <;> (try simp only [Prod.ext_iff] at *) <;> (repeat cases ‹_ ∧ _›) <;> (try subst_vars) <;> (simp_all; done)

@[simp] theorem execFsplitImport_out (h : HOp) (cf : FurNo) (s : State) (hok : MemsOk s.mems) : OutOk (execFsplitImport h cf s) := by
  simp only [execFsplitImport]; (repeat' split) <;> (simp_all; done)

@[simp] theorem execFjoin_out (h : HOp) (fn cf : FurNo) (s : State) (hok : MemsOk s.mems) : OutOk (execFjoin h fn cf s) := by
  simp only [execFjoin]; (repeat' split) <;> (try simp only [Prod.ext_iff] at *) <;> (repeat cases ‹_ ∧ _›) <;> (try subst_vars) <;> (simp_all; done)

@[simp] theorem execFstat_out (h : HOp) (fn : FurNo) (clr : Bool) (s : State) (hok : MemsOk s.mems) : OutOk (execFstat h fn clr s) := by
  simp only [execFstat]; (repeat' split) <;> (try simp only [Prod.ext_iff] at *) <;> (repeat cases ‹_ ∧ _›) <;> (try subst_vars) <;> (simp_all; done)

@[simp] theorem State.furTrap_mems (s : State) (c : CoreId) (f : FCmd) (r : TrapRec) (keep : Core → Core) : (State.furTrap s c f r keep).mems = s.mems := by
  simp [State.furTrap, foldl_mems, *]

@[simp] theorem execFtblImageCheck_out (c : CoreId) (s : State) (hok : MemsOk s.mems) : OutOk (execFtblImageCheck c s) := by
  simp only [execFtblImageCheck]; (repeat' split) <;> (try simp only [Prod.ext_iff] at *) <;> (repeat cases ‹_ ∧ _›) <;> (try subst_vars) <;> (simp_all; done)

@[simp] theorem execFsplitImportCheck_out (c : CoreId) (s : State) (hok : MemsOk s.mems) : OutOk (execFsplitImportCheck c s) := by
  simp only [execFsplitImportCheck]; (repeat' split) <;> (try simp only [Prod.ext_iff] at *) <;> (repeat cases ‹_ ∧ _›) <;> (try subst_vars) <;> (simp_all; done)

@[simp] theorem execFurrowChunkMove_out (c : CoreId) (fn : FurNo) (s : State) (hok : MemsOk s.mems) : OutOk (execFurrowChunkMove c fn s) := by
  simp only [execFurrowChunkMove]; (repeat' split) <;> (try simp only [Prod.ext_iff] at *) <;> (repeat cases ‹_ ∧ _›) <;> (try subst_vars) <;> (try simp only [*, out_next, mems_mk, mems_fold, State.modCtx_mems, State.modCore_mems, State.modPart_mems]) <;> (repeat' (first | with_reducible assumption | with_reducible refine out_ite ?_ ?_ | with_reducible refine ite_ok ?_ ?_ | apply State.furSpill_ok | apply State.furSpillDir_ok | (with_reducible refine foldl_ok _ (fun _ _ _ => ?_) _ _ ?_) | (simp_all; done) | split))

@[simp] theorem execFurWordComplete_out (c : CoreId) (s : State) (hok : MemsOk s.mems) : OutOk (execFurWordComplete c s) := by
  simp only [execFurWordComplete]; (repeat' split) <;> (try simp only [Prod.ext_iff] at *) <;> (repeat cases ‹_ ∧ _›) <;> (try subst_vars) <;> (try simp only [*, out_next, mems_mk, mems_fold, State.modCtx_mems, State.modCore_mems, State.modPart_mems]) <;> (repeat' (first | with_reducible assumption | with_reducible refine out_ite ?_ ?_ | with_reducible refine ite_ok ?_ ?_ | apply State.furPutImage_ok | (with_reducible refine foldl_ok _ (fun _ _ _ => ?_) _ _ ?_) | (simp_all; done) | split))

/-! ### Walk -/

@[simp] theorem State.walkStart_mems (s : State) (c : CoreId) (w : WNo) : (s.walkStart c w).mems = s.mems := by
  unfold State.walkStart
  extract_lets s1
  split <;> simp [s1]

@[simp] theorem State.walkGo_out (s : State) (kind : Nat) (o : WOp) (iq : QNo) (hok : MemsOk s.mems) : OutOk (State.walkGo s kind o iq) := by
  simp only [State.walkGo]; (repeat' split) <;> (simp_all; done)

@[simp] theorem execAwcfg_out (o : WOp) (mode : Bool) (s : State) (hok : MemsOk s.mems) : OutOk (execAwcfg o mode s) := by
  simp only [execAwcfg]; (repeat' split) <;> (simp_all; done)

@[simp] theorem execAwgo_out (o : WOp) (s : State) (hok : MemsOk s.mems) : OutOk (execAwgo o s) := by
  simp [execAwgo, hok]

@[simp] theorem execAwgather_out (o : WOp) (iq : QNo) (s : State) (hok : MemsOk s.mems) : OutOk (execAwgather o iq s) := by
  simp [execAwgather, hok]

@[simp] theorem execAwscat_out (o : WOp) (iq : QNo) (s : State) (hok : MemsOk s.mems) : OutOk (execAwscat o iq s) := by
  simp [execAwscat, hok]

@[simp] theorem execAwstop_out (o : WOp) (s : State) (hok : MemsOk s.mems) : OutOk (execAwstop o s) := by
  simp only [execAwstop]; (repeat' split) <;> (simp_all; done)

@[simp] theorem State.landWalker_mems (s : State) (c : CoreId) (w : WNo) : (s.landWalker c w).mems = s.mems := by
  unfold State.landWalker
  extract_lets wk buf s1 cmds done_ s2
  exact (foldl_mems _ (fun t m => ite_mems rfl (by simp)) _ _).trans rfl

@[simp] theorem execWalkerEntry_out (c : CoreId) (w : WNo) (s : State) (hok : MemsOk s.mems) : OutOk (execWalkerEntry c w s) := by
  simp only [execWalkerEntry]; (repeat' split) <;> (simp_all; done)

end Sys2Proof.Machine
end

