-- ==== Sys2Proof/Laws/CanonSystem.lean ====
section
/-! SUPPORT. Sys2Proof/Laws/CanonSystem.lean: the byte memories keep their canonical form (`MemsOk`) through stops, images, the dispatcher, system words, synchronization and holds: an operation
that writes no memory leaves `mems` as it is (`_mems`), one that writes keeps the form (`_ok`), and so does what a meaning answers
(`_out`). -/

set_option Elab.async false

set_option linter.unusedSimpArgs false

namespace Sys2Proof.Machine

/-! ### Image -/

@[simp] theorem State.furReopen_mems (s : State) (c : CoreId) (t : CtxId) : (s.furReopen c t).mems = s.mems := by
  unfold State.furReopen; exact ite_mems rfl rfl

@[simp] theorem State.install_mems (s : State) (c : CoreId) (t : CtxId) (bs : List Byte) (self : Bool) : (State.install s c t bs self).mems = s.mems := by
  simp [State.install]

@[simp] theorem State.furFlushAll_ok (s : State) (c : CoreId) (t : CtxId) (hok : MemsOk s.mems) : MemsOk (s.furFlushAll c t).2.mems := by
  unfold State.furFlushAll
  refine ite_ok2 hok ?_
  refine foldl_ok2 _ ?_ _ _ hok
  intro p f hp
  split
  · exact hp
  · refine ite_ok2 hp ?_
    exact State.furPerform_ok _ _ _ _ _ hp

@[simp] theorem execCsave_out (a : SReg) (ctx : CtxId) (s : State) (hok : MemsOk s.mems) : OutOk (execCsave a ctx s) := by
  unfold execCsave
  extract_lets c w
  refine out_ite (by simpa [State.hold] using hok) (out_ite (by simpa using hok) ?_)
  split
  · rw [out_next]; exact ite_ok (by simpa using hok) (by simpa using hok)
  · rename_i i hi
    extract_lets va u
    have h1 := State.probeVa_mems s (ctlUnit c s.cur.ctx) none w.toNat va 0x1C000 .wr
    split
    · simpa using hok
    · rename_i s1 h2; rw [h2] at h1
      have hs1 : MemsOk s1.mems := by rw [h1]; exact hok
      have h3 := State.furFlushAll_ok s1 c ctx hs1
      split
      · simpa using hok
      · rename_i s2 h4; rw [h4] at h3
        simp only [out_next, State.modMe_mems, State.issued_mems]
        exact State.writeVa_ok _ _ _ _ _ _ _ h3

@[simp] theorem State.readContext_mems (s : State) (w : Word) (t : CtxId) : (State.readContext s w t).2.mems = s.mems := by
  simp only [State.readContext]; (repeat' split) <;> (try simp only [Prod.ext_iff] at *) <;> (repeat cases ‹_ ∧ _›) <;> (try subst_vars) <;> (simp_all [foldl_mems]; done)

@[simp] theorem State.cloadNow_mems (s : State) (w : Word) (t : CtxId) : (State.cloadNow s w t).mems = s.mems := by
  simp only [State.cloadNow]; (repeat' split) <;> (try simp only [Prod.ext_iff] at *) <;> (repeat cases ‹_ ∧ _›) <;> (try subst_vars) <;> (simp_all [foldl_mems]; done)

/-! ### Stops -/

@[simp] theorem State.acceptStop_mems (s : State) (c : CoreId) (x : CtxId) (forced : Bool) : (State.acceptStop s c x forced).mems = s.mems := by
  simp [State.acceptStop, foldl_mems, *]

@[simp] theorem execStopAccept_out (c : CoreId) (x : CtxId) (s : State) (hok : MemsOk s.mems) : OutOk (execStopAccept c x s) := by
  simp only [execStopAccept]; (repeat' split) <;> (simp_all; done)

@[simp] theorem execStopRecord_out (c : CoreId) (x : CtxId) (s : State) (hok : MemsOk s.mems) : OutOk (execStopRecord c x s) := by
  simp only [execStopRecord]; (repeat' split) <;> (simp_all; done)

@[simp] theorem State.spoilImages_ok (s : State) (c : CoreId) (x : CtxId) (ws : List Word) (hok : MemsOk s.mems) :
    MemsOk (s.spoilImages c x ws).mems := by
  refine foldl_ok _ ?_ _ _ hok
  intro t w ht
  split
  · exact State.spoilVa_ok _ _ _ _ _ _ _ ht
  · exact ht

@[simp] theorem execBracketForce_out (c : CoreId) (x : CtxId) (s : State) (hok : MemsOk s.mems) : OutOk (execBracketForce c x s) := by
  simp only [execBracketForce]; (repeat' split) <;> (simp_all; done)

@[simp] theorem execBreakpointFire_out (b : Fin 16) (s : State) (hok : MemsOk s.mems) : OutOk (execBreakpointFire b s) := by
  simp only [execBreakpointFire]; (repeat' split) <;> (simp_all; done)

@[simp] theorem execKeyMismatch_out (c : CoreId) (x : CtxId) (s : State) (hok : MemsOk s.mems) : OutOk (execKeyMismatch c x s) := by
  simp only [execKeyMismatch]; (repeat' split) <;> (simp_all; done)

@[simp] theorem execUncorrectedSoftError_out (line : Nat) (s : State) (hok : MemsOk s.mems) : OutOk (execUncorrectedSoftError line s) := by
  simp only [execUncorrectedSoftError]; (repeat' split) <;> (simp_all; done)

/-! ### Dispatcher -/

@[simp] theorem State.launchBlock_mems (s : State) (c : CoreId) (x : CtxId) (t : Task) : (State.launchBlock s c x t).2.mems = s.mems := by
  simp only [State.launchBlock]; (repeat' split) <;> (try simp only [Prod.ext_iff] at *) <;> (repeat cases ‹_ ∧ _›) <;> (try subst_vars) <;> (simp_all [foldl_mems]; done)

@[simp] theorem State.startMember_ok (s : State) (c : CoreId) (x : CtxId) (t : Task) (i : Nat) (bs : List Byte) (hok : MemsOk s.mems) : MemsOk (State.startMember s c x t i bs).mems := by
  simp [State.startMember, foldl_mems, *]

@[simp] theorem State.dispatchTask_ok (s : State) (t : Task) (l : List (CoreId × CtxId)) (hok : MemsOk s.mems) : MemsOk (s.dispatchTask t l).mems := by
  unfold State.dispatchTask
  extract_lets blocks s1 s2
  have hb : MemsOk blocks.2.mems := by
    refine foldl_ok2 _ (fun p a h => ?_) _ _ hok
    dsimp only
    rw [State.launchBlock_mems]; exact h
  have h1 : MemsOk s1.mems := by simpa [s1] using hb
  refine ite_ok (by simpa using h1) ?_
  refine foldl_ok _ (fun u a h => State.startMember_ok _ _ _ _ _ _ h) _ _ ?_
  simpa [s2] using h1

@[simp] theorem State.setDeficit_mems (s : State) (p level v : Nat) : (State.setDeficit s p level v).mems = s.mems := by
  rfl

@[simp] theorem State.serve_ok (n p level : Nat) (s : State) (hok : MemsOk s.mems) : MemsOk (State.serve n p level s).mems := by
  induction n generalizing s with
  | zero => exact hok
  | succ n ih =>
    simp only [State.serve]
    split
    · exact hok
    · refine ite_ok hok (ih _ ?_)
      simp [hok]

@[simp] theorem State.visit_ok (s : State) (p level : Nat) (hok : MemsOk s.mems) : MemsOk (s.visit p level).mems := by
  unfold State.visit
  extract_lets d s1 s2
  have h2 : MemsOk s2.mems := State.serve_ok _ _ _ _ (by simpa [s1] using hok)
  exact ite_ok h2 (by simpa using h2)

theorem State.selectRound_ok (s t : State) (hok : MemsOk s.mems) (h : s.selectRound = some t) : MemsOk t.mems := by
  simp only [State.selectRound] at h
  split at h
  · cases h
  · cases h
    exact foldl_ok _ (fun u a h => State.visit_ok _ _ _ h) _ _ hok

@[simp] theorem State.selectAll_ok (n : Nat) (s : State) (hok : MemsOk s.mems) : MemsOk (State.selectAll n s).mems := by
  induction n generalizing s with
  | zero => exact hok
  | succ n ih =>
    simp only [State.selectAll]
    split
    · exact hok
    · exact ih _ (State.selectRound_ok _ _ hok ‹_›)

@[simp] theorem execDispatchSelect_out (s : State) (hok : MemsOk s.mems) : OutOk (execDispatchSelect s) := by
  simp [execDispatchSelect, hok]

@[simp] theorem State.digestMessage_mems (s : State) (c : CoreId) (x : CtxId) (t : Task) : (s.digestMessage c x t).2.mems = s.mems := by
  refine foldl_eq2 _ ?_ _ _
  intro p o
  have hh := State.handle_mems p.2 c x o.1 0 false
  split
  · rename_i i s1 h; rw [h] at hh
    have hr := State.readVa_mems s1 (ctlUnit c x) none 0 s1.acqNow true (o.1 * 2 ^ 48) i.base i.len
    split
    · rename_i h2; rw [h2] at hr; exact hr.trans hh
    · rename_i h2; rw [h2] at hr
      exact (State.freeBytes_mems _ _).trans (hr.trans hh)
  · rename_i h; rw [h] at hh; exact hh

@[simp] theorem State.doneDigest_mems (s : State) (c : CoreId) (x : CtxId) (t : Task) : (State.doneDigest s c x t).2.mems = s.mems := by
  simp only [State.doneDigest]; (repeat' split) <;> (simp_all [foldl_mems]; done)

@[simp] theorem execDrainingEnd_out (c : CoreId) (x : CtxId) (s : State) (hok : MemsOk s.mems) : OutOk (execDrainingEnd c x s) := by
  unfold execDrainingEnd
  extract_lets p
  refine out_ite (by simp [hok]) ?_
  split
  · simp [hok]
  · rename_i t ht
    extract_lets s0 d
    have h0 : MemsOk s0.mems := State.taskRecord_ok _ _ _ _ _ _ hok
    have hd : MemsOk d.2.mems := by simp only [d]; rw [State.doneDigest_mems]; exact h0
    refine out_ite (by rw [out_next]; exact State.emptyCtx_ok _ _ _ (by rw [State.modTask_mems]; exact h0)) ?_
    have h1 := State.dispLog_ok d.2 p 7 t.num t.num 0 d.1 [] hd
    split
    · rename_i s1 h2; rw [h2] at h1; simp [h1]
    · rename_i s1 h2; rw [h2] at h1
      extract_lets s2 s3
      have h2 : MemsOk s2.mems := State.emptyCtx_ok _ _ _ (by simpa using h1)
      have h3 : MemsOk s3.mems := ite_ok h2 (by rw [State.resolve_mems]; exact h2)
      rw [out_next]
      exact ite_ok h3 (State.submit_ok _ _ _ _ _ _ _ _ h3)

@[simp] theorem execTaskAge_out (s : State) (hok : MemsOk s.mems) : OutOk (execTaskAge s) := by
  simp only [execTaskAge]; (repeat' split) <;> (simp_all; done)

@[simp] theorem execSliceStart_out (s : State) (hok : MemsOk s.mems) : OutOk (execSliceStart s) := by
  simp [execSliceStart, hok]

/-! ### System -/

@[simp] theorem execTrap_out (code : BitVec 16) (s : State) (hok : MemsOk s.mems) : OutOk (execTrap code s) := by
  simp only [execTrap]; (repeat' split) <;> (simp_all; done)

@[simp] theorem execEret_out (s : State) (hok : MemsOk s.mems) : OutOk (execEret s) := by
  simp only [execEret]; (repeat' split) <;> (simp_all; done)

@[simp] theorem State.tlbi_mems (s : State) (p : Nat) (kind : TlbiKind) : (State.tlbi s p kind).mems = s.mems := by
  unfold State.tlbi; extract_lets keep s1; rw [State.modMe_mems, State.issued_mems]; rfl

@[simp] theorem execHall_out (s : State) (hok : MemsOk s.mems) : OutOk (execHall s) := by
  simp only [execHall]; (repeat' split) <;> (simp_all; done)

@[simp] theorem execHone_out (a : SReg) (s : State) (hok : MemsOk s.mems) : OutOk (execHone a s) := by
  simp only [execHone]; (repeat' split) <;> (simp_all; done)

@[simp] theorem execS1va_out (a b : SReg) (s : State) (hok : MemsOk s.mems) : OutOk (execS1va a b s) := by
  simp only [execS1va]; (repeat' split) <;> (simp_all; done)

@[simp] theorem execS1asid_out (b : SReg) (s : State) (hok : MemsOk s.mems) : OutOk (execS1asid b s) := by
  simp only [execS1asid]; (repeat' split) <;> (simp_all; done)

@[simp] theorem execS1all_out (s : State) (hok : MemsOk s.mems) : OutOk (execS1all s) := by
  simp only [execS1all]; (repeat' split) <;> (simp_all; done)

@[simp] theorem execS2ipa_out (a b : SReg) (s : State) (hok : MemsOk s.mems) : OutOk (execS2ipa a b s) := by
  simp only [execS2ipa]; (repeat' split) <;> (simp_all; done)

@[simp] theorem execS2part_out (b : SReg) (s : State) (hok : MemsOk s.mems) : OutOk (execS2part b s) := by
  simp only [execS2part]; (repeat' split) <;> (simp_all; done)

@[simp] theorem State.effect_ok (s : State) (d : Deferred) (hok : MemsOk s.mems) : MemsOk (State.effect s d).mems := by
  simp only [State.effect]; (repeat' split) <;> (simp_all [foldl_mems]; done)

@[simp] theorem State.afterDeferred_ok (s : State) (hok : MemsOk s.mems) : MemsOk (State.afterDeferred s).mems := by
  simp only [State.afterDeferred]; (repeat' split) <;> (try simp only [Prod.ext_iff] at *) <;> (repeat cases ‹_ ∧ _›) <;> (try subst_vars) <;> (try simp only [*, mems_mk, mems_fold, State.modCtx_mems, State.modCore_mems, State.modPart_mems]) <;> (repeat' (first | assumption | apply State.effect_ok | (refine foldl_ok _ (fun _ _ _ => ?_) _ _ ?_) | split | (simp_all; done)))

@[simp] theorem State.sysWord_out (s : State) (d : Deferred) (selfNow : Bool) (hok : MemsOk s.mems) : OutOk (State.sysWord s d selfNow) := by
  simp only [State.sysWord]; (repeat' split) <;> (simp_all; done)

@[simp] theorem execCload_out (a : SReg) (ctx : CtxId) (s : State) (hok : MemsOk s.mems) : OutOk (execCload a ctx s) := by
  simp only [execCload]; (repeat' split) <;> (simp_all; done)

@[simp] theorem execPreempt_out (a : SReg) (ctx : CtxId) (s : State) (hok : MemsOk s.mems) : OutOk (execPreempt a ctx s) := by
  simp [execPreempt, hok]

@[simp] theorem execResume_out (ctx : CtxId) (s : State) (hok : MemsOk s.mems) : OutOk (execResume ctx s) := by
  simp [execResume, hok]

@[simp] theorem execRequeue_out (ctx : CtxId) (s : State) (hok : MemsOk s.mems) : OutOk (execRequeue ctx s) := by
  simp [execRequeue, hok]

@[simp] theorem execAbort_out (ctx : CtxId) (s : State) (hok : MemsOk s.mems) : OutOk (execAbort ctx s) := by
  simp [execAbort, hok]

@[simp] theorem execDoorbell_out (a : SReg) (ctx : CtxId) (s : State) (hok : MemsOk s.mems) : OutOk (execDoorbell a ctx s) := by
  simp [execDoorbell, hok]

@[simp] theorem execBopen_out (ctx : CtxId) (s : State) (hok : MemsOk s.mems) : OutOk (execBopen ctx s) := by
  simp only [execBopen]; (repeat' split) <;> (simp_all; done)

@[simp] theorem execBclose_out (ctx : CtxId) (s : State) (hok : MemsOk s.mems) : OutOk (execBclose ctx s) := by
  simp only [execBclose]; (repeat' split) <;> (try simp only [Prod.ext_iff] at *) <;> (repeat cases ‹_ ∧ _›) <;> (try subst_vars) <;> (try simp only [*, out_next, mems_mk, mems_fold, State.modCtx_mems, State.modCore_mems, State.modPart_mems]) <;> (repeat' (first | with_reducible assumption | with_reducible refine out_ite ?_ ?_ | with_reducible refine ite_ok ?_ ?_ | apply State.effect_ok | (with_reducible refine foldl_ok _ (fun _ _ _ => ?_) _ _ ?_) | (simp_all; done) | split))

/-! ### Sync -/

@[simp] theorem State.seal_mems (s : State) : s.seal.mems = s.mems := rfl

@[simp] theorem execSetf_out (f : FlagNo) (a : SReg) (sc : Scope) (add : Bool) (s : State) (hok : MemsOk s.mems) : OutOk (execSetf f a sc add s) := by
  simp only [execSetf]; (repeat' split) <;> (simp_all; done)

@[simp] theorem execWaitf_out (f : FlagNo) (a : SReg) (sc : Scope) (cond : Fin 4) (gate : BitVec 6) (s : State) (hok : MemsOk s.mems) : OutOk (execWaitf f a sc cond gate s) := by
  simp only [execWaitf]; (repeat' split) <;> (simp_all; done)

@[simp] theorem execPhaseRel_out (sc : Scope) (s : State) (hok : MemsOk s.mems) : OutOk (execPhaseRel sc s) := by
  simp only [execPhaseRel]; (repeat' split) <;> (simp_all; done)

@[simp] theorem execPhaseAcq_out (sc : Scope) (s : State) (hok : MemsOk s.mems) : OutOk (execPhaseAcq sc s) := by
  simp only [execPhaseAcq]; (repeat' split) <;> (simp_all; done)

@[simp] theorem execPhaseAcqrel_out (sc : Scope) (s : State) (hok : MemsOk s.mems) : OutOk (execPhaseAcqrel sc s) := by
  simp only [execPhaseAcqrel]; (repeat' split) <;> (simp_all; done)

@[simp] theorem execFence_out (src dst : BitVec 6) (s : State) (hok : MemsOk s.mems) : OutOk (execFence src dst s) := by
  simp only [execFence]; (repeat' split) <;> (simp_all; done)

@[simp] theorem execWfe_out (_a : SReg) (s : State) (hok : MemsOk s.mems) : OutOk (execWfe _a s) := by
  simp only [execWfe]; (repeat' split) <;> (simp_all; done)

@[simp] theorem execWfeTimeout_out (c : CoreId) (x : CtxId) (s : State) (hok : MemsOk s.mems) : OutOk (execWfeTimeout c x s) := by
  simp [execWfeTimeout, hok]

/-! ### Holds -/

@[simp] theorem execSampleTick_out (s : State) (hok : MemsOk s.mems) : OutOk (execSampleTick s) := by
  unfold execSampleTick
  refine out_ite ((out_next s).2 hok) ((out_next _).2 ?_)
  exact foldl_ok _ (fun u c hu => foldl_ok _ (fun u x hu => ite_ok (foldl_ok _ (fun u t hu => ite_ok
    (by rw [State.skipFresh_mems]; exact State.sampleRecord_ok _ _ _ _ _ _ hu) hu) _ _ hu) hu) _ _ hu) _ s hok

end Sys2Proof.Machine
end

