-- ==== Sys2Proof/Laws/CanonHost.lean ====
section
/-! SUPPORT. Sys2Proof/Laws/CanonHost.lean: the byte memories keep their canonical form (`MemsOk`) through the management unit, the host interface and the poll: an operation
that writes no memory leaves `mems` as it is (`_mems`), one that writes keeps the form (`_ok`), and so does what a meaning answers
(`_out`). -/

set_option Elab.async false

set_option linter.unusedSimpArgs false

namespace Sys2Proof.Machine

/-! ### Partition -/

@[simp] theorem State.cmdOver_mems (s : State) (err : Nat) : (State.cmdOver s err).mems = s.mems := by
  rfl

@[simp] theorem State.cmdBegin_mems (s : State) : (State.cmdBegin s).mems = s.mems := by
  rfl

@[simp] theorem execPcmdComplete_out (s : State) (hok : MemsOk s.mems) : OutOk (execPcmdComplete s) := by
  simp only [execPcmdComplete]; (repeat' split) <;> (simp_all; done)

@[simp] theorem State.physBytes_mems (s : State) (pa n : Nat) : (State.physBytes s pa n).2.mems = s.mems := by
  simp only [State.physBytes]; (repeat' split) <;> (simp_all [foldl_mems]; done)

@[simp] theorem execCreate_out (s : State) (hok : MemsOk s.mems) : OutOk (execCreate s) := by
  simp only [execCreate]; (repeat' split) <;> (simp_all; done)

@[simp] theorem State.fenceCtx_mems (s : State) (c : CoreId) (x : CtxId) : (State.fenceCtx s c x).mems = s.mems := by
  simp only [State.fenceCtx]; (repeat' split) <;> (simp_all [foldl_mems]; done)

@[simp] theorem State.fenceHost_mems (s : State) (p : Nat) : (State.fenceHost s p).mems = s.mems := by
  rfl

@[simp] theorem State.discardAnswers_ok (s : State) (c : CoreId) (x : CtxId) (hok : MemsOk s.mems) : MemsOk (State.discardAnswers s c x).mems := by
  simp only [State.discardAnswers]; (repeat' split) <;> (try simp only [Prod.ext_iff] at *) <;> (repeat cases ‹_ ∧ _›) <;> (try subst_vars) <;> (try simp only [*, mems_mk, mems_fold, State.modCtx_mems, State.modCore_mems, State.modPart_mems]) <;> (repeat' (first | assumption | apply State.writePhys_ok | (refine foldl_ok _ (fun _ _ _ => ?_) _ _ ?_) | split | (simp_all; done)))

@[simp] theorem State.clearCtx_ok (s : State) (c : CoreId) (x : CtxId) (hok : MemsOk s.mems) : MemsOk (State.clearCtx s c x).mems := by
  simp [State.clearCtx, foldl_mems, *]

@[simp] theorem State.clearPart_ok (s : State) (p : Nat) (hok : MemsOk s.mems) : MemsOk (s.clearPart p).mems := by
  unfold State.clearPart
  extract_lets d s0 s1 keep cl s2 s3 s4
  have h1 : MemsOk s1.mems := by
    refine foldl_ok _ (fun t q h => ?_) _ _ hok
    exact State.clearCtx_ok _ _ _ (State.discardAnswers_ok _ _ _ h)
  have h3 : MemsOk s3.mems := foldl_ok _ (fun t q h => State.clearConn_ok _ _ _ h) _ _ (show MemsOk s2.mems from h1)
  rw [State.modPart_mems, State.modDp_mems]
  exact h3

@[simp] theorem execReset_out (s : State) (hok : MemsOk s.mems) : OutOk (execReset s) := by
  unfold execReset
  extract_lets p s1 s2 m s3 m2
  have h1 : MemsOk s1.mems := by
    simp only [s1, State.fenceHost_mems]
    exact foldl_ok _ (fun t q h => by rw [State.fenceCtx_mems]; exact h) _ _ hok
  refine out_ite (out_ite (by simpa using hok) ?_) (out_ite (by simpa using hok) (out_ite ?_ (by simpa using hok)))
  · rw [out_next, State.cmdBegin_mems]
    show MemsOk s2.mems
    simpa [s2] using h1
  · rw [out_next, State.cmdOver_mems]
    exact State.clearPart_ok _ _ hok

@[simp] theorem execResetFenceTimeout_out (s : State) (hok : MemsOk s.mems) : OutOk (execResetFenceTimeout s) := by
  simp only [execResetFenceTimeout]; (repeat' split) <;> (try simp only [Prod.ext_iff] at *) <;> (repeat cases ‹_ ∧ _›) <;> (try subst_vars) <;> (try simp only [*, out_next, mems_mk, mems_fold, State.modCtx_mems, State.modCore_mems, State.modPart_mems]) <;> (repeat' (first | with_reducible assumption | with_reducible refine out_ite ?_ ?_ | with_reducible refine ite_ok ?_ ?_ | apply State.discardAnswers_ok | (with_reducible refine foldl_ok _ (fun _ _ _ => ?_) _ _ ?_) | (simp_all; done) | split))

@[simp] theorem State.physPut_ok (s : State) (pa : Nat) (bs : List Byte) (hok : MemsOk s.mems) : MemsOk (State.physPut s pa bs).mems := by
  simp only [State.physPut]; (repeat' split) <;> (try simp only [Prod.ext_iff] at *) <;> (repeat cases ‹_ ∧ _›) <;> (try subst_vars) <;> (try simp only [*, mems_mk, mems_fold, State.modCtx_mems, State.modCore_mems, State.modPart_mems]) <;> (repeat' (first | assumption | apply State.writeMem_ok | (refine foldl_ok _ (fun _ _ _ => ?_) _ _ ?_) | split | (simp_all; done)))

@[simp] theorem execCheckpoint_out (s : State) (hok : MemsOk s.mems) : OutOk (execCheckpoint s) := by
  simp only [execCheckpoint]; (repeat' split) <;> (simp_all; done)

@[simp] theorem State.restoreDisp_mems (s : State) (p : Nat) (c : Ckpt) : (State.restoreDisp s p c).mems = s.mems := by
  rfl

@[simp] theorem State.replayApply_ok (s : State) (p : Nat) (e : LogEntry) (hok : MemsOk s.mems) : MemsOk (s.replayApply p e).mems := by
  unfold State.replayApply
  extract_lets q s1 num
  have h1 : MemsOk s1.mems := by simpa [s1] using hok
  split
  · have h := State.submitImage_ok s q.hcore q.hctx p e.desc 0 (decide (bits (imgDw e.desc 3) 48 4 ≠ 0)) 0 none hok
    refine ite_ok ?_ h
    rw [State.replayStop_mems]
    exact h
  · simpa using h1
  · simpa using h1
  · split <;> exact h1
  · exact h1
  · exact h1

@[simp] theorem execReplay_out (s : State) (hok : MemsOk s.mems) : OutOk (execReplay s) := by
  simp only [execReplay]; (repeat' split) <;> (simp_all; done)

@[simp] theorem State.scrubRange_ok (s : State) (base n key : Nat) (hok : MemsOk s.mems) : MemsOk (s.scrubRange base n key).mems :=
  ⟨swf_filter _ _ _ hok.dram, hok.host⟩

@[simp] theorem execScrub_out (s : State) (hok : MemsOk s.mems) : OutOk (execScrub s) := by
  simp only [execScrub]; (repeat' split) <;> (simp_all; done)

@[simp] theorem execCgrantWrite_out (c : CoreId) (x : CtxId) (v : Word) (s : State) (hok : MemsOk s.mems) : OutOk (execCgrantWrite c x v s) := by
  simp [execCgrantWrite, hok]

@[simp] theorem execPfloorWrite_out (p : PartId) (v : Word) (s : State) (hok : MemsOk s.mems) : OutOk (execPfloorWrite p v s) := by
  simp [execPfloorWrite, hok]

@[simp] theorem execCarbdWrite_out (v : Word) (s : State) (hok : MemsOk s.mems) : OutOk (execCarbdWrite v s) := by
  simp [execCarbdWrite, hok]

@[simp] theorem execCarbpWrite_out (v : Word) (s : State) (hok : MemsOk s.mems) : OutOk (execCarbpWrite v s) := by
  simp [execCarbpWrite, hok]

@[simp] theorem execDselWrite_out (die : Fin 8) (i : Fin 16) (v : Word) (s : State) (hok : MemsOk s.mems) : OutOk (execDselWrite die i v s) := by
  simp [execDselWrite, hok]

@[simp] theorem execRegisterWrite_out (who : Access) (off : Nat) (v : Word) (s : State) (hok : MemsOk s.mems) : OutOk (execRegisterWrite who off v s) := by
  simp only [execRegisterWrite]; (repeat' split) <;> (simp_all; done)

@[simp] theorem State.snapCounters_mems (s : State) (m0 m : Nat) (c : CoreId) (x : CtxId) : (State.snapCounters s m0 m c x).mems = s.mems := by
  rfl

@[simp] theorem State.windowRecords_ok (s : State) (p cls rc m : Nat) (hok : MemsOk s.mems) : MemsOk (State.windowRecords s p cls rc m).mems := by
  simp only [State.windowRecords]; (repeat' split) <;> (try simp only [Prod.ext_iff] at *) <;> (repeat cases ‹_ ∧ _›) <;> (try subst_vars) <;> (try simp only [*, mems_mk, mems_fold, State.modCtx_mems, State.modCore_mems, State.modPart_mems]) <;> (repeat' (first | assumption | apply State.putRecord_ok | (refine foldl_ok _ (fun _ _ _ => ?_) _ _ ?_) | split | (simp_all; done)))

@[simp] theorem State.snapDie_mems (s : State) (due : Nat → Nat → Bool) (p d i : Nat) : (s.snapDie due p d i).mems = s.mems := by
  unfold State.snapDie; extract_lets sel
  exact ite_mems rfl (by rw [State.modDie_mems, State.dieCounts_mems])

@[simp] theorem State.windowPart_ok (s : State) (m0 m p : Nat) (hok : MemsOk s.mems) : MemsOk (State.windowPart s m0 m p).mems := by
  unfold State.windowPart
  extract_lets due last s1 s2 s3
  have h1 : s1.mems = s.mems := foldl_mems _ (fun _ _ => State.snapCounters_mems _ _ _ _ _) _ _
  have h2 : s2.mems = s1.mems := foldl_mems _ (fun _ _ => foldl_mems _ (fun _ _ => State.snapDie_mems _ _ _ _ _) _ _) _ _
  have h3 : s3.mems = s2.mems := ite_mems (by rw [State.modPart_mems, State.powerCounts_mems]) rfl
  refine foldl_ok _ (fun t rc h => ?_) _ _ (by rw [h3, h2, h1]; exact hok)
  exact ite_ok (State.windowRecords_ok _ _ _ _ _ (ite_ok (State.windowRecords_ok _ _ _ _ _ h) h)) (ite_ok (State.windowRecords_ok _ _ _ _ _ h) h)

@[simp] theorem execWindowSummary_out (s : State) (hok : MemsOk s.mems) : OutOk (execWindowSummary s) := by
  unfold execWindowSummary
  extract_lets m o s1
  rw [out_next]
  refine foldl_ok _ (fun t p h => ?_) _ _ hok
  exact ite_ok (State.windowPart_ok _ _ _ _ h) h

/-! ### HostLink -/

@[simp] theorem execHostQueueCommand_out (q : Fin 64) (h : HostCmd) (s : State) (hok : MemsOk s.mems) : OutOk (execHostQueueCommand q h s) := by
  simp only [execHostQueueCommand]; (repeat' split) <;> (simp_all; done)

@[simp] theorem State.hostChunk_ok (s : State) (r : HostRun) (hok : MemsOk s.mems) : MemsOk (State.hostChunk s r).mems := by
  simp only [State.hostChunk]; (repeat' split) <;> (simp_all [foldl_mems]; done)

@[simp] theorem State.hostStep_ok (s : State) (r : HostRun) (hok : MemsOk s.mems) : MemsOk (State.hostStep s r).mems := by
  simp only [State.hostStep]; (repeat' split) <;> (simp_all [foldl_mems]; done)

@[simp] theorem State.hostRunsTick_ok (s : State) (hok : MemsOk s.mems) : MemsOk (State.hostRunsTick s).mems := by
  simp only [State.hostRunsTick]; (repeat' split) <;> (try simp only [Prod.ext_iff] at *) <;> (repeat cases ‹_ ∧ _›) <;> (try subst_vars) <;> (try simp only [*, mems_mk, mems_fold, State.modCtx_mems, State.modCore_mems, State.modPart_mems]) <;> (repeat' (first | assumption | apply State.hostStep_ok | (refine foldl_ok _ (fun _ _ _ => ?_) _ _ ?_) | split | (simp_all; done)))

@[simp] theorem execHostLinkError_out (q : Fin 64) (s : State) (hok : MemsOk s.mems) : OutOk (execHostLinkError q s) := by
  unfold execHostLinkError
  extract_lets p det note
  have hn : ∀ (u : State) (c : CoreId) (x : CtxId), MemsOk u.mems → MemsOk (note u c x).mems :=
    fun u c x h => State.faultRecord_ok _ _ _ _ _ _ _ _ h
  clear_value note
  split
  · rw [out_next]
    exact hn _ _ _ (by rw [State.copyOver_mems]; exact State.scramble_ok _ _ _ _ _ hok)
  · split
    · exact (out_next _).2 hok
    · extract_lets n f s1 s2 src s3
      have h1 : MemsOk s1.mems := ite_ok (ite_ok (State.spoilPhys_ok _ _ _ _ _ _ hok) hok)
        (State.writeMem_ok _ _ _ _ _ _ (by rw [State.freeBytes_mems]; exact hok))
      have h2 : s2.mems = s1.mems := by simp only [s2]; split <;> simp
      rw [out_next]
      exact hn _ _ _ (by rw [State.hqSettle_mems]; show MemsOk s2.mems; rw [h2]; exact h1)

@[simp] theorem execAtsInvalidation_out (pasid : Nat) (addr : Nat) (s : State) (hok : MemsOk s.mems) : OutOk (execAtsInvalidation pasid addr s) := by
  simp [execAtsInvalidation, hok]

@[simp] theorem execDbellWrite_out (p : PartId) (v : Word) (s : State) (hok : MemsOk s.mems) : OutOk (execDbellWrite p v s) := by
  simp [execDbellWrite, hok]

@[simp] theorem execHqcfgWrite_out (q : Fin 64) (v : Word) (s : State) (hok : MemsOk s.mems) : OutOk (execHqcfgWrite q v s) := by
  simp [execHqcfgWrite, hok]

theorem mkFw (s : State) (m : Mem) (h : HostIf) (hm : m.wf = true) (hh : s.hostMem.wf = true) :
    MemsOk ({ s with mem := m, keys := [], hist := [], bad := [], host := h }).mems := ⟨hm, hh⟩

theorem modCtxOk (s : State) (c : CoreId) (x : CtxId) (f : Ctx → Ctx) (h : MemsOk s.mems) : MemsOk (s.modCtx c x f).mems := h

@[simp] theorem State.enterFirmware_ok (s : State) (bs : List Byte) (src : Bool) (hok : MemsOk s.mems) : MemsOk (s.enterFirmware bs src).mems := by
  unfold State.enterFirmware
  extract_lets f ho s1
  exact modCtxOk s1 _ _ _ (mkFw s _ _ (ssetBytes_wf _ _ _ rfl) hok.host)

@[simp] theorem State.romPoll_ok (s : State) (hok : MemsOk s.mems) : MemsOk s.romPoll.mems := by
  unfold State.romPoll
  extract_lets bs s1 e
  refine ite_ok hok (ite_ok (State.enterFirmware_ok _ _ _ hok) hok)

@[simp] theorem execBootwinWrite_out (v : Word) (s : State) (hok : MemsOk s.mems) : OutOk (execBootwinWrite v s) := by
  simp [execBootwinWrite, hok]

@[simp] theorem State.powerOn_ok (s : State) (hok : MemsOk s.mems) : MemsOk s.powerOn.mems := ⟨rfl, hok.host⟩

@[simp] theorem State.romBoot_ok (s : State) (hok : MemsOk s.mems) : MemsOk (State.romBoot s).mems := by
  simp only [State.romBoot]; (repeat' split) <;> (simp_all [foldl_mems]; done)

@[simp] theorem execPowerOnReset_out (s : State) (hok : MemsOk s.mems) : OutOk (execPowerOnReset s) := by
  simp [execPowerOnReset, hok]

@[simp] theorem execAreqGo_out (s : State) (hok : MemsOk s.mems) : OutOk (execAreqGo s) := by
  simp only [execAreqGo]; (repeat' split) <;> (simp_all; done)

@[simp] theorem execThermalThrottle_out (on : Bool) (s : State) (hok : MemsOk s.mems) : OutOk (execThermalThrottle on s) := by
  simp [execThermalThrottle, hok]

@[simp] theorem execThermalShutdown_out (s : State) (hok : MemsOk s.mems) : OutOk (execThermalShutdown s) := by
  simp [execThermalShutdown, hok]

@[simp] theorem execPowerStateD3hot_out (s : State) (hok : MemsOk s.mems) : OutOk (execPowerStateD3hot s) := by
  simp only [execPowerStateD3hot]; (repeat' split) <;> (simp_all; done)

@[simp] theorem State.fixLine_mems (s : State) (line : Nat) : (s.fixLine line).mems = s.mems := ite_mems rfl rfl

theorem setColObs_mems (s : State) (k : Col) (o : Obs) : ({ s with col := k, obs := o }).mems = s.mems := rfl

@[simp] theorem State.setGtime_mems (s : State) (ns : Nat) : (s.setGtime ns).mems = s.mems := by
  unfold State.setGtime; exact setColObs_mems s _ _

@[simp] theorem State.sendPtp_mems (s : State) (port : Fin 2) (event : Bool) (time : Nat) : (s.sendPtp port event time).mems = s.mems := rfl

@[simp] theorem State.takeInput_ok (i : Input) (s : State) (hok : MemsOk s.mems) : MemsOk (s.takeInput i).mems := by
  cases i with
  | hostWrite => exact ite_ok hok (State.writeMem_ok _ _ _ _ _ _ hok)
  | loaderSubmit => exact ite_ok (State.submit_ok _ _ _ _ _ _ _ _ hok) hok
  | loaderFuture => exact ite_ok (State.newFut_ok _ _ _ hok) hok
  | notify => exact ite_ok hok hok
  | gtime ns => show MemsOk (s.setGtime ns).mems; rw [State.setGtime_mems]; exact hok
  | _ => simp [State.takeInput, hok]

/-! ### Events -/

theorem State.globalEvent_mems (s : State) (i : Instr) (t : State) (h : s.globalEvent = some (i, t)) : t.mems = s.mems := by
  unfold State.globalEvent at h
  split at h
  · cases h; rfl
  · rw [Option.map_eq_some_iff] at h
    obtain ⟨j, _, h⟩ := h
    cases h; rfl

theorem execOut : True := trivial

@[simp] theorem State.noteWaits_mems (s : State) (c : CoreId) (x : CtxId) : (State.noteWaits s c x).mems = s.mems := by
  simp only [State.noteWaits]; (repeat' split) <;> (simp_all [foldl_mems]; done)

@[simp] theorem State.countCycle_mems (s : State) (c : CoreId) (x : CtxId) : (State.countCycle s c x).mems = s.mems := by
  simp only [State.countCycle]; (repeat' split) <;> (simp_all [foldl_mems]; done)

@[simp] theorem State.tlbiTick_mems (s : State) (c : CoreId) (x : CtxId) : (s.tlbiTick c x).mems = s.mems := by
  unfold State.tlbiTick
  split
  · exact ite_mems rfl rfl
  · rfl

@[simp] theorem State.busyTick_mems (s : State) (c : CoreId) (x : CtxId) : (s.busyTick c x).mems = s.mems := ite_mems rfl rfl

@[simp] theorem State.fenceStep_mems (s : State) (c : CoreId) (x : CtxId) (f : OpenFence) : (s.fenceStep c x f).mems = s.mems := by
  unfold State.fenceStep
  split
  · exact ite_mems rfl rfl
  · exact ite_mems rfl rfl

@[simp] theorem State.fenceTick_mems (s : State) (c : CoreId) (x : CtxId) : (s.fenceTick c x).mems = s.mems :=
  foldl_mems _ (fun _ _ => State.fenceStep_mems _ _ _ _) _ _

@[simp] theorem State.endCtx_mems (s : State) (c : CoreId) (x : CtxId) : (State.endCtx s c x).mems = s.mems := by
  unfold State.endCtx; extract_lets s1
  exact ite_mems (by simp [s1]) (by simp [s1])

@[simp] theorem State.endCore_ok (s : State) (c : CoreId) (hok : MemsOk s.mems) : MemsOk (State.endCore s c).mems := by
  simp only [State.endCore]; (repeat' split) <;> (simp_all [foldl_mems]; done)

@[simp] theorem State.takeDue_ok (s : State) (hok : MemsOk s.mems) : MemsOk s.takeDue.mems := by
  unfold State.takeDue
  split
  · exact hok
  · exact State.takeInput_ok _ _ hok
  · exact hok

theorem endCores_ok (s : State) (h : MemsOk s.mems) : MemsOk ((List.finRange 128).foldl (fun (t : State) c => t.endCore c) s).mems :=
  foldl_ok _ (fun t c h => State.endCore_ok t c h) _ _ h

theorem setCycle_ok (s : State) (n m : Nat) (hok : MemsOk s.mems) : MemsOk ({ s with cycle := n, turn := m }).mems := hok

@[simp] theorem State.tick_ok (s : State) (hok : MemsOk s.mems) : MemsOk s.tick.mems := by
  have h1 := endCores_ok s hok
  unfold State.tick
  revert h1
  generalize (List.finRange 128).foldl (fun (t : State) c => t.endCore c) s = u
  intro h1
  exact setCycle_ok _ _ _ (State.colRun_ok _ (State.hostRunsTick_ok _ (State.romPoll_ok _ (State.takeDue_ok _ h1))))

/-! ### Poll -/

@[simp] theorem State.settle_ok (s r : State) (hs : MemsOk s.mems) (hr : MemsOk r.mems) : MemsOk (s.settle r).mems := ite_ok hs hr

theorem setCur_ok (s : State) (a : Agent) (n : Nat) (hok : MemsOk s.mems) : MemsOk ({ s with cur := a, turn := n }).mems := hok

theorem State.poll_act_ok (s : State) (hok : MemsOk s.mems) (i : Instr) (t : State) (h : s.poll = .act i t) : MemsOk t.mems := by
  unfold State.poll at h
  split at h
  · rename_i j u hg
    cases h
    split at hg
    · rw [State.globalEvent_mems _ _ _ hg]; exact hok
    · cases hg
  · extract_lets f at h
    generalize List.findSome? _ _ = q at h
    obtain _ | ⟨c, m, j, a⟩ := q
    · cases h
    · dsimp only at h
      have := (Poll.act.inj h).2
      rw [← this]; exact setCur_ok s _ _ hok

theorem act_ne_tick (i : Instr) (t u : State) : Poll.act i t ≠ Poll.tick u := by intro h; cases h

theorem State.poll_tick_ok (s : State) (hok : MemsOk s.mems) (t : State) (h : s.poll = .tick t) : MemsOk t.mems := by
  unfold State.poll at h
  split at h
  · exact absurd h (act_ne_tick _ _ _)
  · extract_lets f at h
    generalize List.findSome? _ _ = q at h
    obtain _ | ⟨c, m, j, a⟩ := q
    · rw [← Poll.tick.inj h]; exact State.tick_ok _ hok
    · exact absurd h (act_ne_tick _ _ _)

end Sys2Proof.Machine
end

