-- ==== Sys2Proof/Laws/Encode.lean ====
section
/-! SUPPORT. Sys2Proof/Laws/Encode.lean: packed fields read back (R58): the fields of a packed word, and the four fields of a text
word. -/

set_option Elab.async false

namespace Sys2Proof

namespace Machine

/-- A packed list of fields lies below 2 to the sum of their widths. -/
theorem pack_lt (fs : List (Nat × Nat)) : pack fs < 2 ^ (fs.map Prod.fst).sum := by
  induction fs with
  | nil => simp [pack]
  | cons p r ih =>
    obtain ⟨n, v⟩ := p
    simp only [pack, List.map_cons, List.sum_cons, Nat.pow_add]
    have h1 : v % 2 ^ n < 2 ^ n := Nat.mod_lt _ (Nat.two_pow_pos n)
    have h2 : v % 2 ^ n * 2 ^ (r.map Prod.fst).sum + 2 ^ (r.map Prod.fst).sum ≤ 2 ^ n * 2 ^ (r.map Prod.fst).sum := by
      rw [← Nat.succ_mul]
      exact Nat.mul_le_mul_right _ h1
    omega

/-- What stands above the fields that are read does not matter. -/
theorem unpack_add (ws : List Nat) (a b k : Nat) (h : ws.sum ≤ k) : unpack ws (a * 2 ^ k + b) = unpack ws b := by
  induction ws with
  | nil => rfl
  | cons n r ih =>
    simp only [List.sum_cons] at h
    simp only [unpack]
    rw [ih (by omega)]
    congr 1
    obtain ⟨j, rfl⟩ : ∃ j, k = r.sum + (n + j) := ⟨k - r.sum - n, by omega⟩
    have e : a * 2 ^ (r.sum + (n + j)) = 2 ^ r.sum * (2 ^ n * (a * 2 ^ j)) := by
      rw [Nat.pow_add, Nat.pow_add]
      generalize 2 ^ r.sum = x
      generalize 2 ^ n = y
      generalize 2 ^ j = z
      rw [Nat.mul_left_comm a x, Nat.mul_left_comm a y]
    rw [e, Nat.mul_add_div (Nat.two_pow_pos _), Nat.mul_add_mod]

/-- The fields of a packed list read back, each modulo its width. -/
theorem unpack_pack (fs : List (Nat × Nat)) : unpack (fs.map Prod.fst) (pack fs) = fs.map fun p => p.2 % 2 ^ p.1 := by
  induction fs with
  | nil => rfl
  | cons p r ih =>
    obtain ⟨n, v⟩ := p
    simp only [pack, List.map_cons, unpack]
    rw [unpack_add _ _ _ _ (Nat.le_refl _), ih]
    congr 1
    have h := pack_lt r
    rw [Nat.mul_comm, Nat.mul_add_div (Nat.two_pow_pos _), Nat.div_eq_of_lt h, Nat.add_zero, Nat.mod_mod]

/-- Two packed lists with the same values in the same widths are the same number. -/
theorem pack_unpack (ws : List Nat) (x : Nat) (h : x < 2 ^ ws.sum) : pack (ws.zip (unpack ws x)) = x := by
  have key : ∀ ws : List Nat, ∀ x, pack (ws.zip (unpack ws x)) = x % 2 ^ ws.sum := by
    intro ws
    induction ws with
    | nil => intro x; simp [unpack, pack, Nat.mod_one]
    | cons n r ih =>
      intro x
      have hl : ∀ (q : List Nat) (y : Nat), ((q.zip (unpack q y)).map Prod.fst) = q := by
        intro q
        induction q with
        | nil => intro y; rfl
        | cons m t iht => intro y; simp [unpack, iht]
      simp only [unpack, List.zip_cons_cons, pack, hl, ih, List.sum_cons, Nat.mod_mod]
      rw [Nat.add_comm n, Nat.pow_add, Nat.mod_mul]
      rw [Nat.mul_comm (x / 2 ^ r.sum % 2 ^ n), Nat.add_comm]
  rw [key, Nat.mod_eq_of_lt h]

end Machine

open Machine

/-- A text word as its four fields (R58). -/
def packWord (tag idle opc p : Nat) : Word := BitVec.ofNat 64 (pack [(4, tag), (10, idle), (8, opc), (42, p)])

theorem packWord_toNat (tag idle opc p : Nat) : (packWord tag idle opc p).toNat = pack [(4, tag), (10, idle), (8, opc), (42, p)] := by
  have h := pack_lt [(4, tag), (10, idle), (8, opc), (42, p)]
  simp only [packWord, BitVec.toNat_ofNat]
  exact Nat.mod_eq_of_lt h

theorem packWord_fields (tag idle opc p : Nat) (ht : tag < 16) (hi : idle < 1024) (ho : opc < 256) (hp : p < 2 ^ 42) :
    wordTag (packWord tag idle opc p) = tag ∧ wordIdle (packWord tag idle opc p) = idle ∧ wordOpc (packWord tag idle opc p) = opc ∧
      wordOps (packWord tag idle opc p) = p := by
  have h := unpack_pack [(4, tag), (10, idle), (8, opc), (42, p)]
  simp only [wordTag, wordIdle, wordOpc, wordOps, packWord_toNat, bits]
  simp only [unpack, List.map, List.sum_cons, List.sum_nil, List.cons.injEq, and_true] at h
  obtain ⟨h1, h2, h3, h4⟩ := h
  refine ⟨?_, ?_, ?_, ?_⟩
  · exact h1.trans (Nat.mod_eq_of_lt ht)
  · exact h2.trans (Nat.mod_eq_of_lt hi)
  · exact h3.trans (Nat.mod_eq_of_lt ho)
  · exact h4.trans (Nat.mod_eq_of_lt hp)

/-- A word is its four fields. -/
theorem packWord_word (w : Word) : packWord (wordTag w) (wordIdle w) (wordOpc w) (wordOps w) = w := by
  apply BitVec.eq_of_toNat_eq
  rw [packWord_toNat]
  have h := pack_unpack [4, 10, 8, 42] w.toNat w.isLt
  simp only [unpack, List.sum_cons, List.sum_nil, List.zip_cons_cons, List.zip_nil_left] at h
  simpa [wordTag, wordIdle, wordOpc, wordOps, bits] using h

/-- A word as `encode` lays it out. -/
theorem encode_word (idle : Fin 1024) (i : Instr) (w : Word) (tag opc : Nat) (fs : List (Nat × Nat)) (hp : encodeParts i = some (tag, opc, fs))
    (he : encode idle i = some w) : w = packWord tag idle.val opc (pack fs) := by
  simp only [encode, hp, Option.some.injEq] at he
  exact he.symm

@[simp] theorem pack_zero (n : Nat) : pack [(n, 0)] = 0 := by simp [pack]

theorem legalOr_ok (i : Instr) (h : i.wf = true) : legalOr (.ok i) = .ok i := by
  simp only [Instr.wf, Option.isNone_iff_eq_none] at h
  simp [legalOr, h]

theorem saeLegal_ty (mx : Nat) (a b : Bool) (o : SOp) (h : (saeLegal mx a b o).isNone = true) : o.ty.val ≤ mx := by
  rcases Nat.lt_or_ge mx o.ty.val with g | g
  · simp [saeLegal, firstBad, g] at h
  · exact g

@[simp] theorem b2n_mod (b : Bool) : b2n b % 2 = b2n b := by cases b <;> rfl
@[simp] theorem b2n_one (b : Bool) : (b2n b = 1) = (b = true) := by cases b <;> decide

theorem pack_lt42 (fs : List (Nat × Nat)) (hs : (fs.map Prod.fst).sum = 42) : pack fs < 2 ^ 42 := by
  have h := pack_lt fs
  rwa [hs] at h

@[simp] theorem fin_ofNat_mod (n : Nat) [NeZero n] (a : Fin n) : Fin.ofNat n (a.val % n) = a := by
  apply Fin.ext
  simp [Fin.ofNat, Nat.mod_eq_of_lt a.isLt]

theorem bv_ofNat_mod (n m : Nat) (x : BitVec n) (h : m = 2 ^ n) : BitVec.ofNat n (x.toNat % m) = x := by
  subst h
  rw [Nat.mod_eq_of_lt x.isLt, BitVec.ofNat_toNat, BitVec.setWidth_eq]

@[simp] theorem bv6_mod (x : BitVec 6) : BitVec.ofNat 6 (x.toNat % 64) = x := bv_ofNat_mod 6 _ x (by decide)
@[simp] theorem bv16_mod (x : BitVec 16) : BitVec.ofNat 16 (x.toNat % 65536) = x := bv_ofNat_mod 16 _ x (by decide)
@[simp] theorem bv30_mod (x : BitVec 30) : BitVec.ofNat 30 (x.toNat % 1073741824) = x := bv_ofNat_mod 30 _ x (by decide)
@[simp] theorem bv32_mod (x : BitVec 32) : BitVec.ofNat 32 (x.toNat % 4294967296) = x := bv_ofNat_mod 32 _ x (by decide)

/-! ### Decoding a packed word of a class -/

theorem decodeWord_ctl (w : Word) (h : classOf (wordTag w) = some (.eng .ctl)) : decodeWord w = legalOr (decCtl (wordOpc w) (wordOps w)) := by
  unfold decodeWord
  rw [h]

theorem decode_ctl (idle opc : Nat) (fs : List (Nat × Nat)) (i : Instr) (hi : idle < 1024) (ho : opc < 256) (hs : (fs.map Prod.fst).sum = 42)
    (hw : i.wf = true) (hd : decCtl opc (pack fs) = .ok i) : decodeWord (packWord 0 idle opc (pack fs)) = .ok i := by
  obtain ⟨h1, -, h3, h4⟩ := packWord_fields 0 idle opc (pack fs) (by decide) hi ho (pack_lt42 fs hs)
  rw [decodeWord_ctl _ (by rw [h1]; rfl), h3, h4, hd, legalOr_ok i hw]

theorem decodeWord_vec (w : Word) (h : classOf (wordTag w) = some (.eng .vec)) : decodeWord w = legalOr (decVec (wordOpc w) (wordOps w)) := by
  unfold decodeWord
  rw [h]

theorem decode_vec (idle opc : Nat) (fs : List (Nat × Nat)) (i : Instr) (hi : idle < 1024) (ho : opc < 256) (hs : (fs.map Prod.fst).sum = 42)
    (hw : i.wf = true) (hd : decVec opc (pack fs) = .ok i) : decodeWord (packWord 1 idle opc (pack fs)) = .ok i := by
  obtain ⟨h1, -, h3, h4⟩ := packWord_fields 1 idle opc (pack fs) (by decide) hi ho (pack_lt42 fs hs)
  rw [decodeWord_vec _ (by rw [h1]; rfl), h3, h4, hd, legalOr_ok i hw]

theorem decodeWord_mtx (w : Word) (h : classOf (wordTag w) = some (.eng .mtx)) : decodeWord w = legalOr (decMtx (wordOpc w) (wordOps w)) := by
  unfold decodeWord
  rw [h]

theorem decode_mtx (idle opc : Nat) (fs : List (Nat × Nat)) (i : Instr) (hi : idle < 1024) (ho : opc < 256) (hs : (fs.map Prod.fst).sum = 42)
    (hw : i.wf = true) (hd : decMtx opc (pack fs) = .ok i) : decodeWord (packWord 2 idle opc (pack fs)) = .ok i := by
  obtain ⟨h1, -, h3, h4⟩ := packWord_fields 2 idle opc (pack fs) (by decide) hi ho (pack_lt42 fs hs)
  rw [decodeWord_mtx _ (by rw [h1]; rfl), h3, h4, hd, legalOr_ok i hw]

theorem decodeWord_aw (w : Word) (h : classOf (wordTag w) = some (.eng .aw)) : decodeWord w = legalOr (decAw (wordOpc w) (wordOps w)) := by
  unfold decodeWord
  rw [h]

theorem decode_aw (idle opc : Nat) (fs : List (Nat × Nat)) (i : Instr) (hi : idle < 1024) (ho : opc < 256) (hs : (fs.map Prod.fst).sum = 42)
    (hw : i.wf = true) (hd : decAw opc (pack fs) = .ok i) : decodeWord (packWord 3 idle opc (pack fs)) = .ok i := by
  obtain ⟨h1, -, h3, h4⟩ := packWord_fields 3 idle opc (pack fs) (by decide) hi ho (pack_lt42 fs hs)
  rw [decodeWord_aw _ (by rw [h1]; rfl), h3, h4, hd, legalOr_ok i hw]

theorem decodeWord_cpy (w : Word) (h : classOf (wordTag w) = some (.eng .cpy)) : decodeWord w = legalOr (decCpy (wordOpc w) (wordOps w)) := by
  unfold decodeWord
  rw [h]

theorem decode_cpy (idle opc : Nat) (fs : List (Nat × Nat)) (i : Instr) (hi : idle < 1024) (ho : opc < 256) (hs : (fs.map Prod.fst).sum = 42)
    (hw : i.wf = true) (hd : decCpy opc (pack fs) = .ok i) : decodeWord (packWord 4 idle opc (pack fs)) = .ok i := by
  obtain ⟨h1, -, h3, h4⟩ := packWord_fields 4 idle opc (pack fs) (by decide) hi ho (pack_lt42 fs hs)
  rw [decodeWord_cpy _ (by rw [h1]; rfl), h3, h4, hd, legalOr_ok i hw]

theorem decodeWord_sae (w : Word) (h : classOf (wordTag w) = some (.eng .sae)) : decodeWord w = legalOr (decSae (wordOpc w) (wordOps w)) := by
  unfold decodeWord
  rw [h]

theorem decode_sae (idle opc : Nat) (fs : List (Nat × Nat)) (i : Instr) (hi : idle < 1024) (ho : opc < 256) (hs : (fs.map Prod.fst).sum = 42)
    (hw : i.wf = true) (hd : decSae opc (pack fs) = .ok i) : decodeWord (packWord 5 idle opc (pack fs)) = .ok i := by
  obtain ⟨h1, -, h3, h4⟩ := packWord_fields 5 idle opc (pack fs) (by decide) hi ho (pack_lt42 fs hs)
  rw [decodeWord_sae _ (by rw [h1]; rfl), h3, h4, hd, legalOr_ok i hw]

theorem decodeWord_fur (w : Word) (h : classOf (wordTag w) = some (.eng .fur)) : decodeWord w = legalOr (decFur (wordOpc w) (wordOps w)) := by
  unfold decodeWord
  rw [h]

theorem decode_fur (idle opc : Nat) (fs : List (Nat × Nat)) (i : Instr) (hi : idle < 1024) (ho : opc < 256) (hs : (fs.map Prod.fst).sum = 42)
    (hw : i.wf = true) (hd : decFur opc (pack fs) = .ok i) : decodeWord (packWord 6 idle opc (pack fs)) = .ok i := by
  obtain ⟨h1, -, h3, h4⟩ := packWord_fields 6 idle opc (pack fs) (by decide) hi ho (pack_lt42 fs hs)
  rw [decodeWord_fur _ (by rw [h1]; rfl), h3, h4, hd, legalOr_ok i hw]

theorem decodeWord_all (w : Word) (h : classOf (wordTag w) = some .all) : decodeWord w = legalOr (decAll (wordIdle w) (wordOpc w) (wordOps w)) := by
  unfold decodeWord
  rw [h]

theorem decode_all (idle opc : Nat) (fs : List (Nat × Nat)) (i : Instr) (hi : idle < 1024) (ho : opc < 256) (hs : (fs.map Prod.fst).sum = 42)
    (hw : i.wf = true) (hd : decAll idle opc (pack fs) = .ok i) : decodeWord (packWord 15 idle opc (pack fs)) = .ok i := by
  obtain ⟨h1, h2, h3, h4⟩ := packWord_fields 15 idle opc (pack fs) (by decide) hi ho (pack_lt42 fs hs)
  rw [decodeWord_all _ (by rw [h1]; rfl), h2, h3, h4, hd, legalOr_ok i hw]

/-! ### Layouts read back -/

theorem decV_encV (mk : VOp → Instr) (v : VOp) : decV mk (pack (encV v)) = .ok (mk v) := by
  have q := unpack_pack (encV v)
  simp only [encV, List.map] at q
  simp [-Fin.ofNat_eq_cast, decV, encV, q]

theorem decH_encH (k : HOp → Nat → Decoded) (h : HOp) (x : List (Nat × Nat)) (hx : (x.map Prod.fst).sum = 11) :
    decH k (pack (encH h x)) = k h (pack x) := by
  have q := unpack_pack (encH h x)
  simp only [encH, List.map] at q
  have hp := pack_lt x
  rw [hx] at hp
  have hm : pack x % 2048 = pack x := Nat.mod_eq_of_lt hp
  simp [-Fin.ofNat_eq_cast, decH, encH, q, hm]

theorem decW_encWk (k : WOp → Nat → Decoded) (w : WOp) (x : List (Nat × Nat)) (hx : (x.map Prod.fst).sum = 4) :
    decW k (pack (encWk w x)) = k w (pack x) := by
  have q := unpack_pack (encWk w x)
  simp only [encWk, List.map] at q
  have hp := pack_lt x
  rw [hx] at hp
  have hm : pack x % 16 = pack x := Nat.mod_eq_of_lt hp
  simp [-Fin.ofNat_eq_cast, decW, encWk, q, hm]

theorem decS_encS (mk : SOp → Instr) (o : SOp) : decS mk o.ty.val (pack (encS o)) = .ok (mk o) := by
  unfold decS encS
  rw [decH_encH _ _ _ (by rfl)]
  have q := unpack_pack [(3, o.iq.val), (3, o.vq.val), (3, o.rq.val), (1, b2n o.re), (1, 0)]
  simp only [List.map] at q
  simp [-Fin.ofNat_eq_cast, q, resv]

theorem decR3_encR3 (mk : SReg → SReg → SReg → Instr) (d a b : SReg) : decR3 mk (pack (encR3 d a b)) = .ok (mk d a b) := by
  have q := unpack_pack (encR3 d a b)
  simp only [encR3, List.map] at q
  simp [-Fin.ofNat_eq_cast, decR3, encR3, q, resv]

theorem decImm_encImm (mk : SReg → SReg → BitVec 30 → Instr) (d a : SReg) (i : BitVec 30) : decImm mk (pack (encImm d a i)) = .ok (mk d a i) := by
  have q := unpack_pack (encImm d a i)
  simp only [encImm, List.map] at q
  simp [-Fin.ofNat_eq_cast, decImm, encImm, q, resv]

end Sys2Proof
end

