-- ==== Sys2Proof/Laws/State.lean ====
section
/-! SUPPORT. Sys2Proof/Laws/State.lean: what each update of the state changes and leaves: one lemma per field and update, and the
read-after-write laws of cores, contexts, registers and vectors. -/

set_option Elab.async false

set_option linter.unusedSimpArgs false

namespace Sys2Proof.Machine

/-! ### Vectors by number -/

@[simp] theorem vget_vmod_self {α : Type} {n : Nat} (v : Vector α n) (i : Nat) (f : α → α) (d : α) (h : i < n) :
    vget (vmod v i f) i d = f (vget v i d) := by
  simp [vget, vmod, h]

@[simp] theorem vget_vmod_ne {α : Type} {n : Nat} (v : Vector α n) (i j : Nat) (f : α → α) (d : α) (h : i ≠ j) :
    vget (vmod v i f) j d = vget v j d := by
  unfold vget vmod
  split
  · simp [Vector.getElem?_set, h]
  · rfl

/-! ### Cores and contexts -/

@[simp] theorem State.core_modCore_self (s : State) (c : CoreId) (f : Core → Core) : (s.modCore c f).core c = f (s.core c) := by
  simp [State.core, State.modCore]

theorem State.core_modCore_ne (s : State) (c c' : CoreId) (f : Core → Core) (h : c' ≠ c) : (s.modCore c f).core c' = s.core c' := by
  have : c.val ≠ c'.val := fun e => h (Fin.ext e.symm)
  simp [State.core, State.modCore, Vector.getElem_set, this]

@[simp] theorem Core.ctx_modCtx_self (k : Core) (x : CtxId) (f : Ctx → Ctx) : (k.modCtx x f).ctx x = f (k.ctx x) := by
  simp [Core.ctx, Core.modCtx]

theorem Core.ctx_modCtx_ne (k : Core) (x x' : CtxId) (f : Ctx → Ctx) (h : x' ≠ x) : (k.modCtx x f).ctx x' = k.ctx x' := by
  have : x.val ≠ x'.val := fun e => h (Fin.ext e.symm)
  simp [Core.ctx, Core.modCtx, Vector.getElem_set, this]

@[simp] theorem State.ctx_modCtx_self (s : State) (c : CoreId) (x : CtxId) (f : Ctx → Ctx) : (s.modCtx c x f).ctx c x = f (s.ctx c x) := by
  simp [State.ctx, State.modCtx]

@[simp] theorem State.core_modCtx_self (s : State) (c : CoreId) (x : CtxId) (f : Ctx → Ctx) : (s.modCtx c x f).core c = (s.core c).modCtx x f := by
  simp [State.modCtx]

theorem State.core_modCtx_ne (s : State) (c c' : CoreId) (x : CtxId) (f : Ctx → Ctx) (h : c' ≠ c) : (s.modCtx c x f).core c' = s.core c' :=
  State.core_modCore_ne s c c' _ h

theorem State.ctx_modCtx_ne (s : State) (c c' : CoreId) (x x' : CtxId) (f : Ctx → Ctx) (h : ¬(c' = c ∧ x' = x)) :
    (s.modCtx c x f).ctx c' x' = s.ctx c' x' := by
  by_cases hc : c' = c
  · subst hc
    simp [State.ctx, Core.ctx_modCtx_ne _ _ _ _ (fun e => h ⟨rfl, e⟩)]
  · simp [State.ctx, State.core_modCtx_ne _ _ _ _ _ hc]

@[simp] theorem State.modCore_modCore (s : State) (c : CoreId) (f g : Core → Core) : (s.modCore c f).modCore c g = s.modCore c fun k => g (f k) := by
  simp [State.modCore, State.core]

@[simp] theorem Core.modCtx_modCtx (k : Core) (x : CtxId) (f g : Ctx → Ctx) : (k.modCtx x f).modCtx x g = k.modCtx x fun y => g (f y) := by
  simp [Core.modCtx, Core.ctx]

@[simp] theorem State.modCtx_modCtx (s : State) (c : CoreId) (x : CtxId) (f g : Ctx → Ctx) : (s.modCtx c x f).modCtx c x g = s.modCtx c x fun y => g (f y) := by
  simp [State.modCtx]

@[simp] theorem State.modCore_id (s : State) (c : CoreId) : (s.modCore c fun k => k) = s := by
  simp [State.modCore, State.core]

@[simp] theorem Core.modCtx_id (k : Core) (x : CtxId) : (k.modCtx x fun y => y) = k := by
  simp [Core.modCtx, Core.ctx]

@[simp] theorem State.modCtx_id (s : State) (c : CoreId) (x : CtxId) : (s.modCtx c x fun y => y) = s := by
  simp [State.modCtx]


/-! ### Fields that State.modCore leaves -/

@[simp] theorem State.modCore_mem (s : State) (c : CoreId) (f : Core → Core) : (s.modCore c f).mem = s.mem := rfl
@[simp] theorem State.modCore_keys (s : State) (c : CoreId) (f : Core → Core) : (s.modCore c f).keys = s.keys := rfl
@[simp] theorem State.modCore_hostMem (s : State) (c : CoreId) (f : Core → Core) : (s.modCore c f).hostMem = s.hostMem := rfl
@[simp] theorem State.modCore_hist (s : State) (c : CoreId) (f : Core → Core) : (s.modCore c f).hist = s.hist := rfl
@[simp] theorem State.modCore_bad (s : State) (c : CoreId) (f : Core → Core) : (s.modCore c f).bad = s.bad := rfl
@[simp] theorem State.modCore_disp (s : State) (c : CoreId) (f : Core → Core) : (s.modCore c f).disp = s.disp := rfl
@[simp] theorem State.modCore_col (s : State) (c : CoreId) (f : Core → Core) : (s.modCore c f).col = s.col := rfl
@[simp] theorem State.modCore_mg (s : State) (c : CoreId) (f : Core → Core) : (s.modCore c f).mg = s.mg := rfl
@[simp] theorem State.modCore_obs (s : State) (c : CoreId) (f : Core → Core) : (s.modCore c f).obs = s.obs := rfl
@[simp] theorem State.modCore_host (s : State) (c : CoreId) (f : Core → Core) : (s.modCore c f).host = s.host := rfl
@[simp] theorem State.modCore_saved (s : State) (c : CoreId) (f : Core → Core) : (s.modCore c f).saved = s.saved := rfl
@[simp] theorem State.modCore_stamps (s : State) (c : CoreId) (f : Core → Core) : (s.modCore c f).stamps = s.stamps := rfl
@[simp] theorem State.modCore_ckpts (s : State) (c : CoreId) (f : Core → Core) : (s.modCore c f).ckpts = s.ckpts := rfl
@[simp] theorem State.modCore_cycle (s : State) (c : CoreId) (f : Core → Core) : (s.modCore c f).cycle = s.cycle := rfl
@[simp] theorem State.modCore_turn (s : State) (c : CoreId) (f : Core → Core) : (s.modCore c f).turn = s.turn := rfl
@[simp] theorem State.modCore_cur (s : State) (c : CoreId) (f : Core → Core) : (s.modCore c f).cur = s.cur := rfl
@[simp] theorem State.modCore_fresh (s : State) (c : CoreId) (f : Core → Core) : (s.modCore c f).fresh = s.fresh := rfl
@[simp] theorem State.modCore_inputs (s : State) (c : CoreId) (f : Core → Core) : (s.modCore c f).inputs = s.inputs := rfl

/-! ### Fields that State.modCtx leaves -/

@[simp] theorem State.modCtx_mem (s : State) (c : CoreId) (x : CtxId) (f : Ctx → Ctx) : (s.modCtx c x f).mem = s.mem := rfl
@[simp] theorem State.modCtx_keys (s : State) (c : CoreId) (x : CtxId) (f : Ctx → Ctx) : (s.modCtx c x f).keys = s.keys := rfl
@[simp] theorem State.modCtx_hostMem (s : State) (c : CoreId) (x : CtxId) (f : Ctx → Ctx) : (s.modCtx c x f).hostMem = s.hostMem := rfl
@[simp] theorem State.modCtx_hist (s : State) (c : CoreId) (x : CtxId) (f : Ctx → Ctx) : (s.modCtx c x f).hist = s.hist := rfl
@[simp] theorem State.modCtx_bad (s : State) (c : CoreId) (x : CtxId) (f : Ctx → Ctx) : (s.modCtx c x f).bad = s.bad := rfl
@[simp] theorem State.modCtx_disp (s : State) (c : CoreId) (x : CtxId) (f : Ctx → Ctx) : (s.modCtx c x f).disp = s.disp := rfl
@[simp] theorem State.modCtx_col (s : State) (c : CoreId) (x : CtxId) (f : Ctx → Ctx) : (s.modCtx c x f).col = s.col := rfl
@[simp] theorem State.modCtx_mg (s : State) (c : CoreId) (x : CtxId) (f : Ctx → Ctx) : (s.modCtx c x f).mg = s.mg := rfl
@[simp] theorem State.modCtx_obs (s : State) (c : CoreId) (x : CtxId) (f : Ctx → Ctx) : (s.modCtx c x f).obs = s.obs := rfl
@[simp] theorem State.modCtx_host (s : State) (c : CoreId) (x : CtxId) (f : Ctx → Ctx) : (s.modCtx c x f).host = s.host := rfl
@[simp] theorem State.modCtx_saved (s : State) (c : CoreId) (x : CtxId) (f : Ctx → Ctx) : (s.modCtx c x f).saved = s.saved := rfl
@[simp] theorem State.modCtx_stamps (s : State) (c : CoreId) (x : CtxId) (f : Ctx → Ctx) : (s.modCtx c x f).stamps = s.stamps := rfl
@[simp] theorem State.modCtx_ckpts (s : State) (c : CoreId) (x : CtxId) (f : Ctx → Ctx) : (s.modCtx c x f).ckpts = s.ckpts := rfl
@[simp] theorem State.modCtx_cycle (s : State) (c : CoreId) (x : CtxId) (f : Ctx → Ctx) : (s.modCtx c x f).cycle = s.cycle := rfl
@[simp] theorem State.modCtx_turn (s : State) (c : CoreId) (x : CtxId) (f : Ctx → Ctx) : (s.modCtx c x f).turn = s.turn := rfl
@[simp] theorem State.modCtx_cur (s : State) (c : CoreId) (x : CtxId) (f : Ctx → Ctx) : (s.modCtx c x f).cur = s.cur := rfl
@[simp] theorem State.modCtx_fresh (s : State) (c : CoreId) (x : CtxId) (f : Ctx → Ctx) : (s.modCtx c x f).fresh = s.fresh := rfl
@[simp] theorem State.modCtx_inputs (s : State) (c : CoreId) (x : CtxId) (f : Ctx → Ctx) : (s.modCtx c x f).inputs = s.inputs := rfl

/-! ### Fields that State.modMe leaves -/

@[simp] theorem State.modMe_mem (s : State) (f : Ctx → Ctx) : (s.modMe f).mem = s.mem := rfl
@[simp] theorem State.modMe_keys (s : State) (f : Ctx → Ctx) : (s.modMe f).keys = s.keys := rfl
@[simp] theorem State.modMe_hostMem (s : State) (f : Ctx → Ctx) : (s.modMe f).hostMem = s.hostMem := rfl
@[simp] theorem State.modMe_hist (s : State) (f : Ctx → Ctx) : (s.modMe f).hist = s.hist := rfl
@[simp] theorem State.modMe_bad (s : State) (f : Ctx → Ctx) : (s.modMe f).bad = s.bad := rfl
@[simp] theorem State.modMe_disp (s : State) (f : Ctx → Ctx) : (s.modMe f).disp = s.disp := rfl
@[simp] theorem State.modMe_col (s : State) (f : Ctx → Ctx) : (s.modMe f).col = s.col := rfl
@[simp] theorem State.modMe_mg (s : State) (f : Ctx → Ctx) : (s.modMe f).mg = s.mg := rfl
@[simp] theorem State.modMe_obs (s : State) (f : Ctx → Ctx) : (s.modMe f).obs = s.obs := rfl
@[simp] theorem State.modMe_host (s : State) (f : Ctx → Ctx) : (s.modMe f).host = s.host := rfl
@[simp] theorem State.modMe_saved (s : State) (f : Ctx → Ctx) : (s.modMe f).saved = s.saved := rfl
@[simp] theorem State.modMe_stamps (s : State) (f : Ctx → Ctx) : (s.modMe f).stamps = s.stamps := rfl
@[simp] theorem State.modMe_ckpts (s : State) (f : Ctx → Ctx) : (s.modMe f).ckpts = s.ckpts := rfl
@[simp] theorem State.modMe_cycle (s : State) (f : Ctx → Ctx) : (s.modMe f).cycle = s.cycle := rfl
@[simp] theorem State.modMe_turn (s : State) (f : Ctx → Ctx) : (s.modMe f).turn = s.turn := rfl
@[simp] theorem State.modMe_cur (s : State) (f : Ctx → Ctx) : (s.modMe f).cur = s.cur := rfl
@[simp] theorem State.modMe_fresh (s : State) (f : Ctx → Ctx) : (s.modMe f).fresh = s.fresh := rfl
@[simp] theorem State.modMe_inputs (s : State) (f : Ctx → Ctx) : (s.modMe f).inputs = s.inputs := rfl

/-! ### Fields that State.modMyCore leaves -/

@[simp] theorem State.modMyCore_mem (s : State) (f : Core → Core) : (s.modMyCore f).mem = s.mem := rfl
@[simp] theorem State.modMyCore_keys (s : State) (f : Core → Core) : (s.modMyCore f).keys = s.keys := rfl
@[simp] theorem State.modMyCore_hostMem (s : State) (f : Core → Core) : (s.modMyCore f).hostMem = s.hostMem := rfl
@[simp] theorem State.modMyCore_hist (s : State) (f : Core → Core) : (s.modMyCore f).hist = s.hist := rfl
@[simp] theorem State.modMyCore_bad (s : State) (f : Core → Core) : (s.modMyCore f).bad = s.bad := rfl
@[simp] theorem State.modMyCore_disp (s : State) (f : Core → Core) : (s.modMyCore f).disp = s.disp := rfl
@[simp] theorem State.modMyCore_col (s : State) (f : Core → Core) : (s.modMyCore f).col = s.col := rfl
@[simp] theorem State.modMyCore_mg (s : State) (f : Core → Core) : (s.modMyCore f).mg = s.mg := rfl
@[simp] theorem State.modMyCore_obs (s : State) (f : Core → Core) : (s.modMyCore f).obs = s.obs := rfl
@[simp] theorem State.modMyCore_host (s : State) (f : Core → Core) : (s.modMyCore f).host = s.host := rfl
@[simp] theorem State.modMyCore_saved (s : State) (f : Core → Core) : (s.modMyCore f).saved = s.saved := rfl
@[simp] theorem State.modMyCore_stamps (s : State) (f : Core → Core) : (s.modMyCore f).stamps = s.stamps := rfl
@[simp] theorem State.modMyCore_ckpts (s : State) (f : Core → Core) : (s.modMyCore f).ckpts = s.ckpts := rfl
@[simp] theorem State.modMyCore_cycle (s : State) (f : Core → Core) : (s.modMyCore f).cycle = s.cycle := rfl
@[simp] theorem State.modMyCore_turn (s : State) (f : Core → Core) : (s.modMyCore f).turn = s.turn := rfl
@[simp] theorem State.modMyCore_cur (s : State) (f : Core → Core) : (s.modMyCore f).cur = s.cur := rfl
@[simp] theorem State.modMyCore_fresh (s : State) (f : Core → Core) : (s.modMyCore f).fresh = s.fresh := rfl
@[simp] theorem State.modMyCore_inputs (s : State) (f : Core → Core) : (s.modMyCore f).inputs = s.inputs := rfl

/-! ### Fields that State.wrS leaves -/

@[simp] theorem State.wrS_mem (s : State) (r : SReg) (v : Word) : (s.wrS r v).mem = s.mem := rfl
@[simp] theorem State.wrS_keys (s : State) (r : SReg) (v : Word) : (s.wrS r v).keys = s.keys := rfl
@[simp] theorem State.wrS_hostMem (s : State) (r : SReg) (v : Word) : (s.wrS r v).hostMem = s.hostMem := rfl
@[simp] theorem State.wrS_hist (s : State) (r : SReg) (v : Word) : (s.wrS r v).hist = s.hist := rfl
@[simp] theorem State.wrS_bad (s : State) (r : SReg) (v : Word) : (s.wrS r v).bad = s.bad := rfl
@[simp] theorem State.wrS_disp (s : State) (r : SReg) (v : Word) : (s.wrS r v).disp = s.disp := rfl
@[simp] theorem State.wrS_col (s : State) (r : SReg) (v : Word) : (s.wrS r v).col = s.col := rfl
@[simp] theorem State.wrS_mg (s : State) (r : SReg) (v : Word) : (s.wrS r v).mg = s.mg := rfl
@[simp] theorem State.wrS_obs (s : State) (r : SReg) (v : Word) : (s.wrS r v).obs = s.obs := rfl
@[simp] theorem State.wrS_host (s : State) (r : SReg) (v : Word) : (s.wrS r v).host = s.host := rfl
@[simp] theorem State.wrS_saved (s : State) (r : SReg) (v : Word) : (s.wrS r v).saved = s.saved := rfl
@[simp] theorem State.wrS_stamps (s : State) (r : SReg) (v : Word) : (s.wrS r v).stamps = s.stamps := rfl
@[simp] theorem State.wrS_ckpts (s : State) (r : SReg) (v : Word) : (s.wrS r v).ckpts = s.ckpts := rfl
@[simp] theorem State.wrS_cycle (s : State) (r : SReg) (v : Word) : (s.wrS r v).cycle = s.cycle := rfl
@[simp] theorem State.wrS_turn (s : State) (r : SReg) (v : Word) : (s.wrS r v).turn = s.turn := rfl
@[simp] theorem State.wrS_cur (s : State) (r : SReg) (v : Word) : (s.wrS r v).cur = s.cur := rfl
@[simp] theorem State.wrS_fresh (s : State) (r : SReg) (v : Word) : (s.wrS r v).fresh = s.fresh := rfl
@[simp] theorem State.wrS_inputs (s : State) (r : SReg) (v : Word) : (s.wrS r v).inputs = s.inputs := rfl

/-! ### Fields that State.wrH leaves -/

@[simp] theorem State.wrH_mem (s : State) (r : HReg) (v : Header) : (s.wrH r v).mem = s.mem := rfl
@[simp] theorem State.wrH_keys (s : State) (r : HReg) (v : Header) : (s.wrH r v).keys = s.keys := rfl
@[simp] theorem State.wrH_hostMem (s : State) (r : HReg) (v : Header) : (s.wrH r v).hostMem = s.hostMem := rfl
@[simp] theorem State.wrH_hist (s : State) (r : HReg) (v : Header) : (s.wrH r v).hist = s.hist := rfl
@[simp] theorem State.wrH_bad (s : State) (r : HReg) (v : Header) : (s.wrH r v).bad = s.bad := rfl
@[simp] theorem State.wrH_disp (s : State) (r : HReg) (v : Header) : (s.wrH r v).disp = s.disp := rfl
@[simp] theorem State.wrH_col (s : State) (r : HReg) (v : Header) : (s.wrH r v).col = s.col := rfl
@[simp] theorem State.wrH_mg (s : State) (r : HReg) (v : Header) : (s.wrH r v).mg = s.mg := rfl
@[simp] theorem State.wrH_obs (s : State) (r : HReg) (v : Header) : (s.wrH r v).obs = s.obs := rfl
@[simp] theorem State.wrH_host (s : State) (r : HReg) (v : Header) : (s.wrH r v).host = s.host := rfl
@[simp] theorem State.wrH_saved (s : State) (r : HReg) (v : Header) : (s.wrH r v).saved = s.saved := rfl
@[simp] theorem State.wrH_stamps (s : State) (r : HReg) (v : Header) : (s.wrH r v).stamps = s.stamps := rfl
@[simp] theorem State.wrH_ckpts (s : State) (r : HReg) (v : Header) : (s.wrH r v).ckpts = s.ckpts := rfl
@[simp] theorem State.wrH_cycle (s : State) (r : HReg) (v : Header) : (s.wrH r v).cycle = s.cycle := rfl
@[simp] theorem State.wrH_turn (s : State) (r : HReg) (v : Header) : (s.wrH r v).turn = s.turn := rfl
@[simp] theorem State.wrH_cur (s : State) (r : HReg) (v : Header) : (s.wrH r v).cur = s.cur := rfl
@[simp] theorem State.wrH_fresh (s : State) (r : HReg) (v : Header) : (s.wrH r v).fresh = s.fresh := rfl
@[simp] theorem State.wrH_inputs (s : State) (r : HReg) (v : Header) : (s.wrH r v).inputs = s.inputs := rfl

/-! ### Fields that State.pushFlag leaves -/

@[simp] theorem State.pushFlag_mem (s : State) (c : CoreId) (u : FlagUpd) : (s.pushFlag c u).mem = s.mem := rfl
@[simp] theorem State.pushFlag_keys (s : State) (c : CoreId) (u : FlagUpd) : (s.pushFlag c u).keys = s.keys := rfl
@[simp] theorem State.pushFlag_hostMem (s : State) (c : CoreId) (u : FlagUpd) : (s.pushFlag c u).hostMem = s.hostMem := rfl
@[simp] theorem State.pushFlag_hist (s : State) (c : CoreId) (u : FlagUpd) : (s.pushFlag c u).hist = s.hist := rfl
@[simp] theorem State.pushFlag_bad (s : State) (c : CoreId) (u : FlagUpd) : (s.pushFlag c u).bad = s.bad := rfl
@[simp] theorem State.pushFlag_disp (s : State) (c : CoreId) (u : FlagUpd) : (s.pushFlag c u).disp = s.disp := rfl
@[simp] theorem State.pushFlag_col (s : State) (c : CoreId) (u : FlagUpd) : (s.pushFlag c u).col = s.col := rfl
@[simp] theorem State.pushFlag_mg (s : State) (c : CoreId) (u : FlagUpd) : (s.pushFlag c u).mg = s.mg := rfl
@[simp] theorem State.pushFlag_obs (s : State) (c : CoreId) (u : FlagUpd) : (s.pushFlag c u).obs = s.obs := rfl
@[simp] theorem State.pushFlag_host (s : State) (c : CoreId) (u : FlagUpd) : (s.pushFlag c u).host = s.host := rfl
@[simp] theorem State.pushFlag_saved (s : State) (c : CoreId) (u : FlagUpd) : (s.pushFlag c u).saved = s.saved := rfl
@[simp] theorem State.pushFlag_stamps (s : State) (c : CoreId) (u : FlagUpd) : (s.pushFlag c u).stamps = s.stamps := rfl
@[simp] theorem State.pushFlag_ckpts (s : State) (c : CoreId) (u : FlagUpd) : (s.pushFlag c u).ckpts = s.ckpts := rfl
@[simp] theorem State.pushFlag_cycle (s : State) (c : CoreId) (u : FlagUpd) : (s.pushFlag c u).cycle = s.cycle := rfl
@[simp] theorem State.pushFlag_turn (s : State) (c : CoreId) (u : FlagUpd) : (s.pushFlag c u).turn = s.turn := rfl
@[simp] theorem State.pushFlag_cur (s : State) (c : CoreId) (u : FlagUpd) : (s.pushFlag c u).cur = s.cur := rfl
@[simp] theorem State.pushFlag_fresh (s : State) (c : CoreId) (u : FlagUpd) : (s.pushFlag c u).fresh = s.fresh := rfl
@[simp] theorem State.pushFlag_inputs (s : State) (c : CoreId) (u : FlagUpd) : (s.pushFlag c u).inputs = s.inputs := rfl

/-! ### Fields that State.jumpTo leaves -/

@[simp] theorem State.jumpTo_mem (s : State) (pc : Nat) : (s.jumpTo pc).mem = s.mem := rfl
@[simp] theorem State.jumpTo_keys (s : State) (pc : Nat) : (s.jumpTo pc).keys = s.keys := rfl
@[simp] theorem State.jumpTo_hostMem (s : State) (pc : Nat) : (s.jumpTo pc).hostMem = s.hostMem := rfl
@[simp] theorem State.jumpTo_hist (s : State) (pc : Nat) : (s.jumpTo pc).hist = s.hist := rfl
@[simp] theorem State.jumpTo_bad (s : State) (pc : Nat) : (s.jumpTo pc).bad = s.bad := rfl
@[simp] theorem State.jumpTo_disp (s : State) (pc : Nat) : (s.jumpTo pc).disp = s.disp := rfl
@[simp] theorem State.jumpTo_col (s : State) (pc : Nat) : (s.jumpTo pc).col = s.col := rfl
@[simp] theorem State.jumpTo_mg (s : State) (pc : Nat) : (s.jumpTo pc).mg = s.mg := rfl
@[simp] theorem State.jumpTo_obs (s : State) (pc : Nat) : (s.jumpTo pc).obs = s.obs := rfl
@[simp] theorem State.jumpTo_host (s : State) (pc : Nat) : (s.jumpTo pc).host = s.host := rfl
@[simp] theorem State.jumpTo_saved (s : State) (pc : Nat) : (s.jumpTo pc).saved = s.saved := rfl
@[simp] theorem State.jumpTo_stamps (s : State) (pc : Nat) : (s.jumpTo pc).stamps = s.stamps := rfl
@[simp] theorem State.jumpTo_ckpts (s : State) (pc : Nat) : (s.jumpTo pc).ckpts = s.ckpts := rfl
@[simp] theorem State.jumpTo_cycle (s : State) (pc : Nat) : (s.jumpTo pc).cycle = s.cycle := rfl
@[simp] theorem State.jumpTo_turn (s : State) (pc : Nat) : (s.jumpTo pc).turn = s.turn := rfl
@[simp] theorem State.jumpTo_cur (s : State) (pc : Nat) : (s.jumpTo pc).cur = s.cur := rfl
@[simp] theorem State.jumpTo_fresh (s : State) (pc : Nat) : (s.jumpTo pc).fresh = s.fresh := rfl
@[simp] theorem State.jumpTo_inputs (s : State) (pc : Nat) : (s.jumpTo pc).inputs = s.inputs := rfl

/-! ### Fields that State.skipFresh leaves -/

@[simp] theorem State.skipFresh_cores (s : State) (n : Nat) : (s.skipFresh n).cores = s.cores := rfl
@[simp] theorem State.skipFresh_mem (s : State) (n : Nat) : (s.skipFresh n).mem = s.mem := rfl
@[simp] theorem State.skipFresh_keys (s : State) (n : Nat) : (s.skipFresh n).keys = s.keys := rfl
@[simp] theorem State.skipFresh_hostMem (s : State) (n : Nat) : (s.skipFresh n).hostMem = s.hostMem := rfl
@[simp] theorem State.skipFresh_hist (s : State) (n : Nat) : (s.skipFresh n).hist = s.hist := rfl
@[simp] theorem State.skipFresh_bad (s : State) (n : Nat) : (s.skipFresh n).bad = s.bad := rfl
@[simp] theorem State.skipFresh_disp (s : State) (n : Nat) : (s.skipFresh n).disp = s.disp := rfl
@[simp] theorem State.skipFresh_col (s : State) (n : Nat) : (s.skipFresh n).col = s.col := rfl
@[simp] theorem State.skipFresh_mg (s : State) (n : Nat) : (s.skipFresh n).mg = s.mg := rfl
@[simp] theorem State.skipFresh_obs (s : State) (n : Nat) : (s.skipFresh n).obs = s.obs := rfl
@[simp] theorem State.skipFresh_host (s : State) (n : Nat) : (s.skipFresh n).host = s.host := rfl
@[simp] theorem State.skipFresh_saved (s : State) (n : Nat) : (s.skipFresh n).saved = s.saved := rfl
@[simp] theorem State.skipFresh_stamps (s : State) (n : Nat) : (s.skipFresh n).stamps = s.stamps := rfl
@[simp] theorem State.skipFresh_ckpts (s : State) (n : Nat) : (s.skipFresh n).ckpts = s.ckpts := rfl
@[simp] theorem State.skipFresh_cycle (s : State) (n : Nat) : (s.skipFresh n).cycle = s.cycle := rfl
@[simp] theorem State.skipFresh_turn (s : State) (n : Nat) : (s.skipFresh n).turn = s.turn := rfl
@[simp] theorem State.skipFresh_cur (s : State) (n : Nat) : (s.skipFresh n).cur = s.cur := rfl
@[simp] theorem State.skipFresh_inputs (s : State) (n : Nat) : (s.skipFresh n).inputs = s.inputs := rfl
@[simp] theorem State.skipFresh_fresh (s : State) (n : Nat) : (s.skipFresh n).fresh = s.fresh + n := rfl

/-! ### Fields that State.count leaves -/

@[simp] theorem State.count_mem (s : State) (c : CoreId) (x : CtxId) (e n : Nat) : (s.count c x e n).mem = s.mem := by unfold State.count; split <;> rfl
@[simp] theorem State.count_keys (s : State) (c : CoreId) (x : CtxId) (e n : Nat) : (s.count c x e n).keys = s.keys := by unfold State.count; split <;> rfl
@[simp] theorem State.count_hostMem (s : State) (c : CoreId) (x : CtxId) (e n : Nat) : (s.count c x e n).hostMem = s.hostMem := by unfold State.count; split <;> rfl
@[simp] theorem State.count_hist (s : State) (c : CoreId) (x : CtxId) (e n : Nat) : (s.count c x e n).hist = s.hist := by unfold State.count; split <;> rfl
@[simp] theorem State.count_bad (s : State) (c : CoreId) (x : CtxId) (e n : Nat) : (s.count c x e n).bad = s.bad := by unfold State.count; split <;> rfl
@[simp] theorem State.count_disp (s : State) (c : CoreId) (x : CtxId) (e n : Nat) : (s.count c x e n).disp = s.disp := by unfold State.count; split <;> rfl
@[simp] theorem State.count_col (s : State) (c : CoreId) (x : CtxId) (e n : Nat) : (s.count c x e n).col = s.col := by unfold State.count; split <;> rfl
@[simp] theorem State.count_mg (s : State) (c : CoreId) (x : CtxId) (e n : Nat) : (s.count c x e n).mg = s.mg := by unfold State.count; split <;> rfl
@[simp] theorem State.count_obs (s : State) (c : CoreId) (x : CtxId) (e n : Nat) : (s.count c x e n).obs = s.obs := by unfold State.count; split <;> rfl
@[simp] theorem State.count_host (s : State) (c : CoreId) (x : CtxId) (e n : Nat) : (s.count c x e n).host = s.host := by unfold State.count; split <;> rfl
@[simp] theorem State.count_saved (s : State) (c : CoreId) (x : CtxId) (e n : Nat) : (s.count c x e n).saved = s.saved := by unfold State.count; split <;> rfl
@[simp] theorem State.count_stamps (s : State) (c : CoreId) (x : CtxId) (e n : Nat) : (s.count c x e n).stamps = s.stamps := by unfold State.count; split <;> rfl
@[simp] theorem State.count_ckpts (s : State) (c : CoreId) (x : CtxId) (e n : Nat) : (s.count c x e n).ckpts = s.ckpts := by unfold State.count; split <;> rfl
@[simp] theorem State.count_cycle (s : State) (c : CoreId) (x : CtxId) (e n : Nat) : (s.count c x e n).cycle = s.cycle := by unfold State.count; split <;> rfl
@[simp] theorem State.count_turn (s : State) (c : CoreId) (x : CtxId) (e n : Nat) : (s.count c x e n).turn = s.turn := by unfold State.count; split <;> rfl
@[simp] theorem State.count_cur (s : State) (c : CoreId) (x : CtxId) (e n : Nat) : (s.count c x e n).cur = s.cur := by unfold State.count; split <;> rfl
@[simp] theorem State.count_fresh (s : State) (c : CoreId) (x : CtxId) (e n : Nat) : (s.count c x e n).fresh = s.fresh := by unfold State.count; split <;> rfl
@[simp] theorem State.count_inputs (s : State) (c : CoreId) (x : CtxId) (e n : Nat) : (s.count c x e n).inputs = s.inputs := by unfold State.count; split <;> rfl

/-! ### Fields that State.issued leaves -/

@[simp] theorem State.issued_mem (s : State) : (s.issued).mem = s.mem := by unfold State.issued; dsimp only; split <;> rfl
@[simp] theorem State.issued_keys (s : State) : (s.issued).keys = s.keys := by unfold State.issued; dsimp only; split <;> rfl
@[simp] theorem State.issued_hostMem (s : State) : (s.issued).hostMem = s.hostMem := by unfold State.issued; dsimp only; split <;> rfl
@[simp] theorem State.issued_hist (s : State) : (s.issued).hist = s.hist := by unfold State.issued; dsimp only; split <;> rfl
@[simp] theorem State.issued_bad (s : State) : (s.issued).bad = s.bad := by unfold State.issued; dsimp only; split <;> rfl
@[simp] theorem State.issued_disp (s : State) : (s.issued).disp = s.disp := by unfold State.issued; dsimp only; split <;> rfl
@[simp] theorem State.issued_col (s : State) : (s.issued).col = s.col := by unfold State.issued; dsimp only; split <;> rfl
@[simp] theorem State.issued_mg (s : State) : (s.issued).mg = s.mg := by unfold State.issued; dsimp only; split <;> rfl
@[simp] theorem State.issued_obs (s : State) : (s.issued).obs = s.obs := by unfold State.issued; dsimp only; split <;> rfl
@[simp] theorem State.issued_host (s : State) : (s.issued).host = s.host := by unfold State.issued; dsimp only; split <;> rfl
@[simp] theorem State.issued_saved (s : State) : (s.issued).saved = s.saved := by unfold State.issued; dsimp only; split <;> rfl
@[simp] theorem State.issued_stamps (s : State) : (s.issued).stamps = s.stamps := by unfold State.issued; dsimp only; split <;> rfl
@[simp] theorem State.issued_ckpts (s : State) : (s.issued).ckpts = s.ckpts := by unfold State.issued; dsimp only; split <;> rfl
@[simp] theorem State.issued_cycle (s : State) : (s.issued).cycle = s.cycle := by unfold State.issued; dsimp only; split <;> rfl
@[simp] theorem State.issued_turn (s : State) : (s.issued).turn = s.turn := by unfold State.issued; dsimp only; split <;> rfl
@[simp] theorem State.issued_cur (s : State) : (s.issued).cur = s.cur := by unfold State.issued; dsimp only; split <;> rfl
@[simp] theorem State.issued_fresh (s : State) : (s.issued).fresh = s.fresh := by unfold State.issued; dsimp only; split <;> rfl
@[simp] theorem State.issued_inputs (s : State) : (s.issued).inputs = s.inputs := by unfold State.issued; dsimp only; split <;> rfl

/-! ### Fields that Core.modCtx leaves -/

@[simp] theorem Core.modCtx_grants (k : Core) (x : CtxId) (f : Ctx → Ctx) : (k.modCtx x f).grants = k.grants := rfl
@[simp] theorem Core.modCtx_rr (k : Core) (x : CtxId) (f : Ctx → Ctx) : (k.modCtx x f).rr = k.rr := rfl
@[simp] theorem Core.modCtx_ctlBusy (k : Core) (x : CtxId) (f : Ctx → Ctx) : (k.modCtx x f).ctlBusy = k.ctlBusy := rfl
@[simp] theorem Core.modCtx_abuf (k : Core) (x : CtxId) (f : Ctx → Ctx) : (k.modCtx x f).abuf = k.abuf := rfl
@[simp] theorem Core.modCtx_cbuf (k : Core) (x : CtxId) (f : Ctx → Ctx) : (k.modCtx x f).cbuf = k.cbuf := rfl
@[simp] theorem Core.modCtx_wbuf (k : Core) (x : CtxId) (f : Ctx → Ctx) : (k.modCtx x f).wbuf = k.wbuf := rfl
@[simp] theorem Core.modCtx_afmt (k : Core) (x : CtxId) (f : Ctx → Ctx) : (k.modCtx x f).afmt = k.afmt := rfl
@[simp] theorem Core.modCtx_cfmt (k : Core) (x : CtxId) (f : Ctx → Ctx) : (k.modCtx x f).cfmt = k.cfmt := rfl
@[simp] theorem Core.modCtx_wfmt (k : Core) (x : CtxId) (f : Ctx → Ctx) : (k.modCtx x f).wfmt = k.wfmt := rfl
@[simp] theorem Core.modCtx_flags (k : Core) (x : CtxId) (f : Ctx → Ctx) : (k.modCtx x f).flags = k.flags := rfl
@[simp] theorem Core.modCtx_setters (k : Core) (x : CtxId) (f : Ctx → Ctx) : (k.modCtx x f).setters = k.setters := rfl
@[simp] theorem Core.modCtx_upds (k : Core) (x : CtxId) (f : Ctx → Ctx) : (k.modCtx x f).upds = k.upds := rfl
@[simp] theorem Core.modCtx_queues (k : Core) (x : CtxId) (f : Ctx → Ctx) : (k.modCtx x f).queues = k.queues := rfl
@[simp] theorem Core.modCtx_freed (k : Core) (x : CtxId) (f : Ctx → Ctx) : (k.modCtx x f).freed = k.freed := rfl
@[simp] theorem Core.modCtx_nextSlot (k : Core) (x : CtxId) (f : Ctx → Ctx) : (k.modCtx x f).nextSlot = k.nextSlot := rfl
@[simp] theorem Core.modCtx_v (k : Core) (x : CtxId) (f : Ctx → Ctx) : (k.modCtx x f).v = k.v := rfl
@[simp] theorem Core.modCtx_k (k : Core) (x : CtxId) (f : Ctx → Ctx) : (k.modCtx x f).k = k.k := rfl
@[simp] theorem Core.modCtx_vpend (k : Core) (x : CtxId) (f : Ctx → Ctx) : (k.modCtx x f).vpend = k.vpend := rfl
@[simp] theorem Core.modCtx_vacc (k : Core) (x : CtxId) (f : Ctx → Ctx) : (k.modCtx x f).vacc = k.vacc := rfl
@[simp] theorem Core.modCtx_walkers (k : Core) (x : CtxId) (f : Ctx → Ctx) : (k.modCtx x f).walkers = k.walkers := rfl
@[simp] theorem Core.modCtx_mtx (k : Core) (x : CtxId) (f : Ctx → Ctx) : (k.modCtx x f).mtx = k.mtx := rfl
@[simp] theorem Core.modCtx_mtxEnd (k : Core) (x : CtxId) (f : Ctx → Ctx) : (k.modCtx x f).mtxEnd = k.mtxEnd := rfl
@[simp] theorem Core.modCtx_chans (k : Core) (x : CtxId) (f : Ctx → Ctx) : (k.modCtx x f).chans = k.chans := rfl
@[simp] theorem Core.modCtx_owedRes (k : Core) (x : CtxId) (f : Ctx → Ctx) : (k.modCtx x f).owedRes = k.owedRes := rfl
@[simp] theorem Core.modCtx_sae (k : Core) (x : CtxId) (f : Ctx → Ctx) : (k.modCtx x f).sae = k.sae := rfl
@[simp] theorem Core.modCtx_furs (k : Core) (x : CtxId) (f : Ctx → Ctx) : (k.modCtx x f).furs = k.furs := rfl
@[simp] theorem Core.modCtx_tabs (k : Core) (x : CtxId) (f : Ctx → Ctx) : (k.modCtx x f).tabs = k.tabs := rfl
@[simp] theorem Core.modCtx_marks (k : Core) (x : CtxId) (f : Ctx → Ctx) : (k.modCtx x f).marks = k.marks := rfl
@[simp] theorem Core.modCtx_fcmd (k : Core) (x : CtxId) (f : Ctx → Ctx) : (k.modCtx x f).fcmd = k.fcmd := rfl
@[simp] theorem Core.modCtx_tlb (k : Core) (x : CtxId) (f : Ctx → Ctx) : (k.modCtx x f).tlb = k.tlb := rfl
@[simp] theorem Core.modCtx_stlb (k : Core) (x : CtxId) (f : Ctx → Ctx) : (k.modCtx x f).stlb = k.stlb := rfl
@[simp] theorem Core.modCtx_dcache (k : Core) (x : CtxId) (f : Ctx → Ctx) : (k.modCtx x f).dcache = k.dcache := rfl
@[simp] theorem Core.modCtx_bad (k : Core) (x : CtxId) (f : Ctx → Ctx) : (k.modCtx x f).bad = k.bad := rfl
@[simp] theorem Core.modCtx_keyFaults (k : Core) (x : CtxId) (f : Ctx → Ctx) : (k.modCtx x f).keyFaults = k.keyFaults := rfl

/-! ### Fields that Ctx.wrS leaves -/

@[simp] theorem Ctx.wrS_phase (k : Ctx) (r : SReg) (v : Word) : (k.wrS r v).phase = k.phase := by unfold Ctx.wrS; split <;> rfl
@[simp] theorem Ctx.wrS_pl (k : Ctx) (r : SReg) (v : Word) : (k.wrS r v).pl = k.pl := by unfold Ctx.wrS; split <;> rfl
@[simp] theorem Ctx.wrS_h (k : Ctx) (r : SReg) (v : Word) : (k.wrS r v).h = k.h := by unfold Ctx.wrS; split <;> rfl
@[simp] theorem Ctx.wrS_n (k : Ctx) (r : SReg) (v : Word) : (k.wrS r v).n = k.n := by unfold Ctx.wrS; split <;> rfl
@[simp] theorem Ctx.wrS_text (k : Ctx) (r : SReg) (v : Word) : (k.wrS r v).text = k.text := by unfold Ctx.wrS; split <;> rfl
@[simp] theorem Ctx.wrS_walk (k : Ctx) (r : SReg) (v : Word) : (k.wrS r v).walk = k.walk := by unfold Ctx.wrS; split <;> rfl
@[simp] theorem Ctx.wrS_stream (k : Ctx) (r : SReg) (v : Word) : (k.wrS r v).stream = k.stream := by unfold Ctx.wrS; split <;> rfl
@[simp] theorem Ctx.wrS_cursors (k : Ctx) (r : SReg) (v : Word) : (k.wrS r v).cursors = k.cursors := by unfold Ctx.wrS; split <;> rfl
@[simp] theorem Ctx.wrS_fork (k : Ctx) (r : SReg) (v : Word) : (k.wrS r v).fork = k.fork := by unfold Ctx.wrS; split <;> rfl
@[simp] theorem Ctx.wrS_slip (k : Ctx) (r : SReg) (v : Word) : (k.wrS r v).slip = k.slip := by unfold Ctx.wrS; split <;> rfl
@[simp] theorem Ctx.wrS_epoch (k : Ctx) (r : SReg) (v : Word) : (k.wrS r v).epoch = k.epoch := by unfold Ctx.wrS; split <;> rfl
@[simp] theorem Ctx.wrS_evt (k : Ctx) (r : SReg) (v : Word) : (k.wrS r v).evt = k.evt := by unfold Ctx.wrS; split <;> rfl
@[simp] theorem Ctx.wrS_slipwin (k : Ctx) (r : SReg) (v : Word) : (k.wrS r v).slipwin = k.slipwin := by unfold Ctx.wrS; split <;> rfl
@[simp] theorem Ctx.wrS_vstat (k : Ctx) (r : SReg) (v : Word) : (k.wrS r v).vstat = k.vstat := by unfold Ctx.wrS; split <;> rfl
@[simp] theorem Ctx.wrS_vrkey (k : Ctx) (r : SReg) (v : Word) : (k.wrS r v).vrkey = k.vrkey := by unfold Ctx.wrS; split <;> rfl
@[simp] theorem Ctx.wrS_vrctr (k : Ctx) (r : SReg) (v : Word) : (k.wrS r v).vrctr = k.vrctr := by unfold Ctx.wrS; split <;> rfl
@[simp] theorem Ctx.wrS_mstat (k : Ctx) (r : SReg) (v : Word) : (k.wrS r v).mstat = k.mstat := by unfold Ctx.wrS; split <;> rfl
@[simp] theorem Ctx.wrS_cstat (k : Ctx) (r : SReg) (v : Word) : (k.wrS r v).cstat = k.cstat := by unfold Ctx.wrS; split <;> rfl
@[simp] theorem Ctx.wrS_sstat (k : Ctx) (r : SReg) (v : Word) : (k.wrS r v).sstat = k.sstat := by unfold Ctx.wrS; split <;> rfl
@[simp] theorem Ctx.wrS_saecfg (k : Ctx) (r : SReg) (v : Word) : (k.wrS r v).saecfg = k.saecfg := by unfold Ctx.wrS; split <;> rfl
@[simp] theorem Ctx.wrS_clstat (k : Ctx) (r : SReg) (v : Word) : (k.wrS r v).clstat = k.clstat := by unfold Ctx.wrS; split <;> rfl
@[simp] theorem Ctx.wrS_clidx (k : Ctx) (r : SReg) (v : Word) : (k.wrS r v).clidx = k.clidx := by unfold Ctx.wrS; split <;> rfl
@[simp] theorem Ctx.wrS_obsring (k : Ctx) (r : SReg) (v : Word) : (k.wrS r v).obsring = k.obsring := by unfold Ctx.wrS; split <;> rfl
@[simp] theorem Ctx.wrS_obsEn (k : Ctx) (r : SReg) (v : Word) : (k.wrS r v).obsEn = k.obsEn := by unfold Ctx.wrS; split <;> rfl
@[simp] theorem Ctx.wrS_obsLsz (k : Ctx) (r : SReg) (v : Word) : (k.wrS r v).obsLsz = k.obsLsz := by unfold Ctx.wrS; split <;> rfl
@[simp] theorem Ctx.wrS_obsTail (k : Ctx) (r : SReg) (v : Word) : (k.wrS r v).obsTail = k.obsTail := by unfold Ctx.wrS; split <;> rfl
@[simp] theorem Ctx.wrS_obsHead (k : Ctx) (r : SReg) (v : Word) : (k.wrS r v).obsHead = k.obsHead := by unfold Ctx.wrS; split <;> rfl
@[simp] theorem Ctx.wrS_obsDrop (k : Ctx) (r : SReg) (v : Word) : (k.wrS r v).obsDrop = k.obsDrop := by unfold Ctx.wrS; split <;> rfl
@[simp] theorem Ctx.wrS_wfeto (k : Ctx) (r : SReg) (v : Word) : (k.wrS r v).wfeto = k.wfeto := by unfold Ctx.wrS; split <;> rfl
@[simp] theorem Ctx.wrS_released (k : Ctx) (r : SReg) (v : Word) : (k.wrS r v).released = k.released := by unfold Ctx.wrS; split <;> rfl
@[simp] theorem Ctx.wrS_htbase (k : Ctx) (r : SReg) (v : Word) : (k.wrS r v).htbase = k.htbase := by unfold Ctx.wrS; split <;> rfl
@[simp] theorem Ctx.wrS_s1root (k : Ctx) (r : SReg) (v : Word) : (k.wrS r v).s1root = k.s1root := by unfold Ctx.wrS; split <;> rfl
@[simp] theorem Ctx.wrS_s2root (k : Ctx) (r : SReg) (v : Word) : (k.wrS r v).s2root = k.s2root := by unfold Ctx.wrS; split <;> rfl
@[simp] theorem Ctx.wrS_cntsel (k : Ctx) (r : SReg) (v : Word) : (k.wrS r v).cntsel = k.cntsel := by unfold Ctx.wrS; split <;> rfl
@[simp] theorem Ctx.wrS_cnt (k : Ctx) (r : SReg) (v : Word) : (k.wrS r v).cnt = k.cnt := by unfold Ctx.wrS; split <;> rfl
@[simp] theorem Ctx.wrS_cntCode (k : Ctx) (r : SReg) (v : Word) : (k.wrS r v).cntCode = k.cntCode := by unfold Ctx.wrS; split <;> rfl
@[simp] theorem Ctx.wrS_cntWin (k : Ctx) (r : SReg) (v : Word) : (k.wrS r v).cntWin = k.cntWin := by unfold Ctx.wrS; split <;> rfl
@[simp] theorem Ctx.wrS_dispatchAt (k : Ctx) (r : SReg) (v : Word) : (k.wrS r v).dispatchAt = k.dispatchAt := by unfold Ctx.wrS; split <;> rfl
@[simp] theorem Ctx.wrS_bank (k : Ctx) (r : SReg) (v : Word) : (k.wrS r v).bank = k.bank := by unfold Ctx.wrS; split <;> rfl
@[simp] theorem Ctx.wrS_held (k : Ctx) (r : SReg) (v : Word) : (k.wrS r v).held = k.held := by unfold Ctx.wrS; split <;> rfl
@[simp] theorem Ctx.wrS_pending (k : Ctx) (r : SReg) (v : Word) : (k.wrS r v).pending = k.pending := by unfold Ctx.wrS; split <;> rfl
@[simp] theorem Ctx.wrS_stop (k : Ctx) (r : SReg) (v : Word) : (k.wrS r v).stop = k.stop := by unfold Ctx.wrS; split <;> rfl
@[simp] theorem Ctx.wrS_bracket (k : Ctx) (r : SReg) (v : Word) : (k.wrS r v).bracket = k.bracket := by unfold Ctx.wrS; split <;> rfl
@[simp] theorem Ctx.wrS_deferred (k : Ctx) (r : SReg) (v : Word) : (k.wrS r v).deferred = k.deferred := by unfold Ctx.wrS; split <;> rfl
@[simp] theorem Ctx.wrS_bracketWait (k : Ctx) (r : SReg) (v : Word) : (k.wrS r v).bracketWait = k.bracketWait := by unfold Ctx.wrS; split <;> rfl
@[simp] theorem Ctx.wrS_preempting (k : Ctx) (r : SReg) (v : Word) : (k.wrS r v).preempting = k.preempting := by unfold Ctx.wrS; split <;> rfl
@[simp] theorem Ctx.wrS_loads (k : Ctx) (r : SReg) (v : Word) : (k.wrS r v).loads = k.loads := by unfold Ctx.wrS; split <;> rfl
@[simp] theorem Ctx.wrS_stores (k : Ctx) (r : SReg) (v : Word) : (k.wrS r v).stores = k.stores := by unfold Ctx.wrS; split <;> rfl
@[simp] theorem Ctx.wrS_replies (k : Ctx) (r : SReg) (v : Word) : (k.wrS r v).replies = k.replies := by unfold Ctx.wrS; split <;> rfl
@[simp] theorem Ctx.wrS_busy (k : Ctx) (r : SReg) (v : Word) : (k.wrS r v).busy = k.busy := by unfold Ctx.wrS; split <;> rfl
@[simp] theorem Ctx.wrS_loadAt (k : Ctx) (r : SReg) (v : Word) : (k.wrS r v).loadAt = k.loadAt := by unfold Ctx.wrS; split <;> rfl
@[simp] theorem Ctx.wrS_fences (k : Ctx) (r : SReg) (v : Word) : (k.wrS r v).fences = k.fences := by unfold Ctx.wrS; split <;> rfl
@[simp] theorem Ctx.wrS_acqs (k : Ctx) (r : SReg) (v : Word) : (k.wrS r v).acqs = k.acqs := by unfold Ctx.wrS; split <;> rfl
@[simp] theorem Ctx.wrS_accesses (k : Ctx) (r : SReg) (v : Word) : (k.wrS r v).accesses = k.accesses := by unfold Ctx.wrS; split <;> rfl
@[simp] theorem Ctx.wrS_handles (k : Ctx) (r : SReg) (v : Word) : (k.wrS r v).handles = k.handles := by unfold Ctx.wrS; split <;> rfl
@[simp] theorem Ctx.wrS_tlbiUntil (k : Ctx) (r : SReg) (v : Word) : (k.wrS r v).tlbiUntil = k.tlbiUntil := by unfold Ctx.wrS; split <;> rfl
@[simp] theorem Ctx.wrS_tlbiWait (k : Ctx) (r : SReg) (v : Word) : (k.wrS r v).tlbiWait = k.tlbiWait := by unfold Ctx.wrS; split <;> rfl
@[simp] theorem Ctx.wrS_tlbiKind (k : Ctx) (r : SReg) (v : Word) : (k.wrS r v).tlbiKind = k.tlbiKind := by unfold Ctx.wrS; split <;> rfl
@[simp] theorem Ctx.wrS_wfeFrom (k : Ctx) (r : SReg) (v : Word) : (k.wrS r v).wfeFrom = k.wfeFrom := by unfold Ctx.wrS; split <;> rfl
@[simp] theorem Ctx.wrS_waitFrom (k : Ctx) (r : SReg) (v : Word) : (k.wrS r v).waitFrom = k.waitFrom := by unfold Ctx.wrS; split <;> rfl
@[simp] theorem Ctx.wrS_owedFur (k : Ctx) (r : SReg) (v : Word) : (k.wrS r v).owedFur = k.owedFur := by unfold Ctx.wrS; split <;> rfl
@[simp] theorem Ctx.wrS_task (k : Ctx) (r : SReg) (v : Word) : (k.wrS r v).task = k.task := by unfold Ctx.wrS; split <;> rfl
@[simp] theorem Ctx.wrS_member (k : Ctx) (r : SReg) (v : Word) : (k.wrS r v).member = k.member := by unfold Ctx.wrS; split <;> rfl
@[simp] theorem Ctx.wrS_draining (k : Ctx) (r : SReg) (v : Word) : (k.wrS r v).draining = k.draining := by unfold Ctx.wrS; split <;> rfl
@[simp] theorem Ctx.wrS_prio (k : Ctx) (r : SReg) (v : Word) : (k.wrS r v).prio = k.prio := by unfold Ctx.wrS; split <;> rfl
@[simp] theorem Ctx.wrS_watches (k : Ctx) (r : SReg) (v : Word) : (k.wrS r v).watches = k.watches := by unfold Ctx.wrS; split <;> rfl
@[simp] theorem Ctx.wrS_pendWatch (k : Ctx) (r : SReg) (v : Word) : (k.wrS r v).pendWatch = k.pendWatch := by unfold Ctx.wrS; split <;> rfl

/-! ### Fields that Ctx.modCursor leaves -/

@[simp] theorem Ctx.modCursor_phase (k : Ctx) (t : Tag) (f : Cursor → Cursor) : (k.modCursor t f).phase = k.phase := rfl
@[simp] theorem Ctx.modCursor_pl (k : Ctx) (t : Tag) (f : Cursor → Cursor) : (k.modCursor t f).pl = k.pl := rfl
@[simp] theorem Ctx.modCursor_s (k : Ctx) (t : Tag) (f : Cursor → Cursor) : (k.modCursor t f).s = k.s := rfl
@[simp] theorem Ctx.modCursor_h (k : Ctx) (t : Tag) (f : Cursor → Cursor) : (k.modCursor t f).h = k.h := rfl
@[simp] theorem Ctx.modCursor_n (k : Ctx) (t : Tag) (f : Cursor → Cursor) : (k.modCursor t f).n = k.n := rfl
@[simp] theorem Ctx.modCursor_text (k : Ctx) (t : Tag) (f : Cursor → Cursor) : (k.modCursor t f).text = k.text := rfl
@[simp] theorem Ctx.modCursor_walk (k : Ctx) (t : Tag) (f : Cursor → Cursor) : (k.modCursor t f).walk = k.walk := rfl
@[simp] theorem Ctx.modCursor_stream (k : Ctx) (t : Tag) (f : Cursor → Cursor) : (k.modCursor t f).stream = k.stream := rfl
@[simp] theorem Ctx.modCursor_fork (k : Ctx) (t : Tag) (f : Cursor → Cursor) : (k.modCursor t f).fork = k.fork := rfl
@[simp] theorem Ctx.modCursor_slip (k : Ctx) (t : Tag) (f : Cursor → Cursor) : (k.modCursor t f).slip = k.slip := rfl
@[simp] theorem Ctx.modCursor_epoch (k : Ctx) (t : Tag) (f : Cursor → Cursor) : (k.modCursor t f).epoch = k.epoch := rfl
@[simp] theorem Ctx.modCursor_evt (k : Ctx) (t : Tag) (f : Cursor → Cursor) : (k.modCursor t f).evt = k.evt := rfl
@[simp] theorem Ctx.modCursor_slipwin (k : Ctx) (t : Tag) (f : Cursor → Cursor) : (k.modCursor t f).slipwin = k.slipwin := rfl
@[simp] theorem Ctx.modCursor_vstat (k : Ctx) (t : Tag) (f : Cursor → Cursor) : (k.modCursor t f).vstat = k.vstat := rfl
@[simp] theorem Ctx.modCursor_vrkey (k : Ctx) (t : Tag) (f : Cursor → Cursor) : (k.modCursor t f).vrkey = k.vrkey := rfl
@[simp] theorem Ctx.modCursor_vrctr (k : Ctx) (t : Tag) (f : Cursor → Cursor) : (k.modCursor t f).vrctr = k.vrctr := rfl
@[simp] theorem Ctx.modCursor_mstat (k : Ctx) (t : Tag) (f : Cursor → Cursor) : (k.modCursor t f).mstat = k.mstat := rfl
@[simp] theorem Ctx.modCursor_cstat (k : Ctx) (t : Tag) (f : Cursor → Cursor) : (k.modCursor t f).cstat = k.cstat := rfl
@[simp] theorem Ctx.modCursor_sstat (k : Ctx) (t : Tag) (f : Cursor → Cursor) : (k.modCursor t f).sstat = k.sstat := rfl
@[simp] theorem Ctx.modCursor_saecfg (k : Ctx) (t : Tag) (f : Cursor → Cursor) : (k.modCursor t f).saecfg = k.saecfg := rfl
@[simp] theorem Ctx.modCursor_clstat (k : Ctx) (t : Tag) (f : Cursor → Cursor) : (k.modCursor t f).clstat = k.clstat := rfl
@[simp] theorem Ctx.modCursor_clidx (k : Ctx) (t : Tag) (f : Cursor → Cursor) : (k.modCursor t f).clidx = k.clidx := rfl
@[simp] theorem Ctx.modCursor_obsring (k : Ctx) (t : Tag) (f : Cursor → Cursor) : (k.modCursor t f).obsring = k.obsring := rfl
@[simp] theorem Ctx.modCursor_obsEn (k : Ctx) (t : Tag) (f : Cursor → Cursor) : (k.modCursor t f).obsEn = k.obsEn := rfl
@[simp] theorem Ctx.modCursor_obsLsz (k : Ctx) (t : Tag) (f : Cursor → Cursor) : (k.modCursor t f).obsLsz = k.obsLsz := rfl
@[simp] theorem Ctx.modCursor_obsTail (k : Ctx) (t : Tag) (f : Cursor → Cursor) : (k.modCursor t f).obsTail = k.obsTail := rfl
@[simp] theorem Ctx.modCursor_obsHead (k : Ctx) (t : Tag) (f : Cursor → Cursor) : (k.modCursor t f).obsHead = k.obsHead := rfl
@[simp] theorem Ctx.modCursor_obsDrop (k : Ctx) (t : Tag) (f : Cursor → Cursor) : (k.modCursor t f).obsDrop = k.obsDrop := rfl
@[simp] theorem Ctx.modCursor_wfeto (k : Ctx) (t : Tag) (f : Cursor → Cursor) : (k.modCursor t f).wfeto = k.wfeto := rfl
@[simp] theorem Ctx.modCursor_released (k : Ctx) (t : Tag) (f : Cursor → Cursor) : (k.modCursor t f).released = k.released := rfl
@[simp] theorem Ctx.modCursor_htbase (k : Ctx) (t : Tag) (f : Cursor → Cursor) : (k.modCursor t f).htbase = k.htbase := rfl
@[simp] theorem Ctx.modCursor_s1root (k : Ctx) (t : Tag) (f : Cursor → Cursor) : (k.modCursor t f).s1root = k.s1root := rfl
@[simp] theorem Ctx.modCursor_s2root (k : Ctx) (t : Tag) (f : Cursor → Cursor) : (k.modCursor t f).s2root = k.s2root := rfl
@[simp] theorem Ctx.modCursor_cntsel (k : Ctx) (t : Tag) (f : Cursor → Cursor) : (k.modCursor t f).cntsel = k.cntsel := rfl
@[simp] theorem Ctx.modCursor_cnt (k : Ctx) (t : Tag) (f : Cursor → Cursor) : (k.modCursor t f).cnt = k.cnt := rfl
@[simp] theorem Ctx.modCursor_cntCode (k : Ctx) (t : Tag) (f : Cursor → Cursor) : (k.modCursor t f).cntCode = k.cntCode := rfl
@[simp] theorem Ctx.modCursor_cntWin (k : Ctx) (t : Tag) (f : Cursor → Cursor) : (k.modCursor t f).cntWin = k.cntWin := rfl
@[simp] theorem Ctx.modCursor_dispatchAt (k : Ctx) (t : Tag) (f : Cursor → Cursor) : (k.modCursor t f).dispatchAt = k.dispatchAt := rfl
@[simp] theorem Ctx.modCursor_bank (k : Ctx) (t : Tag) (f : Cursor → Cursor) : (k.modCursor t f).bank = k.bank := rfl
@[simp] theorem Ctx.modCursor_held (k : Ctx) (t : Tag) (f : Cursor → Cursor) : (k.modCursor t f).held = k.held := rfl
@[simp] theorem Ctx.modCursor_pending (k : Ctx) (t : Tag) (f : Cursor → Cursor) : (k.modCursor t f).pending = k.pending := rfl
@[simp] theorem Ctx.modCursor_stop (k : Ctx) (t : Tag) (f : Cursor → Cursor) : (k.modCursor t f).stop = k.stop := rfl
@[simp] theorem Ctx.modCursor_bracket (k : Ctx) (t : Tag) (f : Cursor → Cursor) : (k.modCursor t f).bracket = k.bracket := rfl
@[simp] theorem Ctx.modCursor_deferred (k : Ctx) (t : Tag) (f : Cursor → Cursor) : (k.modCursor t f).deferred = k.deferred := rfl
@[simp] theorem Ctx.modCursor_bracketWait (k : Ctx) (t : Tag) (f : Cursor → Cursor) : (k.modCursor t f).bracketWait = k.bracketWait := rfl
@[simp] theorem Ctx.modCursor_preempting (k : Ctx) (t : Tag) (f : Cursor → Cursor) : (k.modCursor t f).preempting = k.preempting := rfl
@[simp] theorem Ctx.modCursor_loads (k : Ctx) (t : Tag) (f : Cursor → Cursor) : (k.modCursor t f).loads = k.loads := rfl
@[simp] theorem Ctx.modCursor_stores (k : Ctx) (t : Tag) (f : Cursor → Cursor) : (k.modCursor t f).stores = k.stores := rfl
@[simp] theorem Ctx.modCursor_replies (k : Ctx) (t : Tag) (f : Cursor → Cursor) : (k.modCursor t f).replies = k.replies := rfl
@[simp] theorem Ctx.modCursor_busy (k : Ctx) (t : Tag) (f : Cursor → Cursor) : (k.modCursor t f).busy = k.busy := rfl
@[simp] theorem Ctx.modCursor_loadAt (k : Ctx) (t : Tag) (f : Cursor → Cursor) : (k.modCursor t f).loadAt = k.loadAt := rfl
@[simp] theorem Ctx.modCursor_fences (k : Ctx) (t : Tag) (f : Cursor → Cursor) : (k.modCursor t f).fences = k.fences := rfl
@[simp] theorem Ctx.modCursor_acqs (k : Ctx) (t : Tag) (f : Cursor → Cursor) : (k.modCursor t f).acqs = k.acqs := rfl
@[simp] theorem Ctx.modCursor_accesses (k : Ctx) (t : Tag) (f : Cursor → Cursor) : (k.modCursor t f).accesses = k.accesses := rfl
@[simp] theorem Ctx.modCursor_handles (k : Ctx) (t : Tag) (f : Cursor → Cursor) : (k.modCursor t f).handles = k.handles := rfl
@[simp] theorem Ctx.modCursor_tlbiUntil (k : Ctx) (t : Tag) (f : Cursor → Cursor) : (k.modCursor t f).tlbiUntil = k.tlbiUntil := rfl
@[simp] theorem Ctx.modCursor_tlbiWait (k : Ctx) (t : Tag) (f : Cursor → Cursor) : (k.modCursor t f).tlbiWait = k.tlbiWait := rfl
@[simp] theorem Ctx.modCursor_tlbiKind (k : Ctx) (t : Tag) (f : Cursor → Cursor) : (k.modCursor t f).tlbiKind = k.tlbiKind := rfl
@[simp] theorem Ctx.modCursor_wfeFrom (k : Ctx) (t : Tag) (f : Cursor → Cursor) : (k.modCursor t f).wfeFrom = k.wfeFrom := rfl
@[simp] theorem Ctx.modCursor_waitFrom (k : Ctx) (t : Tag) (f : Cursor → Cursor) : (k.modCursor t f).waitFrom = k.waitFrom := rfl
@[simp] theorem Ctx.modCursor_owedFur (k : Ctx) (t : Tag) (f : Cursor → Cursor) : (k.modCursor t f).owedFur = k.owedFur := rfl
@[simp] theorem Ctx.modCursor_task (k : Ctx) (t : Tag) (f : Cursor → Cursor) : (k.modCursor t f).task = k.task := rfl
@[simp] theorem Ctx.modCursor_member (k : Ctx) (t : Tag) (f : Cursor → Cursor) : (k.modCursor t f).member = k.member := rfl
@[simp] theorem Ctx.modCursor_draining (k : Ctx) (t : Tag) (f : Cursor → Cursor) : (k.modCursor t f).draining = k.draining := rfl
@[simp] theorem Ctx.modCursor_prio (k : Ctx) (t : Tag) (f : Cursor → Cursor) : (k.modCursor t f).prio = k.prio := rfl
@[simp] theorem Ctx.modCursor_watches (k : Ctx) (t : Tag) (f : Cursor → Cursor) : (k.modCursor t f).watches = k.watches := rfl
@[simp] theorem Ctx.modCursor_pendWatch (k : Ctx) (t : Tag) (f : Cursor → Cursor) : (k.modCursor t f).pendWatch = k.pendWatch := rfl

/-! ### Fields that Ctx.prune leaves -/

@[simp] theorem Ctx.prune_phase (k : Ctx) : (k.prune).phase = k.phase := rfl
@[simp] theorem Ctx.prune_pl (k : Ctx) : (k.prune).pl = k.pl := rfl
@[simp] theorem Ctx.prune_s (k : Ctx) : (k.prune).s = k.s := rfl
@[simp] theorem Ctx.prune_h (k : Ctx) : (k.prune).h = k.h := rfl
@[simp] theorem Ctx.prune_n (k : Ctx) : (k.prune).n = k.n := rfl
@[simp] theorem Ctx.prune_text (k : Ctx) : (k.prune).text = k.text := rfl
@[simp] theorem Ctx.prune_walk (k : Ctx) : (k.prune).walk = k.walk := rfl
@[simp] theorem Ctx.prune_cursors (k : Ctx) : (k.prune).cursors = k.cursors := rfl
@[simp] theorem Ctx.prune_fork (k : Ctx) : (k.prune).fork = k.fork := rfl
@[simp] theorem Ctx.prune_slip (k : Ctx) : (k.prune).slip = k.slip := rfl
@[simp] theorem Ctx.prune_epoch (k : Ctx) : (k.prune).epoch = k.epoch := rfl
@[simp] theorem Ctx.prune_evt (k : Ctx) : (k.prune).evt = k.evt := rfl
@[simp] theorem Ctx.prune_slipwin (k : Ctx) : (k.prune).slipwin = k.slipwin := rfl
@[simp] theorem Ctx.prune_vstat (k : Ctx) : (k.prune).vstat = k.vstat := rfl
@[simp] theorem Ctx.prune_vrkey (k : Ctx) : (k.prune).vrkey = k.vrkey := rfl
@[simp] theorem Ctx.prune_vrctr (k : Ctx) : (k.prune).vrctr = k.vrctr := rfl
@[simp] theorem Ctx.prune_mstat (k : Ctx) : (k.prune).mstat = k.mstat := rfl
@[simp] theorem Ctx.prune_cstat (k : Ctx) : (k.prune).cstat = k.cstat := rfl
@[simp] theorem Ctx.prune_sstat (k : Ctx) : (k.prune).sstat = k.sstat := rfl
@[simp] theorem Ctx.prune_saecfg (k : Ctx) : (k.prune).saecfg = k.saecfg := rfl
@[simp] theorem Ctx.prune_clstat (k : Ctx) : (k.prune).clstat = k.clstat := rfl
@[simp] theorem Ctx.prune_clidx (k : Ctx) : (k.prune).clidx = k.clidx := rfl
@[simp] theorem Ctx.prune_obsring (k : Ctx) : (k.prune).obsring = k.obsring := rfl
@[simp] theorem Ctx.prune_obsEn (k : Ctx) : (k.prune).obsEn = k.obsEn := rfl
@[simp] theorem Ctx.prune_obsLsz (k : Ctx) : (k.prune).obsLsz = k.obsLsz := rfl
@[simp] theorem Ctx.prune_obsTail (k : Ctx) : (k.prune).obsTail = k.obsTail := rfl
@[simp] theorem Ctx.prune_obsHead (k : Ctx) : (k.prune).obsHead = k.obsHead := rfl
@[simp] theorem Ctx.prune_obsDrop (k : Ctx) : (k.prune).obsDrop = k.obsDrop := rfl
@[simp] theorem Ctx.prune_wfeto (k : Ctx) : (k.prune).wfeto = k.wfeto := rfl
@[simp] theorem Ctx.prune_released (k : Ctx) : (k.prune).released = k.released := rfl
@[simp] theorem Ctx.prune_htbase (k : Ctx) : (k.prune).htbase = k.htbase := rfl
@[simp] theorem Ctx.prune_s1root (k : Ctx) : (k.prune).s1root = k.s1root := rfl
@[simp] theorem Ctx.prune_s2root (k : Ctx) : (k.prune).s2root = k.s2root := rfl
@[simp] theorem Ctx.prune_cntsel (k : Ctx) : (k.prune).cntsel = k.cntsel := rfl
@[simp] theorem Ctx.prune_cnt (k : Ctx) : (k.prune).cnt = k.cnt := rfl
@[simp] theorem Ctx.prune_cntCode (k : Ctx) : (k.prune).cntCode = k.cntCode := rfl
@[simp] theorem Ctx.prune_cntWin (k : Ctx) : (k.prune).cntWin = k.cntWin := rfl
@[simp] theorem Ctx.prune_dispatchAt (k : Ctx) : (k.prune).dispatchAt = k.dispatchAt := rfl
@[simp] theorem Ctx.prune_bank (k : Ctx) : (k.prune).bank = k.bank := rfl
@[simp] theorem Ctx.prune_held (k : Ctx) : (k.prune).held = k.held := rfl
@[simp] theorem Ctx.prune_pending (k : Ctx) : (k.prune).pending = k.pending := rfl
@[simp] theorem Ctx.prune_stop (k : Ctx) : (k.prune).stop = k.stop := rfl
@[simp] theorem Ctx.prune_bracket (k : Ctx) : (k.prune).bracket = k.bracket := rfl
@[simp] theorem Ctx.prune_deferred (k : Ctx) : (k.prune).deferred = k.deferred := rfl
@[simp] theorem Ctx.prune_bracketWait (k : Ctx) : (k.prune).bracketWait = k.bracketWait := rfl
@[simp] theorem Ctx.prune_preempting (k : Ctx) : (k.prune).preempting = k.preempting := rfl
@[simp] theorem Ctx.prune_loads (k : Ctx) : (k.prune).loads = k.loads := rfl
@[simp] theorem Ctx.prune_stores (k : Ctx) : (k.prune).stores = k.stores := rfl
@[simp] theorem Ctx.prune_replies (k : Ctx) : (k.prune).replies = k.replies := rfl
@[simp] theorem Ctx.prune_busy (k : Ctx) : (k.prune).busy = k.busy := rfl
@[simp] theorem Ctx.prune_loadAt (k : Ctx) : (k.prune).loadAt = k.loadAt := rfl
@[simp] theorem Ctx.prune_fences (k : Ctx) : (k.prune).fences = k.fences := rfl
@[simp] theorem Ctx.prune_acqs (k : Ctx) : (k.prune).acqs = k.acqs := rfl
@[simp] theorem Ctx.prune_accesses (k : Ctx) : (k.prune).accesses = k.accesses := rfl
@[simp] theorem Ctx.prune_handles (k : Ctx) : (k.prune).handles = k.handles := rfl
@[simp] theorem Ctx.prune_tlbiUntil (k : Ctx) : (k.prune).tlbiUntil = k.tlbiUntil := rfl
@[simp] theorem Ctx.prune_tlbiWait (k : Ctx) : (k.prune).tlbiWait = k.tlbiWait := rfl
@[simp] theorem Ctx.prune_tlbiKind (k : Ctx) : (k.prune).tlbiKind = k.tlbiKind := rfl
@[simp] theorem Ctx.prune_wfeFrom (k : Ctx) : (k.prune).wfeFrom = k.wfeFrom := rfl
@[simp] theorem Ctx.prune_waitFrom (k : Ctx) : (k.prune).waitFrom = k.waitFrom := rfl
@[simp] theorem Ctx.prune_owedFur (k : Ctx) : (k.prune).owedFur = k.owedFur := rfl
@[simp] theorem Ctx.prune_task (k : Ctx) : (k.prune).task = k.task := rfl
@[simp] theorem Ctx.prune_member (k : Ctx) : (k.prune).member = k.member := rfl
@[simp] theorem Ctx.prune_draining (k : Ctx) : (k.prune).draining = k.draining := rfl
@[simp] theorem Ctx.prune_prio (k : Ctx) : (k.prune).prio = k.prio := rfl
@[simp] theorem Ctx.prune_watches (k : Ctx) : (k.prune).watches = k.watches := rfl
@[simp] theorem Ctx.prune_pendWatch (k : Ctx) : (k.prune).pendWatch = k.pendWatch := rfl

/-! ### Fields that Ctx.issue leaves -/

@[simp] theorem Ctx.issue_phase (k : Ctx) (t : Tag) (n : Nat) : (k.issue t n).phase = k.phase := rfl
@[simp] theorem Ctx.issue_pl (k : Ctx) (t : Tag) (n : Nat) : (k.issue t n).pl = k.pl := rfl
@[simp] theorem Ctx.issue_s (k : Ctx) (t : Tag) (n : Nat) : (k.issue t n).s = k.s := rfl
@[simp] theorem Ctx.issue_h (k : Ctx) (t : Tag) (n : Nat) : (k.issue t n).h = k.h := rfl
@[simp] theorem Ctx.issue_n (k : Ctx) (t : Tag) (n : Nat) : (k.issue t n).n = k.n := rfl
@[simp] theorem Ctx.issue_text (k : Ctx) (t : Tag) (n : Nat) : (k.issue t n).text = k.text := rfl
@[simp] theorem Ctx.issue_walk (k : Ctx) (t : Tag) (n : Nat) : (k.issue t n).walk = k.walk := rfl
@[simp] theorem Ctx.issue_fork (k : Ctx) (t : Tag) (n : Nat) : (k.issue t n).fork = k.fork := rfl
@[simp] theorem Ctx.issue_slip (k : Ctx) (t : Tag) (n : Nat) : (k.issue t n).slip = k.slip := rfl
@[simp] theorem Ctx.issue_epoch (k : Ctx) (t : Tag) (n : Nat) : (k.issue t n).epoch = k.epoch := rfl
@[simp] theorem Ctx.issue_evt (k : Ctx) (t : Tag) (n : Nat) : (k.issue t n).evt = k.evt := rfl
@[simp] theorem Ctx.issue_slipwin (k : Ctx) (t : Tag) (n : Nat) : (k.issue t n).slipwin = k.slipwin := rfl
@[simp] theorem Ctx.issue_vstat (k : Ctx) (t : Tag) (n : Nat) : (k.issue t n).vstat = k.vstat := rfl
@[simp] theorem Ctx.issue_vrkey (k : Ctx) (t : Tag) (n : Nat) : (k.issue t n).vrkey = k.vrkey := rfl
@[simp] theorem Ctx.issue_vrctr (k : Ctx) (t : Tag) (n : Nat) : (k.issue t n).vrctr = k.vrctr := rfl
@[simp] theorem Ctx.issue_mstat (k : Ctx) (t : Tag) (n : Nat) : (k.issue t n).mstat = k.mstat := rfl
@[simp] theorem Ctx.issue_cstat (k : Ctx) (t : Tag) (n : Nat) : (k.issue t n).cstat = k.cstat := rfl
@[simp] theorem Ctx.issue_sstat (k : Ctx) (t : Tag) (n : Nat) : (k.issue t n).sstat = k.sstat := rfl
@[simp] theorem Ctx.issue_saecfg (k : Ctx) (t : Tag) (n : Nat) : (k.issue t n).saecfg = k.saecfg := rfl
@[simp] theorem Ctx.issue_clstat (k : Ctx) (t : Tag) (n : Nat) : (k.issue t n).clstat = k.clstat := rfl
@[simp] theorem Ctx.issue_clidx (k : Ctx) (t : Tag) (n : Nat) : (k.issue t n).clidx = k.clidx := rfl
@[simp] theorem Ctx.issue_obsring (k : Ctx) (t : Tag) (n : Nat) : (k.issue t n).obsring = k.obsring := rfl
@[simp] theorem Ctx.issue_obsEn (k : Ctx) (t : Tag) (n : Nat) : (k.issue t n).obsEn = k.obsEn := rfl
@[simp] theorem Ctx.issue_obsLsz (k : Ctx) (t : Tag) (n : Nat) : (k.issue t n).obsLsz = k.obsLsz := rfl
@[simp] theorem Ctx.issue_obsTail (k : Ctx) (t : Tag) (n : Nat) : (k.issue t n).obsTail = k.obsTail := rfl
@[simp] theorem Ctx.issue_obsHead (k : Ctx) (t : Tag) (n : Nat) : (k.issue t n).obsHead = k.obsHead := rfl
@[simp] theorem Ctx.issue_obsDrop (k : Ctx) (t : Tag) (n : Nat) : (k.issue t n).obsDrop = k.obsDrop := rfl
@[simp] theorem Ctx.issue_wfeto (k : Ctx) (t : Tag) (n : Nat) : (k.issue t n).wfeto = k.wfeto := rfl
@[simp] theorem Ctx.issue_released (k : Ctx) (t : Tag) (n : Nat) : (k.issue t n).released = k.released := rfl
@[simp] theorem Ctx.issue_htbase (k : Ctx) (t : Tag) (n : Nat) : (k.issue t n).htbase = k.htbase := rfl
@[simp] theorem Ctx.issue_s1root (k : Ctx) (t : Tag) (n : Nat) : (k.issue t n).s1root = k.s1root := rfl
@[simp] theorem Ctx.issue_s2root (k : Ctx) (t : Tag) (n : Nat) : (k.issue t n).s2root = k.s2root := rfl
@[simp] theorem Ctx.issue_cntsel (k : Ctx) (t : Tag) (n : Nat) : (k.issue t n).cntsel = k.cntsel := rfl
@[simp] theorem Ctx.issue_cnt (k : Ctx) (t : Tag) (n : Nat) : (k.issue t n).cnt = k.cnt := rfl
@[simp] theorem Ctx.issue_cntCode (k : Ctx) (t : Tag) (n : Nat) : (k.issue t n).cntCode = k.cntCode := rfl
@[simp] theorem Ctx.issue_cntWin (k : Ctx) (t : Tag) (n : Nat) : (k.issue t n).cntWin = k.cntWin := rfl
@[simp] theorem Ctx.issue_dispatchAt (k : Ctx) (t : Tag) (n : Nat) : (k.issue t n).dispatchAt = k.dispatchAt := rfl
@[simp] theorem Ctx.issue_bank (k : Ctx) (t : Tag) (n : Nat) : (k.issue t n).bank = k.bank := rfl
@[simp] theorem Ctx.issue_held (k : Ctx) (t : Tag) (n : Nat) : (k.issue t n).held = k.held := rfl
@[simp] theorem Ctx.issue_pending (k : Ctx) (t : Tag) (n : Nat) : (k.issue t n).pending = k.pending := rfl
@[simp] theorem Ctx.issue_stop (k : Ctx) (t : Tag) (n : Nat) : (k.issue t n).stop = k.stop := rfl
@[simp] theorem Ctx.issue_bracket (k : Ctx) (t : Tag) (n : Nat) : (k.issue t n).bracket = k.bracket := rfl
@[simp] theorem Ctx.issue_deferred (k : Ctx) (t : Tag) (n : Nat) : (k.issue t n).deferred = k.deferred := rfl
@[simp] theorem Ctx.issue_bracketWait (k : Ctx) (t : Tag) (n : Nat) : (k.issue t n).bracketWait = k.bracketWait := rfl
@[simp] theorem Ctx.issue_preempting (k : Ctx) (t : Tag) (n : Nat) : (k.issue t n).preempting = k.preempting := rfl
@[simp] theorem Ctx.issue_loads (k : Ctx) (t : Tag) (n : Nat) : (k.issue t n).loads = k.loads := rfl
@[simp] theorem Ctx.issue_stores (k : Ctx) (t : Tag) (n : Nat) : (k.issue t n).stores = k.stores := rfl
@[simp] theorem Ctx.issue_replies (k : Ctx) (t : Tag) (n : Nat) : (k.issue t n).replies = k.replies := rfl
@[simp] theorem Ctx.issue_busy (k : Ctx) (t : Tag) (n : Nat) : (k.issue t n).busy = k.busy := rfl
@[simp] theorem Ctx.issue_loadAt (k : Ctx) (t : Tag) (n : Nat) : (k.issue t n).loadAt = k.loadAt := rfl
@[simp] theorem Ctx.issue_fences (k : Ctx) (t : Tag) (n : Nat) : (k.issue t n).fences = k.fences := rfl
@[simp] theorem Ctx.issue_acqs (k : Ctx) (t : Tag) (n : Nat) : (k.issue t n).acqs = k.acqs := rfl
@[simp] theorem Ctx.issue_accesses (k : Ctx) (t : Tag) (n : Nat) : (k.issue t n).accesses = k.accesses := rfl
@[simp] theorem Ctx.issue_handles (k : Ctx) (t : Tag) (n : Nat) : (k.issue t n).handles = k.handles := rfl
@[simp] theorem Ctx.issue_tlbiUntil (k : Ctx) (t : Tag) (n : Nat) : (k.issue t n).tlbiUntil = k.tlbiUntil := rfl
@[simp] theorem Ctx.issue_tlbiWait (k : Ctx) (t : Tag) (n : Nat) : (k.issue t n).tlbiWait = k.tlbiWait := rfl
@[simp] theorem Ctx.issue_tlbiKind (k : Ctx) (t : Tag) (n : Nat) : (k.issue t n).tlbiKind = k.tlbiKind := rfl
@[simp] theorem Ctx.issue_wfeFrom (k : Ctx) (t : Tag) (n : Nat) : (k.issue t n).wfeFrom = k.wfeFrom := rfl
@[simp] theorem Ctx.issue_waitFrom (k : Ctx) (t : Tag) (n : Nat) : (k.issue t n).waitFrom = k.waitFrom := rfl
@[simp] theorem Ctx.issue_task (k : Ctx) (t : Tag) (n : Nat) : (k.issue t n).task = k.task := rfl
@[simp] theorem Ctx.issue_member (k : Ctx) (t : Tag) (n : Nat) : (k.issue t n).member = k.member := rfl
@[simp] theorem Ctx.issue_draining (k : Ctx) (t : Tag) (n : Nat) : (k.issue t n).draining = k.draining := rfl
@[simp] theorem Ctx.issue_prio (k : Ctx) (t : Tag) (n : Nat) : (k.issue t n).prio = k.prio := rfl
@[simp] theorem Ctx.issue_watches (k : Ctx) (t : Tag) (n : Nat) : (k.issue t n).watches = k.watches := rfl
@[simp] theorem Ctx.issue_pendWatch (k : Ctx) (t : Tag) (n : Nat) : (k.issue t n).pendWatch = k.pendWatch := rfl

/-! ### Fields that Ctx.count leaves -/

@[simp] theorem Ctx.count_phase (k : Ctx) (e n : Nat) : (k.count e n).phase = k.phase := by unfold Ctx.count; split <;> rfl
@[simp] theorem Ctx.count_pl (k : Ctx) (e n : Nat) : (k.count e n).pl = k.pl := by unfold Ctx.count; split <;> rfl
@[simp] theorem Ctx.count_s (k : Ctx) (e n : Nat) : (k.count e n).s = k.s := by unfold Ctx.count; split <;> rfl
@[simp] theorem Ctx.count_h (k : Ctx) (e n : Nat) : (k.count e n).h = k.h := by unfold Ctx.count; split <;> rfl
@[simp] theorem Ctx.count_n (k : Ctx) (e n : Nat) : (k.count e n).n = k.n := by unfold Ctx.count; split <;> rfl
@[simp] theorem Ctx.count_text (k : Ctx) (e n : Nat) : (k.count e n).text = k.text := by unfold Ctx.count; split <;> rfl
@[simp] theorem Ctx.count_walk (k : Ctx) (e n : Nat) : (k.count e n).walk = k.walk := by unfold Ctx.count; split <;> rfl
@[simp] theorem Ctx.count_stream (k : Ctx) (e n : Nat) : (k.count e n).stream = k.stream := by unfold Ctx.count; split <;> rfl
@[simp] theorem Ctx.count_cursors (k : Ctx) (e n : Nat) : (k.count e n).cursors = k.cursors := by unfold Ctx.count; split <;> rfl
@[simp] theorem Ctx.count_fork (k : Ctx) (e n : Nat) : (k.count e n).fork = k.fork := by unfold Ctx.count; split <;> rfl
@[simp] theorem Ctx.count_slip (k : Ctx) (e n : Nat) : (k.count e n).slip = k.slip := by unfold Ctx.count; split <;> rfl
@[simp] theorem Ctx.count_epoch (k : Ctx) (e n : Nat) : (k.count e n).epoch = k.epoch := by unfold Ctx.count; split <;> rfl
@[simp] theorem Ctx.count_evt (k : Ctx) (e n : Nat) : (k.count e n).evt = k.evt := by unfold Ctx.count; split <;> rfl
@[simp] theorem Ctx.count_slipwin (k : Ctx) (e n : Nat) : (k.count e n).slipwin = k.slipwin := by unfold Ctx.count; split <;> rfl
@[simp] theorem Ctx.count_vstat (k : Ctx) (e n : Nat) : (k.count e n).vstat = k.vstat := by unfold Ctx.count; split <;> rfl
@[simp] theorem Ctx.count_vrkey (k : Ctx) (e n : Nat) : (k.count e n).vrkey = k.vrkey := by unfold Ctx.count; split <;> rfl
@[simp] theorem Ctx.count_vrctr (k : Ctx) (e n : Nat) : (k.count e n).vrctr = k.vrctr := by unfold Ctx.count; split <;> rfl
@[simp] theorem Ctx.count_mstat (k : Ctx) (e n : Nat) : (k.count e n).mstat = k.mstat := by unfold Ctx.count; split <;> rfl
@[simp] theorem Ctx.count_cstat (k : Ctx) (e n : Nat) : (k.count e n).cstat = k.cstat := by unfold Ctx.count; split <;> rfl
@[simp] theorem Ctx.count_sstat (k : Ctx) (e n : Nat) : (k.count e n).sstat = k.sstat := by unfold Ctx.count; split <;> rfl
@[simp] theorem Ctx.count_saecfg (k : Ctx) (e n : Nat) : (k.count e n).saecfg = k.saecfg := by unfold Ctx.count; split <;> rfl
@[simp] theorem Ctx.count_clstat (k : Ctx) (e n : Nat) : (k.count e n).clstat = k.clstat := by unfold Ctx.count; split <;> rfl
@[simp] theorem Ctx.count_clidx (k : Ctx) (e n : Nat) : (k.count e n).clidx = k.clidx := by unfold Ctx.count; split <;> rfl
@[simp] theorem Ctx.count_obsring (k : Ctx) (e n : Nat) : (k.count e n).obsring = k.obsring := by unfold Ctx.count; split <;> rfl
@[simp] theorem Ctx.count_obsEn (k : Ctx) (e n : Nat) : (k.count e n).obsEn = k.obsEn := by unfold Ctx.count; split <;> rfl
@[simp] theorem Ctx.count_obsLsz (k : Ctx) (e n : Nat) : (k.count e n).obsLsz = k.obsLsz := by unfold Ctx.count; split <;> rfl
@[simp] theorem Ctx.count_obsTail (k : Ctx) (e n : Nat) : (k.count e n).obsTail = k.obsTail := by unfold Ctx.count; split <;> rfl
@[simp] theorem Ctx.count_obsHead (k : Ctx) (e n : Nat) : (k.count e n).obsHead = k.obsHead := by unfold Ctx.count; split <;> rfl
@[simp] theorem Ctx.count_obsDrop (k : Ctx) (e n : Nat) : (k.count e n).obsDrop = k.obsDrop := by unfold Ctx.count; split <;> rfl
@[simp] theorem Ctx.count_wfeto (k : Ctx) (e n : Nat) : (k.count e n).wfeto = k.wfeto := by unfold Ctx.count; split <;> rfl
@[simp] theorem Ctx.count_released (k : Ctx) (e n : Nat) : (k.count e n).released = k.released := by unfold Ctx.count; split <;> rfl
@[simp] theorem Ctx.count_htbase (k : Ctx) (e n : Nat) : (k.count e n).htbase = k.htbase := by unfold Ctx.count; split <;> rfl
@[simp] theorem Ctx.count_s1root (k : Ctx) (e n : Nat) : (k.count e n).s1root = k.s1root := by unfold Ctx.count; split <;> rfl
@[simp] theorem Ctx.count_s2root (k : Ctx) (e n : Nat) : (k.count e n).s2root = k.s2root := by unfold Ctx.count; split <;> rfl
@[simp] theorem Ctx.count_cntsel (k : Ctx) (e n : Nat) : (k.count e n).cntsel = k.cntsel := by unfold Ctx.count; split <;> rfl
@[simp] theorem Ctx.count_cntCode (k : Ctx) (e n : Nat) : (k.count e n).cntCode = k.cntCode := by unfold Ctx.count; split <;> rfl
@[simp] theorem Ctx.count_cntWin (k : Ctx) (e n : Nat) : (k.count e n).cntWin = k.cntWin := by unfold Ctx.count; split <;> rfl
@[simp] theorem Ctx.count_dispatchAt (k : Ctx) (e n : Nat) : (k.count e n).dispatchAt = k.dispatchAt := by unfold Ctx.count; split <;> rfl
@[simp] theorem Ctx.count_bank (k : Ctx) (e n : Nat) : (k.count e n).bank = k.bank := by unfold Ctx.count; split <;> rfl
@[simp] theorem Ctx.count_held (k : Ctx) (e n : Nat) : (k.count e n).held = k.held := by unfold Ctx.count; split <;> rfl
@[simp] theorem Ctx.count_pending (k : Ctx) (e n : Nat) : (k.count e n).pending = k.pending := by unfold Ctx.count; split <;> rfl
@[simp] theorem Ctx.count_stop (k : Ctx) (e n : Nat) : (k.count e n).stop = k.stop := by unfold Ctx.count; split <;> rfl
@[simp] theorem Ctx.count_bracket (k : Ctx) (e n : Nat) : (k.count e n).bracket = k.bracket := by unfold Ctx.count; split <;> rfl
@[simp] theorem Ctx.count_deferred (k : Ctx) (e n : Nat) : (k.count e n).deferred = k.deferred := by unfold Ctx.count; split <;> rfl
@[simp] theorem Ctx.count_bracketWait (k : Ctx) (e n : Nat) : (k.count e n).bracketWait = k.bracketWait := by unfold Ctx.count; split <;> rfl
@[simp] theorem Ctx.count_preempting (k : Ctx) (e n : Nat) : (k.count e n).preempting = k.preempting := by unfold Ctx.count; split <;> rfl
@[simp] theorem Ctx.count_loads (k : Ctx) (e n : Nat) : (k.count e n).loads = k.loads := by unfold Ctx.count; split <;> rfl
@[simp] theorem Ctx.count_stores (k : Ctx) (e n : Nat) : (k.count e n).stores = k.stores := by unfold Ctx.count; split <;> rfl
@[simp] theorem Ctx.count_replies (k : Ctx) (e n : Nat) : (k.count e n).replies = k.replies := by unfold Ctx.count; split <;> rfl
@[simp] theorem Ctx.count_busy (k : Ctx) (e n : Nat) : (k.count e n).busy = k.busy := by unfold Ctx.count; split <;> rfl
@[simp] theorem Ctx.count_loadAt (k : Ctx) (e n : Nat) : (k.count e n).loadAt = k.loadAt := by unfold Ctx.count; split <;> rfl
@[simp] theorem Ctx.count_fences (k : Ctx) (e n : Nat) : (k.count e n).fences = k.fences := by unfold Ctx.count; split <;> rfl
@[simp] theorem Ctx.count_acqs (k : Ctx) (e n : Nat) : (k.count e n).acqs = k.acqs := by unfold Ctx.count; split <;> rfl
@[simp] theorem Ctx.count_accesses (k : Ctx) (e n : Nat) : (k.count e n).accesses = k.accesses := by unfold Ctx.count; split <;> rfl
@[simp] theorem Ctx.count_handles (k : Ctx) (e n : Nat) : (k.count e n).handles = k.handles := by unfold Ctx.count; split <;> rfl
@[simp] theorem Ctx.count_tlbiUntil (k : Ctx) (e n : Nat) : (k.count e n).tlbiUntil = k.tlbiUntil := by unfold Ctx.count; split <;> rfl
@[simp] theorem Ctx.count_tlbiWait (k : Ctx) (e n : Nat) : (k.count e n).tlbiWait = k.tlbiWait := by unfold Ctx.count; split <;> rfl
@[simp] theorem Ctx.count_tlbiKind (k : Ctx) (e n : Nat) : (k.count e n).tlbiKind = k.tlbiKind := by unfold Ctx.count; split <;> rfl
@[simp] theorem Ctx.count_wfeFrom (k : Ctx) (e n : Nat) : (k.count e n).wfeFrom = k.wfeFrom := by unfold Ctx.count; split <;> rfl
@[simp] theorem Ctx.count_waitFrom (k : Ctx) (e n : Nat) : (k.count e n).waitFrom = k.waitFrom := by unfold Ctx.count; split <;> rfl
@[simp] theorem Ctx.count_owedFur (k : Ctx) (e n : Nat) : (k.count e n).owedFur = k.owedFur := by unfold Ctx.count; split <;> rfl
@[simp] theorem Ctx.count_task (k : Ctx) (e n : Nat) : (k.count e n).task = k.task := by unfold Ctx.count; split <;> rfl
@[simp] theorem Ctx.count_member (k : Ctx) (e n : Nat) : (k.count e n).member = k.member := by unfold Ctx.count; split <;> rfl
@[simp] theorem Ctx.count_draining (k : Ctx) (e n : Nat) : (k.count e n).draining = k.draining := by unfold Ctx.count; split <;> rfl
@[simp] theorem Ctx.count_prio (k : Ctx) (e n : Nat) : (k.count e n).prio = k.prio := by unfold Ctx.count; split <;> rfl
@[simp] theorem Ctx.count_watches (k : Ctx) (e n : Nat) : (k.count e n).watches = k.watches := by unfold Ctx.count; split <;> rfl
@[simp] theorem Ctx.count_pendWatch (k : Ctx) (e n : Nat) : (k.count e n).pendWatch = k.pendWatch := by unfold Ctx.count; split <;> rfl

/-! ### The running context -/

@[simp] theorem State.me_modMe (s : State) (f : Ctx → Ctx) : (s.modMe f).me = f s.me := by simp [State.me, State.modMe]

@[simp] theorem State.myCore_modMyCore (s : State) (f : Core → Core) : (s.modMyCore f).myCore = f s.myCore := by simp [State.myCore, State.modMyCore]

@[simp] theorem State.myCore_modMe (s : State) (f : Ctx → Ctx) : (s.modMe f).myCore = s.myCore.modCtx s.cur.ctx f := by simp [State.myCore, State.modMe]

@[simp] theorem State.me_modMyCore (s : State) (f : Core → Core) : (s.modMyCore f).me = (f s.myCore).ctx s.cur.ctx := by
  simp [State.me, State.modMyCore, State.ctx, State.myCore]

theorem State.me_eq (s : State) : s.me = s.myCore.ctx s.cur.ctx := rfl

@[simp] theorem State.skipFresh_me (s : State) (n : Nat) : (s.skipFresh n).me = s.me := rfl
@[simp] theorem State.skipFresh_myCore (s : State) (n : Nat) : (s.skipFresh n).myCore = s.myCore := rfl
@[simp] theorem State.skipFresh_core (s : State) (n : Nat) (c : CoreId) : (s.skipFresh n).core c = s.core c := rfl
@[simp] theorem State.skipFresh_ctx (s : State) (n : Nat) (c : CoreId) (x : CtxId) : (s.skipFresh n).ctx c x = s.ctx c x := rfl
@[simp] theorem State.skipFresh_rdS (s : State) (n : Nat) (r : SReg) : (s.skipFresh n).rdS r = s.rdS r := rfl
@[simp] theorem State.skipFresh_rdH (s : State) (n : Nat) (r : HReg) : (s.skipFresh n).rdH r = s.rdH r := rfl

/-! ### Scalar and header registers (R60) -/

theorem Ctx.rdS_wrS (k : Ctx) (d r : SReg) (v : Word) : (k.wrS d v).rdS r = if r = d ∧ d.val ≠ 0 then v else k.rdS r := by
  unfold Ctx.rdS Ctx.wrS
  by_cases h : d.val = 0
  · simp [h]
  · by_cases e : r = d
    · subst e; simp [h]
    · have : d.val ≠ r.val := fun x => e (Fin.ext x.symm)
      simp [h, e, Vector.getElem_set, this]

@[simp] theorem Ctx.rdS_zero (k : Ctx) : k.rdS 0 = 0 := rfl

theorem State.rdS_wrS (s : State) (d r : SReg) (v : Word) : (s.wrS d v).rdS r = if r = d ∧ d.val ≠ 0 then v else s.rdS r := by
  simp [State.rdS, State.wrS, Ctx.rdS_wrS]

theorem State.rdS_wrS_ne (s : State) (d r : SReg) (v : Word) (h : r ≠ d) : (s.wrS d v).rdS r = s.rdS r := by simp [State.rdS_wrS, h]

@[simp] theorem State.rdH_wrS (s : State) (d : SReg) (r : HReg) (v : Word) : (s.wrS d v).rdH r = s.rdH r := by
  simp [State.rdH, State.wrS]

theorem State.rdH_wrH (s : State) (d r : HReg) (v : Header) : (s.wrH d v).rdH r = if r = d then v else s.rdH r := by
  unfold State.rdH State.wrH
  by_cases e : r = d
  · subst e; simp
  · have : d.val ≠ r.val := fun x => e (Fin.ext x.symm)
    simp [e, Vector.getElem_set, this]

/-! ### The issue of a word (R40, R54, R354) -/

/-- The running context after its word has issued: its stream and cursor, and its counters. -/
theorem State.issued_me (s : State) : s.issued.me =
    (if s.cur.tag = .ctl then (s.me.issue s.cur.tag s.cycle).count 0x02 1
     else if s.cur.tag = .vec then (s.me.issue s.cur.tag s.cycle).count 0x03 1 else s.me.issue s.cur.tag s.cycle) := by
  unfold State.issued
  dsimp only
  split
  · rw [State.me_modMyCore]
    simp [Core.ctx, Core.modCtx, State.me_eq]
  · simp

/-! ### Fields of the running context that an issue leaves -/

@[simp] theorem State.issued_me_phase (s : State) : s.issued.me.phase = s.me.phase := by rw [State.issued_me]; (repeat' split) <;> simp
@[simp] theorem State.issued_me_pl (s : State) : s.issued.me.pl = s.me.pl := by rw [State.issued_me]; (repeat' split) <;> simp
@[simp] theorem State.issued_me_s (s : State) : s.issued.me.s = s.me.s := by rw [State.issued_me]; (repeat' split) <;> simp
@[simp] theorem State.issued_me_h (s : State) : s.issued.me.h = s.me.h := by rw [State.issued_me]; (repeat' split) <;> simp
@[simp] theorem State.issued_me_n (s : State) : s.issued.me.n = s.me.n := by rw [State.issued_me]; (repeat' split) <;> simp
@[simp] theorem State.issued_me_text (s : State) : s.issued.me.text = s.me.text := by rw [State.issued_me]; (repeat' split) <;> simp
@[simp] theorem State.issued_me_walk (s : State) : s.issued.me.walk = s.me.walk := by rw [State.issued_me]; (repeat' split) <;> simp
@[simp] theorem State.issued_me_fork (s : State) : s.issued.me.fork = s.me.fork := by rw [State.issued_me]; (repeat' split) <;> simp
@[simp] theorem State.issued_me_slip (s : State) : s.issued.me.slip = s.me.slip := by rw [State.issued_me]; (repeat' split) <;> simp
@[simp] theorem State.issued_me_epoch (s : State) : s.issued.me.epoch = s.me.epoch := by rw [State.issued_me]; (repeat' split) <;> simp
@[simp] theorem State.issued_me_evt (s : State) : s.issued.me.evt = s.me.evt := by rw [State.issued_me]; (repeat' split) <;> simp
@[simp] theorem State.issued_me_slipwin (s : State) : s.issued.me.slipwin = s.me.slipwin := by rw [State.issued_me]; (repeat' split) <;> simp
@[simp] theorem State.issued_me_vstat (s : State) : s.issued.me.vstat = s.me.vstat := by rw [State.issued_me]; (repeat' split) <;> simp
@[simp] theorem State.issued_me_vrkey (s : State) : s.issued.me.vrkey = s.me.vrkey := by rw [State.issued_me]; (repeat' split) <;> simp
@[simp] theorem State.issued_me_vrctr (s : State) : s.issued.me.vrctr = s.me.vrctr := by rw [State.issued_me]; (repeat' split) <;> simp
@[simp] theorem State.issued_me_mstat (s : State) : s.issued.me.mstat = s.me.mstat := by rw [State.issued_me]; (repeat' split) <;> simp
@[simp] theorem State.issued_me_cstat (s : State) : s.issued.me.cstat = s.me.cstat := by rw [State.issued_me]; (repeat' split) <;> simp
@[simp] theorem State.issued_me_sstat (s : State) : s.issued.me.sstat = s.me.sstat := by rw [State.issued_me]; (repeat' split) <;> simp
@[simp] theorem State.issued_me_saecfg (s : State) : s.issued.me.saecfg = s.me.saecfg := by rw [State.issued_me]; (repeat' split) <;> simp
@[simp] theorem State.issued_me_clstat (s : State) : s.issued.me.clstat = s.me.clstat := by rw [State.issued_me]; (repeat' split) <;> simp
@[simp] theorem State.issued_me_clidx (s : State) : s.issued.me.clidx = s.me.clidx := by rw [State.issued_me]; (repeat' split) <;> simp
@[simp] theorem State.issued_me_obsring (s : State) : s.issued.me.obsring = s.me.obsring := by rw [State.issued_me]; (repeat' split) <;> simp
@[simp] theorem State.issued_me_obsEn (s : State) : s.issued.me.obsEn = s.me.obsEn := by rw [State.issued_me]; (repeat' split) <;> simp
@[simp] theorem State.issued_me_obsLsz (s : State) : s.issued.me.obsLsz = s.me.obsLsz := by rw [State.issued_me]; (repeat' split) <;> simp
@[simp] theorem State.issued_me_obsTail (s : State) : s.issued.me.obsTail = s.me.obsTail := by rw [State.issued_me]; (repeat' split) <;> simp
@[simp] theorem State.issued_me_obsHead (s : State) : s.issued.me.obsHead = s.me.obsHead := by rw [State.issued_me]; (repeat' split) <;> simp
@[simp] theorem State.issued_me_obsDrop (s : State) : s.issued.me.obsDrop = s.me.obsDrop := by rw [State.issued_me]; (repeat' split) <;> simp
@[simp] theorem State.issued_me_wfeto (s : State) : s.issued.me.wfeto = s.me.wfeto := by rw [State.issued_me]; (repeat' split) <;> simp
@[simp] theorem State.issued_me_released (s : State) : s.issued.me.released = s.me.released := by rw [State.issued_me]; (repeat' split) <;> simp
@[simp] theorem State.issued_me_htbase (s : State) : s.issued.me.htbase = s.me.htbase := by rw [State.issued_me]; (repeat' split) <;> simp
@[simp] theorem State.issued_me_s1root (s : State) : s.issued.me.s1root = s.me.s1root := by rw [State.issued_me]; (repeat' split) <;> simp
@[simp] theorem State.issued_me_s2root (s : State) : s.issued.me.s2root = s.me.s2root := by rw [State.issued_me]; (repeat' split) <;> simp
@[simp] theorem State.issued_me_cntsel (s : State) : s.issued.me.cntsel = s.me.cntsel := by rw [State.issued_me]; (repeat' split) <;> simp
@[simp] theorem State.issued_me_cntCode (s : State) : s.issued.me.cntCode = s.me.cntCode := by rw [State.issued_me]; (repeat' split) <;> simp
@[simp] theorem State.issued_me_cntWin (s : State) : s.issued.me.cntWin = s.me.cntWin := by rw [State.issued_me]; (repeat' split) <;> simp
@[simp] theorem State.issued_me_dispatchAt (s : State) : s.issued.me.dispatchAt = s.me.dispatchAt := by rw [State.issued_me]; (repeat' split) <;> simp
@[simp] theorem State.issued_me_bank (s : State) : s.issued.me.bank = s.me.bank := by rw [State.issued_me]; (repeat' split) <;> simp
@[simp] theorem State.issued_me_held (s : State) : s.issued.me.held = s.me.held := by rw [State.issued_me]; (repeat' split) <;> simp
@[simp] theorem State.issued_me_pending (s : State) : s.issued.me.pending = s.me.pending := by rw [State.issued_me]; (repeat' split) <;> simp
@[simp] theorem State.issued_me_stop (s : State) : s.issued.me.stop = s.me.stop := by rw [State.issued_me]; (repeat' split) <;> simp
@[simp] theorem State.issued_me_bracket (s : State) : s.issued.me.bracket = s.me.bracket := by rw [State.issued_me]; (repeat' split) <;> simp
@[simp] theorem State.issued_me_deferred (s : State) : s.issued.me.deferred = s.me.deferred := by rw [State.issued_me]; (repeat' split) <;> simp
@[simp] theorem State.issued_me_bracketWait (s : State) : s.issued.me.bracketWait = s.me.bracketWait := by rw [State.issued_me]; (repeat' split) <;> simp
@[simp] theorem State.issued_me_preempting (s : State) : s.issued.me.preempting = s.me.preempting := by rw [State.issued_me]; (repeat' split) <;> simp
@[simp] theorem State.issued_me_loads (s : State) : s.issued.me.loads = s.me.loads := by rw [State.issued_me]; (repeat' split) <;> simp
@[simp] theorem State.issued_me_stores (s : State) : s.issued.me.stores = s.me.stores := by rw [State.issued_me]; (repeat' split) <;> simp
@[simp] theorem State.issued_me_replies (s : State) : s.issued.me.replies = s.me.replies := by rw [State.issued_me]; (repeat' split) <;> simp
@[simp] theorem State.issued_me_busy (s : State) : s.issued.me.busy = s.me.busy := by rw [State.issued_me]; (repeat' split) <;> simp
@[simp] theorem State.issued_me_loadAt (s : State) : s.issued.me.loadAt = s.me.loadAt := by rw [State.issued_me]; (repeat' split) <;> simp
@[simp] theorem State.issued_me_fences (s : State) : s.issued.me.fences = s.me.fences := by rw [State.issued_me]; (repeat' split) <;> simp
@[simp] theorem State.issued_me_acqs (s : State) : s.issued.me.acqs = s.me.acqs := by rw [State.issued_me]; (repeat' split) <;> simp
@[simp] theorem State.issued_me_accesses (s : State) : s.issued.me.accesses = s.me.accesses := by rw [State.issued_me]; (repeat' split) <;> simp
@[simp] theorem State.issued_me_handles (s : State) : s.issued.me.handles = s.me.handles := by rw [State.issued_me]; (repeat' split) <;> simp
@[simp] theorem State.issued_me_tlbiUntil (s : State) : s.issued.me.tlbiUntil = s.me.tlbiUntil := by rw [State.issued_me]; (repeat' split) <;> simp
@[simp] theorem State.issued_me_tlbiWait (s : State) : s.issued.me.tlbiWait = s.me.tlbiWait := by rw [State.issued_me]; (repeat' split) <;> simp
@[simp] theorem State.issued_me_tlbiKind (s : State) : s.issued.me.tlbiKind = s.me.tlbiKind := by rw [State.issued_me]; (repeat' split) <;> simp
@[simp] theorem State.issued_me_wfeFrom (s : State) : s.issued.me.wfeFrom = s.me.wfeFrom := by rw [State.issued_me]; (repeat' split) <;> simp
@[simp] theorem State.issued_me_waitFrom (s : State) : s.issued.me.waitFrom = s.me.waitFrom := by rw [State.issued_me]; (repeat' split) <;> simp
@[simp] theorem State.issued_me_task (s : State) : s.issued.me.task = s.me.task := by rw [State.issued_me]; (repeat' split) <;> simp
@[simp] theorem State.issued_me_member (s : State) : s.issued.me.member = s.me.member := by rw [State.issued_me]; (repeat' split) <;> simp
@[simp] theorem State.issued_me_draining (s : State) : s.issued.me.draining = s.me.draining := by rw [State.issued_me]; (repeat' split) <;> simp
@[simp] theorem State.issued_me_prio (s : State) : s.issued.me.prio = s.me.prio := by rw [State.issued_me]; (repeat' split) <;> simp
@[simp] theorem State.issued_me_watches (s : State) : s.issued.me.watches = s.me.watches := by rw [State.issued_me]; (repeat' split) <;> simp
@[simp] theorem State.issued_me_pendWatch (s : State) : s.issued.me.pendWatch = s.me.pendWatch := by rw [State.issued_me]; (repeat' split) <;> simp

@[simp] theorem State.issued_rdS (s : State) (r : SReg) : s.issued.rdS r = s.rdS r := by simp [State.rdS, Ctx.rdS]
@[simp] theorem State.issued_rdH (s : State) (r : HReg) : s.issued.rdH r = s.rdH r := by simp [State.rdH]

/-- Every other core stands as it did. -/
theorem State.issued_core_ne (s : State) (c : CoreId) (h : c ≠ s.cur.core) : s.issued.core c = s.core c := by
  unfold State.issued
  dsimp only
  split
  · simp [State.modMyCore, State.modMe, State.core_modCore_ne _ _ _ _ h, State.core_modCtx_ne _ _ _ _ _ h]
  · simp [State.modMe, State.core_modCtx_ne _ _ _ _ _ h]

/-! ### Fields of the running core that an issue leaves -/

@[simp] theorem State.issued_myCore_grants (s : State) : s.issued.myCore.grants = s.myCore.grants := by
  unfold State.issued; dsimp only; split <;> simp
@[simp] theorem State.issued_myCore_abuf (s : State) : s.issued.myCore.abuf = s.myCore.abuf := by
  unfold State.issued; dsimp only; split <;> simp
@[simp] theorem State.issued_myCore_cbuf (s : State) : s.issued.myCore.cbuf = s.myCore.cbuf := by
  unfold State.issued; dsimp only; split <;> simp
@[simp] theorem State.issued_myCore_wbuf (s : State) : s.issued.myCore.wbuf = s.myCore.wbuf := by
  unfold State.issued; dsimp only; split <;> simp
@[simp] theorem State.issued_myCore_afmt (s : State) : s.issued.myCore.afmt = s.myCore.afmt := by
  unfold State.issued; dsimp only; split <;> simp
@[simp] theorem State.issued_myCore_cfmt (s : State) : s.issued.myCore.cfmt = s.myCore.cfmt := by
  unfold State.issued; dsimp only; split <;> simp
@[simp] theorem State.issued_myCore_wfmt (s : State) : s.issued.myCore.wfmt = s.myCore.wfmt := by
  unfold State.issued; dsimp only; split <;> simp
@[simp] theorem State.issued_myCore_flags (s : State) : s.issued.myCore.flags = s.myCore.flags := by
  unfold State.issued; dsimp only; split <;> simp
@[simp] theorem State.issued_myCore_setters (s : State) : s.issued.myCore.setters = s.myCore.setters := by
  unfold State.issued; dsimp only; split <;> simp
@[simp] theorem State.issued_myCore_upds (s : State) : s.issued.myCore.upds = s.myCore.upds := by
  unfold State.issued; dsimp only; split <;> simp
@[simp] theorem State.issued_myCore_queues (s : State) : s.issued.myCore.queues = s.myCore.queues := by
  unfold State.issued; dsimp only; split <;> simp
@[simp] theorem State.issued_myCore_freed (s : State) : s.issued.myCore.freed = s.myCore.freed := by
  unfold State.issued; dsimp only; split <;> simp
@[simp] theorem State.issued_myCore_nextSlot (s : State) : s.issued.myCore.nextSlot = s.myCore.nextSlot := by
  unfold State.issued; dsimp only; split <;> simp
@[simp] theorem State.issued_myCore_v (s : State) : s.issued.myCore.v = s.myCore.v := by
  unfold State.issued; dsimp only; split <;> simp
@[simp] theorem State.issued_myCore_k (s : State) : s.issued.myCore.k = s.myCore.k := by
  unfold State.issued; dsimp only; split <;> simp
@[simp] theorem State.issued_myCore_vpend (s : State) : s.issued.myCore.vpend = s.myCore.vpend := by
  unfold State.issued; dsimp only; split <;> simp
@[simp] theorem State.issued_myCore_vacc (s : State) : s.issued.myCore.vacc = s.myCore.vacc := by
  unfold State.issued; dsimp only; split <;> simp
@[simp] theorem State.issued_myCore_walkers (s : State) : s.issued.myCore.walkers = s.myCore.walkers := by
  unfold State.issued; dsimp only; split <;> simp
@[simp] theorem State.issued_myCore_mtx (s : State) : s.issued.myCore.mtx = s.myCore.mtx := by
  unfold State.issued; dsimp only; split <;> simp
@[simp] theorem State.issued_myCore_mtxEnd (s : State) : s.issued.myCore.mtxEnd = s.myCore.mtxEnd := by
  unfold State.issued; dsimp only; split <;> simp
@[simp] theorem State.issued_myCore_chans (s : State) : s.issued.myCore.chans = s.myCore.chans := by
  unfold State.issued; dsimp only; split <;> simp
@[simp] theorem State.issued_myCore_owedRes (s : State) : s.issued.myCore.owedRes = s.myCore.owedRes := by
  unfold State.issued; dsimp only; split <;> simp
@[simp] theorem State.issued_myCore_sae (s : State) : s.issued.myCore.sae = s.myCore.sae := by
  unfold State.issued; dsimp only; split <;> simp
@[simp] theorem State.issued_myCore_furs (s : State) : s.issued.myCore.furs = s.myCore.furs := by
  unfold State.issued; dsimp only; split <;> simp
@[simp] theorem State.issued_myCore_tabs (s : State) : s.issued.myCore.tabs = s.myCore.tabs := by
  unfold State.issued; dsimp only; split <;> simp
@[simp] theorem State.issued_myCore_marks (s : State) : s.issued.myCore.marks = s.myCore.marks := by
  unfold State.issued; dsimp only; split <;> simp
@[simp] theorem State.issued_myCore_fcmd (s : State) : s.issued.myCore.fcmd = s.myCore.fcmd := by
  unfold State.issued; dsimp only; split <;> simp
@[simp] theorem State.issued_myCore_tlb (s : State) : s.issued.myCore.tlb = s.myCore.tlb := by
  unfold State.issued; dsimp only; split <;> simp
@[simp] theorem State.issued_myCore_stlb (s : State) : s.issued.myCore.stlb = s.myCore.stlb := by
  unfold State.issued; dsimp only; split <;> simp
@[simp] theorem State.issued_myCore_dcache (s : State) : s.issued.myCore.dcache = s.myCore.dcache := by
  unfold State.issued; dsimp only; split <;> simp
@[simp] theorem State.issued_myCore_bad (s : State) : s.issued.myCore.bad = s.myCore.bad := by
  unfold State.issued; dsimp only; split <;> simp
@[simp] theorem State.issued_myCore_keyFaults (s : State) : s.issued.myCore.keyFaults = s.myCore.keyFaults := by
  unfold State.issued; dsimp only; split <;> simp

@[simp] theorem State.issued_myGrant (s : State) : s.issued.myGrant = s.myGrant := by
  have h := s.issued_myCore_grants
  simp only [State.myCore, State.issued_cur] at h
  simp [State.myGrant, State.grant, h]

@[simp] theorem State.issued_myPart (s : State) : s.issued.myPart = s.myPart := by simp [State.myPart]

end Sys2Proof.Machine
end

