-- ==== Sys2Proof/Laws/Scalar.lean ====
section
/-! SUPPORT. Sys2Proof/Laws/Scalar.lean: what the issue of a word leaves once its bookkeeping is put back (`State.unissue`), and words
that write one scalar register. -/

set_option Elab.async false

set_option linter.unusedSimpArgs false

namespace Sys2Proof.Machine

/-! ### Changes that agree where they act -/

theorem State.modCore_congr {s : State} {c : CoreId} {f g : Core → Core} (h : f (s.core c) = g (s.core c)) : s.modCore c f = s.modCore c g := by
  simp [State.modCore, h]

theorem Core.modCtx_congr {k : Core} {x : CtxId} {f g : Ctx → Ctx} (h : f (k.ctx x) = g (k.ctx x)) : k.modCtx x f = k.modCtx x g := by
  simp [Core.modCtx, h]

theorem State.modCtx_congr {s : State} {c : CoreId} {x : CtxId} {f g : Ctx → Ctx} (h : f (s.ctx c x) = g (s.ctx c x)) :
    s.modCtx c x f = s.modCtx c x g := State.modCore_congr (Core.modCtx_congr h)

theorem State.modMe_congr {s : State} {f g : Ctx → Ctx} (h : f s.me = g s.me) : s.modMe f = s.modMe g := State.modCtx_congr h

theorem State.modMe_id {s : State} {f : Ctx → Ctx} (h : f s.me = s.me) : s.modMe f = s := by
  rw [State.modMe_congr (g := fun k => k) h]
  exact State.modCtx_id ..

@[simp] theorem State.modMe_modMe (s : State) (f g : Ctx → Ctx) : (s.modMe f).modMe g = s.modMe fun k => g (f k) := State.modCtx_modCtx ..

/-! ### The issue of a word -/

theorem Ctx.count_eq (k : Ctx) (e n : Nat) : k.count e n = { k with cnt := (k.count e n).cnt } := by
  unfold Ctx.count
  split <;> rfl

theorem Ctx.issue_eq (k : Ctx) (t : Tag) (n : Nat) :
    ∃ a b d, k.issue t n = { k with stream := a, cursors := b, owedFur := d } := by
  unfold Ctx.issue Ctx.prune Ctx.modCursor
  exact ⟨_, _, _, rfl⟩

/-- The issue of a word touches the stream, the cursors, the counters and the owed FUR word of its context alone. -/
theorem State.issued_me_eq (s : State) : ∃ a b c d, s.issued.me = { s.me with stream := a, cursors := b, cnt := c, owedFur := d } := by
  obtain ⟨a, b, d, h⟩ := s.me.issue_eq s.cur.tag s.cycle
  rw [State.issued_me, h]
  split
  · rw [Ctx.count_eq]; exact ⟨_, _, _, _, rfl⟩
  · split
    · rw [Ctx.count_eq]; exact ⟨_, _, _, _, rfl⟩
    · exact ⟨_, _, _, _, rfl⟩

/-- The issue of a word touches its context and the issue slot of its core alone. -/
theorem State.issued_eq (s : State) : ∃ a b, s.issued =
    s.modCore s.cur.core fun q => { q.modCtx s.cur.ctx fun _ => s.issued.me with rr := a, ctlBusy := b } := by
  have h := s.issued_me
  by_cases hc : s.cur.tag = .ctl
  · refine ⟨s.cur.ctx.val, s.cycle + 1, ?_⟩
    rw [h]
    unfold State.issued
    simp only [hc, if_true, State.modMe, State.modMyCore, State.modCtx, State.modCore_cur, State.modCore_modCore]
    rfl
  · refine ⟨(s.core s.cur.core).rr, (s.core s.cur.core).ctlBusy, ?_⟩
    rw [h]
    unfold State.issued
    simp only [hc, if_false, State.modMe, State.modCtx]
    rfl

/-- A change of the running context after its word has issued, with the bookkeeping of the issue put back. -/
theorem State.unissue_modMe (s : State) (f g : Ctx → Ctx)
    (h : (f s.issued.me).unissue s.me = g s.me) :
    (s.issued.modMe f).unissue s = s.modMe g := by
  obtain ⟨a, b, hi⟩ := s.issued_eq
  have e : s.issued.cur = s.cur := s.issued_cur
  unfold State.unissue State.modMe State.modMyCore State.modCtx
  simp only [State.modCore_cur, e, State.modCore_modCore]
  rw [hi, State.modCore_modCore]
  apply State.modCore_congr
  simp only [Core.modCtx, Core.ctx, Fin.getElem_fin, Vector.getElem_set_self, Vector.set_set]
  rw [h]
  rfl

/-- The issue alone, put back. -/
@[simp] theorem State.unissue_issued (s : State) : s.issued.unissue s = s := by
  have h := s.unissue_modMe (fun k => k) (fun k => k) (by
    obtain ⟨a, b, c, d', h⟩ := s.issued_me_eq
    rw [h]
    rfl)
  simpa [State.modMe] using h

/-- A word that issues and writes a register writes nothing else. -/
theorem regWrite_issued (s : State) (d : SReg) (v : Word) : RegWrite s (s.issued.wrS d v) d v := by
  refine ⟨?_, fun r h => ?_, fun r => ?_, fun a => ?_, ?_⟩
  · by_cases h : d.val = 0
    · have : d = 0 := Fin.ext h
      subst this
      simp [State.rdS_wrS, State.rdS]
    · simp [State.rdS_wrS, h]
  · simp [State.rdS_wrS, h]
  · simp
  · simp [State.byte, State.hostByte]
  · have h := s.unissue_modMe (fun k => k.wrS d v) (fun k => k.wrS d v) (by
      obtain ⟨a, b, c, d', h⟩ := s.issued_me_eq
      rw [h]
      unfold Ctx.wrS
      split <;> rfl)
    rw [State.wrS, h, State.modMe_modMe]
    apply State.modMe_id
    unfold Ctx.wrS
    split <;> rfl

end Sys2Proof.Machine
end

