-- ==== Sys2Proof/Laws/Lookup.lean ====
section
/-! SUPPORT. Sys2Proof/Laws/Lookup.lean: what a handle lookup, a translation and the target of a control-core access may change: handle
caches, TLBs and counters, and what the memory controller reports of the tables' lines (R14, R225, R228, R230, R354). -/

set_option Elab.async false

namespace Sys2Proof.Machine

/-- `t` is `s` but for handle caches, counters, TLBs and reports of the memory controller. -/
structure Look (s t : State) : Prop where
  mem : t.mem = s.mem
  hostMem : t.hostMem = s.hostMem
  cur : t.cur = s.cur
  hist : t.hist = s.hist
  keys : t.keys = s.keys
  bad : t.bad = s.bad
  cycle : t.cycle = s.cycle
  ctx : ∀ c x, ∃ a b p, t.ctx c x = { s.ctx c x with handles := a, cnt := b, pending := p }

theorem Look.refl (s : State) : Look s s := ⟨rfl, rfl, rfl, rfl, rfl, rfl, rfl, fun _ _ => ⟨_, _, _, rfl⟩⟩

theorem Look.trans {s t u : State} (h : Look s t) (k : Look t u) : Look s u :=
  ⟨k.mem.trans h.mem, k.hostMem.trans h.hostMem, k.cur.trans h.cur, k.hist.trans h.hist, k.keys.trans h.keys, k.bad.trans h.bad,
   k.cycle.trans h.cycle, fun c x => by
    obtain ⟨a, b, p, e⟩ := h.ctx c x
    obtain ⟨a', b', p', e'⟩ := k.ctx c x
    exact ⟨a', b', p', by rw [e', e]⟩⟩

theorem Look.modCtx (s : State) (c : CoreId) (x : CtxId) (f : Ctx → Ctx) (hf : ∀ k, ∃ a b p, f k = { k with handles := a, cnt := b, pending := p }) :
    Look s (s.modCtx c x f) :=
  ⟨rfl, rfl, rfl, rfl, rfl, rfl, rfl, fun c' x' => by
    by_cases h : c' = c ∧ x' = x
    · obtain ⟨rfl, rfl⟩ := h
      rw [State.ctx_modCtx_self]
      exact hf _
    · rw [State.ctx_modCtx_ne _ _ _ _ _ _ h]
      exact ⟨_, _, _, rfl⟩⟩

theorem Look.modCore (s : State) (c : CoreId) (f : Core → Core) (hf : ∀ k : Core, (f k).ctxs = k.ctxs) : Look s (s.modCore c f) :=
  ⟨rfl, rfl, rfl, rfl, rfl, rfl, rfl, fun c' x' => by
    by_cases h : c' = c
    · subst h
      exact ⟨_, _, _, by simp [State.ctx, Core.ctx, hf]; rfl⟩
    · exact ⟨_, _, _, by simp [State.ctx, State.core_modCore_ne _ _ _ _ h]; rfl⟩⟩

theorem Look.count (s : State) (c : CoreId) (x : CtxId) (e n : Nat) : Look s (s.count c x e n) := by
  unfold State.count
  split
  · exact Look.refl s
  · refine Look.modCtx s c x _ (fun k => ?_)
    rw [Ctx.count_eq]
    exact ⟨_, _, _, rfl⟩

/-- Free values used up are no part of a context or of memory. -/
theorem Look.skipFresh (s : State) (n : Nat) : Look s (s.skipFresh n) := ⟨rfl, rfl, rfl, rfl, rfl, rfl, rfl, fun _ _ => ⟨_, _, _, rfl⟩⟩

/-- A key mismatch found later stands outside the contexts until it is taken (R230). -/
theorem Look.keyFaultAt (s : State) (c : CoreId) (x : CtxId) (haddr va gpa pa akey path : Nat) (wr : Bool) :
    Look s (s.keyFaultAt c x haddr va gpa pa akey path wr) := by
  unfold State.keyFaultAt
  exact Look.modCore s c (fun k => { k with keyFaults := k.keyFaults ++ [_] }) (fun _ => rfl)

/-- What the memory controller reports of a walk's reads: key mismatches and soft errors (R14, R230). -/
theorem Look.noteTouches (s : State) (c : CoreId) (x : CtxId) (haddr va path : Nat) (l : List Touch) : Look s (s.noteTouches c x haddr va path l) := by
  unfold State.noteTouches
  induction l generalizing s with
  | nil => exact Look.refl s
  | cons q l ih =>
    refine Look.trans ?_ (ih _)
    dsimp only
    split
    · exact (Look.keyFaultAt s c x haddr va q.gpa q.pa q.key path false).trans (Look.skipFresh _ 1)
    · split
      · exact (show Look s (s.softErr c x q.pa path) from Look.modCtx s c x _ (fun _ => ⟨_, _, _, rfl⟩)).trans (Look.skipFresh _ 1)
      · exact Look.refl s

/-- A new TLB entry stands outside the contexts. -/
theorem Look.tlbAdd (s : State) (c : CoreId) (t : TlbSel) (e : TlbEntry) : Look s (s.tlbAdd c t e) := by
  unfold State.tlbAdd
  split
  · exact Look.modCore s c _ (fun _ => rfl)
  · split
    · exact ⟨rfl, rfl, rfl, rfl, rfl, rfl, rfl, fun _ _ => ⟨_, _, _, rfl⟩⟩
    · exact Look.modCore s c _ (fun _ => rfl)

/-- A translation changes counters and a TLB (R228), and the controller may report lines of the tables. -/
theorem Look.translate (s : State) (c : CoreId) (x : CtxId) (t : TlbSel) (haddr va : Nat) (d : Dir) : Look s (s.translate c x t haddr va d).2 := by
  unfold State.translate
  dsimp only
  split
  · split <;> exact Look.refl s
  · split
    · exact Look.refl s
    · have e := ((Look.count s c x 0x38 1).trans (Look.count _ c x 0x39 1)).trans
        (Look.noteTouches _ c x haddr va (tlbPath t d) (s.walk2 c x va d).2)
      split
      · exact e
      · split
        · exact e
        · exact e.trans (Look.tlbAdd _ c t _)

/-- A handle lookup changes the handle cache (R225), and the controller may report lines of the tables. -/
theorem Look.handle (s : State) (c : CoreId) (x : CtxId) (h path : Nat) (wr : Bool) : Look s (s.handle c x h path wr).2 := by
  unfold State.handle
  dsimp only
  split
  · exact Look.refl s
  · split
    · exact Look.refl s
    · have e := Look.noteTouches s c x (h * 2 ^ 48) (2 ^ 64 - 1) path
        ((s.guestDw c x (2 ^ 64 - 1) wr 0 ((s.ctx c x).htbase + 16 * h)).2 ++ (s.guestDw c x (2 ^ 64 - 1) wr 0 ((s.ctx c x).htbase + 16 * h + 8)).2)
      split
      · exact e
      · exact e
      · exact e.trans (Look.modCtx _ _ _ _ (fun _ => ⟨_, _, _, rfl⟩))

/-- The pages of an access are translated. -/
theorem Look.dramTarget (s : State) (haddr va size : Nat) (d : Dir) : Look s (s.dramTarget haddr va size d).2 := by
  unfold State.dramTarget
  dsimp only
  have h := Look.translate s s.cur.core s.cur.ctx none haddr va d
  split
  · rename_i e; rw [e] at h; exact h
  · rename_i pa key s1 e
    rw [e] at h
    have k := Look.translate s1 s.cur.core s.cur.ctx none (haddr + (4096 - va % 4096)) (va + (4096 - va % 4096)) d
    split
    · exact h
    · split
      · rename_i e; rw [e] at k; exact h.trans k
      · rename_i e; rw [e] at k; exact h.trans k

/-- Finding the target of an access changes caches and counters, and the controller may report lines of the tables (R86). -/
theorem Look.target (s : State) (a : Word) (imm : BitVec 30) (n : Nat) (wr : Bool) : Look s (s.target a imm n wr).2 := by
  unfold State.target
  dsimp only
  split
  · exact Look.refl s
  split
  · exact Look.refl s
  split
  · exact Look.refl s
  split
  · exact Look.refl s
  have h := Look.handle s s.cur.core s.cur.ctx (haddrH a.toNat) 0 wr
  split
  all_goals (rename_i e; rw [e] at h)
  · exact h
  · exact h
  · split
    · exact h
    split
    · exact Look.trans h (Look.dramTarget ..)
    split
    · split <;> exact h
    · exact h

theorem Look.me {s t : State} (h : Look s t) : ∃ a b p, t.me = { s.me with handles := a, cnt := b, pending := p } := by
  rw [State.me, h.cur]
  exact h.ctx _ _

theorem Look.rdS {s t : State} (h : Look s t) (r : SReg) : t.rdS r = s.rdS r := by
  obtain ⟨a, b, p, e⟩ := h.me
  rw [State.rdS, e]
  rfl

theorem Look.rdH {s t : State} (h : Look s t) (r : HReg) : t.rdH r = s.rdH r := by
  obtain ⟨a, b, p, e⟩ := h.me
  rw [State.rdH, e]
  rfl

theorem Look.byte {s t : State} (h : Look s t) (a : Nat) : t.byte a = s.byte a := by rw [State.byte, h.mem]; rfl

theorem Look.hostByte {s t : State} (h : Look s t) (a : Nat) : t.hostByte a = s.hostByte a := by rw [State.hostByte, h.hostMem]; rfl

end Sys2Proof.Machine
end

