-- ==== Sys2Proof/Laws/MemPath.lean ====
section
/-! SUPPORT. Sys2Proof/Laws/MemPath.lean: what an access does where no stage of translation is enabled and nothing is left of the write
history: it reads the bytes that stand in memory and changes nothing (R227, R230). And the fields of an image read so. -/

set_option Elab.async false

namespace Sys2Proof.Machine

/-- No line has a key or an uncorrected error, and every write is visible to all. -/
structure State.Quiet (s : State) (c : CoreId) (x : CtxId) : Prop where
  hist : s.hist = []
  keys : s.keys = []
  bad : s.bad = []
  s1 : (s.ctx c x).s1root = 0
  s2 : (s.ctx c x).s2root = 0

theorem translate_quiet {s : State} {c : CoreId} {x : CtxId} (h : s.Quiet c x) (t : TlbSel) (haddr : Nat) {va : Nat} (hv : va < 2 ^ 38) (d : Dir) :
    s.translate c x t haddr va d = (.ok (va, 0), s) := by
  have h1 := h.s1
  have h2 := h.s2
  have e1 : ¬ (2 ^ 48 ≤ va) := by omega
  have e2 : ¬ (2 ^ 38 ≤ va) := by omega
  have m1 : va % 281474976710656 = va := by omega
  have m2 : va % 274877906944 = va := by omega
  have q : va / 274877906944 = 0 := by omega
  have f : ¬ (274877906944 ≤ va) := by omega
  have g : ¬ (281474976710656 ≤ va) := by omega
  unfold State.translate State.walk2 State.walkOf State.stage1 State.stage2
  cases d <;> simp [h1, h2, Leaf.at_, Dir.ok, m1, m2, f, g, q]

theorem lineKey_quiet {s : State} {c : CoreId} {x : CtxId} (h : s.Quiet c x) (pa : Nat) : s.lineKey pa = 0 := by simp [State.lineKey, h.keys]
theorem lineBad_quiet {s : State} {c : CoreId} {x : CtxId} (h : s.Quiet c x) (pa : Nat) : s.lineBad pa = false := by simp [State.lineBad, h.bad]

theorem readPhys_quiet {s : State} {c : CoreId} {x : CtxId} (h : s.Quiet c x) (u : UnitId) (cls : Nat) (q : Acq) (atomic : Bool)
    (haddr va pa n : Nat) : s.readPhys u cls q atomic haddr va pa 0 n = ((List.range n).map fun i => s.byte (pa + i), s) := by
  unfold State.readPhys State.readMem
  simp only [lineKey_quiet h, lineBad_quiet h, h.hist]
  by_cases h0 : n = 0
  · simp [h0]
  · simp [h0, State.byte, linesAll]

/-- A range is worked through in pieces, from its start to its end, whatever each piece does. -/
theorem pieces_fold {α : Type} (f : α → Nat × Nat → α) (g : Nat → α) (va n : Nat)
    (hf : ∀ off m, 0 < m → off + m ≤ n → f (g off) (off, m) = g (off + m)) :
    ∀ fuel off k, off + k = n → (k ≤ 4096 * (fuel - 1) ∨ ((va + off) % 4096 = 0 ∧ k ≤ 4096 * fuel)) →
      (pieces fuel va off k).foldl f (g off) = g (off + k) := by
  intro fuel
  induction fuel with
  | zero => intro off k hk hl; have : k = 0 := by omega
            simp [pieces, this]
  | succ fuel ih =>
    intro off k hk hl
    by_cases h0 : k = 0
    · simp [pieces, h0]
    · have hm : Nat.min k (4096 - (va + off) % 4096) ≤ k := Nat.min_le_left _ _
      have hr : (va + off) % 4096 < 4096 := Nat.mod_lt _ (by omega)
      simp only [pieces, if_neg h0, List.foldl_cons]
      have hp : 0 < Nat.min k (4096 - (va + off) % 4096) := Nat.lt_min.mpr ⟨by omega, by omega⟩
      rw [hf _ _ hp (by omega), ih _ _ (by omega)]
      · congr 1; omega
      · generalize hq : Nat.min k (4096 - (va + off) % 4096) = m at *
        rcases Nat.le_total k (4096 - (va + off) % 4096) with c1 | c1
        · have : m = k := by rw [← hq]; exact Nat.min_eq_left c1
          left; omega
        · have : m = 4096 - (va + off) % 4096 := by rw [← hq]; exact Nat.min_eq_right c1
          right; omega

/-- A read of guest-virtual memory answers the bytes that stand there. -/
theorem readVa_quiet {s : State} {u : UnitId} (h : s.Quiet u.core u.ctx) (t : TlbSel) (cls : Nat) (q : Acq) (atomic : Bool) (haddr va n : Nat)
    (hv : va + n ≤ 2 ^ 38) :
    s.readVa u t cls q atomic haddr va n = (.ok ((List.range n).map fun i => s.byte (va + i)), s) := by
  have e := pieces_fold (α := Except XFault (List Byte) × State) (fun acc p =>
    match acc.1 with
    | .error _ => acc
    | .ok bs =>
      match acc.2.translate u.core u.ctx t (haddr + p.1) (va + p.1) .rd with
      | (.error f, s1) => (.error f, s1)
      | (.ok (pa, key), s1) =>
        let r := s1.readPhys u cls q atomic (haddr + p.1) (va + p.1) pa key p.2
        (.ok (bs ++ r.1), r.2)) (fun o => (Except.ok ((List.range o).map fun i => s.byte (va + i)), s)) va n ?_ (n / 4096 + 2) 0 n (by omega) (by omega)
  · rw [Nat.zero_add] at e; exact e
  · intro off m h0 hm
    have hv : va + off < 2 ^ 38 := by omega
    simp only [translate_quiet h t _ hv, readPhys_quiet h]
    simp [List.range_add, Nat.add_assoc, Function.comp_def]

/-- A field of an image that stands in memory. -/
theorem imgN_range (f : Nat → Byte) (n off k : Nat) :
    imgN ((List.range n).map f) off k = leNat ((List.range (Nat.min k (n - off))).map fun i => f (off + i)) := by
  unfold imgN
  congr 1
  apply List.ext_getElem
  · simp [Nat.min_def]
  · intro i h1 h2
    simp
end Sys2Proof.Machine
end

