-- ==== Sys2Proof/Laws/Memory.lean ====
section
/-! SUPPORT. Sys2Proof/Laws/Memory.lean: what an access to DRAM does: a read of bytes that every party may see answers them and changes
nothing; a write of alias class 0 puts its bytes on top of the coherence order and changes no other byte (R230, R291, R292, R298). -/

set_option Elab.async false

namespace Sys2Proof.Machine

/-- Some byte of a range stands in each 64-byte line that the range touches. -/
theorem line_touched {pa n i : Nat} (h0 : n ≠ 0) (h : pa / 64 + i ≤ (pa + n - 1) / 64) : ∃ j, j < n ∧ (pa / 64 + i) * 64 / 64 = (pa + j) / 64 := by
  by_cases h3 : i = 0
  · exact ⟨0, by omega, by omega⟩
  · exact ⟨(pa / 64 + i) * 64 - pa, by omega, by omega⟩

/-- Lines that answer for each of their bytes answer for a range. -/
theorem linesAll_of {ok : Nat → Bool} {pa n : Nat} (h0 : n ≠ 0) (h : ∀ j, j < n → ok ((pa + j) / 64 * 64) = true) : linesAll ok pa n = true := by
  unfold linesAll
  rw [List.all_eq_true]
  intro i _
  by_cases hx : pa / 64 + i ≤ (pa + n - 1) / 64
  · obtain ⟨j, hj, e⟩ := line_touched h0 hx
    have e2 : (pa / 64 + i) * 64 = (pa + j) / 64 * 64 := by omega
    simp [e2, h j hj]
  · simp [hx]

theorem lineKey_line (s : State) (a : Nat) : s.lineKey (a / 64 * 64) = s.lineKey a := by simp [State.lineKey]
theorem lineBad_line (s : State) (a : Nat) : s.lineBad (a / 64 * 64) = s.lineBad a := by simp [State.lineBad]

/-- A read of plain bytes answers the bytes and changes nothing. -/
theorem readPhys_plain {s : State} {u : UnitId} {cls : Nat} {q : Acq} {atomic : Bool} {ha va pa key n : Nat} (h : s.plainBytes pa key n) :
    s.readPhys u cls q atomic ha va pa key n = ((List.range n).map fun i => s.byte (pa + i), s) := by
  obtain ⟨h0, h1, h2⟩ := h
  unfold State.readPhys
  dsimp only
  rw [if_neg h0, if_pos]
  · unfold State.readMem
    rw [if_neg]
    · rfl
    · simp only [List.any_eq_true, Bool.and_eq_true, decide_eq_true_eq, not_exists, not_and]
      intro e he hx
      have := h2 e he
      simp_all
  · rw [Bool.and_eq_true]
    exact ⟨linesAll_of h0 fun j hj => by simp [lineKey_line, (h1 j hj).1], linesAll_of h0 fun j hj => by simp [lineBad_line, (h1 j hj).2]⟩

/-- Plain bytes stay plain when the running word issues. -/
theorem plainBytes_issued {s : State} {pa key n : Nat} (h : s.plainBytes pa key n) : s.issued.plainBytes pa key n := by
  simpa [State.plainBytes, State.lineKey, State.lineBad] using h

/-- A write of class 0 passes behind no other write (R298). -/
theorem insertBehind_zero (pass : Nat → Bool) (e : HistEntry) (v : Byte) (h : e.cls = 0) :
    ∀ (l : List HistEntry) (n : Nat), insertBehind pass e v n l = none := by
  intro l
  induction l with
  | nil => exact fun _ => rfl
  | cons o r ih =>
    intro n
    unfold insertBehind
    split
    · rw [if_neg]
      simp [clsApart, h]
    · rw [ih]
      rfl

theorem writeByte_zero (s : State) (u : UnitId) (tag pick a : Nat) (v : Byte) :
    (s.writeByte false u 0 tag pick a v).mem = sset s.mem a v ∧ (s.writeByte false u 0 tag pick a v).hostMem = s.hostMem ∧
      (s.writeByte false u 0 tag pick a v).cores = s.cores := by
  unfold State.writeByte
  dsimp only
  rw [insertBehind_zero _ _ _ rfl, ite_self]
  exact ⟨rfl, rfl, rfl⟩

/-- A write of class 0: its bytes stand at its address, and every other byte is as before. -/
theorem writeMem_zero (s : State) (u : UnitId) (a : Nat) (bs : List Byte) :
    (∀ b, (s.writeMem false u 0 a bs).byte b = if a ≤ b ∧ b < a + bs.length then bs.getD (b - a) 0 else s.byte b) ∧
      (s.writeMem false u 0 a bs).hostMem = s.hostMem ∧ (s.writeMem false u 0 a bs).cores = s.cores := by
  unfold State.writeMem
  dsimp only
  simp only [Bool.false_eq_true, if_false]
  have key : ∀ (bs : List Byte) (t : State) (k : Nat) (f : Nat → Nat),
      let r := (bs.zipIdx k).foldl (fun (t : State) (p : Byte × Nat) => t.writeByte false u 0 s.fresh (f p.2) (a + p.2) p.1) t
      (∀ b, r.byte b = if a + k ≤ b ∧ b < a + k + bs.length then bs.getD (b - a - k) 0 else t.byte b) ∧ r.hostMem = t.hostMem ∧ r.cores = t.cores := by
    intro bs
    induction bs with
    | nil =>
      intro t k f
      refine ⟨fun b => ?_, rfl, rfl⟩
      rw [if_neg (by simp only [List.length_nil]; omega)]
      rfl
    | cons v r ih =>
      intro t k f
      simp only [List.zipIdx_cons, List.foldl_cons]
      have w := writeByte_zero t u s.fresh (f k) (a + k) v
      obtain ⟨i1, i2, i3⟩ := ih (t.writeByte false u 0 s.fresh (f k) (a + k) v) (k + 1) f
      refine ⟨fun b => ?_, i2.trans w.2.1, i3.trans w.2.2⟩
      rw [i1 b]
      simp only [State.byte, w.1, sget_sset, List.length_cons]
      by_cases h : b = a + k
      · subst h
        rw [if_neg (by omega), if_pos rfl, if_pos (by omega)]
        simp
      · by_cases h2 : a + (k + 1) ≤ b ∧ b < a + (k + 1) + r.length
        · rw [if_pos h2, if_pos (by omega)]
          have : b - a - k = (b - a - (k + 1)) + 1 := by omega
          rw [this]
          simp
        · rw [if_neg h2, if_neg h, if_neg (by omega)]
  have := key bs { s with fresh := s.fresh + 129 + bs.length } 0 (fun n => s.fresh + 129 + n)
  simp only [Nat.add_zero, Nat.sub_zero] at this
  exact this

/-- A report of a key mismatch changes no context and no byte. -/
theorem keyFault_ctx (s : State) (c : CoreId) (x : CtxId) (ha va pa akey path : Nat) (wr : Bool) :
    (∀ c' x', (s.keyFault c x ha va pa akey path wr).ctx c' x' = s.ctx c' x') ∧ (s.keyFault c x ha va pa akey path wr).mem = s.mem ∧
      (s.keyFault c x ha va pa akey path wr).hostMem = s.hostMem := by
  refine ⟨fun c' x' => ?_, rfl, rfl⟩
  unfold State.keyFault State.keyFaultAt
  dsimp only
  by_cases h : c' = c
  · subst h
    simp [State.ctx, Core.ctx]
  · simp [State.ctx, State.core_modCore_ne _ _ _ _ h]

/-- The parts of a range lie in it. -/
theorem lineParts_in (fuel pa : Nat) : ∀ off n, ∀ p ∈ lineParts fuel pa off n, off ≤ p.1 ∧ p.1 + p.2 ≤ off + n := by
  induction fuel with
  | zero => intro off n p h; cases h
  | succ fuel ih =>
    intro off n p h
    unfold lineParts at h
    split at h
    · cases h
    · dsimp only at h
      have hm : Nat.min n (64 - (pa + off) % 64) ≤ n := Nat.min_le_left _ _
      rcases List.mem_cons.mp h with rfl | h
      · exact ⟨Nat.le_refl _, by dsimp only; omega⟩
      · have := ih _ _ p h
        omega

/-- A write of class 0 under a key whose lines all have that key is written (R230). -/
theorem writePhys_keyed {s : State} {u : UnitId} {ha va pa key : Nat} {bs : List Byte} (h0 : bs ≠ [])
    (h : ∀ i, i < bs.length → s.lineKey (pa + i) = key) : s.writePhys u 0 ha va pa key bs = s.writeMem false u 0 pa bs := by
  unfold State.writePhys
  have e : bs.isEmpty = false := by cases bs <;> simp_all
  have hl : bs.length ≠ 0 := by cases bs <;> simp_all
  simp only [e, Bool.false_eq_true, if_false]
  rw [if_pos (linesAll_of hl fun j hj => by simp [lineKey_line, h j hj])]

/-- `t` is `s` but for bytes of DRAM in a range and what stands outside contexts. -/
structure WroteIn (pa n : Nat) (s t : State) : Prop where
  byte : ∀ b, ¬(pa ≤ b ∧ b < pa + n) → t.byte b = s.byte b
  hostMem : t.hostMem = s.hostMem
  ctx : ∀ c x, t.ctx c x = s.ctx c x

theorem WroteIn.trans {pa n : Nat} {s t u : State} (h : WroteIn pa n s t) (k : WroteIn pa n t u) : WroteIn pa n s u :=
  ⟨fun b hb => (k.byte b hb).trans (h.byte b hb), k.hostMem.trans h.hostMem, fun c x => (k.ctx c x).trans (h.ctx c x)⟩

/-- A write of class 0 writes in its range. -/
theorem writeMem_in (s : State) (u : UnitId) (a pa n : Nat) (bs : List Byte) (h1 : pa ≤ a) (h2 : a + bs.length ≤ pa + n) :
    WroteIn pa n s (s.writeMem false u 0 a bs) := by
  obtain ⟨e1, e2, e3⟩ := writeMem_zero s u a bs
  exact ⟨fun b hb => by rw [e1 b, if_neg (by omega)], e2, fun c x => by simp only [State.ctx, State.core, e3]⟩

/-- A write of class 0 under a key changes no byte outside its range, and no context (R230). -/
theorem writePhys_in (s : State) (u : UnitId) (ha va pa key : Nat) (bs : List Byte) :
    WroteIn pa bs.length s (s.writePhys u 0 ha va pa key bs) := by
  have refl : ∀ t : State, WroteIn pa bs.length t t := fun t => ⟨fun _ _ => rfl, rfl, fun _ _ => rfl⟩
  unfold State.writePhys
  dsimp only
  split
  · exact refl s
  · split
    · exact writeMem_in s u pa pa _ bs (Nat.le_refl _) (Nat.le_refl _)
    · have fr : ∀ (l : List (Nat × Nat)) (t : State), (∀ p ∈ l, p.1 + p.2 ≤ bs.length) → WroteIn pa bs.length s t →
          WroteIn pa bs.length s (l.foldl (fun (t : State) p =>
            if decide (s.lineKey (pa + p.1) = key) = true then t.writeMem false u 0 (pa + p.1) ((bs.drop p.1).take p.2) else t) t) := by
        intro l
        induction l with
        | nil => exact fun _ _ h => h
        | cons p l ih =>
          intro t hl ht
          refine ih _ (fun q hq => hl q (List.mem_cons_of_mem _ hq)) ?_
          dsimp only
          split
          · have hp := hl p (List.mem_cons_self ..)
            exact ht.trans (writeMem_in t u _ pa _ _ (by omega) (by simp only [List.length_take, List.length_drop]; omega))
          · exact ht
      refine fr _ _ (fun p hp => ?_) ?_
      · have := lineParts_in _ _ _ _ p hp
        omega
      · obtain ⟨e1, e2, e3⟩ := keyFault_ctx s u.core u.ctx (ha + (firstBadByte (fun a => !decide (s.lineKey a = key)) pa bs.length - pa))
          (va + (firstBadByte (fun a => !decide (s.lineKey a = key)) pa bs.length - pa))
          (firstBadByte (fun a => !decide (s.lineKey a = key)) pa bs.length) key u.path true
        exact ⟨fun b _ => by simp only [State.byte, e2], e3, e1⟩

/-- A store that watches see changes their started watches alone. -/
theorem touchWatches_ctx (s : State) (tag addr key : Nat) (bs : List Byte) (rel : Bool) (c : CoreId) (x : CtxId) :
    ∃ p, (s.touchWatches tag addr key bs rel).ctx c x = { s.ctx c x with pendWatch := p } := by
  unfold State.touchWatches State.ctx State.core Core.ctx
  simp only [Fin.getElem_fin, Vector.getElem_map]
  split
  · simp only [Vector.getElem_map]
    exact ⟨_, rfl⟩
  · exact ⟨_, rfl⟩

end Sys2Proof.Machine
end

