-- ==== Sys2Proof/Laws/PerInstr.lean ====
section
/-! SUPPORT. Sys2Proof/Laws/PerInstr.lean: decoding gives back what was encoded, instruction by instruction (R58 to R74). -/

set_option Elab.async false

set_option linter.unusedSimpArgs false

namespace Sys2Proof.Laws.RoundTrip
open Sys2Proof.Machine

/-- Every word that encodes a well-formed term decodes to that term; an ALL word has IDLE 0 (R51). A machine event has no word. -/
def Statement (i : Instr) : Prop :=
  ∀ (idle : Fin 1024) (w : Word), i.wf = true → (i.owner = some .all → idle = 0) → encode idle i = some w → decodeWord w = .ok i

theorem event {i : Instr} (h : encodeParts i = none) : Statement i := by
  intro idle w _ _ he
  simp [encode, h] at he

theorem cursorFetch (c : CoreId) (x : CtxId) (t : Tag) : Statement (.cursorFetch c x t) := event rfl
theorem loop (nc : Fin 4) (ts : SReg) (stages : Fin 8) (p : Bool) : Statement (.loop nc ts stages p) := by
  intro idle w hw ha he
  rw [encode_word _ _ _ _ _ _ rfl he]
  cases ha rfl
  refine decode_all _ _ _ _ (by decide) (by decide) rfl hw ?_
  have q := unpack_pack ([(2, nc.val), (5, ts.val), (3, stages.val), (1, b2n p), (31, 0)])
  simp only [List.map] at q
  simp [-Fin.ofNat_eq_cast, decAll, decNone, decPhase, q, resv, pack_zero]

theorem loope (nc : Fin 4) : Statement (.loope nc) := by
  intro idle w hw ha he
  rw [encode_word _ _ _ _ _ _ rfl he]
  cases ha rfl
  refine decode_all _ _ _ _ (by decide) (by decide) rfl hw ?_
  have q := unpack_pack ([(2, nc.val), (40, 0)])
  simp only [List.map] at q
  simp [-Fin.ofNat_eq_cast, decAll, decNone, decPhase, q, resv, pack_zero]

theorem rdv : Statement (.rdv) := by
  intro idle w hw ha he
  rw [encode_word _ _ _ _ _ _ rfl he]
  cases ha rfl
  refine decode_all _ _ _ _ (by decide) (by decide) rfl hw ?_
  have q := unpack_pack ([(42, 0)])
  simp only [List.map] at q
  simp [-Fin.ofNat_eq_cast, decAll, decNone, decPhase, q, resv, pack_zero]

theorem stg (s : Fin 8) : Statement (.stg s) := by
  intro idle w hw ha he
  rw [encode_word _ _ _ _ _ _ rfl he]
  cases ha rfl
  refine decode_all _ _ _ _ (by decide) (by decide) rfl hw ?_
  have q := unpack_pack ([(3, s.val), (39, 0)])
  simp only [List.map] at q
  simp [-Fin.ofNat_eq_cast, decAll, decNone, decPhase, q, resv, pack_zero]

theorem nop : Statement (.nop) := by
  intro idle w hw ha he
  rw [encode_word _ _ _ _ _ _ rfl he]
  refine decode_ctl _ _ _ _ idle.isLt (by decide) rfl hw ?_
  have e : ∀ o, decCtl 0x01 o = (decNone .nop o) := fun _ => rfl
  rw [e]
  have q := unpack_pack ([(42, 0)])
  simp only [List.map] at q
  simp [-Fin.ofNat_eq_cast, decNone, decPhase, q, resv, pack_zero]

theorem join : Statement (.join) := by
  intro idle w hw ha he
  rw [encode_word _ _ _ _ _ _ rfl he]
  refine decode_ctl _ _ _ _ idle.isLt (by decide) rfl hw ?_
  have e : ∀ o, decCtl 0x02 o = (decNone .join o) := fun _ => rfl
  rw [e]
  have q := unpack_pack ([(42, 0)])
  simp only [List.map] at q
  simp [-Fin.ofNat_eq_cast, decNone, decPhase, q, resv, pack_zero]

theorem fork (mask : BitVec 6) (off : BitVec 30) : Statement (.fork mask off) := by
  intro idle w hw ha he
  rw [encode_word _ _ _ _ _ _ rfl he]
  refine decode_ctl _ _ _ _ idle.isLt (by decide) rfl hw ?_
  have e : ∀ o, decCtl 0x03 o = (match unpack [6, 6, 30] o with
    | [m, z, f] => resv z (.fork (BitVec.ofNat 6 m) (BitVec.ofNat 30 f))
    | _ => .error 3) := fun _ => rfl
  rw [e]
  have q := unpack_pack ([(6, mask.toNat), (6, 0), (30, off.toNat)])
  simp only [List.map] at q
  simp [-Fin.ofNat_eq_cast, decNone, decPhase, q, resv, pack_zero]

theorem setf (f : FlagNo) (a : SReg) (sc : Scope) (add : Bool) : Statement (.setf f a sc add) := by
  intro idle w hw ha he
  rw [encode_word _ _ _ _ _ _ rfl he]
  refine decode_ctl _ _ _ _ idle.isLt (by decide) rfl hw ?_
  have e : ∀ o, decCtl 0x04 o = (match unpack [5, 5, 10, 6, 2, 1, 13] o with
    | [z, a, y, f, s, p, x] => resv (z + y + x) (.setf (Fin.ofNat 64 f) (Fin.ofNat 32 a) (Fin.ofNat 4 s) (p = 1))
    | _ => .error 3) := fun _ => rfl
  rw [e]
  have q := unpack_pack ([(5, 0), (5, a.val), (10, 0), (6, f.val), (2, sc.val), (1, b2n add), (13, 0)])
  simp only [List.map] at q
  simp [-Fin.ofNat_eq_cast, decNone, decPhase, q, resv, pack_zero]

theorem waitf (f : FlagNo) (a : SReg) (sc : Scope) (cond : Fin 4) (gate : BitVec 6) : Statement (.waitf f a sc cond gate) := by
  intro idle w hw ha he
  rw [encode_word _ _ _ _ _ _ rfl he]
  refine decode_ctl _ _ _ _ idle.isLt (by decide) rfl hw ?_
  have e : ∀ o, decCtl 0x05 o = (match unpack [5, 5, 10, 6, 2, 2, 6, 6] o with
    | [z, a, y, f, s, c, g, x] =>
      resv (z + y + x) (.waitf (Fin.ofNat 64 f) (Fin.ofNat 32 a) (Fin.ofNat 4 s) (Fin.ofNat 4 c) (BitVec.ofNat 6 g))
    | _ => .error 3) := fun _ => rfl
  rw [e]
  have q := unpack_pack ([(5, 0), (5, a.val), (10, 0), (6, f.val), (2, sc.val), (2, cond.val), (6, gate.toNat), (6, 0)])
  simp only [List.map] at q
  simp [-Fin.ofNat_eq_cast, decNone, decPhase, q, resv, pack_zero]

theorem phaseRel (sc : Scope) : Statement (.phaseRel sc) := by
  intro idle w hw ha he
  rw [encode_word _ _ _ _ _ _ rfl he]
  refine decode_ctl _ _ _ _ idle.isLt (by decide) rfl hw ?_
  have e : ∀ o, decCtl 0x06 o = (decPhase o) := fun _ => rfl
  rw [e]
  have q := unpack_pack ([(26, 0), (2, sc.val), (2, 1), (12, 0)])
  simp only [List.map] at q
  simp [-Fin.ofNat_eq_cast, decNone, decPhase, q, resv, pack_zero]

theorem phaseAcq (sc : Scope) : Statement (.phaseAcq sc) := by
  intro idle w hw ha he
  rw [encode_word _ _ _ _ _ _ rfl he]
  refine decode_ctl _ _ _ _ idle.isLt (by decide) rfl hw ?_
  have e : ∀ o, decCtl 0x06 o = (decPhase o) := fun _ => rfl
  rw [e]
  have q := unpack_pack ([(26, 0), (2, sc.val), (2, 2), (12, 0)])
  simp only [List.map] at q
  simp [-Fin.ofNat_eq_cast, decNone, decPhase, q, resv, pack_zero]

theorem phaseAcqrel (sc : Scope) : Statement (.phaseAcqrel sc) := by
  intro idle w hw ha he
  rw [encode_word _ _ _ _ _ _ rfl he]
  refine decode_ctl _ _ _ _ idle.isLt (by decide) rfl hw ?_
  have e : ∀ o, decCtl 0x06 o = (decPhase o) := fun _ => rfl
  rw [e]
  have q := unpack_pack ([(26, 0), (2, sc.val), (2, 3), (12, 0)])
  simp only [List.map] at q
  simp [-Fin.ofNat_eq_cast, decNone, decPhase, q, resv, pack_zero]

theorem fence (src dst : BitVec 6) : Statement (.fence src dst) := by
  intro idle w hw ha he
  rw [encode_word _ _ _ _ _ _ rfl he]
  refine decode_ctl _ _ _ _ idle.isLt (by decide) rfl hw ?_
  have e : ∀ o, decCtl 0x07 o = (match unpack [30, 6, 6] o with
    | [z, f, t] => resv z (.fence (BitVec.ofNat 6 f) (BitVec.ofNat 6 t))
    | _ => .error 3) := fun _ => rfl
  rw [e]
  have q := unpack_pack ([(30, 0), (6, src.toNat), (6, dst.toNat)])
  simp only [List.map] at q
  simp [-Fin.ofNat_eq_cast, decNone, decPhase, q, resv, pack_zero]

theorem tend : Statement (.tend) := by
  intro idle w hw ha he
  rw [encode_word _ _ _ _ _ _ rfl he]
  refine decode_ctl _ _ _ _ idle.isLt (by decide) rfl hw ?_
  have e : ∀ o, decCtl 0x08 o = (decXcmd o) := fun _ => rfl
  rw [e]
  have q := unpack_pack (encX 0x01 0 0 0 0)
  simp only [encX, List.map] at q
  simp [-Fin.ofNat_eq_cast, decXcmd, encX, q, resv, pack_zero]

theorem tspawn (d a : SReg) : Statement (.tspawn d a) := by
  intro idle w hw ha he
  rw [encode_word _ _ _ _ _ _ rfl he]
  refine decode_ctl _ _ _ _ idle.isLt (by decide) rfl hw ?_
  have e : ∀ o, decCtl 0x08 o = (decXcmd o) := fun _ => rfl
  rw [e]
  have q := unpack_pack (encX 0x02 a.val 0 d.val 1)
  simp only [encX, List.map] at q
  simp [-Fin.ofNat_eq_cast, decXcmd, encX, q, resv, pack_zero]

theorem fnew (d : SReg) : Statement (.fnew d) := by
  intro idle w hw ha he
  rw [encode_word _ _ _ _ _ _ rfl he]
  refine decode_ctl _ _ _ _ idle.isLt (by decide) rfl hw ?_
  have e : ∀ o, decCtl 0x08 o = (decXcmd o) := fun _ => rfl
  rw [e]
  have q := unpack_pack (encX 0x08 0 0 d.val 1)
  simp only [encX, List.map] at q
  simp [-Fin.ofNat_eq_cast, decXcmd, encX, q, resv, pack_zero]

theorem fatt (d a b : SReg) : Statement (.fatt d a b) := by
  intro idle w hw ha he
  rw [encode_word _ _ _ _ _ _ rfl he]
  refine decode_ctl _ _ _ _ idle.isLt (by decide) rfl hw ?_
  have e : ∀ o, decCtl 0x08 o = (decXcmd o) := fun _ => rfl
  rw [e]
  have q := unpack_pack (encX 0x09 a.val b.val d.val 1)
  simp only [encX, List.map] at q
  simp [-Fin.ofNat_eq_cast, decXcmd, encX, q, resv, pack_zero]

theorem fres (a b : SReg) : Statement (.fres a b) := by
  intro idle w hw ha he
  rw [encode_word _ _ _ _ _ _ rfl he]
  refine decode_ctl _ _ _ _ idle.isLt (by decide) rfl hw ?_
  have e : ∀ o, decCtl 0x08 o = (decXcmd o) := fun _ => rfl
  rw [e]
  have q := unpack_pack (encX 0x0A a.val b.val 0 0)
  simp only [encX, List.map] at q
  simp [-Fin.ofNat_eq_cast, decXcmd, encX, q, resv, pack_zero]

theorem fget (d a : SReg) : Statement (.fget d a) := by
  intro idle w hw ha he
  rw [encode_word _ _ _ _ _ _ rfl he]
  refine decode_ctl _ _ _ _ idle.isLt (by decide) rfl hw ?_
  have e : ∀ o, decCtl 0x08 o = (decXcmd o) := fun _ => rfl
  rw [e]
  have q := unpack_pack (encX 0x0B a.val 0 d.val 1)
  simp only [encX, List.map] at q
  simp [-Fin.ofNat_eq_cast, decXcmd, encX, q, resv, pack_zero]

theorem ffree (a : SReg) : Statement (.ffree a) := by
  intro idle w hw ha he
  rw [encode_word _ _ _ _ _ _ rfl he]
  refine decode_ctl _ _ _ _ idle.isLt (by decide) rfl hw ?_
  have e : ∀ o, decCtl 0x08 o = (decXcmd o) := fun _ => rfl
  rw [e]
  have q := unpack_pack (encX 0x0C a.val 0 0 0)
  simp only [encX, List.map] at q
  simp [-Fin.ofNat_eq_cast, decXcmd, encX, q, resv, pack_zero]

theorem csubmit (d a : SReg) : Statement (.csubmit d a) := by
  intro idle w hw ha he
  rw [encode_word _ _ _ _ _ _ rfl he]
  refine decode_ctl _ _ _ _ idle.isLt (by decide) rfl hw ?_
  have e : ∀ o, decCtl 0x08 o = (decXcmd o) := fun _ => rfl
  rw [e]
  have q := unpack_pack (encX 0x20 a.val 0 d.val 1)
  simp only [encX, List.map] at q
  simp [-Fin.ofNat_eq_cast, decXcmd, encX, q, resv, pack_zero]

theorem cwatch (a b : SReg) : Statement (.cwatch a b) := by
  intro idle w hw ha he
  rw [encode_word _ _ _ _ _ _ rfl he]
  refine decode_ctl _ _ _ _ idle.isLt (by decide) rfl hw ?_
  have e : ∀ o, decCtl 0x08 o = (decXcmd o) := fun _ => rfl
  rw [e]
  have q := unpack_pack (encX 0x21 a.val b.val 0 0)
  simp only [encX, List.map] at q
  simp [-Fin.ofNat_eq_cast, decXcmd, encX, q, resv, pack_zero]

theorem cunwatch (a : SReg) : Statement (.cunwatch a) := by
  intro idle w hw ha he
  rw [encode_word _ _ _ _ _ _ rfl he]
  refine decode_ctl _ _ _ _ idle.isLt (by decide) rfl hw ?_
  have e : ∀ o, decCtl 0x08 o = (decXcmd o) := fun _ => rfl
  rw [e]
  have q := unpack_pack (encX 0x22 a.val 0 0 0)
  simp only [encX, List.map] at q
  simp [-Fin.ofNat_eq_cast, decXcmd, encX, q, resv, pack_zero]

theorem cpoll (d a : SReg) : Statement (.cpoll d a) := by
  intro idle w hw ha he
  rw [encode_word _ _ _ _ _ _ rfl he]
  refine decode_ctl _ _ _ _ idle.isLt (by decide) rfl hw ?_
  have e : ∀ o, decCtl 0x08 o = (decXcmd o) := fun _ => rfl
  rw [e]
  have q := unpack_pack (encX 0x23 a.val 0 d.val 1)
  simp only [encX, List.map] at q
  simp [-Fin.ofNat_eq_cast, decXcmd, encX, q, resv, pack_zero]

theorem xcmdReply (c : CoreId) (x : CtxId) : Statement (.xcmdReply c x) := event rfl
theorem trap (code : BitVec 16) : Statement (.trap code) := by
  intro idle w hw ha he
  rw [encode_word _ _ _ _ _ _ rfl he]
  refine decode_ctl _ _ _ _ idle.isLt (by decide) rfl hw ?_
  have e : ∀ o, decCtl 0x09 o = (match unpack [26, 16] o with
    | [z, c] => resv z (.trap (BitVec.ofNat 16 c))
    | _ => .error 3) := fun _ => rfl
  rw [e]
  have q := unpack_pack ([(26, 0), (16, code.toNat)])
  simp only [List.map] at q
  simp [-Fin.ofNat_eq_cast, decNone, decPhase, q, resv, pack_zero]

theorem eret : Statement (.eret) := by
  intro idle w hw ha he
  rw [encode_word _ _ _ _ _ _ rfl he]
  refine decode_ctl _ _ _ _ idle.isLt (by decide) rfl hw ?_
  have e : ∀ o, decCtl 0x0A o = (decNone .eret o) := fun _ => rfl
  rw [e]
  have q := unpack_pack ([(42, 0)])
  simp only [List.map] at q
  simp [-Fin.ofNat_eq_cast, decNone, decPhase, q, resv, pack_zero]

theorem wfe (a : SReg) : Statement (.wfe a) := by
  intro idle w hw ha he
  rw [encode_word _ _ _ _ _ _ rfl he]
  refine decode_ctl _ _ _ _ idle.isLt (by decide) rfl hw ?_
  have e : ∀ o, decCtl 0x0B o = (match unpack [5, 5, 32] o with
    | [z, a, y] => resv (z + y) (.wfe (Fin.ofNat 32 a))
    | _ => .error 3) := fun _ => rfl
  rw [e]
  have q := unpack_pack ([(5, 0), (5, a.val), (32, 0)])
  simp only [List.map] at q
  simp [-Fin.ofNat_eq_cast, decNone, decPhase, q, resv, pack_zero]

theorem wfeTimeout (c : CoreId) (x : CtxId) : Statement (.wfeTimeout c x) := event rfl
theorem csave (a : SReg) (ctx : CtxId) : Statement (.csave a ctx) := by
  intro idle w hw ha he
  rw [encode_word _ _ _ _ _ _ rfl he]
  refine decode_ctl _ _ _ _ idle.isLt (by decide) rfl hw ?_
  have e : ∀ o, decCtl 0x0C o = (match unpack [5, 5, 30, 2] o with
    | [z, a, y, x] => resv (z + y) (.csave (Fin.ofNat 32 a) (Fin.ofNat 4 x))
    | _ => .error 3) := fun _ => rfl
  rw [e]
  have q := unpack_pack ([(5, 0), (5, a.val), (30, 0), (2, ctx.val)])
  simp only [List.map] at q
  simp [-Fin.ofNat_eq_cast, decNone, decPhase, q, resv, pack_zero]

theorem cload (a : SReg) (ctx : CtxId) : Statement (.cload a ctx) := by
  intro idle w hw ha he
  rw [encode_word _ _ _ _ _ _ rfl he]
  refine decode_ctl _ _ _ _ idle.isLt (by decide) rfl hw ?_
  have e : ∀ o, decCtl 0x0D o = (match unpack [5, 5, 30, 2] o with
    | [z, a, y, x] => resv (z + y) (.cload (Fin.ofNat 32 a) (Fin.ofNat 4 x))
    | _ => .error 3) := fun _ => rfl
  rw [e]
  have q := unpack_pack ([(5, 0), (5, a.val), (30, 0), (2, ctx.val)])
  simp only [List.map] at q
  simp [-Fin.ofNat_eq_cast, decNone, decPhase, q, resv, pack_zero]

theorem hall : Statement (.hall) := by
  intro idle w hw ha he
  rw [encode_word _ _ _ _ _ _ rfl he]
  refine decode_ctl _ _ _ _ idle.isLt (by decide) rfl hw ?_
  have e : ∀ o, decCtl 0x0E o = (decTlbi o) := fun _ => rfl
  rw [e]
  have q := unpack_pack (encT 0 0 0)
  simp only [encT, List.map] at q
  simp [-Fin.ofNat_eq_cast, decTlbi, encT, q, resv, pack_zero]

theorem hone (a : SReg) : Statement (.hone a) := by
  intro idle w hw ha he
  rw [encode_word _ _ _ _ _ _ rfl he]
  refine decode_ctl _ _ _ _ idle.isLt (by decide) rfl hw ?_
  have e : ∀ o, decCtl 0x0E o = (decTlbi o) := fun _ => rfl
  rw [e]
  have q := unpack_pack (encT a.val 0 1)
  simp only [encT, List.map] at q
  simp [-Fin.ofNat_eq_cast, decTlbi, encT, q, resv, pack_zero]

theorem s1va (a b : SReg) : Statement (.s1va a b) := by
  intro idle w hw ha he
  rw [encode_word _ _ _ _ _ _ rfl he]
  refine decode_ctl _ _ _ _ idle.isLt (by decide) rfl hw ?_
  have e : ∀ o, decCtl 0x0E o = (decTlbi o) := fun _ => rfl
  rw [e]
  have q := unpack_pack (encT a.val b.val 2)
  simp only [encT, List.map] at q
  simp [-Fin.ofNat_eq_cast, decTlbi, encT, q, resv, pack_zero]

theorem s1asid (b : SReg) : Statement (.s1asid b) := by
  intro idle w hw ha he
  rw [encode_word _ _ _ _ _ _ rfl he]
  refine decode_ctl _ _ _ _ idle.isLt (by decide) rfl hw ?_
  have e : ∀ o, decCtl 0x0E o = (decTlbi o) := fun _ => rfl
  rw [e]
  have q := unpack_pack (encT 0 b.val 3)
  simp only [encT, List.map] at q
  simp [-Fin.ofNat_eq_cast, decTlbi, encT, q, resv, pack_zero]

theorem s1all : Statement (.s1all) := by
  intro idle w hw ha he
  rw [encode_word _ _ _ _ _ _ rfl he]
  refine decode_ctl _ _ _ _ idle.isLt (by decide) rfl hw ?_
  have e : ∀ o, decCtl 0x0E o = (decTlbi o) := fun _ => rfl
  rw [e]
  have q := unpack_pack (encT 0 0 4)
  simp only [encT, List.map] at q
  simp [-Fin.ofNat_eq_cast, decTlbi, encT, q, resv, pack_zero]

theorem s2ipa (a b : SReg) : Statement (.s2ipa a b) := by
  intro idle w hw ha he
  rw [encode_word _ _ _ _ _ _ rfl he]
  refine decode_ctl _ _ _ _ idle.isLt (by decide) rfl hw ?_
  have e : ∀ o, decCtl 0x0E o = (decTlbi o) := fun _ => rfl
  rw [e]
  have q := unpack_pack (encT a.val b.val 5)
  simp only [encT, List.map] at q
  simp [-Fin.ofNat_eq_cast, decTlbi, encT, q, resv, pack_zero]

theorem s2part (b : SReg) : Statement (.s2part b) := by
  intro idle w hw ha he
  rw [encode_word _ _ _ _ _ _ rfl he]
  refine decode_ctl _ _ _ _ idle.isLt (by decide) rfl hw ?_
  have e : ∀ o, decCtl 0x0E o = (decTlbi o) := fun _ => rfl
  rw [e]
  have q := unpack_pack (encT 0 b.val 6)
  simp only [encT, List.map] at q
  simp [-Fin.ofNat_eq_cast, decTlbi, encT, q, resv, pack_zero]

theorem preempt (a : SReg) (ctx : CtxId) : Statement (.preempt a ctx) := by
  intro idle w hw ha he
  rw [encode_word _ _ _ _ _ _ rfl he]
  refine decode_ctl _ _ _ _ idle.isLt (by decide) rfl hw ?_
  have e : ∀ o, decCtl 0x0F o = (decSctl o) := fun _ => rfl
  rw [e]
  have q := unpack_pack (encC a.val 0 ctx.val)
  simp only [encC, List.map] at q
  simp [-Fin.ofNat_eq_cast, decSctl, encC, q, resv, pack_zero]

theorem resume (ctx : CtxId) : Statement (.resume ctx) := by
  intro idle w hw ha he
  rw [encode_word _ _ _ _ _ _ rfl he]
  refine decode_ctl _ _ _ _ idle.isLt (by decide) rfl hw ?_
  have e : ∀ o, decCtl 0x0F o = (decSctl o) := fun _ => rfl
  rw [e]
  have q := unpack_pack (encC 0 1 ctx.val)
  simp only [encC, List.map] at q
  simp [-Fin.ofNat_eq_cast, decSctl, encC, q, resv, pack_zero]

theorem requeue (ctx : CtxId) : Statement (.requeue ctx) := by
  intro idle w hw ha he
  rw [encode_word _ _ _ _ _ _ rfl he]
  refine decode_ctl _ _ _ _ idle.isLt (by decide) rfl hw ?_
  have e : ∀ o, decCtl 0x0F o = (decSctl o) := fun _ => rfl
  rw [e]
  have q := unpack_pack (encC 0 2 ctx.val)
  simp only [encC, List.map] at q
  simp [-Fin.ofNat_eq_cast, decSctl, encC, q, resv, pack_zero]

theorem abort (ctx : CtxId) : Statement (.abort ctx) := by
  intro idle w hw ha he
  rw [encode_word _ _ _ _ _ _ rfl he]
  refine decode_ctl _ _ _ _ idle.isLt (by decide) rfl hw ?_
  have e : ∀ o, decCtl 0x0F o = (decSctl o) := fun _ => rfl
  rw [e]
  have q := unpack_pack (encC 0 3 ctx.val)
  simp only [encC, List.map] at q
  simp [-Fin.ofNat_eq_cast, decSctl, encC, q, resv, pack_zero]

theorem bopen (ctx : CtxId) : Statement (.bopen ctx) := by
  intro idle w hw ha he
  rw [encode_word _ _ _ _ _ _ rfl he]
  refine decode_ctl _ _ _ _ idle.isLt (by decide) rfl hw ?_
  have e : ∀ o, decCtl 0x0F o = (decSctl o) := fun _ => rfl
  rw [e]
  have q := unpack_pack (encC 0 4 ctx.val)
  simp only [encC, List.map] at q
  simp [-Fin.ofNat_eq_cast, decSctl, encC, q, resv, pack_zero]

theorem bclose (ctx : CtxId) : Statement (.bclose ctx) := by
  intro idle w hw ha he
  rw [encode_word _ _ _ _ _ _ rfl he]
  refine decode_ctl _ _ _ _ idle.isLt (by decide) rfl hw ?_
  have e : ∀ o, decCtl 0x0F o = (decSctl o) := fun _ => rfl
  rw [e]
  have q := unpack_pack (encC 0 5 ctx.val)
  simp only [encC, List.map] at q
  simp [-Fin.ofNat_eq_cast, decSctl, encC, q, resv, pack_zero]

theorem doorbell (a : SReg) (ctx : CtxId) : Statement (.doorbell a ctx) := by
  intro idle w hw ha he
  rw [encode_word _ _ _ _ _ _ rfl he]
  refine decode_ctl _ _ _ _ idle.isLt (by decide) rfl hw ?_
  have e : ∀ o, decCtl 0x0F o = (decSctl o) := fun _ => rfl
  rw [e]
  have q := unpack_pack (encC a.val 6 ctx.val)
  simp only [encC, List.map] at q
  simp [-Fin.ofNat_eq_cast, decSctl, encC, q, resv, pack_zero]

theorem add (d a b : SReg) : Statement (.add d a b) := by
  intro idle w hw ha he
  rw [encode_word _ _ _ _ _ _ rfl he]
  refine decode_ctl _ _ _ _ idle.isLt (by decide) rfl hw ?_
  have e : ∀ o, decCtl 0x10 o = (decR3 .add o) := fun _ => rfl
  rw [e]
  exact decR3_encR3 .add _ _ _

theorem sub (d a b : SReg) : Statement (.sub d a b) := by
  intro idle w hw ha he
  rw [encode_word _ _ _ _ _ _ rfl he]
  refine decode_ctl _ _ _ _ idle.isLt (by decide) rfl hw ?_
  have e : ∀ o, decCtl 0x11 o = (decR3 .sub o) := fun _ => rfl
  rw [e]
  exact decR3_encR3 .sub _ _ _

theorem and (d a b : SReg) : Statement (.and d a b) := by
  intro idle w hw ha he
  rw [encode_word _ _ _ _ _ _ rfl he]
  refine decode_ctl _ _ _ _ idle.isLt (by decide) rfl hw ?_
  have e : ∀ o, decCtl 0x12 o = (decR3 .and o) := fun _ => rfl
  rw [e]
  exact decR3_encR3 .and _ _ _

theorem or (d a b : SReg) : Statement (.or d a b) := by
  intro idle w hw ha he
  rw [encode_word _ _ _ _ _ _ rfl he]
  refine decode_ctl _ _ _ _ idle.isLt (by decide) rfl hw ?_
  have e : ∀ o, decCtl 0x13 o = (decR3 .or o) := fun _ => rfl
  rw [e]
  exact decR3_encR3 .or _ _ _

theorem xor (d a b : SReg) : Statement (.xor d a b) := by
  intro idle w hw ha he
  rw [encode_word _ _ _ _ _ _ rfl he]
  refine decode_ctl _ _ _ _ idle.isLt (by decide) rfl hw ?_
  have e : ∀ o, decCtl 0x14 o = (decR3 .xor o) := fun _ => rfl
  rw [e]
  exact decR3_encR3 .xor _ _ _

theorem sll (d a b : SReg) : Statement (.sll d a b) := by
  intro idle w hw ha he
  rw [encode_word _ _ _ _ _ _ rfl he]
  refine decode_ctl _ _ _ _ idle.isLt (by decide) rfl hw ?_
  have e : ∀ o, decCtl 0x15 o = (decR3 .sll o) := fun _ => rfl
  rw [e]
  exact decR3_encR3 .sll _ _ _

theorem srl (d a b : SReg) : Statement (.srl d a b) := by
  intro idle w hw ha he
  rw [encode_word _ _ _ _ _ _ rfl he]
  refine decode_ctl _ _ _ _ idle.isLt (by decide) rfl hw ?_
  have e : ∀ o, decCtl 0x16 o = (decR3 .srl o) := fun _ => rfl
  rw [e]
  exact decR3_encR3 .srl _ _ _

theorem sra (d a b : SReg) : Statement (.sra d a b) := by
  intro idle w hw ha he
  rw [encode_word _ _ _ _ _ _ rfl he]
  refine decode_ctl _ _ _ _ idle.isLt (by decide) rfl hw ?_
  have e : ∀ o, decCtl 0x17 o = (decR3 .sra o) := fun _ => rfl
  rw [e]
  exact decR3_encR3 .sra _ _ _

theorem slt (d a b : SReg) : Statement (.slt d a b) := by
  intro idle w hw ha he
  rw [encode_word _ _ _ _ _ _ rfl he]
  refine decode_ctl _ _ _ _ idle.isLt (by decide) rfl hw ?_
  have e : ∀ o, decCtl 0x18 o = (decR3 .slt o) := fun _ => rfl
  rw [e]
  exact decR3_encR3 .slt _ _ _

theorem sltu (d a b : SReg) : Statement (.sltu d a b) := by
  intro idle w hw ha he
  rw [encode_word _ _ _ _ _ _ rfl he]
  refine decode_ctl _ _ _ _ idle.isLt (by decide) rfl hw ?_
  have e : ∀ o, decCtl 0x19 o = (decR3 .sltu o) := fun _ => rfl
  rw [e]
  exact decR3_encR3 .sltu _ _ _

theorem min (d a b : SReg) : Statement (.min d a b) := by
  intro idle w hw ha he
  rw [encode_word _ _ _ _ _ _ rfl he]
  refine decode_ctl _ _ _ _ idle.isLt (by decide) rfl hw ?_
  have e : ∀ o, decCtl 0x1A o = (decR3 .min o) := fun _ => rfl
  rw [e]
  exact decR3_encR3 .min _ _ _

theorem max (d a b : SReg) : Statement (.max d a b) := by
  intro idle w hw ha he
  rw [encode_word _ _ _ _ _ _ rfl he]
  refine decode_ctl _ _ _ _ idle.isLt (by decide) rfl hw ?_
  have e : ∀ o, decCtl 0x1B o = (decR3 .max o) := fun _ => rfl
  rw [e]
  exact decR3_encR3 .max _ _ _

theorem minu (d a b : SReg) : Statement (.minu d a b) := by
  intro idle w hw ha he
  rw [encode_word _ _ _ _ _ _ rfl he]
  refine decode_ctl _ _ _ _ idle.isLt (by decide) rfl hw ?_
  have e : ∀ o, decCtl 0x1C o = (decR3 .minu o) := fun _ => rfl
  rw [e]
  exact decR3_encR3 .minu _ _ _

theorem maxu (d a b : SReg) : Statement (.maxu d a b) := by
  intro idle w hw ha he
  rw [encode_word _ _ _ _ _ _ rfl he]
  refine decode_ctl _ _ _ _ idle.isLt (by decide) rfl hw ?_
  have e : ∀ o, decCtl 0x1D o = (decR3 .maxu o) := fun _ => rfl
  rw [e]
  exact decR3_encR3 .maxu _ _ _

theorem mul (d a b : SReg) : Statement (.mul d a b) := by
  intro idle w hw ha he
  rw [encode_word _ _ _ _ _ _ rfl he]
  refine decode_ctl _ _ _ _ idle.isLt (by decide) rfl hw ?_
  have e : ∀ o, decCtl 0x20 o = (decR3 .mul o) := fun _ => rfl
  rw [e]
  exact decR3_encR3 .mul _ _ _

theorem mulh (d a b : SReg) : Statement (.mulh d a b) := by
  intro idle w hw ha he
  rw [encode_word _ _ _ _ _ _ rfl he]
  refine decode_ctl _ _ _ _ idle.isLt (by decide) rfl hw ?_
  have e : ∀ o, decCtl 0x21 o = (decR3 .mulh o) := fun _ => rfl
  rw [e]
  exact decR3_encR3 .mulh _ _ _

theorem mulhu (d a b : SReg) : Statement (.mulhu d a b) := by
  intro idle w hw ha he
  rw [encode_word _ _ _ _ _ _ rfl he]
  refine decode_ctl _ _ _ _ idle.isLt (by decide) rfl hw ?_
  have e : ∀ o, decCtl 0x22 o = (decR3 .mulhu o) := fun _ => rfl
  rw [e]
  exact decR3_encR3 .mulhu _ _ _

theorem div (d a b : SReg) : Statement (.div d a b) := by
  intro idle w hw ha he
  rw [encode_word _ _ _ _ _ _ rfl he]
  refine decode_ctl _ _ _ _ idle.isLt (by decide) rfl hw ?_
  have e : ∀ o, decCtl 0x23 o = (decR3 .div o) := fun _ => rfl
  rw [e]
  exact decR3_encR3 .div _ _ _

theorem divu (d a b : SReg) : Statement (.divu d a b) := by
  intro idle w hw ha he
  rw [encode_word _ _ _ _ _ _ rfl he]
  refine decode_ctl _ _ _ _ idle.isLt (by decide) rfl hw ?_
  have e : ∀ o, decCtl 0x24 o = (decR3 .divu o) := fun _ => rfl
  rw [e]
  exact decR3_encR3 .divu _ _ _

theorem rem (d a b : SReg) : Statement (.rem d a b) := by
  intro idle w hw ha he
  rw [encode_word _ _ _ _ _ _ rfl he]
  refine decode_ctl _ _ _ _ idle.isLt (by decide) rfl hw ?_
  have e : ∀ o, decCtl 0x25 o = (decR3 .rem o) := fun _ => rfl
  rw [e]
  exact decR3_encR3 .rem _ _ _

theorem remu (d a b : SReg) : Statement (.remu d a b) := by
  intro idle w hw ha he
  rw [encode_word _ _ _ _ _ _ rfl he]
  refine decode_ctl _ _ _ _ idle.isLt (by decide) rfl hw ?_
  have e : ∀ o, decCtl 0x26 o = (decR3 .remu o) := fun _ => rfl
  rw [e]
  exact decR3_encR3 .remu _ _ _

theorem addi (d a : SReg) (imm : BitVec 30) : Statement (.addi d a imm) := by
  intro idle w hw ha he
  rw [encode_word _ _ _ _ _ _ rfl he]
  refine decode_ctl _ _ _ _ idle.isLt (by decide) rfl hw ?_
  have e : ∀ o, decCtl 0x30 o = (decImm .addi o) := fun _ => rfl
  rw [e]
  exact decImm_encImm .addi _ _ _

theorem andi (d a : SReg) (imm : BitVec 30) : Statement (.andi d a imm) := by
  intro idle w hw ha he
  rw [encode_word _ _ _ _ _ _ rfl he]
  refine decode_ctl _ _ _ _ idle.isLt (by decide) rfl hw ?_
  have e : ∀ o, decCtl 0x32 o = (decImm .andi o) := fun _ => rfl
  rw [e]
  exact decImm_encImm .andi _ _ _

theorem ori (d a : SReg) (imm : BitVec 30) : Statement (.ori d a imm) := by
  intro idle w hw ha he
  rw [encode_word _ _ _ _ _ _ rfl he]
  refine decode_ctl _ _ _ _ idle.isLt (by decide) rfl hw ?_
  have e : ∀ o, decCtl 0x33 o = (decImm .ori o) := fun _ => rfl
  rw [e]
  exact decImm_encImm .ori _ _ _

theorem xori (d a : SReg) (imm : BitVec 30) : Statement (.xori d a imm) := by
  intro idle w hw ha he
  rw [encode_word _ _ _ _ _ _ rfl he]
  refine decode_ctl _ _ _ _ idle.isLt (by decide) rfl hw ?_
  have e : ∀ o, decCtl 0x34 o = (decImm .xori o) := fun _ => rfl
  rw [e]
  exact decImm_encImm .xori _ _ _

theorem slli (d a : SReg) (imm : BitVec 30) : Statement (.slli d a imm) := by
  intro idle w hw ha he
  rw [encode_word _ _ _ _ _ _ rfl he]
  refine decode_ctl _ _ _ _ idle.isLt (by decide) rfl hw ?_
  have e : ∀ o, decCtl 0x35 o = (decImm .slli o) := fun _ => rfl
  rw [e]
  exact decImm_encImm .slli _ _ _

theorem srli (d a : SReg) (imm : BitVec 30) : Statement (.srli d a imm) := by
  intro idle w hw ha he
  rw [encode_word _ _ _ _ _ _ rfl he]
  refine decode_ctl _ _ _ _ idle.isLt (by decide) rfl hw ?_
  have e : ∀ o, decCtl 0x36 o = (decImm .srli o) := fun _ => rfl
  rw [e]
  exact decImm_encImm .srli _ _ _

theorem srai (d a : SReg) (imm : BitVec 30) : Statement (.srai d a imm) := by
  intro idle w hw ha he
  rw [encode_word _ _ _ _ _ _ rfl he]
  refine decode_ctl _ _ _ _ idle.isLt (by decide) rfl hw ?_
  have e : ∀ o, decCtl 0x37 o = (decImm .srai o) := fun _ => rfl
  rw [e]
  exact decImm_encImm .srai _ _ _

theorem slti (d a : SReg) (imm : BitVec 30) : Statement (.slti d a imm) := by
  intro idle w hw ha he
  rw [encode_word _ _ _ _ _ _ rfl he]
  refine decode_ctl _ _ _ _ idle.isLt (by decide) rfl hw ?_
  have e : ∀ o, decCtl 0x38 o = (decImm .slti o) := fun _ => rfl
  rw [e]
  exact decImm_encImm .slti _ _ _

theorem sltiu (d a : SReg) (imm : BitVec 30) : Statement (.sltiu d a imm) := by
  intro idle w hw ha he
  rw [encode_word _ _ _ _ _ _ rfl he]
  refine decode_ctl _ _ _ _ idle.isLt (by decide) rfl hw ?_
  have e : ∀ o, decCtl 0x39 o = (decImm .sltiu o) := fun _ => rfl
  rw [e]
  exact decImm_encImm .sltiu _ _ _

theorem lil (d : SReg) (imm : BitVec 32) : Statement (.lil d imm) := by
  intro idle w hw ha he
  rw [encode_word _ _ _ _ _ _ rfl he]
  refine decode_ctl _ _ _ _ idle.isLt (by decide) rfl hw ?_
  have e : ∀ o, decCtl 0x3E o = (match unpack [5, 5, 32] o with
    | [d, z, i] => resv z (.lil (Fin.ofNat 32 d) (BitVec.ofNat 32 i))
    | _ => .error 3) := fun _ => rfl
  rw [e]
  have q := unpack_pack ([(5, d.val), (5, 0), (32, imm.toNat)])
  simp only [List.map] at q
  simp [-Fin.ofNat_eq_cast, decNone, decPhase, q, resv, pack_zero]

theorem lih (d : SReg) (imm : BitVec 32) : Statement (.lih d imm) := by
  intro idle w hw ha he
  rw [encode_word _ _ _ _ _ _ rfl he]
  refine decode_ctl _ _ _ _ idle.isLt (by decide) rfl hw ?_
  have e : ∀ o, decCtl 0x3F o = (match unpack [5, 5, 32] o with
    | [d, z, i] => resv z (.lih (Fin.ofNat 32 d) (BitVec.ofNat 32 i))
    | _ => .error 3) := fun _ => rfl
  rw [e]
  have q := unpack_pack ([(5, d.val), (5, 0), (32, imm.toNat)])
  simp only [List.map] at q
  simp [-Fin.ofNat_eq_cast, decNone, decPhase, q, resv, pack_zero]

theorem ldI8 (d a : SReg) (imm : BitVec 30) : Statement (.ldI8 d a imm) := by
  intro idle w hw ha he
  rw [encode_word _ _ _ _ _ _ rfl he]
  refine decode_ctl _ _ _ _ idle.isLt (by decide) rfl hw ?_
  have e : ∀ o, decCtl 0x40 o = (decImm .ldI8 o) := fun _ => rfl
  rw [e]
  exact decImm_encImm .ldI8 _ _ _

theorem ldUi8 (d a : SReg) (imm : BitVec 30) : Statement (.ldUi8 d a imm) := by
  intro idle w hw ha he
  rw [encode_word _ _ _ _ _ _ rfl he]
  refine decode_ctl _ _ _ _ idle.isLt (by decide) rfl hw ?_
  have e : ∀ o, decCtl 0x41 o = (decImm .ldUi8 o) := fun _ => rfl
  rw [e]
  exact decImm_encImm .ldUi8 _ _ _

theorem ldI16 (d a : SReg) (imm : BitVec 30) : Statement (.ldI16 d a imm) := by
  intro idle w hw ha he
  rw [encode_word _ _ _ _ _ _ rfl he]
  refine decode_ctl _ _ _ _ idle.isLt (by decide) rfl hw ?_
  have e : ∀ o, decCtl 0x42 o = (decImm .ldI16 o) := fun _ => rfl
  rw [e]
  exact decImm_encImm .ldI16 _ _ _

theorem ldUi16 (d a : SReg) (imm : BitVec 30) : Statement (.ldUi16 d a imm) := by
  intro idle w hw ha he
  rw [encode_word _ _ _ _ _ _ rfl he]
  refine decode_ctl _ _ _ _ idle.isLt (by decide) rfl hw ?_
  have e : ∀ o, decCtl 0x43 o = (decImm .ldUi16 o) := fun _ => rfl
  rw [e]
  exact decImm_encImm .ldUi16 _ _ _

theorem ldI32 (d a : SReg) (imm : BitVec 30) : Statement (.ldI32 d a imm) := by
  intro idle w hw ha he
  rw [encode_word _ _ _ _ _ _ rfl he]
  refine decode_ctl _ _ _ _ idle.isLt (by decide) rfl hw ?_
  have e : ∀ o, decCtl 0x44 o = (decImm .ldI32 o) := fun _ => rfl
  rw [e]
  exact decImm_encImm .ldI32 _ _ _

theorem ldUi32 (d a : SReg) (imm : BitVec 30) : Statement (.ldUi32 d a imm) := by
  intro idle w hw ha he
  rw [encode_word _ _ _ _ _ _ rfl he]
  refine decode_ctl _ _ _ _ idle.isLt (by decide) rfl hw ?_
  have e : ∀ o, decCtl 0x45 o = (decImm .ldUi32 o) := fun _ => rfl
  rw [e]
  exact decImm_encImm .ldUi32 _ _ _

theorem ldI64 (d a : SReg) (imm : BitVec 30) : Statement (.ldI64 d a imm) := by
  intro idle w hw ha he
  rw [encode_word _ _ _ _ _ _ rfl he]
  refine decode_ctl _ _ _ _ idle.isLt (by decide) rfl hw ?_
  have e : ∀ o, decCtl 0x46 o = (decImm .ldI64 o) := fun _ => rfl
  rw [e]
  exact decImm_encImm .ldI64 _ _ _

theorem stI8 (s a : SReg) (imm : BitVec 30) : Statement (.stI8 s a imm) := by
  intro idle w hw ha he
  rw [encode_word _ _ _ _ _ _ rfl he]
  refine decode_ctl _ _ _ _ idle.isLt (by decide) rfl hw ?_
  have e : ∀ o, decCtl 0x48 o = (decImm .stI8 o) := fun _ => rfl
  rw [e]
  exact decImm_encImm .stI8 _ _ _

theorem stI16 (s a : SReg) (imm : BitVec 30) : Statement (.stI16 s a imm) := by
  intro idle w hw ha he
  rw [encode_word _ _ _ _ _ _ rfl he]
  refine decode_ctl _ _ _ _ idle.isLt (by decide) rfl hw ?_
  have e : ∀ o, decCtl 0x4A o = (decImm .stI16 o) := fun _ => rfl
  rw [e]
  exact decImm_encImm .stI16 _ _ _

theorem stI32 (s a : SReg) (imm : BitVec 30) : Statement (.stI32 s a imm) := by
  intro idle w hw ha he
  rw [encode_word _ _ _ _ _ _ rfl he]
  refine decode_ctl _ _ _ _ idle.isLt (by decide) rfl hw ?_
  have e : ∀ o, decCtl 0x4C o = (decImm .stI32 o) := fun _ => rfl
  rw [e]
  exact decImm_encImm .stI32 _ _ _

theorem stI64 (s a : SReg) (imm : BitVec 30) : Statement (.stI64 s a imm) := by
  intro idle w hw ha he
  rw [encode_word _ _ _ _ _ _ rfl he]
  refine decode_ctl _ _ _ _ idle.isLt (by decide) rfl hw ?_
  have e : ∀ o, decCtl 0x4E o = (decImm .stI64 o) := fun _ => rfl
  rw [e]
  exact decImm_encImm .stI64 _ _ _

theorem ctlStorePerform (c : CoreId) (x : CtxId) : Statement (.ctlStorePerform c x) := event rfl
theorem ctlLoadReturn (c : CoreId) (x : CtxId) : Statement (.ctlLoadReturn c x) := event rfl
theorem beq (a b : SReg) (off : BitVec 30) : Statement (.beq a b off) := by
  intro idle w hw ha he
  rw [encode_word _ _ _ _ _ _ rfl he]
  refine decode_ctl _ _ _ _ idle.isLt (by decide) rfl hw ?_
  have e : ∀ o, decCtl 0x50 o = (decBran .beq o) := fun _ => rfl
  rw [e]
  exact decImm_encImm .beq _ _ _

theorem bne (a b : SReg) (off : BitVec 30) : Statement (.bne a b off) := by
  intro idle w hw ha he
  rw [encode_word _ _ _ _ _ _ rfl he]
  refine decode_ctl _ _ _ _ idle.isLt (by decide) rfl hw ?_
  have e : ∀ o, decCtl 0x51 o = (decBran .bne o) := fun _ => rfl
  rw [e]
  exact decImm_encImm .bne _ _ _

theorem blt (a b : SReg) (off : BitVec 30) : Statement (.blt a b off) := by
  intro idle w hw ha he
  rw [encode_word _ _ _ _ _ _ rfl he]
  refine decode_ctl _ _ _ _ idle.isLt (by decide) rfl hw ?_
  have e : ∀ o, decCtl 0x52 o = (decBran .blt o) := fun _ => rfl
  rw [e]
  exact decImm_encImm .blt _ _ _

theorem bge (a b : SReg) (off : BitVec 30) : Statement (.bge a b off) := by
  intro idle w hw ha he
  rw [encode_word _ _ _ _ _ _ rfl he]
  refine decode_ctl _ _ _ _ idle.isLt (by decide) rfl hw ?_
  have e : ∀ o, decCtl 0x53 o = (decBran .bge o) := fun _ => rfl
  rw [e]
  exact decImm_encImm .bge _ _ _

theorem bltu (a b : SReg) (off : BitVec 30) : Statement (.bltu a b off) := by
  intro idle w hw ha he
  rw [encode_word _ _ _ _ _ _ rfl he]
  refine decode_ctl _ _ _ _ idle.isLt (by decide) rfl hw ?_
  have e : ∀ o, decCtl 0x54 o = (decBran .bltu o) := fun _ => rfl
  rw [e]
  exact decImm_encImm .bltu _ _ _

theorem bgeu (a b : SReg) (off : BitVec 30) : Statement (.bgeu a b off) := by
  intro idle w hw ha he
  rw [encode_word _ _ _ _ _ _ rfl he]
  refine decode_ctl _ _ _ _ idle.isLt (by decide) rfl hw ?_
  have e : ∀ o, decCtl 0x55 o = (decBran .bgeu o) := fun _ => rfl
  rw [e]
  exact decImm_encImm .bgeu _ _ _

theorem jal (d : SReg) (off : BitVec 30) : Statement (.jal d off) := by
  intro idle w hw ha he
  rw [encode_word _ _ _ _ _ _ rfl he]
  refine decode_ctl _ _ _ _ idle.isLt (by decide) rfl hw ?_
  have e : ∀ o, decCtl 0x56 o = (match unpack [5, 7, 30] o with
    | [d, z, f] => resv z (.jal (Fin.ofNat 32 d) (BitVec.ofNat 30 f))
    | _ => .error 3) := fun _ => rfl
  rw [e]
  have q := unpack_pack ([(5, d.val), (7, 0), (30, off.toNat)])
  simp only [List.map] at q
  simp [-Fin.ofNat_eq_cast, decNone, decPhase, q, resv, pack_zero]

theorem jalr (d a : SReg) (imm : BitVec 30) : Statement (.jalr d a imm) := by
  intro idle w hw ha he
  rw [encode_word _ _ _ _ _ _ rfl he]
  refine decode_ctl _ _ _ _ idle.isLt (by decide) rfl hw ?_
  have e : ∀ o, decCtl 0x57 o = (decImm .jalr o) := fun _ => rfl
  rw [e]
  exact decImm_encImm .jalr _ _ _

theorem csrr (d : SReg) (csr : BitVec 30) : Statement (.csrr d csr) := by
  intro idle w hw ha he
  rw [encode_word _ _ _ _ _ _ rfl he]
  refine decode_ctl _ _ _ _ idle.isLt (by decide) rfl hw ?_
  have e : ∀ o, decCtl 0x60 o = (match unpack [5, 7, 30] o with
    | [d, z, i] => resv z (.csrr (Fin.ofNat 32 d) (BitVec.ofNat 30 i))
    | _ => .error 3) := fun _ => rfl
  rw [e]
  have q := unpack_pack ([(5, d.val), (7, 0), (30, csr.toNat)])
  simp only [List.map] at q
  simp [-Fin.ofNat_eq_cast, decNone, decPhase, q, resv, pack_zero]

theorem csrw (a : SReg) (csr : BitVec 30) : Statement (.csrw a csr) := by
  intro idle w hw ha he
  rw [encode_word _ _ _ _ _ _ rfl he]
  refine decode_ctl _ _ _ _ idle.isLt (by decide) rfl hw ?_
  have e : ∀ o, decCtl 0x61 o = (match unpack [5, 5, 2, 30] o with
    | [z, a, y, i] => resv (z + y) (.csrw (Fin.ofNat 32 a) (BitVec.ofNat 30 i))
    | _ => .error 3) := fun _ => rfl
  rw [e]
  have q := unpack_pack ([(5, 0), (5, a.val), (2, 0), (30, csr.toNat)])
  simp only [List.map] at q
  simp [-Fin.ofNat_eq_cast, decNone, decPhase, q, resv, pack_zero]

theorem csrx (d a : SReg) (csr : BitVec 30) : Statement (.csrx d a csr) := by
  intro idle w hw ha he
  rw [encode_word _ _ _ _ _ _ rfl he]
  refine decode_ctl _ _ _ _ idle.isLt (by decide) rfl hw ?_
  have e : ∀ o, decCtl 0x62 o = (decImm .csrx o) := fun _ => rfl
  rw [e]
  exact decImm_encImm .csrx _ _ _

theorem hdrw (d : HReg) (field : Fin 32) (a : SReg) : Statement (.hdrw d field a) := by
  intro idle w hw ha he
  rw [encode_word _ _ _ _ _ _ rfl he]
  refine decode_ctl _ _ _ _ idle.isLt (by decide) rfl hw ?_
  have e : ∀ o, decCtl 0x64 o = (match unpack [5, 5, 10, 17, 5] o with
    | [d, a, z, y, f] => resv (z + y) (.hdrw (Fin.ofNat 32 d) (Fin.ofNat 32 f) (Fin.ofNat 32 a))
    | _ => .error 3) := fun _ => rfl
  rw [e]
  have q := unpack_pack ([(5, d.val), (5, a.val), (10, 0), (17, 0), (5, field.val)])
  simp only [List.map] at q
  simp [-Fin.ofNat_eq_cast, decNone, decPhase, q, resv, pack_zero]

theorem hdrr (d : SReg) (a : HReg) (field : Fin 32) : Statement (.hdrr d a field) := by
  intro idle w hw ha he
  rw [encode_word _ _ _ _ _ _ rfl he]
  refine decode_ctl _ _ _ _ idle.isLt (by decide) rfl hw ?_
  have e : ∀ o, decCtl 0x65 o = (match unpack [5, 5, 10, 17, 5] o with
    | [d, a, z, y, f] => resv (z + y) (.hdrr (Fin.ofNat 32 d) (Fin.ofNat 32 a) (Fin.ofNat 32 f))
    | _ => .error 3) := fun _ => rfl
  rw [e]
  have q := unpack_pack ([(5, d.val), (5, a.val), (10, 0), (17, 0), (5, field.val)])
  simp only [List.map] at q
  simp [-Fin.ofNat_eq_cast, decNone, decPhase, q, resv, pack_zero]

theorem vmov (v : VOp) : Statement (.vmov v) := by
  intro idle w hw ha he
  rw [encode_word _ _ _ _ _ _ rfl he]
  refine decode_vec _ _ _ _ idle.isLt (by decide) rfl hw ?_
  have e : ∀ o, decVec 0x01 o = (decV .vmov o) := fun _ => rfl
  rw [e]
  exact decV_encV .vmov _

theorem vsel (v : VOp) : Statement (.vsel v) := by
  intro idle w hw ha he
  rw [encode_word _ _ _ _ _ _ rfl he]
  refine decode_vec _ _ _ _ idle.isLt (by decide) rfl hw ?_
  have e : ∀ o, decVec 0x02 o = (decV .vsel o) := fun _ => rfl
  rw [e]
  exact decV_encV .vsel _

theorem vadd (v : VOp) : Statement (.vadd v) := by
  intro idle w hw ha he
  rw [encode_word _ _ _ _ _ _ rfl he]
  refine decode_vec _ _ _ _ idle.isLt (by decide) rfl hw ?_
  have e : ∀ o, decVec 0x08 o = (decV .vadd o) := fun _ => rfl
  rw [e]
  exact decV_encV .vadd _

theorem vsub (v : VOp) : Statement (.vsub v) := by
  intro idle w hw ha he
  rw [encode_word _ _ _ _ _ _ rfl he]
  refine decode_vec _ _ _ _ idle.isLt (by decide) rfl hw ?_
  have e : ∀ o, decVec 0x09 o = (decV .vsub o) := fun _ => rfl
  rw [e]
  exact decV_encV .vsub _

theorem vmul (v : VOp) : Statement (.vmul v) := by
  intro idle w hw ha he
  rw [encode_word _ _ _ _ _ _ rfl he]
  refine decode_vec _ _ _ _ idle.isLt (by decide) rfl hw ?_
  have e : ∀ o, decVec 0x0A o = (decV .vmul o) := fun _ => rfl
  rw [e]
  exact decV_encV .vmul _

theorem vmulh (v : VOp) : Statement (.vmulh v) := by
  intro idle w hw ha he
  rw [encode_word _ _ _ _ _ _ rfl he]
  refine decode_vec _ _ _ _ idle.isLt (by decide) rfl hw ?_
  have e : ∀ o, decVec 0x0B o = (decV .vmulh o) := fun _ => rfl
  rw [e]
  exact decV_encV .vmulh _

theorem vfma (v : VOp) : Statement (.vfma v) := by
  intro idle w hw ha he
  rw [encode_word _ _ _ _ _ _ rfl he]
  refine decode_vec _ _ _ _ idle.isLt (by decide) rfl hw ?_
  have e : ∀ o, decVec 0x0C o = (decV .vfma o) := fun _ => rfl
  rw [e]
  exact decV_encV .vfma _

theorem vfms (v : VOp) : Statement (.vfms v) := by
  intro idle w hw ha he
  rw [encode_word _ _ _ _ _ _ rfl he]
  refine decode_vec _ _ _ _ idle.isLt (by decide) rfl hw ?_
  have e : ∀ o, decVec 0x0D o = (decV .vfms o) := fun _ => rfl
  rw [e]
  exact decV_encV .vfms _

theorem vfnma (v : VOp) : Statement (.vfnma v) := by
  intro idle w hw ha he
  rw [encode_word _ _ _ _ _ _ rfl he]
  refine decode_vec _ _ _ _ idle.isLt (by decide) rfl hw ?_
  have e : ∀ o, decVec 0x0E o = (decV .vfnma o) := fun _ => rfl
  rw [e]
  exact decV_encV .vfnma _

theorem vmin (v : VOp) : Statement (.vmin v) := by
  intro idle w hw ha he
  rw [encode_word _ _ _ _ _ _ rfl he]
  refine decode_vec _ _ _ _ idle.isLt (by decide) rfl hw ?_
  have e : ∀ o, decVec 0x10 o = (decV .vmin o) := fun _ => rfl
  rw [e]
  exact decV_encV .vmin _

theorem vmax (v : VOp) : Statement (.vmax v) := by
  intro idle w hw ha he
  rw [encode_word _ _ _ _ _ _ rfl he]
  refine decode_vec _ _ _ _ idle.isLt (by decide) rfl hw ?_
  have e : ∀ o, decVec 0x11 o = (decV .vmax o) := fun _ => rfl
  rw [e]
  exact decV_encV .vmax _

theorem vabs (v : VOp) : Statement (.vabs v) := by
  intro idle w hw ha he
  rw [encode_word _ _ _ _ _ _ rfl he]
  refine decode_vec _ _ _ _ idle.isLt (by decide) rfl hw ?_
  have e : ∀ o, decVec 0x12 o = (decV .vabs o) := fun _ => rfl
  rw [e]
  exact decV_encV .vabs _

theorem vneg (v : VOp) : Statement (.vneg v) := by
  intro idle w hw ha he
  rw [encode_word _ _ _ _ _ _ rfl he]
  refine decode_vec _ _ _ _ idle.isLt (by decide) rfl hw ?_
  have e : ∀ o, decVec 0x13 o = (decV .vneg o) := fun _ => rfl
  rw [e]
  exact decV_encV .vneg _

theorem vand (v : VOp) : Statement (.vand v) := by
  intro idle w hw ha he
  rw [encode_word _ _ _ _ _ _ rfl he]
  refine decode_vec _ _ _ _ idle.isLt (by decide) rfl hw ?_
  have e : ∀ o, decVec 0x18 o = (decV .vand o) := fun _ => rfl
  rw [e]
  exact decV_encV .vand _

theorem vor (v : VOp) : Statement (.vor v) := by
  intro idle w hw ha he
  rw [encode_word _ _ _ _ _ _ rfl he]
  refine decode_vec _ _ _ _ idle.isLt (by decide) rfl hw ?_
  have e : ∀ o, decVec 0x19 o = (decV .vor o) := fun _ => rfl
  rw [e]
  exact decV_encV .vor _

theorem vxor (v : VOp) : Statement (.vxor v) := by
  intro idle w hw ha he
  rw [encode_word _ _ _ _ _ _ rfl he]
  refine decode_vec _ _ _ _ idle.isLt (by decide) rfl hw ?_
  have e : ∀ o, decVec 0x1A o = (decV .vxor o) := fun _ => rfl
  rw [e]
  exact decV_encV .vxor _

theorem vnot (v : VOp) : Statement (.vnot v) := by
  intro idle w hw ha he
  rw [encode_word _ _ _ _ _ _ rfl he]
  refine decode_vec _ _ _ _ idle.isLt (by decide) rfl hw ?_
  have e : ∀ o, decVec 0x1B o = (decV .vnot o) := fun _ => rfl
  rw [e]
  exact decV_encV .vnot _

theorem vsll (v : VOp) : Statement (.vsll v) := by
  intro idle w hw ha he
  rw [encode_word _ _ _ _ _ _ rfl he]
  refine decode_vec _ _ _ _ idle.isLt (by decide) rfl hw ?_
  have e : ∀ o, decVec 0x1C o = (decV .vsll o) := fun _ => rfl
  rw [e]
  exact decV_encV .vsll _

theorem vsrl (v : VOp) : Statement (.vsrl v) := by
  intro idle w hw ha he
  rw [encode_word _ _ _ _ _ _ rfl he]
  refine decode_vec _ _ _ _ idle.isLt (by decide) rfl hw ?_
  have e : ∀ o, decVec 0x1D o = (decV .vsrl o) := fun _ => rfl
  rw [e]
  exact decV_encV .vsrl _

theorem vsra (v : VOp) : Statement (.vsra v) := by
  intro idle w hw ha he
  rw [encode_word _ _ _ _ _ _ rfl he]
  refine decode_vec _ _ _ _ idle.isLt (by decide) rfl hw ?_
  have e : ∀ o, decVec 0x1E o = (decV .vsra o) := fun _ => rfl
  rw [e]
  exact decV_encV .vsra _

theorem vcmpeq (v : VOp) : Statement (.vcmpeq v) := by
  intro idle w hw ha he
  rw [encode_word _ _ _ _ _ _ rfl he]
  refine decode_vec _ _ _ _ idle.isLt (by decide) rfl hw ?_
  have e : ∀ o, decVec 0x20 o = (decV .vcmpeq o) := fun _ => rfl
  rw [e]
  exact decV_encV .vcmpeq _

theorem vcmpne (v : VOp) : Statement (.vcmpne v) := by
  intro idle w hw ha he
  rw [encode_word _ _ _ _ _ _ rfl he]
  refine decode_vec _ _ _ _ idle.isLt (by decide) rfl hw ?_
  have e : ∀ o, decVec 0x21 o = (decV .vcmpne o) := fun _ => rfl
  rw [e]
  exact decV_encV .vcmpne _

theorem vcmplt (v : VOp) : Statement (.vcmplt v) := by
  intro idle w hw ha he
  rw [encode_word _ _ _ _ _ _ rfl he]
  refine decode_vec _ _ _ _ idle.isLt (by decide) rfl hw ?_
  have e : ∀ o, decVec 0x22 o = (decV .vcmplt o) := fun _ => rfl
  rw [e]
  exact decV_encV .vcmplt _

theorem vcmple (v : VOp) : Statement (.vcmple v) := by
  intro idle w hw ha he
  rw [encode_word _ _ _ _ _ _ rfl he]
  refine decode_vec _ _ _ _ idle.isLt (by decide) rfl hw ?_
  have e : ∀ o, decVec 0x23 o = (decV .vcmple o) := fun _ => rfl
  rw [e]
  exact decV_encV .vcmple _

theorem vcvt (v : VOp) : Statement (.vcvt v) := by
  intro idle w hw ha he
  rw [encode_word _ _ _ _ _ _ rfl he]
  refine decode_vec _ _ _ _ idle.isLt (by decide) rfl hw ?_
  have e : ∀ o, decVec 0x28 o = (decV .vcvt o) := fun _ => rfl
  rw [e]
  exact decV_encV .vcvt _

theorem vcvte (v : VOp) : Statement (.vcvte v) := by
  intro idle w hw ha he
  rw [encode_word _ _ _ _ _ _ rfl he]
  refine decode_vec _ _ _ _ idle.isLt (by decide) rfl hw ?_
  have e : ∀ o, decVec 0x29 o = (decV .vcvte o) := fun _ => rfl
  rw [e]
  exact decV_encV .vcvte _

theorem vcvtl (v : VOp) : Statement (.vcvtl v) := by
  intro idle w hw ha he
  rw [encode_word _ _ _ _ _ _ rfl he]
  refine decode_vec _ _ _ _ idle.isLt (by decide) rfl hw ?_
  have e : ∀ o, decVec 0x2A o = (decV .vcvtl o) := fun _ => rfl
  rw [e]
  exact decV_encV .vcvtl _

theorem vrand (v : VOp) : Statement (.vrand v) := by
  intro idle w hw ha he
  rw [encode_word _ _ _ _ _ _ rfl he]
  refine decode_vec _ _ _ _ idle.isLt (by decide) rfl hw ?_
  have e : ∀ o, decVec 0x2C o = (decV .vrand o) := fun _ => rfl
  rw [e]
  exact decV_encV .vrand _

theorem vexp (v : VOp) : Statement (.vexp v) := by
  intro idle w hw ha he
  rw [encode_word _ _ _ _ _ _ rfl he]
  refine decode_vec _ _ _ _ idle.isLt (by decide) rfl hw ?_
  have e : ∀ o, decVec 0x30 o = (decV .vexp o) := fun _ => rfl
  rw [e]
  exact decV_encV .vexp _

theorem vlog (v : VOp) : Statement (.vlog v) := by
  intro idle w hw ha he
  rw [encode_word _ _ _ _ _ _ rfl he]
  refine decode_vec _ _ _ _ idle.isLt (by decide) rfl hw ?_
  have e : ∀ o, decVec 0x31 o = (decV .vlog o) := fun _ => rfl
  rw [e]
  exact decV_encV .vlog _

theorem vrcp (v : VOp) : Statement (.vrcp v) := by
  intro idle w hw ha he
  rw [encode_word _ _ _ _ _ _ rfl he]
  refine decode_vec _ _ _ _ idle.isLt (by decide) rfl hw ?_
  have e : ∀ o, decVec 0x32 o = (decV .vrcp o) := fun _ => rfl
  rw [e]
  exact decV_encV .vrcp _

theorem vrsqrt (v : VOp) : Statement (.vrsqrt v) := by
  intro idle w hw ha he
  rw [encode_word _ _ _ _ _ _ rfl he]
  refine decode_vec _ _ _ _ idle.isLt (by decide) rfl hw ?_
  have e : ∀ o, decVec 0x33 o = (decV .vrsqrt o) := fun _ => rfl
  rw [e]
  exact decV_encV .vrsqrt _

theorem vtanh (v : VOp) : Statement (.vtanh v) := by
  intro idle w hw ha he
  rw [encode_word _ _ _ _ _ _ rfl he]
  refine decode_vec _ _ _ _ idle.isLt (by decide) rfl hw ?_
  have e : ∀ o, decVec 0x34 o = (decV .vtanh o) := fun _ => rfl
  rw [e]
  exact decV_encV .vtanh _

theorem vgelu (v : VOp) : Statement (.vgelu v) := by
  intro idle w hw ha he
  rw [encode_word _ _ _ _ _ _ rfl he]
  refine decode_vec _ _ _ _ idle.isLt (by decide) rfl hw ?_
  have e : ∀ o, decVec 0x35 o = (decV .vgelu o) := fun _ => rfl
  rw [e]
  exact decV_encV .vgelu _

theorem vdiv (v : VOp) : Statement (.vdiv v) := by
  intro idle w hw ha he
  rw [encode_word _ _ _ _ _ _ rfl he]
  refine decode_vec _ _ _ _ idle.isLt (by decide) rfl hw ?_
  have e : ∀ o, decVec 0x38 o = (decV .vdiv o) := fun _ => rfl
  rw [e]
  exact decV_encV .vdiv _

theorem vsqrt (v : VOp) : Statement (.vsqrt v) := by
  intro idle w hw ha he
  rw [encode_word _ _ _ _ _ _ rfl he]
  refine decode_vec _ _ _ _ idle.isLt (by decide) rfl hw ?_
  have e : ∀ o, decVec 0x39 o = (decV .vsqrt o) := fun _ => rfl
  rw [e]
  exact decV_encV .vsqrt _

theorem vlvl (v : VOp) : Statement (.vlvl v) := by
  intro idle w hw ha he
  rw [encode_word _ _ _ _ _ _ rfl he]
  refine decode_vec _ _ _ _ idle.isLt (by decide) rfl hw ?_
  have e : ∀ o, decVec 0x3A o = (decV .vlvl o) := fun _ => rfl
  rw [e]
  exact decV_encV .vlvl _

theorem vradd (v : VOp) : Statement (.vradd v) := by
  intro idle w hw ha he
  rw [encode_word _ _ _ _ _ _ rfl he]
  refine decode_vec _ _ _ _ idle.isLt (by decide) rfl hw ?_
  have e : ∀ o, decVec 0x40 o = (decV .vradd o) := fun _ => rfl
  rw [e]
  exact decV_encV .vradd _

theorem vrmin (v : VOp) : Statement (.vrmin v) := by
  intro idle w hw ha he
  rw [encode_word _ _ _ _ _ _ rfl he]
  refine decode_vec _ _ _ _ idle.isLt (by decide) rfl hw ?_
  have e : ∀ o, decVec 0x41 o = (decV .vrmin o) := fun _ => rfl
  rw [e]
  exact decV_encV .vrmin _

theorem vrmax (v : VOp) : Statement (.vrmax v) := by
  intro idle w hw ha he
  rw [encode_word _ _ _ _ _ _ rfl he]
  refine decode_vec _ _ _ _ idle.isLt (by decide) rfl hw ?_
  have e : ∀ o, decVec 0x42 o = (decV .vrmax o) := fun _ => rfl
  rw [e]
  exact decV_encV .vrmax _

theorem vscanadd (v : VOp) : Statement (.vscanadd v) := by
  intro idle w hw ha he
  rw [encode_word _ _ _ _ _ _ rfl he]
  refine decode_vec _ _ _ _ idle.isLt (by decide) rfl hw ?_
  have e : ∀ o, decVec 0x44 o = (decV .vscanadd o) := fun _ => rfl
  rw [e]
  exact decV_encV .vscanadd _

theorem vscanmax (v : VOp) : Statement (.vscanmax v) := by
  intro idle w hw ha he
  rw [encode_word _ _ _ _ _ _ rfl he]
  refine decode_vec _ _ _ _ idle.isLt (by decide) rfl hw ?_
  have e : ∀ o, decVec 0x45 o = (decV .vscanmax o) := fun _ => rfl
  rw [e]
  exact decV_encV .vscanmax _

theorem vperm (v : VOp) : Statement (.vperm v) := by
  intro idle w hw ha he
  rw [encode_word _ _ _ _ _ _ rfl he]
  refine decode_vec _ _ _ _ idle.isLt (by decide) rfl hw ?_
  have e : ∀ o, decVec 0x48 o = (decV .vperm o) := fun _ => rfl
  rw [e]
  exact decV_encV .vperm _

theorem vshuf (v : VOp) : Statement (.vshuf v) := by
  intro idle w hw ha he
  rw [encode_word _ _ _ _ _ _ rfl he]
  refine decode_vec _ _ _ _ idle.isLt (by decide) rfl hw ?_
  have e : ∀ o, decVec 0x49 o = (decV .vshuf o) := fun _ => rfl
  rw [e]
  exact decV_encV .vshuf _

theorem vbcast (v : VOp) : Statement (.vbcast v) := by
  intro idle w hw ha he
  rw [encode_word _ _ _ _ _ _ rfl he]
  refine decode_vec _ _ _ _ idle.isLt (by decide) rfl hw ?_
  have e : ∀ o, decVec 0x4A o = (decV .vbcast o) := fun _ => rfl
  rw [e]
  exact decV_encV .vbcast _

theorem vbcasts (v : VOp) : Statement (.vbcasts v) := by
  intro idle w hw ha he
  rw [encode_word _ _ _ _ _ _ rfl he]
  refine decode_vec _ _ _ _ idle.isLt (by decide) rfl hw ?_
  have e : ∀ o, decVec 0x4B o = (decV .vbcasts o) := fun _ => rfl
  rw [e]
  exact decV_encV .vbcasts _

theorem vrot (v : VOp) : Statement (.vrot v) := by
  intro idle w hw ha he
  rw [encode_word _ _ _ _ _ _ rfl he]
  refine decode_vec _ _ _ _ idle.isLt (by decide) rfl hw ?_
  have e : ∀ o, decVec 0x4C o = (decV .vrot o) := fun _ => rfl
  rw [e]
  exact decV_encV .vrot _

theorem vtopnm (v : VOp) : Statement (.vtopnm v) := by
  intro idle w hw ha he
  rw [encode_word _ _ _ _ _ _ rfl he]
  refine decode_vec _ _ _ _ idle.isLt (by decide) rfl hw ?_
  have e : ∀ o, decVec 0x50 o = (decV .vtopnm o) := fun _ => rfl
  rw [e]
  exact decV_encV .vtopnm _

theorem kand (v : VOp) : Statement (.kand v) := by
  intro idle w hw ha he
  rw [encode_word _ _ _ _ _ _ rfl he]
  refine decode_vec _ _ _ _ idle.isLt (by decide) rfl hw ?_
  have e : ∀ o, decVec 0x58 o = (decV .kand o) := fun _ => rfl
  rw [e]
  exact decV_encV .kand _

theorem kor (v : VOp) : Statement (.kor v) := by
  intro idle w hw ha he
  rw [encode_word _ _ _ _ _ _ rfl he]
  refine decode_vec _ _ _ _ idle.isLt (by decide) rfl hw ?_
  have e : ∀ o, decVec 0x59 o = (decV .kor o) := fun _ => rfl
  rw [e]
  exact decV_encV .kor _

theorem kxor (v : VOp) : Statement (.kxor v) := by
  intro idle w hw ha he
  rw [encode_word _ _ _ _ _ _ rfl he]
  refine decode_vec _ _ _ _ idle.isLt (by decide) rfl hw ?_
  have e : ∀ o, decVec 0x5A o = (decV .kxor o) := fun _ => rfl
  rw [e]
  exact decV_encV .kxor _

theorem kandn (v : VOp) : Statement (.kandn v) := by
  intro idle w hw ha he
  rw [encode_word _ _ _ _ _ _ rfl he]
  refine decode_vec _ _ _ _ idle.isLt (by decide) rfl hw ?_
  have e : ∀ o, decVec 0x5B o = (decV .kandn o) := fun _ => rfl
  rw [e]
  exact decV_encV .kandn _

theorem knot (v : VOp) : Statement (.knot v) := by
  intro idle w hw ha he
  rw [encode_word _ _ _ _ _ _ rfl he]
  refine decode_vec _ _ _ _ idle.isLt (by decide) rfl hw ?_
  have e : ∀ o, decVec 0x5C o = (decV .knot o) := fun _ => rfl
  rw [e]
  exact decV_encV .knot _

theorem kmov (v : VOp) : Statement (.kmov v) := by
  intro idle w hw ha he
  rw [encode_word _ _ _ _ _ _ rfl he]
  refine decode_vec _ _ _ _ idle.isLt (by decide) rfl hw ?_
  have e : ∀ o, decVec 0x5D o = (decV .kmov o) := fun _ => rfl
  rw [e]
  exact decV_encV .kmov _

theorem vecResultComplete (c : CoreId) : Statement (.vecResultComplete c) := event rfl
theorem sliResultComplete (c : CoreId) : Statement (.sliResultComplete c) := event rfl
theorem mzero (h : HOp) : Statement (.mzero h) := by
  intro idle w hw ha he
  rw [encode_word _ _ _ _ _ _ rfl he]
  refine decode_mtx _ _ _ _ idle.isLt (by decide) rfl hw ?_
  have e : ∀ o, decMtx 0x01 o = (decH (fun h x => resv x (.mzero h)) o) := fun _ => rfl
  rw [e]
  have q := unpack_pack [(11, 0)]
  simp only [List.map] at q
  simp [-Fin.ofNat_eq_cast, Except.ok.injEq, decH_encH, q, resv, pack_zero]

theorem mma (h : HOp) (ovw : Bool) : Statement (.mma h ovw) := by
  intro idle w hw ha he
  rw [encode_word _ _ _ _ _ _ rfl he]
  refine decode_mtx _ _ _ _ idle.isLt (by decide) rfl hw ?_
  have e : ∀ o, decMtx 0x02 o = (decH (fun h x => match unpack [10, 1] x with
    | [z, v] => resv z (.mma h (v = 1))
    | _ => .error 3) o) := fun _ => rfl
  rw [e]
  have q := unpack_pack [(10, 0), (1, b2n ovw)]
  simp only [List.map] at q
  simp [-Fin.ofNat_eq_cast, Except.ok.injEq, decH_encH, q, resv, pack_zero]

theorem mmat (h : HOp) (ovw : Bool) : Statement (.mmat h ovw) := by
  intro idle w hw ha he
  rw [encode_word _ _ _ _ _ _ rfl he]
  refine decode_mtx _ _ _ _ idle.isLt (by decide) rfl hw ?_
  have e : ∀ o, decMtx 0x03 o = (decH (fun h x => match unpack [10, 1] x with
    | [z, v] => resv z (.mmat h (v = 1))
    | _ => .error 3) o) := fun _ => rfl
  rw [e]
  have q := unpack_pack [(10, 0), (1, b2n ovw)]
  simp only [List.map] at q
  simp [-Fin.ofNat_eq_cast, Except.ok.injEq, decH_encH, q, resv, pack_zero]

theorem mmas (h : HOp) (ovw dm : Bool) : Statement (.mmas h ovw dm) := by
  intro idle w hw ha he
  rw [encode_word _ _ _ _ _ _ rfl he]
  refine decode_mtx _ _ _ _ idle.isLt (by decide) rfl hw ?_
  have e : ∀ o, decMtx 0x04 o = (decH (fun h x => match unpack [9, 1, 1] x with
    | [z, dm, v] => resv z (.mmas h (v = 1) (dm = 1))
    | _ => .error 3) o) := fun _ => rfl
  rw [e]
  have q := unpack_pack [(9, 0), (1, b2n dm), (1, b2n ovw)]
  simp only [List.map] at q
  simp [-Fin.ofNat_eq_cast, Except.ok.injEq, decH_encH, q, resv, pack_zero]

theorem mdrain (h : HOp) (rm : Fin 16) : Statement (.mdrain h rm) := by
  intro idle w hw ha he
  rw [encode_word _ _ _ _ _ _ rfl he]
  refine decode_mtx _ _ _ _ idle.isLt (by decide) rfl hw ?_
  have e : ∀ o, decMtx 0x05 o = (decH (fun h x => match unpack [7, 4] x with
    | [z, rm] => resv z (.mdrain h (Fin.ofNat 16 rm))
    | _ => .error 3) o) := fun _ => rfl
  rw [e]
  have q := unpack_pack [(7, 0), (4, rm.val)]
  simp only [List.map] at q
  simp [-Fin.ofNat_eq_cast, Except.ok.injEq, decH_encH, q, resv, pack_zero]

theorem mtxCommandComplete (c : CoreId) : Statement (.mtxCommandComplete c) := event rfl
theorem awcfg (w : WOp) (mode : Bool) : Statement (.awcfg w mode) := by
  intro idle w hw ha he
  rw [encode_word _ _ _ _ _ _ rfl he]
  refine decode_aw _ _ _ _ idle.isLt (by decide) rfl hw ?_
  have e : ∀ o, decAw 0x01 o = (decW (fun w x => match unpack [3, 1] x with
    | [z, m] => resv z (.awcfg w (m = 1))
    | _ => .error 3) o) := fun _ => rfl
  rw [e]
  have q := unpack_pack [(3, 0), (1, b2n mode)]
  simp only [List.map] at q
  simp [-Fin.ofNat_eq_cast, decW_encWk, q, resv, pack_zero]

theorem awgo (w : WOp) : Statement (.awgo w) := by
  intro idle w hw ha he
  rw [encode_word _ _ _ _ _ _ rfl he]
  refine decode_aw _ _ _ _ idle.isLt (by decide) rfl hw ?_
  have e : ∀ o, decAw 0x02 o = (decW (fun w x => resv x (.awgo w)) o) := fun _ => rfl
  rw [e]
  have q := unpack_pack [(4, 0)]
  simp only [List.map] at q
  simp [-Fin.ofNat_eq_cast, decW_encWk, q, resv, pack_zero]

theorem awstop (w : WOp) : Statement (.awstop w) := by
  intro idle w hw ha he
  rw [encode_word _ _ _ _ _ _ rfl he]
  refine decode_aw _ _ _ _ idle.isLt (by decide) rfl hw ?_
  have e : ∀ o, decAw 0x03 o = (decW (fun w x => resv x (.awstop w)) o) := fun _ => rfl
  rw [e]
  have q := unpack_pack [(4, 0)]
  simp only [List.map] at q
  simp [-Fin.ofNat_eq_cast, decW_encWk, q, resv, pack_zero]

theorem awgather (w : WOp) (iq : QNo) : Statement (.awgather w iq) := by
  intro idle w hw ha he
  rw [encode_word _ _ _ _ _ _ rfl he]
  refine decode_aw _ _ _ _ idle.isLt (by decide) rfl hw ?_
  have e : ∀ o, decAw 0x04 o = (decW (fun w x => match unpack [1, 3] x with
    | [z, q] => resv z (.awgather w (Fin.ofNat 8 q))
    | _ => .error 3) o) := fun _ => rfl
  rw [e]
  have q := unpack_pack [(1, 0), (3, iq.val)]
  simp only [List.map] at q
  simp [-Fin.ofNat_eq_cast, decW_encWk, q, resv, pack_zero]

theorem awscat (w : WOp) (iq : QNo) : Statement (.awscat w iq) := by
  intro idle w hw ha he
  rw [encode_word _ _ _ _ _ _ rfl he]
  refine decode_aw _ _ _ _ idle.isLt (by decide) rfl hw ?_
  have e : ∀ o, decAw 0x05 o = (decW (fun w x => match unpack [1, 3] x with
    | [z, q] => resv z (.awscat w (Fin.ofNat 8 q))
    | _ => .error 3) o) := fun _ => rfl
  rw [e]
  have q := unpack_pack [(1, 0), (3, iq.val)]
  simp only [List.map] at q
  simp [-Fin.ofNat_eq_cast, decW_encWk, q, resv, pack_zero]

theorem walkerEntry (c : CoreId) (w : WNo) : Statement (.walkerEntry c w) := event rfl
theorem cpy (h : HOp) (delta : Fin 16) (gs : Fin 4) (pr : Bool) (ch : ChNo) : Statement (.cpy h delta gs pr ch) := by
  intro idle w hw ha he
  rw [encode_word _ _ _ _ _ _ rfl he]
  refine decode_cpy _ _ _ _ idle.isLt (by decide) rfl hw ?_
  have e : ∀ o, decCpy 0x01 o = (decH (fun h x => match unpack [1, 4, 2, 1, 1, 2] x with
    | [z, dl, gs, pr, y, ch] => resv (z + y) (.cpy h (Fin.ofNat 16 dl) (Fin.ofNat 4 gs) (pr = 1) (Fin.ofNat 4 ch))
    | _ => .error 3) o) := fun _ => rfl
  rw [e]
  have q := unpack_pack [(1, 0), (4, delta.val), (2, gs.val), (1, b2n pr), (1, 0), (2, ch.val)]
  simp only [List.map] at q
  simp [-Fin.ofNat_eq_cast, Except.ok.injEq, decH_encH, q, resv, pack_zero]

theorem cpyc (h : HOp) (rm : Fin 16) (ch : ChNo) : Statement (.cpyc h rm ch) := by
  intro idle w hw ha he
  rw [encode_word _ _ _ _ _ _ rfl he]
  refine decode_cpy _ _ _ _ idle.isLt (by decide) rfl hw ?_
  have e : ∀ o, decCpy 0x02 o = (decH (fun h x => match unpack [4, 4, 1, 2] x with
    | [z, rm, y, ch] => resv (z + y) (.cpyc h (Fin.ofNat 16 rm) (Fin.ofNat 4 ch))
    | _ => .error 3) o) := fun _ => rfl
  rw [e]
  have q := unpack_pack [(4, 0), (4, rm.val), (1, 0), (2, ch.val)]
  simp only [List.map] at q
  simp [-Fin.ofNat_eq_cast, Except.ok.injEq, decH_encH, q, resv, pack_zero]

theorem cpym (h : HOp) (hx : HReg) (mop : Fin 4) (ovw : Bool) (ch : ChNo) : Statement (.cpym h hx mop ovw ch) := by
  intro idle w hw ha he
  rw [encode_word _ _ _ _ _ _ rfl he]
  refine decode_cpy _ _ _ _ idle.isLt (by decide) rfl hw ?_
  have e : ∀ o, decCpy 0x03 o = (decH (fun h x => match unpack [1, 5, 2, 1, 2] x with
    | [z, hx, mop, v, ch] => resv z (.cpym h (Fin.ofNat 32 hx) (Fin.ofNat 4 mop) (v = 1) (Fin.ofNat 4 ch))
    | _ => .error 3) o) := fun _ => rfl
  rw [e]
  have q := unpack_pack [(1, 0), (5, hx.val), (2, mop.val), (1, b2n ovw), (2, ch.val)]
  simp only [List.map] at q
  simp [-Fin.ofNat_eq_cast, Except.ok.injEq, decH_encH, q, resv, pack_zero]

theorem cpyd (h : HOp) (rm : Fin 16) (repl : Bool) (ch : ChNo) : Statement (.cpyd h rm repl ch) := by
  intro idle w hw ha he
  rw [encode_word _ _ _ _ _ _ rfl he]
  refine decode_cpy _ _ _ _ idle.isLt (by decide) rfl hw ?_
  have e : ∀ o, decCpy 0x04 o = (decH (fun h x => match unpack [4, 4, 1, 2] x with
    | [z, rm, op, ch] => resv z (.cpyd h (Fin.ofNat 16 rm) (op = 1) (Fin.ofNat 4 ch))
    | _ => .error 3) o) := fun _ => rfl
  rw [e]
  have q := unpack_pack [(4, 0), (4, rm.val), (1, b2n repl), (2, ch.val)]
  simp only [List.map] at q
  simp [-Fin.ofNat_eq_cast, Except.ok.injEq, decH_encH, q, resv, pack_zero]

theorem cpyh (h : HOp) (ch : ChNo) : Statement (.cpyh h ch) := by
  intro idle w hw ha he
  rw [encode_word _ _ _ _ _ _ rfl he]
  refine decode_cpy _ _ _ _ idle.isLt (by decide) rfl hw ?_
  have e : ∀ o, decCpy 0x05 o = (decH (fun h x => match unpack [9, 2] x with
    | [z, ch] => resv z (.cpyh h (Fin.ofNat 4 ch))
    | _ => .error 3) o) := fun _ => rfl
  rw [e]
  have q := unpack_pack [(9, 0), (2, ch.val)]
  simp only [List.map] at q
  simp [-Fin.ofNat_eq_cast, Except.ok.injEq, decH_encH, q, resv, pack_zero]

theorem cwp (h : HOp) (trk : Bool) (ch : ChNo) : Statement (.cwp h trk ch) := by
  intro idle w hw ha he
  rw [encode_word _ _ _ _ _ _ rfl he]
  refine decode_cpy _ _ _ _ idle.isLt (by decide) rfl hw ?_
  have e : ∀ o, decCpy 0x06 o = (decH (fun h x => match unpack [8, 1, 2] x with
    | [z, trk, ch] => resv z (.cwp h (trk = 1) (Fin.ofNat 4 ch))
    | _ => .error 3) o) := fun _ => rfl
  rw [e]
  have q := unpack_pack [(8, 0), (1, b2n trk), (2, ch.val)]
  simp only [List.map] at q
  simp [-Fin.ofNat_eq_cast, Except.ok.injEq, decH_encH, q, resv, pack_zero]

theorem granulePerformed (c : CoreId) (ch : ChNo) : Statement (.granulePerformed c ch) := event rfl
theorem hostDmaResume (n : Fin 16) : Statement (.hostDmaResume n) := event rfl
theorem copyComplete (c : CoreId) (ch : ChNo) : Statement (.copyComplete c ch) := event rfl
theorem sadd (o : SOp) : Statement (.sadd o) := by
  intro idle w hw ha he
  rw [encode_word _ _ _ _ _ _ rfl he]
  have ht : o.ty.val ≤ 4 := saeLegal_ty _ _ _ o hw
  refine decode_sae _ _ _ _ idle.isLt (by omega) rfl hw ?_
  have h1 : (1 * 8 + o.ty.val) / 8 = 1 := by omega
  have h2 : (1 * 8 + o.ty.val) % 8 = o.ty.val := by omega
  simp only [decSae, h1, h2, ht, if_true, decS_encS]

theorem smin (o : SOp) : Statement (.smin o) := by
  intro idle w hw ha he
  rw [encode_word _ _ _ _ _ _ rfl he]
  have ht : o.ty.val ≤ 4 := saeLegal_ty _ _ _ o hw
  refine decode_sae _ _ _ _ idle.isLt (by omega) rfl hw ?_
  have h1 : (2 * 8 + o.ty.val) / 8 = 2 := by omega
  have h2 : (2 * 8 + o.ty.val) % 8 = o.ty.val := by omega
  simp only [decSae, h1, h2, ht, if_true, decS_encS]

theorem smax (o : SOp) : Statement (.smax o) := by
  intro idle w hw ha he
  rw [encode_word _ _ _ _ _ _ rfl he]
  have ht : o.ty.val ≤ 4 := saeLegal_ty _ _ _ o hw
  refine decode_sae _ _ _ _ idle.isLt (by omega) rfl hw ?_
  have h1 : (3 * 8 + o.ty.val) / 8 = 3 := by omega
  have h2 : (3 * 8 + o.ty.val) % 8 = o.ty.val := by omega
  simp only [decSae, h1, h2, ht, if_true, decS_encS]

theorem sor (o : SOp) : Statement (.sor o) := by
  intro idle w hw ha he
  rw [encode_word _ _ _ _ _ _ rfl he]
  have ht : o.ty.val ≤ 1 := saeLegal_ty _ _ _ o hw
  refine decode_sae _ _ _ _ idle.isLt (by omega) rfl hw ?_
  have h1 : (4 * 8 + o.ty.val) / 8 = 4 := by omega
  have h2 : (4 * 8 + o.ty.val) % 8 = o.ty.val := by omega
  simp only [decSae, h1, h2, ht, if_true, decS_encS]

theorem sand (o : SOp) : Statement (.sand o) := by
  intro idle w hw ha he
  rw [encode_word _ _ _ _ _ _ rfl he]
  have ht : o.ty.val ≤ 1 := saeLegal_ty _ _ _ o hw
  refine decode_sae _ _ _ _ idle.isLt (by omega) rfl hw ?_
  have h1 : (5 * 8 + o.ty.val) / 8 = 5 := by omega
  have h2 : (5 * 8 + o.ty.val) % 8 = o.ty.val := by omega
  simp only [decSae, h1, h2, ht, if_true, decS_encS]

theorem sxor (o : SOp) : Statement (.sxor o) := by
  intro idle w hw ha he
  rw [encode_word _ _ _ _ _ _ rfl he]
  have ht : o.ty.val ≤ 1 := saeLegal_ty _ _ _ o hw
  refine decode_sae _ _ _ _ idle.isLt (by omega) rfl hw ?_
  have h1 : (6 * 8 + o.ty.val) / 8 = 6 := by omega
  have h2 : (6 * 8 + o.ty.val) % 8 = o.ty.val := by omega
  simp only [decSae, h1, h2, ht, if_true, decS_encS]

theorem sxch (o : SOp) : Statement (.sxch o) := by
  intro idle w hw ha he
  rw [encode_word _ _ _ _ _ _ rfl he]
  have ht : o.ty.val ≤ 4 := saeLegal_ty _ _ _ o hw
  refine decode_sae _ _ _ _ idle.isLt (by omega) rfl hw ?_
  have h1 : (7 * 8 + o.ty.val) / 8 = 7 := by omega
  have h2 : (7 * 8 + o.ty.val) % 8 = o.ty.val := by omega
  simp only [decSae, h1, h2, ht, if_true, decS_encS]

theorem scas (o : SOp) : Statement (.scas o) := by
  intro idle w hw ha he
  rw [encode_word _ _ _ _ _ _ rfl he]
  have ht : o.ty.val ≤ 1 := saeLegal_ty _ _ _ o hw
  refine decode_sae _ _ _ _ idle.isLt (by omega) rfl hw ?_
  have h1 : (8 * 8 + o.ty.val) / 8 = 8 := by omega
  have h2 : (8 * 8 + o.ty.val) % 8 = o.ty.val := by omega
  simp only [decSae, h1, h2, ht, if_true, decS_encS]

theorem sflush (h : HOp) : Statement (.sflush h) := by
  intro idle w hw ha he
  rw [encode_word _ _ _ _ _ _ rfl he]
  refine decode_sae _ _ _ _ idle.isLt (by decide) rfl hw ?_
  have q := unpack_pack [(11, 0)]
  simp only [List.map] at q
  simp [-Fin.ofNat_eq_cast, decSae, decH_encH, q, resv, pack_zero]

theorem saeWordComplete (c : CoreId) : Statement (.saeWordComplete c) := event rfl
theorem fopen (h : HOp) (fn : FurNo) (ln : Fin 64) : Statement (.fopen h fn ln) := by
  intro idle w hw ha he
  rw [encode_word _ _ _ _ _ _ rfl he]
  refine decode_fur _ _ _ _ idle.isLt (by decide) rfl hw ?_
  have e : ∀ o, decFur 0x01 o = (decH (fun h x => match unpack [4, 1, 6] x with
    | [fn, z, ln] => resv z (.fopen h (Fin.ofNat 16 fn) (Fin.ofNat 64 ln))
    | _ => .error 3) o) := fun _ => rfl
  rw [e]
  have q := unpack_pack [(4, fn.val), (1, 0), (6, ln.val)]
  simp only [List.map] at q
  simp [-Fin.ofNat_eq_cast, Except.ok.injEq, decH_encH, q, resv, pack_zero]

theorem fclose (h : HOp) (fn : FurNo) (sv : Bool) : Statement (.fclose h fn sv) := by
  intro idle w hw ha he
  rw [encode_word _ _ _ _ _ _ rfl he]
  refine decode_fur _ _ _ _ idle.isLt (by decide) rfl hw ?_
  have e : ∀ o, decFur 0x02 o = (decH (fun h x => match unpack [4, 6, 1] x with
    | [fn, z, sv] => resv z (.fclose h (Fin.ofNat 16 fn) (sv = 1))
    | _ => .error 3) o) := fun _ => rfl
  rw [e]
  have q := unpack_pack [(4, fn.val), (6, 0), (1, b2n sv)]
  simp only [List.map] at q
  simp [-Fin.ofNat_eq_cast, Except.ok.injEq, decH_encH, q, resv, pack_zero]

theorem ftbl (h : HOp) (tb : Fin 8) : Statement (.ftbl h tb) := by
  intro idle w hw ha he
  rw [encode_word _ _ _ _ _ _ rfl he]
  refine decode_fur _ _ _ _ idle.isLt (by decide) rfl hw ?_
  have e : ∀ o, decFur 0x03 o = (decH (fun h x => match unpack [4, 3, 4] x with
    | [z, tb, y] => resv (z + y) (.ftbl h (Fin.ofNat 8 tb))
    | _ => .error 3) o) := fun _ => rfl
  rw [e]
  have q := unpack_pack [(4, 0), (3, tb.val), (4, 0)]
  simp only [List.map] at q
  simp [-Fin.ofNat_eq_cast, Except.ok.injEq, decH_encH, q, resv, pack_zero]

theorem ftblImageCheck (c : CoreId) : Statement (.ftblImageCheck c) := event rfl
theorem fpush (h : HOp) (fn : FurNo) (tb : Fin 8) : Statement (.fpush h fn tb) := by
  intro idle w hw ha he
  rw [encode_word _ _ _ _ _ _ rfl he]
  refine decode_fur _ _ _ _ idle.isLt (by decide) rfl hw ?_
  have e : ∀ o, decFur 0x04 o = (decH (fun h x => match unpack [4, 3, 4] x with
    | [fn, tb, z] => resv z (.fpush h (Fin.ofNat 16 fn) (Fin.ofNat 8 tb))
    | _ => .error 3) o) := fun _ => rfl
  rw [e]
  have q := unpack_pack [(4, fn.val), (3, tb.val), (4, 0)]
  simp only [List.map] at q
  simp [-Fin.ofNat_eq_cast, Except.ok.injEq, decH_encH, q, resv, pack_zero]

theorem fpop (h : HOp) (fn : FurNo) (et : Bool) : Statement (.fpop h fn et) := by
  intro idle w hw ha he
  rw [encode_word _ _ _ _ _ _ rfl he]
  refine decode_fur _ _ _ _ idle.isLt (by decide) rfl hw ?_
  have e : ∀ o, decFur 0x05 o = (decH (fun h x => match unpack [4, 6, 1] x with
    | [fn, z, et] => resv z (.fpop h (Fin.ofNat 16 fn) (et = 1))
    | _ => .error 3) o) := fun _ => rfl
  rw [e]
  have q := unpack_pack [(4, fn.val), (6, 0), (1, b2n et)]
  simp only [List.map] at q
  simp [-Fin.ofNat_eq_cast, Except.ok.injEq, decH_encH, q, resv, pack_zero]

theorem fmark (h : HOp) (fn : FurNo) (mk : Fin 8) : Statement (.fmark h fn mk) := by
  intro idle w hw ha he
  rw [encode_word _ _ _ _ _ _ rfl he]
  refine decode_fur _ _ _ _ idle.isLt (by decide) rfl hw ?_
  have e : ∀ o, decFur 0x06 o = (decH (fun h x => match unpack [4, 4, 3] x with
    | [fn, z, mk] => resv z (.fmark h (Fin.ofNat 16 fn) (Fin.ofNat 8 mk))
    | _ => .error 3) o) := fun _ => rfl
  rw [e]
  have q := unpack_pack [(4, fn.val), (4, 0), (3, mk.val)]
  simp only [List.map] at q
  simp [-Fin.ofNat_eq_cast, Except.ok.injEq, decH_encH, q, resv, pack_zero]

theorem fdrop (h : HOp) (fn : FurNo) (mk : Fin 8) : Statement (.fdrop h fn mk) := by
  intro idle w hw ha he
  rw [encode_word _ _ _ _ _ _ rfl he]
  refine decode_fur _ _ _ _ idle.isLt (by decide) rfl hw ?_
  have e : ∀ o, decFur 0x07 o = (decH (fun h x => match unpack [4, 4, 3] x with
    | [fn, z, mk] => resv z (.fdrop h (Fin.ofNat 16 fn) (Fin.ofNat 8 mk))
    | _ => .error 3) o) := fun _ => rfl
  rw [e]
  have q := unpack_pack [(4, fn.val), (4, 0), (3, mk.val)]
  simp only [List.map] at q
  simp [-Fin.ofNat_eq_cast, Except.ok.injEq, decH_encH, q, resv, pack_zero]

theorem fsplitSplit (h : HOp) (fn cf : FurNo) : Statement (.fsplitSplit h fn cf) := by
  intro idle w hw ha he
  rw [encode_word _ _ _ _ _ _ rfl he]
  refine decode_fur _ _ _ _ idle.isLt (by decide) rfl hw ?_
  have e : ∀ o, decFur 0x08 o = (decH decFsplit o) := fun _ => rfl
  rw [e]
  have q := unpack_pack [(4, fn.val), (2, 0), (1, 0), (4, cf.val)]
  simp only [List.map] at q
  rw [decH_encH _ _ _ (by rfl)]
  simp [-Fin.ofNat_eq_cast, decFsplit, q, resv]

theorem fsplitTake (h : HOp) (fn cf : FurNo) : Statement (.fsplitTake h fn cf) := by
  intro idle w hw ha he
  rw [encode_word _ _ _ _ _ _ rfl he]
  refine decode_fur _ _ _ _ idle.isLt (by decide) rfl hw ?_
  have e : ∀ o, decFur 0x08 o = (decH decFsplit o) := fun _ => rfl
  rw [e]
  have q := unpack_pack [(4, fn.val), (2, 1), (1, 0), (4, cf.val)]
  simp only [List.map] at q
  rw [decH_encH _ _ _ (by rfl)]
  simp [-Fin.ofNat_eq_cast, decFsplit, q, resv]

theorem fsplitImport (h : HOp) (cf : FurNo) : Statement (.fsplitImport h cf) := by
  intro idle w hw ha he
  rw [encode_word _ _ _ _ _ _ rfl he]
  refine decode_fur _ _ _ _ idle.isLt (by decide) rfl hw ?_
  have e : ∀ o, decFur 0x08 o = (decH decFsplit o) := fun _ => rfl
  rw [e]
  have q := unpack_pack [(4, 0), (2, 2), (1, 0), (4, cf.val)]
  simp only [List.map] at q
  rw [decH_encH _ _ _ (by rfl)]
  simp [-Fin.ofNat_eq_cast, decFsplit, q, resv]

theorem fsplitImportCheck (c : CoreId) : Statement (.fsplitImportCheck c) := event rfl
theorem fjoin (h : HOp) (fn cf : FurNo) : Statement (.fjoin h fn cf) := by
  intro idle w hw ha he
  rw [encode_word _ _ _ _ _ _ rfl he]
  refine decode_fur _ _ _ _ idle.isLt (by decide) rfl hw ?_
  have e : ∀ o, decFur 0x09 o = (decH (fun h x => match unpack [4, 3, 4] x with
    | [fn, z, cf] => resv z (.fjoin h (Fin.ofNat 16 fn) (Fin.ofNat 16 cf))
    | _ => .error 3) o) := fun _ => rfl
  rw [e]
  have q := unpack_pack [(4, fn.val), (3, 0), (4, cf.val)]
  simp only [List.map] at q
  simp [-Fin.ofNat_eq_cast, Except.ok.injEq, decH_encH, q, resv, pack_zero]

theorem fstat (h : HOp) (fn : FurNo) (clr : Bool) : Statement (.fstat h fn clr) := by
  intro idle w hw ha he
  rw [encode_word _ _ _ _ _ _ rfl he]
  refine decode_fur _ _ _ _ idle.isLt (by decide) rfl hw ?_
  have e : ∀ o, decFur 0x0A o = (decH (fun h x => match unpack [4, 6, 1] x with
    | [fn, z, clr] => resv z (.fstat h (Fin.ofNat 16 fn) (clr = 1))
    | _ => .error 3) o) := fun _ => rfl
  rw [e]
  have q := unpack_pack [(4, fn.val), (6, 0), (1, b2n clr)]
  simp only [List.map] at q
  simp [-Fin.ofNat_eq_cast, Except.ok.injEq, decH_encH, q, resv, pack_zero]

theorem furWordComplete (c : CoreId) : Statement (.furWordComplete c) := event rfl
theorem furrowChunkMove (c : CoreId) (fn : FurNo) : Statement (.furrowChunkMove c fn) := event rfl
theorem stopAccept (c : CoreId) (x : CtxId) : Statement (.stopAccept c x) := event rfl
theorem stopRecord (c : CoreId) (x : CtxId) : Statement (.stopRecord c x) := event rfl
theorem bracketForce (c : CoreId) (x : CtxId) : Statement (.bracketForce c x) := event rfl
theorem breakpointFire (b : Fin 16) : Statement (.breakpointFire b) := event rfl
theorem keyMismatch (c : CoreId) (x : CtxId) : Statement (.keyMismatch c x) := event rfl
theorem uncorrectedSoftError (line : Nat) : Statement (.uncorrectedSoftError line) := event rfl
theorem dispatchSelect : Statement (.dispatchSelect) := event rfl
theorem drainingEnd (c : CoreId) (x : CtxId) : Statement (.drainingEnd c x) := event rfl
theorem taskAge : Statement (.taskAge) := event rfl
theorem sliceStart : Statement (.sliceStart) := event rfl
theorem watchedStart (c : CoreId) (x : CtxId) : Statement (.watchedStart c x) := event rfl
theorem collectiveOpComplete (p : PartId) (idx : Nat) : Statement (.collectiveOpComplete p idx) := event rfl
theorem frameReceive (port : Fin 2) (f : Frame) : Statement (.frameReceive port f) := event rfl
theorem darudPacketReceive (n : ConnId) (p : Packet) : Statement (.darudPacketReceive n p) := event rfl
theorem darudAckReceive (n : ConnId) (seq : Nat) : Statement (.darudAckReceive n seq) := event rfl
theorem darudNackReceive (n : ConnId) (seq : Nat) (late : Bool) : Statement (.darudNackReceive n seq late) := event rfl
theorem backoffExpire (n : ConnId) : Statement (.backoffExpire n) := event rfl
theorem retransmitTimeout (n : ConnId) : Statement (.retransmitTimeout n) := event rfl
theorem ackTimer (n : ConnId) : Statement (.ackTimer n) := event rfl
theorem bounceReplay (n : ConnId) : Statement (.bounceReplay n) := event rfl
theorem connectionInvalidate (n : ConnId) : Statement (.connectionInvalidate n) := event rfl
theorem gangStart : Statement (.gangStart) := event rfl
theorem gstatReady : Statement (.gstatReady) := event rfl
theorem gstatAbort : Statement (.gstatAbort) := event rfl
theorem cgrantWrite (c : CoreId) (x : CtxId) (v : Word) : Statement (.cgrantWrite c x v) := event rfl
theorem pfloorWrite (p : PartId) (v : Word) : Statement (.pfloorWrite p v) := event rfl
theorem carbdWrite (v : Word) : Statement (.carbdWrite v) := event rfl
theorem carbpWrite (v : Word) : Statement (.carbpWrite v) := event rfl
theorem create : Statement (.create) := event rfl
theorem reset : Statement (.reset) := event rfl
theorem resetFenceTimeout : Statement (.resetFenceTimeout) := event rfl
theorem checkpoint : Statement (.checkpoint) := event rfl
theorem replay : Statement (.replay) := event rfl
theorem scrub : Statement (.scrub) := event rfl
theorem pcmdComplete : Statement (.pcmdComplete) := event rfl
theorem dselWrite (die : Fin 8) (i : Fin 16) (v : Word) : Statement (.dselWrite die i v) := event rfl
theorem sampleTick : Statement (.sampleTick) := event rfl
theorem windowSummary : Statement (.windowSummary) := event rfl
theorem dbellWrite (p : PartId) (v : Word) : Statement (.dbellWrite p v) := event rfl
theorem hqcfgWrite (q : Fin 64) (v : Word) : Statement (.hqcfgWrite q v) := event rfl
theorem hostLinkError (q : Fin 64) : Statement (.hostLinkError q) := event rfl
theorem atsInvalidation (pasid : Nat) (addr : Nat) : Statement (.atsInvalidation pasid addr) := event rfl
theorem bootwinWrite (v : Word) : Statement (.bootwinWrite v) := event rfl
theorem areqGo : Statement (.areqGo) := event rfl
theorem powerOnReset : Statement (.powerOnReset) := event rfl
theorem thermalThrottle (on : Bool) : Statement (.thermalThrottle on) := event rfl
theorem thermalShutdown : Statement (.thermalShutdown) := event rfl
theorem registerWrite (who : Access) (off : Nat) (v : Word) : Statement (.registerWrite who off v) := event rfl
theorem linkBringUp (port : Fin 2) (full : Bool) : Statement (.linkBringUp port full) := event rfl
theorem hostQueueCommand (q : Fin 64) (h : HostCmd) : Statement (.hostQueueCommand q h) := event rfl
theorem powerStateD3hot : Statement (.powerStateD3hot) := event rfl

end Sys2Proof.Laws.RoundTrip
end

