-- ==== Sys2Proof/Laws/Traps.lean ====
section
/-! SUPPORT. Sys2Proof/Laws/Traps.lean: what raising a synchronous trap does (R76, R260 to R263). -/

set_option Elab.async false

namespace Sys2Proof.Machine

@[simp] theorem Core.setLine_ctxs (k : Core) (b l : Nat) (v : VReg) : (k.setLine b l v).ctxs = k.ctxs := by
  unfold Core.setLine
  split
  · rfl
  · split <;> rfl

@[simp] theorem Core.setLine_grants (k : Core) (b l : Nat) (v : VReg) : (k.setLine b l v).grants = k.grants := by
  unfold Core.setLine
  split
  · rfl
  · split <;> rfl

@[simp] theorem Core.setBufBytes_ctxs (k : Core) (b i : Nat) (bs : List Byte) : (k.setBufBytes b i bs).ctxs = k.ctxs := by
  induction bs generalizing k i with
  | nil => rfl
  | cons v r ih => simp only [Core.setBufBytes, ih, Core.setBufByte, Core.setLine_ctxs]

@[simp] theorem Core.freeSpans_ctxs (k : Core) (fresh : Nat) (l : List (Nat × Nat)) : (k.freeSpans fresh l).ctxs = k.ctxs := by
  unfold Core.freeSpans
  suffices h : ∀ (l : List (Nat × Nat)) (p : Core × Nat), p.1.ctxs = k.ctxs →
      (l.foldl (fun (a : Core × Nat) p =>
        (a.1.setBufBytes 1 p.1 ((List.range p.2).map fun i => Config.free 8 (a.2 + i)), a.2 + p.2)) p).1.ctxs = k.ctxs from h _ _ rfl
  intro l
  induction l with
  | nil => exact fun _ h => h
  | cons a l ih => exact fun p h => ih _ (by rw [Core.setBufBytes_ctxs, h])

@[simp] theorem Core.rollFur_ctxs (k : Core) (f : FCmd) (n : Nat) : (k.rollFur f n).ctxs = k.ctxs := by
  unfold Core.rollFur
  rw [Core.freeSpans_ctxs]

/-- What the rollback of a FUR word leaves of the state (R246): the other contexts, and of its own all but the range checker's list and the
owed word; no byte of memory changes. -/
theorem State.rollFurOf_ctx (s : State) (c : CoreId) (x : CtxId) (f : FCmd) :
    (∃ a o, (s.rollFurOf c x f).ctx c x = { s.ctx c x with accesses := a, owedFur := o }) ∧
    ∀ c' x', ¬(c' = c ∧ x' = x) → (s.rollFurOf c x f).ctx c' x' = s.ctx c' x' := by
  have hc : ∀ c', ((s.modCore c fun k => k.rollFur f s.fresh).skipFresh (spanBytes f.spoil)).ctx c' = s.ctx c' := by
    intro c'
    funext x'
    by_cases h : c' = c
    · subst h; simp [State.ctx, Core.ctx]
    · simp [State.ctx, State.core_modCore_ne _ _ _ _ h]
  unfold State.rollFurOf
  exact ⟨⟨_, _, by rw [State.ctx_modCtx_self, hc]⟩, fun c' x' h => by rw [State.ctx_modCtx_ne _ _ _ _ _ _ h, hc]⟩

/-- What a stop that is accepted leaves of the state (R263): the other contexts, and of its own context all but the phase, the stop, the
wait marks and what the rollback of a FUR word moves; no byte of memory changes. -/
theorem State.beginStop_ctx (s : State) (c : CoreId) (x : CtxId) (traps : List TrapRec) (clamp forced : Bool) (cuts : List (Nat × CutEntry)) :
    ∃ st a o, st.traps = traps ∧ st.at_ = s.cycle ∧
    (s.beginStop c x traps clamp forced cuts).ctx c x =
      { s.ctx c x with phase := .stopping, waitFrom := none, wfeFrom := none, accesses := a, owedFur := o, stop := some st } ∧
    (s.beginStop c x traps clamp forced cuts).cur = s.cur ∧ (s.beginStop c x traps clamp forced cuts).mem = s.mem ∧
    (s.beginStop c x traps clamp forced cuts).hostMem = s.hostMem ∧
    ∀ c' x', ¬(c' = c ∧ x' = x) → (s.beginStop c x traps clamp forced cuts).ctx c' x' = s.ctx c' x' := by
  unfold State.beginStop
  dsimp only
  generalize hr : (if clamp = true then none else s.furOf c x) = r
  cases r with
  | some f =>
    obtain ⟨⟨a, o, h1⟩, h2⟩ := s.rollFurOf_ctx c x f
    refine ⟨_, a, o, ?_, ?_, by rw [State.ctx_modCtx_self, h1], rfl, rfl, rfl, fun c' x' h => by rw [State.ctx_modCtx_ne _ _ _ _ _ _ h, h2 _ _ h]⟩
    · rfl
    · rfl
  | none =>
    refine ⟨_, (s.ctx c x).accesses, (s.ctx c x).owedFur, ?_, ?_, by rw [State.ctx_modCtx_self], rfl, rfl, rfl,
      fun c' x' h => by rw [State.ctx_modCtx_ne _ _ _ _ _ _ h]⟩
    · rfl
    · rfl

/-- A synchronous trap of the running word of a context that runs and is not stopping (R76). -/
theorem trapped_raise (s : State) (h : s.live) (cause code level : Nat) (det : Vector Word 4) :
    Trapped s (s.raise cause code level det) cause code level det := by
  obtain ⟨hp, hn⟩ := h
  have e : s.raise cause code level det = s.beginStop s.cur.core s.cur.ctx
      [{ async := false, cause := cause, code := code, tag := tagNum s.cur.tag, seq := s.curSeq, level := level, park := false,
         det := det, at_ := s.cycle }] false false [] := by
    unfold State.raise State.raiseAt
    dsimp only
    have hn' : (s.ctx s.cur.core s.cur.ctx).stop = none := hn
    have hp' : ((s.ctx s.cur.core s.cur.ctx).phase = .running || (s.ctx s.cur.core s.cur.ctx).phase = .handler) = true := by
      rcases hp with h | h <;> simp only [State.me] at h <;> simp [h]
    rw [hn', if_pos hp']
  rw [e]
  obtain ⟨st, a, o, h1, -, h3, h4, h5, h6, -⟩ := s.beginStop_ctx s.cur.core s.cur.ctx
      [{ async := false, cause := cause, code := code, tag := tagNum s.cur.tag, seq := s.curSeq, level := level, park := false,
         det := det, at_ := s.cycle }] false false []
  have hm : ∀ t : State, t.cur = s.cur → t.ctx s.cur.core s.cur.ctx = t.me := fun t ht => by rw [State.me, ht]
  rw [hm _ h4] at h3
  have hme : s.ctx s.cur.core s.cur.ctx = s.me := rfl
  rw [hme] at h3
  refine ⟨by rw [h3], ⟨st, _, by rw [h3], h1, rfl, rfl, rfl, rfl, rfl, rfl, rfl⟩, ⟨by rw [h3], by rw [h3]⟩, fun r => ?_, fun r => ?_, fun a => ?_⟩
  · simp only [State.rdS, h3, Ctx.rdS]
  · simp only [State.rdH, h3]
  · simp only [State.byte, State.hostByte, h5, h6, and_self]

end Sys2Proof.Machine
end

