-- ==== Sys2Proof/Tests/Slice0.lean ====
section
/-! SUPPORT. Sys2Proof/Tests/Slice0.lean: words written out from the encoding tables of the spec, ill-formed terms that WellFormed refuses,
one step of words of every family, and for each statement a concrete state and operands that meet its hypotheses (witness_<statement>). The
expected values are worked out from the rules named. -/

set_option Elab.async false

set_option maxRecDepth 20000

namespace Sys2Proof.Machine

/-! ### Small states -/

/-- A DRAM handle entry with W, R and TX, 4,096 bytes from guest-virtual 0 (R225). -/
def hDram : HandleEntry := { num := 1, raw := 2 ^ 64 * 4096 + 2 ^ 60 + 2 ^ 59 + 2 ^ 58 + 2 ^ 57 }
/-- An ABUF handle entry with W and R, 512 bytes from line 0 (R225). -/
def hAbuf : HandleEntry := { num := 2, raw := 2 ^ 64 * 512 + 2 * 2 ^ 60 + 2 ^ 59 + 2 ^ 58 }
/-- All of a core granted to partition 1 (R336). -/
def gAll : Grant := { v := true, part := 1, eng := 63, abank := 2 ^ 16 - 1, cbank := 2 ^ 16 - 1, qmask := 255, wmask := 15, fmask := 15 }

/-- Context 0 of core 0 RUNNING at PL 3 with `f` made, all of the core granted to it, and two handles cached. -/
def st (f : Ctx → Ctx) : State :=
  (State.reset.modCore 0 fun k => { k with grants := k.grants.set 0 gAll }).modCtx 0 0 fun k => f { k with handles := [hDram, hAbuf] }
/-- The same with its core changed as well. -/
def stc (g : Core → Core) (f : Ctx → Ctx) : State := (st f).modCore 0 g
/-- Partition 1 ACTIVE. -/
def live1 (s : State) : State := s.modPart 1 fun p => { p with state := 1 }

/-- What `p` says of the next state of a word. -/
def nx (i : Instr) (s : State) (p : State → Bool) : Bool := match exec i s with | .next t => p t | _ => false
/-- What `p` says of the state after one step on a word placed after reset. -/
def placed (i : Instr) (p : State → Bool) : Bool :=
  match encode 0 i with
  | none => false
  | some w => match step (State.reset.withFetchWord 64 w.toNat) with | .next t => p t | _ => false
/-- The word raised cause `n`. -/
def raised? (n : Nat) (t : State) : Bool := match t.me.stop with | some q => q.traps.map (fun r => r.cause) = [n] | none => false

/-- The decoder reads the instruction from the word. -/
def reads (w : Word) (i : Instr) : Bool := match decodeWord w with | .ok j => i = j | .error _ => false
/-- The decoder refuses the word with the subcode. -/
def refuses (w : Word) (n : Nat) : Bool := match decodeWord w with | .ok _ => false | .error m => m = n

/-- The answer is the value. -/
def okIs {ε α : Type} [DecidableEq α] (r : Except ε α) (v : α) : Bool := match r with | .ok a => a = v | .error _ => false

/-! ### Words from the encoding tables (R58 to R75) -/

theorem test_decode_ctl : reads 0x0008C0643FFFFFFB#64 (.addi 3 4 (BitVec.ofInt 30 (-5))) = true ∧ wordIdle 0x0008C0643FFFFFFB#64 = 2 := by decide
theorem test_decode_xcmd : reads 0x0000200800000000#64 .tend = true := by decide
theorem test_decode_vec : reads 0x1000201083010000#64 (.vadd ⟨1, 2, 3, 0, 0x10, 0, 0, 0⟩) = true := by decide
theorem test_decode_mtx : reads 0x2000082218920001#64 (.mma ⟨1, 2, 3, 0, true, 9, false, 0⟩ true) = true := by decide
theorem test_decode_aw : reads 0x30000B0500000640#64 (.awgo ⟨3, 0, 5, 0, false, 0, 0, 100⟩) = true := by decide
theorem test_decode_cpy : reads 0x4000042200000003#64 (.cpy ⟨1, 2, 0, 0, false, 0, false, 0⟩ 0 0 false 3) = true := by decide
theorem test_decode_sae : reads 0x5000202000000260#64 (.sadd ⟨⟨1, 0, 0, 0, false, 0, false, 0⟩, 0, 2, 3, 0, false⟩) = true := by decide
theorem test_decode_fur : reads 0x600004010000039F#64 (.fopen ⟨0, 1, 0, 0, false, 0, false, 0⟩ 7 31) = true := by decide
theorem test_decode_all : reads 0xF000053900000000#64 (.loop 1 7 1 false) = true := by decide
theorem test_decode_reserved_tag : refuses 0x7000000000000000#64 1 = true ∧ refuses 0xE000000000000000#64 1 = true := by decide
theorem test_placed_addi : placed (.addi 1 0 5) (fun t => (t.ctx 0 0).rdS 1 == 5) = true := by decide
theorem test_placed_loop : placed (.loop 0 0 0 false) (fun t => (t.ctx 0 0).walk.loops.length == 1) = true := by decide

/-! ### Terms that are no legal words (R75) -/

theorem test_illegal_shift : (Instr.slli 1 2 64).wf = false ∧ (Instr.slli 1 2 63).wf = true := by decide
theorem test_illegal_sync : (Instr.waitf 0 1 0 0 0).wf = false ∧ (Instr.waitf 0 0 0 3 0).wf = false ∧ (Instr.fence 0 1).wf = false := by decide
theorem test_illegal_csr : (Instr.csrr 1 0x3FF).wf = false ∧ (Instr.csrr 1 4).wf = true ∧ (Instr.hdrr 1 0 22).wf = false := by decide
theorem test_illegal_vec : (Instr.vadd ⟨1, 2, 3, 0, 0x3F, 0, 0, 0⟩).wf = false ∧ (Instr.vadd ⟨1, 2, 3, 1, 0x10, 0, 0, 0⟩).wf = false := by decide
theorem test_illegal_mtx : (Instr.mzero ⟨1, 2, 0, 0, false, 0, false, 0⟩).wf = false ∧ (Instr.mdrain ⟨1, 2, 0, 0, false, 0, false, 0⟩ 15).wf = false := by decide
theorem test_illegal_aw : (Instr.awcfg ⟨0, 1, 0, 0, false, 0, 0, 1⟩ false).wf = false ∧ (Instr.awgo ⟨0, 0, 0, 0, false, 0, 0, 0⟩).wf = false ∧
    (Instr.awgather ⟨0, 0, 3, 0, false, 0, 0, 1⟩ 3).wf = false := by decide
theorem test_illegal_cpy : (Instr.cpy ⟨1, 2, 0, 0, false, 0, false, 0⟩ 1 0 false 0).wf = false ∧ (Instr.cpym ⟨1, 2, 3, 0, false, 0, false, 0⟩ 4 3 false 0).wf = false ∧
    (Instr.cwp ⟨0, 0, 0, 0, false, 0, false, 0⟩ false 0).wf = false := by decide
theorem test_illegal_sae : (Instr.sadd ⟨⟨1, 0, 0, 0, false, 0, false, 0⟩, 0, 2, 3, 1, false⟩).wf = false := by decide
theorem test_illegal_fur : (Instr.fopen ⟨1, 1, 0, 0, false, 0, false, 0⟩ 7 31).wf = false ∧ (Instr.fclose ⟨1, 0, 0, 0, false, 0, false, 0⟩ 7 false).wf = false := by decide

/-! ### Witnesses: the control core -/

theorem witness_EncodedWordsDecode : (Instr.addi 3 4 7).wf = true ∧ (Instr.addi 3 4 7).owner ≠ some .all ∧ (Instr.loop 1 7 1 false).owner = some .all ∧
    encode 2 (.addi 3 4 7) = some 0x0008C06400000007#64 := by decide
theorem witness_DecodedWordsEncode : reads 0x0008C06400000007#64 (.addi 3 4 7) = true := by decide
theorem witness_SpecWordsDecode : 7 ≤ wordTag 0x7000000000000000#64 ∧ wordTag 0x7000000000000000#64 ≤ 14 := by decide
theorem witness_ScalarResults : (63 : BitVec 30).toNat < 64 ∧ (1 : SReg) ≠ 0 := by decide
theorem test_add_wraps : nx (.add 3 1 2) (st fun k => (k.wrS 1 (BitVec.allOnes 64)).wrS 2 2) (fun t => t.rdS 3 == 1) = true := by decide
theorem test_mulh_signed : nx (.mulh 1 1 2) (st fun k => (k.wrS 1 (-1)).wrS 2 5) (fun t => t.rdS 1 == BitVec.allOnes 64) = true := by decide
theorem test_lih_keeps : nx (.lih 1 7) (st fun k => k.wrS 1 0x1122334455667788#64) (fun t => t.rdS 1 == 0x0000000755667788#64) = true := by decide
theorem witness_DivideResultsAndTraps : (st fun k => k.wrS 2 3).rdS 2 ≠ 0 ∧ (st id).rdS 2 = 0 ∧ (st id).live := by decide
theorem test_div_min : nx (.div 3 1 2) (st fun k => (k.wrS 1 0x8000000000000000#64).wrS 2 (-1)) (fun t => t.rdS 3 == 0x8000000000000000#64) = true := by decide
theorem test_div_zero : nx (.div 3 1 2) (st id) (raised? 3) = true := by decide
theorem witness_BranchesAndJumps : (st id).me.fork = none ∧
    (let s := st fun k => { k.wrS 1 5 with fork := some 1 }
     s.me.fork.isSome = true ∧ s.live ∧ (s.rdS 0).toInt < (s.rdS 1).toInt ∧ (s.rdS 0).toNat < (s.rdS 1).toNat ∧ s.rdS 2 = s.rdS 3) := by decide
theorem test_beq_taken : nx (.beq 1 2 2) (st id) (fun t => t.me.walk.pc == 16) = true := by decide
theorem test_jalr_same : nx (.jalr 1 1 8) (st fun k => k.wrS 1 64) (fun t => t.rdS 1 == 8 && t.me.walk.pc == 72) = true := by decide
theorem witness_CsrReads : csrAssigned 0x41 = true ∧ (csrLevels 0x41).1 ≤ (st id).me.pl ∧ csrAssigned 4 = true ∧ (csrLevels 4).1 ≤ (st id).me.pl := by decide
theorem witness_CsrWrites : csrHolds (st id).me (0x10 : BitVec 30).toNat = some 256 ∧ csrHolds (st id).me (0x19 : BitVec 30).toNat = some 0 := by decide
theorem test_csrw_slipwin : nx (.csrw 1 0x10) (st fun k => k.wrS 1 0x1FFF) (fun t => t.me.slipwin == 4096) = true := by decide
theorem witness_CsrProtection : (let s := st fun k => { k with pl := 0 }
     s.live ∧ csrAssigned 0x41 = true ∧ s.me.pl < (csrLevels 0x41).1 ∧ (csrLevels 0x43).2 = some 1 ∧ s.me.pl < 1) ∧
    csrAssigned 1 = true ∧ (csrLevels 1).2 = none := by decide
theorem witness_HeaderFields : (4 : Fin 32).val < 22 ∧ hdrFits 4 ((st id).rdS 1) = true ∧ (st id).live ∧
    hdrFits 4 ((st fun k => k.wrS 1 (BitVec.allOnes 64)).rdS 1) = false := by decide

/-! ### Witnesses: loads and stores -/

/-- s1 holds the address of byte 64 of handle 1. -/
def sLoad : State := st fun k => k.wrS 1 (BitVec.ofNat 64 (2 ^ 48 + 64))
/-- s1 holds the address of byte 64 of handle 2, an ABUF handle. -/
def sBuf : State := st fun k => k.wrS 1 (BitVec.ofNat 64 (2 * 2 ^ 48 + 64))

theorem witness_AccessChecksTrap : sLoad.live ∧ (haddrO (sLoad.rdS 1).toNat : Int) + (BitVec.ofInt 30 (-72)).toInt < 0 ∧
    ((haddrO (sLoad.rdS 1).toNat : Int) + (1 : BitVec 30).toInt) % 8 ≠ 0 ∧ haddrH ((st id).rdS 1).toNat = 0 ∧ 4096 ≤ haddrH 0x1000000000000000 ∧
    (sLoad.handle 0 0 1).1 = .bound { len := 4096, kind := 1, w := true, rd := true, tx := true, hq := 0, base := 0 } ∧
    (4096 : Int) < 64 + (4032 : BitVec 30).toInt + 8 := by decide
theorem witness_LoadsWriteOrPend_hit : (let s := sLoad.modCore 0 fun k => { k with dcache := [1] }
     (s.target (s.rdS 1) 0 8 false).1 = .dram 64 0 64 none ∧
     ∀ q ∈ accessParts 64 8 none, (s.target (s.rdS 1) 0 8 false).2.myCore.dHit q.2.1 = true ∧
       (s.target (s.rdS 1) 0 8 false).2.myCore.dHit (q.2.1 + q.2.2 - 1) = true) := by decide
theorem witness_LoadsWriteOrPend_miss : (sLoad.target (sLoad.rdS 1) 0 8 false).1 = .dram 64 0 64 none ∧
    (sLoad.target (sLoad.rdS 1) 0 8 false).2.myCore.dHit 64 = false ∧ (sBuf.target (sBuf.rdS 1) 0 8 false).1 = .buf 1 64 := by decide
/-- A load of byte 64 into s3 in flight, and a posted store to it. -/
def ldOf (buf : Nat) : PendLoad :=
  { due := 0, dst := 3, size := 8, signed := true, buf := buf, addr := 64, key := 0, haddr := 2 ^ 48 + 64, va := 64, order := 5, acc := 0 }
def stOf (buf : Nat) : PendStore :=
  { due := 0, bytes := leBytes 8 0x0102030405060708, buf := buf, addr := 64, key := 0, haddr := 2 ^ 48 + 64, va := 64, order := 4, rel := false, acc := 0 }
theorem witness_LoadReturnWrites : (let s := st fun k => { k with loads := [ldOf 0] }
     (s.ctx 0 0).loads = [ldOf 0] ∧ (s.ctx 0 0).stores = [] ∧ s.plainParts (ldOf 0).addr (ldOf 0).key (ldOf 0).size (ldOf 0).more) ∧ (ldOf 0).size ∈ [1, 2, 4, 8] ∧
    (let s := st fun k => { k with loads := [ldOf 1], stores := [stOf 1] }
     (s.ctx 0 0).loads = [ldOf 1] ∧ (s.ctx 0 0).stores = [stOf 1] ∧ (ldOf 1).more = none ∧ (stOf 1).more = none) ∧ (stOf 1).bytes.length = (ldOf 1).size ∧ (stOf 1).order < (ldOf 1).order := by
  unfold State.plainParts; decide
theorem test_load_sees_store : nx (.ctlLoadReturn 0 0) (st fun k => { k with loads := [ldOf 0], stores := [stOf 0] })
    (fun t => (t.ctx 0 0).rdS 3 == 0x0102030405060708#64) = true := by decide
theorem witness_StoresPostAndPerform : (sLoad.target (sLoad.rdS 1) 0 4 true).1 = .dram 64 0 64 none ∧ (sBuf.target (sBuf.rdS 1) 0 4 true).1 = .buf 1 64 ∧
    (let s := st fun k => { k with stores := [stOf 0] }
     (s.ctx 0 0).stores = [stOf 0] ∧ (stOf 0).bytes ≠ [] ∧ (stOf 0).more = none ∧ ∀ i, i < 8 → s.lineKey (64 + i) = (stOf 0).key) ∧
    ({ (st id) with keys := [(1, 5)] } : State).lineKey 64 ≠ (stOf 0).key := by decide
theorem test_store_performs : nx (.ctlStorePerform 0 0) (st fun k => { k with stores := [stOf 0] })
    (fun t => t.byte 64 == 8 && t.byte 71 == 1 && t.byte 72 == 0) = true := by decide
theorem witness_FormatBlockAccess : (let s := st fun k => (k.wrS 1 (BitVec.ofNat 64 (4095 * 2 ^ 48 + 8))).wrS 2 0x10
     (s.target (s.rdS 1) 0 8 false).1 = .fmtBlock 8 ∧ (s.target (s.rdS 1) 0 8 true).1 = .fmtBlock 8 ∧ fmtRegOk 1 (s.rdS 2).toNat = true ∧ s.live ∧ s.me.stores = [] ∧ s.me.loads = []) ∧
    (let s := st fun k => { k.wrS 1 (BitVec.ofNat 64 (4095 * 2 ^ 48 + 8)) with stores := [stOf 0] }
     (s.target (s.rdS 1) 0 8 false).1 = .fmtBlock 8 ∧ (s.target (s.rdS 1) 0 8 true).1 = .fmtBlock 8 ∧ s.me.stores ≠ []) ∧
    fmtRegOk 1 (BitVec.allOnes 64).toNat = false := by decide

/-! ### Witnesses: flags, phases and events -/

theorem witness_SetfReleases : (st id).releaseReady 2 = true ∧ (st id).myGrant.hasFlag 5 = true ∧ (st id).myGrant.hasFlag 60 = false ∧ (st id).live ∧
    (st fun k => { k with stores := [stOf 0] }).releaseReady 2 = false := by decide
theorem witness_SetfReleases_order : ∃ (k : Core) (u w : FlagUpd), u.flag = w.flag ∧ u.key < w.key ∧ w.key ≤ 6 ∧ u.at_ ≤ 3 ∧ w.at_ ≤ 3 ∧ k.upds = [w, u] :=
  ⟨{ Core.reset with upds := [{ at_ := 1, key := 4, flag := 2, add := true, val := 1, setter := 4, score := 0, ctx := 0 },
      { at_ := 1, key := 0, flag := 2, add := false, val := 9, setter := 0, score := 0, ctx := 0 }] },
    { at_ := 1, key := 0, flag := 2, add := false, val := 9, setter := 0, score := 0, ctx := 0 },
    { at_ := 1, key := 4, flag := 2, add := true, val := 1, setter := 4, score := 0, ctx := 0 }, by decide⟩
/-- The same in cycle 9. -/
def st9 (f : Ctx → Ctx) : State := { st f with cycle := 9 }
theorem witness_WaitfAcquires : (st9 id).myGrant.hasFlag 5 = true ∧
    ¬(waitMet 0 ((st9 id).flag 5) (((st9 id).rdS 0).setWidth 32) ∧ (st9 id).me.loads = [] ∧ (st9 id).me.loadAt < (st9 id).cycle) ∧
    (waitMet 2 ((st9 id).flag 5) (((st9 id).rdS 1).setWidth 32) ∧ (st9 id).me.loads = [] ∧ (st9 id).me.loadAt < (st9 id).cycle) ∧
    ((st9 id).part (st9 id).myPart).policy = none := by
  unfold waitMet; decide
/-- A fence of CPY's writes for CTL, at word 1, its writes made up to operation 6. -/
def fenceOf : OpenFence := { src := 2, dst := 1, epoch := 0, idx := 1, at_ := 2, op := 6, made := some 6 }
/-- A write to byte 64 by a CPY unit of core 0 that its core sees from cycle 5 on. -/
def cpyWrite : HistEntry :=
  { host := false, addr := 64, old := 0, unit := cpyUnit 0 0 0, cls := 0, at_ := 5, tag := 0, allAt := none, seen := [], ord := [] }
theorem witness_PhasesAndFences : ((st9 id).releaseReady 1 = true ∧ (st9 id).me.loads = [] ∧ (st9 id).me.loadAt < (st9 id).cycle) ∧
    (st9 fun k => { k with stores := [stOf 0] }).releaseReady 1 = false ∧ ¬(st9 fun k => { k with loads := [ldOf 0] }).me.loads = [] ∧
    (let s := st9 fun k => { k with fences := [fenceOf], acqs := [] }
     fenceOf ∈ (s.ctx 0 0).fences ∧ fenceOf.made = some 6 ∧ s.fencePerformed 0 0 fenceOf 6 = true) ∧
    (let s := { st fun k => { k with fences := [fenceOf] } with cycle := 3, hist := [cpyWrite] }
     s.fencePerformed 0 0 fenceOf 6 = false ∧ s.cur.tag = .ctl ∧ fenceOf ∈ s.me.fences ∧ fenceOf.dst.getLsbD 0 = true) ∧
    (let s := st fun k => { k with fences := [fenceOf], epoch := 1 }
     textBefore fenceOf.epoch fenceOf.idx s.me.epoch s.curIdx = true) := by decide
theorem witness_WaitForEvent : (st id).me.evt = false ∧ (st fun k => { k with evt := true }).me.evt = true := by decide


/-! ### Witnesses: fetch and text -/

/-- The word of `i` stands at device-physical 0, where the text of context 0 begins, and its walk is at the start. -/
def sText (i : Instr) : State :=
  { st fun k => { k with text := 1, walk := { k.walk with halted := false }, cursors := k.cursors.set 0 { Cursor.reset with member := true } } with
    mem := ssetBytes [] 0 (leBytes 8 ((encode 0 i).getD 0).toNat) }

theorem witness_FetchDecodesTheWord : (let s := sText (.addi 1 0 5)
    let k := s.ctx 0 0
    k.fork = none ∧ k.walk.loops = [] ∧ k.walk.halted = false ∧ k.stream = [] ∧ (k.cursor .ctl).member = true ∧ (k.cursor .ctl).stopped = false ∧
    (k.cursor .ctl).next = k.walk.idx ∧ k.walk.skip[0] ≤ k.walk.idx ∧ (s.fetchText 0 0 k.walk.pc).1 = .word ((encode 0 (.addi 1 0 5)).getD 0) ∧
    wordOwn ((encode 0 (.addi 1 0 5)).getD 0) = some .ctl ∧ reads ((encode 0 (.addi 1 0 5)).getD 0) (.addi 1 0 5) = true) := by decide
theorem test_fetch : nx (.cursorFetch 0 0 .ctl) (sText (.addi 1 0 5)) (fun t => (t.ctx 0 0).walk.idx ≥ 1 && ((t.ctx 0 0).head .ctl).isSome) = true := by decide

/-- An open loop of the running context, with pass `j` of last pass `e`. -/
def lpOf (j e : Nat) : Loop :=
  { nc := 1, pc := 0, idx := 0, origN := 4, n := 4, s := 1, i := 0, e := e, j := j, p := false, stageOut := 0, sT := 4, iNext := 0, clamped := false }
theorem witness_LoopPasses : (let s := st fun k => { k with walk := { k.walk with halted := false } }
     s.me.entryAt (s.me.cursor s.cur.tag).next = none ∧ s.me.walk.owed = [] ∧ s.me.walk.on = true ∧ s.me.walk.loops = []) ∧
    (let s := st fun k => { k with walk := { k.walk with halted := false, loops := [lpOf 1 3] } }
     s.me.entryAt (s.me.cursor s.cur.tag).next = none ∧ s.me.walk.owed = [] ∧ s.me.walk.on = true ∧ (∃ l ∈ s.me.walk.loops, l.nc = 1) ∧
     s.me.waiting s.cur.tag = [] ∧ s.live ∧ s.me.walk.loops = [lpOf 1 3] ∧ (lpOf 1 3).clamped = false ∧ (lpOf 1 3).j < (lpOf 1 3).e) ∧
    ¬(lpOf 3 3).j < (lpOf 3 3).e := by decide
theorem witness_RendezvousAndStages : (let s := st fun k => { k with fork := some 1 }
     s.me.entryAt (s.me.cursor s.cur.tag).next = none ∧ s.me.fork.isSome = true ∧ s.me.walk.loops = []) ∧
    (let s := st fun k => { k with walk := { k.walk with loops := [lpOf 1 3] } }
     s.me.entryAt (s.me.cursor s.cur.tag).next = none ∧ s.me.walk.loops = [lpOf 1 3] ∧ (0 : Fin 8).val < (lpOf 1 3).s) := by decide
/-- The entry of the word of `i` at the head of the control cursor's queue. -/
def eOf (i : Instr) : SEntry := placedEntry ((encode 0 i).getD 0)
theorem witness_ForkAndJoin : ((st id).me.fork.isSome = false ∧ (1 : BitVec 6) ≠ 0 ∧ (∀ t ∈ engTags, (st id).myGrant.hasEng t = true) ∧
     (st id).me.walk.loops = [] ∧ (st id).me.phase ≠ .handler) ∧
    (st fun k => { k with phase := .handler }).live ∧ (st id).live ∧
    (let s := st fun k => { k with fork := some 1, cursors := k.cursors.set 1 { Cursor.reset with member := true } }
     s.me.fork.isSome = true ∧ s.me.joinHeld = true) ∧
    (st fun k => { k with owedFur := some (eOf .rdv) }).me.owedFur.isSome = true ∧ (st id).me.owedFur = none ∧
    (let s := st fun k => { k with fork := some 1, stream := [eOf .join],
                                   cursors := k.cursors.set 1 { Cursor.reset with member := true, stopped := true } |>.set 0 { Cursor.reset with next := 1 } }
     s.me.fork.isSome = true ∧ s.me.joinHeld = false ∧ s.headWord = some (eOf .join)) := by decide
theorem witness_StepRunsTheHeadWord : (let s := { st fun k => { k with stream := [eOf (.addi 1 0 5)], cursors := k.cursors.set 0 { Cursor.reset with next := 1 } } with
                                                  turn := 34, cycle := 9 }
    let s1 := { s with cur := { core := 0, ctx := 0, tag := .ctl }, turn := 35 }
    s.turn = 1 + 44 * 0 + engSlot .ctl ∧ (s.core 0).quiet = false ∧ s.runs 0 0 = true ∧ (s.ctx 0 0).phase ≠ .stopping ∧ s.ctlHalted 0 .ctl = false ∧
    (s.ctx 0 0).draining = false ∧ (s.core 0).ctlBusy ≤ s.cycle ∧ (0 : CtxId) = Fin.ofNat 4 ((({ s.core 0 with rr := 3 }).rr) + 1) ∧
    (s.ctx 0 0).head .ctl = some (eOf (.addi 1 0 5)) ∧ (eOf (.addi 1 0 5)).ins = some (.addi 1 0 5) ∧ s.idlePast 0 0 .ctl (eOf (.addi 1 0 5)) = true ∧
    s1.held (.addi 1 0 5) = false) := by decide
/-- Context 0 of core 0 EMPTY and nothing to come. -/
def sIdle : State := { (State.reset.modCtx 0 0 fun _ => Ctx.reset) with inputs := [], turn := 1 + 44 * 128 }
theorem witness_StepRunsTheHeadWord_idle : (match sIdle.poll with | .tick t => t.cycle == 1 | _ => false) = true := by decide

/-! ### Witnesses: task and collective words -/

/-- Future 3 of partition 1 in state `n` with waiters. -/
def futOf (n : Nat) (ws : List Nat) : Future := { part := 1, num := 3, state := n, value := 0, waiters := ws }
/-- A task of partition 1 in a phase. -/
def tkOf (ph : TPhase) : Task :=
  { part := 1, num := 2, phase := ph, level := 0, since := 0, order := 0, text := 1, entry := 0, launch := 0, nextDesc := 0, prio := 0, need := 0, waits := 1,
    att := 0, count := 1, nops := 0, gdie := 0, gmask := 0, fut := 0, ops := [], addr := BitVec.ofNat 64 (2 ^ 48 + 128), requeues := 0, members := 1,
    drained := 0, issuer := 0, desc := [] }
def withDisp (fs : List Future) (ts : List Task) (s : State) : State := { s with disp := { s.disp with futs := fs, tasks := ts } }
/-- s1 holds the handle of future 3 of partition 1. -/
def sFut (fs : List Future) (ts : List Task) : State :=
  withDisp fs ts (st fun k => (k.wrS 1 (BitVec.ofNat 64 (2 ^ 32 + 3))).wrS 2 (BitVec.ofNat 64 (2 ^ 48 + 128)))

theorem witness_XcmdWaits : (st fun k => { k with stores := [stOf 0] }).xcmdReady = false ∧ futOk (st id).myPart (BitVec.ofNat 64 (2 ^ 32 + 3)) = true ∧
    (bits ((st id).rdS 1).toNat 32 4 ≠ (st id).myPart ∧ (st id).live) ∧
    (((st fun k => { k with replies := [⟨0, 3, 7⟩] }).ctx 0 0).replies = [⟨0, 3, 7⟩]) := by decide
theorem test_xcmd_reply : nx (.xcmdReply 0 0) (st fun k => { k with replies := [⟨0, 3, 7⟩] }) (fun t => (t.ctx 0 0).rdS 3 == 7 && (t.ctx 0 0).evt) = true := by decide
/-- A descriptor of 64 bytes at byte 128 of handle 1 for partition 1, with entry at the start of handle 1's text (R306). -/
def sDesc : State :=
  { st fun k => k.wrS 2 (BitVec.ofNat 64 (2 ^ 48 + 128)) with
    mem := ssetBytes [] 128 (leBytes 8 (2 ^ 48) ++ leBytes 8 0 ++ leBytes 8 0 ++ leBytes 8 (2 ^ 60) ++ leBytes 8 0) }
theorem witness_TasksSpawnAndEnd : ((st id).me.fork = none ∧ (st id).xcmdReady = true) ∧
    (let s := st fun k => { k with fork := some 1 }
     s.me.fork.isSome = true ∧ s.live) ∧
    (let s := withDisp [] [tkOf .running] (st fun k => { k with task := some 2 })
     s.me.task = some 2 ∧ s.task? s.myPart 2 = some (tkOf .running)) ∧
    (match sDesc.issued.readImage 0 0 (sDesc.rdS 2) 64 64 with
     | (some bs, u) => u.descOk 0 0 1 bs false && decide (u.poolUse 1 < (u.dp 1).pool) && (u.part 1).replay.isNone
     | _ => false) = true ∧
    ((st id).issued.readImage 0 0 ((st id).rdS 2) 64 64).1 = none := by decide
theorem witness_FuturesAllocateAndRead : (st id).xcmdReady = true ∧ (st id).disp.futs.length < ((st id).dp 1).futmax ∧ ((st id).part 1).replay = none ∧
    (let s := (sFut [futOf 0 []] []).modDp 1 fun d => { d with futmax := 1 }
     (s.dp s.myPart).futmax ≤ (s.disp.futs.filter fun f => f.part = s.myPart).length ∧ s.xcmdReady = true ∧ futOk s.myPart (s.rdS 1) = true ∧
       s.fut? s.myPart ((s.rdS 1).toNat % 2 ^ 32) = some (futOf 0 []) ∧ (futOf 0 []).waiters = []) ∧
    (sFut [] []).fut? 1 3 = none ∧ (sFut [futOf 1 [2]] []).fut? 1 3 = some (futOf 1 [2]) := by decide
theorem witness_FuturesResolve : (let s := sFut [futOf 1 [2]] [tkOf .pending]
     s.xcmdReady = true ∧ futOk s.myPart (s.rdS 1) = true ∧ (s.part s.myPart).replay = none ∧ s.fut? s.myPart ((s.rdS 1).toNat % 2 ^ 32) = some (futOf 1 [2]) ∧
     s.task? s.myPart 2 = some (tkOf .pending) ∧ (tkOf .pending).count = 1 ∧ s.pendingAt s.myPart (s.rdS 2) = some (tkOf .pending) ∧
     (tkOf .pending).att < (tkOf .pending).waits) ∧ (sFut [futOf 2 []] []).fut? 1 3 = some (futOf 2 []) ∧ (futOf 2 []).state = 2 ∧ (futOf 1 [2]).state ≠ 2 := by decide
theorem test_fres_readies : nx (.fres 1 0) (sFut [futOf 1 [2]] [tkOf .pending])
    (fun t => (t.task? 1 2).map (fun q => q.phase) == some .ready && (t.fut? 1 3).map (fun f => f.state) == some 2) = true := by decide
/-- s2 holds the address of a descriptor: a remote OR of one word, on connection 5 of partition 1. -/
def sCol (bs : List Byte) : State :=
  { st fun k => (k.wrS 1 (BitVec.ofNat 64 (2 ^ 48 + 64))).wrS 2 (BitVec.ofNat 64 (2 ^ 48 + 128)) with
    mem := ssetBytes [] 128 bs, col := { State.reset.col with conns := [(5, { Conn.reset with v := true, part := 1 })] } }
def colDesc : List Byte := leBytes 8 (4 * 2 ^ 60 + 4 * 2 ^ 48 + 1) ++ leBytes 8 (2 ^ 48 + 256) ++ leBytes 8 5 ++ leBytes 8 0
/-- An operation of partition 1 with index 1 that is done. -/
def opOf (state : Nat) : ColOp :=
  { part := 1, idx := 1, op := 4, fmt := 4, count := 1, bucket := 0, fe := false, flag := 0, size := 0, rank := 0, prev := 0, nxt := 5, core := 0, ctx := 0,
    task := none, watch := none, state := state, err := 0, done := 1, acq := Acq.first, since := 0, sendPos := 0, sendOff := 0, recvPos := 0, recvOff := 0, txop := 0, rxop := 0 }
theorem witness_CollectiveWords : (let s := sCol colDesc
     s.xcmdReady = true ∧ (s.dramHandle 0 0 (s.rdS 2).toNat 32 true false).isSome = true ∧
     (match s.readVa (ctlUnit 0 0) none 0 s.acqNow true (s.rdS 2).toNat (haddrO (s.rdS 2).toNat) 32 with
      | (.ok bs, u) => (let o := colOpOf 0 0 1 (u.issued.nextOpIdx 1) none none { u.issued.acqNow with floors := s.me.acq.floors } bs
          u.issued.descAccept o bs && decide (u.issued.opsOpen < 256) && (u.part 1).replay.isNone)
      | _ => false) = true ∧
     (∃ pa, s.watchWord (s.rdS 1).toNat = some (.ok pa)) ∧ s.me.watches.length < 32 ∧ ∀ q ∈ s.me.watches, q.1 ≠ 64) ∧
    (match (sCol []).readVa (ctlUnit 0 0) none 0 (sCol []).acqNow true (2 ^ 48 + 128) 128 32 with
      | (.ok bs, u) => u.issued.descAccept (colOpOf 0 0 1 (u.issued.nextOpIdx 1) none none { u.issued.acqNow with floors := (sCol []).me.acq.floors } bs) bs == false
      | _ => false) = true := by
  refine ⟨⟨by decide, by decide, by decide, ⟨64, by rfl⟩, by decide, by decide⟩, by decide⟩


/-! ### Witnesses: traps and the control of contexts -/

/-- A cut of the control cursor alone, at byte 16. -/
def cutW : Cut :=
  { ents := Vector.ofFn fun i : Fin 7 => { seq := 0, idx := 2, pc := 16, valid := i.val = 0, took := i.val = 0, loops := [], stage := 0 }
    fork := none, slip := 0, text := 1 }
def trW (cause : Nat) (async park : Bool) (level : Nat) : TrapRec :=
  { async := async, cause := cause, code := 0, tag := 0, seq := 0, level := level, park := park, det := Vector.replicate 4 0, at_ := 0 }
/-- A valid bank of a trap taken at PL 0. -/
def bankW (skip : Bool) : Bank :=
  { Bank.reset with pc := BitVec.ofNat 64 (2 ^ 48 + 16), vec := BitVec.ofNat 64 (2 ^ 48 + 256), valid := true, skip := skip, traps := [trW 5 false false 1], cut := some cutW }
/-- A handler at PL 1. -/
def sHandler (skip : Bool) : State := st fun k => { k with phase := .handler, pl := 1, bank := k.bank.set 0 (bankW skip) }

theorem witness_TrapWordTraps : (let s := st fun k => { k with pl := 0 }
     s.live ∧ s.me.pl < 3 ∧ s.me.bracket = none) ∧ (st id).live ∧ 3 ≤ (st id).me.pl := by decide
theorem test_trap : nx (.trap 9) (st fun k => { k with pl := 0 }) (raised? 5) = true := by decide
theorem witness_EretReturns : ((st fun k => { k with pl := 0 }).me.pl = 0 ∧ (st fun k => { k with pl := 0 }).live) ∧
    (∀ b : Bool, let s := sHandler b
     s.me.pl = 1 ∧ s.me.fork = none ∧ s.me.bracket = none ∧ (s.me.bankAt 1).valid = true ∧ (s.me.bankAt 1).cut = some cutW ∧
     (∀ r ∈ (s.me.bankAt 1).traps, r.cause ≠ 0x15) ∧ s.me.task = none ∧ cutW.fork = none ∧ (∀ i : Fin 7, i.val ≠ 0 → (cutW.ents.get i).valid = false) ∧
     cutW.ents[0].valid = true ∧ cutW.ents[0].loops = [] ∧ (s.me.bankAt 1).skip = b ∧ (s.me.bankAt 1).traps = [trW 5 false false 1]) := by decide
theorem test_eret : nx .eret (sHandler false) (fun t => t.me.pl == 0 && t.me.walk.pc == 16 && t.me.text == 1) = true := by decide
theorem test_eret_skip : nx .eret (sHandler true) (fun t => (t.me.cursor .ctl).next == 3) = true := by decide
/-- A pre-emption to level 2 pending at PL 0. -/
def sAcc : State := st fun k => { k with pl := 0, pending := [trW 0x10 true true 2] }
/-- A context that has stopped for `ts`, drained. -/
def sRec (ts : List TrapRec) (ps : List TrapRec) : State :=
  { st fun k => { k with pl := 0, phase := .stopping, bank := k.bank.set 0 { Bank.reset with vec := BitVec.ofNat 64 (2 ^ 48 + 256) }, pending := ps,
                         stop := some { at_ := 0, traps := ts, clamp := false, forced := false, fromHandler := false, cuts := [] } } with cycle := 9 }
theorem witness_StopsAreTaken : sAcc.acceptDue 0 0 = true ∧ (sAcc.ctx 0 0).walk.loops = [] ∧
    (let s := sAcc.modCtx 0 0 fun k => { k with walk := { k.walk with halted := false, loops := [{ lpOf 1 3 with p := true }] } }
     s.acceptDue 0 0 = true ∧ (s.ctx 0 0).walk.loops = [] ++ [{ lpOf 1 3 with p := true }] ∧ (s.ctx 0 0).walk.halted = false) ∧
    (let s := sRec [trW 5 false false 1] []
     s.recordDue 0 0 = true ∧ (∀ y, (s.ctx 0 y).bracket = none) ∧ (s.part (s.partOf 0 0)).policy = none ∧ (s.ctx 0 0).pending = [] ∧
     Nat.min 3 (Nat.max 1 ((s.ctx 0 0).pl + 1)) < 3 ∧ s.vecOk 0 0 1 = true) ∧
    (∀ ch : ChNo, ((sRec [trW 5 false false 1] []).core 0).copyHead ch = none) ∧
    (let s := sRec [] [trW 0x10 true true 2]
     s.recordDue 0 0 = true ∧ (s.ctx 0 0).pending = [trW 0x10 true true 2] ∧ (s.ctx 0 0).pl < 2) := by decide
theorem test_stop_record : nx (.stopRecord 0 0) (sRec [trW 5 false false 1] [])
    (fun t => (t.ctx 0 0).phase == .handler && (t.ctx 0 0).pl == 1 && (t.ctx 0 0).walk.pc == 256) = true := by decide +kernel
/-- Context 1 of the same partition in a phase, and the issuer at PL 2. -/
def sTwo (ph : Phase) : State :=
  ((st fun k => { k with pl := 2 }).modCore 0 fun k => { k with grants := k.grants.set 1 { gAll with fmask := 0 } }).modCtx 0 1
    fun k => { k with phase := ph, held := 1, bank := k.bank.set 0 (bankW false) }
theorem witness_ContextsAreControlled : (sTwo .running).sctlReady 1 ∧ (1 : CtxId) ≠ (sTwo .running).cur.ctx ∧ (sTwo .running).mayAct 1 = true ∧
    ((sTwo .running).ctx 0 1).phase = .running ∧ (sTwo .parked).sctlReady 1 ∧ (sTwo .parked).mayAct 1 = true ∧ ((sTwo .parked).ctx 0 1).phase = .parked ∧
    (let b := ((sTwo .parked).ctx 0 1).bankAt (Nat.max 1 ((sTwo .parked).ctx 0 1).held)
     b.cut.isSome = true ∧ (∀ r ∈ b.traps, r.cause ≠ 0x15) ∧ ((sTwo .parked).ctx 0 1).task = none) :=
  ⟨⟨by decide, by decide, by decide, by decide, by decide⟩, by decide, by decide, by decide, ⟨by decide, by decide, by decide, by decide, by decide⟩,
    by decide, by decide, by decide⟩
theorem test_resume : nx (.resume 1) (sTwo .parked) (fun t => (t.ctx 0 1).phase == .running && (t.ctx 0 1).pl == 0) = true := by decide
/-- What BOPEN keeps, of a context at PL 2. -/
def snapW : Snap :=
  { s := Vector.replicate 32 0, h := Vector.replicate 32 0, n := Vector.replicate 4 0, evt := false, slipwin := 1, vstat := 0, vrkey := 0, vrctr := 0, mstat := 0,
    cstat := 0, sstat := 0, saecfg := 0, clstat := 0, clidx := 0, obsring := 0, obsEn := false, obsLsz := 12, obsTail := 0, obsHead := 0, htbase := 0, s1root := 0,
    s2root := 0, cntsel := Vector.replicate 8 0, cnt := Vector.replicate 8 0, cntCode := Vector.replicate 8 false,
    cntWin := Vector.replicate 8 (Vector.replicate 3 0), vregs := Vector.replicate 56 0, kregs := Vector.replicate 16 0,
    bank := Vector.replicate 3 Bank.reset, pl := 2, cut := some cutW, wfeto := false, walk := Walk.reset, images := [] }
def sBracket (ds : List Deferred) : State := (sTwo .parked).modCtx 0 0 fun k => { k with bracket := some snapW, deferred := ds }
/-- A stop, drained, of a bracket that is forced. -/
def stopW (forced : Bool) : Stop := { at_ := 0, traps := [], clamp := false, forced := forced, fromHandler := false, cuts := [] }
def sForced : State := { (sBracket []).modCtx 0 0 fun k => { k with phase := .stopping, stop := some (stopW true) } with cycle := 9 }
theorem witness_BracketsDefer : ((sTwo .parked).me.fork = none ∧ 1 ≤ (sTwo .parked).me.pl ∧ (sTwo .parked).me.bracket = none) ∧
    (let s := sBracket []
     s.me.fork = none ∧ 1 ≤ s.me.pl ∧ s.me.bracket = some snapW ∧ (1 : CtxId) ≠ s.cur.ctx ∧ s.me.preempting.contains 1 = false ∧ s.me.stores = [] ∧
     s.afterDeferred.effectOk (.doorbell 7 1) = true ∧ s.afterDeferred.effectOk (.resume 1) = true ∧ s.me.deferred = []) ∧
    (sBracket [.doorbell 7 1]).me.deferred = [.doorbell 7 1] ∧ (sBracket [.doorbell 7 1]).mayAct 1 = true ∧ (sBracket [.doorbell 7 1]).me.stop = none ∧
    (let s := sForced
     s.me.fork = none ∧ 1 ≤ s.me.pl ∧ s.me.bracket.isSome = true ∧ s.me.stop = some (stopW true)) := by decide
theorem test_bclose : nx (.bclose 0) (sBracket [.doorbell 7 1]) (fun t => t.me.bracket.isNone && (t.ctx 0 1).pending.map (fun r => r.code) == [7]) = true := by decide
/-- A handle of 2^20 bytes for context images. -/
def sSave : State := (sTwo .parked).modCtx 0 0 fun k => { k.wrS 1 (BitVec.ofNat 64 (3 * 2 ^ 48)) with
  handles := [{ num := 3, raw := 2 ^ 64 * 2 ^ 20 + 2 ^ 60 + 2 ^ 59 + 2 ^ 58 }] }
theorem witness_ImagesAreSavedAndLoaded : sSave.savable 1 = true ∧ sSave.counterHidden 0 1 = true ∧ (sSave.imageHandle (sSave.rdS 1) true).isSome = true ∧
    (sSave.probeVa (ctlUnit 0 0) none (3 * 2 ^ 48) 0 0x1C000 .wr).1 = none ∧ (sSave.furFlushAll 0 1).1 = none := by decide
theorem witness_TranslationsAreInvalidated : (st id).me.fork = none ∧ 2 ≤ (st id).me.pl ∧ ((st id).rdS 2).toNat ≤ 15 ∧
    (let s := st fun k => { k with pl := 0 }
     s.me.pl < 1 ∧ s.live) := by decide
theorem witness_AsynchronousCauses : (let s := stc (fun k => { k with keyFaults := [(0, Vector.replicate 4 0)] }) id
     (s.core 0).keyFaults.find? (fun p => p.1 = 0) = some (0, Vector.replicate 4 0)) ∧ (5 : Nat).testBit 63 = false ∧
    ((st id).grant 0 0).hasBank 1 (512 / 512) = true ∧
    (let s := { st fun k => { k with task := some 2, stream := [eOf (.addi 1 0 5)], cursors := k.cursors.set 0 { Cursor.reset with next := 1 } } with
                obs := { State.reset.obs with bkpt := State.reset.obs.bkpt.set 0 { name := 0, en := true, hit := false, part := 1, task := 0 } } }
     s.breaks s.obs.bkpt[0] = true) ∧
    ((sBracket []).ctx 0 0).bracket = some snapW ∧ snapW.images = [] ∧ snapW.cut.isSome = true ∧
    (let s := { (sBracket []).modCtx 0 0 fun k => { k with bracketWait := some 1 } with cycle := 17001 }
     s.forceDue 0 0 = true) ∧
    (sForced.recordDue 0 0 = true ∧ (sForced.ctx 0 0).stop = some (stopW true) ∧ (sForced.ctx 0 0).pending = [] ∧
     (∀ ch, (sForced.core 0).copyHead ch = none) ∧ (sForced.part (sForced.partOf 0 0)).policy = none) ∧
    (let s := stc (fun k => { k with bad := [(1, 3)] }) id
     (s.core 0).bad.find? (inFootprint [(1, 15)]) = some (1, 3) ∧ ∀ r ∈ (s.ctx 0 0).pending, r.cause ≠ 0x11) := by decide
theorem test_struck_read : (match ((stc (fun k => { k with bad := [(1, 3)] }) id).readStruck 0 0 2 [(1, 15)]).me.pending with
    | [r] => decide (r.det[1] = 2) | _ => false) = true := by decide


/-! ### Witnesses: the engines -/

/-- A header from field codes (R95) and values. -/
def hOf (l : List (Nat × Nat)) : Header := l.foldl (fun h p => hdrPut h p.1 (BitVec.ofNat 64 p.2)) 0
/-- VADD.i32 v1, v2, v3 unmasked, and the same reading queue q0. -/
def vAdd : VOp := ⟨1, 2, 3, 0, 4, 0, 0, 0⟩
def vAddQ : VOp := ⟨1, 56, 3, 0, 4, 0, 0, 0⟩
/-- The control word's places taken by VEC. -/
def asTag (t : Tag) (s : State) : State := { s with cur := { core := 0, ctx := 0, tag := t } }

theorem witness_VectorWordsIssue : Instr.vadd vAdd ∈ vecIns vAdd ∧ illegal (.vadd vAdd) = none ∧ illegal (.vadd vAddQ) = none ∧
    (match vecWord (.vadd vAddQ) with
     | some w => (asTag .vec (st id)).myGrant.hasQueues (w.pops ++ w.pushes) && !(asTag .vec (st id)).queuesFor w.pops w.pushes &&
         !(asTag .vec State.reset).myGrant.hasQueues (w.pops ++ w.pushes)
     | none => false) = true ∧
    (match vecWord (.vadd vAdd) with
     | some w => (asTag .vec (st id)).myGrant.hasQueues (w.pops ++ w.pushes) && (asTag .vec (st id)).queuesFor w.pops w.pushes
     | none => false) = true := by decide +kernel
/-- Fields of a vector word of type `t` with C `c` on v2, to v8. -/
def vOn (t c : Fin 64) : VOp := ⟨8, 2, 0, c, t, 0, 0, 0⟩
/-- A legal word of each form whose values VectorWordsIssue states. -/
def vecResultWords : List (Instr × VOp) :=
  [(.vcvt (vOn 0x10 1), vOn 0x10 1), (.vcvte (vOn 0x13 0x10), vOn 0x13 0x10), (.vcvtl (vOn 0x10 0x13), vOn 0x10 0x13), (.vlvl (vOn 4 0x13), vOn 4 0x13),
   (.vrand ⟨8, 0, 0, 0, 0x10, 0, 0, 0⟩, ⟨8, 0, 0, 0, 0x10, 0, 0, 0⟩), (.vdiv (vOn 0x13 0), vOn 0x13 0), (.vsqrt (vOn 0x13 0), vOn 0x13 0)] ++
  [Instr.vexp (vOn 0x10 0), .vlog (vOn 0x10 0), .vrcp (vOn 0x10 0), .vrsqrt (vOn 0x10 0), .vtanh (vOn 0x10 0), .vgelu (vOn 0x10 0), .vbcasts (vOn 0x10 0), .vabs (vOn 0x10 0), .vneg (vOn 0x10 0), .vradd (vOn 0x10 0), .vscanadd (vOn 0x10 0), .vrmin (vOn 0x10 0), .vrmax (vOn 0x10 0), .vscanmax (vOn 0x10 0), .vadd (vOn 0x10 0), .vsub (vOn 0x10 0), .vmul (vOn 0x10 0), .vfma (vOn 0x10 0), .vfms (vOn 0x10 0), .vfnma (vOn 0x10 0), .vmin (vOn 0x10 0), .vmax (vOn 0x10 0)].map fun i => (i, vOn 0x10 0)
theorem witness_VectorWordsIssue_results : ∀ p ∈ vecResultWords, illegal p.1 = none ∧ ∃ w, vecWord p.1 = some w ∧
    (asTag .vec (st id)).vecQuiet p.2 w ∧ w.dsts ≠ [] := by
  intro p hp
  simp only [vecResultWords, List.map, List.cons_append, List.nil_append, List.mem_cons, List.not_mem_nil, or_false] at hp
  rcases hp with rfl|rfl|rfl|rfl|rfl|rfl|rfl|rfl|rfl|rfl|rfl|rfl|rfl|rfl|rfl|rfl|rfl|rfl|rfl|rfl|rfl|rfl|rfl|rfl|rfl|rfl|rfl|rfl|rfl <;>
    exact ⟨by decide, _, rfl, ⟨by decide, by decide, by decide, by decide⟩, by decide⟩
theorem witness_VectorMovesAndLogic : illegal (.vmov { vAdd with b := 0 }) = none ∧ ∃ w, vecWord (.vmov { vAdd with b := 0 }) = some w ∧
    (asTag .vec (st id)).vecQuiet { vAdd with b := 0 } w :=
  ⟨by decide, (vecWord (.vmov { vAdd with b := 0 })).get (by decide), by simp, ⟨by decide, by decide, by decide, by decide⟩⟩
theorem witness_VectorIntegerArithmetic : isI vAdd.t.val = true ∧ illegal (.vadd vAdd) = none ∧ ∃ w, vecWord (.vadd vAdd) = some w ∧
    (asTag .vec (st id)).vecQuiet vAdd w :=
  ⟨by decide, by decide, (vecWord (.vadd vAdd)).get (by decide), by simp, ⟨by decide, by decide, by decide, by decide⟩⟩
theorem witness_VectorMasks : illegal (.vcmpeq vAdd) = none ∧ illegal (.kand ⟨1, 2, 3, 0, 0, 0, 0, 0⟩) = none ∧
    (∃ w, vecWord (.vcmpeq vAdd) = some w ∧ (asTag .vec (st id)).vecQuiet vAdd w) ∧
    (illegal (.vtopnm ⟨1, 2, 0, 0, 0x10, 0, 0, 2⟩) = none ∧ ∃ w, vecWord (.vtopnm ⟨1, 2, 0, 0, 0x10, 0, 0, 2⟩) = some w ∧
      (asTag .vec (st id)).vecQuiet ⟨1, 2, 0, 0, 0x10, 0, 0, 2⟩ w) ∧
    ∃ w, vecWord (.kand ⟨1, 2, 3, 0, 0, 0, 0, 0⟩) = some w ∧ (asTag .vec (st id)).vecQuiet ⟨1, 2, 3, 0, 0, 0, 0, 0⟩ w :=
  ⟨by decide, by decide, ⟨(vecWord (.vcmpeq vAdd)).get (by decide), by simp, ⟨by decide, by decide, by decide, by decide⟩⟩,
    ⟨by decide, (vecWord (.vtopnm ⟨1, 2, 0, 0, 0x10, 0, 0, 2⟩)).get (by decide), by simp, ⟨by decide, by decide, by decide, by decide⟩⟩,
    ⟨(vecWord (.kand ⟨1, 2, 3, 0, 0, 0, 0, 0⟩)).get (by decide), by simp, ⟨by decide, by decide, by decide, by decide⟩⟩⟩
def vpW : VPend :=
  { due := 0, sli := false, dst := 5, slot := 0, wmask := 0xFF, val := 0x1234, kdst := 0, kmask := 0, kval := 0, flags := 1, first := true, ctx := 0, epoch := 0, idx := 0 }
theorem witness_VectorResultsLand : ((stc (fun k => { k with vpend := [vpW] }) id).core 0).vpend = [vpW] ∧ vpW.due ≤ (st id).cycle := by decide +kernel
theorem test_vector_lands : nx (.vecResultComplete 0) (stc (fun k => { k with vpend := [vpW] }) id)
    (fun t => (t.core 0).v[5] == 0x34 && (t.ctx 0 0).vstat == 1) = true := by decide +kernel

/-- A value in v2 and v4. -/
def sOne (v : VReg) : State := asTag .vec (stc (fun k => { k with v := (k.v.set 2 v).set 4 v }) id)
theorem test_vcvt_clamps : nx (.vcvt ⟨8, 4, 0, 0x10, 2, 0, 0, 0⟩) (sOne 0x43964000)
    (fun t => t.myCore.vpend.map (fun (p : VPend) => (p.dst, sliceAt p.val 0 8, p.flags)) == [(8, 127, 9)]) = true := by decide +kernel
theorem test_vradd_rounds_once : nx (.vradd (vOn 0x13 0)) (sOne 0xFA0000007C00000008000000)
    (fun t => t.myCore.vpend.map (fun (p : VPend) => (p.dst, sliceAt p.val 0 32, p.flags)) == [(8, 0x08000000, 1)]) = true := by decide +kernel

/-- A of one row and four columns of .i8 in ABUF, B of one column in WBUF, C of one .i32 element in CBUF. -/
def sMma : State := asTag .mtx <|
  stc (fun k => { k with abuf := [(0, 0x04030201)], wbuf := [(0, 0x01010102)] }) fun k =>
    { k with h := ((k.h.set 1 (hOf [(11, 2), (10, 4), (4, 1), (5, 1)])).set 2 (hOf [(11, 1), (10, 2), (4, 4), (5, 1)])).set 3 (hOf [(11, 3), (10, 2), (4, 4), (5, 1)]) }
theorem witness_MatrixProducts : sMma.myCore.mtxRoom = true ∧ sMma.myGrant.flagOk false 0 = true ∧
    (match sMma.myCore.mPlan sMma.myGrant 0 false false (sMma.rdH 1) (sMma.rdH 2) (sMma.rdH 3) with
     | some p => p.kind == 0 && isIntCode p.a.fmt && !p.a.bse && !p.b.bse && decide (p.a.bias + p.b.bias = p.c.bias) && !p.empty
     | none => false) = true ∧
    sMma.myCore.mPlan sMma.myGrant 0 false false (sMma.rdH 1) (sMma.rdH 2) (sMma.rdH 4) = none ∧ sMma.live := by decide +kernel
theorem test_mma : nx (.mma ⟨1, 2, 3, 0, false, 0, false, 0⟩ false) sMma (fun t => t.myCore.bufElem 2 0 0 32 == 11) = true := by decide +kernel
def mcW : MCmd := { due := 0, flags := 1, steps := 1, fe := true, flag := 4, epoch := 0, idx := 0, ctx := 0, cpym := none }
theorem witness_MatrixZeroDrainComplete : (sMma.myCore.zPlan sMma.myGrant (sMma.rdH 1)).isSome = true ∧
    (sMma.myCore.dPlan sMma.myGrant (hOf [(11, 1), (10, 4), (4, 1), (5, 1)]) (sMma.rdH 1)).isSome = true ∧
    ((stc (fun k => { k with mtx := [mcW] }) id).core 0).mtx = [mcW] ∧ mcW.due ≤ (st id).cycle ∧ mcW.cpym = none := by decide +kernel

/-- Walker 1 configured over one line of .i32 elements, in a mode. -/
def wkW (store : Bool) (cmds : List WCmd) : Walker := { conf := true, hdr := hOf [(11, 1), (10, 4), (4, 128), (5, 4)], store := store, pos := 0, cmds := cmds }
def sWalk (store : Bool) (cmds : List WCmd) : State := asTag .aw <| stc (fun k => { k with walkers := k.walkers.set 1 (wkW store cmds) }) fun k =>
  { k with h := k.h.set 1 (hOf [(11, 1), (10, 4), (4, 128), (5, 4)]) }
def wcW (fly : List WFly) (n : Nat) : WCmd :=
  { kind := 2, q := 3, iq := 0, count := n, at_ := 0, pos := 0, fly := fly, taken := false, slot := 0, got := [], fe := true, flag := 4, epoch := 0, idx := 0, ctx := 0 }
/-- An AWCFG that waits behind another word. -/
def wcCfg : WCmd := { wcW [] 0 with kind := 1, hdr := hOf [(11, 1), (10, 4), (4, 64), (5, 4)] }
theorem witness_WalkerWordsAndEntries : ((sWalk false [wcW [] 1]).myCore.walker 1).cmds ≠ [] ∧ ((sWalk false [wcW [] 1]).myCore.walker 1).cmds.length < 2 ∧
    2 ≤ ((sWalk false [wcW [] 1, wcCfg]).myCore.walker 1).cmds.length ∧ (sWalk false []).myGrant.flagOk false 4 = true ∧
    (let s := sWalk false [wcW [⟨0, some 0, 5, []⟩] 0, wcCfg]
     ((s.core 0).walker 1).cmds = [wcW [⟨0, some 0, 5, []⟩] 0, wcCfg] ∧ (wcW [] 0).kind ≠ 1 ∧ (wcW [] 0).kind ≠ 3 ∧ wcCfg.kind = 1 ∧ wcCfg.count = 0 ∧
       wcCfg.fly = []) ∧
    (let s := sWalk false []
     (s.myCore.walker 1).cmds = [] ∧ s.myGrant.hasWalker 1 = true ∧ (match s.myCore.tensor (s.rdH 1) 8 with | some t => t.walkOk s.myGrant false | none => false) = true ∧
     s.walkLegal 2 ⟨1, 0, 3, 0, false, 0, 0, 4⟩ 0 = true ∧ s.walkReady 2 ⟨1, 0, 3, 0, false, 0, 0, 4⟩ 0 = true ∧ s.live ∧
     s.walkLegal 2 ⟨1, 0, 3, 0, false, 0, 0, 5⟩ 0 = false) ∧
    (sWalk true []).walkReady 2 ⟨1, 0, 3, 0, false, 0, 0, 4⟩ 0 = false ∧ (sWalk true []).walkLegal 2 ⟨1, 0, 3, 0, false, 0, 0, 4⟩ 0 = true ∧
    (let s := sWalk false [wcW [⟨0, some 0, 5, []⟩] 0]
     ((s.core 0).walker 1).cmds = [wcW [⟨0, some 0, 5, []⟩] 0]) ∧
    (let s := sWalk true [wcW [⟨0, none, 0, [(2, 0xFF, 0x12)]⟩] 0]
     ((s.core 0).pattern ((s.core 0).walker 1)).buf = 1) ∧
    (let s := sWalk false [wcW [] 1]
     (s.core 0).entryReady (wcW [] 1) ((s.core 0).walker 1).store = true) := by decide +kernel
theorem test_walker_store : nx (.walkerEntry 0 1) (sWalk true [wcW [⟨0, none, 0, [(2, 0xFF, 0x12)]⟩] 0]) (fun t => (t.core 0).line 1 2 == 0x12) = true := by decide +kernel

/-- Headers of a copy of 64 bytes from DRAM to ABUF, a copy word at the head of the CPY cursor. -/
def sCopy : State := asTag .cpy <| st fun k => { k with
  h := (k.h.set 1 (hOf [(11, 1), (10, 2), (4, 64)])).set 2 (hOf [(11, 0), (1, 1), (10, 2), (4, 64)])
  stream := [eOf (.cpy ⟨1, 2, 0, 0, false, 0, false, 0⟩ 0 0 false 3)], cursors := k.cursors.set 4 { Cursor.reset with next := 1, member := true } }
def ccW (kind phase : Nat) : CCmd :=
  { kind := kind, hd := hOf [(11, 1), (10, 2), (4, 64)], hs := hOf [(11, 0), (1, 1), (10, 2), (4, 64)], hb := 0, hx := 0, fmtD := 2, fmtS := 2, raw := 8, rm := 0,
    transforming := false, repl := false, mop := 0, ovw := false, cls := 0, fe := true, flag := 4, ue := false, fut := 0, peer := none, key := 0, ctr := 0, done := 0,
    due := 0, phase := phase, flags := 0, dma := none, suspended := false, redo := none, prio := 0, acq := Acq.first, epoch := 0,
    ent := eOf (.cpy ⟨1, 2, 0, 0, false, 0, false, 0⟩ 0 0 false 3), ctx := 0 }
theorem witness_CopyWordsIssue : sCopy.cpyRoom 3 = true ∧ sCopy.cpyDone ⟨1, 2, 0, 0, false, 0, false, 0⟩ none = true ∧ sCopy.headWord.isSome = true ∧ sCopy.live ∧
    (sCopy.cpyPlan 1 (sCopy.rdH 1) (sCopy.rdH 2) none).isSome = true ∧ (sCopy.cpyPlan 2 (sCopy.rdH 1) (sCopy.rdH 2) none).isSome = true ∧
    State.reset.cpyDone ⟨1, 2, 0, 0, true, 9, false, 0⟩ none = false ∧
    (sCopy.modCore 0 fun k => { k with chans := k.chans.set 3 { Channel.reset with cmds := List.replicate 4 (ccW 1 0) } }).cpyRoom 3 = false ∧
    (let s := (((sCopy.modMe fun k => { k with task := some 2, h := k.h.set 2 (hOf [(11, 1), (3, 8), (10, 2), (4, 64)]) }).modCore 1 fun k =>
        { k with grants := k.grants.set 0 gAll }).modCtx 1 0 fun k => { k with phase := .running, task := some 2 })
     s.peerOf 1 0 = some (1, 0) ∧ (s.cpyPlan 1 (s.rdH 1) (s.rdH 2) (some (1, 0))).isSome = true) ∧ sCopy.myGrant.hasFlag 9 = true := by decide +kernel
def sChan (m : CCmd) : State := sCopy.modCore 0 fun k => { k with chans := k.chans.set 3 { Channel.reset with cmds := [m] } }
/-- The same with 64 .i8 elements moved in two codes that differ: a transforming copy. -/
def tcW : CCmd := { ccW 2 0 with hd := hOf [(11, 1), (10, 4), (4, 64)], fmtD := 4, raw := 8, transforming := true }
def orW : OwedRes := { ch := 3, ctx := 0, part := 1, fut := BitVec.ofNat 64 (2 ^ 32 + 3), val := 0, at_ := 0 }
theorem witness_CopiesPerform : (((sChan (ccW 1 0)).core 0).chans[3]).cmds = [ccW 1 0] ∧ 0 < (ccW 1 0).granules ∧ (ccW 1 0).done < (ccW 1 0).granules ∧
    (let r := ((sChan (ccW 1 0)).readStruck 0 0 1 ((ccW 1 0).bufReads ((ccW 1 0).granuleRuns 0))).moveRuns 0 3 (ccW 1 0) ((ccW 1 0).granuleRuns 0)
     r.1 = none ∧ (r.2.core 0).chans = ((sChan (ccW 1 0)).core 0).chans) ∧
    0 < tcW.granules ∧
    (match ((sChan tcW).readStruck 0 0 1 (tcW.bufReads (runsFrom tcW.src.d0 (tcW.src.rows + 1) 0 tcW.elements))).transform 0 3 tcW with
     | (none, u, _) => decide ((u.core 0).chans = ((sChan tcW).core 0).chans)
     | _ => false) = true ∧
    ((sChan (ccW 1 3)).resolutionDue 0 3 = none ∧ (ccW 1 3).phase = 3 ∧ (ccW 1 3).transforming = false ∧ (ccW 1 3).peer = none) ∧
    (let m := { ccW 3 1 with hb := hOf [(11, 2), (10, 4), (4, 1), (5, 1)], hx := hOf [(11, 3), (10, 2), (4, 64), (5, 1)] }
     (sChan m).resolutionDue 0 3 = none ∧ ((sChan m).core 0).mtxRoom = true ∧
       (((sChan m).core 0).cpymPlan ((sChan m).grant 0 0) m.mop m.ovw m.hd m.hb m.hx).isSome = true) ∧
    (let s := withDisp [futOf 0 []] [] ((sChan (ccW 1 0)).modCore 0 fun k => { k with owedRes := [orW] })
     s.resolutionDue 0 3 = some orW ∧ s.fut? 1 (futNum orW.fut) = some (futOf 0 []) ∧ (futOf 0 []).state ≠ 2 ∧ (futOf 0 []).waiters = []) ∧
    (let m := { ccW 5 0 with suspended := true }
     (sChan m).host.dma[(0 : Fin 16)] = none ∧ (match (sChan m).resumable with | some w => decide (w.ref = .inl (0, 3)) | none => false) = true) := by
  decide +kernel
theorem test_granule : nx (.granulePerformed 0 3) { sChan (ccW 1 0) with mem := [(0, 7)] } (fun t => (t.core 0).line 1 0 == 7 && ((t.core 0).chans[3]).wp == 1) = true := by
  decide +kernel

/-- Queues 2 and 3 hold one entry each; h1 names 128 .i32 elements of ABUF, h2 of DRAM. -/
def sSae : State := asTag .sae <| stc (fun k => { k with
    queues := (k.queues.set 2 [⟨0, some (BitVec.ofNat 4096 (2 ^ 4096 - 2 ^ 32 + 5))⟩]).set 3 [⟨1, some 9⟩], abuf := [(0, 7 * 2 ^ 160)] }) fun k => { k with
    saecfg := 0, h := (k.h.set 1 (hOf [(11, 1), (10, 4), (4, 128)])).set 2 (hOf [(11, 0), (1, 1), (10, 4), (4, 128)]) }
def soW (h : HReg) : SOp := ⟨⟨h, 0, 0, 0, false, 0, false, 0⟩, 0, 2, 3, 0, false⟩
def acW (flush : Bool) (due : Nat) : ACmd := { due := due, flags := 1, flush := flush, reply := none, fe := true, flag := 4, epoch := 0, idx := 0, ctx := 0 }
theorem witness_ScatterIssuesAndCompletes : (soW 1).ty.val ≤ 4 ∧ sSae.saeGrant 1 (soW 1) = true ∧ sSae.myCore.saeRoom 0 = true ∧ sSae.saeQueues 1 (soW 1) = true ∧
    (match sSae.saeTarget 4 (sSae.rdH 1) with | some d => d.buf == 1 | none => false) = true ∧
    (match sSae.saeTarget 4 (sSae.rdH 2) with | some d => d.buf == 0 && (sSae.saeProbe d 0
        (saeUpdates 1 1 d.size (elems ((sSae.myCore.qHead 2).getD 0) 32 128) (elems ((sSae.myCore.qHead 3).getD 0) 32 128))).1.isNone | none => false) = true ∧
    sSae.saeTarget 4 (sSae.rdH 3) = none ∧ sSae.live ∧ (asTag .sae State.reset).saeGrant 1 (soW 1) = false ∧ (asTag .sae (st id)).saeQueues 1 (soW 1) = false ∧
    ((stc (fun k => { k with sae := [acW false 0, acW false 0] }) id).myCore.saeRoom 0) = false ∧
    ((stc (fun k => { k with sae := [acW false 0] }) id).core 0).sae = [acW false 0] ∧
    ((stc (fun k => { k with sae := [acW false 9, acW true 0] }) id).core 0).sae = [acW false 9, acW true 0] ∧ (st id).cycle < (acW false 9).due := by decide +kernel
theorem witness_ScatterIssuesAndCompletes_pair : (match saeUpdates 1 (2 ^ (sSae.me.saecfg % 8)) 128 (elems ((sSae.myCore.qHead 2).getD 0) 32 128)
    (elems ((sSae.myCore.qHead 3).getD 0) 32 128) with | [u] => u.vals.length == 1 && u.el == 5 | _ => false) = true := by decide +kernel
theorem test_sadd : nx (.sadd (soW 1)) sSae (fun t => t.myCore.bufElem 1 0 160 32 == 16) = true := by decide +kernel

/-! ### Witnesses: the furrow engine -/

/-- A table of 16 symbols, each of frequency 1 (R236, R240). -/
def tabW : FTable := { n := 4, f := Vector.ofFn fun i : Fin 256 => if i.val < 16 then 1 else 0, valid := true }
/-- A furrow of two lanes open on 1,024 bytes of handle 1. -/
def furW : Furrow := { Furrow.reset with opened := true, lc := 2, x := Vector.replicate 64 0x10000, region := BitVec.ofNat 64 (2 ^ 48 + 1024), size := 1024 }
/-- An entry of `n` .i8 elements, or of a child. -/
def deW (n : Nat) (child : Bool) : DirEntry :=
  { spos := 0, count := n, fmt := 2, bias := 0, ln := 1, tb := 0, child := child, region := BitVec.ofNat 64 (2 ^ 48 + 2048), size := 1024 }
/-- Furrows 0 and 1 as given, table 0; h1 a region of 1,024 bytes, h2 four .i8 elements of ABUF line 4, h3 a DRAM image of 544 bytes. -/
def sFur (f0 f1 : Furrow) : State := asTag .fur <| stc (fun k => { k with
    furs := (k.furs.set 0 f0).set 1 f1, tabs := k.tabs.set 0 tabW, abuf := [(4, 0x01020301)] }) fun k => { k with
  h := ((k.h.set 1 (hOf [(11, 0), (1, 1), (2, 1024), (4, 1024)])).set 2 (hOf [(11, 1), (3, 4), (10, 2), (4, 4)])).set 3 (hOf [(11, 0), (1, 1), (2, 0), (4, 528)])
  stream := [eOf (.fopen ⟨0, 1, 0, 0, false, 0, false, 0⟩ 0 1)], cursors := k.cursors.set 6 { Cursor.reset with next := 1, member := true } }
def hW : HOp := ⟨0, 1, 0, 0, false, 0, false, 0⟩

theorem witness_FurrowsOpenAndClose : (let s := sFur Furrow.reset Furrow.reset
     s.furFree = true ∧ s.furFlag hW = true ∧ s.headWord.isSome = true ∧ (s.furRegion (s.rdH 1)).isSome = true ∧ (s.myCore.fur 0).opened = false ∧ s.live) ∧
    (let s := sFur furW Furrow.reset
     (s.myCore.fur 0).opened = true ∧ s.myCore.hasChild 0 = false ∧ (match s.furPlace (s.rdH 3) true with | some d => decide (32 ≤ d.imageBytes) | none => false) = true ∧
     furW.flush.overflows furW.flush.sl furW.flush.dd = false ∧
     (match s.furPerform 0 0 0 furW.flush, s.furPlace (s.rdH 3) true with
      | (none, s1, _), some d => ((s1.freeBytes 32).2.furPutImage 0 0 0 d (s1.freeBytes 32).1).1.isNone
      | _, _ => false) = true ∧ (1 : FurNo) ≠ 0 ∧ (s.myCore.fur 1).opened = false) ∧
    (let s := (sFur furW Furrow.reset).modCore 0 fun k => { k with marks := k.marks.set 2 { valid := true, fn := 0, lc := 2, x := furW.x, sl := 0, dd := 0 } }
     (s.myCore.marks[2]).valid = true ∧ (s.myCore.marks[2]).fn = 0 ∧ (s.myCore.marks[2]).dd ≤ (s.myCore.fur 0).dd) ∧
    (let s := sFur { furW with dtop := [deW 0 true] } Furrow.reset
     (s.myCore.fur 0).dd ≠ 0 ∧ okIs (s.furTop 0 0 0 s.furAcq (s.myCore.fur 0)).1 (some (deW 0 true)) = true ∧ (deW 0 true).child = true ∧
     (match s.furAdopt 0 0 0 s.furAcq { deW 0 true with spos := 4 } true 0 with | (.ok (some _), _) => true | _ => false) = true) ∧
    (let s := sFur furW { furW with child := true, parent := 0, region := BitVec.ofNat 64 (2 ^ 48 + 2048) }
     (s.myCore.fur 1).opened = true ∧ (s.myCore.fur 1).child = true ∧ (s.myCore.fur 1).parent = 0 ∧
     (s.myCore.fur 1).flush.overflows (s.myCore.fur 1).flush.sl (s.myCore.fur 1).flush.dd = false ∧ furW.overflows furW.sl (furW.dd + 1) = false ∧
     (s.furPerform 0 0 0 (s.myCore.fur 1).flush).1 = none) := by decide +kernel
theorem test_fopen : nx (.fopen hW 0 1) (sFur Furrow.reset Furrow.reset) (fun t => (t.myCore.fur 0).opened && (t.myCore.fur 0).lc == 2) = true := by decide +kernel
/-- What FPUSH of h2 leaves in furrow 0. -/
def pushedW : Furrow := (furW.pushTile tabW 8 [1, 3, 2, 1]).getD furW
theorem witness_FurrowTiles : (let s := sFur furW Furrow.reset
     (match s.furTile (s.rdH 2) with | some d => d.fmt == 2 && d.w == 8 && d.d0 == 4 | none => false) = true ∧ (s.myCore.tabs[0]).valid = true ∧
     (furW.pushTile tabW 8 [1, 3, 2, 1]).isSome = true ∧ pushedW.overflows pushedW.sl (pushedW.dd + 1) = false ∧ (s.myCore.fur 0).dd = 0 ∧ s.live ∧
     ({ pushedW with size := 0 } : Furrow).overflows pushedW.sl (pushedW.dd + 1) = true ∧
     (match s.furPlace (s.rdH 3) false with | some d => d.imageBytes == 528 && !d.tr && d.sps == 0 && !d.bse | none => false) = true ∧
     (match s.myCore.tensor (s.rdH 2) 8 with | some d => s.myGrant.covers 1 (d.mask ||| 2 ^ d.base) && decide (d.base < 8192) | none => false) = true) ∧
    (let s := sFur { pushedW with dtop := [deW 4 false] } Furrow.reset
     okIs (s.furTop 0 0 0 s.furAcq (s.myCore.fur 0)).1 (some (deW 4 false)) = true ∧ s.stamp (s.entryKey (s.myCore.fur 0) ((s.myCore.fur 0).dd - 1)) = none ∧ (s.myCore.fur 0).loose = false ∧ s.furForeign 0 0 (s.myCore.fur 0) = false ∧
     okIs (s.furPopTile 0 0 0 s.furAcq tabW 8 4 (s.myCore.fur 0)).1 [1, 3, 2, 1] = true) := by decide +kernel
theorem witness_FurrowRoundTrip : (tabW.n = 4 ∧ tabW.f.toList.sum = 2 ^ tabW.n) ∧ (∀ j, j < 2 → 2 ^ 16 ≤ furW.lane j) ∧ (∀ v ∈ [1, 3, 2, 1], v < 2 ^ 8) ∧
    furW.pushTile tabW 8 [1, 3, 2, 1] = some pushedW := by decide +kernel
theorem test_fpush : nx (.fpush { hW with ha := 2 } 0 0) (sFur furW Furrow.reset) (fun t => (t.myCore.fur 0).dtop.map (fun q => q.count) == [4]) = true := by decide +kernel
/-- A FUR word of context 0 in execution. -/
def fcW (kind : Nat) (ins : Option Instr) (hdr : Header) : FCmd :=
  { due := 0, kind := kind, ins := ins, hdr := hdr, hfmt := 0, cls := 0, acq := Acq.first, shFur := Vector.replicate 16 Furrow.reset,
    shTab := Vector.replicate 8 FTable.reset, shMark := Vector.replicate 8 { valid := false, fn := 0, lc := 1, x := Vector.replicate 64 0, sl := 0, dd := 0 },
    spoil := [], desc := List.replicate 32 0, fe := true, flag := 4, epoch := 0, ent := eOf .nop, ctx := 0 }
def sFcmd (m : FCmd) : State := (sFur furW furW).modCore 0 fun k => { k with fcmd := some m }
/-- The image of table `tabW` (R236). -/
def tabBytes : List Byte := (List.replicate 16 [1, 0]).flatten ++ List.replicate 480 0 ++ [4] ++ List.replicate 15 0
theorem witness_FurrowEvents : ((sFcmd (fcW 0 none 0)).ctx 0 0).fork = none ∧ ((sFcmd (fcW 0 none 0)).core 0).fcmd = some (fcW 0 none 0) ∧ (sFcmd (fcW 0 none 0)).furFree = false ∧
    (let m := fcW 3 none (hOf [(11, 0), (1, 1), (2, 0), (4, 32)])
     ((sFcmd m).furPutImage 0 0 0 (tensorAs m.hdr m.hfmt (widthOr m.hfmt 8)) m.desc).1 = none) ∧
    (let m := fcW 1 (some (.ftbl hW 2)) (hOf [(11, 0), (1, 1), (2, 0), (4, 528)])
     okIs ((sFcmd m).furImage 0 0 0 m.acq (tensorAs m.hdr m.hfmt (widthOr m.hfmt 8)) 528).1 (List.replicate 528 0) = true ∧
     ((sFcmd m).ctx 0 0).phase = .running ∧ ((sFcmd m).ctx 0 0).stop = none ∧
     okIs (({ sFcmd m with mem := (List.range 16).map (fun i => (2 * i, (1 : Byte))) ++ [(512, 4)] } : State).furImage 0 0 0 m.acq
       (tensorAs m.hdr m.hfmt (widthOr m.hfmt 8)) 528).1 tabBytes = true) ∧
    (leNat ((tabBytes.drop 512).take 2) = 4 ∧ ((List.range 256).map fun i => leNat ((tabBytes.drop (2 * i)).take 2)).sum = 2 ^ 4 ∧ ∀ b ∈ tabBytes.drop 514, b = 0) ∧
    (let m := fcW 2 (some (.fsplitImport hW 2)) (hOf [(11, 0), (1, 1), (2, 0), (4, 32)])
     (match ({ sFcmd m with mem := ssetBytes [] 0 { deW 0 true with spos := 4 }.bytes } : State).furImage 0 0 0 m.acq (tensorAs m.hdr m.hfmt (widthOr m.hfmt 8)) 32 with
      | (.ok bs, s1) => (dirEntryOf bs).child && imgDw bs 1 % 2 ^ 40 == 0 && (match s1.furAdopt 0 0 0 m.acq (dirEntryOf bs) false 0 with | (.ok (some _), _) => true | _ => false)
      | _ => false) = true) ∧
    (let f := { furW with top := List.replicate 300 5 }
     f.crowded = true ∧ 256 < f.top.length ∧ ((sFur f furW).furSpill 0 0 0 32 f).1 = none) := by decide +kernel

/-! ### Witnesses: dispatcher, collective engine, partitions, host -/

/-- Partition 1 ACTIVE, context 1 of core 1 EMPTY and granted to it, STAGE 4. -/
def sDisp (ts : List Task) : State := withDisp [] ts (live1 (State.reset.modCore 1 fun k => { k with grants := k.grants.set 1 gAll }))
theorem witness_DispatcherEvents : (∀ p : Fin 16, ∀ l : Fin 4, (sDisp []).nextAt p.val l.val = none) ∧
    (let s := sDisp [tkOf .ready]
     s.mayDispatch 1 = true ∧ s.spots (tkOf .ready) = some [(1, 1)] ∧ (tkOf .ready).cost ≤ (s.dp 1).quantum) ∧
    (sDisp []).drainDue 1 1 = false ∧
    (let s := (sDisp [tkOf .draining]).modCtx 1 1 fun k => { k with phase := .running, task := some 2, draining := true }
     s.drainDue 1 1 = true ∧ s.task? (s.partOf 1 1) 2 = some (tkOf .draining) ∧ (s.part (s.partOf 1 1)).replay = none ∧
     (tkOf .draining).members ≤ (tkOf .draining).drained + 1) ∧
    ((sDisp [{ tkOf .draining with members := 2 }]).task? 1 2).isSome = true ∧
    ({ sDisp [tkOf .ready] with cycle := 2 ^ 30 } : State).agedTask = some (tkOf .ready) := by decide +kernel
theorem test_dispatch : nx .dispatchSelect (sDisp [tkOf .ready]) (fun t => (t.ctx 1 1).phase == .running && (t.ctx 1 1).task == some 2) = true := by decide +kernel

/-- A packet with a sequence number, and an open connection of partition 1 that expects number 7. -/
def pkW (seq : Nat) : Packet := { seq := seq, op := 4, fmt := 4, size := 0, last := true, cnt := 0, count := 1, off := 0, data := [1, 2, 3, 4] }
def cnW : Conn := { Conn.reset with v := true, pres := true, part := 1, rxseq := 7, txseq := 9 }
def sConn (k : Conn) : State := { live1 (st id) with cycle := 2 ^ 20, col := { State.reset.col with conns := [(5, k)], brbase := 4096, brsize := 4096 } }
theorem witness_TransportEvents : (5 : ConnId).val ≠ 0 ∧ ((sConn cnW).conn 5).live = true ∧ ((sConn cnW).part 1).state < 2 ∧ (sConn cnW).lateFor cnW = false ∧
    (pkW 7).seq = cnW.rxseq ∧ cnW.recvq.length < 64 ∧ (cnW.pres = true ∧ cnW.rpl = false) ∧
    (({ cnW with rpl := true } : Conn).rpl = true) ∧ ((sConn { cnW with pres := false }).bounce 5 (pkW 7)).isSome = true ∧
    seqBelow (pkW 6).seq cnW.rxseq = true ∧ ((pkW 9).seq ≠ cnW.rxseq ∧ seqBelow (pkW 9).seq cnW.rxseq = false) ∧
    (let s := sConn cnW
     ({ s with col := { s.col with glate := true, gpart := 2 } } : State).lateFor cnW = true) ∧
    (seqBelow 3 4 = true ∧ seqBelow 5 4 = false) ∧
    (let k := { cnW with window := [(1, pkW 8)], backoff := some (0, 8), rtoDue := some 0, ackDue := some 0 }
     (sConn k).backoffDue 5 = true ∧ (sConn k).rtoDue 5 = true ∧ (sConn k).ackDue 5 = true ∧ k.rounds < k.rmax ∧ (∃ w ∈ k.window, w.2.seq = 8)) ∧
    ({ cnW with rounds := 8 } : Conn).rmax ≤ 8 ∧ (sConn { cnW with rpl := true }).replayDue 5 = true ∧ (sConn { cnW with rpl := true }).bounceNext 5 = none ∧
    (let s := sConn { cnW with rpl := true }
     let t : State := { s with col := { s.col with brhead := 128 }, mem := [(4096, 5), (4104, 4)] }
     t.replayDue 5 = true ∧ t.bounceNext 5 = some 0) ∧
    (opOf 2).state ≠ 3 ∧ (opOf 2).uses 5 = true := by decide +kernel
theorem test_packet_acked_again : nx (.darudPacketReceive 5 (pkW 6)) (sConn cnW) (fun t => t.col.out.length == 1 && (t.conn 5).rxseq == 7) = true := by decide +kernel

def frW (port : Nat) (b : FrameBody) : Frame := { ipv6Udp := true, checksOk := true, udpPort := port, body := b }
/-- A watched word whose operation has not started. -/
def sWatch (bs : List Byte) : State := (live1 (sCol bs)).modCtx 0 0 fun k => { k with pendWatch := [(64, 0, 2 ^ 48 + 128, 0)] }
theorem witness_CollectiveEvents : (frW 0xD4A0 (.darudData 5 (pkW 7))).ipv6Udp = true ∧ (0xD4A0 : Nat) = State.reset.col.dport ∧ (pkW 7).data.length ≤ 4096 ∧
    ((sConn cnW).conn 5).port = 0 ∧ ({ frW 0 .other with checksOk := false } : Frame).checksOk = false ∧
    (let s := { sConn cnW with col := { (sConn cnW).col with mport := 700 }, host := { (sConn cnW).host with stage := 4 } }
     (700 : Nat) ≠ s.col.dport ∧ 700 = s.col.mport ∧ s.host.stage = 4) ∧
    ((sWatch colDesc).ctx 0 0).pendWatch.find? (fun q => q.2.2.2 ≤ (sWatch colDesc).cycle) = some (64, 0, 2 ^ 48 + 128, 0) ∧
    (sWatch colDesc).partOpen ((sWatch colDesc).partOf 0 0) = true ∧ ((sWatch colDesc).modPart 1 fun p => { p with state := 2 }).partOpen 1 = false ∧
    (let s0 := (sWatch colDesc).modCtx 0 0 fun k => { k with pendWatch := [] }
     (s0.dramHandle 0 0 (2 ^ 48 + 128) 32 true false).isSome = true ∧
     (match s0.readVa { core := 0, ctx := 0, path := 4, chan := 2 ^ 34 } (some 6) 0 { Acq.first with floors := (s0.ctx 0 0).acq.floors } false (2 ^ 48 + 128) 128 32 with
      | (.ok bs, s1) => s1.descAccept (colOpOf 0 0 1 (s1.nextOpIdx 1) none (some 64) { Acq.first with floors := (s0.ctx 0 0).acq.floors } bs) bs && decide (s1.opsOpen < 256) && decide ((s1.part 1).replay = none)
      | _ => false) = true) ∧
    (let s0 := (sWatch []).modCtx 0 0 fun k => { k with pendWatch := [] }
     (match s0.readVa { core := 0, ctx := 0, path := 4, chan := 2 ^ 34 } (some 6) 0 { Acq.first with floors := (s0.ctx 0 0).acq.floors } false (2 ^ 48 + 128) 128 32 with
      | (.ok bs, s1) => !s1.descAccept (colOpOf 0 0 1 (s1.nextOpIdx 1) none (some 64) { Acq.first with floors := (s0.ctx 0 0).acq.floors } bs) bs
      | _ => false) = true) ∧
    (st id).dramHandle 0 0 0 32 true false = none ∧
    (let o := { opOf 2 with sendPos := 1, fe := true, task := some 9 }
     let s := ({ sCol [] with col := { (sCol []).col with ops := [o] } } : State).modCtx 0 0 fun k => { k with task := some 9 }
     s.col.ops.find? (fun o => o.part = 1 && o.idx = 1) = some o ∧ s.opFinished o = true ∧ s.opHeld o = true ∧ s.bucketForeign o = false ∧ o.op ≠ 3) ∧
    (let o := { opOf 2 with sendPos := 1, count := 4, bucket := 2 ^ 48 + 64 }
     let s := ({ sCol [] with col := { (sCol []).col with ops := [o] } } : State).writeMem false (ctlUnit 0 0) 0 70 [1]
     s.col.ops.find? (fun o => o.part = 1 && o.idx = 1) = some o ∧ s.opFinished o = true ∧ s.bucketForeign o = true ∧
     ∀ b ∈ s.bucketPieces o 0 16, ¬(b.1 ≤ 80 ∧ 80 < b.1 + b.2.2)) ∧
    (2 : Nat).testBit (opOf 2).part = true ∧ ((sConn cnW).conn 5).v = true ∧
    (let a := { opOf 2 with op := 1, size := 4, rank := 1 }
     1 ≤ a.op ∧ a.op ≤ 3 ∧ 2 ≤ a.size ∧ a.rank < a.size ∧ 0 < a.sends ∧ ({ a with rank := 2 } : ColOp).rank = (a.rank + 1) % a.size) := by decide +kernel

/-- Command `op` for partition 1 with an argument, at a point of its course; the entry of partition 1 as `f` leaves it. -/
def sCmd (op run arg : Nat) (f : Part → Part) : State :=
  { (st fun k => { k with phase := .running }).modPart 1 f with
    mg := { ((st id).modPart 1 f).mg with pcmd := BitVec.ofNat 64 (op * 2 ^ 60 + 2 ^ 56 + arg), busy := true, running := run, fence := some 0 }, cycle := 2 ^ 20 }
theorem witness_PartitionCommands : (sCmd 1 1 0 fun q => { q with state := 1 }).cmdStarts 1 = true ∧ ((sCmd 1 1 0 fun q => { q with state := 1 }).part 1).state ≠ 0 ∧
    (let s := sCmd 1 1 0 fun q => { q with key := 3 }
     s.cmdStarts 1 = true ∧ s.cmdPart = 1 ∧ (s.part 1).state = 0 ∧ (s.part 1).key ≠ 0 ∧ (s.grant (s.part 1).hcore (s.part 1).hctx).v = true ∧
     s.partOf (s.part 1).hcore (s.part 1).hctx = 1 ∧ s.cmdArg % 64 = 0) ∧ ((sCmd 1 1 0 id).part 1).key = 0 ∧
    (let s := sCmd 2 1 0 fun q => { q with state := 1 }
     s.cmdStarts 2 = true ∧ (s.part 1).state < 2 ∧ (0, 0) ∈ s.contextsOf 1 ∧ (s.ctx 0 0).phase ≠ .empty) ∧ 2 ≤ ((sCmd 2 1 0 fun q => { q with state := 2 }).part 1).state ∧
    (let s := sCmd 2 2 0 fun q => { q with state := 2 }
     s.cmdStarts 2 = false ∧ s.cmdRuns 2 = true ∧ (s.part 1).state = 2 ∧ s.fenceQuiet 1 = true ∧ s.fenceOver = true ∧
     (s.modCtx 0 0 fun k => { k with stores := [stOf 0] }).fenceQuiet 1 = false) ∧ ((sCmd 2 2 0 fun q => { q with state := 3 }).part 1).state = 3 ∧
    ((sCmd 3 1 0 fun q => { q with state := 1 }).cmdStarts 3 = true ∧ (sCmd 3 1 0 id).cmdStarts 3 = true) ∧
    ((sCmd 3 2 0 id).cmdRuns 3 = true ∧ (sCmd 3 2 0 id).partBusy 1 = false) ∧ (sCmd 4 1 0 id).cmdStarts 4 = true ∧
    (let s := { (sCmd 4 1 64 fun q => { q with state := 1, logbase := 1024, logsize := 256 }).modDp 1 fun d => { d with futmax := 1, pool := 1 } with
                mem := [(64, 3), (68, 9), (1031, 1), (1032, 9)] }
     s.cmdStarts 4 = true ∧ (s.part 1).state = 1 ∧ s.cmdArg + s.dispSize 1 ≤ 2 ^ 38 ∧
     (let k := s.readCkpt 1 (s.physBytes s.cmdArg (s.dispSize 1)).1
      k.num = 9 ∧ k.next = 3 ∧ k.futs.length = 1 ∧ (s.afterCkpt 1 9).isSome = true)) ∧
    ((sCmd 3 1 (2 ^ 38 - 64) fun q => { q with state := 1 }).cmdStarts 3 = true ∧ 2 ^ 38 < (2 ^ 38 - 64) + (sCmd 3 1 (2 ^ 38 - 64) id).dispSize 1 ∧
     (sCmd 3 1 0 id).cmdArg + (sCmd 3 1 0 id).dispSize 1 ≤ 2 ^ 38 ∧ (sCmd 3 1 (2 ^ 38 - 64) id).cmdArg = 2 ^ 38 - 64) ∧
    ((sCmd 1 1 (2 ^ 38) id).cmdArg + 512 > 2 ^ 38 ∧ (sCmd 1 1 0 id).cmdArg + 512 ≤ 2 ^ 38) ∧
    (sCmd 5 1 (2 ^ 50 - 4096) id).cmdArg / 2 ^ 12 % 2 ^ 26 * 4096 + ((sCmd 5 1 (2 ^ 50 - 4096) id).cmdArg / 2 ^ 38 % 2 ^ 12 + 1) * 4096 > 2 ^ 38 ∧
    ((sCmd 4 2 0 id).cmdRuns 4 = true ∧ ((sCmd 4 2 0 id).part 1).replay = none) ∧
    ((sCmd 5 1 (2 ^ 12 + 2 ^ 50) id).cmdStarts 5 = true ∧ (sCmd 5 1 (2 ^ 12 + 2 ^ 50) id).cmdArg % 2 ^ 12 = 0 ∧ (sCmd 5 1 1 id).cmdArg % 2 ^ 12 ≠ 0) ∧
    ((sCmd 1 3 0 id).mg.busy = true ∧ (sCmd 1 3 0 id).mg.running = 3 ∧ (sCmd 7 1 0 id).mg.running = 1 ∧ 5 < (sCmd 7 1 0 id).cmdOp) := by decide +kernel
theorem test_scrub : nx .scrub { sCmd 5 1 (2 ^ 12 + 2 ^ 50) id with mem := [(4096, 7), (9000, 8)] }
    (fun t => t.byte 4096 == 0 && t.byte 9000 == 8 && t.lineKey 4096 == 1 && t.mg.running == 3) = true := by decide +kernel

theorem witness_RegisterWrites : (let v : Nat := 2 ^ 63 + 2 ^ 59 + 2 ^ 52 + 1
     grantOf v ≠ State.reset.grant 1 0 ∧ (State.reset.ctx 1 0).phase = .empty ∧ (∀ y : CtxId, y ≠ 0 → (grantOf v).items &&& (State.reset.grant 1 y).items = 0 ∧
       (State.reset.grant 1 y).v = false ∧ (State.reset.ctx 1 y).phase = .empty) ∧ (grantOf v).hasFlag 0 = true ∧ (State.reset.grant 1 0).hasFlag 0 = false ∧
     grantOf v ≠ (st id).grant 0 0 ∧ ((st id).ctx 0 0).phase ≠ .empty ∧ (grantOf v).items &&& ((st id).grant 0 0).items ≠ 0) ∧
    (∀ k : Fin 4, ((List.range 16).map fun i => (State.reset.part i).floor / 2 ^ (8 * k.val) % 256).sum ≤ 16 * (State.reset.col.carbd / 2 ^ (4 * k.val) % 16)) ∧
    16 * (State.reset.col.carbd % 16) < 255 ∧ (16 : Nat) < 15 + 2 ∧ (st fun k => { k with pl := 1 }).live ∧ 2 ≤ ((st id).ctx 0 0).pl ∧
    (st id).host.halted0 = false ∧ (st id).mg.busy = false ∧ (sCmd 1 1 0 id).mg.busy = true := by decide +kernel
theorem test_cgrant : nx (.cgrantWrite 1 0 (BitVec.ofNat 64 (2 ^ 63 + 2 ^ 59 + 2 ^ 52 + 1))) State.reset (fun t => (t.grant 1 0).v && (t.grant 1 0).part == 1) = true := by
  decide +kernel

/-- Queue 2 in service for partition 1. -/
def sHost : State := { live1 (st id) with host := { State.reset.host with hq := State.reset.host.hq.set 2 { v := true, part := 1, lerr := false, pasid := 7, pend := none } } }
def hcW : HostCmd := { toDevice := true, dev := 0, host := 4096, len := 64, prio := 0 }
theorem witness_HostEvents : (sHost.part 1).state < 2 ∧ (0 : CoreId).val = (5 * 2 ^ 48 : Nat) / 2 ^ 9 % 128 ∧ (sHost.grant 0 0).v = true ∧ sHost.partOf 0 0 = 1 ∧
    sHost.host.runs = [] ∧ (∀ (c : CoreId) (ch : Fin 4), ((State.reset.core c).chans[ch]).cmds = []) ∧ sHost.romWaits = false ∧ (sHost.hq 3).v = false ∧ (sHost.hq 2).v = true ∧
    (sHost.part (sHost.hq 2).part).state = 1 ∧
    (let s := { sHost with host := { sHost.host with runs := [⟨2, hcW, 0, 0, none, false, 1⟩] } }
     s.hostHeads.find? (fun h => s.copyOnQueue h.1 h.2.2 2) = none ∧ s.host.runs.find? (fun r => r.q = 2) = some ⟨2, hcW, 0, 0, none, false, 1⟩) ∧
    (let s := { sHost with host := { sHost.host with areqGo := true, fwdig := List.replicate 64 1, nonce := List.replicate 32 2 } }
     s.host.areqGo = true ∧ s.host.fwdig.length = 64 ∧ s.host.nonce.length = 32) ∧
    sHost.host.power ≠ 3 ∧ (∀ n : PartId, State.reset.mg.parts[n].state = 0) ∧
    ({ sHost with obs := { sHost.obs with sampEn := true }, cycle := 2 ^ 20 } : State).sampleDue = true ∧
    (let s := { sHost.modPart 1 fun q => { q with policy := some [⟨1, 0, 3, 4, 0⟩] } with cycle := 850 * 16 }
     s.gran 1 1 0 0x10 = (3, 4) ∧ s.obs.windowAt / 2 ^ 4 < s.micros / 2 ^ 4 ∧ cntListed 0x10 = true ∧ (s.part 1).state = 1) := by decide +kernel
theorem test_dbell : nx (.dbellWrite 1 (BitVec.ofNat 64 (5 * 2 ^ 48))) sHost (fun t => (t.ctx 0 0).pending.map (fun r => (r.cause, r.code)) == [(0x13, 5)]) = true := by
  decide +kernel
theorem witness_EveryStepKeepsMemOk : State.reset.memOk ∧ ∃ t, step State.reset = .next t := by
  refine ⟨⟨by decide, by decide⟩, ?_⟩
  have e : (match step State.reset with | .next _ => true | _ => false) = true := by decide +kernel
  cases h : step State.reset with
  | next t => exact ⟨t, rfl⟩
  | fault f => rw [h] at e; exact Bool.noConfusion e
  | refused r => rw [h] at e; exact Bool.noConfusion e

/-- The image of a context with the grant of context 1 of `sSave`: its magic number, its partition and its grant; every other field 0. -/
def sImage : State :=
  { sSave with mem := ssetBytes (ssetBytes (ssetBytes [] 0 (leBytes 8 0x47484E3800000001)) 16 (leBytes 8 1)) 0x1080 (leBytes 8 (sSave.grant 0 1).word) }
theorem witness_imageOk : sImage.imageOk 0 1 ((List.range 0x1C000).map fun i => sImage.byte (0 + i)) = true := by
  simp only [State.imageOk, imageClean, imgD, imgN_range]
  decide +kernel
theorem witness_CloadOfAnImage : sImage.sctlReady 1 ∧ (1 : CtxId) ≠ sImage.cur.ctx ∧
    ∃ bs u, sImage.readContext (sImage.rdS 1) 1 = (.ok (some bs), u) := by
  have q : sImage.Quiet 0 0 := ⟨by decide, by decide, by decide, by decide, by decide⟩
  have hl : (!sImage.loadable 1 || decide ((sImage.rdS 1).toNat % 64 ≠ 0)) = false := by decide +kernel
  have hi : sImage.imageHandle (sImage.rdS 1) false =
      some { len := 2 ^ 20, kind := 1, w := true, rd := true, tx := false, hq := 0, base := 0 } := by decide +kernel
  have e : sImage.readContext (sImage.rdS 1) 1 = (.ok (some ((List.range 0x1C000).map fun i => sImage.byte (0 + i))), sImage) := by
    unfold State.readContext
    rw [hl, hi]
    have ha : (0 : Nat) + haddrO (sImage.rdS 1).toNat = 0 := by decide +kernel
    simp only [ha]
    rw [readVa_quiet (u := ctlUnit sImage.cur.core sImage.cur.ctx) q none 0 _ false _ 0 0x1C000 (by omega)]
    have h2 : sImage.imageOk sImage.cur.core 1 ((List.range 0x1C000).map fun i => sImage.byte (0 + i)) = true := witness_imageOk
    simp only [h2, if_true, Bool.false_eq_true, if_false]
  exact ⟨⟨by decide, by decide, by decide, by decide, by decide⟩, by decide, _, _, e⟩
end Sys2Proof.Machine
end

section
/-! PROOFS. O60: every step keeps both byte memories in their canonical form. -/

namespace Sys2Proof.Machine

/-- Every word and event keeps the canonical form: each arm of `exec` has its own lemma `exec…_out` under Laws/. -/
theorem exec_out (i : Instr) (s : State) (hok : MemsOk s.mems) : OutOk (exec i s) := by
  cases i
  all_goals simp only [exec]
  all_goals simp [hok]

/-- A step is the end of a cycle, or a polled word or event settled into the state that it was polled in. -/
theorem step_next {s t : State} (h : step s = .next t) :
    s.poll = .tick t ∨ ∃ i u r, s.poll = .act i u ∧ exec i u = .next r ∧ t = u.settle r := by
  unfold step at h
  split at h
  next u hp => exact .inl (Host.Outcome.next.inj h ▸ hp)
  next i u hp =>
    split at h
    next r he => exact .inr ⟨i, u, r, hp, he, (Host.Outcome.next.inj h).symm⟩
    next => contradiction
    next => contradiction

/-- Settles O60: the end of a cycle keeps the form, and so do the poll, the polled meaning and `settle`. -/
theorem everyStepKeepsMemOk : Obligations.EveryStepKeepsMemOk := by
  intro s t hok h
  obtain hp | ⟨i, u, r, hp, he, rfl⟩ := step_next h
  · exact s.poll_tick_ok hok t hp
  · have hu := s.poll_act_ok hok i u hp
    exact State.settle_ok u r hu (exec_out i u hu r he)

end Sys2Proof.Machine
end

section
/-! PROOFS. O2: a word that decodes is the encoding of its instruction. Every row of the decoder reads fields that fill its word and demands that
the reserved ones are 0 (`resv`), so that the encoder's layout, filled with what was read, is the word again. -/

namespace Sys2Proof
open Machine

/-! ### Fields -/

theorem pack_zip_mod (fs : List (Nat × Nat)) : pack ((fs.map Prod.fst).zip (fs.map fun p => p.2 % 2 ^ p.1)) = pack fs := by
  induction fs with
  | nil => rfl
  | cons p r ih =>
    have hw : ((r.map Prod.fst).zip (r.map fun p => p.2 % 2 ^ p.1)).map Prod.fst = r.map Prod.fst :=
      List.map_fst_zip (by simp)
    simp only [List.map_cons, List.zip_cons_cons, pack, Nat.mod_mod, hw, ih]

/-- A number that reads back as given fields is those fields packed: the converse of `unpack_pack`. -/
theorem pack_eq_of_unpack (fs : List (Nat × Nat)) (o : Nat) (ho : o < 2 ^ (fs.map Prod.fst).sum)
    (h : unpack (fs.map Prod.fst) o = fs.map fun p => p.2 % 2 ^ p.1) : pack fs = o := by
  rw [← pack_zip_mod, ← h, pack_unpack _ _ ho]

@[simp] theorem b2n_decide_mod_two (x : Nat) : b2n (decide (x % 2 = 1)) = x % 2 := by
  rcases Nat.mod_two_eq_zero_or_one x with h | h <;> simp [h, b2n]

/-! ### One row of the decoder -/

/-- The encoder lays `i` out under `tag` and `opc` as `f` of fields that fill the `n` bits of `x`: `f` is what a class puts around the bits of one
row (HCMD and WALK, R68, R69). -/
def EncodedAs (f : List (Nat × Nat) → List (Nat × Nat)) (n tag opc x : Nat) (i : Instr) : Prop :=
  ∃ xs, encodeParts i = some (tag, opc, f xs) ∧ (xs.map Prod.fst).sum = n ∧ pack xs = x

/-- The encoder lays `i` out as TAG, OPC and the 42 operand bits `o` (R58). -/
abbrev Encodes (tag opc o : Nat) (i : Instr) : Prop := EncodedAs (fun xs => xs) 42 tag opc o i

theorem resv_eq_ok {z : Nat} {i' i : Instr} (h : resv z i' = .ok i) : z = 0 ∧ i' = i := by
  unfold resv at h
  split at h
  · exact ⟨‹_›, Except.ok.inj h⟩
  · contradiction

/-- A row that ends in `resv` is encoded as the fields `xs` when, its reserved bits being 0, its bits read back as `xs`. -/
theorem encodedAs_of_resv {f : List (Nat × Nat) → List (Nat × Nat)} {n tag opc x z : Nat} {i' i : Instr} {xs : List (Nat × Nat)}
    (h : resv z i' = .ok i) (he : encodeParts i' = some (tag, opc, f xs)) (hs : (xs.map Prod.fst).sum = n) (hx : x < 2 ^ n)
    (hp : z = 0 → unpack (xs.map Prod.fst) x = xs.map fun p => p.2 % 2 ^ p.1) : EncodedAs f n tag opc x i := by
  obtain ⟨hz, rfl⟩ := resv_eq_ok h
  exact ⟨xs, he, hs, pack_eq_of_unpack xs x (hs ▸ hx) (hp hz)⟩

/-! ### The CTL class (R71) -/

theorem decPhase_encodes {o : Nat} {i : Instr} (ho : o < 2 ^ 42) (h : decPhase o = .ok i) : Encodes 0 0x06 o i := by
  simp only [decPhase, unpack] at h
  repeat' split at h
  any_goals contradiction
  all_goals exact encodedAs_of_resv h rfl rfl ho fun hz => by simp_all [unpack]

theorem ite_eq_ok {c : Prop} [Decidable c] {a b : Decoded} {i : Instr} (h : (if c then a else b) = .ok i) :
    (c ∧ a = .ok i) ∨ b = .ok i := by
  split at h
  · exact .inl ⟨‹c›, h⟩
  · exact .inr h

/-- An XCMD function is one of eleven, with the DV of its reply (R70, R103). -/
theorem decXcmd_encodes {o : Nat} {i : Instr} (ho : o < 2 ^ 42) (h : decXcmd o = .ok i) : Encodes 0 0x08 o i := by
  have hlt : ∀ p ∈ [7, 5, 5, 5, 1, 19].zip (unpack [7, 5, 5, 5, 1, 19] o), p.2 % 2 ^ p.1 = p.2 := by
    simp [unpack]
  unfold decXcmd at h
  split at h
  case h_2 => contradiction
  case h_1 fn a b d dv z hu =>
    rw [hu] at hlt
    simp only [List.zip_cons_cons, List.forall_mem_cons] at hlt
    obtain ⟨-, ha, hb, hd, -⟩ := hlt
    extract_lets ra rb rd go at h
    have hgo : ∀ {reply bad i'}, go reply bad i' = .ok i → dv = reply ∧ resv (z + bad) i' = .ok i := by
      intro reply bad i' h
      simp only [go] at h
      split at h
      · contradiction
      · exact ⟨not_not.1 ‹_›, h⟩
    clear_value go
    iterate 11
      obtain ⟨hfn, h⟩ | h := ite_eq_ok h
      rotate_left
    · contradiction
    all_goals
      obtain ⟨hdv, hr⟩ := hgo h
      exact encodedAs_of_resv hr rfl rfl ho fun hz => by simp_all [encX, ra, rb, rd, Nat.mod_eq_of_lt]

theorem decTlbi_encodes {o : Nat} {i : Instr} (ho : o < 2 ^ 42) (h : decTlbi o = .ok i) : Encodes 0 0x0E o i := by
  simp only [decTlbi, unpack] at h
  repeat' split at h
  any_goals contradiction
  all_goals exact encodedAs_of_resv h rfl rfl ho fun hz => by simp_all [unpack, encT]

theorem decSctl_encodes {o : Nat} {i : Instr} (ho : o < 2 ^ 42) (h : decSctl o = .ok i) : Encodes 0 0x0F o i := by
  simp only [decSctl, unpack] at h
  repeat' split at h
  any_goals contradiction
  all_goals exact encodedAs_of_resv h rfl rfl ho fun hz => by simp_all [unpack, encC]

/-- PHASE, XCMD, TLBI and SCTL choose by a field of their own; every other opcode of the class is one row. -/
theorem decCtl_encodes {opc o : Nat} {i : Instr} (ho : o < 2 ^ 42) (h : decCtl opc o = .ok i) : Encodes 0 opc o i := by
  unfold decCtl at h
  split at h
  case h_6 => exact decPhase_encodes ho h
  case h_8 => exact decXcmd_encodes ho h
  case h_14 => exact decTlbi_encodes ho h
  case h_15 => exact decSctl_encodes ho h
  case h_72 => contradiction
  all_goals exact encodedAs_of_resv h rfl rfl ho fun hz => by simp_all [unpack, encR3, encImm]

/-! ### The engines' classes (R72 to R74) -/

theorem decV_encodes {mk : VOp → Instr} {opc o : Nat} {i : Instr} (hmk : ∀ v, encodeParts (mk v) = some (1, opc, encV v))
    (ho : o < 2 ^ 42) (h : decV mk o = .ok i) : Encodes 1 opc o i := by
  obtain rfl := Except.ok.inj h
  exact ⟨_, hmk _, rfl, pack_eq_of_unpack _ _ ho (by simp [encV, unpack])⟩

theorem decVec_encodes {opc o : Nat} {i : Instr} (ho : o < 2 ^ 42) (h : decVec opc o = .ok i) : Encodes 1 opc o i := by
  unfold decVec at h
  split at h
  case h_55 => contradiction
  all_goals exact decV_encodes (fun _ => rfl) ho h

/-- An HCMD word is encoded when the 11 bits of its row are (R68). -/
theorem decH_encodes {k : HOp → Nat → Decoded} {tag opc o : Nat} {i : Instr} (ho : o < 2 ^ 42)
    (hk : ∀ hd x, x < 2 ^ 11 → k hd x = .ok i → EncodedAs (encH hd) 11 tag opc x i) (h : decH k o = .ok i) : Encodes tag opc o i := by
  obtain ⟨xs, he, -, hx⟩ := hk _ _ (Nat.mod_lt _ (by decide)) h
  exact ⟨_, he, rfl, pack_eq_of_unpack _ _ ho (by simp [encH, hx, unpack])⟩

/-- A WALK word is encoded when the 4 bits of its row are (R69). -/
theorem decW_encodes {k : WOp → Nat → Decoded} {opc o : Nat} {i : Instr} (ho : o < 2 ^ 42)
    (hk : ∀ w x, x < 2 ^ 4 → k w x = .ok i → EncodedAs (encWk w) 4 3 opc x i) (h : decW k o = .ok i) : Encodes 3 opc o i := by
  obtain ⟨xs, he, -, hx⟩ := hk _ _ (Nat.mod_lt _ (by decide)) h
  exact ⟨_, he, rfl, pack_eq_of_unpack _ _ ho (by simp [encWk, hx, unpack])⟩

theorem decMtx_encodes {opc o : Nat} {i : Instr} (ho : o < 2 ^ 42) (h : decMtx opc o = .ok i) : Encodes 2 opc o i := by
  unfold decMtx at h
  split at h
  case h_6 => contradiction
  all_goals exact decH_encodes ho (fun _ _ hx h => encodedAs_of_resv h rfl rfl hx fun hz => by simp_all [unpack]) h

theorem decAw_encodes {opc o : Nat} {i : Instr} (ho : o < 2 ^ 42) (h : decAw opc o = .ok i) : Encodes 3 opc o i := by
  unfold decAw at h
  split at h
  case h_6 => contradiction
  all_goals exact decW_encodes ho (fun _ _ hx h => encodedAs_of_resv h rfl rfl hx fun hz => by simp_all [unpack]) h

theorem decCpy_encodes {opc o : Nat} {i : Instr} (ho : o < 2 ^ 42) (h : decCpy opc o = .ok i) : Encodes 4 opc o i := by
  unfold decCpy at h
  split at h
  case h_7 => contradiction
  all_goals exact decH_encodes ho (fun _ _ hx h => encodedAs_of_resv h rfl rfl hx fun hz => by simp_all [unpack]) h

/-- An SAE word's OPC is its operation number above its three type bits (R74). -/
theorem decS_encodes {mk : SOp → Instr} {n opc o : Nat} {i : Instr} (hn : opc / 8 = n)
    (hmk : ∀ q, encodeParts (mk q) = some (5, n * 8 + q.ty.val, encS q)) (ho : o < 2 ^ 42) (h : decS mk (opc % 8) o = .ok i) :
    Encodes 5 opc o i := by
  have hopc : n * 8 + (Fin.ofNat 8 (opc % 8)).val = opc := by
    rw [Fin.val_ofNat]
    omega
  refine decH_encodes ho (fun hd x hx h => ?_) h
  exact encodedAs_of_resv h ((hmk _).trans (congrArg (fun c => some (5, c, encS _)) hopc)) rfl hx fun hz => by simp_all [unpack]

theorem decSae_encodes {opc o : Nat} {i : Instr} (ho : o < 2 ^ 42) (h : decSae opc o = .ok i) : Encodes 5 opc o i := by
  unfold decSae at h
  extract_lets ty at h
  split at h
  case h_10 => contradiction
  all_goals
    split at h
    case isFalse => contradiction
  case h_9 hn ht =>
    obtain rfl : opc = 0xF8 := by omega
    exact decH_encodes ho (fun _ _ hx h => encodedAs_of_resv h rfl rfl hx fun hz => by simp_all [unpack]) h
  all_goals exact decS_encodes ‹_› (fun _ => rfl) ho h

theorem decFsplit_encodes {hd : HOp} {x : Nat} {i : Instr} (hx : x < 2 ^ 11) (h : decFsplit hd x = .ok i) :
    EncodedAs (encH hd) 11 6 0x08 x i := by
  simp only [decFsplit, unpack] at h
  repeat' split at h
  any_goals contradiction
  all_goals exact encodedAs_of_resv h rfl rfl hx fun hz => by simp_all [unpack]

theorem decFur_encodes {opc o : Nat} {i : Instr} (ho : o < 2 ^ 42) (h : decFur opc o = .ok i) : Encodes 6 opc o i := by
  unfold decFur at h
  split at h
  case h_8 => exact decH_encodes ho (fun _ _ hx h => decFsplit_encodes hx h) h
  case h_11 => contradiction
  all_goals exact decH_encodes ho (fun _ _ hx h => encodedAs_of_resv h rfl rfl hx fun hz => by simp_all [unpack]) h

/-! ### The ALL class (R51) -/

/-- IDLE counts among the reserved bits. -/
theorem decAll_encodes {idle opc o : Nat} {i : Instr} (ho : o < 2 ^ 42) (h : decAll idle opc o = .ok i) : Encodes 15 opc o i := by
  unfold decAll at h
  split at h
  case h_5 => contradiction
  all_goals exact encodedAs_of_resv h rfl rfl ho fun hz => by simp_all [unpack]

/-! ### Whole words -/

theorem classOf_eq_eng {n : Nat} {t : Tag} (h : classOf n = some (.eng t)) : n = tagNum t := by
  unfold classOf at h
  split at h <;> cases h <;> rfl

theorem classOf_eq_all {n : Nat} (h : classOf n = some .all) : n = 15 := by
  unfold classOf at h
  split at h <;> cases h
  rfl

/-- What R75's checks let through is well formed, and what its bits decoded to. -/
theorem legalOr_eq_ok {d : Decoded} {i : Instr} (h : legalOr d = .ok i) : i.wf = true ∧ d = .ok i := by
  unfold legalOr at h
  split at h
  · contradiction
  · split at h
    · contradiction
    · obtain rfl := Except.ok.inj h
      exact ⟨by simp [Instr.wf, *], rfl⟩

/-- The class of a word that decodes encodes its instruction as the word's TAG, OPC and operands. -/
theorem decodeWord_encodes {w : Word} {i : Instr} (h : decodeWord w = .ok i) :
    i.wf = true ∧ Encodes (wordTag w) (wordOpc w) (wordOps w) i := by
  have ho : wordOps w < 2 ^ 42 := Nat.mod_lt _ (by decide)
  cases hc : classOf (wordTag w) with
  | none => simp [decodeWord, hc] at h
  | some k =>
    cases k with
    | all =>
      rw [classOf_eq_all hc]
      exact (legalOr_eq_ok ((decodeWord_all w hc).symm.trans h)).imp_right (decAll_encodes ho)
    | eng t =>
      rw [classOf_eq_eng hc]
      cases t with
      | ctl => exact (legalOr_eq_ok ((decodeWord_ctl w hc).symm.trans h)).imp_right (decCtl_encodes ho)
      | vec => exact (legalOr_eq_ok ((decodeWord_vec w hc).symm.trans h)).imp_right (decVec_encodes ho)
      | mtx => exact (legalOr_eq_ok ((decodeWord_mtx w hc).symm.trans h)).imp_right (decMtx_encodes ho)
      | aw => exact (legalOr_eq_ok ((decodeWord_aw w hc).symm.trans h)).imp_right (decAw_encodes ho)
      | cpy => exact (legalOr_eq_ok ((decodeWord_cpy w hc).symm.trans h)).imp_right (decCpy_encodes ho)
      | sae => exact (legalOr_eq_ok ((decodeWord_sae w hc).symm.trans h)).imp_right (decSae_encodes ho)
      | fur => exact (legalOr_eq_ok ((decodeWord_fur w hc).symm.trans h)).imp_right (decFur_encodes ho)

/-- An instruction laid out as a word's TAG, OPC and operands is encoded, with the word's IDLE, as the word. -/
theorem encode_of_encodes {w : Word} {i : Instr} (h : Encodes (wordTag w) (wordOpc w) (wordOps w) i) :
    encode (Fin.ofNat 1024 (wordIdle w)) i = some w := by
  obtain ⟨xs, he, -, hp⟩ := h
  have hi : wordIdle w % 1024 = wordIdle w := Nat.mod_mod _ _
  simp only [encode, he, hp, Fin.val_ofNat, hi]
  exact congrArg some (packWord_word w)

/-- Settles O2: each class reads its word's bits into the fields that the encoder lays out again. -/
theorem decodedWordsEncode : Obligations.DecodedWordsEncode := by
  intro w i h
  obtain ⟨hw, he⟩ := decodeWord_encodes h
  exact ⟨hw, encode_of_encodes he⟩

end Sys2Proof
end

section
/-! PROOFS. O37: the asynchronous causes. A soft error only marks a line; a key mismatch and a struck read only make a trap pending
(`Ctx.pend`); a breakpoint and a forced bracket accept a stop (`StopAccepted`); and the record of a forced stop with nothing to deliver is the
rollback of the bracket followed by the resumption at its cut. -/

namespace Sys2Proof.Machine

/-! ### What stays -/

/-- Registers and memory are as before where the context keeps its registers and the state its byte memories. -/
theorem sameRegs_of_mems {s t : State} {c : CoreId} {x : CtxId} (hs : (t.ctx c x).s = (s.ctx c x).s) (hh : (t.ctx c x).h = (s.ctx c x).h)
    (hm : t.mems = s.mems) : SameRegs s t c x := by
  obtain ⟨hd, hk⟩ := Prod.mk.inj hm
  exact ⟨hs, hh, fun a => by simp only [State.byte, State.hostByte, hd, hk, and_self]⟩

theorem SameRegs.trans {s t u : State} {c : CoreId} {x : CtxId} (h : SameRegs s t c x) (k : SameRegs t u c x) : SameRegs s u c x := by
  obtain ⟨hs, hh, hb⟩ := h
  obtain ⟨ks, kh, kb⟩ := k
  exact ⟨ks.trans hs, kh.trans hh, fun a => ⟨(kb a).1.trans (hb a).1, (kb a).2.trans (hb a).2⟩⟩

/-- A change of the context that keeps its registers. -/
theorem sameRegs_modCtx (s : State) (c : CoreId) (x : CtxId) (f : Ctx → Ctx) (hs : (f (s.ctx c x)).s = (s.ctx c x).s)
    (hh : (f (s.ctx c x)).h = (s.ctx c x).h) : SameRegs s (s.modCtx c x f) c x :=
  sameRegs_of_mems (by rw [State.ctx_modCtx_self, hs]) (by rw [State.ctx_modCtx_self, hh]) rfl

/-- A change of the core that keeps its contexts. -/
theorem ctx_modCore_of_ctxs (s : State) (c : CoreId) (f : Core → Core) (hf : (f (s.core c)).ctxs = (s.core c).ctxs) (x : CtxId) :
    (s.modCore c f).ctx c x = s.ctx c x := by
  simp only [State.ctx, Core.ctx, State.core_modCore_self, hf]

/-! ### Key mismatches (R230, R260) -/

theorem exec_keyMismatch {s : State} {c : CoreId} {x : CtxId} {p : CtxId × Vector Word 4}
    (h : (s.core c).keyFaults.find? (fun p => p.1 = x) = some p) :
    exec (.keyMismatch c x) s =
      .next ((s.modCore c fun k => { k with keyFaults := k.keyFaults.erase p }).modCtx c x fun k => k.pend s.cycle 0x0A 0 2 p.2) := by
  change execKeyMismatch c x s = _
  simp only [execKeyMismatch, h]

theorem keyMismatch_pends (s : State) (c : CoreId) (x : CtxId) (p : CtxId × Vector Word 4)
    (h : (s.core c).keyFaults.find? (fun p => p.1 = x) = some p) :
    ∃ t r, exec (.keyMismatch c x) s = .next t ∧ (t.ctx c x).pending = (s.ctx c x).pending ++ [r] ∧ r.async = true ∧ r.cause = 0x0A ∧
      r.level = 2 ∧ r.det = p.2 ∧ (t.core c).keyFaults = (s.core c).keyFaults.erase p ∧ SameRegs s t c x := by
  have hk : (s.modCore c fun k => { k with keyFaults := k.keyFaults.erase p }).ctx c x = s.ctx c x := ctx_modCore_of_ctxs s c _ rfl x
  refine ⟨_, _, exec_keyMismatch h, by rw [State.ctx_modCtx_self, hk]; rfl, rfl, rfl, rfl, rfl, ?_, ?_⟩
  · simp
  · exact sameRegs_of_mems (by rw [State.ctx_modCtx_self, hk]; rfl) (by rw [State.ctx_modCtx_self, hk]; rfl) rfl

/-! ### Soft errors (R14) -/

theorem exec_softError_dram {s : State} {l : Nat} (h : l.testBit 63 = false) :
    exec (.uncorrectedSoftError l) s = .next { s with bad := s.bad.insert l } := by
  change execUncorrectedSoftError l s = _
  simp only [execUncorrectedSoftError, h]
  rfl

/-- The number that names line `l` of typed buffer `b` of core `c` has bit 63 set and reads back as the three. -/
theorem bufLine_fields (c : CoreId) (b : Fin 4) (l : Fin 65536) :
    let n := 2 ^ 63 + c.val * 2 ^ 56 + b.val * 2 ^ 16 + l.val
    n.testBit 63 = true ∧ bits n 56 7 = c.val ∧ bits n 16 2 = b.val ∧ bits n 0 16 = l.val := by
  obtain ⟨hc, hb, hl⟩ := And.intro c.isLt (And.intro b.isLt l.isLt)
  simp only [Nat.testBit_eq_decide_div_mod_eq, bits, decide_eq_true_eq]
  omega

theorem exec_softError_buffer (s : State) (c : CoreId) (b : Fin 4) (l : Fin 65536) :
    exec (.uncorrectedSoftError (2 ^ 63 + c.val * 2 ^ 56 + b.val * 2 ^ 16 + l.val)) s =
      .next (s.modCore c fun k => { k with bad := k.bad.insert (b.val, l.val) }) := by
  obtain ⟨h63, hc, hb, hl⟩ := bufLine_fields c b l
  change execUncorrectedSoftError _ s = _
  simp only [execUncorrectedSoftError, h63, hc, hb, hl, if_true, Fin.ofNat_val_eq_self]
  rfl

theorem softError_marks_dram (s : State) (c : CoreId) (x : CtxId) (l : Nat) (h : l.testBit 63 = false) :
    ∃ t, exec (.uncorrectedSoftError l) s = .next t ∧ l ∈ t.bad ∧ (∀ m, m ∈ t.bad ↔ m = l ∨ m ∈ s.bad) ∧ SameRegs s t c x :=
  ⟨_, exec_softError_dram h, List.mem_insert_self, fun _ => List.mem_insert_iff, sameRegs_of_mems rfl rfl rfl⟩

theorem softError_marks_buffer (s : State) (c : CoreId) (x : CtxId) (b : Fin 4) (l : Fin 65536) :
    ∃ t, exec (.uncorrectedSoftError (2 ^ 63 + c.val * 2 ^ 56 + b.val * 2 ^ 16 + l.val)) s = .next t ∧
      (∀ m, m ∈ (t.core c).bad ↔ m = (b.val, l.val) ∨ m ∈ (s.core c).bad) ∧ t.bad = s.bad ∧ SameRegs s t c x := by
  have hk := ctx_modCore_of_ctxs s c (fun k => { k with bad := k.bad.insert (b.val, l.val) }) rfl x
  refine ⟨_, exec_softError_buffer s c b l, fun m => ?_, rfl, sameRegs_of_mems (by rw [hk]) (by rw [hk]) rfl⟩
  rw [State.core_modCore_self]
  exact List.mem_insert_iff

theorem readStruck_clean {s : State} {c : CoreId} {rd : List (Nat × Nat)} (h : ∀ m ∈ (s.core c).bad, inFootprint rd m = false)
    (x : CtxId) (path : Nat) : s.readStruck c x path rd = s := by
  have hf : (s.core c).bad.find? (inFootprint rd) = none := List.find?_eq_none.2 fun m hm => by simp [h m hm]
  simp only [State.readStruck, hf]

/-- Where no trap of cause 0x11 is pending, a read of a struck line makes one pending. -/
theorem readStruck_struck {s : State} {c : CoreId} {x : CtxId} {rd : List (Nat × Nat)} {m : Nat × Nat}
    (hf : (s.core c).bad.find? (inFootprint rd) = some m) (hp : ∀ r ∈ (s.ctx c x).pending, r.cause ≠ 0x11) (path : Nat) :
    s.readStruck c x path rd =
      s.modCtx c x fun k => k.pend s.cycle 0x11 0 1 #v[BitVec.ofNat 64 (2 ^ 63 + m.2), BitVec.ofNat 64 (pathCode path), 0, 0] := by
  simp only [State.readStruck, hf]
  refine State.modCtx_congr (if_neg ?_)
  simp only [List.any_eq_true, Bool.and_eq_true, decide_eq_true_eq, not_exists, not_and]
  exact fun r hr hc => absurd hc (hp r hr)

theorem readStruck_pends {s : State} {c : CoreId} {x : CtxId} {rd : List (Nat × Nat)} {m : Nat × Nat}
    (hf : (s.core c).bad.find? (inFootprint rd) = some m) (hp : ∀ r ∈ (s.ctx c x).pending, r.cause ≠ 0x11) (path : Nat) :
    ∃ r, ((s.readStruck c x path rd).ctx c x).pending = (s.ctx c x).pending ++ [r] ∧ r.async = true ∧ r.cause = 0x11 ∧ r.level = 1 ∧
      r.det[0] = BitVec.ofNat 64 (2 ^ 63 + m.2) ∧ SameRegs s (s.readStruck c x path rd) c x := by
  rw [readStruck_struck hf hp]
  exact ⟨_, by rw [State.ctx_modCtx_self]; rfl, rfl, rfl, rfl, rfl, sameRegs_modCtx s c x _ rfl rfl⟩

/-! ### Stops for asynchronous causes (R263) -/

/-- Context `x` of core `c` has gone to STOPPING with an empty record, its pending traps, its bracket, its registers, memory and the
breakpoints as before. -/
structure StopAccepted (s t : State) (c : CoreId) (x : CtxId) (forced : Bool) : Prop where
  phase : (t.ctx c x).phase = .stopping
  stop : ∃ st, (t.ctx c x).stop = some st ∧ st.forced = forced ∧ st.traps = []
  pending : (t.ctx c x).pending = (s.ctx c x).pending
  bracket : (t.ctx c x).bracket = (s.ctx c x).bracket
  obs : t.obs = s.obs
  regs : SameRegs s t c x

/-- The stop that is begun is forced as it was asked for, and the breakpoints stay. -/
theorem beginStop_forced (s : State) (c : CoreId) (x : CtxId) (traps : List TrapRec) (clamp forced : Bool) (cuts : List (Nat × CutEntry)) :
    (∃ st, ((s.beginStop c x traps clamp forced cuts).ctx c x).stop = some st ∧ st.forced = forced) ∧
    (s.beginStop c x traps clamp forced cuts).obs = s.obs := by
  unfold State.beginStop
  dsimp only
  generalize (if clamp = true then none else s.furOf c x) = rolled
  cases rolled with
  | none => exact ⟨⟨_, by rw [State.ctx_modCtx_self], rfl⟩, rfl⟩
  | some f => exact ⟨⟨_, by rw [State.ctx_modCtx_self], rfl⟩, rfl⟩

theorem beginStop_accepted (s : State) (c : CoreId) (x : CtxId) (clamp forced : Bool) :
    StopAccepted s (s.beginStop c x [] clamp forced []) c x forced := by
  obtain ⟨st, a, o, htraps, -, hctx, -⟩ := s.beginStop_ctx c x [] clamp forced []
  obtain ⟨⟨st', hst', hforced⟩, hobs⟩ := beginStop_forced s c x [] clamp forced []
  obtain rfl : st = st' := Option.some.inj (by rw [← hst', hctx])
  exact ⟨by rw [hctx], ⟨st, hst', hforced, htraps⟩, by rw [hctx], by rw [hctx], hobs,
    sameRegs_of_mems (by rw [hctx]) (by rw [hctx]) (State.beginStop_mems ..)⟩

/-- The clamp of a preemptible loop moves the walk alone. -/
theorem acceptStop_accepted (s : State) (c : CoreId) (x : CtxId) (forced : Bool) : StopAccepted s (s.acceptStop c x forced) c x forced := by
  unfold State.acceptStop
  dsimp only
  generalize (s.ctx c x).preemptible = clamp
  have h := beginStop_accepted s c x clamp forced
  cases clamp with
  | false => simpa using h
  | true =>
    obtain ⟨hphase, hstop, hpend, hbr, hobs, hregs⟩ := h
    exact ⟨by simpa using hphase, by simpa using hstop, by simpa using hpend, by simpa using hbr, hobs,
      hregs.trans (sameRegs_modCtx _ c x _ rfl rfl)⟩

/-! ### Breakpoints (R362) -/

/-- The pre-emption with PARK that breakpoint `b` raises in a context at level `pl`. -/
def breakTrap (b : Fin 16) (pl cycle : Nat) : TrapRec :=
  { async := true, cause := 0x10, code := 0, tag := 0, seq := 0, level := Nat.max 2 (pl + 1), park := true,
    det := #v[BitVec.ofNat 64 (2 ^ 63 + b.val), 0, 0, 0], at_ := cycle }

/-- Breakpoint `b` has hit, and its pre-emption is pending in context `x` of core `c`. -/
def State.breakHit (s : State) (b : Fin 16) (c : CoreId) (x : CtxId) : State :=
  ({ s with obs := { s.obs with bkpt := s.obs.bkpt.set b { s.obs.bkpt[b] with hit := true } } }).modCtx c x fun k =>
    { k with pending := k.pending ++ [breakTrap b (s.ctx c x).pl s.cycle] }

theorem exec_breakpointFire {s : State} {b : Fin 16} (h : s.breaks s.obs.bkpt[b] = true) :
    let n := nameParts s.obs.bkpt[b].name
    exec (.breakpointFire b) s = .next ((s.breakHit b n.1 n.2.1).acceptStop n.1 n.2.1 false) := by
  change execBreakpointFire b s = _
  simp only [execBreakpointFire, h, Bool.not_true, Bool.false_eq_true, if_false]
  rfl

theorem breakHit_ctx (s : State) (b : Fin 16) (c : CoreId) (x : CtxId) :
    (s.breakHit b c x).ctx c x = { s.ctx c x with pending := (s.ctx c x).pending ++ [breakTrap b (s.ctx c x).pl s.cycle] } :=
  State.ctx_modCtx_self ..

theorem breakHit_hit (s : State) (b : Fin 16) (c : CoreId) (x : CtxId) : (s.breakHit b c x).obs.bkpt[b].hit = true := by
  simp [State.breakHit]

theorem breakpointFire_stops (s : State) (b : Fin 16) (h : s.breaks s.obs.bkpt[b] = true) :
    let n := nameParts s.obs.bkpt[b].name
    ∃ t r, exec (.breakpointFire b) s = .next t ∧ t.obs.bkpt[b].hit = true ∧ (t.ctx n.1 n.2.1).phase = .stopping ∧
      (t.ctx n.1 n.2.1).pending = (s.ctx n.1 n.2.1).pending ++ [r] ∧ r.cause = 0x10 ∧ r.park = true ∧ SameRegs s t n.1 n.2.1 := by
  intro n
  obtain ⟨hphase, -, hpend, -, hobs, hregs⟩ := acceptStop_accepted (s.breakHit b n.1 n.2.1) n.1 n.2.1 false
  have hctx := breakHit_ctx s b n.1 n.2.1
  refine ⟨_, _, exec_breakpointFire h, ?_, hphase, hpend.trans (by rw [hctx]), rfl, rfl, SameRegs.trans ?_ hregs⟩
  · rw [hobs]
    exact breakHit_hit s b n.1 n.2.1
  · exact sameRegs_of_mems (by rw [hctx]) (by rw [hctx]) rfl

/-! ### Forced brackets (R277) -/

theorem bracketForce_stops (s : State) (c : CoreId) (x : CtxId) (b : Snap) (hb : (s.ctx c x).bracket = some b) (hi : b.images = [])
    (hd : s.forceDue c x = true) :
    ∃ t st, exec (.bracketForce c x) s = .next t ∧ (t.ctx c x).phase = .stopping ∧ (t.ctx c x).stop = some st ∧ st.forced = true ∧
      st.traps = [] ∧ (t.ctx c x).bracket = some b ∧ SameRegs s t c x := by
  have he : exec (.bracketForce c x) s = .next (s.acceptStop c x true) := by
    change execBracketForce c x s = _
    simp only [execBracketForce, hb, hd, if_true, hi, State.spoilImages, List.foldl_nil]
  obtain ⟨hphase, ⟨st, hst, hforced, htraps⟩, -, hbr, -, hregs⟩ := acceptStop_accepted s c x true
  exact ⟨_, st, he, hphase, hst, hforced, htraps, hbr.trans hb, hregs⟩

/-- A stop leaves the copies of other contexts alone (R221). -/
theorem parkCopies_of_others {s : State} {c : CoreId} {x : CtxId} (h : ∀ ch m, (s.core c).copyHead ch = some m → m.ctx ≠ x) :
    s.parkCopies c x = s := by
  refine List.foldl_fixed' (fun ch => ?_) _
  cases hm : (s.core c).copyHead ch with
  | none => rfl
  | some m => simp [h ch m hm]

theorem nextAsync_of_pending_nil {k : Ctx} (h : k.pending = []) : k.nextAsync = none := by
  simp only [Ctx.nextAsync, h, List.filter_nil, List.find?_nil]
  exact List.foldl_fixed' (fun _ => rfl) _

/-- A forced stop with nothing to deliver: the bracket is rolled back and the context goes on from the cut of its BOPEN (R263, R277). -/
theorem recordStop_forced {s : State} {c : CoreId} {x : CtxId} {b : Snap} {st : Stop} (hb : (s.ctx c x).bracket = some b)
    (hst : (s.ctx c x).stop = some st) (hf : st.forced = true) (ht : st.traps = []) (hp : (s.ctx c x).pending = []) :
    s.recordStop c x = (s.rollBracket c x).modCtx c x fun k =>
      ({ k.endStop with phase := if st.fromHandler then .handler else .running }).resumeCut (b.cut.getD ((s.ctx c x).theCut st)) none none
        s.cycle := by
  simp only [State.recordStop, hst, hb, hf, ht, if_true, nextAsync_of_pending_nil hp, Option.toList_none, List.append_nil, List.foldl_nil,
    List.isEmpty_nil, Core.tellRequesters, State.modCore_id, State.modCtx_id, State.acquireFor, State.recordTrap]

/-- What a resumption at a cut leaves: all but where the context stands in its text (R270). -/
theorem resumeCut_eq (k : Ctx) (q : Cut) (skip : Option Tag) (redirect : Option Nat) (cycle : Nat) :
    ∃ n text fork slip epoch fences owed stream walk cursors, k.resumeCut q skip redirect cycle =
      { k with n := n, text := text, fork := fork, slip := slip, epoch := epoch, fences := fences, owedFur := owed, stream := stream,
               walk := walk, cursors := cursors } :=
  ⟨_, _, _, _, _, _, _, _, _, _, rfl⟩

theorem rollBracket_ctx (s : State) (c : CoreId) (x : CtxId) : (s.rollBracket c x).ctx c x = (s.ctx c x).rollBracket := by
  unfold State.rollBracket
  dsimp only
  rw [State.ctx_modCtx_self]
  split
  · split
    · rw [ctx_modCore_of_ctxs]
      rfl
    · rfl
  · rfl

/-- The vector and mask registers come back where the grant holds the vector engine. -/
theorem rollBracket_vectors {s : State} {c : CoreId} {x : CtxId} {b : Snap} (hb : (s.ctx c x).bracket = some b) :
    ((s.rollBracket c x).core c).v = (if (s.grant c x).hasEng .vec then b.vregs else (s.core c).v) ∧
    ((s.rollBracket c x).core c).k = (if (s.grant c x).hasEng .vec then b.kregs else (s.core c).k) := by
  simp only [State.rollBracket, hb]
  split <;> simp

theorem stopRecord_rolls_back (s : State) (c : CoreId) (x : CtxId) (b : Snap) (st : Stop) (hb : (s.ctx c x).bracket = some b)
    (hd : s.recordDue c x = true) (hst : (s.ctx c x).stop = some st) (hf : st.forced = true) (ht : st.traps = [])
    (hp : (s.ctx c x).pending = []) (hc : ∀ ch m, (s.core c).copyHead ch = some m → m.ctx ≠ x) :
    ∃ t, exec (.stopRecord c x) s = .next t ∧ (t.ctx c x).bracket = none ∧ (t.ctx c x).deferred = [] ∧ (t.ctx c x).stop = none ∧
      (t.ctx c x).s = b.s ∧ (t.ctx c x).h = b.h ∧
      (t.ctx c x).vstat = b.vstat ∧ (t.ctx c x).vrkey = b.vrkey ∧ (t.ctx c x).vrctr = b.vrctr ∧ (t.ctx c x).slipwin = b.slipwin ∧
      (t.ctx c x).mstat = b.mstat ∧ (t.ctx c x).cstat = b.cstat ∧ (t.ctx c x).sstat = b.sstat ∧ (t.ctx c x).saecfg = b.saecfg ∧
      (t.ctx c x).htbase = b.htbase ∧ (t.ctx c x).s1root = b.s1root ∧ (t.ctx c x).bank = b.bank ∧
      (t.core c).v = (if (s.grant c x).hasEng .vec then b.vregs else (s.core c).v) ∧
      (t.core c).k = (if (s.grant c x).hasEng .vec then b.kregs else (s.core c).k) ∧ ∀ m, t.byte m = s.byte m := by
  have hr := recordStop_forced hb hst hf ht hp
  have he : exec (.stopRecord c x) s = .next (s.recordStop c x) := by
    change execStopRecord c x s = _
    simp only [execStopRecord, hd, if_true, parkCopies_of_others hc]
  have hm : (s.recordStop c x).mems = s.mems := by rw [hr, State.modCtx_mems, State.rollBracket_mems]
  obtain ⟨hv, hk⟩ := rollBracket_vectors hb
  obtain ⟨_, _, _, _, _, _, _, _, _, _, hres⟩ :=
    resumeCut_eq { (s.ctx c x).rollBracket.endStop with phase := if st.fromHandler then .handler else .running }
      (b.cut.getD ((s.ctx c x).theCut st)) none none s.cycle
  refine ⟨_, he, ?_⟩
  rw [hr, State.ctx_modCtx_self, rollBracket_ctx, hres, State.core_modCtx_self, ← hr]
  simp only [Ctx.endStop, Ctx.rollBracket, hb, Core.modCtx_v, Core.modCtx_k, hv, hk, true_and]
  exact fun m => congrArg (fun p : Mem × Mem => sget p.1 m) hm

/-- Settles O37: one lemma for each cause. -/
theorem asynchronousCauses : Obligations.AsynchronousCauses := by
  intro s c x
  refine ⟨keyMismatch_pends s c x, softError_marks_dram s c x, softError_marks_buffer s c x, fun path rd => ⟨?_, ?_⟩, breakpointFire_stops s,
    bracketForce_stops s c x, ?_⟩
  · exact fun h => readStruck_clean h x path
  · exact fun m hf hp => readStruck_pends hf hp path
  · exact fun b st hb _ hd hst hf ht hp hc _ => stopRecord_rolls_back s c x b st hb hd hst hf ht hp hc

end Sys2Proof.Machine
end

section
/-! PROOFS. O24: the issue slot of a cursor runs the word at the head of its queue, and a poll that finds nothing ends the cycle (R40, R54). -/

namespace Sys2Proof.Machine

/-! ### The poll (assumption log 4) -/

/-- The head word of a cursor that may issue is what its slot has ready: a WFE without its event by its timeout (R40, R106). -/
theorem issueAct_of_head {s : State} {a : Agent} {e : SEntry} {i : Instr} (hc : s.ctlHalted a.core a.tag = false)
    (hr : s.runs a.core a.ctx = true) (hd : (s.ctx a.core a.ctx).draining = true → a.tag ≠ .ctl)
    (hh : (s.ctx a.core a.ctx).head a.tag = some e) (hi : e.ins = some i) (hp : s.idlePast a.core a.ctx a.tag e = true)
    (hn : ({ s with cur := a }).held i = false) :
    s.issueAct a = some (if isWfe i && !(s.ctx a.core a.ctx).evt then .wfeTimeout a.core a.ctx else i) := by
  have hdrain : ((s.ctx a.core a.ctx).draining && (s.ctx a.core a.ctx).phase = .running && a.tag = .ctl) = false := by
    rcases hb : (s.ctx a.core a.ctx).draining with _ | _
    · rfl
    · simp [hd hb]
  simp only [State.issueAct, hc, hr, hdrain, hh, hp, hi, hn, Bool.true_or, Bool.not_true, Bool.or_self, Bool.false_eq_true, if_false]
  split <;> rfl

/-- The slot in which a cursor issues takes its word from that cursor: the control core from the context whose turn it is, an engine from
the context that holds it. -/
theorem slotAct_issue {s : State} {c : CoreId} {x : CtxId} {t : Tag} {i : Instr}
    (ht : if t = .ctl then (s.core c).ctlBusy ≤ s.cycle ∧ x = Fin.ofNat 4 ((s.core c).rr + 1) else s.engCtx c t = some x)
    (hi : s.issueAct { core := c, ctx := x, tag := t } = some i) :
    s.slotAct c (engSlot t) = some (i, { core := c, ctx := x, tag := t }) := by
  cases t with
  | ctl =>
    obtain ⟨hb, rfl⟩ := ht
    have hr : List.range 4 = [0, 1, 2, 3] := rfl
    simp [-Fin.ofNat_eq_cast, State.slotAct, engSlot, Nat.not_lt.2 hb, hr, hi]
  | _ => simp_all [State.slotAct, engSlot, engTags]

/-- A slot that has something ready is the first of its core from itself on. -/
theorem coreAct_of_slotAct {s : State} {c : CoreId} {n : Nat} {p : Instr × Agent} (hn : n < coreSlots) (hq : (s.core c).quiet = false)
    (h : s.slotAct c n = some p) : s.coreAct c n = some (n, p.1, p.2) := by
  have hl : n < (List.range coreSlots).length := by simpa using hn
  simp [State.coreAct, hq, List.drop_eq_getElem_cons hl, h]

/-- The poll that stands at a slot that has something ready runs it, and stands past the slot then. -/
theorem poll_of_slotAct {s : State} {c : CoreId} {n : Nat} {p : Instr × Agent} (hn : n < coreSlots) (h4 : 4 < n)
    (ht : s.turn = 1 + coreSlots * c.val + n) (hq : (s.core c).quiet = false) (h : s.slotAct c n = some p) :
    s.poll = .act p.1 { s with cur := p.2, turn := 1 + coreSlots * c.val + (n + 1) } := by
  have hl : c.val < (List.finRange 128).length := by simp
  have h0 : s.turn ≠ 0 := by omega
  have hdiv : (s.turn - 1) / coreSlots = c.val := by simp only [coreSlots] at *; omega
  have hmod : (s.turn - 1) % coreSlots = n := by simp only [coreSlots] at *; omega
  simp [State.poll, h0, hdiv, hmod, List.drop_eq_getElem_cons hl, coreAct_of_slotAct hn hq h, Nat.not_le.2 h4]

theorem engSlot_bounds (t : Tag) : 4 < engSlot t ∧ engSlot t < coreSlots := by
  cases t <;> decide

/-- A word polled in a context that is not stopping takes its effect. -/
theorem settle_of_not_stopping {s : State} (h : s.me.phase ≠ .stopping) (r : State) : s.settle r = r := by
  have hp : s.probing s.cur.core s.cur.ctx = false := by
    have h' : (s.ctx s.cur.core s.cur.ctx).phase ≠ .stopping := h
    simp [State.probing, h']
  simp [State.settle, hp]

/-- A poll that finds nothing ready ends the cycle. -/
theorem poll_tick {s t : State} (h : s.poll = .tick t) : t = s.tick := by
  unfold State.poll at h
  split at h
  · contradiction
  · dsimp only at h
    split at h
    · contradiction
    · exact (Poll.tick.inj h).symm

/-- Settles O24. -/
theorem stepRunsTheHeadWord : Obligations.StepRunsTheHeadWord := by
  refine ⟨fun s c x t e i => ?_, fun s t h => ?_⟩
  · intro s1 j hturn hq hr hph hhalt hdrain hslot hhead hins hidle hheld
    obtain ⟨h4, h44⟩ := engSlot_bounds t
    have hpoll : s.poll = .act j s1 :=
      poll_of_slotAct h44 h4 hturn hq (slotAct_issue hslot (issueAct_of_head hhalt hr hdrain hhead hins hidle hheld))
    have hrun : s1.me.phase ≠ .stopping := hph
    exact ⟨hpoll, fun r h => by simp only [step, hpoll, h, settle_of_not_stopping hrun], fun f h => by simp only [step, hpoll, h]⟩
  · obtain rfl := poll_tick h
    exact ⟨by simp only [step, h], rfl, rfl⟩

end Sys2Proof.Machine
end
section
/-! PROOFS. O6: branches and jumps. A transfer that is taken issues and moves the walk (`issued_modMe`); in a fork set it traps (R34). -/

namespace Sys2Proof.Machine

/-! ### Issue with an effect on the own context -/

/-- A word that issues and changes its own context: all else it leaves. What it does to the bookkeeping of the issue is put back. -/
theorem issued_modMe (s : State) (f g : Ctx → Ctx)
    (h : ∀ a b c d, (f { s.me with stream := a, cursors := b, cnt := c, owedFur := d }).unissue s.me = g s.me) :
    Issued s (s.issued.modMe f) g := by
  obtain ⟨a, b, c, d, hi⟩ := s.issued_me_eq
  exact ⟨s.unissue_modMe f g (hi ▸ h a b c d), fun a => by simp [State.byte, State.hostByte]⟩

/-- A word that only issues. -/
theorem issued_id (s : State) : Issued s s.issued id :=
  ⟨by rw [State.unissue_issued, State.modMe_id (f := id) rfl], fun a => by simp [State.byte, State.hostByte]⟩

/-- The operand-range trap of the running word (R77, R269). -/
theorem trapped_range {s : State} (h : s.live) : Trapped s s.trapRange 0x02 0 1 s.wordDetail :=
  trapped_raise s h 2 0 1 s.wordDetail

/-! ### Transfers (R34, R90, R91) -/

theorem branch_not_taken (s : State) (off : BitVec 30) : ∃ t, s.branch false off = .next t ∧ Issued s t id :=
  ⟨_, rfl, issued_id s⟩

theorem branch_taken {s : State} (h : s.me.fork = none) (off : BitVec 30) :
    ∃ t, s.branch true off = .next t ∧ Issued s t fun k => k.goTo (((s.curPc : Int) + 8 * off.toInt) % 2 ^ 64).toNat := by
  refine ⟨s.issued.takeJump (branchTarget s.curPc off), by simp [State.branch, State.inFork, h], ?_⟩
  rw [State.takeJump, State.jumpTo, State.modMe_modMe]
  exact issued_modMe s _ _ fun _ _ _ _ => rfl

theorem branch_traps {s : State} (hf : s.me.fork.isSome = true) (hl : s.live) (off : BitVec 30) :
    ∃ t, s.branch true off = .next t ∧ Trapped s t 0x02 0 1 s.wordDetail :=
  ⟨_, by simp only [State.branch, State.inFork, hf]; rfl, trapped_range hl⟩

/-- A jump's link and its target. -/
theorem issued_link (s : State) (d : SReg) (v : Word) (pc : Nat) :
    Issued s ((s.issued.wrS d v).takeJump pc) fun k => (k.wrS d v).goTo pc := by
  rw [State.takeJump, State.jumpTo, State.wrS, State.modMe_modMe, State.modMe_modMe]
  refine issued_modMe s _ _ fun _ _ _ _ => ?_
  unfold Ctx.wrS
  split <;> rfl

theorem exec_jal_of_no_fork {s : State} (h : s.me.fork = none) (d : SReg) (imm : BitVec 30) :
    ∃ t, exec (.jal d imm) s = .next t ∧
      Issued s t fun k => (k.wrS d (BitVec.ofNat 64 (s.curPc + 8))).goTo (((s.curPc : Int) + 8 * imm.toInt) % 2 ^ 64).toNat :=
  ⟨_, by change execJal d imm s = _; simp [execJal, State.inFork, h]; rfl, issued_link s d _ _⟩

theorem exec_jalr_of_no_fork {s : State} (h : s.me.fork = none) (d a : SReg) (imm : BitVec 30) :
    ∃ t, exec (.jalr d a imm) s = .next t ∧
      Issued s t fun k => (k.wrS d (BitVec.ofNat 64 (s.curPc + 8))).goTo (s.rdS a + BitVec.ofInt 64 imm.toInt).toNat :=
  ⟨_, by change execJalr d a imm s = _; simp [execJalr, State.inFork, h]; rfl, issued_link s d _ _⟩

/-- Jumps trap in a fork set. -/
theorem exec_jump_traps {s : State} (hf : s.me.fork.isSome = true) (hl : s.live) (a b : SReg) (off : BitVec 30) :
    ∀ i ∈ [Instr.jal a off, .jalr a b off], ∃ t, exec i s = .next t ∧ Trapped s t 0x02 0 1 s.wordDetail := by
  have hj : exec (.jal a off) s = .next s.trapRange := by
    change execJal a off s = _
    simp [execJal, State.inFork, hf]
  have hr : exec (.jalr a b off) s = .next s.trapRange := by
    change execJalr a b off s = _
    simp [execJalr, State.inFork, hf]
  simp only [List.forall_mem_cons, List.not_mem_nil, false_implies, implies_true, and_true]
  exact ⟨⟨_, hj, trapped_range hl⟩, _, hr, trapped_range hl⟩

/-- A conditional branch is `State.branch` on its condition as R90 words it. -/
theorem exec_conditional (s : State) (a b : SReg) (off : BitVec 30) :
    ∀ p ∈ [(Instr.beq a b off, decide (s.rdS a = s.rdS b)), (.bne a b off, decide (s.rdS a ≠ s.rdS b)),
        (.blt a b off, decide ((s.rdS a).toInt < (s.rdS b).toInt)), (.bge a b off, decide ((s.rdS a).toInt ≥ (s.rdS b).toInt)),
        (.bltu a b off, decide ((s.rdS a).toNat < (s.rdS b).toNat)), (.bgeu a b off, decide ((s.rdS a).toNat ≥ (s.rdS b).toNat))],
      exec p.1 s = s.branch p.2 off := by
  have hge : (!(s.rdS a).slt (s.rdS b)) = decide ((s.rdS a).toInt ≥ (s.rdS b).toInt) := by simp [BitVec.slt, ← decide_not]
  have hgeu : (!(s.rdS a).ult (s.rdS b)) = decide ((s.rdS a).toNat ≥ (s.rdS b).toNat) := by simp [BitVec.ult, ← decide_not]
  simp only [List.forall_mem_cons, List.not_mem_nil, false_implies, implies_true, and_true, ← hge, ← hgeu]
  exact ⟨rfl, rfl, rfl, rfl, rfl, rfl⟩

/-- Settles O6. -/
theorem branchesAndJumps : Obligations.BranchesAndJumps := by
  refine ⟨fun s a b off => ?_, fun s d a imm h => ⟨exec_jal_of_no_fork h d imm, exec_jalr_of_no_fork h d a imm⟩, fun s a b off hf hl => ?_⟩
  · intro x y p hp
    rw [exec_conditional s a b off p hp]
    exact ⟨fun h => h ▸ branch_not_taken s off, fun h hf => h ▸ branch_taken hf off⟩
  · obtain ⟨heq, hne, hlt, hge, hltu, hgeu, -⟩ := by
      simpa only [List.forall_mem_cons] using exec_conditional s a b off
    have traps := branch_traps hf hl off
    refine ⟨exec_jump_traps hf hl a b off, fun h => ?_, fun h => ?_, fun h => ?_⟩
    · simp only [h, ge_iff_le, le_refl, decide_true] at heq hge hgeu
      simpa only [List.forall_mem_cons, List.not_mem_nil, false_implies, implies_true, and_true, heq, hge, hgeu, and_self] using traps
    · have hd : s.rdS a ≠ s.rdS b := fun e => absurd (e ▸ h) (lt_irrefl _)
      simp only [h, hd, ne_eq, not_false_eq_true, decide_true] at hlt hne
      simpa only [List.forall_mem_cons, List.not_mem_nil, false_implies, implies_true, and_true, hlt, hne, and_self] using traps
    · simpa only [hltu, h, decide_true] using traps

end Sys2Proof.Machine
end

section
/-! PROOFS. O21, O22: the ALL words. The cursor that is the first to reach one acts on the walk and passes it (`reachAll_first`,
`firstAll_acts`), or raises its trap (`firstAll_traps`); no register and no byte changes but a loop counter. -/

namespace Sys2Proof.Machine

/-! ### Cursors -/

@[simp] theorem Ctx.cursor_modCursor_self (k : Ctx) (t : Tag) (f : Cursor → Cursor) : (k.modCursor t f).cursor t = f (k.cursor t) :=
  Vector.getElem_set_self ..

/-! ### Data that stays -/

/-- A change of the running context that keeps its registers. -/
theorem sameData_modMe (s : State) (f : Ctx → Ctx) (hs : (f s.me).s = s.me.s) (hh : (f s.me).h = s.me.h) : SameData s (s.modMe f) :=
  ⟨fun r => by simp [State.rdS, Ctx.rdS, hs], fun r => by simp [State.rdH, hh], fun _ => ⟨rfl, rfl⟩⟩

theorem SameData.trans {s t u : State} (h : SameData s t) (k : SameData t u) : SameData s u := by
  obtain ⟨hs, hh, hb⟩ := h
  obtain ⟨ks, kh, kb⟩ := k
  exact ⟨fun r => (ks r).trans (hs r), fun r => (kh r).trans (hh r), fun a => ⟨(kb a).1.trans (hb a).1, (kb a).2.trans (hb a).2⟩⟩

/-! ### Reaching an ALL word (R48 to R52) -/

/-- A cursor that finds no entry at its place is the first to reach the word there. -/
theorem reachAll_first {s : State} {i : Instr} (h : s.me.entryAt (s.me.cursor s.cur.tag).next = none) (hi : i.isWord = true)
    (old : SEntry → Ctx → Ctx) (act : State → State) : s.reachAll i old act = .next (act s).fetched := by
  have he : (encode 0 i).isSome = true := by
    unfold Instr.isWord at hi
    unfold encode
    split <;> simp_all
  simp [State.reachAll, h, he]

/-- The running context after the first cursor has acted on an ALL word in place. -/
def Ctx.actedAll (k : Ctx) (i : Instr) (t : Tag) (cycle : Nat) (f : Ctx → Ctx) : Ctx :=
  (f (k.genAll i 0 (k.allWalk i))).modCursor t fun c => { c with notBefore := cycle + 1 }

/-- An ALL word in place acts on the walk, and its cursor goes on as `f` says. -/
theorem firstAll_acts {s : State} {i : Instr} (h : s.me.allSub i = 0) (f : Ctx → Ctx) :
    (s.firstAll i f).fetched = s.modMe fun k => k.actedAll i s.cur.tag s.cycle f := by
  simp only [State.firstAll, h, ne_eq, not_true_eq_false, if_false, State.fetched, State.modMe_modMe, State.modMe_cur, State.modMe_cycle]
  rfl

@[simp] theorem Ctx.actedAll_walk (k : Ctx) (i : Instr) (t : Tag) (cycle : Nat) (f : Ctx → Ctx) :
    (k.actedAll i t cycle f).walk = (f (k.genAll i 0 (k.allWalk i))).walk := rfl

@[simp] theorem Ctx.actedAll_n (k : Ctx) (i : Instr) (t : Tag) (cycle : Nat) (f : Ctx → Ctx) :
    (k.actedAll i t cycle f).n = (f (k.genAll i 0 (k.allWalk i))).n := rfl

theorem Ctx.actedAll_cursor (k : Ctx) (i : Instr) (t : Tag) (cycle : Nat) (f : Ctx → Ctx) :
    (k.actedAll i t cycle f).cursor t = { (f (k.genAll i 0 (k.allWalk i))).cursor t with notBefore := cycle + 1 } :=
  Ctx.cursor_modCursor_self ..

@[simp] theorem Ctx.genAll_walk (k : Ctx) (i : Instr) (n : Nat) (f : Walk → Walk) : (k.genAll i n f).walk = f k.walk := rfl
@[simp] theorem Ctx.genAll_n (k : Ctx) (i : Instr) (n : Nat) (f : Walk → Walk) : (k.genAll i n f).n = k.n := rfl
@[simp] theorem Ctx.genAll_cursor (k : Ctx) (i : Instr) (n : Nat) (f : Walk → Walk) (t : Tag) : (k.genAll i n f).cursor t = k.cursor t := rfl
@[simp] theorem Ctx.passEntry_walk (k : Ctx) (t : Tag) : (k.passEntry t).walk = k.walk := rfl
@[simp] theorem Ctx.passEntry_n (k : Ctx) (t : Tag) : (k.passEntry t).n = k.n := rfl

@[simp] theorem Ctx.showPass_walk (k : Ctx) (t : Tag) (nc : Fin 4) (j : Nat) : (k.showPass t nc j).walk = k.walk := by
  unfold Ctx.showPass
  split <;> rfl

@[simp] theorem Ctx.showPass_ctl_n (k : Ctx) (nc : Fin 4) (j : Nat) : (k.showPass .ctl nc j).n[nc] = j := by simp [Ctx.showPass]

@[simp] theorem Ctx.showPass_s (k : Ctx) (t : Tag) (nc : Fin 4) (j : Nat) : (k.showPass t nc j).s = k.s := by
  unfold Ctx.showPass
  split <;> rfl

@[simp] theorem Ctx.showPass_h (k : Ctx) (t : Tag) (nc : Fin 4) (j : Nat) : (k.showPass t nc j).h = k.h := by
  unfold Ctx.showPass
  split <;> rfl

/-- What an ALL word in place leaves: scalar and header registers, and bytes. -/
theorem sameData_actedAll (s : State) (i : Instr) (t : Tag) (cycle : Nat) {f : Ctx → Ctx} (hs : ∀ k, (f k).s = k.s) (hh : ∀ k, (f k).h = k.h) :
    SameData s (s.modMe fun k => k.actedAll i t cycle f) :=
  sameData_modMe s _ (hs _) (hh _)

/-! ### RDV and STG (R37, R49) -/

theorem exec_rdv_acts {s : State} (h : s.me.entryAt (s.me.cursor s.cur.tag).next = none) (hf : s.me.fork.isSome = true)
    (hl : s.me.walk.loops = []) : exec .rdv s = .next (s.modMe fun k => k.actedAll .rdv s.cur.tag s.cycle fun k =>
      if s.cur.tag = .ctl then k.passEntry s.cur.tag else k.modCursor s.cur.tag fun c => { c with stopped := true }) := by
  have hsub : s.me.allSub .rdv = 0 := by simp [Ctx.allSub, hl, Option.isNone_eq_false_iff.2 hf]
  rw [← firstAll_acts hsub]
  change execRdv s = _
  rw [execRdv, reachAll_first (i := .rdv) h rfl]

theorem exec_stg_acts {s : State} {st : Fin 8} {l : Loop} {rest : List Loop} (h : s.me.entryAt (s.me.cursor s.cur.tag).next = none)
    (hl : s.me.walk.loops = l :: rest) (hst : st.val < l.s) :
    exec (.stg st) s = .next (s.modMe fun k => k.actedAll (.stg st) s.cur.tag s.cycle fun k => k.passEntry s.cur.tag) := by
  have hsub : s.me.allSub (.stg st) = 0 := by simp [Ctx.allSub, hl, hst]
  rw [← firstAll_acts hsub]
  change execStg st s = _
  rw [execStg, reachAll_first (i := .stg st) h rfl]

/-- Settles O22. -/
theorem rendezvousAndStages : Obligations.RendezvousAndStages := by
  intro s h
  refine ⟨fun hf hl => ⟨_, exec_rdv_acts h hf hl, fun ht => ?_, fun ht => ?_, ?_, ?_⟩,
    fun st l rest hl hst => ⟨_, exec_stg_acts h hl hst, ?_, ?_, ?_, ?_⟩⟩
  · simp [Ctx.actedAll_cursor, ht]
  · simp [← ht, Ctx.actedAll_cursor, Ctx.passEntry]
  · simp only [State.me_modMe, Ctx.actedAll_walk]
    split <;> rfl
  · exact sameData_actedAll s _ _ _ (fun k => by split <;> rfl) (fun k => by split <;> rfl)
  · simp [Ctx.allWalk]
  · simpa [Ctx.allWalk, Walk.past] using hl
  · simp [Ctx.allWalk, Walk.past]
  · exact sameData_actedAll s _ _ _ (fun _ => rfl) (fun _ => rfl)

/-! ### LOOP and LOOPE (R48 to R52) -/

/-- The context after LOOP for its first cursor: the pass of the loop just opened is shown in its counter (R48). -/
def Ctx.enterLoop (k : Ctx) (t : Tag) (nc : Fin 4) : Ctx :=
  (k.showPass t nc (match k.walk.loops with | l :: _ => l.j | [] => 0)).passEntry t

theorem exec_loop_first {s : State} (h : s.me.entryAt (s.me.cursor s.cur.tag).next = none) (nc : Fin 4) (ts : SReg) (st : Fin 8) (p : Bool) :
    exec (.loop nc ts st p) s = .next (s.firstAll (.loop nc ts st p) fun k => k.enterLoop s.cur.tag nc).fetched := by
  change execLoop nc ts st p s = _
  rw [execLoop, reachAll_first (i := .loop nc ts st p) h rfl]
  rfl

/-- A LOOP on a free counter, with room and not a pipelined inner loop, is in place (R52). -/
theorem allSub_loop_ok {k : Ctx} {nc : Fin 4} {ts : SReg} {st : Fin 8} {p : Bool} (hn : ∀ l ∈ k.walk.loops, l.nc ≠ nc.val)
    (hl : k.walk.loops.length < 4) (hp : p = true → k.walk.loops = []) : k.allSub (.loop nc ts st p) = 0 := by
  have hany : k.walk.loops.any (fun l => l.nc = nc.val) = false := by simpa using hn
  have hpipe : (p && !k.walk.loops.isEmpty) = false := by
    cases p
    · rfl
    · simp [hp rfl]
  simp [Ctx.allSub, hany, hl, hpipe]

theorem allSub_loop_open {k : Ctx} {nc : Fin 4} {ts : SReg} {st : Fin 8} {p : Bool} (h : ∃ l ∈ k.walk.loops, l.nc = nc.val) :
    k.allSub (.loop nc ts st p) = 10 := by
  have hany : k.walk.loops.any (fun l => l.nc = nc.val) = true := by simpa using h
  simp [Ctx.allSub, hany]

/-- A misused LOOP, LOOPE or STG whose cursor has nothing left to issue raises the operand-range trap (R52). -/
theorem firstAll_traps {s : State} {i : Instr} (h : s.me.allSub i = 10) (hw : s.me.waiting s.cur.tag = []) (hl : s.live) (f : Ctx → Ctx) :
    ∃ st r, (s.firstAll i f).fetched.me.stop = some st ∧ st.traps = [r] ∧ r.cause = 0x02 ∧ SameData s (s.firstAll i f).fetched := by
  have he : s.firstAll i f = s.raiseFetch 2 10 s.me.walk.idx ((encode 0 i).getD 0) := by simp [State.firstAll, h, State.badAll, hw]
  obtain ⟨hph, hstop⟩ := hl
  have hstop : (s.ctx s.cur.core s.cur.ctx).stop = none := hstop
  have hph : ((s.ctx s.cur.core s.cur.ctx).phase = .running || (s.ctx s.cur.core s.cur.ctx).phase = .handler) = true := by
    simpa using show (s.ctx s.cur.core s.cur.ctx).phase = .running ∨ (s.ctx s.cur.core s.cur.ctx).phase = .handler from hph
  simp only [he, State.raiseFetch, State.raiseAt, hstop, hph, if_true]
  generalize hr : (TrapRec.mk _ _ _ _ _ _ _ _ _) = r
  obtain ⟨st, a, o, htraps, -, hctx, hcur, hmem, hhost, -⟩ := s.beginStop_ctx s.cur.core s.cur.ctx [r] false false []
  generalize s.beginStop s.cur.core s.cur.ctx [r] false false [] = u at *
  have hme : u.me = { s.me with phase := .stopping, waitFrom := none, wfeFrom := none, accesses := a, owedFur := o, stop := some st } := by
    rw [State.me, hcur]
    exact hctx
  refine ⟨st, r, by simp [State.fetched, hme], htraps, by rw [← hr], ?_⟩
  exact SameData.trans ⟨fun q => by simp [State.rdS, Ctx.rdS, hme], fun q => by simp [State.rdH, hme], fun b => by simp [State.byte, State.hostByte, hmem, hhost]⟩
    (sameData_modMe u _ rfl rfl)

/-- The loop that a LOOP word opens where no cut has recorded one and its predicate is on. -/
theorem opened_new {w : Walk} (ho : w.owed = []) (hon : w.on = true) (nc st : Nat) (p : Bool) (v : Word) :
    w.opened nc st p v =
      { nc := nc, pc := w.pc, idx := w.idx, origN := v.toNat % 2 ^ 32, n := v.toNat % 2 ^ 32, s := st, i := 0,
        e := if v.toNat % 2 ^ 32 > 0 then v.toNat % 2 ^ 32 + st - 2 else 0, j := 0, p := p, stageOut := w.stage, sT := v, iNext := 0,
        clamped := false } := by
  simp [Walk.opened, ho, hon]

theorem exec_loop_opens {s : State} {nc : Fin 4} {p : Bool} (h : s.me.entryAt (s.me.cursor s.cur.tag).next = none) (ho : s.me.walk.owed = [])
    (hon : s.me.walk.on = true) (hn : ∀ l ∈ s.me.walk.loops, l.nc ≠ nc.val) (hl : s.me.walk.loops.length < 4)
    (hp : p = true → s.me.walk.loops = []) (ts : SReg) (st : Fin 8) :
    ∃ t l, exec (.loop nc ts st p) s = .next t ∧ t.me.walk.loops = l :: s.me.walk.loops ∧ l.nc = nc.val ∧ l.n = (s.me.s.get ts).toNat % 2 ^ 32 ∧
      l.s = st.val + 1 ∧ l.i = 0 ∧ l.j = 0 ∧ l.p = p ∧ l.e = (if l.n > 0 then l.n + l.s - 2 else 0) ∧ t.me.walk.pc = s.me.walk.pc + 8 ∧
      t.me.walk.stage = 0 ∧ (s.cur.tag = .ctl → t.me.n[nc] = 0) ∧ SameData s t := by
  have hnew := opened_new ho hon nc.val (st.val + 1) p (s.me.s.get ts)
  refine ⟨_, s.me.walk.opened nc.val (st.val + 1) p (s.me.s.get ts), by rw [exec_loop_first h, firstAll_acts (allSub_loop_ok hn hl hp)], ?_⟩
  simp only [State.me_modMe, Ctx.actedAll_walk, Ctx.actedAll_n, Ctx.enterLoop, Ctx.passEntry_walk, Ctx.passEntry_n, Ctx.showPass_walk,
    Ctx.genAll_walk, Ctx.allWalk, Walk.past, hnew, true_and]
  refine ⟨fun ht => ?_, ?_⟩
  · rw [ht, Ctx.showPass_ctl_n]
  · exact sameData_actedAll s _ _ _ (fun k => Ctx.showPass_s ..) (fun k => Ctx.showPass_h ..)

theorem exec_loop_traps {s : State} {nc : Fin 4} (h : s.me.entryAt (s.me.cursor s.cur.tag).next = none)
    (ho : ∃ l ∈ s.me.walk.loops, l.nc = nc.val) (hw : s.me.waiting s.cur.tag = []) (hl : s.live) (ts : SReg) (st : Fin 8) (p : Bool) :
    ∃ t st' r, exec (.loop nc ts st p) s = .next t ∧ t.me.stop = some st' ∧ st'.traps = [r] ∧ r.cause = 0x02 ∧ SameData s t := by
  obtain ⟨st', r, hstop⟩ := firstAll_traps (allSub_loop_open (ts := ts) (st := st) (p := p) ho) hw hl fun k => k.enterLoop s.cur.tag nc
  exact ⟨_, st', r, exec_loop_first h nc ts st p, hstop⟩

/-- What LOOPE of an unclamped loop shows of the next pass. -/
def Ctx.showNext (k : Ctx) (t : Tag) (nc : Fin 4) (l : Loop) : Ctx := if l.j < l.e then k.showPass t nc (l.j + 1) else k

@[simp] theorem Ctx.showNext_walk (k : Ctx) (t : Tag) (nc : Fin 4) (l : Loop) : (k.showNext t nc l).walk = k.walk := by
  unfold Ctx.showNext
  split <;> simp

/-- LOOPE of the innermost loop, unclamped, acts (R50). -/
theorem exec_loope_acts {s : State} {nc : Fin 4} {l : Loop} {rest : List Loop} (h : s.me.entryAt (s.me.cursor s.cur.tag).next = none)
    (hl : s.me.walk.loops = l :: rest) (hn : l.nc = nc.val) (hc : l.clamped = false) :
    exec (.loope nc) s = .next (s.modMe fun k => k.actedAll (.loope nc) s.cur.tag s.cycle fun k => (k.showNext s.cur.tag nc l).passEntry s.cur.tag) := by
  have hsub : s.me.allSub (.loope nc) = 0 := by simp [Ctx.allSub, hl, hn]
  rw [← firstAll_acts hsub]
  change execLoope nc s = _
  rw [execLoope, reachAll_first (i := .loope nc) h rfl]
  simp only [hl, hc, Bool.false_and, Bool.false_eq_true, if_false]
  rfl

/-- The walk past LOOPE of an unclamped loop: back for the next pass, or out of the loop (R50). -/
theorem allWalk_loope {k : Ctx} {nc : Fin 4} {l : Loop} {rest : List Loop} (hl : k.walk.loops = l :: rest) (hc : l.clamped = false) :
    k.allWalk (.loope nc) k.walk =
      if l.j < l.e then { k.walk.past none with pc := l.pc + 8, loops := { l with j := l.j + 1 } :: rest, stage := 0 }
      else { k.walk.past none with loops := rest, stage := l.stageOut, halted := false } := by
  simp [Ctx.allWalk, hl, Walk.loopEnd, hc]

theorem sameData_loope (s : State) (nc : Fin 4) (l : Loop) :
    SameData s (s.modMe fun k => k.actedAll (.loope nc) s.cur.tag s.cycle fun k => (k.showNext s.cur.tag nc l).passEntry s.cur.tag) := by
  refine sameData_actedAll s _ _ _ (fun k => ?_) (fun k => ?_) <;> (unfold Ctx.showNext; split)
  · exact Ctx.showPass_s ..
  · rfl
  · exact Ctx.showPass_h ..
  · rfl

/-- Settles O21. -/
theorem loopPasses : Obligations.LoopPasses := by
  refine ⟨fun s nc ts st p h ho hon => ⟨fun hn hl hp => exec_loop_opens h ho hon hn hl hp ts st,
    fun hopen hw hlive => exec_loop_traps h hopen hw hlive ts st p⟩, fun s nc l rest h hl hn hc => ⟨fun hj => ?_, fun hj => ?_⟩⟩
  all_goals
    refine ⟨_, exec_loope_acts h hl hn hc, ?_⟩
    simp only [State.me_modMe, Ctx.actedAll_walk, Ctx.actedAll_n, Ctx.passEntry_walk, Ctx.passEntry_n, Ctx.showNext_walk, Ctx.genAll_walk,
      allWalk_loope hl hc, hj, if_true, if_false, Walk.past, true_and]
  · refine ⟨fun ht => ?_, sameData_loope s nc l⟩
    simp only [Ctx.showNext, hj, if_true, ht, Ctx.showPass_ctl_n]
  · exact ⟨by simp only [Ctx.showNext, hj, if_false, Ctx.genAll_n], sameData_loope s nc l⟩

end Sys2Proof.Machine
end

section
/-! PROOFS. O20, O23: CURSOR_FETCH of a control word, and FORK, JOIN and NOP (R32 to R39). -/

namespace Sys2Proof.Machine

/-- The issue of a word changes no register and no byte. -/
theorem sameData_issued (s : State) : SameData s s.issued :=
  ⟨fun r => by simp, fun r => by simp, fun a => by simp [State.byte, State.hostByte]⟩

/-! ### Fork sets (R36 to R39) -/

theorem Ctx.cursor_eq (k : Ctx) (t : Tag) : k.cursor t = k.cursors[tagNum t]'(by cases t <;> decide) := by
  cases t <;> rfl

theorem allTags_getD_tagNum (t : Tag) : allTags.getD (tagNum t) .ctl = t := by
  cases t <;> rfl

/-- A fork mask names an engine by its bit (R67). -/
theorem mem_maskTags {m : BitVec 6} {t : Tag} (h : t ∈ engTags) : t ∈ maskTags m ↔ m.getLsbD (engBit t) = true := by
  simp [maskTags, h, BitVec.testBit_toNat]

/-- What FORK refuses (R36, R39, R271). -/
def State.forkBad (s : State) (m : BitVec 6) : Prop :=
  s.me.fork.isSome = true ∨ m = 0 ∨ (∃ t ∈ engTags, m.getLsbD (engBit t) = true ∧ s.myGrant.hasEng t = false) ∨ s.me.walk.loops ≠ [] ∨
    s.me.phase = .handler

/-- FORK tests what it refuses. -/
theorem forkBad_iff (s : State) (m : BitVec 6) :
    (s.inFork || m.toNat = 0 || (maskTags m).any (fun t => !s.myGrant.hasEng t) || !s.me.walk.loops.isEmpty || s.me.phase = .handler) = true ↔
      s.forkBad m := by
  have hm : m.toNat = 0 ↔ m = 0 := by rw [← BitVec.toNat_inj]; rfl
  have hg : (∃ t ∈ maskTags m, s.myGrant.hasEng t = false) ↔ ∃ t ∈ engTags, m.getLsbD (engBit t) = true ∧ s.myGrant.hasEng t = false := by
    simp only [maskTags, List.mem_filter, and_assoc, BitVec.testBit_toNat]
  simp only [State.forkBad, State.inFork, Bool.or_eq_true, decide_eq_true_eq, hm, List.any_eq_true, Bool.not_eq_true', hg,
    List.isEmpty_eq_false_iff, or_assoc]

theorem exec_fork_bad {s : State} {m : BitVec 6} (h : s.forkBad m) (off : BitVec 30) : exec (.fork m off) s = .next s.trapRange := by
  change execFork m off s = _
  simp only [execFork, (forkBad_iff s m).2 h, if_true]

theorem exec_fork_ok {s : State} {m : BitVec 6} (h : ¬s.forkBad m) (off : BitVec 30) :
    exec (.fork m off) s = if s.me.owedFur.isSome then .next s
      else .next (s.issued.modMe fun k => k.forkAt m (((s.curPc : Int) + 8 * off.toInt) % 2 ^ 64).toNat s.cycle) := by
  change execFork m off s = _
  simp only [execFork, Bool.eq_false_iff.2 fun hb => h ((forkBad_iff s m).1 hb), Bool.false_eq_true, if_false]
  rfl

/-- A cursor of a fork set that begins: at index 0, running where it is a member (R36). -/
theorem forkAt_cursor (k : Ctx) (m : BitVec 6) (pc cycle : Nat) (t : Tag) :
    (k.forkAt m pc cycle).cursor t =
      { next := 0, lastIssue := cycle + 3, member := t = .ctl || (maskTags m).contains t, stopped := false, notBefore := cycle + 1 } := by
  simp only [Ctx.cursor_eq, Ctx.forkAt, Vector.getElem_ofFn, allTags_getD_tagNum]

theorem fork_begins {s : State} {m : BitVec 6} (h : ¬s.forkBad m) (ho : s.me.owedFur = none) (off : BitVec 30) :
    ∃ t, exec (.fork m off) s = .next t ∧ t.me.fork = some m ∧ t.me.slip = s.me.slipwin ∧ t.me.walk.idx = 0 ∧ t.me.stream = [] ∧
      t.me.walk.pc = (((s.curPc : Int) + 8 * off.toInt) % 2 ^ 64).toNat ∧ (t.me.cursor .ctl).member = true ∧
      (∀ g ∈ engTags, (t.me.cursor g).member = m.getLsbD (engBit g)) ∧ (∀ g ∈ allTags, (t.me.cursor g).next = 0 ∧ (t.me.cursor g).stopped = false) ∧
      SameData s t := by
  refine ⟨_, by rw [exec_fork_ok h, ho]; rfl, ?_⟩
  simp only [State.me_modMe, forkAt_cursor]
  refine ⟨rfl, State.issued_me_slipwin s, rfl, rfl, rfl, rfl, fun g hg => ?_, fun g _ => ⟨trivial, trivial⟩, ?_⟩
  · have hc : g ≠ .ctl := by rintro rfl; exact absurd hg (by decide)
    rw [Bool.eq_iff_iff]
    simp [hc, mem_maskTags hg]
  · exact (sameData_issued s).trans (sameData_modMe _ _ rfl rfl)

/-- The cursors of a fork set that has ended: the engines' are idle, the control cursor goes on after its JOIN (R38). -/
theorem endFork_cursor (k : Ctx) (e : SEntry) (t : Tag) :
    (k.endFork (some e)).cursor t = if t = .ctl then { k.cursor .ctl with next := e.idx + 1 } else Cursor.reset := by
  simp only [Ctx.cursor_eq, Ctx.endFork, Vector.getElem_ofFn]
  cases t <;> rfl

theorem exec_join_alone {s : State} (h : s.me.fork = none) : exec .join s = .next s.issued := by
  change execJoin s = _
  simp [execJoin, Ctx.joinHeld, State.inFork, h]

theorem exec_join_holds {s : State} (h : s.me.joinHeld = true) : exec .join s = .next s := by
  change execJoin s = _
  simp only [execJoin, h, if_true, State.hold]

theorem exec_join_ends {s : State} (hf : s.me.fork.isSome = true) (h : s.me.joinHeld = false) :
    exec .join s = .next (s.issued.modMe fun k => k.endFork s.headWord) := by
  change execJoin s = _
  simp [execJoin, h, State.inFork, hf]

theorem join_ends {s : State} {e : SEntry} (hf : s.me.fork.isSome = true) (h : s.me.joinHeld = false) (he : s.headWord = some e) :
    ∃ t, exec .join s = .next t ∧ t.me.fork = none ∧ t.me.walk.pc = e.pc + 8 ∧ (t.me.cursor .ctl).next = e.idx + 1 ∧
      (∀ g ∈ engTags, (t.me.cursor g).member = false) ∧ SameData s t := by
  refine ⟨_, exec_join_ends hf h, ?_⟩
  simp only [he, State.me_modMe, endFork_cursor]
  refine ⟨rfl, rfl, rfl, fun g hg => ?_, (sameData_issued s).trans (sameData_modMe _ _ rfl rfl)⟩
  rw [if_neg (by rintro rfl; exact absurd hg (by decide))]
  rfl

/-- Settles O23. -/
theorem forkAndJoin : Obligations.ForkAndJoin := by
  refine ⟨fun s m off => ?_, fun s => ⟨⟨_, rfl, issued_id s⟩, fun h => ⟨_, exec_join_alone h, issued_id s⟩, fun _ h => exec_join_holds h,
    fun e hf h he => join_ends hf h he⟩⟩
  change (¬s.forkBad m → _) ∧ (¬s.forkBad m → _) ∧ (s.forkBad m → _)
  exact ⟨fun h ho => by rw [exec_fork_ok h, if_pos ho], fun h ho => fork_begins h ho off,
    fun h hl => ⟨_, exec_fork_bad h off, trapped_range hl⟩⟩

/-! ### CURSOR_FETCH (R32, R33, R59) -/

/-- A fetch that delivers a word changes what lookups change alone (R225, R228). -/
theorem look_fetchText {s u : State} {c : CoreId} {x : CtxId} {off : Nat} {w : Word} (h : s.fetchText c x off = (.word w, u)) : Look s u := by
  unfold State.fetchText at h
  dsimp only at h
  split at h
  · cases h
  have hh := Look.handle s c x (s.ctx c x).text 6 false
  split at h
  case h_1 | h_2 => cases h
  next i s1 e =>
    rw [e] at hh
    split at h
    · cases h
    have ht := Look.translate s1 c x none ((s.ctx c x).text * 2 ^ 48 + off) (i.base + off) .x
    split at h
    next => split at h <;> cases h
    next e =>
      rw [e] at ht
      split at h
      · cases h
      split at h
      · cases h
      · obtain ⟨-, rfl⟩ := Prod.mk.inj h
        exact hh.trans ht

/-- The control cursor may fetch at the walk's place, outside a fork set and a loop, with nothing fetched yet. -/
structure Ctx.FetchesNext (k : Ctx) : Prop where
  fork : k.fork = none
  loops : k.walk.loops = []
  halted : k.walk.halted = false
  stream : k.stream = []
  member : (k.cursor .ctl).member = true
  stopped : (k.cursor .ctl).stopped = false
  next : (k.cursor .ctl).next = k.walk.idx
  skip : k.walk.skip[0] ≤ k.walk.idx

/-- A context after the control word `w` at the walk's place has entered its queue. -/
def Ctx.fetchedWord (k : Ctx) (w : Word) : Ctx := (k.gen w).passEntry .ctl

section
variable {k : Ctx} {w : Word} {i : Instr} (hk : k.FetchesNext) (hw : wordOwn w = some .ctl) (hd : decodeWord w = .ok i)
include hk

theorem Ctx.FetchesNext.mayFetch : k.mayFetch .ctl = true := by
  simp [Ctx.mayFetch, Ctx.waiting, hk.member, hk.stopped, hk.stream, hk.fork]

theorem Ctx.FetchesNext.entryAt (n : Nat) : k.entryAt n = none := by
  simp [Ctx.entryAt, hk.stream]

theorem Ctx.FetchesNext.gen_entryAt : (k.gen w).entryAt k.walk.idx = some (k.entryOf w) := by
  simp [Ctx.entryAt, Ctx.gen, hk.stream, Ctx.entryOf]

include hw hd

/-- The entry of a control word that decodes: it will issue. -/
theorem Ctx.FetchesNext.entryOf : k.entryOf w =
    { idx := k.walk.idx, pc := k.walk.pc, word := w, own := some .ctl, all := false, ins := some i, sub := 0, on := true, seq := k.walk.seqs[0],
      issued := false, loops := [], stage := k.walk.stage } := by
  have hs : ¬k.walk.idx < k.walk.skipOf .ctl := Nat.not_lt.2 hk.skip
  simp only [Ctx.entryOf, hw, hd, hs, Walk.on, hk.loops, decide_false]
  rfl

theorem Ctx.FetchesNext.entryTrap : (k.gen w).entryTrap .ctl (k.entryOf w) = none := by
  simp [Ctx.entryTrap, hk.entryOf hw hd]

/-- The word stands alone in the control cursor's queue. -/
theorem Ctx.FetchesNext.waiting : (k.fetchedWord w).waiting .ctl = [k.entryOf w] := by
  have hc : ((k.fetchedWord w).cursor .ctl).next = k.walk.idx + 1 := by
    simp only [Ctx.fetchedWord, Ctx.passEntry, Ctx.cursor_modCursor_self]
    exact congrArg (· + 1) hk.next
  have hs : (k.fetchedWord w).stream = [k.entryOf w] := by simp [Ctx.fetchedWord, Ctx.passEntry, Ctx.gen, hk.stream]
  simp [Ctx.waiting, hc, hs, hk.entryOf hw hd]

/-- Outside a fork set the control cursor fetches nothing beyond an unissued word of its own (R32). -/
theorem Ctx.FetchesNext.full : (k.fetchedWord w).mayFetch .ctl = false := by
  have hf : (k.fetchedWord w).fork = none := hk.fork
  simp [Ctx.mayFetch, hk.waiting hw hd, hf]

end

theorem wordAll_of_own {w : Word} {t : Tag} (h : wordOwn w = some t) : wordAll w = false := by
  unfold wordOwn at h
  unfold wordAll
  split at h <;> simp_all

/-- The control cursor examines the word at the walk's place, and the word enters its queue. -/
theorem fetchOne_word {s u : State} {w : Word} {i : Instr} (ht : s.cur.tag = .ctl) (hk : s.me.FetchesNext)
    (hf : s.fetchText s.cur.core s.cur.ctx s.me.walk.pc = (.word w, u)) (hu : u.me.FetchesNext) (hi : u.me.walk.idx = s.me.walk.idx)
    (hw : wordOwn w = some .ctl) (hd : decodeWord w = .ok i) : s.fetchOne.1 = some (u.modMe fun k => k.fetchedWord w) := by
  have hentry := hu.gen_entryAt (w := w)
  have htrap := hu.entryTrap hw hd
  have hall : (u.me.entryOf w).all = false := rfl
  rw [hi] at hentry
  simp only [State.fetchOne, ht, hk.mayFetch, Bool.not_true, Bool.false_eq_true, if_false, hk.entryAt, hk.halted, hk.next,
    gt_iff_lt, lt_irrefl, decide_false, Bool.or_self, hf, wordAll_of_own hw, State.me_modMe, hentry, htrap, hall, State.modMe_modMe]
  rfl

theorem fetchOne_full {s : State} (h : s.me.mayFetch s.cur.tag = false) : s.fetchOne = (none, s) := by
  simp [State.fetchOne, h]

/-- Lookups do not move a cursor. -/
theorem Look.fetchesNext {s u : State} (h : Look s u) (hk : s.me.FetchesNext) : u.me.FetchesNext ∧ u.me.walk = s.me.walk ∧ u.me.s = s.me.s := by
  obtain ⟨a, b, p, e⟩ := h.me
  rw [e]
  exact ⟨⟨hk.fork, hk.loops, hk.halted, hk.stream, hk.member, hk.stopped, hk.next, hk.skip⟩, rfl, rfl⟩

/-- The fetch of a cycle takes the one word. -/
theorem fetchN_word {s u : State} {w : Word} {i : Instr} (ht : s.cur.tag = .ctl) (hk : s.me.FetchesNext)
    (hf : s.fetchText s.cur.core s.cur.ctx s.me.walk.pc = (.word w, u)) (hw : wordOwn w = some .ctl) (hd : decodeWord w = .ok i) :
    s.fetchN 8 = u.modMe fun k => k.fetchedWord w := by
  have hlook := look_fetchText hf
  obtain ⟨hu, hwalk, -⟩ := hlook.fetchesNext hk
  have hone := fetchOne_word ht hk hf hu (congrArg Walk.idx hwalk) hw hd
  have hcur : (u.modMe fun k => k.fetchedWord w).cur.tag = .ctl := (congrArg Agent.tag hlook.cur).trans ht
  have hfull : (u.modMe fun k => k.fetchedWord w).fetchOne = (none, u.modMe fun k => k.fetchedWord w) :=
    fetchOne_full (by rw [hcur, State.me_modMe]; exact hu.full hw hd)
  simp only [State.fetchN]
  generalize s.fetchOne = r at hone
  obtain ⟨_, _⟩ := r
  obtain rfl := hone
  simp only [hfull]

/-- A cursor's head word depends on the stream and on how far the cursor has fetched. -/
theorem head_modCursor (k : Ctx) (t : Tag) {f : Cursor → Cursor} (hf : ∀ c, (f c).next = c.next) : (k.modCursor t f).head t = k.head t := by
  simp only [Ctx.head, Ctx.waiting, Ctx.modCursor_stream, Ctx.cursor_modCursor_self, hf]

/-- The running context after the fetch: the decoded word is at the head of its queue, and the walk is past it. -/
theorem fetched_word_me {u : State} {w : Word} {i : Instr} (ht : u.cur.tag = .ctl) (hu : u.me.FetchesNext) (hw : wordOwn w = some .ctl)
    (hd : decodeWord w = .ok i) :
    let k := (u.modMe fun k => k.fetchedWord w).fetched.me
    k.head .ctl = some (u.me.entryOf w) ∧ k.walk.pc = u.me.walk.pc + 8 ∧ k.walk.idx = u.me.walk.idx + 1 ∧ k.s = u.me.s := by
  simp only [State.fetched, State.me_modMe, State.modMe_cur, ht]
  refine ⟨?_, rfl, rfl, rfl⟩
  rw [head_modCursor, Ctx.head, hu.waiting hw hd]
  · rfl
  · exact fun _ => rfl

/-- Settles O20. -/
theorem fetchDecodesTheWord : Obligations.FetchDecodesTheWord := by
  intro s u c x w i k hfork hloops hhalted hstream hmember hstopped hnext hskip hf hw hd
  have hk : k.FetchesNext := ⟨hfork, hloops, hhalted, hstream, hmember, hstopped, hnext, hskip⟩
  have hlook := look_fetchText hf
  obtain ⟨hu, hwalk, hs⟩ := hlook.fetchesNext hk
  have hcur := hlook.cur
  have hrun : exec (.cursorFetch c x .ctl) s = .next (u.modMe fun k => k.fetchedWord w).fetched := by
    change execCursorFetch c x .ctl s = _
    rw [execCursorFetch, fetchN_word (s := { s with cur := { core := c, ctx := x, tag := .ctl } }) rfl hk hf hw hd]
  obtain ⟨hhead, hpc, hidx, hregs⟩ := fetched_word_me (congrArg Agent.tag hcur) hu hw hd
  have hme : (u.modMe fun k => k.fetchedWord w).fetched.ctx c x = (u.modMe fun k => k.fetchedWord w).fetched.me := by
    simp only [State.me, State.fetched, State.modMe_cur, hcur]
  rw [hu.entryOf hw hd] at hhead
  refine ⟨_, _, hrun, hme ▸ hhead, ?_⟩
  rw [hme, hpc, hidx, hregs, hwalk, hs]
  exact ⟨rfl, rfl, rfl, rfl, rfl, rfl, rfl, rfl, fun a => hlook.byte a⟩

end Sys2Proof.Machine
end

section
/-! PROOFS. O42: a vector result that is due lands (`State.landV`): its core takes the value (`Core.landed`), its context the flags. -/

namespace Sys2Proof.Machine

theorem getElem_vmod {α : Type} {n : Nat} (v : Vector α n) (i : Nat) (f : α → α) (j : Fin n) :
    (vmod v i f)[j] = if j.val = i then f v[j] else v[j] := by
  unfold vmod
  split
  · by_cases h : i = j.val
    · subst h
      simp
    · simp [h, Ne.symm h]
  · rw [if_neg (by have := j.isLt; omega)]

theorem count_eq_modCtx (s : State) (c : CoreId) (x : CtxId) (e n : Nat) : s.count c x e n = s.modCtx c x fun k => k.count e n := by
  unfold State.count Ctx.count
  split
  · exact (State.modCtx_id s c x).symm
  · rfl

/-! ### Where a result lands (R45, R46, R132) -/

/-- A core after a result has landed in its register, its mask or its queue slot. -/
def Core.landed (k : Core) (p : VPend) : Core :=
  let k1 := if p.dst < 56 then { k with v := vmod k.v p.dst fun o => (o &&& ~~~p.wmask) ||| (p.val &&& p.wmask) }
    else if p.dst < 64 then k.qFill (Fin.ofNat 8 (p.dst - 56)) p.slot p.val else k
  if p.kdst > 64 then { k1 with k := vmod k1.k (p.kdst - 64) fun o => (o &&& ~~~p.kmask) ||| (p.kval &&& p.kmask) } else k1

section
variable (k : Core) (p : VPend)

@[simp] theorem Core.landed_ctxs : (k.landed p).ctxs = k.ctxs := by
  unfold Core.landed Core.qFill
  (repeat' split) <;> rfl

@[simp] theorem Core.landed_vpend : (k.landed p).vpend = k.vpend := by
  unfold Core.landed Core.qFill
  (repeat' split) <;> rfl

/-- Its register takes the value under the element mask. -/
theorem Core.landed_v (r : Fin 56) :
    (k.landed p).v[r] = if r.val = p.dst then (k.v[r] &&& ~~~p.wmask) ||| (p.val &&& p.wmask) else k.v[r] := by
  have hv : (k.landed p).v = if p.dst < 56 then vmod k.v p.dst fun o => (o &&& ~~~p.wmask) ||| (p.val &&& p.wmask) else k.v := by
    unfold Core.landed Core.qFill
    (repeat' split) <;> rfl
  rw [hv]
  split
  · exact getElem_vmod ..
  · exact (if_neg (by have := r.isLt; omega)).symm

/-- Its mask register takes the bits that are written; k0 takes none. -/
theorem Core.landed_k (m : Fin 16) :
    (k.landed p).k[m] = if 64 + m.val = p.kdst ∧ m.val ≠ 0 then (k.k[m] &&& ~~~p.kmask) ||| (p.kval &&& p.kmask) else k.k[m] := by
  have hk : (k.landed p).k = if p.kdst > 64 then vmod k.k (p.kdst - 64) fun o => (o &&& ~~~p.kmask) ||| (p.kval &&& p.kmask) else k.k := by
    unfold Core.landed Core.qFill
    (repeat' split) <;> rfl
  have hi : p.kdst > 64 → (m.val = p.kdst - 64 ↔ 64 + m.val = p.kdst ∧ m.val ≠ 0) := by omega
  rw [hk]
  split
  · rw [getElem_vmod]
    simp only [hi ‹_›]
  · exact (if_neg (by omega)).symm

/-- Its queue slot is filled. -/
theorem Core.landed_queue (q : QNo) :
    (k.landed p).queue q = if p.dst = 56 + q.val then (k.queue q).map fun e => if e.id = p.slot then { e with val := some p.val } else e else k.queue q := by
  have hq : (k.landed p).queue q =
      (if p.dst < 56 then k else if p.dst < 64 then k.qFill (Fin.ofNat 8 (p.dst - 56)) p.slot p.val else k).queue q := by
    unfold Core.landed Core.qFill
    (repeat' split) <;> rfl
  rw [hq]
  split
  · rw [if_neg (by omega)]
  · split
    · by_cases h : p.dst = 56 + q.val
      · have hqd : Fin.ofNat 8 (p.dst - 56) = q := Fin.ext (by rw [Fin.val_ofNat]; omega)
        rw [hqd, if_pos h]
        simp [Core.queue, Core.qFill]
      · have hne : p.dst - 56 ≠ q.val := by omega
        have hlt : (p.dst - 56) % 8 = p.dst - 56 := by omega
        rw [if_neg h]
        simp [Core.queue, Core.qFill, hlt, hne]
    · rw [if_neg (by have := q.isLt; omega)]

end

/-! ### The completion (R45, R46, R136) -/

/-- The context of a result after it has landed: its flags are raised, and an SLI result is counted. -/
def Ctx.flagged (k : Ctx) (p : VPend) : Ctx := { k with vstat := k.vstat ||| p.flags }.count 0x04 (b2n (p.sli && p.first))

theorem landV_eq (s : State) (c : CoreId) (p : VPend) : s.landV c p = (s.modCore c fun k => k.landed p).modCtx c p.ctx fun k => k.flagged p := by
  rw [State.landV, count_eq_modCtx, State.modCtx_modCtx]
  rfl

/-- The one result in flight, once due, lands by the event of its kind. -/
theorem exec_resultComplete {s : State} {c : CoreId} {p : VPend} (hp : (s.core c).vpend = [p]) (hd : p.due ≤ s.cycle) :
    exec (if p.sli then .sliResultComplete c else .vecResultComplete c) s = .next ((s.modCore c fun k => { k with vpend := [] }).landV c p) := by
  have hall : s.landAll c p.sli = (s.modCore c fun k => { k with vpend := [] }).landV c p := by
    have hv : (s.modCore c fun k => { k with vpend := k.vpend.filter fun (q : VPend) => !(q.sli = p.sli && q.due ≤ s.cycle) }) =
        s.modCore c fun k => { k with vpend := [] } := State.modCore_congr (by simp [hp, hd])
    simp [State.landAll, hp, hd] at hv ⊢
    rw [hv]
  rw [← hall]
  cases p.sli <;> rfl

/-- Settles O42. -/
theorem vectorResultsLand : Obligations.VectorResultsLand := by
  intro s c p hp hd
  refine ⟨_, exec_resultComplete hp hd, ?_⟩
  have hctx : ∀ x, ((s.modCore c fun k => { k with vpend := [] }).modCore c fun k => k.landed p).ctx c x = s.ctx c x := fun x => by
    rw [ctx_modCore_of_ctxs _ _ _ (Core.landed_ctxs ..), ctx_modCore_of_ctxs s c _ rfl]
  have hcore : ((s.modCore c fun k => { k with vpend := [] }).landV c p).core c =
      (({ s.core c with vpend := [] } : Core).landed p).modCtx p.ctx fun k => k.flagged p := by
    rw [landV_eq, State.core_modCtx_self, State.core_modCore_self, State.core_modCore_self]
  have hregs : ∀ k : Ctx, (k.flagged p).s = k.s ∧ (k.flagged p).h = k.h := fun k => by simp [Ctx.flagged]
  refine ⟨?_, ?_, fun r => ?_, fun m => ?_, fun q => ?_, fun x => ?_⟩
  · rw [hcore, Core.modCtx_vpend, Core.landed_vpend]
  · rw [landV_eq, State.ctx_modCtx_self, hctx]
    simp [Ctx.flagged]
  · rw [hcore, Core.modCtx_v, Core.landed_v]
  · rw [hcore, Core.modCtx_k, Core.landed_k]
  · rw [hcore]
    exact Core.landed_queue ..
  · rw [landV_eq]
    by_cases hx : x = p.ctx
    · subst hx
      exact sameRegs_of_mems (by rw [State.ctx_modCtx_self, hctx, (hregs _).1]) (by rw [State.ctx_modCtx_self, hctx, (hregs _).2]) rfl
    · have hne : ¬(c = c ∧ x = p.ctx) := fun h => hx h.2
      exact sameRegs_of_mems (by rw [State.ctx_modCtx_ne _ _ _ _ _ _ hne, hctx]) (by rw [State.ctx_modCtx_ne _ _ _ _ _ _ hne, hctx]) rfl

end Sys2Proof.Machine
end

section
/-! PROOFS. O32: stops. STOP_ACCEPT begins the stop and clamps an outermost preemptible loop; STOP_RECORD of a stop without a bracket is the
delivery of its one trap (`recordStop_sync`) or the parking of the context (`recordStop_park`). -/

namespace Sys2Proof.Machine

/-! ### Accepting (R53, R263) -/

/-- The stop that is begun remembers whether the context ran a handler. -/
theorem beginStop_fromHandler (s : State) (c : CoreId) (x : CtxId) (traps : List TrapRec) (clamp forced : Bool) (cuts : List (Nat × CutEntry)) :
    ∃ st, ((s.beginStop c x traps clamp forced cuts).ctx c x).stop = some st ∧ (st.fromHandler = true ↔ (s.ctx c x).phase = .handler) := by
  unfold State.beginStop
  dsimp only
  generalize (if clamp = true then none else s.furOf c x) = rolled
  cases rolled with
  | none => exact ⟨_, by rw [State.ctx_modCtx_self], decide_eq_true_iff⟩
  | some f =>
    obtain ⟨⟨a, o, h⟩, -⟩ := s.rollFurOf_ctx c x f
    exact ⟨_, by rw [State.ctx_modCtx_self], by rw [h]; exact decide_eq_true_iff⟩

/-- The walk of a context whose stop is accepted, and its stop. -/
theorem acceptStop_ctx (s : State) (c : CoreId) (x : CtxId) (forced : Bool) :
    ∃ st, ((s.acceptStop c x forced).ctx c x).stop = some st ∧ st.at_ = s.cycle ∧ (st.fromHandler = true ↔ (s.ctx c x).phase = .handler) ∧
      ((s.acceptStop c x forced).ctx c x).walk = if (s.ctx c x).preemptible then (s.ctx c x).walk.clampOuter else (s.ctx c x).walk := by
  unfold State.acceptStop
  dsimp only
  generalize (s.ctx c x).preemptible = clamp
  obtain ⟨st, a, o, -, hat, hctx, -⟩ := s.beginStop_ctx c x [] clamp forced []
  obtain ⟨st', hst', hfrom⟩ := beginStop_fromHandler s c x [] clamp forced []
  obtain rfl : st = st' := Option.some.inj (by rw [← hst', hctx])
  refine ⟨st, ?_, hat, hfrom, ?_⟩
  · rw [State.ctx_modCtx_self, hctx]
    split <;> rfl
  · rw [State.ctx_modCtx_self, hctx]
    split <;> rfl

theorem clampOuter_append {w : Walk} {ls : List Loop} {l : Loop} (h : w.loops = ls ++ [l]) : w.clampOuter = { w with loops := ls ++ [l.clamp] } := by
  simp [Walk.clampOuter, h]

theorem stopAccept_accepts (s : State) (c : CoreId) (x : CtxId) (h : s.acceptDue c x = true) :
    ∃ t st, exec (.stopAccept c x) s = .next t ∧ (t.ctx c x).phase = .stopping ∧ (t.ctx c x).stop = some st ∧ st.traps = [] ∧ st.at_ = s.cycle ∧
      (st.fromHandler = true ↔ (s.ctx c x).phase = .handler) ∧ SameRegs s t c x ∧
      ((s.ctx c x).walk.loops = [] → (t.ctx c x).walk = (s.ctx c x).walk) ∧
      ∀ ls l, (s.ctx c x).walk.loops = ls ++ [l] → l.p = true → (s.ctx c x).walk.halted = false →
        ∃ l', (t.ctx c x).walk.loops = ls ++ [l'] ∧ l'.n = Nat.min l.n (l.j + 1) ∧ l'.e = Nat.max l.i (l'.n + l.s - 2) ∧ l'.clamped = true := by
  obtain ⟨hphase, ⟨st, hst, -, htraps⟩, -, -, -, hregs⟩ := acceptStop_accepted s c x false
  obtain ⟨st', hst', hat, hfrom, hwalk⟩ := acceptStop_ctx s c x false
  obtain rfl : st = st' := Option.some.inj (hst.symm.trans hst')
  have he : exec (.stopAccept c x) s = .next (s.acceptStop c x false) := by
    change execStopAccept c x s = _
    simp only [execStopAccept, h, if_true]
  refine ⟨_, st, he, hphase, hst, htraps, hat, hfrom, hregs, fun hl => ?_, fun ls l hl hp hh => ?_⟩
  · rw [hwalk, if_neg (by simp [Ctx.preemptible, hl])]
  · rw [hwalk, if_pos (by simp [Ctx.preemptible, hl, hp, hh]), clampOuter_append hl]
    exact ⟨_, rfl, rfl, rfl, rfl⟩

/-! ### What a record writes (R357, R360) -/

/-- A partition without a policy gets no record (R351). -/
theorem observe_silent {s : State} {p : Nat} (h : (s.part p).policy = none) (c : CoreId) (x : CtxId) (cls kind name : Nat)
    (pay : List (List RecField)) (sum : WSum) : s.observe c x p cls kind name pay sum = s := by
  have hg : ∀ rc, s.gran p cls rc 0 = (0, 0) := fun rc => by simp [State.gran, h]
  simp [State.observe, hg]

theorem recordTrap_silent {s : State} {c : CoreId} {x : CtxId} (h : (s.part (s.partOf c x)).policy = none) (r : TrapRec) :
    s.recordTrap c x [r] = s.count c x 0x40 1 := by
  simp only [State.recordTrap, State.faultRecord, count_eq_modCtx]
  exact observe_silent (s := s.modCtx c x _) h ..

/-- A handle lookup answers by the handle cache, the table and stage 2 of its context (R225). -/
theorem handle_modCtx {s : State} {c : CoreId} {x : CtxId} {f : Ctx → Ctx} (hh : (f (s.ctx c x)).handles = (s.ctx c x).handles)
    (ht : (f (s.ctx c x)).htbase = (s.ctx c x).htbase) (h2 : (f (s.ctx c x)).s2root = (s.ctx c x).s2root) (h : Nat) :
    ((s.modCtx c x f).handle c x h).1 = (s.handle c x h).1 := by
  have hg : ∀ va wr level gpa, (s.modCtx c x f).guestDw c x va wr level gpa = s.guestDw c x va wr level gpa := fun va wr level gpa => by
    simp only [State.guestDw, State.stage2, State.ctx_modCtx_self, h2]
    rfl
  unfold State.handle
  dsimp only
  simp only [State.ctx_modCtx_self, hh, ht, hg]
  (repeat' split) <;> rfl

/-- Counting leaves the vector of a level as good as it was. -/
theorem vecOk_count (s : State) (c : CoreId) (x : CtxId) (e n l : Nat) : (s.count c x e n).vecOk c x l = s.vecOk c x l := by
  have hh := handle_modCtx (s := s) (c := c) (x := x) (f := fun k => k.count e n) (by simp) (by simp) (by simp)
  rw [count_eq_modCtx]
  simp only [State.vecOk, State.textHandleOk, hh, State.ctx_modCtx_self, Ctx.bankAt, Ctx.count_bank]
  rfl

/-! ### Recording (R263 to R268) -/

/-- No bracket of the core defers a trap of the context (R277). -/
theorem defers_of_no_bracket {s : State} {c : CoreId} (h : ∀ y, (s.ctx c y).bracket = none) (x : CtxId) : (s.core c).defers x = false := by
  have hb : ∀ y, ((s.core c).ctx y).bracket = none := h
  simp [Core.defers, hb]

/-- The one pending trap, a pre-emption of a higher level, is delivered next (R261, R262). -/
theorem nextAsync_preempt {k : Ctx} {r : TrapRec} (hp : k.pending = [r]) (hc : r.cause = 0x10) (hl : k.pl < r.level) : k.nextAsync = some r := by
  have hr : List.range 5 = [0, 1, 2, 3, 4] := rfl
  simp [Ctx.nextAsync, hp, hl, hr, asyncRank, hc]

@[simp] theorem tellRequesters_grants (q : Core) (x : CtxId) (cand : Option TrapRec) : (q.tellRequesters x cand).grants = q.grants := by
  unfold Core.tellRequesters
  split
  · dsimp only
    split <;> rfl
  · rfl

section
variable {s : State} {c : CoreId} {x : CtxId} {st : Stop} {r : TrapRec} (hst : (s.ctx c x).stop = some st) (hf : st.forced = false)
  (hb : ∀ y, (s.ctx c y).bracket = none) (hpol : (s.part (s.partOf c x)).policy = none)
include hst hf hb hpol

/-- The stop of one synchronous trap with nothing pending: the trap is delivered at a level above the present one (R261). -/
theorem recordStop_sync (ht : st.traps = [r]) (hp : (s.ctx c x).pending = []) :
    s.recordStop c x =
      (s.count c x 0x40 1).deliverAt c x ((s.ctx c x).theCut st) [r] 3 (Nat.min 3 (Nat.max r.level ((s.ctx c x).pl + 1))) := by
  have hlvl : Nat.max 1 (Nat.max (Nat.min 3 (Nat.max (Nat.max 0 r.level) ((s.ctx c x).pl + 1))) 0) =
      Nat.min 3 (Nat.max r.level ((s.ctx c x).pl + 1)) := by
    simp only [Nat.max_def, Nat.min_def]
    (repeat' split) <;> omega
  simp only [State.recordStop, hst, hb x, hf, Bool.false_eq_true, if_false, hp, List.filter_nil]
  generalize hcand : Ctx.nextAsync _ = cand
  obtain rfl : none = cand := (nextAsync_of_pending_nil rfl).symm.trans hcand
  simp only [Option.toList_none, List.append_nil, ht, List.foldl_cons, List.foldl_nil, addTrap, Core.tellRequesters, State.modCore_id,
    State.modCtx_id, State.acquireFor, recordTrap_silent hpol, List.isEmpty_cons, Bool.false_eq_true, if_false, hlvl]

/-- The state in which a context parks for a pre-emption: its requester knows, and the trap is no longer pending (R374). -/
def State.preemptTold (s : State) (c : CoreId) (x : CtxId) (r : TrapRec) : State :=
  ((s.modCore c fun q => q.tellRequesters x (some r)).modCtx c x fun k => { k with pending := k.pending.erase r }).count c x 0x40 1

/-- The stop of a pre-emption with PARK: the context parks with its cut in the bank of the trap's level (R268, R274). -/
theorem recordStop_park (ht : st.traps = []) (hp : (s.ctx c x).pending = [r]) (hc : r.cause = 0x10) (hpark : r.park = true)
    (hl : (s.ctx c x).pl < r.level) :
    s.recordStop c x = (s.preemptTold c x r).parkAt c x r.level ((s.ctx c x).theCut st) [r] := by
  have hgrant : ((s.modCore c fun q => q.tellRequesters x (some r)).modCtx c x fun k => { k with pending := k.pending.erase r }).partOf c x =
      s.partOf c x := by
    simp only [State.partOf, State.grant, State.core_modCtx_self, State.core_modCore_self, Core.modCtx_grants, tellRequesters_grants]
  have hlvl : Nat.max 1 (Nat.max 0 r.level) = r.level := by
    simp only [Nat.max_def]
    (repeat' split) <;> omega
  have hsilent := recordTrap_silent (r := r) (s := (s.modCore c fun q => q.tellRequesters x (some r)).modCtx c x fun k => { k with pending := k.pending.erase r })
    (c := c) (x := x) (by rw [hgrant]; exact hpol)
  simp only [State.recordStop, hst, hb x, hf, Bool.false_eq_true, if_false, hp, deferredTrap, defers_of_no_bracket hb, Bool.false_and, Bool.not_false,
    List.filter_true]
  generalize hcand : Ctx.nextAsync _ = cand
  obtain rfl : cand = some r := hcand.symm.trans (nextAsync_preempt (by rfl) hc (by exact hl))
  simp only [Option.toList_some, List.nil_append, ht, List.foldl_cons, List.foldl_nil, addTrap, State.acquireFor, hc, hsilent, List.isEmpty_cons,
    List.isEmpty_nil, hpark, hlvl, if_true, Bool.false_eq_true, if_false, Nat.reduceEqDiff]
  rfl

end

/-! ### Delivery and parking (R261, R267, R268) -/

@[simp] theorem bankAt_modBank_self (k : Ctx) (l : Nat) (f : Bank → Bank) (h : l - 1 < 3) : (k.modBank l f).bankAt l = f (k.bankAt l) :=
  vget_vmod_self _ _ _ _ h

/-- A context that enters the handler of level `l` (R261, R267): its bank takes the cut, and it stands at the level's TRAPVEC. -/
def Ctx.enterHandler (k : Ctx) (l : Nat) (cut : Cut) (traps : List TrapRec) (cycle : Nat) : Ctx :=
  let v := (k.bankAt l).vec.toNat
  ({ (k.endStop.modBank l fun b => b.take k cut traps) with phase := .handler, pl := l }).enterText (bits v 48 16) (bits v 0 48) cycle cut.seqs

theorem deliverAt_enters {s : State} {c : CoreId} {x : CtxId} {l : Nat} (hl : l < 3) (hv : s.vecOk c x l = true) (cut : Cut) (traps : List TrapRec)
    (n : Nat) : s.deliverAt c x cut traps (n + 1) l = s.modCtx c x fun k => k.enterHandler l cut traps s.cycle := by
  simp only [State.deliverAt, hl, hv, if_true]
  rfl

theorem stopRecord_enters {s : State} {c : CoreId} {x : CtxId} {st : Stop} {r : TrapRec} (hd : s.recordDue c x = true)
    (hst : (s.ctx c x).stop = some st) (hf : st.forced = false) (hb : ∀ y, (s.ctx c y).bracket = none)
    (hc : ∀ ch m, (s.core c).copyHead ch = some m → m.ctx ≠ x) (hpol : (s.part (s.partOf c x)).policy = none) (ht : st.traps = [r])
    (hp : (s.ctx c x).pending = []) :
    let k := s.ctx c x
    let cut := k.theCut st
    let l := Nat.min 3 (Nat.max r.level (k.pl + 1))
    l < 3 → s.vecOk c x l = true →
    ∃ t, exec (.stopRecord c x) s = .next t ∧ (t.ctx c x).phase = .handler ∧ (t.ctx c x).pl = l ∧ (t.ctx c x).stop = none ∧
      ((t.ctx c x).bankAt l).valid = true ∧ ((t.ctx c x).bankAt l).pl = k.pl ∧ ((t.ctx c x).bankAt l).traps = [r] ∧
      ((t.ctx c x).bankAt l).cut = some cut ∧ ((t.ctx c x).bankAt l).pc = BitVec.ofNat 64 (k.text * 2 ^ 48 + cut.ents[0].pc % 2 ^ 48) ∧
      (t.ctx c x).walk.pc = bits (k.bankAt l).vec.toNat 0 48 ∧ (t.ctx c x).text = bits (k.bankAt l).vec.toNat 48 16 ∧ SameRegs s t c x := by
  intro k cut l hl hv
  have he : exec (.stopRecord c x) s = .next ((s.count c x 0x40 1).modCtx c x fun q => q.enterHandler l cut [r] s.cycle) := by
    change execStopRecord c x s = _
    rw [execStopRecord, if_pos hd, parkCopies_of_others hc, recordStop_sync hst hf hb hpol ht hp,
      deliverAt_enters hl (by rw [vecOk_count]; exact hv), count_eq_modCtx]
    rfl
  have hctx : ((s.count c x 0x40 1).modCtx c x fun q => q.enterHandler l cut [r] s.cycle).ctx c x = (k.count 0x40 1).enterHandler l cut [r] s.cycle := by
    rw [State.ctx_modCtx_self, count_eq_modCtx, State.ctx_modCtx_self]
  have hbank : ((k.count 0x40 1).enterHandler l cut [r] s.cycle).bankAt l = ((k.count 0x40 1).bankAt l).take (k.count 0x40 1) cut [r] :=
    bankAt_modBank_self (k.count 0x40 1).endStop l _ (by omega)
  have hvec : (k.count 0x40 1).bankAt l = k.bankAt l := by simp [Ctx.bankAt]
  refine ⟨_, he, ?_⟩
  rw [hctx, hbank, hvec]
  refine ⟨rfl, rfl, rfl, rfl, Ctx.count_pl .., rfl, rfl, rfl, congrArg (fun b : Bank => bits b.vec.toNat 0 48) hvec,
    congrArg (fun b : Bank => bits b.vec.toNat 48 16) hvec, sameRegs_of_mems ?_ ?_ ?_⟩
  · rw [hctx]
    exact Ctx.count_s ..
  · rw [hctx]
    exact Ctx.count_h ..
  · rw [count_eq_modCtx]
    rfl

/-- What is told of a pre-emption leaves its target but for EVT, the pre-emptions that it waits for itself, its pending traps and a counter. -/
theorem preemptTold_ctx (s : State) (c : CoreId) (x : CtxId) (r : TrapRec) :
    ∃ e p n, (s.preemptTold c x r).ctx c x =
      { s.ctx c x with evt := e, preempting := p, pending := (s.ctx c x).pending.erase r, cnt := n } := by
  have ht : ∃ e p, ((s.core c).tellRequesters x (some r)).ctx x = { s.ctx c x with evt := e, preempting := p } := by
    unfold Core.tellRequesters
    dsimp only
    split
    · generalize Fin.ofNat 4 _ = y
      by_cases hx : x = y
      · subst hx
        rw [Core.ctx_modCtx_self]
        exact ⟨_, _, rfl⟩
      · rw [Core.ctx_modCtx_ne _ _ _ _ hx]
        exact ⟨_, _, rfl⟩
    · exact ⟨_, _, rfl⟩
  obtain ⟨e, p, h⟩ := ht
  have hctx : (s.modCore c fun q => q.tellRequesters x (some r)).ctx c x = { s.ctx c x with evt := e, preempting := p } := by
    rw [← h, State.ctx, State.core_modCore_self]
  rw [State.preemptTold, count_eq_modCtx, State.ctx_modCtx_self, State.ctx_modCtx_self, hctx, Ctx.count_eq]
  exact ⟨e, p, _, rfl⟩

theorem stopRecord_parks {s : State} {c : CoreId} {x : CtxId} {st : Stop} {r : TrapRec} (hd : s.recordDue c x = true)
    (hst : (s.ctx c x).stop = some st) (hf : st.forced = false) (hb : ∀ y, (s.ctx c y).bracket = none)
    (hc : ∀ ch m, (s.core c).copyHead ch = some m → m.ctx ≠ x) (hpol : (s.part (s.partOf c x)).policy = none) (ht : st.traps = [])
    (hp : (s.ctx c x).pending = [r]) (hcause : r.cause = 0x10) (hpark : r.park = true) (hl : (s.ctx c x).pl < r.level) (h3 : r.level ≤ 3) :
    ∃ t, exec (.stopRecord c x) s = .next t ∧ (t.ctx c x).phase = .parked ∧ (t.ctx c x).held = r.level ∧ (t.ctx c x).pending = [] ∧
      (t.ctx c x).stop = none ∧ ((t.ctx c x).bankAt r.level).cut = some ((s.ctx c x).theCut st) ∧ SameRegs s t c x := by
  have he : exec (.stopRecord c x) s = .next ((s.preemptTold c x r).parkAt c x r.level ((s.ctx c x).theCut st) [r]) := by
    change execStopRecord c x s = _
    rw [execStopRecord, if_pos hd, parkCopies_of_others hc, recordStop_park hst hf hb hpol ht hp hcause hpark hl]
  obtain ⟨e, p, n, hctx⟩ := preemptTold_ctx s c x r
  have hbank := bankAt_modBank_self ((s.preemptTold c x r).ctx c x).endStop r.level
    (fun b => b.take ((s.preemptTold c x r).ctx c x) ((s.ctx c x).theCut st) [r]) (by omega)
  refine ⟨_, he, ?_⟩
  rw [State.parkAt, State.ctx_modCtx_self]
  refine ⟨rfl, rfl, ?_, rfl, (congrArg Bank.cut hbank).trans rfl, sameRegs_of_mems ?_ ?_ ?_⟩
  · exact (congrArg Ctx.pending hctx).trans (by simp [hp])
  · rw [State.ctx_modCtx_self]
    exact (congrArg Ctx.s hctx :)
  · rw [State.ctx_modCtx_self]
    exact (congrArg Ctx.h hctx :)
  · rw [State.preemptTold, count_eq_modCtx]
    rfl

/-- Settles O32. -/
theorem stopsAreTaken : Obligations.StopsAreTaken :=
  ⟨stopAccept_accepts, fun _ _ _ _ hd hst hf hb hc hpol => ⟨fun _ ht _ hp => stopRecord_enters hd hst hf hb hc hpol ht hp,
    fun _ ht hp hcause hpark hl h3 => stopRecord_parks hd hst hf hb hc hpol ht hp hcause hpark hl h3⟩⟩

end Sys2Proof.Machine
end


section
/-! PROOFS. O43: a product command of the matrix engine issues, writes its tile of C, and the exact sums of integer products. -/

namespace Sys2Proof.Machine

/-! ### Slices of a line -/

theorem testBit_setBits (w lo n v i : Nat) :
    (setBits w lo n v).testBit i = if lo ≤ i ∧ i < lo + n then v.testBit (i - lo) else w.testBit i := by
  have hsplit : setBits w lo n v = 2 ^ lo * (2 ^ n * (w / 2 ^ (lo + n)) + v % 2 ^ n) + w % 2 ^ lo := by
    rw [setBits, Nat.mul_add, ← Nat.mul_assoc, ← Nat.pow_add]
    ring
  rw [hsplit, Nat.testBit_two_pow_mul_add _ (Nat.mod_lt _ (Nat.two_pow_pos lo))]
  rcases Nat.lt_or_ge i lo with h | h
  · rw [if_pos h, if_neg (by omega), Nat.testBit_mod_two_pow, decide_eq_true h, Bool.true_and]
  · rw [if_neg (by omega), Nat.testBit_two_pow_mul_add _ (Nat.mod_lt _ (Nat.two_pow_pos n))]
    rcases Nat.lt_or_ge i (lo + n) with h2 | h2
    · rw [if_pos (by omega), if_pos ⟨h, h2⟩, Nat.testBit_mod_two_pow, decide_eq_true (by omega), Bool.true_and]
    · rw [if_neg (by omega), if_neg (by omega), Nat.testBit_div_two_pow]
      congr 1; omega

theorem testBit_sliceAt (v : VReg) (lo n i : Nat) : (sliceAt v lo n).testBit i = (decide (i < n) && v.getLsbD (i + lo)) := by
  rw [sliceAt, Nat.testBit_mod_two_pow, Nat.testBit_div_two_pow, BitVec.testBit_toNat]

theorem getLsbD_setSlice (v : VReg) (lo n x i : Nat) (hi : i < 4096) :
    (setSlice v lo n x).getLsbD i = if lo ≤ i ∧ i < lo + n then x.testBit (i - lo) else v.getLsbD i := by
  rw [setSlice, BitVec.getLsbD_ofNat, decide_eq_true hi, Bool.true_and, testBit_setBits, BitVec.testBit_toNat]

theorem sliceAt_setSlice_self (v : VReg) (lo n x : Nat) (h : lo + n ≤ 4096) : sliceAt (setSlice v lo n x) lo n = x % 2 ^ n := by
  refine Nat.eq_of_testBit_eq fun i => ?_
  rw [testBit_sliceAt, Nat.testBit_mod_two_pow]
  rcases Nat.lt_or_ge i n with hi | hi
  · rw [getLsbD_setSlice _ _ _ _ _ (by omega), if_pos (by omega), Nat.add_sub_cancel]
  · rw [decide_eq_false (by omega), Bool.false_and, Bool.false_and]

theorem sliceAt_setSlice_of_disjoint (v : VReg) (lo n x lo' n' : Nat) (h : lo' + n' ≤ 4096) (hd : lo' + n' ≤ lo ∨ lo + n ≤ lo') :
    sliceAt (setSlice v lo n x) lo' n' = sliceAt v lo' n' := by
  refine Nat.eq_of_testBit_eq fun i => ?_
  rw [testBit_sliceAt, testBit_sliceAt]
  rcases Nat.lt_or_ge i n' with hi | hi
  · rw [getLsbD_setSlice _ _ _ _ _ (by omega), if_neg (by omega)]
  · rw [decide_eq_false (by omega), Bool.false_and, Bool.false_and]

/-! ### C tiles: what a written element leaves in the others -/

theorem line_setLine_two (k : Core) (l l' : Nat) (v : VReg) : (k.setLine 2 l v).line 2 l' = if l' = l then v else k.line 2 l' :=
  sget_sset k.cbuf l l' v

/-- A tile of 32-bit accumulators in CBUF as R203 allows it: one row to a line, rows on lines of their own. -/
structure Tensor.IsTile (c : Tensor) : Prop where
  cbuf : c.buf = 2
  width : c.w = 32
  flat : c.d2 = 1 ∧ c.d3 = 1
  stride : 0 < c.s1
  narrow : c.d0 ≤ 128

theorem Tensor.IsTile.bitAt_eq {c : Tensor} (h : c.IsTile) {i : Nat} (hi : i < c.d1) (j : Nat) :
    c.bitAt i j = (c.base + i * c.s1) * 4096 + 32 * j := by
  obtain ⟨h2, h3⟩ := h.flat
  have hrow : c.row i = c.base + i * c.s1 := by
    rw [Tensor.row, h2, Nat.mod_one, Nat.mul_one, Nat.div_eq_of_lt hi, Nat.mod_eq_of_lt hi]; omega
  rw [Tensor.bitAt, if_neg (by rw [h.cbuf]; decide), hrow, h.width]; omega

theorem Tensor.IsTile.bitAt_div {c : Tensor} (h : c.IsTile) {i j : Nat} (hi : i < c.d1) (hj : j < c.d0) :
    c.bitAt i j / 4096 = c.base + i * c.s1 ∧ c.bitAt i j % 4096 = 32 * j := by
  have := h.narrow
  rw [h.bitAt_eq hi]; omega

theorem Core.bufElem_putAt {c : Tensor} (h : c.IsTile) (k : Core) {i j i' j' : Nat} (hi : i < c.d1) (hj : j < c.d0) (hi' : i' < c.d1)
    (hj' : j' < c.d0) (x : Nat) :
    (k.putAt c i j x).bufElem 2 0 (c.bitAt i' j') 32 = if (i', j') = (i, j) then x % 2 ^ 32 else k.bufElem 2 0 (c.bitAt i' j') 32 := by
  have hn := h.narrow
  obtain ⟨hl, ho⟩ := h.bitAt_div hi hj
  obtain ⟨hl', ho'⟩ := h.bitAt_div hi' hj'
  rw [Core.putAt, Core.setBufElem, Core.bufElem, Core.bufElem, h.cbuf, h.width, hl, ho, hl', ho', line_setLine_two]
  rcases eq_or_ne i' i with rfl | hne
  · rw [if_pos rfl]
    rcases eq_or_ne j' j with rfl | hj2
    · rw [if_pos rfl, sliceAt_setSlice_self _ _ _ _ (by omega)]
    · rw [if_neg (by simpa using hj2), sliceAt_setSlice_of_disjoint _ _ _ _ _ _ (by omega) (by omega)]
  · have hrow : i' * c.s1 ≠ i * c.s1 := fun he => hne (Nat.eq_of_mul_eq_mul_right h.stride he)
    rw [if_neg (by omega), if_neg (by simp [hne])]

/-- What a write to CBUF leaves as it was. -/
structure SameButC (k q : Core) : Prop where
  abuf : q.abuf = k.abuf
  wbuf : q.wbuf = k.wbuf
  mtx : q.mtx = k.mtx
  ctxs : q.ctxs = k.ctxs
  grants : q.grants = k.grants

theorem SameButC.trans {k q r : Core} (h : SameButC k q) (h' : SameButC q r) : SameButC k r :=
  ⟨h'.abuf.trans h.abuf, h'.wbuf.trans h.wbuf, h'.mtx.trans h.mtx, h'.ctxs.trans h.ctxs, h'.grants.trans h.grants⟩

theorem Core.sameButC_putAt {c : Tensor} (h : c.buf = 2) (k : Core) (i j x : Nat) : SameButC k (k.putAt c i j x) := by
  rw [Core.putAt, Core.setBufElem, h]
  exact ⟨rfl, rfl, rfl, rfl, rfl⟩

/-! ### A tile written element by element -/

/-- Every place of a tile written with the code `g` gives it, and the flags gathered: the fold of R203. -/
def writeTile (c : Tensor) (g : Nat × Nat → Nat × Nat) (l : List (Nat × Nat)) (a : Core × Nat) : Core × Nat :=
  l.foldl (fun a q => (a.1.putAt c q.1 q.2 (g q).1, a.2 ||| (g q).2)) a

theorem writeTile_cons (c : Tensor) (g : Nat × Nat → Nat × Nat) (q : Nat × Nat) (l : List (Nat × Nat)) (a : Core × Nat) :
    writeTile c g (q :: l) a = writeTile c g l (a.1.putAt c q.1 q.2 (g q).1, a.2 ||| (g q).2) := rfl

theorem sameButC_writeTile {c : Tensor} (h : c.buf = 2) (g : Nat × Nat → Nat × Nat) :
    ∀ (l : List (Nat × Nat)) (a : Core × Nat), SameButC a.1 (writeTile c g l a).1
  | [], _ => ⟨rfl, rfl, rfl, rfl, rfl⟩
  | q :: l, a => by
    rw [writeTile_cons]
    exact (Core.sameButC_putAt h a.1 q.1 q.2 _).trans (sameButC_writeTile h g l (a.1.putAt c q.1 q.2 (g q).1, a.2 ||| (g q).2))

theorem bufElem_writeTile {c : Tensor} (h : c.IsTile) (g : Nat × Nat → Nat × Nat) {i j : Nat} (hi : i < c.d1) (hj : j < c.d0) :
    ∀ (l : List (Nat × Nat)) (a : Core × Nat), (∀ q ∈ l, q.1 < c.d1 ∧ q.2 < c.d0) →
      (writeTile c g l a).1.bufElem 2 0 (c.bitAt i j) 32 =
        if (i, j) ∈ l then (g (i, j)).1 % 2 ^ 32 else a.1.bufElem 2 0 (c.bitAt i j) 32
  | [], _, _ => by rw [if_neg (List.not_mem_nil)]; rfl
  | q :: l, a, hl => by
    obtain ⟨hq1, hq2⟩ := hl q List.mem_cons_self
    rw [writeTile_cons, bufElem_writeTile h g hi hj l _ fun r hr => hl r (List.mem_cons_of_mem q hr),
      Core.bufElem_putAt h a.1 hq1 hq2 hi hj]
    rcases eq_or_ne (i, j) q with rfl | hne
    · simp
    · simp [List.mem_cons, hne]

theorem mem_tilePlaces {rows cols : Nat} {q : Nat × Nat} : q ∈ tilePlaces rows cols ↔ q.1 < rows ∧ q.2 < cols := by
  obtain ⟨m, n⟩ := q
  simp [tilePlaces]

/-! ### An element of C fits its 32 bits -/

theorem fmtOf_f32 : fmtOf 0x10 =
    { width := 32, t := 23, bias := 127, signed := true, hasInf := true, ieee := true, nan := 0x7FC00000, top := 0x7F7FFFFF } := rfl

theorem ite_fst_lt {c : Prop} [Decidable c] {a b : Nat × Nat} {n : Nat} (ha : c → a.1 < n) (hb : ¬c → b.1 < n) :
    (if c then a else b).1 < n :=
  iteInduction (motive := fun r : Nat × Nat => r.1 < n) ha hb

theorem encodeMag_f32_lt (mode u : Nat) (ftz neg : Bool) (g : Mag) : (encodeMag 0x10 mode u ftz neg g).1 < 2 ^ 32 := by
  have hsign : (if (neg && true) = true then 2 ^ (32 - 1) else 0 : Nat) ≤ 2 ^ 31 := by cases neg <;> simp
  have htop (b : Bool) : (if b = true then 0x7F7FFFFF + 1 else 0x7F7FFFFF : Nat) ≤ 0x7F800000 := by cases b <;> simp
  simp only [encodeMag, fmtOf_f32, if_true]
  refine ite_fst_lt (fun _ => ?_) fun _ => ite_fst_lt (fun _ => ite_fst_lt (fun _ => by simp) fun _ => by simp) fun _ =>
    ite_fst_lt (fun _ => ?_) fun hmag => ite_fst_lt (fun _ => ?_) fun _ => ?_
  · exact Nat.lt_of_le_of_lt hsign (by decide)
  · exact Nat.lt_of_le_of_lt (Nat.add_le_add hsign (htop _)) (by decide)
  · exact Nat.lt_of_le_of_lt hsign (by decide)
  · exact iteInduction (motive := (· < 2 ^ 32)) (fun _ => Nat.lt_of_le_of_lt hsign (by decide)) fun _ =>
      Nat.lt_of_le_of_lt (Nat.add_le_add hsign (Nat.le_of_not_lt hmag)) (by decide)

theorem encodeInf_f32_lt (mode : Nat) (neg : Bool) : (encodeInf 0x10 mode neg).1 < 2 ^ 32 := by
  have hsign : (if (neg && true) = true then 2 ^ (32 - 1) else 0 : Nat) ≤ 2 ^ 31 := by cases neg <;> simp
  simp only [encodeInf, fmtOf_f32]
  refine ite_fst_lt (fun _ => ite_fst_lt (fun _ => by simp) fun _ => by simp) fun _ => ite_fst_lt (fun _ => ?_) fun _ => ?_
  · exact Nat.lt_of_le_of_lt (Nat.add_le_add_right (Nat.add_le_add_right hsign _) _) (by decide)
  · exact Nat.lt_of_le_of_lt (Nat.add_le_add_right hsign _) (by decide)

theorem encodeNum_f32_lt (mode u : Nat) (ftz : Bool) (x : Num) : (encodeNum 0x10 mode u ftz x).1 < 2 ^ 32 := by
  have hcode : ¬isIntCode 0x10 = true := by decide
  cases x with
  | nan => simp [encodeNum, hcode, fmtOf_f32]
  | inf neg => simpa only [encodeNum, if_neg hcode] using encodeInf_f32_lt mode neg
  | fin neg m e => simpa only [encodeNum, if_neg hcode] using encodeMag_f32_lt mode u ftz neg (Mag.dy m e)

theorem codeAt_lt_of_f32 (k : Core) (t : Tensor) (r i : Nat) (hw : t.w = 32) (hf : t.fmt = 0x10) : k.codeAt t r i < 2 ^ 32 := by
  have he : k.bufElem t.buf 0 (t.bitAt r i) t.w < 2 ^ 32 := by rw [hw]; exact Nat.mod_lt _ (Nat.two_pow_pos 32)
  simp only [Core.codeAt, dazCode, hf, fmtOf_f32]
  split
  · split <;> simp
  · exact he

theorem wrap_lt (n : Nat) (v : Int) : wrap n v < 2 ^ n := by
  have h0 := Int.emod_nonneg v (b := (2 ^ n : Nat)) (by positivity)
  have h1 := Int.emod_lt_of_pos v (b := (2 ^ n : Nat)) (by positivity)
  rw [wrap]; omega

theorem mElem_lt (k : Core) (p : MPlan) (m n : Nat) (hw : p.c.w = 32) (hf : isIntCode p.a.fmt = false → p.c.fmt = 0x10) :
    (k.mElem p m n).1 < 2 ^ 32 := by
  rw [Core.mElem]
  split
  · exact wrap_lt 32 _
  case isFalse hi =>
    refine List.foldlRecOn (motive := fun a : Nat × Nat => a.1 < 2 ^ 32) _ _ ?_ fun a _ st _ => encodeNum_f32_lt 0 0 _ _
    change (if p.ovw = true then 0 else k.codeAt p.c m n) < 2 ^ 32
    split
    · decide
    · exact codeAt_lt_of_f32 k p.c m n hw (hf (by simpa using hi))

/-! ### What an element of C depends on -/

/-- The parts of a core that the value of a product reads are the same. -/
structure SameOperands (k q : Core) : Prop where
  abuf : q.abuf = k.abuf
  cbuf : q.cbuf = k.cbuf
  wbuf : q.wbuf = k.wbuf
  fmtReg : q.fmtReg = k.fmtReg

section
variable {k q : Core} (h : SameOperands k q)
include h

theorem SameOperands.line : q.line = k.line := by
  funext b l
  simp only [Core.line, Core.buf, h.abuf, h.cbuf, h.wbuf]

theorem SameOperands.bufElem : q.bufElem = k.bufElem := by
  funext b l p w
  rw [Core.bufElem, h.line, Core.bufElem]

theorem SameOperands.codeAt : q.codeAt = k.codeAt := by
  funext t r i
  simp only [Core.codeAt, h.bufElem, h.fmtReg]

theorem SameOperands.ftzAt : q.ftzAt = k.ftzAt := by
  funext t r i
  simp only [Core.ftzAt, h.fmtReg]

theorem SameOperands.blockScale : q.blockScale = k.blockScale := by
  funext t r i
  simp only [Core.blockScale, Core.bufByte, h.line]
  rfl

theorem SameOperands.bPairs : q.bPairs = k.bPairs := by
  funext p n
  simp only [Core.bPairs, Core.bufBits, h.codeAt, h.bufElem]

theorem SameOperands.products : q.products = k.products := by
  funext p m n
  simp only [Core.products, Core.aCode, h.bPairs, h.blockScale, h.codeAt]

theorem SameOperands.mElem : q.mElem = k.mElem := by
  funext p m n
  simp only [Core.mElem, h.products, h.bufElem, h.codeAt, h.ftzAt]
end

/-! ### The C tile of a plan -/

/-- What the checks of R203, R204 and R207 say of C. -/
structure MPlan.Checked (k : Core) (hc : Header) (p : MPlan) : Prop where
  tensor : k.tensor hc 8 = some p.c
  rows : p.rows = p.c.d1
  cbuf : p.c.buf = 2
  flat : p.c.d2 = 1 ∧ p.c.d3 = 1
  narrow : p.cols ≤ 128
  cols : p.empty = false → p.c.d0 = p.cols
  fmt : p.c.fmt = if isIntCode p.a.fmt then 0x04 else 0x10

theorem checked_of_mPlan {k : Core} {g : Grant} {kind : Nat} {ovw dm : Bool} {hc ha hb : Header} {p : MPlan}
    (h : k.mPlan g kind ovw dm hc ha hb = some p) : p.Checked k hc := by
  unfold Core.mPlan at h
  split at h
  case h_2 => cases h
  case h_1 c a b hC _ _ =>
    obtain ⟨hok, hp⟩ := Option.ite_none_right_eq_some.1 h
    obtain rfl := Option.some.inj hp
    simp only [Bool.and_eq_true, decide_eq_true_eq, and_assoc] at hok
    obtain ⟨-, -, hbuf, -, -, h2, h3, hcols, -, -, -, -, -, -, -, -, -, -, -, hfmt, -, -, -, -, -, hshape, -⟩ := hok
    refine ⟨hC, rfl, hbuf, ⟨h2, h3⟩, hcols, fun he => ?_, hfmt⟩
    simp only [he, Bool.false_or, Bool.and_eq_true, decide_eq_true_eq, and_assoc] at hshape
    exact hshape.2.1

theorem tensorAs_of_tensor {k : Core} {h : Header} {raw : Nat} {t : Tensor} (ht : k.tensor h raw = some t) :
    t = tensorAs h t.fmt (widthOr t.fmt raw) := by
  unfold Core.tensor at ht
  split at ht
  · cases ht
  · dsimp only at ht
    split at ht
    · cases ht
    · split at ht
      · cases ht
      · obtain rfl := Option.some.inj ht
        rfl

theorem ceilDiv_pos {a b : Nat} (ha : 0 < a) (hb : 0 < b) : 0 < ceilDiv a b :=
  Nat.div_pos (by omega) hb

/-- The stride of a tensor in a typed buffer other than WBUF is not 0, unless it is empty. -/
theorem tensorAs_stride_pos {h : Header} {f w : Nat} (hb : hf h 11 ≠ 0 ∧ hf h 11 ≠ 3) (hd : hf h 4 ≠ 0) (hw : 0 < w) :
    0 < (tensorAs h f w).s1 := by
  have hrow : 0 < linesOf (ceilDiv (hf h 4 * w) 8) :=
    ceilDiv_pos (ceilDiv_pos (Nat.mul_pos (Nat.pos_of_ne_zero hd) hw) (by decide)) (by decide)
  simp only [tensorAs, if_neg hb.1, if_neg hb.2]
  split
  · exact Nat.pos_of_ne_zero ‹_›
  · exact hrow

section
variable {k : Core} {hc : Header} {p : MPlan} (h : p.Checked k hc)
include h

theorem MPlan.Checked.width : p.c.w = 32 := by
  have hc := congrArg Tensor.w (tensorAs_of_tensor h.tensor)
  change p.c.w = widthOr p.c.fmt 8 at hc
  rw [hc, h.fmt]
  split <;> decide

theorem MPlan.Checked.isTile (he : p.empty = false) : p.c.IsTile := by
  have hw := h.width
  have hd : p.c.d0 ≠ 0 := by
    simp only [MPlan.empty, Bool.or_eq_false_iff, decide_eq_false_iff_not] at he
    exact he.2
  have ht := tensorAs_of_tensor h.tensor
  have hbuf : hf hc 11 = 2 := (congrArg Tensor.buf ht).symm.trans h.cbuf
  have hd0 : hf hc 4 = p.c.d0 := (congrArg Tensor.d0 ht).symm
  have hwo : widthOr p.c.fmt 8 = 32 := (congrArg Tensor.w ht).symm.trans hw
  refine ⟨h.cbuf, hw, h.flat, ?_, (h.cols he).trans_le h.narrow⟩
  rw [ht]
  exact tensorAs_stride_pos (by omega) (by omega) (by omega)

theorem MPlan.Checked.mElem_lt (q : Core) (m n : Nat) : (q.mElem p m n).1 < 2 ^ 32 :=
  Machine.mElem_lt q p m n h.width fun hi => by rw [h.fmt, hi]; rfl

end

/-! ### The effect of a product command -/

theorem Core.runMma_of_empty {k : Core} {p : MPlan} (he : p.empty = true) : k.runMma p = (k, 0) := if_pos he

theorem Core.runMma_eq {k : Core} {p : MPlan} (he : p.empty = false) :
    k.runMma p = writeTile p.c (fun q => k.mElem p q.1 q.2) (tilePlaces p.rows p.cols) (k, 0) := if_neg (by simp [he])

theorem sameButC_runMma {k q : Core} {hc : Header} {p : MPlan} (h : p.Checked k hc) : SameButC q (q.runMma p).1 := by
  cases he : p.empty with
  | true => rw [Core.runMma_of_empty he]; exact ⟨rfl, rfl, rfl, rfl, rfl⟩
  | false => rw [Core.runMma_eq he]; exact sameButC_writeTile h.cbuf _ _ (q, 0)

/-- Every element of C takes the value computed over the operands as they stood (R194, R203). -/
theorem bufElem_runMma {k q : Core} {hc : Header} {p : MPlan} (h : p.Checked k hc) (he : p.empty = false) {i j : Nat} (hi : i < p.rows)
    (hj : j < p.cols) : (q.runMma p).1.bufElem 2 0 (p.c.bitAt i j) 32 = (q.mElem p i j).1 := by
  rw [Core.runMma_eq he, bufElem_writeTile (h.isTile he) _ (h.rows ▸ hi) (h.cols he ▸ hj) _ _ fun r hr => ?_,
    if_pos (mem_tilePlaces.2 ⟨hi, hj⟩), Nat.mod_eq_of_lt (h.mElem_lt q i j)]
  rw [← h.rows, h.cols he]
  exact mem_tilePlaces.1 hr

/-! ### Integer products (R195, R198) -/

theorem foldl_add_eq_sum {α : Type} (f : α → Int) (l : List α) (c : Int) : l.foldl (fun a q => a + f q) c = c + (l.map f).sum := by
  induction l generalizing c with
  | nil => simp
  | cons q l ih => simp [ih, add_assoc]

/-- Without block scales and with biases that cancel, every k of an MMA gives one product, not shifted. -/
theorem products_dense {k : Core} {p : MPlan} (hk : p.kind = 0) (ha : p.a.bse = false) (hb : p.b.bse = false)
    (hbias : p.a.bias + p.b.bias = p.c.bias) (i j : Nat) :
    k.products p i j = (List.range p.depth).map fun d => (d, k.codeAt p.a i d, k.codeAt p.b j d, (0 : Int)) := by
  have hsh : p.a.bias + p.b.bias - p.c.bias = 0 := by omega
  simp [Core.products, Core.bPairs, Core.aCode, Core.blockScale, hk, ha, hb, hsh, List.filterMap_map]

theorem mElem_int {k : Core} {p : MPlan} (hk : p.kind = 0) (hint : isIntCode p.a.fmt = true) (ha : p.a.bse = false) (hb : p.b.bse = false)
    (hbias : p.a.bias + p.b.bias = p.c.bias) (i j : Nat) :
    k.mElem p i j = (pat 32 ((if p.ovw then 0 else (k.bufElem 2 0 (p.c.bitAt i j) 32 : Int)) +
      ((List.range p.depth).map fun d => intVal p.a.fmt (k.codeAt p.a i d) * intVal p.b.fmt (k.codeAt p.b j d)).sum), 0) := by
  simp only [Core.mElem, if_pos hint, products_dense hk ha hb hbias, foldl_add_eq_sum, List.map_map, Function.comp_def]
  simp [wrap, pat]

/-! ### A product command enters flight (R206) -/

/-- A read that strikes an error makes a trap pending in the context and leaves everything else. -/
theorem readStruck_eq_modCtx (s : State) (c : CoreId) (x : CtxId) (path : Nat) (rd : List (Nat × Nat)) :
    ∃ f : Ctx → Ctx, s.readStruck c x path rd = s.modCtx c x f ∧ ∀ k, (f k).s = k.s ∧ (f k).h = k.h := by
  rw [State.readStruck]
  split
  · refine ⟨_, rfl, fun k => ?_⟩
    split <;> exact ⟨rfl, rfl⟩
  · exact ⟨fun k => k, (State.modCtx_id s c x).symm, fun k => ⟨rfl, rfl⟩⟩

theorem sameData_modMyCore (s : State) (f : Core → Core) (h : (f s.myCore).ctxs = s.myCore.ctxs) : SameData s (s.modMyCore f) := by
  have hme : (s.modMyCore f).me = s.me := by rw [State.me_modMyCore, Core.ctx, h]; rfl
  exact ⟨fun r => by rw [State.rdS, hme]; rfl, fun r => by rw [State.rdH, hme]; rfl, fun _ => ⟨rfl, rfl⟩⟩

theorem enterAccess_regs (k : Ctx) (a : Access4) : (k.enterAccess a).s = k.s ∧ (k.enterAccess a).h = k.h := by
  rw [Ctx.enterAccess]
  split <;> exact ⟨rfl, rfl⟩

theorem le_mtxStart (k : Core) (t kind : Nat) : t < k.mtxStart t kind :=
  Nat.lt_of_lt_of_le (by omega) (Nat.le_max_left (t + 8 + _) _)

/-- The command that a product word puts in flight. -/
theorem enterMma_mtx {k q : Core} {hc : Header} {p : MPlan} (h : p.Checked k hc) (t : Nat) (x : MCmd) :
    ∃ m, (q.enterMma p t x).mtx = q.mtx ++ [m] ∧ t < m.due ∧ m.fe = x.fe ∧ m.flag = x.flag ∧ m.idx = x.idx ∧ m.ctx = x.ctx := by
  refine ⟨_, congrArg (· ++ _) (sameButC_runMma h (q := q)).mtx, ?_, rfl, rfl, rfl, rfl⟩
  exact Nat.lt_of_lt_of_le (Nat.lt_of_lt_of_le (le_mtxStart q t p.kind) (by omega)) (Nat.le_max_right _ _)

/-- What a product word does once its checks have passed. -/
theorem mmaWord_some {s : State} {kind : Nat} {ovw dm : Bool} {h : HOp} {p : MPlan} (hr : s.myCore.mtxRoom = true)
    (hf : s.myGrant.flagOk h.fe h.flag = true)
    (hp : s.myCore.mPlan s.myGrant kind ovw dm (s.rdH h.hd) (s.rdH h.ha) (s.rdH h.hb) = some p) :
    ∃ t m, s.mmaWord kind ovw dm h = .next t ∧ t.myCore.mtx = s.myCore.mtx ++ [m] ∧ m.fe = h.fe ∧ m.flag = h.flag ∧ m.idx = s.curIdx ∧
      m.ctx = s.cur.ctx ∧ s.cycle < m.due ∧ SameData s t ∧ t.myCore.abuf = s.myCore.abuf ∧ t.myCore.wbuf = s.myCore.wbuf ∧
      (p.empty = true → t.myCore.cbuf = s.myCore.cbuf) ∧
      (p.empty = false → ∀ i j, i < p.rows → j < p.cols → t.myCore.bufElem 2 0 (p.c.bitAt i j) 32 = (s.myCore.mElem p i j).1) := by
  have hchk := checked_of_mPlan hp
  let fp := s.footprint 5 h.ac.val p.reads p.writes
  let u := s.issued.modMe fun k => k.enterAccess fp
  let v := u.modMyCore fun k => k.enterMma p s.cycle (s.mCmd h)
  obtain ⟨f, hread, hregs⟩ := readStruck_eq_modCtx v s.cur.core s.cur.ctx 0 p.reads
  have hexec : s.mmaWord kind ovw dm h = .next (v.modMe f) := by
    rw [State.mmaWord, if_neg (by simp [hr]), if_neg (by simp [hf]), hp]
    refine congrArg Host.Outcome.next (hread.trans ?_)
    simp [State.modMe, v, u, State.modMyCore]
  have hstill := sameButC_runMma hchk (q := u.myCore)
  obtain ⟨m, hm, hdue, hfe, hflag, hidx, hctx⟩ := enterMma_mtx hchk (q := u.myCore) s.cycle (s.mCmd h)
  have hcore : (v.modMe f).myCore = (u.myCore.enterMma p s.cycle (s.mCmd h)).modCtx v.cur.ctx f := by simp [v]
  have hsame : SameOperands s.myCore u.myCore := ⟨by simp [u], by simp [u], by simp [u], by funext b i; simp [u, Core.fmtReg]⟩
  refine ⟨v.modMe f, m, hexec, ?_, hfe, hflag, hidx, hctx, hdue, ?_, ?_, ?_, ?_, ?_⟩
  · rw [hcore]
    exact hm.trans (by simp [u])
  · obtain ⟨hs, hh⟩ := enterAccess_regs s.issued.me fp
    obtain ⟨hs', hh'⟩ := hregs v.me
    exact (((sameData_issued s).trans (sameData_modMe s.issued _ hs hh)).trans (sameData_modMyCore u _ hstill.ctxs)).trans
      (sameData_modMe v f hs' hh')
  · rw [hcore]
    exact hstill.abuf.trans hsame.abuf
  · rw [hcore]
    exact hstill.wbuf.trans hsame.wbuf
  · intro he
    rw [hcore]
    exact (congrArg (fun r : Core × Nat => r.1.cbuf) (Core.runMma_of_empty he)).trans hsame.cbuf
  · intro he i j hi hj
    rw [hcore, ← hsame.mElem]
    exact bufElem_runMma hchk he hi hj

theorem mmaWord_full {s : State} (hr : s.myCore.mtxRoom = false) (kind : Nat) (ovw dm : Bool) (h : HOp) :
    s.mmaWord kind ovw dm h = .next s := by
  rw [State.mmaWord, if_pos (by simp [hr])]
  rfl

theorem mmaWord_none {s : State} {kind : Nat} {ovw dm : Bool} {h : HOp} (hr : s.myCore.mtxRoom = true)
    (hf : s.myGrant.flagOk h.fe h.flag = true)
    (hp : s.myCore.mPlan s.myGrant kind ovw dm (s.rdH h.hd) (s.rdH h.ha) (s.rdH h.hb) = none) :
    s.mmaWord kind ovw dm h = .next s.trapRange := by
  rw [State.mmaWord, if_neg (by simp [hr]), if_neg (by simp [hf]), hp]

/-- The product words are the one row-step word with their kinds. -/
theorem exec_product {s : State} {h : HOp} {ovw dm : Bool} {q : Instr × Nat × Bool}
    (hq : q ∈ [(Instr.mma h ovw, 0, false), (.mmat h ovw, 1, false), (.mmas h ovw dm, 2, dm)]) : exec q.1 s = s.mmaWord q.2.1 ovw q.2.2 h := by
  simp only [List.mem_cons, List.not_mem_nil, or_false] at hq
  obtain rfl | rfl | rfl := hq <;> rfl

/-- Settles O43: the tile is written element by element, each from the operands as they stood at issue, for an element of C lies on a line of
its row in bits of its own; integer products are summed exactly. -/
theorem matrixProducts : Obligations.MatrixProducts := by
  refine ⟨fun s h ovw dm q hq => ?_, fun k p i j hk hint ha hb hbias => mElem_int hk hint ha hb hbias i j⟩
  rw [exec_product hq]
  exact ⟨fun hr => mmaWord_full hr _ _ _ h, fun hr hf => ⟨fun hp hl => ⟨_, mmaWord_none hr hf hp, trapped_range hl⟩,
    fun p hp => mmaWord_some hr hf hp⟩⟩

end Sys2Proof.Machine
end


section
/-! PROOFS. O38: every vector word is one run over its shape (`vecRun_issues`); on quiet registers its results are its element
function's (`vecResults_of`), word by word. -/

namespace Sys2Proof.Machine

/-! ### Every vector word runs as its shape says -/

theorem legalWord {i : Instr} {w : VWord} (hi : illegal i = none) (hw : vecWord i = some w) (run : VWord → Host.Outcome State Fault Refusal) :
    (if (illegal i).isSome then .fault .illFormed else match vecWord i with | some w => run w | none => .fault .illFormed) = run w := by
  rw [hi, hw]; rfl

theorem exec_vecIns {v : VOp} {i : Instr} {w : VWord} (hv : i ∈ vecIns v) (hi : illegal i = none) (hw : vecWord i = some w) (s : State) :
    ∃ rule kbit f, exec i s = s.vecRun v w rule kbit f := by
  simp only [vecIns, List.mem_cons, List.not_mem_nil, or_false] at hv
  repeat' obtain rfl | hv := hv
  all_goals exact ⟨_, _, _, legalWord hi hw fun w => s.vecRun v w _ _ _⟩

/-! ### What the issue of a vector word leaves as it was -/

/-- From `k` to `q` only queues, results in flight and the units' acceptance may have changed. -/
structure OnlyVecFlow (k q : Core) : Prop where
  vregs : q.v = k.v
  kregs : q.k = k.k
  flags : q.flags = k.flags
  abuf : q.abuf = k.abuf
  cbuf : q.cbuf = k.cbuf
  wbuf : q.wbuf = k.wbuf
  ctxs : q.ctxs = k.ctxs

theorem OnlyVecFlow.refl (k : Core) : OnlyVecFlow k k := ⟨rfl, rfl, rfl, rfl, rfl, rfl, rfl⟩

theorem OnlyVecFlow.trans {k q r : Core} (h : OnlyVecFlow k q) (h' : OnlyVecFlow q r) : OnlyVecFlow k r :=
  ⟨h'.vregs.trans h.vregs, h'.kregs.trans h.kregs, h'.flags.trans h.flags, h'.abuf.trans h.abuf, h'.cbuf.trans h.cbuf, h'.wbuf.trans h.wbuf,
    h'.ctxs.trans h.ctxs⟩

/-- The same of the running core, with its contexts and memory as they were. -/
structure VecFlow (s t : State) : Prop where
  cur : t.cur = s.cur
  mems : t.mems = s.mems
  core : OnlyVecFlow s.myCore t.myCore

theorem VecFlow.refl (s : State) : VecFlow s s := ⟨rfl, rfl, OnlyVecFlow.refl _⟩

theorem VecFlow.trans {s t u : State} (h : VecFlow s t) (h' : VecFlow t u) : VecFlow s u :=
  ⟨h'.cur.trans h.cur, h'.mems.trans h.mems, h.core.trans h'.core⟩

theorem VecFlow.me {s t : State} (h : VecFlow s t) : t.me = s.me := by
  change Core.ctx t.myCore t.cur.ctx = Core.ctx s.myCore s.cur.ctx
  rw [Core.ctx, Core.ctx, h.cur, h.core.ctxs]

theorem vecFlow_modMyCore (s : State) {f : Core → Core} (h : OnlyVecFlow s.myCore (f s.myCore)) : VecFlow s (s.modMyCore f) :=
  ⟨rfl, rfl, by rw [State.myCore_modMyCore]; exact h⟩

theorem VecFlow.skipFresh {s t : State} (h : VecFlow s t) (n : Nat) : VecFlow s (t.skipFresh n) := ⟨h.cur, h.mems, h.core⟩

/-! ### Sources read and popped (R43, R132) -/

theorem Core.queue_qPop (k : Core) (q r : QNo) : (k.qPop q).queue r = if r = q then (k.queue r).drop 1 else k.queue r := by
  rw [Core.queue, Core.qPop, List.drop_one]
  rcases eq_or_ne r q with rfl | h
  · simp
  · simp [h, Core.queue, Fin.val_ne_of_ne h.symm]

theorem Core.queue_qReserve (k : Core) (q r : QNo) :
    (k.qReserve q).2.queue r = k.queue r ++ if r = q then [{ id := k.nextSlot, val := none }] else [] := by
  rw [Core.queue, Core.qReserve]
  rcases eq_or_ne r q with rfl | h
  · simp
  · simp [h, Core.queue, Fin.val_ne_of_ne h.symm]

theorem count_filterMap_cons (r : Fin 64) (l : List (Fin 64)) (q : QNo) :
    ((r :: l).filterMap specQ).count q = (l.filterMap specQ).count q + if specQ r = some q then 1 else 0 := by
  rw [List.filterMap_cons]
  cases hq : specQ r with
  | none => simp
  | some p => simp [List.count_cons]

/-- A source that names a queue pops it and leaves the rest. -/
theorem readV_flow (s : State) (r : Fin 64) : VecFlow s (s.readV r).2 ∧ (s.readV r).2.myCore.vpend = s.myCore.vpend ∧
    ∀ q, (s.readV r).2.myCore.queue q = (s.myCore.queue q).drop (if specQ r = some q then 1 else 0) := by
  rw [State.readV]
  cases hq : specQ r with
  | some p =>
    dsimp only
    refine ⟨vecFlow_modMyCore s ⟨rfl, rfl, rfl, rfl, rfl, rfl, rfl⟩, by rw [State.myCore_modMyCore]; rfl, fun q => ?_⟩
    rw [State.myCore_modMyCore, Core.queue_qPop]
    rcases eq_or_ne q p with rfl | h
    · simp
    · simp [h, h.symm]
  | none =>
    dsimp only
    split
    · exact ⟨(VecFlow.refl s).skipFresh 1, rfl, fun q => by simp⟩
    · exact ⟨VecFlow.refl s, rfl, fun q => by simp⟩

theorem readVs_flow (l : List (Fin 64)) (s : State) : VecFlow s (s.readVs l).2 ∧ (s.readVs l).2.myCore.vpend = s.myCore.vpend ∧
    ∀ q, (s.readVs l).2.myCore.queue q = (s.myCore.queue q).drop ((l.filterMap specQ).count q) := by
  induction l generalizing s with
  | nil => exact ⟨VecFlow.refl s, rfl, fun q => rfl⟩
  | cons r l ih =>
    obtain ⟨hf, hp, hq⟩ := readV_flow s r
    obtain ⟨hf', hp', hq'⟩ := ih (s.readV r).2
    refine ⟨hf.trans hf', hp'.trans hp, fun q => (hq' q).trans ?_⟩
    rw [hq, List.drop_drop, count_filterMap_cons, Nat.add_comm]

/-- Registers of which no result is in flight are read as they stand. -/
theorem readVs_quiet (l : List (Fin 64)) (s : State) (h : ∀ r ∈ l, r.val < 56 ∧ s.myCore.inFlight r.val = false) :
    s.readVs l = (l.map fun r => vget s.myCore.v r.val 0, s) := by
  induction l with
  | nil => rfl
  | cons r l ih =>
    obtain ⟨hr, hf⟩ := h r List.mem_cons_self
    have hv : s.readV r = (vget s.myCore.v r.val 0, s) := by
      simp [State.readV, specQ, Nat.not_le.2 hr, hf]
    rw [State.readVs, hv]
    dsimp only
    rw [ih fun r hr => h r (List.mem_cons_of_mem _ hr)]
    rfl

/-! ### Results enter flight -/

theorem Core.clash_flow (k : Core) (p : VPend) (x : VReg) :
    OnlyVecFlow k (k.clash p x).1 ∧ (k.clash p x).1.vpend.length = k.vpend.length ∧ (k.clash p x).1.queue = k.queue := by
  rw [Core.clash]
  split
  · exact ⟨⟨rfl, rfl, rfl, rfl, rfl, rfl, rfl⟩, List.length_map .., rfl⟩
  · exact ⟨OnlyVecFlow.refl k, rfl, rfl⟩

theorem Core.clashMask_flow (k : Core) (p : VPend) (x : Mask) :
    OnlyVecFlow k (k.clashMask p x).1 ∧ (k.clashMask p x).1.vpend.length = k.vpend.length ∧ (k.clashMask p x).1.queue = k.queue := by
  rw [Core.clashMask]
  split
  · exact ⟨⟨rfl, rfl, rfl, rfl, rfl, rfl, rfl⟩, List.length_map .., rfl⟩
  · exact ⟨OnlyVecFlow.refl k, rfl, rfl⟩

theorem addPend_flow (s : State) (p : VPend) : VecFlow s (s.addPend p) ∧ (s.addPend p).myCore.vpend.length = s.myCore.vpend.length + 1 ∧
    (s.addPend p).myCore.queue = s.myCore.queue := by
  obtain ⟨ha, hl, hq⟩ := s.myCore.clash_flow p (s.freeVal 4096)
  obtain ⟨hb, hl', hq'⟩ := (s.myCore.clash p (s.freeVal 4096)).1.clashMask_flow (s.myCore.clash p (s.freeVal 4096)).2 (s.freeVal 1024)
  have hab := ha.trans hb
  rw [State.addPend]
  refine ⟨(vecFlow_modMyCore s ?_).skipFresh 1, ?_, ?_⟩
  · exact ⟨hab.vregs, hab.kregs, hab.flags, hab.abuf, hab.cbuf, hab.wbuf, hab.ctxs⟩
  · rw [State.skipFresh_myCore, State.myCore_modMyCore]
    exact (List.length_append ..).trans (congrArg (· + 1) (hl'.trans hl))
  · rw [State.skipFresh_myCore, State.myCore_modMyCore]
    exact hq'.trans hq

/-- A result that clashes with none in flight joins them. -/
theorem vpend_addPend {s : State} {p : VPend} (hd : p.dst < 56 → s.myCore.inFlight p.dst = false)
    (hk : 64 ≤ p.kdst → s.myCore.maskInFlight (p.kdst - 64) = false) : (s.addPend p).myCore.vpend = s.myCore.vpend ++ [p] := by
  have hc : s.myCore.clash p (s.freeVal 4096) = (s.myCore, p) := by
    refine if_neg fun h => ?_
    rw [Bool.and_eq_true, decide_eq_true_eq] at h
    rw [hd h.1] at h
    cases h.2
  have hm : s.myCore.clashMask p (s.freeVal 1024) = (s.myCore, p) := by
    refine if_neg fun h => ?_
    rw [Bool.and_eq_true, decide_eq_true_eq] at h
    rw [hk h.1] at h
    cases h.2
  rw [State.addPend, State.skipFresh_myCore, State.myCore_modMyCore, hc]
  dsimp only
  rw [hm]

/-- One destination of a word: its slot reserved where it is a queue, and its result, which names the slot, put in flight. -/
def State.sendDst (t : State) (d : Fin 64) (res : Nat → VPend) : State :=
  (t.modMyCore fun _ => (t.myCore.reserveDst d).2).addPend (res (t.myCore.reserveDst d).1)

theorem Core.reserveDst_flow (k : Core) (d : Fin 64) : OnlyVecFlow k (k.reserveDst d).2 ∧ (k.reserveDst d).2.vpend = k.vpend ∧
    ∀ q, ((k.reserveDst d).2.queue q).length = (k.queue q).length + if specQ d = some q then 1 else 0 := by
  rw [Core.reserveDst]
  cases hq : specQ d with
  | none => exact ⟨OnlyVecFlow.refl k, rfl, fun q => by simp⟩
  | some p =>
    refine ⟨⟨rfl, rfl, rfl, rfl, rfl, rfl, rfl⟩, rfl, fun q => ?_⟩
    dsimp only
    rw [Core.queue_qReserve, List.length_append]
    rcases eq_or_ne q p with rfl | h
    · simp
    · simp [h, h.symm]

theorem sendDst_flow (t : State) (d : Fin 64) (res : Nat → VPend) : VecFlow t (t.sendDst d res) ∧
    (t.sendDst d res).myCore.vpend.length = t.myCore.vpend.length + 1 ∧
    ∀ q, ((t.sendDst d res).myCore.queue q).length = (t.myCore.queue q).length + if specQ d = some q then 1 else 0 := by
  obtain ⟨hf, hp, hq⟩ := t.myCore.reserveDst_flow d
  obtain ⟨hf', hp', hq'⟩ := addPend_flow (t.modMyCore fun _ => (t.myCore.reserveDst d).2) (res (t.myCore.reserveDst d).1)
  rw [State.myCore_modMyCore] at hp' hq'
  refine ⟨(vecFlow_modMyCore t hf).trans hf', hp'.trans (by rw [hp]), fun q => ?_⟩
  rw [State.sendDst, hq', hq]

theorem sendDsts_flow (res : Fin 64 × Nat → Nat → VPend) (l : List (Fin 64 × Nat)) (t : State) :
    let u := l.foldl (fun t d => t.sendDst d.1 (res d)) t
    VecFlow t u ∧ u.myCore.vpend.length = t.myCore.vpend.length + l.length ∧
      ∀ q, (u.myCore.queue q).length = (t.myCore.queue q).length + ((l.map (·.1)).filterMap specQ).count q := by
  induction l generalizing t with
  | nil => exact ⟨VecFlow.refl t, rfl, fun q => rfl⟩
  | cons d l ih =>
    obtain ⟨hf, hp, hq⟩ := sendDst_flow t d.1 (res d)
    obtain ⟨hf', hp', hq'⟩ := ih (t.sendDst d.1 (res d))
    refine ⟨hf.trans hf', ?_, fun q => ?_⟩
    · rw [List.foldl_cons, hp', hp, List.length_cons]; omega
    · rw [List.foldl_cons, hq', hq, List.map_cons, count_filterMap_cons]; omega

theorem vpend_sendDst {t : State} {d : Fin 64} {res : Nat → VPend} (hd : d.val < 56) (hq : t.myCore.inFlight (res 0).dst = false)
    (hk : 64 ≤ (res 0).kdst → t.myCore.maskInFlight ((res 0).kdst - 64) = false) :
    (t.sendDst d res).myCore.vpend = t.myCore.vpend ++ [res 0] := by
  have hr : t.myCore.reserveDst d = (0, t.myCore) := by simp [Core.reserveDst, specQ, Nat.not_le.2 hd]
  have hs : (t.modMyCore fun _ => t.myCore).myCore = t.myCore := State.myCore_modMyCore ..
  rw [State.sendDst, hr, vpend_addPend (by rw [hs]; exact fun _ => hq) (by rw [hs]; exact hk), hs]

/-- The results of a word on quiet destinations, no two the same, stand in flight as they were made. -/
theorem vpend_sendDsts (res : Fin 64 × Nat → Nat → VPend) (l : List (Fin 64 × Nat)) (t : State)
    (hd : ∀ d ∈ l, d.1.val < 56 ∧ t.myCore.inFlight (res d 0).dst = false ∧
      (64 ≤ (res d 0).kdst → t.myCore.maskInFlight ((res d 0).kdst - 64) = false))
    (hp : l.Pairwise fun d e => (res d 0).dst ≠ (res e 0).dst ∧ (res e 0).kdst < 64) :
    (l.foldl (fun t d => t.sendDst d.1 (res d)) t).myCore.vpend = t.myCore.vpend ++ l.map fun d => res d 0 := by
  induction l generalizing t with
  | nil => exact (List.append_nil _).symm
  | cons d l ih =>
    obtain ⟨hlt, hq, hk⟩ := hd d List.mem_cons_self
    obtain ⟨hd1, hp1⟩ := List.pairwise_cons.1 hp
    have hv := vpend_sendDst hlt hq hk
    rw [List.foldl_cons, ih _ (fun e he => ?_) hp1, hv, List.append_assoc]
    · rfl
    · obtain ⟨hlt', hq', -⟩ := hd e (List.mem_cons_of_mem _ he)
      obtain ⟨hne, hlow⟩ := hd1 e he
      refine ⟨hlt', ?_, fun h => absurd h (Nat.not_le.2 hlow)⟩
      rw [Core.inFlight, hv, List.any_append]
      simp [show (t.myCore.vpend.any fun p => !p.sli && decide (p.dst = (res e 0).dst)) = false from hq', hne]

/-! ### The issue of a vector word in its parts -/

/-- The state once a word has issued, read and popped its sources, and drawn. -/
def State.vecTaken (s : State) (w : VWord) : State :=
  if w.draws then (s.issued.readVs w.srcs).2.modMe fun k => { k with vrctr := k.vrctr + 1 } else (s.issued.readVs w.srcs).2

/-- The random bits, free values and masks that a word's results take (R146, R147). -/
def State.vecEnv (s : State) (w : VWord) : VEnv :=
  { u := fun i => if w.draws then drawU s.me.vrkey.toNat s.me.vrctr.toNat i else 0
    free := fun i => (Config.free 64 ((s.vecTaken w).fresh + i)).toNat
    ms := w.masks.map s.readK }

/-- A word's results, element by element. -/
def State.vecOut (s : State) (w : VWord) (f : VEnv → List (List Nat) → List (Nat × Nat)) : List (Nat × Nat) :=
  f (s.vecEnv w) (w.lists (s.issued.readVs w.srcs).1)

/-- A word's mask destination as a result names it. -/
def VWord.maskDst (w : VWord) : Nat := match w.kd with | some m => if m = 0 then 0 else 64 + m | none => 0

/-- What all results of a word share, and what a mask destination gets. -/
def State.vecBlank (s : State) (v : VOp) (w : VWord) (rule : FlagRule) (kbit : Nat × Nat → Bool) (out : List (Nat × Nat)) : VPend :=
  { due := s.cycle + w.latency (w.lists (s.issued.readVs w.srcs).1) out v.rm.val, sli := w.sli.isSome, dst := 80, slot := 0, wmask := 0, val := 0,
    kdst := w.maskDst, kmask := (maskWrite (s.readK v.k.val) w.n fun i => kbit (out.getD i (0, 0))).1,
    kval := (maskWrite (s.readK v.k.val) w.n fun i => kbit (out.getD i (0, 0))).2,
    flags := raised rule (s.readK v.k.val) w.n out, first := true, ctx := s.cur.ctx, epoch := s.me.epoch, idx := s.curIdx }

/-- The result for destination `d` with its place among the destinations; the first carries mask and flags. -/
def State.vecRes (s : State) (v : VOp) (w : VWord) (rule : FlagRule) (kbit : Nat × Nat → Bool) (out : List (Nat × Nat)) (d : Fin 64 × Nat)
    (slot : Nat) : VPend :=
  let pk := packDst w (s.readK v.k.val) (specQ d.1).isSome d.2 w.dsts.length out
  { s.vecBlank v w rule kbit out with
    dst := d.1.val, slot := slot, wmask := pk.1, val := pk.2, kdst := if d.2 = 0 then w.maskDst else 0,
    flags := if d.2 = 0 then raised rule (s.readK v.k.val) w.n out else 0, first := d.2 = 0 }

/-- The state from which a word's results enter flight: its unit is taken. -/
def State.vecStart (s : State) (w : VWord) : State :=
  ((s.vecTaken w).skipFresh 8192).modMyCore fun k =>
    { k with vacc := vmod k.vacc w.unit fun _ => if w.every = 1 then 0 else s.cycle + w.every }

/-- The state after a vector word with these results. -/
def State.vecSent (s : State) (v : VOp) (w : VWord) (rule : FlagRule) (kbit : Nat × Nat → Bool) (out : List (Nat × Nat)) : State :=
  if w.dsts.isEmpty then (s.vecStart w).addPend (s.vecBlank v w rule kbit out)
  else w.dsts.zipIdx.foldl (fun t d => t.sendDst d.1 (s.vecRes v w rule kbit out d)) (s.vecStart w)

theorem vecRun_eq (s : State) (v : VOp) (w : VWord) (rule : FlagRule) (kbit : Nat × Nat → Bool)
    (f : VEnv → List (List Nat) → List (Nat × Nat)) : s.vecRun v w rule kbit f =
      if !s.myGrant.hasQueues (w.pops ++ w.pushes) then .next s.trapRange
      else if !s.queuesFor w.pops w.pushes then s.hold
      else .next (s.vecSent v w rule kbit (s.vecOut w f)) := rfl

/-- What software sees, and the masks and buffers, stay at the start; the counter moves where the word draws. -/
structure VecStarted (s t : State) (w : VWord) : Prop where
  data : SameData s t
  vregs : t.myCore.v = s.myCore.v
  kregs : t.myCore.k = s.myCore.k
  flags : t.myCore.flags = s.myCore.flags
  abuf : t.myCore.abuf = s.myCore.abuf
  cbuf : t.myCore.cbuf = s.myCore.cbuf
  wbuf : t.myCore.wbuf = s.myCore.wbuf
  vstat : t.me.vstat = s.me.vstat
  vrkey : t.me.vrkey = s.me.vrkey
  vrctr : t.me.vrctr = if w.draws then s.me.vrctr + 1 else s.me.vrctr

theorem sameData_of_me {s t : State} (hs : t.me.s = s.me.s) (hh : t.me.h = s.me.h) (hm : t.mems = s.mems) : SameData s t := by
  obtain ⟨hd, hk⟩ := Prod.mk.inj hm
  exact ⟨fun r => by simp only [State.rdS, Ctx.rdS, hs], fun r => by simp only [State.rdH, hh],
    fun a => by simp only [State.byte, State.hostByte, hd, hk, and_self]⟩

theorem vecTaken_started (s : State) (w : VWord) : VecStarted s (s.vecTaken w) w := by
  obtain ⟨hf, -, -⟩ := readVs_flow w.srcs s.issued
  have hme := hf.me
  have hm : (s.issued.readVs w.srcs).2.mems = s.mems := by simp
  obtain ⟨-, -, hcore⟩ := hf
  rw [State.vecTaken]
  split
  case isTrue hd =>
    refine ⟨sameData_of_me ?_ ?_ hm, ?_, ?_, ?_, ?_, ?_, ?_, ?_, ?_, ?_⟩ <;>
      simp [hme, hcore.vregs, hcore.kregs, hcore.flags, hcore.abuf, hcore.cbuf, hcore.wbuf, hd]
  case isFalse hd =>
    refine ⟨sameData_of_me ?_ ?_ hm, ?_, ?_, ?_, ?_, ?_, ?_, ?_, ?_, ?_⟩ <;>
      simp [hme, hcore.vregs, hcore.kregs, hcore.flags, hcore.abuf, hcore.cbuf, hcore.wbuf, hd]

theorem vecTaken_queues (s : State) (w : VWord) : (s.vecTaken w).myCore.vpend = s.myCore.vpend ∧
    ∀ q, ((s.vecTaken w).myCore.queue q).length = (s.myCore.queue q).length - w.pops.count q := by
  obtain ⟨-, hp, hq⟩ := readVs_flow w.srcs s.issued
  have hi (q : QNo) : s.issued.myCore.queue q = s.myCore.queue q := by simp [Core.queue]
  have hl (q : QNo) : ((s.issued.readVs w.srcs).2.myCore.queue q).length = (s.myCore.queue q).length - w.pops.count q := by
    rw [hq, List.length_drop, hi]; rfl
  rw [State.vecTaken]
  split
  · exact ⟨by simpa using hp, by simpa [Core.queue] using hl⟩
  · exact ⟨by simpa using hp, hl⟩

theorem vecStart_flow (s : State) (w : VWord) : VecFlow (s.vecTaken w) (s.vecStart w) ∧
    (s.vecStart w).myCore.vpend = (s.vecTaken w).myCore.vpend ∧ (s.vecStart w).myCore.queue = (s.vecTaken w).myCore.queue := by
  have hc : (s.vecStart w).myCore = { (s.vecTaken w).myCore with
      vacc := vmod (s.vecTaken w).myCore.vacc w.unit fun _ => if w.every = 1 then 0 else s.cycle + w.every } := by
    rw [State.vecStart, State.myCore_modMyCore]; rfl
  refine ⟨⟨rfl, rfl, ?_⟩, ?_, ?_⟩
  · rw [hc]; exact ⟨rfl, rfl, rfl, rfl, rfl, rfl, rfl⟩
  · rw [hc]
  · rw [hc]; rfl

theorem vecSent_flow (s : State) (v : VOp) (w : VWord) (rule : FlagRule) (kbit : Nat × Nat → Bool) (out : List (Nat × Nat)) :
    let t := s.vecSent v w rule kbit out
    VecFlow (s.vecTaken w) t ∧ t.myCore.vpend.length = s.myCore.vpend.length + Nat.max 1 w.dsts.length ∧
      ∀ q, (t.myCore.queue q).length = (s.myCore.queue q).length - w.pops.count q + w.pushes.count q := by
  obtain ⟨hp0, hq0⟩ := vecTaken_queues s w
  obtain ⟨hf1, hp1, hq1⟩ := vecStart_flow s w
  rw [State.vecSent]
  cases hds : w.dsts with
  | nil =>
    obtain ⟨hf, hp, hq⟩ := addPend_flow (s.vecStart w) (s.vecBlank v w rule kbit out)
    refine ⟨hf1.trans hf, ?_, fun q => ?_⟩
    · exact hp.trans (by rw [hp1, hp0]; rfl)
    · rw [show w.pushes.count q = 0 by rw [VWord.pushes, hds]; rfl, Nat.add_zero, ← hq0, ← hq1]
      exact congrArg (fun f => (f q).length) hq
  | cons d ds =>
    obtain ⟨hf, hp, hq⟩ := sendDsts_flow (s.vecRes v w rule kbit out) (d :: ds).zipIdx (s.vecStart w)
    refine ⟨hf1.trans hf, ?_, fun q => ?_⟩
    · refine hp.trans ?_
      rw [hp1, hp0, List.length_zipIdx, List.length_cons]
      exact congrArg _ (Nat.max_eq_right (by omega)).symm
    · exact (hq q).trans (by rw [hq1, hq0, VWord.pushes, hds, List.zipIdx_map_fst])

theorem VecStarted.of_flow {s t u : State} {w : VWord} (h : VecStarted s t w) (hf : VecFlow t u) : VecStarted s u w := by
  have hme := hf.me
  obtain ⟨-, hm, hcore⟩ := hf
  refine ⟨h.data.trans (sameData_of_me (by rw [hme]) (by rw [hme]) hm), hcore.vregs.trans h.vregs, hcore.kregs.trans h.kregs,
    hcore.flags.trans h.flags, hcore.abuf.trans h.abuf, hcore.cbuf.trans h.cbuf, hcore.wbuf.trans h.wbuf, ?_, ?_, ?_⟩
  · rw [hme, h.vstat]
  · rw [hme, h.vrkey]
  · rw [hme, h.vrctr]

/-- The first part of O38: a word traps on a foreign queue, holds for its queues, or issues. -/
theorem vecRun_issues (s : State) (v : VOp) (w : VWord) (rule : FlagRule) (kbit : Nat × Nat → Bool)
    (f : VEnv → List (List Nat) → List (Nat × Nat)) :
    let ok := s.myGrant.hasQueues (w.pops ++ w.pushes)
    let r := s.vecRun v w rule kbit f
    (ok = false → r = .next s.trapRange) ∧ (ok = true → s.queuesFor w.pops w.pushes = false → r = .next s) ∧
      (ok = true → s.queuesFor w.pops w.pushes = true → ∃ t, r = .next t ∧ VecStarted s t w ∧
        t.myCore.vpend.length = s.myCore.vpend.length + Nat.max 1 w.dsts.length ∧
        ∀ q : QNo, (t.myCore.queue q).length = (s.myCore.queue q).length - w.pops.count q + w.pushes.count q) := by
  refine ⟨fun ho => ?_, fun ho hq => ?_, fun ho hq => ?_⟩
  · rw [vecRun_eq, ho]; rfl
  · rw [vecRun_eq, ho, hq]; rfl
  · obtain ⟨hf, hp, hqs⟩ := vecSent_flow s v w rule kbit (s.vecOut w f)
    exact ⟨_, by rw [vecRun_eq, ho, hq]; rfl, (vecTaken_started s w).of_flow hf, hp, hqs⟩

/-! ### Elements packed into a register (R4, R131) -/

/-- The number that a list of elements of `w` bits makes. -/
def packNat (w : Nat) (xs : List Nat) : Nat := xs.foldr (fun x acc => x % 2 ^ w + acc * 2 ^ w) 0

theorem packNat_cons (w x : Nat) (xs : List Nat) : packNat w (x :: xs) = x % 2 ^ w + packNat w xs * 2 ^ w := rfl

theorem packNat_lt (w : Nat) (xs : List Nat) : packNat w xs < 2 ^ (w * xs.length) := by
  induction xs with
  | nil => simp [packNat]
  | cons x xs ih =>
    have hx : x % 2 ^ w < 2 ^ w := Nat.mod_lt _ (Nat.two_pow_pos w)
    calc packNat w (x :: xs) < 2 ^ w + packNat w xs * 2 ^ w := by rw [packNat_cons]; omega
      _ = (packNat w xs + 1) * 2 ^ w := by ring
      _ ≤ 2 ^ (w * xs.length) * 2 ^ w := Nat.mul_le_mul_right _ ih
      _ = 2 ^ (w * (x :: xs).length) := by rw [← Nat.pow_add, List.length_cons, Nat.mul_succ]

theorem packNat_slice (w : Nat) (xs : List Nat) (l : Nat) : packNat w xs / 2 ^ (w * l) % 2 ^ w = xs.getD l 0 % 2 ^ w := by
  induction xs generalizing l with
  | nil => simp [packNat]
  | cons x xs ih =>
    have hx : x % 2 ^ w < 2 ^ w := Nat.mod_lt _ (Nat.two_pow_pos w)
    cases l with
    | zero => simp [packNat_cons]
    | succ l =>
      have hdiv : packNat w (x :: xs) / 2 ^ w = packNat w xs := by
        rw [packNat_cons, Nat.add_mul_div_right _ _ (Nat.two_pow_pos w), Nat.div_eq_of_lt hx, Nat.zero_add]
      rw [Nat.mul_succ, Nat.add_comm, Nat.pow_add, ← Nat.div_div_eq_div_mul, hdiv, ih, List.getD_cons_succ]

theorem sliceAt_packElems {w : Nat} {xs : List Nat} (h : w * xs.length ≤ 4096) (l : Nat) :
    sliceAt (packElems w xs) (w * l) w = xs.getD l 0 % 2 ^ w := by
  have hlt : packNat w xs < 2 ^ 4096 := (packNat_lt w xs).trans_le (Nat.pow_le_pow_right (by decide) h)
  have hnat : (packElems w xs).toNat = packNat w xs := (BitVec.toNat_ofNat ..).trans (Nat.mod_eq_of_lt hlt)
  rw [sliceAt, hnat, packNat_slice]

/-- An element that goes to a register: its value and every bit of its mask where the word's mask is on, no bit where it is off (R133). -/
theorem packDst_lane {w : VWord} {rho : Nat} (hfit : w.n / rho * w.w ≤ 4096) (mask : Mask) (j : Nat) (out : List (Nat × Nat)) {l : Nat}
    (hl : l < w.n / rho) :
    let pk := packDst w mask false j rho out
    (mask.getLsbD (l * rho + j) = true → sliceAt pk.2 (w.w * l) w.w = (out.getD (l * rho + j) (0, 0)).1 % 2 ^ w.w ∧
      sliceAt pk.1 (w.w * l) w.w = 2 ^ w.w - 1) ∧
    (mask.getLsbD (l * rho + j) = false → sliceAt pk.1 (w.w * l) w.w = 0) := by
  have hlen (g : Bool × Nat → Nat) (h : Nat → Bool × Nat) : w.w * (((List.range (w.n / rho)).map h).map g).length ≤ 4096 := by
    rw [List.length_map, List.length_map, List.length_range, Nat.mul_comm]; exact hfit
  have hpos := Nat.two_pow_pos w.w
  have hget (g : Bool × Nat → Nat) (h : Nat → Bool × Nat) : (((List.range (w.n / rho)).map h).map g).getD l 0 = g (h l) := by
    simp [List.getD_eq_getElem?_getD, hl]
  simp only [packDst, Bool.false_eq_true, if_false, sliceAt_packElems (hlen _ _), hget]
  refine ⟨fun hm => ?_, fun hm => ?_⟩
  · rw [hm]
    exact ⟨rfl, Nat.mod_eq_of_lt (Nat.sub_lt hpos Nat.one_pos)⟩
  · rw [hm]; rfl

/-! ### A word on quiet registers completes -/

/-- Element `e` of source `j`. -/
def elAt (xs : List (List Nat)) (j e : Nat) : Nat := (xs.getD j []).getD e 0

/-- The sources of a word as lists of as many elements as the word has. -/
def VWord.Shaped (w : VWord) (xs : List (List Nat)) : Prop := ∀ j < w.srcs.length, w.rho ≤ 1 ∨ j = 0 → (xs.getD j []).length = w.n

theorem shaped_lists (w : VWord) {rs : List VReg} (h : rs.length = w.srcs.length) : w.Shaped (w.lists rs) := by
  intro j hj hr
  rw [VWord.lists]
  split
  case isTrue hrho =>
    obtain rfl : j = 0 := hr.resolve_left (by omega)
    simp
  case isFalse =>
    simp [List.getD_eq_getElem?_getD, h ▸ hj, elems]

/-- What VecResults asks of a word's shape: no masks read besides K, destinations that differ and that the results fit, and a latency. -/
structure VWord.Fine (w : VWord) : Prop where
  masks : w.masks = []
  nodup : w.dsts.Nodup
  fits : w.n / w.dsts.length * w.w ≤ 4096
  late : w.sli = none → 0 < w.lat

/-- The results of a word have the values `val`, to the width of its elements, and raise its flags. -/
structure Gives (w : VWord) (rule : FlagRule) (res : List (Nat × Nat)) (val : Nat → Nat × Nat) : Prop where
  value : ∀ e < w.n, (res.getD e (0, 0)).1 % 2 ^ w.w = (val e).1 % 2 ^ w.w
  flag : ∀ mask, raised rule mask w.n res = raised rule mask w.n ((List.range w.n).map val)

theorem gives_of_eq {w : VWord} {rule : FlagRule} {res : List (Nat × Nat)} {val : Nat → Nat × Nat} (h : res = (List.range w.n).map val) :
    Gives w rule res val :=
  ⟨fun e he => by simp [h, List.getD_eq_getElem?_getD, he], fun _ => by rw [h]⟩

theorem latency_pos {w : VWord} (h : w.Fine) (xs : List (List Nat)) (out : List (Nat × Nat)) (rm : Nat) : 0 < w.latency xs out rm := by
  rw [VWord.latency]
  split
  · exact h.late ‹_›
  · dsimp only; omega

theorem filterMap_specQ_eq_nil {l : List (Fin 64)} (h : ∀ r ∈ l, r.val < 56) : l.filterMap specQ = [] :=
  List.filterMap_eq_nil_iff.2 fun r hr => if_neg (Nat.not_le.2 (h r hr))

/-- A word that names no queue waits for none. -/
theorem queuesFor_nil (s : State) : s.queuesFor [] [] = true := by
  have hno {α : Type} (l : List α) : (l.any fun _ => false) = false := List.any_eq_false.2 fun _ _ => Bool.false_ne_true
  simp [State.queuesFor, Core.queuesReady, Core.owes, hno]

theorem readK_eq_maskOf {s : State} {m : Nat} (h : s.myCore.maskInFlight m = false) : s.readK m = s.maskOf m := by
  rw [State.readK, State.maskOf, h]
  split <;> rfl

section
variable {s : State} {v : VOp} {w : VWord} (hq : s.vecQuiet v w)
include hq

theorem vecQuiet_read : (s.issued.readVs w.srcs).1 = w.srcs.map fun r => vget s.myCore.v r.val 0 := by
  rw [readVs_quiet w.srcs s.issued fun r hr => ?_, State.issued_myCore_v]
  simpa [Core.inFlight] using hq.srcs r hr

theorem vecRun_quiet (rule : FlagRule) (kbit : Nat × Nat → Bool) (f : VEnv → List (List Nat) → List (Nat × Nat)) :
    s.vecRun v w rule kbit f = .next (s.vecSent v w rule kbit (s.vecOut w f)) := by
  have hpop : w.pops = [] := filterMap_specQ_eq_nil fun r hr => (hq.srcs r hr).1
  have hpush : w.pushes = [] := filterMap_specQ_eq_nil fun r hr => (hq.dsts r hr).1
  rw [vecRun_eq, hpop, hpush, queuesFor_nil]; rfl

theorem vpend_vecSent (hn : w.dsts.Nodup) (hd : w.dsts ≠ []) (rule : FlagRule) (kbit : Nat × Nat → Bool) (out : List (Nat × Nat)) :
    (s.vecSent v w rule kbit out).myCore.vpend =
      s.myCore.vpend ++ w.dsts.zipIdx.map fun d => s.vecRes v w rule kbit out d 0 := by
  obtain ⟨-, hstart, -⟩ := vecStart_flow s w
  have hv : (s.vecStart w).myCore.vpend = s.myCore.vpend := hstart.trans (vecTaken_queues s w).1
  rw [State.vecSent, if_neg (by simpa using hd), vpend_sendDsts, hv]
  · intro d hmem
    obtain ⟨hlt, hfl⟩ := hq.dsts d.1 (List.fst_mem_of_mem_zipIdx hmem)
    have hdst : (s.vecRes v w rule kbit out d 0).dst = d.1.val := rfl
    refine ⟨hlt, by rw [hdst, Core.inFlight, hv]; exact hfl, fun h64 => ?_⟩
    have hk : (s.vecRes v w rule kbit out d 0).kdst = if d.2 = 0 then w.maskDst else 0 := rfl
    rw [hk] at h64 ⊢
    split at h64
    case isFalse => omega
    case isTrue h0 =>
      rw [if_pos h0, VWord.maskDst] at *
      cases hkd : w.kd with
      | none => simp [hkd] at h64
      | some m =>
        rw [hkd] at h64
        dsimp only at h64 ⊢
        split at h64
        · omega
        · rw [if_neg ‹_›, Nat.add_sub_cancel_left]
          simpa [Core.maskInFlight, hv] using hq.kd m hkd
  · refine List.pairwise_iff_getElem.2 fun a b ha hb hab => ?_
    have ha' : a < w.dsts.length := by simpa using ha
    have hb' : b < w.dsts.length := by simpa using hb
    rw [List.getElem_zipIdx, List.getElem_zipIdx]
    refine ⟨fun he => ?_, ?_⟩
    · exact absurd (hn.getElem_inj_iff.1 (Fin.ext he)) (by omega)
    · change (if 0 + b = 0 then w.maskDst else 0) < 64
      rw [if_neg (by omega)]; decide

theorem vecRes_lane (hw : w.Fine) (rule : FlagRule) (kbit : Nat × Nat → Bool) (out : List (Nat × Nat)) {j l : Nat} (hj : j < w.dsts.length)
    (hl : l < w.n / w.dsts.length) :
    let p := s.vecRes v w rule kbit out (w.dsts[j], j) 0
    let e := l * w.dsts.length + j
    ((s.maskOf v.k.val).getLsbD e = true → sliceAt p.val (w.w * l) w.w = (out.getD e (0, 0)).1 % 2 ^ w.w ∧
      sliceAt p.wmask (w.w * l) w.w = 2 ^ w.w - 1) ∧
    ((s.maskOf v.k.val).getLsbD e = false → sliceAt p.wmask (w.w * l) w.w = 0) := by
  have hreg : (specQ w.dsts[j]).isSome = false := by simp [specQ, Nat.not_le.2 (hq.dsts _ (List.getElem_mem hj)).1]
  have hpk : packDst w (s.readK v.k.val) (specQ w.dsts[j]).isSome j w.dsts.length out = packDst w (s.maskOf v.k.val) false j w.dsts.length out := by
    rw [hreg, readK_eq_maskOf (hq.masks _ List.mem_cons_self)]
  simp only [State.vecRes, hpk]
  exact packDst_lane hw.fits (s.maskOf v.k.val) j out hl
end

theorem lane_lt {n m l j : Nat} (hl : l < n / m) (hj : j < m) : l * m + j < n := by
  have h1 := Nat.mul_le_mul_right m (Nat.succ_le_of_lt hl)
  have h2 := Nat.div_mul_le_self n m
  rw [Nat.succ_mul] at h1
  omega

/-- A word completes as VecResults says when its shape is fine and its results are the values named. -/
theorem vecResults_of {i : Instr} {v : VOp} {w : VWord} {rule : FlagRule} {out : State → VEnv → (Nat → Nat → Nat) → Nat → Nat × Nat}
    {kbit : Nat × Nat → Bool} {f : State → VEnv → List (List Nat) → List (Nat × Nat)} (hword : vecWord i = some w)
    (hfine : illegal i = none → w.Fine) (hexec : ∀ s : State, illegal i = none → exec i s = s.vecRun v w rule kbit (f s))
    (hgives : ∀ (s : State) (env : VEnv) (xs : List (List Nat)), w.Shaped xs → Gives w rule (f s env xs) (out s env (elAt xs))) :
    VecResults i v rule out := by
  intro s w' hi hw' hq hd
  obtain rfl : w = w' := Option.some.inj (hword.symm.trans hw')
  have hfw := hfine hi
  have hread := vecQuiet_read hq
  have hmask : s.readK v.k.val = s.maskOf v.k.val := readK_eq_maskOf (hq.masks _ List.mem_cons_self)
  have henv : s.vecEnv w = { u := (s.vecEnv w).u, free := (s.vecEnv w).free, ms := [] } := by
    rw [State.vecEnv, hfw.masks]; rfl
  have hg := hgives s (s.vecEnv w) _ (shaped_lists w (rs := (s.issued.readVs w.srcs).1) (by simp [hread]))
  rw [hread, henv] at hg
  have hout : s.vecOut w (f s) = f s { u := (s.vecEnv w).u, free := (s.vecEnv w).free, ms := [] }
      (w.lists (w.srcs.map fun r => vget s.myCore.v r.val 0)) := by
    rw [← henv, ← hread]; rfl
  have hlen : (w.dsts.zipIdx.map fun d => s.vecRes v w rule kbit (s.vecOut w (f s)) d 0).length = w.dsts.length := by simp
  refine ⟨_, w.dsts.zipIdx.map fun d => s.vecRes v w rule kbit (s.vecOut w (f s)) d 0, (s.vecEnv w).free,
    (hexec s hi).trans (vecRun_quiet hq rule kbit (f s)),
    ((vecTaken_started s w).of_flow (vecSent_flow s v w rule kbit (s.vecOut w (f s))).1).data,
    vpend_vecSent hq hfw.nodup hd rule kbit _, ?_, fun p hp => ?_, ?_, fun j p l hp hl => ?_⟩
  · calc (w.dsts.zipIdx.map fun d => s.vecRes v w rule kbit (s.vecOut w (f s)) d 0).map (·.dst)
        = (w.dsts.zipIdx.map (·.1)).map (·.val) := by rw [List.map_map, List.map_map]; rfl
      _ = w.dsts.map (·.val) := by rw [List.zipIdx_map_fst]
  · obtain ⟨d, -, rfl⟩ := List.mem_map.1 hp
    exact ⟨Nat.lt_add_of_pos_right (latency_pos hfw _ _ _), rfl⟩
  · obtain ⟨d, ds, hds⟩ := List.exists_cons_of_ne_nil hd
    have hhead : ((w.dsts.zipIdx.map fun d => s.vecRes v w rule kbit (s.vecOut w (f s)) d 0).map (·.flags)).headD 0 =
        raised rule (s.readK v.k.val) w.n (s.vecOut w (f s)) := by
      rw [hds]; rfl
    rw [hhead, hmask, hout]
    exact hg.flag _
  · rw [hlen] at hl ⊢
    obtain ⟨hj, rfl⟩ := List.getElem?_eq_some_iff.1 hp
    rw [hlen] at hj
    obtain ⟨hon, hoff⟩ := vecRes_lane hq hfw rule kbit (s.vecOut w (f s)) hj hl
    rw [List.getElem_map, List.getElem_zipIdx, Nat.zero_add]
    refine ⟨fun hm => ⟨(hon hm).1.trans ?_, (hon hm).2⟩, hoff⟩
    rw [hout]
    exact hg.value _ (lane_lt hl hj)

/-! ### The shapes of words -/

/-- A word of type T on `m` sources of its own width, with one destination. -/
structure VWord.Flat (w : VWord) (v : VOp) (m : Nat) : Prop where
  srcs : w.srcs.length = m
  masks : w.masks = []
  dsts : w.dsts = [v.d]
  count : w.n = elemCount v.t.val
  width : w.w = typeWidth v.t.val
  rho : w.rho = 1

theorem VWord.Flat.fine {w : VWord} {v : VOp} {m : Nat} (h : w.Flat v m) (hl : w.sli = none → 0 < w.lat) : w.Fine := by
  refine ⟨h.masks, ?_, ?_, hl⟩
  · rw [h.dsts]; exact List.nodup_singleton _
  · rw [h.dsts, List.length_singleton, Nat.div_one, h.count, h.width]; exact Nat.div_mul_le_self 4096 _

theorem VWord.Flat.shaped {w : VWord} {v : VOp} {m : Nat} (h : w.Flat v m) {xs : List (List Nat)} (hs : w.Shaped xs) {j : Nat} (hj : j < m) :
    (xs.getD j []).length = w.n := hs j (h.srcs ▸ hj) (.inl h.rho.le)

theorem flat_vShape (v : VOp) (srcs : List (Fin 64)) (lat : Nat) : (vShape v srcs lat).Flat v srcs.length := ⟨rfl, rfl, rfl, rfl, rfl, rfl⟩

theorem flat_vShapeL (v : VOp) (srcs : List (Fin 64)) (latI latF : Nat) : (vShapeL v srcs latI latF).Flat v srcs.length := by
  unfold vShapeL
  split <;> exact ⟨rfl, rfl, rfl, rfl, rfl, rfl⟩

theorem VWord.Flat.withLx {w : VWord} {v : VOp} {m : Nat} (h : w.Flat v m) : (w.withLx v).Flat v m := by
  obtain ⟨h1, h2, h3, h4, h5, h6⟩ := h
  rw [VWord.withLx]
  split <;> exact ⟨h1, h2, h3, h4, h5, h6⟩

theorem flat_vSpecialShape (v : VOp) (lat : Nat) : (vSpecialShape v lat).Flat v 1 := by
  unfold vSpecialShape
  split <;> exact ⟨rfl, rfl, rfl, rfl, rfl, rfl⟩

theorem flat_vReduceShape (v : VOp) : (vReduceShape v).Flat v 1 := by
  unfold vReduceShape
  split
  · exact ⟨rfl, rfl, rfl, rfl, rfl, rfl⟩
  · split <;> exact ⟨rfl, rfl, rfl, rfl, rfl, rfl⟩

theorem flat_vScanShape (v : VOp) : (vScanShape v).Flat v 1 := ⟨rfl, rfl, rfl, rfl, rfl, rfl⟩

/-! ### Latencies -/

theorem lat_vShape_pos (v : VOp) (srcs : List (Fin 64)) {lat : Nat} (h : 0 < lat) : 0 < (vShape v srcs lat).lat := Nat.add_pos_left h _

theorem lat_vShapeL_pos {v : VOp} {srcs : List (Fin 64)} {latI latF : Nat} (h : isL v.t.val = true ∨ 0 < latI ∧ 0 < latF)
    (hs : (vShapeL v srcs latI latF).sli = none) : 0 < (vShapeL v srcs latI latF).lat := by
  unfold vShapeL at hs ⊢
  split at hs
  · cases hs
  case isFalse hl =>
    rw [if_neg hl]
    obtain ⟨hI, hF⟩ := h.resolve_left hl
    refine lat_vShape_pos v srcs ?_
    split <;> assumption

theorem late_withLx {w : VWord} (v : VOp) (h : w.sli = none → 0 < w.lat) : (w.withLx v).sli = none → 0 < (w.withLx v).lat := by
  rw [VWord.withLx]
  split <;> exact h

theorem lat_vSpecialShape_pos {v : VOp} {lat : Nat} (h : 0 < lat) (hs : (vSpecialShape v lat).sli = none) : 0 < (vSpecialShape v lat).lat := by
  unfold vSpecialShape at hs ⊢
  split at hs
  · cases hs
  case isFalse hl =>
    rw [if_neg hl]
    refine lat_vShape_pos v [v.a] ?_
    split
    · omega
    · exact h

theorem lat_vReduceShape_pos {v : VOp} (hs : (vReduceShape v).sli = none) : 0 < (vReduceShape v).lat := by
  unfold vReduceShape at hs ⊢
  split at hs
  · cases hs
  case isFalse hl =>
    rw [if_neg hl]
    split
    · refine lat_vShape_pos v [v.a] ?_
      split <;> decide
    · exact lat_vShape_pos v [v.a] (by decide)

theorem lat_vScanShape_pos (v : VOp) : 0 < (vScanShape v).lat := by
  refine lat_vShape_pos v [v.a] ?_
  split
  · split <;> decide
  · decide

/-! ### Conversions (R134) -/

theorem typeWidth_mem (t : Nat) : typeWidth t = 0 ∨ typeWidth t ∈ [4, 8, 16, 32, 64] := by
  unfold typeWidth
  split_ifs <;> simp

theorem typeWidth_of_isL {t : Nat} (h : isL t = true) : typeWidth t ≠ 0 := by
  simp only [isL, Bool.or_eq_true, decide_eq_true_eq] at h
  obtain rfl | rfl := h <;> decide

theorem typeWidth_of_isF {t : Nat} (h : isF t = true) : typeWidth t ≠ 0 := by
  simp only [isF, Bool.or_eq_true, decide_eq_true_eq] at h
  obtain (rfl | rfl) | rfl := h <;> decide

theorem typeWidth_of_isX {t : Nat} (h : isX t = true) : typeWidth t ≠ 0 := by
  simp only [isX, Bool.and_eq_true, decide_eq_true_eq] at h
  exact h.1

theorem group_nodup (r : Fin 64) {rho : Nat} (h : rho ≤ 64) : (group r rho).Nodup := by
  refine List.Nodup.map_on (fun a ha b hb he => ?_) List.nodup_range
  have := congrArg Fin.val he
  simp only [Fin.ofNat, List.mem_range] at this ha hb
  omega

/-- Results of a conversion fit their destinations: the widths are powers of two. -/
theorem cvt_fits : ∀ w ∈ [4, 8, 16, 32, 64], ∀ sw ∈ [4, 8, 16, 32, 64],
    4096 / Nat.max 1 (Nat.min w sw) / (if w / sw > 1 then w / sw else 1) * w ≤ 4096 ∧ w / sw ≤ 64 := by
  decide

/-- The shape that all conversions share. -/
def vCvtBase (v : VOp) : VWord :=
  let sw := typeWidth v.c.val
  let w := typeWidth v.t.val
  let narrow := if w = 0 then 1 else sw / w
  let widen := if sw = 0 then 1 else w / sw
  { vShape v [v.a] 4 with
    srcs := if narrow > 1 then group v.a narrow else [v.a]
    dsts := if widen > 1 then group v.d widen else [v.d]
    n := 4096 / Nat.max 1 (Nat.min w sw), sw := sw, w := w, rho := Nat.max 1 narrow }

theorem vCvtShape_eq (v : VOp) : ∃ sl u e dr, vCvtShape v = { vCvtBase v with sli := sl, unit := u, every := e, draws := dr } := by
  change ∃ sl u e dr, (if isL v.c.val then (vCvtBase v).asSli true v.c.val
    else if isL v.t.val then (vCvtBase v).asSli false v.t.val
    else if isIntCode v.c.val && isIntCode v.t.val then { vCvtBase v with draws := false } else vCvtBase v) = _
  split_ifs
  all_goals exact ⟨_, _, _, _, rfl⟩

theorem vCvtShape_srcs_pos (v : VOp) : 0 < (vCvtShape v).srcs.length := by
  obtain ⟨sl, u, e, dr, heq⟩ := vCvtShape_eq v
  rw [heq]
  refine iteInduction (motive := fun l : List (Fin 64) => 0 < l.length) (fun h => ?_) fun _ => Nat.one_pos
  rw [group, List.length_map, List.length_range]
  exact Nat.zero_lt_of_lt h

theorem fine_vCvtShape {v : VOp} (ht : typeWidth v.t.val ≠ 0) (hc : typeWidth v.c.val ≠ 0) : (vCvtShape v).Fine := by
  obtain ⟨hfit, hwide⟩ := cvt_fits _ ((typeWidth_mem v.t.val).resolve_left ht) _ ((typeWidth_mem v.c.val).resolve_left hc)
  have hdsts : (vCvtBase v).dsts =
      if typeWidth v.t.val / typeWidth v.c.val > 1 then group v.d (typeWidth v.t.val / typeWidth v.c.val) else [v.d] := by
    simp only [vCvtBase, if_neg hc]
  obtain ⟨sl, u, e, dr, heq⟩ := vCvtShape_eq v
  rw [heq]
  refine ⟨rfl, ?_, ?_, fun _ => lat_vShape_pos v [v.a] (by decide)⟩
  · change (vCvtBase v).dsts.Nodup
    rw [hdsts]
    split
    · exact group_nodup v.d hwide
    · exact List.nodup_singleton _
  · have hlen : (vCvtBase v).dsts.length = if typeWidth v.t.val / typeWidth v.c.val > 1 then typeWidth v.t.val / typeWidth v.c.val else 1 := by
      rw [hdsts]
      split <;> simp [group]
    change (vCvtBase v).n / (vCvtBase v).dsts.length * typeWidth v.t.val ≤ 4096
    rw [hlen]
    exact hfit

/-! ### Results element by element -/

theorem map1_eq {xs : List (List Nat)} {n : Nat} (h : (xs.getD 0 []).length = n) (g : Nat → Nat → Nat × Nat) :
    map1 g xs = (List.range n).map fun e => g e (elAt xs 0 e) := by
  unfold map1 elAt
  generalize xs.getD 0 [] = a at h ⊢
  refine List.ext_getElem (by simp [h]) fun e _ he => ?_
  have hn : e < n := by simpa using he
  simp [h, hn]

theorem map2_eq {xs : List (List Nat)} {n : Nat} (h0 : (xs.getD 0 []).length = n) (h1 : (xs.getD 1 []).length = n)
    (g : Nat → Nat → Nat → Nat × Nat) : map2 g xs = (List.range n).map fun e => g e (elAt xs 0 e) (elAt xs 1 e) := by
  unfold map2 elAt
  generalize xs.getD 0 [] = a at h0 ⊢
  generalize xs.getD 1 [] = b at h1 ⊢
  refine List.ext_getElem (by simp [h0, h1]) fun e _ he => ?_
  have hn : e < n := by simpa using he
  simp [h0, h1, hn]

theorem map3_eq {xs : List (List Nat)} {n : Nat} (h0 : (xs.getD 0 []).length = n) (h1 : (xs.getD 1 []).length = n)
    (h2 : (xs.getD 2 []).length = n) (g : Nat → Nat → Nat → Nat → Nat × Nat) :
    map3 g xs = (List.range n).map fun e => g e (elAt xs 0 e) (elAt xs 1 e) (elAt xs 2 e) := by
  unfold map3 elAt
  generalize xs.getD 0 [] = a at h0 ⊢
  generalize xs.getD 1 [] = b at h1 ⊢
  generalize xs.getD 2 [] = c at h2 ⊢
  refine List.ext_getElem (by simp [h0, h1, h2]) fun e _ he => ?_
  have hn : e < n := by simpa using he
  simp [h0, h1, h2, hn]

section
variable {i : Instr} {v : VOp} {w : VWord} {rule : FlagRule} {kbit : Nat × Nat → Bool} (hword : vecWord i = some w)
  (hfine : illegal i = none → w.Fine)
include hword hfine

/-- A word that applies a function to each element of its one source, or source group. -/
theorem vecResults_map1 {g : State → VEnv → Nat → Nat → Nat × Nat} (hsrcs : 0 < w.srcs.length)
    (hexec : ∀ s : State, illegal i = none → exec i s = s.vecRun v w rule kbit fun env xs => map1 (g s env) xs) :
    VecResults i v rule fun s env x e => g s env e (x 0 e) :=
  vecResults_of hword hfine hexec fun s env _ hs => gives_of_eq (map1_eq (hs 0 hsrcs (.inr rfl)) (g s env))

/-- A word that applies a function to the elements of two sources. -/
theorem vecResults_map2 {g : State → VEnv → Nat → Nat → Nat → Nat × Nat} (hflat : w.Flat v 2)
    (hexec : ∀ s : State, illegal i = none → exec i s = s.vecRun v w rule kbit fun env xs => map2 (g s env) xs) :
    VecResults i v rule fun s env x e => g s env e (x 0 e) (x 1 e) :=
  vecResults_of hword hfine hexec fun s env xs hs =>
    gives_of_eq (map2_eq (hflat.shaped hs (by decide)) (hflat.shaped hs (by decide)) (g s env))

/-- A word that applies a function to the elements of three sources. -/
theorem vecResults_map3 {g : State → VEnv → Nat → Nat → Nat → Nat → Nat × Nat} (hflat : w.Flat v 3)
    (hexec : ∀ s : State, illegal i = none → exec i s = s.vecRun v w rule kbit fun env xs => map3 (g s env) xs) :
    VecResults i v rule fun s env x e => g s env e (x 0 e) (x 1 e) (x 2 e) :=
  vecResults_of hword hfine hexec fun s env xs hs =>
    gives_of_eq (map3_eq (hflat.shaped hs (by decide)) (hflat.shaped hs (by decide)) (hflat.shaped hs (by decide)) (g s env))

end

/-! ### Reductions and scans (R164 to R166) -/

theorem map_elAt {xs : List (List Nat)} {n : Nat} (h : (xs.getD 0 []).length = n) : (List.range n).map (elAt xs 0) = xs.getD 0 [] := by
  unfold elAt
  generalize xs.getD 0 [] = a at h ⊢
  exact List.ext_getElem (by simp [h]) fun e he _ => by
    have hn : e < n := by simpa using he
    simp [h, hn]

theorem map_getD_range {l : List (Nat × Nat)} {n : Nat} (h : l.length = n) : (List.range n).map (fun e => l.getD e (0, 0)) = l :=
  List.ext_getElem (by simp [h]) fun e he _ => by
    have hn : e < n := by simpa using he
    simp [h, hn]

theorem length_scanFrom (g : Nat → Nat → Nat → Nat × Nat) (i acc : Nat) (l : List Nat) : (scanFrom g i acc l).length = l.length := by
  induction l generalizing i acc with
  | nil => rfl
  | cons x l ih => rw [scanFrom, List.length_cons, List.length_cons, ih]

theorem length_sumsFrom (acc : Int) (l : List Int) : (sumsFrom acc l).length = l.length := by
  induction l generalizing acc with
  | nil => rfl
  | cons x l ih => rw [sumsFrom, List.length_cons, List.length_cons, ih]

theorem length_exclude (excl : Bool) (z : Nat) (l : List (Nat × Nat)) : (exclude excl z l).length = l.length := by
  cases excl <;> simp [exclude]

theorem length_scanAddAll (v : VOp) (env : VEnv) (xs : List (List Nat)) : (scanAddAll v env xs).length = (xs.getD 0 []).length := by
  unfold scanAddAll
  dsimp only
  split
  case h_1 h => rw [h]; rfl
  case h_2 x rest h =>
    rw [h]
    split
    · rw [length_exclude, List.length_cons, length_scanFrom, List.length_cons]
    · rw [length_exclude, List.length_map, length_sumsFrom, List.length_map]

/-- A scan of a choice of two: each step chooses among the elements up to its own. -/
theorem scanFrom_value (g : Nat → Nat → Nat) (l : List Nat) (i acc e : Nat) (he : e < l.length) :
    ((scanFrom (fun _ p y => (g p y, 0)) i acc l).getD e (0, 0)).1 = (l.take (e + 1)).foldl g acc := by
  induction l generalizing i acc e with
  | nil => simp at he
  | cons x l ih =>
    cases e with
    | zero => simp [scanFrom]
    | succ e => simpa [scanFrom] using ih (i + 1) (g acc x) e (by simpa using he)

theorem exclude_value (excl : Bool) (z : Nat) (l : List (Nat × Nat)) (e : Nat) (he : e < l.length) :
    ((exclude excl z l).getD e (0, 0)).1 = if excl then (if e = 0 then z else (l.getD (e - 1) (0, 0)).1) else (l.getD e (0, 0)).1 := by
  cases excl with
  | false => simp [exclude]
  | true =>
    cases e with
    | zero => simp [exclude, List.getD_eq_getElem?_getD, he]
    | succ e => simp [exclude, List.getD_eq_getElem?_getD, he, Nat.lt_of_succ_lt he]

/-- The element of a list that a chain of choices ends with. -/
def pickOf (t : Nat) (mx : Bool) (l : List Nat) : Nat := l.tail.foldl (pickElem t mx) (l.headD 0)

theorem rpickAll_value (t : Nat) (mx : Bool) (xs : List (List Nat)) (e : Nat) (he : e < (xs.getD 0 []).length) :
    ((rpickAll t mx xs).getD e (0, 0)).1 = scanHead t (pickOf t mx (xs.getD 0 [])) := by
  unfold rpickAll
  split
  case h_1 h => rw [h] at he; cases he
  case h_2 x rest h =>
    rw [h] at he ⊢
    rw [List.getD_eq_getElem?_getD, List.getElem?_map, List.getElem?_eq_getElem he]
    rfl

/-- Element `e` of the inclusive scan for the larger. -/
def scanMaxAt (t : Nat) (l : List Nat) (e : Nat) : Nat := if e = 0 then scanHead t (l.headD 0) else pickOf t true (l.take (e + 1))

theorem scanMaxAll_value (v : VOp) (xs : List (List Nat)) (e : Nat) (he : e < (xs.getD 0 []).length) :
    ((scanMaxAll v xs).getD e (0, 0)).1 =
      if v.m.val / 2 % 2 = 1 then
        (if e = 0 then (if isF v.t.val then (encodeInf v.t.val 0 true).1 else pat (typeWidth v.t.val) (intLo v.t.val))
         else scanMaxAt v.t.val (xs.getD 0 []) (e - 1))
      else scanMaxAt v.t.val (xs.getD 0 []) e := by
  unfold scanMaxAll
  dsimp only
  split
  case h_1 h => rw [h] at he; cases he
  case h_2 x rest h =>
    rw [h] at he ⊢
    have hat (j : Nat) (hj : j < (x :: rest).length) :
        (((scanHead v.t.val x, 0) :: scanFrom (fun _ p y => (pickElem v.t.val true p y, 0)) 1 x rest).getD j (0, 0)).1 =
          scanMaxAt v.t.val (x :: rest) j := by
      cases j with
      | zero => rfl
      | succ j => exact scanFrom_value (pickElem v.t.val true) rest 1 x j (by simpa using hj)
    rw [exclude_value _ _ _ _ (by simpa [length_scanFrom] using he), hat e he, hat (e - 1) (by omega)]
    simp only [decide_eq_true_eq]
    rfl

section
variable {i : Instr} {v : VOp} {w : VWord} {rule : FlagRule} (hword : vecWord i = some w) (hfine : illegal i = none → w.Fine)
  (hflat : w.Flat v 1)
include hword hfine hflat

/-- A word whose results are a list computed from all elements of its source. -/
theorem vecResults_whole {g : VEnv → List (List Nat) → List (Nat × Nat)} (hlen : ∀ env xs, (g env xs).length = (xs.getD 0 []).length)
    (hwhole : ∀ env xs, g env xs = g env [xs.getD 0 []])
    (hexec : ∀ s : State, illegal i = none → exec i s = s.vecRun v w rule noBit g) :
    VecResults i v rule fun _ env x e => (g env [(List.range (elemCount v.t.val)).map (x 0)]).getD e (0, 0) :=
  vecResults_of (f := fun _ => g) hword hfine hexec fun s env xs hs => by
    have hl := hflat.shaped hs (j := 0) (by decide)
    rw [← hflat.count, map_elAt hl, ← hwhole]
    exact gives_of_eq (map_getD_range ((hlen env xs).trans hl)).symm

/-- A word whose element values are known from all elements of its source, and that raises no flag. -/
theorem vecResults_values {g : List (List Nat) → List (Nat × Nat)} {val : (Nat → Nat → Nat) → Nat → Nat}
    (hval : ∀ xs e, (xs.getD 0 []).length = elemCount v.t.val → e < elemCount v.t.val → ((g xs).getD e (0, 0)).1 = val (elAt xs) e)
    (hexec : ∀ s : State, illegal i = none → exec i s = s.vecRun v w .none noBit fun _ xs => g xs) :
    VecResults i v .none fun _ _ x e => (val x e, 0) :=
  vecResults_of (f := fun _ _ => g) hword hfine hexec fun s env xs hs => by
    have hl := (hflat.shaped hs (j := 0) (by decide)).trans hflat.count
    exact ⟨fun e he => by rw [hval xs e hl (hflat.count ▸ he)], fun _ => rfl⟩

end

/-- All elements of a word's source, as VectorWordsIssue writes them. -/
def allOf (t : Nat) (x : Nat → Nat → Nat) : List Nat := (List.range (elemCount t)).map (x 0)

theorem rpickAll_elAt {t : Nat} {xs : List (List Nat)} {e : Nat} (mx : Bool) (hl : (xs.getD 0 []).length = elemCount t)
    (he : e < elemCount t) : ((rpickAll t mx xs).getD e (0, 0)).1 = scanHead t (pickOf t mx (allOf t (elAt xs))) := by
  rw [allOf, map_elAt hl, rpickAll_value t mx xs e (hl ▸ he)]

/-- Element `e` of the inclusive scan for the larger, as VectorWordsIssue writes it. -/
def scanMaxOf (t : Nat) (x : Nat → Nat → Nat) (e : Nat) : Nat :=
  if e = 0 then scanHead t (x 0 0) else pickOf t true ((allOf t x).take (e + 1))

theorem scanMaxAt_elAt {t : Nat} {xs : List (List Nat)} (hl : (xs.getD 0 []).length = elemCount t) (e : Nat) :
    scanMaxAt t (xs.getD 0 []) e = scanMaxOf t (elAt xs) e := by
  rw [scanMaxAt, scanMaxOf, allOf, map_elAt hl, elAt]
  cases xs.getD 0 [] <;> rfl

/-! ### The words (R138, R145, R157) -/

theorem eq_false_of_firstBad {l : List (Nat × Bool)} (h : firstBad l = none) {p : Nat × Bool} (hp : p ∈ l) : p.2 = false := by
  induction l with
  | nil => cases hp
  | cons q l ih =>
    obtain ⟨n, b⟩ := q
    rw [firstBad] at h
    cases b with
    | true => cases h
    | false =>
      rcases List.mem_cons.1 hp with rfl | hp
      · rfl
      · exact ih h hp

theorem isL_of_vSliLx {two : Bool} {v : VOp} (h : vSliLx two v = none) : isL v.t.val = true := by
  have h6 := eq_false_of_firstBad h (p := (6, !isL v.t.val || !rmOk v.rm.val)) (by simp)
  simp only [Bool.or_eq_false_iff, Bool.not_eq_false'] at h6
  exact h6.1

theorem fine_of_vCvt {v : VOp} (h : vCvt v = none) : (vCvtShape v).Fine := by
  have h6 := eq_false_of_firstBad h (p := (6, !isX v.t.val || !isX v.c.val || !rmOk v.rm.val ||
    (isInt v.t.val && isInt v.c.val && decide (v.rm.val ≠ 0) && decide (v.rm.val ≠ 8)))) (by simp)
  simp only [Bool.or_eq_false_iff, Bool.not_eq_false'] at h6
  obtain ⟨⟨⟨ht, hc⟩, -⟩, -⟩ := h6
  exact fine_vCvtShape (typeWidth_of_isX ht) (typeWidth_of_isX hc)

theorem fine_of_vCvtL {tOk uOk : Nat → Bool} {rounds : Bool} {v : VOp} (ht : ∀ t, tOk t = true → typeWidth t ≠ 0)
    (hu : ∀ t, uOk t = true → typeWidth t ≠ 0) (h : vCvtL tOk uOk rounds v = none) : (vCvtShape v).Fine := by
  have h6 := eq_false_of_firstBad h (p := (6, !tOk v.t.val || !uOk v.c.val || !rmOk v.rm.val)) (by simp)
  simp only [Bool.or_eq_false_iff, Bool.not_eq_false'] at h6
  exact fine_vCvtShape (ht _ h6.1.1) (hu _ h6.1.2)

/-! ### Shapes that are fine -/

theorem fine_vShape (v : VOp) (srcs : List (Fin 64)) {lat : Nat} (h : 0 < lat) : (vShape v srcs lat).Fine :=
  (flat_vShape v srcs lat).fine fun _ => lat_vShape_pos v srcs h

theorem fine_vShapeL (v : VOp) (srcs : List (Fin 64)) {latI latF : Nat} (hI : 0 < latI) (hF : 0 < latF) : (vShapeL v srcs latI latF).Fine :=
  (flat_vShapeL v srcs latI latF).fine (lat_vShapeL_pos (.inr ⟨hI, hF⟩))

theorem fine_withLx {v : VOp} {srcs : List (Fin 64)} {latI latF : Nat} (h : isL v.t.val = true ∨ 0 < latI ∧ 0 < latF) :
    ((vShapeL v srcs latI latF).withLx v).Fine :=
  (flat_vShapeL v srcs latI latF).withLx.fine (late_withLx v (lat_vShapeL_pos h))

theorem fine_vSpecialShape (v : VOp) {lat : Nat} (h : 0 < lat) : (vSpecialShape v lat).Fine :=
  (flat_vSpecialShape v lat).fine (lat_vSpecialShape_pos h)

theorem fine_vReduceShape (v : VOp) : (vReduceShape v).Fine := (flat_vReduceShape v).fine lat_vReduceShape_pos

theorem fine_vScanShape (v : VOp) : (vScanShape v).Fine := (flat_vScanShape v).fine fun _ => lat_vScanShape_pos v

section
variable (v : VOp)

/-! ### Arithmetic of two and three sources (R140, R142, R158) -/

theorem vadd_results : VecResults (.vadd v) v .element fun _ env x e => addElem v false env e (x 0 e) (x 1 e) :=
  (vecResults_map2 (i := .vadd v) rfl (fun _ => fine_withLx (.inr ⟨by decide, by decide⟩)) (flat_vShapeL v [v.a, v.b] 2 4).withLx
    fun s hi => legalWord hi rfl fun w => s.vecRun v w _ _ _ :)

theorem vsub_results : VecResults (.vsub v) v .element fun _ env x e => addElem v true env e (x 0 e) (x 1 e) :=
  (vecResults_map2 (i := .vsub v) rfl (fun _ => fine_withLx (.inr ⟨by decide, by decide⟩)) (flat_vShapeL v [v.a, v.b] 2 4).withLx
    fun s hi => legalWord hi rfl fun w => s.vecRun v w _ _ _ :)

theorem vmul_results : VecResults (.vmul v) v .element fun _ env x e => mulElem v env e (x 0 e) (x 1 e) :=
  (vecResults_map2 (i := .vmul v) rfl (fun _ => fine_withLx (.inr ⟨by decide, by decide⟩)) (flat_vShapeL v [v.a, v.b] 5 5).withLx
    fun s hi => legalWord hi rfl fun w => s.vecRun v w _ _ _ :)

theorem vdiv_results : VecResults (.vdiv v) v .element fun _ env x e =>
    crossed v.t.val [decodeLi v.t.val (x 0 e), decodeLi v.t.val (x 1 e)]
      (liMul v.t.val v.rm.val (env.u e) (env.free e) true (decodeLi v.t.val (x 0 e)) (decodeLi v.t.val (x 1 e))) :=
  (vecResults_map2 (i := .vdiv v) rfl (fun hi => fine_withLx (.inl (isL_of_vSliLx hi))) (flat_vShapeL v [v.a, v.b] 0 0).withLx
    fun s hi => legalWord hi rfl fun w => s.vecRun v w _ _ _ :)

theorem vsqrt_results : VecResults (.vsqrt v) v .element fun _ env x e =>
    crossed v.t.val [decodeLi v.t.val (x 0 e)] (liSqrt v.t.val v.rm.val (env.u e) (env.free e) (decodeLi v.t.val (x 0 e))) :=
  (vecResults_map1 (i := .vsqrt v) rfl (fun hi => fine_withLx (.inl (isL_of_vSliLx hi)))
    ((flat_vShapeL v [v.a] 0 0).withLx.srcs ▸ Nat.one_pos) fun s hi => legalWord hi rfl fun w => s.vecRun v w _ _ _ :)

theorem vfma_results : VecResults (.vfma v) v .element fun _ env x e => fmaElem v false false env e (x 0 e) (x 1 e) (x 2 e) :=
  (vecResults_map3 (i := .vfma v) rfl (fun _ => fine_vShape v _ (by decide)) (flat_vShape v [v.a, v.b, v.c] 5)
    fun s hi => legalWord hi rfl fun w => s.vecRun v w _ _ _ :)

theorem vfms_results : VecResults (.vfms v) v .element fun _ env x e => fmaElem v true false env e (x 0 e) (x 1 e) (x 2 e) :=
  (vecResults_map3 (i := .vfms v) rfl (fun _ => fine_vShape v _ (by decide)) (flat_vShape v [v.a, v.b, v.c] 5)
    fun s hi => legalWord hi rfl fun w => s.vecRun v w _ _ _ :)

theorem vfnma_results : VecResults (.vfnma v) v .element fun _ env x e => fmaElem v false true env e (x 0 e) (x 1 e) (x 2 e) :=
  (vecResults_map3 (i := .vfnma v) rfl (fun _ => fine_vShape v _ (by decide)) (flat_vShape v [v.a, v.b, v.c] 5)
    fun s hi => legalWord hi rfl fun w => s.vecRun v w _ _ _ :)

theorem vmin_results : VecResults (.vmin v) v .none fun _ _ x e => (pickElem v.t.val false (x 0 e) (x 1 e), 0) :=
  (vecResults_map2 (i := .vmin v) rfl (fun _ => fine_vShapeL v _ (by decide) (by decide)) (flat_vShapeL v [v.a, v.b] 2 4)
    fun s hi => legalWord hi rfl fun w => s.vecRun v w _ _ _ :)

theorem vmax_results : VecResults (.vmax v) v .none fun _ _ x e => (pickElem v.t.val true (x 0 e) (x 1 e), 0) :=
  (vecResults_map2 (i := .vmax v) rfl (fun _ => fine_vShapeL v _ (by decide) (by decide)) (flat_vShapeL v [v.a, v.b] 2 4)
    fun s hi => legalWord hi rfl fun w => s.vecRun v w _ _ _ :)

theorem vabs_results : VecResults (.vabs v) v .none fun _ _ x e => signElem v false (x 0 e) :=
  (vecResults_map1 (i := .vabs v) rfl (fun _ => fine_vShapeL v _ (by decide) (by decide))
    ((flat_vShapeL v [v.a] 2 2).srcs ▸ Nat.one_pos) fun s hi => legalWord hi rfl fun w => s.vecRun v w _ _ _ :)

theorem vneg_results : VecResults (.vneg v) v .none fun _ _ x e => signElem v true (x 0 e) :=
  (vecResults_map1 (i := .vneg v) rfl (fun _ => fine_vShapeL v _ (by decide) (by decide))
    ((flat_vShapeL v [v.a] 2 2).srcs ▸ Nat.one_pos) fun s hi => legalWord hi rfl fun w => s.vecRun v w _ _ _ :)

/-! ### Conversions (R145, R161 to R163) -/

theorem vcvt_results : VecResults (.vcvt v) v .element fun _ env x e =>
    let r := convertAny v.t.val v.c.val v.rm.val (env.u e) (env.free e) false (x 0 e)
    if isL v.t.val && isL v.c.val then crossed v.t.val [decodeLi v.c.val (x 0 e)] r else r :=
  (vecResults_map1 (i := .vcvt v) rfl fine_of_vCvt (vCvtShape_srcs_pos v)
    fun s hi => legalWord hi rfl fun w => s.vecRun v w _ _ _ :)

theorem vcvte_results : VecResults (.vcvte v) v .element fun _ env x e =>
    liExp v.t.val v.rm.val (env.u e) (env.free e) (decodeNum v.c.val (x 0 e)) :=
  (vecResults_map1 (i := .vcvte v) rfl (fine_of_vCvtL (fun _ => typeWidth_of_isL) fun _ => typeWidth_of_isF) (vCvtShape_srcs_pos v)
    fun s hi => legalWord hi rfl fun w => s.vecRun v w _ _ _ :)

theorem vcvtl_results : VecResults (.vcvtl v) v .element fun _ env x e =>
    liLog v.t.val v.rm.val (env.u e) (env.free e) (decodeLi v.c.val (x 0 e)) :=
  (vecResults_map1 (i := .vcvtl v) rfl (fine_of_vCvtL (fun _ => typeWidth_of_isF) fun _ => typeWidth_of_isL) (vCvtShape_srcs_pos v)
    fun s hi => legalWord hi rfl fun w => s.vecRun v w _ _ _ :)

theorem typeWidth_of_vlvl {t : Nat} (h : (decide (t = 0x02) || decide (t = 0x03) || decide (t = 0x04)) = true) : typeWidth t ≠ 0 := by
  simp only [Bool.or_eq_true, decide_eq_true_eq] at h
  obtain (rfl | rfl) | rfl := h <;> decide

theorem vlvl_results : VecResults (.vlvl v) v .none fun _ _ x e => (liLevel v.t.val (decodeLi v.c.val (x 0 e)), 0) :=
  (vecResults_map1 (i := .vlvl v) rfl (fine_of_vCvtL (fun _ => typeWidth_of_vlvl) fun _ => typeWidth_of_isL) (vCvtShape_srcs_pos v)
    fun s hi => legalWord hi rfl fun w => s.vecRun v w _ _ _ :)

/-! ### Special functions (R149, R159) -/

theorem vexp_results : VecResults (.vexp v) v .element fun _ env x e => special 0 v.t.val v.rm.val (env.u e) (env.free e) (x 0 e) :=
  (vecResults_map1 (i := .vexp v) rfl (fun _ => fine_vSpecialShape v (by decide)) ((flat_vSpecialShape v 10).srcs ▸ Nat.one_pos)
    fun s hi => legalWord hi rfl fun w => s.vecRun v w _ _ _ :)

theorem vlog_results : VecResults (.vlog v) v .element fun _ env x e => special 1 v.t.val v.rm.val (env.u e) (env.free e) (x 0 e) :=
  (vecResults_map1 (i := .vlog v) rfl (fun _ => fine_vSpecialShape v (by decide)) ((flat_vSpecialShape v 10).srcs ▸ Nat.one_pos)
    fun s hi => legalWord hi rfl fun w => s.vecRun v w _ _ _ :)

theorem vrcp_results : VecResults (.vrcp v) v .element fun _ env x e =>
    if isL v.t.val then liRcp v.t.val (decodeLi v.t.val (x 0 e)) else special 2 v.t.val v.rm.val (env.u e) (env.free e) (x 0 e) :=
  (vecResults_map1 (i := .vrcp v) rfl (fun _ => fine_vSpecialShape v (by decide)) ((flat_vSpecialShape v 10).srcs ▸ Nat.one_pos)
    fun s hi => legalWord hi rfl fun w => s.vecRun v w _ _ _ :)

theorem vrsqrt_results : VecResults (.vrsqrt v) v .element fun _ env x e => special 3 v.t.val v.rm.val (env.u e) (env.free e) (x 0 e) :=
  (vecResults_map1 (i := .vrsqrt v) rfl (fun _ => fine_vSpecialShape v (by decide)) ((flat_vSpecialShape v 10).srcs ▸ Nat.one_pos)
    fun s hi => legalWord hi rfl fun w => s.vecRun v w _ _ _ :)

theorem vtanh_results : VecResults (.vtanh v) v .element fun _ env x e => special 4 v.t.val v.rm.val (env.u e) (env.free e) (x 0 e) :=
  (vecResults_map1 (i := .vtanh v) rfl (fun _ => fine_vSpecialShape v (by decide)) ((flat_vSpecialShape v 14).srcs ▸ Nat.one_pos)
    fun s hi => legalWord hi rfl fun w => s.vecRun v w _ _ _ :)

theorem vgelu_results : VecResults (.vgelu v) v .element fun _ env x e => special 5 v.t.val v.rm.val (env.u e) (env.free e) (x 0 e) :=
  (vecResults_map1 (i := .vgelu v) rfl (fun _ => fine_vSpecialShape v (by decide)) ((flat_vSpecialShape v 14).srcs ▸ Nat.one_pos)
    fun s hi => legalWord hi rfl fun w => s.vecRun v w _ _ _ :)

/-! ### Words without a vector source (R148, R168) -/

theorem vrand_results : VecResults (.vrand v) v .none fun s _ _ e => (randElem v.t.val s.me.vrkey.toNat s.me.vrctr.toNat e, 0) :=
  vecResults_of (kbit := noBit)
    (f := fun s _ _ => (List.range (elemCount v.t.val)).map fun i => (randElem v.t.val s.me.vrkey.toNat s.me.vrctr.toNat i, 0)) rfl
    (fun _ => VWord.Flat.fine (v := v) (m := 0) ⟨rfl, rfl, rfl, rfl, rfl, rfl⟩ fun _ => lat_vShape_pos v [] (by decide))
    (fun s hi => legalWord hi rfl fun w => s.vecRun v w _ _ _) fun _ _ _ _ => gives_of_eq rfl

theorem vbcasts_results : VecResults (.vbcasts v) v .none fun s _ _ _ => ((s.rdS (Fin.ofNat 32 v.a.val)).toNat, 0) :=
  vecResults_of (kbit := noBit)
    (f := fun s _ _ => (List.range (elemCount v.t.val)).map fun _ => ((s.rdS (Fin.ofNat 32 v.a.val)).toNat % 2 ^ typeWidth v.t.val, 0)) rfl
    (fun _ => fine_vShape v [] (by decide)) (fun s hi => legalWord hi rfl fun w => s.vecRun v w _ _ _) fun s env xs _ =>
      ⟨fun e he => by
        have hn : e < elemCount v.t.val := he
        simp only [List.getD_eq_getElem?_getD, List.getElem?_map, List.getElem?_range hn]
        exact Nat.mod_mod _ _, fun _ => rfl⟩

/-! ### Reductions and scans (R164 to R166) -/

theorem length_raddAll (env : VEnv) (xs : List (List Nat)) : (raddAll v env xs).length = (xs.getD 0 []).length := by
  rw [raddAll, List.length_map]

theorem raddAll_source (env : VEnv) (xs : List (List Nat)) : raddAll v env xs = raddAll v env [xs.getD 0 []] := by
  simp only [raddAll, List.getD_cons_zero]

theorem vradd_results : VecResults (.vradd v) v .combined fun _ env x e => (raddAll v env [allOf v.t.val x]).getD e (0, 0) :=
  (vecResults_whole (i := .vradd v) rfl (fun _ => fine_vReduceShape v) (flat_vReduceShape v) (length_raddAll v) (raddAll_source v)
    fun s hi => legalWord hi rfl fun w => s.vecRun v w _ _ _ :)

theorem vscanadd_results : VecResults (.vscanadd v) v .combined fun _ env x e => (scanAddAll v env [allOf v.t.val x]).getD e (0, 0) :=
  (vecResults_whole (i := .vscanadd v) rfl (fun _ => fine_vScanShape v) (flat_vScanShape v) (length_scanAddAll v) (fun _ _ => rfl)
    fun s hi => legalWord hi rfl fun w => s.vecRun v w _ _ _ :)

theorem vrmin_results : VecResults (.vrmin v) v .none fun _ _ x _ => (scanHead v.t.val (pickOf v.t.val false (allOf v.t.val x)), 0) :=
  vecResults_values (i := .vrmin v) (val := fun x _ => scanHead v.t.val (pickOf v.t.val false (allOf v.t.val x))) rfl
    (fun _ => fine_vReduceShape v) (flat_vReduceShape v) (fun _ _ => rpickAll_elAt false)
    fun s hi => legalWord hi rfl fun w => s.vecRun v w _ _ _

theorem vrmax_results : VecResults (.vrmax v) v .none fun _ _ x _ => (scanHead v.t.val (pickOf v.t.val true (allOf v.t.val x)), 0) :=
  vecResults_values (i := .vrmax v) (val := fun x _ => scanHead v.t.val (pickOf v.t.val true (allOf v.t.val x))) rfl
    (fun _ => fine_vReduceShape v) (flat_vReduceShape v) (fun _ _ => rpickAll_elAt true)
    fun s hi => legalWord hi rfl fun w => s.vecRun v w _ _ _

theorem vscanmax_results : VecResults (.vscanmax v) v .none fun _ _ x e =>
    (if v.m.val / 2 % 2 = 1 then
      (if e = 0 then (if isF v.t.val then (encodeInf v.t.val 0 true).1 else pat (typeWidth v.t.val) (intLo v.t.val))
       else scanMaxOf v.t.val x (e - 1))
     else scanMaxOf v.t.val x e, 0) :=
  vecResults_values (i := .vscanmax v) rfl (fun _ => fine_vScanShape v) (flat_vScanShape v)
    (fun xs e hl he => by rw [scanMaxAll_value v xs e (hl ▸ he), scanMaxAt_elAt hl, scanMaxAt_elAt hl])
    fun s hi => legalWord hi rfl fun w => s.vecRun v w _ _ _

end

/-- Settles O38: every vector word is one run over its shape, which keeps all but queues, results in flight and the counter; on quiet registers its
results stand in flight element by element as its function gives them. -/
theorem vectorWordsIssue : Obligations.VectorWordsIssue := by
  refine ⟨fun s v i w hv hi hw => ?_, fun v => ?_⟩
  · obtain ⟨rule, kbit, f, hexec⟩ := exec_vecIns hv hi hw s
    obtain ⟨htrap, hhold, hissue⟩ := vecRun_issues s v w rule kbit f
    refine ⟨fun ho hl => ⟨_, hexec.trans (htrap ho), trapped_range hl⟩, fun ho hq => hexec.trans (hhold ho hq), fun ho hq => ?_⟩
    obtain ⟨t, hrun, h, hp, hqs⟩ := hissue ho hq
    exact ⟨t, hexec.trans hrun, h.data, h.vregs, h.kregs, h.flags, h.abuf, h.cbuf, h.wbuf, h.vstat, h.vrkey, h.vrctr, hp, hqs⟩
  · exact ⟨vcvt_results v, vcvte_results v, vcvtl_results v, vrand_results v, vexp_results v, vlog_results v, vrcp_results v, vrsqrt_results v,
      vtanh_results v, vgelu_results v, vdiv_results v, vsqrt_results v, vlvl_results v, vbcasts_results v, vadd_results v, vsub_results v,
      vmul_results v, vfma_results v, vfms_results v, vfnma_results v, vmin_results v, vmax_results v, vabs_results v, vneg_results v,
      vradd_results v, vscanadd_results v, vrmin_results v, vrmax_results v, vscanmax_results v⟩

end Sys2Proof.Machine
end

section
/-! PROOFS. O1, O3: encoded words decode. Every word of the opcode table has its round trip (`RoundTrip.Statement`); IDLE is a field that decoding
leaves alone. A TAG from 7 to 14 names no class (R58). -/

namespace Sys2Proof.Laws.RoundTrip

/-- An instruction word has its round trip; a machine event has no word. -/
theorem statement_holds (i : Instr) : Statement i := by
  cases i with
  | loop => apply loop | loope => apply loope | rdv => apply rdv | stg => apply stg | nop => apply nop | join => apply join | fork => apply fork
  | setf => apply setf | waitf => apply waitf | phaseRel => apply phaseRel | phaseAcq => apply phaseAcq | phaseAcqrel => apply phaseAcqrel
  | fence => apply fence | tend => apply tend | tspawn => apply tspawn | fnew => apply fnew | fatt => apply fatt | fres => apply fres
  | fget => apply fget | ffree => apply ffree | csubmit => apply csubmit | cwatch => apply cwatch | cunwatch => apply cunwatch
  | cpoll => apply cpoll | trap => apply trap | eret => apply eret | wfe => apply wfe | csave => apply csave | cload => apply cload
  | hall => apply hall | hone => apply hone | s1va => apply s1va | s1asid => apply s1asid | s1all => apply s1all | s2ipa => apply s2ipa
  | s2part => apply s2part | preempt => apply preempt | resume => apply resume | requeue => apply requeue | abort => apply abort
  | bopen => apply bopen | bclose => apply bclose | doorbell => apply doorbell | add => apply add | sub => apply sub | and => apply and
  | or => apply or | xor => apply xor | sll => apply sll | srl => apply srl | sra => apply sra | slt => apply slt | sltu => apply sltu
  | min => apply min | max => apply max | minu => apply minu | maxu => apply maxu | mul => apply mul | mulh => apply mulh | mulhu => apply mulhu
  | div => apply div | divu => apply divu | rem => apply rem | remu => apply remu | addi => apply addi | andi => apply andi | ori => apply ori
  | xori => apply xori | slli => apply slli | srli => apply srli | srai => apply srai | slti => apply slti | sltiu => apply sltiu
  | lil => apply lil | lih => apply lih | ldI8 => apply ldI8 | ldUi8 => apply ldUi8 | ldI16 => apply ldI16 | ldUi16 => apply ldUi16
  | ldI32 => apply ldI32 | ldUi32 => apply ldUi32 | ldI64 => apply ldI64 | stI8 => apply stI8 | stI16 => apply stI16 | stI32 => apply stI32
  | stI64 => apply stI64 | beq => apply beq | bne => apply bne | blt => apply blt | bge => apply bge | bltu => apply bltu | bgeu => apply bgeu
  | jal => apply jal | jalr => apply jalr | csrr => apply csrr | csrw => apply csrw | csrx => apply csrx | hdrw => apply hdrw
  | hdrr => apply hdrr | vmov => apply vmov | vsel => apply vsel | vadd => apply vadd | vsub => apply vsub | vmul => apply vmul
  | vmulh => apply vmulh | vfma => apply vfma | vfms => apply vfms | vfnma => apply vfnma | vmin => apply vmin | vmax => apply vmax
  | vabs => apply vabs | vneg => apply vneg | vand => apply vand | vor => apply vor | vxor => apply vxor | vnot => apply vnot
  | vsll => apply vsll | vsrl => apply vsrl | vsra => apply vsra | vcmpeq => apply vcmpeq | vcmpne => apply vcmpne | vcmplt => apply vcmplt
  | vcmple => apply vcmple | vcvt => apply vcvt | vcvte => apply vcvte | vcvtl => apply vcvtl | vrand => apply vrand | vexp => apply vexp
  | vlog => apply vlog | vrcp => apply vrcp | vrsqrt => apply vrsqrt | vtanh => apply vtanh | vgelu => apply vgelu | vdiv => apply vdiv
  | vsqrt => apply vsqrt | vlvl => apply vlvl | vradd => apply vradd | vrmin => apply vrmin | vrmax => apply vrmax | vscanadd => apply vscanadd
  | vscanmax => apply vscanmax | vperm => apply vperm | vshuf => apply vshuf | vbcast => apply vbcast | vbcasts => apply vbcasts
  | vrot => apply vrot | vtopnm => apply vtopnm | kand => apply kand | kor => apply kor | kxor => apply kxor | kandn => apply kandn
  | knot => apply knot | kmov => apply kmov | mzero => apply mzero | mma => apply mma | mmat => apply mmat | mmas => apply mmas
  | mdrain => apply mdrain | awcfg => apply awcfg | awgo => apply awgo | awstop => apply awstop | awgather => apply awgather
  | awscat => apply awscat | cpy => apply cpy | cpyc => apply cpyc | cpym => apply cpym | cpyd => apply cpyd | cpyh => apply cpyh
  | cwp => apply cwp | sadd => apply sadd | smin => apply smin | smax => apply smax | sor => apply sor | sand => apply sand | sxor => apply sxor
  | sxch => apply sxch | scas => apply scas | sflush => apply sflush | fopen => apply fopen | fclose => apply fclose | ftbl => apply ftbl
  | fpush => apply fpush | fpop => apply fpop | fmark => apply fmark | fdrop => apply fdrop | fsplitSplit => apply fsplitSplit
  | fsplitTake => apply fsplitTake | fsplitImport => apply fsplitImport | fjoin => apply fjoin | fstat => apply fstat
  | _ => exact event rfl

end Sys2Proof.Laws.RoundTrip

namespace Sys2Proof
open Machine

/-! ### IDLE (R78) -/

theorem wordIdle_packWord (tag opc p : Nat) (idle : Fin 1024) : wordIdle (packWord tag idle.val opc p) = idle.val := by
  have h := unpack_pack [(4, tag), (10, idle.val), (8, opc), (42, p)]
  simp only [unpack, List.map, List.sum_cons, List.sum_nil, List.cons.injEq] at h
  obtain ⟨-, hidle, -⟩ := h
  rw [wordIdle, packWord_toNat]
  exact hidle.trans (Nat.mod_eq_of_lt idle.isLt)

theorem wordIdle_of_encode {idle : Fin 1024} {i : Instr} {w : Word} (h : encode idle i = some w) : wordIdle w = idle.val := by
  cases hp : encodeParts i with
  | none => simp [encode, hp] at h
  | some p => rw [encode_word idle i w p.1 p.2.1 p.2.2 hp h, wordIdle_packWord]

/-- Settles O1: the round trip of each word of the table, and IDLE read back from its own field. -/
theorem encodedWordsDecode : Obligations.EncodedWordsDecode :=
  fun i idle w hwf hall he => ⟨Laws.RoundTrip.statement_holds i idle w hwf hall he, wordIdle_of_encode he⟩

/-! ### Reserved TAGs (R58, R75) -/

theorem classOf_reserved {n : Nat} (h7 : 7 ≤ n) (h14 : n ≤ 14) : classOf n = none := by
  interval_cases n <;> rfl

theorem decodeWord_reserved {w : Word} (h7 : 7 ≤ wordTag w) (h14 : wordTag w ≤ 14) : decodeWord w = .error 1 := by
  rw [decodeWord, classOf_reserved h7 h14]

/-- Settles O3: the decoder evaluates the nine words, and a reserved TAG has no class whatever the other bits. -/
theorem specWordsDecode : Obligations.SpecWordsDecode :=
  ⟨⟨rfl, rfl, rfl, rfl, rfl, rfl, rfl, rfl, rfl⟩, fun _ => decodeWord_reserved⟩

end Sys2Proof
end

section
/-! PROOFS. O4: scalar results. A word of the arithmetic group issues and writes one register (`regWrite_issued`,
`regWrite_issued_late`); its bit-vector operation gives the number that R82 to R85 name. -/

namespace Sys2Proof.Machine

/-! ### Words that write one register (R60, R80, R82, R83) -/

@[simp] theorem State.rdS_unissue (t s : State) (r : SReg) : (t.unissue s).rdS r = t.rdS r := by
  simp [State.rdS, State.unissue, State.me, State.ctx, State.modMe, State.modCtx, State.modMyCore, Core.ctx, Core.modCtx, Ctx.rdS, Ctx.unissue]

@[simp] theorem State.rdH_unissue (t s : State) (r : HReg) : (t.unissue s).rdH r = t.rdH r := by
  simp [State.rdH, State.unissue, State.me, State.ctx, State.modMe, State.modCtx, State.modMyCore, Core.ctx, Core.modCtx, Ctx.unissue]

/-- A word whose effect on its own context is a register and when its result can be read writes nothing else. -/
theorem Issued.regWrite {s t : State} {f : Ctx → Ctx} {d : SReg} {v : Word} (h : Issued s t f)
    (hf : f s.me = { s.me.wrS d v with busy := (f s.me).busy }) : RegWrite s t d v := by
  obtain ⟨hput, hbytes⟩ := h
  have hS (r : SReg) : t.rdS r = (s.me.wrS d v).rdS r := by
    rw [← State.rdS_unissue t s, hput, State.rdS, State.me_modMe, hf]
    rfl
  have hH (r : HReg) : t.rdH r = s.rdH r := by
    rw [← State.rdH_unissue t s, hput, State.rdH, State.me_modMe, hf]
    exact congrArg (·[r]) (Ctx.wrS_h s.me d v)
  refine ⟨?_, fun r hr => ?_, hH, hbytes, ?_⟩
  · by_cases h0 : d.val = 0
    · obtain rfl : d = 0 := Fin.ext h0
      exact hS 0
    · simp [hS, Ctx.rdS_wrS, h0]
  · rw [hS, Ctx.rdS_wrS, if_neg fun h => hr h.1]
    rfl
  · rw [hput, State.modMe_modMe]
    refine State.modMe_id ?_
    rw [hf]
    unfold Ctx.wrS
    split <;> rfl

/-- A word that issues and leaves its result for a later cycle writes nothing else (R80). -/
theorem regWrite_issued_late (s : State) (d : SReg) (v : Word) (n : Nat) : RegWrite s (s.issued.wrLate d v n) d v :=
  Issued.regWrite (f := fun k => { k.wrS d v with busy := k.busy ++ [(d.val, s.issued.cycle + n)] })
    (issued_modMe s _ _ fun _ _ _ _ => by unfold Ctx.wrS; split <;> rfl) rfl

section
variable {f g : Word → Word → Word} (hfg : ∀ a b, f a b = g a b)
include hfg

theorem writes3_of_alu2 {op : SReg → SReg → SReg → Instr} (h : ∀ d a b s, exec (op d a b) s = s.alu2 f d a b) : Writes3 op g :=
  fun s d a b => ⟨_, h d a b s, hfg _ _ ▸ regWrite_issued s d _⟩

theorem writes3_of_aluMul {op : SReg → SReg → SReg → Instr} (h : ∀ d a b s, exec (op d a b) s = s.aluMul f d a b) : Writes3 op g :=
  fun s d a b => ⟨_, h d a b s, hfg _ _ ▸ regWrite_issued_late s d _ 3⟩

theorem writesImm_of_aluImm {op : SReg → SReg → BitVec 30 → Instr} (h : ∀ d a imm s, exec (op d a imm) s = s.aluImm f d a imm) :
    WritesImm op g :=
  fun s d a imm => ⟨_, h d a imm s, hfg _ _ ▸ regWrite_issued s d _⟩

end

/-! ### Results as numbers (R82) -/

theorem aluAdd_eq (a b : Word) : aluAdd a b = BitVec.ofNat 64 (a.toNat + b.toNat) :=
  BitVec.eq_of_toNat_eq (by simp [aluAdd])

theorem aluSub_eq (a b : Word) : aluSub a b = BitVec.ofInt 64 (a.toInt - b.toInt) :=
  BitVec.eq_of_toInt_eq (by simp [aluSub, BitVec.toInt_sub, BitVec.toInt_ofInt])

theorem aluMul_eq (a b : Word) : aluMul a b = BitVec.ofInt 64 (a.toInt * b.toInt) :=
  BitVec.eq_of_toInt_eq (by simp [aluMul, BitVec.toInt_mul, BitVec.toInt_ofInt])

theorem aluSll_eq (a b : Word) : aluSll a b = BitVec.ofNat 64 (a.toNat * 2 ^ (b.toNat % 64)) :=
  BitVec.eq_of_toNat_eq (by simp only [aluSll, BitVec.toNat_shiftLeft, BitVec.toNat_ofNat, Nat.shiftLeft_eq])

theorem aluSrl_eq (a b : Word) : aluSrl a b = BitVec.ofNat 64 (a.toNat / 2 ^ (b.toNat % 64)) := by
  rw [← Nat.shiftRight_eq_div_pow, ← BitVec.toNat_ushiftRight, BitVec.ofNat_toNat, BitVec.setWidth_eq]
  rfl

theorem aluSra_eq (a b : Word) : aluSra a b = BitVec.ofInt 64 (a.toInt / (2 ^ (b.toNat % 64) : Nat)) := by
  rw [← Int.shiftRight_eq_div_pow, ← BitVec.toInt_sshiftRight, BitVec.ofInt_toInt]
  rfl

theorem aluSlt_eq (a b : Word) : aluSlt a b = if a.toInt < b.toInt then 1 else 0 := by
  simp only [aluSlt, BitVec.slt_iff_toInt_lt]

theorem aluSltu_eq (a b : Word) : aluSltu a b = if a.toNat < b.toNat then 1 else 0 := by
  simp only [aluSltu, BitVec.ult_iff_lt, BitVec.lt_def]

theorem aluMin_eq (a b : Word) : aluMin a b = BitVec.ofInt 64 (Min.min a.toInt b.toInt) := by
  simp only [aluMin, BitVec.slt_iff_toInt_lt]
  split
  · rw [min_eq_left (by omega), BitVec.ofInt_toInt]
  · rw [min_eq_right (by omega), BitVec.ofInt_toInt]

theorem aluMax_eq (a b : Word) : aluMax a b = BitVec.ofInt 64 (Max.max a.toInt b.toInt) := by
  simp only [aluMax, BitVec.slt_iff_toInt_lt]
  split
  · rw [max_eq_right (by omega), BitVec.ofInt_toInt]
  · rw [max_eq_left (by omega), BitVec.ofInt_toInt]

theorem aluMinu_eq (a b : Word) : aluMinu a b = BitVec.ofNat 64 (Min.min a.toNat b.toNat) := by
  simp only [aluMinu, BitVec.ult_iff_lt, BitVec.lt_def]
  split
  · rw [min_eq_left (by omega), BitVec.ofNat_toNat, BitVec.setWidth_eq]
  · rw [min_eq_right (by omega), BitVec.ofNat_toNat, BitVec.setWidth_eq]

theorem aluMaxu_eq (a b : Word) : aluMaxu a b = BitVec.ofNat 64 (Max.max a.toNat b.toNat) := by
  simp only [aluMaxu, BitVec.ult_iff_lt, BitVec.lt_def]
  split
  · rw [max_eq_right (by omega), BitVec.ofNat_toNat, BitVec.setWidth_eq]
  · rw [max_eq_left (by omega), BitVec.ofNat_toNat, BitVec.setWidth_eq]

/-! ### Shifts by an immediate (R83) -/

/-- An immediate from 0 to 63 is positive, and so is its own shift amount. -/
theorem shiftAmount_of_lt {imm : BitVec 30} (h : imm.toNat < 64) : (imm.signExtend 64).toNat % 64 = imm.toNat := by
  have hpos : imm.msb = false := BitVec.msb_eq_false_iff_two_mul_lt.2 (by omega)
  rw [BitVec.signExtend_eq_setWidth_of_msb_false hpos, BitVec.toNat_setWidth]
  omega

/-- A shift by a legal immediate is the shift by a register that holds it. -/
theorem writes_of_aluShift {op : SReg → SReg → BitVec 30 → Instr} {f : Word → Word → Word} {g : Word → Nat → Word}
    (hfg : ∀ a b, f a b = g a (b.toNat % 64)) (hx : ∀ d a imm s, exec (op d a imm) s = s.aluShift f d a imm) {imm : BitVec 30}
    (h : imm.toNat < 64) (s : State) (d a : SReg) : ∃ t, exec (op d a imm) s = .next t ∧ RegWrite s t d (g (s.rdS a) imm.toNat) := by
  refine ⟨_, (hx d a imm s).trans (if_neg (Nat.not_le.2 h)), ?_⟩
  rw [← shiftAmount_of_lt h, ← hfg]
  exact regWrite_issued s d _

/-- Settles O4: every word of the group issues with one register written, and each result is the number that R82 to R85 name. -/
theorem scalarResults : Obligations.ScalarResults := by
  refine ⟨⟨writes3_of_alu2 aluAdd_eq ?_, writes3_of_alu2 aluSub_eq ?_, writes3_of_alu2 (f := aluAnd) ?_ ?_, writes3_of_alu2 (f := aluOr) ?_ ?_,
      writes3_of_alu2 (f := aluXor) ?_ ?_, writesImm_of_aluImm aluAdd_eq ?_, writesImm_of_aluImm (f := aluAnd) ?_ ?_,
      writesImm_of_aluImm (f := aluOr) ?_ ?_, writesImm_of_aluImm (f := aluXor) ?_ ?_⟩,
    ⟨writes3_of_alu2 aluSll_eq ?_, writes3_of_alu2 aluSrl_eq ?_, writes3_of_alu2 aluSra_eq ?_, fun s d a imm h => ?shifts⟩,
    ⟨writes3_of_alu2 aluSlt_eq ?_, writes3_of_alu2 aluSltu_eq ?_, writesImm_of_aluImm aluSlt_eq ?_, writesImm_of_aluImm aluSltu_eq ?_,
      writes3_of_alu2 aluMin_eq ?_, writes3_of_alu2 aluMax_eq ?_, writes3_of_alu2 aluMinu_eq ?_, writes3_of_alu2 aluMaxu_eq ?_⟩,
    ⟨writes3_of_aluMul aluMul_eq ?_, writes3_of_aluMul (f := aluMulh) ?_ ?_, writes3_of_aluMul (f := aluMulhu) ?_ ?_⟩,
    fun s d imm => ⟨⟨_, rfl, regWrite_issued s d _⟩, _, rfl, regWrite_issued s d _⟩,
    fun s v => ⟨rfl, State.modMe_id (f := fun k => k.wrS 0 v) rfl, fun r hr => ?zero⟩⟩
  case shifts =>
    exact ⟨writes_of_aluShift (op := .slli) (g := fun a n => BitVec.ofNat 64 (a.toNat * 2 ^ n)) aluSll_eq (fun _ _ _ _ => rfl) h s d a,
      writes_of_aluShift (op := .srli) (g := fun a n => BitVec.ofNat 64 (a.toNat / 2 ^ n)) aluSrl_eq (fun _ _ _ _ => rfl) h s d a,
      writes_of_aluShift (op := .srai) (g := fun a n => BitVec.ofInt 64 (a.toInt / (2 ^ n : Nat))) aluSra_eq (fun _ _ _ _ => rfl) h s d a⟩
  case zero =>
    have : r.val ≠ 0 := fun h => hr (Fin.ext h)
    simp [State.rdS_wrS, this]
  -- each word's meaning is its shape at its operation; bitwise results and high products are stated as the model computes them
  all_goals intros; rfl

end Sys2Proof.Machine
end

section
/-! PROOFS. O5: division. A division with a nonzero divisor leaves its result for a later cycle, and one by zero raises the divide trap (R82, R84). -/

namespace Sys2Proof.Machine

/-! ### Quotients and remainders as numbers (R82, R84) -/

theorem aluDiv_eq (a b : Word) : aluDiv a b = BitVec.ofInt 64 (a.toInt.tdiv b.toInt) :=
  BitVec.eq_of_toInt_eq (by rw [aluDiv, BitVec.toInt_sdiv, BitVec.toInt_ofInt])

theorem aluDivu_eq (a b : Word) : aluDivu a b = BitVec.ofNat 64 (a.toNat / b.toNat) :=
  BitVec.eq_of_toNat_eq (by
    rw [aluDivu, BitVec.toNat_udiv, BitVec.toNat_ofNat, Nat.mod_eq_of_lt (Nat.lt_of_le_of_lt (Nat.div_le_self _ _) a.isLt)])

theorem aluRem_eq (a b : Word) : aluRem a b = BitVec.ofInt 64 (a.toInt.tmod b.toInt) := by
  rw [aluRem, ← BitVec.toInt_srem, BitVec.ofInt_toInt]

theorem aluRemu_eq (a b : Word) : aluRemu a b = BitVec.ofNat 64 (a.toNat % b.toNat) :=
  BitVec.eq_of_toNat_eq (by
    rw [aluRemu, BitVec.toNat_umod, BitVec.toNat_ofNat, Nat.mod_eq_of_lt (Nat.lt_of_le_of_lt (Nat.mod_le _ _) a.isLt)])

/-! ### The shape of a division (R80, R84) -/

theorem aluDiv_writes {s : State} {b : SReg} (hb : s.rdS b ≠ 0) {f g : Word → Word → Word} (hfg : ∀ x y, f x y = g x y) (signed : Bool) (d a : SReg) :
    ∃ t, s.aluDiv signed f d a b = .next t ∧ RegWrite s t d (g (s.rdS a) (s.rdS b)) :=
  ⟨_, if_neg hb, hfg _ _ ▸ regWrite_issued_late s d _ _⟩

theorem aluDiv_traps {s : State} {b : SReg} (hb : s.rdS b = 0) (hl : s.live) (signed : Bool) (f : Word → Word → Word) (d a : SReg) :
    ∃ t, s.aluDiv signed f d a b = .next t ∧ Trapped s t 0x03 0 1 s.wordDetail :=
  ⟨_, if_pos hb, trapped_raise s hl 3 0 1 s.wordDetail⟩

/-- Settles O5: each of the four words is a division at its own operation. -/
theorem divideResultsAndTraps : Obligations.DivideResultsAndTraps := by
  refine ⟨fun s d a b hb => ⟨aluDiv_writes hb aluDiv_eq true d a, aluDiv_writes hb aluDivu_eq false d a, aluDiv_writes hb aluRem_eq true d a,
    aluDiv_writes hb aluRemu_eq false d a⟩, fun s d a b hb hl => ?_⟩
  simp only [List.forall_mem_cons, List.not_mem_nil, false_implies, implies_true, and_true]
  exact ⟨aluDiv_traps hb hl true aluDiv d a, aluDiv_traps hb hl false aluDivu d a, aluDiv_traps hb hl true aluRem d a,
    aluDiv_traps hb hl false aluRemu d a⟩

end Sys2Proof.Machine
end

section
/-! PROOFS. O7, O8, O9: the control and status registers. A read is one register write of the register's value; a write that is accepted stores
the register's writable bits in the context (`Ctx.csrStore`), and every other access raises the operand-range trap (R92, R93). -/

namespace Sys2Proof.Machine

/-! ### Reads (R92, R93) -/

theorem exec_csrr {s : State} {csr : BitVec 30} (ha : csrAssigned csr.toNat = true) (hl : (csrLevels csr.toNat).1 ≤ s.me.pl) (d : SReg) :
    exec (.csrr d csr) s = .next (s.issued.wrLate d (BitVec.ofNat 64 (s.csrValue csr.toNat)) 2) := by
  change execCsrr d csr s = _
  simp only [execCsrr, ha, State.csrRead, Nat.not_lt.2 hl, Bool.not_true, Bool.false_eq_true, if_false]

/-- Settles O7: the value of a register is `State.csrValue`, whose rows R93 gives. -/
theorem csrReads : Obligations.CsrReads := by
  intro s d csr ha hl
  refine ⟨_, _, exec_csrr ha hl d, regWrite_issued_late s d _ 2, ?_⟩
  have hcore := s.cur.core.isLt
  have hctx := s.cur.ctx.isLt
  refine ⟨?_, ?_, ?_, ?_, ?_, ?_, ?_, ?_, ?_, ?_, ?_⟩ <;> rintro rfl
  · rw [BitVec.toNat_ofNat]
    exact Nat.mod_eq_of_lt (by change s.cur.core.val < _; omega)
  · rw [BitVec.toNat_ofNat]
    exact Nat.mod_eq_of_lt (by change s.cur.ctx.val < _; omega)
  · rfl
  · rfl
  · exact BitVec.ofNat_toNat ..
  · exact BitVec.ofNat_toNat ..
  · exact BitVec.ofNat_toNat ..
  · rfl
  · exact BitVec.ofNat_toNat ..
  · exact BitVec.ofNat_toNat ..
  · exact BitVec.ofNat_toNat ..

/-! ### Writes (R92) -/

/-- The level-0 registers that a write stores into. -/
def storedCsrs : List Nat := [0x10, 0x11, 0x12, 0x13, 0x14, 0x15, 0x16, 0x17, 0x19]

theorem mem_storedCsrs {k : Ctx} {n old : Nat} (h : csrHolds k n = some old) : n ∈ storedCsrs := by
  unfold csrHolds at h
  repeat' split at h
  any_goals contradiction
  all_goals subst n; decide

theorem csrAssigned_stored {n : Nat} (hn : n ∈ storedCsrs) : csrAssigned n = true ∧ csrLevels n = (0, some 0) := by
  revert n
  decide

/-- Such a register holds what a read gives. -/
theorem csrValue_of_holds {s : State} {n old : Nat} (h : csrHolds s.me n = some old) : s.csrValue n = old := by
  unfold csrHolds at h
  repeat' split at h
  any_goals contradiction
  all_goals subst n; exact Option.some.inj h

/-- A write of such a register keeps the writable bits and leaves the scalar and header registers. -/
theorem csrStore_stored {n : Nat} (hn : n ∈ storedCsrs) (k : Ctx) (v : Word) :
    ∃ q, k.csrStore n v.toNat = some q ∧ csrHolds q n = some (csrKeeps n v.toNat) ∧ q.s = k.s ∧ q.h = k.h := by
  have hw : (BitVec.ofNat 64 v.toNat).toNat = v.toNat := by rw [BitVec.ofNat_toNat, BitVec.setWidth_eq]
  simp only [storedCsrs, List.mem_cons, List.not_mem_nil, or_false] at hn
  rcases hn with rfl | rfl | rfl | rfl | rfl | rfl | rfl | rfl | rfl
  · exact ⟨_, rfl, rfl, rfl, rfl⟩
  · exact ⟨_, rfl, rfl, rfl, rfl⟩
  · exact ⟨_, rfl, congrArg some hw, rfl, rfl⟩
  · exact ⟨_, rfl, congrArg some hw, rfl, rfl⟩
  · exact ⟨_, rfl, rfl, rfl, rfl⟩
  · exact ⟨_, rfl, rfl, rfl, rfl⟩
  · exact ⟨_, rfl, rfl, rfl, rfl⟩
  · exact ⟨_, rfl, rfl, rfl, rfl⟩
  · exact ⟨_, rfl, congrArg some hw, rfl, rfl⟩

/-- A context accepts a write of such a register whatever it holds, so a word that writes one stores into the issued context. -/
theorem exec_csrw_stored {s : State} {csr : BitVec 30} (hn : csr.toNat ∈ storedCsrs) {a : SReg} {q : Ctx}
    (hq : s.issued.me.csrStore csr.toNat (s.rdS a).toNat = some q) : exec (.csrw a csr) s = .next (s.issued.modMe fun _ => q) := by
  obtain ⟨ha, hl⟩ := csrAssigned_stored hn
  obtain ⟨q0, h0, -⟩ := csrStore_stored hn s.me (s.rdS a)
  change execCsrw a csr s = _
  simp [execCsrw, ha, State.csrWrite, hl, h0, hq]

theorem exec_csrx_stored {s : State} {csr : BitVec 30} (hn : csr.toNat ∈ storedCsrs) {a : SReg} {q : Ctx}
    (hq : s.issued.me.csrStore csr.toNat (s.rdS a).toNat = some q) (d : SReg) :
    exec (.csrx d a csr) s = .next ((s.issued.modMe fun _ => q).wrLate d (BitVec.ofNat 64 (s.csrValue csr.toNat)) 2) := by
  obtain ⟨ha, hl⟩ := csrAssigned_stored hn
  obtain ⟨q0, h0, -⟩ := csrStore_stored hn s.me (s.rdS a)
  change execCsrx d a csr s = _
  simp [execCsrx, ha, State.csrRead, State.csrWrite, hl, h0, hq]

theorem State.rdS_wrLate (s : State) (d r : SReg) (v : Word) (n : Nat) :
    (s.wrLate d v n).rdS r = if r = d ∧ d.val ≠ 0 then v else s.rdS r := by
  rw [← State.rdS_wrS]
  simp [State.rdS, State.wrLate, State.wrS, Ctx.rdS]

theorem State.rdH_wrLate (s : State) (d : SReg) (r : HReg) (v : Word) (n : Nat) : (s.wrLate d v n).rdH r = s.rdH r := by
  simp [State.rdH, State.wrLate]

theorem csrHolds_wrLate (k : Ctx) (d : SReg) (v : Word) (b : List (Nat × Nat)) (n : Nat) :
    csrHolds { k.wrS d v with busy := b } n = csrHolds k n := by
  unfold Ctx.wrS
  split <;> rfl

theorem csrw_writes {s : State} {csr : BitVec 30} {old : Nat} (h : csrHolds s.me csr.toNat = some old) (a : SReg) :
    ∃ t, exec (.csrw a csr) s = .next t ∧ csrHolds t.me csr.toNat = some (csrKeeps csr.toNat (s.rdS a).toNat) ∧ (∀ r, t.rdS r = s.rdS r) ∧
      (∀ r, t.rdH r = s.rdH r) ∧ ∀ x, t.byte x = s.byte x := by
  have hn := mem_storedCsrs h
  obtain ⟨q, hq, hkeep, hs, hh⟩ := csrStore_stored hn s.issued.me (s.rdS a)
  obtain ⟨dS, dH, dB⟩ := (sameData_issued s).trans (sameData_modMe s.issued (fun _ => q) hs hh)
  exact ⟨_, exec_csrw_stored hn hq, by rw [State.me_modMe, hkeep], dS, dH, fun x => (dB x).1⟩

theorem csrx_writes {s : State} {csr : BitVec 30} {old : Nat} (h : csrHolds s.me csr.toNat = some old) (d a : SReg) :
    ∃ t, exec (.csrx d a csr) s = .next t ∧ csrHolds t.me csr.toNat = some (csrKeeps csr.toNat (s.rdS a).toNat) ∧
      t.rdS d = (if d.val = 0 then 0 else BitVec.ofNat 64 old) ∧ (∀ r, r ≠ d → t.rdS r = s.rdS r) ∧ (∀ r, t.rdH r = s.rdH r) ∧
      ∀ x, t.byte x = s.byte x := by
  have hn := mem_storedCsrs h
  obtain ⟨q, hq, hkeep, hs, hh⟩ := csrStore_stored hn s.issued.me (s.rdS a)
  obtain ⟨dS, dH, dB⟩ := (sameData_issued s).trans (sameData_modMe s.issued (fun _ => q) hs hh)
  obtain rfl := csrValue_of_holds h
  refine ⟨_, exec_csrx_stored hn hq d, ?_, ?_, fun r hr => ?_, fun r => ?_, fun x => (dB x).1⟩
  · rw [State.wrLate, State.me_modMe, csrHolds_wrLate, State.me_modMe, hkeep]
  · by_cases h0 : d.val = 0
    · obtain rfl : d = 0 := Fin.ext h0
      rfl
    · simp [State.rdS_wrLate, h0]
  · rw [State.rdS_wrLate, if_neg fun h => hr h.1, dS]
  · rw [State.rdH_wrLate, dH]

/-- CTXSTAT's one writable bit clears EVT (R106). -/
theorem csrw_ctxstat (s : State) (a : SReg) :
    ∃ t, exec (.csrw a 4) s = .next t ∧ Issued s t fun k => { k with evt := k.evt && !(s.rdS a).toNat.testBit 8 } := by
  refine ⟨s.issued.modMe fun k => if (s.rdS a).toNat.testBit 8 then { k with evt := false } else k, ?_, issued_modMe s _ _ fun _ _ _ _ => ?_⟩
  · change execCsrw a 4 s = _
    rfl
  · cases (s.rdS a).toNat.testBit 8 <;> simp [Ctx.unissue]

/-- Settles O8. -/
theorem csrWrites : Obligations.CsrWrites :=
  ⟨fun _ d a _ _ h => ⟨csrw_writes h a, csrx_writes h d a⟩, csrw_ctxstat⟩

/-! ### Protection (R79, R92) -/

theorem csrRead_below {s : State} {n : Nat} (h : s.me.pl < (csrLevels n).1) : s.csrRead n = none := if_pos h

/-- A register that is RO, or whose level for a write lies above the context's. -/
theorem csrWrite_refused {s : State} {n : Nat} (h : (csrLevels n).2 = none ∨ ∃ l, (csrLevels n).2 = some l ∧ s.me.pl < l) (v : Word) :
    s.csrWrite n v = none := by
  rcases h with h | ⟨l, h, hl⟩
  · simp only [State.csrWrite, h]
  · simp only [State.csrWrite, h, hl, if_true]

theorem exec_csrr_traps {s : State} {csr : BitVec 30} (ha : csrAssigned csr.toNat = true) (h : s.csrRead csr.toNat = none) (d : SReg) :
    exec (.csrr d csr) s = .next s.trapRange := by
  change execCsrr d csr s = _
  simp [execCsrr, ha, h]

theorem exec_csrw_traps {s : State} {csr : BitVec 30} (ha : csrAssigned csr.toNat = true) {a : SReg} (h : s.csrWrite csr.toNat (s.rdS a) = none) :
    exec (.csrw a csr) s = .next s.trapRange := by
  change execCsrw a csr s = _
  simp [execCsrw, ha, h]

theorem exec_csrx_traps {s : State} {csr : BitVec 30} (ha : csrAssigned csr.toNat = true) {a : SReg} (h : s.csrWrite csr.toNat (s.rdS a) = none)
    (d : SReg) : exec (.csrx d a csr) s = .next s.trapRange := by
  change execCsrx d a csr s = _
  simp [execCsrx, ha, h]

/-- COREID, CTXID, PARTID, CYCLE, WFETO and the counters are RO (R93, R320). -/
theorem csrLevels_ro {n : Nat} (h : n ≤ 3 ∨ n = 0x20 ∨ (0x108 ≤ n ∧ n ≤ 0x10F)) : csrLevels n = (0, none) := by
  unfold csrLevels
  rw [if_pos]
  simpa [or_assoc] using h

/-- A trap bank can be read from level 1 up (R267). -/
theorem csrLevels_bank {n : Nat} (h : 0x40 ≤ n ∧ n ≤ 0x47) : (csrLevels n).1 = 1 := by
  have h0 : ¬(n ≤ 3 || n = 0x20 || (0x108 ≤ n && n ≤ 0x10F)) = true := by simp; omega
  unfold csrLevels
  rw [if_neg h0]
  split
  · rfl
  · rw [if_pos (by simp [h.1, h.2])]

/-- Settles O9. -/
theorem csrProtection : Obligations.CsrProtection := by
  intro s d a csr ha hl
  refine ⟨fun h => ⟨_, exec_csrr_traps ha (csrRead_below h) d, trapped_range hl⟩, fun h => ?_, fun h => ?_, csrLevels_bank⟩
  · exact ⟨⟨_, exec_csrw_traps ha (csrWrite_refused h _), trapped_range hl⟩, _, exec_csrx_traps ha (csrWrite_refused h _) d, trapped_range hl⟩
  · rw [csrLevels_ro (h.imp_right (Or.imp_left fun e => by rw [e]; rfl))]

end Sys2Proof.Machine
end

section
/-! PROOFS. O10: tensor header fields. A field is a slice of the header (`hdrField`): HDRW replaces its bits, and HDRR reads them (R94, R95). -/

namespace Sys2Proof.Machine

/-! ### A field as a slice of its header -/

theorem testBit_bits (w lo n i : Nat) : (bits w lo n).testBit i = (decide (i < n) && w.testBit (i + lo)) := by
  rw [bits, Nat.testBit_mod_two_pow, Nat.testBit_div_two_pow]

theorem hdrField_fits : ∀ f < 22, (hdrField f).1 + (hdrField f).2 ≤ 256 := by decide

theorem getLsbD_hdrPut (h : Header) (f : Nat) (v : Word) {i : Nat} (hi : i < 256) :
    (hdrPut h f v).getLsbD i =
      if (hdrField f).1 ≤ i ∧ i < (hdrField f).1 + (hdrField f).2 then v.toNat.testBit (i - (hdrField f).1) else h.getLsbD i := by
  rw [hdrPut, BitVec.getLsbD_ofNat, decide_eq_true hi, Bool.true_and, testBit_setBits, BitVec.testBit_toNat, BitVec.testBit_toNat]

theorem bits_hdrPut (h : Header) {f : Nat} (hf : f < 22) (v : Word) :
    bits (hdrPut h f v).toNat (hdrField f).1 (hdrField f).2 = v.toNat % 2 ^ (hdrField f).2 := by
  have hfit := hdrField_fits f hf
  refine Nat.eq_of_testBit_eq fun i => ?_
  rw [testBit_bits, Nat.testBit_mod_two_pow]
  by_cases hi : i < (hdrField f).2
  · rw [BitVec.testBit_toNat, getLsbD_hdrPut h f v (by omega), if_pos (by omega), Nat.add_sub_cancel]
  · simp [hi]

/-- The eight bits of a value from −128 to 127 give it back with their sign. -/
theorem sgn_mod_of_small {v : Word} (hlo : -128 ≤ v.toInt) (hhi : v.toInt ≤ 127) : sgn 8 (v.toNat % 2 ^ 8) = v.toInt := by
  have hlt := v.isLt
  rw [BitVec.toInt_eq_toNat_cond] at *
  unfold sgn
  split at hlo <;> split <;> omega

theorem hdrGet_hdrPut (h : Header) {f : Nat} (hf : f < 22) {v : Word} (hv : hdrFits f v = true) : hdrGet (hdrPut h f v) f = v := by
  unfold hdrGet
  dsimp only
  rw [bits_hdrPut h hf]
  unfold hdrFits at hv
  split at hv
  · next h13 =>
    subst h13
    obtain ⟨hlo, hhi⟩ : -128 ≤ v.toInt ∧ v.toInt ≤ 127 := by simpa using hv
    exact (congrArg (BitVec.ofInt 64) (sgn_mod_of_small hlo hhi)).trans (BitVec.ofInt_toInt ..)
  · next h13 =>
    rw [if_neg h13, Nat.mod_eq_of_lt (by simpa using hv), BitVec.ofNat_toNat, BitVec.setWidth_eq]

/-! ### HDRW and HDRR (R95) -/

theorem exec_hdrw_fits {s : State} {f : Fin 32} {a : SReg} (hf : f.val < 22) (hv : hdrFits f.val (s.rdS a) = true) (d : HReg) :
    exec (.hdrw d f a) s = .next (s.issued.wrH d (hdrPut (s.rdH d) f.val (s.rdS a))) := by
  change execHdrw d f a s = _
  simp [execHdrw, Nat.not_le.2 hf, hv]

theorem exec_hdrw_traps {s : State} {f : Fin 32} {a : SReg} (hf : f.val < 22) (hv : hdrFits f.val (s.rdS a) = false) (d : HReg) :
    exec (.hdrw d f a) s = .next s.trapRange := by
  change execHdrw d f a s = _
  simp [execHdrw, Nat.not_le.2 hf, hv]

theorem exec_hdrr {f : Fin 32} (hf : f.val < 22) (s : State) (r : SReg) (h : HReg) :
    exec (.hdrr r h f) s = .next (s.issued.wrLate r (hdrGet (s.rdH h) f.val) 2) := by
  change execHdrr r h f s = _
  simp [execHdrr, Nat.not_le.2 hf]

/-- Settles O10. -/
theorem headerFields : Obligations.HeaderFields := by
  intro s d h r a f hf
  refine ⟨fun hv => ?_, ⟨_, exec_hdrr hf s r h, regWrite_issued_late s r _ 2⟩, fun hv hl => ⟨_, exec_hdrw_traps hf hv d, trapped_range hl⟩⟩
  have hrd : (s.issued.wrH d (hdrPut (s.rdH d) f.val (s.rdS a))).rdH d = hdrPut (s.rdH d) f.val (s.rdS a) := by simp [State.rdH_wrH]
  refine ⟨_, exec_hdrw_fits hf hv d, by rw [hrd, hdrGet_hdrPut _ hf hv], fun i hi hout => ?_, ?_⟩
  · rw [hrd, getLsbD_hdrPut _ _ _ hi, if_neg (by omega)]
  · rw [hrd]
    exact issued_modMe s _ _ fun _ _ _ _ => rfl

end Sys2Proof.Machine
end

section
/-! PROOFS. O19, O25, O30: WFE and its timeout, the words of XCMD and their replies, and TRAP (R103, R104, R106). -/

namespace Sys2Proof.Machine

/-! ### WFE (R106) -/

theorem exec_wfe_holds {s : State} (h : s.me.evt = false) (a : SReg) : exec (.wfe a) s = .next s := by
  change execWfe a s = _
  simp [execWfe, h, State.hold]

theorem exec_wfe_issues {s : State} (h : s.me.evt = true) (a : SReg) :
    exec (.wfe a) s = .next (s.issued.modMe fun k => { k with evt := false, wfeto := false, wfeFrom := none }) := by
  change execWfe a s = _
  simp [execWfe, h]

/-- Settles O19. -/
theorem waitForEvent : Obligations.WaitForEvent := by
  intro s a c x
  exact ⟨fun h => exec_wfe_holds h a, fun h => ⟨_, exec_wfe_issues h a, issued_modMe s _ _ fun _ _ _ _ => rfl⟩,
    _, rfl, issued_modMe _ _ _ fun _ _ _ _ => rfl⟩

/-! ### XCMD (R103) -/

/-- A word that holds at issue until its release is done. -/
theorem hold_of_not_ready {s : State} (h : s.xcmdReady = false) (r : Host.Outcome State Fault Refusal) :
    (if !s.xcmdReady then s.hold else r) = .next s := by
  simp [h, State.hold]

theorem not_futOk {p : Nat} {w : Word} (h : bits w.toNat 36 28 ≠ 0 ∨ bits w.toNat 32 4 ≠ p) : futOk p w = false := by
  unfold futOk
  rcases h with h | h <;> simp [h]

/-- The four words that name a future by its handle test it before they wait. -/
theorem exec_future_word (s : State) (d a b : SReg) :
    ∀ i ∈ [Instr.fatt d a b, .fres a b, .fget d a, .ffree a],
      ∃ r, exec i s = if !futOk s.myPart (s.rdS a) then .next s.trapRange else if !s.xcmdReady then s.hold else r := by
  simp only [List.forall_mem_cons, List.not_mem_nil, false_implies, implies_true, and_true]
  exact ⟨⟨_, rfl⟩, ⟨_, rfl⟩, ⟨_, rfl⟩, _, rfl⟩

/-- CSUBMIT looks its descriptor's handle up first, and waits whatever it finds. -/
theorem exec_csubmit_holds {s : State} (h : s.xcmdReady = false) (d a : SReg) : exec (.csubmit d a) s = .next s := by
  change execCsubmit d a s = _
  simp only [execCsubmit, h]
  split <;> rfl

/-- The other words wait before anything else. -/
theorem exec_plain_word_holds {s : State} (h : s.xcmdReady = false) (d a b : SReg) :
    ∀ i ∈ [Instr.tspawn d a, .fnew d, .csubmit d a, .cwatch a b, .cunwatch a, .cpoll d a], exec i s = .next s := by
  have hold := hold_of_not_ready h
  simp only [List.forall_mem_cons, List.not_mem_nil, false_implies, implies_true, and_true]
  exact ⟨hold _, hold _, exec_csubmit_holds h d a, hold _, hold _, hold _⟩

theorem exec_tend_holds {s : State} (hf : s.me.fork = none) (h : s.xcmdReady = false) : exec .tend s = .next s := by
  change execTend s = _
  simp [execTend, State.inFork, hf, h, State.hold]

/-- A reply that arrives writes its register and sets EVT (R80, R106). -/
theorem exec_xcmdReply {s : State} {c : CoreId} {x : CtxId} {r : PendReply} {rest : List PendReply} (h : (s.ctx c x).replies = r :: rest) :
    exec (.xcmdReply c x) s =
      .next (s.modCtx c x fun k => { k with s := if r.dst.val = 0 then k.s else k.s.set r.dst r.val, replies := rest, evt := true }) := by
  change execXcmdReply c x s = _
  simp only [execXcmdReply, h]
  refine congrArg _ (State.modCtx_congr ?_)
  unfold Ctx.wrS
  split <;> rfl

/-- Settles O25. -/
theorem xcmdWaits : Obligations.XcmdWaits := by
  refine ⟨fun s d a b h => ⟨exec_plain_word_holds h d a b, fun hf => exec_tend_holds hf h, fun hw i hi => ?_⟩, fun s d a b hw hl i hi => ?_,
    fun s c x r rest h => ⟨_, exec_xcmdReply h, rfl, ?_, fun _ => rfl⟩⟩
  · obtain ⟨r, hr⟩ := exec_future_word s d a b i hi
    rw [hr, hw, hold_of_not_ready h]
    rfl
  · obtain ⟨r, hr⟩ := exec_future_word s d a b i hi
    exact ⟨_, by rw [hr, not_futOk hw]; rfl, trapped_range hl⟩
  · rw [State.ctx_modCtx_self]
    unfold Ctx.rdS
    by_cases h0 : r.dst.val = 0 <;> simp [h0]

/-! ### TRAP (R104) -/

theorem exec_trap_raises {s : State} (hp : s.me.pl < 3) (hb : s.me.bracket = none) (code : BitVec 16) :
    exec (.trap code) s = .next (s.raise 0x05 code.toNat (s.me.pl + 1) #v[BitVec.ofNat 64 s.curIdx, 0, 0, 0]) := by
  change execTrap code s = _
  simp [execTrap, hb, Nat.not_le.2 hp]

theorem exec_trap_refused {s : State} (h : 3 ≤ s.me.pl ∨ s.me.bracket.isSome = true) (code : BitVec 16) :
    exec (.trap code) s = .next s.trapRange := by
  change execTrap code s = _
  rw [execTrap, if_pos (by simpa using h)]

/-- Settles O30. -/
theorem trapWordTraps : Obligations.TrapWordTraps :=
  fun s code hl => ⟨fun hp hb => ⟨_, exec_trap_raises hp hb code, trapped_raise s hl _ _ _ _⟩,
    fun h => ⟨_, exec_trap_refused h code, trapped_range hl⟩⟩

end Sys2Proof.Machine
end

section
/-! PROOFS. O31, refuted: where a stop has left a FUR word of an ended fork set owed (R246), a return puts that word before the control cursor's
next word, so the control cursor resumes one dynamic index later than its cut says. The statement names no such word. -/

namespace Sys2Proof.Machine

/-- A cut of the control cursor alone, at byte 16, with dynamic index 2. -/
def owedCut : Cut :=
  { ents := Vector.ofFn fun i : Fin 7 => { seq := 0, idx := 2, pc := 16, valid := i.val = 0, took := i.val = 0, loops := [], stage := 0 }
    fork := none, slip := 0, text := 1 }

/-- The bank of a handler at PL 1 that was entered from PL 0. -/
def owedBank : Bank := { Bank.reset with pc := BitVec.ofNat 64 (2 ^ 48 + 16), valid := true, cut := some owedCut }

/-- An FDROP that a stop rolled back after its fork set had ended. -/
def owedWord : SEntry :=
  { idx := 0, pc := 8, word := 0, own := some .fur, all := false, ins := some (.fdrop ⟨0, 0, 0, 0, false, 0, false, 0⟩ 0 0), sub := 0, on := true, seq := 0,
    issued := false, loops := [], stage := 0 }

/-- Context 0 of core 0 in that handler, with the FDROP owed. -/
def owedHandler : State :=
  State.reset.modCtx 0 0 fun k => { k with phase := .handler, pl := 1, bank := k.bank.set 0 owedBank, owedFur := some owedWord }

/-- The return from it leaves the control cursor at index 3. -/
theorem eret_owedHandler : ∀ t, exec .eret owedHandler = .next t → (t.me.cursor .ctl).next = 3 := by
  have h : (match exec .eret owedHandler with | .next t => decide ((t.me.cursor .ctl).next = 3) | _ => false) = true := by decide
  intro t ht
  rw [ht] at h
  exact of_decide_eq_true h

/-- Refutes O31: in `owedHandler` every hypothesis of the second clause holds with index 2 in the cut, and ERET resumes at index 3. -/
theorem not_eretReturns : ¬Obligations.EretReturns := by
  intro h
  obtain ⟨-, hret⟩ := h owedHandler
  obtain ⟨hplain, -⟩ := hret owedCut (by decide) (by decide) (by decide) (by decide) (by decide) (by decide) (by decide) (by decide)
  obtain ⟨t, ht, -, -, -, -, -, hnext, -⟩ := hplain (by decide)
  exact absurd (hnext.symm.trans (eret_owedHandler t ht)) (by decide)

end Sys2Proof.Machine
end

section
/-! PROOFS. O11: the checks of an access of the control core. Every load form is `State.load` at its size, every store form `State.store`, and both
trap where `State.target` finds no place for the access (R86, R87). -/

namespace Sys2Proof.Machine

/-! ### The forms (R87) -/

theorem exec_loadForms (s : State) (d a : SReg) (imm : BitVec 30) : ∀ p ∈ loadForms d a imm, exec p.1 s = s.load p.2.1 p.2.2 d a imm := by
  simp only [loadForms, List.forall_mem_cons, List.not_mem_nil, false_implies, implies_true, and_true]
  exact ⟨rfl, rfl, rfl, rfl, rfl, rfl, rfl⟩

theorem exec_storeForms (s : State) (r a : SReg) (imm : BitVec 30) : ∀ p ∈ storeForms r a imm, exec p.1 s = s.store p.2 r a imm := by
  simp only [storeForms, List.forall_mem_cons, List.not_mem_nil, false_implies, implies_true, and_true]
  exact ⟨rfl, rfl, rfl, rfl⟩

theorem load_traps {s : State} {a : SReg} {imm : BitVec 30} {n : Nat} (h : (s.target (s.rdS a) imm n false).1 = .trap) (signed : Bool) (d : SReg) :
    s.load n signed d a imm = .next s.trapRange := by
  obtain ⟨u, hu⟩ : ∃ u, s.target (s.rdS a) imm n false = (.trap, u) := ⟨_, Prod.ext h rfl⟩
  simp only [State.load, hu]

theorem store_traps {s : State} {a : SReg} {imm : BitVec 30} {n : Nat} (h : (s.target (s.rdS a) imm n true).1 = .trap) (r : SReg) :
    s.store n r a imm = .next s.trapRange := by
  obtain ⟨u, hu⟩ : ∃ u, s.target (s.rdS a) imm n true = (.trap, u) := ⟨_, Prod.ext h rfl⟩
  simp only [State.store, hu]

/-! ### The handle of an access (R225) -/

/-- A table entry that is read is the same whatever access it is read for: the direction enters a fault alone. -/
theorem guestDw_ok {s : State} {c : CoreId} {x : CtxId} {va gpa level e : Nat} {wr : Bool} (h : (s.guestDw c x va wr level gpa).1 = .ok e)
    (wr' : Bool) : (s.guestDw c x va wr' level gpa).1 = .ok e := by
  unfold State.guestDw at h ⊢
  cases hq : (s.stage2 c x gpa).1 with
  | leaf l =>
    simp only [hq] at h ⊢
    by_cases hr : l.rd = true
    · rw [if_pos hr] at h ⊢
      exact h
    · rw [if_neg hr] at h
      cases h
  | bad r l => simp only [hq] at h; cases h
  | fetch f l => simp only [hq] at h; cases h

/-- What a handle is bound to does not depend on the path and the direction of the access. -/
theorem handle_bound {s : State} {c : CoreId} {x : CtxId} {h path : Nat} {wr : Bool} {i : HInfo} (hb : (s.handle c x h path wr).1 = .bound i)
    (path' : Nat) (wr' : Bool) : (s.handle c x h path' wr').1 = .bound i := by
  unfold State.handle at hb ⊢
  by_cases h0 : (h = 0 || h ≥ 4094) = true
  · rw [if_pos h0] at hb
    cases hb
  · rw [if_neg h0] at hb ⊢
    dsimp only at hb ⊢
    cases hf : (s.ctx c x).handles.find? fun e => e.num = h with
    | some e => simpa only [hf] using hb
    | none =>
      cases hlo : (s.guestDw c x (2 ^ 64 - 1) wr 0 ((s.ctx c x).htbase + 16 * h)).1 with
      | error f => simp only [hf, hlo] at hb; cases hb
      | ok lo =>
        cases hhi : (s.guestDw c x (2 ^ 64 - 1) wr 0 ((s.ctx c x).htbase + 16 * h + 8)).1 with
        | error f => simp only [hf, hlo, hhi] at hb; cases hb
        | ok hi =>
          simp only [hf, hlo, hhi] at hb
          simp only [guestDw_ok hlo wr', guestDw_ok hhi wr']
          exact hb

theorem handle_zero (s : State) (c : CoreId) (x : CtxId) (path : Nat) (wr : Bool) : s.handle c x 0 path wr = (.unbound, s) := rfl

/-! ### Accesses that have no target (R86) -/

theorem target_negative {s : State} {a : Word} {imm : BitVec 30} (h : accessOff a imm < 0) (n : Nat) (wr : Bool) :
    (s.target a imm n wr).1 = .trap := by
  simp only [State.target, h, if_true]

theorem target_misaligned {s : State} {a : Word} {imm : BitVec 30} {n : Nat} (h : accessOff a imm % (n : Int) ≠ 0) (wr : Bool) :
    (s.target a imm n wr).1 = .trap := by
  by_cases hn : accessOff a imm < 0
  · exact target_negative hn n wr
  · have ho : (accessOff a imm).toNat % n ≠ 0 := by
      intro h0
      apply h
      rw [← Int.toNat_of_nonneg (Int.not_lt.1 hn), ← Int.natCast_mod, h0]
      rfl
    simp [State.target, hn, ho]

theorem target_high {s : State} {a : Word} {imm : BitVec 30} (h : 4096 ≤ haddrH a.toNat) (n : Nat) (wr : Bool) : (s.target a imm n wr).1 = .trap := by
  by_cases hn : accessOff a imm < 0
  · exact target_negative hn n wr
  · simp [State.target, hn, h]

theorem target_zero {s : State} {a : Word} {imm : BitVec 30} (h : haddrH a.toNat = 0) (n : Nat) (wr : Bool) : (s.target a imm n wr).1 = .trap := by
  by_cases hn : accessOff a imm < 0
  · exact target_negative hn n wr
  · simp only [State.target, hn, if_false, h, handle_zero]
    split <;> rfl

/-- An access beyond its handle's bound, or one that its handle forbids. -/
theorem target_forbidden {s : State} {a : Word} {imm : BitVec 30} {n : Nat} {wr : Bool} {i : HInfo} (hh : haddrH a.toNat < 4094)
    (hb : (s.handle s.cur.core s.cur.ctx (haddrH a.toNat)).1 = .bound i)
    (h : (i.len : Int) < accessOff a imm + n ∨ (wr = true ∧ i.w = false) ∨ (wr = false ∧ i.rd = false)) : (s.target a imm n wr).1 = .trap := by
  by_cases hn : accessOff a imm < 0
  · exact target_negative hn n wr
  · have hbad : ((accessOff a imm).toNat + n > i.len || (wr && !i.w) || (!wr && !i.rd)) = true := by
      rcases h with h | ⟨rfl, h⟩ | ⟨rfl, h⟩
      · simp [show (accessOff a imm).toNat + n > i.len by omega]
      · simp [h]
      · simp [h]
    obtain ⟨u, hu⟩ : ∃ u, s.handle s.cur.core s.cur.ctx (haddrH a.toNat) 0 wr = (.bound i, u) := ⟨_, Prod.ext (handle_bound hb 0 wr) rfl⟩
    simp only [State.target, hn, if_false, hu, hbad, if_true, show haddrH a.toNat ≠ 4095 by omega, show haddrH a.toNat ≠ 4094 by omega]
    split <;> rfl

/-- Settles O11: under each of the conditions the access has no target. -/
theorem accessChecksTrap : Obligations.AccessChecksTrap := by
  intro s d a imm hl h off p hp hc
  have htrap : (s.target (s.rdS a) imm p.2.1 p.2.2).1 = .trap := by
    rcases hc with hc | hc | hc | hc | ⟨hlt, i, u, hb, hc⟩
    · exact target_negative hc _ _
    · exact target_misaligned hc _
    · exact target_zero hc _ _
    · exact target_high hc _ _
    · exact target_forbidden hlt (congrArg Prod.fst hb) hc
  refine ⟨s.trapRange, ?_, trapped_range hl⟩
  rcases List.mem_append.1 hp with hp | hp <;> obtain ⟨q, hq, rfl⟩ := List.mem_map.1 hp
  · rw [exec_loadForms s d a imm q hq, load_traps htrap]
  · rw [exec_storeForms s d a imm q hq, store_traps htrap]

end Sys2Proof.Machine
end

section
/-! PROOFS. O12: loads. A load leaves an access in flight with its destination, place and size, and its value comes four cycles later at the
earliest (R80, R86 to R88). -/

namespace Sys2Proof.Machine

/-! ### Accesses in flight (R86, R87) -/

theorem Look.sameData {s t : State} (h : Look s t) : SameData s t := ⟨h.rdS, h.rdH, fun a => ⟨h.byte a, h.hostByte a⟩⟩

theorem look_of_target {s u : State} {a : Word} {imm : BitVec 30} {n : Nat} {wr : Bool} {g : Target} (h : s.target a imm n wr = (g, u)) : Look s u := by
  have hl := Look.target s a imm n wr
  rwa [h] at hl

/-- A word that finds its target, issues and leaves an access in flight changes nothing that software can read. -/
theorem sameData_inFlight {s u : State} (h : Look s u) (f : Ctx → Ctx) (hs : ∀ k, (f k).s = k.s) (hh : ∀ k, (f k).h = k.h) :
    SameData s ((u.issued.skipFresh 1).modMe f) :=
  (h.sameData.trans (sameData_issued u)).trans (sameData_modMe (u.issued.skipFresh 1) f (hs _) (hh _))

theorem loads_inFlight (u : State) {f : Ctx → Ctx} {l : PendLoad} (hf : ∀ k, (f k).loads = k.loads ++ [l]) :
    ((u.issued.skipFresh 1).modMe f).me.loads = u.me.loads ++ [l] := by
  rw [State.me_modMe, hf, State.skipFresh_me, State.issued_me_loads]

/-! ### When a load returns (R80) -/

theorem le_loadDue (s : State) (pa size : Nat) (more : Option (Nat × Nat × Nat)) : s.cycle + 4 ≤ s.loadDue pa size more := by
  unfold State.loadDue
  split
  · exact Nat.le_refl _
  · exact Nat.le_add_right _ _

theorem loadDue_hit {s : State} {pa size : Nat} {more : Option (Nat × Nat × Nat)}
    (h : ∀ q ∈ accessParts pa size more, s.myCore.dHit q.2.1 = true ∧ s.myCore.dHit (q.2.1 + q.2.2 - 1) = true) :
    s.loadDue pa size more = s.cycle + 4 := by
  unfold State.loadDue
  rw [if_pos]
  rw [List.all_eq_true]
  intro q hq
  rw [(h q hq).1, (h q hq).2]
  rfl

/-! ### Loads of DRAM and of typed buffers (R87, R88) -/

theorem load_dram {s u : State} {a : SReg} {imm : BitVec 30} {n pa key va : Nat} {more : Option (Nat × Nat × Nat)}
    (h : s.target (s.rdS a) imm n false = (.dram pa key va more, u)) (signed : Bool) (d : SReg) :
    ∃ t l, s.load n signed d a imm = .next t ∧ t.me.loads = u.me.loads ++ [l] ∧ l.dst = d ∧ l.size = n ∧ l.signed = signed ∧ l.buf = 0 ∧ l.addr = pa ∧
      l.key = key ∧ l.more = more ∧ l.order = s.cycle ∧ s.cycle + 4 ≤ l.due ∧ SameData s t ∧
      ((∀ q ∈ accessParts pa n more, u.myCore.dHit q.2.1 = true ∧ u.myCore.dHit (q.2.1 + q.2.2 - 1) = true) → l.due = s.cycle + 4) := by
  have hu := look_of_target h
  simp only [State.load, h]
  refine ⟨_, _, rfl, loads_inFlight u fun _ => rfl, rfl, rfl, rfl, rfl, rfl, rfl, rfl, rfl, ?_, ?_, fun hq => ?_⟩
  · rw [← hu.cycle]
    exact le_loadDue ..
  · exact sameData_inFlight hu _ (fun _ => rfl) fun _ => rfl
  · rw [← hu.cycle]
    exact loadDue_hit hq

theorem load_buf {s u : State} {a : SReg} {imm : BitVec 30} {n b byte : Nat} (h : s.target (s.rdS a) imm n false = (.buf b byte, u)) (signed : Bool)
    (d : SReg) :
    ∃ t l, s.load n signed d a imm = .next t ∧ t.me.loads = u.me.loads ++ [l] ∧ l.dst = d ∧ l.size = n ∧ l.signed = signed ∧ l.buf = b ∧ l.addr = byte ∧
      l.order = s.cycle ∧ s.cycle + 4 ≤ l.due ∧ SameData s t := by
  simp only [State.load, h]
  exact ⟨_, _, rfl, loads_inFlight u fun _ => rfl, rfl, rfl, rfl, rfl, rfl, rfl, Nat.le_add_right _ _,
    sameData_inFlight (look_of_target h) _ (fun _ => rfl) fun _ => rfl⟩

/-- Settles O12. -/
theorem loadsWriteOrPend : Obligations.LoadsWriteOrPend := by
  intro s u d a imm p hp
  rw [exec_loadForms s d a imm p hp]
  exact ⟨fun _ _ _ _ h => load_dram h p.2.2 d, fun _ _ h => load_buf h p.2.2 d⟩

end Sys2Proof.Machine
end

section
/-! PROOFS. O13: the return of a load. The bytes that a load finds are those of its parts, or of its typed buffer, with the posted stores of its
context laid over them (R87 to R89). -/

namespace Sys2Proof.Machine

/-! ### Little-endian numbers (R4) -/

theorem leNat_lt (bs : List Byte) : leNat bs < 2 ^ (8 * bs.length) := by
  induction bs with
  | nil => exact Nat.one_pos
  | cons b r ih =>
    have hb := b.isLt
    rw [leNat, List.length_cons, Nat.mul_succ, Nat.pow_add]
    omega

theorem leNat_lt_of_length {bs : List Byte} {n : Nat} (h : bs.length = n) : leNat bs < 2 ^ (8 * n) := h ▸ leNat_lt bs

/-- What a load writes of a value that has its size. -/
theorem loadValue_eq_extended {n v : Nat} (hv : v < 2 ^ (8 * n)) (signed : Bool) : loadValue n signed v = extended n signed v := by
  unfold loadValue extended
  rw [Nat.mod_eq_of_lt hv]
  cases signed with
  | false => rfl
  | true =>
    unfold sgn
    rw [Nat.mod_eq_of_lt hv]
    by_cases h : v < 2 ^ (8 * n - 1)
    · simp [h]
    · simp [h, Nat.not_lt.1 h]

/-! ### The posted stores under a load (R89) -/

theorem byteAt_own {st : PendStore} (hm : st.more = none) {i : Nat} (hi : i < st.bytes.length) :
    st.byteAt st.buf (st.addr + i) = some (st.bytes[i]) := by
  simp [PendStore.byteAt, accessParts, hm, hi]

theorem overlay_nil (order buf addr : Nat) (bs : List Byte) : overlay [] order buf addr bs = bs := rfl

/-- An earlier store to the whole of a place stands over what is there. -/
theorem overlay_own {st : PendStore} (hm : st.more = none) {order : Nat} (ho : st.order < order) {bs : List Byte} (hl : bs.length = st.bytes.length) :
    overlay [st] order st.buf st.addr bs = st.bytes := by
  simp only [overlay, List.foldl_cons, List.foldl_nil, ho, if_true]
  refine List.ext_getElem (by simp [hl]) fun i h1 h2 => ?_
  simp [byteAt_own hm h2]

/-! ### The bytes of a load of DRAM (R87, R292) -/

/-- The parts of a load, read one after the other in an unchanged state. -/
theorem foldl_parts {α β σ : Type} (f : List β × σ → α → List β × σ) (g : α → List β) (s : σ) (ps : List α)
    (hf : ∀ p ∈ ps, ∀ bs, f (bs, s) p = (bs ++ g p, s)) (bs : List β) : ps.foldl f (bs, s) = (bs ++ ps.flatMap g, s) := by
  induction ps generalizing bs with
  | nil => simp
  | cons p ps ih =>
    rw [List.foldl_cons, hf p (List.mem_cons_self ..), ih fun q hq => hf q (List.mem_cons_of_mem _ hq)]
    simp

/-- A part of a load: the bytes that stand in DRAM, with the posted stores over them. -/
def State.seenPart (s : State) (stores : List PendStore) (order : Nat) (p : Nat × Nat × Nat) : List Byte :=
  overlay stores order 0 p.2.1 ((List.range p.2.2).map fun i => s.byte (p.2.1 + i))

theorem loadDram_plain {s : State} {l : PendLoad} (h : s.plainParts l.addr l.key l.size l.more) (c : CoreId) (x : CtxId) :
    s.loadDram c x l =
      (loadValue l.size l.signed (leNat ((accessParts l.addr l.size l.more).flatMap (s.seenPart (s.ctx c x).stores l.order))), s) := by
  unfold State.loadDram
  dsimp only
  rw [foldl_parts _ (s.seenPart (s.ctx c x).stores l.order) s _ (fun p hp bs => by simp only [readPhys_plain (h p hp)]; rfl)]
  rfl

/-- With no store posted the bytes are those of DRAM. -/
theorem flatMap_seenPart_nil (s : State) (order addr size : Nat) (more : Option (Nat × Nat × Nat)) :
    (accessParts addr size more).flatMap (s.seenPart [] order) = s.partBytes addr size more := rfl

/-- Parts that are read plainly hold as many bytes as the access. -/
theorem length_partBytes {s : State} {addr key size : Nat} {more : Option (Nat × Nat × Nat)} (h : s.plainParts addr key size more) :
    (s.partBytes addr size more).length = size := by
  cases more with
  | none => simp [State.partBytes, accessParts]
  | some m =>
    have h2 : size - m.1 ≠ 0 := (h (m.1, m.2.1, size - m.1) (by simp [accessParts])).1
    simp [State.partBytes, accessParts]
    omega

/-! ### The return (R80) -/

/-- Context `x` of core `c` after the return of load `l`: its loads are `rest`, its register is written, and no byte has changed. -/
structure Returned (s t : State) (c : CoreId) (x : CtxId) (l : PendLoad) (rest : List PendLoad) (v : Word) : Prop where
  ctx : ∃ p a, t.ctx c x = ({ s.ctx c x with loads := rest, loadAt := s.cycle, pending := p, accesses := a } : Ctx).wrS l.dst v
  byte : ∀ a, t.byte a = s.byte a

theorem Core.dFill_ctxs (k : Core) (pa : Nat) : (k.dFill pa).ctxs = k.ctxs := by
  unfold Core.dFill
  split <;> rfl

theorem foldl_dFill_ctxs (ps : List (Nat × Nat × Nat)) (k : Core) : (ps.foldl (fun k p => k.dFill p.2.1) k).ctxs = k.ctxs := by
  induction ps generalizing k with
  | nil => rfl
  | cons p ps ih => rw [List.foldl_cons, ih, Core.dFill_ctxs]

theorem readStruck_byte (s : State) (c : CoreId) (x : CtxId) (path : Nat) (rd : List (Nat × Nat)) (a : Nat) :
    (s.readStruck c x path rd).byte a = s.byte a := by
  unfold State.readStruck
  split <;> rfl

/-- A struck line that a unit reads is a pending trap of its context (R14). -/
theorem readStruck_ctx (s : State) (c : CoreId) (x : CtxId) (path : Nat) (rd : List (Nat × Nat)) :
    ∃ p, (s.readStruck c x path rd).ctx c x = { s.ctx c x with pending := p } := by
  unfold State.readStruck
  split
  · dsimp only
    rw [State.ctx_modCtx_self]
    split
    · exact ⟨_, rfl⟩
    · exact ⟨_, rfl⟩
  · exact ⟨_, rfl⟩

theorem loadReturn_dram {s : State} {c : CoreId} {x : CtxId} {l : PendLoad} {rest : List PendLoad} (hl : (s.ctx c x).loads = l :: rest)
    (hb : l.buf = 0) (h : s.plainParts l.addr l.key l.size l.more) :
    ∃ t, exec (.ctlLoadReturn c x) s = .next t ∧ Returned s t c x l rest
      (loadValue l.size l.signed (leNat ((accessParts l.addr l.size l.more).flatMap (s.seenPart (s.ctx c x).stores l.order)))) := by
  have hload := loadDram_plain (s := s.modCtx c x fun k => { k with loads := rest, loadAt := s.cycle }) h c x
  rw [State.ctx_modCtx_self] at hload
  change ∃ t, execCtlLoadReturn c x s = .next t ∧ _
  simp only [execCtlLoadReturn, hl, hb, if_true, hload]
  refine ⟨_, rfl, ⟨⟨(s.ctx c x).pending, (s.ctx c x).accesses, ?_⟩, fun _ => rfl⟩⟩
  rw [State.ctx_modCtx_self, ctx_modCore_of_ctxs _ _ _ (foldl_dFill_ctxs ..), State.ctx_modCtx_self]
  rfl

theorem loadReturn_buf {s : State} {c : CoreId} {x : CtxId} {l : PendLoad} {rest : List PendLoad} (hl : (s.ctx c x).loads = l :: rest)
    (hb : l.buf ≠ 0) :
    ∃ t, exec (.ctlLoadReturn c x) s = .next t ∧ Returned s t c x l rest
      (loadValue l.size l.signed (leNat (overlay (s.ctx c x).stores l.order l.buf l.addr ((s.core c).bufBytes l.buf l.addr l.size)))) := by
  change ∃ t, execCtlLoadReturn c x s = .next t ∧ _
  simp only [execCtlLoadReturn, hl, hb, if_false]
  refine ⟨_, rfl, ?_, fun a => ?_⟩
  · obtain ⟨p, hp⟩ := readStruck_ctx (s.modCtx c x fun k => { k with loads := rest, loadAt := s.cycle }) c x 0 [(l.buf, 2 ^ (l.addr / 512))]
    rw [State.ctx_modCtx_self] at hp
    rw [State.ctx_modCtx_self, hp]
    refine ⟨_, _, congrArg (Ctx.wrS _ _) ?_⟩
    simp only [State.loadBuf, State.ctx_modCtx_self, State.core_modCtx_self]
    rfl
  · exact readStruck_byte ..

theorem Returned.rdS_dst {s t : State} {c : CoreId} {x : CtxId} {l : PendLoad} {rest : List PendLoad} {v : Word} (h : Returned s t c x l rest v) :
    (t.ctx c x).rdS l.dst = if l.dst.val = 0 then 0 else v := by
  obtain ⟨p, a, he⟩ := h.ctx
  rw [he, Ctx.rdS_wrS]
  by_cases h0 : l.dst.val = 0 <;> simp [h0, Ctx.rdS]

theorem Returned.rdS_ne {s t : State} {c : CoreId} {x : CtxId} {l : PendLoad} {rest : List PendLoad} {v : Word} (h : Returned s t c x l rest v)
    {r : SReg} (hr : r ≠ l.dst) : (t.ctx c x).rdS r = (s.ctx c x).rdS r := by
  obtain ⟨p, a, he⟩ := h.ctx
  rw [he, Ctx.rdS_wrS, if_neg fun e => hr e.1]
  rfl

/-- A load with no store posted: the value of the bytes that stand at its place. -/
theorem loadReturn_plain {s : State} {c : CoreId} {x : CtxId} {l : PendLoad} {rest : List PendLoad} (hl : (s.ctx c x).loads = l :: rest)
    (hs : (s.ctx c x).stores = []) (hp : l.buf = 0 → s.plainParts l.addr l.key l.size l.more) :
    ∃ t, exec (.ctlLoadReturn c x) s = .next t ∧ Returned s t c x l rest (extended l.size l.signed
      (leNat (if l.buf = 0 then s.partBytes l.addr l.size l.more else (s.core c).bufBytes l.buf l.addr l.size))) := by
  by_cases hb : l.buf = 0
  · obtain ⟨t, ht, hr⟩ := loadReturn_dram hl hb (hp hb)
    rw [hs, flatMap_seenPart_nil, loadValue_eq_extended (leNat_lt_of_length (length_partBytes (hp hb)))] at hr
    exact ⟨t, ht, by rwa [if_pos hb]⟩
  · obtain ⟨t, ht, hr⟩ := loadReturn_buf hl hb
    have hlen : ((s.core c).bufBytes l.buf l.addr l.size).length = l.size := by simp [Core.bufBytes]
    rw [hs, overlay_nil, loadValue_eq_extended (leNat_lt_of_length hlen)] at hr
    exact ⟨t, ht, by rwa [if_neg hb]⟩

/-- A load of the whole place of the one store posted before it: the store's bytes. -/
theorem loadReturn_own {s : State} {c : CoreId} {x : CtxId} {l : PendLoad} {rest : List PendLoad} {st : PendStore}
    (hl : (s.ctx c x).loads = l :: rest) (hs : (s.ctx c x).stores = [st]) (hb : st.buf = l.buf) (ha : st.addr = l.addr)
    (hn : st.bytes.length = l.size) (ho : st.order < l.order) (hlm : l.more = none) (hsm : st.more = none)
    (hp : l.buf = 0 → s.plainBytes l.addr l.key l.size) :
    ∃ t, exec (.ctlLoadReturn c x) s = .next t ∧ Returned s t c x l rest (extended l.size l.signed (leNat st.bytes)) := by
  have hv : loadValue l.size l.signed (leNat st.bytes) = extended l.size l.signed (leNat st.bytes) :=
    loadValue_eq_extended (leNat_lt_of_length hn) l.signed
  have hover {bs : List Byte} (hbs : bs.length = l.size) : overlay [st] l.order l.buf l.addr bs = st.bytes := by
    rw [← hb, ← ha, overlay_own hsm ho (hbs.trans hn.symm)]
  by_cases h0 : l.buf = 0
  · have hparts : s.plainParts l.addr l.key l.size l.more := by
      simpa [State.plainParts, accessParts, hlm, partKey] using hp h0
    obtain ⟨t, ht, hr⟩ := loadReturn_dram hl h0 hparts
    have hseen : (accessParts l.addr l.size l.more).flatMap (s.seenPart [st] l.order) = st.bytes := by
      simp only [hlm, accessParts, List.flatMap_cons, List.flatMap_nil, List.append_nil, State.seenPart]
      rw [← h0, hover (by simp)]
    rw [hs, hseen, hv] at hr
    exact ⟨t, ht, hr⟩
  · obtain ⟨t, ht, hr⟩ := loadReturn_buf hl h0
    rw [hs, hover (by simp [Core.bufBytes]), hv] at hr
    exact ⟨t, ht, hr⟩

/-- Settles O13. -/
theorem loadReturnWrites : Obligations.LoadReturnWrites := by
  constructor
  · intro s c x l rest hl hs v hp _
    obtain ⟨t, ht, hr⟩ := loadReturn_plain hl hs hp
    obtain ⟨p, a, hctx⟩ := hr.ctx
    exact ⟨t, ht, by rw [hctx, Ctx.wrS_loads], by rw [hctx, Ctx.wrS_loadAt], hr.rdS_dst, fun r => hr.rdS_ne, by rw [hctx, Ctx.wrS_h], hr.byte⟩
  · intro s c x l rest st hl hs hb ha hn ho _ hd hlm hsm hp
    obtain ⟨t, ht, hr⟩ := loadReturn_own hl hs hb ha hn ho hlm hsm hp
    exact ⟨t, ht, by rw [hr.rdS_dst, if_neg hd]⟩

end Sys2Proof.Machine
end

section
/-! PROOFS. O14: stores. A store leaves its bytes posted; performed, they stand at their address where their line has the store's key, and nowhere
else (R87 to R89, R230). -/

namespace Sys2Proof.Machine

/-! ### Posted stores (R87) -/

theorem length_leBytes (n v : Nat) : (leBytes n v).length = n := by
  induction n generalizing v with
  | zero => rfl
  | succ n ih => rw [leBytes, List.length_cons, ih]

theorem leNat_leBytes (n v : Nat) : leNat (leBytes n v) = v % 2 ^ (8 * n) := by
  induction n generalizing v with
  | zero => rw [Nat.mul_zero, Nat.pow_zero, Nat.mod_one]; rfl
  | succ n ih => rw [leBytes, leNat, ih, BitVec.toNat_ofNat, Nat.mul_succ, Nat.add_comm (8 * n), Nat.pow_add, ← Nat.mod_mul]

theorem stores_inFlight (u : State) {f : Ctx → Ctx} {st : PendStore} (hf : ∀ k, (f k).stores = k.stores ++ [st]) :
    ((u.issued.skipFresh 1).modMe f).me.stores = u.me.stores ++ [st] := by
  rw [State.me_modMe, hf, State.skipFresh_me, State.issued_me_stores]

theorem store_dram {s u : State} {a : SReg} {imm : BitVec 30} {n pa key va : Nat} {more : Option (Nat × Nat × Nat)}
    (h : s.target (s.rdS a) imm n true = (.dram pa key va more, u)) (r : SReg) :
    ∃ t st, s.store n r a imm = .next t ∧ t.me.stores = u.me.stores ++ [st] ∧ st.buf = 0 ∧ st.addr = pa ∧ st.key = key ∧ st.more = more ∧
      st.order = s.cycle ∧ st.bytes.length = n ∧ leNat st.bytes = (s.rdS r).toNat % 2 ^ (8 * n) ∧ SameData s t := by
  simp only [State.store, h]
  exact ⟨_, _, rfl, stores_inFlight u fun _ => rfl, rfl, rfl, rfl, rfl, rfl, length_leBytes _ _, leNat_leBytes _ _,
    sameData_inFlight (look_of_target h) _ (fun _ => rfl) fun _ => rfl⟩

theorem store_buf {s u : State} {a : SReg} {imm : BitVec 30} {n b byte : Nat} (h : s.target (s.rdS a) imm n true = (.buf b byte, u)) (r : SReg) :
    ∃ t st, s.store n r a imm = .next t ∧ t.me.stores = u.me.stores ++ [st] ∧ st.buf = b ∧ st.addr = byte ∧
      st.bytes.length = n ∧ leNat st.bytes = (s.rdS r).toNat % 2 ^ (8 * n) ∧ SameData s t := by
  simp only [State.store, h]
  exact ⟨_, _, rfl, stores_inFlight u fun _ => rfl, rfl, rfl, length_leBytes _ _, leNat_leBytes _ _,
    sameData_inFlight (look_of_target h) _ (fun _ => rfl) fun _ => rfl⟩

/-! ### The bytes of a write under a key (R230) -/

/-- A range is worked through line by line, from its start to its end: what each part keeps holds at the end. -/
theorem lineParts_foldl {α : Type} (f : α → Nat × Nat → α) (Inv : Nat → α → Prop) (pa n : Nat)
    (hf : ∀ off m a, Inv off a → off + m ≤ n → (pa + off) % 64 + m ≤ 64 → Inv (off + m) (f a (off, m))) :
    ∀ fuel off k a, off + k = n → (k ≤ 64 * (fuel - 1) ∨ ((pa + off) % 64 = 0 ∧ k ≤ 64 * fuel)) → Inv off a →
      Inv n ((lineParts fuel pa off k).foldl f a) := by
  intro fuel
  induction fuel with
  | zero =>
    intro off k a hk hl ha
    obtain rfl : off = n := by omega
    exact ha
  | succ fuel ih =>
    intro off k a hk hl ha
    by_cases h0 : k = 0
    · obtain rfl : off = n := by omega
      simpa [lineParts, h0] using ha
    · have hm : Nat.min k (64 - (pa + off) % 64) = min k (64 - (pa + off) % 64) := rfl
      rw [lineParts, if_neg h0]
      dsimp only
      rw [List.foldl_cons, hm]
      exact ih _ _ _ (by omega) (by omega) (hf _ _ _ ha (by omega) (by omega))

theorem linesAll_line {ok : Nat → Bool} {pa n j : Nat} (h : linesAll ok pa n = true) (hj : j < n) : ok ((pa + j) / 64 * 64) = true := by
  have hi := List.all_eq_true.1 h ((pa + j) / 64 - pa / 64) (List.mem_range.2 (by omega))
  rw [show pa / 64 + ((pa + j) / 64 - pa / 64) = (pa + j) / 64 by omega] at hi
  simpa [show (pa + j) / 64 ≤ (pa + n - 1) / 64 by omega] using hi

theorem lineKey_congr (s : State) {a b : Nat} (h : a / 64 = b / 64) : s.lineKey a = s.lineKey b := by
  rw [← lineKey_line s a, h, lineKey_line]

/-- Byte `b` after the first `n` bytes of `bs` have been written from `pa` on under a key. -/
def State.byteUnder (s : State) (pa key : Nat) (bs : List Byte) (n b : Nat) : Byte :=
  if pa ≤ b ∧ b < pa + n ∧ s.lineKey b = key then bs.getD (b - pa) 0 else s.byte b

theorem byteUnder_writeMem {s t : State} {u : UnitId} {pa key off m : Nat} {bs : List Byte} (ht : ∀ b, t.byte b = s.byteUnder pa key bs off b)
    (hm : off + m ≤ bs.length) (hk : ∀ j, j < m → s.lineKey (pa + off + j) = key) (b : Nat) :
    (t.writeMem false u 0 (pa + off) ((bs.drop off).take m)).byte b = s.byteUnder pa key bs (off + m) b := by
  have hlen : ((bs.drop off).take m).length = m := by simp; omega
  rw [(writeMem_zero t u _ _).1, hlen, ht]
  unfold State.byteUnder
  by_cases hb : pa + off ≤ b ∧ b < pa + off + m
  · have hkb := hk (b - (pa + off)) (by omega)
    rw [show pa + off + (b - (pa + off)) = b by omega] at hkb
    rw [if_pos hb, if_pos ⟨by omega, by omega, hkb⟩]
    simp [List.getD_eq_getElem?_getD, show b - (pa + off) < m by omega, show off + (b - (pa + off)) = b - pa by omega]
  · rw [if_neg hb]
    exact if_congr (by omega) rfl rfl

theorem byteUnder_skip {s : State} {pa key off m : Nat} {bs : List Byte} (hk : ∀ j, j < m → s.lineKey (pa + off + j) ≠ key) (b : Nat) :
    s.byteUnder pa key bs off b = s.byteUnder pa key bs (off + m) b := by
  unfold State.byteUnder
  refine if_congr ⟨fun ⟨h1, h2, h3⟩ => ⟨h1, by omega, h3⟩, fun ⟨h1, h2, h3⟩ => ⟨h1, ?_, h3⟩⟩ rfl rfl
  by_contra hb
  refine hk (b - (pa + off)) (by omega) ?_
  rwa [show pa + off + (b - (pa + off)) = b by omega]

/-- A write of class 0 under a key writes the bytes in lines of that key, and no other. -/
theorem writePhys_byte (s : State) (u : UnitId) (ha va pa key : Nat) (bs : List Byte) (b : Nat) :
    (s.writePhys u 0 ha va pa key bs).byte b = s.byteUnder pa key bs bs.length b := by
  unfold State.writePhys
  dsimp only
  by_cases h0 : bs.isEmpty = true
  · obtain rfl := List.isEmpty_iff.1 h0
    rw [if_pos h0, State.byteUnder, if_neg (by simp only [List.length_nil]; omega)]
  have hlen : bs.length ≠ 0 := fun h => h0 (by rw [List.length_eq_zero_iff.1 h]; rfl)
  rw [if_neg h0]
  split
  · next hall =>
    rw [(writeMem_zero s u pa bs).1, State.byteUnder]
    refine if_congr ⟨fun ⟨h1, h2⟩ => ⟨h1, h2, ?_⟩, fun ⟨h1, h2, _⟩ => ⟨h1, h2⟩⟩ rfl rfl
    have hk := linesAll_line hall (j := b - pa) (by omega)
    rw [show pa + (b - pa) = b by omega] at hk
    exact lineKey_line s b ▸ of_decide_eq_true hk
  · refine lineParts_foldl _ (fun off (t : State) => ∀ b, t.byte b = s.byteUnder pa key bs off b) pa bs.length ?_ _ 0 bs.length _ (by omega) (by omega) ?_ b
    · intro off m t ht hm hline
      have hkey : ∀ j, j < m → s.lineKey (pa + off + j) = s.lineKey (pa + off) := fun j hj => lineKey_congr s (by omega)
      dsimp only
      split
      · next hk => exact byteUnder_writeMem ht hm fun j hj => (hkey j hj).trans (of_decide_eq_true hk)
      · next hk => exact fun b => (ht b).trans (byteUnder_skip (fun j hj => by rw [hkey j hj]; simpa using hk) b)
    · intro b
      rw [State.byteUnder, if_neg (by omega)]
      rfl

/-! ### A store is performed (R89) -/

/-- `t` is `s` but for bytes of DRAM at addresses that satisfy `P`, and for what stands outside contexts or waits on a watch. -/
structure StoredIn (P : Nat → Prop) (s t : State) : Prop where
  byte : ∀ a, ¬P a → t.byte a = s.byte a
  hostMem : t.hostMem = s.hostMem
  ctx : ∀ c x, ∃ p, t.ctx c x = { s.ctx c x with pendWatch := p }

theorem StoredIn.refl (P : Nat → Prop) (s : State) : StoredIn P s s := ⟨fun _ _ => rfl, rfl, fun _ _ => ⟨_, rfl⟩⟩

theorem StoredIn.trans {P : Nat → Prop} {s t u : State} (h : StoredIn P s t) (k : StoredIn P t u) : StoredIn P s u :=
  ⟨fun a ha => (k.byte a ha).trans (h.byte a ha), k.hostMem.trans h.hostMem, fun c x => by
    obtain ⟨p, e⟩ := h.ctx c x
    obtain ⟨q, e'⟩ := k.ctx c x
    exact ⟨q, by rw [e', e]⟩⟩

/-- One part of a store: it writes in its range, and watches see it. -/
theorem storedIn_part {P : Nat → Prop} (s : State) (u : UnitId) (ha va pa key : Nat) {bs : List Byte} (rel : Bool)
    (hP : ∀ a, pa ≤ a → a < pa + bs.length → P a) :
    StoredIn P s ((s.writePhys u 0 ha va pa key bs).touchWatches s.fresh pa key bs rel) := by
  obtain ⟨wb, wh, wc⟩ := writePhys_in s u ha va pa key bs
  refine ⟨fun a hna => wb a fun ⟨h1, h2⟩ => hna (hP a h1 h2), wh, fun c x => ?_⟩
  rw [← wc c x]
  exact touchWatches_ctx ..

theorem foldl_storedIn {α : Type} {P : Nat → Prop} (f : State → α → State) (ps : List α) (hf : ∀ p ∈ ps, ∀ t, StoredIn P t (f t p)) (s : State) :
    StoredIn P s (ps.foldl f s) := by
  induction ps generalizing s with
  | nil => exact StoredIn.refl P s
  | cons p ps ih => exact (hf p (List.mem_cons_self ..) s).trans (ih (fun q hq => hf q (List.mem_cons_of_mem _ hq)) _)

/-- An address in a part of an access. -/
def InParts (ps : List (Nat × Nat × Nat)) (a : Nat) : Prop := ∃ p ∈ ps, p.2.1 ≤ a ∧ a < p.2.1 + p.2.2

theorem storeDram_in (s : State) (c : CoreId) (x : CtxId) (st : PendStore) :
    StoredIn (InParts (accessParts st.addr st.bytes.length st.more)) s (s.storeDram c x st) := by
  unfold State.storeDram
  refine foldl_storedIn _ _ (fun p hp t => storedIn_part t _ _ _ _ _ _ fun a h1 h2 => ⟨p, hp, h1, ?_⟩) s
  have := List.length_take_le p.2.2 (st.bytes.drop p.1)
  omega

theorem storeDram_byte {s : State} {c : CoreId} {x : CtxId} {st : PendStore} (hm : st.more = none) (b : Nat) :
    (s.storeDram c x st).byte b = s.byteUnder st.addr st.key st.bytes st.bytes.length b := by
  have h := writePhys_byte s (ctlUnit c x) (st.haddr + 0) (st.va + 0) st.addr st.key st.bytes b
  simpa [State.storeDram, accessParts, hm, partKey, State.touchWatches, State.byte] using h

theorem storePerform_dram {s : State} {c : CoreId} {x : CtxId} {st : PendStore} {rest : List PendStore} (hs : (s.ctx c x).stores = st :: rest)
    (hb : st.buf = 0) : exec (.ctlStorePerform c x) s = .next ((s.modCtx c x fun k => { k with stores := rest }).storeDram c x st) := by
  change execCtlStorePerform c x s = _
  simp only [execCtlStorePerform, hs, hb, if_true]

theorem storePerform_buf {s : State} {c : CoreId} {x : CtxId} {st : PendStore} {rest : List PendStore} (hs : (s.ctx c x).stores = st :: rest)
    (hb : st.buf ≠ 0) : exec (.ctlStorePerform c x) s = .next
      (((s.modCtx c x fun k => { k with stores := rest }).modCore c fun k => k.setBufBytes st.buf st.addr st.bytes).modCtx c x fun k =>
        k.endAccess st.acc) := by
  change execCtlStorePerform c x s = _
  simp only [execCtlStorePerform, hs, hb, if_false]

/-- Settles O14. -/
theorem storesPostAndPerform : Obligations.StoresPostAndPerform := by
  constructor
  · intro s u r a imm p hp
    rw [exec_storeForms s r a imm p hp]
    exact ⟨fun _ _ _ _ h => store_dram h r, fun _ _ h => store_buf h r⟩
  · intro s c x st rest hs _
    by_cases hb : st.buf = 0
    · obtain ⟨hbyte, hhost, hctx⟩ := storeDram_in (s.modCtx c x fun k => { k with stores := rest }) c x st
      obtain ⟨p, hp⟩ := hctx c x
      rw [State.ctx_modCtx_self] at hp
      refine ⟨_, storePerform_dram hs hb, by rw [hp], fun r => by rw [hp]; rfl, fun a ha => hbyte a fun ⟨q, hq, hin⟩ => ha q hq ⟨hb, hin⟩,
        fun a => congrArg (sget · a) hhost, fun _ hm i hi => ?_⟩
      rw [storeDram_byte hm, State.byteUnder]
      refine if_congr ⟨fun h => h.2.2, fun h => ⟨by omega, by omega, h⟩⟩ (by rw [Nat.add_sub_cancel_left]) rfl
    · refine ⟨_, storePerform_buf hs hb, ?_, fun r => ?_, fun _ _ => rfl, fun _ => rfl, fun h => absurd h hb⟩
      · rw [State.ctx_modCtx_self, ctx_modCore_of_ctxs _ _ _ (Core.setBufBytes_ctxs ..), State.ctx_modCtx_self]
        rfl
      · rw [State.ctx_modCtx_self, ctx_modCore_of_ctxs _ _ _ (Core.setBufBytes_ctxs ..), State.ctx_modCtx_self]
        rfl

end Sys2Proof.Machine
end

section
/-! PROOFS. What accesses to memory and records of the observation rings leave as it was: the running word and the cycle, the dispatcher's tables,
every flag, and of every context all but handle caches, counters, pending traps and the heads of its ring (R14, R228, R230, R292, R357, R358). -/

namespace Sys2Proof.Machine

/-- `t` is `s` but for what accesses and records change. -/
structure Traffic (s t : State) : Prop where
  cur : t.cur = s.cur
  cycle : t.cycle = s.cycle
  disp : t.disp = s.disp
  flags : ∀ c, (t.core c).flags = (s.core c).flags
  ctx : ∀ c x, ∃ a b p h d, t.ctx c x = { s.ctx c x with handles := a, cnt := b, pending := p, obsHead := h, obsDrop := d }

namespace Traffic

theorem refl (s : State) : Traffic s s := ⟨rfl, rfl, rfl, fun _ => rfl, fun _ _ => ⟨_, _, _, _, _, rfl⟩⟩

theorem trans {s t u : State} (h : Traffic s t) (k : Traffic t u) : Traffic s u :=
  ⟨k.cur.trans h.cur, k.cycle.trans h.cycle, k.disp.trans h.disp, fun c => (k.flags c).trans (h.flags c), fun c x => by
    obtain ⟨a, b, p, d, e, h1⟩ := h.ctx c x
    obtain ⟨a', b', p', d', e', h2⟩ := k.ctx c x
    exact ⟨a', b', p', d', e', by rw [h2, h1]⟩⟩

/-- What changes no core, and neither the dispatcher nor the running word. -/
theorem of_cores {s t : State} (h : t.cores = s.cores) (hc : t.cur = s.cur) (hy : t.cycle = s.cycle) (hd : t.disp = s.disp) : Traffic s t :=
  ⟨hc, hy, hd, fun c => by simp only [State.core, h], fun c x => by simp only [State.ctx, State.core, h]; exact ⟨_, _, _, _, _, rfl⟩⟩

theorem modCtx (s : State) (c : CoreId) (x : CtxId) (f : Ctx → Ctx)
    (hf : ∀ k, ∃ a b p h d, f k = { k with handles := a, cnt := b, pending := p, obsHead := h, obsDrop := d }) : Traffic s (s.modCtx c x f) where
  cur := rfl
  cycle := rfl
  disp := rfl
  flags c' := by
    by_cases h : c' = c
    · subst h
      rw [State.core_modCtx_self]
      rfl
    · rw [State.core_modCtx_ne _ _ _ _ _ h]
  ctx c' x' := by
    by_cases h : c' = c ∧ x' = x
    · obtain ⟨rfl, rfl⟩ := h
      rw [State.ctx_modCtx_self]
      exact hf _
    · rw [State.ctx_modCtx_ne _ _ _ _ _ _ h]
      exact ⟨_, _, _, _, _, rfl⟩

theorem modCore (s : State) (c : CoreId) (f : Core → Core) (hx : ∀ k, (f k).ctxs = k.ctxs) (hf : ∀ k, (f k).flags = k.flags) :
    Traffic s (s.modCore c f) where
  cur := rfl
  cycle := rfl
  disp := rfl
  flags c' := by
    by_cases h : c' = c
    · subst h
      rw [State.core_modCore_self, hf]
    · rw [State.core_modCore_ne _ _ _ _ h]
  ctx c' x' := by
    by_cases h : c' = c
    · subst h
      rw [ctx_modCore_of_ctxs _ _ _ (hx _)]
      exact ⟨_, _, _, _, _, rfl⟩
    · rw [State.ctx, State.core_modCore_ne _ _ _ _ h]
      exact ⟨_, _, _, _, _, rfl⟩

theorem skipFresh (s : State) (n : Nat) : Traffic s (s.skipFresh n) := of_cores rfl rfl rfl rfl

theorem modPart (s : State) (p : Nat) (f : Part → Part) : Traffic s (s.modPart p f) := of_cores rfl rfl rfl rfl

theorem count (s : State) (c : CoreId) (x : CtxId) (e n : Nat) : Traffic s (s.count c x e n) := by
  unfold State.count
  split
  · exact refl s
  · refine modCtx s c x _ fun k => ?_
    rw [Ctx.count_eq]
    exact ⟨_, _, _, _, _, rfl⟩

theorem ite {s t u : State} (c : Prop) [Decidable c] (h : Traffic s t) (k : Traffic s u) : Traffic s (if c then t else u) := by
  split
  · exact h
  · exact k

theorem foldl {α : Type} {f : State → α → State} (hf : ∀ t a, Traffic t (f t a)) (l : List α) (s : State) : Traffic s (l.foldl f s) := by
  induction l generalizing s with
  | nil => exact refl s
  | cons a l ih => exact (hf s a).trans (ih _)

/-- The same where the fold carries a result beside the state. -/
theorem foldl_snd {α β : Type} {f : β × State → α → β × State} (hf : ∀ q a, Traffic q.2 (f q a).2) (l : List α) (b : β) (s : State) :
    Traffic s (l.foldl f (b, s)).2 := by
  induction l generalizing b s with
  | nil => exact refl s
  | cons a l ih => exact (hf (b, s) a).trans (ih _ _)

/-! ### Translations (R14, R228, R230) -/

theorem keyFaultAt (s : State) (c : CoreId) (x : CtxId) (haddr va gpa pa akey path : Nat) (wr : Bool) :
    Traffic s (s.keyFaultAt c x haddr va gpa pa akey path wr) := by
  unfold State.keyFaultAt
  exact modCore s c (fun k => { k with keyFaults := k.keyFaults ++ [_] }) (fun _ => rfl) fun _ => rfl

theorem softErr (s : State) (c : CoreId) (x : CtxId) (pa path : Nat) : Traffic s (s.softErr c x pa path) :=
  modCtx s c x _ fun _ => ⟨_, _, _, _, _, rfl⟩

theorem noteTouches (s : State) (c : CoreId) (x : CtxId) (haddr va path : Nat) (l : List Touch) :
    Traffic s (s.noteTouches c x haddr va path l) := by
  unfold State.noteTouches
  refine foldl (fun t q => ?_) l s
  split
  · exact (keyFaultAt ..).trans (skipFresh _ 1)
  · split
    · exact (softErr ..).trans (skipFresh _ 1)
    · exact refl t

theorem tlbAdd (s : State) (c : CoreId) (t : TlbSel) (e : TlbEntry) : Traffic s (s.tlbAdd c t e) := by
  unfold State.tlbAdd
  split
  · exact modCore s c _ (fun _ => rfl) fun _ => rfl
  · split
    · exact of_cores rfl rfl rfl rfl
    · exact modCore s c _ (fun _ => rfl) fun _ => rfl

theorem translate (s : State) (c : CoreId) (x : CtxId) (t : TlbSel) (haddr va : Nat) (d : Dir) :
    Traffic s (s.translate c x t haddr va d).2 := by
  unfold State.translate
  dsimp only
  split
  · split <;> exact refl s
  · split
    · exact refl s
    · have h := ((count s c x 0x38 1).trans (count _ c x 0x39 1)).trans
        (noteTouches _ c x haddr va (tlbPath t d) (s.walk2 c x va d).2)
      split
      · exact h
      · split
        · exact h
        · exact h.trans (tlbAdd _ c t _)

/-! ### Reads and writes (R230, R292) -/

theorem readMem (s : State) (host : Bool) (u : UnitId) (cls : Nat) (q : Acq) (atomic : Bool) (a n : Nat) :
    Traffic s (s.readMem host u cls q atomic a n).2 := by
  unfold State.readMem
  dsimp only
  split
  · exact of_cores rfl rfl rfl rfl
  · exact refl s

theorem readPhys (s : State) (u : UnitId) (cls : Nat) (q : Acq) (atomic : Bool) (haddr va pa key n : Nat) :
    Traffic s (s.readPhys u cls q atomic haddr va pa key n).2 := by
  unfold State.readPhys
  dsimp only
  split
  · exact refl s
  · split
    · exact readMem ..
    · refine trans ?_ (foldl_snd (fun q p => ?_) _ _ _)
      · exact (ite _ (refl s) (keyFaultAt ..)).trans (ite _ (refl _) (softErr ..))
      · dsimp only
        split
        · exact readMem ..
        · exact skipFresh ..

theorem readVa (s : State) (u : UnitId) (t : TlbSel) (cls : Nat) (q : Acq) (atomic : Bool) (haddr va n : Nat) :
    Traffic s (s.readVa u t cls q atomic haddr va n).2 := by
  unfold State.readVa
  refine foldl_snd (fun acc p => ?_) _ _ s
  dsimp only
  split
  · exact refl _
  · have h := translate acc.2 u.core u.ctx t (haddr + p.1) (va + p.1) .rd
    split
    · next e => rw [e] at h; exact h
    · next e => rw [e] at h; exact h.trans (readPhys ..)

theorem writeByte (s : State) (host : Bool) (u : UnitId) (cls tag pick a : Nat) (v : Byte) :
    Traffic s (s.writeByte host u cls tag pick a v) := by
  unfold State.writeByte
  dsimp only
  split
  · exact of_cores rfl rfl rfl rfl
  · split <;> exact of_cores rfl rfl rfl rfl

theorem writeMem (s : State) (host : Bool) (u : UnitId) (cls a : Nat) (bs : List Byte) : Traffic s (s.writeMem host u cls a bs) := by
  have h := foldl (f := fun (t : State) (p : Byte × Nat) => t.writeByte host u cls s.fresh (s.fresh + 129 + p.2) (a + p.2) p.1)
    (fun t p => writeByte ..) bs.zipIdx { s with fresh := s.fresh + 129 + bs.length }
  have h0 : Traffic s { s with fresh := s.fresh + 129 + bs.length } := of_cores rfl rfl rfl rfl
  unfold State.writeMem
  dsimp only
  split
  · exact h0.trans h
  · exact (h0.trans h).trans (of_cores rfl rfl rfl rfl)

theorem writePhys (s : State) (u : UnitId) (cls haddr va pa key : Nat) (bs : List Byte) :
    Traffic s (s.writePhys u cls haddr va pa key bs) := by
  unfold State.writePhys
  dsimp only
  split
  · exact refl s
  · split
    · exact writeMem ..
    · refine (keyFaultAt ..).trans (foldl (fun t p => ?_) _ _)
      split
      · exact writeMem ..
      · exact refl t

theorem writeVa (s : State) (u : UnitId) (t : TlbSel) (cls haddr va : Nat) (bs : List Byte) :
    Traffic s (s.writeVa u t cls haddr va bs).2 := by
  unfold State.writeVa
  refine foldl_snd (fun acc p => ?_) _ _ s
  split
  · exact refl _
  · have h := translate acc.2 u.core u.ctx t (haddr + p.1) (va + p.1) .wr
    split
    · next e => rw [e] at h; exact h
    · next e => rw [e] at h; exact h.trans (writePhys ..)

/-! ### Records and rings (R357, R358) -/

theorem physRing {base : Nat} {c : CoreId} {x : CtxId} {s t : State} {off : Nat} {bs : List Byte} (h : physRing base c x s off bs = some t) :
    Traffic s t := by
  unfold Machine.physRing at h
  split at h
  · cases h
  · obtain rfl := Option.some.inj h
    exact writeMem ..

theorem tenantRing {w : Nat} {c : CoreId} {x : CtxId} {s t : State} {off : Nat} {bs : List Byte} (h : tenantRing w c x s off bs = some t) :
    Traffic s t := by
  unfold Machine.tenantRing at h
  split at h
  · cases h
  · next i _ =>
    have hw := writeVa s (recUnit c x) none 0 (w + off) (i.base + haddrO (w + off)) bs
    split at h
    · next e =>
      rw [e] at hw
      exact Option.some.inj h ▸ hw
    · cases h

section
variable {wr : State → Nat → List Byte → Option State} (hw : ∀ s t off bs, wr s off bs = some t → Traffic s t)
include hw

theorem ringOne (dws : List Nat) (q : Ring × State) : Traffic q.2 (ringOne wr dws q).2 := by
  unfold Machine.ringOne
  dsimp only
  split
  · exact refl _
  · split
    · exact refl _
    · next e => exact hw _ _ _ _ e

theorem ringPut (dws : List Nat) (gt : Nat) (q : Ring × State) : Traffic q.2 (ringPut wr dws gt q).2 := by
  unfold Machine.ringPut
  dsimp only
  split
  · exact refl _
  · split
    · have h := ringOne hw [setBits (dws.headD 0) 56 8 7, 0, gt, q.1.drop, 0, 0, 0, 0] ({ q.1 with drop := 0 }, q.2)
      split
      · exact h
      · exact h.trans (ringOne hw ..)
    · exact ringOne hw ..

end

theorem putRecord (s : State) (c : CoreId) (x : CtxId) (p rc : Nat) (dws : List Nat) : Traffic s (s.putRecord c x p rc dws) := by
  unfold State.putRecord
  dsimp only
  split
  · exact (ringPut (fun _ _ _ _ => tenantRing) dws s.gtime (_, s)).trans (modCtx _ c x _ fun _ => ⟨_, _, _, _, _, rfl⟩)
  · split
    · exact (ringPut (fun _ _ _ _ => physRing) dws s.gtime (_, s)).trans (modPart ..)
    · exact (ringPut (fun _ _ _ _ => physRing) dws s.gtime (_, s)).trans (modPart ..)

theorem observe (s : State) (c : CoreId) (x : CtxId) (p cls kind name : Nat) (pay : List (List RecField)) (sum : WSum) :
    Traffic s (s.observe c x p cls kind name pay sum) := by
  unfold State.observe
  refine foldl (fun t rc => ?_) _ s
  dsimp only
  split
  · exact refl t
  · split
    · exact modPart ..
    · exact putRecord ..

theorem logAppend (s : State) (p kind issuer task : Nat) (arg : Word) (digest desc : List Byte) :
    Traffic s (s.logAppend p kind issuer task arg digest desc) := by
  unfold State.logAppend
  dsimp only
  split
  · exact refl s
  · split
    · exact of_cores rfl rfl rfl rfl
    · refine trans ?_ (modPart ..)
      split
      · exact writeMem ..
      · exact refl s

/-! ### The running context -/

theorem me {s t : State} (h : Traffic s t) :
    ∃ a b p o d, t.me = { s.me with handles := a, cnt := b, pending := p, obsHead := o, obsDrop := d } := by
  rw [State.me, h.cur]
  exact h.ctx _ _

theorem myCore_flags {s t : State} (h : Traffic s t) : t.myCore.flags = s.myCore.flags := by
  rw [State.myCore, h.cur]
  exact h.flags _

theorem rdS {s t : State} (h : Traffic s t) (r : SReg) : t.rdS r = s.rdS r := by
  obtain ⟨a, b, p, o, d, e⟩ := h.me
  rw [State.rdS, e]
  rfl

theorem rdH {s t : State} (h : Traffic s t) (r : HReg) : t.rdH r = s.rdH r := by
  obtain ⟨a, b, p, o, d, e⟩ := h.me
  rw [State.rdH, e]
  rfl

theorem acqs {s t : State} (h : Traffic s t) : t.me.acqs = s.me.acqs := by
  obtain ⟨a, b, p, o, d, e⟩ := h.me
  rw [e]

theorem replies {s t : State} (h : Traffic s t) : t.me.replies = s.me.replies := by
  obtain ⟨a, b, p, o, d, e⟩ := h.me
  rw [e]

end Traffic

end Sys2Proof.Machine
end

section
/-! PROOFS. O16, O17: SETF and WAITF (R97 to R99, R294). SETF seals what its context has written and leaves an update for the next cycle; WAITF
becomes the governing acquire. The updates of one cycle are a sort by TAG (`Core.applyUpds`). -/

namespace Sys2Proof.Machine

/-! ### SETF (R97) -/

theorem seal_modMe_me (s : State) (f : Ctx → Ctx) : (s.modMe f).seal.me = f s.me := State.me_modMe s f

theorem sameData_seal (s : State) : SameData s s.seal := ⟨fun _ => rfl, fun _ => rfl, fun _ => ⟨rfl, rfl⟩⟩

theorem myCore_pushFlag (s : State) (u : FlagUpd) :
    (s.pushFlag s.cur.core u).myCore = { s.myCore with upds := s.myCore.upds ++ [u] } := State.core_modCore_self ..

theorem me_pushFlag (s : State) (u : FlagUpd) : (s.pushFlag s.cur.core u).me = s.me :=
  ctx_modCore_of_ctxs s _ (fun k => { k with upds := k.upds ++ [u] }) rfl _

theorem sameData_pushFlag (s : State) (u : FlagUpd) : SameData s (s.pushFlag s.cur.core u) :=
  ⟨fun r => congrArg (Ctx.rdS · r) (me_pushFlag s u), fun r => congrArg (fun k => k.h[r]) (me_pushFlag s u), fun _ => ⟨rfl, rfl⟩⟩

theorem exec_setf_holds {s : State} {sc : Scope} (h : s.releaseReady sc = false) (f : FlagNo) (a : SReg) (add : Bool) :
    exec (.setf f a sc add) s = .next s := by
  change execSetf f a sc add s = _
  simp [execSetf, h, State.hold]

theorem exec_setf_traps {s : State} {sc : Scope} {f : FlagNo} (h : s.releaseReady sc = true) (hf : s.myGrant.hasFlag f.val = false) (a : SReg)
    (add : Bool) : exec (.setf f a sc add) s = .next s.trapRange := by
  change execSetf f a sc add s = _
  simp [execSetf, h, hf]

/-- The state after a SETF, without its update. -/
def State.released (s : State) : State := (s.issued.modMe fun k => k.releasedAt s.curIdx s.cycle).seal

theorem exec_setf_issues {s : State} {sc : Scope} {f : FlagNo} (h : s.releaseReady sc = true) (hf : s.myGrant.hasFlag f.val = true) (a : SReg)
    (add : Bool) : exec (.setf f a sc add) s = .next (s.released.pushFlag s.cur.core
      { at_ := s.cycle + 1, key := 0, flag := f, add := add, val := (s.rdS a).setWidth 32, setter := 0, score := 0, ctx := s.cur.ctx }) := by
  change execSetf f a sc add s = _
  simp [execSetf, h, hf, State.released]

theorem sameData_released (s : State) : SameData s s.released :=
  ((sameData_issued s).trans (sameData_modMe s.issued _ rfl rfl)).trans (sameData_seal _)

theorem released_cur (s : State) : s.released.cur = s.cur := s.issued_cur

theorem released_me (s : State) : s.released.me.released = true := by
  rw [State.released, seal_modMe_me]
  rfl

theorem released_myCore (s : State) : s.released.myCore.upds = s.myCore.upds ∧ s.released.myCore.flags = s.myCore.flags := by
  have hcore : s.released.myCore = (s.issued.modMe fun k => k.releasedAt s.curIdx s.cycle).myCore := rfl
  rw [hcore, State.myCore_modMe, Core.modCtx_upds, State.issued_myCore_upds, Core.modCtx_flags, State.issued_myCore_flags]
  exact ⟨rfl, rfl⟩

theorem setf_issues {s : State} {sc : Scope} {f : FlagNo} (h : s.releaseReady sc = true) (hf : s.myGrant.hasFlag f.val = true) (a : SReg)
    (add : Bool) : ∃ t u, exec (.setf f a sc add) s = .next t ∧ t.myCore.upds = s.myCore.upds ++ [u] ∧
      u.flag = f ∧ u.add = add ∧ u.val.toNat = (s.rdS a).toNat % 2 ^ 32 ∧ u.at_ = s.cycle + 1 ∧ u.key = 0 ∧ t.myCore.flags = s.myCore.flags ∧
      t.me.released = true ∧ SameData s t := by
  obtain ⟨hupds, hflags⟩ := released_myCore s
  rw [exec_setf_issues h hf, ← released_cur s]
  exact ⟨_, _, rfl, (congrArg Core.upds (myCore_pushFlag ..)).trans (congrArg (· ++ [_]) hupds), rfl, rfl, BitVec.toNat_setWidth .., rfl, rfl,
    (congrArg Core.flags (myCore_pushFlag ..)).trans hflags, (congrArg Ctx.released (me_pushFlag ..)).trans (released_me s),
    (sameData_released s).trans (sameData_pushFlag _ _)⟩

/-! ### The updates of one cycle (R99) -/

theorem filter_pair {u w : FlagUpd} (h : u.key < w.key) {l : List FlagUpd} (hl : l = [u, w] ∨ l = [w, u]) (n : Nat) :
    (l.filter fun x => x.key = n) = if u.key = n then [u] else if w.key = n then [w] else [] := by
  by_cases hu : u.key = n
  · have hw : w.key ≠ n := by omega
    rcases hl with rfl | rfl <;> simp [hu, hw]
  · rcases hl with rfl | rfl <;> simp [hu, List.filter_cons]

/-- Two updates gathered by TAG stand in the order of their TAGs, whatever order they were made in. -/
theorem byTag_pair {u w : FlagUpd} (h : u.key < w.key) {l : List FlagUpd} (hl : l = [u, w] ∨ l = [w, u]) (n : Nat) :
    ((List.range n).flatMap fun t => l.filter fun x => x.key = t) = if w.key < n then [u, w] else if u.key < n then [u] else [] := by
  induction n with
  | zero => rfl
  | succ n ih =>
    rw [List.range_succ, List.flatMap_append, ih, List.flatMap_singleton, filter_pair h hl]
    grind

theorem one_eq_apply (x : FlagUpd) (v : FlagVal) : (if x.add then BitVec.ofNat 32 (v.toNat + x.val.toNat) else x.val) = x.apply v :=
  if_congr Iff.rfl (BitVec.eq_of_toNat_eq (by rw [BitVec.toNat_ofNat, BitVec.toNat_add])) rfl

theorem applyUpds_pair {k : Core} {u w : FlagUpd} {now : Nat} (h : u.key < w.key) (hw : w.key ≤ 6) (hu : u.at_ ≤ now) (hwn : w.at_ ≤ now)
    (hl : k.upds = [u, w] ∨ k.upds = [w, u]) :
    k.applyUpds now = { (k.applyUpd u).applyUpd w with upds := [] } := by
  have hdue : (k.upds.filter fun x => x.at_ ≤ now) = k.upds := by rcases hl with hl | hl <;> simp [hl, hu, hwn]
  have hlate : (k.upds.filter fun x => x.at_ > now) = [] := by rcases hl with hl | hl <;> simp [hl, hu, hwn]
  have hout : (k.upds.filter fun x => x.key ≥ 7) = [] := by
    rcases hl with hl | hl <;> simp [hl, show w.key < 7 by omega, show u.key < 7 by omega]
  unfold Core.applyUpds
  dsimp only
  rw [hdue, hlate, hout, byTag_pair h hl, if_pos (by omega)]
  rfl

/-- Settles O16. -/
theorem setfReleases : Obligations.SetfReleases := by
  refine ⟨fun s f a sc add => ⟨fun h => exec_setf_holds h f a add, fun h hf => setf_issues h hf a add,
    fun h hf hl => ⟨_, exec_setf_traps h hf a add, trapped_range hl⟩⟩, ?_⟩
  intro k u w now hf hlt h6 hu hw hl one
  have hone (x : FlagUpd) (v : FlagVal) : one x v = x.apply v := one_eq_apply x v
  rw [applyUpds_pair hlt h6 hu hw hl, hone, hone]
  refine ⟨?_, rfl, fun f hne => ?_⟩
  · simp [Core.applyUpd, hf]
  · have h1 : u.flag.val ≠ f.val := fun e => hne (Fin.ext e.symm)
    have h2 : w.flag.val ≠ f.val := fun e => hne (Fin.ext (e.symm.trans (congrArg Fin.val hf.symm)))
    simp [Core.applyUpd, Vector.getElem_set_ne, h1, h2]

end Sys2Proof.Machine
end

section
/-! PROOFS. O17: WAITF. It waits for its condition and for the loads before it, and becomes the governing acquire; its record in the wait log is
traffic of a ring (R98, R294, R359). -/

namespace Sys2Proof.Machine

/-! ### The condition (R98, R294) -/

theorem condMet_iff {cond : Fin 4} (h3 : cond ≠ 3) (f v : FlagVal) : condMet cond.val f v = true ↔ waitMet cond f v := by
  fin_cases cond
  · simp [condMet, waitMet]
  · simp [condMet, waitMet, BitVec.le_def]
  · simp [condMet, waitMet]
  · exact absurd rfl h3

theorem loadsBack_iff (s : State) : s.loadsBack = true ↔ s.me.loads = [] ∧ s.me.loadAt < s.cycle := by
  simp [State.loadsBack, List.isEmpty_iff]

theorem waitfReady_iff {s : State} {cond : Fin 4} (h3 : cond ≠ 3) (f : FlagNo) (a : SReg) :
    s.waitfReady f a cond = true ↔ waitMet cond (s.flag f) ((s.rdS a).setWidth 32) ∧ s.me.loads = [] ∧ s.me.loadAt < s.cycle := by
  rw [State.waitfReady, Bool.and_eq_true, condMet_iff h3, loadsBack_iff]

/-! ### What WAITF does (R294, R296) -/

/-- A context after a WAITF whose flag `setter` set: its acquire governs, and where an engine set the flag, its writes are in the floors. -/
def Ctx.waitfAt (k : Ctx) (i cycle : Nat) (sc : Scope) (setter : Nat) (gate : BitVec 6) : Ctx :=
  let k1 := k.acquireAt i cycle sc
  let k2 := match setterPaths setter with
    | [] => k1
    | ps => k1.pushAcq i (k1.acq.raise ps (gatePaths gate) (cycle + 1))
  { k2 with waitFrom := none }

theorem waitfAt_acqs (k : Ctx) (i cycle : Nat) (sc : Scope) (setter : Nat) (gate : BitVec 6) :
    ∃ q, (k.waitfAt i cycle sc setter gate).acqs.head? = some q ∧ q.idx = i ∧ q.epoch = k.epoch ∧ q.acq.at_ = cycle ∧ q.acq.scope = sc := by
  unfold Ctx.waitfAt
  dsimp only
  split <;> exact ⟨_, rfl, rfl, rfl, rfl, rfl⟩

theorem waitfAt_regs (k : Ctx) (i cycle : Nat) (sc : Scope) (setter : Nat) (gate : BitVec 6) :
    (k.waitfAt i cycle sc setter gate).s = k.s ∧ (k.waitfAt i cycle sc setter gate).h = k.h := by
  unfold Ctx.waitfAt
  dsimp only
  split <;> exact ⟨rfl, rfl⟩

/-- The state after a WAITF, before its record. -/
def State.waitedFor (s : State) (f : FlagNo) (sc : Scope) (gate : BitVec 6) : State :=
  (s.issued.modMe fun k => k.waitfAt s.curIdx s.cycle sc (vget s.myCore.setters f.val (15, 0)).1 gate).seal.count s.cur.core s.cur.ctx 0x30 1

section
variable {s : State} {f : FlagNo} {a : SReg} {cond : Fin 4} (ha : cond = 0 → a.val = 0) (h3 : cond ≠ 3) (hg : s.myGrant.hasFlag f.val = true)
include ha h3 hg

theorem execWaitf_eq (sc : Scope) (gate : BitVec 6) :
    execWaitf f a sc cond gate s = if !s.waitfReady f a cond then s.hold else
      .next ((s.waitedFor f sc gate).waitRecord s.cur.core s.cur.ctx s.curSeq s.waited f.val (vget s.myCore.setters f.val (15, 0)).1
        (vget s.myCore.setters f.val (15, 0)).2 sc.val cond.val gate.toNat) := by
  have hwf : ¬((cond.val = 0 && a.val ≠ 0) || cond.val = 3) = true := by
    have h0 : cond.val = 0 → a.val = 0 := fun h => ha (Fin.ext h)
    have h3' : cond.val ≠ 3 := fun h => h3 (Fin.ext h)
    simpa [h3'] using h0
  unfold execWaitf
  rw [if_neg hwf, if_neg (by simp [hg])]
  rfl

end

theorem traffic_waitRecord (s : State) (c : CoreId) (x : CtxId) (seq cyc flag setter score scope cond gate : Nat) :
    Traffic s (s.waitRecord c x seq cyc flag setter score scope cond gate) := Traffic.observe ..

/-- The effect of a WAITF on its context, but for its counters. -/
theorem traffic_waitedFor (s : State) (f : FlagNo) (sc : Scope) (gate : BitVec 6) :
    Traffic (s.issued.modMe fun k => k.waitfAt s.curIdx s.cycle sc (vget s.myCore.setters f.val (15, 0)).1 gate).seal (s.waitedFor f sc gate) :=
  Traffic.count ..

theorem sameData_waitedFor (s : State) (f : FlagNo) (sc : Scope) (gate : BitVec 6) : SameData s (s.waitedFor f sc gate) := by
  have h : SameData s (s.issued.modMe fun k => k.waitfAt s.curIdx s.cycle sc (vget s.myCore.setters f.val (15, 0)).1 gate).seal :=
    ((sameData_issued s).trans (sameData_modMe s.issued _ (waitfAt_regs ..).1 (waitfAt_regs ..).2)).trans (sameData_seal _)
  have k := traffic_waitedFor s f sc gate
  exact h.trans ⟨k.rdS, k.rdH, fun x => by rw [State.waitedFor, count_eq_modCtx]; exact ⟨rfl, rfl⟩⟩

theorem waitedFor_part (s : State) (f : FlagNo) (sc : Scope) (gate : BitVec 6) :
    (s.waitedFor f sc gate).part ((s.waitedFor f sc gate).partOf s.cur.core s.cur.ctx) = s.part s.myPart := by
  have hmg : (s.waitedFor f sc gate).mg = s.mg := by
    rw [State.waitedFor, count_eq_modCtx]
    exact s.issued_mg
  have hp : (s.waitedFor f sc gate).partOf s.cur.core s.cur.ctx = s.issued.myPart := by
    simp only [State.waitedFor, count_eq_modCtx, State.partOf, State.grant, State.core_modCtx_self, Core.modCtx_grants, State.myPart, State.myGrant]
    change ((s.issued.modMe _).core s.cur.core).grants[s.cur.ctx].part = _
    rw [State.modMe, State.issued_cur, State.core_modCtx_self, Core.modCtx_grants]
  rw [hp, State.issued_myPart, State.part, hmg]
  rfl

theorem waitf_issues (s : State) (f : FlagNo) (sc : Scope) (gate : BitVec 6) (seq cyc flag setter score scope cond g : Nat) :
    let t := (s.waitedFor f sc gate).waitRecord s.cur.core s.cur.ctx seq cyc flag setter score scope cond g
    (∃ q, t.me.acqs.head? = some q ∧ q.idx = s.curIdx ∧ q.epoch = s.me.epoch ∧ q.acq.at_ = s.cycle ∧ q.acq.scope = sc) ∧
      t.myCore.flags = s.myCore.flags ∧ (∀ r, t.rdS r = s.rdS r) ∧ (∀ r, t.rdH r = s.rdH r) ∧ ((s.part s.myPart).policy = none → SameData s t) := by
  intro t
  have hr := traffic_waitRecord (s.waitedFor f sc gate) s.cur.core s.cur.ctx seq cyc flag setter score scope cond g
  have hk := (traffic_waitedFor s f sc gate).trans hr
  obtain ⟨hS, hH, -⟩ := sameData_waitedFor s f sc gate
  refine ⟨?_, ?_, fun r => (hr.rdS r).trans (hS r), fun r => (hr.rdH r).trans (hH r), fun hp => ?_⟩
  · rw [hk.acqs, seal_modMe_me]
    obtain ⟨q, hq, hi, he, hat, hsc⟩ := waitfAt_acqs s.issued.me s.curIdx s.cycle sc (vget s.myCore.setters f.val (15, 0)).1 gate
    exact ⟨q, hq, hi, he.trans s.issued_me_epoch, hat, hsc⟩
  · rw [hk.myCore_flags]
    change (s.issued.modMe _).myCore.flags = _
    rw [State.myCore_modMe, Core.modCtx_flags, State.issued_myCore_flags]
  · have ht : t = s.waitedFor f sc gate := observe_silent ((waitedFor_part s f sc gate).symm ▸ hp) ..
    rw [ht]
    exact sameData_waitedFor s f sc gate

/-- Settles O17. -/
theorem waitfAcquires : Obligations.WaitfAcquires := by
  intro s f a sc cond gate ha h3 hg met
  have heq : exec (.waitf f a sc cond gate) s = _ := execWaitf_eq ha h3 hg sc gate
  rw [heq]
  refine ⟨fun hn => ?_, fun hm => ?_⟩
  · rw [show s.waitfReady f a cond = false from Bool.eq_false_iff.2 fun h => hn ((waitfReady_iff h3 f a).1 h)]
    rfl
  · rw [(waitfReady_iff h3 f a).2 hm]
    obtain ⟨⟨q, hq, hi, he, hat, hsc⟩, hrest⟩ := waitf_issues s f sc gate s.curSeq s.waited f.val (vget s.myCore.setters f.val (15, 0)).1
      (vget s.myCore.setters f.val (15, 0)).2 sc.val cond.val gate.toNat
    exact ⟨_, q, rfl, hq, hi, he, hat, hsc, hrest⟩

end Sys2Proof.Machine
end

section
/-! PROOFS. O18: PHASE and FENCE. A phase word seals what its context has written and sets its release mark or its governing acquire; a fence is an
entry of its context until its writes are performed, and then raises the floors of its pairs of paths (R101, R102, R292 to R294). -/

namespace Sys2Proof.Machine

/-! ### PHASE (R101) -/

/-- The alias class of a write once what units of a context on some paths have written is sealed (R298). -/
def HistEntry.sealedCls (e : HistEntry) (c : CoreId) (x : CtxId) (paths : List Nat) : Nat :=
  if e.unit.core = c && e.unit.ctx = x && !e.unit.outside && paths.contains e.unit.path then 0 else e.cls

theorem sealClasses_hist (s : State) (c : CoreId) (x : CtxId) (paths : List Nat) :
    (s.sealClasses c x paths).hist = s.hist.map fun e => { e with cls := e.sealedCls c x paths } := by
  refine List.map_congr_left fun e _ => ?_
  unfold HistEntry.sealedCls
  split <;> rfl

/-- A word that changes the acquires and the release mark of its context, and closes alias classes, changes nothing else. -/
theorem ordersOnly_seal (s : State) (f : Ctx → Ctx) (hf : ∀ k, ∃ a r, f k = { k with acqs := a, released := r }) :
    OrdersOnly s (s.issued.modMe f).seal := by
  have hhist : (s.issued.modMe f).hist = s.hist := s.issued_hist
  have hplain : ({ (s.issued.modMe f).seal with hist := s.hist } : State) = s.issued.modMe f := by
    rw [← hhist]
    rfl
  refine ⟨?_, ⟨_, (sealClasses_hist ..).trans (by rw [hhist])⟩, ?_⟩
  · rw [hplain, s.unissue_modMe f (fun _ => (f s.issued.me).unissue s.me) rfl, State.modMe_modMe]
    apply State.modMe_id
    obtain ⟨a, r, h⟩ := hf s.issued.me
    obtain ⟨b, c, d, e, hi⟩ := s.issued_me_eq
    rw [h, hi]
    rfl
  · obtain ⟨a, r, h⟩ := hf s.issued.me
    exact ((sameData_issued s).trans (sameData_modMe s.issued f (by rw [h]) (by rw [h]))).trans (sameData_seal _)

theorem exec_phase_holds {s : State} {sc : Scope} (h : (s.releaseReady sc && s.loadsBack) = false) : exec (.phaseAcqrel sc) s = .next s := by
  change execPhaseAcqrel sc s = _
  rw [execPhaseAcqrel, h]
  rfl

theorem exec_phaseRel_holds {s : State} {sc : Scope} (h : s.releaseReady sc = false) : exec (.phaseRel sc) s = .next s := by
  change execPhaseRel sc s = _
  rw [execPhaseRel, h]
  rfl

theorem exec_phaseAcq_holds {s : State} (h : s.loadsBack = false) (sc : Scope) : exec (.phaseAcq sc) s = .next s := by
  change execPhaseAcq sc s = _
  rw [execPhaseAcq, h]
  rfl

theorem phaseRel_issues {s : State} {sc : Scope} (h : s.releaseReady sc = true) :
    ∃ t, exec (.phaseRel sc) s = .next t ∧ t.me.released = true ∧ OrdersOnly s t := by
  refine ⟨s.released, ?_, released_me s, ordersOnly_seal s _ fun _ => ⟨_, _, rfl⟩⟩
  change execPhaseRel sc s = _
  rw [execPhaseRel, h]
  rfl

theorem phaseAcq_issues {s : State} (h : s.loadsBack = true) (sc : Scope) :
    ∃ t q, exec (.phaseAcq sc) s = .next t ∧ t.me.acqs.head? = some q ∧ q.idx = s.curIdx ∧ q.acq.at_ = s.cycle ∧ q.acq.scope = sc ∧
      OrdersOnly s t := by
  refine ⟨(s.issued.modMe fun k => k.acquireAt s.curIdx s.cycle sc).seal, _, ?_, congrArg (fun k => k.acqs.head?) (seal_modMe_me ..), rfl, rfl, rfl,
    ordersOnly_seal s _ fun _ => ⟨_, _, rfl⟩⟩
  change execPhaseAcq sc s = _
  rw [execPhaseAcq, h]
  rfl

theorem phaseAcqrel_issues {s : State} {sc : Scope} (h : s.releaseReady sc = true) (hb : s.loadsBack = true) :
    ∃ t q, exec (.phaseAcqrel sc) s = .next t ∧ t.me.released = true ∧ t.me.acqs.head? = some q ∧ q.idx = s.curIdx ∧ q.acq.at_ = s.cycle ∧
      q.acq.scope = sc ∧ OrdersOnly s t := by
  refine ⟨(s.issued.modMe fun k => (k.releasedAt s.curIdx s.cycle).acquireAt s.curIdx s.cycle sc).seal, _, ?_,
    congrArg (fun k => k.released) (seal_modMe_me ..), congrArg (fun k => k.acqs.head?) (seal_modMe_me ..), rfl, rfl, rfl,
    ordersOnly_seal s _ fun _ => ⟨_, _, rfl⟩⟩
  change execPhaseAcqrel sc s = _
  rw [execPhaseAcqrel, h, hb]
  rfl

theorem phase_words (s : State) (sc : Scope) :
    let back := s.me.loads = [] ∧ s.me.loadAt < s.cycle
    (s.releaseReady sc = false → exec (.phaseRel sc) s = .next s ∧ exec (.phaseAcqrel sc) s = .next s) ∧
    (¬back → exec (.phaseAcq sc) s = .next s ∧ exec (.phaseAcqrel sc) s = .next s) ∧
    (s.releaseReady sc = true → ∃ t, exec (.phaseRel sc) s = .next t ∧ t.me.released = true ∧ OrdersOnly s t) ∧
    (back → ∃ t q, exec (.phaseAcq sc) s = .next t ∧ t.me.acqs.head? = some q ∧ q.idx = s.curIdx ∧ q.acq.at_ = s.cycle ∧ q.acq.scope = sc ∧
      OrdersOnly s t) ∧
    (s.releaseReady sc = true → back → ∃ t q, exec (.phaseAcqrel sc) s = .next t ∧ t.me.released = true ∧ t.me.acqs.head? = some q ∧
      q.idx = s.curIdx ∧ q.acq.at_ = s.cycle ∧ q.acq.scope = sc ∧ OrdersOnly s t) := by
  intro back
  have hback : s.loadsBack = true ↔ back := loadsBack_iff s
  refine ⟨fun h => ⟨exec_phaseRel_holds h, exec_phase_holds (by rw [h]; rfl)⟩, fun h => ?_, phaseRel_issues,
    fun h => phaseAcq_issues (hback.2 h) sc, fun h hb => phaseAcqrel_issues h (hback.2 hb)⟩
  have hb : s.loadsBack = false := Bool.eq_false_iff.2 fun e => h (hback.1 e)
  exact ⟨exec_phaseAcq_holds hb sc, exec_phase_holds (by rw [hb, Bool.and_false])⟩

/-! ### FENCE (R102) -/

theorem fence_issues (s : State) {src dst : BitVec 6} (hs : src ≠ 0) (hd : dst ≠ 0) :
    ∃ t f, exec (.fence src dst) s = .next t ∧ Issued s t (fun k => { k with fences := k.fences ++ [f] }) ∧ f.src = src ∧ f.dst = dst ∧
      f.epoch = s.me.epoch ∧ f.idx = s.curIdx ∧ f.at_ = s.cycle ∧ f.made = none := by
  change ∃ t f, execFence src dst s = .next t ∧ _
  rw [execFence, if_neg (by simpa using ⟨hs, hd⟩)]
  exact ⟨_, _, rfl, issued_modMe s _ _ fun _ _ _ _ => rfl, rfl, rfl, rfl, rfl, rfl, rfl⟩

/-! ### A fence completes (R102, R292) -/

theorem vget_foldl_vmod {α : Type} {n : Nat} (is : List Nat) (v : Vector α n) (y d : α) {j : Nat} (hj : j < n) :
    vget (is.foldl (fun v i => vmod v i fun _ => y) v) j d = if j ∈ is then y else vget v j d := by
  induction is generalizing v with
  | nil => simp
  | cons i is ih =>
    rw [List.foldl_cons, ih]
    by_cases hi : i = j
    · subst hi
      simp [hj]
    · simp [hi, Ne.symm hi]

theorem mem_maskPaths (m : BitVec 6) (i : Fin 6) : i.val ∈ maskPaths m ↔ m.getLsbD i.val = true := by
  simp [maskPaths, setBitsOf, BitVec.getLsbD]

theorem lt_of_mem_maskPaths {m : BitVec 6} {i : Nat} (h : i ∈ maskPaths m) : i < 6 := List.mem_range.1 (List.mem_of_mem_filter h)

/-- The floors of a raise: those of the named pairs hold the writes made up to now, and the others stay. -/
theorem vget_raise (q : Acq) (src dst : BitVec 6) (now : Nat) (p v : Fin 6) :
    vget (q.raise (maskPaths src) (maskPaths dst) now).floors (8 * p.val + v.val) 0 =
      if src.getLsbD p.val && dst.getLsbD v.val then now else vget q.floors (8 * p.val + v.val) 0 := by
  have hfold : (q.raise (maskPaths src) (maskPaths dst) now).floors =
      ((maskPaths src).flatMap fun a => (maskPaths dst).map fun b => 8 * a + b).foldl (fun v i => vmod v i fun _ => now) q.floors := by
    simp only [Acq.raise, List.foldl_flatMap, List.foldl_map]
  have hmem : 8 * p.val + v.val ∈ ((maskPaths src).flatMap fun a => (maskPaths dst).map fun b => 8 * a + b) ↔
      (src.getLsbD p.val && dst.getLsbD v.val) = true := by
    rw [Bool.and_eq_true, ← mem_maskPaths, ← mem_maskPaths]
    simp only [List.mem_flatMap, List.mem_map]
    refine ⟨fun ⟨a, ha, b, hb, e⟩ => ?_, fun ⟨hp, hv⟩ => ⟨p.val, hp, v.val, hv, rfl⟩⟩
    have hb6 := lt_of_mem_maskPaths hb
    obtain ⟨rfl, rfl⟩ : a = p.val ∧ b = v.val := by omega
    exact ⟨ha, hb⟩
  rw [hfold, vget_foldl_vmod _ _ _ _ (by omega)]
  exact if_congr hmem rfl rfl

/-- A complete fence that stands behind every acquire of its context: it becomes the newest, with its pairs raised. -/
theorem fenceOver_acqs {k : Ctx} {f : OpenFence} (h : ∀ a ∈ k.acqs, textBefore f.epoch f.idx a.epoch a.idx = false) (n : Nat) :
    (k.fenceOver f n).acqs = { epoch := f.epoch, idx := f.idx, acq := k.acq.raise (maskPaths f.src) (maskPaths f.dst) (n + 1) } :: k.acqs := by
  have hlater : (k.acqs.takeWhile fun a => textBefore f.epoch f.idx a.epoch a.idx) = [] := by
    cases hk : k.acqs with
    | nil => rfl
    | cons a r => rw [List.takeWhile_cons, h a (by rw [hk]; exact List.mem_cons_self ..)]; rfl
  unfold Ctx.fenceOver
  dsimp only
  rw [hlater]
  rfl

theorem fenceStep_waits {s : State} {c : CoreId} {x : CtxId} {f : OpenFence} {n : Nat} (hm : f.made = some n) (h : s.fencePerformed c x f n = false) :
    s.fenceStep c x f = s := by
  simp only [State.fenceStep, hm, h, Bool.false_eq_true, if_false]

theorem fenceStep_completes {s : State} {c : CoreId} {x : CtxId} {f : OpenFence} {n : Nat} (hm : f.made = some n)
    (h : s.fencePerformed c x f n = true) : (s.fenceStep c x f).ctx c x = (s.ctx c x).fenceOver f n := by
  simp only [State.fenceStep, hm, h, if_true]
  exact State.ctx_modCtx_self ..

/-! ### A load behind an open fence (R102) -/

theorem holdCode_ne_zero {s : State} {j : Instr} (ht : s.cur.tag = .ctl) (hw : s.ctlWaits j = true) : s.holdCode j ≠ 0 := by
  unfold State.holdCode
  rw [ht, hw]
  dsimp only
  split_ifs <;> simp_all

theorem loadForms_onPaths (d a : SReg) (imm : BitVec 30) {m : BitVec 6} (hm : m.getLsbD 0 = true) :
    ∀ p ∈ loadForms d a imm, onPaths .ctl p.1 m = true := by
  have h0 : m.toNat.testBit 0 = true := hm
  simp [loadForms, onPaths, h0, isLoad]

theorem ctlWaits_fenced {s : State} {f : OpenFence} {j : Instr} (hf : f ∈ s.me.fences) (hp : onPaths .ctl j f.dst = true)
    (hb : textBefore f.epoch f.idx s.me.epoch s.curIdx = true) : s.ctlWaits j = true := by
  have h : s.me.fenced s.curIdx (onPaths .ctl j) = true := List.any_eq_true.2 ⟨f, hf, Bool.and_eq_true_iff.2 ⟨hp, hb⟩⟩
  unfold State.ctlWaits
  exact Bool.or_eq_true_iff.2 (.inl (Bool.or_eq_true_iff.2 (.inl (Bool.or_eq_true_iff.2 (.inr h)))))

/-- Settles O18. -/
theorem phasesAndFences : Obligations.PhasesAndFences := by
  refine ⟨phase_words, fun s src dst => fence_issues s, fun s c x f n _ hm => ⟨fenceStep_waits hm, fun h hlast => ?_⟩, ?_⟩
  · intro t old
    have ht : t.ctx c x = _ := fenceStep_completes hm h
    exact ⟨by rw [ht]; rfl, _, by rw [ht]; exact fenceOver_acqs hlast n, rfl, rfl, rfl, rfl, vget_raise old f.src f.dst (n + 1)⟩
  · intro s f d a imm ht hf hd hb p hp
    exact decide_eq_true (holdCode_ne_zero ht (ctlWaits_fenced hf (loadForms_onPaths d a imm hd p hp) hb))

end Sys2Proof.Machine
end

section
/-! PROOFS. O26: TEND and TSPAWN. A submission reads its descriptor, and its task enters the tables, or the issuer gets a report; the reply is on its
way whichever it is (R103, R306, R308, R315). -/

namespace Sys2Proof.Machine

/-! ### TEND (R315) -/

theorem task?_modTask (s : State) (p n : Nat) {f : Task → Task} (hp : ∀ t, (f t).part = t.part) (hn : ∀ t, (f t).num = t.num) :
    (s.modTask p n f).task? p n = (s.task? p n).map f := by
  have hsame : ((fun t : Task => decide (t.part = p) && decide (t.num = n)) ∘ fun t => if t.part = p && t.num = n then f t else t) =
      fun t : Task => decide (t.part = p) && decide (t.num = n) := by
    funext t
    dsimp only [Function.comp_apply]
    split
    · rw [hp, hn]
    · rfl
  change (s.disp.tasks.map _).find? _ = _
  rw [List.find?_map, hsame]
  change (s.task? p n).map _ = _
  cases ht : s.task? p n with
  | none => rfl
  | some t => exact congrArg some (if_pos (List.find?_some (p := fun t : Task => decide (t.part = p) && decide (t.num = n)) ht))

theorem task?_modTask_draining (s : State) (p n : Nat) :
    (s.modTask p n fun t => { t with phase := .draining }).task? p n = (s.task? p n).map fun t => { t with phase := .draining } :=
  task?_modTask s p n (f := fun t => { t with phase := .draining }) (fun _ => rfl) fun _ => rfl

theorem exec_tend_traps {s : State} (h : s.me.fork.isSome = true) : exec .tend s = .next s.trapRange := by
  change execTend s = _
  rw [execTend, if_pos (by simpa [State.inFork] using h)]

/-- The state after a TEND, but for its task. -/
def State.tended (s : State) : State := s.issued.modMe fun k => { k with draining := true }

theorem exec_tend_issues {s : State} (hf : s.me.fork = none) (h : s.xcmdReady = true) :
    exec .tend s = .next (match s.me.task with
      | some n => s.tended.modTask s.myPart n fun t => { t with phase := .draining }
      | none => s.tended) := by
  change execTend s = _
  rw [execTend, if_neg (by simp [State.inFork, hf]), h]
  rfl

theorem tended_me (s : State) : s.tended.me.draining = true := by
  rw [State.tended, State.me_modMe]

theorem sameData_tended (s : State) : SameData s s.tended := (sameData_issued s).trans (sameData_modMe s.issued _ rfl rfl)

theorem tend_issues {s : State} (hf : s.me.fork = none) (h : s.xcmdReady = true) :
    ∃ t, exec .tend s = .next t ∧ t.me.draining = true ∧ SameData s t ∧
      ∀ n tk, s.me.task = some n → s.task? s.myPart n = some tk → t.task? s.myPart n = some { tk with phase := .draining } := by
  refine ⟨_, exec_tend_issues hf h, ?_⟩
  cases s.me.task with
  | none => exact ⟨tended_me s, sameData_tended s, fun _ _ e => by cases e⟩
  | some m =>
    refine ⟨tended_me s, sameData_tended s, fun n tk e ht => ?_⟩
    obtain rfl := Option.some.inj e
    have hd : s.tended.task? s.myPart m = s.task? s.myPart m := congrArg (fun d : Disp => d.tasks.find? _) s.issued_disp
    dsimp only
    rw [task?_modTask_draining, hd, ht]
    rfl

/-! ### Replies and reports (R103, R317) -/

theorem replies_reply {s t : State} (hr : t.me.replies = s.me.replies) (hc : t.cycle = s.cycle) (d : SReg) (v : Word) :
    Replies s (t.reply d v) d v := by
  refine ⟨{ due := t.freeDelay (t.cycle + 1), dst := d, val := v }, ?_, rfl, rfl, ?_⟩
  · rw [State.reply, State.skipFresh_me, State.me_modMe, hr]
  · rw [hc]
    exact Nat.le_add_right _ _

theorem reply_disp (s : State) (d : SReg) (v : Word) : (s.reply d v).disp = s.disp := rfl

/-- `t` is `s` but for a report and for the marks of the reports. -/
structure Reported (s t : State) : Prop where
  cur : t.cur = s.cur
  cycle : t.cycle = s.cycle
  tasks : t.disp.tasks = s.disp.tasks
  replies : ∀ c x, (t.ctx c x).replies = (s.ctx c x).replies

theorem Reported.trans {s t u : State} (h : Reported s t) (k : Reported t u) : Reported s u :=
  ⟨k.cur.trans h.cur, k.cycle.trans h.cycle, k.tasks.trans h.tasks, fun c x => (k.replies c x).trans (h.replies c x)⟩

theorem Reported.modDp (s : State) (p : Nat) (f : DispPart → DispPart) : Reported s (s.modDp p f) := ⟨rfl, rfl, rfl, fun _ _ => rfl⟩

theorem Reported.pendReport (s : State) (c : CoreId) (x : CtxId) (w : Word) : Reported s (s.pendReport c x w) :=
  ⟨rfl, rfl, rfl, fun c' x' => by
    by_cases h : c' = c ∧ x' = x
    · obtain ⟨rfl, rfl⟩ := h
      rw [State.pendReport, State.ctx_modCtx_self]
      rfl
    · rw [State.pendReport, State.ctx_modCtx_ne _ _ _ _ _ _ h]⟩

theorem Reported.homeReport (s : State) (p code : Nat) : Reported s (s.homeReport p code) := by
  unfold State.homeReport
  dsimp only
  split
  · exact (Reported.modDp ..).trans (Reported.pendReport ..)
  · split <;> exact Reported.modDp ..

theorem Reported.report (s : State) (p code : Nat) (c : CoreId) (x : CtxId) : Reported s (s.report p code (some (c, x))) := by
  unfold State.report
  dsimp only
  split
  · exact Reported.pendReport ..
  · exact Reported.homeReport ..

theorem Reported.me {s t : State} (h : Reported s t) : t.me.replies = s.me.replies := by
  rw [State.me, h.cur]
  exact h.replies _ _

/-! ### TSPAWN (R306, R308) -/

theorem Traffic.readImage (s : State) (c : CoreId) (x : CtxId) (addr : Word) (n align : Nat) : Traffic s (s.readImage c x addr n align).2 := by
  unfold State.readImage
  split
  · exact Traffic.refl s
  · split
    · exact Traffic.refl s
    · next i _ =>
      have h := Traffic.readVa s (ctlUnit c x) none 0 s.acqNow true addr.toNat (i.base + haddrO addr.toNat) n
      split <;> next e => rw [e] at h; exact h

theorem exec_tspawn {s : State} (h : s.xcmdReady = true) (d a : SReg) :
    exec (.tspawn d a) s = .next
      ((s.issued.submit s.cur.core s.cur.ctx s.myPart (s.rdS a) false s.myTask (some (s.cur.core, s.cur.ctx))).2.reply d
        (BitVec.ofNat 64 (s.issued.submit s.cur.core s.cur.ctx s.myPart (s.rdS a) false s.myTask (some (s.cur.core, s.cur.ctx))).1)) := by
  change execTspawn d a s = _
  rw [execTspawn, h]
  rfl

/-- A submission without a descriptor, or with one that does not pass its checks, is reported. -/
theorem submit_refused {s u : State} {c : CoreId} {x : CtxId} {p : Nat} {addr : Word} {byFatt : Bool}
    (h : s.readImage c x addr 64 64 = (none, u) ∨ ∃ bs, s.readImage c x addr 64 64 = (some bs, u) ∧ u.descOk c x p bs byFatt = false)
    (issuer : Nat) (dest : Option (CoreId × CtxId)) : s.submit c x p addr byFatt issuer dest = (0, u.report p 5 dest) := by
  rcases h with h | ⟨bs, h, hok⟩
  · simp only [State.submit, h]
  · simp only [State.submit, h, State.submitImage, hok, Bool.not_false, if_true]

/-- The log of an operation outside replay is traffic. -/
theorem dispLog_plain {s : State} {p : Nat} (h : (s.part p).replay = none) (kind issuer task : Nat) (arg : Word) (digest desc : List Byte) :
    ∃ t, s.dispLog p kind issuer task arg digest desc = (true, t) ∧ Traffic s t := by
  simp only [State.dispLog, h]
  exact ⟨_, rfl, Traffic.ite _ (Traffic.refl s) (Traffic.logAppend ..)⟩

/-- A new task in the tables of `s`, in the ready pool. -/
def State.entered (s : State) (p : Nat) (tk : Task) : State :=
  let s1 := s.modDp p fun d => { d with nextTask := d.nextTask + 1 }
  ({ s1 with disp := { s1.disp with tasks := s1.disp.tasks ++ [tk] } } : State).makeReady p tk.num tk.prio

theorem entered_me (s : State) (p : Nat) (tk : Task) : (s.entered p tk).me = s.me := rfl

theorem entered_cycle (s : State) (p : Nat) (tk : Task) : (s.entered p tk).cycle = s.cycle := rfl

theorem entered_task {s : State} {p : Nat} {tk : Task} (hp : tk.part = p) :
    ∃ tk' ∈ (s.entered p tk).disp.tasks, tk'.part = p ∧ tk'.num = tk.num ∧ tk'.phase = .ready ∧ tk'.desc = tk.desc := by
  refine ⟨_, List.mem_map_of_mem (List.mem_append_right _ (List.mem_singleton.2 rfl)), ?_⟩
  rw [if_pos (by simp [hp])]
  exact ⟨hp, rfl, rfl, rfl⟩

theorem entered_nextTask (s : State) {p : Nat} (hp : p < 16) (tk : Task) : ((s.entered p tk).dp p).nextTask = (s.dp p).nextTask + 1 :=
  congrArg DispPart.nextTask (vget_vmod_self s.disp.parts p _ DispPart.reset hp)

theorem taskOf_fields (p num : Nat) (bs : List Byte) (addr : Word) (issuer : Nat) (byFatt : Bool) :
    (taskOf p num bs addr issuer byFatt).part = p ∧ (taskOf p num bs addr issuer byFatt).num = num ∧
      (taskOf p num bs addr issuer byFatt).desc = bs := ⟨rfl, rfl, rfl⟩

/-- A submission that passes its checks enters the tables. -/
theorem submit_accepted {s u : State} {c : CoreId} {x : CtxId} {p : Nat} {addr : Word} {bs : List Byte}
    (h : s.readImage c x addr 64 64 = (some bs, u)) (hok : u.descOk c x p bs false = true) (hpool : u.poolUse p < (u.dp p).pool)
    (hr : (u.part p).replay = none) (issuer : Nat) (dest : Option (CoreId × CtxId)) :
    ∃ v, Traffic u v ∧ s.submit c x p addr false issuer dest =
      ((u.dp p).nextTask, v.entered p (taskOf p (u.dp p).nextTask bs addr issuer false)) := by
  obtain ⟨v, hv, ht⟩ := dispLog_plain hr 2 issuer (u.dp p).nextTask 0 [] bs
  refine ⟨v, ht, ?_⟩
  simp only [State.submit, h, State.submitImage, hok, Bool.not_true, Bool.false_eq_true, if_false, Nat.not_le.2 hpool, hv]
  rfl

/-- What a descriptor's read leaves of the issuing context. -/
theorem readImage_issued {s u : State} {addr : Word} {r : Option (List Byte)}
    (h : s.issued.readImage s.cur.core s.cur.ctx addr 64 64 = (r, u)) : u.me.replies = s.me.replies ∧ u.cycle = s.cycle := by
  have ht := Traffic.readImage s.issued s.cur.core s.cur.ctx addr 64 64
  rw [h] at ht
  exact ⟨ht.replies.trans s.issued_me_replies, ht.cycle.trans s.issued_cycle⟩

theorem tspawn_accepted {s u : State} (hx : s.xcmdReady = true) (d a : SReg) {bs : List Byte}
    (h : s.issued.readImage s.cur.core s.cur.ctx (s.rdS a) 64 64 = (some bs, u)) (hok : u.descOk s.cur.core s.cur.ctx s.myPart bs false = true)
    (hpool : u.poolUse s.myPart < (u.dp s.myPart).pool) (hr : (u.part s.myPart).replay = none) (hp : s.myPart < 16) :
    ∃ t tk, exec (.tspawn d a) s = .next t ∧ Replies s t d (BitVec.ofNat 64 (u.dp s.myPart).nextTask) ∧ tk ∈ t.disp.tasks ∧ tk.part = s.myPart ∧
      tk.num = (u.dp s.myPart).nextTask ∧ tk.phase = .ready ∧ tk.desc = bs ∧ (t.dp s.myPart).nextTask = (u.dp s.myPart).nextTask + 1 := by
  obtain ⟨hur, huc⟩ := readImage_issued h
  obtain ⟨v, hv, hs⟩ := submit_accepted h hok hpool hr s.myTask (some (s.cur.core, s.cur.ctx))
  have hdp : v.dp s.myPart = u.dp s.myPart := congrArg (fun q : Disp => vget q.parts s.myPart DispPart.reset) hv.disp
  obtain ⟨hpT, hnT, hdT⟩ := taskOf_fields s.myPart (u.dp s.myPart).nextTask bs (s.rdS a) s.myTask false
  generalize taskOf s.myPart (u.dp s.myPart).nextTask bs (s.rdS a) s.myTask false = T at hs hpT hnT hdT
  obtain ⟨tk, hmem, hpart, hnum, hphase, hdesc⟩ := entered_task (s := v) hpT
  have hnext := entered_nextTask v hp T
  have hreply := replies_reply (t := v.entered s.myPart T) (s := s) (by rw [entered_me, hv.replies, hur]) (by rw [entered_cycle, hv.cycle, huc]) d
    (BitVec.ofNat 64 (u.dp s.myPart).nextTask)
  refine ⟨_, tk, exec_tspawn hx d a, ?_⟩
  rw [hs]
  refine ⟨hreply, ?_, hpart, hnum.trans hnT, hphase, hdesc.trans hdT, ?_⟩
  · rw [reply_disp]
    exact hmem
  · rw [State.dp, reply_disp]
    exact hnext.trans (by rw [hdp])

theorem tspawn_refused {s u : State} (hx : s.xcmdReady = true) (d a : SReg)
    (h : s.issued.readImage s.cur.core s.cur.ctx (s.rdS a) 64 64 = (none, u) ∨
      ∃ bs, s.issued.readImage s.cur.core s.cur.ctx (s.rdS a) 64 64 = (some bs, u) ∧ u.descOk s.cur.core s.cur.ctx s.myPart bs false = false) :
    ∃ t, exec (.tspawn d a) s = .next t ∧ Replies s t d 0 ∧ t.disp.tasks = u.disp.tasks := by
  obtain ⟨hur, huc⟩ : u.me.replies = s.me.replies ∧ u.cycle = s.cycle := by
    rcases h with h | ⟨bs, h, -⟩ <;> exact readImage_issued h
  have hrep := Reported.report u s.myPart 5 s.cur.core s.cur.ctx
  refine ⟨_, exec_tspawn hx d a, ?_⟩
  rw [submit_refused h]
  exact ⟨replies_reply (hrep.me.trans hur) (hrep.cycle.trans huc) d _, hrep.tasks⟩

/-- Settles O26. -/
theorem tasksSpawnAndEnd : Obligations.TasksSpawnAndEnd := by
  refine ⟨fun s => ⟨tend_issues, fun hf hl => ⟨_, exec_tend_traps hf, trapped_range hl⟩⟩, fun s u d a hx => ⟨?_, tspawn_refused hx d a⟩⟩
  intro bs h hok hpool hr hp
  exact tspawn_accepted hx d a h hok hpool hr hp

end Sys2Proof.Machine
end

section
/-! PROOFS. O59: reset and the boot ROM (R366, R369). The statement reads the reset state field by field, and the ROM's two outcomes by the answer
of `fwCheck`. -/

namespace Sys2Proof.Machine

/-! ### The reset state (R369) -/

theorem reset_core (c : CoreId) :
    State.reset.core c = if c = 0 then { Core.reset with ctxs := Core.reset.ctxs.set 0 Ctx.boot } else Core.reset := by
  change ((Vector.replicate 128 Core.reset).set 0 _)[c.val] = _
  rw [Vector.getElem_set, Vector.getElem_replicate]
  exact if_congr ⟨fun h => Fin.ext h.symm, fun h => (congrArg Fin.val h).symm⟩ rfl rfl

theorem coreReset_ctx (x : CtxId) : Core.reset.ctx x = Ctx.reset := Vector.getElem_replicate ..

theorem reset_ctx (c : CoreId) (x : CtxId) : State.reset.ctx c x = if c = 0 ∧ x = 0 then Ctx.boot else Ctx.reset := by
  rw [State.ctx, reset_core]
  by_cases hc : c = 0
  · rw [if_pos hc]
    change (Core.reset.ctxs.set 0 Ctx.boot)[x.val] = _
    rw [Vector.getElem_set]
    exact if_congr ⟨fun h => ⟨hc, Fin.ext h.symm⟩, fun h => (congrArg Fin.val h.2).symm⟩ rfl (coreReset_ctx x)
  · rw [if_neg hc, if_neg fun h => hc h.1, coreReset_ctx]

theorem reset_grant (c : CoreId) (x : CtxId) : (State.reset.grant c x).v = false := by
  have h : (State.reset.core c).grants = Core.reset.grants := by
    rw [reset_core]
    split <;> rfl
  rw [State.grant, h]
  exact congrArg Grant.v (Vector.getElem_replicate ..)

theorem reset_flag (c : CoreId) (f : FlagNo) : (State.reset.core c).flags[f] = 0 := by
  have h : (State.reset.core c).flags = Core.reset.flags := by
    rw [reset_core]
    split <;> rfl
  rw [h]
  exact Vector.getElem_replicate ..

theorem reset_part (p : PartId) : (State.reset.part p.val).state = 0 := by
  revert p
  decide

theorem reset_context (c : CoreId) (x : CtxId) :
    (State.reset.ctx c x).phase = (if c = 0 ∧ x = 0 then .running else .empty) ∧ (State.reset.grant c x).v = false ∧
      (State.reset.ctx c x).slipwin = 256 ∧ (State.reset.ctx c x).saecfg = 7 ∧ (State.reset.ctx c x).obsLsz = 12 ∧
      (State.reset.ctx c x).pl = if c = 0 ∧ x = 0 then 3 else 0 := by
  rw [reset_ctx]
  by_cases h : c = 0 ∧ x = 0
  · simp only [h]
    exact ⟨rfl, reset_grant 0 0, rfl, rfl, rfl, rfl⟩
  · simp only [h, if_false]
    exact ⟨rfl, reset_grant c x, rfl, rfl, rfl, rfl⟩

/-! ### The boot ROM (R366, R369) -/

theorem sget_ssetBytes (m : Mem) (a : Nat) (bs : List Byte) (b : Nat) :
    sget (ssetBytes m a bs) b = if a ≤ b ∧ b < a + bs.length then bs.getD (b - a) 0 else sget m b := by
  induction bs generalizing m a with
  | nil => rw [if_neg (by simp only [List.length_nil]; omega)]; rfl
  | cons v r ih =>
    rw [ssetBytes, ih, sget_sset, List.length_cons]
    rcases Nat.lt_trichotomy b a with h | rfl | h
    · rw [if_neg (by omega), if_neg (by omega), if_neg (by omega)]
    · rw [if_neg (by omega), if_pos rfl, if_pos (by omega), Nat.sub_self, List.getD_cons_zero]
    · rw [if_neg (by omega : ¬b = a), show b - a = b - (a + 1) + 1 by omega, List.getD_cons_succ]
      exact if_congr (by omega) rfl rfl

theorem length_of_fwCheck {bs : List Byte} (h : fwCheck bs = 0) : 192 ≤ bs.length := by
  unfold fwCheck at h
  split at h
  · cases h
  · omega

theorem fwImage_body {bs : List Byte} {i : Nat} (h : i + 192 < bs.length) : sget (ssetBytes [] 0 (fwImage bs).body) i = bs.getD i 0 := by
  have hlen : (fwImage bs).body.length = bs.length - 192 := by simp [fwImage]
  rw [sget_ssetBytes, hlen, if_pos (by omega)]
  simp [fwImage, show i < bs.length - 192 by omega, show i < bs.length by omega]

theorem fwImage_ver {bs : List Byte} (h : 192 ≤ bs.length) : (fwImage bs).ver = leNat (bs.drop (bs.length - 8)) % 2 ^ 32 := by
  simp only [fwImage, List.drop_drop]
  rw [show bs.length - 192 + 184 = bs.length - 8 by omega]

theorem romBoot_accepted {s : State} (h : fwCheck s.host.flash = 0) : s.romBoot = s.powerOn.enterFirmware s.host.flash false := if_pos h

theorem romBoot_refused {s : State} (h : fwCheck s.host.flash ≠ 0) :
    s.romBoot = { s.powerOn with host := { s.powerOn.host with booterr := fwCheck s.host.flash } } := if_neg h

theorem enterFirmware_ctx (s : State) (bs : List Byte) (src : Bool) :
    ((s.enterFirmware bs src).ctx 0 0).phase = .running ∧ ((s.enterFirmware bs src).ctx 0 0).pl = 3 ∧
      ((s.enterFirmware bs src).ctx 0 0).walk.pc = 0 := by
  unfold State.enterFirmware
  dsimp only
  rw [State.ctx_modCtx_self]
  exact ⟨rfl, rfl, rfl⟩

theorem enterFirmware_mem (s : State) (bs : List Byte) (src : Bool) : (s.enterFirmware bs src).mem = ssetBytes [] 0 (fwImage bs).body := by
  unfold State.enterFirmware
  dsimp only
  rw [State.modCtx_mem]

theorem enterFirmware_host (s : State) (bs : List Byte) (src : Bool) :
    (s.enterFirmware bs src).host.fwver = (fwImage bs).ver ∧ (s.enterFirmware bs src).host.bootsrc = src := by
  unfold State.enterFirmware
  exact ⟨rfl, rfl⟩

/-- Settles O59. -/
theorem resetAndBoot : Obligations.ResetAndBoot := by
  refine ⟨⟨rfl, rfl⟩, by decide, reset_context, reset_part, reset_flag, fun s => ⟨rfl, s.romBoot, rfl, ?_⟩⟩
  by_cases h : fwCheck s.host.flash = 0
  · rw [if_pos h, romBoot_accepted h]
    obtain ⟨hphase, hpl, hpc⟩ := enterFirmware_ctx s.powerOn s.host.flash false
    obtain ⟨hver, hsrc⟩ := enterFirmware_host s.powerOn s.host.flash false
    refine ⟨hphase, hpl, hpc, fun i hi => ?_, hver.trans (fwImage_ver (length_of_fwCheck h)), hsrc⟩
    rw [State.byte, enterFirmware_mem, fwImage_body hi]
  · rw [if_neg h, romBoot_refused h]
    refine ⟨rfl, rfl, rfl, fun c x hcx => ?_⟩
    exact (congrArg Ctx.phase (reset_ctx c x)).trans (by rw [if_neg hcx]; rfl)

end Sys2Proof.Machine
end

section
/-! PROOFS. O15: the format block. An access that names a format register finds it without a lookup, in a bank that the block has; a load is one
register write, and a store changes one format register (R127, R128). -/

namespace Sys2Proof.Machine

/-! ### Format registers (R127) -/

theorem fmtReg_setFmtReg (k : Core) (b v : Nat) {bank : Nat} (h : bank < 16) : (k.setFmtReg b bank v).fmtReg b bank = v := by
  unfold Core.setFmtReg Core.fmtReg
  by_cases h1 : b = 1
  · simp [h1, h]
  · by_cases h2 : b = 2 <;> simp [h1, h2, h]

theorem setFmtReg_ctxs (k : Core) (b bank v : Nat) : (k.setFmtReg b bank v).ctxs = k.ctxs := by
  unfold Core.setFmtReg
  split_ifs <;> rfl

/-! ### Accesses that reach the block (R128) -/

theorem dramTarget_ne_fmtBlock (s : State) (haddr va size o : Nat) (d : Dir) : (s.dramTarget haddr va size d).1 ≠ .fmtBlock o := by
  unfold State.dramTarget
  dsimp only
  split
  · nofun
  · split
    · nofun
    · split <;> nofun

/-- Only handle 4095 reaches the block, and its lookup takes no table and no translation. -/
theorem state_of_target_fmtBlock {s u : State} {a : Word} {imm : BitVec 30} {n o : Nat} {wr : Bool} (h : s.target a imm n wr = (.fmtBlock o, u)) :
    u = s := by
  unfold State.target at h
  dsimp only at h
  split at h
  · cases h
  split at h
  · cases h
  split at h
  · exact (congrArg Prod.snd h).symm
  split at h
  · exact (congrArg Prod.snd h).symm
  split at h
  · cases h
  · cases h
  split at h
  · cases h
  split at h
  · exact (dramTarget_ne_fmtBlock _ _ _ _ _ _ (congrArg Prod.fst h)).elim
  split at h
  · split at h <;> cases h
  · cases h

/-- The slot of an offset is a bank of its buffer. -/
theorem fmtSlot_bank_lt (o : Nat) : (fmtSlot o).2 < 16 := by
  unfold fmtSlot
  omega

section
variable {s u : State} {d a : SReg} {imm : BitVec 30} {o : Nat}

theorem load_fmtBlock (h : s.target (s.rdS a) imm 8 false = (.fmtBlock o, u)) (hs : s.me.stores = []) (signed : Bool) :
    ∃ t, s.load 8 signed d a imm = .next t ∧ RegWrite s t d (BitVec.ofNat 64 (s.myCore.fmtReg (fmtSlot o).1 (fmtSlot o).2)) := by
  obtain rfl := state_of_target_fmtBlock h
  simp only [State.load, h, hs]
  exact ⟨_, rfl, regWrite_issued _ d _⟩

theorem load_fmtBlock_waits (h : s.target (s.rdS a) imm 8 false = (.fmtBlock o, u)) (hs : s.me.stores ≠ []) (signed : Bool) :
    s.load 8 signed d a imm = .next s := by
  simp [State.load, h, hs, State.hold]

section
variable (h : s.target (s.rdS a) imm 8 true = (.fmtBlock o, u))
include h

theorem store_fmtBlock (hv : fmtRegOk (fmtSlot o).1 (s.rdS d).toNat = true) (hs : s.me.stores = []) (hl : s.me.loads = []) :
    ∃ t, s.store 8 d a imm = .next t ∧ t.myCore.fmtReg (fmtSlot o).1 (fmtSlot o).2 = (s.rdS d).toNat ∧ SameData s t := by
  obtain rfl := state_of_target_fmtBlock h
  simp only [State.store, h, hv, hs, hl]
  refine ⟨_, rfl, ?_, (sameData_issued _).trans (sameData_modMyCore _ _ (setFmtReg_ctxs ..))⟩
  rw [State.myCore_modMyCore]
  exact fmtReg_setFmtReg _ _ _ (fmtSlot_bank_lt o)

theorem store_fmtBlock_waits (hv : fmtRegOk (fmtSlot o).1 (s.rdS d).toNat = true) (hp : s.me.stores ≠ [] ∨ s.me.loads ≠ []) :
    s.store 8 d a imm = .next s := by
  have hwait : (!(s.me.stores.isEmpty && s.me.loads.isEmpty)) = true := by
    rcases hp with hp | hp <;> simp [hp]
  simp [State.store, h, hv, hwait, State.hold]

theorem store_fmtBlock_refused (hv : fmtRegOk (fmtSlot o).1 (s.rdS d).toNat = false) : s.store 8 d a imm = .next s.trapRange := by
  simp [State.store, h, hv]
end
end

/-- Settles O15. -/
theorem formatBlockAccess : Obligations.FormatBlockAccess := by
  intro s u d a imm o
  exact ⟨fun h => ⟨fun hs => load_fmtBlock h hs true, fun hs => load_fmtBlock_waits h hs true⟩,
    fun h hv => ⟨store_fmtBlock h hv, store_fmtBlock_waits h hv⟩,
    fun h hv hl => ⟨_, store_fmtBlock_refused h hv, trapped_range hl⟩⟩

end Sys2Proof.Machine
end

section
/-! PROOFS. O44, refuted: an MDRAIN whose tensors are empty moves no row, and under sr it leaves VRCTR where it was (R194, R205). -/

namespace Sys2Proof.Machine

/-- Empty .f32 tensors (D0 = 0) of one row: h1 in ABUF, h2 in CBUF. -/
def emptyDrain : State := asTag .mtx <| st fun k =>
  { k with h := (k.h.set 1 (hOf [(11, 1), (10, 0x10), (5, 1)])).set 2 (hOf [(11, 2), (10, 0x10), (5, 1)]) }

/-- MDRAIN h1, h2 without a completion flag. -/
def emptyDrainOp : HOp := { hd := 1, ha := 2, hb := 0, ac := 0, fe := false, flag := 0, ue := false, fs := 0 }

/-- The word with RM sr is legal, and it passes the checks of R205 with D1 = 1. -/
theorem emptyDrain_passes : illegal (.mdrain emptyDrainOp 4) = none ∧
    (emptyDrain.myCore.dPlan emptyDrain.myGrant (emptyDrain.rdH emptyDrainOp.hd) (emptyDrain.rdH emptyDrainOp.ha)).map
      (fun p => (p.1.d0, p.2.d0, p.2.d1)) = some (0, 0, 1) := by decide +kernel

/-- No row is drained, and VRCTR keeps its 0. -/
theorem emptyDrain_vrctr : ∀ t, exec (.mdrain emptyDrainOp 4) emptyDrain = .next t → t.me.vrctr = 0 := by
  have h : (match exec (.mdrain emptyDrainOp 4) emptyDrain with | .next t => decide (t.me.vrctr = 0) | _ => false) = true := by decide +kernel
  intro t ht
  rw [ht] at h
  exact of_decide_eq_true h

/-- Refutes O44: the second clause has VRCTR advance by D1 whatever the sizes; in `emptyDrain` its hypotheses hold with D1 = 1 and D0 = 0, and no
row draws a value. -/
theorem not_matrixZeroDrainComplete : ¬Obligations.MatrixZeroDrainComplete := by
  intro h
  obtain ⟨-, hdrain, -⟩ := h emptyDrain emptyDrainOp 4 0
  obtain ⟨-, hplan⟩ := emptyDrain_passes
  obtain ⟨⟨d, z⟩, hp, hsize⟩ := Option.map_eq_some_iff.1 hplan
  have hd1 : z.d1 = 1 := congrArg (fun n : Nat × Nat × Nat => n.2.2) hsize
  obtain ⟨t, m, ht, -, -, -, -, -, -, -, -, hctr⟩ := hdrain d z (by decide) (by decide) hp
  rw [emptyDrain_vrctr t ht, hd1] at hctr
  exact absurd hctr (by decide)

end Sys2Proof.Machine
end

section
/-! PROOFS. O39: vector words that move, select, shift and permute. A word on quiet registers reads each source as its register's
elements (`State.lane`) and puts one result in flight for register D (`vecWrites_of`); each word is its element function (R139, R141, R168). -/

namespace Sys2Proof.Machine

/-! ### A register as the elements of a type (R131) -/

/-- The elements of register `r` as a word of type `t` reads it. -/
def State.lane (s : State) (t : Nat) (r : Fin 64) : List Nat := elems (vget s.myCore.v r.val 0) (typeWidth t) (elemCount t)

@[simp] theorem length_lane (s : State) (t : Nat) (r : Fin 64) : (s.lane t r).length = elemCount t := by simp [State.lane, elems]

theorem elem_lt (s : State) (w : Nat) (r : Fin 64) (e : Nat) : s.elem w r e < 2 ^ w := Nat.mod_lt _ (Nat.two_pow_pos w)

/-- The elements of a type fill a register. -/
theorem typeWidth_mul_elemCount (t : Nat) : typeWidth t = 0 ∨ typeWidth t * elemCount t = 4096 := by
  have hpow : ∀ w ∈ [4, 8, 16, 32, 64], w * (4096 / w) = 4096 := by decide
  exact (typeWidth_mem t).imp_right (hpow _)

/-- From its number of elements up a register holds nothing. -/
theorem elem_eq_zero (s : State) {t e : Nat} (r : Fin 64) (he : elemCount t ≤ e) : s.elem (typeWidth t) r e = 0 := by
  rcases typeWidth_mul_elemCount t with h | h
  · exact Nat.lt_one_iff.1 ((elem_lt s _ r e).trans_eq (by rw [h, pow_zero]))
  · have hout : 4096 ≤ typeWidth t * e := h ▸ Nat.mul_le_mul_left _ he
    rw [State.elem, sliceAt, Nat.div_eq_of_lt (BitVec.toNat_lt_twoPow_of_le hout), Nat.zero_mod]

theorem getD_lane (s : State) (t : Nat) (r : Fin 64) (e : Nat) : (s.lane t r).getD e 0 = s.elem (typeWidth t) r e := by
  by_cases he : e < elemCount t
  · simp [State.lane, elems, List.getD_eq_getElem?_getD, he, State.elem]
  · rw [elem_eq_zero s r (Nat.not_lt.1 he), List.getD_eq_default _ _ (by simpa using he)]

theorem elAt_lanes (s : State) (t : Nat) {srcs : List (Fin 64)} {j : Nat} {r : Fin 64} (h : srcs[j]? = some r) :
    elAt (srcs.map (s.lane t)) j = s.elem (typeWidth t) r := by
  funext e
  rw [elAt, List.getD_eq_getElem?_getD (i := j), List.getElem?_map, h]
  exact getD_lane s t r e

theorem getD_map_range {n e : Nat} (he : e < n) (g : Nat → Nat × Nat) : ((List.range n).map g).getD e (0, 0) = g e := by
  simp [List.getD_eq_getElem?_getD, he]

/-- A function of each element of a register, and of the elements of two. -/
theorem map1_lane (s : State) {t e : Nat} (r : Fin 64) (he : e < elemCount t) (g : Nat → Nat → Nat × Nat) :
    (map1 g [s.lane t r]).getD e (0, 0) = g e (s.elem (typeWidth t) r e) := by
  rw [map1_eq (n := elemCount t) (by simp), getD_map_range he, ← getD_lane]
  rfl

theorem map2_lane (s : State) {t e : Nat} (r q : Fin 64) (he : e < elemCount t) (g : Nat → Nat → Nat → Nat × Nat) :
    (map2 g [s.lane t r, s.lane t q]).getD e (0, 0) = g e (s.elem (typeWidth t) r e) (s.elem (typeWidth t) q e) := by
  rw [map2_eq (n := elemCount t) (by simp) (by simp), getD_map_range he, ← getD_lane, ← getD_lane]
  rfl

theorem at0_lane (s : State) (t : Nat) (r : Fin 64) : at0 (s.lane t r) = s.elem (typeWidth t) r := funext (getD_lane s t r)

/-! ### What a word on quiet registers computes with -/

theorem vecOut_quiet {s : State} {v : VOp} {w : VWord} (hq : s.vecQuiet v w) (f : VEnv → List (List Nat) → List (Nat × Nat)) :
    s.vecOut w f = f (s.vecEnv w) (w.lists (w.srcs.map fun r => vget s.myCore.v r.val 0)) := by
  rw [State.vecOut, vecQuiet_read hq]

theorem vecEnv_ms {s : State} {v : VOp} {w : VWord} (hq : s.vecQuiet v w) : (s.vecEnv w).ms = w.masks.map s.maskOf :=
  List.map_congr_left fun _ hm => readK_eq_maskOf (hq.masks _ (List.mem_cons_of_mem _ hm))

/-- A word that reads the registers `srcs`, each in elements of its type. -/
structure VWord.Reads (w : VWord) (v : VOp) (srcs : List (Fin 64)) : Prop where
  srcs : w.srcs = srcs
  count : w.n = elemCount v.t.val
  width : w.sw = typeWidth v.t.val
  rho : w.rho = 1

theorem VWord.Reads.lists {w : VWord} {v : VOp} {srcs : List (Fin 64)} (h : w.Reads v srcs) (s : State) :
    w.lists (w.srcs.map fun r => vget s.myCore.v r.val 0) = srcs.map (s.lane v.t.val) := by
  rw [VWord.lists, h.rho, if_neg (by decide), List.map_map, h.srcs, h.count, h.width]
  rfl

theorem reads_vShape (v : VOp) (srcs : List (Fin 64)) (lat : Nat) : (vShape v srcs lat).Reads v srcs := ⟨rfl, rfl, rfl, rfl⟩

/-! ### A word that writes register D (R133) -/

/-- A word that reads the registers `srcs` and, after a fixed latency, writes register D, all in elements of its type. -/
structure VWord.Moves (w : VWord) (v : VOp) (srcs : List (Fin 64)) : Prop extends w.Reads v srcs where
  dsts : w.dsts = [v.d]
  out : w.w = typeWidth v.t.val
  sli : w.sli = none
  lat : 0 < w.lat

theorem moves_vShape (v : VOp) (srcs : List (Fin 64)) {lat : Nat} (h : 0 < lat) : (vShape v srcs lat).Moves v srcs :=
  ⟨reads_vShape v srcs lat, rfl, rfl, rfl, lat_vShape_pos v srcs h⟩

/-- The result for a word's only destination holds its results where the mask is on. -/
theorem vecRes_element {s : State} {v : VOp} {w : VWord} {srcs : List (Fin 64)} (hq : s.vecQuiet v w) (hm : w.Moves v srcs) (rule : FlagRule)
    (kbit : Nat × Nat → Bool) (out : List (Nat × Nat)) {e : Nat} (he : e < w.n) :
    let p := s.vecRes v w rule kbit out (v.d, 0) 0
    ((s.maskOf v.k.val).getLsbD e = true → sliceAt p.val (w.w * e) w.w = (out.getD e (0, 0)).1 % 2 ^ w.w ∧
      sliceAt p.wmask (w.w * e) w.w = 2 ^ w.w - 1) ∧
    ((s.maskOf v.k.val).getLsbD e = false → sliceAt p.wmask (w.w * e) w.w = 0) := by
  have hreg : (specQ v.d).isSome = false := by simp [specQ, Nat.not_le.2 (hq.dsts v.d (hm.dsts ▸ List.mem_cons_self)).1]
  have hfit : w.n / 1 * w.w ≤ 4096 := by rw [Nat.div_one, hm.count, hm.out]; exact Nat.div_mul_le_self ..
  simpa [State.vecRes, hreg, hm.dsts, readK_eq_maskOf (hq.masks _ List.mem_cons_self)] using
    packDst_lane hfit (s.maskOf v.k.val) 0 out (he.trans_eq (Nat.div_one _).symm)

section
variable {i : Instr} {v : VOp} {w : VWord} {srcs : List (Fin 64)} {rule : FlagRule} {kbit : Nat × Nat → Bool} (hword : vecWord i = some w)
  (hm : w.Moves v srcs)
include hword hm

/-- Such a word writes what its function makes of the lanes of its sources and of its masks. -/
theorem vecWrites_of {val : (Fin 64 → Nat → Nat) → (Nat → Mask) → Nat → Nat} {f : VEnv → List (List Nat) → List (Nat × Nat)}
    (hexec : ∀ s : State, illegal i = none → exec i s = s.vecRun v w rule kbit f)
    (hval : ∀ (s : State) (env : VEnv) (e : Nat), env.ms = w.masks.map s.maskOf → e < elemCount v.t.val →
      ((f env (srcs.map (s.lane v.t.val))).getD e (0, 0)).1 % 2 ^ typeWidth v.t.val = val (s.elem (typeWidth v.t.val)) s.maskOf e) :
    VecWrites i v val := by
  intro s w' hi hw' hq
  obtain rfl : w = w' := Option.some.inj (hword.symm.trans hw')
  have hlat : w.latency (w.lists (s.issued.readVs w.srcs).1) (s.vecOut w f) v.rm.val = w.lat := by rw [VWord.latency, hm.sli]
  refine ⟨_, s.vecRes v w rule kbit (s.vecOut w f) (v.d, 0) 0, (hexec s hi).trans (vecRun_quiet hq rule kbit f), ?_, rfl, rfl,
    Nat.lt_add_of_pos_right (hlat ▸ hm.lat), fun e he => ?_⟩
  · rw [vpend_vecSent hq (hm.dsts ▸ List.nodup_singleton _) (hm.dsts ▸ List.cons_ne_nil _ _), hm.dsts]
    rfl
  · obtain ⟨hon, hoff⟩ := vecRes_element hq hm rule kbit (s.vecOut w f) he
    refine ⟨fun h => ⟨(hon h).1.trans ?_, (hon h).2⟩, hoff⟩
    rw [vecOut_quiet hq, hm.lists, hm.out]
    exact hval s _ e (vecEnv_ms hq) (hm.count ▸ he)

end

section
variable {i : Instr} {v : VOp} {rule : FlagRule} {kbit : Nat × Nat → Bool} {lat : Nat} (hlat : 0 < lat)
include hlat

/-- A word whose results are values made of the elements of its sources, each an element again. -/
theorem vecWrites_values {srcs : List (Fin 64)} {val : (Fin 64 → Nat → Nat) → Nat → Nat} {f : List (List Nat) → List (Nat × Nat)}
    (hword : vecWord i = some (vShape v srcs lat))
    (hexec : ∀ s : State, illegal i = none → exec i s = s.vecRun v (vShape v srcs lat) rule kbit fun _ xs => f xs)
    (hf : ∀ (s : State) (e : Nat), e < elemCount v.t.val →
      (f (srcs.map (s.lane v.t.val))).getD e (0, 0) = (val (s.elem (typeWidth v.t.val)) e, 0))
    (hlt : ∀ el : Fin 64 → Nat → Nat, (∀ r e, el r e < 2 ^ typeWidth v.t.val) → ∀ e, val el e < 2 ^ typeWidth v.t.val) :
    VecWrites i v fun el _ e => val el e :=
  vecWrites_of hword (moves_vShape v srcs hlat) hexec fun s _ e _ he => by
    rw [hf s e he]
    exact Nat.mod_eq_of_lt (hlt _ (elem_lt s _) e)

/-- A word that applies a function to each element of register A. -/
theorem vecWrites_map1 {g : Nat → Nat} (hword : vecWord i = some (vShape v [v.a] lat))
    (hexec : ∀ s : State, illegal i = none → exec i s = s.vecRun v (vShape v [v.a] lat) rule kbit fun _ xs => map1 (fun _ a => (g a, 0)) xs)
    (hg : ∀ a < 2 ^ typeWidth v.t.val, g a < 2 ^ typeWidth v.t.val) : VecWrites i v fun el _ e => g (el v.a e) :=
  vecWrites_values (val := fun el e => g (el v.a e)) hlat hword hexec (fun s _ he => map1_lane s v.a he _) fun _ h e => hg _ (h v.a e)

/-- A word that applies a function to each element of register A and the one of register B. -/
theorem vecWrites_map2 {g : Nat → Nat → Nat} (hword : vecWord i = some (vShape v [v.a, v.b] lat))
    (hexec : ∀ s : State, illegal i = none →
      exec i s = s.vecRun v (vShape v [v.a, v.b] lat) rule kbit fun _ xs => map2 (fun _ a b => (g a b, 0)) xs)
    (hg : ∀ a < 2 ^ typeWidth v.t.val, ∀ b < 2 ^ typeWidth v.t.val, g a b < 2 ^ typeWidth v.t.val) :
    VecWrites i v fun el _ e => g (el v.a e) (el v.b e) :=
  vecWrites_values (val := fun el e => g (el v.a e) (el v.b e)) hlat hword hexec (fun s _ he => map2_lane s v.a v.b he _)
    fun _ h e => hg _ (h v.a e) _ (h v.b e)

end

/-! ### Shifts (R141) -/

theorem shiftElem_left (w a n : Nat) : shiftElem 0 w a n = a * 2 ^ n % 2 ^ w := by
  rw [shiftElem, if_pos rfl]
  split
  case isTrue h => rw [Nat.mod_eq_zero_of_dvd ((Nat.pow_dvd_pow 2 h).mul_left a)]
  case isFalse => rfl

theorem shiftElem_right (w a n : Nat) : shiftElem 1 w a n = a / 2 ^ n := rfl

/-- The signed value of a pattern is that of its bit vector. -/
theorem sgn_eq_toInt (w a : Nat) : sgn w a = (BitVec.ofNat w a).toInt := by
  rw [sgn, BitVec.toInt_eq_toNat_cond, BitVec.toNat_ofNat]
  cases w with
  | zero => simp [Nat.mod_one]
  | succ w =>
    have hhalf : a % 2 ^ (w + 1) < 2 ^ w ↔ 2 * (a % 2 ^ (w + 1)) < 2 ^ (w + 1) := by omega
    simp only [Nat.add_sub_cancel, hhalf]

theorem shiftElem_arith (w a n : Nat) :
    shiftElem 2 w a n = pat w ((BitVec.ofNat w a).toInt / (2 ^ Nat.min n (w - 1) : Nat)) := by
  rw [← sgn_eq_toInt]
  rfl

theorem pat_lt (w : Nat) (x : Int) : pat w x < 2 ^ w := by
  have hpos : (0 : Int) < (2 ^ w : Nat) := Int.natCast_pos.2 (Nat.two_pow_pos w)
  exact (Int.toNat_lt (Int.emod_nonneg _ hpos.ne')).2 (Int.emod_lt_of_pos x hpos)

/-- The amount of a shift word for an element: C where MOD bit 0 is set, else the element of register B. -/
def shiftAmount (v : VOp) (el : Fin 64 → Nat → Nat) (e : Nat) : Nat := if v.m.val % 2 = 1 then v.c.val else el v.b e

theorem vecWrites_shift {i : Instr} {v : VOp} {kind : Nat} {g : Nat → Nat → Nat} (hkind : shiftElem kind (typeWidth v.t.val) = g)
    (hword : vecWord i = some (vShape v (if v.m.val % 2 = 1 then [v.a] else [v.a, v.b]) 2))
    (hexec : ∀ s : State, illegal i = none →
      exec i s = s.vecRun v (vShape v (if v.m.val % 2 = 1 then [v.a] else [v.a, v.b]) 2) .none noBit fun _ xs => shiftRun kind v xs)
    (hg : ∀ a < 2 ^ typeWidth v.t.val, ∀ n, g a n < 2 ^ typeWidth v.t.val) : VecWrites i v fun el _ e => g (el v.a e) (shiftAmount v el e) := by
  subst hkind
  unfold shiftAmount
  by_cases himm : v.m.val % 2 = 1
  · simp only [shiftRun, if_pos himm] at hword hexec ⊢
    exact vecWrites_map1 (g := fun a => shiftElem kind (typeWidth v.t.val) a v.c.val) (by decide) hword hexec fun a ha => hg a ha _
  · simp only [shiftRun, if_neg himm] at hword hexec ⊢
    exact vecWrites_map2 (by decide) hword hexec fun a ha b _ => hg a ha b

/-! ### The words -/

section
variable (v : VOp)

theorem vmov_writes : VecWrites (.vmov v) v fun el _ e => el v.a e :=
  vecWrites_map1 (g := id) (by decide) rfl (fun s hi => legalWord hi rfl fun w => s.vecRun v w _ _ _) fun _ h => h

theorem vsel_writes : VecWrites (.vsel v) v fun el ms e => if (ms v.c.val).getLsbD e then el v.a e else el v.b e :=
  vecWrites_of (i := .vsel v) (srcs := [v.a, v.b]) rfl ⟨⟨rfl, rfl, rfl, rfl⟩, rfl, rfl, rfl, lat_vShape_pos v [v.a, v.b] (by decide)⟩
    (fun s hi => legalWord hi rfl fun w => s.vecRun v w _ _ _) fun s env e hms he => by
      have hmask : env.m 0 = s.maskOf v.c.val := by rw [VEnv.m, hms]; rfl
      refine (congrArg (fun p : Nat × Nat => p.1 % _) (map2_lane s v.a v.b he fun i a b => (if (env.m 0).getLsbD i then a else b, 0))).trans ?_
      rw [hmask]
      refine Nat.mod_eq_of_lt ?_
      split <;> exact elem_lt ..

theorem vand_writes : VecWrites (.vand v) v fun el _ e => el v.a e &&& el v.b e :=
  vecWrites_map2 (g := (· &&& ·)) (by decide) rfl (fun s hi => legalWord hi rfl fun w => s.vecRun v w _ _ _) fun a _ _ hb => Nat.and_lt_two_pow a hb

theorem vor_writes : VecWrites (.vor v) v fun el _ e => el v.a e ||| el v.b e :=
  vecWrites_map2 (g := (· ||| ·)) (by decide) rfl (fun s hi => legalWord hi rfl fun w => s.vecRun v w _ _ _) fun _ ha _ hb => Nat.or_lt_two_pow ha hb

theorem vxor_writes : VecWrites (.vxor v) v fun el _ e => el v.a e ^^^ el v.b e :=
  vecWrites_map2 (g := (· ^^^ ·)) (by decide) rfl (fun s hi => legalWord hi rfl fun w => s.vecRun v w _ _ _) fun _ ha _ hb => Nat.xor_lt_two_pow ha hb

theorem vnot_writes : VecWrites (.vnot v) v fun el _ e => 2 ^ typeWidth v.t.val - 1 - el v.a e :=
  vecWrites_map1 (g := fun a => 2 ^ typeWidth v.t.val - 1 - a) (by decide) rfl (fun s hi => legalWord hi rfl fun w => s.vecRun v w _ _ _)
    fun a ha => by omega

theorem vsll_writes : VecWrites (.vsll v) v fun el _ e => el v.a e * 2 ^ shiftAmount v el e % 2 ^ typeWidth v.t.val :=
  vecWrites_shift (funext₂ (shiftElem_left _)) rfl (fun s hi => legalWord hi rfl fun w => s.vecRun v w _ _ _)
    fun _ _ _ => Nat.mod_lt _ (Nat.two_pow_pos _)

theorem vsrl_writes : VecWrites (.vsrl v) v fun el _ e => el v.a e / 2 ^ shiftAmount v el e :=
  vecWrites_shift (funext₂ (shiftElem_right _)) rfl (fun s hi => legalWord hi rfl fun w => s.vecRun v w _ _ _)
    fun _ ha _ => (Nat.div_le_self ..).trans_lt ha

theorem vsra_writes : VecWrites (.vsra v) v fun el _ e =>
    pat (typeWidth v.t.val) ((BitVec.ofNat (typeWidth v.t.val) (el v.a e)).toInt / (2 ^ Nat.min (shiftAmount v el e) (typeWidth v.t.val - 1) : Nat)) :=
  vecWrites_shift (funext₂ (shiftElem_arith _)) rfl (fun s hi => legalWord hi rfl fun w => s.vecRun v w _ _ _) fun _ _ _ => pat_lt ..

theorem vperm_writes : VecWrites (.vperm v) v fun el _ e => el v.a (el v.b e % elemCount v.t.val) :=
  vecWrites_values (i := .vperm v) (val := fun el e => el v.a (el v.b e % elemCount v.t.val)) (by decide) rfl
    (fun s hi => legalWord hi rfl fun w => s.vecRun v w _ _ _)
    (fun s e he => by rw [← at0_lane]; exact map1_lane s v.b he _) fun _ h e => h ..

theorem vbcast_writes : VecWrites (.vbcast v) v fun el _ _ => el v.a (v.m.val * 64 + v.c.val) :=
  vecWrites_values (i := .vbcast v) (val := fun el _ => el v.a (idx10 v)) (by decide) rfl
    (fun s hi => legalWord hi rfl fun w => s.vecRun v w _ _ _)
    (fun s e he => by rw [← at0_lane]; exact map1_lane s v.a he _) fun _ h e => h ..

theorem vrot_writes : VecWrites (.vrot v) v fun el _ e => el v.a ((e + (v.m.val * 64 + v.c.val)) % elemCount v.t.val) :=
  vecWrites_values (i := .vrot v) (val := fun el e => el v.a ((e + idx10 v) % elemCount v.t.val)) (by decide) rfl
    (fun s hi => legalWord hi rfl fun w => s.vecRun v w _ _ _)
    (fun s e he => by rw [← at0_lane]; exact getD_map_range he _) fun _ h e => h ..

/-- Element `e` of a shuffle of two registers of `n` elements by pattern `c` (R168). -/
def shufElem (c n : Nat) (a b : Nat → Nat) (e : Nat) : Nat :=
  match c with
  | 0 => if e % 2 = 0 then a (e / 2) else b (e / 2)
  | 1 => if e % 2 = 0 then a (n / 2 + e / 2) else b (n / 2 + e / 2)
  | 2 => if e < n / 2 then a (2 * e) else b (2 * (e - n / 2))
  | _ => if e < n / 2 then a (2 * e + 1) else b (2 * (e - n / 2) + 1)

theorem shufElem_lt {a b : Nat → Nat} {m : Nat} (ha : ∀ k, a k < m) (hb : ∀ k, b k < m) (c n e : Nat) : shufElem c n a b e < m := by
  unfold shufElem
  split <;> split <;> simp only [ha, hb]

theorem shufAll_eq (c n : Nat) (a b : List Nat) : shufAll c n [a, b] = (List.range n).map fun e => (shufElem c n (at0 a) (at0 b) e, 0) :=
  match c with
  | 0 | 1 | 2 | _ + 3 => rfl

theorem vshuf_writes : VecWrites (.vshuf v) v fun el _ e => shufElem v.c.val (elemCount v.t.val) (el v.a) (el v.b) e :=
  vecWrites_values (i := .vshuf v) (val := fun el e => shufElem v.c.val (elemCount v.t.val) (el v.a) (el v.b) e) (by decide) rfl
    (fun s hi => legalWord hi rfl fun w => s.vecRun v w _ _ _)
    (fun s e he => by rw [← at0_lane, ← at0_lane]; exact (congrArg (List.getD · e _) (shufAll_eq ..)).trans (getD_map_range he _))
    fun _ h e => shufElem_lt (h v.a) (h v.b) ..

end

/-- Settles O39: each word is its element function on quiet registers. -/
theorem vectorMovesAndLogic : Obligations.VectorMovesAndLogic := fun v =>
  ⟨vmov_writes v, vsel_writes v, vand_writes v, vor_writes v, vxor_writes v, vnot_writes v, vsll_writes v, vsrl_writes v, vsra_writes v,
    vperm_writes v, vbcast_writes v, vrot_writes v, vshuf_writes v⟩

end Sys2Proof.Machine
end

section
/-! PROOFS. O40: vector integer arithmetic. The element functions of O38 are those of the integers on the I types (R140), and a word whose results are
known writes them to register D (`VecResults.writes`); reductions and scans are sums of elements up to a place (R166). -/

namespace Sys2Proof.Machine

/-! ### From results to the register they write -/

theorem reads_vShapeL (v : VOp) (srcs : List (Fin 64)) (latI latF : Nat) : (vShapeL v srcs latI latF).Reads v srcs := by
  unfold vShapeL
  split <;> exact ⟨rfl, rfl, rfl, rfl⟩

theorem VWord.Reads.withLx {w : VWord} {v : VOp} {srcs : List (Fin 64)} (h : w.Reads v srcs) : (w.withLx v).Reads v srcs := by
  obtain ⟨h1, h2, h3, h4⟩ := h
  rw [VWord.withLx]
  split <;> exact ⟨h1, h2, h3, h4⟩

theorem reads_vReduceShape (v : VOp) : (vReduceShape v).Reads v [v.a] := by
  unfold vReduceShape
  split
  · exact ⟨rfl, rfl, rfl, rfl⟩
  · split <;> exact ⟨rfl, rfl, rfl, rfl⟩

theorem reads_vScanShape (v : VOp) : (vScanShape v).Reads v [v.a] := ⟨rfl, rfl, rfl, rfl⟩

/-- A word with one destination writes its results there: `x j` are the elements of its source `j`. -/
theorem VecResults.writes {i : Instr} {v : VOp} {w : VWord} {rule : FlagRule} {out : State → VEnv → (Nat → Nat → Nat) → Nat → Nat × Nat}
    {m : Nat} {srcs : List (Fin 64)} {val : (Fin 64 → Nat → Nat) → Nat → Nat} (h : VecResults i v rule out)
    (hword : vecWord i = some w) (hflat : w.Flat v m) (hreads : w.Reads v srcs)
    (hval : ∀ (s : State) (env : VEnv) (x : Nat → Nat → Nat) (e : Nat),
      (∀ j r, srcs[j]? = some r → x j = s.elem (typeWidth v.t.val) r) → e < elemCount v.t.val →
      (out s env x e).1 = val (s.elem (typeWidth v.t.val)) e)
    (hlt : ∀ el : Fin 64 → Nat → Nat, (∀ r e, el r e < 2 ^ typeWidth v.t.val) → ∀ e, val el e < 2 ^ typeWidth v.t.val) :
    VecWrites i v fun el _ e => val el e := by
  intro s w' hi hw' hq
  obtain rfl : w = w' := Option.some.inj (hword.symm.trans hw')
  obtain ⟨t, ps, free, ht, -, hvp, hdst, hps, -, hlane⟩ := h s w hi hword hq (hflat.dsts ▸ List.cons_ne_nil _ _)
  rw [hflat.dsts] at hdst
  obtain ⟨p, rfl, hp⟩ := List.map_eq_singleton_iff.1 hdst
  obtain ⟨hdue, hctx⟩ := hps p List.mem_cons_self
  refine ⟨t, p, ht, hvp, hp, hctx, hdue, fun e he => ?_⟩
  obtain ⟨hon, hoff⟩ := hlane 0 p e rfl (he.trans_eq (Nat.div_one _).symm)
  rw [List.length_singleton, Nat.mul_one, Nat.add_zero] at hon hoff
  refine ⟨fun hk => ⟨(hon hk).1.trans ?_, (hon hk).2⟩, hoff⟩
  rw [hflat.width, hval s _ _ e (fun j r hj => ?_) (hflat.count ▸ he)]
  · exact Nat.mod_eq_of_lt (hlt _ (elem_lt s _) e)
  · rw [hreads.lists]
    exact elAt_lanes s _ hj

/-! ### Elements of the integer types (R140) -/

theorem isL_isF_of_isI {t : Nat} (h : isI t = true) : isL t = false ∧ isF t = false := by
  simp only [isI, Bool.or_eq_true, decide_eq_true_eq] at h
  obtain ((((rfl | rfl) | rfl) | rfl) | rfl) | rfl := h <;> decide

/-- The pattern of an integer result, clamped where SAT is set. -/
def intRes (v : VOp) (y : Int) : Nat := pat (typeWidth v.t.val) (if v.m.val % 2 = 1 then intClamp v.t.val y else y)

theorem intOut_vSat (v : VOp) (y : Int) : intOut v.t.val (vSat v) y = (intRes v y, 0) := by
  simp [intOut, intRes, vSat, pat, wrap]

/-- An unsigned element is its own result: it is not negative and within the type's range. -/
theorem intRes_unsigned {v : VOp} (hs : isSigned v.t.val = false) {a : Nat} (ha : a < 2 ^ typeWidth v.t.val) :
    intRes v (if intVal v.t.val a < 0 then -intVal v.t.val a else intVal v.t.val a) = a := by
  have hval : intVal v.t.val a = a := by rw [intVal, hs, if_neg Bool.false_ne_true, Nat.mod_eq_of_lt ha]
  have hclamp : intClamp v.t.val a = a := by
    simp only [intClamp, intLo, intHi, hs, Bool.false_eq_true, if_false]
    rw [if_neg (by omega), if_neg (by omega)]
  rw [hval, if_neg (by omega), intRes, hclamp, ite_self, pat, Int.emod_eq_of_lt (by omega) (by exact_mod_cast ha), Int.toNat_natCast]

/-! ### Sums of elements (R166) -/

/-- The sum of the first `n` elements of a register. -/
def firstSum (t : Nat) (x : Nat → Nat) (n : Nat) : Int := ((List.range n).map fun j => intVal t (x j)).sum

/-- The first `n` elements of all that a register has. -/
theorem take_allOf {t n : Nat} (x : Nat → Nat → Nat) (hn : n ≤ elemCount t) :
    (((allOf t x).take n).map (intVal t)).sum = firstSum t (x 0) n := by
  rw [allOf, ← List.map_take, List.take_range, Nat.min_eq_left hn, List.map_map]
  rfl

theorem length_allOf (t : Nat) (x : Nat → Nat → Nat) : (allOf t x).length = elemCount t := by rw [allOf, List.length_map, List.length_range]

theorem sumsFrom_getD (acc : Int) (l : List Int) {e : Nat} (he : e < l.length) : (sumsFrom acc l).getD e 0 = acc + (l.take (e + 1)).sum := by
  induction l generalizing acc e with
  | nil => cases he
  | cons y l ih =>
    cases e with
    | zero => simp [sumsFrom]
    | succ e =>
      rw [sumsFrom, List.getD_cons_succ, ih (acc + y) (Nat.lt_of_succ_lt_succ he), List.take_succ_cons, List.sum_cons, add_assoc]

/-! ### The element functions on the integer types -/

section
variable {v : VOp} (hI : isI v.t.val = true)
include hI

theorem addElem_int (sb : Bool) (env : VEnv) (i a b : Nat) : (addElem v sb env i a b).1 =
    intRes v (if sb then intVal v.t.val a - intVal v.t.val b else intVal v.t.val a + intVal v.t.val b) := by
  obtain ⟨hL, hF⟩ := isL_isF_of_isI hI
  simp [addElem, hL, hF, intOut_vSat]

theorem mulElem_int (env : VEnv) (i a b : Nat) : (mulElem v env i a b).1 = pat (typeWidth v.t.val) (intVal v.t.val a * intVal v.t.val b) := by
  obtain ⟨hL, hF⟩ := isL_isF_of_isI hI
  simp [mulElem, hL, hF, intOut, pat, wrap]

theorem fmaElem_int (negC negP : Bool) (env : VEnv) (i a b c : Nat) : (fmaElem v negC negP env i a b c).1 =
    pat (typeWidth v.t.val) ((if negP then -(intVal v.t.val a * intVal v.t.val b) else intVal v.t.val a * intVal v.t.val b) +
      if negC then -intVal v.t.val c else intVal v.t.val c) := by
  obtain ⟨-, hF⟩ := isL_isF_of_isI hI
  simp [fmaElem, hF, intOut, pat, wrap]

theorem pickElem_int (mx : Bool) (a b : Nat) : pickElem v.t.val mx a b =
    if mx then (if intVal v.t.val b ≤ intVal v.t.val a then a else b) else (if intVal v.t.val a ≤ intVal v.t.val b then a else b) := by
  obtain ⟨hL, hF⟩ := isL_isF_of_isI hI
  simp [pickElem, hL, hF]

theorem signElem_neg_int (a : Nat) : (signElem v true a).1 = intRes v (-intVal v.t.val a) := by
  obtain ⟨hL, hF⟩ := isL_isF_of_isI hI
  simp [signElem, hL, hF, intOut_vSat]

theorem signElem_abs_int {a : Nat} (ha : a < 2 ^ typeWidth v.t.val) :
    (signElem v false a).1 = intRes v (if intVal v.t.val a < 0 then -intVal v.t.val a else intVal v.t.val a) := by
  obtain ⟨hL, hF⟩ := isL_isF_of_isI hI
  cases hs : isSigned v.t.val with
  | false => simp [signElem, hL, hF, hs, intRes_unsigned hs ha]
  | true =>
    have habs : ((intVal v.t.val a).natAbs : Int) = if intVal v.t.val a < 0 then -intVal v.t.val a else intVal v.t.val a := by
      split <;> omega
    simp only [signElem, hL, hF, hs, intOut_vSat, habs, Bool.false_eq_true, if_false, if_true]

/-! ### Reductions and scans of the integer types (R166) -/

theorem raddAll_int (env : VEnv) (a : List Nat) {e : Nat} (he : e < a.length) :
    ((raddAll v env [a]).getD e (0, 0)).1 = intRes v (a.map (intVal v.t.val)).sum := by
  obtain ⟨hL, hF⟩ := isL_isF_of_isI hI
  simp [raddAll, hL, hF, intOut_vSat, List.sum_eq_foldl, List.getD_eq_getElem?_getD, he]

theorem scanAddAll_int (env : VEnv) (a : List Nat) {e : Nat} (he : e < a.length) :
    ((scanAddAll v env [a]).getD e (0, 0)).1 = if v.m.val / 2 % 2 = 1 then
        (if e = 0 then 0 else intRes v ((a.take e).map (intVal v.t.val)).sum)
      else intRes v ((a.take (e + 1)).map (intVal v.t.val)).sum := by
  obtain ⟨-, hF⟩ := isL_isF_of_isI hI
  have hall : scanAddAll v env [a] = exclude (v.m.val / 2 % 2 = 1) 0 ((sumsFrom 0 (a.map (intVal v.t.val))).map (intOut v.t.val (vSat v))) := by
    cases a with
    | nil => cases he
    | cons x rest => simp [scanAddAll, hF]
  have hat {j : Nat} (hj : j < a.length) : (((sumsFrom 0 (a.map (intVal v.t.val))).map (intOut v.t.val (vSat v))).getD j (0, 0)).1 =
      intRes v ((a.take (j + 1)).map (intVal v.t.val)).sum := by
    have hsum := sumsFrom_getD 0 (a.map (intVal v.t.val)) (by simpa using hj)
    have hj' : j < (sumsFrom 0 (a.map (intVal v.t.val))).length := by simpa [length_sumsFrom] using hj
    rw [zero_add, ← List.map_take, List.getD_eq_getElem _ _ hj'] at hsum
    rw [List.getD_eq_getElem _ _ (by simpa using hj'), List.getElem_map, hsum, intOut_vSat]
  rw [hall, exclude_value _ _ _ _ (by simpa [length_sumsFrom] using he), hat he]
  cases e with
  | zero => simp
  | succ e =>
    rw [Nat.add_sub_cancel, hat (Nat.lt_of_succ_lt he), if_neg e.succ_ne_zero]
    simp only [decide_eq_true_eq]

/-! ### The words -/

theorem vadd_writes : VecWrites (.vadd v) v fun el _ e => intRes v (intVal v.t.val (el v.a e) + intVal v.t.val (el v.b e)) :=
  (vadd_results v).writes rfl (flat_vShapeL v [v.a, v.b] 2 4).withLx (reads_vShapeL v [v.a, v.b] 2 4).withLx
    (fun s env x e hx _ => by rw [addElem_int hI, hx 0 v.a rfl, hx 1 v.b rfl]; rfl) fun _ _ _ => pat_lt ..

theorem vsub_writes : VecWrites (.vsub v) v fun el _ e => intRes v (intVal v.t.val (el v.a e) - intVal v.t.val (el v.b e)) :=
  (vsub_results v).writes rfl (flat_vShapeL v [v.a, v.b] 2 4).withLx (reads_vShapeL v [v.a, v.b] 2 4).withLx
    (fun s env x e hx _ => by rw [addElem_int hI, hx 0 v.a rfl, hx 1 v.b rfl]; rfl) fun _ _ _ => pat_lt ..

theorem vmul_writes : VecWrites (.vmul v) v fun el _ e =>
    pat (typeWidth v.t.val) (intVal v.t.val (el v.a e) * intVal v.t.val (el v.b e)) :=
  (vmul_results v).writes rfl (flat_vShapeL v [v.a, v.b] 5 5).withLx (reads_vShapeL v [v.a, v.b] 5 5).withLx
    (fun s env x e hx _ => by rw [mulElem_int hI, hx 0 v.a rfl, hx 1 v.b rfl]) fun _ _ _ => pat_lt ..

theorem vfma_writes : VecWrites (.vfma v) v fun el _ e =>
    pat (typeWidth v.t.val) (intVal v.t.val (el v.a e) * intVal v.t.val (el v.b e) + intVal v.t.val (el v.c e)) :=
  (vfma_results v).writes rfl (flat_vShape v [v.a, v.b, v.c] 5) (reads_vShape v [v.a, v.b, v.c] 5)
    (fun s env x e hx _ => by rw [fmaElem_int hI, hx 0 v.a rfl, hx 1 v.b rfl, hx 2 v.c rfl]; rfl) fun _ _ _ => pat_lt ..

theorem vfms_writes : VecWrites (.vfms v) v fun el _ e =>
    pat (typeWidth v.t.val) (intVal v.t.val (el v.a e) * intVal v.t.val (el v.b e) - intVal v.t.val (el v.c e)) :=
  (vfms_results v).writes rfl (flat_vShape v [v.a, v.b, v.c] 5) (reads_vShape v [v.a, v.b, v.c] 5)
    (fun s env x e hx _ => by rw [fmaElem_int hI, hx 0 v.a rfl, hx 1 v.b rfl, hx 2 v.c rfl]; rfl) fun _ _ _ => pat_lt ..

theorem vfnma_writes : VecWrites (.vfnma v) v fun el _ e =>
    pat (typeWidth v.t.val) (intVal v.t.val (el v.c e) - intVal v.t.val (el v.a e) * intVal v.t.val (el v.b e)) :=
  (vfnma_results v).writes rfl (flat_vShape v [v.a, v.b, v.c] 5) (reads_vShape v [v.a, v.b, v.c] 5)
    (fun s env x e hx _ => by rw [fmaElem_int hI, hx 0 v.a rfl, hx 1 v.b rfl, hx 2 v.c rfl, sub_eq_neg_add]; rfl) fun _ _ _ => pat_lt ..

theorem vmin_writes : VecWrites (.vmin v) v fun el _ e =>
    if intVal v.t.val (el v.a e) ≤ intVal v.t.val (el v.b e) then el v.a e else el v.b e :=
  (vmin_results v).writes rfl (flat_vShapeL v [v.a, v.b] 2 4) (reads_vShapeL v [v.a, v.b] 2 4)
    (fun s env x e hx _ => by rw [pickElem_int hI, hx 0 v.a rfl, hx 1 v.b rfl]; rfl) fun _ h e => by split <;> exact h ..

theorem vmax_writes : VecWrites (.vmax v) v fun el _ e =>
    if intVal v.t.val (el v.b e) ≤ intVal v.t.val (el v.a e) then el v.a e else el v.b e :=
  (vmax_results v).writes rfl (flat_vShapeL v [v.a, v.b] 2 4) (reads_vShapeL v [v.a, v.b] 2 4)
    (fun s env x e hx _ => by rw [pickElem_int hI, hx 0 v.a rfl, hx 1 v.b rfl]; rfl) fun _ h e => by split <;> exact h ..

theorem vabs_writes : VecWrites (.vabs v) v fun el _ e =>
    intRes v (if intVal v.t.val (el v.a e) < 0 then -intVal v.t.val (el v.a e) else intVal v.t.val (el v.a e)) :=
  (vabs_results v).writes rfl (flat_vShapeL v [v.a] 2 2) (reads_vShapeL v [v.a] 2 2)
    (fun s env x e hx _ => by rw [hx 0 v.a rfl, signElem_abs_int hI (elem_lt ..)]) fun _ _ _ => pat_lt ..

theorem vneg_writes : VecWrites (.vneg v) v fun el _ e => intRes v (-intVal v.t.val (el v.a e)) :=
  (vneg_results v).writes rfl (flat_vShapeL v [v.a] 2 2) (reads_vShapeL v [v.a] 2 2)
    (fun s env x e hx _ => by rw [signElem_neg_int hI, hx 0 v.a rfl]) fun _ _ _ => pat_lt ..

theorem vradd_writes : VecWrites (.vradd v) v fun el _ _ => intRes v (firstSum v.t.val (el v.a) (elemCount v.t.val)) :=
  (vradd_results v).writes (val := fun el _ => intRes v (firstSum v.t.val (el v.a) (elemCount v.t.val))) rfl (flat_vReduceShape v)
    (reads_vReduceShape v) (fun s env x e hx he => by
      have hlen := length_allOf v.t.val x
      rw [raddAll_int hI env _ (hlen.symm ▸ he), ← hx 0 v.a rfl, ← take_allOf x le_rfl, List.take_of_length_le hlen.le]) fun _ _ _ => pat_lt ..

theorem vscanadd_writes : VecWrites (.vscanadd v) v fun el _ e =>
    if v.m.val / 2 % 2 = 1 then (if e = 0 then 0 else intRes v (firstSum v.t.val (el v.a) e)) else intRes v (firstSum v.t.val (el v.a) (e + 1)) :=
  (vscanadd_results v).writes rfl (flat_vScanShape v) (reads_vScanShape v) (fun s env x e hx he => by
      have hlen := length_allOf v.t.val x
      rw [scanAddAll_int hI env _ (hlen.symm ▸ he), take_allOf x he.le, take_allOf x he, hx 0 v.a rfl])
    fun _ _ _ => by
      split
      · split
        · exact Nat.two_pow_pos _
        · exact pat_lt ..
      · exact pat_lt ..

end

theorem vmulh_writes (v : VOp) : VecWrites (.vmulh v) v fun el _ e =>
    pat (typeWidth v.t.val) (intVal v.t.val (el v.a e) * intVal v.t.val (el v.b e) / (2 ^ typeWidth v.t.val : Nat)) :=
  vecWrites_map2 (i := .vmulh v)
    (g := fun a b => pat (typeWidth v.t.val) (intVal v.t.val a * intVal v.t.val b / (2 ^ typeWidth v.t.val : Nat))) (by decide) rfl
    (fun s hi => legalWord hi rfl fun w => s.vecRun v w _ _ _) fun _ _ _ _ => pat_lt ..

/-- Settles O40: each word is its integer function on quiet registers. -/
theorem vectorIntegerArithmetic : Obligations.VectorIntegerArithmetic := fun _ hI =>
  ⟨vadd_writes hI, vsub_writes hI, vmul_writes hI, vmulh_writes _, vfma_writes hI, vfms_writes hI, vfnma_writes hI, vmin_writes hI, vmax_writes hI,
    vabs_writes hI, vneg_writes hI, vradd_writes hI, vscanadd_writes hI⟩

end Sys2Proof.Machine
end

section
/-! PROOFS. O41: vector words that write masks. A word on quiet registers puts one result in flight for mask D (`maskWrites_of`): compares and VTOPNM by
their elements (R144, R169), mask logic by the 1,024 bits of the masks it reads (R170). -/

namespace Sys2Proof.Machine

/-! ### The bits of a mask destination (R144) -/

/-- The number whose bits below `n` are those that `p` holds of. -/
def bitsBelow (p : Nat → Bool) (n : Nat) : Nat := (List.range n).foldl (fun a i => if p i then a + 2 ^ i else a) 0

theorem bitsBelow_succ (p : Nat → Bool) (n : Nat) : bitsBelow p (n + 1) = 2 ^ n * (p n).toNat + bitsBelow p n := by
  rw [bitsBelow, List.range_succ, List.foldl_append]
  change (if p n then bitsBelow p n + 2 ^ n else bitsBelow p n) = _
  cases p n <;> simp [Nat.add_comm]

theorem bitsBelow_lt (p : Nat → Bool) (n : Nat) : bitsBelow p n < 2 ^ n := by
  induction n with
  | zero => exact Nat.one_pos
  | succ n ih =>
    calc bitsBelow p (n + 1) < 2 ^ n * 1 + 2 ^ n := by
          rw [bitsBelow_succ]; exact Nat.add_lt_add_of_le_of_lt (Nat.mul_le_mul_left _ (Bool.toNat_le _)) ih
      _ = 2 ^ (n + 1) := by ring

theorem testBit_bitsBelow (p : Nat → Bool) (n j : Nat) : (bitsBelow p n).testBit j = (decide (j < n) && p j) := by
  induction n with
  | zero => simp [bitsBelow]
  | succ n ih =>
    rw [bitsBelow_succ, Nat.testBit_two_pow_mul_add _ (bitsBelow_lt p n), ih, Nat.testBit_bool_toNat]
    rcases lt_trichotomy j n with h | rfl | h
    · simp [h, Nat.lt_succ_of_lt h]
    · simp
    · simp [Nat.not_lt.2 h.le, Nat.not_lt.2 (Nat.succ_le_of_lt h), Nat.sub_ne_zero_of_lt h]

theorem maskWrite_val (mask : Mask) (n : Nat) (bits : Nat → Bool) {e : Nat} (he : e < 1024) :
    (maskWrite mask n bits).2.getLsbD e = (decide (e < n) && mask.getLsbD e && bits e) := by
  change (BitVec.ofNat 1024 (bitsBelow (fun i => mask.getLsbD i && bits i) n)).getLsbD e = _
  rw [BitVec.getLsbD_ofNat, testBit_bitsBelow, decide_eq_true he, Bool.true_and, Bool.and_assoc]

theorem maskWrite_mask (mask : Mask) {n : Nat} (hn : n ≤ 1024) (bits : Nat → Bool) {e : Nat} (he : e < 1024) :
    (maskWrite mask n bits).1.getLsbD e = (decide (n ≤ e) || mask.getLsbD e) := by
  have hsplit : bitsBelow (fun i => mask.getLsbD i) n + (2 ^ 1024 - 2 ^ n) = 2 ^ n * (2 ^ (1024 - n) - 1) + bitsBelow (fun i => mask.getLsbD i) n := by
    rw [Nat.mul_sub, ← Nat.pow_add, Nat.add_sub_cancel' hn, Nat.mul_one, Nat.add_comm]
  change (BitVec.ofNat 1024 (bitsBelow (fun i => mask.getLsbD i) n + (2 ^ 1024 - 2 ^ n))).getLsbD e = _
  rw [BitVec.getLsbD_ofNat, hsplit, Nat.testBit_two_pow_mul_add _ (bitsBelow_lt ..), testBit_bitsBelow, Nat.testBit_two_pow_sub_one,
    decide_eq_true he, Bool.true_and]
  by_cases h : e < n
  · simp [h, Nat.not_le.2 h]
  · have hin : e - n < 1024 - n := by omega
    simp [h, Nat.not_lt.1 h, hin]

/-! ### A word that writes mask D -/

/-- A word without a vector destination that writes mask D, after some latency. -/
structure VWord.Marks (w : VWord) (v : VOp) : Prop where
  dsts : w.dsts = []
  kd : w.kd = some v.d.val
  count : w.n ≤ 1024
  late : w.sli = none → 0 < w.lat

theorem VWord.Marks.maskDst {w : VWord} {v : VOp} (h : w.Marks v) : w.maskDst = if v.d.val = 0 then 0 else 64 + v.d.val := by
  rw [VWord.maskDst, h.kd]

/-- Neither masks nor destinations bear on the latency. -/
theorem VWord.Marks.latency_pos {w : VWord} {v : VOp} (h : w.Marks v) (xs : List (List Nat)) (out : List (Nat × Nat)) (rm : Nat) :
    0 < w.latency xs out rm :=
  Machine.latency_pos (w := { w with masks := [], dsts := [] }) ⟨rfl, List.nodup_nil, by simp, h.late⟩ xs out rm

theorem vpend_vecSent_mask {s : State} {v : VOp} {w : VWord} (hq : s.vecQuiet v w) (hm : w.Marks v) (rule : FlagRule) (kbit : Nat × Nat → Bool)
    (out : List (Nat × Nat)) : (s.vecSent v w rule kbit out).myCore.vpend = s.myCore.vpend ++ [s.vecBlank v w rule kbit out] := by
  have hv : (s.vecStart w).myCore.vpend = s.myCore.vpend := (vecStart_flow s w).2.1.trans (vecTaken_queues s w).1
  have hkdst : (s.vecBlank v w rule kbit out).kdst = if v.d.val = 0 then 0 else 64 + v.d.val := hm.maskDst
  have hdst : ¬ (s.vecBlank v w rule kbit out).dst < 56 := fun h => absurd (show (80 : Nat) < 56 from h) (by decide)
  rw [State.vecSent, hm.dsts, List.isEmpty_nil, if_pos rfl, vpend_addPend (fun h => absurd h hdst) (fun h => ?_), hv]
  rw [hkdst] at h ⊢
  split at h
  · omega
  · rw [if_neg ‹_›, Nat.add_sub_cancel_left, Core.maskInFlight, hv]
    exact hq.kd _ hm.kd

/-- Such a word writes the bits that its results set. -/
theorem maskWrites_of {i : Instr} {v : VOp} {w : VWord} {rule : FlagRule} {kbit : Nat × Nat → Bool}
    {bit : (Fin 64 → Nat → Nat) → (Nat → Mask) → Nat → Bool} {f : VEnv → List (List Nat) → List (Nat × Nat)}
    (hword : vecWord i = some w) (hm : w.Marks v) (hexec : ∀ s : State, illegal i = none → exec i s = s.vecRun v w rule kbit f)
    (hbit : ∀ (s : State) (env : VEnv) (e : Nat), env.ms = w.masks.map s.maskOf → e < w.n →
      kbit ((f env (w.lists (w.srcs.map fun r => vget s.myCore.v r.val 0))).getD e (0, 0)) = bit (s.elem w.sw) s.maskOf e) :
    MaskWrites i v bit := by
  intro s w' hi hw' hq
  obtain rfl : w = w' := Option.some.inj (hword.symm.trans hw')
  have hmask : s.readK v.k.val = s.maskOf v.k.val := readK_eq_maskOf (hq.masks _ List.mem_cons_self)
  refine ⟨_, s.vecBlank v w rule kbit (s.vecOut w f), (hexec s hi).trans (vecRun_quiet hq rule kbit f), vpend_vecSent_mask hq hm .., hm.maskDst,
    Nat.lt_add_of_pos_right (hm.latency_pos ..), fun e he => ⟨?_, ?_⟩⟩
  · rw [← hmask]
    exact maskWrite_mask (s.readK v.k.val) hm.count (fun i => kbit ((s.vecOut w f).getD i (0, 0))) he
  · rw [← hmask]
    refine (maskWrite_val _ _ _ he).trans ?_
    by_cases hn : e < w.n
    · rw [vecOut_quiet hq, hbit s _ e (vecEnv_ms hq) hn]
    · simp only [decide_eq_false hn, Bool.false_and]

theorem elemCount_le (t : Nat) : elemCount t ≤ 1024 := by
  have hle : ∀ w ∈ [0, 4, 8, 16, 32, 64], 4096 / w ≤ 1024 := by decide
  exact hle _ (List.mem_cons.2 (typeWidth_mem t))

theorem bitOf_b2n (b : Bool) (fl : Nat) : bitOf (b2n b, fl) = b := by cases b <;> rfl

/-! ### Compares (R144, R160) -/

/-- A compare of the elements of registers A and B. -/
theorem maskWrites_compare {i : Instr} {v : VOp} {k : Nat} (hword : vecWord i = some ((vShapeL v [v.a, v.b] 2 4).toMask v))
    (hexec : ∀ s : State, illegal i = none →
      exec i s = s.vecRun v ((vShapeL v [v.a, v.b] 2 4).toMask v) .none bitOf fun _ xs => map2 (fun _ a b => cmpElem v.t.val k a b) xs) :
    MaskWrites i v fun el _ e => decide ((cmpElem v.t.val k (el v.a e) (el v.b e)).1 = 1) := by
  have hreads : ((vShapeL v [v.a, v.b] 2 4).toMask v).Reads v [v.a, v.b] := by
    obtain ⟨h1, h2, h3, h4⟩ := reads_vShapeL v [v.a, v.b] 2 4
    exact ⟨h1, h2, h3, h4⟩
  have hmarks : ((vShapeL v [v.a, v.b] 2 4).toMask v).Marks v :=
    ⟨rfl, rfl, hreads.count ▸ elemCount_le _, lat_vShapeL_pos (.inr ⟨by decide, by decide⟩)⟩
  refine maskWrites_of hword hmarks hexec fun s _ e _ he => ?_
  rw [hreads.lists, hreads.width]
  exact congrArg bitOf (map2_lane s v.a v.b (hreads.count ▸ he) _)

theorem cmpElem_int {t : Nat} (hI : isI t = true) (k a b : Nat) : decide ((cmpElem t k a b).1 = 1) = match k with
    | 0 => decide (intVal t a = intVal t b)
    | 1 => decide (intVal t a ≠ intVal t b)
    | 2 => decide (intVal t a < intVal t b)
    | _ => decide (intVal t a ≤ intVal t b) := by
  obtain ⟨hL, hF⟩ := isL_isF_of_isI hI
  change bitOf (cmpElem t k a b) = _
  simp only [cmpElem, hL, hF, Bool.false_eq_true, if_false, bitOf_b2n]
  match k with
  | 0 | 1 | 2 | _ + 3 => simp [Int.sub_eq_zero]

section
variable (v : VOp)

theorem vcmpeq_writes : MaskWrites (.vcmpeq v) v fun el _ e => decide ((cmpElem v.t.val 0 (el v.a e) (el v.b e)).1 = 1) :=
  maskWrites_compare rfl fun s hi => legalWord hi rfl fun w => s.vecRun v w _ _ _

theorem vcmpne_writes : MaskWrites (.vcmpne v) v fun el _ e => decide ((cmpElem v.t.val 1 (el v.a e) (el v.b e)).1 = 1) :=
  maskWrites_compare rfl fun s hi => legalWord hi rfl fun w => s.vecRun v w _ _ _

theorem vcmplt_writes : MaskWrites (.vcmplt v) v fun el _ e => decide ((cmpElem v.t.val 2 (el v.a e) (el v.b e)).1 = 1) :=
  maskWrites_compare rfl fun s hi => legalWord hi rfl fun w => s.vecRun v w _ _ _

theorem vcmple_writes : MaskWrites (.vcmple v) v fun el _ e => decide ((cmpElem v.t.val 3 (el v.a e) (el v.b e)).1 = 1) :=
  maskWrites_compare rfl fun s hi => legalWord hi rfl fun w => s.vecRun v w _ _ _

/-! ### N of M (R169) -/

/-- Element `e` is among the `n` of largest magnitude in its group of `m`. -/
def topElem (t n m : Nat) (x : Nat → Nat) (e : Nat) : Bool :=
  decide (((List.range m).filter fun j => magAbove t (x (e / m * m + j)) (x e) ||
    (decide (e / m * m + j < e) && !magAbove t (x e) (x (e / m * m + j)))).length < n)

theorem vtopnm_writes : MaskWrites (.vtopnm v) v fun el _ e => topElem v.t.val (v.m.val % 8) (if 8 ≤ v.m.val then 8 else 4) (el v.a) e :=
  maskWrites_of (i := .vtopnm v) rfl ⟨rfl, rfl, elemCount_le _, fun _ => lat_vShape_pos v [v.a] (by decide)⟩
    (fun s hi => legalWord hi rfl fun w => s.vecRun v w _ _ _) fun s _ e _ he => by
      have htop : topAll v.t.val (v.m.val % 8) (if 8 ≤ v.m.val then 8 else 4) [s.lane v.t.val v.a] = (List.range (elemCount v.t.val)).map
          fun e => (b2n (topElem v.t.val (v.m.val % 8) (if 8 ≤ v.m.val then 8 else 4) (at0 (s.lane v.t.val v.a)) e), 0) := by
        rw [← length_lane s v.t.val v.a]; rfl
      refine (congrArg (fun l : List (Nat × Nat) => bitOf (l.getD e (0, 0))) htop).trans ?_
      rw [getD_map_range (n := elemCount v.t.val) he, bitOf_b2n, at0_lane]
      rfl

/-! ### Mask logic (R170) -/

/-- A word of mask logic: an operation on the masks that it reads. -/
theorem maskWrites_logic {i : Instr} {v : VOp} {two : Bool} {op : VEnv → Mask} {bit : (Nat → Mask) → Nat → Bool}
    (hword : vecWord i = some (kShape v two))
    (hexec : ∀ s : State, illegal i = none → exec i s = s.vecRun v (kShape v two) .none bitOf fun env _ => maskAll (op env))
    (hbit : ∀ (env : VEnv) (ms : Nat → Mask) (e : Nat), env.ms = (kShape v two).masks.map ms → e < 1024 → (op env).getLsbD e = bit ms e) :
    MaskWrites i v fun _ ms e => bit ms e :=
  maskWrites_of hword ⟨rfl, rfl, le_rfl, fun _ => Nat.one_pos⟩ hexec fun s env e hms he => by
    rw [maskAll, getD_map_range (n := 1024) he, bitOf_b2n]
    exact hbit env s.maskOf e hms he

theorem kand_writes : MaskWrites (.kand v) v fun _ ms e => (ms v.a.val).getLsbD e && (ms v.b.val).getLsbD e :=
  maskWrites_logic rfl (fun s hi => legalWord hi rfl fun w => s.vecRun v w _ _ _) fun env ms e hms he => by
    rw [VEnv.m, VEnv.m, hms, BitVec.getLsbD_and]; rfl

theorem kor_writes : MaskWrites (.kor v) v fun _ ms e => (ms v.a.val).getLsbD e || (ms v.b.val).getLsbD e :=
  maskWrites_logic rfl (fun s hi => legalWord hi rfl fun w => s.vecRun v w _ _ _) fun env ms e hms he => by
    rw [VEnv.m, VEnv.m, hms, BitVec.getLsbD_or]; rfl

theorem kxor_writes : MaskWrites (.kxor v) v fun _ ms e => (ms v.a.val).getLsbD e ^^ (ms v.b.val).getLsbD e :=
  maskWrites_logic rfl (fun s hi => legalWord hi rfl fun w => s.vecRun v w _ _ _) fun env ms e hms he => by
    rw [VEnv.m, VEnv.m, hms, BitVec.getLsbD_xor]; rfl

theorem kandn_writes : MaskWrites (.kandn v) v fun _ ms e => (ms v.a.val).getLsbD e && !(ms v.b.val).getLsbD e :=
  maskWrites_logic rfl (fun s hi => legalWord hi rfl fun w => s.vecRun v w _ _ _) fun env ms e hms he => by
    rw [VEnv.m, VEnv.m, hms, BitVec.getLsbD_and, BitVec.getLsbD_not, decide_eq_true he, Bool.true_and]; rfl

theorem knot_writes : MaskWrites (.knot v) v fun _ ms e => !(ms v.a.val).getLsbD e :=
  maskWrites_logic rfl (fun s hi => legalWord hi rfl fun w => s.vecRun v w _ _ _) fun env ms e hms he => by
    rw [VEnv.m, hms, BitVec.getLsbD_not, decide_eq_true he, Bool.true_and]; rfl

theorem kmov_writes : MaskWrites (.kmov v) v fun _ ms e => (ms v.a.val).getLsbD e :=
  maskWrites_logic rfl (fun s hi => legalWord hi rfl fun w => s.vecRun v w _ _ _) fun env ms e hms _ => by
    rw [VEnv.m, hms]; rfl

end

/-- Settles O41: each word writes the bits of its compare, choice or operation; compares of integers are those of their values. -/
theorem vectorMasks : Obligations.VectorMasks := by
  intro v
  refine ⟨fun hI => ?_, vcmpeq_writes v, vcmpne_writes v, vcmplt_writes v, vcmple_writes v, vtopnm_writes v, kand_writes v, kor_writes v,
    kxor_writes v, kandn_writes v, knot_writes v, kmov_writes v⟩
  have heq := vcmpeq_writes v
  have hne := vcmpne_writes v
  have hlt := vcmplt_writes v
  have hle := vcmple_writes v
  simp only [cmpElem_int hI] at heq hne hlt hle
  exact ⟨heq, hne, hlt, hle⟩

end Sys2Proof.Machine
end

section
/-! PROOFS. O45: the address walkers. AWCFG and AWSTOP settle an idle walker or wait in it (`State.walkerWord`), a pattern word joins its walker
(`State.walkJoined`), WALKER_ENTRY lands what is due (`landWalker_last`) or starts the next entry (`walkStart_eq`). -/

namespace Sys2Proof.Machine

/-! ### Registers and buffers that stay -/

theorem sameRegs_modCore (s : State) (c : CoreId) (f : Core → Core) (hf : (f (s.core c)).ctxs = (s.core c).ctxs) (x : CtxId) :
    SameRegs s (s.modCore c f) c x :=
  sameRegs_of_mems (by rw [ctx_modCore_of_ctxs s c f hf]) (by rw [ctx_modCore_of_ctxs s c f hf]) rfl

/-- A change of one context that keeps its registers, seen from any context of the core. -/
theorem sameRegs_modCtx_any (s : State) (c : CoreId) (x : CtxId) (f : Ctx → Ctx) (hf : ∀ k, (f k).s = k.s ∧ (f k).h = k.h) (y : CtxId) :
    SameRegs s (s.modCtx c x f) c y := by
  by_cases hy : y = x
  · subst hy
    exact sameRegs_modCtx s c y f (hf _).1 (hf _).2
  · have hne : ¬(c = c ∧ y = x) := fun h => hy h.2
    exact sameRegs_of_mems (by rw [State.ctx_modCtx_ne _ _ _ _ _ _ hne]) (by rw [State.ctx_modCtx_ne _ _ _ _ _ _ hne]) rfl

/-- From `s` to `t` no register, no byte and no typed buffer changes, as where a word touches only walkers, queues and updates. -/
structure KeepsData (s t : State) : Prop where
  cur : t.cur = s.cur
  data : SameData s t
  buffers : SameBuffers s t

theorem KeepsData.trans {s t u : State} (h : KeepsData s t) (h' : KeepsData t u) : KeepsData s u := by
  obtain ⟨hc, hd, ha, hb, hw⟩ := h
  obtain ⟨hc', hd', ha', hb', hw'⟩ := h'
  exact ⟨hc'.trans hc, hd.trans hd', ha'.trans ha, hb'.trans hb, hw'.trans hw⟩

theorem keepsData_of_core {s t : State} (hc : t.cur = s.cur) (hr : SameRegs s t s.cur.core s.cur.ctx) (hb : SameBuffersOf s t s.cur.core) :
    KeepsData s t := by
  obtain ⟨hs, hh, hm⟩ := hr
  have hcore : t.myCore = t.core s.cur.core := by rw [State.myCore, hc]
  have hme : t.me = t.ctx s.cur.core s.cur.ctx := by rw [State.me, hc]
  refine ⟨hc, ⟨fun r => ?_, fun r => ?_, hm⟩, by rw [SameBuffers, hcore]; exact hb⟩
  · rw [State.rdS, hme, Ctx.rdS, hs]; rfl
  · rw [State.rdH, hme, hh]; rfl

theorem keepsData_issued (s : State) : KeepsData s s.issued :=
  ⟨s.issued_cur, sameData_issued s, s.issued_myCore_abuf, s.issued_myCore_cbuf, s.issued_myCore_wbuf⟩

/-! ### One walker changed -/

@[simp] theorem Core.walker_modWalker_self (k : Core) (w : WNo) (f : Walker → Walker) : (k.modWalker w f).walker w = f (k.walker w) := by
  simp [Core.walker, Core.modWalker]

theorem Core.walker_modWalker_ne (k : Core) (w v : WNo) (f : Walker → Walker) (h : v ≠ w) : (k.modWalker w f).walker v = k.walker v := by
  simp [Core.walker, Core.modWalker, Fin.val_ne_of_ne h.symm]

@[simp] theorem Core.modWalker_ctxs (k : Core) (w : WNo) (f : Walker → Walker) : (k.modWalker w f).ctxs = k.ctxs := rfl
@[simp] theorem Core.modWalker_abuf (k : Core) (w : WNo) (f : Walker → Walker) : (k.modWalker w f).abuf = k.abuf := rfl
@[simp] theorem Core.modWalker_cbuf (k : Core) (w : WNo) (f : Walker → Walker) : (k.modWalker w f).cbuf = k.cbuf := rfl
@[simp] theorem Core.modWalker_wbuf (k : Core) (w : WNo) (f : Walker → Walker) : (k.modWalker w f).wbuf = k.wbuf := rfl
@[simp] theorem Core.modWalker_upds (k : Core) (w : WNo) (f : Walker → Walker) : (k.modWalker w f).upds = k.upds := rfl

/-- A walker put back as it is. -/
theorem Core.modWalker_id (k : Core) (w : WNo) : (k.modWalker w fun v => v) = k := by
  simp [Core.modWalker, Core.walker]

@[simp] theorem State.issued_walker (s : State) (w : WNo) : s.issued.myCore.walker w = s.myCore.walker w := by
  simp [Core.walker]

/-! ### The completion update of a word (R97, R99) -/

/-- The update list grows by the word's update, or stays. -/
theorem complFlag_eq_modCore (s : State) (c : CoreId) (x : CtxId) (tag : Nat) (fe : Bool) (f : FlagNo) :
    ∃ l, (s.complFlag c x tag fe f = s.modCore c fun k => { k with upds := k.upds ++ l }) ∧ (fe = false → l = []) ∧
      (fe = true → ∃ u, l = [u] ∧ u.flag = f ∧ u.add = false ∧ u.val = 1 ∧ u.key = tag ∧ u.at_ = s.cycle) := by
  cases fe with
  | false => exact ⟨[], by simp [State.complFlag], fun _ => rfl, Bool.noConfusion⟩
  | true => exact ⟨[_], rfl, Bool.noConfusion, fun _ => ⟨_, rfl, rfl, rfl, rfl, rfl, rfl⟩⟩

theorem flagDue_complFlag {s u : State} {c : CoreId} (hu : (u.core c).upds = (s.core c).upds) (hn : u.cycle = s.cycle) (x : CtxId) (tag : Nat)
    (fe : Bool) (f : FlagNo) : FlagDue s (u.complFlag c x tag fe f) c tag fe f := by
  obtain ⟨l, hl, hoff, hon⟩ := complFlag_eq_modCore u c x tag fe f
  have hupds : ((u.complFlag c x tag fe f).core c).upds = (s.core c).upds ++ l := by rw [hl, State.core_modCore_self, hu]
  refine ⟨fun h => by rw [hupds, hoff h, List.append_nil], fun h => ?_⟩
  obtain ⟨v, rfl, hf, ha, hv, hk, hat⟩ := hon h
  exact ⟨v, hupds, hf, ha, hv, hk, hat.trans hn⟩

theorem sameRegs_complFlag (s : State) (c : CoreId) (x : CtxId) (tag : Nat) (fe : Bool) (f : FlagNo) (y : CtxId) :
    SameRegs s (s.complFlag c x tag fe f) c y := by
  obtain ⟨l, hl, -⟩ := complFlag_eq_modCore s c x tag fe f
  rw [hl]
  exact sameRegs_modCore s c _ rfl y

theorem complFlag_keeps {s : State} {c : CoreId} (hc : s.cur.core = c) (x : CtxId) (tag : Nat) (fe : Bool) (f : FlagNo) :
    KeepsData s (s.complFlag c x tag fe f) ∧ ∀ w, (s.complFlag c x tag fe f).myCore.walker w = s.myCore.walker w := by
  subst hc
  obtain ⟨l, hl, -⟩ := complFlag_eq_modCore s s.cur.core x tag fe f
  change _ = s.modMyCore _ at hl
  rw [hl]
  exact ⟨⟨rfl, sameData_modMyCore s _ rfl, by simp [SameBuffers]⟩, fun w => by rw [State.myCore_modMyCore]; rfl⟩

/-! ### AWCFG and AWSTOP (R185, R189) -/

/-- The word issues and changes walker `w` as `f` says, and no other. -/
def State.walkerWord (s : State) (w : WNo) (f : Walker → Walker) : State := s.issued.modMyCore fun k => k.modWalker w f

theorem walkerWord_keeps (s : State) (w : WNo) (f : Walker → Walker) : KeepsData s (s.walkerWord w f) :=
  (keepsData_issued s).trans ⟨rfl, sameData_modMyCore s.issued _ rfl, by simp [SameBuffers, State.walkerWord]⟩

theorem walkerWord_own (s : State) (w : WNo) (f : Walker → Walker) : (s.walkerWord w f).myCore.walker w = f (s.myCore.walker w) := by
  simp [State.walkerWord]

theorem walkerWord_others (s : State) {w v : WNo} (h : v ≠ w) (f : Walker → Walker) : (s.walkerWord w f).myCore.walker v = s.myCore.walker v := by
  simp [State.walkerWord, Core.walker_modWalker_ne _ _ _ _ h]

section
variable (s : State) (o : WOp) (mode : Bool)

theorem awcfg_awstop_hold (h : 2 ≤ (s.myCore.walker o.wk).cmds.length) : exec (.awcfg o mode) s = .next s ∧ exec (.awstop o) s = .next s :=
  ⟨if_pos h, if_pos h⟩

variable {s o mode}

theorem exec_awcfg {t0 : Tensor} (hl : (s.myCore.walker o.wk).cmds.length < 2) (hg : s.myGrant.hasWalker o.wk.val = true)
    (ht : s.myCore.tensor (s.rdH o.hdr) 8 = some t0) (hok : t0.walkOk s.myGrant mode = true) :
    exec (.awcfg o mode) s = .next (s.walkerWord o.wk fun w =>
      if (s.myCore.walker o.wk).cmds.isEmpty then w.settle (s.walkWait 1 o (s.rdH o.hdr) mode)
      else { w with cmds := w.cmds ++ [s.walkWait 1 o (s.rdH o.hdr) mode] }) := by
  change execAwcfg o mode s = _
  simp [execAwcfg, State.walkerWord, Nat.not_le.2 hl, hg, ht, hok]

theorem exec_awstop_idle (hc : (s.myCore.walker o.wk).cmds = []) (hg : s.myGrant.hasWalker o.wk.val = true)
    (hf : s.myGrant.flagOk o.fe o.flag = true) :
    exec (.awstop o) s = .next ((s.walkerWord o.wk fun w => w.settle (s.walkWait 3 o 0 false)).complFlag s.cur.core s.cur.ctx 3 o.fe o.flag) := by
  change execAwstop o s = _
  simp [execAwstop, State.walkerWord, hc, hg, hf]

theorem exec_awstop_busy (hl : (s.myCore.walker o.wk).cmds.length < 2) (hc : (s.myCore.walker o.wk).cmds ≠ [])
    (hg : s.myGrant.hasWalker o.wk.val = true) (hf : s.myGrant.flagOk o.fe o.flag = true) :
    exec (.awstop o) s = .next (s.walkerWord o.wk fun w => { w with cmds := w.cmds ++ [s.walkWait 3 o 0 false] }) := by
  change execAwstop o s = _
  simp [execAwstop, State.walkerWord, Nat.not_le.2 hl, hc, hg, hf]

/-- AWCFG latches its header in an idle walker and waits in one that has a word. -/
theorem awcfg_latches {t0 : Tensor} (hl : (s.myCore.walker o.wk).cmds.length < 2) (hg : s.myGrant.hasWalker o.wk.val = true)
    (ht : s.myCore.tensor (s.rdH o.hdr) 8 = some t0) (hok : t0.walkOk s.myGrant mode = true) :
    ∃ t, exec (.awcfg o mode) s = .next t ∧ SameData s t ∧ SameBuffers s t ∧ (∀ v, v ≠ o.wk → t.myCore.walker v = s.myCore.walker v) ∧
      ((s.myCore.walker o.wk).cmds = [] → t.myCore.walker o.wk = { conf := true, hdr := s.rdH o.hdr, store := mode, pos := 0, cmds := [] }) ∧
      ((s.myCore.walker o.wk).cmds ≠ [] → ∃ m, t.myCore.walker o.wk = { s.myCore.walker o.wk with cmds := (s.myCore.walker o.wk).cmds ++ [m] } ∧
        m.kind = 1 ∧ m.hdr = s.rdH o.hdr ∧ m.mode = mode ∧ m.count = 0) := by
  obtain ⟨-, hdata, hbufs⟩ := walkerWord_keeps s o.wk _
  refine ⟨_, exec_awcfg hl hg ht hok, hdata, hbufs, fun v hv => walkerWord_others s hv _, fun hc => ?_, fun hc => ?_⟩
  · rw [walkerWord_own, if_pos (by simp [hc])]
    simp [Walker.settle, State.walkWait, hc]
  · exact ⟨_, by rw [walkerWord_own, if_neg (by simp [hc])], rfl, rfl, rfl, rfl⟩

/-- AWSTOP leaves an idle walker unconfigured and waits in one that has a word. -/
theorem awstop_stops (hl : (s.myCore.walker o.wk).cmds.length < 2) (hg : s.myGrant.hasWalker o.wk.val = true)
    (hf : s.myGrant.flagOk o.fe o.flag = true) :
    ∃ t, exec (.awstop o) s = .next t ∧ SameData s t ∧ SameBuffers s t ∧ (∀ v, v ≠ o.wk → t.myCore.walker v = s.myCore.walker v) ∧
      ((s.myCore.walker o.wk).cmds = [] → t.myCore.walker o.wk = { s.myCore.walker o.wk with conf := false, pos := 0 } ∧
        FlagDue s t s.cur.core 3 o.fe o.flag) ∧
      ((s.myCore.walker o.wk).cmds ≠ [] → ∃ m, t.myCore.walker o.wk = { s.myCore.walker o.wk with cmds := (s.myCore.walker o.wk).cmds ++ [m] } ∧
        m.kind = 3 ∧ m.fe = o.fe ∧ m.flag = o.flag ∧ m.count = 0) := by
  by_cases hc : (s.myCore.walker o.wk).cmds = []
  · have hkeep := walkerWord_keeps s o.wk fun w => w.settle (s.walkWait 3 o 0 false)
    obtain ⟨hmore, hwalk⟩ := complFlag_keeps (congrArg Agent.core hkeep.cur) s.cur.ctx 3 o.fe o.flag
    obtain ⟨-, hdata, hbufs⟩ := hkeep.trans hmore
    have hupds : (s.walkerWord o.wk fun w => w.settle (s.walkWait 3 o 0 false)).myCore.upds = s.myCore.upds := by simp [State.walkerWord]
    rw [State.myCore, hkeep.cur] at hupds
    exact ⟨_, exec_awstop_idle hc hg hf, hdata, hbufs, fun v hv => (hwalk v).trans (walkerWord_others s hv _),
      fun _ => ⟨(hwalk _).trans (walkerWord_own ..), flagDue_complFlag hupds s.issued_cycle ..⟩, fun h => absurd hc h⟩
  · obtain ⟨-, hdata, hbufs⟩ := walkerWord_keeps s o.wk _
    exact ⟨_, exec_awstop_busy hl hc hg hf, hdata, hbufs, fun v hv => walkerWord_others s hv _, fun h => absurd h hc,
      fun _ => ⟨_, walkerWord_own .., rfl, rfl, rfl, rfl⟩⟩

end


/-! ### Entries taken and started (R187, R188, R191) -/

theorem foldl_qPop_eq (l : List QNo) (k : Core) : ∃ q fr, l.foldl (fun (c : Core) q => c.qPop q) k = { k with queues := q, freed := fr } := by
  induction l generalizing k with
  | nil => exact ⟨_, _, rfl⟩
  | cons a l ih => exact ih (k.qPop a)

/-- Taking an entry moves queues alone, and of the command only what it has taken. -/
theorem takeEntry_eq (k : Core) (m : WCmd) (store : Bool) : ∃ g n q fr ns,
    k.takeEntry m store = ({ m with taken := true, got := g, slot := n }, { k with queues := q, freed := fr, nextSlot := ns }) := by
  obtain ⟨q, fr, hp⟩ := foldl_qPop_eq (m.pops store) k
  rw [Core.takeEntry, hp]
  split
  · exact ⟨_, _, _, _, _, rfl⟩
  · exact ⟨_, _, _, _, _, rfl⟩

theorem one_le_portCycles (ws : List (Nat × Nat × Nat)) : 1 ≤ portCycles ws :=
  List.foldlRecOn (motive := (1 ≤ ·)) _ _ le_rfl fun _ h _ _ => h.trans (Nat.le_max_left _ _)

/-- A started entry is one entry fewer to start and one in flight, and takes a port cycle at least. -/
theorem startEntry_counts (k : Core) (t : Tensor) (m : WCmd) (store : Bool) (now : Nat) :
    (k.startEntry t m store now).1.count = m.count - 1 ∧ (k.startEntry t m store now).1.fly.length = m.fly.length + 1 ∧
      1 ≤ (k.startEntry t m store now).2 := by
  refine ⟨by simp only [Core.startEntry], by simp only [Core.startEntry, List.length_append, List.length_singleton], ?_⟩
  simp only [Core.startEntry]
  split
  · exact le_rfl
  · exact one_le_portCycles _

/-- A walker that may start an entry moves queues and changes its words one by one; all else stays. -/
theorem walkOne_eq (k : Core) (w : WNo) (now : Nat) : ∃ q fr ns g,
    k.walkOne w now = ({ k with queues := q, freed := fr, nextSlot := ns } : Core).modWalker w fun v => { v with cmds := v.cmds.map g } := by
  have hstay : k = ({ k with queues := k.queues, freed := k.freed, nextSlot := k.nextSlot } : Core).modWalker w
      fun v => { v with cmds := v.cmds.map id } := by
    simp only [List.map_id]
    exact (k.modWalker_id w).symm
  rw [Core.walkOne]
  split
  · exact ⟨_, _, _, _, hstay⟩
  next m hm =>
    split
    · exact ⟨_, _, _, _, hstay⟩
    · cases ht : m.taken with
      | true => exact ⟨k.queues, k.freed, k.nextSlot, _, rfl⟩
      | false =>
        obtain ⟨g, n, q, fr, ns, he⟩ := takeEntry_eq k m (k.walker w).store
        exact ⟨q, fr, ns, _, by rw [if_neg (by simp), he]⟩

/-- The only word of a walker whose queues are ready starts its next entry. -/
theorem walkOne_starts {k : Core} {w : WNo} {m : WCmd} {now : Nat} (hc : (k.walker w).cmds = [m]) (hn : 0 < m.count) (hat : m.at_ ≤ now)
    (hr : k.entryReady m (k.walker w).store = true) :
    ∃ m', ((k.walkOne w now).walker w).cmds = [m'] ∧ m'.count = m.count - 1 ∧ m'.fly.length = m.fly.length + 1 ∧ now < m'.at_ := by
  have htake : ∃ m1 k1, (if m.taken then (m, k) else k.takeEntry m (k.walker w).store) = (m1, k1) ∧ m1.count = m.count ∧ m1.fly = m.fly ∧
      k1.walker w = k.walker w := by
    cases ht : m.taken with
    | true => exact ⟨m, k, if_pos rfl, rfl, rfl, rfl⟩
    | false =>
      obtain ⟨g, n, q, fr, ns, he⟩ := takeEntry_eq k m (k.walker w).store
      exact ⟨_, _, (if_neg (by simp)).trans he, rfl, rfl, rfl⟩
  obtain ⟨m1, k1, he, hm1, hf1, hk1⟩ := htake
  have hfind : (k.walker w).cmds.find? (fun m => m.count > 0) = some m := by simp [hc, hn]
  obtain ⟨hcount, hfly, hcost⟩ := startEntry_counts k1 (k1.pattern (k.walker w)) m1 (k.walker w).store now
  have hcmds : ((k.walkOne w now).walker w).cmds = [{ (k1.startEntry (k1.pattern (k.walker w)) m1 (k.walker w).store now).1 with
      at_ := now + (k1.startEntry (k1.pattern (k.walker w)) m1 (k.walker w).store now).2 }] := by
    rw [Core.walkOne, hfind]
    dsimp only
    rw [if_neg (by simp [hat, hr]), he, Core.walker_modWalker_self, hk1]
    simp [hc]
  exact ⟨_, hcmds, by rw [← hm1]; exact hcount, by rw [← hf1]; exact hfly, Nat.lt_add_of_pos_right hcost⟩

/-- A start changes its core by `Core.walkOne` and may make the trap of a struck line pending. -/
theorem walkStart_eq (s : State) (c : CoreId) (w : WNo) : ∃ x f,
    s.walkStart c w = (s.modCore c fun k => k.walkOne w s.cycle).modCtx c x f ∧ ∀ k, (f k).s = k.s ∧ (f k).h = k.h := by
  rw [State.walkStart]
  split
  next p _ =>
    obtain ⟨f, hf, hregs⟩ := readStruck_eq_modCtx (s.modCore c fun k => k.walkOne w s.cycle) c p.1 0 p.2
    exact ⟨p.1, f, hf, hregs⟩
  · exact ⟨0, fun k => k, (State.modCtx_id ..).symm, fun _ => ⟨rfl, rfl⟩⟩

theorem walkStart_cur (s : State) (c : CoreId) (w : WNo) : (s.walkStart c w).cur = s.cur := by
  obtain ⟨x, f, he, -⟩ := walkStart_eq s c w
  rw [he]; rfl

theorem walkStart_walker (s : State) (c : CoreId) (w : WNo) : ((s.walkStart c w).core c).walker w = ((s.core c).walkOne w s.cycle).walker w := by
  obtain ⟨x, f, he, -⟩ := walkStart_eq s c w
  rw [he, State.core_modCtx_self, State.core_modCore_self]; rfl

theorem walkStart_buffers (s : State) (c : CoreId) (w : WNo) : SameBuffersOf s (s.walkStart c w) c := by
  obtain ⟨x, f, he, -⟩ := walkStart_eq s c w
  obtain ⟨q, fr, ns, g, hw⟩ := walkOne_eq (s.core c) w s.cycle
  simp [SameBuffersOf, he, hw]

theorem walkStart_regs (s : State) (c : CoreId) (w : WNo) (y : CtxId) : SameRegs s (s.walkStart c w) c y := by
  obtain ⟨x, f, he, hf⟩ := walkStart_eq s c w
  obtain ⟨q, fr, ns, g, hw⟩ := walkOne_eq (s.core c) w s.cycle
  rw [he]
  exact (sameRegs_modCore s c _ (by rw [hw]; rfl) y).trans (sameRegs_modCtx_any _ c x f hf y)

/-! ### AWGO, AWGATHER and AWSCAT (R186, R188) -/

/-- A pattern word has issued, entered the range checker, taken its first entry and joined its walker. -/
def State.walkJoined (s : State) (kind : Nat) (o : WOp) (iq : QNo) : State :=
  (s.issued.modMe fun k => k.enterAccess (s.walkPrint kind o)).modMyCore fun k =>
    (k.takeEntry (s.walkCmd kind o iq) (k.walker o.wk).store).2.modWalker o.wk fun w =>
      { w with cmds := w.cmds ++ [(k.takeEntry (s.walkCmd kind o iq) (k.walker o.wk).store).1],
               pos := if kind = 2 then (w.pos + s.walkCount o) % 2 ^ 32 else w.pos }

section
variable {s : State} {kind : Nat} {o : WOp} {iq : QNo}

theorem walkGo_illegal (h : s.walkLegal kind o iq = false) : s.walkGo kind o iq = .next s.trapRange := by
  rw [State.walkGo, if_pos (by simp [h])]

theorem walkGo_holds (h : s.walkLegal kind o iq = true) (hr : s.walkReady kind o iq = false) : s.walkGo kind o iq = .next s := by
  rw [State.walkGo, if_neg (by simp [h]), if_pos (by simp [hr])]
  rfl

/-- The word joins; an idle walker starts its entry at once. -/
theorem walkGo_joins (h : s.walkLegal kind o iq = true) (hr : s.walkReady kind o iq = true) :
    s.walkGo kind o iq = .next (if (s.myCore.walker o.wk).cmds.all fun c => c.count = 0
      then (s.walkJoined kind o iq).walkStart s.cur.core o.wk else s.walkJoined kind o iq) := by
  rw [State.walkGo, if_neg (by simp [h]), if_neg (by simp [hr])]
  rfl

variable (s kind o iq)

theorem walkJoined_keeps : KeepsData s (s.walkJoined kind o iq) := by
  obtain ⟨hs, hh⟩ := enterAccess_regs s.issued.me (s.walkPrint kind o)
  have henter : KeepsData s.issued (s.issued.modMe fun k => k.enterAccess (s.walkPrint kind o)) :=
    ⟨rfl, sameData_modMe s.issued _ hs hh, by simp [SameBuffers]⟩
  refine ((keepsData_issued s).trans henter).trans ?_
  rw [State.walkJoined]
  generalize s.issued.modMe (fun k => k.enterAccess (s.walkPrint kind o)) = u
  obtain ⟨g, n, q, fr, ns, he⟩ := takeEntry_eq u.myCore (s.walkCmd kind o iq) (u.myCore.walker o.wk).store
  exact ⟨rfl, sameData_modMyCore u _ (by rw [he]; rfl), by simp [SameBuffers, he]⟩

theorem walkJoined_walker : ∃ m, (s.walkJoined kind o iq).myCore.walker o.wk =
    { s.myCore.walker o.wk with cmds := (s.myCore.walker o.wk).cmds ++ [m],
                                pos := if kind = 2 then ((s.myCore.walker o.wk).pos + s.walkCount o) % 2 ^ 32 else (s.myCore.walker o.wk).pos } := by
  have henter : (s.issued.modMe fun k => k.enterAccess (s.walkPrint kind o)).myCore.walker o.wk = s.myCore.walker o.wk := by
    rw [State.myCore_modMe]
    exact s.issued_walker o.wk
  rw [State.walkJoined, State.myCore_modMyCore]
  generalize (s.issued.modMe fun k => k.enterAccess (s.walkPrint kind o)).myCore = k at henter
  obtain ⟨g, n, q, fr, ns, he⟩ := takeEntry_eq k (s.walkCmd kind o iq) (k.walker o.wk).store
  have hown : (k.takeEntry (s.walkCmd kind o iq) (k.walker o.wk).store).2.walker o.wk = s.myCore.walker o.wk := by rw [he]; exact henter
  exact ⟨_, by rw [Core.walker_modWalker_self, hown]⟩

/-- Whether it starts or not, a word that has joined keeps all data, the header and the position. -/
theorem walkJoined_started (b : Bool) :
    let t := if b then (s.walkJoined kind o iq).walkStart s.cur.core o.wk else s.walkJoined kind o iq
    KeepsData s t ∧ (t.myCore.walker o.wk).cmds.length = (s.myCore.walker o.wk).cmds.length + 1 ∧
      (t.myCore.walker o.wk).hdr = (s.myCore.walker o.wk).hdr ∧
      (t.myCore.walker o.wk).pos = if kind = 2 then ((s.myCore.walker o.wk).pos + s.walkCount o) % 2 ^ 32 else (s.myCore.walker o.wk).pos := by
  have hkeep := walkJoined_keeps s kind o iq
  obtain ⟨m, hm⟩ := walkJoined_walker s kind o iq
  cases b with
  | false => exact ⟨hkeep, by simp [hm], by simp [hm], by simp [hm]⟩
  | true =>
    generalize s.walkJoined kind o iq = u at hkeep hm
    rw [← hkeep.cur]
    have hstart : (u.walkStart u.cur.core o.wk).myCore.walker o.wk = (u.myCore.walkOne o.wk u.cycle).walker o.wk := by
      rw [State.myCore, walkStart_cur]
      exact walkStart_walker u u.cur.core o.wk
    obtain ⟨q, fr, ns, f, hw⟩ := walkOne_eq u.myCore o.wk u.cycle
    have hown : (u.walkStart u.cur.core o.wk).myCore.walker o.wk =
        { u.myCore.walker o.wk with cmds := (u.myCore.walker o.wk).cmds.map f } := by
      rw [hstart, hw, Core.walker_modWalker_self]; rfl
    exact ⟨hkeep.trans (keepsData_of_core (walkStart_cur ..) (walkStart_regs ..) (walkStart_buffers ..)), by simp [hown, hm], by simp [hown, hm],
      by simp [hown, hm]⟩

end

/-- The pattern words are one word with their kinds. -/
theorem exec_patternWord {s : State} {o : WOp} {iq : QNo} {q : Instr × Nat × QNo}
    (hq : q ∈ [(Instr.awgo o, 2, (0 : QNo)), (.awgather o iq, 4, iq), (.awscat o iq, 5, iq)]) : exec q.1 s = s.walkGo q.2.1 o q.2.2 := by
  simp only [List.mem_cons, List.not_mem_nil, or_false] at hq
  obtain rfl | rfl | rfl := hq <;> rfl

/-! ### Entries that land (R186, R188, R191) -/

theorem Core.queue_qFill (k : Core) (q : QNo) (n : Nat) (v : VReg) :
    (k.qFill q n v).queue q = (k.queue q).map fun e => if e.id = n then { e with val := some v } else e := by
  simp [Core.queue, Core.qFill]

/-- Bits of a line of ABUF or CBUF written: that line is blended, and the others of its buffer stay. -/
theorem Core.line_blendLine {b : Nat} (hb : b = 1 ∨ b = 2) (k : Core) (l l' : Nat) (mask v : VReg) :
    (k.blendLine b l mask v).line b l' = if l' = l then (k.line b l &&& ~~~mask) ||| (v &&& mask) else k.line b l' := by
  obtain rfl | rfl := hb
  · exact sget_sset k.abuf l l' _
  · exact sget_sset k.cbuf l l' _

/-- From `k` to `q` only the typed buffers and the queues may have changed of what a walker touches. -/
structure LandsOnly (k q : Core) : Prop where
  ctxs : q.ctxs = k.ctxs
  walkers : q.walkers = k.walkers
  upds : q.upds = k.upds

theorem Core.blendLine_landsOnly (k : Core) (b l : Nat) (mask v : VReg) : LandsOnly k (k.blendLine b l mask v) := by
  unfold Core.blendLine Core.setLine
  (repeat' split) <;> exact ⟨rfl, rfl, rfl⟩

theorem Core.landEntry_landsOnly (k : Core) (buf : Nat) (m : WCmd) (f : WFly) : LandsOnly k (k.landEntry buf m f) := by
  rw [Core.landEntry]
  split
  · exact ⟨rfl, rfl, rfl⟩
  · refine List.foldlRecOn (motive := LandsOnly k) _ _ ⟨rfl, rfl, rfl⟩ fun q h p _ => ?_
    obtain ⟨hx, hw, hu⟩ := h
    obtain ⟨hx', hw', hu'⟩ := q.blendLine_landsOnly buf p.1 p.2.1 p.2.2
    exact ⟨hx'.trans hx, hw'.trans hw, hu'.trans hu⟩

/-! ### The words of a walker that are complete (R185, R189) -/

theorem foldl_of_fixed {α β : Type} {f : β → α → β} {b : β} {l : List α} (h : ∀ a ∈ l, f b a = b) : l.foldl f b = b := by
  induction l with
  | nil => rfl
  | cons a l ih => rw [List.foldl_cons, h a List.mem_cons_self, ih fun x hx => h x (List.mem_cons_of_mem _ hx)]

theorem doneCmds_of_over {l : List WCmd} (h : ∀ m ∈ l, m.over_ = true) : doneCmds l true = l := by
  induction l with
  | nil => rfl
  | cons m l ih => simp [doneCmds, h m List.mem_cons_self, ih fun x hx => h x (List.mem_cons_of_mem _ hx)]

/-- A walker whose words are all complete, after the waiting ones `l` among them have acted. -/
def Walker.settled (w : Walker) (l : List WCmd) : Walker := l.foldl Walker.settle { w with cmds := [] }

theorem Walker.settle_cmds (w : Walker) (m : WCmd) : (w.settle m).cmds = w.cmds := by
  rw [Walker.settle]
  split <;> rfl

theorem Walker.settled_cmds (w : Walker) (l : List WCmd) : (w.settled l).cmds = [] :=
  List.foldlRecOn (motive := fun v : Walker => v.cmds = []) _ _ rfl fun v h m _ => (v.settle_cmds m).trans h

/-- The one AWCFG that waits latches its header and mode with position 0. -/
theorem Walker.settled_awcfg (w : Walker) {a : WCmd} (h : a.kind = 1) :
    w.settled [a] = { conf := true, hdr := a.hdr, store := a.mode, pos := 0, cmds := [] } := by
  simp [Walker.settled, Walker.settle, h]

section
variable {s : State} {c : CoreId} {w : WNo} {m : WCmd} {f : WFly} {rest : List WCmd}

/-- The last entry of the oldest word lands, behind which only AWCFG words wait: the word makes its update and they act. -/
theorem landWalker_last (hc : ((s.core c).walker w).cmds = m :: rest) (hk1 : m.kind ≠ 1) (hk3 : m.kind ≠ 3) (hf : m.fly = [f])
    (hd : f.due ≤ s.cycle) (hn : m.count = 0) (hrest : ∀ a ∈ rest, a.kind = 1 ∧ a.count = 0 ∧ a.fly = []) :
    s.landWalker c w = ((s.modCore c fun k => (k.landEntry ((s.core c).pattern ((s.core c).walker w)).buf m f).modWalker w
      fun v => v.settled rest).complFlag c m.ctx 3 m.fe m.flag).modCtx c m.ctx fun k => k.leaveAccess (1 + w.val) m.epoch m.idx := by
  have hkind : ∀ a ∈ rest, a.kind = 1 := fun a ha => (hrest a ha).1
  have hfly : ∀ a ∈ rest, a.fly = [] := fun a ha => (hrest a ha).2.2
  have hland (k : Core) (buf : Nat) : (m :: rest).foldl (fun (q : Core) m =>
      (m.fly.filter fun f => f.due ≤ s.cycle).foldl (fun (q : Core) f => q.landEntry buf m f) q) k = k.landEntry buf m f := by
    rw [List.foldl_cons, foldl_of_fixed fun a ha => by rw [hfly a ha]; rfl]
    simp [hf, hd]
  have hcmds : (m :: rest).map (fun (m : WCmd) => { m with fly := m.fly.filter fun f => f.due > s.cycle }) = { m with fly := [] } :: rest := by
    have hsame : ∀ a ∈ rest, ({ a with fly := a.fly.filter fun f => f.due > s.cycle } : WCmd) = a := fun a ha => by
      rw [hfly a ha, List.filter_nil, ← hfly a ha]
    rw [List.map_cons, List.map_congr_left (g := id) hsame, List.map_id]
    simp [hf, hd]
  have hdone : doneCmds ({ m with fly := [] } :: rest) true = { m with fly := [] } :: rest := by
    refine doneCmds_of_over fun a ha => ?_
    obtain rfl | ha := List.mem_cons.1 ha
    · simp [WCmd.over_, hn]
    · simp [WCmd.over_, (hrest a ha).2]
  have hset (v : Walker) : ({ m with fly := [] } :: rest).foldl (fun (v : Walker) m => if m.kind = 1 || m.kind = 3 then v.settle m else v)
      { v with cmds := [] } = v.settled rest := by
    rw [List.foldl_cons, if_neg (by simp [hk1, hk3]), Walker.settled]
    exact List.foldl_ext _ _ _ fun v a ha => by rw [if_pos (by simp [hkind a ha])]
  have hgone : (({ m with fly := [] } :: rest : List WCmd).filter fun a => !({ m with fly := [] } :: rest : List WCmd).contains a) = [] := by
    rw [List.filter_eq_nil_iff]
    intro a ha
    simpa using (List.mem_cons.1 ha).resolve_left
  rw [State.landWalker]
  rw [hc, hcmds, hdone, hgone, List.foldl_cons, if_neg hk1, foldl_of_fixed fun a ha => by rw [if_pos (hkind a ha)]]
  simp only [hland, hset, State.modCore_modCore]

end

/-! ### WALKER_ENTRY (R186, R187, R189) -/

theorem exec_walkerEntry_lands {s : State} {c : CoreId} {w : WNo} (h : s.walkerLands c w = true) :
    exec (.walkerEntry c w) s = .next (s.landWalker c w) := if_pos h

theorem exec_walkerEntry_starts {s : State} {c : CoreId} {w : WNo} (h : s.walkerLands c w = false) :
    exec (.walkerEntry c w) s = .next (s.walkStart c w) := if_neg (by simp [h])

section
variable {s : State} {c : CoreId} {w : WNo} {m : WCmd} {f : WFly} {rest : List WCmd}

/-- What the event leaves when the last entry of the oldest word lands: the update on its way, the walker settled, and the entry in the core. -/
theorem walkerEntry_last (hc : ((s.core c).walker w).cmds = m :: rest) (hk1 : m.kind ≠ 1) (hk3 : m.kind ≠ 3) (hf : m.fly = [f])
    (hd : f.due ≤ s.cycle) (hn : m.count = 0) (hrest : ∀ a ∈ rest, a.kind = 1 ∧ a.count = 0 ∧ a.fly = []) :
    ∃ t, exec (.walkerEntry c w) s = .next t ∧ FlagDue s t c 3 m.fe m.flag ∧ (∀ x, SameRegs s t c x) ∧
      (t.core c).walker w = ((s.core c).walker w).settled rest ∧
      (∀ b, (t.core c).buf b = ((s.core c).landEntry ((s.core c).pattern ((s.core c).walker w)).buf m f).buf b) ∧
      ∀ q, (t.core c).queue q = ((s.core c).landEntry ((s.core c).pattern ((s.core c).walker w)).buf m f).queue q := by
  obtain ⟨hctxs, hwalkers, hupds⟩ := (s.core c).landEntry_landsOnly ((s.core c).pattern ((s.core c).walker w)).buf m f
  refine ⟨_, (exec_walkerEntry_lands (by simp [State.walkerLands, Walker.landing, hc, hf, hd])).trans
    (congrArg _ (landWalker_last hc hk1 hk3 hf hd hn hrest)), ?_⟩
  generalize ((s.core c).pattern ((s.core c).walker w)).buf = buf at *
  let u := s.modCore c fun k => (k.landEntry buf m f).modWalker w fun v => v.settled rest
  have hu : u.core c = ((s.core c).landEntry buf m f).modWalker w fun v => v.settled rest := State.core_modCore_self ..
  change FlagDue s ((u.complFlag c m.ctx 3 m.fe m.flag).modCtx c m.ctx _) c 3 m.fe m.flag ∧ _
  have hpend : (u.core c).upds = (s.core c).upds := by rw [hu]; exact hupds
  have hflag : FlagDue s (u.complFlag c m.ctx 3 m.fe m.flag) c 3 m.fe m.flag := flagDue_complFlag hpend rfl ..
  obtain ⟨l, hl, -⟩ := complFlag_eq_modCore u c m.ctx 3 m.fe m.flag
  have hcore : ((u.complFlag c m.ctx 3 m.fe m.flag).modCtx c m.ctx fun k => k.leaveAccess (1 + w.val) m.epoch m.idx).core c =
      ({ u.core c with upds := (u.core c).upds ++ l } : Core).modCtx m.ctx fun k => k.leaveAccess (1 + w.val) m.epoch m.idx := by
    rw [State.core_modCtx_self, hl, State.core_modCore_self]
  refine ⟨?_, fun x => ?_, ?_, fun b => ?_, fun q => ?_⟩
  · rw [FlagDue, State.core_modCtx_self, Core.modCtx_upds]
    exact hflag
  · have hland : SameRegs s u c x := sameRegs_modCore s c _ hctxs x
    exact (hland.trans (sameRegs_complFlag u c m.ctx 3 m.fe m.flag x)).trans
      (sameRegs_modCtx_any _ c m.ctx (fun k => k.leaveAccess (1 + w.val) m.epoch m.idx) (fun _ => ⟨rfl, rfl⟩) x)
  · rw [hcore, Core.walker, Core.modCtx_walkers]
    change (u.core c).walker w = _
    rw [hu, Core.walker_modWalker_self, Core.walker, hwalkers]
    rfl
  · rw [hcore, Core.buf, Core.modCtx_abuf, Core.modCtx_cbuf, Core.modCtx_wbuf, hu]
    rfl
  · rw [hcore, Core.queue, Core.modCtx_queues, hu]
    rfl

/-- The last entry of the oldest word lands in its slot or its line; the walker is left without words, and an AWCFG that waited has acted. -/
theorem walkerEntry_completes (hc : ((s.core c).walker w).cmds = m :: rest) (hk1 : m.kind ≠ 1) (hk3 : m.kind ≠ 3) (hf : m.fly = [f])
    (hd : f.due ≤ s.cycle) (hn : m.count = 0) (hrest : ∀ a ∈ rest, a.kind = 1 ∧ a.count = 0 ∧ a.fly = []) :
    ∃ t, exec (.walkerEntry c w) s = .next t ∧ ((t.core c).walker w).cmds = [] ∧ FlagDue s t c 3 m.fe m.flag ∧ (∀ x, SameRegs s t c x) ∧
      (rest = [] → ((t.core c).walker w).hdr = ((s.core c).walker w).hdr ∧ ((t.core c).walker w).conf = ((s.core c).walker w).conf) ∧
      (∀ a, rest = [a] → ((t.core c).walker w).conf = true ∧ ((t.core c).walker w).hdr = a.hdr ∧ ((t.core c).walker w).store = a.mode ∧
        ((t.core c).walker w).pos = 0) ∧
      (∀ n, f.slot = some n → SameBuffersOf s t c ∧
        (t.core c).queue m.q = ((s.core c).queue m.q).map fun e => if e.id = n then { e with val := some f.val } else e) ∧
      (∀ b l mask v, f.slot = none → ((s.core c).pattern ((s.core c).walker w)).buf = b → b = 1 ∨ b = 2 → f.writes = [(l, mask, v)] → l < 8192 →
        (t.core c).line b l = ((s.core c).line b l &&& ~~~mask) ||| (v &&& mask) ∧ ∀ l', l' ≠ l → (t.core c).line b l' = (s.core c).line b l') := by
  obtain ⟨t, hexec, hflag, hregs, hwalk, hbuf, hqueue⟩ := walkerEntry_last hc hk1 hk3 hf hd hn hrest
  refine ⟨t, hexec, by rw [hwalk, Walker.settled_cmds], hflag, hregs, ?_, ?_, fun n hs => ?_, fun b l mask v hs hb hb12 hw _ => ?_⟩
  · rintro rfl
    rw [hwalk]
    exact ⟨rfl, rfl⟩
  · rintro a rfl
    rw [hwalk, Walker.settled_awcfg _ (hrest a List.mem_cons_self).1]
    exact ⟨rfl, rfl, rfl, rfl⟩
  · simp only [Core.landEntry, hs] at hbuf hqueue
    exact ⟨⟨hbuf 1, hbuf 2, hbuf 3⟩, (hqueue m.q).trans (Core.queue_qFill ..)⟩
  · have hline (l' : Nat) : (t.core c).line b l' =
        if l' = l then ((s.core c).line b l &&& ~~~mask) ||| (v &&& mask) else (s.core c).line b l' := by
      rw [Core.line, hbuf, hb, Core.landEntry, hs, hw]
      exact Core.line_blendLine hb12 ..
    exact ⟨by rw [hline, if_pos rfl], fun l' hl' => by rw [hline, if_neg hl']⟩

/-- A walker whose only word has nothing in flight starts its next entry. -/
theorem walkerEntry_starts (hc : ((s.core c).walker w).cmds = [m]) (hf : m.fly = []) (hn : 0 < m.count) (hat : m.at_ ≤ s.cycle)
    (hr : (s.core c).entryReady m ((s.core c).walker w).store = true) :
    ∃ t m', exec (.walkerEntry c w) s = .next t ∧ ((t.core c).walker w).cmds = [m'] ∧ m'.count = m.count - 1 ∧ m'.fly.length = 1 ∧ s.cycle < m'.at_ ∧
      SameBuffersOf s t c ∧ ∀ x, SameRegs s t c x := by
  obtain ⟨m', hm, hcount, hfly, hnext⟩ := walkOne_starts hc hn hat hr
  exact ⟨_, m', exec_walkerEntry_starts (by simp [State.walkerLands, Walker.landing, hc, hf]), by rw [walkStart_walker, hm], hcount,
    by rw [hfly, hf]; rfl, hnext, walkStart_buffers s c w, walkStart_regs s c w⟩

end

/-- Settles O45: AWCFG and AWSTOP settle or wait, a pattern word joins its walker, and WALKER_ENTRY lands what is due or starts the next entry. -/
theorem walkerWordsAndEntries : Obligations.WalkerWordsAndEntries := by
  refine ⟨fun s o mode iq => ⟨awcfg_awstop_hold s o mode, fun _ hl hg ht hok => awcfg_latches hl hg ht hok, fun q hq => ?_,
    fun hl hg hf => awstop_stops hl hg hf⟩, ?_⟩
  · rw [exec_patternWord hq]
    refine ⟨fun h hlive => ⟨_, walkGo_illegal h, trapped_range hlive⟩, walkGo_holds, fun h hr => ?_⟩
    obtain ⟨⟨-, hdata, hbufs⟩, hwalk⟩ := walkJoined_started s q.2.1 o q.2.2 _
    exact ⟨_, walkGo_joins h hr, hdata, hbufs, hwalk⟩
  · intro s c w m f rest hc hk1 hk3 _
    refine ⟨fun hf hd hn hrest => walkerEntry_completes hc hk1 hk3 hf hd hn hrest, ?_⟩
    rintro rfl hf hn hat hr
    exact walkerEntry_starts hc hf hn hat hr

end Sys2Proof.Machine
end

section
/-! PROOFS. O46: the copy words. CPY, CPYC, CPYM, CPYD and CPYH make the same checks in the same order (`exec_copyWord`) and join their channel in
one way (`cpyGo_joins`); CWP leaves an update of its flag. -/

namespace Sys2Proof.Machine

/-! ### Registers and buffers that stay -/

theorem keepsData_modMe (s : State) {f : Ctx → Ctx} (hf : (f s.me).s = s.me.s ∧ (f s.me).h = s.me.h) : KeepsData s (s.modMe f) :=
  ⟨rfl, sameData_modMe s f hf.1 hf.2, by simp [SameBuffers]⟩

/-- A change of one copy channel. -/
theorem keepsData_channel (s : State) (ch : ChNo) (f : Channel → Channel) :
    KeepsData s (s.modMyCore fun k => { k with chans := vmod k.chans ch.val f }) :=
  ⟨rfl, sameData_modMyCore s _ rfl, by simp [SameBuffers]⟩

theorem keepsData_skipFresh (s : State) (n : Nat) : KeepsData s (s.skipFresh n) :=
  ⟨rfl, ⟨fun _ => rfl, fun _ => rfl, fun _ => ⟨rfl, rfl⟩⟩, rfl, rfl, rfl⟩

theorem keepsData_pushFlag (s : State) (u : FlagUpd) : KeepsData s (s.pushFlag s.cur.core u) :=
  ⟨rfl, sameData_pushFlag s u, by simp [SameBuffers, myCore_pushFlag]⟩

theorem chans_vmod_self (k : Core) (ch : ChNo) (f : Channel → Channel) : (vmod k.chans ch.val f)[ch] = f k.chans[ch] := by
  rw [getElem_vmod, if_pos rfl]

/-! ### A copy word joins its channel (R210, R211) -/

/-- `m` is the command of a copy word of kind `kind` that issues in `s` with operands `h` and plan `p`, and nothing of it has been copied. -/
structure CPlan.IssuedAs (p : CPlan) (s : State) (kind : Nat) (h : HOp) (m : CCmd) : Prop where
  kind : m.kind = kind
  hd : m.hd = s.rdH h.hd
  hs : m.hs = s.rdH h.ha
  fmtD : m.fmtD = p.d.fmt
  fmtS : m.fmtS = p.s.fmt
  done : m.done = 0
  phase : m.phase = 0
  transforming : m.transforming = p.tr
  fe : m.fe = h.fe
  flag : m.flag = h.flag
  ue : m.ue = h.ue
  due : s.cycle < m.due
  peer : m.peer = p.peer

/-- The running word has issued with the effect `g` on its context, and its command `m` has joined channel `ch`. -/
def State.copyJoined (s : State) (g : Ctx → Ctx) (ch : ChNo) (m : CCmd) : State :=
  ((s.issued.modMe g).modMyCore fun k => { k with chans := vmod k.chans ch.val fun (c : Channel) => { c with cmds := c.cmds ++ [m] } }).skipFresh 1

theorem copyJoined_cmds (s : State) (g : Ctx → Ctx) (ch : ChNo) (m : CCmd) :
    ((s.copyJoined g ch m).myCore.chans[ch]).cmds = (s.myCore.chans[ch]).cmds ++ [m] := by
  rw [State.copyJoined, State.skipFresh_myCore, State.myCore_modMyCore, chans_vmod_self, State.myCore_modMe, Core.modCtx_chans,
    State.issued_myCore_chans]

theorem copyJoined_keeps (s : State) {g : Ctx → Ctx} (hg : ∀ k, (g k).s = k.s ∧ (g k).h = k.h) (ch : ChNo) (m : CCmd) :
    KeepsData s (s.copyJoined g ch m) :=
  (((keepsData_issued s).trans (keepsData_modMe _ (hg _))).trans (keepsData_channel _ ch _)).trans (keepsData_skipFresh _ 1)

/-- `more` is what the word's further footprint does to the context. -/
theorem cpyGo_joins {s : State} {e : SEntry} (he : s.headWord = some e) {more : Ctx → Ctx} (hmore : ∀ k, (more k).s = k.s ∧ (more k).h = k.h)
    (kind : Nat) (h : HOp) (ch : ChNo) (rm : Nat) (repl : Bool) (mop : Nat) (ovw : Bool) (hx : HReg) (p : CPlan) :
    ∃ g m, s.cpyGo kind h ch rm repl mop ovw hx p more = .next (s.copyJoined g ch m) ∧ p.IssuedAs s kind h m ∧
      KeepsData s (s.copyJoined g ch m) := by
  have hdue : s.cycle < s.freeDelay (s.cycle + 1) := Nat.lt_of_lt_of_le (Nat.lt_succ_self _) (Nat.le_add_right _ _)
  have hregs (k : Ctx) (v : Word) : (more { k.enterAccess (s.cpyPrint ch h.ac.val p) with vrctr := v }).s = k.s ∧
      (more { k.enterAccess (s.cpyPrint ch h.ac.val p) with vrctr := v }).h = k.h := by
    obtain ⟨hs, hh⟩ := enterAccess_regs k (s.cpyPrint ch h.ac.val p)
    obtain ⟨hs', hh'⟩ := hmore { k.enterAccess (s.cpyPrint ch h.ac.val p) with vrctr := v }
    exact ⟨hs'.trans hs, hh'.trans hh⟩
  unfold State.cpyGo
  rw [he]
  exact ⟨_, _, rfl, ⟨rfl, rfl, rfl, rfl, rfl, rfl, rfl, rfl, rfl, rfl, rfl, hdue, rfl⟩, copyJoined_keeps s (fun k => hregs k _) ch _⟩

/-! ### The copy words (R215 to R219) -/

/-- The copy words without a peer, with their kinds. -/
def copyWords (h : HOp) (rm : Fin 16) (repl ovw : Bool) (mop : Fin 4) (hx : HReg) (ch : ChNo) : List (Instr × Nat) :=
  [(.cpy h 0 0 false ch, 1), (.cpyc h rm ch, 2), (.cpym h hx mop ovw ch, 3), (.cpyd h rm repl ch, 4), (.cpyh h ch, 5)]

section
variable {s : State} {h : HOp} {rm : Fin 16} {repl ovw : Bool} {mop : Fin 4} {hx : HReg} {ch : ChNo} {q : Instr × Nat}

/-- A copy word holds without room, then traps where its flag, its future or its engine is not the context's, then looks for its plan. -/
theorem exec_copyWord (s : State) (hq : q ∈ copyWords h rm repl ovw mop hx ch) : ∃ (refused : Bool) (go : Host.Outcome State Fault Refusal),
    (exec q.1 s = if !s.cpyRoom ch then .next s else if refused then .next s.trapRange else go) ∧ (s.cpyDone h none = false → refused = true) := by
  simp only [copyWords, List.mem_cons, List.not_mem_nil, or_false] at hq
  obtain rfl | rfl | rfl | rfl | rfl := hq <;> exact ⟨_, _, rfl, fun hd => by simp [hd]⟩

/-- With room, its own flag and future, and a plan, the word joins its channel; CPYM needs its matrix plan too, and CPYD its list. -/
theorem exec_copyWord_go {p : CPlan} (hq : q ∈ copyWords h rm repl ovw mop hx ch) (hr : s.cpyRoom ch = true) (hd : s.cpyDone h none = true)
    (hp : s.cpyPlan q.2 (s.rdH h.hd) (s.rdH h.ha) none = some p)
    (hm : q.2 = 3 → s.myGrant.hasEng .mtx = true ∧
      (s.myCore.cpymPlan s.myGrant mop.val ovw (s.rdH h.hd) (s.rdH h.hb) (s.rdH hx)).isSome = true)
    (hl : q.2 = 4 → s.listOk (s.rdH h.hb) = true) :
    ∃ rm' repl' mop' ovw' hx' more, exec q.1 s = s.cpyGo q.2 h ch rm' repl' mop' ovw' hx' p more ∧
      ∀ k, (more k).s = k.s ∧ (more k).h = k.h := by
  have hid (k : Ctx) : (id k).s = k.s ∧ (id k).h = k.h := ⟨rfl, rfl⟩
  simp only [copyWords, List.mem_cons, List.not_mem_nil, or_false] at hq
  obtain rfl | rfl | rfl | rfl | rfl := hq
  · refine ⟨16, false, 0, false, 0, id, ?_, hid⟩
    change execCpy h 0 0 false ch s = _
    simp [execCpy, hr, hd, hp]
  · refine ⟨rm.val, false, 0, false, 0, id, ?_, hid⟩
    change execCpyc h rm ch s = _
    simp [execCpyc, hr, hd, hp]
  · obtain ⟨he, hmp⟩ := hm rfl
    obtain ⟨mp, hmp⟩ := Option.isSome_iff_exists.1 hmp
    refine ⟨16, false, mop.val, ovw, hx, _, ?_, fun k => enterAccess_regs k (s.footprint 12 h.ac.val mp.reads mp.writes)⟩
    change execCpym h hx mop ovw ch s = _
    simp [execCpym, hr, hd, he, hp, hmp]
  · refine ⟨rm.val, repl, 0, false, 0, id, ?_, hid⟩
    change execCpyd h rm repl ch s = _
    simp [execCpyd, hr, hd, hl rfl, hp]
  · refine ⟨16, false, 0, false, 0, id, ?_, hid⟩
    change execCpyh h ch s = _
    simp [execCpyh, hr, hd, hp]

/-- A delivery's flag is asked of the peer's grant, and its destination is the peer's (R174). -/
theorem exec_cpy_peer {delta : Fin 16} {gs : Fin 4} {pc : CoreId × CtxId} {p : CPlan} (hr : s.cpyRoom ch = true)
    (hpeer : s.peerOf delta.val gs.val = some pc) (hd : s.cpyDone h (some pc) = true)
    (hp : s.cpyPlan 1 (s.rdH h.hd) (s.rdH h.ha) (some pc) = some p) :
    exec (.cpy h delta gs true ch) s = s.cpyGo 1 h ch 16 false 0 false 0 p id := by
  change execCpy h delta gs true ch s = _
  simp [execCpy, hr, hpeer, hd, hp]

/-! ### CWP (R220) -/

/-- CWP has issued and set or ended its channel's tracking, but for its update. -/
def State.cwpIssued (s : State) (h : HOp) (trk : Bool) (ch : ChNo) : State :=
  s.issued.modMyCore fun k => { k with chans := vmod k.chans ch.val fun (c : Channel) => { c with track := if trk then some h.flag else none } }

theorem cwpIssued_keeps (s : State) (h : HOp) (trk : Bool) (ch : ChNo) : KeepsData s (s.cwpIssued h trk ch) :=
  (keepsData_issued s).trans (keepsData_channel s.issued ch _)

theorem cwp_issues (hfe : h.fe = true) (hf : s.myGrant.hasFlag h.flag.val = true) (trk : Bool) (ch : ChNo) :
    ∃ t u, exec (.cwp h trk ch) s = .next t ∧ t.myCore.upds = s.myCore.upds ++ [u] ∧
      u.flag = h.flag ∧ u.add = false ∧ u.val = BitVec.ofNat 32 (s.myCore.chans[ch]).wp ∧ u.key = 4 ∧
      (t.myCore.chans[ch]).track = (if trk then some h.flag else none) ∧ (t.myCore.chans[ch]).cmds = (s.myCore.chans[ch]).cmds ∧ KeepsData s t := by
  have hkeep := cwpIssued_keeps s h trk ch
  let u : FlagUpd :=
    { at_ := s.cycle, key := 4, flag := h.flag, add := false, val := BitVec.ofNat 32 (s.myCore.chans[ch]).wp, setter := 4, score := 0,
      ctx := s.cur.ctx }
  have hexec : exec (.cwp h trk ch) s = .next ((s.cwpIssued h trk ch).pushFlag (s.cwpIssued h trk ch).cur.core u) := by
    rw [hkeep.cur]
    exact (if_neg (by simp [hfe])).trans (if_neg (by simp [hf]))
  have hchan : (s.cwpIssued h trk ch).myCore.chans[ch] = { s.myCore.chans[ch] with track := if trk then some h.flag else none } := by
    rw [State.cwpIssued, State.myCore_modMyCore, chans_vmod_self, State.issued_myCore_chans]
  refine ⟨_, u, hexec, ?_, rfl, rfl, rfl, rfl, ?_, ?_, hkeep.trans (keepsData_pushFlag ..)⟩
  · rw [myCore_pushFlag, State.cwpIssued, State.myCore_modMyCore, State.issued_myCore_upds]
  · rw [myCore_pushFlag, hchan]
  · rw [myCore_pushFlag, hchan]

end

/-- Settles O46: the five words share their checks and their way into the channel. -/
theorem copyWordsIssue : Obligations.CopyWordsIssue := by
  refine fun s h rm repl ovw trk mop hx ch e => ⟨fun hr q hq => ?_, fun hr hd hl q hq => ?_, fun hr hd he q hq p hp hm hl => ?_,
    fun delta gs pc p hr hpeer hd he hp => ?_, fun hfe hf => ?_⟩
  · obtain ⟨_, _, hexec, -⟩ := exec_copyWord s (q := q) (h := h) (ch := ch) hq
    rw [hexec, if_pos (by simp [hr])]
  · obtain ⟨_, _, hexec, hrefused⟩ := exec_copyWord s (q := q) (h := h) (ch := ch) hq
    rw [if_neg (by simp [hr]), if_pos (hrefused hd)] at hexec
    exact ⟨_, hexec, trapped_range hl⟩
  · obtain ⟨rm', repl', mop', ovw', hx', more, hexec, hmore⟩ := exec_copyWord_go (q := q) hq hr hd hp hm hl
    obtain ⟨g, m, hgo, ⟨hkind, hhd, hhs, hfd, hfs, hdone, hphase, htr, hfe, hflag, hue, hdue, -⟩, -, hdata, hbufs⟩ :=
      cpyGo_joins he hmore q.2 h ch rm' repl' mop' ovw' hx' p
    exact ⟨_, m, hexec.trans hgo, copyJoined_cmds s g ch m, hkind, hhd, hhs, hfd, hfs, hdone, hphase, htr, hfe, hflag, hue, hdue, hdata, hbufs⟩
  · obtain ⟨g, m, hgo, hm, -, hdata, -⟩ := cpyGo_joins he (more := id) (fun _ => ⟨rfl, rfl⟩) 1 h ch 16 false 0 false 0 p
    exact ⟨_, m, (exec_cpy_peer hr hpeer hd hp).trans hgo, copyJoined_cmds s g ch m, hm.peer, hdata⟩
  · obtain ⟨t, u, hexec, hupds, hflag, hadd, hval, hkey, htrack, hcmds, -, hdata, hbufs⟩ := cwp_issues hfe hf trk ch
    exact ⟨t, u, hexec, hupds, hflag, hadd, hval, hkey, htrack, hcmds, hdata, hbufs⟩

end Sys2Proof.Machine
end

section
/-! PROOFS. O47: copies. A step of a copy changes its channel, raises flags in CSTAT and leaves flag updates and resolutions owed (`CopyStep`);
a granule and a completion are such steps in sequence. -/

namespace Sys2Proof.Machine

/-! ### A step of a copy -/

/-- From `s` to `t` channel `ch` of core `c` changes by `f`, CSTAT of context `x` takes the flags `b`, and the flag updates `l` and the resolutions
`r` come to be owed; no register of the core and no byte changes. -/
structure CopyStep (s t : State) (c : CoreId) (ch : ChNo) (x : CtxId) (f : Channel → Channel) (b : Nat) (l : List FlagUpd) (r : List OwedRes) :
    Prop where
  cycle : t.cycle = s.cycle
  regs : ∀ y, SameRegs s t c y
  chan : (t.core c).chans[ch] = f (s.core c).chans[ch]
  cstat : (t.ctx c x).cstat = (s.ctx c x).cstat ||| b
  upds : (t.core c).upds = (s.core c).upds ++ l
  owed : (t.core c).owedRes = (s.core c).owedRes ++ r

/-- The channel's oldest command changed. -/
def Channel.onHead (f : CCmd → CCmd) (h : Channel) : Channel := { h with cmds := h.cmds.modifyHead f }

theorem Channel.onHead_cmds {h : Channel} {m : CCmd} {rest : List CCmd} (hc : h.cmds = m :: rest) (f : CCmd → CCmd) :
    (h.onHead f).cmds = f m :: rest := by
  rw [Channel.onHead, hc, List.modifyHead_cons]

/-- The channel without its oldest command. -/
def Channel.popped (h : Channel) : Channel := { h with cmds := h.cmds.tail }

/-- The write pointer `n` granules further (R212). -/
def Channel.advanced (n : Nat) (h : Channel) : Channel := { h with wp := (h.wp + n) % 2 ^ 64 }

/-- The channel after its oldest command `m` has completed: a transforming one advances WP by its granules now (R212, R213). -/
def CCmd.leaves (m : CCmd) (h : Channel) : Channel :=
  { h with cmds := h.cmds.tail, wp := if m.transforming then (h.wp + m.granules) % 2 ^ 64 else h.wp }

/-- The updates that the completion of a word with FE makes in cycle `now`, none without (R97, R99, R213). -/
def CompletionUpds (now key : Nat) (fe : Bool) (f : FlagNo) (l : List FlagUpd) : Prop :=
  (fe = false → l = []) ∧ (fe = true → ∃ u, l = [u] ∧ u.flag = f ∧ u.add = false ∧ u.val = 1 ∧ u.key = key ∧ u.at_ = now)

/-- The updates that an advance of channel `h` by `n` makes: its tracking flag takes WP (R220). -/
def Channel.Follows (h : Channel) (n : Nat) (l : List FlagUpd) : Prop :=
  (h.track = none → l = []) ∧ ∀ f, h.track = some f → ∃ v ∈ l, v.flag = f ∧ v.add = false ∧ v.val = BitVec.ofNat 32 (h.wp + n)

section
variable {s t u : State} {c : CoreId} {ch : ChNo} {x : CtxId} {f f' : Channel → Channel} {b b' : Nat} {l l' : List FlagUpd} {r r' : List OwedRes}

theorem CopyStep.trans (h : CopyStep s t c ch x f b l r) (h' : CopyStep t u c ch x f' b' l' r') :
    CopyStep s u c ch x (f' ∘ f) (b ||| b') (l ++ l') (r ++ r') where
  cycle := h'.cycle.trans h.cycle
  regs y := (h.regs y).trans (h'.regs y)
  chan := by rw [h'.chan, h.chan, Function.comp_apply]
  cstat := by rw [h'.cstat, h.cstat, Nat.or_assoc]
  upds := by rw [h'.upds, h.upds, List.append_assoc]
  owed := by rw [h'.owed, h.owed, List.append_assoc]

theorem CopyStep.flagDue (h : CopyStep s t c ch x f b l r) {key : Nat} {fe : Bool} {g : FlagNo} (hl : CompletionUpds s.cycle key fe g l) :
    FlagDue s t c key fe g := by
  obtain ⟨hoff, hon⟩ := hl
  refine ⟨fun hfe => by rw [h.upds, hoff hfe, List.append_nil], fun hfe => ?_⟩
  obtain ⟨v, rfl, hv⟩ := hon hfe
  exact ⟨v, h.upds, hv⟩

theorem CopyStep.sameRegs (h : CopyStep s t c ch x f b l r) (y : CtxId) : (t.ctx c y).s = (s.ctx c y).s ∧ (t.ctx c y).h = (s.ctx c y).h :=
  ⟨(h.regs y).1, (h.regs y).2.1⟩

theorem CopyStep.bytes (h : CopyStep s t c ch x f b l r) (a : Nat) : t.byte a = s.byte a ∧ t.hostByte a = s.hostByte a := (h.regs x).2.2 a

/-- What changes no core and no byte. -/
theorem copyStep_of_cores (hc : t.cores = s.cores) (hy : t.cycle = s.cycle) (hm : t.mems = s.mems) : CopyStep s t c ch x id 0 [] [] := by
  have hcore : t.core c = s.core c := by rw [State.core, hc]; rfl
  have hctx (y : CtxId) : t.ctx c y = s.ctx c y := by rw [State.ctx, hcore]; rfl
  exact ⟨hy, fun y => sameRegs_of_mems (by rw [hctx]) (by rw [hctx]) hm, by rw [hcore]; rfl, by rw [hctx, Nat.or_zero],
    by rw [hcore, List.append_nil], by rw [hcore, List.append_nil]⟩

/-- A change of the core that keeps its contexts. -/
theorem copyStep_modCore (s : State) (x : CtxId) {g : Core → Core} (hx : (g (s.core c)).ctxs = (s.core c).ctxs)
    (hc : (g (s.core c)).chans[ch] = f (s.core c).chans[ch]) (hl : (g (s.core c)).upds = (s.core c).upds ++ l)
    (hr : (g (s.core c)).owedRes = (s.core c).owedRes ++ r) : CopyStep s (s.modCore c g) c ch x f 0 l r where
  cycle := rfl
  regs y := sameRegs_modCore s c g hx y
  chan := by rw [State.core_modCore_self, hc]
  cstat := by rw [ctx_modCore_of_ctxs s c g hx, Nat.or_zero]
  upds := by rw [State.core_modCore_self, hl]
  owed := by rw [State.core_modCore_self, hr]

/-- A change of the context that keeps its registers. -/
theorem copyStep_modCtx (s : State) (c : CoreId) (ch : ChNo) (x : CtxId) {g : Ctx → Ctx} (hg : ∀ k, (g k).s = k.s ∧ (g k).h = k.h)
    (hb : (g (s.ctx c x)).cstat = (s.ctx c x).cstat ||| b) : CopyStep s (s.modCtx c x g) c ch x id b [] [] where
  cycle := rfl
  regs y := sameRegs_modCtx_any s c x g hg y
  chan := by rw [State.core_modCtx_self]; rfl
  cstat := by rw [State.ctx_modCtx_self, hb]
  upds := by rw [State.core_modCtx_self, List.append_nil]; rfl
  owed := by rw [State.core_modCtx_self, List.append_nil]; rfl

end

section
variable (s : State) (c : CoreId) (ch : ChNo) (x : CtxId)

theorem skipFresh_step (n : Nat) : CopyStep s (s.skipFresh n) c ch x id 0 [] [] := copyStep_of_cores rfl rfl rfl

theorem leaveDma_step (m : CCmd) : CopyStep s (s.leaveDma m) c ch x id 0 [] [] := by
  unfold State.leaveDma
  split <;> exact copyStep_of_cores rfl rfl rfl

/-- A flag update of any core is an update of this one, or none. -/
theorem pushFlag_step (d : CoreId) (v : FlagUpd) : ∃ l, CopyStep s (s.pushFlag d v) c ch x id 0 l [] := by
  by_cases h : d = c
  · subst h
    exact ⟨[v], copyStep_modCore s x rfl rfl rfl (List.append_nil _).symm⟩
  · have hcore : (s.pushFlag d v).core c = s.core c := State.core_modCore_ne s d c _ (Ne.symm h)
    have hctx (y : CtxId) : (s.pushFlag d v).ctx c y = s.ctx c y := by rw [State.ctx, hcore]; rfl
    exact ⟨[], rfl, fun y => sameRegs_of_mems (by rw [hctx]) (by rw [hctx]) rfl, by rw [hcore]; rfl, by rw [hctx, Nat.or_zero],
      by rw [hcore, List.append_nil], by rw [hcore, List.append_nil]⟩

theorem complFlag_step (y : CtxId) (key : Nat) (fe : Bool) (g : FlagNo) :
    ∃ l, CopyStep s (s.complFlag c y key fe g) c ch x id 0 l [] ∧ CompletionUpds s.cycle key fe g l := by
  obtain ⟨l, hl, hupds⟩ := complFlag_eq_modCore s c y key fe g
  rw [hl]
  exact ⟨l, copyStep_modCore s x rfl rfl rfl (List.append_nil _).symm, hupds⟩

theorem channel_step (f : Channel → Channel) :
    CopyStep s (s.modCore c fun k => { k with chans := vmod k.chans ch.val f }) c ch x f 0 [] [] :=
  copyStep_modCore s x rfl (chans_vmod_self ..) (List.append_nil _).symm (List.append_nil _).symm

theorem modHead_step (f : CCmd → CCmd) : CopyStep s (s.modCore c fun k => k.modHead ch f) c ch x (Channel.onHead f) 0 [] [] := by
  refine copyStep_modCore s x rfl ?_ (List.append_nil _).symm (List.append_nil _).symm
  rw [Core.modHead, chans_vmod_self, Channel.onHead]
  cases ((s.core c).chans[ch]).cmds <;> rfl

/-- WP advances, and the tracking flag follows it (R212, R220). -/
theorem advanceWp_step (n : Nat) : ∃ l, CopyStep s (s.advanceWp c ch x n) c ch x (Channel.advanced n) 0 l [] ∧
    ((s.core c).chans[ch]).Follows n l := by
  have hwp : CopyStep s (s.modCore c fun k => { k with chans := vmod k.chans ch.val fun (h : Channel) =>
      { h with wp := (((s.core c).chans[ch]).wp + n) % 2 ^ 64 } }) c ch x (Channel.advanced n) 0 [] [] :=
    copyStep_modCore s x rfl (chans_vmod_self ..) (List.append_nil _).symm (List.append_nil _).symm
  have hcount := hwp.trans (copyStep_modCtx (b := 0) _ c ch x (g := fun k => k.count 0x10 n) (fun k => by rw [Ctx.count_eq]; exact ⟨rfl, rfl⟩)
    (by rw [Ctx.count_eq, Nat.or_zero]))
  rw [← count_eq_modCtx] at hcount
  unfold State.advanceWp
  dsimp only
  cases htrack : ((s.core c).chans[ch]).track with
  | none => exact ⟨[], hcount, ⟨fun _ => rfl, fun f hf => by rw [htrack] at hf; cases hf⟩⟩
  | some g =>
    refine ⟨[_], hcount.trans (copyStep_modCore _ x (f := id) rfl rfl rfl (List.append_nil _).symm), ⟨fun h => ?_, fun f hf => ?_⟩⟩
    · rw [htrack] at h
      cases h
    · rw [htrack] at hf
      exact ⟨_, List.mem_singleton_self _, Option.some.inj hf, rfl, rfl⟩

end

/-! ### Completion (R213) -/

/-- The command `m` has given its host DMA channel up and left its channel, with its flags in CSTAT and its footprint gone. -/
def State.copyLeft (s : State) (c : CoreId) (ch : ChNo) (m : CCmd) : State :=
  ((s.leaveDma m).modCore c fun k => { k with chans := vmod k.chans ch.val Channel.popped }).modCtx c m.ctx fun k =>
    { k with cstat := k.cstat ||| (m.flags &&& 31) }.leaveAccess (6 + ch.val) m.epoch m.ent.idx

/-- The flag of a complete copy is to be set in cycle `now`: its own core's, or the peer's of a delivery (R174, R213). -/
def State.copyTold (s : State) (now : Nat) (c : CoreId) (m : CCmd) : State :=
  match m.peer with
  | none => s.complFlag c m.ctx 4 m.fe m.flag
  | some p =>
    if m.fe then s.pushFlag p.1 { at_ := now, key := 7, flag := m.flag, add := false, val := 1, setter := 8, score := c.val, ctx := p.2 } else s

/-- A transforming command advances WP when it completes (R212). -/
def State.copyCounted (s : State) (c : CoreId) (ch : ChNo) (m : CCmd) : State :=
  if m.transforming then s.advanceWp c ch m.ctx m.granules else s

section
variable (s : State) (c : CoreId) (ch : ChNo) (m : CCmd)

/-- The completion of a copy other than a host copy, stage by stage (R213). -/
theorem copyFinish_eq (h5 : m.kind ≠ 5) : s.copyFinish c ch m =
    if m.ue then (((s.copyLeft c ch m).copyTold s.cycle c m).copyCounted c ch m).modCore c fun k => { k with owedRes := k.owedRes ++
      [{ ch := ch, ctx := m.ctx, part := s.partOf c m.ctx, fut := m.fut, val := BitVec.ofNat 64 (ceilDiv (m.elements * m.dst.w) 8), at_ := s.cycle }] }
    else ((s.copyLeft c ch m).copyTold s.cycle c m).copyCounted c ch m :=
  if_neg h5

theorem copyLeft_step : CopyStep s (s.copyLeft c ch m) c ch m.ctx Channel.popped (m.flags &&& 31) [] [] := by
  have hpop := (leaveDma_step s c ch m.ctx m).trans (channel_step _ c ch m.ctx Channel.popped)
  have h := hpop.trans (copyStep_modCtx (b := m.flags &&& 31) _ c ch m.ctx
    (g := fun k => { k with cstat := k.cstat ||| (m.flags &&& 31) }.leaveAccess (6 + ch.val) m.epoch m.ent.idx) (fun k => ⟨rfl, rfl⟩) rfl)
  rwa [Nat.zero_or, Nat.zero_or] at h

theorem copyTold_step (x : CtxId) : ∃ l, CopyStep s (s.copyTold s.cycle c m) c ch x id 0 l [] ∧
    (m.peer = none → CompletionUpds s.cycle 4 m.fe m.flag l) := by
  unfold State.copyTold
  cases m.peer with
  | none =>
    obtain ⟨l, h, hl⟩ := complFlag_step s c ch x m.ctx 4 m.fe m.flag
    exact ⟨l, h, fun _ => hl⟩
  | some p =>
    dsimp only
    split
    · obtain ⟨l, h⟩ := pushFlag_step s c ch x p.1 _
      exact ⟨l, h, nofun⟩
    · exact ⟨[], copyStep_of_cores rfl rfl rfl, nofun⟩

theorem copyCounted_step : ∃ l, CopyStep s (s.copyCounted c ch m) c ch m.ctx
      (fun h => { h with wp := if m.transforming then (h.wp + m.granules) % 2 ^ 64 else h.wp }) 0 l [] ∧
    ((m.transforming = true → ((s.core c).chans[ch]).track = none) → l = []) := by
  unfold State.copyCounted
  cases m.transforming with
  | true =>
    obtain ⟨l, h, hl, -⟩ := advanceWp_step s c ch m.ctx m.granules
    exact ⟨l, h, fun ht => hl (ht rfl)⟩
  | false => exact ⟨[], copyStep_of_cores rfl rfl rfl, fun _ => rfl⟩

/-- A copy other than a host copy completes: it leaves its channel with its flags in CSTAT, its flag update and its resolution owed. -/
theorem copyFinish_step (h5 : m.kind ≠ 5) : ∃ l r, CopyStep s (s.copyFinish c ch m) c ch m.ctx m.leaves (m.flags &&& 31) l r ∧
    (m.peer = none → (m.transforming = true → ((s.core c).chans[ch]).track = none) → CompletionUpds s.cycle 4 m.fe m.flag l) ∧
    (m.ue = true → ∃ o, r = [o] ∧ o.ch = ch ∧ o.fut = m.fut ∧ o.ctx = m.ctx) := by
  have hleft := copyLeft_step s c ch m
  obtain ⟨l, htold, hl⟩ := copyTold_step (s.copyLeft c ch m) c ch m m.ctx
  rw [hleft.cycle] at htold hl
  obtain ⟨l', hcounted, hl'⟩ := copyCounted_step ((s.copyLeft c ch m).copyTold s.cycle c m) c ch m
  rw [htold.chan, hleft.chan] at hl'
  have h := (hleft.trans htold).trans hcounted
  simp only [Nat.or_zero, List.nil_append, List.append_nil] at h
  have hupds (hp : m.peer = none) (ht : m.transforming = true → ((s.core c).chans[ch]).track = none) :
      CompletionUpds s.cycle 4 m.fe m.flag (l ++ l') := by
    rw [hl' ht, List.append_nil]
    exact hl hp
  rw [copyFinish_eq s c ch m h5]
  split
  · let o : OwedRes :=
      { ch := ch, ctx := m.ctx, part := s.partOf c m.ctx, fut := m.fut, val := BitVec.ofNat 64 (ceilDiv (m.elements * m.dst.w) 8), at_ := s.cycle }
    have howed := h.trans (copyStep_modCore (ch := ch) _ m.ctx (f := id) (g := fun k => { k with owedRes := k.owedRes ++ [o] }) rfl rfl
      (List.append_nil _).symm rfl)
    rw [Nat.or_zero, List.append_nil] at howed
    exact ⟨_, [o], howed, hupds, fun _ => ⟨o, rfl, rfl, rfl, rfl⟩⟩
  · exact ⟨_, _, h, hupds, fun hue => absurd hue ‹_›⟩

end

/-! ### Granules (R212, R220) -/

/-- The runs of a granule have been moved: the command goes on with the next one in a later cycle. -/
def State.granuleMoved (u : State) (c : CoreId) (ch : ChNo) (m : CCmd) (due : Nat) : State :=
  (u.skipFresh 1).modCore c fun k => k.modHead ch fun o => { o with done := m.done + 1, due := due }

/-- The same, and after the last granule the copy is over. -/
def State.granuleEnd (u : State) (c : CoreId) (ch : ChNo) (m : CCmd) (due : Nat) : State :=
  if m.done + 1 = m.granules then (u.granuleMoved c ch m due).copyOver c ch m 0 else u.granuleMoved c ch m due

section
variable {s u : State} {c : CoreId} {ch : ChNo} {m : CCmd} {rest : List CCmd}

theorem copyHead_of_cmds (hc : ((s.core c).chans[ch]).cmds = m :: rest) : (s.core c).copyHead ch = some m := by
  rw [Core.copyHead, hc, List.head?_cons]

theorem dmaStart_of_core_copy (h5 : m.kind ≠ 5) : s.dmaStart c ch m = (s, m) := if_pos (by simp [h5])

theorem exec_granule_plain (hc : ((s.core c).chans[ch]).cmds = m :: rest) (hp : m.phase = 0) (h5 : m.kind ≠ 5) (hdma : m.dma = none)
    (htr : m.transforming = false) (hn : 0 < m.granules)
    (hmove : (s.readStruck c m.ctx 1 (m.bufReads (m.granuleRuns m.done))).moveRuns c ch m (m.granuleRuns m.done) = (none, u)) :
    exec (.granulePerformed c ch) s = .next ((u.granuleEnd c ch m (u.freeDelay s.cycle)).advanceWp c ch m.ctx 1) := by
  change execGranulePerformed c ch s = _
  simp [execGranulePerformed, copyHead_of_cmds hc, dmaStart_of_core_copy h5, hp, htr, hn.ne', hmove, hdma, State.granuleEnd, State.granuleMoved]

theorem exec_granule_transforming {fl : Nat} (hc : ((s.core c).chans[ch]).cmds = m :: rest) (hp : m.phase = 0) (h5 : m.kind ≠ 5)
    (htr : m.transforming = true) (hredo : m.redo = none) (hn : 0 < m.granules)
    (hmove : (s.readStruck c m.ctx 1 (m.bufReads (runsFrom m.src.d0 (m.src.rows + 1) 0 m.elements))).transform c ch m = (none, u, fl)) :
    exec (.granulePerformed c ch) s = .next (u.copyOver c ch m fl) := by
  change execGranulePerformed c ch s = _
  simp [execGranulePerformed, copyHead_of_cmds hc, dmaStart_of_core_copy h5, hp, htr, hn.ne', hmove, hredo]

theorem copyOver_cpym (h3 : m.kind = 3) (fl : Nat) :
    u.copyOver c ch m fl = u.modCore c fun k => k.modHead ch fun o => { o with phase := 1, due := u.cycle + 1, flags := o.flags ||| fl } :=
  if_pos h3

theorem copyOver_finishes (h3 : m.kind ≠ 3) (fl : Nat) : u.copyOver c ch m fl = u.copyFinish c ch { m with flags := m.flags ||| fl } :=
  if_neg h3

theorem granuleMoved_step (u : State) (c : CoreId) (ch : ChNo) (m : CCmd) (due : Nat) : CopyStep u (u.granuleMoved c ch m due) c ch m.ctx
    (Channel.onHead fun o => { o with done := m.done + 1, due := due }) 0 [] [] :=
  (skipFresh_step u c ch m.ctx 1).trans (modHead_step (u.skipFresh 1) c ch m.ctx _)

/-- The command `m` at the head of channel `h`, before `rest`, after a granule of its plain copy: it goes on, or as a CPYM comes to its matrix
command, or completes. The channel changes by `f`, and `b`, `l` and `r` are as in `CopyStep`. -/
structure CCmd.GranuleEnds (m : CCmd) (rest : List CCmd) (now : Nat) (ch : ChNo) (h : Channel) (f : Channel → Channel) (b : Nat) (l : List FlagUpd)
    (r : List OwedRes) : Prop where
  keeps : (f h).wp = h.wp ∧ (f h).track = h.track
  goesOn : m.done + 1 < m.granules → ∃ m', (f h).cmds = m' :: rest ∧ m'.done = m.done + 1 ∧ m'.phase = m.phase
  cpym : m.done + 1 = m.granules → m.kind = 3 → ∃ m', (f h).cmds = m' :: rest ∧ m'.done = m.done + 1 ∧ m'.phase = 1
  last : m.done + 1 = m.granules → m.kind ≠ 3 → (f h).cmds = rest ∧ b = m.flags &&& 31 ∧
    (m.peer = none → CompletionUpds now 4 m.fe m.flag l) ∧ (m.ue = true → ∃ o, r = [o] ∧ o.ch = ch ∧ o.fut = m.fut ∧ o.ctx = m.ctx)

theorem granuleEnd_step (u : State) (c : CoreId) (ch : ChNo) (due : Nat) (h5 : m.kind ≠ 5) (htr : m.transforming = false)
    (hc : ((u.core c).chans[ch]).cmds = m :: rest) : ∃ f b l r, CopyStep u (u.granuleEnd c ch m due) c ch m.ctx f b l r ∧
      m.GranuleEnds rest u.cycle ch (u.core c).chans[ch] f b l r := by
  have hmoved := granuleMoved_step u c ch m due
  unfold State.granuleEnd
  split
  case isFalse hlast =>
    exact ⟨_, _, _, _, hmoved, ⟨rfl, rfl⟩, fun _ => ⟨_, Channel.onHead_cmds hc _, rfl, rfl⟩,
      fun h => absurd h hlast, fun h => absurd h hlast⟩
  case isTrue hlast =>
    by_cases h3 : m.kind = 3
    · rw [copyOver_cpym h3]
      exact ⟨_, _, _, _, hmoved.trans (modHead_step _ c ch m.ctx _), ⟨rfl, rfl⟩, fun h => absurd hlast h.ne,
        fun _ _ => ⟨_, Channel.onHead_cmds (Channel.onHead_cmds hc _) _, rfl, rfl⟩, fun _ h => absurd h3 h⟩
    · rw [copyOver_finishes h3, Nat.or_zero]
      obtain ⟨l, r, hfin, hl, hr⟩ := copyFinish_step (u.granuleMoved c ch m due) c ch m h5
      rw [hmoved.cycle] at hl
      have hstep := hmoved.trans hfin
      rw [Nat.zero_or] at hstep
      exact ⟨_, _, _, _, hstep, ⟨if_neg (by simp [htr]), rfl⟩, fun h => absurd hlast h.ne, fun _ h => absurd h h3,
        fun _ _ => ⟨congrArg List.tail (Channel.onHead_cmds hc _), rfl, fun hp => hl hp (by simp [htr]), hr⟩⟩

end

/-! ### The matrix command of a CPYM (R217) -/

theorem Core.setLine_chans (k : Core) (b l : Nat) (v : VReg) : (k.setLine b l v).chans = k.chans := by
  unfold Core.setLine
  (repeat' split) <;> rfl

theorem Core.runMma_chans (k : Core) (p : MPlan) : (k.runMma p).1.chans = k.chans := by
  unfold Core.runMma
  split
  · rfl
  · exact List.foldlRecOn (motive := fun a : Core × Nat => a.1.chans = k.chans) _ _ rfl fun a ha q _ => (Core.setLine_chans ..).trans ha

theorem mPlan_of_cpymPlan {k : Core} {g : Grant} {mop : Nat} {ovw : Bool} {hd hc hx : Header} {p : MPlan}
    (h : k.cpymPlan g mop ovw hd hc hx = some p) : ∃ ha hb, k.mPlan g mop ovw false hc ha hb = some p := by
  unfold Core.cpymPlan at h
  split at h
  · exact ⟨_, _, h⟩
  · split at h
    · exact ⟨_, _, h⟩
    · cases h

/-- The matrix command that a CPYM enters is the channel's own. -/
theorem enterMma_cpym {k : Core} {hc : Header} {p : MPlan} (h : p.Checked k hc) (t : Nat) (x : MCmd) :
    ∃ q, (k.enterMma p t x).mtx = k.mtx ++ [q] ∧ q.cpym = x.cpym :=
  ⟨_, congrArg (· ++ _) (sameButC_runMma h (q := k)).mtx, rfl⟩

section
variable {s : State} {c : CoreId} {ch : ChNo} {m : CCmd} {rest : List CCmd}

/-- A CPYM whose copy is over enters its matrix command. -/
theorem copyComplete_enters {p : MPlan} (hc : ((s.core c).chans[ch]).cmds = m :: rest) (hr : s.resolutionDue c ch = none) (hp : m.phase = 1)
    (hroom : (s.core c).mtxRoom = true) (hplan : (s.core c).cpymPlan (s.grant c m.ctx) m.mop m.ovw m.hd m.hb m.hx = some p) :
    ∃ t m' q, exec (.copyComplete c ch) s = .next t ∧ ((t.core c).chans[ch]).cmds = m' :: rest ∧ m'.phase = 2 ∧
      (t.core c).mtx = (s.core c).mtx ++ [q] ∧ q.cpym = some ch ∧ ∀ x, SameRegs s t c x := by
  obtain ⟨ha, hb, hm⟩ := mPlan_of_cpymPlan hplan
  have hchk := checked_of_mPlan hm
  let x : MCmd := { due := 0, flags := 0, steps := 0, fe := false, flag := 0, epoch := m.epoch, idx := m.ent.idx, ctx := m.ctx, cpym := some ch }
  let k := (s.core c).enterMma p s.cycle x
  have hexec : exec (.copyComplete c ch) s =
      .next (s.modCore c fun k => (k.enterMma p s.cycle x).modHead ch fun o => { o with phase := 2 }) := by
    change execCopyComplete c ch s = _
    simp [execCopyComplete, hr, copyHead_of_cmds hc, hp, hroom, hplan, x]
  have hchans : k.chans = (s.core c).chans := Core.runMma_chans ..
  obtain ⟨q, hq, hcpym⟩ := enterMma_cpym hchk s.cycle x
  refine ⟨_, { m with phase := 2 }, q, hexec, ?_, rfl, ?_, hcpym, sameRegs_modCore s c _ (sameButC_runMma hchk (q := s.core c)).ctxs⟩
  · rw [State.core_modCore_self, Core.modHead, chans_vmod_self, hchans, hc]
  · rw [State.core_modCore_self]
    exact hq

/-! ### COPY_COMPLETE (R213) -/

theorem exec_copyComplete_over (hc : ((s.core c).chans[ch]).cmds = m :: rest) (hr : s.resolutionDue c ch = none) (hp : m.phase = 3) :
    exec (.copyComplete c ch) s = .next (s.copyFinish c ch m) := by
  change execCopyComplete c ch s = _
  simp [execCopyComplete, hr, copyHead_of_cmds hc, hp]

/-- A change of the entries that `p` names, which it still names after it: the first of them is found changed. -/
theorem find?_map_where {α : Type} {p : α → Bool} {g : α → α} (hg : ∀ a, p (g a) = p a) (l : List α) :
    (l.map fun a => if p a then g a else a).find? p = (l.find? p).map g := by
  induction l with
  | nil => rfl
  | cons a l ih => cases ha : p a <;> simp [ha, hg, ih]

theorem fut?_modFut (s : State) (p n : Nat) {g : Future → Future} (hp : ∀ f, (g f).part = f.part) (hn : ∀ f, (g f).num = f.num) :
    (s.modFut p n g).fut? p n = (s.fut? p n).map g :=
  find?_map_where (p := fun f : Future => f.part = p && f.num = n) (fun f => by rw [hp, hn]) _

/-- A future that has its value (R305). -/
def Future.resolved (v : Word) (f : Future) : Future := { f with state := 2, value := v, waiters := [] }

/-- A future without waiters that is not resolved takes its value, and nothing else changes (R305). -/
theorem resolve_alone {p n : Nat} {f : Future} (hf : s.fut? p n = some f) (h2 : f.state ≠ 2) (hw : f.waiters = []) (v : Word)
    (dest : Option (CoreId × CtxId)) : s.resolve p n v dest = s.modFut p n (Future.resolved v) := by
  simp only [State.resolve, hf, if_neg h2, hw]
  rfl

/-- The dispatcher receives a resolution that is due. -/
theorem copyComplete_resolves {o : OwedRes} {f : Future} (hr : s.resolutionDue c ch = some o) (hf : s.fut? o.part (futNum o.fut) = some f)
    (h2 : f.state ≠ 2) (hw : f.waiters = []) :
    ∃ t f', exec (.copyComplete c ch) s = .next t ∧ (t.core c).owedRes = (s.core c).owedRes.erase o ∧ t.fut? o.part (futNum o.fut) = some f' ∧
      f'.state = 2 ∧ f'.value = o.val ∧ (t.core c).chans = (s.core c).chans ∧ ∀ x, SameRegs s t c x := by
  let u := s.modCore c fun k => { k with owedRes := k.owedRes.erase o }
  have hfu : u.fut? o.part (futNum o.fut) = some f := hf
  have hexec : exec (.copyComplete c ch) s = .next (u.modFut o.part (futNum o.fut) (Future.resolved o.val)) := by
    change execCopyComplete c ch s = _
    rw [← resolve_alone hfu h2 hw o.val (some (c, o.ctx))]
    simp [execCopyComplete, hr, u]
  have hcore : (u.modFut o.part (futNum o.fut) (Future.resolved o.val)).core c = { s.core c with owedRes := (s.core c).owedRes.erase o } :=
    State.core_modCore_self s c fun k => { k with owedRes := k.owedRes.erase o }
  refine ⟨_, f.resolved o.val, hexec, by rw [hcore], ?_, rfl, rfl, by rw [hcore],
    sameRegs_modCore s c (fun k => { k with owedRes := k.owedRes.erase o }) rfl⟩
  rw [fut?_modFut u _ _ (g := Future.resolved o.val) (fun _ => rfl) fun _ => rfl, hfu, Option.map_some]

/-! ### HOST_DMA_RESUME (R340) -/

/-- A suspended host copy takes a free channel and goes on where it stood. -/
theorem hostDmaResume_takes {n : Fin 16} {w : DmaWait} (hc : ((s.core c).chans[ch]).cmds = m :: rest) (hfree : s.host.dma[n] = none)
    (hw : s.resumable = some w) (href : w.ref = .inl (c, ch)) :
    ∃ t h m', exec (.hostDmaResume n) s = .next t ∧ t.host.dma[n] = some h ∧ h.core = some (c, ch) ∧ h.part = w.part ∧
      ((t.core c).chans[ch]).cmds = m' :: rest ∧ m'.dma = some n ∧ m'.suspended = false ∧ m'.done = m.done := by
  have hexec : exec (.hostDmaResume n) s = .next (s.giveDma n w) := by
    change execHostDmaResume n s = _
    simp [execHostDmaResume, hfree, hw]
  rw [State.giveDma, href] at hexec
  refine ⟨_, _, { m with dma := some n, suspended := false }, hexec, Vector.getElem_set_self .., rfl, rfl, ?_, rfl, rfl, rfl⟩
  have hc' : (((s.setDma n (some { part := w.part, prio := w.prio, since := s.cycle, core := some (c, ch), host := none })).core c).chans[ch]).cmds =
      m :: rest := hc
  rw [State.core_modCore_self, Core.modHead, chans_vmod_self, hc']

/-! ### GRANULE_PERFORMED (R212, R213, R220) -/

variable {u : State}

/-- A granule of a plain copy: what its end does, and WP advances by one with the flag that follows it. -/
theorem granule_plain (hc : ((s.core c).chans[ch]).cmds = m :: rest) (hp : m.phase = 0) (h5 : m.kind ≠ 5) (hdma : m.dma = none)
    (htr : m.transforming = false) (hn : 0 < m.granules)
    (hmove : (s.readStruck c m.ctx 1 (m.bufReads (m.granuleRuns m.done))).moveRuns c ch m (m.granuleRuns m.done) = (none, u))
    (hchans : (u.core c).chans = (s.core c).chans) :
    ∃ t f b l l' r, exec (.granulePerformed c ch) s = .next t ∧ CopyStep u t c ch m.ctx (Channel.advanced 1 ∘ f) b (l ++ l') r ∧
      m.GranuleEnds rest u.cycle ch (s.core c).chans[ch] f b l r ∧ ((s.core c).chans[ch]).Follows 1 l' := by
  have hch : (u.core c).chans[ch] = (s.core c).chans[ch] := by rw [hchans]
  obtain ⟨f, b, l, r, hend, hends⟩ := granuleEnd_step u c ch (u.freeDelay s.cycle) h5 htr (hch ▸ hc)
  obtain ⟨l', hadv, hfollow⟩ := advanceWp_step (u.granuleEnd c ch m (u.freeDelay s.cycle)) c ch m.ctx 1
  rw [hch] at hends
  rw [hend.chan, hch] at hfollow
  have hstep := hend.trans hadv
  rw [Nat.or_zero, List.append_nil] at hstep
  obtain ⟨hwp, htrack⟩ := hends.keeps
  refine ⟨_, f, b, l, l', r, exec_granule_plain hc hp h5 hdma htr hn hmove, hstep, hends, ?_⟩
  rwa [Channel.Follows, hwp, htrack] at hfollow

/-- A transforming copy is performed whole, and is complete. -/
theorem granule_transforming {fl : Nat} (hc : ((s.core c).chans[ch]).cmds = m :: rest) (hp : m.phase = 0) (h5 : m.kind ≠ 5) (h3 : m.kind ≠ 3)
    (hpeer : m.peer = none) (htr : m.transforming = true) (hredo : m.redo = none) (hn : 0 < m.granules)
    (hmove : (s.readStruck c m.ctx 1 (m.bufReads (runsFrom m.src.d0 (m.src.rows + 1) 0 m.elements))).transform c ch m = (none, u, fl))
    (hchans : (u.core c).chans = (s.core c).chans) :
    ∃ t l r, exec (.granulePerformed c ch) s = .next t ∧ CopyStep u t c ch m.ctx m.leaves ((m.flags ||| fl) &&& 31) l r ∧
      (((s.core c).chans[ch]).track = none → CompletionUpds u.cycle 4 m.fe m.flag l) := by
  obtain ⟨l, r, hfin, hl, -⟩ := copyFinish_step u c ch { m with flags := m.flags ||| fl } h5
  rw [hchans] at hl
  exact ⟨_, l, r, (exec_granule_transforming hc hp h5 htr hredo hn hmove).trans (by rw [copyOver_finishes h3]), hfin,
    fun ht => hl hpeer fun _ => ht⟩

end

/-- Settles O47: a granule and a completion are sequences of steps of their channel; a matrix command, a resolution and a suspended copy go on
each by its event. -/
theorem copiesPerform : Obligations.CopiesPerform := by
  refine fun s c ch m rest hc => ⟨fun u hp h5 hdma htr hn _ hmove hchans => ?_, fun u fl hp h5 h3 hpeer htr hredo hn hmove hchans => ?_,
    fun hr hp hpeer h5 htr => ?_, fun p hr hp hroom hplan => copyComplete_enters hc hr hp hroom hplan, fun o f hr hf h2 hw => ?_,
    fun n w hfree hw href => hostDmaResume_takes hc hfree hw href⟩
  · obtain ⟨t, f, b, l, l', r, hexec, hstep, ⟨⟨hwp, -⟩, hgoes, hcpym, hover⟩, hnone, hsome⟩ :=
      granule_plain hc hp h5 hdma htr hn hmove hchans
    have hch := hstep.chan
    rw [hchans] at hch
    refine ⟨t, hexec, by rw [hch, Function.comp_apply, Channel.advanced, hwp], hstep.sameRegs, hstep.bytes, fun g hg => ?_,
      fun h => ?_, fun h h3 => ?_, fun h h3 hpeer => ?_⟩
    · obtain ⟨v, hv, hval⟩ := hsome g hg
      exact ⟨v, by rw [hstep.upds]; simp [hv], hval⟩
    · obtain ⟨m', hm, hd, hph⟩ := hgoes h
      exact ⟨m', by rw [hch]; exact hm, hd, hph.trans hp⟩
    · obtain ⟨m', hm, hd, hph⟩ := hcpym h h3
      exact ⟨m', by rw [hch]; exact hm, hd, hph⟩
    · obtain ⟨hm, rfl, hl, hr⟩ := hover h h3
      refine ⟨by rw [hch]; exact hm, hstep.cstat, fun ht => hstep.flagDue (by rw [hnone ht, List.append_nil]; exact hl hpeer), fun hue => ?_⟩
      obtain ⟨o, rfl, ho⟩ := hr hue
      exact ⟨o, hstep.owed, ho⟩
  · obtain ⟨t, l, r, hexec, hstep, hl⟩ := granule_transforming hc hp h5 h3 hpeer htr hredo hn hmove hchans
    have hch := hstep.chan
    rw [hchans] at hch
    refine ⟨t, hexec, ?_, ?_, hstep.cstat, fun ht => hstep.flagDue (hl ht), hstep.sameRegs, hstep.bytes⟩
    · rw [hch, CCmd.leaves, hc, List.tail_cons]
    · rw [hch, CCmd.leaves, if_pos htr]
  · obtain ⟨l, r, hfin, hl, -⟩ := copyFinish_step s c ch m h5
    exact ⟨_, exec_copyComplete_over hc hr hp, by rw [hfin.chan, CCmd.leaves, hc, List.tail_cons], hfin.cstat,
      hfin.flagDue (hl hpeer (by simp [htr])), hfin.regs⟩
  · obtain ⟨t, f', hexec, howed, hfut, hstate, hval, hchans, hregs⟩ := copyComplete_resolves hr hf h2 hw
    exact ⟨t, f', hexec, howed, hfut, hstate, hval, by rw [hchans, hc], hregs⟩

end Sys2Proof.Machine
end

section
/-! PROOFS. O36: TLBI. Every form drops entries by `State.tlbi`, which filters each TLB of the package by its kind (`Core.dropTlb`) and leaves registers
and bytes; the handle forms also shorten the handle cache (R234). -/

namespace Sys2Proof.Machine

/-! ### TLBs after a TLBI (R234) -/

/-- A core without the translations that `kind` names. -/
def Core.dropTlb (kind : TlbiKind) (k : Core) : Core :=
  { k with tlb := k.tlb.filter fun e => !kind.takes e, stlb := k.stlb.map fun l => l.filter fun e => !kind.takes e }

/-- The state without the translations that `kind` names, the collective engine's too. -/
def State.dropTlb (kind : TlbiKind) (s : State) : State :=
  { s with cores := s.cores.map (Core.dropTlb kind), col := { s.col with tlb := s.col.tlb.filter fun e => !kind.takes e } }

/-- A core whose TLBs are empty has nothing to drop. -/
theorem Core.dropTlb_of_empty {k : Core} (h : (k.tlb.isEmpty && k.stlb.toList.all List.isEmpty) = true) (kind : TlbiKind) : k.dropTlb kind = k := by
  simp only [Bool.and_eq_true, List.isEmpty_iff, List.all_eq_true, Vector.mem_toList_iff] at h
  obtain ⟨htlb, hstlb⟩ := h
  have hmap : (k.stlb.map fun l => l.filter fun e => !kind.takes e) = k.stlb :=
    Vector.ext fun i hi => by simp [hstlb _ (Vector.getElem_mem hi)]
  rw [Core.dropTlb, hmap, htlb, List.filter_nil, ← htlb]

theorem tlbi_eq (s : State) (p : Nat) (kind : TlbiKind) :
    s.tlbi p kind = (s.dropTlb kind).issued.modMe fun k => { k with tlbiKind := kind, tlbiWait := some (p, s.cycle) } := by
  have hcore : (fun k : Core => if k.tlb.isEmpty && k.stlb.toList.all List.isEmpty then k else k.dropTlb kind) = Core.dropTlb kind := by
    funext k
    split
    · next h => exact (Core.dropTlb_of_empty h kind).symm
    · rfl
  rw [State.dropTlb, ← hcore]
  rfl

theorem dropTlb_core (s : State) (kind : TlbiKind) (c : CoreId) : (s.dropTlb kind).core c = (s.core c).dropTlb kind :=
  Vector.getElem_map ..

theorem dropTlb_me (s : State) (kind : TlbiKind) : (s.dropTlb kind).me = s.me := by
  rw [State.me, State.ctx, dropTlb_core]
  rfl

/-- A change of the running context leaves every TLB. -/
theorem modMe_tlbs (s : State) (f : Ctx → Ctx) (c : CoreId) :
    ((s.modMe f).core c).tlb = (s.core c).tlb ∧ ((s.modMe f).core c).stlb = (s.core c).stlb := by
  by_cases h : c = s.cur.core
  · subst h
    rw [State.modMe, State.core_modCtx_self]
    exact ⟨rfl, rfl⟩
  · rw [State.modMe, State.core_modCtx_ne _ _ _ _ _ h]
    exact ⟨rfl, rfl⟩

/-- So does the issue of a word. -/
theorem issued_tlbs (s : State) (c : CoreId) : (s.issued.core c).tlb = (s.core c).tlb ∧ (s.issued.core c).stlb = (s.core c).stlb := by
  by_cases h : c = s.cur.core
  · subst h
    have htlb := s.issued_myCore_tlb
    have hstlb := s.issued_myCore_stlb
    rw [State.myCore, State.issued_cur] at htlb hstlb
    exact ⟨htlb, hstlb⟩
  · rw [State.issued_core_ne s c h]
    exact ⟨rfl, rfl⟩

theorem Flushed.modMe {s t : State} {p : Nat} {gone : TlbEntry → Bool} (h : Flushed s t p gone) {f : Ctx → Ctx}
    (hf : ∀ k, (f k).s = k.s ∧ (f k).h = k.h ∧ (f k).tlbiWait = k.tlbiWait) : Flushed s (t.modMe f) p gone where
  tlb c := by rw [(modMe_tlbs t f c).1, h.tlb]
  stlb c i := by rw [(modMe_tlbs t f c).2, h.stlb]
  col := h.col
  later := by rw [State.me_modMe, (hf _).2.2, h.later]
  data := h.data.trans (sameData_modMe t f (hf _).1 (hf _).2.1)

theorem flushed_tlbi (s : State) (p : Nat) (kind : TlbiKind) : Flushed s (s.tlbi p kind) p kind.takes := by
  have hdrop : SameData s (s.dropTlb kind) :=
    ⟨fun r => by rw [State.rdS, dropTlb_me]; rfl, fun r => by rw [State.rdH, dropTlb_me]; rfl, fun _ => ⟨rfl, rfl⟩⟩
  rw [tlbi_eq]
  constructor
  · intro c
    rw [(modMe_tlbs ..).1, (issued_tlbs ..).1, dropTlb_core]
    rfl
  · intro c i
    rw [(modMe_tlbs ..).2, (issued_tlbs ..).2, dropTlb_core]
    exact Vector.getElem_map ..
  · rw [State.modMe_col, State.issued_col]
    rfl
  · rw [State.me_modMe]
  · exact (hdrop.trans (sameData_issued _)).trans (sameData_modMe _ _ rfl rfl)

@[simp] theorem tlbi_handles (s : State) (p : Nat) (kind : TlbiKind) : (s.tlbi p kind).me.handles = s.me.handles := by
  rw [tlbi_eq, State.me_modMe, State.issued_me_handles, dropTlb_me]

/-! ### The forms (R234) -/

theorem bits_zero (w n : Nat) : bits w 0 n = w % 2 ^ n := by rw [bits, Nat.pow_zero, Nat.div_one]

/-- Every form traps below its level, and a form of stage 2 also where sB names no partition (`bad`). -/
theorem tlbi_guard {s : State} (hf : s.me.fork = none) (n : Nat) (bad : Prop) [Decidable bad] (r : State) :
    (if !s.tlbiOk n || bad then .next s.trapRange else .next r : Host.Outcome State Fault Refusal) =
      if s.me.pl < n ∨ bad then .next s.trapRange else .next r := by
  simp [State.tlbiOk, State.inFork, hf]

/-- The handle forms and those of stage 1 act on the issuer's partition, from level 1. -/
theorem exec_tlbi_own {s : State} (hf : s.me.fork = none) (a b : SReg) :
    ∀ q ∈ [(Instr.hall, (s.tlbi s.myPart .handles).modMe fun k => { k with handles := [] }),
        (.hone a, (s.tlbi s.myPart .handles).modMe fun k => { k with handles := k.handles.filter fun e => e.num ≠ (s.rdS a).toNat % 2 ^ 12 }),
        (.s1va a b, s.tlbi s.myPart (.s1va s.myPart ((s.rdS b).toNat % 2 ^ 16) ((s.rdS a).toNat % 2 ^ 48))),
        (.s1asid b, s.tlbi s.myPart (.s1asid s.myPart ((s.rdS b).toNat % 2 ^ 16))), (.s1all, s.tlbi s.myPart (.part s.myPart))],
      exec q.1 s = if s.me.pl < 1 then .next s.trapRange else .next q.2 := by
  have hguard := tlbi_guard hf 1 False
  simp only [or_false, decide_false, Bool.or_false] at hguard
  simp only [List.forall_mem_cons, List.not_mem_nil, false_implies, implies_true, and_true, ← hguard, ← bits_zero]
  exact ⟨rfl, rfl, rfl, rfl, rfl⟩

/-- The forms of stage 2 act on the partition that sB names, from level 2. -/
theorem exec_tlbi_named {s : State} (hf : s.me.fork = none) (a b : SReg) :
    ∀ q ∈ [(Instr.s2ipa a b, s.tlbi (s.rdS b).toNat (.s2ipa (s.rdS b).toNat ((s.rdS a).toNat % 2 ^ 48))),
        (.s2part b, s.tlbi (s.rdS b).toNat (.part (s.rdS b).toNat))],
      exec q.1 s = if s.me.pl < 2 ∨ 15 < (s.rdS b).toNat then .next s.trapRange else .next q.2 := by
  simp only [List.forall_mem_cons, List.not_mem_nil, false_implies, implies_true, and_true, ← tlbi_guard hf, ← bits_zero]
  exact ⟨rfl, rfl⟩

/-- Settles O36: past its check a form is a `State.tlbi` of its kind, and before it every form is the operand-range trap. -/
theorem translationsAreInvalidated : Obligations.TranslationsAreInvalidated := by
  intro s a b hf
  have hown := exec_tlbi_own hf a b
  have hnamed := exec_tlbi_named hf a b
  refine ⟨fun hpl => ?_, fun hpl hq => ?_, fun hpl hl => ?_, fun hbad hl => ?_⟩
  · simp only [List.forall_mem_cons, if_neg (Nat.not_lt.2 hpl)] at hown
    obtain ⟨hall, hone, hva, hasid, hpart, -⟩ := hown
    have hflush := flushed_tlbi s s.myPart
    refine ⟨⟨_, hall, (hflush _).modMe fun _ => ⟨rfl, rfl, rfl⟩, by rw [State.me_modMe]⟩,
      ⟨_, hone, (hflush _).modMe fun _ => ⟨rfl, rfl, rfl⟩, by rw [State.me_modMe, tlbi_handles]⟩,
      ⟨_, hva, hflush _, tlbi_handles ..⟩, ⟨_, hasid, hflush _, tlbi_handles ..⟩, ⟨_, hpart, hflush _, tlbi_handles ..⟩⟩
  · simp only [List.forall_mem_cons, if_neg (not_or.2 ⟨Nat.not_lt.2 hpl, Nat.not_lt.2 hq⟩)] at hnamed
    obtain ⟨hipa, hpart, -⟩ := hnamed
    exact ⟨⟨_, hipa, flushed_tlbi .., tlbi_handles ..⟩, ⟨_, hpart, flushed_tlbi .., tlbi_handles ..⟩⟩
  · have htrap := trapped_range hl
    simp only [List.forall_mem_cons, if_pos hpl] at hown ⊢
    obtain ⟨hall, hone, hva, hasid, hpart, -⟩ := hown
    exact ⟨⟨_, hall, htrap⟩, ⟨_, hone, htrap⟩, ⟨_, hva, htrap⟩, ⟨_, hasid, htrap⟩, ⟨_, hpart, htrap⟩, by simp⟩
  · have htrap := trapped_range hl
    simp only [List.forall_mem_cons, if_pos hbad] at hnamed ⊢
    obtain ⟨hipa, hpart, -⟩ := hnamed
    exact ⟨⟨_, hipa, htrap⟩, ⟨_, hpart, htrap⟩, by simp⟩

end Sys2Proof.Machine
end

section
/-! PROOFS. What accesses to memory and records leave of the base die: an access changes neither the management block, the observation unit nor the
host interface (`State.units`), and a record only rings and sums of its partition (`Records`) (R357, R358). -/

namespace Sys2Proof.Machine

/-! ### Accesses (R228, R230, R292) -/

/-- The management block, the observation unit and the host interface. -/
def State.units (s : State) : Mgmt × Obs × HostIf := (s.mg, s.obs, s.host)

theorem foldl_units {α : Type} {f : State → α → State} (hf : ∀ t a, (f t a).units = t.units) (l : List α) (s : State) :
    (l.foldl f s).units = s.units := by
  induction l generalizing s with
  | nil => rfl
  | cons a l ih => exact (ih _).trans (hf s a)

theorem foldl_snd_units {α β : Type} {f : β × State → α → β × State} (hf : ∀ q a, (f q a).2.units = q.2.units) (l : List α) (b : β)
    (s : State) : (l.foldl f (b, s)).2.units = s.units := by
  induction l generalizing b s with
  | nil => rfl
  | cons a l ih => exact (ih _ _).trans (hf (b, s) a)

@[simp] theorem count_units (s : State) (c : CoreId) (x : CtxId) (e n : Nat) : (s.count c x e n).units = s.units := by
  unfold State.count
  split <;> rfl

@[simp] theorem noteTouches_units (s : State) (c : CoreId) (x : CtxId) (haddr va path : Nat) (l : List Touch) :
    (s.noteTouches c x haddr va path l).units = s.units :=
  foldl_units (fun t q => by (repeat' split) <;> rfl) l s

@[simp] theorem tlbAdd_units (s : State) (c : CoreId) (t : TlbSel) (e : TlbEntry) : (s.tlbAdd c t e).units = s.units := by
  unfold State.tlbAdd
  (repeat' split) <;> rfl

@[simp] theorem translate_units (s : State) (c : CoreId) (x : CtxId) (t : TlbSel) (haddr va : Nat) (d : Dir) :
    (s.translate c x t haddr va d).2.units = s.units := by
  unfold State.translate
  dsimp only
  (repeat' split) <;> simp

@[simp] theorem writeByte_units (s : State) (host : Bool) (u : UnitId) (cls tag pick a : Nat) (v : Byte) :
    (s.writeByte host u cls tag pick a v).units = s.units := by
  unfold State.writeByte
  dsimp only
  (repeat' split) <;> rfl

@[simp] theorem writeMem_units (s : State) (host : Bool) (u : UnitId) (cls a : Nat) (bs : List Byte) :
    (s.writeMem host u cls a bs).units = s.units := by
  have h := foldl_units (f := fun (t : State) (p : Byte × Nat) => t.writeByte host u cls s.fresh (s.fresh + 129 + p.2) (a + p.2) p.1)
    (fun t p => writeByte_units ..) bs.zipIdx { s with fresh := s.fresh + 129 + bs.length }
  unfold State.writeMem
  dsimp only
  split <;> exact h

@[simp] theorem writePhys_units (s : State) (u : UnitId) (cls haddr va pa key : Nat) (bs : List Byte) :
    (s.writePhys u cls haddr va pa key bs).units = s.units := by
  unfold State.writePhys
  dsimp only
  split
  · rfl
  · split
    · exact writeMem_units ..
    · exact foldl_units (fun t p => by split <;> simp) _ _

theorem writeVa_units (s : State) (u : UnitId) (t : TlbSel) (cls haddr va : Nat) (bs : List Byte) :
    (s.writeVa u t cls haddr va bs).2.units = s.units := by
  refine foldl_snd_units (fun acc p => ?_) _ _ s
  split
  · rfl
  · have h := translate_units acc.2 u.core u.ctx t (haddr + p.1) (va + p.1) .wr
    split
    · next e => rw [e] at h; exact h
    · next e => rw [e] at h; exact (writePhys_units ..).trans h

theorem spoilPhys_units (s : State) (u : UnitId) (cls pa key n : Nat) : (s.spoilPhys u cls pa key n).units = s.units := by
  refine foldl_units (fun t p => ?_) _ s
  split
  · exact writeMem_units ..
  · rfl

/-! ### Rings (R358) -/

theorem physRing_units {base : Nat} {c : CoreId} {x : CtxId} {s t : State} {off : Nat} {bs : List Byte} (h : physRing base c x s off bs = some t) :
    t.units = s.units := by
  unfold physRing at h
  split at h
  · cases h
  · exact Option.some.inj h ▸ writeMem_units ..

theorem tenantRing_units {w : Nat} {c : CoreId} {x : CtxId} {s t : State} {off : Nat} {bs : List Byte} (h : tenantRing w c x s off bs = some t) :
    t.units = s.units := by
  unfold tenantRing at h
  split at h
  · cases h
  · next i _ =>
    have hw := writeVa_units s (recUnit c x) none 0 (w + off) (i.base + haddrO (w + off)) bs
    split at h
    · next e =>
      rw [e] at hw
      exact Option.some.inj h ▸ hw
    · cases h

section
variable {wr : State → Nat → List Byte → Option State} (hw : ∀ s t off bs, wr s off bs = some t → t.units = s.units)
include hw

theorem ringOne_units (dws : List Nat) (q : Ring × State) : (ringOne wr dws q).2.units = q.2.units := by
  unfold ringOne
  dsimp only
  split
  · rfl
  · split
    · rfl
    · next e => exact hw _ _ _ _ e

theorem ringPut_units (dws : List Nat) (gt : Nat) (q : Ring × State) : (ringPut wr dws gt q).2.units = q.2.units := by
  unfold ringPut
  dsimp only
  (repeat' split) <;> simp only [ringOne_units hw]

end

/-! ### Records (R357, R358, R359) -/

/-- From `s` to `t` memory and rings, sums and counters change, and what windows keep of partitions and dies. -/
structure Records (s t : State) : Prop extends Traffic s t where
  host : t.host = s.host
  windowAt : t.obs.windowAt = s.obs.windowAt
  state : ∀ p, (t.part p).state = (s.part p).state

namespace Records

theorem of_units {s t : State} (h : Traffic s t) (hu : t.units = s.units) : Records s t := by
  obtain ⟨hmg, hobs, hhost⟩ : t.mg = s.mg ∧ t.obs = s.obs ∧ t.host = s.host := by simpa [State.units] using hu
  exact ⟨h, hhost, by rw [hobs], fun p => by rw [State.part, hmg]; rfl⟩

theorem refl (s : State) : Records s s := of_units (Traffic.refl s) rfl

theorem trans {s t u : State} (h : Records s t) (k : Records t u) : Records s u :=
  ⟨h.toTraffic.trans k.toTraffic, k.host.trans h.host, k.windowAt.trans h.windowAt, fun p => (k.state p).trans (h.state p)⟩

theorem foldl {α : Type} {f : State → α → State} (hf : ∀ t a, Records t (f t a)) (l : List α) (s : State) : Records s (l.foldl f s) := by
  induction l generalizing s with
  | nil => exact refl s
  | cons a l ih => exact (hf s a).trans (ih _)

theorem ite {s t u : State} (c : Prop) [Decidable c] (h : Records s t) (k : Records s u) : Records s (if c then t else u) := by
  split
  · exact h
  · exact k

theorem modPart (s : State) (p : Nat) {f : Part → Part} (hf : ∀ q, (f q).state = q.state) : Records s (s.modPart p f) where
  toTraffic := Traffic.modPart s p f
  host := rfl
  windowAt := rfl
  state r := by
    by_cases hr : r < 16
    · have hget := getElem_vmod s.mg.parts p f ⟨r, hr⟩
      simp only [Fin.getElem_fin] at hget
      simp only [State.part, State.modPart, vget, Vector.getElem?_eq_getElem hr, Option.getD_some, hget]
      split
      · exact hf _
      · rfl
    · simp only [State.part, vget, Vector.getElem?_eq_none (Nat.not_lt.1 hr)]

theorem putRecord (s : State) (c : CoreId) (x : CtxId) (p rc : Nat) (dws : List Nat) : Records s (s.putRecord c x p rc dws) := by
  unfold State.putRecord
  dsimp only
  split
  · have ht := Traffic.putRecord s c x p 2 dws
    exact of_units ht (ringPut_units (fun _ _ _ _ => tenantRing_units) dws s.gtime (_, s))
  · split
    · exact (of_units (Traffic.ringPut (fun _ _ _ _ => Traffic.physRing) dws s.gtime (_, s))
        (ringPut_units (fun _ _ _ _ => physRing_units) dws s.gtime (_, s))).trans (modPart _ p fun _ => rfl)
    · exact (of_units (Traffic.ringPut (fun _ _ _ _ => Traffic.physRing) dws s.gtime (_, s))
        (ringPut_units (fun _ _ _ _ => physRing_units) dws s.gtime (_, s))).trans (modPart _ p fun _ => rfl)

theorem observe (s : State) (c : CoreId) (x : CtxId) (p cls kind name : Nat) (pay : List (List RecField)) (sum : WSum) :
    Records s (s.observe c x p cls kind name pay sum) := by
  refine foldl (fun t rc => ?_) _ s
  dsimp only
  split
  · exact refl t
  · split
    · exact modPart t p fun q => by (repeat' split) <;> rfl
    · exact putRecord ..

end Records

end Sys2Proof.Machine
end

section
/-! PROOFS. O58: the host's registers, queues and requests. A doorbell reaches the context it names; a write of HQCFG takes effect at once on an
idle queue; the arbiter of the host DMA channels keeps every command in progress (`SameRuns`), and a link error ends one (R365 to R371). -/

namespace Sys2Proof.Machine

/-! ### Doorbells (R368) -/

/-- A field is 0 where none of its bits is set. -/
theorem bits_eq_zero_iff {w lo n : Nat} : bits w lo n = 0 ↔ ∀ i, lo ≤ i → i < lo + n → w.testBit i = false := by
  constructor
  · intro h i hlo hi
    have hb := testBit_bits w lo n (i - lo)
    rwa [h, Nat.zero_testBit, decide_eq_true (by omega), Bool.true_and, Nat.sub_add_cancel hlo, eq_comm] at hb
  · intro h
    refine Nat.eq_of_testBit_eq fun i => ?_
    rw [testBit_bits, Nat.zero_testBit]
    by_cases hi : i < n
    · rw [h (i + lo) (by omega) (by omega), Bool.and_false]
    · rw [decide_eq_false hi, Bool.false_and]

/-- The reserved fields of DBELL lie at bits 0 to 6 and 16 to 47. -/
theorem outside_dbell (v : Nat) : outside v [(48, 16), (7, 9)] = false ↔ bits v 0 7 = 0 ∧ bits v 16 32 = 0 := by
  simp only [outside, setBitsOf, List.any_eq_false, List.mem_filter, List.mem_range, bits_eq_zero_iff, List.any_cons, List.any_nil, Bool.or_false,
    Bool.not_eq_true', Bool.not_eq_false, Bool.or_eq_true, Bool.and_eq_true, decide_eq_true_eq]
  constructor
  · intro h
    refine ⟨fun i hlo hi => ?_, fun i hlo hi => ?_⟩ <;>
    · by_contra hb
      have := h i ⟨by omega, by simpa using hb⟩
      omega
  · rintro ⟨h0, h16⟩ i ⟨hi, hb⟩
    by_contra hn
    rcases Nat.lt_or_ge i 7 with h7 | h7
    · simp [h0 i (by omega) (by omega)] at hb
    · simp [h16 i (by omega) (by omega)] at hb

/-- The code of a doorbell is the top field of its word. -/
theorem bits_code (v : Word) : bits v.toNat 48 16 = v.toNat / 2 ^ 48 := Nat.mod_eq_of_lt (by have := v.isLt; omega)

/-- The trap that a write of DBELL makes pending (R368). -/
def dbellTrap (p : PartId) (v : Word) (cycle : Nat) : TrapRec :=
  { async := true, cause := 0x13, code := bits v.toNat 48 16, tag := 0, seq := 0, level := 1, park := false,
    det := #v[BitVec.ofNat 64 (2 ^ 62 + p.val % 16 * 4), 0, 0, 0], at_ := cycle }

section
variable {s : State} {p : PartId} {c : CoreId} {x : CtxId} {v : Word}

theorem exec_dbellWrite (hst : (s.part p.val).state < 2) (hc : c.val = v.toNat / 2 ^ 9 % 128) (hx : x.val = v.toNat / 2 ^ 7 % 4) :
    exec (.dbellWrite p v) s = .next (if outside v.toNat [(48, 16), (7, 9)] || !(s.grant c x).v || s.partOf c x ≠ p.val then s else
      s.modCtx c x fun k => { k with pending := k.pending ++ [dbellTrap p v s.cycle], evt := true }) := by
  obtain rfl : Fin.ofNat 128 (bits v.toNat 9 7) = c := Fin.ext (by rw [hc]; exact Nat.mod_mod ..)
  obtain rfl : Fin.ofNat 4 (bits v.toNat 7 2) = x := Fin.ext (by rw [hx]; exact Nat.mod_mod ..)
  change execDbellWrite p v s = _
  rw [execDbellWrite, State.vfWrite, if_neg (Nat.not_le.2 hst), if_pos rfl]
  rfl

theorem dbell_rings (hst : (s.part p.val).state < 2) (hc : c.val = v.toNat / 2 ^ 9 % 128) (hx : x.val = v.toNat / 2 ^ 7 % 4)
    (h0 : v.toNat % 2 ^ 7 = 0) (h16 : v.toNat / 2 ^ 16 % 2 ^ 32 = 0) (hg : (s.grant c x).v = true) (hp : s.partOf c x = p.val) :
    ∃ (t : State) (r : TrapRec), exec (.dbellWrite p v) s = .next t ∧ (t.ctx c x).pending = (s.ctx c x).pending ++ [r] ∧ r.async = true ∧
      r.cause = 0x13 ∧ r.code = v.toNat / 2 ^ 48 ∧ r.level = 1 ∧ (t.ctx c x).evt = true ∧ SameRegs s t c x := by
  have hout : outside v.toNat [(48, 16), (7, 9)] = false := (outside_dbell _).2 ⟨by rw [bits_zero, h0], h16⟩
  have hexec := exec_dbellWrite hst hc hx
  rw [if_neg (by simp [hout, hg, hp])] at hexec
  exact ⟨_, dbellTrap p v s.cycle, hexec, by rw [State.ctx_modCtx_self], rfl, rfl, bits_code v, rfl, by rw [State.ctx_modCtx_self],
    sameRegs_modCtx s c x _ rfl rfl⟩

theorem dbell_dropped (hst : (s.part p.val).state < 2) (hc : c.val = v.toNat / 2 ^ 9 % 128) (hx : x.val = v.toNat / 2 ^ 7 % 4)
    (h : v.toNat % 2 ^ 7 ≠ 0 ∨ v.toNat / 2 ^ 16 % 2 ^ 32 ≠ 0 ∨ (s.grant c x).v = false ∨ s.partOf c x ≠ p.val) :
    exec (.dbellWrite p v) s = .next s := by
  have hout := outside_dbell v.toNat
  rw [bits_zero, bits] at hout
  rw [exec_dbellWrite hst hc hx, if_pos]
  rcases h with h | h | h | h
  · simp [Bool.eq_true_of_not_eq_false (mt hout.1 (not_and_of_not_left _ h))]
  · simp [Bool.eq_true_of_not_eq_false (mt hout.1 (not_and_of_not_right _ h))]
  · simp [h]
  · simp [h]

end

/-! ### Host queues and BOOTWIN (R366, R367) -/

section
variable {s : State} {q : Fin 64}

/-- A queue as HQCFG's word sets it (R367). -/
def HQ.configured (k : HQ) (v : Word) : HQ :=
  { v := v.toNat.testBit 63, part := bits v.toNat 59 4, lerr := k.lerr && !v.toNat.testBit 58, pasid := bits v.toNat 20 20, pend := none }

/-- Without a command in progress a write of HQCFG takes effect at once. -/
theorem hqcfgWrite_idle (hr : s.host.runs = []) (hm : ∀ (c : CoreId) (ch : ChNo), ∀ m ∈ ((s.core c).chans[ch]).cmds, m.kind ≠ 5) (v : Word) :
    exec (.hqcfgWrite q v) s = .next { s with host := { s.host with hq := vmod s.host.hq q.val fun k => k.configured v } } := by
  have hchan : ∀ (c : CoreId), ∀ ch ∈ (s.core c).chans, ∀ m ∈ ch.cmds, m.kind ≠ 5 := fun c ch hch => by
    obtain ⟨i, hi, rfl⟩ := Vector.mem_iff_getElem.1 hch
    exact hm c ⟨i, hi⟩
  have hbusy : ∀ f : CoreId → CCmd → Bool,
      ((s.host.runs.any fun r => r.q = q.val) ||
        (List.finRange 128).any fun c => (s.core c).chans.toList.any fun ch => ch.cmds.any fun m => decide (m.kind = 5) && f c m) = false := fun f => by
    simp only [hr, List.any_nil, Bool.false_or, List.any_eq_false, Bool.and_eq_true, decide_eq_true_eq, Vector.mem_toList_iff, List.any_eq_true,
      not_exists, not_and]
    exact fun c _ ch hch m hmem h5 => absurd h5 (hchan c ch hch m hmem)
  change execHqcfgWrite q v s = _
  rw [execHqcfgWrite, State.hqcfgWrite]
  dsimp only
  rw [hbusy]
  rfl

theorem hqcfg_takes (hr : s.host.runs = []) (hm : ∀ (c : CoreId) (ch : ChNo), ∀ m ∈ ((s.core c).chans[ch]).cmds, m.kind ≠ 5) (v : Word) :
    ∃ t, exec (.hqcfgWrite q v) s = .next t ∧ t.host.hq[q].v = v.getLsbD 63 ∧ t.host.hq[q].part = v.toNat / 2 ^ 59 % 16 ∧
      t.host.hq[q].pasid = v.toNat / 2 ^ 20 % 2 ^ 20 ∧ t.host.hq[q].lerr = (s.host.hq[q].lerr && !v.getLsbD 58) ∧
      ∀ r : Fin 64, r ≠ q → t.host.hq[r] = s.host.hq[r] := by
  have hself : (vmod s.host.hq q.val fun k => k.configured v)[q] = s.host.hq[q].configured v := by rw [getElem_vmod, if_pos rfl]
  exact ⟨_, hqcfgWrite_idle hr hm v, by rw [hself]; rfl, by rw [hself]; rfl, by rw [hself]; rfl, by rw [hself]; rfl,
    fun r hne => by rw [getElem_vmod, if_neg (Fin.val_ne_of_ne hne)]⟩

/-- The ROM polls only where it waits for the host's image. -/
theorem romPoll_of_not_waiting (h : s.romWaits = false) : s.romPoll = s := by
  simp [State.romPoll, h]

theorem bootwin_takes (h : s.romWaits = false) (v : Word) :
    ∃ t, exec (.bootwinWrite v) s = .next t ∧ t.host.bootwinBase = v.toNat / 4096 * 4096 ∧ t.host.bootwinV = v.getLsbD 0 ∧ t.cores = s.cores :=
  ⟨s.bootwinWrite v.toNat, congrArg Host.Outcome.next (romPoll_of_not_waiting (s := s.bootwinWrite v.toNat) h), rfl, rfl, rfl⟩

/-! ### Host-queue commands (R340, R367) -/

/-- The commands in progress are those of `s`, each with at most its channel and its suspension changed. -/
def SameRuns (s t : State) : Prop :=
  t.host.nextRun = s.host.nextRun ∧ ∃ f : HostRun → HostRun, (∀ r, (f r).q = r.q ∧ (f r).cmd = r.cmd ∧ (f r).done = r.done) ∧
    t.host.runs = s.host.runs.map f

theorem sameRuns_of_runs {s t : State} (hn : t.host.nextRun = s.host.nextRun) (hr : t.host.runs = s.host.runs) : SameRuns s t :=
  ⟨hn, id, fun _ => ⟨rfl, rfl, rfl⟩, by rw [hr, List.map_id]⟩

theorem sameRuns_modRun (s : State) (i : Nat) {f : HostRun → HostRun} (hf : ∀ r, (f r).q = r.q ∧ (f r).cmd = r.cmd ∧ (f r).done = r.done) :
    SameRuns s (s.modRun i f) :=
  ⟨rfl, fun r => if r.num = i then f r else r, fun r => by dsimp only; split; exacts [hf r, ⟨rfl, rfl, rfl⟩], rfl⟩

theorem sameRuns_giveDma (s : State) (n : Fin 16) (w : DmaWait) : SameRuns s (s.giveDma n w) := by
  unfold State.giveDma
  split
  · exact sameRuns_of_runs rfl rfl
  · exact sameRuns_modRun (s.setDma n _) _ fun _ => ⟨rfl, rfl, rfl⟩

theorem sameRuns_suspendHolder (s : State) (n : Fin 16) (b : Bool) : SameRuns s (s.suspendHolder n b) := by
  unfold State.suspendHolder
  split
  · exact sameRuns_of_runs rfl rfl
  · split
    · exact sameRuns_of_runs rfl rfl
    · exact sameRuns_modRun s _ fun _ => ⟨rfl, rfl, rfl⟩
    · exact sameRuns_of_runs rfl rfl

theorem sameRuns_dmaArbiter (s : State) : SameRuns s s.dmaArbiter := by
  unfold State.dmaArbiter
  dsimp only
  split
  · exact sameRuns_of_runs rfl rfl
  · split
    · exact sameRuns_of_runs rfl rfl
    · exact sameRuns_suspendHolder ..

theorem hostQueueCommand_refused (h : (s.hq q.val).v = false ∨ (s.part (s.hq q.val).part).state ≠ 1) (cmd : HostCmd) :
    exec (.hostQueueCommand q cmd) s = .next s := by
  change execHostQueueCommand q cmd s = _
  rw [execHostQueueCommand, if_pos]
  simpa using h

theorem hostQueueCommand_joins (hv : (s.hq q.val).v = true) (hst : (s.part (s.hq q.val).part).state = 1) (cmd : HostCmd) :
    ∃ t r, exec (.hostQueueCommand q cmd) s = .next t ∧ r ∈ t.host.runs ∧ r.q = q.val ∧ r.cmd = cmd ∧ r.done = 0 ∧
      t.host.nextRun = s.host.nextRun + 1 := by
  let r : HostRun := { q := q.val, cmd := cmd, done := 0, due := s.cycle, dma := none, suspended := false, num := s.host.nextRun }
  let u : State := { s with host := { s.host with runs := s.host.runs ++ [r], nextRun := s.host.nextRun + 1 } }
  obtain ⟨t, hexec, hnext, f, hf, hruns⟩ : ∃ t, exec (.hostQueueCommand q cmd) s = .next t ∧ SameRuns u t := by
    change ∃ t, execHostQueueCommand q cmd s = _ ∧ _
    rw [execHostQueueCommand, if_neg (by simp [hv, hst])]
    refine ⟨_, rfl, ?_⟩
    split
    · exact sameRuns_giveDma ..
    · exact sameRuns_dmaArbiter u
  obtain ⟨hq, hcmd, hdone⟩ := hf r
  exact ⟨t, f r, hexec, by rw [hruns]; exact List.mem_map_of_mem (List.mem_append_right _ (List.mem_singleton_self r)), hq, hcmd, hdone, hnext⟩

/-! ### Link errors (R219, R367) -/

/-- What a host-queue command had not written when its link failed is undefined (R219). -/
def State.runSpoiled (s : State) (r : HostRun) : State :=
  let n := r.cmd.len - r.done
  if r.cmd.toDevice then
    if inDram (r.cmd.dev + r.done) n then s.spoilPhys (hostUnit r.q) 0 (r.cmd.dev + r.done) (s.part (s.hq r.q).part).key n else s
  else (s.freeBytes n).2.writeMem true (hostUnit r.q) 0 (hostKey (s.hq r.q).pasid (r.cmd.host + r.done)) (s.freeBytes n).1

/-- A host-queue command leaves the commands in progress and frees its channel. -/
def State.runEnded (s : State) (r : HostRun) : State :=
  let t := match r.dma with | some n => s.setDma n none | none => s
  { t with host := { t.host with runs := t.host.runs.filter fun (o : HostRun) => o.num ≠ r.num } }

/-- Queue `q` shows a link error, and the VF of partition `p` is told (R367). -/
def State.linkFailed (s : State) (q : Fin 64) (p : Nat) : State :=
  { s with host := { s.host with hq := s.host.hq.set q { s.host.hq[q] with lerr := true }, msix := s.host.msix ++ [(p + 1, 1)] } }

theorem runSpoiled_host (s : State) (r : HostRun) : (s.runSpoiled r).host = s.host := by
  refine congrArg (fun u => u.2.2) (show (s.runSpoiled r).units = s.units from ?_)
  unfold State.runSpoiled
  dsimp only
  split
  · split
    · exact spoilPhys_units ..
    · rfl
  · exact writeMem_units ..

theorem runEnded_host (s : State) (r : HostRun) :
    (s.runEnded r).host.runs = s.host.runs.filter (fun (o : HostRun) => o.num ≠ r.num) ∧ (s.runEnded r).host.msix = s.host.msix := by
  unfold State.runEnded
  cases r.dma <;> exact ⟨rfl, rfl⟩

theorem hqSettle_host (s : State) (n : Nat) : (s.hqSettle n).host.runs = s.host.runs ∧ (s.hqSettle n).host.msix = s.host.msix := by
  unfold State.hqSettle
  split <;> exact ⟨rfl, rfl⟩

/-- A link error where the queue's command in progress is one of the host's (R367). -/
theorem exec_hostLinkError (hc : s.hostHeads.find? (fun h => s.copyOnQueue h.1 h.2.2 q.val) = none) {r : HostRun}
    (hr : s.host.runs.find? (fun r => r.q = q.val) = some r) :
    exec (.hostLinkError q) s = .next (((((s.runSpoiled r).runEnded r).hqSettle r.q).linkFailed q (s.hq q.val).part).faultRecord
      (s.part (s.hq q.val).part).hcore (s.part (s.hq q.val).part).hctx (s.hq q.val).part 0 0 0 #v[0, 0, 0, 5]) := by
  have hq : r.q = q.val := by simpa using List.find?_some hr
  change execHostLinkError q s = _
  simp only [execHostLinkError, hc, hr, State.runSpoiled, hq]
  rfl

theorem hostLinkError_ends (hc : s.hostHeads.find? (fun h => s.copyOnQueue h.1 h.2.2 q.val) = none) {r : HostRun}
    (hr : s.host.runs.find? (fun r => r.q = q.val) = some r) :
    ∃ t, exec (.hostLinkError q) s = .next t ∧ t.host.hq[q].lerr = true ∧ (∀ o ∈ t.host.runs, o.num ≠ r.num) ∧
      t.host.msix = s.host.msix ++ [((s.hq q.val).part + 1, 1)] := by
  obtain ⟨hruns, hmsix⟩ := runEnded_host (s.runSpoiled r) r
  obtain ⟨hruns', hmsix'⟩ := hqSettle_host ((s.runSpoiled r).runEnded r) r.q
  rw [runSpoiled_host] at hruns hmsix
  refine ⟨_, exec_hostLinkError hc hr, ?_⟩
  rw [State.faultRecord, (Records.observe ..).host]
  refine ⟨congrArg HQ.lerr (Vector.getElem_set_self ..), fun o ho => ?_, by rw [State.linkFailed, hmsix', hmsix]⟩
  rw [State.linkFailed, hruns', hruns] at ho
  simpa using (List.mem_filter.1 ho).2

/-! ### Invalidations, attestation, power and heat (R365, R370, R371) -/

/-- Host accesses of a page are performed by the cycle of its invalidation. -/
theorem atsInvalidation_performs (s : State) (pasid addr : Nat) :
    ∃ t, exec (.atsInvalidation pasid addr) s = .next t ∧ (∀ e ∈ t.hist, e.host = true → e.addr / 4096 = hostKey pasid addr / 4096 →
      ∃ n, e.allAt = some n ∧ n ≤ s.cycle) ∧ t.mem = s.mem ∧ t.hostMem = s.hostMem ∧ t.cores = s.cores := by
  refine ⟨_, rfl, fun e he hh ha => ?_, rfl, rfl, rfl⟩
  obtain ⟨o, -, rfl⟩ := List.mem_map.1 he
  split
  · refine ⟨_, rfl, ?_⟩
    split
    · exact Nat.min_le_right ..
    · exact Nat.le_refl _
  · next hn =>
    rw [if_neg hn] at hh ha
    exact absurd (by simp [hh, ha]) hn

@[simp] theorem length_fill (n : Nat) (bs : List Byte) : (fill n bs).length = n := by
  rw [fill, List.length_take, List.length_append, List.length_replicate]
  omega

theorem fill_of_length {n : Nat} {bs : List Byte} (h : bs.length = n) : fill n bs = bs := by
  rw [fill, h, Nat.sub_self, List.replicate_zero, List.append_nil, ← h, List.take_length]

/-- Bytes that stand in a filled image stay where they are. -/
theorem fill_slice {n : Nat} (a b c : List Byte) (h : a.length + b.length ≤ n) : ((fill n (a ++ b ++ c)).drop a.length).take b.length = b := by
  rw [fill, List.append_assoc, List.append_assoc, List.drop_take, List.drop_left, List.take_take, Nat.min_eq_left (by omega), List.take_left]

/-- The report begins with FWDIG, and NONCE stands 16 bytes after it (R370). -/
theorem reportBody_eq (hd : s.host.fwdig.length = 64) (hn : s.host.nonce.length = 32) :
    ∃ l k, l.length = 16 ∧ s.reportBody = s.host.fwdig ++ l ++ s.host.nonce ++ k :=
  ⟨leBytes 8 (s.host.fwver % 2 ^ 32) ++ leBytes 8 (s.host.areqPart % 16 + (s.part s.host.areqPart).key % 64 * 2 ^ 8), _,
    by rw [List.length_append, length_leBytes, length_leBytes],
    by rw [State.reportBody, fill_of_length hd, fill_of_length hn, List.append_assoc s.host.fwdig]⟩

theorem areqGo_reports (hgo : s.host.areqGo = true) (hd : s.host.fwdig.length = 64) (hn : s.host.nonce.length = 32) :
    ∃ t, exec .areqGo s = .next t ∧ t.host.areqGo = false ∧ t.host.areqDone = true ∧ t.host.arep.length = 320 ∧
      t.host.arep.take 64 = s.host.fwdig ∧ (t.host.arep.drop 80).take 32 = s.host.nonce := by
  let sig := leBytes 114 (Config.signAttestation (BitVec.ofNat 512 (leNat (shake256 s.reportBody 64)))).toNat
  have hexec : exec .areqGo s =
      .next { s with host := { s.host with areqGo := false, areqDone := true, arep := fill 320 (s.reportBody ++ sig) } } := by
    change execAreqGo s = _
    rw [execAreqGo, hgo]
    rfl
  obtain ⟨l, k, hl, hbody⟩ := reportBody_eq hd hn
  have hdig := fill_slice (n := 320) [] s.host.fwdig (l ++ s.host.nonce ++ k ++ sig) (by simp [hd])
  have hnonce := fill_slice (n := 320) (s.host.fwdig ++ l) s.host.nonce (k ++ sig) (by simp [hd, hl, hn])
  simp only [List.length_append, hd, hl, hn, List.length_nil, List.drop_zero, List.nil_append, List.append_assoc] at hdig hnonce
  refine ⟨_, hexec, rfl, rfl, length_fill .., ?_, ?_⟩
  · simpa only [hbody, List.append_assoc] using hdig
  · simpa only [hbody, List.append_assoc] using hnonce

theorem powerState_leaves (h : s.host.power = 3) : ∃ t, exec .powerStateD3hot s = .next t ∧ t.host.power = 0 ∧ t.cores = s.cores :=
  ⟨_, if_pos h, rfl, rfl⟩

theorem powerState_enters (h : s.host.power ≠ 3) (hp : ∀ n : PartId, s.mg.parts[n].state = 0) :
    ∃ t, exec .powerStateD3hot s = .next t ∧ t.host.power = 3 ∧ t.cores = s.cores := by
  have hall : (s.mg.parts.toList.all fun q => q.state = 0) = true := by
    simp only [List.all_eq_true, Vector.mem_toList_iff, decide_eq_true_eq]
    rintro q hq
    obtain ⟨i, hi, rfl⟩ := Vector.mem_iff_getElem.1 hq
    exact hp ⟨i, hi⟩
  exact ⟨_, (if_neg h).trans (if_pos hall), rfl, rfl⟩

end

end Sys2Proof.Machine
end

section
/-! PROOFS. O58: samples and windows, and the settlement. A sample only writes records (`Traffic`); a window keeps the counters of its partition's contexts
(`Ctx.windows`), and all that follows leaves them (`Records`) (R352, R359, R361). -/

namespace Sys2Proof.Machine

/-! ### Samples (R361) -/

/-- The records of a context's member cursors, sampled as they stand in `s`, are written from state `u` on. -/
def State.sampleCtx (s u : State) (c : CoreId) (x : CtxId) : State :=
  allTags.foldl (fun (u : State) t => if ((s.ctx c x).cursor t).member then
    let r := ({ s with fresh := u.fresh }).sampleOf c x t
    (u.sampleRecord c x (tagNum t) r.1 r.2).skipFresh 1
  else u) u

/-- The records of every context that is sampled. -/
def State.samples (s : State) : State :=
  (List.finRange 128).foldl (fun (u : State) c => (List.finRange 4).foldl (fun (u : State) x =>
    if (s.ctx c x).phase = .running && (s.grant c x).v && s.partOf c x = s.obs.sampPart then s.sampleCtx u c x else u) u) s

theorem sampleCtx_traffic (s u : State) (c : CoreId) (x : CtxId) : Traffic u (s.sampleCtx u c x) :=
  Traffic.foldl (fun u _ => Traffic.ite _ ((Traffic.observe ..).trans (Traffic.skipFresh ..)) (Traffic.refl u)) allTags u

theorem samples_traffic (s : State) : Traffic s s.samples :=
  Traffic.foldl (fun u _ => Traffic.foldl (fun u _ => Traffic.ite _ (sampleCtx_traffic ..) (Traffic.refl u)) _ u) _ s

theorem sampleTick_moves {s : State} (h : s.sampleDue = true) :
    ∃ t, exec .sampleTick s = .next t ∧ t.obs.sampAt = s.obs.sampAt + 2 ^ s.obs.sampPer ∧ ∀ c x, (t.ctx c x).s = (s.ctx c x).s := by
  have hexec : exec .sampleTick s =
      .next { s.samples with obs := { s.samples.obs with sampAt := s.obs.sampAt + s.obs.period } } := by
    change execSampleTick s = _
    rw [execSampleTick, h]
    rfl
  refine ⟨_, hexec, rfl, fun c x => ?_⟩
  obtain ⟨a, b, p, o, d, hctx⟩ := (samples_traffic s).ctx c x
  have hobs : ∀ (u : State) (o : Obs), ({ u with obs := o } : State).ctx c x = u.ctx c x := fun _ _ => rfl
  rw [hobs, hctx]

/-! ### Windows (R352, R359, R361) -/

/-- A rule of class `cls` for recipient `rc` and event `e` asks for a window that ends after microsecond `m0` and by `m`. -/
def State.endsFor (s : State) (m0 m p cls rc e : Nat) : Bool := (s.gran p cls rc e).1 = 3 && windowEnds m0 m (s.gran p cls rc e).2

/-- The counters of a partition's contexts at the end of a window. -/
def State.snapContexts (s : State) (m0 m p : Nat) : State := (s.contextsOf p).foldl (fun (t : State) q => t.snapCounters m0 m q.1 q.2) s

/-- The counters of the dies at the end of a window. -/
def State.snapDies (s : State) (m0 m p : Nat) : State :=
  (List.range 8).foldl (fun (t : State) d => (List.range 16).foldl (fun (t : State) i => t.snapDie (s.endsFor m0 m p 2) p d i) t) s

/-- The power counter of a partition at the end of a window. -/
def State.snapPower (s : State) (m0 m p : Nat) : State :=
  if (List.range 3).any fun rc => s.endsFor m0 m p 7 rc 0 then
    (s.powerCounts p).modPart p fun q => { q with
      pwrWin := Vector.ofFn fun rc : Fin 3 => if s.endsFor m0 m p 7 rc.val 0 then q.ppwr else q.pwrWin[rc] }
  else s

/-- The window of one class for one recipient becomes records, where it ends. -/
def State.windowOut (s : State) (m0 m p cls rc : Nat) : State :=
  if s.endsFor m0 m p cls rc 0 then s.windowRecords p cls rc (m / 2 ^ (s.gran p cls rc 0).2 * 2 ^ (s.gran p cls rc 0).2) else s

theorem windowPart_eq (s : State) (m0 m p : Nat) :
    s.windowPart m0 m p = [2, 1, 0].foldl (fun (t : State) rc => (t.windowOut m0 m p 5 rc).windowOut m0 m p 3 rc)
      (((s.snapContexts m0 m p).snapDies m0 m p).snapPower m0 m p) := rfl

theorem windowOut_records (s : State) (m0 m p cls rc : Nat) : Records s (s.windowOut m0 m p cls rc) := by
  refine Records.ite _ ?_ (Records.refl s)
  unfold State.windowRecords
  dsimp only
  refine Records.trans ?_ (Records.foldl (fun t w => Records.putRecord ..) _ _)
  exact Records.modPart s p fun _ => rfl

theorem snapDie_records (s : State) (due : Nat → Nat → Bool) (p d i : Nat) : Records s (s.snapDie due p d i) := by
  unfold State.snapDie State.dieCounts
  dsimp only
  (repeat' split) <;> exact ⟨Traffic.of_cores rfl rfl rfl rfl, rfl, rfl, fun _ => rfl⟩

theorem snapDies_records (s : State) (m0 m p : Nat) : Records s (s.snapDies m0 m p) :=
  Records.foldl (fun t _ => Records.foldl (fun _ _ => snapDie_records ..) _ t) _ s

theorem snapPower_records (s : State) (m0 m p : Nat) : Records s (s.snapPower m0 m p) := by
  have hcount : Records s (s.powerCounts p) :=
    (Records.of_units (t := s.skipFresh 1) (Traffic.skipFresh s 1) rfl).trans (Records.modPart _ p fun _ => rfl)
  exact Records.ite _ (hcount.trans (Records.modPart _ p fun _ => rfl)) (Records.refl s)

/-- Past the counters of its contexts, a partition's windows are counts and records. -/
theorem windowPart_records (s : State) (m0 m p : Nat) : Records (s.snapContexts m0 m p) (s.windowPart m0 m p) := by
  rw [windowPart_eq]
  exact ((snapDies_records ..).trans (snapPower_records ..)).trans
    (Records.foldl (fun _ _ => (windowOut_records ..).trans (windowOut_records ..)) _ _)

/-- The counters that windows keep stand in the contexts alone. -/
theorem snapContexts_units (s : State) (m0 m p : Nat) : (s.snapContexts m0 m p).units = s.units :=
  foldl_units (f := fun (t : State) (q : CoreId × CtxId) => t.snapCounters m0 m q.1 q.2) (fun _ _ => rfl) _ s

theorem windowPart_keeps (s : State) (m0 m p : Nat) :
    (s.windowPart m0 m p).obs.windowAt = s.obs.windowAt ∧ ∀ r, ((s.windowPart m0 m p).part r).state = (s.part r).state := by
  obtain ⟨hmg, hobs, -⟩ : (s.snapContexts m0 m p).mg = s.mg ∧ (s.snapContexts m0 m p).obs = s.obs ∧ (s.snapContexts m0 m p).host = s.host := by
    simpa [State.units] using snapContexts_units s m0 m p
  have h := windowPart_records s m0 m p
  exact ⟨by rw [h.windowAt, hobs], fun r => by rw [h.state, State.part, hmg]; rfl⟩

/-- The windows of partition `p` that a WINDOW_SUMMARY of microsecond `m` ends: none where it is not ACTIVE. -/
def State.windowsOf (s : State) (m0 m p : Nat) : State := if (s.part p).state = 1 then s.windowPart m0 m p else s

/-- The windows of the partitions of a list. -/
def State.windowsEnd (s : State) (m0 m : Nat) (l : List Nat) : State := l.foldl (fun (t : State) p => t.windowsOf m0 m p) s

theorem exec_windowSummary (s : State) : exec .windowSummary s =
    .next (({ s with obs := { s.obs with windowAt := s.micros } } : State).windowsEnd s.obs.windowAt s.micros (List.range 16)) := rfl

theorem windowsEnd_windowAt (s : State) (m0 m : Nat) (l : List Nat) : (s.windowsEnd m0 m l).obs.windowAt = s.obs.windowAt := by
  induction l generalizing s with
  | nil => rfl
  | cons p l ih =>
    refine (ih _).trans ?_
    dsimp only [State.windowsOf]
    split
    · exact (windowPart_keeps ..).1
    · rfl

theorem windowsEnd_idle {s : State} {l : List Nat} (h : ∀ r ∈ l, (s.part r).state ≠ 1) (m0 m : Nat) : s.windowsEnd m0 m l = s := by
  induction l with
  | nil => rfl
  | cons p l ih =>
    rw [State.windowsEnd, List.foldl_cons, State.windowsOf, if_neg (h p List.mem_cons_self)]
    exact ih fun r hr => h r (List.mem_cons_of_mem p hr)

/-- Where one partition is ACTIVE, its windows are all. -/
theorem windowsEnd_alone {s : State} {p : Nat} {l : List Nat} (hl : l.Nodup) (hmem : p ∈ l) (hp : (s.part p).state = 1)
    (hne : ∀ r ∈ l, r ≠ p → (s.part r).state ≠ 1) (m0 m : Nat) : s.windowsEnd m0 m l = s.windowPart m0 m p := by
  obtain ⟨l1, l2, rfl⟩ := List.append_of_mem hmem
  obtain ⟨hout, -⟩ := List.nodup_cons.1 (List.nodup_middle.1 hl)
  have hrest : ∀ r ∈ l1 ++ l2, (s.part r).state ≠ 1 := fun r hr =>
    hne r (List.perm_middle.mem_iff.2 (List.mem_cons_of_mem p hr)) fun e => hout (e ▸ hr)
  have hbefore : s.windowsEnd m0 m l1 = s := windowsEnd_idle (fun r hr => hrest r (List.mem_append_left l2 hr)) m0 m
  have hafter : (s.windowPart m0 m p).windowsEnd m0 m l2 = s.windowPart m0 m p :=
    windowsEnd_idle (fun r hr => (windowPart_keeps s m0 m p).2 r ▸ hrest r (List.mem_append_right l1 hr)) m0 m
  calc s.windowsEnd m0 m (l1 ++ p :: l2) = ((s.windowsEnd m0 m l1).windowsOf m0 m p).windowsEnd m0 m l2 := by
        simp only [State.windowsEnd, List.foldl_append, List.foldl_cons]
    _ = s.windowPart m0 m p := by rw [hbefore, State.windowsOf, if_pos hp, hafter]

/-! ### The counters that a window keeps (R352) -/

/-- A context's counters at the end of a window, for the recipients and events that `due` names. -/
def Ctx.windows (k : Ctx) (due : Nat → Nat → Bool) : Vector (Vector Nat 3) 8 :=
  Vector.ofFn fun n : Fin 8 => Vector.ofFn fun rc : Fin 3 =>
    let e := vget k.cntsel n.val 0 % 256
    if due rc.val e then (if cntListed e then vget k.cnt n.val 0 else codeUnavail) else (k.cntWin[n])[rc]

theorem snapCounters_eq (s : State) (m0 m : Nat) (c : CoreId) (x : CtxId) :
    s.snapCounters m0 m c x = s.modCtx c x fun k => { k with cntWin := k.windows (s.endsFor m0 m (s.partOf c x) 1) } := rfl

/-- The kept value of counter `n` for recipient `rc` is what it counts now. -/
def Ctx.windowKept (k : Ctx) (n : Fin 8) (rc : Fin 3) : Prop := (k.cntWin[n])[rc] = vget k.cnt n.val 0

theorem windowKept_windows {k : Ctx} {due : Nat → Nat → Bool} {n : Fin 8} {rc : Fin 3} (hdue : due rc.val (vget k.cntsel n.val 0 % 256) = true)
    (hl : cntListed (vget k.cntsel n.val 0 % 256) = true) : ({ k with cntWin := k.windows due } : Ctx).windowKept n rc := by
  simp [Ctx.windowKept, Ctx.windows, hdue, hl]

/-- From `s` to `t` no rule and no grant of context `x` changes, and of the context only the values kept for windows. -/
structure OnlyWindows (s t : State) (c : CoreId) (x : CtxId) : Prop where
  mg : t.mg = s.mg
  part : t.partOf c x = s.partOf c x
  ctx : ∃ w, t.ctx c x = { s.ctx c x with cntWin := w }

section
variable {s t : State} {c : CoreId} {x : CtxId} {m0 m : Nat}

theorem OnlyWindows.snapCounters (h : OnlyWindows s t c x) (m0 m : Nat) (c' : CoreId) (x' : CtxId) :
    OnlyWindows s (t.snapCounters m0 m c' x') c x := by
  obtain ⟨hmg, hpart, w, hctx⟩ := h
  rw [snapCounters_eq]
  refine ⟨hmg, ?_, ?_⟩
  · rw [← hpart, State.partOf, State.partOf, State.grant, State.grant]
    by_cases hc : c = c'
    · subst hc
      rw [State.core_modCtx_self, Core.modCtx_grants]
      rfl
    · rw [State.core_modCtx_ne _ _ _ _ _ hc]
      rfl
  · by_cases he : c = c' ∧ x = x'
    · obtain ⟨rfl, rfl⟩ := he
      rw [State.ctx_modCtx_self, hctx]
      exact ⟨_, rfl⟩
    · rw [State.ctx_modCtx_ne _ _ _ _ _ _ he]
      exact ⟨w, hctx⟩

theorem snapCounters_keeps {n : Fin 8} {rc : Fin 3} (h : OnlyWindows s t c x)
    (hdue : s.endsFor m0 m (s.partOf c x) 1 rc.val (vget (s.ctx c x).cntsel n.val 0 % 256) = true)
    (hl : cntListed (vget (s.ctx c x).cntsel n.val 0 % 256) = true) (q : CoreId × CtxId) (hq : (c, x) = q ∨ (t.ctx c x).windowKept n rc) :
    ((t.snapCounters m0 m q.1 q.2).ctx c x).windowKept n rc := by
  obtain ⟨hmg, hpart, w, hctx⟩ := h
  rw [snapCounters_eq]
  by_cases he : c = q.1 ∧ x = q.2
  · obtain ⟨rfl, rfl⟩ := he
    have hdue' : t.endsFor m0 m (t.partOf q.1 q.2) 1 = s.endsFor m0 m (s.partOf q.1 q.2) 1 := by
      unfold State.endsFor State.gran State.part
      rw [hmg, hpart]
    rw [State.ctx_modCtx_self]
    exact windowKept_windows (by rw [hdue', hctx]; exact hdue) (by rw [hctx]; exact hl)
  · rw [State.ctx_modCtx_ne _ _ _ _ _ _ he]
    exact hq.resolve_left fun e => he ⟨congrArg Prod.fst e, congrArg Prod.snd e⟩

theorem snapAll_keeps {n : Fin 8} {rc : Fin 3} {l : List (CoreId × CtxId)} (h : OnlyWindows s t c x)
    (hdue : s.endsFor m0 m (s.partOf c x) 1 rc.val (vget (s.ctx c x).cntsel n.val 0 % 256) = true)
    (hl : cntListed (vget (s.ctx c x).cntsel n.val 0 % 256) = true) (hmem : (c, x) ∈ l ∨ (t.ctx c x).windowKept n rc) :
    OnlyWindows s (l.foldl (fun (t : State) q => t.snapCounters m0 m q.1 q.2) t) c x ∧
      ((l.foldl (fun (t : State) q => t.snapCounters m0 m q.1 q.2) t).ctx c x).windowKept n rc := by
  induction l generalizing t with
  | nil => exact ⟨h, hmem.resolve_left List.not_mem_nil⟩
  | cons q l ih =>
    refine ih (h.snapCounters m0 m q.1 q.2) ?_
    rcases hmem with hmem | hk
    · exact (List.mem_cons.1 hmem).symm.imp_right fun e => snapCounters_keeps h hdue hl q (.inl e)
    · exact .inr (snapCounters_keeps h hdue hl q (.inr hk))

theorem mem_contextsOf {p : Nat} (hg : (s.grant c x).v = true) (hp : s.partOf c x = p) : (c, x) ∈ s.contextsOf p := by
  simp only [State.contextsOf, List.mem_flatMap, List.mem_filterMap]
  exact ⟨c, List.mem_finRange c, x, List.mem_finRange x, by simp [hg, hp]⟩

/-- The window of a partition keeps the counters of its contexts that its policy asks for. -/
theorem windowPart_windowKept {n : Fin 8} {rc : Fin 3} (hg : (s.grant c x).v = true)
    (hdue : s.endsFor m0 m (s.partOf c x) 1 rc.val (vget (s.ctx c x).cntsel n.val 0 % 256) = true)
    (hl : cntListed (vget (s.ctx c x).cntsel n.val 0 % 256) = true) :
    (((s.windowPart m0 m (s.partOf c x)).ctx c x).cntWin[n])[rc] = vget (s.ctx c x).cnt n.val 0 := by
  have hself : OnlyWindows s s c x := ⟨rfl, rfl, _, rfl⟩
  obtain ⟨⟨-, -, w, hctx⟩, hkept⟩ := snapAll_keeps hself hdue hl (.inl (mem_contextsOf hg rfl))
  obtain ⟨a, b, p, o, d, hrec⟩ := (windowPart_records s m0 m (s.partOf c x)).ctx c x
  rw [hrec]
  exact Eq.trans hkept (by rw [hctx])

end

theorem windowSummary_keeps (s : State) (p : PartId) (c : CoreId) (x : CtxId) :
    ∃ t, exec .windowSummary s = .next t ∧ t.obs.windowAt = s.micros ∧ ∀ (n : Fin 8) (rc : Fin 3) (w : Nat), (s.grant c x).v = true →
      s.partOf c x = p.val → (s.part p.val).state = 1 → (∀ r : PartId, r ≠ p → (s.part r.val).state ≠ 1) →
      s.gran p.val 1 rc.val (vget (s.ctx c x).cntsel n.val 0 % 256) = (3, w) → s.obs.windowAt / 2 ^ w < s.micros / 2 ^ w →
      cntListed (vget (s.ctx c x).cntsel n.val 0 % 256) = true → ((t.ctx c x).cntWin[n])[rc] = vget (s.ctx c x).cnt n.val 0 := by
  refine ⟨_, exec_windowSummary s, windowsEnd_windowAt .., fun n rc w hg hpart hst hne hgran hends hl => ?_⟩
  let u : State := { s with obs := { s.obs with windowAt := s.micros } }
  have hdue : u.endsFor s.obs.windowAt s.micros (u.partOf c x) 1 rc.val (vget (u.ctx c x).cntsel n.val 0 % 256) = true := by
    have hu : u.gran (u.partOf c x) 1 rc.val (vget (u.ctx c x).cntsel n.val 0 % 256) = (3, w) := by
      rw [← hpart] at hgran
      exact hgran
    simp [State.endsFor, hu, windowEnds, hends]
  have halone := windowsEnd_alone (s := u) List.nodup_range (List.mem_range.2 p.isLt) hst
    (fun r hr hrp => hne ⟨r, List.mem_range.1 hr⟩ fun e => hrp (congrArg Fin.val e)) s.obs.windowAt s.micros
  rw [halone, ← hpart]
  exact windowPart_windowKept (s := u) hg hdue hl

/-- Settles O58: each event by its own lemma. -/
theorem hostEvents : Obligations.HostEvents := fun s p c x v _ =>
  ⟨fun hst hc hx => ⟨dbell_rings hst hc hx, dbell_dropped hst hc hx⟩, fun hr hm => hqcfg_takes hr hm v, fun h => bootwin_takes h v,
    fun cmd => ⟨fun h => hostQueueCommand_refused h cmd, fun hv hst => hostQueueCommand_joins hv hst cmd⟩, fun _ hc hr => hostLinkError_ends hc hr,
    atsInvalidation_performs s, areqGo_reports, fun _ => ⟨_, rfl, rfl⟩, powerState_leaves, powerState_enters, sampleTick_moves,
    windowSummary_keeps s p c x⟩

end Sys2Proof.Machine
end

section
/-! PROOFS. O52: what the coder's accesses to memory leave. Reads and writes on the FUR path keep the cycle, and of every core its furrows and the flag
updates under way (`State.coder`); of a context they change what `Traffic` names (R228, R230, R244, R292). -/

namespace Sys2Proof.Machine

/-! ### The furrows and the flag updates -/

/-- The cycle, the furrows of a core and its flag updates under way. -/
def State.coder (s : State) (c : CoreId) : Nat × Vector Furrow 16 × List FlagUpd := (s.cycle, (s.core c).furs, (s.core c).upds)

/-- What each step of a fold keeps, the fold keeps. -/
theorem foldl_keeps {α β γ : Type} (p : β → γ) {f : β → α → β} (hf : ∀ b a, p (f b a) = p b) (l : List α) (b : β) : p (l.foldl f b) = p b :=
  foldl_ind (fun q => p q = p b) f (fun q a h => (hf q a).trans h) l b rfl

theorem coder_modCore (s : State) (c : CoreId) {f : Core → Core} (hf : ∀ k, (f k).furs = k.furs ∧ (f k).upds = k.upds) :
    (s.modCore c f).coder = s.coder := by
  funext c'
  unfold State.coder
  by_cases h : c' = c
  · subst h
    rw [State.core_modCore_self, (hf _).1, (hf _).2]
    rfl
  · rw [State.core_modCore_ne _ _ _ _ h]
    rfl

theorem coder_modCtx (s : State) (c : CoreId) (x : CtxId) (f : Ctx → Ctx) : (s.modCtx c x f).coder = s.coder :=
  coder_modCore s c fun _ => ⟨rfl, rfl⟩

theorem coder_skipFresh (s : State) (n : Nat) : (s.skipFresh n).coder = s.coder := rfl

theorem count_coder (s : State) (c : CoreId) (x : CtxId) (e n : Nat) : (s.count c x e n).coder = s.coder := by
  unfold State.count
  split
  · rfl
  · exact coder_modCtx ..

theorem coder_eq {s t : State} (h : t.coder = s.coder) (c : CoreId) :
    t.cycle = s.cycle ∧ (t.core c).furs = (s.core c).furs ∧ (t.core c).upds = (s.core c).upds := by
  simpa [State.coder] using congrFun h c

/-! ### Translations and handles (R225, R228) -/

theorem keyFaultAt_coder (s : State) (c : CoreId) (x : CtxId) (haddr va gpa pa akey path : Nat) (wr : Bool) :
    (s.keyFaultAt c x haddr va gpa pa akey path wr).coder = s.coder := coder_modCore s c fun _ => ⟨rfl, rfl⟩

theorem softErr_coder (s : State) (c : CoreId) (x : CtxId) (pa path : Nat) : (s.softErr c x pa path).coder = s.coder := coder_modCtx ..

theorem noteTouches_coder (s : State) (c : CoreId) (x : CtxId) (haddr va path : Nat) (l : List Touch) :
    (s.noteTouches c x haddr va path l).coder = s.coder := by
  refine foldl_keeps State.coder (fun t q => ?_) l s
  split
  · exact (coder_skipFresh ..).trans (keyFaultAt_coder ..)
  · split
    · exact (coder_skipFresh ..).trans (softErr_coder ..)
    · rfl

theorem tlbAdd_coder (s : State) (c : CoreId) (t : TlbSel) (e : TlbEntry) : (s.tlbAdd c t e).coder = s.coder := by
  unfold State.tlbAdd
  split
  · exact coder_modCore s c fun _ => ⟨rfl, rfl⟩
  · split
    · rfl
    · exact coder_modCore s c fun _ => ⟨rfl, rfl⟩

theorem translate_coder (s : State) (c : CoreId) (x : CtxId) (t : TlbSel) (haddr va : Nat) (d : Dir) :
    (s.translate c x t haddr va d).2.coder = s.coder := by
  unfold State.translate
  dsimp only
  (repeat' split) <;> simp only [tlbAdd_coder, noteTouches_coder, count_coder]

theorem handle_coder (s : State) (c : CoreId) (x : CtxId) (h path : Nat) (wr : Bool) : (s.handle c x h path wr).2.coder = s.coder := by
  unfold State.handle
  dsimp only
  (repeat' split) <;> simp only [coder_modCtx, noteTouches_coder]

/-- Where a handle is bound, its entry joins the context's handle cache. -/
theorem Traffic.handle (s : State) (c : CoreId) (x : CtxId) (h path : Nat) (wr : Bool) : Traffic s (s.handle c x h path wr).2 := by
  unfold State.handle
  dsimp only
  split
  · exact Traffic.refl s
  · split
    · exact Traffic.refl s
    · split
      · exact Traffic.noteTouches ..
      · exact Traffic.noteTouches ..
      · exact (Traffic.noteTouches ..).trans (Traffic.modCtx _ c x _ fun _ => ⟨_, _, _, _, _, rfl⟩)

theorem furVa_state (s : State) (c : CoreId) (x : CtxId) (haddr : Nat) (wr : Bool) :
    (s.furVa c x haddr wr).2 = (s.handle c x (haddrH haddr) 3 wr).2 := by
  unfold State.furVa
  split <;> next h => rw [h]

theorem furVa_coder (s : State) (c : CoreId) (x : CtxId) (haddr : Nat) (wr : Bool) : (s.furVa c x haddr wr).2.coder = s.coder := by
  rw [furVa_state, handle_coder]

theorem Traffic.furVa (s : State) (c : CoreId) (x : CtxId) (haddr : Nat) (wr : Bool) : Traffic s (s.furVa c x haddr wr).2 := by
  rw [furVa_state]
  exact Traffic.handle ..

/-! ### Reads (R249) -/

theorem Traffic.furRead (s : State) (c : CoreId) (x : CtxId) (cls : Nat) (q : Acq) (haddr n : Nat) :
    Traffic s (s.furRead c x cls q haddr n).2 := by
  have h := Traffic.furVa s c x haddr false
  unfold State.furRead
  split
  · next e => rw [e] at h; exact h
  · next e => rw [e] at h; exact h.trans (Traffic.skipFresh ..)
  · next va s1 e =>
    rw [e] at h
    have hr := Traffic.readVa s1 (furUnit c x) (some 5) cls q false haddr va n
    split
    · next e => rw [e] at hr; exact h.trans hr
    · next e => rw [e] at hr; exact h.trans hr

theorem Traffic.furRow (s : State) (c : CoreId) (x : CtxId) (cls : Nat) (q : Acq) (t : Tensor) (p : Nat × Nat × Nat) :
    Traffic s (s.furRow c x cls q t p).2 := by
  unfold State.furRow
  extract_lets keep codes b
  split
  · exact Traffic.refl s
  · have h := Traffic.furRead s c x cls q (t.handle * 2 ^ 48 + b.1) (ceilDiv (b.2 + p.2.2 * t.w) 8)
    split
    · next e => rw [e] at h; exact h
    · next e => rw [e] at h; exact h

theorem Traffic.readStruck (s : State) (c : CoreId) (x : CtxId) (path : Nat) (rd : List (Nat × Nat)) : Traffic s (s.readStruck c x path rd) := by
  unfold State.readStruck
  split
  · refine Traffic.modCtx s c x _ fun k => ?_
    split <;> exact ⟨_, _, _, _, _, rfl⟩
  · exact Traffic.refl s

theorem Traffic.furImage (s : State) (c : CoreId) (x : CtxId) (cls : Nat) (q : Acq) (t : Tensor) (n : Nat) :
    Traffic s (s.furImage c x cls q t n).2 := by
  have h0 := Traffic.readStruck s c x 3 (if t.buf = 0 then [] else [(1, (t.headRuns n).foldl (fun a p => a ||| t.runLines p) 0)])
  unfold State.furImage
  extract_lets s0 r
  have hr : Traffic s r.2 := by
    refine h0.trans (Traffic.foldl_snd (fun a p => ?_) _ _ _)
    split
    · exact Traffic.refl _
    · have h := Traffic.furRow a.2 c x cls q t p
      split
      · next e => rw [e] at h; exact h
      · next e => rw [e] at h; exact h
  split
  · exact h0
  · clear_value r
    obtain ⟨_ | _, _⟩ := r <;> exact hr

/-! ### Writes (R244, R251) -/

theorem writeByte_coder (s : State) (host : Bool) (u : UnitId) (cls tag pick a : Nat) (v : Byte) :
    (s.writeByte host u cls tag pick a v).coder = s.coder := by
  unfold State.writeByte
  dsimp only
  (repeat' split) <;> rfl

theorem writeMem_coder (s : State) (host : Bool) (u : UnitId) (cls a : Nat) (bs : List Byte) : (s.writeMem host u cls a bs).coder = s.coder := by
  have h := foldl_keeps State.coder (f := fun (t : State) (p : Byte × Nat) => t.writeByte host u cls s.fresh (s.fresh + 129 + p.2) (a + p.2) p.1)
    (fun _ _ => writeByte_coder ..) bs.zipIdx { s with fresh := s.fresh + 129 + bs.length }
  unfold State.writeMem
  dsimp only
  split <;> exact h

theorem writePhys_coder (s : State) (u : UnitId) (cls haddr va pa key : Nat) (bs : List Byte) :
    (s.writePhys u cls haddr va pa key bs).coder = s.coder := by
  unfold State.writePhys
  dsimp only
  split
  · rfl
  · split
    · exact writeMem_coder ..
    · refine (foldl_keeps State.coder (fun t p => ?_) _ _).trans (keyFaultAt_coder ..)
      split
      · exact writeMem_coder ..
      · rfl

theorem writeVa_coder (s : State) (u : UnitId) (t : TlbSel) (cls haddr va : Nat) (bs : List Byte) :
    (s.writeVa u t cls haddr va bs).2.coder = s.coder := by
  refine foldl_keeps (fun (q : Option XFault × State) => q.2.coder) (fun acc p => ?_) _ (none, s)
  split
  · rfl
  · have h := translate_coder acc.2 u.core u.ctx t (haddr + p.1) (va + p.1) .wr
    split
    · next e => rw [e] at h; exact h
    · next e => rw [e] at h; exact (writePhys_coder ..).trans h

theorem probeVa_coder (s : State) (u : UnitId) (t : TlbSel) (haddr va n : Nat) (d : Dir) : (s.probeVa u t haddr va n d).2.coder = s.coder := by
  refine foldl_keeps (fun (q : Option XFault × State) => q.2.coder) (fun acc p => ?_) _ (none, s)
  split
  · rfl
  · have h := translate_coder acc.2 u.core u.ctx t (haddr + p.1) (va + p.1) d
    split
    · next e => rw [e] at h; exact h
    · next e => rw [e] at h; exact h

theorem putDram_coder (s : State) (u : UnitId) (sel : TlbSel) (cls haddr va lo n v : Nat) :
    (s.putDram u sel cls haddr va lo n v).2.coder = s.coder := by
  unfold State.putDram
  dsimp only
  split
  · exact writeVa_coder ..
  · have h := probeVa_coder s u sel haddr va (ceilDiv (lo + n) 8) .wr
    split
    · next e => rw [e] at h; exact h
    · next e => rw [e] at h; exact (writeVa_coder ..).trans h

theorem furWrite_coder (s : State) (c : CoreId) (x : CtxId) (cls haddr : Nat) (bs : List Byte) : (s.furWrite c x cls haddr bs).2.coder = s.coder := by
  have h := furVa_coder s c x haddr true
  unfold State.furWrite
  split
  · next e => rw [e] at h; exact h
  · next e => rw [e] at h; exact h
  · next va s1 e =>
    rw [e] at h
    have hw := writeVa_coder s1 (furUnit c x) (some 5) cls haddr va bs
    split
    · next e => rw [e] at hw; exact hw.trans h
    · next e => rw [e] at hw; exact hw.trans h

/-- Codes written in a typed buffer leave the rest of the core. -/
theorem putImageAt_keeps (k : Core) (t : Tensor) (r i0 v : Nat) : (k.putImageAt t r i0 v).furs = k.furs ∧ (k.putImageAt t r i0 v).upds = k.upds := by
  unfold Core.putImageAt Core.putAt Core.setBufElem Core.setLine
  (repeat' split) <;> exact ⟨rfl, rfl⟩

theorem putImageRun_keeps (k : Core) (t : Tensor) (r i0 : Nat) (v : Nat → Nat) (l : List Nat) :
    (l.foldl (fun (k : Core) i => k.putImageAt t r (i0 + i) (v i)) k).furs = k.furs ∧
      (l.foldl (fun (k : Core) i => k.putImageAt t r (i0 + i) (v i)) k).upds = k.upds :=
  ⟨foldl_keeps Core.furs (fun k i => (putImageAt_keeps k t r (i0 + i) (v i)).1) l k,
    foldl_keeps Core.upds (fun k i => (putImageAt_keeps k t r (i0 + i) (v i)).2) l k⟩

theorem furPutImage_coder (s : State) (c : CoreId) (x : CtxId) (cls : Nat) (t : Tensor) (bs : List Byte) :
    (s.furPutImage c x cls t bs).2.coder = s.coder := by
  unfold State.furPutImage
  extract_lets runs
  refine foldl_keeps (fun (q : (Option (Nat × XFault) × State) × Nat) => q.1.2.coder) (fun a p => ?_) runs ((none, s), leNat bs)
  dsimp only
  split
  · next e => rw [e]
  · next s1 e =>
    rw [e]
    split
    · exact coder_modCore s1 c fun k => putImageRun_keeps k t p.1 p.2.1 (fun i => a.2 % 2 ^ (t.w * p.2.2) / 2 ^ (t.w * i) % 2 ^ t.w) _
    · split
      · rfl
      · have h := furVa_coder s1 c x (t.handle * 2 ^ 48 + (t.byteAt p.1 p.2.1).1) true
        split
        · next e => rw [e] at h; exact h
        · next e => rw [e] at h; exact h
        · next va s2 e =>
          rw [e] at h
          have hp := putDram_coder s2 (furUnit c x) (some 5) cls (t.handle * 2 ^ 48 + (t.byteAt p.1 p.2.1).1) va (t.byteAt p.1 p.2.1).2
            (p.2.2 * t.w) (a.2 % 2 ^ (t.w * p.2.2))
          split
          · next e => rw [e] at hp; exact hp.trans h
          · next e => rw [e] at hp; exact hp.trans h

end Sys2Proof.Machine
end

section
/-! PROOFS. O52: the coder's events. A word in execution completes, takes the table or the descriptor it has read, spills what its furrow holds beyond the
die's share, or comes to grief with a stop (R244 to R249, R255). -/

namespace Sys2Proof.Machine

section
variable {s : State} {c : CoreId} {m : FCmd}

/-! ### A word completes (R247, R251) -/

/-- The coder is free after word `m`: its access has left the range checker, its symbols are counted, its flag update is under way. -/
def State.furEnded (s : State) (c : CoreId) (m : FCmd) : State :=
  (((s.modCore c fun k => { k with fcmd := none }).modCtx c m.ctx fun k => k.leaveAccess 11 m.epoch m.ent.idx).count
    c m.ctx m.symbols.1 m.symbols.2).complFlag c m.ctx 6 m.fe m.flag

/-- An FCLOSE that has written its descriptor in DRAM makes the furrows whose regions it meets loose (R244). -/
def State.furSaved (s : State) (c : CoreId) (m : FCmd) : State :=
  let t := tensorAs m.hdr m.hfmt (widthOr m.hfmt 8)
  match m.ins with
  | some (.fclose _ fn _) =>
    if m.kind = 3 && t.buf = 0 then s.furHit c m.ctx fn (t.handle * 2 ^ 48 + t.base) (t.lastRow + t.rowBytes - t.base) else s
  | _ => s

theorem exec_furWordComplete (hm : (s.core c).fcmd = some m) {s1 : State}
    (hput : (if m.kind = 3 then s.furPutImage c m.ctx m.cls (tensorAs m.hdr m.hfmt (widthOr m.hfmt 8)) m.desc else (none, s)) = (none, s1)) :
    exec (.furWordComplete c) s = .next ((s1.furSaved c m).furEnded c m) := by
  change execFurWordComplete c s = _
  simp only [execFurWordComplete, hm, hput]
  rfl

theorem furEnded_core (s : State) (c : CoreId) (m : FCmd) :
    ∃ xs l, (s.furEnded c m).core c = { s.core c with fcmd := none, ctxs := xs, upds := l } := by
  obtain ⟨l, hl, -⟩ := complFlag_eq_modCore (((s.modCore c fun k => { k with fcmd := none }).modCtx c m.ctx
    fun k => k.leaveAccess 11 m.epoch m.ent.idx).count c m.ctx m.symbols.1 m.symbols.2) c m.ctx 6 m.fe m.flag
  rw [State.furEnded, hl, State.core_modCore_self, count_eq_modCtx, State.core_modCtx_self, State.core_modCtx_self, State.core_modCore_self]
  exact ⟨_, _, rfl⟩

theorem sameRegs_furEnded (s : State) (c : CoreId) (m : FCmd) (x : CtxId) : SameRegs s (s.furEnded c m) c x := by
  rw [State.furEnded, count_eq_modCtx]
  have hcore := sameRegs_modCore s c (fun k => { k with fcmd := none }) rfl x
  have hleave := sameRegs_modCtx_any (s.modCore c fun k => { k with fcmd := none }) c m.ctx (fun k => k.leaveAccess 11 m.epoch m.ent.idx)
    (fun _ => ⟨rfl, rfl⟩) x
  refine ((hcore.trans hleave).trans (sameRegs_modCtx_any _ c m.ctx _ (fun k => ?_) x)).trans (sameRegs_complFlag ..)
  rw [Ctx.count_eq]
  exact ⟨rfl, rfl⟩

/-- The update of the word's flag is one of this cycle, after those under way. -/
theorem flagDue_furEnded {u : State} (hu : (u.core c).upds = (s.core c).upds) (hn : u.cycle = s.cycle) (m : FCmd) :
    FlagDue s (u.furEnded c m) c 6 m.fe m.flag := by
  obtain ⟨hy, -, hl⟩ := coder_eq (((count_coder ..).trans (coder_modCtx ..)).trans (coder_modCore u c fun _ => ⟨rfl, rfl⟩) :
    (((u.modCore c fun k => { k with fcmd := none }).modCtx c m.ctx fun k => k.leaveAccess 11 m.epoch m.ent.idx).count
      c m.ctx m.symbols.1 m.symbols.2).coder = u.coder) c
  exact flagDue_complFlag (hl.trans hu) (hy.trans hn) ..

theorem furHit_core (s : State) (c : CoreId) (x : CtxId) (fn : FurNo) (a n : Nat) :
    ∃ v q, (s.furHit c x fn a n).core c = { s.core c with furs := v, fcmd := q } := by
  rw [State.furHit, State.core_modCore_self]
  exact ⟨_, _, rfl⟩

theorem furSaved_of_kind_ne (h : m.kind ≠ 3) (s : State) (c : CoreId) : s.furSaved c m = s := by
  unfold State.furSaved
  dsimp only
  split
  · rw [if_neg (by simp [h])]
  · rfl

theorem furSaved_keeps (s : State) (c : CoreId) (m : FCmd) :
    (∃ v q, (s.furSaved c m).core c = { s.core c with furs := v, fcmd := q }) ∧ (s.furSaved c m).cycle = s.cycle ∧ (s.furSaved c m).mem = s.mem := by
  unfold State.furSaved
  dsimp only
  split
  · split
    · exact ⟨furHit_core .., rfl, rfl⟩
    · exact ⟨⟨_, _, rfl⟩, rfl, rfl⟩
  · exact ⟨⟨_, _, rfl⟩, rfl, rfl⟩

theorem furWordComplete_ends (hm : (s.core c).fcmd = some m) (hk : m.kind ≠ 3) :
    ∃ t, exec (.furWordComplete c) s = .next t ∧ (t.core c).fcmd = none ∧ FlagDue s t c 6 m.fe m.flag ∧ (t.core c).furs = (s.core c).furs ∧
      SameBuffersOf s t c ∧ ∀ x, SameRegs s t c x := by
  have hexec := exec_furWordComplete hm (if_neg hk)
  rw [furSaved_of_kind_ne hk] at hexec
  obtain ⟨xs, l, hcore⟩ := furEnded_core s c m
  exact ⟨_, hexec, by rw [hcore], flagDue_furEnded rfl rfl m, by rw [hcore], by rw [SameBuffersOf, hcore]; exact ⟨rfl, rfl, rfl⟩,
    sameRegs_furEnded s c m⟩

theorem furWordComplete_saves (hm : (s.core c).fcmd = some m) (hk : m.kind = 3) {s1 : State}
    (hput : s.furPutImage c m.ctx m.cls (tensorAs m.hdr m.hfmt (widthOr m.hfmt 8)) m.desc = (none, s1)) :
    ∃ t, exec (.furWordComplete c) s = .next t ∧ (t.core c).fcmd = none ∧ FlagDue s t c 6 m.fe m.flag ∧ SameBuffersOf s1 t c ∧
      ∀ a, t.byte a = s1.byte a := by
  have hcoder := furPutImage_coder s c m.ctx m.cls (tensorAs m.hdr m.hfmt (widthOr m.hfmt 8)) m.desc
  rw [hput] at hcoder
  obtain ⟨hcycle, -, hupds⟩ := coder_eq hcoder c
  obtain ⟨⟨v, q, hsaved⟩, hn, hmem⟩ := furSaved_keeps s1 c m
  obtain ⟨xs, l, hcore⟩ := furEnded_core (s1.furSaved c m) c m
  refine ⟨_, exec_furWordComplete hm ((if_pos hk).trans hput), by rw [hcore], flagDue_furEnded (by rw [hsaved]; exact hupds) (hn.trans hcycle) m,
    by rw [SameBuffersOf, hcore, hsaved]; exact ⟨rfl, rfl, rfl⟩, fun a => ?_⟩
  obtain ⟨-, -, hbytes⟩ := sameRegs_furEnded (s1.furSaved c m) c m m.ctx
  rw [(hbytes a).1, State.byte, hmem]
  rfl

/-! ### Stops (R53, R246, R270) -/

theorem setBufBytes_abuf (k : Core) (i : Nat) (bs : List Byte) : ∃ a, k.setBufBytes 1 i bs = { k with abuf := a } := by
  induction bs generalizing k i with
  | nil => exact ⟨_, rfl⟩
  | cons b bs ih =>
    obtain ⟨a, h⟩ := ih (k.setBufByte 1 i b) (i + 1)
    exact ⟨a, h⟩

theorem freeSpans_abuf (k : Core) (fresh : Nat) (l : List (Nat × Nat)) : ∃ a, k.freeSpans fresh l = { k with abuf := a } := by
  refine foldl_ind (fun (q : Core × Nat) => ∃ a, q.1 = { k with abuf := a }) _ (fun q p hq => ?_) l (k, fresh) ⟨_, rfl⟩
  obtain ⟨a, ha⟩ := hq
  obtain ⟨a', ha'⟩ := setBufBytes_abuf q.1 p.1 ((List.range p.2).map fun i => Config.free 8 (q.2 + i))
  exact ⟨a', by rw [ha', ha]⟩

/-- `q` is core `k` after the rollback of word `m`: the word's shadow has come back. -/
def Rolled (k q : Core) (m : FCmd) : Prop :=
  ∃ a xs, q = { k with furs := m.shFur, tabs := m.shTab, marks := m.shMark, fcmd := none, abuf := a, ctxs := xs }

theorem rolled_rollFurOf (s : State) (c : CoreId) (x : CtxId) (m : FCmd) : Rolled (s.core c) ((s.rollFurOf c x m).core c) m := by
  obtain ⟨a, ha⟩ := freeSpans_abuf { s.core c with furs := m.shFur, tabs := m.shTab, marks := m.shMark, fcmd := none } s.fresh m.spoil
  have hcore : ((s.modCore c fun k => k.rollFur m s.fresh).skipFresh (spanBytes m.spoil)).core c = (s.core c).rollFur m s.fresh :=
    State.core_modCore_self s c fun k => k.rollFur m s.fresh
  rw [State.rollFurOf, State.core_modCtx_self, hcore, Core.rollFur, ha]
  exact ⟨a, _, rfl⟩

theorem rollFurOf_owes (hf : (s.ctx c m.ctx).fork = none) :
    ((s.rollFurOf c m.ctx m).ctx c m.ctx).owedFur = some { m.ent with issued := false } := by
  have hctx : ((s.modCore c fun k => k.rollFur m s.fresh).skipFresh (spanBytes m.spoil)).ctx c m.ctx = s.ctx c m.ctx :=
    ctx_modCore_of_ctxs s c (fun k => k.rollFur m s.fresh) (Core.rollFur_ctxs ..) m.ctx
  rw [State.rollFurOf, State.ctx_modCtx_self, hctx]
  simp [hf]

theorem furOf_running (hm : (s.core c).fcmd = some m) : s.furOf c m.ctx = some m := by
  simp [State.furOf, hm]

/-- A stop that rolls no FUR word back leaves all of its core but the contexts. -/
theorem beginStop_idle {clamp : Bool} {x : CtxId} (h : clamp = true ∨ (s.core c).fcmd = none) (traps : List TrapRec) (forced : Bool)
    (cuts : List (Nat × CutEntry)) : ∃ xs, (s.beginStop c x traps clamp forced cuts).core c = { s.core c with ctxs := xs } := by
  have hnone : (if clamp = true then none else s.furOf c x) = none := by
    rcases h with h | h
    · rw [if_pos h]
    · simp [State.furOf, h]
  unfold State.beginStop
  dsimp only
  rw [hnone, State.core_modCtx_self]
  exact ⟨_, rfl⟩

theorem beginStop_rolls (hm : (s.core c).fcmd = some m) (traps : List TrapRec) (forced : Bool) (cuts : List (Nat × CutEntry)) :
    Rolled (s.core c) ((s.beginStop c m.ctx traps false forced cuts).core c) m ∧ ((s.ctx c m.ctx).fork = none →
      ((s.beginStop c m.ctx traps false forced cuts).ctx c m.ctx).owedFur = some { m.ent with issued := false }) := by
  have hroll : (if false = true then none else s.furOf c m.ctx) = some m := furOf_running hm
  obtain ⟨a, xs, hcore⟩ := rolled_rollFurOf s c m.ctx m
  unfold State.beginStop
  dsimp only
  rw [hroll, State.core_modCtx_self, State.ctx_modCtx_self]
  dsimp only
  exact ⟨⟨a, _, by rw [hcore]; rfl⟩, rollFurOf_owes⟩

/-- A word that traps while it runs comes back with its shadow, `keep` of it excepted, and its context stops with the trap alone (R246). -/
theorem furTrap_stops (hp : (s.ctx c m.ctx).phase = .running) (hs : (s.ctx c m.ctx).stop = none) (r : TrapRec) {keep : Core → Core}
    (hx : ∀ k, (keep k).ctxs = k.ctxs) (hq : ∀ k, (keep k).fcmd = k.fcmd) :
    (∃ k xs, Rolled (s.core c) k m ∧ (s.furTrap c m r keep).core c = { keep k with ctxs := xs }) ∧
      ∃ st, ((s.furTrap c m r keep).ctx c m.ctx).stop = some st ∧ st.traps = [{ r with at_ := s.cycle }] := by
  have hrolled := rolled_rollFurOf s c m.ctx m
  let u := (s.rollFurOf c m.ctx m).modCore c keep
  have hcore : u.core c = keep ((s.rollFurOf c m.ctx m).core c) := State.core_modCore_self ..
  have hidle : (u.core c).fcmd = none := by
    obtain ⟨a, xs, h⟩ := hrolled
    rw [hcore, hq, h]
  obtain ⟨⟨a, o, hroll⟩, -⟩ := s.rollFurOf_ctx c m.ctx m
  have hctx : u.ctx c m.ctx = { s.ctx c m.ctx with accesses := a, owedFur := o } := by
    rw [← hroll]
    exact ctx_modCore_of_ctxs _ _ _ (hx _) _
  have hraise : s.furTrap c m r keep = u.beginStop c m.ctx [{ r with at_ := s.cycle }] false false [(s.ctx c m.ctx).furCut m] := by
    change u.raiseAt c m.ctx r _ = _
    unfold State.raiseAt
    simp only [hctx, hs, hp]
    rfl
  obtain ⟨xs, hstop⟩ := beginStop_idle (s := u) (x := m.ctx) (clamp := false) (.inr hidle) [{ r with at_ := s.cycle }] false
    [(s.ctx c m.ctx).furCut m]
  obtain ⟨st, a', o', htraps, -, hstops, -⟩ := u.beginStop_ctx c m.ctx [{ r with at_ := s.cycle }] false false [(s.ctx c m.ctx).furCut m]
  rw [hraise]
  exact ⟨⟨_, xs, hrolled, by rw [hstop, hcore]⟩, st, by rw [hstops], htraps⟩

/-! ### The image of a table (R236, R249) -/

/-- Entry `i` of a table's image. -/
def imageFreq (bs : List Byte) (i : Nat) : Nat := leNat ((bs.drop (2 * i)).take 2)

/-- The scale of a table's image. -/
def imageScale (bs : List Byte) : Nat := leNat ((bs.drop 512).take 2)

/-- The checks of R236 on a table's image. -/
def TableImage (bs : List Byte) : Prop :=
  4 ≤ imageScale bs ∧ imageScale bs ≤ 12 ∧ ((List.range 256).map (imageFreq bs)).sum = 2 ^ imageScale bs ∧ ∀ b ∈ bs.drop 514, b = 0

/-- The table of an image. -/
def imageTable (bs : List Byte) : FTable := { n := imageScale bs, f := Vector.ofFn fun i : Fin 256 => imageFreq bs i.val, valid := true }

theorem sum_imageTable (bs : List Byte) : (imageTable bs).f.toList.sum = ((List.range 256).map (imageFreq bs)).sum := by
  rw [imageTable, Vector.toList_ofFn, List.ofFn_eq_map, ← List.map_coe_finRange_eq_range, List.map_map]
  rfl

theorem tableOf_of_image {bs : List Byte} (h : TableImage bs) : tableOf bs = some (imageTable bs) := by
  obtain ⟨hlo, hhi, hsum, hzero⟩ := h
  rw [← sum_imageTable] at hsum
  refine if_pos ?_
  simp only [Bool.and_eq_true, decide_eq_true_eq, List.all_eq_true]
  exact ⟨⟨⟨hlo, hhi⟩, hsum⟩, hzero⟩

theorem tableOf_of_not_image {bs : List Byte} (h : ¬TableImage bs) : tableOf bs = none := by
  refine if_neg fun hok => h ?_
  simp only [Bool.and_eq_true, decide_eq_true_eq, List.all_eq_true] at hok
  obtain ⟨⟨⟨hlo, hhi⟩, hsum⟩, hzero⟩ := hok
  exact ⟨hlo, hhi, (sum_imageTable bs).symm.trans hsum, hzero⟩

variable {h : HOp} {tb : Fin 8} {bs : List Byte} {s1 : State}

theorem ftblImageCheck_takes (hm : (s.core c).fcmd = some m) (hi : m.ins = some (.ftbl h tb))
    (himg : s.furImage c m.ctx m.cls m.acq (tensorAs m.hdr m.hfmt (widthOr m.hfmt 8)) 528 = (.ok bs, s1)) (hok : TableImage bs) :
    ∃ t, exec (.ftblImageCheck c) s = .next t ∧ (t.core c).tabs[tb] = imageTable bs ∧ ∀ x, SameRegs s1 t c x := by
  have hexec : exec (.ftblImageCheck c) s =
      .next (s1.modCore c fun k => { k with tabs := k.tabs.set tb (imageTable bs), fcmd := some { m with kind := 0 } }) := by
    change execFtblImageCheck c s = _
    simp only [execFtblImageCheck, hm, hi, himg, tableOf_of_image hok]
  exact ⟨_, hexec, by rw [State.core_modCore_self]; exact Vector.getElem_set_self .., sameRegs_modCore s1 c _ rfl⟩

theorem ftblImageCheck_traps (hm : (s.core c).fcmd = some m) (hi : m.ins = some (.ftbl h tb))
    (himg : s.furImage c m.ctx m.cls m.acq (tensorAs m.hdr m.hfmt (widthOr m.hfmt 8)) 528 = (.ok bs, s1)) (hbad : ¬TableImage bs)
    (hp : (s.ctx c m.ctx).phase = .running) (hs : (s.ctx c m.ctx).stop = none) :
    ∃ t st, exec (.ftblImageCheck c) s = .next t ∧ ((t.core c).tabs[tb]).valid = false ∧ (t.core c).fcmd = none ∧
      (t.ctx c m.ctx).stop = some st ∧ st.traps = [{ m.rangeRec with at_ := s1.cycle }] := by
  have hread := Traffic.furImage s c m.ctx m.cls m.acq (tensorAs m.hdr m.hfmt (widthOr m.hfmt 8)) 528
  rw [himg] at hread
  obtain ⟨a, b, p, o, d, hctx⟩ := hread.ctx c m.ctx
  have hexec : exec (.ftblImageCheck c) s =
      .next (s1.furTrap c m m.rangeRec fun k => { k with tabs := vmod k.tabs tb.val fun t => { t with valid := false } }) := by
    change execFtblImageCheck c s = _
    simp only [execFtblImageCheck, hm, hi, himg, tableOf_of_not_image hbad]
  obtain ⟨⟨k, xs, ⟨l, ys, rfl⟩, hcore⟩, st, hst, htraps⟩ := furTrap_stops (s := s1) (c := c) (m := m) (by rw [hctx]; exact hp)
    (by rw [hctx]; exact hs) m.rangeRec (keep := fun k => { k with tabs := vmod k.tabs tb.val fun t => { t with valid := false } })
    (fun _ => rfl) fun _ => rfl
  exact ⟨_, st, hexec, by rw [hcore]; exact congrArg FTable.valid ((getElem_vmod ..).trans (if_pos rfl)), by rw [hcore], hst, htraps⟩

/-! ### An imported descriptor (R255) -/

theorem furTake_furrow (s : State) (c : CoreId) (x : CtxId) (cls : Nat) (q : Acq) (f : Furrow) :
    ∃ b l, (s.furTake c x cls q f).2.2 = { f with base := b, top := l } := by
  unfold State.furTake
  split
  · exact ⟨_, _, rfl⟩
  · split
    · exact ⟨_, _, rfl⟩
    · split
      · exact ⟨_, _, rfl⟩
      · exact ⟨_, _, rfl⟩

/-- Reading lanes back takes stream words and sets lane states. -/
theorem furLanes_furrow (s : State) (c : CoreId) (x : CtxId) (cls : Nat) (q : Acq) (n : Nat) (f : Furrow) :
    ∃ v b l, (s.furLanes c x cls q n f).2.2 = { f with x := v, base := b, top := l } := by
  induction n generalizing s f with
  | zero => exact ⟨_, _, _, rfl⟩
  | succ n ih =>
    obtain ⟨b1, l1, h1⟩ := furTake_furrow s c x cls q f
    unfold State.furLanes
    split
    · next e =>
      rw [e] at h1
      exact ⟨f.x, b1, l1, h1⟩
    · next a s1 g e =>
      rw [e] at h1
      obtain rfl : g = _ := h1
      obtain ⟨b2, l2, h2⟩ := furTake_furrow s1 c x cls q { f with base := b1, top := l1 }
      split
      · next e =>
        rw [e] at h2
        exact ⟨f.x, b2, l2, h2⟩
      · next b s2 g e =>
        rw [e] at h2
        obtain rfl : g = _ := h2
        exact ih ..

theorem furAdopt_furrow {x : CtxId} {cls : Nat} {q : Acq} {e : DirEntry} {child : Bool} {parent : Nat} {g : Furrow} {s2 : State}
    (h : s.furAdopt c x cls q e child parent = (.ok (some g), s2)) :
    g.opened = true ∧ g.child = child ∧ g.region = e.region ∧ g.size = e.size ∧ g.lc = e.ln + 1 := by
  unfold State.furAdopt at h
  dsimp only at h
  split at h
  · cases h
  · next s1 _ =>
    split at h
    · cases h
    · split at h
      · cases h
      · next g' hl =>
        obtain ⟨v, b, l, hg⟩ := furLanes_furrow s1 c x cls q (e.ln + 1)
          { Furrow.fresh (e.ln + 1) e.region e.size s.cycle child parent with base := e.spos, dbase := e.count }
        obtain rfl : g' = _ := (congrArg (fun r => r.2.2) hl).symm.trans hg
        cases h
        exact ⟨rfl, rfl, rfl, rfl, rfl⟩

theorem fsplitImportCheck_takes {cf : FurNo} {g : Furrow} {s2 : State} (hm : (s.core c).fcmd = some m) (hi : m.ins = some (.fsplitImport h cf))
    (himg : s.furImage c m.ctx m.cls m.acq (tensorAs m.hdr m.hfmt (widthOr m.hfmt 8)) 32 = (.ok bs, s1)) (hkind : (dirEntryOf bs).child = true)
    (hzero : imgDw bs 1 % 2 ^ 40 = 0) (had : s1.furAdopt c m.ctx m.cls m.acq (dirEntryOf bs) false 0 = (.ok (some g), s2)) :
    ∃ t, exec (.fsplitImportCheck c) s = .next t ∧ (t.core c).fur cf = g := by
  have hexec : exec (.fsplitImportCheck c) s = .next (s2.modCore c fun k =>
      { ((k.setFur cf g).dropMarks cf fun _ => true) with fcmd := some { m with kind := 0, due := Nat.max m.due (s.cycle + g.lc) } }) := by
    change execFsplitImportCheck c s = _
    simp only [execFsplitImportCheck, hm, hi, himg, hkind, hzero, had]
    rfl
  refine ⟨_, hexec, ?_⟩
  rw [State.core_modCore_self]
  exact Vector.getElem_set_self ..

/-! ### A chunk spilled (R244) -/

theorem furSpill_takes {x : CtxId} {cls n : Nat} {f g : Furrow} (h : s.furSpill c x cls n f = (none, s1, g)) (hn : n ≤ f.top.length) :
    g.sl = f.sl ∧ g.base = f.base + n ∧ s1.coder = s.coder := by
  have hw := furWrite_coder s c x cls (f.region.toNat + 2 * f.base) ((f.top.drop (f.top.length - n)).reverse.flatMap fun w => leBytes 2 w.toNat)
  unfold State.furSpill at h
  dsimp only at h
  split at h
  · cases h
  · next e =>
    rw [e] at hw
    cases h
    refine ⟨?_, ?_, (count_coder ..).trans hw⟩
    · simp only [Furrow.sl, List.length_reverse, List.length_drop, List.length_take]
      omega
    · simp only [List.length_reverse, List.length_drop]
      omega

/-- A word's write leaves a furrow that it does not own, but for the mark that its later pops are undefined. -/
theorem fur_furHit (s : State) (c : CoreId) (x : CtxId) {f fn : FurNo} (hf : f ≠ fn) (a n : Nat) :
    ((s.furHit c x fn a n).core c).fur f =
      if ((s.core c).fur f).opened = true ∧ s.furMeets c x a n ((s.core c).fur f) = true then { (s.core c).fur f with loose := true }
      else (s.core c).fur f := by
  rw [State.furHit, State.core_modCore_self]
  refine (Vector.getElem_ofFn ..).trans (if_congr ?_ rfl rfl)
  simp [Core.fur, hf]

theorem Core.fur_setFur_self (k : Core) (fn : FurNo) (g : Furrow) : (k.setFur fn g).fur fn = g := Vector.getElem_set_self ..

theorem Core.fur_setFur_ne (k : Core) {f fn : FurNo} (h : f ≠ fn) (g : Furrow) : (k.setFur fn g).fur f = k.fur f :=
  Vector.getElem_set_ne fn.isLt f.isLt fun e => h (Fin.ext e.symm)

theorem furrowChunkMove_spills {fn : FurNo} {g : Furrow} (hm : (s.core c).fcmd = some m) (hc : ((s.core c).fur fn).crowded = true)
    (hl : 256 < ((s.core c).fur fn).top.length) (hsp : s.furSpill c m.ctx m.cls 32 ((s.core c).fur fn) = (none, s1, g)) :
    ∃ t, exec (.furrowChunkMove c fn) s = .next t ∧ (t.core c).fur fn = g ∧
      OtherFurrowsHit s s1 t c m.ctx [fn] ((s.core c).fur fn).region.toNat ((s.core c).fur fn).size ∧ ∀ a, t.byte a = s1.byte a := by
  have hexec : exec (.furrowChunkMove c fn) s =
      .next ((s1.furHit c m.ctx fn ((s.core c).fur fn).region.toNat ((s.core c).fur fn).size).modCore c fun k => k.setFur fn g) := by
    change execFurrowChunkMove c fn s = _
    have hl' : ((s.core c).fur fn).top.length > 256 := hl
    simp only [execFurrowChunkMove, hm, hc, hl', hsp, if_true]
    rfl
  obtain ⟨-, hfurs, -⟩ := coder_eq (furSpill_takes hsp (by omega)).2.2 c
  refine ⟨_, hexec, by rw [State.core_modCore_self, Core.fur_setFur_self], fun f hf => ?_, fun _ => rfl⟩
  have hne : f ≠ fn := by simpa using hf
  have hsame : (s1.core c).fur f = (s.core c).fur f := by rw [Core.fur, Core.fur, hfurs]
  rw [State.core_modCore_self, Core.fur_setFur_ne _ hne, fur_furHit s1 c m.ctx hne, hsame]

end

/-- Settles O52: each event by its own lemma. -/
theorem furrowEvents : Obligations.FurrowEvents := by
  intro s c m hm
  refine ⟨furWordComplete_ends hm, fun s1 hk => furWordComplete_saves hm hk, fun h tb bs s1 hi himg => ⟨fun hok => ?_, fun hbad hp hs => ?_⟩,
    fun h cf bs s1 g s2 hi himg hkind hzero had => ?_, fun fn s1 g hc hl hsp => ?_, fun traps forced cuts => ?_, fun traps forced cuts => ?_⟩
  · obtain ⟨t, ht, htab, hregs⟩ := ftblImageCheck_takes hm hi himg hok
    exact ⟨t, ht, by rw [htab]; rfl, by rw [htab]; rfl, fun i => by rw [htab]; exact Vector.getElem_ofFn .., hregs⟩
  · obtain ⟨t, st, ht, hv, hq, hst, htraps⟩ := ftblImageCheck_traps hm hi himg hbad hp hs
    exact ⟨t, st, _, ht, hv, hq, hst, htraps, rfl, rfl, rfl⟩
  · obtain ⟨t, ht, hfur⟩ := fsplitImportCheck_takes hm hi himg hkind hzero had
    exact ⟨t, ht, hfur, furAdopt_furrow had⟩
  · obtain ⟨t, ht, hfur, hothers, hbytes⟩ := furrowChunkMove_spills hm hc hl hsp
    obtain ⟨hsl, hbase, -⟩ := furSpill_takes hsp (by omega)
    exact ⟨t, ht, hfur, hsl, hbase, hothers, hbytes⟩
  · obtain ⟨⟨a, xs, hcore⟩, howes⟩ := beginStop_rolls hm traps forced cuts
    exact ⟨by rw [hcore], by rw [hcore], by rw [hcore], by rw [hcore], fun hf => ⟨_, howes hf, rfl, rfl, rfl⟩⟩
  · obtain ⟨xs, hcore⟩ := beginStop_idle (s := s) (c := c) (x := m.ctx) (clamp := true) (.inl rfl) traps forced cuts
    dsimp only
    rw [hcore]
    exact ⟨hm, rfl, rfl, rfl⟩

end Sys2Proof.Machine
end

section
/-! PROOFS. O51: what a push codes, a pop decodes. Coding a symbol renormalises its lane by at most one stream word, so that the slot of the new lane
state names the symbol and the refill takes back that word (R242, R243); a tile is a run of such pairs, in opposite orders. -/

namespace Sys2Proof.Machine

/-! ### Lanes and stream words (R239, R242) -/

theorem Furrow.lane_setLane_self (f : Furrow) {j v : Nat} (hj : j < 64) (hv : v < 2 ^ 32) : (f.setLane j v).lane j = v := by
  simp only [Furrow.lane, Furrow.setLane, vget_vmod_self _ _ _ _ hj, BitVec.toNat_ofNat]
  exact Nat.mod_eq_of_lt hv

theorem Furrow.lane_setLane_ne (f : Furrow) {i j : Nat} (v : Nat) (h : j ≠ i) : (f.setLane j v).lane i = f.lane i := by
  simp only [Furrow.lane, Furrow.setLane, vget_vmod_ne _ _ _ _ _ h]

theorem Furrow.lane_lt (f : Furrow) (j : Nat) : f.lane j < 2 ^ 32 := (vget f.x j 0).isLt

/-- A lane set and then set back. -/
theorem Furrow.setLane_setLane_lane (f : Furrow) {j : Nat} (hj : j < 64) (v : Nat) : (f.setLane j v).setLane j (f.lane j) = f := by
  have hx : vmod (vmod f.x j fun _ => BitVec.ofNat 32 v) j (fun _ => BitVec.ofNat 32 (f.lane j)) = f.x := by
    simp [vmod, hj, Furrow.lane, vget]
  simp only [Furrow.setLane, hx]

/-- The word that `append` put on top is the next that `take` finds. -/
theorem furTake_append (s : State) (c : CoreId) (x : CtxId) (cls : Nat) (q : Acq) (f : Furrow) {v : Nat} (hv : v < 2 ^ 16) :
    s.furTake c x cls q (f.append v) = (.ok v, s, f) := by
  simp only [State.furTake, Furrow.append, BitVec.toNat_ofNat, Nat.mod_eq_of_lt hv]

/-- A lane below the limit stays; one above it gives up one word. -/
theorem renorm_two {lim x : Nat} (hx : x < 2 ^ 32) (hl : 2 ^ 16 ≤ lim) (f : Furrow) :
    renorm lim 2 x f = if lim ≤ x then (x / 2 ^ 16, f.append (x % 2 ^ 16)) else (x, f) := by
  have h : ¬lim ≤ x / 2 ^ 16 := by omega
  simp only [renorm, ge_iff_le, if_neg h]

/-! ### Symbols of a table (R240, R243) -/

theorem findSym_append (slot : Nat) (fs : Nat) (post : List Nat) (pre : List Nat) (k a : Nat) (hlo : a + pre.sum ≤ slot)
    (hhi : slot < a + pre.sum + fs) : findSym slot (pre ++ fs :: post) k a = (k + pre.length, a + pre.sum) := by
  induction pre generalizing k a with
  | nil =>
    have h : slot < a + fs := by simpa using hhi
    simp [findSym, h]
  | cons y ys ih =>
    simp only [List.sum_cons] at hlo hhi
    have h : ¬slot < a + y := by omega
    rw [List.cons_append, findSym, if_neg h, ih (k + 1) (a + y) (by omega) (by omega)]
    simp only [List.length_cons, List.sum_cons, Prod.mk.injEq]
    omega

/-- A table's frequencies around a symbol that has one. -/
theorem FTable.split_at {t : FTable} {m : Nat} (h : t.freq m ≠ 0) :
    m < 256 ∧ t.f.toList = t.f.toList.take m ++ t.freq m :: t.f.toList.drop (m + 1) := by
  have hm : m < 256 := by
    by_contra hge
    exact h (by simp [FTable.freq, vget, Nat.le_of_not_lt hge])
  refine ⟨hm, ?_⟩
  have e : t.freq m = t.f.toList[m]'(by simpa using hm) := by simp [FTable.freq, vget, hm]
  rw [e, List.cons_getElem_drop_succ, List.take_append_drop]

/-- The slots of a symbol name it. -/
theorem findSym_of_slot {t : FTable} {m r : Nat} (hr : r < t.freq m) : findSym (r + t.cum m) t.f.toList 0 0 = (m, t.cum m) := by
  obtain ⟨hm, hs⟩ := FTable.split_at (t := t) (m := m) (by omega)
  have h := findSym_append (r + t.cum m) (t.freq m) (t.f.toList.drop (m + 1)) (t.f.toList.take m) 0 0
    (by simp only [FTable.cum]; omega) (by simp only [FTable.cum]; omega)
  rw [← hs] at h
  rw [h]
  simp [FTable.cum, Nat.le_of_lt hm]

theorem FTable.legal.cum_add_freq_le {t : FTable} (h : t.legal) {m : Nat} (hf : t.freq m ≠ 0) : t.cum m + t.freq m ≤ 2 ^ t.n := by
  obtain ⟨-, hs⟩ := FTable.split_at hf
  have hsum := congrArg List.sum hs
  rw [h.2.2, List.sum_append, List.sum_cons] at hsum
  simp only [FTable.cum]
  omega

/-! ### One symbol (R242, R243) -/

/-- The lane state that codes a symbol with frequency `fs` and cumulative value `cum` onto state `x`, its limits and what decoding makes of it. -/
theorem coded_lane {n fs cum x : Nat} (hf : 0 < fs) (hc : cum + fs ≤ 2 ^ n) (hx : x < 2 ^ (32 - n) * fs) (hn : n ≤ 16)  :
    x / fs * 2 ^ n + x % fs + cum < 2 ^ 32 ∧ (x / fs * 2 ^ n + x % fs + cum) % 2 ^ n = x % fs + cum ∧
      (x / fs * 2 ^ n + x % fs + cum) / 2 ^ n = x / fs := by
  have hr : x % fs < fs := Nat.mod_lt _ hf
  have hq : x / fs < 2 ^ (32 - n) := Nat.div_lt_of_lt_mul (by rwa [Nat.mul_comm])
  have hlt : x % fs + cum < 2 ^ n := by omega
  refine ⟨?_, ?_, ?_⟩
  · calc x / fs * 2 ^ n + x % fs + cum < (x / fs + 1) * 2 ^ n := by rw [Nat.add_mul]; omega
      _ ≤ 2 ^ (32 - n) * 2 ^ n := Nat.mul_le_mul_right _ hq
      _ = 2 ^ 32 := by rw [← Nat.pow_add]; congr 1; omega
  · rw [Nat.add_assoc, Nat.mul_comm, Nat.mul_add_mod, Nat.mod_eq_of_lt hlt]
  · rw [Nat.add_assoc, Nat.mul_comm, Nat.mul_add_div (Nat.two_pow_pos n), Nat.div_eq_of_lt hlt, Nat.add_zero]

/-- The state never falls below what it coded. -/
theorem le_coded_lane {n fs cum x : Nat} (hc : cum + fs ≤ 2 ^ n) : x ≤ x / fs * 2 ^ n + x % fs + cum := by
  calc x = x / fs * fs + x % fs := (Nat.div_add_mod' x fs).symm
    _ ≤ x / fs * 2 ^ n + x % fs := Nat.add_le_add_right (Nat.mul_le_mul_left _ (by omega)) _
    _ ≤ _ := Nat.le_add_right _ _

/-- What a coded symbol leaves: the furrow with its lane in the state's range, of which decoding names the symbol and makes the furrow again. -/
structure Codes (t : FTable) (j m : Nat) (f g : Furrow) : Prop where
  lanes : g.lc = f.lc
  other : ∀ i, i ≠ j → g.lane i = f.lane i
  range : 2 ^ 16 ≤ g.lane j
  symbol : findSym (g.lane j % 2 ^ t.n) t.f.toList 0 0 = (m, t.cum m)
  refill : ∀ (s : State) (c : CoreId) (x : CtxId) (cls : Nat) (q : Acq), ∃ g1,
    s.furRefill c x cls q 2 (t.freq m * (g.lane j / 2 ^ t.n) + g.lane j % 2 ^ t.n - t.cum m) g = (.ok (f.lane j), s, g1) ∧ g1.setLane j (f.lane j) = f

theorem codes_of_pushSym {f g : Furrow} {t : FTable} {j m : Nat} (ht : t.legal) (hj : j < 64) (hl : 2 ^ 16 ≤ f.lane j)
    (h : f.pushSym t j m = some g) : Codes t j m f g := by
  have hn : t.n ≤ 12 := ht.2.1
  have hf : t.freq m ≠ 0 := fun h0 => by simp [Furrow.pushSym, h0] at h
  have hfs : 0 < t.freq m := Nat.pos_of_ne_zero hf
  have hc := ht.cum_add_freq_le hf
  have hlim : 2 ^ 16 ≤ 2 ^ (32 - t.n) * t.freq m :=
    (Nat.pow_le_pow_right (by omega) (by omega)).trans (Nat.le_mul_of_pos_right _ hfs)
  simp only [Furrow.pushSym, if_neg hf, renorm_two (f.lane_lt j) hlim, Option.some.injEq] at h
  -- the furrow after the lane's words, and the state that is coded
  obtain ⟨y, k, hk, hy, hlow, hre⟩ : ∃ (y : Nat) (k : Furrow), k.setLane j (y / t.freq m * 2 ^ t.n + y % t.freq m + t.cum m) = g ∧
      y < 2 ^ (32 - t.n) * t.freq m ∧ 2 ^ 16 ≤ y / t.freq m * 2 ^ t.n + y % t.freq m + t.cum m ∧
      k.lc = f.lc ∧ k.x = f.x ∧ ∀ (v : Nat) (s : State) (c : CoreId) (x : CtxId) (cls : Nat) (q : Acq),
        s.furRefill c x cls q 2 y (k.setLane j v) = (.ok (f.lane j), s, f.setLane j v) := by
    split at h
    · next hge =>
      refine ⟨f.lane j / 2 ^ 16, f.append (f.lane j % 2 ^ 16), h, ?_, ?_, rfl, rfl, fun v s c x cls q => ?_⟩
      · have := f.lane_lt j
        omega
      · have h1 : 2 ^ (16 - t.n) * t.freq m ≤ f.lane j / 2 ^ 16 := by
          rw [Nat.le_div_iff_mul_le (Nat.two_pow_pos 16)]
          refine le_trans (Nat.le_of_eq ?_) hge
          rw [Nat.mul_right_comm, ← Nat.pow_add]
          congr 2
          omega
        have h2 : 2 ^ (16 - t.n) ≤ f.lane j / 2 ^ 16 / t.freq m := (Nat.le_div_iff_mul_le hfs).2 h1
        calc 2 ^ 16 = 2 ^ (16 - t.n) * 2 ^ t.n := by rw [← Nat.pow_add]; congr 1; omega
          _ ≤ f.lane j / 2 ^ 16 / t.freq m * 2 ^ t.n := Nat.mul_le_mul_right _ h2
          _ ≤ _ := by omega
      · have hsmall : ¬f.lane j / 2 ^ 16 ≥ 2 ^ 16 := by have := f.lane_lt j; omega
        have hback : f.lane j / 2 ^ 16 * 2 ^ 16 + f.lane j % 2 ^ 16 = f.lane j := Nat.div_add_mod' ..
        have htake := furTake_append s c x cls q (f.setLane j v) (Nat.mod_lt (f.lane j) (Nat.two_pow_pos 16))
        have hset : (f.append (f.lane j % 2 ^ 16)).setLane j v = (f.setLane j v).append (f.lane j % 2 ^ 16) := rfl
        rw [hset, State.furRefill, if_neg hsmall, htake]
        simp only [hback, State.furRefill, ge_iff_le, if_pos hl]
    · next hlt =>
      refine ⟨f.lane j, f, h, by omega, hl.trans (le_coded_lane hc), rfl, rfl, fun v s c x cls q => ?_⟩
      rw [State.furRefill, if_pos hl]
  obtain ⟨hlc, hx, hre⟩ := hre
  obtain ⟨hlt, hmod, hdiv⟩ := coded_lane hfs hc hy (by omega)
  have hg : g.lane j = y / t.freq m * 2 ^ t.n + y % t.freq m + t.cum m := by rw [← hk]; exact k.lane_setLane_self hj hlt
  refine ⟨by rw [← hk]; exact hlc, fun i hi => ?_, by rwa [hg], ?_, fun s c x cls q => ⟨f.setLane j (g.lane j), ?_, f.setLane_setLane_lane hj _⟩⟩
  · rw [← hk, k.lane_setLane_ne _ (Ne.symm hi), Furrow.lane, hx]
    rfl
  · rw [hg, hmod]
    exact findSym_of_slot (Nat.mod_lt _ hfs)
  · have hval : t.freq m * (g.lane j / 2 ^ t.n) + g.lane j % 2 ^ t.n - t.cum m = y := by
      rw [hg, hmod, hdiv, ← Nat.add_assoc, Nat.add_sub_cancel]
      exact Nat.div_add_mod ..
    rw [hval]
    conv_lhs => rw [← hk, ← hg]
    exact hre ..

/-! ### The symbols of a tile (R242, R243) -/

/-- Symbols coded from the last to the first, as a fold over the tile from its first code on. -/
def codeSyms (t : FTable) (w : Nat) (l : List (Nat × Nat)) (f : Furrow) : Option Furrow :=
  l.foldr (fun p a => a.bind fun g => g.pushSym t (p.2 % g.lc) (symOf w p.1)) (some f)

theorem pushTile_eq (f : Furrow) (t : FTable) (w : Nat) (codes : List Nat) : f.pushTile t w codes =
    (codeSyms t w codes.zipIdx f).map fun g => if w = 16 then g.appendByp (codes.map bypOf) else g := by
  rw [Furrow.pushTile, List.foldl_reverse]
  rfl

theorem codeSyms_cons {t : FTable} {w i v : Nat} {l : List (Nat × Nat)} {f g : Furrow} (h : codeSyms t w ((v, i) :: l) f = some g) :
    ∃ g1, codeSyms t w l f = some g1 ∧ g1.pushSym t (i % g1.lc) (symOf w v) = some g :=
  Option.bind_eq_some_iff.1 h

/-- Symbols coded onto a furrow decode in order, and leave the furrow. -/
theorem furSyms_codeSyms {f : Furrow} {t : FTable} (ht : t.legal) (hlo : 1 ≤ f.lc) (hhi : f.lc ≤ 64) (hl : ∀ j, j < f.lc → 2 ^ 16 ≤ f.lane j)
    (w : Nat) (s : State) (c : CoreId) (x : CtxId) (cls : Nat) (q : Acq) (codes : List Nat) (k : Nat) (g : Furrow)
    (h : codeSyms t w (codes.zipIdx k) f = some g) :
    g.lc = f.lc ∧ (∀ j, j < f.lc → 2 ^ 16 ≤ g.lane j) ∧
      ∀ l, s.furSyms c x cls q t codes.length k g l = (.ok (l.reverse ++ codes.map (symOf w)), s, f) := by
  induction codes generalizing k g with
  | nil =>
    obtain rfl : f = g := Option.some.inj h
    exact ⟨rfl, hl, fun l => by simp [State.furSyms]⟩
  | cons v vs ih =>
    rw [List.zipIdx_cons] at h
    obtain ⟨g1, h1, hpush⟩ := codeSyms_cons h
    obtain ⟨hlc, hlanes, hdec⟩ := ih _ _ h1
    rw [hlc] at hpush
    have hj : k % f.lc < f.lc := Nat.mod_lt _ hlo
    have hc := codes_of_pushSym ht (by omega) (hlanes _ hj) hpush
    refine ⟨hc.lanes.trans hlc, fun j hj' => ?_, fun l => ?_⟩
    · by_cases he : j = k % f.lc
      · exact he ▸ hc.range
      · rw [hc.other j he]
        exact hlanes j hj'
    · obtain ⟨g2, hre, hback⟩ := hc.refill s c x cls q
      simp only [List.length_cons, State.furSyms, hc.lanes, hlc, hc.symbol, hre, hback, hdec]
      simp

/-! ### The bypass block (R242, R243) -/

/-- Bypass bytes appended as words come back in order. -/
theorem furByp_appendByp (byp : List Nat) (hb : ∀ v ∈ byp, v < 256) (s : State) (c : CoreId) (x : CtxId) (cls : Nat) (q : Acq) (f : Furrow) (n : Nat) :
    ∃ bs : List Nat, bs.length = 2 * n ∧ (∀ i, i < 2 * n → bs.getD i 0 = byp.getD i 0) ∧
      ∀ l, s.furByp c x cls q n ((List.range n).foldl (fun (g : Furrow) k => g.append (byp.getD (2 * k) 0 + 256 * byp.getD (2 * k + 1) 0)) f) l =
        (.ok (bs ++ l), s, f) := by
  have hlt (i : Nat) : byp.getD i 0 < 256 := by
    rw [List.getD_eq_getElem?_getD]
    cases he : byp[i]? with
    | none => simp
    | some v => exact hb v (List.mem_of_getElem? he)
  induction n with
  | zero => exact ⟨[], rfl, fun i hi => absurd hi (by omega), fun l => rfl⟩
  | succ n ih =>
    obtain ⟨bs, hlen, hbs, hpop⟩ := ih
    have h0 := hlt (2 * n)
    have h1 := hlt (2 * n + 1)
    refine ⟨bs ++ [byp.getD (2 * n) 0, byp.getD (2 * n + 1) 0], by simp only [List.length_append, hlen, List.length_cons, List.length_nil]; omega,
      fun i hi => ?_, fun l => ?_⟩
    · by_cases hi' : i < 2 * n
      · rw [List.getD_append _ _ _ _ (by omega)]
        exact hbs i hi'
      · rw [List.getD_append_right _ _ _ _ (by omega), hlen]
        obtain rfl | rfl : i = 2 * n ∨ i = 2 * n + 1 := by omega
        · simp
        · simp
    · rw [List.range_succ, List.foldl_append, List.foldl_cons, List.foldl_nil, State.furByp,
        furTake_append _ _ _ _ _ _ (by omega)]
      simp only [hpop, List.append_assoc, List.cons_append, List.nil_append]
      rw [show (byp.getD (2 * n) 0 + 256 * byp.getD (2 * n + 1) 0) % 256 = byp.getD (2 * n) 0 by omega,
        show (byp.getD (2 * n) 0 + 256 * byp.getD (2 * n + 1) 0) / 256 = byp.getD (2 * n + 1) 0 by omega]

/-! ### A tile -/

/-- The code of a symbol and its bypass byte (R241). -/
theorem code_of_sym {w v b : Nat} (hw : w ∈ [4, 8, 16]) (hv : v < 2 ^ w) (hb : w = 16 → b = bypOf v) :
    (if w = 16 then symOf w v * 256 + b else if w = 4 then symOf w v % 16 else symOf w v) = v := by
  simp only [List.mem_cons, List.not_mem_nil, or_false] at hw
  obtain rfl | rfl | rfl := hw
  · simp only [symOf, Nat.reduceEqDiff, if_false, if_true]
    omega
  · simp only [symOf, Nat.reduceEqDiff, if_false]
    omega
  · simp only [symOf, if_true, hb rfl, bypOf]
    omega

theorem codes_of_syms {w : Nat} {codes byp : List Nat} (hw : w ∈ [4, 8, 16]) (hv : ∀ v ∈ codes, v < 2 ^ w)
    (hb : w = 16 → ∀ i, i < codes.length → byp.getD i 0 = (codes.map bypOf).getD i 0) :
    ((codes.map (symOf w)).zipIdx.map fun p => if w = 16 then p.1 * 256 + byp.getD p.2 0 else if w = 4 then p.1 % 16 else p.1) = codes := by
  refine List.ext_getElem (by simp) fun i h1 h2 => ?_
  simp only [List.getElem_map, List.getElem_zipIdx, Nat.zero_add]
  refine code_of_sym hw (hv _ (List.getElem_mem h2)) fun h16 => ?_
  rw [hb h16 i h2, List.getD_eq_getElem _ _ (by simpa using h2), List.getElem_map]

/-- A pop decodes what its bypass block and its symbols hold. -/
theorem furPopTile_of {s s1 s2 : State} {c : CoreId} {x : CtxId} {cls : Nat} {q : Acq} {t : FTable} {w cnt : Nat} {f f1 f2 : Furrow} {byp ss : List Nat}
    (hb : s.furByp c x cls q (if w = 16 then ceilDiv cnt 2 else 0) f [] = (.ok byp, s1, f1))
    (hs : s1.furSyms c x cls q t cnt 0 f1 [] = (.ok ss, s2, f2)) : s.furPopTile c x cls q t w cnt f =
      (.ok (ss.zipIdx.map fun p => if w = 16 then p.1 * 256 + byp.getD p.2 0 else if w = 4 then p.1 % 16 else p.1), s2, f2) := by
  rw [State.furPopTile, hb]
  dsimp only
  rw [hs]

theorem lane_appendByp (f : Furrow) (byp : List Nat) (j : Nat) : (f.appendByp byp).lane j = f.lane j := by
  rw [Furrow.lane, Furrow.appendByp, foldl_keeps Furrow.x (f := fun (g : Furrow) k => g.append (byp.getD (2 * k) 0 + 256 * byp.getD (2 * k + 1) 0))
    (fun _ _ => rfl)]
  rfl

/-- Settles O51: the bypass block that was appended last is taken first (`furByp_appendByp`), then the symbols (`furSyms_codeSyms`). -/
theorem furrowRoundTrip : Obligations.FurrowRoundTrip := by
  intro f g tab w codes s c x cls q ht hlo hhi hl hw hv hpush
  rw [pushTile_eq, Option.map_eq_some_iff] at hpush
  obtain ⟨g0, hsyms, hbyp⟩ := hpush
  obtain ⟨-, hlanes, hdec⟩ := furSyms_codeSyms ht hlo hhi hl w s c x cls q codes 0 g0 hsyms
  by_cases h16 : w = 16
  · rw [if_pos h16] at hbyp
    have hbytes : ∀ v ∈ codes.map bypOf, v < 256 := fun v h => by
      obtain ⟨u, -, rfl⟩ := List.mem_map.1 h
      exact Nat.mod_lt _ (by omega)
    obtain ⟨bs, -, hbs, hpop⟩ := furByp_appendByp (codes.map bypOf) hbytes s c x cls q g0 (ceilDiv codes.length 2)
    have hg : s.furByp c x cls q (if w = 16 then ceilDiv codes.length 2 else 0) g [] = (.ok (bs ++ []), s, g0) := by
      rw [if_pos h16, ← hpop [], ← hbyp, Furrow.appendByp, List.length_map]
    refine ⟨?_, fun j hj => by rw [← hbyp, lane_appendByp]; exact hlanes j hj⟩
    rw [furPopTile_of hg (hdec []), List.append_nil, List.reverse_nil, List.nil_append,
      codes_of_syms hw hv fun _ i hi => hbs i (by simp only [ceilDiv]; omega)]
  · rw [if_neg h16] at hbyp
    subst hbyp
    have hg : s.furByp c x cls q (if w = 16 then ceilDiv codes.length 2 else 0) g0 [] = (.ok [], s, g0) := by rw [if_neg h16]; rfl
    refine ⟨?_, hlanes⟩
    rw [furPopTile_of hg (hdec []), List.reverse_nil, List.nil_append, codes_of_syms hw hv fun h => absurd h h16]

end Sys2Proof.Machine
end

section
/-! PROOFS. O27, O28: the words on futures. A word that is ready passes its turn, its entry goes to the command log, and the future changes or a report
is made; the reply is on its way whichever it is (R304, R305, R318, R346). -/

namespace Sys2Proof.Machine

/-! ### What the issue, a report and a change of another table leave of the futures -/

@[simp] theorem issued_fut? (s : State) (p n : Nat) : s.issued.fut? p n = s.fut? p n := by rw [State.fut?, s.issued_disp, State.fut?]

@[simp] theorem issued_dp (s : State) (p : Nat) : s.issued.dp p = s.dp p := by rw [State.dp, s.issued_disp, State.dp]

@[simp] theorem issued_part (s : State) (p : Nat) : s.issued.part p = s.part p := by rw [State.part, s.issued_mg, State.part]

theorem fut?_of_futs {s t : State} (h : t.disp.futs = s.disp.futs) (p n : Nat) : t.fut? p n = s.fut? p n := by rw [State.fut?, h, State.fut?]

@[simp] theorem futNum_eq (w : Word) : futNum w = w.toNat % 2 ^ 32 := bits_zero ..

theorem homeReport_futs (s : State) (p code : Nat) : (s.homeReport p code).disp.futs = s.disp.futs := by
  unfold State.homeReport
  dsimp only
  split
  · rfl
  · split <;> rfl

theorem report_futs (s : State) (p code : Nat) (dest : Option (CoreId × CtxId)) : (s.report p code dest).disp.futs = s.disp.futs := by
  unfold State.report
  split
  · dsimp only
    split
    · rfl
    · exact homeReport_futs ..
  · exact homeReport_futs ..

theorem Reported.reportMe (s : State) (code : Nat) : Reported s (s.reportMe code) := Reported.report ..

/-- The reply of a word that has issued and been reported. -/
theorem replies_reported (s : State) (code : Nat) (d : SReg) (v : Word) : Replies s ((s.issued.reportMe code).reply d v) d v :=
  replies_reply ((Reported.reportMe s.issued code).me.trans s.issued_me_replies) ((Reported.reportMe s.issued code).cycle.trans s.issued_cycle) d v

/-- The reply of a word that has issued and been logged. -/
theorem issued_dispLog {s : State} {p : Nat} (h : (s.part p).replay = none) (kind issuer task : Nat) (arg : Word) :
    ∃ v, s.issued.dispLog p kind issuer task arg [] [] = (true, v) ∧ Traffic s.issued v :=
  dispLog_plain (by rw [issued_part, h]) ..

theorem logged_disp {s v : State} (h : Traffic s.issued v) : v.disp = s.disp := h.disp.trans s.issued_disp

theorem logged_fut? {s v : State} (h : Traffic s.issued v) (p n : Nat) : v.fut? p n = s.fut? p n :=
  fut?_of_futs (congrArg Disp.futs (logged_disp h)) p n

/-! ### FNEW (R302, R318) -/

/-- Among the first `l.length + 1` numbers from 1 one is not in `l`. -/
theorem exists_unused (l : List Nat) : ∃ i ∈ List.range (l.length + 1), i + 1 ∉ l := by
  by_contra h
  push Not at h
  have hsub : (List.range (l.length + 1)).map (· + 1) ⊆ l := by
    intro n hn
    obtain ⟨i, hi, rfl⟩ := List.mem_map.1 hn
    exact h i hi
  have hnd : ((List.range (l.length + 1)).map (· + 1)).Nodup := List.nodup_range.map (add_left_injective 1)
  have := (hnd.subperm hsub).length_le
  simp at this

theorem freeFut_unused (s : State) (p : Nat) : s.fut? p (s.freeFut p) = none := by
  obtain ⟨i, hi, hni⟩ := exists_unused ((s.disp.futs.filter fun f => f.part = p).map (·.num))
  have hsome : ((List.range (((s.disp.futs.filter fun f => f.part = p).map (·.num)).length + 1)).find? fun i =>
      !((s.disp.futs.filter fun f => f.part = p).map (·.num)).contains (i + 1)).isSome = true :=
    List.find?_isSome.2 ⟨i, hi, by simpa using hni⟩
  obtain ⟨j, hj⟩ := Option.isSome_iff_exists.1 hsome
  have hjn := List.find?_some hj
  have hfree : s.freeFut p = j + 1 := by rw [State.freeFut, hj, Option.getD_some]
  rw [hfree]
  simp only [State.fut?, List.find?_eq_none]
  intro f hf hp
  simp at hp hjn
  exact hjn f hf hp.1 hp.2

/-- The new future of FNEW. -/
def freshFut (p n : Nat) : Future := { part := p, num := n, state := 0, value := 0, waiters := [] }

theorem newFut_plain {s : State} {p : Nat} (hu : (s.disp.futs.filter fun f => f.part = p).length < (s.dp p).futmax) (hr : (s.part p).replay = none)
    (issuer : Nat) : ∃ v, Traffic s v ∧
      s.newFut p issuer = (futHandle p (s.freeFut p), { v with disp := { v.disp with futs := v.disp.futs ++ [freshFut p (s.freeFut p)] } }) := by
  obtain ⟨v, hv, ht⟩ := dispLog_plain hr 5 issuer 0 (futHandle p (s.freeFut p)) [] []
  refine ⟨v, ht, ?_⟩
  simp only [State.newFut, if_neg (Nat.not_le.2 hu), hv]
  rfl

theorem newFut_full {s : State} {p : Nat} (hu : (s.dp p).futmax ≤ (s.disp.futs.filter fun f => f.part = p).length) (issuer : Nat) :
    s.newFut p issuer = (0, s) := by
  simp only [State.newFut, if_pos (show _ ≥ _ from hu)]

theorem exec_fnew {s : State} (h : s.xcmdReady = true) (d : SReg) :
    exec (.fnew d) s = .next ((s.issued.newFut s.myPart s.myTask).2.reply d (s.issued.newFut s.myPart s.myTask).1) := by
  change execFnew d s = _
  rw [execFnew, h]
  rfl

theorem fnew_allocates {s : State} (h : s.xcmdReady = true) (d : SReg)
    (hu : (s.disp.futs.filter fun f => f.part = s.myPart).length < (s.dp s.myPart).futmax) (hr : (s.part s.myPart).replay = none) :
    ∃ t n, exec (.fnew d) s = .next t ∧ 1 ≤ n ∧ Replies s t d (BitVec.ofNat 64 (s.myPart % 16 * 2 ^ 32 + n % 2 ^ 32)) ∧ s.fut? s.myPart n = none ∧
      t.fut? s.myPart n = some { part := s.myPart, num := n, state := 0, value := 0, waiters := [] } := by
  obtain ⟨v, hv, hs⟩ := newFut_plain (s := s.issued) (p := s.myPart) (by simpa using hu) (by simpa using hr) s.myTask
  have hnone : s.fut? s.myPart (s.issued.freeFut s.myPart) = none := by
    rw [← issued_fut?]
    exact freeFut_unused ..
  refine ⟨_, s.issued.freeFut s.myPart, exec_fnew h d, Nat.le_add_left .., ?_, hnone, ?_⟩
  · rw [hs]
    exact replies_reply (hv.replies.trans s.issued_me_replies) (hv.cycle.trans s.issued_cycle) d _
  · rw [hs]
    have hold : v.disp.futs.find? (fun f => f.part = s.myPart && f.num = s.issued.freeFut s.myPart) = none := (logged_fut? hv _ _).trans hnone
    change (v.disp.futs ++ [_]).find? _ = _
    rw [List.find?_append, hold]
    simp [freshFut]

theorem fnew_full {s : State} (h : s.xcmdReady = true) (d : SReg)
    (hu : (s.dp s.myPart).futmax ≤ (s.disp.futs.filter fun f => f.part = s.myPart).length) :
    ∃ t, exec (.fnew d) s = .next t ∧ Replies s t d 0 ∧ t.disp = s.disp := by
  refine ⟨_, exec_fnew h d, ?_⟩
  rw [newFut_full (by simpa using hu)]
  exact ⟨replies_reply s.issued_me_replies s.issued_cycle d _, s.issued_disp⟩

/-! ### FGET and FFREE (R304, R318) -/

theorem exec_fget_known {s : State} (h : s.xcmdReady = true) (d a : SReg) (ha : futOk s.myPart (s.rdS a) = true) {f : Future}
    (hf : s.fut? s.myPart ((s.rdS a).toNat % 2 ^ 32) = some f) : exec (.fget d a) s = .next (s.issued.reply d (BitVec.ofNat 64 f.dw0)) := by
  change execFget d a s = _
  simp only [execFget, ha, h, Bool.not_true, Bool.false_eq_true, if_false, issued_fut?, futNum_eq, hf]

theorem exec_fget_unknown {s : State} (h : s.xcmdReady = true) (d a : SReg) (ha : futOk s.myPart (s.rdS a) = true)
    (hf : s.fut? s.myPart ((s.rdS a).toNat % 2 ^ 32) = none) :
    exec (.fget d a) s = .next ((s.issued.reportMe 2).reply d (BitVec.allOnes 64)) := by
  change execFget d a s = _
  simp only [execFget, ha, h, Bool.not_true, Bool.false_eq_true, if_false, issued_fut?, futNum_eq, hf]

/-- A future leaves the table. -/
def State.dropFut (s : State) (p n : Nat) : State :=
  { s with disp := { s.disp with futs := s.disp.futs.filter fun f => !(f.part = p && f.num = n) } }

theorem fut?_dropFut (s : State) (p n : Nat) : (s.dropFut p n).fut? p n = none := by
  simp only [State.dropFut, State.fut?, List.find?_eq_none, List.mem_filter]
  rintro f ⟨-, hf⟩ hp
  simp [hp] at hf

theorem exec_ffree_frees {s v : State} (h : s.xcmdReady = true) (a : SReg) (ha : futOk s.myPart (s.rdS a) = true) {f : Future}
    (hf : s.fut? s.myPart ((s.rdS a).toNat % 2 ^ 32) = some f) (hw : f.waiters = [])
    (hv : s.issued.dispLog s.myPart 6 s.myTask 0 (s.rdS a) [] [] = (true, v)) :
    exec (.ffree a) s = .next (v.dropFut s.myPart ((s.rdS a).toNat % 2 ^ 32)) := by
  change execFfree a s = _
  simp only [execFfree, ha, h, Bool.not_true, Bool.false_eq_true, if_false, issued_fut?, futNum_eq, hf, hw, List.isEmpty_nil, hv]
  rfl

theorem exec_ffree_keeps {s : State} (h : s.xcmdReady = true) (a : SReg) (ha : futOk s.myPart (s.rdS a) = true) {f : Future}
    (hf : s.fut? s.myPart ((s.rdS a).toNat % 2 ^ 32) = some f) (hw : f.waiters ≠ []) : exec (.ffree a) s = .next (s.issued.reportMe 3) := by
  change execFfree a s = _
  simp only [execFfree, ha, h, Bool.not_true, Bool.false_eq_true, if_false, issued_fut?, futNum_eq, hf, List.isEmpty_eq_false_iff.2 hw,
    Bool.not_false, if_true]

/-- Settles O27. -/
theorem futuresAllocateAndRead : Obligations.FuturesAllocateAndRead := by
  refine ⟨fun s d hx => ⟨fnew_allocates hx d, fnew_full hx d⟩, fun s d a hx ha => ⟨fun f hf => ?_, fun hf => ?_, fun f hf hw hr => ?_, fun f hf hw => ?_⟩⟩
  · refine ⟨_, exec_fget_known hx d a ha hf, (reply_disp ..).trans s.issued_disp, ?_⟩
    exact replies_reply s.issued_me_replies s.issued_cycle d _
  · exact ⟨_, exec_fget_unknown hx d a ha hf, replies_reported ..⟩
  · obtain ⟨v, hv, -⟩ := issued_dispLog hr 6 s.myTask 0 (s.rdS a)
    exact ⟨_, exec_ffree_frees hx a ha hf hw hv, fut?_dropFut ..⟩
  · exact ⟨_, exec_ffree_keeps hx a ha hf hw, (report_futs ..).trans (congrArg Disp.futs s.issued_disp)⟩

/-! ### A resolution counts its waiters down (R305) -/

theorem countDown_futs (s : State) (p num : Nat) : (s.countDown p num).disp.futs = s.disp.futs := by
  unfold State.countDown
  split
  · rfl
  · split
    · rfl
    · dsimp only
      split <;> rfl

theorem countDown_cores (s : State) (p num : Nat) :
    (s.countDown p num).me = s.me ∧ (s.countDown p num).cycle = s.cycle := by
  unfold State.countDown
  split
  · exact ⟨rfl, rfl⟩
  · split
    · exact ⟨rfl, rfl⟩
    · dsimp only
      split <;> exact ⟨rfl, rfl⟩

theorem foldl_countDown_futs (p : Nat) (l : List Nat) (s : State) : (l.foldl (fun (t : State) w => t.countDown p w) s).disp.futs = s.disp.futs := by
  induction l generalizing s with
  | nil => rfl
  | cons w l ih => exact (ih _).trans (countDown_futs ..)

/-- A continuation whose last count goes down is READY. -/
theorem countDown_last {s : State} {p num : Nat} {tk : Task} (ht : s.task? p num = some tk) (hp : tk.phase = .pending) (hc : tk.count = 1) :
    ∃ tk', (s.countDown p num).task? p num = some tk' ∧ tk'.phase = .ready ∧ tk'.count = 0 := by
  have hs : s.countDown p num = (s.modTask p num fun t => { t with count := t.count - 1 }).makeReady p num tk.prio := by
    simp only [State.countDown, ht, hp, hc, ne_eq, not_true_eq_false, if_false, le_refl, if_true]
  let u := s.modTask p num fun t => { t with count := t.count - 1 }
  have hu : u.task? p num = some { tk with count := tk.count - 1 } := by
    rw [task?_modTask s p num (f := fun t => { t with count := t.count - 1 }) (fun _ => rfl) fun _ => rfl, ht]
    rfl
  refine ⟨{ tk with count := tk.count - 1, phase := .ready, level := tk.prio, since := u.cycle, order := u.disp.nextOrder }, ?_, rfl, by simp [hc]⟩
  rw [hs]
  exact (task?_modTask u p num (f := fun t => { t with phase := .ready, level := tk.prio, since := u.cycle, order := u.disp.nextOrder }) (fun _ => rfl)
    fun _ => rfl).trans (by rw [hu]; rfl)

/-- A future that is not resolved takes its value, and its waiters count down in attach order. -/
theorem resolve_first {s : State} {p n : Nat} {f : Future} (hf : s.fut? p n = some f) (h2 : f.state ≠ 2) (v : Word)
    (dest : Option (CoreId × CtxId)) :
    s.resolve p n v dest = f.waiters.foldl (fun (t : State) w => t.countDown p w) (s.modFut p n (Future.resolved v)) := by
  simp only [State.resolve, hf, if_neg h2]
  rfl

theorem resolve_again {s : State} {p n : Nat} {f : Future} (hf : s.fut? p n = some f) (h2 : f.state = 2) (v : Word) (dest : Option (CoreId × CtxId)) :
    s.resolve p n v dest = s.report p 1 dest := by
  simp only [State.resolve, hf, if_pos h2]

theorem fut?_resolve_first {s : State} {p n : Nat} {f : Future} (hf : s.fut? p n = some f) (h2 : f.state ≠ 2) (v : Word)
    (dest : Option (CoreId × CtxId)) : (s.resolve p n v dest).fut? p n = some (f.resolved v) := by
  rw [resolve_first hf h2, fut?_of_futs (foldl_countDown_futs ..), fut?_modFut s p n (g := Future.resolved v) (fun _ => rfl) fun _ => rfl, hf]
  rfl

/-! ### FRES (R305, R318) -/

theorem exec_fres {s v : State} (h : s.xcmdReady = true) (a b : SReg) (ha : futOk s.myPart (s.rdS a) = true)
    (hv : s.issued.dispLog s.myPart 4 s.myTask ((s.rdS a).toNat % 2 ^ 32) (s.rdS b) [] [] = (true, v)) :
    exec (.fres a b) s = .next (v.resolve s.myPart ((s.rdS a).toNat % 2 ^ 32) (s.rdS b) (some (s.cur.core, s.cur.ctx))) := by
  change execFres a b s = _
  simp only [execFres, ha, h, Bool.not_true, Bool.false_eq_true, if_false, futNum_eq, hv]

theorem fres_resolves {s : State} (h : s.xcmdReady = true) (a b : SReg) (ha : futOk s.myPart (s.rdS a) = true)
    (hr : (s.part s.myPart).replay = none) {f : Future} (hf : s.fut? s.myPart ((s.rdS a).toNat % 2 ^ 32) = some f) (h2 : f.state ≠ 2) :
    ∃ t, exec (.fres a b) s = .next t ∧
      t.fut? s.myPart ((s.rdS a).toNat % 2 ^ 32) = some { f with state := 2, value := s.rdS b, waiters := [] } ∧
      ∀ w tk, f.waiters = [w] → s.task? s.myPart w = some tk → tk.phase = .pending → tk.count = 1 →
        ∃ tk', t.task? s.myPart w = some tk' ∧ tk'.phase = .ready ∧ tk'.count = 0 := by
  obtain ⟨v, hv, ht⟩ := issued_dispLog hr 4 s.myTask ((s.rdS a).toNat % 2 ^ 32) (s.rdS b)
  have hfv := (logged_fut? ht _ _).trans hf
  refine ⟨_, exec_fres h a b ha hv, fut?_resolve_first hfv h2 _ _, fun w tk hw htk hp hc => ?_⟩
  rw [resolve_first hfv h2, hw]
  refine countDown_last ?_ hp hc
  rw [← htk]
  exact congrArg (fun q : Disp => q.tasks.find? fun t => t.part = s.myPart && t.num = w) (logged_disp ht)

theorem fres_keeps {s : State} (h : s.xcmdReady = true) (a b : SReg) (ha : futOk s.myPart (s.rdS a) = true)
    (hr : (s.part s.myPart).replay = none) {f : Future} (hf : s.fut? s.myPart ((s.rdS a).toNat % 2 ^ 32) = some f) (h2 : f.state = 2) :
    ∃ t, exec (.fres a b) s = .next t ∧ t.fut? s.myPart ((s.rdS a).toNat % 2 ^ 32) = some f := by
  obtain ⟨v, hv, ht⟩ := issued_dispLog hr 4 s.myTask ((s.rdS a).toNat % 2 ^ 32) (s.rdS b)
  have hfv := (logged_fut? ht _ _).trans hf
  refine ⟨_, exec_fres h a b ha hv, ?_⟩
  rw [resolve_again hfv h2, fut?_of_futs (report_futs ..), hfv]

/-! ### FATT (R305, R308, R318) -/

theorem exec_fatt {s v : State} (h : s.xcmdReady = true) (d a b : SReg) (ha : futOk s.myPart (s.rdS a) = true) {f : Future} {tk : Task}
    (hf : s.fut? s.myPart ((s.rdS a).toNat % 2 ^ 32) = some f) (hp : s.pendingAt s.myPart (s.rdS b) = some tk) (hw : tk.att < tk.waits)
    (hv : s.issued.dispLog s.myPart 3 s.myTask tk.num (s.rdS a) [] [] = (true, v)) :
    exec (.fatt d a b) s = .next ((v.attach s.myPart ((s.rdS a).toNat % 2 ^ 32) tk.num).2.reply d
      (v.attach s.myPart ((s.rdS a).toNat % 2 ^ 32) tk.num).1) := by
  have hpi : s.issued.pendingAt s.myPart (s.rdS b) = some tk := by rw [State.pendingAt, s.issued_disp]; exact hp
  change execFatt d a b s = _
  simp only [execFatt, ha, h, Bool.not_true, Bool.false_eq_true, if_false, issued_fut?, futNum_eq, hf, Option.isNone_some, hpi,
    if_neg (Nat.not_le.2 hw), hv]

/-- One more attachment of a continuation. -/
def State.attached (s : State) (p num : Nat) : State := s.modTask p num fun t => { t with att := t.att + 1 }

/-- An unresolved future with one more waiter. -/
def Future.awaited (num : Nat) (f : Future) : Future := { f with state := 1, waiters := f.waiters ++ [num] }

theorem attach_waits {s : State} {p n : Nat} {f : Future} (hf : s.fut? p n = some f) (h2 : f.state ≠ 2) (num : Nat) :
    s.attach p n num = (0, (s.attached p num).modFut p n (Future.awaited num)) := by
  simp only [State.attach, hf, if_neg h2]
  rfl

theorem attach_resolved {s : State} {p n : Nat} {f : Future} (hf : s.fut? p n = some f) (h2 : f.state = 2) (num : Nat) :
    s.attach p n num = (1, (s.attached p num).countDown p num) := by
  simp only [State.attach, hf, if_pos h2]
  rfl

theorem fatt_waits {s : State} (h : s.xcmdReady = true) (d a b : SReg) (ha : futOk s.myPart (s.rdS a) = true)
    (hr : (s.part s.myPart).replay = none) {f : Future} {tk : Task} (hf : s.fut? s.myPart ((s.rdS a).toNat % 2 ^ 32) = some f)
    (hp : s.pendingAt s.myPart (s.rdS b) = some tk) (hw : tk.att < tk.waits) (h2 : f.state ≠ 2) :
    ∃ t, exec (.fatt d a b) s = .next t ∧ Replies s t d 0 ∧
      t.fut? s.myPart ((s.rdS a).toNat % 2 ^ 32) = some { f with state := 1, waiters := f.waiters ++ [tk.num] } := by
  obtain ⟨v, hv, ht⟩ := issued_dispLog hr 3 s.myTask tk.num (s.rdS a)
  have hfv := (logged_fut? ht _ _).trans hf
  refine ⟨_, exec_fatt h d a b ha hf hp hw hv, ?_⟩
  rw [attach_waits hfv h2]
  refine ⟨replies_reply (ht.replies.trans s.issued_me_replies) (ht.cycle.trans s.issued_cycle) d _, ?_⟩
  calc ((v.attached s.myPart tk.num).modFut s.myPart _ (Future.awaited tk.num)).fut? s.myPart _
      = (v.fut? s.myPart _).map (Future.awaited tk.num) := fut?_modFut (v.attached s.myPart tk.num) _ _ (fun _ => rfl) fun _ => rfl
    _ = _ := by rw [hfv]; rfl

theorem fatt_resolved {s : State} (h : s.xcmdReady = true) (d a b : SReg) (ha : futOk s.myPart (s.rdS a) = true)
    (hr : (s.part s.myPart).replay = none) {f : Future} {tk : Task} (hf : s.fut? s.myPart ((s.rdS a).toNat % 2 ^ 32) = some f)
    (hp : s.pendingAt s.myPart (s.rdS b) = some tk) (hw : tk.att < tk.waits) (h2 : f.state = 2) :
    ∃ t, exec (.fatt d a b) s = .next t ∧ Replies s t d 1 ∧ t.fut? s.myPart ((s.rdS a).toNat % 2 ^ 32) = some f := by
  obtain ⟨v, hv, ht⟩ := issued_dispLog hr 3 s.myTask tk.num (s.rdS a)
  have hfv := (logged_fut? ht _ _).trans hf
  obtain ⟨hme, hcy⟩ := countDown_cores (v.attached s.myPart tk.num) s.myPart tk.num
  refine ⟨_, exec_fatt h d a b ha hf hp hw hv, ?_⟩
  rw [attach_resolved hfv h2]
  refine ⟨replies_reply ?_ (hcy.trans (ht.cycle.trans s.issued_cycle)) d _, ?_⟩
  · exact (congrArg Ctx.replies hme).trans (ht.replies.trans s.issued_me_replies)
  · exact (fut?_of_futs (countDown_futs (v.attached s.myPart tk.num) s.myPart tk.num) _ _).trans hfv

/-- Settles O28. -/
theorem futuresResolve : Obligations.FuturesResolve :=
  ⟨fun _ a b _ hx ha hr hf => ⟨fres_resolves hx a b ha hr hf, fres_keeps hx a b ha hr hf⟩,
    fun _ d a b _ _ hx ha hr hf hp hw => ⟨fatt_waits hx d a b ha hr hf hp hw, fatt_resolved hx d a b ha hr hf hp hw⟩⟩

end Sys2Proof.Machine
end

section
/-! PROOFS. O29: the words of the collective engine. What the engine does then leaves the replies that its contexts wait for, so CSUBMIT's own reply is
added to them (R103, R325 to R331). -/

namespace Sys2Proof.Machine

/-! ### What the engine leaves: the running word, the cycle, and the replies on their way -/

/-- The running word, the cycle and every reply on its way. -/
def State.awaited (s : State) : Agent × Nat × (CoreId → CtxId → List PendReply) := (s.cur, s.cycle, fun c x => (s.ctx c x).replies)

theorem awaited_me {s t : State} (h : t.awaited = s.awaited) : t.me.replies = s.me.replies := by
  obtain ⟨hc, -, hr⟩ : t.cur = s.cur ∧ t.cycle = s.cycle ∧ (fun c x => (t.ctx c x).replies) = fun c x => (s.ctx c x).replies := by
    simpa [State.awaited] using h
  rw [State.me, hc]
  exact congrFun (congrFun hr _) _

theorem awaited_cycle {s t : State} (h : t.awaited = s.awaited) : t.cycle = s.cycle := congrArg (fun q => q.2.1) h

theorem Traffic.awaited {s t : State} (h : Traffic s t) : t.awaited = s.awaited := by
  have hr : (fun c x => (t.ctx c x).replies) = fun c x => (s.ctx c x).replies := by
    funext c x
    obtain ⟨a, b, p, d, e, hx⟩ := h.ctx c x
    rw [hx]
  rw [State.awaited, h.cur, h.cycle, hr, State.awaited]

theorem modCtx_awaited (s : State) (c : CoreId) (x : CtxId) {f : Ctx → Ctx} (hf : ∀ k, (f k).replies = k.replies) :
    (s.modCtx c x f).awaited = s.awaited := by
  have hr : (fun c' x' => ((s.modCtx c x f).ctx c' x').replies) = fun c x => (s.ctx c x).replies := by
    funext c' x'
    by_cases h : c' = c ∧ x' = x
    · obtain ⟨rfl, rfl⟩ := h
      rw [State.ctx_modCtx_self, hf]
    · rw [State.ctx_modCtx_ne _ _ _ _ _ _ h]
  rw [State.awaited, hr]
  rfl

theorem foldl_awaited {α : Type} {f : State → α → State} (hf : ∀ t a, (f t a).awaited = t.awaited) (l : List α) (s : State) :
    (l.foldl f s).awaited = s.awaited := by
  induction l generalizing s with
  | nil => rfl
  | cons a l ih => exact (ih _).trans (hf ..)

theorem foldl_snd_awaited {α β : Type} {f : β × State → α → β × State} (hf : ∀ q a, (f q a).2.awaited = q.2.awaited) (l : List α) (q : β × State) :
    (l.foldl f q).2.awaited = q.2.awaited := by
  induction l generalizing q with
  | nil => rfl
  | cons a l ih => exact (ih _).trans (hf ..)

theorem ite_awaited {s t u : State} {c : Prop} [Decidable c] (h : t.awaited = s.awaited) (k : u.awaited = s.awaited) :
    (if c then t else u).awaited = s.awaited := by
  split
  · exact h
  · exact k

/-! ### Primitives -/

theorem modConn_awaited (s : State) (n : Nat) (f : Conn → Conn) : (s.modConn n f).awaited = s.awaited := ite_awaited rfl rfl
theorem modOp_awaited (s : State) (p i : Nat) (f : ColOp → ColOp) : (s.modOp p i f).awaited = s.awaited := rfl
theorem sendPacket_awaited (s : State) (n op : Nat) (p : Packet) : (s.sendPacket n op p).awaited = s.awaited :=
  (modConn_awaited ..).trans rfl

theorem modCore_awaited (s : State) (c : CoreId) {f : Core → Core} (hf : ∀ k, (f k).ctxs = k.ctxs) : (s.modCore c f).awaited = s.awaited := by
  have hr : (fun c' x' => ((s.modCore c f).ctx c' x').replies) = fun c x => (s.ctx c x).replies := by
    funext c' x'
    by_cases h : c' = c
    · subst h
      rw [ctx_modCore_of_ctxs _ _ _ (hf _)]
    · rw [State.ctx, State.core_modCore_ne _ _ _ _ h, State.ctx]
  rw [State.awaited, hr]
  rfl

theorem spoilPhys_awaited (s : State) (u : UnitId) (cls pa key n : Nat) : (s.spoilPhys u cls pa key n).awaited = s.awaited := by
  refine foldl_awaited (fun t p => ?_) _ s
  split
  · exact (Traffic.writeMem ..).awaited
  · rfl

theorem bucketSpoil_awaited (s : State) (o : ColOp) (off n : Nat) : (s.bucketSpoil o off n).awaited = s.awaited :=
  foldl_awaited (fun _ _ => spoilPhys_awaited ..) _ s

/-! ### Stops (R263) -/

theorem rollFurOf_awaited (s : State) (c : CoreId) (x : CtxId) (f : FCmd) : (s.rollFurOf c x f).awaited = s.awaited := by
  have hroll : (s.modCore c fun k => k.rollFur f s.fresh).awaited = s.awaited := modCore_awaited s c fun k => Core.rollFur_ctxs k f s.fresh
  refine (modCtx_awaited _ c x ?_).trans hroll
  exact fun _ => rfl

theorem beginStop_awaited (s : State) (c : CoreId) (x : CtxId) (traps : List TrapRec) (clamp forced : Bool) (cuts : List (Nat × CutEntry)) :
    (s.beginStop c x traps clamp forced cuts).awaited = s.awaited := by
  unfold State.beginStop
  dsimp only
  refine (modCtx_awaited _ c x ?_).trans ?_
  · exact fun _ => rfl
  split
  · exact rollFurOf_awaited ..
  · rfl

theorem raiseAt_awaited (s : State) (c : CoreId) (x : CtxId) (r : TrapRec) (cuts : List (Nat × CutEntry)) :
    (s.raiseAt c x r cuts).awaited = s.awaited := by
  unfold State.raiseAt
  dsimp only
  split
  · refine (modCtx_awaited _ c x fun k => ?_).trans ?_
    · dsimp only
      split <;> rfl
    · split
      · exact rollFurOf_awaited ..
      · rfl
  · exact ite_awaited (beginStop_awaited ..) rfl

/-! ### Operations (R325 to R327) -/

theorem endOp_awaited (s : State) (o : ColOp) (err : Nat) : (s.endOp o err).awaited = s.awaited := by
  unfold State.endOp
  split
  · rfl
  extract_lets s0 s1
  have h1 : s1.awaited = s.awaited := (modOp_awaited ..).trans (ite_awaited rfl (bucketSpoil_awaited ..))
  have hflag (u : FlagUpd) : (s1.pushFlag o.core u).awaited = s.awaited :=
    (modCore_awaited s1 o.core (f := fun k => { k with upds := k.upds ++ [u] }) fun _ => rfl).trans h1
  have hctx : (s1.modCtx o.core o.ctx fun k => { k with clstat := k.clstat ||| 4, evt := true }).awaited = s.awaited :=
    (modCtx_awaited s1 o.core o.ctx (f := fun k => { k with clstat := k.clstat ||| 4, evt := true }) fun _ => rfl).trans h1
  exact ite_awaited h1 (ite_awaited (ite_awaited (hflag _) h1) hctx)

theorem failConn_awaited (s : State) (n : Nat) : (s.failConn n).awaited = s.awaited :=
  (modConn_awaited ..).trans (foldl_awaited (fun _ _ => endOp_awaited ..) _ s)

theorem colFault_awaited (s : State) (o : ColOp) (haddr : Nat) (f : XFault) : (s.colFault o haddr f).awaited = s.awaited :=
  ite_awaited ((raiseAt_awaited ..).trans (endOp_awaited ..)) (endOp_awaited ..)

theorem bucketFail_awaited {α : Type} {s s1 : State} (h : s1.awaited = s.awaited) (o : ColOp) (off va : Nat) (f : XFault) :
    (s.bucketFail s1 o off va f : ColRes α × State).2.awaited = s.awaited := by
  unfold State.bucketFail
  split
  · rfl
  · exact (colFault_awaited ..).trans h

theorem bucketRead_awaited (s : State) (o : ColOp) (off n : Nat) : (s.bucketRead o off n).2.awaited = s.awaited := by
  unfold State.bucketRead
  split
  · rfl
  · next va _ =>
    have h := (Traffic.readVa s o.unit (some 6) 0 o.acq false (o.bucket.toNat + off) (va + off) n).awaited
    split
    · next e =>
      rw [e] at h
      exact h
    · next e =>
      rw [e] at h
      exact bucketFail_awaited h ..

theorem bucketWrite_awaited (s : State) (o : ColOp) (off : Nat) (bs : List Byte) : (s.bucketWrite o off bs).2.awaited = s.awaited := by
  unfold State.bucketWrite
  split
  · rfl
  · next va _ =>
    have h := (Traffic.writeVa s o.unit (some 6) 0 (o.bucket.toNat + off) (va + off) bs).awaited
    split
    · next e =>
      rw [e] at h
      exact h
    · next e =>
      rw [e] at h
      exact bucketFail_awaited h ..

theorem sendSome_awaited (s : State) (o : ColOp) : (s.sendSome o).awaited = s.awaited := by
  unfold State.sendSome
  extract_lets w e total n stepDone
  refine ite_awaited rfl ?_
  have h := bucketRead_awaited s o (e.1 * w + o.sendOff) n
  split
  · rfl
  · next heq =>
    rw [heq] at h
    exact h
  · next heq =>
    rw [heq] at h
    exact (modOp_awaited ..).trans ((sendPacket_awaited ..).trans h)

theorem tellMismatch_awaited (s : State) (n : Nat) (p : Packet) : (s.tellMismatch n p).awaited = s.awaited := sendPacket_awaited ..

/-- What a received chunk is added to, or the chunk itself. -/
def State.chunkOf (s : State) (o : ColOp) (off : Nat) (ys : List Byte) (add : Bool) : ColRes (List Byte) × State :=
  if add then match s.bucketRead o off ys.length with
    | (.ok bs, s1) => (.ok (addChunk o.fmt (opBytes o.op o.fmt) (s1.freeVal 64).toNat ys bs), s1.skipFresh 1)
    | q => q
  else (.ok ys, s)

theorem chunkOf_awaited (s : State) (o : ColOp) (off : Nat) (ys : List Byte) (add : Bool) : (s.chunkOf o off ys add).2.awaited = s.awaited := by
  unfold State.chunkOf
  split
  · have h := bucketRead_awaited s o off ys.length
    split
    · next heq =>
      rw [heq] at h
      exact h
    · exact h
  · rfl

theorem takePacket_awaited {s t : State} {n : Nat} {o : ColOp} {p : Packet} (ht : s.takePacket n o p = some t) : t.awaited = s.awaited := by
  unfold State.takePacket at ht
  extract_lets w e total ys off r at ht
  split at ht
  · cases ht
    exact (tellMismatch_awaited ..).trans (endOp_awaited ..)
  · have hr : r.2.awaited = s.awaited := chunkOf_awaited s o off ys e.2
    revert ht hr
    generalize r = u
    intro ht hr
    split at ht
    · cases ht
    · cases ht
      exact hr
    · next vs s1 =>
      have hw := (bucketWrite_awaited s1 o off vs).trans hr
      split at ht
      · cases ht
      · next heq =>
        rw [heq] at hw
        cases ht
        exact hw
      · next heq =>
        rw [heq] at hw
        cases ht
        exact ite_awaited ((endOp_awaited ..).trans hw) hw

theorem takeMismatch_awaited (s : State) (n cnt : Nat) : (s.takeMismatch n cnt).awaited = s.awaited := by
  unfold State.takeMismatch
  split
  · rfl
  · exact ite_awaited (endOp_awaited ..) (endOp_awaited ..)

/-! ### Remote atomics (R331) -/

theorem colPlaces_awaited (s : State) (c : CoreId) (x : CtxId) (haddr va n : Nat) : (s.colPlaces c x haddr va n).2.awaited = s.awaited := by
  refine foldl_snd_awaited (fun a p => ?_) _ _
  split
  · rfl
  · have h := (Traffic.translate a.2 c x (some 6) (haddr + p.1) (va + p.1) .rw).awaited
    split <;> next e => rw [e] at h; exact h

theorem remotePlaces_awaited (s : State) (n x : Nat) : (s.remotePlaces n x).2.awaited = s.awaited := by
  unfold State.remotePlaces
  dsimp only
  split
  · rfl
  · exact colPlaces_awaited ..

theorem latestBytes_awaited (u : UnitId) (ps : List (Nat × Nat × Nat)) (a : List Byte × State) :
    (ps.foldl (fun (a : List Byte × State) b => (a.1 ++ (a.2.readLatest u 0 b.1 b.2.2).1, (a.2.readLatest u 0 b.1 b.2.2).2)) a).2.awaited =
      a.2.awaited := by
  refine foldl_snd_awaited (fun _ _ => ?_) ps a
  rfl

theorem remoteUpdate_awaited (s : State) (n : Nat) (p : Packet) (x v : Nat) : (s.remoteUpdate n p x v).2.awaited = s.awaited := by
  unfold State.remoteUpdate
  dsimp only
  split
  · rfl
  · have h := remotePlaces_awaited s n x
    split
    · next e =>
      rw [e] at h
      exact h
    · next e =>
      rw [e] at h
      split
      · exact h
      · split
        · exact (Traffic.softErr ..).awaited.trans h
        · refine (foldl_snd_awaited (fun _ _ => (Traffic.writeMem ..).awaited) _ _).trans ?_
          exact (latestBytes_awaited ..).trans h

theorem remoteApply_awaited (s : State) (n : Nat) (p : Packet) : (s.remoteApply n p).awaited = s.awaited := by
  unfold State.remoteApply
  extract_lets r
  have hr : r.2.awaited = s.awaited := foldl_snd_awaited (fun a i => by
    split
    · rfl
    · exact remoteUpdate_awaited ..) _ _
  exact ite_awaited hr ((failConn_awaited ..).trans hr)

/-! ### Actions -/

theorem deliver_awaited (s : State) (n : Nat) : (s.deliver n).awaited = s.awaited := by
  unfold State.deliver
  split
  · rfl
  · next p rest _ =>
    extract_lets s1
    have h1 : s1.awaited = s.awaited := modConn_awaited ..
    refine ite_awaited ((takeMismatch_awaited ..).trans h1) (ite_awaited (ite_awaited rfl ((remoteApply_awaited ..).trans h1)) ?_)
    split
    · next o _ =>
      cases h : s1.takePacket n o p with
      | none => rfl
      | some t => exact (takePacket_awaited h).trans h1
    · exact h1

theorem beginOp_awaited (s : State) (o : ColOp) : (s.beginOp o).awaited = s.awaited := by
  have h1 : (if o.op ≠ 5 && o.op < 6 then s.modConn o.nxt fun k => { k with txops := k.txops + 1 } else s).awaited = s.awaited :=
    ite_awaited (modConn_awaited ..) rfl
  exact (modOp_awaited ..).trans (ite_awaited ((modConn_awaited ..).trans h1) h1)

theorem colAct_awaited {s t : State} (h : s.colAct = some t) : t.awaited = s.awaited := by
  unfold State.colAct at h
  split at h
  · exact Option.some.inj h ▸ beginOp_awaited ..
  · split at h
    · exact Option.some.inj h ▸ deliver_awaited ..
    · split at h
      · exact Option.some.inj h ▸ rfl
      · obtain ⟨o, -, rfl⟩ := Option.map_eq_some_iff.1 h
        exact sendSome_awaited ..

theorem colLoop_awaited (n : Nat) (s : State) : (State.colLoop n s).awaited = s.awaited := by
  induction n generalizing s with
  | zero => rfl
  | succ n ih =>
    unfold State.colLoop
    split
    · next h => exact (ih _).trans (colAct_awaited h)
    · rfl

theorem colRun_awaited (s : State) : s.colRun.awaited = s.awaited := colLoop_awaited ..

/-! ### CSUBMIT (R328) -/

/-- The reply of a word after whose issue the engine has acted. -/
theorem replies_awaited {s t : State} (h : t.awaited = s.awaited) (d : SReg) (v : Word) : Replies s (t.reply d v) d v :=
  replies_reply (awaited_me h) (awaited_cycle h) d v

theorem issued_awaited (s : State) : s.issued.awaited = s.awaited := by
  unfold State.issued
  extract_lets s1
  have h1 : s1.awaited = s.awaited := by
    refine modCtx_awaited s _ _ fun k => ?_
    dsimp only
    (repeat' split) <;> simp
  exact ite_awaited ((modCore_awaited s1 s.cur.core (f := fun k => { k with ctlBusy := s.cycle + 1, rr := s.cur.ctx.val }) fun _ => rfl).trans h1) h1

/-- The operation of a descriptor that CSUBMIT has read, in the state after the read. -/
def State.submitted (s u : State) (bs : List Byte) : ColOp :=
  colOpOf s.cur.core s.cur.ctx s.myPart (u.issued.nextOpIdx s.myPart) s.me.task none { u.issued.acqNow with floors := s.me.acq.floors } bs

section
variable {s u : State} {d a : SReg} {i : HInfo} {bs : List Byte} (hx : s.xcmdReady = true)
  (hh : s.dramHandle s.cur.core s.cur.ctx (s.rdS a).toNat 32 true false = some i)
  (hr : s.readVa (ctlUnit s.cur.core s.cur.ctx) none 0 s.acqNow true (s.rdS a).toNat (i.base + haddrO (s.rdS a).toNat) 32 = (.ok bs, u))
include hx hh hr

theorem exec_csubmit_refused (hd : u.issued.descAccept (s.submitted u bs) bs = false) : exec (.csubmit d a) s = .next (u.issued.reply d 0) := by
  change execCsubmit d a s = _
  have hd' := hd
  unfold State.submitted at hd'
  simp only [execCsubmit, hh, hx, hr, Bool.not_true, Bool.false_eq_true, if_false, hd', Bool.not_false, Bool.true_or, if_true]

theorem exec_csubmit_accepted {v : State} (hd : u.issued.descAccept (s.submitted u bs) bs = true) (ho : u.issued.opsOpen < 256)
    (hv : u.issued.dispLog s.myPart 8 s.myTask s.myTask 0 [] [] = (true, v)) :
    exec (.csubmit d a) s = .next ((v.queueOp (s.submitted u bs)).colRun.reply d (BitVec.ofNat 64 (s.submitted u bs).idx)) := by
  change execCsubmit d a s = _
  have hd' := hd
  unfold State.submitted at hd'
  simp only [execCsubmit, hh, hx, hr, Bool.not_true, Bool.false_eq_true, if_false, hd', Bool.false_or, decide_eq_true_eq, ge_iff_le,
    if_neg (Nat.not_le.2 ho), hv]
  rfl

omit hx hh in
theorem csubmit_read_awaited : u.issued.awaited = s.awaited := by
  have h := (Traffic.readVa s (ctlUnit s.cur.core s.cur.ctx) none 0 s.acqNow true (s.rdS a).toNat (i.base + haddrO (s.rdS a).toNat) 32).awaited
  rw [hr] at h
  exact (issued_awaited u).trans h

theorem csubmit_accepted (hd : u.issued.descAccept (s.submitted u bs) bs = true) (ho : u.issued.opsOpen < 256)
    (hp : (u.part s.myPart).replay = none) : ∃ t, exec (.csubmit d a) s = .next t ∧ Replies s t d (BitVec.ofNat 64 (s.submitted u bs).idx) := by
  obtain ⟨v, hv, ht⟩ := issued_dispLog hp 8 s.myTask s.myTask 0
  refine ⟨_, exec_csubmit_accepted hx hh hr hd ho hv, replies_awaited ?_ d _⟩
  exact (colRun_awaited _).trans (ht.awaited.trans (csubmit_read_awaited hr))

theorem csubmit_refused (hd : u.issued.descAccept (s.submitted u bs) bs = false) :
    ∃ t, exec (.csubmit d a) s = .next t ∧ Replies s t d 0 ∧ t.col = u.col :=
  ⟨_, exec_csubmit_refused hx hh hr hd, replies_awaited (csubmit_read_awaited hr) d _, u.issued_col⟩

end

/-! ### CPOLL (R327, R328) -/

/-- The status word that CPOLL finds. -/
def State.polled (s : State) (i : Nat) : Nat :=
  match s.col.ops.find? fun (o : ColOp) => o.part = s.myPart && o.idx = i && i + 256 ≥ s.nextOpIdx s.myPart - 1 with
  | some o => o.status
  | none => 0

theorem exec_cpoll {s : State} (h : s.xcmdReady = true) (d a : SReg) :
    exec (.cpoll d a) s = .next (s.issued.reply d (BitVec.ofNat 64 (s.polled (s.rdS a).toNat))) := by
  change execCpoll d a s = _
  rw [execCpoll, h]
  rfl

theorem polled_unknown {s : State} {i : Nat} (h : ∀ o ∈ s.col.ops, ¬(o.part = s.myPart ∧ o.idx = i)) : s.polled i = 0 := by
  have hnone : s.col.ops.find? (fun (o : ColOp) => o.part = s.myPart && o.idx = i && i + 256 ≥ s.nextOpIdx s.myPart - 1) = none := by
    refine List.find?_eq_none.2 fun o ho hp => h o ho ?_
    simp only [Bool.and_eq_true, decide_eq_true_eq] at hp
    exact hp.1
  rw [State.polled, hnone]

theorem polled_known {s : State} {o : ColOp} (ho : o ∈ s.col.ops) (hu : ∀ o' ∈ s.col.ops, o'.part = s.myPart → o'.idx = o.idx → o' = o)
    (hp : o.part = s.myPart) (hn : s.nextOpIdx s.myPart - 1 ≤ o.idx + 256) : s.polled o.idx = o.status := by
  have hsome : (s.col.ops.find? fun (q : ColOp) => q.part = s.myPart && q.idx = o.idx && o.idx + 256 ≥ s.nextOpIdx s.myPart - 1).isSome = true :=
    List.find?_isSome.2 ⟨o, ho, by simpa [hp] using hn⟩
  obtain ⟨q, hq⟩ := Option.isSome_iff_exists.1 hsome
  have hqp := List.find?_some hq
  simp only [Bool.and_eq_true, decide_eq_true_eq] at hqp
  obtain rfl := hu q (List.mem_of_find?_eq_some hq) hqp.1.1 hqp.1.2
  rw [State.polled, hq]

/-! ### CWATCH and CUNWATCH (R328) -/

theorem exec_cwatch_adds {s : State} (h : s.xcmdReady = true) (a b : SReg) {pa : Nat}
    (hd : (s.dramHandle s.cur.core s.cur.ctx (s.rdS b).toNat 32 true false).isSome = true) (hw : s.watchWord (s.rdS a).toNat = some (.ok pa))
    (hnew : ∀ q ∈ s.me.watches, q.1 ≠ pa) (hroom : s.me.watches.length < 32) :
    exec (.cwatch a b) s = .next (s.issued.modMe fun k => { k with watches := k.watches ++ [(pa, (s.rdS a).toNat, (s.rdS b).toNat)] }) := by
  change execCwatch a b s = _
  have hany : (s.me.watches.any fun q => q.1 = pa) = false := by simpa using hnew
  have hsome : (s.dramHandle s.cur.core s.cur.ctx (s.rdS b).toNat 32 true false).isNone = false := by simpa using hd
  simp only [execCwatch, h, hsome, hw, hany, Bool.not_true, Bool.false_eq_true, if_false, ge_iff_le, if_neg (Nat.not_le.2 hroom)]

theorem exec_cunwatch {s : State} (h : s.xcmdReady = true) (a : SReg) {pa : Nat} (hw : s.watchWord (s.rdS a).toNat = some (.ok pa)) :
    exec (.cunwatch a) s = .next (s.issued.modMe fun k =>
      { k with watches := k.watches.filter fun q => q.1 ≠ pa && q.2.1 ≠ (s.rdS a).toNat }) := by
  change execCunwatch a s = _
  simp only [execCunwatch, h, hw, Bool.not_true, Bool.false_eq_true, if_false]

theorem cunwatch_removes {s : State} (h : s.xcmdReady = true) (a : SReg) {pa : Nat} (hw : s.watchWord (s.rdS a).toNat = some (.ok pa)) :
    ∃ t, exec (.cunwatch a) s = .next t ∧ (∀ q ∈ t.me.watches, q ∈ s.me.watches ∧ q.1 ≠ pa) ∧
      (∀ q ∈ s.me.watches, q.1 ≠ pa → q.2.1 ≠ (s.rdS a).toNat → q ∈ t.me.watches) ∧ SameData s t := by
  refine ⟨_, exec_cunwatch h a hw, ?_, ?_, (sameData_issued s).trans (sameData_modMe s.issued _ rfl rfl)⟩
  · intro q hq
    rw [State.me_modMe, s.issued_me_watches, List.mem_filter] at hq
    simp only [Bool.and_eq_true, decide_eq_true_eq] at hq
    exact ⟨hq.1, hq.2.1⟩
  · intro q hq h1 h2
    rw [State.me_modMe, s.issued_me_watches, List.mem_filter]
    exact ⟨hq, by simp [h1, h2]⟩

/-- Settles O29. -/
theorem collectiveWords : Obligations.CollectiveWords := by
  refine fun s d a b hx => ⟨fun i bs u hh hr => ⟨?_, csubmit_refused hx hh hr⟩, ?_, fun pa hd hw hnew hroom => ?_, fun pa => cunwatch_removes hx a⟩
  · exact fun hd ho hp => csubmit_accepted hx hh hr hd ho hp
  · refine ⟨_, _, exec_cpoll hx d a, replies_reply s.issued_me_replies s.issued_cycle d _, s.issued_col, fun h => ?_, fun o ho hu hp hi hn => ?_⟩
    · rw [polled_unknown h]
      rfl
    · rw [← hi] at hu ⊢
      rw [polled_known ho hu hp hn]
      rfl
  · exact ⟨_, exec_cwatch_adds hx a b hd hw hnew hroom, issued_modMe s _ _ fun _ _ _ _ => rfl⟩

end Sys2Proof.Machine
end

section
/-! PROOFS. O54: the transport of Darud. One rule for each operation on the collective engine's tables: the connection that a change names takes it and
the others stay; an operation that ends is found in the table with its ERR; undefined bytes change no table (R322 to R324, R332). -/

namespace Sys2Proof.Machine

/-! ### The connection table (R323) -/

theorem connId_le (n : ConnId) : n.val ≤ 4095 := by
  have := n.isLt
  omega

/-- What a filter lets through is found as before. -/
theorem find?_filter_of_imp {α : Type} {p q : α → Bool} (h : ∀ a, q a = true → p a = true) (l : List α) : (l.filter p).find? q = l.find? q := by
  rw [List.find?_filter]
  congr 1
  funext a
  cases hq : q a with
  | false => simp
  | true => simp [h a hq]

/-- What a filter keeps back is not found. -/
theorem find?_filter_of_not {α : Type} {p q : α → Bool} (h : ∀ a, q a = true → p a = false) (l : List α) : (l.filter p).find? q = none := by
  refine List.find?_eq_none.2 fun a ha hq => ?_
  have hp := (List.mem_filter.1 ha).2
  rw [h a hq] at hp
  cases hp

/-- The table with connection `n` put in its place. -/
def putConn (l : List (Nat × Conn)) (n : Nat) (k : Conn) : List (Nat × Conn) :=
  ((l.filter fun p => p.1 ≠ n).filter fun p => p.1 < n) ++ (n, k) :: (l.filter fun p => p.1 ≠ n).filter fun p => p.1 > n

theorem modConn_eq (s : State) {n : Nat} (h0 : n ≠ 0) (hn : n ≤ 4095) (f : Conn → Conn) :
    s.modConn n f = { s with col := { s.col with conns := putConn s.col.conns n (f (s.conn n)) } } := by
  have hnot : ¬(decide (n = 0) || decide (n > 4095)) = true := by simp; omega
  rw [State.modConn, if_neg hnot]
  rfl

theorem find?_putConn_self (l : List (Nat × Conn)) (n : Nat) (k : Conn) : (putConn l n k).find? (fun p => p.1 = n) = some (n, k) := by
  have hbelow : ((l.filter fun p => p.1 ≠ n).filter fun p => p.1 < n).find? (fun p => decide (p.1 = n)) = none :=
    find?_filter_of_not (fun a ha => by simp at ha ⊢; omega) _
  rw [putConn, List.find?_append, hbelow, Option.none_or, List.find?_cons_of_pos (by simp)]

theorem find?_putConn_ne (l : List (Nat × Conn)) {n m : Nat} (h : m ≠ n) (k : Conn) :
    (putConn l n k).find? (fun p => p.1 = m) = l.find? fun p => p.1 = m := by
  have hne : (l.filter fun p => p.1 ≠ n).find? (fun p => decide (p.1 = m)) = l.find? fun p => decide (p.1 = m) :=
    find?_filter_of_imp (fun a ha => by simp at ha ⊢; omega) _
  rw [putConn, List.find?_append, List.find?_cons_of_neg (by simpa using h.symm)]
  rcases Nat.lt_or_gt_of_ne h with hlt | hgt
  · rw [find?_filter_of_imp (fun a ha => by simp at ha ⊢; omega) (l.filter _), hne,
      find?_filter_of_not (fun a ha => by simp at ha ⊢; omega) (l.filter _), Option.or_none]
  · rw [find?_filter_of_not (fun a ha => by simp at ha ⊢; omega) (l.filter _), Option.none_or,
      find?_filter_of_imp (fun a ha => by simp at ha ⊢; omega) (l.filter _), hne]

theorem conn_modConn_self (s : State) {n : Nat} (h0 : n ≠ 0) (hn : n ≤ 4095) (f : Conn → Conn) : (s.modConn n f).conn n = f (s.conn n) := by
  rw [modConn_eq s h0 hn, State.conn, find?_putConn_self]
  rfl

theorem conn_modConn_ne (s : State) {n m : Nat} (h : m ≠ n) (f : Conn → Conn) : (s.modConn n f).conn m = s.conn m := by
  unfold State.modConn
  split
  · rfl
  · exact congrArg (fun o : Option (Nat × Conn) => (o.map (·.2)).getD Conn.reset) (find?_putConn_ne s.col.conns h _)

theorem conn_of_conns {s t : State} (h : t.col.conns = s.col.conns) (n : Nat) : t.conn n = s.conn n := by rw [State.conn, h, State.conn]

/-- A change of a connection leaves every other table. -/
theorem modConn_leaves (s : State) (n : Nat) (f : Conn → Conn) :
    (s.modConn n f).col.out = s.col.out ∧ (s.modConn n f).col.ops = s.col.ops ∧ (s.modConn n f).col.brhead = s.col.brhead ∧
      (s.modConn n f).mem = s.mem ∧ (s.modConn n f).cores = s.cores := by
  unfold State.modConn
  split <;> exact ⟨rfl, rfl, rfl, rfl, rfl⟩

/-! ### Undefined bytes, and operations that end (R2, R327) -/

/-- The cores and the collective engine. -/
def State.aside (s : State) : Vector Core 128 × Col := (s.cores, s.col)

theorem writeByte_aside (s : State) (host : Bool) (u : UnitId) (cls tag pick a : Nat) (v : Byte) :
    (s.writeByte host u cls tag pick a v).aside = s.aside := by
  unfold State.writeByte
  dsimp only
  split
  · rfl
  · split <;> rfl

theorem writeMem_aside (s : State) (host : Bool) (u : UnitId) (cls a : Nat) (bs : List Byte) : (s.writeMem host u cls a bs).aside = s.aside := by
  have h := foldl_keeps State.aside (f := fun (t : State) (p : Byte × Nat) => t.writeByte host u cls s.fresh (s.fresh + 129 + p.2) (a + p.2) p.1)
    (fun _ _ => writeByte_aside ..) bs.zipIdx { s with fresh := s.fresh + 129 + bs.length }
  unfold State.writeMem
  dsimp only
  split <;> exact h

theorem writeMem_col (s : State) (host : Bool) (u : UnitId) (cls a : Nat) (bs : List Byte) : (s.writeMem host u cls a bs).col = s.col :=
  congrArg Prod.snd (writeMem_aside s host u cls a bs)

theorem spoilPhys_aside (s : State) (u : UnitId) (cls pa key n : Nat) : (s.spoilPhys u cls pa key n).aside = s.aside := by
  refine foldl_keeps State.aside (fun t p => ?_) _ s
  split
  · exact writeMem_aside ..
  · rfl

theorem bucketSpoil_aside (s : State) (o : ColOp) (off n : Nat) : (s.bucketSpoil o off n).aside = s.aside :=
  foldl_keeps State.aside (fun _ _ => spoilPhys_aside ..) _ s

/-- An operation of the table after operation `o` has ended. -/
def ColOp.over (o : ColOp) (err : Nat) (q : ColOp) : ColOp := if q.part = o.part && q.idx = o.idx then { q with state := 3, err := err } else q

theorem endOp_col (s : State) {o : ColOp} (h : o.state ≠ 3) (err : Nat) :
    (s.endOp o err).col = { s.col with ops := s.col.ops.map (o.over err) } := by
  unfold State.endOp
  rw [if_neg h]
  extract_lets s0 s1
  have h0 : s0.col = s.col := by
    simp only [s0]
    split
    · rfl
    · exact congrArg Prod.snd (bucketSpoil_aside ..)
  have h1 : s1.col = { s.col with ops := s.col.ops.map (o.over err) } := by rw [← h0]; rfl
  split
  · exact h1
  · split
    · split <;> exact h1
    · exact h1

theorem endOp_conns (s : State) (o : ColOp) (err : Nat) : (s.endOp o err).col.conns = s.col.conns := by
  by_cases h : o.state = 3
  · rw [State.endOp, if_pos h]
  · rw [endOp_col s h]

/-- The operation of a partition and index stands ended in the table, with its ERR. -/
def OpEnded (l : List ColOp) (part idx err : Nat) : Prop := ∃ o ∈ l, o.part = part ∧ o.idx = idx ∧ o.state = 3 ∧ o.err = err

/-- The operation of a partition and index stands in the table. -/
def OpListed (l : List ColOp) (part idx : Nat) : Prop := ∃ o ∈ l, o.part = part ∧ o.idx = idx

theorem over_key (o : ColOp) (err : Nat) (q : ColOp) : (o.over err q).part = q.part ∧ (o.over err q).idx = q.idx := by
  unfold ColOp.over
  split <;> exact ⟨rfl, rfl⟩

theorem endOp_lists {s : State} {part idx : Nat} (h : OpListed s.col.ops part idx) (o : ColOp) (err : Nat) :
    OpListed (s.endOp o err).col.ops part idx := by
  by_cases ho : o.state = 3
  · rwa [State.endOp, if_pos ho]
  · obtain ⟨q, hq, hp, hi⟩ := h
    obtain ⟨kp, ki⟩ := over_key o err q
    rw [endOp_col s ho]
    exact ⟨_, List.mem_map_of_mem hq, kp.trans hp, ki.trans hi⟩

theorem endOp_keeps {s : State} {part idx err : Nat} (h : OpEnded s.col.ops part idx err) (o : ColOp) : OpEnded (s.endOp o err).col.ops part idx err := by
  by_cases ho : o.state = 3
  · rwa [State.endOp, if_pos ho]
  · obtain ⟨q, hq, hp, hi, hs, he⟩ := h
    obtain ⟨kp, ki⟩ := over_key o err q
    rw [endOp_col s ho]
    refine ⟨_, List.mem_map_of_mem hq, kp.trans hp, ki.trans hi, ?_⟩
    unfold ColOp.over
    split
    · exact ⟨rfl, rfl⟩
    · exact ⟨hs, he⟩

theorem endOp_ends {s : State} {o : ColOp} (h : OpListed s.col.ops o.part o.idx) (ho : o.state ≠ 3) (err : Nat) :
    OpEnded (s.endOp o err).col.ops o.part o.idx err := by
  obtain ⟨q, hq, hp, hi⟩ := h
  rw [endOp_col s ho]
  refine ⟨_, List.mem_map_of_mem hq, ?_⟩
  rw [ColOp.over, if_pos (by simp [hp, hi])]
  exact ⟨hp, hi, rfl, rfl⟩

/-- Operations that end one after another. -/
def State.endOps (s : State) (l : List ColOp) (err : Nat) : State := l.foldl (fun (t : State) o => t.endOp o err) s

theorem endOps_conns (s : State) (l : List ColOp) (err : Nat) : (s.endOps l err).col.conns = s.col.conns :=
  foldl_keeps (fun t : State => t.col.conns) (fun _ _ => endOp_conns ..) l s

theorem endOps_keeps {s : State} {part idx err : Nat} (h : OpEnded s.col.ops part idx err) (l : List ColOp) :
    OpEnded (s.endOps l err).col.ops part idx err :=
  foldl_ind (fun t : State => OpEnded t.col.ops part idx err) _ (fun _ o ht => endOp_keeps ht o) l s h

theorem endOps_ends {s : State} {o : ColOp} {l : List ColOp} (h : OpListed s.col.ops o.part o.idx) (ho : o.state ≠ 3) (hm : o ∈ l) (err : Nat) :
    OpEnded (s.endOps l err).col.ops o.part o.idx err := by
  induction l generalizing s with
  | nil => cases hm
  | cons q l ih =>
    rcases List.mem_cons.1 hm with rfl | hm
    · exact endOps_keeps (endOp_ends h ho err) l
    · exact ih (endOp_lists h q err) hm

/-! ### A connection that is cleared or fails (R323, R324) -/

/-- The open operations that use a connection. -/
def State.users (s : State) (n : Nat) : List ColOp := s.col.ops.filter fun o => o.state ≠ 3 && o.uses n

theorem failConn_conn (s : State) {n : Nat} (h0 : n ≠ 0) (hn : n ≤ 4095) : ((s.failConn n).conn n).fail = true ∧ ((s.failConn n).conn n).window = [] := by
  rw [State.failConn, conn_modConn_self _ h0 hn]
  exact ⟨rfl, rfl⟩

theorem clearConn_conn (s : State) {n : Nat} (h0 : n ≠ 0) (hn : n ≤ 4095) (err : Nat) :
    ((s.clearConn n err).conn n).v = false ∧ ((s.clearConn n err).conn n).window = [] ∧ ((s.clearConn n err).conn n).recvq = [] := by
  rw [State.clearConn, conn_modConn_self _ h0 hn]
  exact ⟨rfl, rfl, rfl⟩

theorem clearConn_ops (s : State) (n err : Nat) : (s.clearConn n err).col.ops = (s.endOps (s.users n) err).col.ops := (modConn_leaves ..).2.1

/-! ### Acknowledgements (R324) -/

section
variable {s : State} {n : Nat} (h0 : n ≠ 0) (hn : n ≤ 4095)
include h0 hn

/-- A connection that has acknowledged all but `left` packets. -/
def Conn.acked (k : Conn) (left now : Nat) : Conn := { k with unacked := left, ackDue := if left = 0 then none else some (now + usCycles 1) }

omit h0 hn in
theorem acked_leaves (k : Conn) (left now : Nat) : (k.acked left now).unacked = left ∧ (k.acked left now).recvq = k.recvq ∧
    (k.acked left now).rxseq = k.rxseq := ⟨rfl, rfl, rfl⟩

theorem ackNow_conn : (s.ackNow n).conn n =
    (s.conn n).acked (((s.conn n).rxseq + 2 ^ 24 - (s.conn n).ackable) % 2 ^ 24) s.cycle := conn_modConn_self (s.emit n _) h0 hn _

theorem ackNow_keeps : ((s.ackNow n).conn n).recvq = (s.conn n).recvq ∧ ((s.ackNow n).conn n).rxseq = (s.conn n).rxseq := by
  rw [ackNow_conn h0 hn]
  exact (acked_leaves ..).2

theorem ackNow_unacked : ((s.ackNow n).conn n).unacked = ((s.conn n).rxseq + 2 ^ 24 - (s.conn n).ackable) % 2 ^ 24 := by
  rw [ackNow_conn h0 hn]
  exact (acked_leaves ..).1

omit h0 hn in
theorem ackNow_out : (s.ackNow n).col.out = s.col.out ++ [((s.conn n).port, .darudAck (s.conn n).peer (s.conn n).ackable)] :=
  (modConn_leaves (s.emit n _) ..).1

omit h0 hn in
theorem ackNow_brhead : (s.ackNow n).col.brhead = s.col.brhead := (modConn_leaves (s.emit n _) ..).2.2.1

/-- A connection that has accepted one more packet. -/
def Conn.accepted (k : Conn) (now : Nat) : Conn :=
  { k with rxseq := (k.rxseq + 1) % 2 ^ 24, unacked := k.unacked + 1, ackDue := some (k.ackDue.getD (now + usCycles 1)) }

omit h0 hn in
theorem noteAccepted_eq : s.noteAccepted n =
    if ((s.modConn n (Conn.accepted · s.cycle)).conn n).unacked ≥ 16 then (s.modConn n (Conn.accepted · s.cycle)).ackNow n
    else s.modConn n (Conn.accepted · s.cycle) := rfl

/-- The receive queue stays, and RXSEQ goes up by one, with or without an acknowledgement. -/
theorem noteAccepted_conn : ((s.noteAccepted n).conn n).recvq = (s.conn n).recvq ∧ ((s.noteAccepted n).conn n).rxseq = ((s.conn n).rxseq + 1) % 2 ^ 24 := by
  rw [noteAccepted_eq]
  split
  · obtain ⟨hq, hx⟩ := ackNow_keeps (s := s.modConn n (Conn.accepted · s.cycle)) h0 hn
    rw [hq, hx, conn_modConn_self _ h0 hn]
    exact ⟨rfl, rfl⟩
  · rw [conn_modConn_self _ h0 hn]
    exact ⟨rfl, rfl⟩

omit h0 hn in
theorem noteAccepted_brhead : (s.noteAccepted n).col.brhead = s.col.brhead := by
  have h1 : (s.modConn n (Conn.accepted · s.cycle)).col.brhead = s.col.brhead := (modConn_leaves ..).2.2.1
  rw [noteAccepted_eq]
  split
  · exact (ackNow_brhead).trans h1
  · exact h1

/-! ### Sending again (R324) -/

omit h0 hn in
theorem foldl_emit (l : List (Nat × Packet)) (t : State) (ht : t.col.conns = s.col.conns) :
    (l.foldl (fun (t : State) w => t.emit n (.darudData (s.conn n).peer w.2)) t).col.out =
        t.col.out ++ l.map (fun w => ((s.conn n).port, .darudData (s.conn n).peer w.2)) ∧
      (l.foldl (fun (t : State) w => t.emit n (.darudData (s.conn n).peer w.2)) t).col.conns = s.col.conns := by
  induction l generalizing t with
  | nil => exact ⟨(List.append_nil _).symm, ht⟩
  | cons w l ih =>
    obtain ⟨ho, hc⟩ := ih (t.emit n (.darudData (s.conn n).peer w.2)) ht
    refine ⟨ho.trans ?_, hc⟩
    change (t.col.out ++ [((t.conn n).port, _)]) ++ _ = _
    rw [conn_of_conns ht, List.append_assoc]
    rfl

/-- The window from a packet on, as it leaves again. -/
def Conn.from_ (k : Conn) (seq : Nat) : List (Nat × FrameBody) :=
  (k.window.filter fun w => !seqBelow w.2.seq seq).map fun w => (k.port, .darudData k.peer w.2)

theorem resend_sends {seq : Nat} {late : Bool} (h : late = true ∨ (s.conn n).rounds < (s.conn n).rmax) :
    (s.resend n seq late).col.out = s.col.out ++ (s.conn n).from_ seq ∧ ((s.resend n seq late).conn n).backoff = none ∧
      ((s.resend n seq late).conn n).window = (s.conn n).window ∧
      ((s.resend n seq late).conn n).rounds = if late then (s.conn n).rounds else (s.conn n).rounds + 1 := by
  have hnot : ¬(!late && decide ((s.conn n).rounds ≥ (s.conn n).rmax)) = true := by
    rcases h with h | h
    · simp [h]
    · simp only [ge_iff_le, Bool.and_eq_true, decide_eq_true_eq]
      omega
  obtain ⟨hout, hconns⟩ := foldl_emit ((s.conn n).window.filter fun w => !seqBelow w.2.seq seq) s rfl
  rw [State.resend]
  dsimp only
  rw [if_neg hnot, conn_modConn_self _ h0 hn, conn_of_conns hconns]
  exact ⟨(modConn_leaves ..).1.trans hout, rfl, rfl, rfl⟩

theorem resend_fails {seq : Nat} (h : (s.conn n).rmax ≤ (s.conn n).rounds) :
    ((s.resend n seq false).conn n).fail = true ∧ ((s.resend n seq false).conn n).window = [] := by
  rw [State.resend]
  dsimp only
  rw [if_pos (by simpa using h)]
  exact failConn_conn s h0 hn

end

/-! ### The bounce ring (R332) -/

theorem length_bounceEntry (n : Nat) (p : Packet) : (bounceEntry n p).length = 64 + alignUp p.data.length 64 := by
  have hle : p.data.length ≤ alignUp p.data.length 64 := by
    unfold alignUp ceilDiv
    omega
  simp only [bounceEntry, List.length_append, List.length_flatMap, List.length_replicate, List.map_cons, List.map_nil, List.sum_cons, List.sum_nil,
    length_leBytes]
  omega

theorem bounce_col {s u : State} {n : Nat} {p : Packet} (h : s.bounce n p = some u) :
    u.col = { s.col with brhead := (s.col.brhead + 64 + alignUp p.data.length 64) % 2 ^ 64 } := by
  unfold State.bounce at h
  extract_lets e used s1 at h
  have h1 : s1.col = s.col := by
    refine congrArg Prod.snd (foldl_keeps State.aside (fun t i => ?_) _ s)
    dsimp only
    split
    · exact writeMem_aside ..
    · rfl
  split at h
  · cases h
  · obtain rfl := Option.some.inj h
    change { s1.col with brhead := (s1.col.brhead + e.length) % 2 ^ 64 } = _
    rw [h1, length_bounceEntry, Nat.add_assoc]

/-! ### DARUD_PACKET_RECEIVE (R324) -/

theorem seqBelow_self (a : Nat) : seqBelow a a = false := by
  have : (a + 2 ^ 24 - a % 2 ^ 24) % 2 ^ 24 = 0 := by omega
  unfold seqBelow
  dsimp only
  rw [this]
  rfl

section
variable {s : State} {n : ConnId} {p : Packet} (h0 : n.val ≠ 0) (hlive : (s.conn n.val).live = true)
  (hopen : (s.part (s.conn n.val).part).state < 2)
include h0 hlive hopen

theorem exec_darudPacketReceive_late (hl : s.lateFor (s.conn n.val) = true) : exec (.darudPacketReceive n p) s = .next (s.nack n.val true) := by
  change execDarudPacketReceive n p s = _
  simp [execDarudPacketReceive, h0, hlive, State.partOpen, hopen, hl]

theorem exec_darudPacketReceive_below (hl : s.lateFor (s.conn n.val) = false) (hb : seqBelow p.seq (s.conn n.val).rxseq = true) :
    exec (.darudPacketReceive n p) s = .next (s.ackNow n.val) := by
  change execDarudPacketReceive n p s = _
  simp [execDarudPacketReceive, h0, hlive, State.partOpen, hopen, hl, hb]

theorem exec_darudPacketReceive_beyond (hl : s.lateFor (s.conn n.val) = false) (hne : p.seq ≠ (s.conn n.val).rxseq)
    (hb : seqBelow p.seq (s.conn n.val).rxseq = false) : exec (.darudPacketReceive n p) s = .next s := by
  change execDarudPacketReceive n p s = _
  simp [execDarudPacketReceive, h0, hlive, State.partOpen, hopen, hl, hb, hne]

/-- The packet in sequence. -/
theorem exec_darudPacketReceive_next (hl : s.lateFor (s.conn n.val) = false) (hs : p.seq = (s.conn n.val).rxseq) :
    exec (.darudPacketReceive n p) s =
      if !(s.conn n.val).pres then
        match s.bounce n.val p with
        | none => .next (s.nack n.val false)
        | some s1 => .next (s1.noteAccepted n.val)
      else if (s.conn n.val).rpl || (s.conn n.val).recvq.length ≥ 64 then .next (s.nack n.val false)
      else .next ((s.modConn n.val fun k => { k with recvq := k.recvq ++ [p] }).noteAccepted n.val).colRun := by
  change execDarudPacketReceive n p s = _
  have hb : seqBelow p.seq (s.conn n.val).rxseq = false := hs ▸ seqBelow_self _
  have hguard : (decide (n.val = 0) || !(s.conn n.val).live || !s.partOpen (s.conn n.val).part) = false := by
    simp [h0, hlive, State.partOpen, hopen]
  rw [execDarudPacketReceive, hguard, hl, hb, if_neg (by simp), if_neg (by simp), if_neg (by simp), if_neg (not_not.2 hs)] <;> rfl

theorem packet_queued (hl : s.lateFor (s.conn n.val) = false) (hs : p.seq = (s.conn n.val).rxseq) (hp : (s.conn n.val).pres = true)
    (hr : (s.conn n.val).rpl = false) (hroom : (s.conn n.val).recvq.length < 64) :
    ∃ u : State, exec (.darudPacketReceive n p) s = .next u.colRun ∧ (u.conn n.val).recvq = (s.conn n.val).recvq ++ [p] ∧
      (u.conn n.val).rxseq = ((s.conn n.val).rxseq + 1) % 2 ^ 24 := by
  have hn : n.val ≤ 4095 := connId_le n
  refine ⟨(s.modConn n.val fun k => { k with recvq := k.recvq ++ [p] }).noteAccepted n.val, ?_, ?_⟩
  · rw [exec_darudPacketReceive_next h0 hlive hopen hl hs, hp, hr, if_neg (by simp), if_neg (by simpa using hroom)]
  · obtain ⟨hq, hx⟩ := noteAccepted_conn (s := s.modConn n.val fun k => { k with recvq := k.recvq ++ [p] }) h0 hn
    rw [conn_modConn_self _ h0 hn] at hq hx
    exact ⟨hq, hx⟩

theorem packet_refused (hl : s.lateFor (s.conn n.val) = false) (hs : p.seq = (s.conn n.val).rxseq) (hp : (s.conn n.val).pres = true)
    (hr : (s.conn n.val).rpl = true ∨ 64 ≤ (s.conn n.val).recvq.length) :
    exec (.darudPacketReceive n p) s = .next (s.nack n.val false) := by
  rw [exec_darudPacketReceive_next h0 hlive hopen hl hs, hp, if_neg (by simp), if_pos (by simpa using hr)]

theorem packet_bounced {u : State} (hl : s.lateFor (s.conn n.val) = false) (hs : p.seq = (s.conn n.val).rxseq) (hp : (s.conn n.val).pres = false)
    (hu : s.bounce n.val p = some u) :
    ∃ t, exec (.darudPacketReceive n p) s = .next t ∧ t.col.brhead = (s.col.brhead + 64 + alignUp p.data.length 64) % 2 ^ 64 ∧
      (t.conn n.val).rxseq = ((s.conn n.val).rxseq + 1) % 2 ^ 24 ∧ (t.conn n.val).recvq = (s.conn n.val).recvq := by
  have hn : n.val ≤ 4095 := connId_le n
  have hcol := bounce_col hu
  have hconn : u.conn n.val = s.conn n.val := conn_of_conns (by rw [hcol]) _
  obtain ⟨hq, hx⟩ := noteAccepted_conn (s := u) h0 hn
  refine ⟨u.noteAccepted n.val, ?_, ?_, by rw [hx, hconn], by rw [hq, hconn]⟩
  · rw [exec_darudPacketReceive_next h0 hlive hopen hl hs, hp, if_pos (by simp), hu]
  · rw [noteAccepted_brhead, hcol]

end

/-! ### The other events of the transport (R324, R332) -/

section
variable {s : State} {n : ConnId} (h0 : n.val ≠ 0)
include h0

/-- A connection whose packets before a number are acknowledged. -/
def Conn.freed (k : Conn) (left : List (Nat × Packet)) (now seq : Nat) : Conn :=
  { k with
    window := left, nacks := 0, rounds := 0, rtoDue := if left.isEmpty then none else some (now + usCycles k.rto)
    backoff := match k.backoff with | some b => if seqBelow b.2 seq then none else some b | none => none }

theorem ack_frees {seq : Nat} {a b : List (Nat × Packet)} (hlive : (s.conn n.val).live = true) (hw : (s.conn n.val).window = a ++ b) (ha : a ≠ [])
    (hbelow : ∀ w ∈ a, seqBelow w.2.seq seq = true) (hfrom : ∀ w ∈ b, seqBelow w.2.seq seq = false) :
    ∃ u : State, exec (.darudAckReceive n seq) s = .next u.colRun ∧ (u.conn n.val).window = b ∧ (u.conn n.val).rounds = 0 ∧ (u.conn n.val).nacks = 0 := by
  have hleft : (s.conn n.val).window.dropWhile (fun w => seqBelow w.2.seq seq) = b := by
    rw [hw, List.dropWhile_append_of_pos hbelow]
    cases b with
    | nil => rfl
    | cons w b => rw [List.dropWhile_cons_of_neg (by simp [hfrom w List.mem_cons_self])]
  have hlen : ¬(!(s.conn n.val).live || decide (b.length = (s.conn n.val).window.length)) = true := by
    have : 0 < a.length := List.length_pos_iff.2 ha
    simp only [hlive, hw, List.length_append, Bool.not_true, Bool.false_or, decide_eq_true_eq]
    omega
  refine ⟨s.modConn n.val (Conn.freed · b s.cycle seq), ?_, ?_⟩
  · change execDarudAckReceive n seq s = _
    rw [execDarudAckReceive, hleft, if_neg hlen]
    rfl
  · rw [conn_modConn_self _ h0 (connId_le n)]
    exact ⟨rfl, rfl, rfl⟩

theorem nack_backs_off {seq : Nat} (late : Bool) (hlive : (s.conn n.val).live = true) (hw : ∃ w ∈ (s.conn n.val).window, w.2.seq = seq) :
    ∃ t, exec (.darudNackReceive n seq late) s = .next t ∧
      t.conn n.val = { s.conn n.val with
        backoff := some (s.cycle + (s.conn n.val).bo * 2 ^ Nat.min 6 (s.conn n.val).nacks, seq), late := late, nacks := (s.conn n.val).nacks + 1 } ∧
      t.col.out = s.col.out := by
  have hany : ((s.conn n.val).window.any fun w => w.2.seq = seq) = true := by simpa using hw
  refine ⟨s.modConn n.val fun k =>
    { k with backoff := some (s.cycle + k.bo * 2 ^ Nat.min 6 k.nacks, seq), late := late, nacks := k.nacks + 1 }, ?_,
    conn_modConn_self s h0 (connId_le n) _, (modConn_leaves ..).1⟩
  change execDarudNackReceive n seq late s = _
  rw [execDarudNackReceive, hlive, hany, if_neg (by simp)]

omit h0 in
theorem exec_backoffExpire {b : Nat × Nat} (hd : s.backoffDue n.val = true) (hb : (s.conn n.val).backoff = some b) :
    exec (.backoffExpire n) s = .next (s.resend n.val b.2 (s.conn n.val).late) := by
  change execBackoffExpire n s = _
  simp [execBackoffExpire, hb, hd]

omit h0 in
theorem exec_retransmitTimeout {w : Nat × Packet} {rest : List (Nat × Packet)} (hd : s.rtoDue n.val = true)
    (hw : (s.conn n.val).window = w :: rest) : exec (.retransmitTimeout n) s = .next (s.resend n.val w.2.seq false) := by
  change execRetransmitTimeout n s = _
  simp [execRetransmitTimeout, hw, hd]

omit h0 in
theorem exec_ackTimer (hd : s.ackDue n.val = true) : exec (.ackTimer n) s = .next (s.ackNow n.val) := by
  change execAckTimer n s = _
  simp [execAckTimer, hd]

theorem replay_ends (hd : s.replayDue n.val = true) (hb : s.bounceNext n.val = none) :
    ∃ t, exec (.bounceReplay n) s = .next t ∧ (t.conn n.val).rpl = false ∧ (t.conn n.val).recvq = (s.conn n.val).recvq := by
  refine ⟨s.modConn n.val fun k => { k with rpl := false }, ?_, ?_⟩
  · change execBounceReplay n s = _
    simp [execBounceReplay, hd, hb]
  · rw [conn_modConn_self _ h0 (connId_le n)]
    exact ⟨rfl, rfl⟩

theorem replay_delivers {pos : Nat} (hd : s.replayDue n.val = true) (hb : s.bounceNext n.val = some pos) :
    ∃ u : State, exec (.bounceReplay n) s = .next u.colRun ∧ (u.conn n.val).recvq = (s.conn n.val).recvq ++ [s.bouncePacket pos] ∧
      u.byte (s.ringAt (pos + 16)) = 1 := by
  let s1 := s.writeMem false engUnit 0 (s.ringAt (pos + 16)) [BitVec.ofNat 8 1]
  refine ⟨s1.modConn n.val fun k => { k with recvq := k.recvq ++ [s.bouncePacket pos] }, ?_, ?_, ?_⟩
  · change execBounceReplay n s = _
    simp [execBounceReplay, hd, hb, s1]
  · rw [conn_modConn_self _ h0 (connId_le n), conn_of_conns (congrArg Col.conns (writeMem_col ..))]
  · have hbyte := (writeMem_zero s engUnit (s.ringAt (pos + 16)) [BitVec.ofNat 8 1]).1 (s.ringAt (pos + 16))
    rw [if_pos (by simp), Nat.sub_self] at hbyte
    exact (congrArg (sget · _) (modConn_leaves ..).2.2.2.1).trans hbyte

omit h0 in
theorem exec_connectionInvalidate : exec (.connectionInvalidate n) s = .next (s.clearConn n.val 2) := rfl

omit h0 in
theorem clearConn_ends {err : Nat} {o : ColOp} (ho : o ∈ s.col.ops) (hs : o.state ≠ 3) (hu : o.uses n.val = true) :
    OpEnded (s.clearConn n.val err).col.ops o.part o.idx err := by
  have hm : o ∈ s.users n.val := List.mem_filter.2 ⟨ho, by simp [hs, hu]⟩
  rw [clearConn_ops]
  exact endOps_ends ⟨o, ho, rfl, rfl⟩ hs hm err

theorem invalidate_clears : ∃ t, exec (.connectionInvalidate n) s = .next t ∧ (t.conn n.val).v = false ∧ (t.conn n.val).window = [] ∧
    (t.conn n.val).recvq = [] ∧ ∀ o ∈ s.col.ops, o.state ≠ 3 → o.uses n.val = true →
      ∃ o' ∈ t.col.ops, o'.part = o.part ∧ o'.idx = o.idx ∧ o'.state = 3 ∧ o'.err = 2 := by
  have hends := fun o (ho : o ∈ s.col.ops) hs hu => clearConn_ends (n := n) (err := 2) ho hs hu
  obtain ⟨hv, hw, hq⟩ := clearConn_conn s h0 (connId_le n) 2
  exact ⟨s.clearConn n.val 2, exec_connectionInvalidate, hv, hw, hq, hends⟩

end

/-- Settles O54. -/
theorem transportEvents : Obligations.TransportEvents := by
  intro s n p seq h0
  have hn : n.val ≤ 4095 := connId_le n
  refine ⟨fun hlive hopen hl => ⟨packet_queued h0 hlive hopen hl, ?_, fun u => packet_bounced h0 hlive hopen hl, ?_, ?_⟩, ?_,
    fun a b => ack_frees h0, fun late => nack_backs_off h0 late, fun b hd hb => ⟨?_, ?_⟩, fun w rest hd hw => ⟨?_, ?_⟩, fun hd => ?_,
    fun hd => ⟨replay_ends h0 hd, fun pos => replay_delivers h0 hd⟩, invalidate_clears h0⟩
  · exact fun hs hp hr => ⟨_, packet_refused h0 hlive hopen hl hs hp hr, rfl, rfl⟩
  · intro hb
    exact ⟨_, exec_darudPacketReceive_below h0 hlive hopen hl hb, ackNow_out, ackNow_keeps h0 hn⟩
  · exact fun hne hb => exec_darudPacketReceive_beyond h0 hlive hopen hl hne hb
  · exact fun hlive hopen hl => ⟨_, exec_darudPacketReceive_late h0 hlive hopen hl, rfl, rfl⟩
  · intro h
    obtain ⟨hout, hback, hwin, hrounds⟩ := resend_sends (seq := b.2) h0 hn h
    exact ⟨_, exec_backoffExpire hd hb, hout, hback, hwin, hrounds⟩
  · intro hl hm
    refine ⟨_, exec_backoffExpire hd hb, ?_⟩
    rw [hl]
    exact resend_fails h0 hn hm
  · intro h
    obtain ⟨hout, -, hwin, hrounds⟩ := resend_sends (seq := w.2.seq) (late := false) h0 hn (.inr h)
    exact ⟨_, exec_retransmitTimeout hd hw, hout, hwin, hrounds⟩
  · exact fun h => ⟨_, exec_retransmitTimeout hd hw, resend_fails h0 hn h⟩
  · exact ⟨_, exec_ackTimer hd, ackNow_out, ackNow_unacked h0 hn⟩

end Sys2Proof.Machine
end

section
/-! PROOFS. O55: the other events of the collective engine: frames, watched starts, completed operations, gangs and links, and the schedule of the
rings (R322, R326 to R329, R334). -/

namespace Sys2Proof.Machine

/-! ### FRAME_RECEIVE (R322) -/

theorem exec_frameReceive_drops (s : State) (port : Fin 2) {f : Frame} (h : f.ipv6Udp = false ∨ f.checksOk = false ∨ 4096 < FrameBody.payload f.body) :
    exec (.frameReceive port f) s = .next (s.dropFrame port) := by
  have hbad : (!f.ipv6Udp || !f.checksOk || decide (FrameBody.payload f.body > 4096)) = true := by
    rcases h with h | h | h <;> simp [h]
  change execFrameReceive port f s = _
  rw [execFrameReceive, if_pos hbad]

theorem dropFrame_counts (s : State) (port : Fin 2) :
    vget (s.dropFrame port).col.dropped port.val 0 = vget s.col.dropped port.val 0 + 1 := vget_vmod_self _ _ _ _ port.isLt

section
variable {s : State} {port : Fin 2} {f : Frame} (h6 : f.ipv6Udp = true) (hc : f.checksOk = true)
include h6 hc

theorem exec_frameReceive_darud {n : ConnId} {p : Packet} (hport : f.udpPort = s.col.dport) (hb : f.body = .darudData n p)
    (hlen : p.data.length ≤ 4096) (hmine : (s.conn n.val).port = port.val) :
    exec (.frameReceive port f) s = .next (s.darudEvent (.darudPacketReceive n p)) := by
  change execFrameReceive port f s = _
  simp [execFrameReceive, h6, hc, hb, hport, FrameBody.payload, Nat.not_lt.2 hlen, hmine]

theorem exec_frameReceive_management {d : List Byte} (hd : f.udpPort ≠ s.col.dport) (h319 : f.udpPort ≠ 319) (h320 : f.udpPort ≠ 320)
    (hport : f.udpPort = s.col.mport) (hst : s.host.stage = 4) (hb : f.body = .management d) :
    exec (.frameReceive port f) s = .next { s with col := { s.col with mgmt := s.col.mgmt ++ [d] } } := by
  change execFrameReceive port f s = _
  rw [execFrameReceive]
  simp only [h6, hc, hb, FrameBody.payload, hd, h319, h320]
  simp [hport, hst]

end

/-! ### WATCHED_START (R329) -/

section
variable {s : State} {c : CoreId} {x : CtxId} {q : Nat × Nat × Nat × Nat}
  (hq : (s.ctx c x).pendWatch.find? (fun q => q.2.2.2 ≤ s.cycle) = some q)

/-- The start leaves the list of those that are due. -/
def State.unwatched (s : State) (c : CoreId) (x : CtxId) (q : Nat × Nat × Nat × Nat) : State :=
  s.modCtx c x fun k => { k with pendWatch := k.pendWatch.erase q }

/-- The acquire under which a watched start reads its descriptor (R300). -/
def State.watchAcq (s : State) (c : CoreId) (x : CtxId) (q : Nat × Nat × Nat × Nat) : Acq :=
  if q.2.1 = 1 then { (s.unwatched c x q).acqNow with scope := 3, floors := (s.ctx c x).acq.floors } else { Acq.first with floors := (s.ctx c x).acq.floors }

/-- The unit that reads it. -/
def watchUnit (c : CoreId) (x : CtxId) : UnitId := { core := c, ctx := x, path := 4, chan := 2 ^ 34 }

theorem partOf_modCtx (s : State) (c c' : CoreId) (x x' : CtxId) (f : Ctx → Ctx) : (s.modCtx c x f).partOf c' x' = s.partOf c' x' := by
  by_cases h : c' = c
  · subst h
    simp only [State.partOf, State.grant, State.core_modCtx_self]
    rfl
  · simp only [State.partOf, State.grant, State.core_modCtx_ne _ _ _ _ _ h]

include hq

theorem exec_watchedStart_fenced (hp : s.partOpen (s.partOf c x) = false) : exec (.watchedStart c x) s = .next (s.unwatched c x q) := by
  change execWatchedStart c x s = _
  unfold State.unwatched
  simp only [execWatchedStart, hq, partOf_modCtx, hp, Bool.not_false, if_true]

section
variable (hp : s.partOpen (s.partOf c x) = true)
include hp

theorem exec_watchedStart_unbound (hd : (s.unwatched c x q).dramHandle c x q.2.2.1 32 true false = none) :
    exec (.watchedStart c x) s = .next ((s.unwatched c x q).modCtx c x Ctx.colRefused) := by
  change execWatchedStart c x s = _
  unfold State.unwatched at hd ⊢
  simp only [execWatchedStart, hq, partOf_modCtx, hp, hd, Bool.not_true, Bool.false_eq_true, if_false]

section
variable {i : HInfo} {bs : List Byte} {s1 : State} (hd : (s.unwatched c x q).dramHandle c x q.2.2.1 32 true false = some i)
  (hr : (s.unwatched c x q).readVa (watchUnit c x) (some 6) 0 (s.watchAcq c x q) false q.2.2.1 (i.base + haddrO q.2.2.1) 32 = (.ok bs, s1))
include hd hr

theorem exec_watchedStart_refused
    (ha : s1.descAccept (colOpOf c x (s.partOf c x) (s1.nextOpIdx (s.partOf c x)) (s1.ctx c x).task (some q.1) (s.watchAcq c x q) bs) bs = false) :
    exec (.watchedStart c x) s = .next (s1.modCtx c x Ctx.colRefused) := by
  change execWatchedStart c x s = _
  unfold watchUnit at hr
  unfold State.watchAcq at hr ha
  unfold State.unwatched at hd hr ha
  simp only [execWatchedStart, hq, partOf_modCtx, hp, hd, hr, ha, Bool.not_true, Bool.false_eq_true, if_false, Bool.not_false, Bool.true_or, if_true]

theorem exec_watchedStart_starts {s2 : State}
    (ha : s1.descAccept (colOpOf c x (s.partOf c x) (s1.nextOpIdx (s.partOf c x)) (s1.ctx c x).task (some q.1) (s.watchAcq c x q) bs) bs = true)
    (ho : s1.opsOpen < 256) (hl : s1.dispLog (s.partOf c x) 8 (s1.taskNum c x) (s1.taskNum c x) 0 [] [] = (true, s2)) :
    exec (.watchedStart c x) s = .next (((s2.queueOp
      (colOpOf c x (s.partOf c x) (s1.nextOpIdx (s.partOf c x)) (s1.ctx c x).task (some q.1) (s.watchAcq c x q) bs)).modCtx c x fun k =>
        { k with clidx := s1.nextOpIdx (s.partOf c x) }).colRun) := by
  change execWatchedStart c x s = _
  unfold watchUnit at hr
  unfold State.watchAcq at hr ha
  unfold State.watchAcq
  unfold State.unwatched at hd hr ha ⊢
  simp only [execWatchedStart, hq, partOf_modCtx, hp, hd, hr, ha, hl, Bool.not_true, Bool.false_eq_true, if_false, Bool.false_or, ge_iff_le,
    decide_eq_true_eq, if_neg (Nat.not_le.2 ho)]
  rfl

theorem watchedStart_starts
    (ha : s1.descAccept (colOpOf c x (s.partOf c x) (s1.nextOpIdx (s.partOf c x)) (s1.ctx c x).task (some q.1) (s.watchAcq c x q) bs) bs = true)
    (ho : s1.opsOpen < 256) (hrep : (s1.part (s.partOf c x)).replay = none) :
    let o := colOpOf c x (s.partOf c x) (s1.nextOpIdx (s.partOf c x)) (s1.ctx c x).task (some q.1) (s.watchAcq c x q) bs
    ∃ u : State, exec (.watchedStart c x) s = .next u.colRun ∧ o ∈ u.col.ops ∧ o.state = 1 ∧ (u.ctx c x).clidx = o.idx := by
  obtain ⟨s2, hl, -⟩ := dispLog_plain hrep 8 (s1.taskNum c x) (s1.taskNum c x) 0 [] []
  refine ⟨_, exec_watchedStart_starts hq hp hd hr ha ho hl, List.mem_append_right _ (List.mem_singleton.2 rfl), rfl, ?_⟩
  rw [State.ctx_modCtx_self]
  rfl

end
end
end

/-! ### COLLECTIVE_OP_COMPLETE (R326, R327) -/

theorem lineParts_within (fuel pa off n : Nat) : ∀ p ∈ lineParts fuel pa off n, off ≤ p.1 ∧ p.1 + p.2 ≤ off + n := by
  induction fuel generalizing off n with
  | zero => exact fun _ h => by cases h
  | succ fuel ih =>
    unfold lineParts
    split
    · exact fun _ h => by cases h
    · dsimp only
      have hm : Nat.min n (64 - (pa + off) % 64) ≤ n := Nat.min_le_left ..
      intro p hp
      rcases List.mem_cons.1 hp with rfl | hp
      · exact ⟨Nat.le_refl _, by dsimp only; omega⟩
      · have := ih _ _ p hp
        omega

theorem length_freeBytes (s : State) (n : Nat) : (s.freeBytes n).1.length = n := by simp [State.freeBytes]

/-- Bytes that become undefined lie in their range. -/
theorem spoilPhys_byte (s : State) (u : UnitId) (pa key n : Nat) {a : Nat} (ha : ¬(pa ≤ a ∧ a < pa + n)) :
    (s.spoilPhys u 0 pa key n).byte a = s.byte a := by
  have hw := lineParts_within (n / 64 + 2) pa 0 n
  unfold State.spoilPhys
  generalize lineParts (n / 64 + 2) pa 0 n = l at hw
  induction l generalizing s with
  | nil => rfl
  | cons p l ih =>
    obtain ⟨-, hp⟩ := hw p List.mem_cons_self
    rw [List.foldl_cons, ih _ fun q hq => hw q (List.mem_cons_of_mem _ hq)]
    split
    · rw [(writeMem_zero ..).1, length_freeBytes, if_neg (by omega)]
      rfl
    · rfl

theorem bucketSpoil_byte (s : State) (o : ColOp) (off n : Nat) {a : Nat} (ha : ∀ b ∈ s.bucketPieces o off n, ¬(b.1 ≤ a ∧ a < b.1 + b.2.2)) :
    (s.bucketSpoil o off n).byte a = s.byte a := by
  unfold State.bucketSpoil
  generalize s.bucketPieces o off n = l at ha
  induction l generalizing s with
  | nil => rfl
  | cons p l ih =>
    rw [List.foldl_cons, ih _ fun q hq => ha q (List.mem_cons_of_mem _ hq)]
    exact spoilPhys_byte _ _ _ _ _ (ha p List.mem_cons_self)

theorem bucketEnd_aside (s : State) (o : ColOp) : (s.bucketEnd o).aside = s.aside := by
  unfold State.bucketEnd
  dsimp only
  split
  · exact bucketSpoil_aside ..
  · split
    · exact (bucketSpoil_aside ..).trans (bucketSpoil_aside ..)
    · rfl

/-- An operation with its full count. -/
def ColOp.whole (o : ColOp) : ColOp := { o with done := o.count }

/-- The state in which a finished operation stands in the table with its full count. -/
def State.counted (s : State) (p : PartId) (idx : Nat) (o : ColOp) : State := (s.bucketEnd o).modOp p.val idx ColOp.whole

theorem counted_cores (s : State) (p : PartId) (idx : Nat) (o : ColOp) : (s.counted p idx o).cores = s.cores :=
  congrArg (fun r : Vector Core 128 × Col => r.1) (bucketEnd_aside s o)

theorem counted_ops (s : State) (p : PartId) (idx : Nat) (o : ColOp) :
    (s.counted p idx o).col.ops = s.col.ops.map fun q => if q.part = p.val && q.idx = idx then q.whole else q := by
  have h : (s.bucketEnd o).col.ops = s.col.ops := congrArg (fun r : Vector Core 128 × Col => r.2.ops) (bucketEnd_aside s o)
  rw [← h]
  rfl

theorem counted_opHeld (s : State) (p : PartId) (idx : Nat) (o q : ColOp) : (s.counted p idx o).opHeld q = s.opHeld q := by
  unfold State.opHeld State.partOf State.grant State.ctx State.core
  rw [counted_cores]

/-- An operation that ends without an error makes no byte undefined. -/
theorem endOp_ok_mem (s : State) (o : ColOp) : (s.endOp o 0).mem = s.mem := by
  unfold State.endOp
  (repeat' split) <;> simp_all [State.modOp]

/-- The flag update of an operation that ends without an error while its task is there. -/
theorem endOp_ok_flag {s : State} {o : ColOp} (h : o.state ≠ 3) (hh : s.opHeld o = true) (hfe : o.fe = true) :
    ((s.endOp o 0).core o.core).upds = (s.core o.core).upds ++
      [{ at_ := s.cycle, key := 7, flag := o.flag, add := false, val := 1, setter := 9, score := 0, ctx := o.ctx }] := by
  unfold State.endOp
  simp only [h, hh, hfe, if_false, if_true, Bool.not_true, Bool.false_eq_true]
  exact congrArg Core.upds (State.core_modCore_self ..)

section
variable {s : State} {p : PartId} {idx : Nat} {o : ColOp} (hf : s.col.ops.find? (fun o => o.part = p.val && o.idx = idx) = some o)
  (hfin : s.opFinished o = true)
include hf hfin

theorem exec_collectiveOpComplete : exec (.collectiveOpComplete p idx) s = .next ((s.counted p idx o).endOp o 0).colRun := by
  change execCollectiveOpComplete p idx s = _
  simp only [execCollectiveOpComplete, hf, hfin, Bool.not_true, Bool.false_eq_true, if_false]
  rfl

omit hf in
theorem finished_open : o.state ≠ 3 := by
  have h2 : o.state = 2 := by
    simp only [State.opFinished, Bool.and_eq_true, decide_eq_true_eq] at hfin
    exact hfin.1.1.1.1
  omega

omit hfin in
theorem found_key : o ∈ s.col.ops ∧ o.part = p.val ∧ o.idx = idx := by
  have h := List.find?_some hf
  simp only [Bool.and_eq_true, decide_eq_true_eq] at h
  exact ⟨List.mem_of_find?_eq_some hf, h⟩

theorem counted_ends : ∃ o' ∈ ((s.counted p idx o).endOp o 0).col.ops, o'.part = p.val ∧ o'.idx = idx ∧ o'.state = 3 ∧ o'.err = 0 ∧ o'.done = o'.count := by
  obtain ⟨hmem, hp, hi⟩ := found_key hf
  rw [endOp_col _ (finished_open hfin), counted_ops, List.map_map]
  refine ⟨_, List.mem_map_of_mem hmem, ?_⟩
  simp [ColOp.over, ColOp.whole, hp, hi]

theorem completes :
    ∃ (u : State) (o' : ColOp), exec (.collectiveOpComplete p idx) s = .next u.colRun ∧ o' ∈ u.col.ops ∧ o'.part = p.val ∧ o'.idx = idx ∧ o'.state = 3 ∧
      o'.err = 0 ∧ o'.done = o'.count ∧ (s.opHeld o = true → o.fe = true → ∃ v, (u.core o.core).upds = (s.core o.core).upds ++ [v] ∧ v.flag = o.flag ∧
        v.key = 7 ∧ v.add = false ∧ v.val = 1) ∧ (s.bucketForeign o = false → o.op ≠ 3 → u.mem = s.mem) ∧
      (s.bucketForeign o = true → ∀ a, (∀ b ∈ s.bucketPieces o 0 (o.count * opBytes o.op o.fmt), ¬(b.1 ≤ a ∧ a < b.1 + b.2.2)) → u.byte a = s.byte a) := by
  obtain ⟨o', hmem, hp, hi, hs, he, hd⟩ := counted_ends hf hfin
  refine ⟨(s.counted p idx o).endOp o 0, o', exec_collectiveOpComplete hf hfin, hmem, hp, hi, hs, he, hd, fun hh hfe => ?_, fun hno h3 => ?_, fun hyes a ha => ?_⟩
  · have hupds := endOp_ok_flag (s := s.counted p idx o) (finished_open hfin) ((counted_opHeld ..).trans hh) hfe
    rw [show (s.counted p idx o).core o.core = s.core o.core by rw [State.core, counted_cores, State.core]] at hupds
    exact ⟨_, hupds, rfl, rfl, rfl, rfl⟩
  · rw [endOp_ok_mem]
    simp only [State.counted, State.bucketEnd, hno, Bool.false_eq_true, if_false, h3]
    rfl
  · rw [State.byte, endOp_ok_mem]
    simp only [State.counted, State.bucketEnd, hyes, if_true]
    exact bucketSpoil_byte s o 0 _ ha

end

/-! ### Gangs (R334) -/

theorem clearConn_keeps {s : State} {part idx err : Nat} (h : OpEnded s.col.ops part idx err) (n : Nat) :
    OpEnded (s.clearConn n err).col.ops part idx err := by
  rw [clearConn_ops]
  exact endOps_keeps h _

theorem clearConn_conn_ne (s : State) {n m : Nat} (h : m ≠ n) (err : Nat) : (s.clearConn n err).conn m = s.conn m := by
  rw [State.clearConn, conn_modConn_ne _ h]
  exact conn_of_conns (endOps_conns s _ err) m

theorem clearConn_stays {s : State} {m : Nat} (h0 : m ≠ 0) (hm : m ≤ 4095) (h : (s.conn m).v = false) (n err : Nat) :
    ((s.clearConn n err).conn m).v = false := by
  by_cases hn : m = n
  · subst hn
    exact (clearConn_conn s h0 hm err).1
  · rwa [clearConn_conn_ne s hn]

/-- Every connection that a list names has V clear after the list is cleared. -/
theorem clearConns_conn {s : State} {m err : Nat} (h0 : m ≠ 0) (hm : m ≤ 4095) {l : List (Nat × Conn)} (h : ∃ p ∈ l, p.1 = m) :
    ((l.foldl (fun (t : State) p => t.clearConn p.1 err) s).conn m).v = false := by
  induction l generalizing s with
  | nil => obtain ⟨_, h, -⟩ := h; cases h
  | cons q l ih =>
    obtain ⟨p, hp, rfl⟩ := h
    rcases List.mem_cons.1 hp with rfl | hp
    · exact foldl_ind (fun t : State => (t.conn p.1).v = false) _ (fun t q ht => clearConn_stays h0 hm ht q.1 err) l _ (clearConn_conn s h0 hm err).1
    · exact ih ⟨p, hp, rfl⟩

theorem gAbort_ops {s : State} {o : ColOp} (ho : o ∈ s.col.ops) (hs : o.state ≠ 3) (hp : s.col.gpart.testBit o.part = true) :
    OpEnded s.gAbort.col.ops o.part o.idx 4 := by
  have hmine : o ∈ s.col.ops.filter fun o => o.state ≠ 3 && s.col.gpart.testBit o.part := List.mem_filter.2 ⟨ho, by simp [hs, hp]⟩
  exact foldl_ind (fun t : State => OpEnded t.col.ops o.part o.idx 4) _ (fun t p ht => clearConn_keeps ht p.1) _ _
    (endOps_ends ⟨o, ho, rfl, rfl⟩ hs hmine 4)

theorem gAbort_conn {s : State} {n : ConnId} (h0 : n.val ≠ 0) (hv : (s.conn n.val).v = true) (hp : s.col.gpart.testBit (s.conn n.val).part = true) :
    (s.gAbort.conn n.val).v = false := by
  refine clearConns_conn h0 (connId_le n) ?_
  cases hfind : s.col.conns.find? fun p => p.1 = n.val with
  | none =>
    rw [State.conn, hfind] at hv
    cases hv
  | some p =>
    have hk : s.conn n.val = p.2 := by rw [State.conn, hfind]; rfl
    rw [hk] at hv hp
    exact ⟨p, List.mem_filter.2 ⟨List.mem_of_find?_eq_some hfind, by simp [hv, hp]⟩, by simpa using List.find?_some hfind⟩

/-! ### The schedule of a ring (R326) -/

theorem chunk_congr {a b : ColOp} (hs : b.size = a.size) (hc : b.count = a.count) (c : Nat) : b.chunk c = a.chunk c := by
  simp only [ColOp.chunk, hs, hc]

/-- A place of the ring and the next one, `k` places back. -/
theorem ring_back {r n k : Nat} (hr : r < n) (hk : k ≤ n) : ((r + 1) % n + 2 * n - k) % n = (r + 1 + 2 * n - k) % n := by
  rcases Nat.lt_or_ge (r + 1) n with h | h
  · rw [Nat.mod_eq_of_lt h]
  · have hrn : r + 1 = n := by omega
    rw [hrn, Nat.mod_self, Nat.zero_add, show n + 2 * n - k = (2 * n - k) + n by omega, Nat.add_mod_right]

theorem ring_schedule {a b : ColOp} {k : Nat} (h1 : 1 ≤ a.op) (h3 : a.op ≤ 3) (hop : b.op = a.op) (hs : b.size = a.size) (hc : b.count = a.count)
    (h2 : 2 ≤ a.size) (hr : a.rank < a.size) (hb : b.rank = (a.rank + 1) % a.size) (hk : k < a.sends) : (b.recvAt k).1 = a.sendAt k := by
  have hring : opRings a.op = true := by simp [opRings, h1, h3]
  simp only [ColOp.sends, hring, if_true] at hk
  simp only [ColOp.recvAt, ColOp.sendAt, hring, hop, hs, hb, Bool.not_true, Bool.false_eq_true, if_false]
  by_cases hphase : (decide (a.op = 2) && decide (k ≥ a.size - 1)) = true
  · have hk2 : k - (a.size - 1) ≤ a.size := by split at hk <;> omega
    rw [if_pos hphase, if_pos hphase, ring_back hr hk2]
    exact chunk_congr hs hc _
  · have hk1 : k + 1 ≤ a.size := by
      simp only [Bool.and_eq_true, decide_eq_true_eq, not_and, ge_iff_le] at hphase
      split at hk <;> omega
    rw [if_neg hphase, if_neg hphase]
    have hback := ring_back hr hk1
    rw [show (a.rank + 1) % a.size + 2 * a.size - k - 1 = (a.rank + 1) % a.size + 2 * a.size - (k + 1) by omega, hback,
      show a.rank + 1 + 2 * a.size - (k + 1) = a.rank + 2 * a.size - k by omega]
    exact chunk_congr hs hc _

theorem chunks_cover {o : ColOp} (h : 0 < o.size) (c : Nat) :
    (o.chunk c).1 + (o.chunk c).2 = (o.chunk (c + 1)).1 ∧ (o.chunk 0).1 = 0 ∧ (o.chunk o.size).1 = o.count := by
  refine ⟨?_, by simp [ColOp.chunk], by simp [ColOp.chunk, Nat.mul_div_cancel_left _ h]⟩
  have hle : c * o.count / o.size ≤ (c + 1) * o.count / o.size := Nat.div_le_div_right (Nat.mul_le_mul_right _ (Nat.le_succ c))
  simp only [ColOp.chunk]
  omega

/-- Settles O55. -/
theorem collectiveEvents : Obligations.CollectiveEvents := by
  intro s port f
  refine ⟨fun h => ⟨_, exec_frameReceive_drops s port h, dropFrame_counts s port, rfl, rfl⟩, fun n p h6 hc hp hb hl hm => exec_frameReceive_darud h6 hc hp hb hl hm,
    fun d h6 hc hd h319 h320 hp hst hb => ⟨_, exec_frameReceive_management h6 hc hd h319 h320 hp hst hb, rfl, rfl⟩, fun c x q hq => ⟨?_, ?_, ?_⟩,
    fun p idx o hf hfin => completes hf hfin, ⟨_, rfl, rfl⟩, ⟨_, rfl, rfl⟩, ⟨_, rfl, ?_, ?_⟩, fun full => ⟨_, rfl, ?_, ?_, rfl⟩,
    fun a b k h1 h3 hop hs hc h2 hr hb hk => ring_schedule h1 h3 hop hs hc h2 hr hb hk, fun o c h => chunks_cover h c⟩
  · exact exec_watchedStart_fenced hq
  · intro hp hd
    refine ⟨_, exec_watchedStart_unbound hq hp hd, ?_⟩
    rw [State.ctx_modCtx_self, State.unwatched, State.ctx_modCtx_self]
    exact ⟨rfl, rfl, rfl, rfl⟩
  · intro i bs s1 hp hd hr
    refine ⟨fun ha => ⟨_, exec_watchedStart_refused hq hp hd hr ha, ?_⟩, watchedStart_starts hq hp hd hr⟩
    rw [State.ctx_modCtx_self]
    exact ⟨rfl, rfl, rfl⟩
  · exact fun o ho hs hp => gAbort_ops ho hs hp
  · exact fun n h0 hv hp => gAbort_conn h0 hv hp
  · exact Vector.getElem_set_self ..
  · exact Vector.getElem_set_self ..

end Sys2Proof.Machine
end

section
/-! PROOFS. O57: writes of the grants, of the carriers' registers and of the management block. A mask register is read through the bits that stand in
it (`bitsBelow`), a grant through the items it names (R333, R335, R336, R338, R341, R355). -/

namespace Sys2Proof.Machine

/-! ### Masks of items (R336) -/

theorem foldl_filter_bits (p q : Nat → Bool) (n : Nat) :
    ((List.range n).filter p).foldl (fun a i => if q i then a + 2 ^ i else a) 0 = bitsBelow (fun i => p i && q i) n := by
  rw [List.foldl_filter, bitsBelow]
  congr 1
  funext a i
  cases p i <;> simp

theorem and_mod_two (a b : Nat) : (a &&& b) % 2 = if a % 2 = 1 ∧ b % 2 = 1 then 1 else 0 := by
  have hm : (a &&& b) % 2 = a % 2 &&& b % 2 := Nat.and_mod_two_pow (n := 1)
  rcases Nat.mod_two_eq_zero_or_one a with ha | ha <;> rcases Nat.mod_two_eq_zero_or_one b with hb | hb <;> rw [hm, ha, hb] <;> rfl

/-- The items of one mask that another does not hold. -/
theorem testBit_sub_and (a b i : Nat) : (a - (a &&& b)).testBit i = (a.testBit i && !b.testBit i) := by
  have hm := and_mod_two a b
  have hle : a &&& b ≤ a := Nat.and_le_left
  induction i generalizing a b with
  | zero =>
    rw [Nat.testBit_zero, Nat.testBit_zero, Nat.testBit_zero, ← decide_not, ← Bool.decide_and, decide_eq_decide]
    split at hm <;> omega
  | succ i ih =>
    have hdiv : (a &&& b) / 2 = a / 2 &&& b / 2 := Nat.and_div_two
    have hhalf : (a - (a &&& b)) / 2 = a / 2 - (a / 2 &&& b / 2) := by
      rw [← hdiv]
      split at hm <;> omega
    rw [Nat.testBit_succ, hhalf, ih _ _ (and_mod_two ..) Nat.and_le_left, ← Nat.testBit_succ, ← Nat.testBit_succ]

/-- The flag blocks of a grant's word. -/
theorem testBit_word (g : Grant) {i : Nat} (hi : i < 8) : (g.word % 2 ^ 58).testBit i = g.fmask.testBit i := by
  have hlow : g.word % 2 ^ 8 = g.fmask % 2 ^ 8 := by
    simp only [Grant.word]
    omega
  have h := congrArg (Nat.testBit · i) hlow
  simp only [Nat.testBit_mod_two_pow, hi, decide_true, Bool.true_and] at h
  rw [Nat.testBit_mod_two_pow, h, decide_eq_true (by omega), Bool.true_and]

theorem testBit_items (g : Grant) {i : Nat} (hi : i < 8) : g.items.testBit i = (g.v && g.fmask.testBit i) := by
  unfold Grant.items
  split
  · next h => rw [testBit_word g hi, h, Bool.true_and]
  · next h => simp [h]

theorem hasFlag_items (g : Grant) (f : FlagNo) : g.hasFlag f.val = g.items.testBit (f.val / 8) :=
  (testBit_items g (by omega)).symm

theorem getElem_setMasked {α : Type} {n : Nat} (v : Vector α n) (mask : Nat) (a : α) (i : Fin n) :
    (setMasked v mask a)[i] = if mask.testBit i.val then a else v[i] := by
  simp [setMasked]

theorem resetItems_flags (k : Core) {items : Nat} (f : FlagNo) (h : items.testBit (f.val / 8) = true) : (k.resetItems items).flags[f] = 0 := by
  have hall : setBitsOf 64 (2 ^ 64 - 1) = (List.range 64).filter fun i => (2 ^ 64 - 1).testBit i := rfl
  have hbit : (bitsBelow (fun i => (2 ^ 64 - 1).testBit i && (bits items 0 8).testBit (i / 8)) 64).testBit f.val = true := by
    rw [testBit_bitsBelow, testBit_bits, Nat.testBit_two_pow_sub_one, Nat.add_zero, h]
    simp
    omega
  change (setMasked k.flags ((setBitsOf 64 (2 ^ 64 - 1)).foldl (fun a f => if (bits items 0 8).testBit (f / 8) then a + 2 ^ f else a) 0) 0)[f] = 0
  rw [getElem_setMasked, hall, foldl_filter_bits _ fun f => (bits items 0 8).testBit (f / 8), if_pos hbit]

/-! ### CGRANT (R336) -/

/-- What a context gains by a grant. -/
def Grant.gained (g old : Grant) : Nat := if g.part = old.part then g.items - (g.items &&& old.items) else g.items

theorem gained_flag {g old : Grant} {f : FlagNo} (h : g.hasFlag f.val = true) (hold : old.hasFlag f.val = false ∨ g.part ≠ old.part) :
    (g.gained old).testBit (f.val / 8) = true := by
  rw [hasFlag_items] at h hold
  unfold Grant.gained
  split
  · next hp => rw [testBit_sub_and, h, hold.resolve_right (not_not.2 hp)]; rfl
  · exact h

/-- The core after context `x` has taken grant `g`. -/
def Core.regrant (k : Core) (x : CtxId) (g : Grant) : Core :=
  let q := (k.resetItems (g.gained k.grants[x])).modCtx x Ctx.resetBanks
  { q with grants := q.grants.set x g }

/-- Grant `g` for context `x` shares nothing with another context of the core, and takes nothing from one that is not EMPTY. -/
def State.grantFree (s : State) (c : CoreId) (x : CtxId) (g : Grant) : Prop :=
  ∀ y, y ≠ x → g.items &&& (s.grant c y).items = 0 ∧ ¬(g.v = true ∧ (s.grant c y).v = true ∧ g.part = (s.grant c y).part) ∧
    ((s.ctx c y).phase = .empty ∨ g.word % 2 ^ 58 &&& (s.grant c y).word % 2 ^ 58 = 0)

/-- The model's test of the other contexts. -/
def State.grantClash (s : State) (c : CoreId) (x : CtxId) (g : Grant) : Bool :=
  ((List.finRange 4).filter (· ≠ x)).any fun y =>
    g.items &&& (s.grant c y).items ≠ 0 || (g.v && (s.grant c y).v && g.part = (s.grant c y).part) ||
      ((if g.v then g.word % 2 ^ 58 else 0) &&& ((s.grant c y).word % 2 ^ 58) ≠ 0 && ((s.core c).ctx y).phase ≠ .empty)

/-- The state after the context has taken its grant: a task may start. -/
def State.regrant (s : State) (c : CoreId) (x : CtxId) (g : Grant) : State :=
  let t := (s.modCore c fun k => (k.resetItems (g.gained (s.grant c x))).modCtx x fun q => q.resetBanks).modCore c fun k => { k with grants := k.grants.set x g }
  { t with disp := { t.disp with select := true } }

theorem regrant_core (s : State) (c : CoreId) (x : CtxId) (g : Grant) : (s.regrant c x g).core c = (s.core c).regrant x g := by
  have h : ((s.modCore c fun k => (k.resetItems (g.gained (s.grant c x))).modCtx x fun q => q.resetBanks).modCore c fun k =>
      { k with grants := k.grants.set x g }).core c = (s.core c).regrant x g := by
    rw [State.modCore_modCore, State.core_modCore_self]
    rfl
  exact h

theorem cgrantWrite_eq (s : State) (c : CoreId) (x : CtxId) (v : Nat) : s.cgrantWrite c x v =
    if s.grantClash c x (grantOf v) || (grantOf v ≠ s.grant c x && ((s.core c).ctx x).phase ≠ .empty) then { s with mg := { s.mg with gerr := true } }
    else if grantOf v = s.grant c x then s
    else s.regrant c x (grantOf v) := rfl

theorem grantClash_false {s : State} {c : CoreId} {x : CtxId} {g : Grant} (h : s.grantFree c x g) : s.grantClash c x g = false := by
  simp only [State.grantClash, List.any_eq_false, List.mem_filter, decide_eq_true_eq]
  rintro y ⟨-, hy⟩
  obtain ⟨hi, hp, he⟩ := h y hy
  have hp' : (g.v && (s.grant c y).v && decide (g.part = (s.grant c y).part)) = false := by
    by_contra hn
    rw [Bool.not_eq_false, Bool.and_eq_true, Bool.and_eq_true, decide_eq_true_eq] at hn
    exact hp ⟨hn.1.1, hn.1.2, hn.2⟩
  rw [hp', hi]
  rcases he with he | he
  · have he' : ((s.core c).ctx y).phase = .empty := he
    simp [he']
  · have he' : decide ((if g.v then g.word % 2 ^ 58 else 0) &&& (s.grant c y).word % 2 ^ 58 ≠ 0) = false := by
      refine decide_eq_false (not_not.2 ?_)
      split
      · exact he
      · exact Nat.zero_and _
    rw [he']
    simp

theorem grantClash_true {s : State} {c : CoreId} {x y : CtxId} {g : Grant} (hy : y ≠ x) (h : g.items &&& (s.grant c y).items ≠ 0) :
    s.grantClash c x g = true := by
  refine List.any_eq_true.2 ⟨y, List.mem_filter.2 ⟨List.mem_finRange y, by simpa using hy⟩, ?_⟩
  simp [h]

theorem cgrantWrite_takes {s : State} {c : CoreId} {x : CtxId} {v : Word} (hne : grantOf v.toNat ≠ s.grant c x) (hx : (s.ctx c x).phase = .empty)
    (hfree : s.grantFree c x (grantOf v.toNat)) :
    ∃ t, exec (.cgrantWrite c x v) s = .next t ∧ t.core c = (s.core c).regrant x (grantOf v.toNat) ∧ t.mg = s.mg := by
  have hx' : ((s.core c).ctx x).phase = .empty := hx
  refine ⟨s.cgrantWrite c x v.toNat, rfl, ?_, ?_⟩
  · rw [cgrantWrite_eq, grantClash_false hfree, hx', if_neg (by simp), if_neg hne, regrant_core]
  · rw [cgrantWrite_eq, grantClash_false hfree, hx', if_neg (by simp), if_neg hne]
    rfl

theorem regrant_grants (k : Core) (x : CtxId) (g : Grant) : (k.regrant x g).grants[x] = g ∧ ∀ y, y ≠ x → (k.regrant x g).grants[y] = k.grants[y] := by
  refine ⟨Vector.getElem_set_self .., fun y hy => ?_⟩
  have hval : x.val ≠ y.val := fun e => hy (Fin.ext e.symm)
  exact Vector.getElem_set_ne x.isLt y.isLt hval

theorem regrant_flags (k : Core) (x : CtxId) {g : Grant} {f : FlagNo} (h : g.hasFlag f.val = true)
    (hold : k.grants[x].hasFlag f.val = false ∨ g.part ≠ k.grants[x].part) : (k.regrant x g).flags[f] = 0 :=
  resetItems_flags k f (gained_flag h hold)

theorem regrant_banks (k : Core) (x : CtxId) (g : Grant) :
    ((k.regrant x g).ctx x).bankAt 1 = Bank.reset ∧ ((k.regrant x g).ctx x).bankAt 2 = Bank.reset := by
  have h : (k.regrant x g).ctx x = ((k.resetItems (g.gained k.grants[x])).ctx x).resetBanks := Core.ctx_modCtx_self ..
  rw [h]
  constructor <;> simp [Ctx.bankAt, Ctx.resetBanks, vget]

theorem cgrantWrite_refused {s : State} {c : CoreId} {x : CtxId} {v : Word}
    (h : (grantOf v.toNat ≠ s.grant c x ∧ (s.ctx c x).phase ≠ .empty) ∨ ∃ y, y ≠ x ∧ (grantOf v.toNat).items &&& (s.grant c y).items ≠ 0) :
    ∃ t, exec (.cgrantWrite c x v) s = .next t ∧ t.mg.gerr = true ∧ t.cores = s.cores := by
  have hbad : (s.grantClash c x (grantOf v.toNat) || (grantOf v.toNat ≠ s.grant c x && ((s.core c).ctx x).phase ≠ .empty)) = true := by
    rcases h with ⟨hne, hx⟩ | ⟨y, hy, hi⟩
    · have hx' : ((s.core c).ctx x).phase ≠ .empty := hx
      simp [hne, hx']
    · rw [grantClash_true hy hi, Bool.true_or]
  refine ⟨s.cgrantWrite c x v.toNat, rfl, ?_⟩
  rw [cgrantWrite_eq, if_pos hbad]
  exact ⟨rfl, rfl⟩

/-! ### PFLOOR, CARBD, CARBP and DSEL (R333, R341, R355) -/

/-- Floors of a class over all partitions. -/
def floorsOf (f : Nat → Nat) (k : Nat) : Nat := ((List.range 16).map fun i => f i / 2 ^ (8 * k) % 256).sum

theorem floorSum_eq (s : State) (k p v : Nat) : s.floorSum k p v = floorsOf (fun i => if i = p then v else (s.part i).floor) k := rfl

theorem floorSum_all (s : State) (k : Nat) : s.floorSum k 16 0 = floorsOf (fun i => (s.part i).floor) k := by
  rw [floorSum_eq]
  unfold floorsOf
  refine congrArg List.sum (List.map_congr_left fun i hi => ?_)
  dsimp only
  have hlt := List.mem_range.1 hi
  rw [if_neg (show ¬i = 16 by omega)]

theorem any_range_four {p : Nat → Bool} : (List.range 4).any p = false ↔ ∀ k, k < 4 → p k = false := by
  simp only [List.any_eq_false, List.mem_range, Bool.not_eq_true]

theorem part_modPart_self (s : State) (p : PartId) (f : Part → Part) : (s.modPart p.val f).part p.val = f (s.part p.val) :=
  vget_vmod_self _ _ _ _ p.isLt

theorem pfloorWrite_takes {s : State} {p : PartId} {v : Word}
    (h : ∀ k, k < 4 → floorsOf (fun i => if i = p.val then v.toNat else (s.part i).floor) k ≤ classShare s.col.carbd k) :
    ∃ t, exec (.pfloorWrite p v) s = .next t ∧ t.part p.val = { s.part p.val with floor := v.toNat % 2 ^ 32 } := by
  have hany : ((List.range 4).any fun k => s.floorSum k p.val v.toNat > classShare s.col.carbd k) = false :=
    any_range_four.2 fun k hk => decide_eq_false (Nat.not_lt.2 (h k hk))
  refine ⟨s.pfloorWrite p.val v.toNat, rfl, ?_⟩
  rw [State.pfloorWrite, hany, if_neg (by simp)]
  exact part_modPart_self ..

theorem pfloorWrite_refused {s : State} {p : PartId} {v : Word} {k : Nat} (hk : k < 4)
    (h : classShare s.col.carbd k < floorsOf (fun i => if i = p.val then v.toNat else (s.part i).floor) k) :
    ∃ t, exec (.pfloorWrite p v) s = .next t ∧ t.mg.gerr = true ∧ t.part p.val = s.part p.val := by
  have hany : ((List.range 4).any fun k => s.floorSum k p.val v.toNat > classShare s.col.carbd k) = true :=
    List.any_eq_true.2 ⟨k, List.mem_range.2 hk, decide_eq_true h⟩
  refine ⟨s.pfloorWrite p.val v.toNat, rfl, ?_⟩
  rw [State.pfloorWrite, hany, if_pos rfl]
  exact ⟨rfl, rfl⟩

section
variable {s : State} {v : Word}

/-- No class's floors exceed the share that a value gives it. -/
def State.floorsFit (s : State) (v : Nat) : Prop := ∀ k, k < 4 → floorsOf (fun i => (s.part i).floor) k ≤ classShare v k

theorem carbdWrite_fits (h : s.floorsFit v.toNat) : exec (.carbdWrite v) s =
    if ((List.range 4).map fun k => bits v.toNat (4 * k) 4).sum > 16 then .next s else .next { s with col := { s.col with carbd := v.toNat % 2 ^ 16 } } := by
  have hany : ((List.range 4).any fun k => s.floorSum k 16 0 > classShare v.toNat k) = false :=
    any_range_four.2 fun k hk => decide_eq_false (by rw [floorSum_all]; exact Nat.not_lt.2 (h k hk))
  change Host.Outcome.next (s.carbdWrite v.toNat) = _
  rw [State.carbdWrite, hany, if_neg (by simp)]
  split <;> rfl

theorem carbdWrite_refused {k : Nat} (hk : k < 4) (h : classShare v.toNat k < floorsOf (fun i => (s.part i).floor) k) :
    ∃ t, exec (.carbdWrite v) s = .next t ∧ t.mg.gerr = true ∧ t.col.carbd = s.col.carbd := by
  have hany : ((List.range 4).any fun k => s.floorSum k 16 0 > classShare v.toNat k) = true :=
    List.any_eq_true.2 ⟨k, List.mem_range.2 hk, decide_eq_true (by rw [floorSum_all]; exact h)⟩
  refine ⟨s.carbdWrite v.toNat, rfl, ?_⟩
  rw [State.carbdWrite, hany, if_pos rfl]
  exact ⟨rfl, rfl⟩

theorem exec_carbpWrite : exec (.carbpWrite v) s =
    if v.toNat % 16 + v.toNat / 16 % 16 > 16 then .next s else .next { s with col := { s.col with carbp := v.toNat % 256 } } := by
  change Host.Outcome.next (s.carbpWrite v.toNat) = _
  rw [State.carbpWrite, bits_zero]
  change Host.Outcome.next (if v.toNat % 16 + v.toNat / 16 % 16 > 16 then _ else _) = _
  split <;> rfl

theorem dselWrite_clears (die : Fin 8) (i : Fin 16) :
    ∃ t, exec (.dselWrite die i v) s = .next t ∧ (t.obs.dcnt[die])[i].sel = v.toNat &&& 0xCFFF ∧ (t.obs.dcnt[die])[i].cnt = 0 ∧
      ∀ j : Fin 16, j ≠ i → (t.obs.dcnt[die])[j] = (s.obs.dcnt[die])[j] := by
  have hdie : (s.dselWrite die.val i.val v.toNat).obs.dcnt[die] =
      (s.obs.dcnt[die]).set i { sel := v.toNat &&& 0xCFFF, cnt := 0, win := Vector.replicate 3 0 } := by
    simp [State.dselWrite, vmod]
  refine ⟨s.dselWrite die.val i.val v.toNat, rfl, ?_, ?_, fun j hj => ?_⟩
  · rw [hdie]; simp
  · rw [hdie]; simp
  · have hval : i.val ≠ j.val := fun e => hj (Fin.ext e.symm)
    rw [hdie]
    exact Vector.getElem_set_ne _ _ hval

end

/-! ### The management block (R335, R338) -/

theorem outside_low {v : Nat} : outside v [(0, 32)] = true ↔ ∃ i, 32 ≤ i ∧ i < 64 ∧ v.testBit i = true := by
  simp only [outside, setBitsOf, List.any_eq_true, List.mem_filter, List.mem_range, List.any_cons, List.any_nil, Bool.or_false, Bool.not_eq_true',
    Bool.and_eq_false_iff, decide_eq_false_iff_not, Nat.zero_le, not_true_eq_false, false_or, Nat.zero_add, Nat.not_lt]
  exact ⟨fun ⟨i, ⟨h64, hb⟩, h32⟩ => ⟨i, h32, h64, hb⟩, fun ⟨i, h32, h64, hb⟩ => ⟨i, ⟨h64, hb⟩, h32⟩⟩

theorem outside_of_large {v : Word} (h : 2 ^ 32 ≤ v.toNat) : outside v.toNat [(0, 32)] = true := by
  obtain ⟨i, hi, hb⟩ := Nat.exists_ge_and_testBit_of_ge_two_pow h
  refine outside_low.2 ⟨i, hi, ?_, hb⟩
  by_contra hn
  have hlt : v.toNat < 2 ^ i := Nat.lt_of_lt_of_le v.isLt (Nat.pow_le_pow_right (by omega) (by omega))
  rw [Nat.testBit_lt_two_pow hlt] at hb
  cases hb

/-- A value whose bits all lie in the fields keeps them. -/
theorem maskFields_id {v : Nat} (hv : v < 2 ^ 64) {fs : List (Nat × Nat)}
    (h : ∀ i, v.testBit i = true → (fs.any fun f => f.1 ≤ i && i < f.1 + f.2) = true) : maskFields v fs = v := by
  refine Nat.eq_of_testBit_eq fun i => ?_
  unfold maskFields setBitsOf
  rw [foldl_filter_bits _ fun i => fs.any fun f => f.1 ≤ i && i < f.1 + f.2, testBit_bitsBelow]
  cases hb : v.testBit i with
  | false => simp
  | true =>
    have hi : i < 64 := by
      by_contra hn
      rw [Nat.testBit_lt_two_pow (Nat.lt_of_lt_of_le hv (Nat.pow_le_pow_right (by omega) (by omega)))] at hb
      cases hb
    simp [hi, h i hb]

section
variable {s : State} {v : Word}

theorem registerWrite_traps {c : CoreId} {x : CtxId} {off : Nat}
    (h : (s.ctx c x).pl < 2 ∨ off % 8 ≠ 0 ∨ (off = 0x110 ∧ 2 ^ 32 ≤ v.toNat)) :
    exec (.registerWrite (.ctl c x) off v) s = .next { s with cur := { core := c, ctx := x, tag := .ctl } }.trapRange := by
  have hbad : (decide ((s.ctx c x).pl < 2) || decide (off % 8 ≠ 0) || outside v.toNat (blockFields off)) = true := by
    rcases h with h | h | ⟨rfl, h⟩
    · simp [h]
    · simp [h]
    · rw [show blockFields 0x110 = [(0, 32)] from rfl, outside_of_large h, Bool.or_true]
  change execRegisterWrite (.ctl c x) off v s = _
  simp only [execRegisterWrite, hbad, if_true]

/-- A write with no reserved bit set reaches the block, through handle 4094 or PF0's BAR. -/
theorem registerWrite_reaches {c : CoreId} {x : CtxId} {who : Access} (hw : who = .ctl c x ∨ who = .pf0) (hpl : who = .ctl c x → 2 ≤ (s.ctx c x).pl)
    (hh : s.host.halted0 = false) (hv : v.toNat < 2 ^ 32) {off : Nat} (ho : off ∈ [0x100, 0x110, 0x118]) :
    exec (.registerWrite who off v) s = .next (s.blockWrite off v.toNat) := by
  have hbits : ∀ i, v.toNat.testBit i = true → i < 32 := fun i hb => by
    by_contra hn
    rw [Nat.testBit_lt_two_pow (Nat.lt_of_lt_of_le hv (Nat.pow_le_pow_right (by omega) (by omega)))] at hb
    cases hb
  have hfields : ∀ i, v.toNat.testBit i = true → ((blockFields off).any fun f => f.1 ≤ i && i < f.1 + f.2) = true := by
    intro i hb
    have hi := hbits i hb
    have hf : blockFields off = [(0, 64)] ∨ blockFields off = [(0, 32)] := by
      simp only [List.mem_cons, List.not_mem_nil, or_false] at ho
      rcases ho with rfl | rfl | rfl
      · exact .inl rfl
      · exact .inr rfl
      · exact .inr rfl
    rcases hf with hf | hf <;> rw [hf] <;> simp <;> omega
  have hout : outside v.toNat (blockFields off) = false := by
    rw [outside, List.any_eq_false]
    intro i hi
    rw [hfields i (List.mem_filter.1 hi).2]
    simp
  have hsmall : off < 0x80000 ∧ off % 8 = 0 := by
    simp only [List.mem_cons, List.not_mem_nil, or_false] at ho
    omega
  rcases hw with rfl | rfl
  · change execRegisterWrite (.ctl c x) off v s = _
    simp only [execRegisterWrite, hout, Nat.not_lt.2 (hpl rfl), hsmall.2, decide_false, ne_eq, not_true_eq_false, Bool.or_false, Bool.false_eq_true, if_false]
  · change Host.Outcome.next (s.pf0Write off v.toNat) = _
    rw [State.pf0Write, hh, if_neg (by simp), if_pos hsmall.1, maskFields_id v.isLt hfields]

theorem pcmdWrite_starts (hb : s.mg.busy = false) : s.blockWrite 0x100 v.toNat =
    { s with mg := { s.mg with pcmd := v, busy := true, err := 0, causeCode := 0, detail := 0, running := 1 } } := by
  change s.pcmdWrite v.toNat = _
  rw [State.pcmdWrite, hb, BitVec.ofNat_toNat, BitVec.setWidth_eq]
  rfl

theorem pcmdWrite_ignored (hb : s.mg.busy = true) : s.blockWrite 0x100 v.toNat = s := by
  change s.pcmdWrite v.toNat = _
  rw [State.pcmdWrite, hb]
  rfl

end

/-- Settles O57. -/
theorem registerWrites : Obligations.RegisterWrites := by
  intro s c x p v
  refine ⟨fun hne hx hfree => ?_, cgrantWrite_refused, pfloorWrite_takes, fun k hk h => pfloorWrite_refused hk h, ⟨?_, ?_, fun k hk h => carbdWrite_refused hk h⟩,
    ?_, ?_, dselWrite_clears, ?_, ?_⟩
  · obtain ⟨t, ht, hcore, hmg⟩ := cgrantWrite_takes hne hx hfree
    have hgrants : ∀ y, t.grant c y = ((s.core c).regrant x (grantOf v.toNat)).grants[y] := fun y => by rw [State.grant, hcore]
    have hctx : t.ctx c x = ((s.core c).regrant x (grantOf v.toNat)).ctx x := by rw [State.ctx, hcore]
    refine ⟨t, ht, (hgrants x).trans (regrant_grants ..).1, fun y hy => (hgrants y).trans ((regrant_grants ..).2 y hy), by rw [hmg], fun f hf hold => ?_, ?_⟩
    · rw [hcore]
      exact regrant_flags (s.core c) x hf hold
    · rw [hctx]
      exact regrant_banks ..
  · intro hsum hfit
    exact (carbdWrite_fits hfit).trans (if_pos hsum)
  · intro hsum hfit
    exact ⟨_, (carbdWrite_fits hfit).trans (if_neg (Nat.not_lt.2 hsum)), rfl⟩
  · intro h
    rw [exec_carbpWrite, if_pos h]
  · intro h
    exact ⟨_, by rw [exec_carbpWrite, if_neg (Nat.not_lt.2 h)], rfl⟩
  · exact fun off h hl => ⟨_, registerWrite_traps h, trapped_range hl⟩
  · intro who hwho hpl hh hv
    have hw : who = .ctl c x ∨ who = .pf0 := by simpa using hwho
    refine ⟨⟨_, registerWrite_reaches hw hpl hh hv (by simp), Nat.mod_eq_of_lt hv, rfl⟩, ⟨_, registerWrite_reaches hw hpl hh hv (by simp), Nat.mod_eq_of_lt hv, rfl⟩,
      fun hb => ?_, fun hb => ?_⟩
    · exact ⟨_, (registerWrite_reaches hw hpl hh hv (by simp)).trans (congrArg _ (pcmdWrite_starts hb)), rfl, rfl, rfl, rfl⟩
    · exact ⟨_, (registerWrite_reaches hw hpl hh hv (by simp)).trans (congrArg _ (pcmdWrite_ignored hb)), rfl⟩

end Sys2Proof.Machine
end

section
/-! PROOFS. What an access through a handle may change (R14, R228, R230, R292): memory and its history, TLBs, handle caches, counters and pending
traps (`Traffic`); of every core all else, the units of the base dies and the host's memory stay (`State.still`). -/

namespace Sys2Proof.Machine

/-! ### What stays -/

/-- A core without its contexts, TLBs and key mismatches. -/
def Core.still (k : Core) : Core := { k with ctxs := Vector.replicate 4 Ctx.reset, tlb := [], stlb := Vector.replicate 6 [], keyFaults := [] }

/-- The units, the host's memory, and of every core what no access changes. -/
def State.still (s : State) : (Mgmt × Obs × HostIf) × Mem × (CoreId → Core) := (s.units, s.hostMem, fun c => (s.core c).still)

theorem still_modCore (s : State) (c : CoreId) {f : Core → Core} (hf : ∀ k, (f k).still = k.still) : (s.modCore c f).still = s.still := by
  refine congrArg (fun g => (s.units, s.hostMem, g)) (funext fun c' => ?_)
  by_cases h : c' = c
  · subst h
    rw [State.core_modCore_self, hf]
  · rw [State.core_modCore_ne _ _ _ _ h]

theorem still_modCtx (s : State) (c : CoreId) (x : CtxId) (f : Ctx → Ctx) : (s.modCtx c x f).still = s.still := still_modCore s c fun _ => rfl

theorem still_skipFresh (s : State) (n : Nat) : (s.skipFresh n).still = s.still := rfl

theorem count_still (s : State) (c : CoreId) (x : CtxId) (e n : Nat) : (s.count c x e n).still = s.still := by
  unfold State.count
  split
  · rfl
  · exact still_modCtx ..

/-! ### Translations and handles (R225, R228) -/

theorem keyFaultAt_still (s : State) (c : CoreId) (x : CtxId) (haddr va gpa pa akey path : Nat) (wr : Bool) :
    (s.keyFaultAt c x haddr va gpa pa akey path wr).still = s.still := still_modCore s c fun _ => rfl

theorem softErr_still (s : State) (c : CoreId) (x : CtxId) (pa path : Nat) : (s.softErr c x pa path).still = s.still := still_modCtx ..

theorem noteTouches_still (s : State) (c : CoreId) (x : CtxId) (haddr va path : Nat) (l : List Touch) :
    (s.noteTouches c x haddr va path l).still = s.still := by
  refine foldl_keeps State.still (fun t q => ?_) l s
  split
  · exact (still_skipFresh ..).trans (keyFaultAt_still ..)
  · split
    · exact (still_skipFresh ..).trans (softErr_still ..)
    · rfl

theorem tlbAdd_still (s : State) (c : CoreId) (t : TlbSel) (e : TlbEntry) : (s.tlbAdd c t e).still = s.still := by
  unfold State.tlbAdd
  split
  · exact still_modCore s c fun _ => rfl
  · split
    · rfl
    · exact still_modCore s c fun _ => rfl

theorem translate_still (s : State) (c : CoreId) (x : CtxId) (t : TlbSel) (haddr va : Nat) (d : Dir) :
    (s.translate c x t haddr va d).2.still = s.still := by
  unfold State.translate
  dsimp only
  (repeat' split) <;> simp only [tlbAdd_still, noteTouches_still, count_still]

theorem handle_still (s : State) (c : CoreId) (x : CtxId) (h path : Nat) (wr : Bool) : (s.handle c x h path wr).2.still = s.still := by
  unfold State.handle
  dsimp only
  (repeat' split) <;> simp only [still_modCtx, noteTouches_still]

/-! ### Reads (R230, R292) -/

theorem readMem_still (s : State) (host : Bool) (u : UnitId) (cls : Nat) (q : Acq) (atomic : Bool) (a n : Nat) :
    (s.readMem host u cls q atomic a n).2.still = s.still := by
  unfold State.readMem
  dsimp only
  split <;> rfl

theorem readPhys_still (s : State) (u : UnitId) (cls : Nat) (q : Acq) (atomic : Bool) (haddr va pa key n : Nat) :
    (s.readPhys u cls q atomic haddr va pa key n).2.still = s.still := by
  unfold State.readPhys
  extract_lets keyed sound b s1 s2
  split
  · rfl
  · split
    · exact readMem_still ..
    · have h1 : s1.still = s.still := by
        unfold s1
        split
        · rfl
        · exact keyFaultAt_still ..
      have h2 : s2.still = s1.still := by
        unfold s2
        split
        · rfl
        · exact softErr_still ..
      refine (foldl_keeps (fun q : List Byte × State => q.2.still) (fun q p => ?_) _ ([], s2)).trans (h2.trans h1)
      dsimp only
      split
      · exact readMem_still ..
      · exact still_skipFresh ..

theorem readVa_still (s : State) (u : UnitId) (t : TlbSel) (cls : Nat) (q : Acq) (atomic : Bool) (haddr va n : Nat) :
    (s.readVa u t cls q atomic haddr va n).2.still = s.still := by
  refine foldl_keeps (fun q : Except XFault (List Byte) × State => q.2.still) (fun acc p => ?_) _ (.ok [], s)
  dsimp only
  split
  · rfl
  · have h := translate_still acc.2 u.core u.ctx t (haddr + p.1) (va + p.1) .rd
    split
    · next e => rw [e] at h; exact h
    · next e => rw [e] at h; exact (readPhys_still ..).trans h

theorem probeVa_still (s : State) (u : UnitId) (t : TlbSel) (haddr va n : Nat) (d : Dir) : (s.probeVa u t haddr va n d).2.still = s.still := by
  refine foldl_keeps (fun q : Option XFault × State => q.2.still) (fun acc p => ?_) _ (none, s)
  split
  · rfl
  · have h := translate_still acc.2 u.core u.ctx t (haddr + p.1) (va + p.1) d
    split
    · next e => rw [e] at h; exact h
    · next e => rw [e] at h; exact h

/-! ### Writes to the package's memory (R230, R292) -/

theorem writeByte_still (s : State) (u : UnitId) (cls tag pick a : Nat) (v : Byte) : (s.writeByte false u cls tag pick a v).still = s.still := by
  unfold State.writeByte
  simp only [Bool.false_eq_true, if_false]
  generalize (if u.path = 2 then none else _ : Option (List HistEntry)) = r
  cases r <;> rfl

theorem writeMem_still (s : State) (u : UnitId) (cls a : Nat) (bs : List Byte) : (s.writeMem false u cls a bs).still = s.still :=
  foldl_keeps State.still (f := fun (t : State) (p : Byte × Nat) => t.writeByte false u cls s.fresh (s.fresh + 129 + p.2) (a + p.2) p.1)
    (fun _ _ => writeByte_still ..) bs.zipIdx { s with fresh := s.fresh + 129 + bs.length }

theorem writePhys_still (s : State) (u : UnitId) (cls haddr va pa key : Nat) (bs : List Byte) :
    (s.writePhys u cls haddr va pa key bs).still = s.still := by
  unfold State.writePhys
  dsimp only
  split
  · rfl
  · split
    · exact writeMem_still ..
    · refine (foldl_keeps State.still (fun t p => ?_) _ _).trans (keyFaultAt_still ..)
      split
      · exact writeMem_still ..
      · rfl

theorem writeVa_still (s : State) (u : UnitId) (t : TlbSel) (cls haddr va : Nat) (bs : List Byte) :
    (s.writeVa u t cls haddr va bs).2.still = s.still := by
  refine foldl_keeps (fun q : Option XFault × State => q.2.still) (fun acc p => ?_) _ (none, s)
  split
  · rfl
  · have h := translate_still acc.2 u.core u.ctx t (haddr + p.1) (va + p.1) .wr
    split
    · next e => rw [e] at h; exact h
    · next e => rw [e] at h; exact (writePhys_still ..).trans h

theorem putDram_still (s : State) (u : UnitId) (sel : TlbSel) (cls haddr va lo n v : Nat) :
    (s.putDram u sel cls haddr va lo n v).2.still = s.still := by
  unfold State.putDram
  dsimp only
  split
  · exact writeVa_still ..
  · have h := probeVa_still s u sel haddr va (ceilDiv (lo + n) 8) .wr
    split
    · next e => rw [e] at h; exact h
    · next e => rw [e] at h; exact (writeVa_still ..).trans h

theorem Traffic.probeVa (s : State) (u : UnitId) (t : TlbSel) (haddr va n : Nat) (d : Dir) : Traffic s (s.probeVa u t haddr va n d).2 := by
  refine Traffic.foldl_snd (fun acc p => ?_) _ none s
  split
  · exact Traffic.refl _
  · have h := Traffic.translate acc.2 u.core u.ctx t (haddr + p.1) (va + p.1) d
    split
    · next e => rw [e] at h; exact h
    · next e => rw [e] at h; exact h

theorem Traffic.putDram (s : State) (u : UnitId) (sel : TlbSel) (cls haddr va lo n v : Nat) :
    Traffic s (s.putDram u sel cls haddr va lo n v).2 := by
  unfold State.putDram
  dsimp only
  split
  · exact Traffic.writeVa ..
  · have h := Traffic.probeVa s u sel haddr va (ceilDiv (lo + n) 8) .wr
    split
    · next e => rw [e] at h; exact h
    · next e => rw [e] at h; exact h.trans (Traffic.writeVa ..)

/-! ### Passages -/

/-- `t` is `s` but for what accesses through handles change. -/
structure Passage (s t : State) : Prop extends Traffic s t where
  still : t.still = s.still

namespace Passage

theorem refl (s : State) : Passage s s := ⟨Traffic.refl s, rfl⟩

theorem trans {s t u : State} (h : Passage s t) (k : Passage t u) : Passage s u := ⟨h.toTraffic.trans k.toTraffic, k.still.trans h.still⟩

theorem core {s t : State} (h : Passage s t) (c : CoreId) : (t.core c).still = (s.core c).still := congrFun (congrArg (·.2.2) h.still) c

theorem units {s t : State} (h : Passage s t) : t.units = s.units := congrArg (·.1) h.still

theorem mg {s t : State} (h : Passage s t) : t.mg = s.mg := congrArg (·.1) h.units

theorem part {s t : State} (h : Passage s t) (p : Nat) : t.part p = s.part p := by rw [State.part, h.mg]; rfl

theorem grant {s t : State} (h : Passage s t) (c : CoreId) (x : CtxId) : t.grant c x = s.grant c x := by
  have hk := congrArg (fun k : Core => k.grants[x]) (h.core c)
  exact hk

theorem foldl_snd {α β : Type} {f : β × State → α → β × State} (hf : ∀ q a, Passage q.2 (f q a).2) (l : List α) (b : β) (s : State) :
    Passage s (l.foldl f (b, s)).2 := by
  induction l generalizing b s with
  | nil => exact refl s
  | cons a l ih => exact (hf (b, s) a).trans (ih _ _)

theorem skipFresh (s : State) (n : Nat) : Passage s (s.skipFresh n) := ⟨Traffic.skipFresh s n, rfl⟩

theorem count (s : State) (c : CoreId) (x : CtxId) (e n : Nat) : Passage s (s.count c x e n) := ⟨Traffic.count .., count_still ..⟩

theorem handle (s : State) (c : CoreId) (x : CtxId) (h path : Nat) (wr : Bool) : Passage s (s.handle c x h path wr).2 :=
  ⟨Traffic.handle .., handle_still ..⟩

theorem translate (s : State) (c : CoreId) (x : CtxId) (t : TlbSel) (haddr va : Nat) (d : Dir) : Passage s (s.translate c x t haddr va d).2 :=
  ⟨Traffic.translate .., translate_still ..⟩

theorem readVa (s : State) (u : UnitId) (t : TlbSel) (cls : Nat) (q : Acq) (atomic : Bool) (haddr va n : Nat) :
    Passage s (s.readVa u t cls q atomic haddr va n).2 := ⟨Traffic.readVa .., readVa_still ..⟩

theorem writeMem (s : State) (u : UnitId) (cls a : Nat) (bs : List Byte) : Passage s (s.writeMem false u cls a bs) :=
  ⟨Traffic.writeMem .., writeMem_still ..⟩

theorem writeVa (s : State) (u : UnitId) (t : TlbSel) (cls haddr va : Nat) (bs : List Byte) : Passage s (s.writeVa u t cls haddr va bs).2 :=
  ⟨Traffic.writeVa .., writeVa_still ..⟩

theorem probeVa (s : State) (u : UnitId) (t : TlbSel) (haddr va n : Nat) (d : Dir) : Passage s (s.probeVa u t haddr va n d).2 :=
  ⟨Traffic.probeVa .., probeVa_still ..⟩

theorem putDram (s : State) (u : UnitId) (sel : TlbSel) (cls haddr va lo n v : Nat) : Passage s (s.putDram u sel cls haddr va lo n v).2 :=
  ⟨Traffic.putDram .., putDram_still ..⟩

end Passage

end Sys2Proof.Machine
end

section
/-! PROOFS. What records and reports leave (R317, R357, R358): the tables of tasks and futures, of a partition all but its rings and sums, of a core
all but its contexts and TLBs, of a context all but handle caches, counters, pending traps and ring heads (`Noted`). -/

namespace Sys2Proof.Machine

/-- A partition without its rings and its window sums. -/
def Part.calm (q : Part) : Part := { q with hring := Ring.reset, oring := Ring.reset, sums := [] }

/-- `t` is `s` but for what accesses, records and reports change. -/
structure Noted (s t : State) : Prop where
  cur : t.cur = s.cur
  cycle : t.cycle = s.cycle
  tasks : t.disp.tasks = s.disp.tasks
  futs : t.disp.futs = s.disp.futs
  select : t.disp.select = s.disp.select
  ctx : ∀ c x, ∃ a b p h d, t.ctx c x = { s.ctx c x with handles := a, cnt := b, pending := p, obsHead := h, obsDrop := d }
  core : ∀ c, (t.core c).still = (s.core c).still
  part : ∀ p, (t.part p).calm = (s.part p).calm

namespace Noted

theorem of_traffic {s t : State} (h : Traffic s t) (hc : ∀ c, (t.core c).still = (s.core c).still) (hp : ∀ p, (t.part p).calm = (s.part p).calm) :
    Noted s t := ⟨h.cur, h.cycle, by rw [h.disp], by rw [h.disp], by rw [h.disp], h.ctx, hc, hp⟩

theorem of_passage {s t : State} (h : Passage s t) : Noted s t := of_traffic h.toTraffic h.core fun p => by rw [h.part]

theorem refl (s : State) : Noted s s := of_passage (Passage.refl s)

theorem trans {s t u : State} (h : Noted s t) (k : Noted t u) : Noted s u where
  cur := k.cur.trans h.cur
  cycle := k.cycle.trans h.cycle
  tasks := k.tasks.trans h.tasks
  futs := k.futs.trans h.futs
  select := k.select.trans h.select
  ctx c x := by
    obtain ⟨a, b, p, d, e, h1⟩ := h.ctx c x
    obtain ⟨a', b', p', d', e', h2⟩ := k.ctx c x
    exact ⟨a', b', p', d', e', by rw [h2, h1]⟩
  core c := (k.core c).trans (h.core c)
  part p := (k.part p).trans (h.part p)

theorem foldl {α : Type} {f : State → α → State} (hf : ∀ t a, Noted t (f t a)) (l : List α) (s : State) : Noted s (l.foldl f s) := by
  induction l generalizing s with
  | nil => exact refl s
  | cons a l ih => exact (hf s a).trans (ih _)

theorem modCtx (s : State) (c : CoreId) (x : CtxId) (f : Ctx → Ctx)
    (hf : ∀ k, ∃ a b p h d, f k = { k with handles := a, cnt := b, pending := p, obsHead := h, obsDrop := d }) : Noted s (s.modCtx c x f) :=
  of_passage ⟨Traffic.modCtx s c x f hf, still_modCtx ..⟩

theorem modPart (s : State) (p : Nat) {f : Part → Part} (hf : ∀ q, (f q).calm = q.calm) : Noted s (s.modPart p f) := by
  refine of_traffic (Traffic.modPart s p f) (fun _ => rfl) fun r => ?_
  by_cases hr : r < 16
  · have hget := getElem_vmod s.mg.parts p f ⟨r, hr⟩
    simp only [Fin.getElem_fin] at hget
    simp only [State.part, State.modPart, vget, Vector.getElem?_eq_getElem hr, Option.getD_some, hget]
    split
    · exact hf _
    · rfl
  · simp only [State.part, vget, Vector.getElem?_eq_none (Nat.not_lt.1 hr)]

theorem modDp (s : State) (p : Nat) (f : DispPart → DispPart) : Noted s (s.modDp p f) :=
  ⟨rfl, rfl, rfl, rfl, rfl, fun _ _ => ⟨_, _, _, _, _, rfl⟩, fun _ => rfl, fun _ => rfl⟩

/-- A core's part that no access changes, as one field. -/
theorem field {s t : State} (h : Noted s t) {α : Type} (f : Core → α) (hf : ∀ k, f k.still = f k) (c : CoreId) : f (t.core c) = f (s.core c) := by
  rw [← hf (t.core c), h.core, hf]

theorem partField {s t : State} (h : Noted s t) {α : Type} (f : Part → α) (hf : ∀ k, f k.calm = f k) (p : Nat) : f (t.part p) = f (s.part p) := by
  rw [← hf (t.part p), h.part, hf]

theorem task? {s t : State} (h : Noted s t) (p n : Nat) : t.task? p n = s.task? p n := by rw [State.task?, h.tasks]; rfl

theorem fut? {s t : State} (h : Noted s t) (p n : Nat) : t.fut? p n = s.fut? p n := fut?_of_futs h.futs p n

theorem grant {s t : State} (h : Noted s t) (c : CoreId) (x : CtxId) : t.grant c x = s.grant c x :=
  h.field (fun k => k.grants[x]) (fun _ => rfl) c

/-! ### Rings and records (R357, R358) -/

theorem physRing {base : Nat} {c : CoreId} {x : CtxId} {s t : State} {off : Nat} {bs : List Byte} (h : physRing base c x s off bs = some t) :
    Noted s t := by
  unfold Machine.physRing at h
  split at h
  · cases h
  · obtain rfl := Option.some.inj h
    exact of_passage (Passage.writeMem ..)

theorem tenantRing {w : Nat} {c : CoreId} {x : CtxId} {s t : State} {off : Nat} {bs : List Byte} (h : tenantRing w c x s off bs = some t) :
    Noted s t := by
  unfold Machine.tenantRing at h
  split at h
  · cases h
  · next i _ =>
    have hw := Passage.writeVa s (recUnit c x) none 0 (w + off) (i.base + haddrO (w + off)) bs
    split at h
    · next e =>
      rw [e] at hw
      obtain rfl := Option.some.inj h
      exact of_passage hw
    · cases h

section
variable {wr : State → Nat → List Byte → Option State} (hw : ∀ s t off bs, wr s off bs = some t → Noted s t)
include hw

theorem ringOne (dws : List Nat) (q : Ring × State) : Noted q.2 (ringOne wr dws q).2 := by
  unfold Machine.ringOne
  dsimp only
  split
  · exact refl _
  · split
    · exact refl _
    · next e => exact hw _ _ _ _ e

theorem ringPut (dws : List Nat) (gt : Nat) (q : Ring × State) : Noted q.2 (ringPut wr dws gt q).2 := by
  unfold Machine.ringPut
  dsimp only
  split
  · exact refl _
  · split
    · have h := ringOne hw [setBits (dws.headD 0) 56 8 7, 0, gt, q.1.drop, 0, 0, 0, 0] ({ q.1 with drop := 0 }, q.2)
      split
      · exact h
      · exact h.trans (ringOne hw ..)
    · exact ringOne hw ..

end

theorem putRecord (s : State) (c : CoreId) (x : CtxId) (p rc : Nat) (dws : List Nat) : Noted s (s.putRecord c x p rc dws) := by
  unfold State.putRecord
  dsimp only
  split
  · exact (ringPut (fun _ _ _ _ => tenantRing) dws s.gtime (_, s)).trans (modCtx _ c x _ fun _ => ⟨_, _, _, _, _, rfl⟩)
  · split
    · exact (ringPut (fun _ _ _ _ => physRing) dws s.gtime (_, s)).trans (modPart _ p fun _ => rfl)
    · exact (ringPut (fun _ _ _ _ => physRing) dws s.gtime (_, s)).trans (modPart _ p fun _ => rfl)

theorem observe (s : State) (c : CoreId) (x : CtxId) (p cls kind name : Nat) (pay : List (List RecField)) (sum : WSum) :
    Noted s (s.observe c x p cls kind name pay sum) := by
  refine foldl (fun t rc => ?_) _ s
  dsimp only
  split
  · exact refl t
  · split
    · exact modPart t p fun q => by (repeat' split) <;> rfl
    · exact putRecord ..

theorem taskRecord (s : State) (c : CoreId) (x : CtxId) (p kind task : Nat) : Noted s (s.taskRecord c x p kind task) := observe ..

/-! ### Reports (R317) -/

theorem pendReport (s : State) (c : CoreId) (x : CtxId) (w : Word) : Noted s (s.pendReport c x w) :=
  modCtx s c x _ fun _ => ⟨_, _, _, _, _, rfl⟩

theorem homeReport (s : State) (p code : Nat) : Noted s (s.homeReport p code) := by
  unfold State.homeReport
  dsimp only
  split
  · exact (modDp ..).trans (pendReport ..)
  · split <;> exact modDp ..

theorem report (s : State) (p code : Nat) (dest : Option (CoreId × CtxId)) : Noted s (s.report p code dest) := by
  unfold State.report
  split
  · dsimp only
    split
    · exact pendReport ..
    · exact homeReport ..
  · exact homeReport ..

theorem heldReport (s : State) (c : CoreId) (x : CtxId) : Noted s (s.heldReport c x) := by
  unfold State.heldReport
  dsimp only
  split
  · split
    · exact refl s
    · exact ((modDp ..).trans (modDp ..)).trans (pendReport ..)
  · exact refl s

end Noted

/-! ### A context becomes EMPTY (R271, R315) -/

/-- The context and the tables once the context is EMPTY. -/
theorem emptyCtx_state (s : State) (c : CoreId) (x : CtxId) :
    ((s.emptyCtx c x).ctx c x).phase = .empty ∧ ((s.emptyCtx c x).ctx c x).task = none ∧ (s.emptyCtx c x).disp.tasks = s.disp.tasks ∧
      (s.emptyCtx c x).disp.futs = s.disp.futs ∧ (s.emptyCtx c x).disp.select = true ∧ (s.emptyCtx c x).cycle = s.cycle := by
  unfold State.emptyCtx
  extract_lets p k reports s1 s2 s3 disp col s4 words q
  have hk : ∃ k1 : Ctx, s4.ctx c x = k1 ∧ k1.phase = .empty ∧ k1.task = none :=
    ⟨_, (State.ctx_modCtx_self s2 c x _ : s3.ctx c x = _), rfl, rfl⟩
  obtain ⟨k1, hk1, hphase, htask⟩ := hk
  split
  · exact ⟨hk1 ▸ hphase, hk1 ▸ htask, rfl, rfl, rfl, rfl⟩
  · have h : Noted s4 (words.foldl (fun (t : State) w => t.homeReport p w.toNat) s4) := Noted.foldl (fun _ _ => Noted.homeReport ..) _ _
    obtain ⟨a, b, pd, o, d, hctx⟩ := h.ctx c x
    rw [hctx, hk1]
    exact ⟨hphase, htask, h.tasks, h.futs, h.select, h.cycle⟩

theorem emptyCtx_task? (s : State) (c : CoreId) (x : CtxId) (p n : Nat) : (s.emptyCtx c x).task? p n = s.task? p n := by
  obtain ⟨-, -, h, -⟩ := emptyCtx_state s c x
  rw [State.task?, h]
  rfl

theorem emptyCtx_fut? (s : State) (c : CoreId) (x : CtxId) (p n : Nat) : (s.emptyCtx c x).fut? p n = s.fut? p n := by
  obtain ⟨-, -, -, h, -⟩ := emptyCtx_state s c x
  exact fut?_of_futs h p n

end Sys2Proof.Machine
end

section
/-! PROOFS. O53: the dispatcher's events. One READY task with an eligible context makes one round of the selection with one visit and one dispatch
(`selectRound_single`, `visit_single`); what a member's start writes stands in its context, and records and reports leave it (`Noted`)
(R310 to R315, R339). -/

namespace Sys2Proof.Machine

/-! ### Selection (R310, R311) -/

theorem selectRound_none {s : State} (h : ∀ p l, s.nextAt p l = none) : s.selectRound = none := by
  have hf : ([3, 2, 1, 0].find? fun l => (List.range 16).any fun p => (s.nextAt p l).isSome) = none := by
    simp [h]
  simp only [State.selectRound, hf]

theorem selectAll_none {s : State} (h : s.selectRound = none) : ∀ n, State.selectAll n s = s
  | 0 => rfl
  | n + 1 => by rw [State.selectAll, h]

theorem selectAll_once {s t : State} (h : s.selectRound = some t) (ht : t.selectRound = none) {n : Nat} (hn : 0 < n) : State.selectAll n s = t := by
  obtain ⟨m, rfl⟩ := Nat.exists_eq_add_of_lt hn
  rw [Nat.zero_add, State.selectAll, h]
  exact selectAll_none ht m

/-- A round of the partitions meets each once. -/
theorem filter_rotation (start : Nat) {p : Nat} (hp : p < 16) : ((List.range 16).map fun i => (start + i) % 16).filter (· = p) = [p] := by
  have hnodup : ((List.range 16).map fun i => (start + i) % 16).Nodup := by
    refine List.Nodup.map_on (fun i hi j hj h => ?_) List.nodup_range
    rw [List.mem_range] at hi hj
    omega
  have hmem : p ∈ (List.range 16).map fun i => (start + i) % 16 :=
    List.mem_map.2 ⟨(p + 16 - start % 16) % 16, List.mem_range.2 (by omega), by omega⟩
  rw [List.filter_eq, List.count_eq_one_of_mem hnodup hmem]
  rfl

/-- Where one level of one partition can be served, the round is its visit. -/
theorem selectRound_single {s : State} {p l : Nat} (hp : p < 16) (hl : l < 4) (h : ∀ q m, (s.nextAt q m).isSome = decide (q = p ∧ m = l)) :
    s.selectRound = some (s.visit p l) := by
  have hany : ∀ m, ((List.range 16).any fun q => decide (q = p ∧ m = l)) = decide (m = l) := fun m => by
    rw [Bool.eq_iff_iff, List.any_eq_true, decide_eq_true_eq]
    exact ⟨fun ⟨_, _, h⟩ => (of_decide_eq_true h).2, fun e => ⟨p, List.mem_range.2 hp, decide_eq_true ⟨rfl, e⟩⟩⟩
  have hlevel : ([3, 2, 1, 0].find? fun m => decide (m = l)) = some l := by
    interval_cases l <;> rfl
  have hps : (((List.range 16).map fun i => (vget s.disp.lastServed l 15 + 1 + i) % 16).filter fun q => (s.nextAt q l).isSome) = [p] := by
    rw [← filter_rotation (vget s.disp.lastServed l 15 + 1) hp]
    exact List.filter_congr fun q _ => by simp [h]
  have hround : s.selectRound = some ((((List.range 16).map fun i => (vget s.disp.lastServed l 15 + 1 + i) % 16).filter
      fun q => (s.nextAt q l).isSome).foldl (fun (t : State) q => t.visit q l) s) := by
    simp only [State.selectRound, h, hany, hlevel]
  rw [hround, hps]
  rfl

section
variable {s t : State}

/-- Where a task may go follows from the cores, the host's stage and the cores last chosen. -/
theorem spots_congr (hc : t.cores = s.cores) (hh : t.host = s.host) (hd : ∀ p, (t.dp p).lastCore = (s.dp p).lastCore) (tk : Task) :
    t.spots tk = s.spots tk := by
  have hspot : t.spotOn = s.spotOn := by
    funext c q need
    simp only [State.spotOn, State.ctxSuits, State.ctx, State.grant, State.core, hc, hh]
    rfl
  simp only [State.spots, hspot, hd]

theorem nextAt_single {tk : Task} (ht : s.disp.tasks = [tk]) {l : List (CoreId × CtxId)} (hready : tk.phase = .ready)
    (hmay : s.mayDispatch tk.part = true) (hspots : s.spots tk = some l) :
    s.nextAt tk.part tk.level = some (tk, l) ∧ ∀ q m, (s.nextAt q m).isSome = decide (q = tk.part ∧ m = tk.level) := by
  have hat : ∀ q m, s.mayDispatch q = true → s.nextAt q m = if q = tk.part ∧ m = tk.level then some (tk, l) else none := by
    intro q m hq
    by_cases h1 : q = tk.part
    · subst h1
      by_cases h2 : m = tk.level
      · subst h2
        simp [State.nextAt, hq, ht, hready, hspots]
      · simp [State.nextAt, hq, ht, h2, Ne.symm h2]
    · simp [State.nextAt, hq, ht, h1, Ne.symm h1]
  refine ⟨(hat _ _ hmay).trans (if_pos ⟨rfl, rfl⟩), fun q m => ?_⟩
  by_cases hq : s.mayDispatch q = true
  · rw [hat q m hq]
    split
    · next h => rw [decide_eq_true h]; rfl
    · next h => rw [decide_eq_false h]; rfl
  · have hne : ¬(q = tk.part ∧ m = tk.level) := fun e => hq (e.1 ▸ hmay)
    rw [decide_eq_false hne, State.nextAt, if_pos (by simpa using hq)]
    rfl

theorem nextAt_running {tk : Task} (ht : s.disp.tasks = [tk]) (hp : tk.phase ≠ .ready) (p l : Nat) : s.nextAt p l = none := by
  simp [State.nextAt, ht, hp]

end

/-! ### Deficits (R311) -/

section
variable {s : State} {p l : Nat}

theorem dp_modDp_self (hp : p < 16) (f : DispPart → DispPart) : (s.modDp p f).dp p = f (s.dp p) := vget_vmod_self _ _ _ _ hp

theorem deficit_setDeficit (hp : p < 16) (hl : l < 4) (v : Nat) : (s.setDeficit p l v).deficit p l = v := by
  rw [State.deficit, State.setDeficit, dp_modDp_self hp]
  exact vget_vmod_self _ _ _ _ hl

theorem lastCore_setDeficit (v q : Nat) : ((s.setDeficit p l v).dp q).lastCore = (s.dp q).lastCore := by
  by_cases hq : q = p
  · subst hq
    by_cases h : q < 16
    · rw [State.setDeficit, dp_modDp_self h]
    · simp [State.setDeficit, State.modDp, State.dp, vmod, h]
  · rw [State.dp, State.dp, State.setDeficit, State.modDp]
    exact congrArg _ (vget_vmod_ne _ _ _ _ _ (Ne.symm hq))

end

/-! ### One dispatch (R313, R314) -/

/-- A task in its one context. -/
structure Started (s t : State) (c : CoreId) (x : CtxId) (tk : Task) : Prop where
  tasks : t.disp.tasks = [{ tk with phase := .running, drained := 0 }]
  ctx : ∃ a b p h d, t.ctx c x = { (s.ctx c x).launch tk 0 [] (s.part tk.part).tvec1 (s.part tk.part).tvec2 s.cycle with
    handles := a, cnt := b, pending := p, obsHead := h, obsDrop := d }
  spent : (t.part tk.part).spent = Nat.min ((s.part tk.part).spent + tk.cost) (2 ^ 32 - 1)
  flags : ∀ f : FlagNo, (s.grant c x).hasFlag f.val = true → (t.core c).flags[f] = 0
  queues : ∀ q : QNo, (s.grant c x).hasQueue q.val = true → (t.core c).queue q = []

theorem dispatchItems_ctx (k : Core) (g : Grant) (x : CtxId) : (k.dispatchItems g).ctx x = k.ctx x := by
  rw [Core.ctx, Core.dispatchItems, Core.ctx]

theorem dispatchItems_flags (k : Core) {g : Grant} {f : FlagNo} (h : g.hasFlag f.val = true) : (k.dispatchItems g).flags[f] = 0 := by
  have hbit : ((List.range 64).foldl (fun a f => if g.hasFlag f then a + 2 ^ f else a) 0).testBit f.val = true := by
    refine (testBit_bitsBelow g.hasFlag 64 f.val).trans ?_
    simp [h]
  exact (getElem_setMasked ..).trans (if_pos hbit)

theorem dispatchItems_queue (k : Core) {g : Grant} {q : QNo} (h : g.hasQueue q.val = true) : (k.dispatchItems g).queue q = [] := by
  obtain ⟨hv, hq⟩ : g.v = true ∧ g.qmask.testBit q.val = true := by simpa [Grant.hasQueue] using h
  refine (getElem_setMasked ..).trans (if_pos ?_)
  rw [hv]
  exact hq

/-- The tables and the budget once the task runs on core `c`. -/
def State.taskRuns (s : State) (c : CoreId) (tk : Task) : State :=
  ((s.spend tk.part tk.cost).modDp tk.part fun d => { d with lastCore := c.val }).modTask tk.part tk.num fun t => { t with phase := .running, drained := 0 }

/-- The state once the context has started. -/
def State.memberRuns (s : State) (c : CoreId) (x : CtxId) (tk : Task) : State :=
  s.modCore c fun k => (k.dispatchItems (s.grant c x)).modCtx x fun k => k.launch tk 0 [] (s.part tk.part).tvec1 (s.part tk.part).tvec2 s.cycle

theorem dispatchTask_eq (s : State) (c : CoreId) (x : CtxId) {tk : Task} (hl : tk.launch = 0) :
    s.dispatchTask tk [(c, x)] = (((s.taskRuns c tk).memberRuns c x tk).taskRecord c x tk.part 4 tk.num).heldReport c x := by
  simp only [State.dispatchTask, State.launchBlock, hl, if_true, List.foldl_cons, List.foldl_nil, List.nil_append]
  rfl

theorem taskRuns_part {s : State} {tk : Task} (hp : tk.part < 16) (c : CoreId) :
    (s.taskRuns c tk).part tk.part = { s.part tk.part with spent := Nat.min ((s.part tk.part).spent + tk.cost) (2 ^ 32 - 1) } :=
  part_modPart_self s ⟨tk.part, hp⟩ _

theorem memberRuns_core (s : State) (c : CoreId) (x : CtxId) (tk : Task) : (s.memberRuns c x tk).core c =
    ((s.core c).dispatchItems (s.grant c x)).modCtx x fun k => k.launch tk 0 [] (s.part tk.part).tvec1 (s.part tk.part).tvec2 s.cycle :=
  State.core_modCore_self ..

theorem memberRuns_ctx (s : State) (c : CoreId) (x : CtxId) (tk : Task) :
    (s.memberRuns c x tk).ctx c x = (s.ctx c x).launch tk 0 [] (s.part tk.part).tvec1 (s.part tk.part).tvec2 s.cycle := by
  rw [State.ctx, memberRuns_core, Core.ctx_modCtx_self, dispatchItems_ctx, State.ctx]

theorem started_dispatchTask {s : State} {c : CoreId} {x : CtxId} {tk : Task} (ht : s.disp.tasks = [tk]) (hp : tk.part < 16) (hl : tk.launch = 0) :
    Started s (s.dispatchTask tk [(c, x)]) c x tk := by
  have hn : Noted ((s.taskRuns c tk).memberRuns c x tk) (s.dispatchTask tk [(c, x)]) :=
    dispatchTask_eq s c x hl ▸ (Noted.taskRecord ..).trans (Noted.heldReport ..)
  have hcore := memberRuns_core (s.taskRuns c tk) c x tk
  have hctx : ((s.taskRuns c tk).memberRuns c x tk).ctx c x =
      (s.ctx c x).launch tk 0 [] (s.part tk.part).tvec1 (s.part tk.part).tvec2 s.cycle := by
    rw [memberRuns_ctx, taskRuns_part hp]
    rfl
  refine ⟨?_, hctx ▸ hn.ctx c x, ?_, fun f hf => ?_, fun q hq => ?_⟩
  · rw [hn.tasks]
    change s.disp.tasks.map _ = _
    simp [ht]
  · rw [hn.partField (fun q => q.spent) fun _ => rfl]
    exact congrArg Part.spent (taskRuns_part hp c)
  · rw [hn.field (fun k => k.flags[f]) fun _ => rfl, hcore]
    exact dispatchItems_flags _ hf
  · rw [hn.field (fun k => k.queue q) fun _ => rfl, hcore]
    exact dispatchItems_queue _ hq

/-- The state in which a visit serves the partition. -/
def State.visiting (s : State) (p l : Nat) : State :=
  ({ s with disp := { s.disp with lastServed := vmod s.disp.lastServed l fun _ => p } } : State).setDeficit p l (s.deficit p l + (s.dp p).quantum)

theorem lastCore_visiting (s : State) (p l q : Nat) : ((s.visiting p l).dp q).lastCore = (s.dp q).lastCore := by
  rw [State.visiting, lastCore_setDeficit]
  rfl

theorem visit_eq {s : State} {p l : Nat} (h : ((State.serve (s.disp.tasks.length + 1) p l (s.visiting p l)).disp.tasks.any
    fun (t : Task) => t.part = p && t.phase = .ready && t.level = l) = false) :
    s.visit p l = (State.serve (s.disp.tasks.length + 1) p l (s.visiting p l)).setDeficit p l 0 := by
  change (if _ then _ else _) = _
  exact if_neg (by rw [Bool.not_eq_true]; exact h)

theorem Started.of_visiting {s t : State} {c : CoreId} {x : CtxId} {tk : Task} {p l : Nat} (h : Started (s.visiting p l) t c x tk) :
    Started s t c x tk := ⟨h.tasks, h.ctx, h.spent, h.flags, h.queues⟩

/-- What the deficits are does not matter to the start. -/
theorem Started.setDeficit {s t : State} {c : CoreId} {x : CtxId} {tk : Task} (h : Started s t c x tk) (p l v : Nat) :
    Started s (t.setDeficit p l v) c x tk := ⟨h.tasks, h.ctx, h.spent, h.flags, h.queues⟩

section
variable {s : State} {tk : Task} {c : CoreId} {x : CtxId} (ht : s.disp.tasks = [tk]) (hready : tk.phase = .ready) (hp : tk.part < 16)
  (hmay : s.mayDispatch tk.part = true) (hspots : s.spots tk = some [(c, x)]) (hlaunch : tk.launch = 0)
include ht hready hp hmay hspots hlaunch

/-- A partition that has the one task ready and the deficit for it dispatches it. -/
theorem serve_single (hcost : tk.cost ≤ s.deficit tk.part tk.level) (n : Nat) :
    State.serve (n + 1) tk.part tk.level s = (s.dispatchTask tk [(c, x)]).setDeficit tk.part tk.level (s.deficit tk.part tk.level - tk.cost) := by
  have hs := (started_dispatchTask (x := x) ht hp hlaunch).setDeficit (c := c) tk.part tk.level (s.deficit tk.part tk.level - tk.cost)
  simp only [State.serve, (nextAt_single ht hready hmay hspots).1, if_neg (Nat.not_lt.2 hcost)]
  cases n with
  | zero => rfl
  | succ n => simp only [State.serve, nextAt_running hs.tasks (by simp)]

theorem visit_single (hl : tk.level < 4) (hq : tk.cost ≤ (s.dp tk.part).quantum) : Started s (s.visit tk.part tk.level) c x tk := by
  have hspots2 : (s.visiting tk.part tk.level).spots tk = some [(c, x)] :=
    (spots_congr (s := s) (t := s.visiting tk.part tk.level) rfl rfl (lastCore_visiting s _ _) tk).trans hspots
  have hcost : tk.cost ≤ (s.visiting tk.part tk.level).deficit tk.part tk.level := by
    rw [State.visiting, deficit_setDeficit hp hl]
    exact hq.trans (Nat.le_add_left ..)
  have hstart := started_dispatchTask (s := s.visiting tk.part tk.level) (c := c) (x := x) ht hp hlaunch
  have hserve := serve_single (s := s.visiting tk.part tk.level) ht hready hp hmay hspots2 hlaunch hcost s.disp.tasks.length
  rw [visit_eq (by rw [hserve, (hstart.setDeficit ..).tasks]; simp), hserve]
  exact ((hstart.setDeficit ..).setDeficit ..).of_visiting

theorem dispatchSelect_single (hl : tk.level < 4) (hq : tk.cost ≤ (s.dp tk.part).quantum) :
    ∃ t, exec .dispatchSelect s = .next t ∧ t.disp.select = false ∧ Started s t c x tk := by
  have hv := visit_single ht hready hp hmay hspots hlaunch hl hq
  have hround := selectRound_single hp hl (nextAt_single ht hready hmay hspots).2
  have hend : (s.visit tk.part tk.level).selectRound = none := selectRound_none (nextAt_running hv.tasks (by simp))
  have hall := selectAll_once hround hend (n := 113 * (s.disp.tasks.length + 1)) (by omega)
  refine ⟨{ s.visit tk.part tk.level with disp := { (s.visit tk.part tk.level).disp with select := false } }, ?_, rfl,
    ⟨hv.tasks, hv.ctx, hv.spent, hv.flags, hv.queues⟩⟩
  change execDispatchSelect s = _
  rw [execDispatchSelect, hall]

end

/-! ### The end of DRAINING (R315) -/

theorem imgDw_nil (i : Nat) : imgDw [] i = 0 := by simp [imgDw, leNat]

/-- Without a launch block every register of a dispatched context is 0. -/
theorem launch_regs (k : Ctx) (tk : Task) (i : Nat) (v w : Word) (n : Nat) (r : Fin 32) :
    (k.launch tk i [] v w n).s[r] = 0 ∧ (k.launch tk i [] v w n).h[r] = 0 := by
  have hs : (k.launch tk i [] v w n).s[r] = if r.val ≠ 0 && (imgDw [] 0).testBit r.val then BitVec.ofNat 64 (imgDw [] r.val) else 0 :=
    Vector.getElem_ofFn ..
  have hh : (k.launch tk i [] v w n).h[r] = if (imgDw [] 0).testBit 32 then BitVec.ofNat 256 (leNat ((([] : List Byte).drop (256 + 32 * r.val)).take 32)) else 0 :=
    Vector.getElem_ofFn ..
  rw [hs, hh, imgDw_nil]
  simp

theorem launch_vectors (k : Ctx) (tk : Task) (i : Nat) (bs : List Byte) (v w : Word) (n : Nat) :
    ((k.launch tk i bs v w n).bankAt 1).vec = v ∧ ((k.launch tk i bs v w n).bankAt 2).vec = w := by
  constructor <;> simp [Ctx.launch, Ctx.enterText, Ctx.bankAt, vget]

theorem Passage.digestMessage (s : State) (c : CoreId) (x : CtxId) (t : Task) : Passage s (s.digestMessage c x t).2 := by
  refine Passage.foldl_snd (fun a o => ?_) _ [] s
  have hh := Passage.handle a.2 c x o.1 0 false
  split
  · next i s1 e =>
    rw [e] at hh
    have hr := Passage.readVa s1 (ctlUnit c x) none 0 s1.acqNow true (o.1 * 2 ^ 48) i.base i.len
    split
    · next e => rw [e] at hr; exact hh.trans hr
    · next e => rw [e] at hr; exact (hh.trans hr).trans (Passage.skipFresh ..)
  · next e => rw [e] at hh; exact hh

theorem Passage.doneDigest (s : State) (c : CoreId) (x : CtxId) (t : Task) : Passage s (s.doneDigest c x t).2 := by
  unfold State.doneDigest
  split
  · exact digestMessage ..
  · exact refl s

theorem task?_num {s : State} {p n : Nat} {tk : Task} (h : s.task? p n = some tk) : tk.num = n := by
  have hf := List.find?_some h
  rw [Bool.and_eq_true, decide_eq_true_eq, decide_eq_true_eq] at hf
  exact hf.2

theorem task?_modTask_ne (s : State) (p : Nat) {n m : Nat} (hne : m ≠ n) {f : Task → Task} (hp : ∀ t, (f t).part = t.part) (hn : ∀ t, (f t).num = t.num) :
    (s.modTask p m f).task? p n = s.task? p n := by
  have hsame : ((fun t : Task => decide (t.part = p) && decide (t.num = n)) ∘ fun t => if t.part = p && t.num = m then f t else t) =
      fun t : Task => decide (t.part = p) && decide (t.num = n) := by
    funext t
    dsimp only [Function.comp_apply]
    split
    · rw [hp, hn]
    · rfl
  change (s.disp.tasks.map _).find? _ = _
  rw [List.find?_map, hsame]
  change (s.task? p n).map _ = _
  cases ht : s.task? p n with
  | none => rfl
  | some t =>
    have hm : t.num ≠ m := fun e => hne (e.symm.trans (task?_num ht))
    exact congrArg some (if_neg (by simp [hm]))

/-- A context has become EMPTY, the dispatcher selects again, and a task that waits for nothing is in the tables. -/
structure Drained (t : State) (c : CoreId) (x : CtxId) (p n : Nat) (tk : Task) : Prop where
  phase : (t.ctx c x).phase = .empty
  task : (t.ctx c x).task = none
  select : t.disp.select = true
  found : t.task? p n = some tk

namespace Drained

variable {s : State} {c : CoreId} {x : CtxId} {p n : Nat} {tk : Task}

theorem noted (h : Drained s c x p n tk) {t : State} (k : Noted s t) : Drained t c x p n tk := by
  obtain ⟨a, b, pd, o, d, hctx⟩ := k.ctx c x
  refine ⟨?_, ?_, k.select.trans h.select, (k.task? p n).trans h.found⟩
  · rw [hctx]
    exact h.phase
  · rw [hctx]
    exact h.task

theorem makeReady (h : Drained s c x p n tk) {m : Nat} (hne : m ≠ n) (l : Nat) : Drained (s.makeReady p m l) c x p n tk :=
  ⟨h.phase, h.task, rfl, (task?_modTask_ne s p hne (f := fun t => { t with phase := .ready, level := l, since := s.cycle, order := s.disp.nextOrder })
    (fun _ => rfl) fun _ => rfl).trans h.found⟩

theorem countDown (h : Drained s c x p n tk) (hp : tk.phase ≠ .pending) (m : Nat) : Drained (s.countDown p m) c x p n tk := by
  unfold State.countDown
  split
  · exact h
  · next t ht =>
    split
    · exact h
    · next hpend =>
      have hne : m ≠ n := by
        rintro rfl
        obtain rfl := Option.some.inj (ht.symm.trans h.found)
        exact hp (not_not.1 hpend)
      have hdown : Drained (s.modTask p m fun t => { t with count := t.count - 1 }) c x p n tk :=
        ⟨h.phase, h.task, h.select, (task?_modTask_ne s p hne (f := fun t => { t with count := t.count - 1 }) (fun _ => rfl) fun _ => rfl).trans h.found⟩
      dsimp only
      split
      · exact hdown.makeReady hne _
      · exact hdown

theorem resolve (h : Drained s c x p n tk) (hp : tk.phase ≠ .pending) (m : Nat) (v : Word) (dest : Option (CoreId × CtxId)) :
    Drained (s.resolve p m v dest) c x p n tk := by
  unfold State.resolve
  split
  · exact h.noted (Noted.report ..)
  · split
    · exact h.noted (Noted.report ..)
    · exact foldl_ind (fun t => Drained t c x p n tk) _ (fun _ _ ht => ht.countDown hp _) _ _ ⟨h.phase, h.task, h.select, h.found⟩

end Drained

section
variable {s : State} {c : CoreId} {x : CtxId} {n : Nat} {tk : Task} (hdue : s.drainDue c x = true) (hn : (s.ctx c x).task = some n)
  (htk : s.task? (s.partOf c x) n = some tk)
include hdue hn htk

theorem drainingEnd_member (hm : tk.drained + 1 < tk.members) : ∃ t tk', exec (.drainingEnd c x) s = .next t ∧ (t.ctx c x).phase = .empty ∧
    t.task? (s.partOf c x) n = some tk' ∧ tk'.phase = tk.phase ∧ tk'.drained = tk.drained + 1 := by
  obtain rfl := task?_num htk
  let s0 := s.taskRecord c x (s.partOf c x) 5 tk.num
  have hexec : exec (.drainingEnd c x) s = .next ((s0.modTask (s.partOf c x) tk.num fun t => { t with drained := t.drained + 1 }).emptyCtx c x) := by
    change execDrainingEnd c x s = _
    simp only [execDrainingEnd, hdue, hn, htk, Option.bind_some, hm, if_true, Bool.not_true, Bool.false_eq_true, if_false, s0]
  refine ⟨_, { tk with drained := tk.drained + 1 }, hexec, (emptyCtx_state ..).1, ?_, rfl, rfl⟩
  rw [emptyCtx_task?, task?_modTask s0 _ tk.num (f := fun t => { t with drained := t.drained + 1 }) (fun _ => rfl) fun _ => rfl,
    (Noted.taskRecord ..).task?, htk]
  rfl

/-- The task's last member has ended. -/
theorem drainingEnd_last (hrep : (s.part (s.partOf c x)).replay = none) (hm : tk.members ≤ tk.drained + 1) (hnext : tk.nextDesc = 0) :
    ∃ t tk', exec (.drainingEnd c x) s = .next t ∧ tk'.phase = .done ∧ Drained t c x (s.partOf c x) n tk' ∧
      ∀ f, tk.fut ≠ 0 → s.fut? (s.partOf c x) (tk.fut.toNat % 2 ^ 32) = some f → f.state ≠ 2 →
        t.fut? (s.partOf c x) (tk.fut.toNat % 2 ^ 32) = some (f.resolved 0) := by
  obtain rfl := task?_num htk
  have hd : Noted s ((s.taskRecord c x (s.partOf c x) 5 tk.num).doneDigest c x tk).2 :=
    (Noted.taskRecord ..).trans (Noted.of_passage (Passage.doneDigest ..))
  obtain ⟨u, hu, htraffic⟩ := dispLog_plain ((hd.partField (fun q => q.replay) (fun _ => rfl) _).trans hrep) 7 tk.num tk.num 0
    ((s.taskRecord c x (s.partOf c x) 5 tk.num).doneDigest c x tk).1 []
  have htasks : u.task? (s.partOf c x) tk.num = some tk := by
    rw [State.task?, htraffic.disp]
    exact (hd.task? ..).trans htk
  have hfuts : ∀ m, u.fut? (s.partOf c x) m = s.fut? (s.partOf c x) m := fun m =>
    (fut?_of_futs (by rw [htraffic.disp]) ..).trans (hd.fut? ..)
  let v := (u.modTask (s.partOf c x) tk.num fun t => { t with phase := .done, drained := t.members }).emptyCtx c x
  have hexec : exec (.drainingEnd c x) s = .next (if tk.fut = 0 then v else v.resolve (s.partOf c x) (futNum tk.fut) 0 none) := by
    change execDrainingEnd c x s = _
    simp only [execDrainingEnd, hdue, hn, htk, Option.bind_some, if_neg (Nat.not_lt.2 hm), hu, hnext, Bool.not_true, Bool.false_eq_true, if_false, if_true, v]
  obtain ⟨hphase, htask, -, -, hselect, -⟩ := emptyCtx_state (u.modTask (s.partOf c x) tk.num fun t => { t with phase := .done, drained := t.members }) c x
  have hend : Drained v c x (s.partOf c x) tk.num { tk with phase := .done, drained := tk.members } := by
    refine ⟨hphase, htask, hselect, ?_⟩
    rw [emptyCtx_task?, task?_modTask u _ tk.num (f := fun t => { t with phase := .done, drained := t.members }) (fun _ => rfl) fun _ => rfl, htasks]
    rfl
  have hvfut : ∀ m, v.fut? (s.partOf c x) m = s.fut? (s.partOf c x) m := fun m => (emptyCtx_fut? ..).trans (hfuts m)
  refine ⟨_, { tk with phase := .done, drained := tk.members }, hexec, rfl, ?_, fun f hf hfut h2 => ?_⟩
  · split
    · exact hend
    · exact hend.resolve (by simp) ..
  · rw [if_neg hf, ← futNum_eq]
    exact fut?_resolve_first ((hvfut _).trans (by rw [futNum_eq, hfut])) h2 ..

end

/-! ### Aging and slices (R312, R339) -/

theorem taskAge_rises {s : State} {tk : Task} (h : s.agedTask = some tk) : ∃ t, exec .taskAge s = .next t ∧
    t.disp.nextOrder = s.disp.nextOrder + 1 ∧ t.disp.select = true ∧ t.disp.tasks = s.disp.tasks.map fun u =>
      if u.part = tk.part ∧ u.num = tk.num then { u with phase := .ready, level := tk.level + 1, since := s.cycle, order := s.disp.nextOrder } else u := by
  refine ⟨s.makeReady tk.part tk.num (tk.level + 1), ?_, rfl, rfl, ?_⟩
  · change execTaskAge s = _
    simp only [execTaskAge, h]
  · exact List.map_congr_left fun u _ => by simp only [Bool.and_eq_true, decide_eq_true_eq]

theorem sliceStart_clears (s : State) : ∃ t, exec .sliceStart s = .next t ∧ (∀ p, p < 16 → t.part p = { s.part p with spent := 0 }) ∧
    t.mg.sliceAt = s.cycle ∧ t.disp.select = true := by
  refine ⟨_, rfl, fun p hp => ?_, rfl, rfl⟩
  simp [State.part, vget, hp]

/-- Settles O53. -/
theorem dispatcherEvents : Obligations.DispatcherEvents := by
  intro s c x
  refine ⟨fun h => ?_, ?_, fun h => ?_, ?_, fun tk h => taskAge_rises h, sliceStart_clears s⟩
  · change execDispatchSelect s = _
    rw [execDispatchSelect, selectAll_none (selectRound_none h)]
  · intro tk ht hready hp hl hmay hspots hlaunch hq
    obtain ⟨t, hexec, hselect, hs⟩ := dispatchSelect_single ht hready hp hmay hspots hlaunch hl hq
    obtain ⟨a, b, pd, o, d, hctx⟩ := hs.ctx
    refine ⟨t, _, hexec, hs.tasks, rfl, rfl, hselect, ?_⟩
    rw [hctx]
    exact ⟨rfl, rfl, rfl, rfl, rfl, launch_regs (s.ctx c x) tk 0 (s.part tk.part).tvec1 (s.part tk.part).tvec2 s.cycle, (launch_vectors (s.ctx c x) tk 0 [] (s.part tk.part).tvec1 (s.part tk.part).tvec2 s.cycle).1, (launch_vectors (s.ctx c x) tk 0 [] (s.part tk.part).tvec1 (s.part tk.part).tvec2 s.cycle).2, hs.spent, hs.flags, hs.queues⟩
  · change execDrainingEnd c x s = _
    rw [execDrainingEnd, h]
    rfl
  · intro n tk hdue hn htk hrep
    refine ⟨drainingEnd_member hdue hn htk, fun hm hnext => ?_⟩
    obtain ⟨t, tk', hexec, hdone, hend, hfut⟩ := drainingEnd_last hdue hn htk hrep hm hnext
    exact ⟨t, tk', hexec, hend.phase, hend.task, hend.select, hend.found, hdone, fun f hf h h2 _ => ⟨_, hfut f hf h h2, rfl, rfl⟩⟩

end Sys2Proof.Machine
end

section
/-! PROOFS. O33, O34: SCTL. A word that names another context of the core and may act does so on the state of its issue, in which that context is as
before (`issued_ctx_ne`); inside a bracket its effect is kept back (R271, R274, R277, R316, R374). -/

namespace Sys2Proof.Machine

/-! ### Another context of the core -/

section
variable {s : State} {x : CtxId}

theorem issued_ctx_ne (hx : x ≠ s.cur.ctx) : s.issued.ctx s.cur.core x = s.ctx s.cur.core x := by
  obtain ⟨a, b, hi⟩ := s.issued_eq
  rw [hi, State.ctx, State.core_modCore_self]
  exact (Core.ctx_modCtx_ne (s.core s.cur.core) s.cur.ctx x (fun _ => s.issued.me) hx :)

theorem issued_grant (c : CoreId) (x : CtxId) : s.issued.grant c x = s.grant c x := by
  by_cases hc : c = s.cur.core
  · subst hc
    obtain ⟨a, b, hi⟩ := s.issued_eq
    rw [State.grant, hi, State.core_modCore_self]
    rfl
  · rw [State.grant, State.issued_core_ne _ _ hc, State.grant]

theorem issued_partOf (c : CoreId) (x : CtxId) : s.issued.partOf c x = s.partOf c x := by rw [State.partOf, issued_grant, State.partOf]

theorem issued_mayAct (hx : x ≠ s.cur.ctx) : s.issued.mayAct x = s.mayAct x := by
  unfold State.mayAct
  dsimp only
  rw [s.issued_cur, issued_ctx_ne hx, issued_partOf, issued_grant, s.issued_me_pl, s.issued_myPart]

theorem me_modCtx_ne (hx : x ≠ s.cur.ctx) (f : Ctx → Ctx) : (s.modCtx s.cur.core x f).me = s.me :=
  State.ctx_modCtx_ne _ _ _ _ _ _ fun h => hx h.2.symm

theorem sameData_modCtx_ne (hx : x ≠ s.cur.ctx) (f : Ctx → Ctx) : SameData s (s.modCtx s.cur.core x f) :=
  sameData_of_me (by rw [me_modCtx_ne hx]) (by rw [me_modCtx_ne hx]) rfl

/-! ### A word that acts at once (R274, R374) -/

theorem sysWord_now (h : s.sctlReady x) {d : Deferred} (hd : d.target = x) (ok : s.effectOk d = true) (selfNow : Bool) :
    s.sysWord d selfNow = .next (s.issued.effect d) := by
  obtain ⟨htold, hstored, halone, hlevel, hfree⟩ := h
  have hsys : s.sysOk = true := by simp [State.sysOk, State.inFork, halone, hlevel]
  simp only [State.sysWord, hd, State.awaits, htold, hstored, hsys, hfree, ok, List.isEmpty_nil, Bool.not_true, Bool.or_false, Option.isSome_none,
    Bool.false_and, Bool.false_eq_true, if_false]

/-- What may take place before the word's issue may take place after it. -/
theorem effectOk_issued (hx : x ≠ s.cur.ctx) {d : Deferred}
    (hd : d ∈ [Deferred.resume x, .requeue x, .abort x]) : s.issued.effectOk d = s.effectOk d := by
  simp only [List.mem_cons, List.not_mem_nil, or_false] at hd
  rcases hd with rfl | rfl | rfl <;> simp only [State.effectOk, s.issued_cur, issued_mayAct hx, issued_ctx_ne hx, if_neg hx]

theorem effect_resume (ok : s.effectOk (.resume x) = true) :
    s.effect (.resume x) = s.returnFrom s.cur.core x (Nat.max 1 (s.ctx s.cur.core x).held) := by
  simp only [State.effect, ok, Bool.not_true, Bool.false_eq_true, if_false]

theorem effect_requeue (ok : s.effectOk (.requeue x) = true) : s.effect (.requeue x) = s.requeueCtx s.cur.core x := by
  simp only [State.effect, ok, Bool.not_true, Bool.false_eq_true, if_false]

theorem effect_abort (ok : s.effectOk (.abort x) = true) : s.effect (.abort x) = s.abortCtx s.cur.core x := by
  simp only [State.effect, ok, Bool.not_true, Bool.false_eq_true, if_false]

theorem effect_doorbell (hx : x ≠ s.cur.ctx) (hm : s.mayAct x = true) (w : Word) : s.effect (.doorbell w x) =
    s.modCtx s.cur.core x fun k => k.pend s.cycle 0x13 (bits w.toNat 0 16) 1 #v[s.requester, 0, 0, 0] := by
  have ok : s.effectOk (.doorbell w x) = true := by simp [State.effectOk, hx, hm]
  simp only [State.effect, ok, Bool.not_true, Bool.false_eq_true, if_false]

variable (hr : s.sctlReady x) (hx : x ≠ s.cur.ctx) (hm : s.mayAct x = true)
include hr hx hm

theorem doorbell_pends (a : SReg) : ∃ t r, exec (.doorbell a x) s = .next t ∧
    (t.ctx s.cur.core x).pending = (s.ctx s.cur.core x).pending ++ [r] ∧ r.async = true ∧ r.cause = 0x13 ∧
      r.code = (s.rdS a).toNat % 2 ^ 16 ∧ r.level = 1 ∧ SameData s t := by
  have hxi : x ≠ s.issued.cur.ctx := by rwa [s.issued_cur]
  have ok : s.effectOk (.doorbell (s.rdS a) x) = true := by simp [State.effectOk, hx, hm]
  have hi := effect_doorbell hxi ((issued_mayAct hx).trans hm) (s.rdS a)
  rw [s.issued_cur] at hi
  let r : TrapRec := { async := true, cause := 0x13, code := bits (s.rdS a).toNat 0 16, tag := 0, seq := 0, level := 1, park := false,
                           det := #v[s.issued.requester, 0, 0, 0], at_ := s.issued.cycle }
  refine ⟨_, r, sysWord_now hr rfl ok false, ?_, rfl, rfl, bits_zero _ 16, rfl, ?_⟩
  · rw [hi, State.ctx_modCtx_self, issued_ctx_ne hx]
    rfl
  · rw [hi, ← s.issued_cur]
    exact (sameData_issued s).trans (sameData_modCtx_ne hxi _)

theorem preempt_pends (hp : (s.ctx s.cur.core x).phase = .running) (a : SReg) : ∃ t r, exec (.preempt a x) s = .next t ∧
    (t.ctx s.cur.core x).pending = (s.ctx s.cur.core x).pending ++ [r] ∧ r.async = true ∧ r.cause = 0x10 ∧ r.level = s.me.pl ∧
      r.park = (s.rdS a).getLsbD 0 ∧ t.me.preempting = s.me.preempting ++ [x] ∧ SameData s t := by
  have hxi : x ≠ s.issued.cur.ctx := by rwa [s.issued_cur]
  have ok : s.effectOk (.preempt (s.rdS a) x) = true := by simp [State.effectOk, hx, hm, hp]
  have oki : s.issued.effectOk (.preempt (s.rdS a) x) = true := by
    simp [State.effectOk, issued_mayAct hx, issued_ctx_ne hx, hx, hm, hp]
  let r : TrapRec := { async := true, cause := 0x10, code := 0, tag := 0, seq := 0, level := s.issued.me.pl, park := (s.rdS a).toNat.testBit 0,
                       det := #v[s.issued.requester, 0, 0, 0], at_ := s.issued.cycle }
  let u := s.issued.modCtx s.issued.cur.core x fun k => { k with pending := k.pending ++ [r] }
  have hi : s.issued.effect (.preempt (s.rdS a) x) = u.modMe fun k => { k with preempting := k.preempting ++ [x] } := by
    simp only [State.effect, oki, Bool.not_true, Bool.false_eq_true, if_false]
    rfl
  have hme : u.me = s.issued.me := me_modCtx_ne hxi _
  refine ⟨_, r, sysWord_now hr rfl ok false, ?_, rfl, rfl, s.issued_me_pl, rfl, ?_, ?_⟩
  · have hne : (u.modMe fun k => { k with preempting := k.preempting ++ [x] }).ctx s.cur.core x = u.ctx s.cur.core x :=
      State.ctx_modCtx_ne _ _ _ _ _ _ fun h => hxi h.2
    have hux : u.ctx s.cur.core x = { s.ctx s.cur.core x with pending := (s.ctx s.cur.core x).pending ++ [r] } := by
      rw [← issued_ctx_ne hx, ← s.issued_cur]
      exact State.ctx_modCtx_self ..
    rw [hi, hne, hux]
  · rw [hi, State.me_modMe, hme, s.issued_me_preempting]
  · rw [hi]
    exact ((sameData_issued s).trans (sameData_modCtx_ne hxi _)).trans (sameData_modMe u _ rfl rfl)

end

/-! ### RESUME (R270, R274) -/

/-- What a return makes of a context. -/
theorem return_fields {k : Ctx} {l : Nat} {q : Cut} (hq : (k.bankAt l).cut = some q) (hl : l - 1 < 3) (n : Nat) :
    (k.return_ l n).pl = (k.bankAt l).pl ∧ ((k.return_ l n).phase = .running ∨ (k.return_ l n).phase = .handler) ∧
      ((k.return_ l n).bankAt l).valid = false ∧ (k.return_ l n).s = k.s ∧ (k.return_ l n).h = k.h := by
  simp only [Ctx.return_, hq]
  refine ⟨trivial, ?_, congrArg Bank.valid (bankAt_modBank_self _ l _ hl), ?_, ?_⟩
  · split
    · exact .inr rfl
    · exact .inl rfl
  · rfl
  · rfl

section
variable {s : State} {x : CtxId} (hr : s.sctlReady x) (hx : x ≠ s.cur.ctx) (hm : s.mayAct x = true)
  (hp : (s.ctx s.cur.core x).phase = .parked ∨ (s.ctx s.cur.core x).phase = .stopped)
include hr hx hm hp

theorem resume_returns (hcut : ((s.ctx s.cur.core x).bankAt (Nat.max 1 (s.ctx s.cur.core x).held)).cut.isSome = true)
    (hrep : ∀ r ∈ ((s.ctx s.cur.core x).bankAt (Nat.max 1 (s.ctx s.cur.core x).held)).traps, r.cause ≠ 0x15)
    (hreq : ((s.ctx s.cur.core x).bankAt (Nat.max 1 (s.ctx s.cur.core x).held)).requeues = false ∨ (s.ctx s.cur.core x).task = none) :
    exec (.resume x) s = .next (s.issued.modCtx s.cur.core x fun k => k.return_ (Nat.max 1 (s.ctx s.cur.core x).held) s.cycle) := by
  have hphase : (decide ((s.ctx s.cur.core x).phase = .parked) || decide ((s.ctx s.cur.core x).phase = .stopped)) = true := by simpa using hp
  have ok : s.effectOk (.resume x) = true := by simp only [State.effectOk, hm, hphase, hcut, decide_eq_true hx, Bool.and_self]
  have hnone : (((s.ctx s.cur.core x).bankAt (Nat.max 1 (s.ctx s.cur.core x).held)).requeues && (s.ctx s.cur.core x).task.isSome) = false := by
    rcases hreq with h | h <;> simp [h]
  have hplain : (((s.ctx s.cur.core x).bankAt (Nat.max 1 (s.ctx s.cur.core x).held)).traps.any fun r => decide (r.cause = 0x15)) = false := by
    simpa [List.any_eq_false] using hrep
  refine (sysWord_now hr rfl ok false).trans (congrArg _ ?_)
  rw [effect_resume ((effectOk_issued hx (by simp)).trans ok)]
  simp only [State.returnFrom, s.issued_cur, issued_ctx_ne hx, hnone, hplain, s.issued_cycle, Bool.false_eq_true, if_false]

/-! ### REQUEUE and ABORT (R274, R316) -/

theorem requeue_effect : exec (.requeue x) s = .next (s.issued.requeueCtx s.cur.core x) := by
  have hphase : (decide ((s.ctx s.cur.core x).phase = .parked) || decide ((s.ctx s.cur.core x).phase = .stopped)) = true := by simpa using hp
  have ok : s.effectOk (.requeue x) = true := by simp only [State.effectOk, if_neg hx, hm, hphase, Bool.and_self]
  refine (sysWord_now hr rfl ok true).trans (congrArg _ ?_)
  rw [effect_requeue ((effectOk_issued hx (by simp)).trans ok), s.issued_cur]

theorem abort_effect : exec (.abort x) s = .next (s.issued.abortCtx s.cur.core x) := by
  have hphase : (decide ((s.ctx s.cur.core x).phase = .parked) || decide ((s.ctx s.cur.core x).phase = .stopped)) = true := by simpa using hp
  have ok : s.effectOk (.abort x) = true := by simp only [State.effectOk, if_neg hx, hm, hphase, Bool.and_self]
  refine (sysWord_now hr rfl ok true).trans (congrArg _ ?_)
  rw [effect_abort ((effectOk_issued hx (by simp)).trans ok), s.issued_cur]

end

section
variable (s : State) (c : CoreId) (x : CtxId)

/-- The members of a task are all EMPTY. -/
def State.disbanded (s : State) (c : CoreId) (x : CtxId) (n : Nat) : State :=
  ((s.membersOf (s.partOf c x) n).foldl (fun (t : State) m => t.emptyCtx m.1 m.2) s).emptyCtx c x

theorem foldl_emptyCtx_task? (l : List (CoreId × CtxId)) (s : State) (p m : Nat) :
    (l.foldl (fun (t : State) q => t.emptyCtx q.1 q.2) s).task? p m = s.task? p m := by
  induction l generalizing s with
  | nil => rfl
  | cons q l ih => exact (ih _).trans (emptyCtx_task? ..)

theorem disbanded_state (n : Nat) : ((s.disbanded c x n).ctx c x).phase = .empty ∧ ((s.disbanded c x n).ctx c x).task = none ∧
    ∀ p m, (s.disbanded c x n).task? p m = s.task? p m := by
  unfold State.disbanded
  refine ⟨(emptyCtx_state ..).1, (emptyCtx_state ..).2.1, fun p m => ?_⟩
  rw [emptyCtx_task?, foldl_emptyCtx_task?]

theorem requeueCtx_idle {s : State} {c : CoreId} {x : CtxId} (h : (s.ctx c x).task = none) : s.requeueCtx c x = s.emptyCtx c x := by
  simp only [State.requeueCtx, h]

theorem abortCtx_idle {s : State} {c : CoreId} {x : CtxId} (h : (s.ctx c x).task = none) : s.abortCtx c x = s.emptyCtx c x := by
  simp only [State.abortCtx, h]

section
variable {s : State} {c : CoreId} {x : CtxId} {n : Nat} (h : (s.ctx c x).task = some n)
include h

theorem requeueCtx_unknown (ht : (s.disbanded c x n).task? (s.partOf c x) n = none) : s.requeueCtx c x = s.disbanded c x n := by
  unfold State.disbanded at ht ⊢
  simp only [State.requeueCtx, h, ht]

theorem requeueCtx_spent {t : Task} (ht : (s.disbanded c x n).task? (s.partOf c x) n = some t) (hq : t.requeues ≥ 15) :
    s.requeueCtx c x = (s.disbanded c x n).failTask (s.partOf c x) n := by
  unfold State.disbanded at ht ⊢
  simp only [State.requeueCtx, h, ht, if_pos hq]

theorem requeueCtx_ready {t : Task} (ht : (s.disbanded c x n).task? (s.partOf c x) n = some t) (hq : ¬t.requeues ≥ 15) : s.requeueCtx c x =
    ((s.disbanded c x n).modTask (s.partOf c x) n fun t => { t with requeues := t.requeues + 1, drained := 0 }).makeReady (s.partOf c x) n t.prio := by
  unfold State.disbanded at ht ⊢
  simp only [State.requeueCtx, h, ht, if_neg hq]

end

theorem abortCtx_task {s : State} {c : CoreId} {x : CtxId} {n : Nat} (h : (s.ctx c x).task = some n) :
    s.abortCtx c x = (s.disbanded c x n).failTask (s.partOf c x) n := by
  simp only [State.abortCtx, h]
  rfl

theorem failTask_ctx (p n : Nat) : ((s.failTask p n).ctx c x).phase = (s.ctx c x).phase ∧ ((s.failTask p n).ctx c x).task = (s.ctx c x).task := by
  obtain ⟨a, b, pd, o, d, h⟩ := (Noted.homeReport (s.modTask p n fun t => { t with phase := .failed }) p 6).ctx c x
  constructor
  · exact (congrArg Ctx.phase h).trans rfl
  · exact (congrArg Ctx.task h).trans rfl

theorem failTask_task? {s : State} {p n : Nat} {tk : Task} (h : s.task? p n = some tk) : (s.failTask p n).task? p n = some { tk with phase := .failed } := by
  rw [State.failTask, (Noted.homeReport ..).task?, task?_modTask s p n (f := fun t => { t with phase := .failed }) (fun _ => rfl) fun _ => rfl, h]
  rfl

theorem requeued_task? {s : State} {p n : Nat} {tk : Task} (h : s.task? p n = some tk) :
    ((s.modTask p n fun t => { t with requeues := t.requeues + 1, drained := 0 }).makeReady p n tk.prio).task? p n =
      some { tk with requeues := tk.requeues + 1, drained := 0, phase := .ready, level := tk.prio, since := s.cycle, order := s.disp.nextOrder } := by
  have hu : (s.modTask p n fun t => { t with requeues := t.requeues + 1, drained := 0 }).task? p n =
      some { tk with requeues := tk.requeues + 1, drained := 0 } := by
    rw [task?_modTask s p n (f := fun t => { t with requeues := t.requeues + 1, drained := 0 }) (fun _ => rfl) fun _ => rfl, h]
    rfl
  refine (task?_modTask (s.modTask p n fun t => { t with requeues := t.requeues + 1, drained := 0 }) p n
    (f := fun k => { k with phase := .ready, level := tk.prio, since := s.cycle, order := s.disp.nextOrder }) (fun _ => rfl) fun _ => rfl).trans ?_
  rw [hu]
  rfl

theorem requeued_ctx (s : State) (p n l : Nat) (f : Task → Task) (c : CoreId) (x : CtxId) : ((s.modTask p n f).makeReady p n l).ctx c x = s.ctx c x := rfl

theorem abortCtx_state : ((s.abortCtx c x).ctx c x).phase = .empty ∧ ((s.abortCtx c x).ctx c x).task = none ∧
    TaskBecomes s (s.abortCtx c x) c x fun _ tk' => tk'.phase = .failed := by
  cases h : (s.ctx c x).task with
  | none =>
    rw [abortCtx_idle h]
    obtain ⟨hphase, htask, -⟩ := emptyCtx_state s c x
    exact ⟨hphase, htask, fun n tk hn _ => by cases h.symm.trans hn⟩
  | some n =>
    rw [abortCtx_task h]
    obtain ⟨hphase, htask, htasks⟩ := disbanded_state s c x n
    obtain ⟨hp, ht⟩ := failTask_ctx (s.disbanded c x n) c x (s.partOf c x) n
    refine ⟨hp.trans hphase, ht.trans htask, fun m tk hm htk => ?_⟩
    obtain rfl := Option.some.inj (h.symm.trans hm)
    exact ⟨_, failTask_task? ((htasks (s.partOf c x) n).trans htk), rfl⟩

theorem requeueCtx_state : ((s.requeueCtx c x).ctx c x).phase = .empty ∧ ((s.requeueCtx c x).ctx c x).task = none ∧
    TaskBecomes s (s.requeueCtx c x) c x fun tk tk' => tk.requeues < 15 → tk'.phase = .ready ∧ tk'.requeues = tk.requeues + 1 ∧ tk'.level = tk.prio := by
  cases h : (s.ctx c x).task with
  | none =>
    rw [requeueCtx_idle h]
    obtain ⟨hphase, htask, -⟩ := emptyCtx_state s c x
    exact ⟨hphase, htask, fun n tk hn _ => by cases h.symm.trans hn⟩
  | some n =>
    obtain ⟨hphase, htask, htasks⟩ := disbanded_state s c x n
    have hsame : ∀ m tk, some n = some m → s.task? (s.partOf c x) m = some tk → m = n ∧ (s.disbanded c x n).task? (s.partOf c x) n = some tk := by
      intro m tk hm htk
      obtain rfl := Option.some.inj hm
      exact ⟨rfl, (htasks (s.partOf c x) n).trans htk⟩
    cases ht : (s.disbanded c x n).task? (s.partOf c x) n with
    | none =>
      rw [requeueCtx_unknown h ht]
      exact ⟨hphase, htask, fun m tk hm htk => by
        obtain ⟨rfl, htk⟩ := hsame m tk (h.symm.trans hm) htk
        cases ht.symm.trans htk⟩
    | some t =>
      by_cases hq : t.requeues ≥ 15
      · rw [requeueCtx_spent h ht hq]
        obtain ⟨hp, hk⟩ := failTask_ctx (s.disbanded c x n) c x (s.partOf c x) n
        refine ⟨hp.trans hphase, hk.trans htask, fun m tk hm htk => ?_⟩
        obtain ⟨rfl, htk⟩ := hsame m tk (h.symm.trans hm) htk
        obtain rfl := Option.some.inj (ht.symm.trans htk)
        exact ⟨_, failTask_task? ht, fun hlt => absurd hq (Nat.not_le.2 hlt)⟩
      · rw [requeueCtx_ready h ht hq]
        rw [requeued_ctx]
        refine ⟨hphase, htask, fun m tk hm htk => ?_⟩
        obtain ⟨rfl, htk⟩ := hsame m tk (h.symm.trans hm) htk
        obtain rfl := Option.some.inj (ht.symm.trans htk)
        exact ⟨_, requeued_task? ht, fun _ => ⟨rfl, rfl, rfl⟩⟩

end

/-- The task of a context is the same before and after the word's issue. -/
theorem taskBecomes_issued {s t : State} {x : CtxId} (hx : x ≠ s.cur.ctx) {P : Task → Task → Prop} (h : TaskBecomes s.issued t s.cur.core x P) :
    TaskBecomes s t s.cur.core x P := by
  intro n tk hn htk
  have ht : s.issued.task? (s.partOf s.cur.core x) n = some tk := by rw [State.task?, s.issued_disp]; exact htk
  rw [← issued_partOf] at ht ⊢
  exact h n tk (by rw [issued_ctx_ne hx, hn]) ht

/-- Settles O33. -/
theorem contextsAreControlled : Obligations.ContextsAreControlled := by
  intro s a x hr hx hm
  refine ⟨fun hp => preempt_pends hr hx hm hp a, doorbell_pends hr hx hm a, fun hp => ⟨fun hcut hheld hrep hreq => ?_, ?_, ?_⟩⟩
  · have hmax : Nat.max 1 (s.ctx s.cur.core x).held - 1 < 3 := by
      have := Nat.max_le.2 ⟨(by omega : 1 ≤ 3), hheld⟩
      change max 1 _ - 1 < 3
      omega
    obtain ⟨q, hq⟩ := Option.isSome_iff_exists.1 hcut
    obtain ⟨hpl, hphase, hvalid, hs, hh⟩ := return_fields hq hmax s.cycle
    have hctx : (s.issued.modCtx s.cur.core x fun k => k.return_ (Nat.max 1 (s.ctx s.cur.core x).held) s.cycle).ctx s.cur.core x =
        (s.ctx s.cur.core x).return_ (Nat.max 1 (s.ctx s.cur.core x).held) s.cycle := by
      rw [State.ctx_modCtx_self, issued_ctx_ne hx]
    have hdata := (sameData_issued s).trans (sameData_modCtx_ne (s := s.issued) (x := x) (by rwa [s.issued_cur])
      fun k => k.return_ (Nat.max 1 (s.ctx s.cur.core x).held) s.cycle)
    rw [s.issued_cur] at hdata
    exact ⟨_, resume_returns hr hx hm hp hcut hrep hreq, by rw [hctx, hpl], by rw [hctx]; exact hphase, by rw [hctx, hvalid], by rw [hctx, hs],
      by rw [hctx, hh], hdata⟩
  · obtain ⟨hphase, htask, hbec⟩ := requeueCtx_state s.issued s.cur.core x
    exact ⟨_, requeue_effect hr hx hm hp, hphase, htask, taskBecomes_issued hx hbec⟩
  · obtain ⟨hphase, htask, hbec⟩ := abortCtx_state s.issued s.cur.core x
    exact ⟨_, abort_effect hr hx hm hp, hphase, htask, taskBecomes_issued hx hbec⟩

/-! ### Brackets (R277) -/

section
variable {s : State} {x : CtxId} (halone : s.me.fork = none) (hlevel : 1 ≤ s.me.pl)
include halone hlevel

theorem sysOk_of_level : s.sysOk = true := by simp [State.sysOk, State.inFork, halone, hlevel]

/-- Inside a bracket a word that names another context keeps its effect back. -/
theorem sysWord_kept {b : Snap} (hb : s.me.bracket = some b) (hx : x ≠ s.cur.ctx) (htold : s.me.preempting.contains x = false)
    (hstored : s.me.stores = []) {d : Deferred} (hd : d.target = x) (ok : s.afterDeferred.effectOk d = true) (selfNow : Bool) :
    ∃ t, s.sysWord d selfNow = .next t ∧ Issued s t fun k => { k with deferred := k.deferred ++ [d] } := by
  refine ⟨s.issued.modMe fun k => { k with deferred := k.deferred ++ [d] }, ?_, issued_modMe s _ _ fun _ _ _ _ => rfl⟩
  have hself : (selfNow && decide (x = s.cur.ctx)) = false := by rw [decide_eq_false hx, Bool.and_false]
  simp only [State.sysWord, hd, State.awaits, htold, hstored, sysOk_of_level halone hlevel, hb, ok, hself, List.isEmpty_nil, Bool.not_true,
    Bool.not_false, Bool.or_false, Option.isSome_some, Bool.and_self, Bool.false_eq_true, if_false, if_true]

/-- The copy that BOPEN keeps. -/
theorem bopen_keeps (hb : s.me.bracket = none) : ∃ t b, exec (.bopen s.cur.ctx) s = .next t ∧ t.me.bracket = some b ∧ t.me.deferred = [] ∧
    b.s = s.me.s ∧ b.h = s.me.h ∧ b.slipwin = s.me.slipwin ∧ b.vstat = s.me.vstat ∧ b.vrkey = s.me.vrkey ∧ b.vrctr = s.me.vrctr ∧
      b.mstat = s.me.mstat ∧ b.cstat = s.me.cstat ∧ b.sstat = s.me.sstat ∧ b.saecfg = s.me.saecfg ∧ b.clstat = s.me.clstat ∧
      b.htbase = s.me.htbase ∧ b.s1root = s.me.s1root ∧ b.cntsel = s.me.cntsel ∧ b.bank = s.me.bank ∧ b.vregs = s.myCore.v ∧
      b.kregs = s.myCore.k ∧ SameData s t := by
  have hguard : (!s.sysOk || decide (s.cur.ctx ≠ s.cur.ctx) || s.me.bracket.isSome) = false := by
    simp [sysOk_of_level halone hlevel, hb]
  refine ⟨_, _, if_neg (by rw [hguard]; simp), congrArg Ctx.bracket (State.me_modMe ..), congrArg Ctx.deferred (State.me_modMe ..), rfl, rfl, rfl, rfl,
    rfl, rfl, rfl, rfl, rfl, rfl, rfl, rfl, rfl, rfl, rfl, rfl, rfl, (sameData_issued s).trans (sameData_modMe s.issued _ rfl rfl)⟩

theorem exec_bclose (hb : s.me.bracket.isSome = true) (hf : ∀ st, s.me.stop = some st → st.forced = false) : exec (.bclose s.cur.ctx) s =
    .next (s.me.deferred.foldl (fun (t : State) d => t.effect d)
      (s.issued.modMe fun k => { k with bracket := none, deferred := [], bracketWait := none })) := by
  have hguard : (!s.sysOk || decide (s.cur.ctx ≠ s.cur.ctx) || s.me.bracket.isNone) = false := by
    simpa [sysOk_of_level halone hlevel] using hb
  change execBclose _ s = _
  cases hst : s.me.stop with
  | none => simp only [execBclose, hguard, hst, Bool.false_eq_true, if_false]
  | some st => simp only [execBclose, hguard, hst, hf st hst, Bool.false_eq_true, if_false]

theorem exec_bclose_forced (hb : s.me.bracket.isSome = true) {st : Stop} (hst : s.me.stop = some st) (hf : st.forced = true) :
    exec (.bclose s.cur.ctx) s = .next s.issued := by
  have hguard : (!s.sysOk || decide (s.cur.ctx ≠ s.cur.ctx) || s.me.bracket.isNone) = false := by
    simpa [sysOk_of_level halone hlevel] using hb
  change execBclose _ s = _
  simp only [execBclose, hguard, hst, hf, Bool.false_eq_true, if_false, if_true]

end

theorem grant_modCtx (s : State) (c : CoreId) (x : CtxId) (f : Ctx → Ctx) (c' : CoreId) (y : CtxId) : (s.modCtx c x f).grant c' y = s.grant c' y := by
  by_cases h : c' = c
  · subst h
    rw [State.grant, State.core_modCtx_self]
    rfl
  · rw [State.grant, State.core_modCtx_ne _ _ _ _ _ h]
    rfl

section
variable {s : State} {x : CtxId} (hx : x ≠ s.cur.ctx)
include hx

/-- The state in which the effects of a bracket take place. -/
def State.closed (s : State) : State := s.issued.modMe fun k => { k with bracket := none, deferred := [], bracketWait := none }

theorem closed_ctx_ne : s.closed.ctx s.cur.core x = s.ctx s.cur.core x := by
  rw [← issued_ctx_ne hx]
  exact State.ctx_modCtx_ne _ _ _ _ _ _ fun h => hx (h.2.trans (by rw [s.issued_cur]))

theorem closed_mayAct : s.closed.mayAct x = s.mayAct x := by
  have hgrant : ∀ y, s.closed.grant s.cur.core y = s.grant s.cur.core y := fun y => (grant_modCtx ..).trans (issued_grant ..)
  have hcur : s.closed.cur = s.cur := s.issued_cur
  have hpl : s.closed.me.pl = s.me.pl := (congrArg Ctx.pl (State.me_modMe ..)).trans s.issued_me_pl
  have hpart : s.closed.myPart = s.myPart := by
    rw [State.myPart, State.myGrant, hcur]
    exact congrArg Grant.part (hgrant _)
  simp only [State.mayAct, State.partOf, hcur, hpl, hpart, hgrant, closed_ctx_ne hx]
  rfl

/-- A bracket with a doorbell in it rings at its end. -/
theorem bclose_rings (halone : s.me.fork = none) (hlevel : 1 ≤ s.me.pl) {w : Word} (hb : s.me.bracket.isSome = true) (hd : s.me.deferred = [.doorbell w x])
    (hf : ∀ st, s.me.stop = some st → st.forced = false) (hm : s.mayAct x = true) : ∃ t r, exec (.bclose s.cur.ctx) s = .next t ∧
      t.me.bracket = none ∧ (t.ctx s.cur.core x).pending = (s.ctx s.cur.core x).pending ++ [r] ∧ r.cause = 0x13 ∧ r.code = w.toNat % 2 ^ 16 := by
  have hcur : s.closed.cur = s.cur := s.issued_cur
  have hxc : x ≠ s.closed.cur.ctx := by rwa [hcur]
  let r : TrapRec := { async := true, cause := 0x13, code := bits w.toNat 0 16, tag := 0, seq := 0, level := 1, park := false,
                       det := #v[s.closed.requester, 0, 0, 0], at_ := s.closed.cycle }
  have hexec : exec (.bclose s.cur.ctx) s = .next (s.closed.modCtx s.closed.cur.core x fun k => k.pend s.closed.cycle 0x13 (bits w.toNat 0 16) 1
      #v[s.closed.requester, 0, 0, 0]) := by
    rw [exec_bclose halone hlevel hb hf, hd]
    exact congrArg _ (effect_doorbell hxc ((closed_mayAct hx).trans hm) w)
  refine ⟨_, r, hexec, ?_, ?_, rfl, bits_zero _ 16⟩
  · rw [me_modCtx_ne hxc]
    exact congrArg Ctx.bracket (State.me_modMe ..)
  · rw [hcur, State.ctx_modCtx_self, closed_ctx_ne hx]
    rfl

end

/-- Settles O34. -/
theorem bracketsDefer : Obligations.BracketsDefer := by
  intro s a x halone hlevel
  refine ⟨bopen_keeps halone hlevel, fun b hb hx htold hstored p hp ok => ?_, fun hb hd hf => ?_, fun st hb hst hf => ?_,
    fun w hb hd hf hx hm => bclose_rings hx halone hlevel hb hd hf hm⟩
  · simp only [List.mem_cons, List.not_mem_nil, or_false] at hp
    rcases hp with rfl | rfl | rfl | rfl | rfl
    · exact sysWord_kept halone hlevel hb hx htold hstored rfl ok false
    · exact sysWord_kept halone hlevel hb hx htold hstored rfl ok false
    · exact sysWord_kept halone hlevel hb hx htold hstored rfl ok true
    · exact sysWord_kept halone hlevel hb hx htold hstored rfl ok true
    · exact sysWord_kept halone hlevel hb hx htold hstored rfl ok false
  · refine ⟨_, exec_bclose halone hlevel hb hf, ?_⟩
    rw [hd]
    exact issued_modMe s _ _ fun _ _ _ _ => rfl
  · exact ⟨_, exec_bclose_forced halone hlevel hb hst hf, issued_id s⟩

end Sys2Proof.Machine
end

section
/-! PROOFS. O56: the partition commands. RESET in its three steps: the fence leaves what is on its way (`Fenced`), answers are discarded
(`discardAnswers_ctx`), and the sweep of contexts, translations and connections keeps what is already clean (`Sweep`); CHECKPOINT and REPLAY by what
an image holds; SCRUB by the lists of bytes, keys and marks (R230, R338, R343, R344, R347). -/

namespace Sys2Proof.Machine

/-! ### Commands (R338) -/

theorem cmdPart_lt (s : State) : s.cmdPart < 16 := Nat.mod_lt _ (by omega)

theorem part_modPart {s : State} {p : Nat} (hp : p < 16) (f : Part → Part) : (s.modPart p f).part p = f (s.part p) :=
  part_modPart_self s ⟨p, hp⟩ f

theorem ended_cmdOver (s : State) (e : Nat) : Ended (s.cmdOver e) e := ⟨rfl, rfl⟩

theorem inDram_eq (pa n : Nat) : inDram pa n = decide (pa + n ≤ 2 ^ 38) := rfl

theorem pcmdComplete_ends {s : State} (hb : s.mg.busy = true) (h : s.mg.running = 3 ∨ (s.mg.running = 1 ∧ (s.cmdOp = 0 ∨ 5 < s.cmdOp))) :
    ∃ t, exec .pcmdComplete s = .next t ∧ t.mg.busy = false ∧ t.mg.running = 0 ∧ t.host.msix = s.host.msix ++ [(0, 0)] ∧
      t.mg.err = if s.mg.running = 3 then s.mg.err else 4 := by
  rcases h with h | ⟨h, hop⟩
  · refine ⟨{ s with mg := { s.mg with busy := false, running := 0 } }.mgmtIrq, ?_, rfl, rfl, rfl, (if_pos h).symm⟩
    change execPcmdComplete s = _
    simp only [execPcmdComplete, hb, h, decide_true, Bool.and_self, if_true]
  · have hne : ¬s.mg.running = 3 := by rw [h]; omega
    have hres : (s.mg.busy && decide (s.mg.running = 1) && !(decide (1 ≤ s.cmdOp) && decide (s.cmdOp ≤ 5))) = true := by
      rw [hb, h]
      rcases hop with hop | hop
      · rw [hop]; rfl
      · rw [decide_eq_false (Nat.not_le.2 hop), Bool.and_false]; rfl
    refine ⟨({ (s.cmdOver 4) with mg := { (s.cmdOver 4).mg with busy := false, running := 0 } } : State).mgmtIrq, ?_, rfl, rfl, rfl, (if_neg hne).symm⟩
    change execPcmdComplete s = _
    simp only [execPcmdComplete, hb, decide_eq_false hne, Bool.and_false, Bool.false_eq_true, if_false, Bool.true_and]
    rw [hb, Bool.true_and] at hres
    rw [if_pos hres]

/-! ### Bytes of an image in key-0 memory -/

theorem passage_physBytes (s : State) (pa n : Nat) : Passage s (s.physBytes pa n).2 := by
  unfold State.physBytes
  split
  · exact Passage.skipFresh ..
  · exact ⟨Traffic.readMem .., readMem_still ..⟩

/-! ### CREATE (R338, R350) -/

section
variable {s : State} (hs : s.cmdStarts 1 = true)
include hs

theorem create_busy (hq : (s.part s.cmdPart).state ≠ 0) : exec .create s = .next (s.cmdOver 1) := by
  change execCreate s = _
  simp only [execCreate, hs, hq, Bool.not_true, Bool.false_eq_true, if_false, ne_eq, not_false_eq_true, if_true]

/-- What CREATE asks of a partition besides its policy. -/
def State.creatable (s : State) : Prop :=
  (s.part s.cmdPart).key ≠ 0 ∧ (s.grant (s.part s.cmdPart).hcore (s.part s.cmdPart).hctx).v = true ∧
    s.partOf (s.part s.cmdPart).hcore (s.part s.cmdPart).hctx = s.cmdPart ∧ s.cmdArg % 64 = 0 ∧ s.cmdArg + 512 ≤ 2 ^ 38

theorem create_refused (hq : (s.part s.cmdPart).state = 0) (h : ¬s.creatable) : exec .create s = .next (s.cmdOver 4) := by
  have hbad : (decide ((s.part s.cmdPart).key = 0) || !(s.grant (s.part s.cmdPart).hcore (s.part s.cmdPart).hctx).v ||
      decide (s.partOf (s.part s.cmdPart).hcore (s.part s.cmdPart).hctx ≠ s.cmdPart) || decide (s.cmdArg % 64 ≠ 0) || !inDram s.cmdArg 512) = true := by
    by_contra hn
    rw [Bool.not_eq_true] at hn
    simp only [Bool.or_eq_false_iff, decide_eq_false_iff_not, Bool.not_eq_false', not_not, ne_eq, inDram_eq, decide_eq_true_eq] at hn
    obtain ⟨⟨⟨⟨hk, hg⟩, hp⟩, ha⟩, hd⟩ := hn
    exact h ⟨hk, hg, hp, ha, hd⟩
  change execCreate s = _
  simp only [execCreate, hs, hq, Bool.not_true, Bool.false_eq_true, if_false, ne_eq, not_true_eq_false]
  exact if_pos hbad

/-- The partition is ACTIVE with its policy. -/
def State.created (u s : State) (bs : List Byte) : State :=
  let v := u.modPart s.cmdPart fun q =>
    { q with state := 1, policy := some ((policyRules bs).map ruleOf), digest := policyDigest bs, ppwr := 0, pwrWin := Vector.replicate 3 0, sums := [] }
  { v with disp := { v.disp with select := true }
           obs := { v.obs with windowAt := if s.mg.parts.toList.any windowed then v.obs.windowAt else s.micros } }

omit hs in
theorem created_part (u s : State) (bs : List Byte) : (u.created s bs).part s.cmdPart = { u.part s.cmdPart with
    state := 1, policy := some ((policyRules bs).map ruleOf), digest := policyDigest bs, ppwr := 0, pwrWin := Vector.replicate 3 0, sums := [] } :=
  part_modPart (s := u) (cmdPart_lt s) _

/-- CREATE reads its policy. -/
theorem create_reads (hq : (s.part s.cmdPart).state = 0) (h : s.creatable) {bs : List Byte} {u : State} (hu : s.physBytes s.cmdArg 512 = (bs, u)) :
    ∃ t, exec .create s = .next t ∧ if policyOk s.cmdPart bs then Ended t 0 ∧ (t.part s.cmdPart).state = 1 ∧
        (t.part s.cmdPart).key = (s.part s.cmdPart).key ∧ (t.part s.cmdPart).ppwr = 0 ∧
        (t.part s.cmdPart).policy = some ((policyRules bs).map ruleOf) ∧ t.disp.select = true
      else Ended t 2 ∧ (t.part s.cmdPart).state = 0 := by
  obtain ⟨hk, hg, hp, ha, hd⟩ := h
  have hpart : u.part s.cmdPart = s.part s.cmdPart := by
    have hread := (passage_physBytes s s.cmdArg 512).part s.cmdPart
    rwa [hu] at hread
  have hgood : (decide ((s.part s.cmdPart).key = 0) || !(s.grant (s.part s.cmdPart).hcore (s.part s.cmdPart).hctx).v ||
      decide (s.partOf (s.part s.cmdPart).hcore (s.part s.cmdPart).hctx ≠ s.cmdPart) || decide (s.cmdArg % 64 ≠ 0) || !inDram s.cmdArg 512) = false := by
    simp only [Bool.or_eq_false_iff, decide_eq_false_iff_not, Bool.not_eq_false', not_not, ne_eq, inDram_eq, decide_eq_true_eq]
    exact ⟨⟨⟨⟨hk, hg⟩, hp⟩, ha⟩, hd⟩
  by_cases hpol : policyOk s.cmdPart bs = true
  · refine ⟨(u.created s bs).cmdOver 0, ?_, ?_⟩
    · change execCreate s = _
      simp only [execCreate, hs, hq, Bool.not_true, Bool.false_eq_true, if_false, ne_eq, not_true_eq_false]
      refine (if_neg (by rw [hgood]; simp)).trans ?_
      simp only [hu, hpol, Bool.not_true, Bool.false_eq_true, if_false]
      rfl
    · rw [if_pos hpol]
      have ht : ((u.created s bs).cmdOver 0).part s.cmdPart = _ := created_part u s bs
      rw [ht, hpart]
      exact ⟨ended_cmdOver .., rfl, rfl, rfl, rfl, rfl⟩
  · refine ⟨u.cmdOver 2, ?_, ?_⟩
    · change execCreate s = _
      simp only [execCreate, hs, hq, Bool.not_true, Bool.false_eq_true, if_false, ne_eq, not_true_eq_false]
      refine (if_neg (by rw [hgood]; simp)).trans ?_
      simp only [hu, hpol, Bool.not_false, if_true]
    · rw [if_neg hpol]
      exact ⟨ended_cmdOver .., (congrArg Part.state hpart).trans hq⟩

end

/-! ### SCRUB (R14, R230, R338) -/

section
variable {s : State} {base n key : Nat}

theorem scrubRange_byte (a : Nat) : (s.scrubRange base n key).byte a = if base ≤ a ∧ a < base + n then 0 else s.byte a := by
  refine (sget_filter s.mem (fun q => !(decide (base ≤ q) && decide (q < base + n))) a).trans ?_
  by_cases h : base ≤ a ∧ a < base + n
  · rw [if_pos h, if_neg (by simp [h])]
  · rw [if_neg h, if_pos (by simpa [← Bool.decide_and] using h)]
    rfl

theorem scrubRange_bad {a : Nat} (hb : 64 ∣ base) (hn : 64 ∣ n) (h : base ≤ a ∧ a < base + n) : (s.scrubRange base n key).lineBad a = false := by
  obtain ⟨b, rfl⟩ := hb
  obtain ⟨m, rfl⟩ := hn
  have hline : 64 * b ≤ a / 64 * 64 ∧ a / 64 * 64 < 64 * b + 64 * m := by omega
  rw [State.lineBad, Bool.eq_false_iff]
  intro hc
  rw [List.contains_iff_mem, State.scrubRange, List.mem_filter] at hc
  simp [hline] at hc

/-- The key of a line in a list of keys. -/
def keyIn (keys : List (Nat × Nat)) (l : Nat) : Nat := ((keys.find? fun p => p.1 = l).map (·.2)).getD 0

theorem lineKey_eq (s : State) (a : Nat) : s.lineKey a = keyIn s.keys (a / 64) := rfl

theorem keyIn_append (k1 k2 : List (Nat × Nat)) (l : Nat) (h : ∀ q ∈ k1, q.1 ≠ l) : keyIn (k1 ++ k2) l = keyIn k2 l := by
  have hnone : k1.find? (fun p => decide (p.1 = l)) = none := List.find?_eq_none.2 fun q hq => by simpa using h q hq
  rw [keyIn, List.find?_append, hnone]
  rfl

theorem keyIn_filter {keys : List (Nat × Nat)} {p : Nat × Nat → Bool} {l : Nat} (h : ∀ q ∈ keys, q.1 = l → p q = true) :
    keyIn (keys.filter p) l = keyIn keys l := by
  unfold keyIn
  rw [List.find?_filter]
  congr 2
  refine List.find?_congr fun q hq => ?_
  by_cases hl : q.1 = l
  · simp [hl, h q hq hl]
  · simp [hl]

theorem keyIn_append_left (k1 k2 : List (Nat × Nat)) (l : Nat) (h : ∀ q ∈ k2, q.1 ≠ l) : keyIn (k1 ++ k2) l = keyIn k1 l := by
  have hnone : k2.find? (fun p => decide (p.1 = l)) = none := List.find?_eq_none.2 fun q hq => by simpa using h q hq
  rw [keyIn, List.find?_append, hnone, Option.or_none]
  rfl

theorem keyIn_const {keys : List (Nat × Nat)} {l : Nat} (h : ∀ q ∈ keys, q.2 = key) (hl : ∃ q ∈ keys, q.1 = l) : keyIn keys l = key := by
  obtain ⟨q, hq⟩ := Option.isSome_iff_exists.1 (List.find?_isSome.2 (by simpa using hl) : (keys.find? fun p => decide (p.1 = l)).isSome = true)
  rw [keyIn, hq]
  exact h q (List.mem_of_find?_eq_some hq)

/-- The key of a line after the scrub: the new one inside the range, its own outside. -/
theorem scrubRange_key (hb : 64 ∣ base) (hn : 64 ∣ n) (a : Nat) :
    (s.scrubRange base n key).lineKey a = if base ≤ a ∧ a < base + n then key else s.lineKey a := by
  obtain ⟨b, rfl⟩ := hb
  obtain ⟨m, rfl⟩ := hn
  let inside (l : Nat) : Bool := 64 * b ≤ l && l < 64 * b + 64 * m
  let rest := s.keys.filter fun k => !inside (k.1 * 64)
  let mine : List (Nat × Nat) := if key = 0 then [] else (List.range (64 * m / 64)).map fun i => (64 * b / 64 + i, key)
  have hmine : ∀ q ∈ mine, q.2 = key ∧ b ≤ q.1 ∧ q.1 < b + m := by
    intro q hq
    unfold mine at hq
    split at hq
    · cases hq
    · obtain ⟨i, hi, rfl⟩ := List.mem_map.1 hq
      rw [List.mem_range] at hi
      exact ⟨rfl, by dsimp only; omega, by dsimp only; omega⟩
  have hlow : ∀ q ∈ rest.filter fun k => decide (k.1 * 64 < 64 * b), q.1 < b := fun q hq => by
    have := of_decide_eq_true (List.mem_filter.1 hq).2
    omega
  have hhigh : ∀ q ∈ rest.filter fun k => decide (k.1 * 64 ≥ 64 * b + 64 * m), b + m ≤ q.1 := fun q hq => by
    have := of_decide_eq_true (List.mem_filter.1 hq).2
    omega
  have hline : a / 64 * 64 ≤ a ∧ a < a / 64 * 64 + 64 := by omega
  have hout : ¬(64 * b ≤ a ∧ a < 64 * b + 64 * m) → keyIn rest (a / 64) = keyIn s.keys (a / 64) := fun h =>
    keyIn_filter fun q _ hq => by
      rw [hq, Bool.not_eq_true', Bool.and_eq_false_iff, decide_eq_false_iff_not, decide_eq_false_iff_not]
      omega
  rw [lineKey_eq, lineKey_eq]
  change keyIn (((rest.filter fun k => decide (k.1 * 64 < 64 * b)) ++ mine) ++ rest.filter fun k => decide (k.1 * 64 ≥ 64 * b + 64 * m)) (a / 64) = _
  by_cases hin : 64 * b ≤ a ∧ a < 64 * b + 64 * m
  · rw [if_pos hin, keyIn_append_left _ _ _ fun q hq => by have := hhigh q hq; omega, keyIn_append _ _ _ fun q hq => by have := hlow q hq; omega]
    by_cases hk : key = 0
    · subst hk
      rfl
    · refine keyIn_const (fun q hq => (hmine q hq).1) ⟨(64 * b / 64 + (a / 64 - b), key), ?_, by dsimp only; omega⟩
      unfold mine
      rw [if_neg hk]
      exact List.mem_map.2 ⟨a / 64 - b, List.mem_range.2 (by omega), rfl⟩
  · rw [if_neg hin]
    by_cases hlo : a < 64 * b
    · rw [keyIn_append_left _ _ _ fun q hq => by have := hhigh q hq; omega, keyIn_append_left _ _ _ fun q hq => by have := (hmine q hq).2; omega,
        keyIn_filter fun q _ hq => by rw [decide_eq_true_eq]; omega, hout hin]
    · rw [List.append_assoc, keyIn_append _ _ _ fun q hq => by have := hlow q hq; omega, keyIn_append _ _ _ fun q hq => by have := (hmine q hq).2; omega,
        keyIn_filter fun q _ hq => by rw [decide_eq_true_eq]; omega, hout hin]

end

section
variable {s : State} (hs : s.cmdStarts 5 = true)
include hs

theorem scrub_refused (h : s.cmdArg % 2 ^ 12 ≠ 0 ∨ 2 ^ 38 < s.cmdArg / 2 ^ 12 % 2 ^ 26 * 4096 + (s.cmdArg / 2 ^ 38 % 2 ^ 12 + 1) * 4096) :
    exec .scrub s = .next (s.cmdOver 4) := by
  have hbad : (decide (bits s.cmdArg 0 12 ≠ 0) || !inDram (bits s.cmdArg 12 26 * 4096) ((bits s.cmdArg 38 12 + 1) * 4096)) = true := by
    rw [bits_zero, inDram_eq, Bool.or_eq_true, decide_eq_true_eq, Bool.not_eq_true', decide_eq_false_iff_not, Nat.not_le]
    exact h
  change execScrub s = _
  simp only [execScrub, hs, Bool.not_true, Bool.false_eq_true, if_false]
  exact if_pos hbad

theorem scrub_takes (h0 : s.cmdArg % 2 ^ 12 = 0) (h : s.cmdArg / 2 ^ 12 % 2 ^ 26 * 4096 + (s.cmdArg / 2 ^ 38 % 2 ^ 12 + 1) * 4096 ≤ 2 ^ 38) :
    exec .scrub s = .next ((s.scrubRange (s.cmdArg / 2 ^ 12 % 2 ^ 26 * 4096) ((s.cmdArg / 2 ^ 38 % 2 ^ 12 + 1) * 4096)
      (s.cmdArg / 2 ^ 50 % 2 ^ 6)).cmdOver 0) := by
  have hgood : (decide (bits s.cmdArg 0 12 ≠ 0) || !inDram (bits s.cmdArg 12 26 * 4096) ((bits s.cmdArg 38 12 + 1) * 4096)) = false := by
    rw [bits_zero, inDram_eq, Bool.or_eq_false_iff, decide_eq_false_iff_not, not_not, Bool.not_eq_false', decide_eq_true_eq]
    exact ⟨h0, h⟩
  change execScrub s = _
  simp only [execScrub, hs, Bool.not_true, Bool.false_eq_true, if_false]
  exact if_neg (by rw [hgood]; simp)

end

/-! ### RESET: the fence (R343) -/

/-- A fenced context: nothing new leaves it, and what is on its way is answered still. -/
structure Fenced (k k' : Ctx) : Prop where
  phase : k'.phase = .stopping
  pending : k'.pending = []
  loads : k'.loads = k.loads
  stores : k'.stores = k.stores

theorem Fenced.trans {k k' k'' : Ctx} (h : Fenced k k') (h' : Fenced k' k'') : Fenced k k'' :=
  ⟨h'.phase, h'.pending, h'.loads.trans h.loads, h'.stores.trans h.stores⟩

section
variable (s : State) (c : CoreId) (x : CtxId)

/-- The units of a core, and the host's channels, hold nothing of the context any more. -/
def State.dropped (s : State) (c : CoreId) (x : CtxId) : State :=
  (s.freeDma c x).modCore c fun k => { k.dropWork x with owedRes := k.owedRes.filter fun o => o.ctx ≠ x }

theorem dropped_ctx (c' : CoreId) (x' : CtxId) : (s.dropped c x).ctx c' x' = s.ctx c' x' := by
  by_cases h : c' = c
  · subst h
    rw [State.ctx, State.dropped, State.core_modCore_self]
    rfl
  · rw [State.ctx, State.dropped, State.core_modCore_ne _ _ _ _ h]
    rfl

theorem fenceCtx_self (h : (s.ctx c x).phase ≠ .empty) : Fenced (s.ctx c x) ((s.fenceCtx c x).ctx c x) := by
  have hctx : (s.fenceCtx c x).ctx c x = { s.ctx c x with
      phase := .stopping, fences := [], owedFur := none, stop := none, stream := [], fork := none, bracket := none, deferred := [], bracketWait := none,
      preempting := [], pending := [], waitFrom := none, wfeFrom := none, draining := false, walk := Walk.reset, pendWatch := [] } := by
    rw [State.fenceCtx, if_neg h, ← dropped_ctx s c x c x]
    exact State.ctx_modCtx_self ..
  rw [hctx]
  exact ⟨rfl, rfl, rfl, rfl⟩

theorem fenceCtx_ne {c' : CoreId} {x' : CtxId} (h : ¬(c' = c ∧ x' = x)) : (s.fenceCtx c x).ctx c' x' = s.ctx c' x' := by
  unfold State.fenceCtx
  split
  · rfl
  · exact (State.ctx_modCtx_ne _ _ _ _ _ _ h).trans (dropped_ctx ..)

/-- A context that is not EMPTY stays as it is under another's fence, and is fenced by its own. -/
theorem fenceCtx_or {c' : CoreId} {x' : CtxId} (hp : (s.ctx c' x').phase ≠ .empty) :
    (s.fenceCtx c x).ctx c' x' = s.ctx c' x' ∨ Fenced (s.ctx c' x') ((s.fenceCtx c x).ctx c' x') := by
  by_cases h : c' = c ∧ x' = x
  · obtain ⟨rfl, rfl⟩ := h
    exact .inr (fenceCtx_self s c' x' hp)
  · exact .inl (fenceCtx_ne s c x h)

end

theorem foldl_fenceCtx_or (l : List (CoreId × CtxId)) {s : State} {c : CoreId} {x : CtxId} (hp : (s.ctx c x).phase ≠ .empty) :
    (l.foldl (fun (t : State) q => t.fenceCtx q.1 q.2) s).ctx c x = s.ctx c x ∨
      Fenced (s.ctx c x) ((l.foldl (fun (t : State) q => t.fenceCtx q.1 q.2) s).ctx c x) := by
  induction l generalizing s with
  | nil => exact .inl rfl
  | cons q l ih =>
    rw [List.foldl_cons]
    rcases fenceCtx_or s q.1 q.2 hp with h | h
    · rw [← h] at hp ⊢
      exact ih hp
    · have hp' : ((s.fenceCtx q.1 q.2).ctx c x).phase ≠ .empty := by rw [h.phase]; simp
      rcases ih hp' with h' | h'
      · rw [h']
        exact .inr h
      · exact .inr (h.trans h')

theorem foldl_fenceCtx {l : List (CoreId × CtxId)} {s : State} {c : CoreId} {x : CtxId} (hm : (c, x) ∈ l) (hp : (s.ctx c x).phase ≠ .empty) :
    Fenced (s.ctx c x) ((l.foldl (fun (t : State) q => t.fenceCtx q.1 q.2) s).ctx c x) := by
  induction l generalizing s with
  | nil => cases hm
  | cons q l ih =>
    rw [List.foldl_cons]
    rcases List.mem_cons.1 hm with rfl | hm
    · have h := fenceCtx_self s c x hp
      have hp' : ((s.fenceCtx c x).ctx c x).phase ≠ .empty := by rw [h.phase]; simp
      rcases foldl_fenceCtx_or l hp' with h' | h'
      · rw [h']
        exact h
      · exact h.trans h'
    · rcases fenceCtx_or s q.1 q.2 hp with h | h
      · rw [← h] at hp ⊢
        exact ih hm hp
      · exact h.trans (ih hm (by rw [h.phase]; simp))

/-- Every context of a list is fenced. -/
def State.fenceAll (s : State) (l : List (CoreId × CtxId)) : State := l.foldl (fun (t : State) q => t.fenceCtx q.1 q.2) s

/-- RESET has begun. -/
def State.fencing (s : State) : State :=
  let u := ((s.fenceAll (s.contextsOf s.cmdPart)).fenceHost s.cmdPart).modPart s.cmdPart fun q => { q with state := 2 }
  ({ u with mg := { u.mg with fence := some s.cycle, fenceArg := s.cmdPart } } : State).cmdBegin

theorem fencing_ctx (s : State) (c : CoreId) (x : CtxId) : s.fencing.ctx c x = (s.fenceAll (s.contextsOf s.cmdPart)).ctx c x := rfl

theorem fencing_part (s : State) : (s.fencing.part s.cmdPart).state = 2 :=
  congrArg Part.state (part_modPart (s := (s.fenceAll (s.contextsOf s.cmdPart)).fenceHost s.cmdPart) (cmdPart_lt s) fun q => { q with state := 2 })

theorem reset_fences {s : State} (hs : s.cmdStarts 2 = true) (hq : (s.part s.cmdPart).state < 2) : exec .reset s = .next s.fencing := by
  change execReset s = _
  simp only [execReset, hs, if_true, if_neg (Nat.not_le.2 hq)]
  rfl

theorem fencing_fenced {s : State} {c : CoreId} {x : CtxId} (hm : (c, x) ∈ s.contextsOf s.cmdPart) (hp : (s.ctx c x).phase ≠ .empty) :
    Fenced (s.ctx c x) (s.fencing.ctx c x) := by
  rw [fencing_ctx]
  exact foldl_fenceCtx hm hp

theorem reset_refused {s : State} (hs : s.cmdStarts 2 = true) (hq : 2 ≤ (s.part s.cmdPart).state) : exec .reset s = .next (s.cmdOver 1) := by
  change execReset s = _
  simp only [execReset, hs, if_true, if_pos hq]

/-! ### RESET: the answers (R343) -/

/-- No answer is awaited. -/
structure Ctx.Answered (k : Ctx) : Prop where
  loads : k.loads = []
  stores : k.stores = []
  replies : k.replies = []

section
variable (s : State) (c : CoreId) (x : CtxId)

theorem passage_writePhys (u : UnitId) (cls haddr va pa key : Nat) (bs : List Byte) : Passage s (s.writePhys u cls haddr va pa key bs) :=
  ⟨Traffic.writePhys .., writePhys_still ..⟩

/-- The state before the answers of the context are forgotten. -/
def State.storesOpen (s : State) (c : CoreId) (x : CtxId) : State :=
  (s.ctx c x).stores.foldl (fun (t : State) st =>
    let t1 := t.skipFresh 1
    if st.buf = 0 && (t.freeVal 1).toNat = 1 then t1.writePhys (ctlUnit c x) 0 st.haddr st.va st.addr st.key st.bytes else t1) s

theorem passage_storesOpen : Passage s (s.storesOpen c x) := by
  refine foldl_ind (fun t => Passage s t) _ (fun t st h => h.trans ?_) _ s (Passage.refl s)
  dsimp only
  split
  · exact (Passage.skipFresh ..).trans (passage_writePhys ..)
  · exact Passage.skipFresh ..

theorem discardAnswers_eq : s.discardAnswers c x = (s.storesOpen c x).modCtx c x fun k => { k with loads := [], stores := [], replies := [] } := rfl

theorem discardAnswers_ctx (c' : CoreId) (x' : CtxId) : ∃ a b p h d l st rp, (s.discardAnswers c x).ctx c' x' =
      { s.ctx c' x' with handles := a, cnt := b, pending := p, obsHead := h, obsDrop := d, loads := l, stores := st, replies := rp } ∧
    ((s.ctx c' x').Answered → ((s.discardAnswers c x).ctx c' x').Answered) := by
  obtain ⟨a, b, p, h, d, hctx⟩ := (passage_storesOpen s c x).ctx c' x'
  rw [discardAnswers_eq]
  by_cases hc : c' = c ∧ x' = x
  · obtain ⟨rfl, rfl⟩ := hc
    rw [State.ctx_modCtx_self, hctx]
    exact ⟨_, _, _, _, _, _, _, _, rfl, fun _ => ⟨rfl, rfl, rfl⟩⟩
  · rw [State.ctx_modCtx_ne _ _ _ _ _ _ hc, hctx]
    exact ⟨_, _, _, _, _, _, _, _, rfl, fun hk => ⟨hk.loads, hk.stores, hk.replies⟩⟩

theorem discardAnswers_self : ((s.discardAnswers c x).ctx c x).Answered := by
  rw [discardAnswers_eq, State.ctx_modCtx_self]
  exact ⟨rfl, rfl, rfl⟩

end

theorem discardAnswers_answered (s : State) (q : CoreId × CtxId) {c : CoreId} {x : CtxId} (h : (s.ctx c x).Answered) :
    ((s.discardAnswers q.1 q.2).ctx c x).Answered := by
  obtain ⟨_, _, _, _, _, _, _, _, -, hk⟩ := discardAnswers_ctx s q.1 q.2 c x
  exact hk h

theorem foldl_discardAnswers_keeps (l : List (CoreId × CtxId)) {s : State} {c : CoreId} {x : CtxId} (h : (s.ctx c x).Answered) :
    ((l.foldl (fun (t : State) q => t.discardAnswers q.1 q.2) s).ctx c x).Answered := by
  induction l generalizing s with
  | nil => exact h
  | cons q l ih => exact ih (discardAnswers_answered s q h)

theorem foldl_discardAnswers {l : List (CoreId × CtxId)} {s : State} {c : CoreId} {x : CtxId} (hm : (c, x) ∈ l) :
    ((l.foldl (fun (t : State) q => t.discardAnswers q.1 q.2) s).ctx c x).Answered := by
  induction l generalizing s with
  | nil => cases hm
  | cons q l ih =>
    rw [List.foldl_cons]
    rcases List.mem_cons.1 hm with rfl | hm
    · exact foldl_discardAnswers_keeps l (discardAnswers_self s c x)
    · exact ih hm

theorem resetFenceTimeout_answers {s : State} (h : s.fenceOver = true) : ∃ t, exec .resetFenceTimeout s = .next t ∧ (t.part s.cmdPart).state = 3 ∧
    ∀ c x, (c, x) ∈ s.contextsOf s.cmdPart → (t.ctx c x).Answered := by
  let u := (s.contextsOf s.cmdPart).foldl (fun (t : State) q => t.discardAnswers q.1 q.2) s
  refine ⟨u.modPart s.cmdPart fun q => { q with state := 3 }, ?_, congrArg Part.state (part_modPart (s := u) (cmdPart_lt s) _),
    fun c x hm => foldl_discardAnswers hm⟩
  change execResetFenceTimeout s = _
  simp only [execResetFenceTimeout, h, Bool.not_true, Bool.false_eq_true, if_false]
  rfl

/-! ### RESET: the sweep (R343) -/

/-- An EMPTY context with its registers reset. -/
structure Ctx.Blank (k : Ctx) : Prop where
  phase : k.phase = .empty
  pl : k.pl = 0
  scalars : k.s = Vector.replicate 32 0
  headers : k.h = Vector.replicate 32 0

/-- `t` is `s` further swept: the management block and the tables are as they were, and blank contexts are blank still. -/
structure Sweep (s t : State) : Prop where
  mg : t.mg = s.mg
  tasks : t.disp.tasks = s.disp.tasks
  futs : t.disp.futs = s.disp.futs
  blank : ∀ c x, (s.ctx c x).Blank → (t.ctx c x).Blank

namespace Sweep

theorem refl (s : State) : Sweep s s := ⟨rfl, rfl, rfl, fun _ _ h => h⟩

theorem trans {s t u : State} (h : Sweep s t) (k : Sweep t u) : Sweep s u :=
  ⟨k.mg.trans h.mg, k.tasks.trans h.tasks, k.futs.trans h.futs, fun c x hb => k.blank c x (h.blank c x hb)⟩

theorem of_cores {s t : State} (hm : t.mg = s.mg) (hd : t.disp = s.disp) (hc : t.cores = s.cores) : Sweep s t :=
  ⟨hm, by rw [hd], by rw [hd], fun c x h => by simpa only [State.ctx, State.core, hc] using h⟩

theorem of_noted {s t : State} (hm : t.mg = s.mg) (h : Noted s t) : Sweep s t :=
  ⟨hm, h.tasks, h.futs, fun c x hb => by
    obtain ⟨a, b, p, o, d, hctx⟩ := h.ctx c x
    rw [hctx]
    exact ⟨hb.phase, hb.pl, hb.scalars, hb.headers⟩⟩

theorem of_passage {s t : State} (h : Passage s t) : Sweep s t := of_noted h.mg (Noted.of_passage h)

theorem foldl {α : Type} {f : State → α → State} (hf : ∀ t a, Sweep t (f t a)) (l : List α) (s : State) : Sweep s (l.foldl f s) := by
  induction l generalizing s with
  | nil => exact refl s
  | cons a l ih => exact (hf s a).trans (ih _)

/-- A change of a core that does not take a context out of its blank state. -/
theorem modCore (s : State) (c : CoreId) (f : Core → Core) (hf : ∀ x, ((s.core c).ctx x).Blank → ((f (s.core c)).ctx x).Blank) :
    Sweep s (s.modCore c f) :=
  ⟨rfl, rfl, rfl, fun c' x h => by
    by_cases hc : c' = c
    · subst hc
      rw [State.ctx, State.core_modCore_self]
      exact hf x h
    · rw [State.ctx, State.core_modCore_ne _ _ _ _ hc]
      exact h⟩

theorem modCtx (s : State) (c : CoreId) (x : CtxId) (f : Ctx → Ctx) (hf : (s.ctx c x).Blank → (f (s.ctx c x)).Blank) : Sweep s (s.modCtx c x f) :=
  modCore s c _ fun y h => by
    by_cases hy : y = x
    · subst hy
      rw [Core.ctx_modCtx_self]
      exact hf h
    · rw [Core.ctx_modCtx_ne _ _ _ _ hy]
      exact h

theorem homeReport_mg (s : State) (p code : Nat) : (s.homeReport p code).mg = s.mg := by
  unfold State.homeReport
  dsimp only
  split
  · rfl
  · split <;> rfl

theorem homeReport (s : State) (p code : Nat) : Sweep s (s.homeReport p code) := of_noted (homeReport_mg ..) (Noted.homeReport ..)

theorem discardAnswers (s : State) (c : CoreId) (x : CtxId) : Sweep s (s.discardAnswers c x) :=
  (of_passage (passage_storesOpen s c x)).trans (modCtx _ c x _ fun h => ⟨h.phase, h.pl, h.scalars, h.headers⟩)

theorem emptyCtx (s : State) (c : CoreId) (x : CtxId) : Sweep s (s.emptyCtx c x) := by
  unfold State.emptyCtx
  extract_lets p k reports s1 s2 s3 disp col s4 words q
  have h1 : Sweep s s1 := (of_cores rfl rfl rfl : Sweep s (s.freeDma c x)).trans (modCore _ c _ fun _ h => h)
  have h2 : Sweep s1 s2 := modCore s1 c _ fun y h => by
    rw [Core.ctx, Fin.getElem_fin, Vector.getElem_map]
    exact ⟨h.phase, h.pl, h.scalars, h.headers⟩
  have h3 : Sweep s2 s3 := modCtx s2 c x _ fun h => ⟨rfl, h.pl, h.scalars, h.headers⟩
  have h4 : Sweep s s4 := ((h1.trans h2).trans h3).trans ⟨rfl, rfl, rfl, fun _ _ h => h⟩
  split
  · exact h4.trans ⟨rfl, rfl, rfl, fun _ _ h => h⟩
  · exact h4.trans (foldl (fun _ _ => homeReport ..) words s4)

end Sweep

theorem resetItems_ctx (k : Core) (items : Nat) (x : CtxId) : (k.resetItems items).ctx x = k.ctx x := by
  rw [Core.ctx, Core.resetItems, Core.ctx]

/-- A context as RESETTING leaves it. -/
def Ctx.cleared (k : Ctx) : Ctx :=
  { Ctx.reset with bank := Ctx.reset.bank.set 2 k.bank[2], htbase := k.htbase, s1root := k.s1root, s2root := k.s2root, epoch := k.epoch }

theorem blank_cleared (k : Ctx) : k.cleared.Blank := ⟨rfl, rfl, rfl, rfl⟩

theorem clearCtx_eq (s : State) (c : CoreId) (x : CtxId) :
    s.clearCtx c x = (s.emptyCtx c x).modCore c fun k => (k.resetItems (s.grant c x).items).modCtx x Ctx.cleared := rfl

theorem sweep_clearCtx (s : State) (c : CoreId) (x : CtxId) : Sweep s (s.clearCtx c x) := by
  rw [clearCtx_eq]
  refine (Sweep.emptyCtx s c x).trans (Sweep.modCore _ c _ fun y h => ?_)
  by_cases hy : y = x
  · subst hy
    rw [Core.ctx_modCtx_self]
    exact blank_cleared _
  · rw [Core.ctx_modCtx_ne _ _ _ _ hy, resetItems_ctx]
    exact h

theorem clearCtx_blank (s : State) (c : CoreId) (x : CtxId) : ((s.clearCtx c x).ctx c x).Blank := by
  rw [clearCtx_eq, State.ctx, State.core_modCore_self, Core.ctx_modCtx_self]
  exact blank_cleared _

/-- The context is cleared, its answers discarded. -/
def State.clearOne (s : State) (q : CoreId × CtxId) : State := (s.discardAnswers q.1 q.2).clearCtx q.1 q.2

theorem sweep_clearOne (s : State) (q : CoreId × CtxId) : Sweep s (s.clearOne q) := (Sweep.discardAnswers s q.1 q.2).trans (sweep_clearCtx ..)

theorem clearOne_blank (s : State) (c : CoreId) (x : CtxId) : ((s.clearOne (c, x)).ctx c x).Blank := clearCtx_blank ..

theorem sweep_clearAll (l : List (CoreId × CtxId)) (s : State) : Sweep s (l.foldl State.clearOne s) := Sweep.foldl sweep_clearOne l s

theorem clearAll_blank {l : List (CoreId × CtxId)} (s : State) {c : CoreId} {x : CtxId} (hm : (c, x) ∈ l) : ((l.foldl State.clearOne s).ctx c x).Blank := by
  induction l generalizing s with
  | nil => cases hm
  | cons q l ih =>
    rw [List.foldl_cons]
    rcases List.mem_cons.1 hm with rfl | hm
    · exact (sweep_clearAll l _).blank c x (clearOne_blank ..)
    · exact ih _ hm

/-! ### RESET: translations and connections (R323, R343) -/

theorem passage_spoilPhys (s : State) (u : UnitId) (cls pa key n : Nat) : Passage s (s.spoilPhys u cls pa key n) := by
  refine foldl_ind (fun t => Passage s t) _ (fun t p h => h.trans ?_) _ s (Passage.refl s)
  split
  · exact (Passage.skipFresh ..).trans (Passage.writeMem ..)
  · exact Passage.refl t

theorem passage_bucketSpoil (s : State) (o : ColOp) (off n : Nat) : Passage s (s.bucketSpoil o off n) :=
  foldl_ind (fun t => Passage s t) _ (fun _ _ h => h.trans (passage_spoilPhys ..)) _ s (Passage.refl s)

/-- `t` is `s` further swept, with the TLBs of the cores as they were. -/
structure SweepTlb (s t : State) : Prop extends Sweep s t where
  tlb : ∀ c, (t.core c).tlb = (s.core c).tlb

namespace SweepTlb

theorem trans {s t u : State} (h : SweepTlb s t) (k : SweepTlb t u) : SweepTlb s u :=
  ⟨h.toSweep.trans k.toSweep, fun c => (k.tlb c).trans (h.tlb c)⟩

theorem of_cores {s t : State} (hm : t.mg = s.mg) (hd : t.disp = s.disp) (hc : t.cores = s.cores) : SweepTlb s t :=
  ⟨Sweep.of_cores hm hd hc, fun c => by rw [State.core, hc, State.core]⟩

theorem modCore (s : State) (c : CoreId) {f : Core → Core} (hf : ∀ x, ((s.core c).ctx x).Blank → ((f (s.core c)).ctx x).Blank)
    (ht : (f (s.core c)).tlb = (s.core c).tlb) : SweepTlb s (s.modCore c f) :=
  ⟨Sweep.modCore s c f hf, fun c' => by
    by_cases h : c' = c
    · subst h
      rw [State.core_modCore_self, ht]
    · rw [State.core_modCore_ne _ _ _ _ h]⟩

theorem modConn (s : State) (n : Nat) (f : Conn → Conn) : SweepTlb s (s.modConn n f) := by
  unfold State.modConn
  split <;> exact of_cores rfl rfl rfl

theorem endOp (s : State) (o : ColOp) (err : Nat) : SweepTlb s (s.endOp o err) := by
  unfold State.endOp
  split
  · exact of_cores rfl rfl rfl
  · extract_lets s0 s1
    have h0 : SweepTlb s s0 := by
      unfold s0
      split
      · exact of_cores rfl rfl rfl
      · have hp := passage_bucketSpoil s o 0 (o.count * opBytes o.op o.fmt)
        exact of_cores hp.mg hp.disp (congrArg Prod.fst (bucketSpoil_aside ..))
    have h1 : SweepTlb s s1 := h0.trans (of_cores rfl rfl rfl)
    split
    · exact h1
    · split
      · split
        · exact h1.trans (modCore s1 o.core (f := fun k => { k with upds := k.upds ++ [_] }) (fun _ h => h) rfl)
        · exact h1
      · refine h1.trans (modCore s1 o.core (fun y h => ?_) rfl)
        by_cases hy : y = o.ctx
        · subst hy
          rw [Core.ctx_modCtx_self]
          exact ⟨h.phase, h.pl, h.scalars, h.headers⟩
        · rw [Core.ctx_modCtx_ne _ _ _ _ hy]
          exact h

theorem endOps (s : State) (l : List ColOp) (err : Nat) : SweepTlb s (s.endOps l err) :=
  foldl_ind (fun t => SweepTlb s t) (fun (t : State) o => t.endOp o err) (fun _ _ h => h.trans (endOp ..)) l s (of_cores rfl rfl rfl)

theorem clearConn (s : State) (n err : Nat) : SweepTlb s (s.clearConn n err) := by
  unfold State.clearConn
  exact (endOps s (s.users n) err).trans (modConn ..)

end SweepTlb

/-- The tables without the partition's tasks and futures. -/
def State.dropTables (s : State) (p : Nat) : State :=
  { s with disp := { s.disp with tasks := s.disp.tasks.filter fun (t : Task) => t.part ≠ p, futs := s.disp.futs.filter fun (f : Future) => f.part ≠ p } }

/-- The connections of a partition are cleared. -/
def State.dropConns (s : State) (p : Nat) : State :=
  (s.col.conns.filter fun q => q.2.v && q.2.part = p).foldl (fun (t : State) q => t.clearConn q.1 2) s

theorem clearPart_eq (s : State) (p : Nat) : s.clearPart p =
    ((((((s.dropTables p).contextsOf p).foldl State.clearOne (s.dropTables p)).dropTlb (.part p)).dropConns p).modDp p
      fun d => { d with reports := [], lost := false }).modPart p
        fun q => { q with state := 0, policy := none, digest := [], spent := 0, replay := none, replayHalt := false, sums := [] } := by
  have hkeep : (fun e : TlbEntry => decide (e.part ≠ p)) = fun e => !(TlbiKind.part p).takes e := by
    funext e
    simp [TlbiKind.takes]
  have hcore : (fun k : Core => if k.tlb.isEmpty && k.stlb.toList.all List.isEmpty then k
      else { k with tlb := k.tlb.filter fun e => e.part ≠ p, stlb := k.stlb.map fun l => l.filter fun e => e.part ≠ p }) = Core.dropTlb (.part p) := by
    funext k
    split
    · next h => exact (Core.dropTlb_of_empty h _).symm
    · rw [Core.dropTlb, ← hkeep]
  rw [State.dropTlb, ← hcore, ← hkeep]
  rfl

theorem sweep_dropTlb (s : State) (k : TlbiKind) : Sweep s (s.dropTlb k) :=
  ⟨rfl, rfl, rfl, fun c x h => by rw [State.ctx, dropTlb_core]; exact h⟩

theorem sweepTlb_dropConns (s : State) (p : Nat) : SweepTlb s (s.dropConns p) :=
  foldl_ind (fun t => SweepTlb s t) _ (fun _ _ h => h.trans (SweepTlb.clearConn ..)) _ s (SweepTlb.of_cores rfl rfl rfl)

/-- The partition after RESETTING. -/
theorem clearPart_state {s : State} {p : Nat} (hp : p < 16) :
    (s.clearPart p).part p = { s.part p with state := 0, policy := none, digest := [], spent := 0, replay := none, replayHalt := false, sums := [] } ∧
    (s.clearPart p).disp.tasks = s.disp.tasks.filter (fun t => t.part ≠ p) ∧ (s.clearPart p).disp.futs = s.disp.futs.filter (fun f => f.part ≠ p) ∧
    (∀ c, ∀ e ∈ ((s.clearPart p).core c).tlb, e.part ≠ p) ∧ ∀ c x, (c, x) ∈ s.contextsOf p → ((s.clearPart p).ctx c x).Blank := by
  rw [clearPart_eq]
  have ha := sweep_clearAll ((s.dropTables p).contextsOf p) (s.dropTables p)
  have hblank : ∀ c x, (c, x) ∈ s.contextsOf p → ((((s.dropTables p).contextsOf p).foldl State.clearOne (s.dropTables p)).ctx c x).Blank :=
    fun c x hm => clearAll_blank _ hm
  generalize ((s.dropTables p).contextsOf p).foldl State.clearOne (s.dropTables p) = a at ha hblank ⊢
  have hd := sweepTlb_dropConns (a.dropTlb (.part p)) p
  generalize (a.dropTlb (.part p)).dropConns p = d at hd ⊢
  have had : Sweep (s.dropTables p) d := (ha.trans (sweep_dropTlb a _)).trans hd.toSweep
  refine ⟨?_, had.tasks, had.futs, fun c e he => ?_, fun c x hm => ?_⟩
  · rw [part_modPart hp]
    have hpart : d.part p = s.part p := by rw [State.part, had.mg]; rfl
    exact congrArg (fun q : Part => { q with state := 0, policy := none, digest := [], spent := 0, replay := none, replayHalt := false, sums := [] }) hpart
  · have hmem : e ∈ ((a.dropTlb (.part p)).core c).tlb := hd.tlb c ▸ he
    rw [dropTlb_core] at hmem
    simpa [TlbiKind.takes] using (List.mem_filter.1 hmem).2
  · exact hd.blank c x ((sweep_dropTlb a _).blank c x (hblank c x hm))

section
variable {s : State} (hs : s.cmdStarts 2 = false) (hr : s.cmdRuns 2 = true)
include hs hr

theorem reset_quiet (hq : (s.part s.cmdPart).state = 2) (h : s.fenceQuiet s.cmdPart = true) :
    exec .reset s = .next (s.modPart s.cmdPart fun q => { q with state := 3 }) := by
  change execReset s = _
  simp only [execReset, hs, hr, hq, h, Bool.false_eq_true, if_false, decide_true, Bool.and_self, if_true]

theorem reset_waits (hq : (s.part s.cmdPart).state = 2) (h : s.fenceQuiet s.cmdPart = false) : exec .reset s = .next s := by
  change execReset s = _
  simp only [execReset, hs, hr, hq, h, Bool.false_eq_true, if_false, Bool.and_false]
  rfl

/-- The state at the end of a RESET. -/
def State.resetDone (s : State) : State :=
  ({ s.clearPart s.cmdPart with mg := { (s.clearPart s.cmdPart).mg with fence := none } } : State).cmdOver 0

theorem reset_clears (hq : (s.part s.cmdPart).state = 3) : exec .reset s = .next s.resetDone := by
  change execReset s = _
  simp only [execReset, hs, hr, hq, Bool.false_eq_true, if_false, decide_true, Bool.and_self, if_true]
  rfl

end

theorem resetDone_eq (s : State) : s.resetDone.part s.cmdPart = (s.clearPart s.cmdPart).part s.cmdPart ∧
    s.resetDone.disp = (s.clearPart s.cmdPart).disp ∧ s.resetDone.cores = (s.clearPart s.cmdPart).cores := ⟨rfl, rfl, rfl⟩

/-! ### CHECKPOINT (R344) -/

section
variable {s : State} (hs : s.cmdStarts 3 = true)
include hs

theorem checkpoint_begins (hq : (s.part s.cmdPart).state = 1) (h : s.cmdArg + s.dispSize s.cmdPart ≤ 2 ^ 38) : exec .checkpoint s = .next s.cmdBegin := by
  change execCheckpoint s = _
  simp only [execCheckpoint, hs, hq, inDram_eq, decide_eq_true h, if_true, ne_eq, not_true_eq_false, if_false]

theorem checkpoint_misplaced (hq : (s.part s.cmdPart).state = 1) (h : 2 ^ 38 < s.cmdArg + s.dispSize s.cmdPart) :
    exec .checkpoint s = .next (s.cmdOver 4) := by
  change execCheckpoint s = _
  simp only [execCheckpoint, hs, hq, inDram_eq, decide_eq_false (Nat.not_le.2 h), if_true, ne_eq, not_true_eq_false, if_false, Bool.false_eq_true]

theorem checkpoint_refused (hq : (s.part s.cmdPart).state ≠ 1) : exec .checkpoint s = .next (s.cmdOver 1) := by
  change execCheckpoint s = _
  simp only [execCheckpoint, hs, if_true, ne_eq, hq, not_false_eq_true]

end

theorem passage_physPut (s : State) (pa : Nat) (bs : List Byte) : Passage s (s.physPut pa bs) := by
  refine foldl_ind (fun t => Passage s t) _ (fun t i h => ?_) _ s (Passage.refl s)
  split
  · exact h.trans (Passage.writeMem ..)
  · exact h

theorem writeMem_ckpts (s : State) (u : UnitId) (cls a : Nat) (bs : List Byte) : (s.writeMem false u cls a bs).ckpts = s.ckpts :=
  foldl_keeps State.ckpts (f := fun (t : State) (p : Byte × Nat) => t.writeByte false u cls s.fresh (s.fresh + 129 + p.2) (a + p.2) p.1)
    (fun t p => by
      unfold State.writeByte
      dsimp only
      (repeat' split) <;> rfl) bs.zipIdx { s with fresh := s.fresh + 129 + bs.length }

section
variable (s : State) (p kind issuer task : Nat) (arg : Word) (digest desc : List Byte)

theorem logAppend_ckpts : (s.logAppend p kind issuer task arg digest desc).ckpts = s.ckpts := by
  unfold State.logAppend
  extract_lets q v mg pad bytes at_ s1
  split
  · rfl
  · split
    · rfl
    · change s1.ckpts = _
      unfold s1
      split
      · exact writeMem_ckpts ..
      · rfl

theorem logAppend_ckptNum (hp : p < 16) : ((s.logAppend p kind issuer task arg digest desc).part p).ckptNum = (s.part p).ckptNum := by
  unfold State.logAppend
  extract_lets q v mg pad bytes at_ s1
  split
  · rfl
  · split
    · have h := congrArg Part.ckptNum (part_modPart (s := s) hp fun q => { q with log := false })
      exact h
    · have h1 : s1.part p = s.part p := by
        unfold s1
        split
        · exact (Passage.writeMem ..).part p
        · rfl
      rw [part_modPart hp]
      have h := congrArg Part.ckptNum h1
      exact h

end

/-- What CHECKPOINT keeps of a partition. -/
def State.ckptOf (s : State) (p : Nat) : Ckpt :=
  { part := p, num := (s.part p).ckptNum + 1, next := (s.dp p).nextTask, deficit := (s.dp p).deficit, lastCore := (s.dp p).lastCore, cycle := s.cycle
    tasks := s.disp.tasks.filter fun (t : Task) => t.part = p && (t.phase = .pending || t.phase = .ready)
    futs := s.disp.futs.filter fun (f : Future) => f.part = p }

/-- The image and its number stand in their places. -/
def State.imaged (s : State) (p : Nat) : State :=
  ({ s.physPut s.cmdArg (s.dispImage p ((s.part p).ckptNum + 1) (s.ckpts.length + 1)) with ckpts := s.ckpts ++ [s.ckptOf p] } : State).modPart p
    fun q => { q with ckptNum := q.ckptNum + 1 }

theorem exec_checkpoint_runs {s : State} (hs : s.cmdStarts 3 = false) (hr : s.cmdRuns 3 = true) (hb : s.partBusy s.cmdPart = false) :
    ∃ u : State, u = (s.imaged s.cmdPart).logAppend s.cmdPart 1 0 0 (BitVec.ofNat 64 ((s.part s.cmdPart).ckptNum + 1)) [] [] ∧
      exec .checkpoint s = .next (({ u with disp := { u.disp with select := true } } : State).cmdOver u.mg.err) := by
  refine ⟨_, rfl, ?_⟩
  change execCheckpoint s = _
  simp only [execCheckpoint, hs, hr, hb, Bool.false_eq_true, if_false, Bool.not_false, Bool.and_self, if_true]
  rfl

theorem imaged_part {s : State} {p : Nat} (hp : p < 16) : ((s.imaged p).part p).ckptNum = (s.part p).ckptNum + 1 := by
  have hput := (passage_physPut s s.cmdArg (s.dispImage p ((s.part p).ckptNum + 1) (s.ckpts.length + 1))).part p
  rw [State.imaged, part_modPart hp]
  exact congrArg (fun q : Part => q.ckptNum + 1) hput

theorem imaged_tasks (s : State) (p : Nat) : (s.imaged p).disp = s.disp := (passage_physPut s s.cmdArg _).disp

theorem checkpoint_keeps {s : State} (hs : s.cmdStarts 3 = false) (hr : s.cmdRuns 3 = true) (hb : s.partBusy s.cmdPart = false) :
    ∃ t, exec .checkpoint s = .next t ∧ t.mg.running = 3 ∧ t.ckpts = s.ckpts ++ [s.ckptOf s.cmdPart] ∧
      (t.part s.cmdPart).ckptNum = (s.part s.cmdPart).ckptNum + 1 ∧ t.disp.tasks = s.disp.tasks := by
  obtain ⟨u, hu, hexec⟩ := exec_checkpoint_runs hs hr hb
  refine ⟨_, hexec, rfl, ?_, ?_, ?_⟩
  · exact (congrArg State.ckpts hu).trans (logAppend_ckpts ..)
  · have h := logAppend_ckptNum (s.imaged s.cmdPart) s.cmdPart 1 0 0 (BitVec.ofNat 64 ((s.part s.cmdPart).ckptNum + 1)) [] [] (cmdPart_lt s)
    rw [← hu, imaged_part (cmdPart_lt s)] at h
    exact h
  · have h := (Traffic.logAppend (s.imaged s.cmdPart) s.cmdPart 1 0 0 (BitVec.ofNat 64 ((s.part s.cmdPart).ckptNum + 1)) [] []).disp
    rw [← hu, imaged_tasks] at h
    change u.disp.tasks = _
    rw [h]

/-! ### REPLAY (R347) -/

section
variable {s : State} (hs : s.cmdStarts 4 = true)
include hs

theorem replay_refused (hq : (s.part s.cmdPart).state ≠ 1) : exec .replay s = .next (s.cmdOver 1) := by
  change execReplay s = _
  simp only [execReplay, hs, if_true, ne_eq, hq, not_false_eq_true]

theorem replay_misplaced (hq : (s.part s.cmdPart).state = 1) (h : 2 ^ 38 < s.cmdArg + s.dispSize s.cmdPart) : exec .replay s = .next (s.cmdOver 4) := by
  change execReplay s = _
  simp only [execReplay, hs, hq, inDram_eq, decide_eq_false (Nat.not_le.2 h), if_true, ne_eq, not_true_eq_false, if_false, Bool.not_false]

theorem replay_begins {bs : List Byte} {u : State} {off : Nat} (hq : (s.part s.cmdPart).state = 1) (h : s.cmdArg + s.dispSize s.cmdPart ≤ 2 ^ 38)
    (hu : s.physBytes s.cmdArg (s.dispSize s.cmdPart) = (bs, u)) (ho : s.afterCkpt s.cmdPart (s.readCkpt s.cmdPart bs).num = some off) :
    exec .replay s = .next ((u.restoreDisp s.cmdPart (s.readCkpt s.cmdPart bs)).modPart s.cmdPart
      fun q => { q with replay := if off = q.loghead then none else some off }).cmdBegin := by
  change execReplay s = _
  simp only [execReplay, hs, hq, inDram_eq, decide_eq_true h, if_true, ne_eq, not_true_eq_false, if_false, Bool.not_true, Bool.false_eq_true, hu, ho]

end

theorem replay_over {s : State} (hs : s.cmdStarts 4 = false) (hr : s.cmdRuns 4 = true) (hq : (s.part s.cmdPart).replay = none) :
    exec .replay s = .next (s.cmdOver 0) := by
  change execReplay s = _
  simp only [execReplay, hs, hr, hq, Bool.false_eq_true, if_false, if_true, Option.isNone_none]

/-- The futures of an image. -/
theorem readCkpt_futs {s : State} {p : Nat} {bs : List Byte} {f : Future} (hf : f ∈ (s.readCkpt p bs).futs) : f.part = p ∧ 1 ≤ f.num ∧
    f.num ≤ (s.dp p).futmax ∧ f.state = imgDw bs (6 + 2 * f.num) / 2 ^ 62 ∧ f.state ≠ 3 ∧ f.value = BitVec.ofNat 64 (imgDw bs (7 + 2 * f.num)) := by
  obtain ⟨i, hi, hg⟩ := List.mem_filterMap.1 hf
  rw [List.mem_range] at hi
  dsimp only at hg
  split at hg
  · cases hg
  · next h3 =>
    obtain rfl := Option.some.inj hg
    have h8 : 6 + 2 * (i + 1) = 8 + 2 * i := by omega
    have h9 : 7 + 2 * (i + 1) = 9 + 2 * i := by omega
    exact ⟨rfl, by dsimp only; omega, hi, by dsimp only; rw [h8], h3, by dsimp only; rw [h9]⟩

theorem readCkpt_tasks {s : State} {p : Nat} {bs : List Byte} {tk : Task} (ht : tk ∈ (s.readCkpt p bs).tasks) : tk.part = p := by
  obtain ⟨q, hq, rfl⟩ := List.mem_map.1 ht
  obtain ⟨i, -, hi⟩ := List.mem_map.1 (List.fst_mem_of_mem_zipIdx hq)
  dsimp only
  rw [← hi]
  rfl

theorem filter_replaced {α : Type} (l m : List α) (p : α → Bool) (hm : ∀ a ∈ m, p a = true) : ((l.filter fun a => !p a) ++ m).filter p = m := by
  rw [List.filter_append, List.filter_filter, List.filter_eq_self.2 hm]
  simp

theorem restoreDisp_futs {s u : State} {p : Nat} {bs : List Byte} :
    ((u.restoreDisp p (s.readCkpt p bs)).disp.futs.filter fun (f : Future) => f.part = p) =
      (s.readCkpt p bs).futs.map fun (f : Future) => { f with part := p } := by
  have hself : ((s.readCkpt p bs).futs.map fun (f : Future) => { f with part := p }) = (s.readCkpt p bs).futs := by
    conv_rhs => rw [← List.map_id (s.readCkpt p bs).futs]
    refine List.map_congr_left fun f hf => ?_
    obtain ⟨hpart, -⟩ := readCkpt_futs hf
    rw [← hpart]
    rfl
  have hneg : (fun f : Future => decide (f.part ≠ p)) = fun f => !decide (f.part = p) := by
    funext f
    simp
  rw [hself]
  change ((u.disp.futs.filter fun f => decide (f.part ≠ p)) ++ (s.readCkpt p bs).futs).filter _ = _
  rw [hneg]
  exact filter_replaced _ _ _ fun f hf => decide_eq_true (readCkpt_futs hf).1

theorem restoreDisp_tasks {s u : State} {p : Nat} {bs : List Byte} :
    ((u.restoreDisp p (s.readCkpt p bs)).disp.tasks.filter fun (tk : Task) => tk.part = p).map (·.num) = (s.readCkpt p bs).tasks.map (·.num) := by
  have hneg : (fun f : Task => decide (f.part ≠ p)) = fun f => !decide (f.part = p) := by
    funext f
    simp
  change (((u.disp.tasks.filter fun (f : Task) => decide (f.part ≠ p)) ++
    (s.readCkpt p bs).tasks.map fun (t : Task) => { t with order := u.disp.nextOrder + t.order }).filter _).map _ = _
  rw [hneg, filter_replaced _ _ _ fun t ht => by
    obtain ⟨q, hq, rfl⟩ := List.mem_map.1 ht
    have hpart := readCkpt_tasks hq
    exact decide_eq_true hpart, List.map_map]
  rfl

theorem restoreDisp_next {u : State} {p : Nat} (hp : p < 16) (k : Ckpt) : ((u.restoreDisp p k).dp p).nextTask = k.next :=
  congrArg DispPart.nextTask (vget_vmod_self _ _ _ _ hp)

/-- Settles O56. -/
theorem partitionCommands : Obligations.PartitionCommands := by
  intro s
  refine ⟨fun hs => ⟨fun hq => ?_, fun hq h => ?_, fun hq hk hg hp ha hd bs u hu => create_reads hs hq ⟨hk, hg, hp, ha, hd⟩ hu⟩,
    fun hs => ⟨fun hq => ?_, fun hq => ?_⟩, fun hs hr hq => ⟨fun h => ?_, reset_waits hs hr hq, fun h => ?_⟩, fun hs hr hq => ?_,
    fun hs => ⟨fun hq h => ?_, fun hq h => ?_, fun hq => ?_⟩, fun hs hr hb => ?_, fun hs => ⟨fun hq => ?_, fun hq h => ?_, ?_⟩, fun hs hr hq => ?_,
    fun hs => ⟨fun h => ?_, fun h0 h => ?_⟩, pcmdComplete_ends⟩
  · exact ⟨_, create_busy hs hq, ended_cmdOver .., rfl⟩
  · refine ⟨_, create_refused hs hq fun hc => ?_, ended_cmdOver .., rfl⟩
    obtain ⟨hk, hg, hp, ha, hd⟩ := hc
    rcases h with h | h | h | h | h
    · exact hk h
    · rw [hg] at h
      cases h
    · exact h hp
    · exact h ha
    · exact Nat.not_lt.2 hd h
  · exact ⟨_, reset_refused hs hq, ended_cmdOver ..⟩
  · exact ⟨_, reset_fences hs hq, fencing_part s, rfl, rfl, fun c x hm hp =>
      have h := fencing_fenced hm hp
      ⟨h.phase, h.pending, h.loads, h.stores⟩⟩
  · exact ⟨_, reset_quiet hs hr hq h, part_modPart (cmdPart_lt s) _⟩
  · obtain ⟨t, hexec, hstate, hall⟩ := resetFenceTimeout_answers h
    exact ⟨t, hexec, hstate, fun c x hm => ⟨(hall c x hm).loads, (hall c x hm).stores, (hall c x hm).replies⟩⟩
  · obtain ⟨hpart, hdisp, hcores⟩ := resetDone_eq s
    obtain ⟨hclear, htasks, hfuts, htlb, hblank⟩ := clearPart_state (s := s) (cmdPart_lt s)
    have hcore : ∀ c, s.resetDone.core c = (s.clearPart s.cmdPart).core c := fun c => by rw [State.core, hcores, State.core]
    refine ⟨_, reset_clears hs hr hq, ⟨rfl, rfl⟩, by rw [hpart, hclear], by rw [hpart, hclear], by rw [hpart, hclear], fun tk ht => ?_, fun f hf => ?_,
      fun c e he => htlb c e (hcore c ▸ he), fun c x hm => ?_⟩
    · rw [hdisp, htasks] at ht
      exact of_decide_eq_true (List.mem_filter.1 ht).2
    · rw [hdisp, hfuts] at hf
      exact of_decide_eq_true (List.mem_filter.1 hf).2
    · obtain ⟨hphase, hpl, hscal, hhead⟩ := hblank c x hm
      have hctx : s.resetDone.ctx c x = (s.clearPart s.cmdPart).ctx c x := by rw [State.ctx, hcore, State.ctx]
      rw [hctx]
      exact ⟨hphase, hpl, fun r => ⟨by rw [hscal]; simp, by rw [hhead]; simp⟩⟩
  · exact ⟨_, checkpoint_begins hs hq h, rfl, rfl⟩
  · exact ⟨_, checkpoint_misplaced hs hq h, ended_cmdOver ..⟩
  · exact ⟨_, checkpoint_refused hs hq, ended_cmdOver ..⟩
  · obtain ⟨t, hexec, hrun, hck, hnum, htasks⟩ := checkpoint_keeps hs hr hb
    refine ⟨t, _, hexec, hrun, hck, rfl, rfl, rfl, fun tk => ?_, fun f => ?_, hnum, htasks⟩
    · simp [State.ckptOf]
    · simp [State.ckptOf]
  · exact ⟨_, replay_refused hs hq, ended_cmdOver ..⟩
  · exact ⟨_, replay_misplaced hs hq h, ended_cmdOver ..⟩
  · rintro bs u k off hq h hu rfl ho
    have hpart : u.part s.cmdPart = s.part s.cmdPart := by
      have hread := (passage_physBytes s s.cmdArg (s.dispSize s.cmdPart)).part s.cmdPart
      rwa [hu] at hread
    refine ⟨rfl, rfl, fun f hf => (readCkpt_futs hf).2, _, replay_begins hs hq h hu ho, rfl, ?_, restoreDisp_next (cmdPart_lt s) _, restoreDisp_futs,
      restoreDisp_tasks⟩
    have ht := part_modPart (s := u.restoreDisp s.cmdPart (s.readCkpt s.cmdPart bs)) (cmdPart_lt s)
      fun q => { q with replay := if off = q.loghead then none else some off }
    refine (congrArg Part.replay ht).trans ?_
    change (if off = (u.part s.cmdPart).loghead then none else some off) = _
    rw [hpart]
  · exact ⟨_, replay_over hs hr hq, ended_cmdOver ..⟩
  · exact ⟨_, scrub_refused hs h, ended_cmdOver .., fun _ => ⟨rfl, rfl⟩⟩
  · have hb : 64 ∣ s.cmdArg / 2 ^ 12 % 2 ^ 26 * 4096 := Dvd.dvd.mul_left (by decide) _
    have hn : 64 ∣ (s.cmdArg / 2 ^ 38 % 2 ^ 12 + 1) * 4096 := Dvd.dvd.mul_left (by decide) _
    have hbyte := fun a => scrubRange_byte (s := s) (base := s.cmdArg / 2 ^ 12 % 2 ^ 26 * 4096) (n := (s.cmdArg / 2 ^ 38 % 2 ^ 12 + 1) * 4096)
      (key := s.cmdArg / 2 ^ 50 % 2 ^ 6) a
    have hkey := fun a => scrubRange_key (s := s) (key := s.cmdArg / 2 ^ 50 % 2 ^ 6) hb hn a
    exact ⟨_, scrub_takes hs h0 h, ended_cmdOver .., fun a => ⟨fun ha => ⟨(hbyte a).trans (if_pos ha), (hkey a).trans (if_pos ha),
      scrubRange_bad (key := s.cmdArg / 2 ^ 50 % 2 ^ 6) hb hn ha⟩, fun ha => ⟨(hbyte a).trans (if_neg ha), (hkey a).trans (if_neg ha)⟩⟩⟩

end Sys2Proof.Machine
end

section
/-! PROOFS. O48, refuted: where the target's handle has a table entry that stage 2 does not map, the word traps with that translation's fault and
not as an operand out of range (R231, R283). -/

namespace Sys2Proof.Machine

/-- Header 4 names 128 `.i32` elements of DRAM by handle 5, and the handle table stands at the first address past DRAM. -/
def strayTable : State := sSae.modMe fun k => { k with h := k.h.set 4 (hOf [(11, 0), (1, 5), (10, 4), (4, 128)]), htbase := 2 ^ 38 }

/-- SADD of its queues into that target passes its own checks up to R283. -/
theorem strayTable_passes : (soW 4).ty.val ≤ 4 ∧ strayTable.saeGrant 1 (soW 4) = true ∧ strayTable.myCore.saeRoom strayTable.cur.ctx = true ∧
    strayTable.saeQueues 1 (soW 4) = true ∧ strayTable.saeTarget (saeType (soW 4).ty.val) (strayTable.rdH (soW 4).h.hd) = none ∧ strayTable.live := by
  decide +kernel

/-- The trap it records is the stage-2 fault, cause 0x09. -/
theorem strayTable_raises : ∀ t, exec (.sadd (soW 4)) strayTable = .next t → ∀ st r, t.me.stop = some st → st.traps = [r] → r.cause = 0x09 := by
  have h : nx (.sadd (soW 4)) strayTable (raised? 0x09) = true := by decide +kernel
  intro t ht st r hstop htraps
  rw [nx, ht] at h
  simpa [raised?, hstop, htraps] using h

/-- Refutes O48: the clause on a target that fails gives every such word cause 0x02; in `strayTable` its hypotheses hold, and SADD records
cause 0x09. -/
theorem not_scatterIssuesAndCompletes : ¬Obligations.ScatterIssuesAndCompletes := by
  rintro ⟨hwords, -⟩
  obtain ⟨hty, hgrant, hroom, hqueues, htarget, hlive⟩ := strayTable_passes
  obtain ⟨-, -, hissue⟩ := hwords strayTable (soW 4) hty _ (List.mem_cons_self ..)
  obtain ⟨hfails, -⟩ := hissue hgrant hroom hqueues
  obtain ⟨t, hexec, htrap⟩ := hfails htarget hlive
  obtain ⟨st, r, hstop, htraps, -, hcause, -⟩ := htrap.record
  exact absurd (hcause.symm.trans (strayTable_raises t hexec st r hstop htraps)) (by decide)

end Sys2Proof.Machine
end

section
/-! PROOFS. What the furrow coder's accesses may change (R243, R244, R249): a `Passage`, and where an image is written the typed buffers besides
(`Filled`). -/

namespace Sys2Proof.Machine

section
variable (s : State) (c : CoreId) (x : CtxId) (cls : Nat)

/-! ### Reads (R243) -/

theorem Passage.furVa (haddr : Nat) (wr : Bool) : Passage s (s.furVa c x haddr wr).2 := by
  rw [furVa_state]
  exact Passage.handle ..

theorem Passage.readStruck (path : Nat) (rd : List (Nat × Nat)) : Passage s (s.readStruck c x path rd) := by
  refine ⟨Traffic.readStruck .., ?_⟩
  unfold State.readStruck
  split
  · exact still_modCtx ..
  · rfl

theorem Passage.furRead (q : Acq) (haddr n : Nat) : Passage s (s.furRead c x cls q haddr n).2 := by
  have h := Passage.furVa s c x haddr false
  unfold State.furRead
  split
  · next e => rw [e] at h; exact h
  · next e => rw [e] at h; exact h.trans (Passage.skipFresh ..)
  · next va s1 e =>
    rw [e] at h
    have hr := Passage.readVa s1 (furUnit c x) (some 5) cls q false haddr va n
    split
    · next e => rw [e] at hr; exact h.trans hr
    · next e => rw [e] at hr; exact h.trans hr

theorem Passage.furTake (q : Acq) (f : Furrow) : Passage s (s.furTake c x cls q f).2.1 := by
  unfold State.furTake
  split
  · exact refl s
  · split
    · exact refl s
    · have h := Passage.furRead s c x cls q (f.region.toNat + 2 * (f.base - 1)) 2
      split
      · next e => rw [e] at h; exact h
      · next e => rw [e] at h; exact h

theorem Passage.furTop (q : Acq) (f : Furrow) : Passage s (s.furTop c x cls q f).2.1 := by
  unfold State.furTop
  split
  · exact refl s
  · split
    · exact refl s
    · have h := Passage.furRead s c x cls q (f.region.toNat + f.size - 32 * f.dbase) 32
      split
      · next e => rw [e] at h; exact h
      · next e => rw [e] at h; exact h

end

section
variable (c : CoreId) (x : CtxId) (cls : Nat) (q : Acq)

theorem Passage.furByp (n : Nat) : ∀ (s : State) (f : Furrow) (l : List Nat), Passage s (s.furByp c x cls q n f l).2.1 := by
  induction n with
  | zero => exact fun s _ _ => refl s
  | succ n ih =>
    intro s f l
    have h := Passage.furTake s c x cls q f
    unfold State.furByp
    split
    · next e => rw [e] at h; exact h
    · next e => rw [e] at h; exact h.trans (ih ..)

theorem Passage.furRefill (n : Nat) : ∀ (s : State) (v : Nat) (f : Furrow), Passage s (s.furRefill c x cls q n v f).2.1 := by
  induction n with
  | zero => exact fun s _ _ => refl s
  | succ n ih =>
    intro s v f
    have h := Passage.furTake s c x cls q f
    unfold State.furRefill
    split
    · exact refl s
    · split
      · next e => rw [e] at h; exact h
      · next e => rw [e] at h; exact h.trans (ih ..)

theorem Passage.furSyms (t : FTable) (n : Nat) : ∀ (s : State) (i : Nat) (f : Furrow) (l : List Nat),
    Passage s (s.furSyms c x cls q t n i f l).2.1 := by
  induction n with
  | zero => exact fun s _ _ _ => refl s
  | succ n ih =>
    intro s i f l
    unfold State.furSyms
    extract_lets j v slot p
    have h := Passage.furRefill c x cls q 2 s (t.freq p.1 * (v / 2 ^ t.n) + slot - p.2) f
    split
    · next e => rw [e] at h; exact h
    · next e => rw [e] at h; exact h.trans (ih ..)

theorem Passage.furPopTile (s : State) (t : FTable) (w n : Nat) (f : Furrow) : Passage s (s.furPopTile c x cls q t w n f).2.1 := by
  have h := Passage.furByp c x cls q (if w = 16 then ceilDiv n 2 else 0) s f []
  unfold State.furPopTile
  split
  · next e => rw [e] at h; exact h
  · next byp s1 g e =>
    rw [e] at h
    have hs := Passage.furSyms c x cls q t n s1 0 g []
    split
    · next e => rw [e] at hs; exact h.trans hs
    · next e => rw [e] at hs; exact h.trans hs

theorem Passage.furLanes (n : Nat) : ∀ (s : State) (f : Furrow), Passage s (s.furLanes c x cls q n f).2.1 := by
  induction n with
  | zero => exact fun s _ => refl s
  | succ n ih =>
    intro s f
    have h := Passage.furTake s c x cls q f
    unfold State.furLanes
    split
    · next e => rw [e] at h; exact h
    · next a s1 g e =>
      rw [e] at h
      have h2 := Passage.furTake s1 c x cls q g
      split
      · next e => rw [e] at h2; exact h.trans h2
      · next e => rw [e] at h2; exact (h.trans h2).trans (ih ..)

theorem Passage.furAdopt (s : State) (e : DirEntry) (child : Bool) (parent : Nat) : Passage s (s.furAdopt c x cls q e child parent).2 := by
  have h := Passage.furVa s c x e.region.toNat false
  unfold State.furAdopt
  extract_lets blank f
  split
  · next e => rw [e] at h; exact h
  · next s1 e =>
    rw [e] at h
    have hl := Passage.furLanes c x cls q f.lc s1 f
    split
    · exact h
    · split
      · next e => rw [e] at hl; exact h.trans hl
      · next e => rw [e] at hl; exact h.trans hl

end

/-! ### Writes (R244) -/

section
variable (c : CoreId) (x : CtxId) (cls : Nat)

theorem Passage.furWrite (s : State) (haddr : Nat) (bs : List Byte) : Passage s (s.furWrite c x cls haddr bs).2 := by
  have h := Passage.furVa s c x haddr true
  unfold State.furWrite
  split
  · next e => rw [e] at h; exact h
  · next e => rw [e] at h; exact h
  · next va s1 e =>
    rw [e] at h
    have hw := Passage.writeVa s1 (furUnit c x) (some 5) cls haddr va bs
    split
    · next e => rw [e] at hw; exact h.trans hw
    · next e => rw [e] at hw; exact h.trans hw

theorem Passage.furSpill (s : State) (n : Nat) (f : Furrow) : Passage s (s.furSpill c x cls n f).2.1 := by
  unfold State.furSpill
  extract_lets ws
  have h := Passage.furWrite c x cls s (f.region.toNat + 2 * f.base) (ws.flatMap fun w => leBytes 2 w.toNat)
  split
  · next e => rw [e] at h; exact h
  · next e => rw [e] at h; exact h.trans (Passage.count ..)

theorem Passage.furSpillDir (s : State) (f : Furrow) : Passage s (s.furSpillDir c x cls f).2.1 := by
  unfold State.furSpillDir
  split
  · exact refl s
  · next d _ =>
    have h := Passage.furWrite c x cls s (f.region.toNat + f.size - 32 * (f.dbase + 1)) d.bytes
    split
    · next e => rw [e] at h; exact h
    · next e => rw [e] at h; exact h

theorem Passage.furSpillDirs (n : Nat) : ∀ (s : State) (f : Furrow), Passage s (State.furSpillDirs c x cls n s f).2.1 := by
  induction n with
  | zero => exact fun s _ => refl s
  | succ n ih =>
    intro s f
    have h := Passage.furSpillDir c x cls s f
    unfold State.furSpillDirs
    split
    · next e => rw [e] at h; exact h
    · next e => rw [e] at h; exact h.trans (ih ..)

theorem Passage.furPerform (s : State) (f : Furrow) : Passage s (s.furPerform c x cls f).2.1 := by
  have h := Passage.furSpill c x cls s f.top.length f
  unfold State.furPerform
  split
  · next e => rw [e] at h; exact h
  · next e => rw [e] at h; exact h.trans (Passage.furSpillDirs ..)

theorem Passage.furFlushAll (s : State) : Passage s (s.furFlushAll c x).2 := by
  unfold State.furFlushAll
  split
  · exact refl s
  · refine Passage.foldl_snd (fun a f => ?_) _ none s
    split
    · exact refl _
    · split
      · exact refl _
      · exact Passage.furPerform ..

end

/-! ### Images written (R249, R251) -/

/-- A core without its typed buffers as well. -/
def Core.bare (k : Core) : Core := { k.still with abuf := [], cbuf := [], wbuf := [] }

/-- `t` is `s` but for what accesses through handles change, and the typed buffers. -/
structure Filled (s t : State) : Prop extends Traffic s t where
  bare : ∀ c, (t.core c).bare = (s.core c).bare

namespace Filled

theorem of_passage {s t : State} (h : Passage s t) : Filled s t :=
  ⟨h.toTraffic, fun c => congrArg (fun k : Core => { k with abuf := [], cbuf := [], wbuf := [] }) (h.core c)⟩

theorem refl (s : State) : Filled s s := ⟨Traffic.refl s, fun _ => rfl⟩

theorem trans {s t u : State} (h : Filled s t) (k : Filled t u) : Filled s u := ⟨h.toTraffic.trans k.toTraffic, fun c => (k.bare c).trans (h.bare c)⟩

theorem modCore (s : State) (c : CoreId) {f : Core → Core} (hx : ∀ k, (f k).ctxs = k.ctxs) (hf : ∀ k, (f k).bare = k.bare) :
    Filled s (s.modCore c f) := by
  refine ⟨Traffic.modCore s c f hx fun k => ?_, fun c' => ?_⟩
  · have h := congrArg Core.flags (hf k)
    exact h
  · by_cases h : c' = c
    · subst h
      rw [State.core_modCore_self, hf]
    · rw [State.core_modCore_ne _ _ _ _ h]

variable {s t : State} (h : Filled s t)
include h

theorem furs (c : CoreId) : (t.core c).furs = (s.core c).furs := by
  have hk := congrArg Core.furs (h.bare c)
  exact hk

theorem tabs (c : CoreId) : (t.core c).tabs = (s.core c).tabs := by
  have hk := congrArg Core.tabs (h.bare c)
  exact hk

theorem marks (c : CoreId) : (t.core c).marks = (s.core c).marks := by
  have hk := congrArg Core.marks (h.bare c)
  exact hk

theorem fcmd (c : CoreId) : (t.core c).fcmd = (s.core c).fcmd := by
  have hk := congrArg Core.fcmd (h.bare c)
  exact hk

end Filled

theorem setLine_bare (k : Core) (b l : Nat) (v : VReg) : (k.setLine b l v).bare = k.bare := by
  unfold Core.setLine
  (repeat' split) <;> rfl

theorem putImageAt_bare (k : Core) (t : Tensor) (r i0 v : Nat) : (k.putImageAt t r i0 v).bare = k.bare := by
  unfold Core.putImageAt
  split
  · rfl
  · exact setLine_bare ..

theorem setLine_ctxs (k : Core) (b l : Nat) (v : VReg) : (k.setLine b l v).ctxs = k.ctxs := by
  unfold Core.setLine
  (repeat' split) <;> rfl

theorem putImageAt_ctxs (k : Core) (t : Tensor) (r i0 v : Nat) : (k.putImageAt t r i0 v).ctxs = k.ctxs := by
  unfold Core.putImageAt
  split
  · rfl
  · exact setLine_ctxs ..

theorem Filled.foldl_fst {α β γ : Type} {f : (γ × State) × β → α → (γ × State) × β} (hf : ∀ q a, Filled q.1.2 (f q a).1.2)
    (l : List α) (b : β) (g : γ) (s : State) : Filled s (l.foldl f ((g, s), b)).1.2 := by
  induction l generalizing b g s with
  | nil => exact Filled.refl s
  | cons a l ih => exact (hf ((g, s), b) a).trans (ih _ _ _)

theorem Filled.furPutImage (s : State) (c : CoreId) (x : CtxId) (cls : Nat) (t : Tensor) (bs : List Byte) :
    Filled s (s.furPutImage c x cls t bs).2 := by
  unfold State.furPutImage
  extract_lets runs
  refine Filled.foldl_fst (fun a p => ?_) runs (leNat bs) none s
  dsimp only
  split
  · next e =>
    rw [e]
    exact refl _
  · next s1 e =>
    rw [e]
    split
    · exact modCore s1 c
        (fun k => foldl_keeps Core.ctxs (fun k i => putImageAt_ctxs k t p.1 (p.2.1 + i) (a.2 % 2 ^ (t.w * p.2.2) / 2 ^ (t.w * i) % 2 ^ t.w)) _ k)
        fun k => foldl_keeps Core.bare (fun k i => putImageAt_bare k t p.1 (p.2.1 + i) (a.2 % 2 ^ (t.w * p.2.2) / 2 ^ (t.w * i) % 2 ^ t.w)) _ k
    · split
      · exact refl _
      · have h := Passage.furVa s1 c x (t.handle * 2 ^ 48 + (t.byteAt p.1 p.2.1).1) true
        split
        · next e => rw [e] at h; exact of_passage h
        · next e => rw [e] at h; exact of_passage h
        · next va s2 e =>
          rw [e] at h
          have hp := Passage.putDram s2 (furUnit c x) (some 5) cls (t.handle * 2 ^ 48 + (t.byteAt p.1 p.2.1).1) va (t.byteAt p.1 p.2.1).2
            (p.2.2 * t.w) (a.2 % 2 ^ (t.w * p.2.2))
          split
          · next e => rw [e] at hp; exact of_passage (h.trans hp)
          · next e => rw [e] at hp; exact of_passage (h.trans hp)

end Sys2Proof.Machine
end

section
/-! PROOFS. O35: context images (R272, R273, R275, R363). An image is its areas in a row, so a doubleword of an area is found behind the areas before
it; CSAVE writes it after accesses that leave every register (`Passage`), and CLOAD changes only the core and the context it names. -/

namespace Sys2Proof.Machine

/-! ### Areas of an image -/

/-- Segments of one length in a row. -/
theorem length_flatMap_const {α : Type} {f : α → List Byte} {n : Nat} (h : ∀ a, (f a).length = n) (l : List α) :
    (l.flatMap f).length = l.length * n := by
  simp only [List.length_flatMap, h, List.map_const', List.sum_replicate, smul_eq_mul]

@[simp] theorem length_dws (l : List Nat) : (dws l).length = l.length * 8 := length_flatMap_const (length_leBytes 8) l

theorem flatMap_slice {α : Type} {f : α → List Byte} {n : Nat} (h : ∀ a, (f a).length = n) (l : List α) {i : Nat} (hi : i < l.length) :
    ((l.flatMap f).drop (n * i)).take n = f l[i] := by
  induction l generalizing i with
  | nil => exact absurd hi (Nat.not_lt_zero i)
  | cons a l ih =>
    cases i with
    | zero => simp [List.flatMap_cons, ← h a]
    | succ i =>
      have hdrop : (f a ++ l.flatMap f).drop (n * (i + 1)) = (l.flatMap f).drop (n * i) := by
        rw [Nat.mul_succ, Nat.add_comm, ← h a, List.drop_append]
        simp
      rw [List.flatMap_cons, hdrop]
      exact ih (Nat.lt_of_succ_lt_succ hi)

/-- A doubleword of the area `b` that stands behind `a`. -/
theorem imgD_area (a b c : List Byte) {off i : Nat} (ha : a.length = off) (hb : 8 * i + 8 ≤ b.length) :
    imgD (a ++ (b ++ c)) off i = leNat ((b.drop (8 * i)).take 8) := by
  subst ha
  rw [imgD, imgN, ← List.drop_drop, List.drop_left, List.drop_append_of_le_length (by omega), List.take_append_of_le_length]
  rw [List.length_drop]
  omega

theorem dws_slice (l : List Nat) {i : Nat} (hi : i < l.length) : leNat (((dws l).drop (8 * i)).take 8) = l[i] % 2 ^ 64 := by
  rw [dws, flatMap_slice (length_leBytes 8) l hi, leNat_leBytes]

/-! ### The image (R275) -/

theorem length_laneBytes (x : Vector (BitVec 32) 64) : (laneBytes x).length = 256 := by
  rw [laneBytes, length_flatMap_const fun v => length_leBytes 4 _, Vector.length_toList]

theorem length_furrowBytes (f : Furrow) : f.bytes.length = 320 := by rw [Furrow.bytes, List.length_append, length_fill, length_laneBytes]

theorem length_tableBytes (t : FTable) : t.bytes.length = 544 := by rw [FTable.bytes, List.length_append, length_fill, length_fill]

theorem length_markBytes (m : FMark) : m.bytes.length = 320 := by rw [FMark.bytes, List.length_append, length_fill, length_laneBytes]

theorem length_blanked (ok : Bool) (bs : List Byte) : (if ok then bs else bs.map fun _ => 0).length = bs.length := by
  split
  · rfl
  · exact List.length_map ..

section
variable (s : State) (c : CoreId) (t : CtxId) (self : Option SReg) (tok : Nat)

/-- A scalar register of an image. -/
def State.imageReg (i : SReg) : Word := if self = some i && i.val ≠ 0 then ((s.ctx c t).bankAt (s.ctx c t).pl).scr else (s.ctx c t).rdS i

/-- The counter fields of an image. -/
def State.imageCnt : List Nat :=
  if s.counterHidden c t then List.replicate 16 codeWithheld
  else (s.ctx c t).cntsel.toList ++ (List.range 8).map fun i =>
    if cntListed (vget (s.ctx c t).cntsel i 0 % 256) then vget (s.ctx c t).cnt i 0 else codeUnavail

/-- The areas of an image up to its scalar registers, and the rest. -/
theorem image_areas : ∃ g w : List Nat, ∃ rest : List Byte, w.length = 7 ∧ s.image c t self tok =
    fill 64 (dws (0x47484E3800000001 :: g)) ++ (dws ((s.ctx c t).pl :: w) ++ (dws (s.imageCnt c t) ++
      ((List.finRange 32).flatMap (fun i => leBytes 8 (s.imageReg c t self i).toNat) ++ rest))) := by
  unfold State.image
  simp only [List.append_assoc]
  exact ⟨_, _, _, rfl, rfl⟩

theorem length_imageCnt : (s.imageCnt c t).length = 16 := by
  unfold State.imageCnt
  split <;> simp

theorem length_image : (s.image c t self tok).length = 0x1C000 := by
  unfold State.image
  extract_lets q g k b cutE loops loopR sreg mine cause r0 k1 hidden fur
  have hcut (i : Nat) : (cutE i).length = 32 := by
    unfold cutE
    split <;> simp [CutEntry.bytes]
  have hloop (n : Nat) : (loopR n).length = 64 := by
    unfold loopR
    split <;> simp [Loop.bytes]
  have hmine (ok : Bool) (bs : List Byte) : (mine ok bs).length = bs.length := length_blanked ok bs
  have hfur (f : Furrow) : (fur f).length = 320 := length_furrowBytes _
  simp only [List.length_append, List.length_flatMap, length_fill, length_dws, hcut, hloop, hmine, hfur, length_leBytes, List.length_cons, List.length_nil,
    List.map_const', List.sum_replicate, List.length_finRange, List.length_range, Vector.length_toList, length_tableBytes, length_markBytes,
    List.length_replicate, List.length_map, Walker.bytes, queueBytes, smul_eq_mul, apply_ite List.length, ite_self]

end

theorem image_magic (s : State) (c : CoreId) (t : CtxId) (self : Option SReg) (tok : Nat) : imgD (s.image c t self tok) 0 0 = 0x47484E3800000001 := by
  obtain ⟨g, w, rest, -, hi⟩ := image_areas s c t self tok
  have hfirst := fill_slice (n := 64) [] (leBytes 8 0x47484E3800000001) (dws g) (by simp [length_leBytes])
  rw [length_leBytes] at hfirst
  rw [hi, ← List.nil_append (fill 64 _ ++ _), imgD_area (off := 0) [] _ _ rfl (by simp)]
  exact (congrArg leNat hfirst).trans (leNat_leBytes ..)

theorem image_level (s : State) (c : CoreId) (t : CtxId) (self : Option SReg) (tok : Nat) :
    imgD (s.image c t self tok) 0x40 0 = (s.ctx c t).pl % 2 ^ 64 := by
  obtain ⟨g, w, rest, hw, hi⟩ := image_areas s c t self tok
  rw [hi, imgD_area _ _ _ (length_fill ..) (by simp), dws_slice _ (by simp)]
  rfl

theorem image_counters {s : State} {c : CoreId} {t : CtxId} (h : s.counterHidden c t = true) (self : Option SReg) (tok : Nat) (n : Fin 16) :
    imgD (s.image c t self tok) 0x80 n.val = codeWithheld := by
  obtain ⟨g, w, rest, hw, hi⟩ := image_areas s c t self tok
  have hcnt : s.imageCnt c t = List.replicate 16 codeWithheld := if_pos h
  rw [hi, ← List.append_assoc, imgD_area _ _ _ (by simp [hw]) (by simp [hcnt]; omega), dws_slice _ (by simp [hcnt])]
  simp only [hcnt, List.getElem_replicate]
  rfl

theorem image_reg (s : State) (c : CoreId) (t : CtxId) (self : Option SReg) (tok : Nat) (r : SReg) :
    imgD (s.image c t self tok) 0x100 r.val = (s.imageReg c t self r).toNat := by
  obtain ⟨g, w, rest, hw, hi⟩ := image_areas s c t self tok
  have hlen := length_flatMap_const (fun i => length_leBytes 8 (s.imageReg c t self i).toNat) (List.finRange 32)
  rw [hi, ← List.append_assoc, ← List.append_assoc, imgD_area _ _ _ (by simp [hw, length_imageCnt]) (by rw [hlen]; simp; omega),
    flatMap_slice (fun i => length_leBytes 8 _) _ (by simp), leNat_leBytes]
  simp [Nat.mod_eq_of_lt (s.imageReg c t self r).isLt]

/-! ### CSAVE (R272, R363) -/

section
variable {s : State} {x : CtxId} (hs : s.sctlReady x) (hx : x ≠ s.cur.ctx)
include hs hx

/-- What a CSAVE of another context leaves behind once its furrows stand in their regions. -/
def State.csaved (s : State) (x : CtxId) (w va : Nat) : State :=
  (({ s with saved := s.saved ++ [s.savedOf s.cur.core x false] } : State).writeVa (ctlUnit s.cur.core s.cur.ctx) none 0 w va
    (s.image s.cur.core x none (s.saved.length + 1))).2

theorem exec_csave {a : SReg} {i : HInfo} {s1 s2 : State} (hsave : s.savable x = true) (hi : s.imageHandle (s.rdS a) true = some i)
    (hp : s.probeVa (ctlUnit s.cur.core s.cur.ctx) none (s.rdS a).toNat (i.base + haddrO (s.rdS a).toNat) 0x1C000 .wr = (none, s1))
    (hf : s1.furFlushAll s.cur.core x = (none, s2)) (hcur : s2.cur = s.cur) :
    exec (.csave a x) s = .next (((s2.csaved x (s.rdS a).toNat (i.base + haddrO (s.rdS a).toNat)).issued).modMe fun k =>
      { k with bracket := k.bracket.map fun b => { b with images := b.images ++ [s.rdS a] } }) := by
  obtain ⟨htold, hstored, halone, hlevel, hfree⟩ := hs
  have hsys : s.sysOk = true := sysOk_of_level halone hlevel
  change execCsave a x s = _
  simp only [execCsave, State.awaits, htold, hstored, hsys, hsave, hi, hp, hf, hx, State.csaved, hcur, List.isEmpty_nil, Bool.not_true, Bool.or_false,
    Bool.false_eq_true, if_false, Option.isSome_none]

end

/-- The word issues, and an open bracket notes where its image stands. -/
theorem sameData_listed (s : State) (w : Word) : SameData s (s.issued.modMe fun k =>
    { k with bracket := k.bracket.map fun b => { b with images := b.images ++ [w] } }) :=
  (sameData_issued s).trans (sameData_modMe _ _ rfl rfl)

theorem passage_csaved (s : State) (x : CtxId) (w va : Nat) : Passage s (s.csaved x w va) := by
  have h0 : Passage s { s with saved := s.saved ++ [s.savedOf s.cur.core x false] } := ⟨Traffic.of_cores rfl rfl rfl rfl, rfl⟩
  exact h0.trans (Passage.writeVa ..)

theorem Passage.counterHidden {s t : State} (h : Passage s t) (c : CoreId) (x : CtxId) : t.counterHidden c x = s.counterHidden c x := by
  obtain ⟨a, b, p, o, d, hk⟩ := h.ctx c x
  obtain ⟨a', b', p', o', d', hme⟩ := h.me
  have hpart : ∀ c x, t.partOf c x = s.partOf c x := fun c x => congrArg Grant.part (h.grant c x)
  have hmy : t.myPart = s.myPart := by rw [State.myPart, State.myGrant, h.cur, h.grant]; rfl
  have hgran : ∀ p cls rc e, t.gran p cls rc e = s.gran p cls rc e := fun p _ _ _ => by simp only [State.gran, h.part p]
  simp only [State.counterHidden, hpart, hmy, hgran, hk, hme]

theorem csave_writes {s : State} {a : SReg} {x : CtxId} {i : HInfo} {s1 s2 : State} (hs : s.sctlReady x) (hx : x ≠ s.cur.ctx) (hsave : s.savable x = true)
    (hi : s.imageHandle (s.rdS a) true = some i)
    (hp : s.probeVa (ctlUnit s.cur.core s.cur.ctx) none (s.rdS a).toNat (i.base + haddrO (s.rdS a).toNat) 0x1C000 .wr = (none, s1))
    (hf : s1.furFlushAll s.cur.core x = (none, s2)) :
    ∃ t img, exec (.csave a x) s = .next t ∧ img.length = 0x1C000 ∧ imgD img 0 0 = 0x47484E3800000001 ∧
      (∀ r : SReg, imgD img 0x100 r.val = ((s.ctx s.cur.core x).rdS r).toNat) ∧ imgD img 0x40 0 = (s.ctx s.cur.core x).pl % 2 ^ 64 ∧
      (s.counterHidden s.cur.core x = true → ∀ n : Fin 16, imgD img 0x80 n.val = codeWithheld) ∧
      (∀ b, t.byte b = ((({ s2 with saved := s2.saved ++ [s2.savedOf s.cur.core x false] } : State).writeVa (ctlUnit s.cur.core s.cur.ctx) none 0
        (s.rdS a).toNat (i.base + haddrO (s.rdS a).toNat) img).2).byte b) ∧ (∀ r, t.rdS r = s.rdS r) ∧ ∀ r, t.rdH r = s.rdH r := by
  have h2 : Passage s s2 := by
    have h := Passage.probeVa s (ctlUnit s.cur.core s.cur.ctx) none (s.rdS a).toNat (i.base + haddrO (s.rdS a).toNat) 0x1C000 .wr
    have hflush := Passage.furFlushAll s.cur.core x s1
    rw [hp] at h
    rw [hf] at hflush
    exact h.trans hflush
  have hend := h2.trans (passage_csaved s2 x (s.rdS a).toNat (i.base + haddrO (s.rdS a).toNat))
  obtain ⟨a1, b1, p1, o1, d1, hk⟩ := h2.ctx s.cur.core x
  obtain ⟨hregs, hheads, hbytes⟩ := sameData_listed (s2.csaved x (s.rdS a).toNat (i.base + haddrO (s.rdS a).toNat)) (s.rdS a)
  have hexec := exec_csave hs hx hsave hi hp hf h2.cur
  have hlen := length_image s2 s.cur.core x none (s2.saved.length + 1)
  have hmagic := image_magic s2 s.cur.core x none (s2.saved.length + 1)
  refine ⟨_, s2.image s.cur.core x none (s2.saved.length + 1), hexec, hlen, hmagic, fun r => ?_, ?_,
    fun hh n => ?_, fun b => ?_, fun r => (hregs r).trans (hend.rdS r), fun r => (hheads r).trans (hend.rdH r)⟩
  · rw [image_reg, State.imageReg, hk]
    rfl
  · rw [image_level, hk]
  · exact image_counters ((h2.counterHidden ..).trans hh) ..
  · rw [(hbytes b).1, State.csaved, h2.cur]

/-! ### CLOAD (R273) -/

theorem exec_cload {s : State} {a : SReg} {x : CtxId} {bs : List Byte} {u : State} (hs : s.sctlReady x) (hx : x ≠ s.cur.ctx)
    (hr : s.readContext (s.rdS a) x = (.ok (some bs), u)) : exec (.cload a x) s = .next (s.issued.install s.cur.core x bs false) := by
  obtain ⟨htold, hstored, halone, hlevel, hfree⟩ := hs
  have hsys : s.sysOk = true := sysOk_of_level halone hlevel
  change execCload a x s = _
  simp only [execCload, State.awaits, htold, hstored, hsys, hr, hfree, hx, List.isEmpty_nil, Bool.not_true, Bool.or_false, Bool.false_eq_true, if_false,
    Option.isSome_none, decide_false]

theorem furReopen_ctx (s : State) (c : CoreId) (t x : CtxId) : (s.furReopen c t).ctx c x = s.ctx c x := by
  unfold State.furReopen
  split
  · rfl
  · exact ctx_modCore_of_ctxs _ _ _ rfl x

theorem furReopen_sides (s : State) (c : CoreId) (t : CtxId) : (s.furReopen c t).mems = s.mems ∧ (s.furReopen c t).cur = s.cur := by
  unfold State.furReopen
  split <;> exact ⟨rfl, rfl⟩

/-- The context of an image that another context installs. -/
theorem install_ctx (s : State) (c : CoreId) (t : CtxId) (bs : List Byte) :
    ∃ k sv d n, (s.install c t bs false).ctx c t = Ctx.loadImage k bs sv false d n := by
  unfold State.install
  extract_lets sv d g
  rw [furReopen_ctx, State.ctx, State.core_modCore_self, Core.ctx_modCtx_self]
  exact ⟨_, _, _, _, rfl⟩

theorem install_ctx_ne (s : State) (c : CoreId) {t x : CtxId} (h : x ≠ t) (bs : List Byte) : (s.install c t bs false).ctx c x = s.ctx c x := by
  unfold State.install
  extract_lets sv d g
  rw [furReopen_ctx, State.ctx, State.core_modCore_self, Core.ctx_modCtx_ne _ _ _ _ h]
  rfl

theorem install_sides (s : State) (c : CoreId) (t : CtxId) (bs : List Byte) :
    (s.install c t bs false).mems = s.mems ∧ (s.install c t bs false).cur = s.cur := furReopen_sides ..

theorem sameData_install (s : State) {x : CtxId} (hx : x ≠ s.cur.ctx) (bs : List Byte) : SameData s (s.install s.cur.core x bs false) := by
  obtain ⟨hmems, hcur⟩ := install_sides s s.cur.core x bs
  have hme : (s.install s.cur.core x bs false).me = s.me := by
    rw [State.me, hcur]
    exact install_ctx_ne s s.cur.core hx.symm bs
  exact sameData_of_me (congrArg Ctx.s hme) (congrArg Ctx.h hme) hmems

theorem cload_installs {s : State} {a : SReg} {x : CtxId} {bs : List Byte} {u : State} (hs : s.sctlReady x) (hx : x ≠ s.cur.ctx)
    (hr : s.readContext (s.rdS a) x = (.ok (some bs), u)) :
    ∃ t k sv d n, exec (.cload a x) s = .next t ∧ t.ctx s.cur.core x = Ctx.loadImage k bs sv false d n ∧ SameData s t := by
  have hcur : s.issued.cur = s.cur := State.issued_cur s
  obtain ⟨k, sv, d, n, hk⟩ := install_ctx s.issued s.cur.core x bs
  have hdata := sameData_install s.issued (hcur ▸ hx) bs
  rw [hcur] at hdata
  exact ⟨_, k, sv, d, n, exec_cload hs hx hr, hk, (sameData_issued s).trans hdata⟩

/-- Settles O35. -/
theorem imagesAreSavedAndLoaded : Obligations.ImagesAreSavedAndLoaded := by
  intro s a x hs hx
  refine ⟨fun i s1 s2 hsave hi hp hf => csave_writes hs hx hsave hi hp hf, fun bs u hr => ?_⟩
  obtain ⟨t, k, sv, d, n, hexec, hk, hdata⟩ := cload_installs hs hx hr
  refine ⟨t, hexec, ?_⟩
  rw [hk]
  exact ⟨rfl, fun r => Vector.getElem_ofFn .., fun r => Vector.getElem_ofFn .., rfl, rfl, rfl, hdata⟩

end Sys2Proof.Machine
end

section
/-! PROOFS. How a word of the furrow coder issues (R246, R247): `State.furGo` puts its record and shadow in place, makes the word's effect on the core and
leaves every register (`FurGone`). -/

namespace Sys2Proof.Machine

/-- `u` is `s` but for what accesses change, with the tables and marks of the running core as they were. -/
structure Unshadowed (s u : State) : Prop extends Traffic s u where
  tabs : u.myCore.tabs = s.myCore.tabs
  marks : u.myCore.marks = s.myCore.marks

theorem Filled.unshadowed {s u : State} (h : Filled s u) : Unshadowed s u :=
  ⟨h.toTraffic, by rw [State.myCore, h.cur, h.tabs]; rfl, by rw [State.myCore, h.cur, h.marks]; rfl⟩

theorem Passage.unshadowed {s u : State} (h : Passage s u) : Unshadowed s u := (Filled.of_passage h).unshadowed

/-- The running core of `t` is that of `u` after a FUR word of kind `kind` has issued there with the effect `g`, and the word is in execution for `n`
cycles from `s` on. -/
structure FurGone (s u t : State) (h : HOp) (n kind : Nat) (g : Core → Core) : Prop where
  cur : t.cur = s.cur
  runs : FurRunsAs s t h n u.myCore.furs
  core : ∃ m xs a b, m.kind = kind ∧ t.myCore = { g { u.myCore with ctxs := xs, ctlBusy := a, rr := b } with fcmd := some m }

/-- The word has issued and its access has entered the range checker. -/
def State.furIssued (u : State) (fp : Access4) : State := u.issued.modMe fun k => k.enterAccess fp

theorem furIssued_core (u : State) (fp : Access4) : ∃ xs a b, (u.furIssued fp).myCore = { u.myCore with ctxs := xs, ctlBusy := a, rr := b } := by
  obtain ⟨a, b, h⟩ := u.issued_eq
  have hcur : u.issued.cur = u.cur := u.issued_cur
  refine ⟨(u.furIssued fp).myCore.ctxs, b, a, ?_⟩
  rw [State.furIssued, State.modMe, State.myCore, State.modCtx, State.modCore_cur, hcur, State.core_modCore_self, h, State.core_modCore_self]
  rfl

theorem furIssued_data (u : State) (fp : Access4) : SameData u (u.furIssued fp) :=
  (sameData_issued u).trans (sameData_modMe _ _ (enterAccess_regs ..).1 (enterAccess_regs ..).2)

theorem furIssued_cur (u : State) (fp : Access4) : (u.furIssued fp).cur = u.cur := u.issued_cur

theorem headWord_of_traffic {s u : State} (h : Traffic s u) : u.headWord = s.headWord := by
  obtain ⟨a, b, p, o, d, hme⟩ := h.me
  rw [State.headWord, State.headWord, h.cur, hme]
  rfl

/-- A change of the running core that leaves its contexts changes no register. -/
theorem sameData_modMyCore_at {s : State} {f : Core → Core} (h : (f s.myCore).ctxs = s.myCore.ctxs) : SameData s (s.modMyCore f) := by
  have hme : (s.modMyCore f).me = s.me := ctx_modCore_of_ctxs s s.cur.core f h s.cur.ctx
  exact sameData_of_me (congrArg Ctx.s hme) (congrArg Ctx.h hme) rfl

/-- The word's effect `g` on its core and its record `m`. -/
def State.furPlaced (v : State) (m : FCmd) (g : Core → Core) (st : List (Nat × FTable)) : State :=
  ({ v.modMyCore g with stamps := st } : State).modMyCore fun k => { k with fcmd := some m }

theorem furPlaced_core (v : State) (m : FCmd) (g : Core → Core) (st : List (Nat × FTable)) :
    (v.furPlaced m g st).myCore = { g v.myCore with fcmd := some m } := by
  rw [State.furPlaced, State.myCore_modMyCore]
  exact congrArg (fun k : Core => { k with fcmd := some m }) (v.myCore_modMyCore g)

theorem furPlaced_data (v : State) (m : FCmd) {g : Core → Core} (st : List (Nat × FTable)) (hg : ∀ k, (g k).ctxs = k.ctxs) :
    SameData v (v.furPlaced m g st) := by
  have h1 : SameData v (v.modMyCore g) := sameData_modMyCore_at (hg _)
  have h2 : SameData (v.modMyCore g) { v.modMyCore g with stamps := st } := ⟨fun _ => rfl, fun _ => rfl, fun _ => ⟨rfl, rfl⟩⟩
  exact (h1.trans h2).trans (sameData_modMyCore_at rfl)

/-- The record of a word that issues in `u` with the entry `e`. -/
def State.furRecordOf (u : State) (h : HOp) (n kind : Nat) (ins : Option Instr) (hdr : Header) (hfmt : Nat) (spoil : List (Nat × Nat)) (e : SEntry) : FCmd :=
  { due := u.cycle + n, kind := kind, ins := ins, hdr := hdr, hfmt := hfmt, cls := h.ac.val, acq := u.me.governing e.idx, shFur := u.myCore.furs
    shTab := u.myCore.tabs, shMark := u.myCore.marks, spoil := spoil, desc := [], fe := h.fe, flag := h.flag, epoch := u.me.epoch, ent := e
    ctx := u.cur.ctx }

/-- A word that goes into execution with a record made in `u`. -/
theorem furPlaced_gone {s u : State} (hu : Unshadowed s u) (h : HOp) (fp : Access4) {n : Nat} {m : FCmd} {g : Core → Core} (st : List (Nat × FTable))
    (hg : ∀ k, (g k).ctxs = k.ctxs) (hm : ∃ kind ins hdr hfmt spoil e d, m = { u.furRecordOf h n kind ins hdr hfmt spoil e with desc := d }) :
    FurGone s u ((u.furIssued fp).furPlaced m g st) h n m.kind g := by
  obtain ⟨kind, ins, hdr, hfmt, spoil, e, d, rfl⟩ := hm
  obtain ⟨xs, a, b, hk⟩ := furIssued_core u fp
  have hcore := furPlaced_core (u.furIssued fp) { u.furRecordOf h n kind ins hdr hfmt spoil e with desc := d } g st
  obtain ⟨hregs, hheads, -⟩ := (furIssued_data u fp).trans
    (furPlaced_data (u.furIssued fp) { u.furRecordOf h n kind ins hdr hfmt spoil e with desc := d } st hg)
  refine ⟨(furIssued_cur u fp).trans hu.cur, ⟨⟨_, by rw [hcore], ?_, rfl, rfl, ?_, rfl, hu.tabs, hu.marks⟩, fun r => (hregs r).trans (hu.rdS r),
    fun r => (hheads r).trans (hu.rdH r)⟩, _, xs, a, b, rfl, by rw [hcore, hk]⟩
  · exact congrArg (· + n) hu.cycle
  · exact congrArg Agent.ctx hu.cur

/-- The issue of a word with the effect `g` on its core. -/
theorem furGo_eq {s u : State} (hu : Traffic s u) {e : SEntry} (he : s.headWord = some e) (h : HOp) (n kind : Nat) (ins : Option Instr) (hdr : Header)
    (hfmt : Nat) (fp : Access4) (spoil : List (Nat × Nat)) {f : State → State} {g : Core → Core} {st : List (Nat × FTable)}
    (hf : f (u.furIssued fp) = { (u.furIssued fp).modMyCore g with stamps := st }) :
    u.furGo h n kind ins hdr hfmt fp spoil f =
      .next ((u.furIssued fp).furPlaced (u.furRecordOf h n kind ins hdr hfmt spoil e) g st) := by
  have hhead : u.headWord = some e := (headWord_of_traffic hu).trans he
  rw [State.furPlaced, ← hf]
  simp only [State.furGo, hhead]
  rfl

theorem furGo_gone {s u : State} (hu : Unshadowed s u) {e : SEntry} (he : s.headWord = some e) (h : HOp) (n kind : Nat) (ins : Option Instr) (hdr : Header)
    (hfmt : Nat) (fp : Access4) (spoil : List (Nat × Nat)) {f : State → State} {g : Core → Core} {st : List (Nat × FTable)}
    (hf : f (u.furIssued fp) = { (u.furIssued fp).modMyCore g with stamps := st }) (hg : ∀ k, (g k).ctxs = k.ctxs) :
    ∃ t, u.furGo h n kind ins hdr hfmt fp spoil f = .next t ∧ FurGone s u t h n kind g :=
  ⟨_, furGo_eq hu.toTraffic he h n kind ins hdr hfmt fp spoil hf, furPlaced_gone hu h fp st hg ⟨kind, ins, hdr, hfmt, spoil, e, [], rfl⟩⟩

/-- A word whose record then takes the descriptor `d`. -/
theorem furPlaced_desc (v : State) (m : FCmd) (g : Core → Core) (st : List (Nat × FTable)) (d : List Byte) :
    ((v.furPlaced m g st).modMyCore fun k => { k with fcmd := k.fcmd.map fun m => { m with desc := d } }) = v.furPlaced { m with desc := d } g st :=
  State.modCore_modCore { v.modMyCore g with stamps := st } v.cur.core (fun k => { k with fcmd := some m })
    fun k => { k with fcmd := k.fcmd.map fun m => { m with desc := d } }

end Sys2Proof.Machine
end

section
/-! PROOFS. O49: FOPEN, FCLOSE, FMARK, FDROP, FSPLIT and FJOIN (R246, R250, R251, R254 to R256). Each is the issue of a FUR word (`FurGone`) whose effect
sets its furrows and drops marks; the accesses before it are passages. -/

namespace Sys2Proof.Machine

/-! ### A word in execution -/

section
variable {s u t : State} {h : HOp} {n kind : Nat} {g : Core → Core}

/-- The word's issue, where its instruction comes to `State.furGo` with an effect on the core. -/
theorem word_gone {i : Instr} {ins : Option Instr} {hdr : Header} {hfmt : Nat} {fp : Access4} {spoil : List (Nat × Nat)} {f : State → Core → Core}
    (hexec : exec i s = u.furGo h n kind ins hdr hfmt fp spoil fun v => v.modMyCore (f v)) (hu : Unshadowed s u) {e : SEntry} (he : s.headWord = some e)
    (hf : ∀ v k, (f v k).ctxs = k.ctxs) : ∃ t, exec i s = .next t ∧ FurGone s u t h n kind (f (u.furIssued fp)) := by
  obtain ⟨t, ht, hgone⟩ := furGo_gone hu he h n kind ins hdr hfmt fp spoil (f := fun v => v.modMyCore (f v)) rfl (hf _)
  exact ⟨t, hexec.trans ht, hgone⟩

/-- What the word's effect does to a part of the core that its issue leaves. -/
theorem FurGone.part {α : Type} (hgone : FurGone s u t h n kind g) (p : Core → α)
    (hp : ∀ k xs a b q, p { g { k with ctxs := xs, ctlBusy := a, rr := b } with fcmd := q } = p (g k)) : p t.myCore = p (g u.myCore) := by
  obtain ⟨m, xs, a, b, -, hcore⟩ := hgone.core
  rw [hcore, hp]

theorem Passage.myCore {s u : State} (h : Passage s u) : u.myCore.still = s.myCore.still := by
  rw [State.myCore, h.cur]
  exact h.core _

theorem Passage.furs {s u : State} (h : Passage s u) : u.myCore.furs = s.myCore.furs := by
  have hk := congrArg Core.furs h.myCore
  exact hk

theorem Passage.fur {s u : State} (h : Passage s u) (f : FurNo) : u.myCore.fur f = s.myCore.fur f := by rw [Core.fur, h.furs]; rfl

theorem FurGone.sameBuffers (hgone : FurGone s u t h n kind g) (hu : Passage s u)
    (hb : ∀ k, (g k).abuf = k.abuf ∧ (g k).cbuf = k.cbuf ∧ (g k).wbuf = k.wbuf) : SameBuffers s t := by
  obtain ⟨m, xs, a, b, -, hcore⟩ := hgone.core
  have ha := congrArg Core.abuf hu.myCore
  have hc := congrArg Core.cbuf hu.myCore
  have hw := congrArg Core.wbuf hu.myCore
  obtain ⟨ga, gc, gw⟩ := hb { u.myCore with ctxs := xs, ctlBusy := a, rr := b }
  rw [SameBuffers, hcore]
  exact ⟨ga.trans ha, gc.trans hc, gw.trans hw⟩

theorem FurGone.furRuns (hgone : FurGone s u t h n kind g) (hu : Passage s u) : FurRuns s t h n := by
  have h := hgone.runs
  rwa [hu.furs] at h

/-- The furrows but those that the word sets. -/
theorem FurGone.others (hgone : FurGone s u t h n kind g) (hu : Passage s u) {l : List FurNo}
    (hg : ∀ k f, f ∉ l → (g k).fur f = k.fur f) : OtherFurrows s t l := fun f hf => by
  obtain ⟨m, xs, a, b, -, hcore⟩ := hgone.core
  have hset := hg { u.myCore with ctxs := xs, ctlBusy := a, rr := b } f hf
  rw [hcore]
  exact hset.trans (hu.fur f)

end

/-! ### Furrows and marks (R250, R254) -/

theorem newFurrow_fresh (lc : Nat) (region : Word) (size cycle : Nat) (child : Bool) (parent : Nat) :
    NewFurrow (Furrow.fresh lc region size cycle child parent) lc region size child := by
  refine ⟨rfl, ⟨rfl, fun j hj => ?_⟩, ⟨rfl, rfl⟩, ⟨rfl, rfl⟩, rfl, rfl, rfl⟩
  simp [Furrow.lane, Furrow.fresh, vget, hj]

theorem setFur_ctxs (k : Core) (fn : FurNo) (f : Furrow) : (k.setFur fn f).ctxs = k.ctxs := rfl

theorem dropMarks_ctxs (k : Core) (fn : FurNo) (p : FMark → Bool) : (k.dropMarks fn p).ctxs = k.ctxs := rfl

/-- What FCLOSE does to the core (R251). -/
def Core.closeFur (k : Core) (fn : FurNo) : Core := (k.setFur fn { k.fur fn with opened := false }).dropMarks fn fun _ => true

/-- What dropping marks makes of mark `i`. -/
theorem dropMarks_mark (k : Core) (fn : FurNo) (p : FMark → Bool) (i : Fin 8) : (k.dropMarks fn p).marks[i] =
    if ((k.marks[i]).valid && decide ((k.marks[i]).fn = fn.val) && p k.marks[i]) = true then { k.marks[i] with valid := false } else k.marks[i] := by
  simp only [Core.dropMarks, Fin.getElem_fin, Vector.getElem_map]

theorem dropMarks_all (k : Core) (fn : FurNo) (i : Fin 8) (h : ((k.dropMarks fn fun _ => true).marks[i]).valid = true) :
    ((k.dropMarks fn fun _ => true).marks[i]).fn ≠ fn.val := by
  rw [dropMarks_mark] at h ⊢
  split at h
  · cases h
  · next hn =>
    rw [if_neg hn]
    intro hfn
    exact hn (by rw [h, hfn]; simp)

theorem FurGone.unmarked {s u t : State} {h : HOp} {n kind : Nat} {g : Core → Core} {fn : FurNo} (hgone : FurGone s u t h n kind g)
    (hg : ∀ k, ∃ k' : Core, g k = k'.dropMarks fn fun _ => true) : Unmarked t fn := by
  obtain ⟨m, xs, a, b, -, hcore⟩ := hgone.core
  obtain ⟨k', hk⟩ := hg { u.myCore with ctxs := xs, ctlBusy := a, rr := b }
  rw [Unmarked, hcore, hk]
  exact dropMarks_all k' fn

theorem fur_setFur_drop (k : Core) (fn : FurNo) (f : Furrow) (p : FMark → Bool) : ((k.setFur fn f).dropMarks fn p).fur fn = f :=
  Core.fur_setFur_self k fn f

theorem fur_setFur_drop_ne (k : Core) {fn j : FurNo} (h : j ∉ [fn]) (f : Furrow) (p : FMark → Bool) : ((k.setFur fn f).dropMarks fn p).fur j = k.fur j :=
  Core.fur_setFur_ne k (by simpa using h) f

/-! ### A stack cut to a depth (R254) -/

theorem cutStack_depth {α : Type} {base depth : Nat} {top : List α} (h : depth ≤ base + top.length) :
    (cutStack base top depth).1 + (cutStack base top depth).2.length = depth := by
  unfold cutStack
  split
  · rw [List.length_drop]
    omega
  · simp

theorem dropTo_sl (f : Furrow) (m : FMark) : (f.dropTo m).sl = m.sl := by
  unfold Furrow.dropTo Furrow.sl
  dsimp only
  split
  · rfl
  · next h => exact cutStack_depth (Nat.le_of_not_lt h)

theorem dropTo_dd {f : Furrow} {m : FMark} (h : m.dd ≤ f.dd) : (f.dropTo m).dd = m.dd := cutStack_depth h

/-! ### The words -/

section
variable {s : State} {h : HOp} {fn cf : FurNo} {e : SEntry} (hfree : s.furFree = true) (hflag : s.furFlag h = true) (he : s.headWord = some e)

/-- While a word is in execution every other holds (R247). -/
theorem furWords_hold (hbusy : s.furFree = false) (ln : Fin 64) (tb mk : Fin 8) : ∀ i ∈ furWords h fn cf ln tb mk, exec i s = .next s := by
  simp only [furWords, List.forall_mem_cons, List.not_mem_nil, false_implies, implies_true, and_true]
  refine ⟨?_, ?_, ?_, ?_, ?_, ?_, ?_, ?_, ?_, ?_, ?_, ?_, ?_, ?_, ?_⟩
  all_goals exact if_pos (by rw [hbusy]; rfl)

include hfree hflag he

theorem fopen_opens {r : Word} {z : Nat} (hr : s.furRegion (s.rdH h.ha) = some (r, z)) (hc : (s.myCore.fur fn).opened = false) (ln : Fin 64) :
    ∃ t, exec (.fopen h fn ln) s = .next t ∧ FurRuns s t h 4 ∧ SameBuffers s t ∧ NewFurrow (t.myCore.fur fn) (ln.val + 1) r z false ∧
      OtherFurrows s t [fn] ∧ Unmarked t fn := by
  have hexec : exec (.fopen h fn ln) s = s.furGo h 4 0 none 0 0 (s.furPrint h [] []) [] fun s => s.modMyCore fun k =>
      (k.setFur fn (Furrow.fresh (ln.val + 1) r z s.cycle false 0)).dropMarks fn fun _ => true := by
    change execFopen h fn ln s = _
    simp only [execFopen, hfree, hr, hc, hflag, Bool.not_true, Bool.or_false, Bool.false_eq_true, if_false]
  obtain ⟨t, ht, hgone⟩ := word_gone hexec (Passage.refl s).unshadowed he fun _ _ => rfl
  refine ⟨t, ht, hgone.furRuns (Passage.refl s), hgone.sameBuffers (Passage.refl s) fun _ => ⟨rfl, rfl, rfl⟩, ?_,
    hgone.others (Passage.refl s) fun k f hf => fur_setFur_drop_ne k hf _ _, hgone.unmarked fun k => ⟨_, rfl⟩⟩
  rw [hgone.part (fun k => k.fur fn) fun _ _ _ _ _ => rfl, fur_setFur_drop]
  exact newFurrow_fresh ..

theorem fsplitSplit_opens {r : Word} {z : Nat} (hr : s.furRegion (s.rdH h.ha) = some (r, z)) (hne : cf ≠ fn) (ho : (s.myCore.fur fn).opened = true)
    (hc : (s.myCore.fur cf).opened = false) :
    ∃ t, exec (.fsplitSplit h fn cf) s = .next t ∧ FurRuns s t h 4 ∧ SameBuffers s t ∧ NewFurrow (t.myCore.fur cf) (s.myCore.fur fn).lc r z true ∧
      (t.myCore.fur cf).parent = fn.val ∧ OtherFurrows s t [cf] ∧ Unmarked t cf := by
  have hexec : exec (.fsplitSplit h fn cf) s = s.furGo h 4 0 none 0 0 (s.furPrint h [] []) [] fun u => u.modMyCore fun k =>
      (k.setFur cf (Furrow.fresh (s.myCore.fur fn).lc r z u.cycle true fn.val)).dropMarks cf fun _ => true := by
    change execFsplitSplit h fn cf s = _
    simp only [execFsplitSplit, hfree, hr, hne, ho, hc, hflag, Bool.not_true, Bool.or_false, Bool.false_eq_true, if_false, decide_false]
  obtain ⟨t, ht, hgone⟩ := word_gone hexec (Passage.refl s).unshadowed he fun _ _ => rfl
  have hfur := hgone.part (fun k => k.fur cf) fun _ _ _ _ _ => rfl
  rw [fur_setFur_drop] at hfur
  refine ⟨t, ht, hgone.furRuns (Passage.refl s), hgone.sameBuffers (Passage.refl s) fun _ => ⟨rfl, rfl, rfl⟩, ?_, ?_,
    hgone.others (Passage.refl s) fun k f hf => fur_setFur_drop_ne k hf _ _, hgone.unmarked fun k => ⟨_, rfl⟩⟩
  · rw [hfur]
    exact newFurrow_fresh ..
  · rw [hfur]
    rfl

theorem fclose_closes (ho : (s.myCore.fur fn).opened = true) (hch : s.myCore.hasChild fn = false) :
    ∃ t, exec (.fclose h fn false) s = .next t ∧ FurRuns s t h 4 ∧ SameBuffers s t ∧ t.myCore.fur fn = { s.myCore.fur fn with opened := false } ∧
      OtherFurrows s t [fn] ∧ Unmarked t fn := by
  have hexec : exec (.fclose h fn false) s = s.furGo h 4 0 none 0 0 (s.furPrint h [] []) [] fun s => s.modMyCore fun k =>
      (k.setFur fn { k.fur fn with opened := false }).dropMarks fn fun _ => true := by
    change execFclose h fn false s = _
    simp only [execFclose, hfree, ho, hch, hflag, Bool.not_true, Bool.not_false, Bool.or_false, Bool.false_eq_true, if_false, if_true]
  obtain ⟨t, ht, hgone⟩ := word_gone hexec (Passage.refl s).unshadowed he fun _ _ => rfl
  refine ⟨t, ht, hgone.furRuns (Passage.refl s), hgone.sameBuffers (Passage.refl s) fun _ => ⟨rfl, rfl, rfl⟩, ?_,
    hgone.others (Passage.refl s) fun k f hf => fur_setFur_drop_ne k hf _ _, hgone.unmarked fun k => ⟨_, rfl⟩⟩
  rw [hgone.part (fun k => k.fur fn) fun _ _ _ _ _ => rfl, fur_setFur_drop]

theorem fmark_marks (ho : (s.myCore.fur fn).opened = true) (mk : Fin 8) :
    ∃ t, exec (.fmark h fn mk) s = .next t ∧ FurRuns s t h 4 ∧ SameBuffers s t ∧ t.myCore.furs = s.myCore.furs ∧
      t.myCore.marks[mk] = { valid := true, fn := fn.val, lc := (s.myCore.fur fn).lc, x := (s.myCore.fur fn).x, sl := (s.myCore.fur fn).sl,
                             dd := (s.myCore.fur fn).dd } ∧ ∀ j : Fin 8, j ≠ mk → t.myCore.marks[j] = s.myCore.marks[j] := by
  have hexec : exec (.fmark h fn mk) s = s.furGo h 4 0 none 0 0 (s.furPrint h [] []) [] fun u => u.modMyCore fun k =>
      { k with marks := k.marks.set mk { valid := true, fn := fn.val, lc := (s.myCore.fur fn).lc, x := (s.myCore.fur fn).x, sl := (s.myCore.fur fn).sl,
                                         dd := (s.myCore.fur fn).dd } } := by
    change execFmark h fn mk s = _
    simp only [execFmark, hfree, ho, hflag, Bool.not_true, Bool.or_false, Bool.false_eq_true, if_false]
  obtain ⟨t, ht, hgone⟩ := word_gone hexec (Passage.refl s).unshadowed he fun _ _ => rfl
  have hmarks := hgone.part (fun k => k.marks) fun _ _ _ _ _ => rfl
  refine ⟨t, ht, hgone.furRuns (Passage.refl s), hgone.sameBuffers (Passage.refl s) fun _ => ⟨rfl, rfl, rfl⟩,
    hgone.part (fun k => k.furs) fun _ _ _ _ _ => rfl, ?_, fun j hj => ?_⟩
  · simp [hmarks]
  · rw [hmarks]
    exact Vector.getElem_set_ne mk.isLt j.isLt fun hij => hj (Fin.ext hij.symm)

theorem fdrop_drops (ho : (s.myCore.fur fn).opened = true) {mk : Fin 8} {m : FMark} (hm : s.myCore.marks[mk] = m) (hv : m.valid = true)
    (hn : m.fn = fn.val) (hd : m.dd ≤ (s.myCore.fur fn).dd) :
    ∃ t, exec (.fdrop h fn mk) s = .next t ∧ FurRuns s t h 4 ∧ SameBuffers s t ∧ (t.myCore.fur fn).x = m.x ∧ (t.myCore.fur fn).sl = m.sl ∧
      (t.myCore.fur fn).dd = m.dd ∧ OtherFurrows s t [fn] ∧
      ∀ j : Fin 8, (s.myCore.marks[j]).fn = fn.val → m.dd < (s.myCore.marks[j]).dd → (t.myCore.marks[j]).valid = false := by
  have hexec : exec (.fdrop h fn mk) s = s.furGo h 4 0 none 0 0 (s.furPrint h [] []) [] fun u => u.modMyCore fun k =>
      k.putPopped fn ((s.myCore.fur fn).dropTo m) := by
    change execFdrop h fn mk s = _
    simp only [execFdrop, hfree, ho, hm, hv, hn, hflag, Bool.not_true, Bool.or_false, Bool.false_eq_true, if_false, ne_eq, not_true_eq_false, decide_false]
  obtain ⟨t, ht, hgone⟩ := word_gone hexec (Passage.refl s).unshadowed he fun _ _ => rfl
  have hfur := hgone.part (fun k => k.fur fn) fun _ _ _ _ _ => rfl
  have hmarks := hgone.part (fun k => k.marks) fun _ _ _ _ _ => rfl
  rw [Core.putPopped, fur_setFur_drop] at hfur
  refine ⟨t, ht, hgone.furRuns (Passage.refl s), hgone.sameBuffers (Passage.refl s) fun _ => ⟨rfl, rfl, rfl⟩, by rw [hfur]; rfl,
    by rw [hfur, dropTo_sl], by rw [hfur, dropTo_dd hd], hgone.others (Passage.refl s) fun k f hf => fur_setFur_drop_ne k hf _ _, fun j hj hlt => ?_⟩
  rw [hmarks, Core.putPopped, dropMarks_mark, dropTo_dd hd]
  change (if ((s.myCore.marks[j]).valid && decide ((s.myCore.marks[j]).fn = fn.val) && decide (m.dd < (s.myCore.marks[j]).dd)) = true
    then { s.myCore.marks[j] with valid := false } else s.myCore.marks[j]).valid = false
  split
  · rfl
  · next hnot =>
    refine Bool.eq_false_iff.2 fun hvalid => hnot ?_
    rw [hvalid, decide_eq_true hj, decide_eq_true hlt]
    rfl

/-! ### Children and saved furrows (R251, R255, R256) -/

omit hfree hflag he in
theorem furAdopt_parent {s1 s2 : State} {c : CoreId} {x : CtxId} {cls : Nat} {q : Acq} {d : DirEntry} {child : Bool} {parent : Nat} {g : Furrow}
    (had : s1.furAdopt c x cls q d child parent = (.ok (some g), s2)) : g.parent = parent := by
  unfold State.furAdopt at had
  dsimp only at had
  split at had
  · cases had
  · next s3 _ =>
    split at had
    · cases had
    · split at had
      · cases had
      · next g' hl =>
        obtain ⟨v, b, l, hg⟩ := furLanes_furrow s3 c x cls q (d.ln + 1)
          { Furrow.fresh (d.ln + 1) d.region d.size s1.cycle child parent with base := d.spos, dbase := d.count }
        obtain rfl : g' = _ := (congrArg (fun r => r.2.2) hl).symm.trans hg
        cases had
        rfl

theorem fsplitTake_takes {d : DirEntry} {s1 s2 : State} {p1 g : Furrow} (hne : cf ≠ fn) (ho : (s.myCore.fur fn).opened = true)
    (hc : (s.myCore.fur cf).opened = false) (hd : (s.myCore.fur fn).dd ≠ 0)
    (htop : s.furTop s.cur.core s.cur.ctx h.ac.val s.furAcq (s.myCore.fur fn) = (.ok (some d), s1, p1)) (hchild : d.child = true)
    (had : s1.furAdopt s.cur.core s.cur.ctx h.ac.val s.furAcq d true fn.val = (.ok (some g), s2)) :
    ∃ t, exec (.fsplitTake h fn cf) s = .next t ∧ FurRuns s t h (6 + g.lc) ∧ t.myCore.fur fn = p1.popEntry ∧
      (t.myCore.fur cf).opened = true ∧ (t.myCore.fur cf).child = true ∧ (t.myCore.fur cf).parent = fn.val ∧ (t.myCore.fur cf).region = d.region ∧
      (t.myCore.fur cf).size = d.size ∧ (t.myCore.fur cf).x = g.x ∧ OtherFurrows s t [fn, cf] ∧ Unmarked t cf := by
  have hexec : exec (.fsplitTake h fn cf) s = s2.furGo h (6 + g.lc) 0 none 0 0 (s.furPrint h [] []) [] fun u => u.modMyCore fun k =>
      ((k.putPopped fn p1.popEntry).setFur cf g).dropMarks cf fun _ => true := by
    change execFsplitTake h fn cf s = _
    simp only [execFsplitTake, hfree, hne, ho, hc, hd, hflag, htop, hchild, had, Bool.not_true, Bool.or_false, Bool.false_eq_true, if_false, decide_false]
  have hu : Passage s s2 := by
    have h1 := Passage.furTop s s.cur.core s.cur.ctx h.ac.val s.furAcq (s.myCore.fur fn)
    have h2 := Passage.furAdopt s.cur.core s.cur.ctx h.ac.val s.furAcq s1 d true fn.val
    rw [htop] at h1
    rw [had] at h2
    exact h1.trans h2
  obtain ⟨hopen, hkind, hregion, hsize, -⟩ := furAdopt_furrow had
  obtain ⟨t, ht, hgone⟩ := word_gone hexec hu.unshadowed he fun _ _ => by simp only [dropMarks_ctxs, setFur_ctxs, Core.putPopped]
  have hcf := hgone.part (fun k => k.fur cf) fun _ _ _ _ _ => rfl
  have hfn := hgone.part (fun k => k.fur fn) fun _ _ _ _ _ => rfl
  rw [fur_setFur_drop] at hcf
  refine ⟨t, ht, hgone.furRuns hu, hfn.trans ?_, by rw [hcf, hopen], by rw [hcf, hkind], by rw [hcf, furAdopt_parent had], by rw [hcf, hregion],
    by rw [hcf, hsize], by rw [hcf], hgone.others hu fun k f hf => ?_, hgone.unmarked fun k => ⟨_, rfl⟩⟩
  · exact (Core.fur_setFur_ne _ hne.symm g).trans (Core.fur_setFur_self ..)
  · obtain ⟨hffn, hfcf⟩ : f ≠ fn ∧ f ≠ cf := by simpa using hf
    exact (Core.fur_setFur_ne _ hfcf g).trans (Core.fur_setFur_ne _ hffn _)

end

/-! ### Words that write into a region (R244, R251, R256) -/

theorem unshadowed_furHit {s u : State} (h : Unshadowed s u) (x : CtxId) (fn : FurNo) (a n : Nat) : Unshadowed s (u.furHit s.cur.core x fn a n) := by
  obtain ⟨v, q, hk⟩ := furHit_core u u.cur.core x fn a n
  have hcore : (u.furHit u.cur.core x fn a n).myCore = { u.myCore with furs := v, fcmd := q } := hk
  rw [← h.cur]
  refine ⟨h.toTraffic.trans ?_, ?_, ?_⟩
  · unfold State.furHit
    exact Traffic.modCore _ _ _ (fun _ => rfl) fun _ => rfl
  · rw [hcore]
    exact h.tabs
  · rw [hcore]
    exact h.marks

section
variable {s : State} {h : HOp} {fn cf : FurNo} {e : SEntry} (hfree : s.furFree = true) (hflag : s.furFlag h = true) (he : s.headWord = some e)

/-- A furrow that another word's write has met is as before, but that it is loose. -/
theorem furHit_keeps {u : State} (hu : Filled s u) (x : CtxId) {f fn : FurNo} (hf : f ≠ fn) (a n : Nat) :
    ∃ b, (u.furHit s.cur.core x fn a n).myCore.fur f = { s.myCore.fur f with loose := b } := by
  have hsame : (u.core s.cur.core).fur f = s.myCore.fur f := by rw [Core.fur, hu.furs]; rfl
  have hhit := fur_furHit u s.cur.core x hf a n
  have hcur : (u.furHit s.cur.core x fn a n).cur.core = s.cur.core := congrArg Agent.core hu.cur
  rw [State.myCore, hcur, hhit, hsame]
  split <;> exact ⟨_, rfl⟩

/-- The furrows that the word does not set, where it has written into a region. -/
theorem FurGone.othersHit {u t : State} {n kind : Nat} {g : Core → Core} (hu : Filled s u) {x : CtxId} {fn : FurNo} {a m : Nat}
    (hgone : FurGone s (u.furHit s.cur.core x fn a m) t h n kind g) {l : List FurNo} (hl : fn ∈ l) (hg : ∀ k f, f ∉ l → (g k).fur f = k.fur f) :
    OtherFurrowsHit s u t s.cur.core x l a m := fun f hf => by
  obtain ⟨q, xs, b, d, -, hcore⟩ := hgone.core
  have hset := hg { (u.furHit s.cur.core x fn a m).myCore with ctxs := xs, ctlBusy := b, rr := d } f hf
  have hsame : (u.core s.cur.core).fur f = (s.core s.cur.core).fur f := by rw [Core.fur, hu.furs]; rfl
  have hcur : (u.furHit s.cur.core x fn a m).cur.core = s.cur.core := congrArg Agent.core hu.cur
  have hmine : t.core s.cur.core = t.myCore := by rw [State.myCore, hgone.cur]
  rw [hmine, hcore]
  refine hset.trans ?_
  change (u.furHit s.cur.core x fn a m).myCore.fur f = _
  have hne : f ≠ fn := fun hfn => hf (by rwa [hfn])
  rw [State.myCore, hcur, fur_furHit u s.cur.core x hne, hsame]

include hfree hflag he

theorem fjoin_joins {s1 : State} {k : Furrow} (hne : cf ≠ fn) (ho : (s.myCore.fur fn).opened = true) (hc : (s.myCore.fur cf).opened = true)
    (hchild : (s.myCore.fur cf).child = true) (hparent : (s.myCore.fur cf).parent = fn.val)
    (hfit : (s.myCore.fur cf).flush.overflows (s.myCore.fur cf).flush.sl (s.myCore.fur cf).flush.dd = false)
    (hroom : (s.myCore.fur fn).overflows (s.myCore.fur fn).sl ((s.myCore.fur fn).dd + 1) = false)
    (hp : s.furPerform s.cur.core s.cur.ctx h.ac.val (s.myCore.fur cf).flush = (none, s1, k)) :
    ∃ t, exec (.fjoin h fn cf) s = .next t ∧ FurRunsAs s t h (6 + (s.myCore.fur cf).lc)
        (s1.furHit s.cur.core s.cur.ctx cf (s.myCore.fur cf).region.toNat (s.myCore.fur cf).size).myCore.furs ∧ (t.myCore.fur cf).opened = false ∧
      (t.myCore.fur fn).dtop = (s.myCore.fur cf).flush.descriptor :: (s.myCore.fur fn).dtop ∧ (t.myCore.fur fn).x = (s.myCore.fur fn).x ∧
      (t.myCore.fur fn).sl = (s.myCore.fur fn).sl ∧
      OtherFurrowsHit s s1 t s.cur.core s.cur.ctx [fn, cf] (s.myCore.fur cf).region.toNat (s.myCore.fur cf).size ∧ Unmarked t cf := by
  have hexec : exec (.fjoin h fn cf) s =
      (s1.furHit s.cur.core s.cur.ctx cf (s.myCore.fur cf).region.toNat (s.myCore.fur cf).size).furGo h (6 + (s.myCore.fur cf).lc) 0 none 0 0
        (s.furPrint h [] []) [] fun u => u.modMyCore fun k =>
          ((k.setFur fn ((k.fur fn).pushEntry (s.myCore.fur cf).flush.descriptor)).setFur cf { k.fur cf with opened := false }).dropMarks cf fun _ => true := by
    change execFjoin h fn cf s = _
    simp only [execFjoin, hfree, hne, ho, hc, hchild, hparent, hflag, hfit, hroom, hp, Bool.not_true, Bool.or_false, Bool.false_eq_true, if_false,
      decide_false, ne_eq, not_true_eq_false]
  have hu : Passage s s1 := by
    have h1 := Passage.furPerform s.cur.core s.cur.ctx h.ac.val s (s.myCore.fur cf).flush
    rwa [hp] at h1
  obtain ⟨t, ht, hgone⟩ := word_gone hexec (unshadowed_furHit hu.unshadowed ..) he fun _ _ => by simp only [dropMarks_ctxs, setFur_ctxs]
  have hcf := hgone.part (fun k => k.fur cf) fun _ _ _ _ _ => rfl
  have hfn := hgone.part (fun k => k.fur fn) fun _ _ _ _ _ => rfl
  rw [fur_setFur_drop] at hcf
  obtain ⟨b, hb⟩ := furHit_keeps (Filled.of_passage hu) s.cur.ctx hne.symm (s.myCore.fur cf).region.toNat (s.myCore.fur cf).size
  have hpush : t.myCore.fur fn = ({ s.myCore.fur fn with loose := b } : Furrow).pushEntry (s.myCore.fur cf).flush.descriptor := by
    rw [← hb]
    exact hfn.trans ((Core.fur_setFur_ne _ hne.symm _).trans (Core.fur_setFur_self ..))
  refine ⟨t, ht, hgone.runs, by rw [hcf], by rw [hpush]; rfl, by rw [hpush]; rfl, by rw [hpush]; rfl,
    hgone.othersHit (Filled.of_passage hu) (by simp) fun k f hf => ?_, hgone.unmarked fun k => ⟨_, rfl⟩⟩
  obtain ⟨hffn, hfcf⟩ : f ≠ fn ∧ f ≠ cf := by simpa using hf
  exact (Core.fur_setFur_ne _ hfcf _).trans (Core.fur_setFur_ne _ hffn _)

theorem fclose_saves {d : Tensor} {s1 s2 : State} {g : Furrow} (ho : (s.myCore.fur fn).opened = true) (hch : s.myCore.hasChild fn = false)
    (hd : s.furPlace (s.rdH h.hd) true = some d) (hbytes : 32 ≤ d.imageBytes)
    (hfit : (s.myCore.fur fn).flush.overflows (s.myCore.fur fn).flush.sl (s.myCore.fur fn).flush.dd = false)
    (hp : s.furPerform s.cur.core s.cur.ctx h.ac.val (s.myCore.fur fn).flush = (none, s1, g))
    (hput : (s1.freeBytes 32).2.furPutImage s.cur.core s.cur.ctx h.ac.val d (s1.freeBytes 32).1 = (none, s2)) :
    ∃ t m, exec (.fclose h fn true) s = .next t ∧ FurRunsAs s t h (6 + (s.myCore.fur fn).lc)
        (s2.furHit s.cur.core s.cur.ctx fn (s.myCore.fur fn).region.toNat (s.myCore.fur fn).size).myCore.furs ∧ t.myCore.fcmd = some m ∧ m.kind = 3 ∧
      m.desc = g.descriptor.bytes ∧ (t.myCore.fur fn).opened = false ∧
      OtherFurrowsHit s s2 t s.cur.core s.cur.ctx [fn] (s.myCore.fur fn).region.toNat (s.myCore.fur fn).size ∧ Unmarked t fn := by
  have hu : Filled s s2 := by
    have h1 := Passage.furPerform s.cur.core s.cur.ctx h.ac.val s (s.myCore.fur fn).flush
    have h2 := Filled.furPutImage (s1.freeBytes 32).2 s.cur.core s.cur.ctx h.ac.val d (s1.freeBytes 32).1
    rw [hp] at h1
    rw [hput] at h2
    exact (Filled.of_passage (h1.trans (Passage.skipFresh s1 32))).trans h2
  let u := s2.furHit s.cur.core s.cur.ctx fn (s.myCore.fur fn).region.toNat (s.myCore.fur fn).size
  let fp := s.furPrint h [] (if d.buf = 0 then [] else [(1, d.headLines 32)])
  have hus : Unshadowed s u := unshadowed_furHit hu.unshadowed ..
  have hgo := furGo_eq hus.toTraffic he h (6 + (s.myCore.fur fn).lc) 3 (some (.fclose h fn true)) (s.rdH h.hd) d.fmt fp
    (if d.buf = 0 then [] else d.headSpans 32)
    (f := fun v => v.modMyCore fun k => (k.setFur fn { k.fur fn with opened := false }).dropMarks fn fun _ => true) (g := fun k => k.closeFur fn) rfl
  let m := u.furRecordOf h (6 + (s.myCore.fur fn).lc) 3 (some (.fclose h fn true)) (s.rdH h.hd) d.fmt (if d.buf = 0 then [] else d.headSpans 32) e
  have hexec : exec (.fclose h fn true) s =
      .next ((u.furIssued fp).furPlaced { m with desc := g.descriptor.bytes } (fun k => k.closeFur fn) (u.furIssued fp).stamps) := by
    change execFclose h fn true s = _
    rw [← furPlaced_desc]
    simp only [execFclose, hfree, ho, hch, hflag, hd, Nat.not_lt.2 hbytes, hfit, hp, hput, Bool.not_true, Bool.or_false, Bool.false_eq_true, if_false]
    rw [hgo]
  have hgone := furPlaced_gone hus h fp (m := { m with desc := g.descriptor.bytes }) (g := fun k => k.closeFur fn) (u.furIssued fp).stamps
    (fun k => by simp only [Core.closeFur, dropMarks_ctxs, setFur_ctxs]) ⟨_, _, _, _, _, _, _, rfl⟩
  have hcore := furPlaced_core (u.furIssued fp) { m with desc := g.descriptor.bytes } (fun k => k.closeFur fn) (u.furIssued fp).stamps
  refine ⟨_, _, hexec, hgone.runs, by rw [hcore], rfl, rfl, ?_, hgone.othersHit hu (by simp) fun k f hf => fur_setFur_drop_ne k hf _ _,
    hgone.unmarked fun k => ⟨_, rfl⟩⟩
  rw [hcore]
  exact congrArg Furrow.opened (fur_setFur_drop _ fn _ fun _ => true)

end

/-- Settles O49. -/
theorem furrowsOpenAndClose : Obligations.FurrowsOpenAndClose := by
  intro s h fn cf ln tb mk
  refine ⟨fun hbusy => furWords_hold hbusy ln tb mk, fun hfree hflag e he => ⟨fun r z hr hc => fopen_opens hfree hflag he hr hc ln,
    fun ho hch => ⟨fclose_closes hfree hflag he ho hch, fun d s1 g s2 hd hbytes hfit hp hput => fclose_saves hfree hflag he ho hch hd hbytes hfit hp hput⟩,
    fun ho => fmark_marks hfree hflag he ho mk, fun m ho hm hv hn hd => fdrop_drops hfree hflag he ho hm hv hn hd,
    fun r z hr hne ho hc => fsplitSplit_opens hfree hflag he hr hne ho hc,
    fun d s1 p1 s2 g hne ho hc hd htop hchild had => fsplitTake_takes hfree hflag he hne ho hc hd htop hchild had,
    fun s1 g hne ho hc hchild hparent hfit hroom hp => fjoin_joins hfree hflag he hne ho hc hchild hparent hfit hroom hp⟩, fun hfree hlive hc => ?_⟩
  simp only [List.forall_mem_cons, List.not_mem_nil, false_implies, implies_true, and_true]
  refine ⟨⟨_, ?_, trapped_range hlive⟩, ⟨_, ?_, trapped_range hlive⟩, ⟨_, ?_, trapped_range hlive⟩, ⟨_, ?_, trapped_range hlive⟩,
    ⟨_, ?_, trapped_range hlive⟩⟩
  · change execFclose h fn false s = _
    simp only [execFclose, hfree, hc, Bool.not_true, Bool.not_false, Bool.true_or, Bool.false_eq_true, if_false, if_true]
  · change execFmark h fn mk s = _
    simp only [execFmark, hfree, hc, Bool.not_true, Bool.not_false, Bool.true_or, Bool.false_eq_true, if_false, if_true]
  · change execFdrop h fn mk s = _
    simp only [execFdrop, hfree, hc, Bool.not_true, Bool.not_false, Bool.true_or, Bool.false_eq_true, if_false, if_true]
  · change execFsplitTake h fn cf s = _
    simp only [execFsplitTake, hfree, hc, Bool.not_true, Bool.not_false, Bool.or_true, Bool.true_or, Bool.false_eq_true, if_false, if_true]
  · change execFjoin h fn cf s = _
    simp only [execFjoin, hfree, hc, Bool.not_true, Bool.not_false, Bool.or_true, Bool.true_or, Bool.false_eq_true, if_false, if_true]

end Sys2Proof.Machine
end

section
/-! PROOFS. O50: a decoded tile in ABUF (R184, R243, R253). Codes go to their elements one by one (`Tensor.putLines`); they touch only lines that the
tensor covers, and elements of a single row do not overlap. -/

namespace Sys2Proof.Machine

/-! ### Lines that a tensor covers (R180) -/

theorem testBit_foldl_or (l : List Nat) (f : Nat → Nat) (a b : Nat) :
    (l.foldl (fun a i => a ||| f i) a).testBit b = (a.testBit b || l.any fun i => (f i).testBit b) := by
  induction l generalizing a with
  | nil => simp
  | cons i l ih => rw [List.foldl_cons, ih, Nat.testBit_or, List.any_cons, Bool.or_assoc]

/-- The place `b` of a set, repeated, stands at every stride. -/
theorem testBit_spread {m d s b i : Nat} (hb : m.testBit b = true) (hi : i < d) : (spread m d s).testBit (b + i * s) = true := by
  rw [spread, testBit_foldl_or, Bool.or_eq_true, List.any_eq_true]
  refine .inr ⟨i, List.mem_range.2 hi, ?_⟩
  rw [Nat.testBit_mul_two_pow, decide_eq_true (Nat.le_add_left ..), Nat.add_sub_cancel, Bool.true_and, hb]

/-- The lines of a row stand in the tensor's footprint. -/
theorem mask_row {t : Tensor} (hb : t.buf = 1) (h0 : t.d0 ≠ 0) {r j : Nat} (hr : r < t.rows) (hj : j < linesOf t.rowBytes) :
    t.mask.testBit (t.row r + j) = true := by
  have hrow : r < t.d1 * (t.d2 * t.d3) := by rwa [← Nat.mul_assoc]
  have h1 : 0 < t.d1 := Nat.pos_of_mul_pos_right (Nat.zero_lt_of_lt hrow)
  have h23 : 0 < t.d2 * t.d3 := Nat.pos_of_mul_pos_left (Nat.zero_lt_of_lt hrow)
  have h2 : 0 < t.d2 := Nat.pos_of_mul_pos_right h23
  have hbase : ((2 ^ linesOf t.rowBytes - 1) * 2 ^ t.base).testBit (j + t.base) = true := by
    rw [Nat.testBit_mul_two_pow, decide_eq_true (Nat.le_add_left ..), Nat.add_sub_cancel, Nat.testBit_two_pow_sub_one, decide_eq_true hj]
    rfl
  have hthird : r / (t.d1 * t.d2) < t.d3 := by
    rw [Nat.div_lt_iff_lt_mul (Nat.mul_pos h1 h2), Nat.mul_comm, Nat.mul_assoc]
    exact hrow
  have hall := testBit_spread (s := t.s3) (testBit_spread (s := t.s2) (testBit_spread (s := t.s1) hbase (Nat.mod_lt r h1)) (Nat.mod_lt (r / t.d1) h2)) hthird
  have hsum : j + t.base + r % t.d1 * t.s1 + r / t.d1 % t.d2 * t.s2 + r / (t.d1 * t.d2) * t.s3 = t.row r + j := by
    rw [Tensor.row]
    omega
  rw [Tensor.mask, if_neg (by simp [h0, hb]), if_neg (by omega), ← hsum]
  exact hall

/-- The line of an element. -/
theorem bitAt_line {t : Tensor} (hb : t.buf = 1) (r i : Nat) : t.bitAt r i / 4096 = t.row r + i * t.w / 4096 := by
  rw [Tensor.bitAt, if_neg (by omega), Nat.add_comm, Nat.add_mul_div_right _ _ (by decide), Nat.add_comm]

theorem element_line {t : Tensor} (hw : 0 < t.w) {i : Nat} (hi : i < t.d0) : i * t.w / 4096 < linesOf t.rowBytes := by
  have h : i * t.w + t.w ≤ t.d0 * t.w := by
    rw [← Nat.succ_mul]
    exact Nat.mul_le_mul_right _ hi
  simp only [linesOf, Tensor.rowBytes, ceilDiv]
  omega

theorem mask_element {t : Tensor} (hb : t.buf = 1) (hw : 0 < t.w) {r i : Nat} (hr : r < t.rows) (hi : i < t.d0) :
    t.mask.testBit (t.bitAt r i / 4096) = true := by
  rw [bitAt_line hb]
  exact mask_row hb (Nat.ne_zero_of_lt hi) hr (element_line hw hi)

/-! ### Codes put in their elements (R241) -/

/-- The lines of ABUF with a code written at bit position `p`. -/
def putLine (b : Lines) (p w v : Nat) : Lines := sset b (p / 4096) (setSlice (sget b (p / 4096)) (p % 4096) w v)

/-- The lines of ABUF with the codes of a tile, each beside its number, in their elements. -/
def Tensor.putLines (t : Tensor) (b : Lines) (codes : List (Nat × Nat)) : Lines :=
  codes.foldl (fun b p => putLine b (t.bitAt (p.2 / t.d0) (p.2 % t.d0)) t.w p.1) b

theorem putAt_abuf (k : Core) {t : Tensor} (hb : t.buf = 1) (r i v : Nat) : k.putAt t r i v = { k with abuf := putLine k.abuf (t.bitAt r i) t.w v } := by
  rw [Core.putAt, hb, Core.setBufElem, Nat.zero_add]
  rfl

theorem foldl_putAt {t : Tensor} (hb : t.buf = 1) (codes : List (Nat × Nat)) (k : Core) :
    codes.foldl (fun (k : Core) p => k.putAt t (p.2 / t.d0) (p.2 % t.d0) p.1) k = { k with abuf := t.putLines k.abuf codes } := by
  induction codes generalizing k with
  | nil => rfl
  | cons p codes ih =>
    rw [List.foldl_cons, ih, putAt_abuf k hb]
    rfl

theorem sget_putLine_ne (b : Lines) {p l : Nat} (w v : Nat) (h : l ≠ p / 4096) : sget (putLine b p w v) l = sget b l := by
  rw [putLine, sget_sset, if_neg h]

/-- A tile leaves the lines outside its footprint. -/
theorem sget_putLines {t : Tensor} (hb : t.buf = 1) (hw : 0 < t.w) (h0 : t.d0 ≠ 0) {l : Nat} (hl : t.mask.testBit l = false) (codes : List (Nat × Nat))
    (b : Lines) (hc : ∀ p ∈ codes, p.2 < t.size) : sget (t.putLines b codes) l = sget b l := by
  induction codes generalizing b with
  | nil => rfl
  | cons p codes ih =>
    have hp : p.2 < t.d0 * t.rows := hc p (List.mem_cons_self ..)
    have hmask := mask_element hb hw ((Nat.div_lt_iff_lt_mul (Nat.pos_of_ne_zero h0)).2 (Nat.mul_comm t.d0 t.rows ▸ hp))
      (Nat.mod_lt p.2 (Nat.pos_of_ne_zero h0))
    have hne : l ≠ t.bitAt (p.2 / t.d0) (p.2 % t.d0) / 4096 := fun h => by
      rw [← h, hl] at hmask
      cases hmask
    exact (ih _ fun q hq => hc q (List.mem_cons_of_mem _ hq)).trans (sget_putLine_ne _ _ _ hne)

/-- The element at bit position `p` of ABUF. -/
def lineElem (b : Lines) (p w : Nat) : Nat := sliceAt (sget b (p / 4096)) (p % 4096) w

theorem lineElem_putLine_self (b : Lines) {p w : Nat} (v : Nat) (h : p % 4096 + w ≤ 4096) : lineElem (putLine b p w v) p w = v % 2 ^ w := by
  rw [lineElem, putLine, sget_sset, if_pos rfl, sliceAt_setSlice_self _ _ _ _ h]

theorem lineElem_putLine_ne (b : Lines) {p q w : Nat} (v : Nat) (h : q % 4096 + w ≤ 4096) (hd : q + w ≤ p ∨ p + w ≤ q) :
    lineElem (putLine b p w v) q w = lineElem b q w := by
  rw [lineElem, putLine, sget_sset]
  split
  · next hl =>
    rw [sliceAt_setSlice_of_disjoint _ _ _ _ _ _ h (by omega), ← hl]
    rfl
  · rfl

section
variable {t : Tensor} (hb : t.buf = 1) (hfit : t.d0 * t.w ≤ 4096)
include hb

theorem bitAt_row (i : Nat) : t.bitAt 0 i = t.row 0 * 4096 + i * t.w := by rw [Tensor.bitAt, if_neg (by omega)]

theorem bitAt_apart {i j : Nat} (h : i ≠ j) : t.bitAt 0 i + t.w ≤ t.bitAt 0 j ∨ t.bitAt 0 j + t.w ≤ t.bitAt 0 i := by
  rw [bitAt_row hb, bitAt_row hb]
  rcases Nat.lt_or_gt_of_ne h with hlt | hlt
  all_goals
    have hmul := Nat.mul_le_mul_right t.w hlt
    rw [Nat.succ_mul] at hmul
    omega

include hfit

/-- An element of a row of one line ends in that line. -/
theorem bitAt_fits {i : Nat} (hi : i < t.d0) : t.bitAt 0 i % 4096 + t.w ≤ 4096 := by
  have h : i * t.w + t.w ≤ t.d0 * t.w := by
    rw [← Nat.succ_mul]
    exact Nat.mul_le_mul_right _ hi
  rw [bitAt_row hb]
  omega

/-- A tile of one row, put from element `n` on, holds its codes. -/
theorem lineElem_putLines {i : Nat} (hi : i < t.d0) (codes : List Nat) (n : Nat) (b : Lines) (hn : n + codes.length ≤ t.d0) :
    lineElem (t.putLines b (codes.zipIdx n)) (t.bitAt 0 i) t.w =
      if n ≤ i ∧ i < n + codes.length then codes.getD (i - n) 0 % 2 ^ t.w else lineElem b (t.bitAt 0 i) t.w := by
  induction codes generalizing n b with
  | nil => rw [if_neg (by simp only [List.length_nil]; omega)]; rfl
  | cons v codes ih =>
    rw [List.length_cons] at hn
    have hcons : t.putLines b ((v :: codes).zipIdx n) = t.putLines (putLine b (t.bitAt 0 n) t.w v) (codes.zipIdx (n + 1)) := by
      rw [List.zipIdx_cons, Tensor.putLines, List.foldl_cons, Nat.div_eq_of_lt (by omega), Nat.mod_eq_of_lt (by omega)]
      rfl
    rw [hcons, ih (n + 1) _ (by omega), List.length_cons]
    rcases Nat.lt_trichotomy i n with h | rfl | h
    · rw [if_neg (by omega), if_neg (by omega), lineElem_putLine_ne b v (bitAt_fits hb hfit hi) (bitAt_apart hb (by omega))]
    · rw [if_neg (by omega), if_pos (by omega), lineElem_putLine_self b v (bitAt_fits hb hfit hi), Nat.sub_self]
      rfl
    · obtain ⟨j, rfl⟩ : ∃ j, i = n + 1 + j := ⟨i - (n + 1), by omega⟩
      by_cases hj : j < codes.length
      · rw [if_pos (by omega), if_pos (by omega), Nat.add_sub_cancel_left, show n + 1 + j - n = j + 1 by omega]
        rfl
      · rw [if_neg (by omega), if_neg (by omega), lineElem_putLine_ne b v (bitAt_fits hb hfit hi) (bitAt_apart hb (by omega))]

end

/-! ### The codes that a decoding answers (R243) -/

theorem furSyms_length (c : CoreId) (x : CtxId) (cls : Nat) (q : Acq) (tab : FTable) (n : Nat) : ∀ (s : State) (i : Nat) (f : Furrow) (l : List Nat)
    {ss : List Nat} {s1 : State} {g : Furrow}, s.furSyms c x cls q tab n i f l = (.ok ss, s1, g) → ss.length = n + l.length := by
  induction n with
  | zero =>
    intro s i f l ss s1 g h
    cases h
    simp
  | succ n ih =>
    intro s i f l ss s1 g h
    unfold State.furSyms at h
    dsimp only at h
    split at h
    · cases h
    · have hlen := ih _ _ _ _ h
      rw [List.length_cons] at hlen
      omega

/-- A decoded tile has as many codes as were asked for. -/
theorem furPopTile_length {s s1 : State} {c : CoreId} {x : CtxId} {cls : Nat} {q : Acq} {tab : FTable} {w n : Nat} {f g : Furrow} {codes : List Nat}
    (h : s.furPopTile c x cls q tab w n f = (.ok codes, s1, g)) : codes.length = n := by
  unfold State.furPopTile at h
  split at h
  · cases h
  · split at h
    · cases h
    · next hs =>
      have hlen := furSyms_length c x cls q tab n _ _ _ _ hs
      cases h
      simpa using hlen

/-! ### The width of a tile (R129) -/

theorem headFmt_width {k : Core} {h : Header} {f : Nat} (hf : k.headFmt h = some f) (h0 : f ≠ 0) : typeWidth f ≠ 0 := by
  unfold Core.headFmt at hf
  dsimp only at hf
  intro hw
  (repeat' split at hf) <;> simp_all

theorem headFmt_of_tensor {k : Core} {h : Header} {raw : Nat} {t : Tensor} (ht : k.tensor h raw = some t) : k.headFmt h = some t.fmt := by
  unfold Core.tensor at ht
  split at ht
  · cases ht
  · next f hf =>
    dsimp only at ht
    split at ht
    · cases ht
    · split at ht
      · cases ht
      · obtain rfl := Option.some.inj ht
        exact hf

/-- A tile's elements have a width, but for raw ones. -/
theorem furTile_width {s : State} {h : Header} {t : Tensor} (ht : s.furTile h = some t) (hf : t.fmt ≠ 0) : 0 < t.w ∧ t.buf = 1 := by
  unfold State.furTile at ht
  split at ht
  · next t' hten =>
    obtain ⟨hok, ht'⟩ := Option.ite_none_right_eq_some.1 ht
    obtain rfl := Option.some.inj ht'
    simp only [Bool.and_eq_true, decide_eq_true_eq, and_assoc] at hok
    obtain ⟨hbuf, -⟩ := hok
    have hw : t'.w = typeWidth t'.fmt := (congrArg Tensor.w (tensorAs_of_tensor hten)).trans (if_neg hf)
    refine ⟨Nat.pos_of_ne_zero ?_, hbuf⟩
    rw [hw]
    exact headFmt_width (headFmt_of_tensor hten) hf
  · cases ht

end Sys2Proof.Machine
end

section
/-! PROOFS. O50: FPUSH, FPOP, FTBL, FSPLIT import and FSTAT (R241 to R243, R249, R252, R253, R257). Each is the issue of a FUR word (`FurGone`) after
reads that are passages; a push that would overfill its region, and FPOP with ET of an empty directory, trap. -/

namespace Sys2Proof.Machine

/-! ### Bytes of ABUF (R257) -/

/-- The lines of ABUF with bytes written from byte `i` on. -/
def putBytes : Lines → Nat → List Byte → Lines
  | b, _, [] => b
  | b, i, v :: r => putBytes (putLine b (8 * i) 8 v.toNat) (i + 1) r

theorem setBufBytes_eq (k : Core) (i : Nat) (bs : List Byte) : k.setBufBytes 1 i bs = { k with abuf := putBytes k.abuf i bs } := by
  induction bs generalizing k i with
  | nil => rfl
  | cons v bs ih =>
    have hline : 8 * i / 4096 = i / 512 := by omega
    have hplace : 8 * i % 4096 = i % 512 * 8 := by omega
    rw [Core.setBufBytes, ih, putBytes, putLine, hline, hplace]
    rfl

theorem bufByte_eq (k : Core) (i : Nat) : k.bufByte 1 i = BitVec.ofNat 8 (lineElem k.abuf (8 * i) 8) := by
  have hline : 8 * i / 4096 = i / 512 := by omega
  have hplace : 8 * i % 4096 = i % 512 * 8 := by omega
  rw [lineElem, hline, hplace]
  rfl

theorem lineElem_putBytes (bs : List Byte) (b : Lines) (i j : Nat) : lineElem (putBytes b i bs) (8 * j) 8 =
    if i ≤ j ∧ j < i + bs.length then (bs.getD (j - i) 0).toNat else lineElem b (8 * j) 8 := by
  induction bs generalizing b i with
  | nil => rw [if_neg (by simp only [List.length_nil]; omega)]; rfl
  | cons v bs ih =>
    rw [putBytes, ih, List.length_cons]
    rcases Nat.lt_trichotomy j i with h | rfl | h
    · rw [if_neg (by omega), if_neg (by omega), lineElem_putLine_ne b _ (by omega) (by omega)]
    · rw [if_neg (by omega), if_pos (by omega), lineElem_putLine_self b _ (by omega), Nat.sub_self, Nat.mod_eq_of_lt v.isLt]
      rfl
    · obtain ⟨d, rfl⟩ : ∃ d, j = i + 1 + d := ⟨j - (i + 1), by omega⟩
      by_cases hd : d < bs.length
      · rw [if_pos (by omega), if_pos (by omega), Nat.add_sub_cancel_left, show i + 1 + d - i = d + 1 by omega]
        rfl
      · rw [if_neg (by omega), if_neg (by omega), lineElem_putLine_ne b _ (by omega) (by omega)]

theorem bufBytes_putBytes (k : Core) (i : Nat) (bs : List Byte) : ({ k with abuf := putBytes k.abuf i bs } : Core).bufBytes 1 i bs.length = bs := by
  refine List.ext_getElem (by simp [Core.bufBytes]) fun n h1 h2 => ?_
  simp only [Core.bufBytes, List.getElem_map, List.getElem_range]
  rw [bufByte_eq, lineElem_putBytes, if_pos (by omega), Nat.add_sub_cancel_left,
    List.getD_eq_getElem _ _ h2]
  exact BitVec.ofNat_toNat ..

theorem bufBytes_of_abuf {k q : Core} (h : k.abuf = q.abuf) (i n : Nat) : k.bufBytes 1 i n = q.bufBytes 1 i n := by
  simp only [Core.bufBytes, bufByte_eq, h]

/-- Bytes of one line leave the others. -/
theorem sget_putBytes {l : Nat} (bs : List Byte) (b : Lines) (i : Nat) (h : ∀ j, i ≤ j → j < i + bs.length → l ≠ j / 512) :
    sget (putBytes b i bs) l = sget b l := by
  induction bs generalizing b i with
  | nil => rfl
  | cons v bs ih =>
    rw [List.length_cons] at h
    have hne : l ≠ 8 * i / 4096 := by
      have hi := h i (le_refl i) (by omega)
      omega
    rw [putBytes, ih _ _ fun j h1 h2 => h j (by omega) (by omega), sget_putLine_ne _ _ _ hne]

/-! ### The record of FSTAT (R257) -/

theorem imgDw_first (v : Nat) (r : List Byte) : imgDw (leBytes 8 v ++ r) 0 = v % 2 ^ 64 := by
  rw [imgDw, Nat.mul_zero, List.drop_zero, List.take_left' (length_leBytes 8 v), leNat_leBytes]

theorem imgDw_next (v : Nat) (r : List Byte) (n : Nat) : imgDw (leBytes 8 v ++ r) (n + 1) = imgDw r n := by
  have hdrop : (leBytes 8 v ++ r).drop (8 * (n + 1)) = r.drop (8 * n) := by
    rw [Nat.mul_succ, Nat.add_comm, ← List.drop_drop, List.drop_left' (length_leBytes 8 v)]
  rw [imgDw, hdrop]
  rfl

theorem length_dirEntry (d : DirEntry) : d.bytes.length = 32 := by simp [DirEntry.bytes, length_leBytes]

theorem length_furRecord (k : Core) (fn : FurNo) (f : Furrow) (top : Option DirEntry) : (k.furRecord fn f top).length = 64 := by
  unfold Core.furRecord
  cases top <;> simp [length_leBytes, length_dirEntry]

theorem b2n_mod (b : Bool) : b2n b % 2 = b2n b := by cases b <;> rfl

theorem furRecord_depths (k : Core) (fn : FurNo) (f : Furrow) (top : Option DirEntry) :
    imgDw (k.furRecord fn f top) 0 = f.sl % 2 ^ 32 * 2 ^ 32 + f.dd % 2 ^ 32 := by
  simp only [Core.furRecord, List.append_assoc]
  rw [imgDw_first]
  simp only [pack, List.map_cons, List.map_nil, List.sum_cons, List.sum_nil]
  omega

theorem furRecord_shape (k : Core) (fn : FurNo) (f : Furrow) (top : Option DirEntry) :
    imgDw (k.furRecord fn f top) 1 = f.size % 2 ^ 32 * 2 ^ 32 + (f.lc - 1) % 64 * 2 ^ 8 + f.parent % 16 * 2 ^ 4 + b2n f.full * 2 ^ 3 + b2n f.child * 2 ^ 2 +
      b2n f.empty * 2 + b2n f.opened := by
  simp only [Core.furRecord, List.append_assoc]
  rw [imgDw_next, imgDw_first]
  have h1 := b2n_mod f.full
  have h2 := b2n_mod f.child
  have h3 := b2n_mod f.empty
  have h4 := b2n_mod f.opened
  simp only [pack, List.map_cons, List.map_nil, List.sum_cons, List.sum_nil]
  omega

theorem furRecord_region (k : Core) (fn : FurNo) (f : Furrow) (top : Option DirEntry) : imgDw (k.furRecord fn f top) 2 = f.region.toNat := by
  simp only [Core.furRecord, List.append_assoc]
  rw [imgDw_next, imgDw_next, imgDw_first, Nat.mod_eq_of_lt f.region.isLt]

/-! ### Words without an effect at issue (R249) -/

theorem word_gone_id {s u : State} {h : HOp} {n kind : Nat} {i : Instr} {ins : Option Instr} {hdr : Header} {hfmt : Nat} {fp : Access4}
    {spoil : List (Nat × Nat)} (hexec : exec i s = u.furGo h n kind ins hdr hfmt fp spoil id) (hu : Unshadowed s u) {e : SEntry}
    (he : s.headWord = some e) : ∃ t, exec i s = .next t ∧ FurGone s u t h n kind fun k => k := by
  have hid : id (u.furIssued fp) = { (u.furIssued fp).modMyCore fun k => k with stamps := (u.furIssued fp).stamps } := by
    rw [State.modMyCore, State.modCore_id]
    rfl
  obtain ⟨t, ht, hgone⟩ := furGo_gone hu he h n kind ins hdr hfmt fp spoil hid fun _ => rfl
  exact ⟨t, hexec.trans ht, hgone⟩

/-! ### Traps of FUR words (R246, R263) -/

/-- A trap raised in a state that differs from `s` in no register, no byte and not in what its record says. -/
theorem Trapped.of_before {s v t : State} {cause code level : Nat} {det : Vector Word 4} (h : Trapped v t cause code level det) (hd : SameData s v)
    (hcur : v.cur = s.cur) (hseq : v.curSeq = s.curSeq) (hs : v.me.stream = s.me.stream ∧ v.me.cursors = s.me.cursors) :
    Trapped s t cause code level det := by
  obtain ⟨hregs, hheads, hbytes⟩ := hd
  exact ⟨h.stopping, by rw [← hcur, ← hseq]; exact h.record, ⟨h.unissued.1.trans hs.1, h.unissued.2.trans hs.2⟩, fun r => (h.regs r).trans (hregs r),
    fun r => (h.headers r).trans (hheads r), fun a => ⟨(h.bytes a).1.trans (hbytes a).1, (h.bytes a).2.trans (hbytes a).2⟩⟩

theorem beginStop_furs {s : State} (hidle : s.myCore.fcmd = none) (x : CtxId) (traps : List TrapRec) (forced : Bool) (cuts : List (Nat × CutEntry)) :
    (s.beginStop s.cur.core x traps false forced cuts).myCore.furs = s.myCore.furs := by
  obtain ⟨xs, hcore⟩ := beginStop_idle (x := x) (clamp := false) (.inr hidle) traps forced cuts
  obtain ⟨-, -, -, -, -, -, hcur, -⟩ := s.beginStop_ctx s.cur.core x traps false forced cuts
  rw [State.myCore, hcur, hcore]
  rfl

/-- A trap that stops a context in which no FUR word runs leaves the furrows. -/
theorem raise_furs {s : State} (hl : s.live) (hidle : s.myCore.fcmd = none) (cause code level : Nat) (det : Vector Word 4) :
    (s.raise cause code level det).myCore.furs = s.myCore.furs := by
  obtain ⟨hp, hn⟩ := hl
  have hn' : (s.ctx s.cur.core s.cur.ctx).stop = none := hn
  have hp' : ((s.ctx s.cur.core s.cur.ctx).phase = .running || (s.ctx s.cur.core s.cur.ctx).phase = .handler) = true := by
    rcases hp with h | h <;> simp only [State.me] at h <;> simp [h]
  unfold State.raise State.raiseAt
  dsimp only
  rw [hn', if_pos hp']
  exact beginStop_furs hidle ..

/-- A furrow set changes nothing that a trap records. -/
theorem setFur_record (s : State) (fn : FurNo) (g : Core → Furrow) :
    (s.modMyCore fun k => k.setFur fn (g k)).me = s.me ∧ (s.modMyCore fun k => k.setFur fn (g k)).headWord = s.headWord := by
  have hme : (s.modMyCore fun k => k.setFur fn (g k)).me = s.me := ctx_modCore_of_ctxs s s.cur.core _ rfl s.cur.ctx
  exact ⟨hme, congrArg (fun k : Ctx => k.head s.cur.tag) hme⟩

theorem setFur_word (s : State) (fn : FurNo) (g : Core → Furrow) : (s.modMyCore fun k => k.setFur fn (g k)).curIdx = s.curIdx ∧
    (s.modMyCore fun k => k.setFur fn (g k)).curWord = s.curWord ∧ (s.modMyCore fun k => k.setFur fn (g k)).curSeq = s.curSeq := by
  obtain ⟨hme, hhead⟩ := setFur_record s fn g
  simp only [State.curIdx, State.curWord, State.curSeq, hhead, hme]
  exact ⟨trivial, trivial, rfl⟩

theorem trapRange_setFur (s : State) (fn : FurNo) (g : Core → Furrow) : (s.modMyCore fun k => k.setFur fn (g k)).trapRange =
    (s.modMyCore fun k => k.setFur fn (g k)).raise 0x02 0 1 s.wordDetail := by
  obtain ⟨hidx, hword, -⟩ := setFur_word s fn g
  rw [State.trapRange, hidx, hword]
  rfl

theorem trapFurEmpty_setFur (s : State) (fn : FurNo) (g : Core → Furrow) (n : Nat) : (s.modMyCore fun k => k.setFur fn (g k)).trapFurEmpty n =
    (s.modMyCore fun k => k.setFur fn (g k)).raise 0x04 0 1 #v[BitVec.ofNat 64 s.curIdx, s.curWord, BitVec.ofNat 64 n, 0] := by
  obtain ⟨hidx, hword, -⟩ := setFur_word s fn g
  rw [State.trapFurEmpty, hidx, hword]

/-- A trap raised with furrow `fn` set in an idle coder. -/
theorem raise_setFur {s : State} (hl : s.live) (hidle : s.myCore.fcmd = none) (fn : FurNo) (g : Core → Furrow) (cause code level : Nat)
    (det : Vector Word 4) : Trapped s ((s.modMyCore fun k => k.setFur fn (g k)).raise cause code level det) cause code level det ∧
      ((s.modMyCore fun k => k.setFur fn (g k)).raise cause code level det).myCore.fur fn = g s.myCore := by
  obtain ⟨hme, -⟩ := setFur_record s fn g
  obtain ⟨-, -, hseq⟩ := setFur_word s fn g
  have hcore : (s.modMyCore fun k => k.setFur fn (g k)).myCore = s.myCore.setFur fn (g s.myCore) := State.myCore_modMyCore ..
  have hlive : (s.modMyCore fun k => k.setFur fn (g k)).live := by rwa [State.live, hme]
  refine ⟨(trapped_raise _ hlive ..).of_before (sameData_modMyCore_at rfl) rfl hseq ⟨by rw [hme], by rw [hme]⟩, ?_⟩
  have hfurs := raise_furs hlive (by rw [hcore]; exact hidle) cause code level det
  rw [Core.fur, hfurs, hcore]
  exact Core.fur_setFur_self ..

/-- Accesses stop no context. -/
theorem Passage.live {s u : State} (h : Passage s u) (hl : s.live) : u.live := by
  obtain ⟨a, b, p, o, d, hme⟩ := h.me
  rw [State.live, hme]
  exact hl

theorem Passage.wordDetail {s u : State} (h : Passage s u) : u.wordDetail = s.wordDetail ∧ u.curSeq = s.curSeq := by
  obtain ⟨a, b, p, o, d, hme⟩ := h.me
  have hhead := headWord_of_traffic h.toTraffic
  simp only [State.wordDetail, State.curIdx, State.curWord, State.curSeq, hhead, hme, h.cur, and_self]

/-! ### FPUSH (R242, R252) -/

section
variable {s : State} {h : HOp} {fn cf : FurNo} {e : SEntry} (hfree : s.furFree = true) (hflag : s.furFlag h = true) (he : s.headWord = some e)

/-- The codes of a tile in ABUF. -/
def Core.tileCodes (k : Core) (d : Tensor) : List Nat :=
  (List.range d.rows).flatMap fun r => (List.range d.d0).map fun i => k.bufElem 1 0 (d.bitAt r i) d.w

/-- The furrow `g` with the entry of a tile of `d` that it has coded for furrow `f`. -/
def Furrow.pushed (g f : Furrow) (d : Tensor) (bias tb : Nat) : Furrow :=
  g.pushEntry { spos := g.sl, count := d.size, fmt := d.fmt, bias := bias, ln := f.lc - 1, tb := tb, child := false, region := 0, size := 0 }

theorem Passage.tileCodes {s u : State} (hu : Passage s u) (d : Tensor) : u.myCore.tileCodes d = s.myCore.tileCodes d := by
  have hk := congrArg (fun k : Core => k.tileCodes d) hu.myCore
  exact hk

section
variable {d : Tensor} {tb : Fin 8} (hd : s.furTile (s.rdH h.ha) = some d) (ho : (s.myCore.fur fn).opened = true)
  (hv : (s.myCore.tabs[tb]).valid = true) (hfm : d.fmt ≠ 0) (hw : d.w ≤ 16)
include hfree hflag hd ho hv hfm hw

theorem exec_fpush_empty (h0 : d.d0 = 0) : exec (.fpush h fn tb) s =
    (s.readStruck s.cur.core s.cur.ctx 3 [(1, d.mask)]).furGo h 6 0 none 0 0 (s.furPrint h [(1, d.mask)] []) [] id := by
  have hw' : ¬d.w > 16 := Nat.not_lt.2 hw
  change execFpush h fn tb s = _
  simp only [execFpush, hfree, hflag, hd, ho, hv, hfm, hw', h0, Bool.not_true, Bool.or_false, Bool.false_eq_true, if_false, if_true, decide_false]

theorem exec_fpush {g : Furrow} (h0 : d.d0 ≠ 0) (hp : (s.myCore.fur fn).pushTile s.myCore.tabs[tb] d.w (s.myCore.tileCodes d) = some g) :
    exec (.fpush h fn tb) s =
      if (g.overflows g.sl (g.dd + 1)) = true then .next ((s.readStruck s.cur.core s.cur.ctx 3 [(1, d.mask)]).furFull fn)
      else (s.readStruck s.cur.core s.cur.ctx 3 [(1, d.mask)]).furGo h
        (6 + ceilDiv d.size (s.myCore.fur fn).lc + ceilDiv (if d.w = 16 then 2 * ceilDiv d.size 2 else 0) 64) 0 none (s.rdH h.ha) d.fmt
        (s.furPrint h [(1, d.mask)] []) [] fun u =>
          (u.modMyCore fun k => k.setFur fn (g.pushed (s.myCore.fur fn) d (hf (s.rdH h.ha) 13) tb.val)).setStamp
            (s.entryKey (s.myCore.fur fn) (s.myCore.fur fn).dd) s.myCore.tabs[tb] := by
  have hw' : ¬d.w > 16 := Nat.not_lt.2 hw
  have hcodes := (Passage.readStruck s s.cur.core s.cur.ctx 3 [(1, d.mask)]).tileCodes d
  have hhead := (Passage.readStruck s s.cur.core s.cur.ctx 3 [(1, d.mask)]).rdH h.ha
  rw [Core.tileCodes] at hcodes
  change execFpush h fn tb s = _
  simp only [execFpush, hfree, hflag, hd, ho, hv, hfm, hw', h0, hcodes, hhead, hp, Bool.not_true, Bool.or_false, Bool.false_eq_true, if_false, decide_false]
  rfl

include he

theorem fpush_empty (h0 : d.d0 = 0) :
    ∃ t, exec (.fpush h fn tb) s = .next t ∧ FurRuns s t h 6 ∧ t.myCore.furs = s.myCore.furs ∧ SameBuffers s t := by
  have hu := Passage.readStruck s s.cur.core s.cur.ctx 3 [(1, d.mask)]
  obtain ⟨t, ht, hgone⟩ := word_gone_id (exec_fpush_empty hfree hflag hd ho hv hfm hw h0) hu.unshadowed he
  exact ⟨t, ht, hgone.furRuns hu, (hgone.part (fun k => k.furs) fun _ _ _ _ _ => rfl).trans hu.furs, hgone.sameBuffers hu fun _ => ⟨rfl, rfl, rfl⟩⟩

theorem fpush_pushes {g : Furrow} (h0 : d.d0 ≠ 0) (hp : (s.myCore.fur fn).pushTile s.myCore.tabs[tb] d.w (s.myCore.tileCodes d) = some g)
    (hfit : g.overflows g.sl (g.dd + 1) = false) :
    ∃ t, exec (.fpush h fn tb) s = .next t ∧
      FurRuns s t h (6 + ceilDiv d.size (s.myCore.fur fn).lc + ceilDiv (if d.w = 16 then 2 * ceilDiv d.size 2 else 0) 64) ∧ SameBuffers s t ∧
      t.myCore.fur fn = g.pushed (s.myCore.fur fn) d (hf (s.rdH h.ha) 13) tb.val ∧ OtherFurrows s t [fn] := by
  have hu := Passage.readStruck s s.cur.core s.cur.ctx 3 [(1, d.mask)]
  have hexec := exec_fpush hfree hflag hd ho hv hfm hw h0 hp
  rw [hfit] at hexec
  obtain ⟨t, ht, hgone⟩ := furGo_gone hu.unshadowed he h
    (6 + ceilDiv d.size (s.myCore.fur fn).lc + ceilDiv (if d.w = 16 then 2 * ceilDiv d.size 2 else 0) 64) 0 none (s.rdH h.ha) d.fmt
    (s.furPrint h [(1, d.mask)] []) [] (f := fun u =>
      (u.modMyCore fun k => k.setFur fn (g.pushed (s.myCore.fur fn) d (hf (s.rdH h.ha) 13) tb.val)).setStamp
        (s.entryKey (s.myCore.fur fn) (s.myCore.fur fn).dd) s.myCore.tabs[tb])
    (g := fun k => k.setFur fn (g.pushed (s.myCore.fur fn) d (hf (s.rdH h.ha) 13) tb.val)) rfl fun _ => rfl
  refine ⟨t, hexec.trans ht, hgone.furRuns hu, hgone.sameBuffers hu fun _ => ⟨rfl, rfl, rfl⟩, ?_,
    hgone.others hu fun k f hf => Core.fur_setFur_ne k (by simpa using hf) _⟩
  rw [hgone.part (fun k => k.fur fn) fun _ _ _ _ _ => rfl, Core.fur_setFur_self]

omit he in
theorem fpush_full {g : Furrow} (h0 : d.d0 ≠ 0) (hp : (s.myCore.fur fn).pushTile s.myCore.tabs[tb] d.w (s.myCore.tileCodes d) = some g)
    (hfull : g.overflows g.sl (g.dd + 1) = true) (hl : s.live) :
    ∃ t, exec (.fpush h fn tb) s = .next t ∧ (t.myCore.fur fn).full = true ∧ Trapped s t 0x02 0 1 s.wordDetail := by
  have hu := Passage.readStruck s s.cur.core s.cur.ctx 3 [(1, d.mask)]
  have hidle : (s.readStruck s.cur.core s.cur.ctx 3 [(1, d.mask)]).myCore.fcmd = none := by
    have hk := congrArg Core.fcmd hu.myCore
    exact hk.trans (Option.isNone_iff_eq_none.1 hfree)
  obtain ⟨htrap, hfur⟩ := raise_setFur (hu.live hl) hidle fn (fun k => { k.fur fn with full := true }) 0x02 0 1 s.wordDetail
  have hexec := exec_fpush hfree hflag hd ho hv hfm hw h0 hp
  rw [hfull, if_pos rfl] at hexec
  rw [State.furFull, trapRange_setFur, hu.wordDetail.1] at hexec
  have hfull' := congrArg Furrow.full hfur
  obtain ⟨a, b, p, o, r, hme⟩ := hu.me
  have hdata := sameData_of_me (by rw [hme]) (by rw [hme]) (State.readStruck_mems s s.cur.core s.cur.ctx 3 [(1, d.mask)])
  exact ⟨_, hexec, hfull', htrap.of_before hdata hu.cur hu.wordDetail.2 ⟨by rw [hme], by rw [hme]⟩⟩

end

/-! ### FPOP (R243, R253) -/

section
variable {d : Tensor} (hd : s.furTile (s.rdH h.hd) = some d) (ho : (s.myCore.fur fn).opened = true) (hfm : d.fmt ≠ 0) (hw : d.w ≤ 16)
include hfree hflag hd ho hfm hw

theorem fpop_traps_empty (hz : (s.myCore.fur fn).dd = 0) (hl : s.live) :
    ∃ t, exec (.fpop h fn true) s = .next t ∧ (t.myCore.fur fn).empty = true ∧
      Trapped s t 0x04 0 1 #v[BitVec.ofNat 64 s.curIdx, s.curWord, BitVec.ofNat 64 fn.val, 0] := by
  have hw' : ¬d.w > 16 := Nat.not_lt.2 hw
  obtain ⟨htrap, hfur⟩ := raise_setFur hl (Option.isNone_iff_eq_none.1 hfree) fn (fun k => { k.fur fn with empty := true }) 4 0 1
    #v[BitVec.ofNat 64 s.curIdx, s.curWord, BitVec.ofNat 64 fn.val, 0]
  have hexec : exec (.fpop h fn true) s = .next ((s.modMyCore fun k => k.setFur fn { k.fur fn with empty := true }).trapFurEmpty fn.val) := by
    change execFpop h fn true s = _
    simp only [execFpop, hfree, hflag, hd, ho, hfm, hw', hz, Bool.not_true, Bool.or_false, Bool.false_eq_true, if_false, if_true, decide_false]
  rw [trapFurEmpty_setFur] at hexec
  have hempty := congrArg Furrow.empty hfur
  exact ⟨_, hexec, hempty, htrap⟩

include he

theorem fpop_empty (hz : (s.myCore.fur fn).dd = 0) :
    ∃ t, exec (.fpop h fn false) s = .next t ∧ FurRuns s t h 6 ∧ t.myCore.fur fn = { s.myCore.fur fn with empty := true } ∧ SameBuffers s t := by
  have hw' : ¬d.w > 16 := Nat.not_lt.2 hw
  have hexec : exec (.fpop h fn false) s = s.furGo h 6 0 none 0 0 (s.furPrint h [] [(1, d.mask)]) [] fun u => u.modMyCore fun k =>
      k.setFur fn { k.fur fn with empty := true } := by
    change execFpop h fn false s = _
    simp only [execFpop, hfree, hflag, hd, ho, hfm, hw', hz, Bool.not_true, Bool.or_false, Bool.false_eq_true, if_false, if_true, decide_false]
  obtain ⟨t, ht, hgone⟩ := word_gone hexec (Passage.refl s).unshadowed he fun _ _ => rfl
  refine ⟨t, ht, hgone.furRuns (Passage.refl s), ?_, hgone.sameBuffers (Passage.refl s) fun _ => ⟨rfl, rfl, rfl⟩⟩
  rw [hgone.part (fun k => k.fur fn) fun _ _ _ _ _ => rfl, Core.fur_setFur_self]

theorem fpop_nothing (hz : (s.myCore.fur fn).dd ≠ 0) (h0 : d.d0 = 0) (et : Bool) :
    ∃ t, exec (.fpop h fn et) s = .next t ∧ FurRuns s t h 6 ∧ t.myCore.furs = s.myCore.furs ∧ SameBuffers s t := by
  have hw' : ¬d.w > 16 := Nat.not_lt.2 hw
  have hexec : exec (.fpop h fn et) s = s.furGo h 6 0 none 0 0 (s.furPrint h [] [(1, d.mask)]) [] id := by
    change execFpop h fn et s = _
    simp only [execFpop, hfree, hflag, hd, ho, hfm, hw', hz, h0, Bool.not_true, Bool.or_false, Bool.false_eq_true, if_false, if_true, decide_false]
  obtain ⟨t, ht, hgone⟩ := word_gone_id hexec (Passage.refl s).unshadowed he
  exact ⟨t, ht, hgone.furRuns (Passage.refl s), hgone.part (fun k => k.furs) fun _ _ _ _ _ => rfl,
    hgone.sameBuffers (Passage.refl s) fun _ => ⟨rfl, rfl, rfl⟩⟩

/-- What the pop of a tile does to the core. -/
def Core.popped (k : Core) (fn : FurNo) (g : Furrow) (d : Tensor) (codes : List Nat) : Core :=
  { k.putPopped fn g with abuf := d.putLines k.abuf codes.zipIdx }

theorem fpop_pops {q : DirEntry} {s1 s2 : State} {f1 g : Furrow} {codes : List Nat} (et : Bool) (hz : (s.myCore.fur fn).dd ≠ 0) (h0 : d.d0 ≠ 0)
    (htop : s.furTop s.cur.core s.cur.ctx h.ac.val s.furAcq (s.myCore.fur fn) = (.ok (some q), s1, f1)) (hchild : q.child = false) (hfmt : d.fmt = q.fmt)
    (hbias : hf (s.rdH h.hd) 13 = q.bias) (hsize : d.size = q.count) (hloose : (s.myCore.fur fn).loose = false)
    (hvalid : (s.myCore.tabs[Fin.ofNat 8 q.tb]).valid = true)
    (hstamp : ∀ u, s.stamp (s.entryKey (s.myCore.fur fn) ((s.myCore.fur fn).dd - 1)) = some u → u = s.myCore.tabs[Fin.ofNat 8 q.tb])
    (hforeign : s.furForeign s.cur.core s.cur.ctx (s.myCore.fur fn) = false)
    (hpop : s1.furPopTile s.cur.core s.cur.ctx h.ac.val s.furAcq s.myCore.tabs[Fin.ofNat 8 q.tb] d.w d.size f1 = (.ok codes, s2, g)) :
    ∃ t, exec (.fpop h fn et) s = .next t ∧ Passage s s2 ∧
      FurGone s s2 t h (6 + ceilDiv d.size (s.myCore.fur fn).lc + ceilDiv (if d.w = 16 then 2 * ceilDiv d.size 2 else 0) 64) 0
        fun k => k.popped fn g.popEntry d codes := by
  have hw' : ¬d.w > 16 := Nat.not_lt.2 hw
  obtain ⟨hwidth, hbuf⟩ := furTile_width hd hfm
  have hfits : (q.child || decide (d.fmt ≠ q.fmt) || decide (hf (s.rdH h.hd) 13 ≠ q.bias) || decide (d.size ≠ q.count) ||
      !(s.myCore.tabs[Fin.ofNat 8 q.tb]).valid) = false := by
    simp only [hchild, hfmt, hbias, hsize, hvalid, ne_eq, not_true_eq_false, decide_false, Bool.not_true, Bool.or_false]
  have hput (k : Core) : codes.zipIdx.foldl (fun (k : Core) p => k.putAt d (p.2 / d.d0) (p.2 % d.d0) p.1) (k.putPopped fn g.popEntry) =
      k.popped fn g.popEntry d codes := foldl_putAt hbuf _ _
  have hu : Passage s s2 := by
    have h1 := Passage.furTop s s.cur.core s.cur.ctx h.ac.val s.furAcq (s.myCore.fur fn)
    have h2 := Passage.furPopTile s.cur.core s.cur.ctx h.ac.val s.furAcq s1 s.myCore.tabs[Fin.ofNat 8 q.tb] d.w d.size f1
    rw [htop] at h1
    rw [hpop] at h2
    exact h1.trans h2
  have hexec : exec (.fpop h fn et) s = s2.furGo h
      (6 + ceilDiv d.size (s.myCore.fur fn).lc + ceilDiv (if d.w = 16 then 2 * ceilDiv d.size 2 else 0) 64) 0 none (s.rdH h.hd) d.fmt
      (s.furPrint h [] [(1, d.mask)]) (lineSpans d.mask) fun u => u.modMyCore fun k => k.popped fn g.popEntry d codes := by
    change execFpop h fn et s = _
    have hcoded : s.stamp (s.entryKey (s.myCore.fur fn) ((s.myCore.fur fn).dd - 1)) = none ∨
        s.stamp (s.entryKey (s.myCore.fur fn) ((s.myCore.fur fn).dd - 1)) = some s.myCore.tabs[Fin.ofNat 8 q.tb] := by
      rcases hst : s.stamp (s.entryKey (s.myCore.fur fn) ((s.myCore.fur fn).dd - 1)) with _ | u
      · exact .inl rfl
      · exact .inr (congrArg some (hstamp u hst))
    rcases hcoded with hst | hst
    all_goals
      simp only [execFpop, hfree, hflag, hd, ho, hfm, hw', hz, h0, htop, hfits, hloose, hst, hforeign, hpop, hput, Bool.not_true, Bool.or_false,
        Bool.false_eq_true, if_false, decide_false, ne_eq, not_true_eq_false]
  obtain ⟨t, ht, hgone⟩ := word_gone hexec hu.unshadowed he fun _ _ => rfl
  exact ⟨t, ht, hu, hgone⟩

end

/-! ### FTBL and FSPLIT import (R249, R255) -/

section
variable {d : Tensor} (hd : s.furPlace (s.rdH h.ha) false = some d)
include hfree hflag he hd

theorem ftbl_reads (tb : Fin 8) (htr : d.tr = false) (hsps : d.sps = 0) (hbse : d.bse = false) (hbytes : d.imageBytes = 528) :
    ∃ t m, exec (.ftbl h tb) s = .next t ∧ FurRuns s t h 4 ∧ t.myCore.fcmd = some m ∧ m.kind = 1 ∧ t.myCore.tabs = s.myCore.tabs ∧
      SameBuffers s t := by
  have hexec : exec (.ftbl h tb) s = s.furGo h 4 1 (some (.ftbl h tb)) (s.rdH h.ha) d.fmt
      (s.furPrint h (if d.buf = 0 then [] else [(1, d.mask)]) []) [] id := by
    change execFtbl h tb s = _
    simp only [execFtbl, hfree, hflag, hd, htr, hsps, hbse, hbytes, Bool.not_true, Bool.or_false, Bool.false_eq_true, if_false, ne_eq, not_true_eq_false,
      decide_false]
  obtain ⟨t, ht, hgone⟩ := word_gone_id hexec (Passage.refl s).unshadowed he
  obtain ⟨m, xs, a, b, hkind, hcore⟩ := hgone.core
  exact ⟨t, m, ht, hgone.furRuns (Passage.refl s), by rw [hcore], hkind, by rw [hcore], hgone.sameBuffers (Passage.refl s) fun _ => ⟨rfl, rfl, rfl⟩⟩

theorem fsplitImport_reads (hbytes : 32 ≤ d.imageBytes) (hc : (s.myCore.fur cf).opened = false) :
    ∃ t m, exec (.fsplitImport h cf) s = .next t ∧ FurRuns s t h 6 ∧ t.myCore.fcmd = some m ∧ m.kind = 2 ∧ t.myCore.furs = s.myCore.furs ∧
      SameBuffers s t := by
  have hexec : exec (.fsplitImport h cf) s = s.furGo h 6 2 (some (.fsplitImport h cf)) (s.rdH h.ha) d.fmt
      (s.furPrint h (if d.buf = 0 then [] else [(1, d.mask)]) []) [] id := by
    change execFsplitImport h cf s = _
    simp only [execFsplitImport, hfree, hflag, hd, hc, Nat.not_lt.2 hbytes, Bool.not_true, Bool.or_false, Bool.false_eq_true, if_false, decide_false]
  obtain ⟨t, ht, hgone⟩ := word_gone_id hexec (Passage.refl s).unshadowed he
  obtain ⟨m, xs, a, b, hkind, hcore⟩ := hgone.core
  exact ⟨t, m, ht, hgone.furRuns (Passage.refl s), by rw [hcore], hkind, by rw [hcore], hgone.sameBuffers (Passage.refl s) fun _ => ⟨rfl, rfl, rfl⟩⟩

end

/-! ### FSTAT (R257) -/

/-- The furrow after FSTAT, whose top entry has come onto the die as `f1`. -/
def Furrow.stated (f1 : Furrow) (clr : Bool) : Furrow := if clr then { f1 with empty := false, full := false } else f1

section
variable {d : Tensor} {top : Option DirEntry} {s1 : State} {f1 : Furrow} (hd : s.myCore.tensor (s.rdH h.hd) 8 = some d) (hb : d.buf = 1)
  (htr : d.tr = false) (hplane : d.planeOk s.myGrant = true) (hcov : s.myGrant.covers 1 (d.mask ||| 2 ^ d.base) = true) (hbase : d.base < 8192)
  (htop : s.furTop s.cur.core s.cur.ctx h.ac.val s.furAcq (s.myCore.fur fn) = (.ok top, s1, f1))
include hfree hflag hd hb htr hplane hcov hbase htop

theorem exec_fstat (clr : Bool) : exec (.fstat h fn clr) s = s1.furGo h 4 0 none 0 0 (s.furPrint h [] (if d.d0 = 0 then [] else [(1, 2 ^ d.base)]))
    (if d.d0 = 0 then [] else [(d.base * 512, 64)]) fun u => u.modMyCore fun k =>
      if d.d0 = 0 then k.setFur fn (f1.stated clr)
      else { k.setFur fn (f1.stated clr) with abuf := putBytes k.abuf (d.base * 512) (s.myCore.furRecord fn (s.myCore.fur fn) top) } := by
  have hset (k : Core) := setBufBytes_eq (k.setFur fn (f1.stated clr)) (d.base * 512) (s.myCore.furRecord fn (s.myCore.fur fn) top)
  have hbase' : ¬d.base ≥ 8192 := Nat.not_le.2 hbase
  simp only [Furrow.stated] at hset ⊢
  change execFstat h fn clr s = _
  simp only [execFstat, hfree, hflag, hd, hb, htr, hplane, hcov, hbase', htop, hset, Bool.not_true, Bool.or_false, Bool.false_eq_true, if_false, ne_eq,
    not_true_eq_false, decide_false]
  rfl

include he

theorem fstat_empty (clr : Bool) (h0 : d.d0 = 0) : ∃ t, exec (.fstat h fn clr) s = .next t ∧ FurRuns s t h 4 ∧ SameBuffers s t := by
  have hu : Passage s s1 := by
    have h1 := Passage.furTop s s.cur.core s.cur.ctx h.ac.val s.furAcq (s.myCore.fur fn)
    rwa [htop] at h1
  have hexec := exec_fstat hfree hflag hd hb htr hplane hcov hbase htop clr
  simp only [h0, if_true] at hexec
  obtain ⟨t, ht, hgone⟩ := word_gone hexec hu.unshadowed he fun _ _ => rfl
  exact ⟨t, ht, hgone.furRuns hu, hgone.sameBuffers hu fun _ => ⟨rfl, rfl, rfl⟩⟩

theorem fstat_writes (clr : Bool) (h0 : d.d0 ≠ 0) : ∃ t, exec (.fstat h fn clr) s = .next t ∧ FurRuns s t h 4 ∧
    t.myCore.bufBytes 1 (d.base * 512) 64 = s.myCore.furRecord fn (s.myCore.fur fn) top ∧ (∀ l, l ≠ d.base → t.myCore.line 1 l = s.myCore.line 1 l) ∧
    t.myCore.fur fn = f1.stated clr ∧ OtherFurrows s t [fn] := by
  have hu : Passage s s1 := by
    have h1 := Passage.furTop s s.cur.core s.cur.ctx h.ac.val s.furAcq (s.myCore.fur fn)
    rwa [htop] at h1
  have hexec := exec_fstat hfree hflag hd hb htr hplane hcov hbase htop clr
  simp only [h0, if_false] at hexec
  generalize hrec : s.myCore.furRecord fn (s.myCore.fur fn) top = bs at hexec ⊢
  obtain ⟨t, ht, hgone⟩ := word_gone hexec hu.unshadowed he fun _ k => setFur_ctxs k fn (f1.stated clr)
  have hlen : bs.length = 64 := hrec ▸ length_furRecord ..
  refine ⟨t, ht, hgone.furRuns hu, ?_, fun l hl => ?_, ?_, hgone.others hu fun k f hf => Core.fur_setFur_ne k (by simpa using hf) _⟩
  · have habuf := hgone.part (fun k => k.abuf) fun _ _ _ _ _ => rfl
    rw [bufBytes_of_abuf habuf, ← hlen]
    exact bufBytes_putBytes (s1.myCore.setFur fn (f1.stated clr)) ..
  · have hline := congrArg (fun k : Core => k.line 1 l) hu.myCore
    rw [hgone.part (fun k => k.line 1 l) fun _ _ _ _ _ => rfl]
    exact (sget_putBytes _ _ _ fun j h1 h2 => by omega).trans hline
  · rw [hgone.part (fun k => k.fur fn) fun _ _ _ _ _ => rfl]
    exact Core.fur_setFur_self s1.myCore fn _

end

end

theorem bufElem_abuf (k : Core) (p w : Nat) : k.bufElem 1 0 p w = lineElem k.abuf p w := by
  rw [Core.bufElem, Nat.zero_add]
  rfl

/-- Settles O50. -/
theorem furrowTiles : Obligations.FurrowTiles := by
  intro s h fn cf tb et clr e hfree hflag he
  refine ⟨fun d g hd ho hv hfm hw => ⟨fun h0 => fpush_empty hfree hflag he hd ho hv hfm hw h0, fun h0 hp => ⟨fun hfit => ?_, fun hfull hl =>
      fpush_full hfree hflag hd ho hv hfm hw h0 hp hfull hl⟩⟩,
    fun d hd ho hfm hw => ⟨fun hz => ⟨fpop_empty hfree hflag he hd ho hfm hw hz, fpop_traps_empty hfree hflag hd ho hfm hw hz⟩,
      fun hz h0 => fpop_nothing hfree hflag he hd ho hfm hw hz h0 et,
      fun q s1 f1 codes s2 g hz h0 htop hchild hfmt hbias hsize hloose hvalid hstamp hforeign hpop => ?_⟩,
    fun d hd => ⟨fun htr hsps hbse hbytes => ftbl_reads hfree hflag he hd tb htr hsps hbse hbytes,
      fun hbytes hc => fsplitImport_reads hfree hflag he hd hbytes hc⟩,
    fun d top s1 f1 hd hb htr hplane hcov hbase htop => ⟨fun h0 => fstat_empty hfree hflag he hd hb htr hplane hcov hbase htop clr h0, fun h0 => ?_⟩⟩
  · obtain ⟨t, ht, hruns, hbufs, hfur, hothers⟩ := fpush_pushes hfree hflag he hd ho hv hfm hw h0 hp hfit
    exact ⟨t, ht, hruns, hbufs, by rw [hfur]; rfl, by rw [hfur]; rfl, hothers, _, by rw [hfur]; rfl, rfl, rfl, rfl, rfl, rfl, rfl, rfl⟩
  · obtain ⟨t, ht, hu, hgone⟩ := fpop_pops hfree hflag he hd ho hfm hw et hz h0 htop hchild hfmt hbias hsize hloose hvalid hstamp hforeign hpop
    obtain ⟨hwidth, hbuf⟩ := furTile_width hd hfm
    have hlen := furPopTile_length hpop
    refine ⟨t, ht, hgone.furRuns hu, ?_, hgone.others hu fun k f hf => ?_, ?_, fun l hl => ?_, fun hrows hfits i hi => ?_⟩
    · rw [hgone.part (fun k => k.fur fn) fun _ _ _ _ _ => rfl]
      exact Core.fur_setFur_self s2.myCore fn g.popEntry
    · exact Core.fur_setFur_ne k (by simpa using hf) _
    · have hcbuf := congrArg Core.cbuf hu.myCore
      exact (hgone.part (fun k => k.cbuf) fun _ _ _ _ _ => rfl).trans hcbuf
    · have hline := congrArg (fun k : Core => k.line 1 l) hu.myCore
      rw [hgone.part (fun k => k.line 1 l) fun _ _ _ _ _ => rfl]
      exact (sget_putLines hbuf hwidth h0 hl _ _ fun p hp => hlen ▸ List.snd_lt_of_mem_zipIdx hp).trans hline
    · have habuf := hgone.part (fun k => k.abuf) fun _ _ _ _ _ => rfl
      have hcodes : codes.length = d.d0 := by rw [hlen, Tensor.size, hrows, Nat.mul_one]
      have helem := lineElem_putLines hbuf hfits hi codes 0 s2.myCore.abuf (by omega)
      rw [if_pos (by omega), Nat.sub_zero] at helem
      rw [bufElem_abuf, habuf]
      exact helem
  · obtain ⟨t, ht, hruns, hbytes, hlines, hfur, hothers⟩ := fstat_writes hfree hflag he hd hb htr hplane hcov hbase htop clr h0
    refine ⟨t, ht, hruns, by rw [hbytes, furRecord_depths], by rw [hbytes, furRecord_shape], by rw [hbytes, furRecord_region], hlines, ?_, hothers⟩
    rintro rfl
    rw [hfur]
    exact ⟨rfl, rfl⟩

end Sys2Proof.Machine
end
